-- ==== Sys2Proof/Word.lean ====
section
/-!
DEFINITION. The word types of the node: bytes, 32-bit register words, 64-bit scalar registers of a tile, and the plain
bit-field arithmetic on natural numbers that every chapter of the spec uses.
-/

namespace Sys2Proof

/-- One byte of memory. -/
abbrev Byte := BitVec 8

/-- One control-space register word (R20). -/
abbrev Word := BitVec 32

/-- One scalar register of a Maolaun tile. -/
abbrev DWord := BitVec 64

/-- Bits `[hi:lo]` of a number. -/
def bitsOf (v hi lo : Nat) : Nat := v / 2 ^ lo % 2 ^ (hi + 1 - lo)

/-- Bit `k` of a number. -/
def bitOf (v k : Nat) : Bool := v / 2 ^ k % 2 == 1

/-- `v` with bits `[hi:lo]` replaced by the low bits of `x`. -/
def putBits (v hi lo x : Nat) : Nat :=
  v - bitsOf v hi lo * 2 ^ lo + x % 2 ^ (hi + 1 - lo) * 2 ^ lo

/-- 1 for true, 0 for false. -/
def b2n (b : Bool) : Nat := if b then 1 else 0

/-- Division rounded up. -/
def ceilDiv (a b : Nat) : Nat := (a + b - 1) / b

/-- The value of the low `w` bits of `v` read as two's complement. -/
def signedOf (v w : Nat) : Int :=
  let u := v % 2 ^ w
  if u < 2 ^ (w - 1) then (u : Int) else (u : Int) - (2 ^ w : Nat)

/-- The low `w` bits of an integer, two's complement. -/
def ofSigned (i : Int) (w : Nat) : Nat := (i % (2 ^ w : Nat)).toNat

end Sys2Proof
end

