-- ==== Sys2Proof/Syntax.lean ====
section
/-!
DEFINITION. The commands that the node takes from outside: one constructor for each row of spec/opcode_table.json, in the table's order,
with the operands that the row's rule names.
-/

namespace Sys2Proof

/-- A frame that reaches the transport engine (R377, R387): its port, whether its FCS is right, whether it is an IP fragment,
whether it is CE-marked, the source IP address (16 bytes in wire order as a little-endian number), and the UDP payload: base header,
extension header, ciphertext and GCM tag. -/
structure Packet where
  port : Nat
  fcs : Bool
  frag : Bool
  ce : Bool
  src : Nat
  bytes : List Nat
deriving DecidableEq, Repr

/-- A management request (R46): port index (64 and 65 the MGT ports), source address and UDP port as one number, the 16 header bytes after
the UDP header, and whether the tag verifies under the session's request key. -/
structure MgtHead where
  port : Nat
  src : Nat
  hdr : List Nat
  tagOk : Bool
deriving DecidableEq, Repr

/-- A pseudo-channel of a fen stack (R218). -/
structure FenCh where
  stack : Nat
  pc : Nat
deriving DecidableEq, Repr

/-- How many errors were corrected during a transfer of a fen channel: by its own ECC, and by the on-die ECC (R247). -/
structure FenFix where
  ecc : Nat
  onDie : Nat
deriving DecidableEq, Repr

/-- What the DIBBERs of a segment met: the one that met an uncorrectable error with its address, if any, and how many errors the on-die ECC
corrected (R247, R248). -/
structure SegEcc where
  bad : Option (Nat × Nat)
  onDie : Nat
deriving DecidableEq, Repr

/-- What the scan of a raw program met: the address of an uncorrectable error, where its pages had one, and how many errors the on-die ECC
corrected (R247, R250). -/
structure RawEcc where
  addr : Nat
  onDie : Nat
deriving DecidableEq, Repr

/-- A staging slot of a Trowel channel, which names the burst in it (R296). -/
structure TrwSlot where
  ch : Nat
  slot : Nat
deriving DecidableEq, Repr

/-- What a drive returned, and how many errors of its link were corrected meanwhile (R267, R269). -/
structure DriveData where
  bytes : List Nat
  linkCorr : Nat
deriving DecidableEq, Repr

/-- Which of the messages at an ejection port the routers bring next, and a flit of it that a link has disturbed, if any (R327, R331). -/
structure Ejected where
  pick : Nat
  seen : Option (List Nat)
deriving DecidableEq, Repr

/-- A frame on a wire, and how many FEC codewords were corrected, and were not, since the port's last frame (R356, R359). -/
structure WireFrame where
  bytes : List Nat
  fecCorr : Nat
  fecUncorr : Nat
deriving DecidableEq, Repr

/-- What the patrol's read met (0 good, 1 correctable, 2 uncorrectable), and how many words of peat, of crown SRAM and of the blocks' inner
memories other reads have had corrected since the patrol's last read (R504, R507). -/
structure PatrolRead where
  outcome : Nat
  peat : Nat
  crown : Nat
  inner : Nat
deriving DecidableEq, Repr

/-- One failing bit of a memory self-test (R518). -/
structure FailRec where
  address : Nat
  bit : Nat
  element : Nat
  flags : Nat
deriving DecidableEq, Repr

/-- An error that the pass meets at a request (R506): `kind` 0 the walk of page `b` of lane `a`; 1 the context's entry; 2 the request's
entry; 3 that entry's id or conn word; 4 another word that the planner reads, at address `a` of table `b`. -/
structure PlanErr where
  slot : Nat
  kind : Nat
  a : Nat
  b : Nat
deriving DecidableEq, Repr

/-- How a Snius line arrived: whole, with a framing or parity error, or over 255 characters long (R539). -/
inductive SerialLine where
  | clean | garbled | tooLong
deriving DecidableEq, Repr

/-- The commands. What only the world outside the node decides is an operand: a value written, a packet, what a drive answered, whether a
word read held an uncorrectable error (`bad`; as an index of the first such word where the command reads several). An `ecc` operand is the
kind of uncorrectable error met at the intake of a request, 0 for none. Completions name what completes by its index. -/
inductive Instr where
  /-- REGISTER_WRITE (R7): A write to a control-space register that has no row of its own takes effect under its access code, or is
  held until the next tick boundary if it is RWT. -/
  | registerWrite (core addr value width : Nat)
  /-- WIDE_REGISTER_ACCESS (R21): A read of the low word of a 64-bit register latches the high word; a write of the low word commits
  the staged high word together with it. -/
  | wideRegisterAccess (core addr : Nat) (write : Bool) (value : Nat)
  /-- COUNTER_READ_CLEAR (R7): A read of an RC register returns its value and then clears it. -/
  | counterReadClear (core addr : Nat)
  /-- VIEW_ACCESS (R25): An access through indirect table view A, B or C reads or writes the selected table window; it reads zero
  outside the table or for key material. -/
  | viewAccess (core view off : Nat) (write : Bool) (value : Nat) (bad : Bool)
  /-- BLK_LOCK_WRITE (R37): A write of 0xA5C3 to BLK_LOCK sets or clears the block's lock, which then governs every RWL field of the
  block. -/
  | blkLockWrite (page value : Nat)
  /-- BLK_EVT_CLEAR (R33): A W1C write clears event bits in BLK_EVT; an event of the same kind in the same cycle leaves the bit set
  and posts a record. -/
  | blkEvtClear (page bits : Nat)
  /-- BLK_FLT_CLEAR (R35): A W1C write of BLK_FLT.valid clears the fault's code, overflow, scope and partition and unfreezes the info
  registers. -/
  | blkFltClear (page value : Nat)
  /-- DPW_DATA_ACCESS (R43): An MCX core's read or write of its DPW_DATA register accesses the word at its DPW address and then adds 4
  to the address. -/
  | dpwDataAccess (core : Nat) (write : Bool) (value : Nat) (bad : Bool)
  /-- DPW_HELD_COMPLETE (R45): A data-port access held for a fen channel in PIM mode completes in the channel's next MEM window, and
  the stalled core resumes. -/
  | dpwHeldComplete (core : Nat) (bad : Bool)
  /-- REG_READ (R48): A management REG_READ frame reads 1 to 64 control-space words in order and returns them, stopping at the first
  failing entry. -/
  | regRead (h : MgtHead) (body : List Nat)
  /-- REG_WRITE (R48): A management REG_WRITE frame writes 1 to 64 control-space words in order, stopping at the first failing entry.
  -/
  | regWrite (h : MgtHead) (body : List Nat)
  /-- BURST_READ (R48): A management BURST_READ frame reads up to DPW_BURST.max_words words from memory at its own address and returns
  them. -/
  | burstRead (h : MgtHead) (addr count : List Nat) (bad : Option Nat)
  /-- BURST_WRITE (R48): A management BURST_WRITE frame writes up to DPW_BURST.max_words words to memory at its own address. -/
  | burstWrite (h : MgtHead) (addr words : List Nat)
  /-- TICK_BOUNDARY (R533): At cc 0 of each tick the node applies pending RWT values, tile state changes, frame changes, partition
  reset steps, queued completions and starvation clears, and then runs the admission pass. -/
  | tickBoundary (errs : List PlanErr)
  /-- TICK_COUNTER_START (R528): After the TPL is first enabled, the tick counter starts at the next whole second of node time, which
  opens the first tick. -/
  | tickCounterStart
  /-- TICK_LEN_APPLY (R61): An accepted TPL_TICK_LEN takes effect at the next whole PTP second; the next boundary then completes
  queued requests with LATE and zeroes deficits. -/
  | tickLenApply
  /-- TPL_TICK_LEN_WRITE (R61): A write of TPL_TICK_LEN is accepted only while the TPL is disabled and the length is legal; otherwise
  it is ignored and len_refused is posted. -/
  | tplTickLenWrite (value : Nat)
  /-- SHARE_TALLY_BUILD (R205): Between the intake cutoff and the boundary the planner tallies, per shared frame, the rows of queued
  requests that take part in sharing. -/
  | shareTallyBuild
  /-- PLAN_WINDOW_END (R91): At cc 2,048 admitted work starts, the TPL status registers and the tally are captured, demand fetches
  start, and copies of frames named by admitted work stop. -/
  | planWindowEnd
  /-- BOOKED_ITEM_START (R212): A booked item starts on its unit at its booked cc. -/
  | bookedItemStart (i : Nat)
  /-- BOOKED_ITEM_COMPLETE (R67): A booked item finishes and releases its result exactly at its ledger cost after its booked start. -/
  | bookedItemComplete (i : Nat) (bad : Option Nat)
  /-- SEAL_POINT (R68): At the seal point all admitted work must have finished; CLONE and RELEASE take effect, ADONEs are sent and
  service copying starts. -/
  | sealPoint
  /-- CARRY_REMOVAL (R75): A request still unadmitted when tick x + TPL_MAX_CARRY closes is removed and completed with LATE and no
  result. -/
  | carryRemoval (slot : Nat)
  /-- CTX_FORCE_CLEAR_STARVED (R133): CTX_FORCE op 1 clears the starved state of every lane of the named context at the next boundary.
  -/
  | ctxForceClearStarved (slot gen : Nat)
  /-- CTX_FORCE_LOST (R133): CTX_FORCE op 2 declares the named context LOST at the next boundary. -/
  | ctxForceLost (slot gen : Nat)
  /-- CTX_FORCE_RELEASE (R133): CTX_FORCE op 3 applies the effects of RELEASE to the named context at the next boundary, without
  admission or charge. -/
  | ctxForceRelease (slot gen : Nat)
  /-- COW_COPY_DONE (R122): The FRM finishes copying a copy_pending lane's shared partial page into its COPY_DST frame with the tail
  zeroed. -/
  | cowCopyDone (slot lane : Nat) (bad : Bool)
  /-- SCRUB_DONE (R112): A frame in SCRUB has been written to zero and is linked to its owner's free list for its tier. -/
  | scrubDone (frame : Nat) (bad : Bool)
  /-- LAB_INVALIDATE_SLOT (R134): A write of PWK_LAB_INV with all clear invalidates the look-aside entries of one context slot. -/
  | labInvalidateSlot (slot : Nat)
  /-- LAB_INVALIDATE_ALL (R134): A write of PWK_LAB_INV with all set invalidates every look-aside entry. -/
  | labInvalidateAll
  /-- FRM_GRANT_TO_PARTITION (R136): FRM_GRANT with dir 0 moves up to count free frames of a tier from the device pool to a
  partition's free list at the next boundary. -/
  | frmGrantToPartition (part tier count : Nat)
  /-- FRM_GRANT_TO_POOL (R136): FRM_GRANT with dir 1 moves up to count free frames of a tier from a partition's free list back to the
  device pool at the next boundary. -/
  | frmGrantToPool (part tier count : Nat)
  /-- FRM_DEVRES_TAKE (R137): FRM_DEVRES with release 0 takes a named free frame out of the device pool and makes it RESERVED for
  device use. -/
  | frmDevresTake (frame : Nat)
  /-- FRM_DEVRES_RELEASE (R137): FRM_DEVRES with release 1 returns a device-owned RESERVED frame through SCRUB to the device pool. -/
  | frmDevresRelease (frame : Nat)
  /-- MOVE (R258): A MOVE order asks the migrator to move a range of a lane's pages to a target tier, after its checks. -/
  | move
  /-- MOVE_LANE (R258): A MOVE_LANE order asks the migrator to move every page of a lane to a target tier, skipping the last and
  shared pages off the package. -/
  | moveLane
  /-- SET_HINT (R258): A SET_HINT order moves every non-conforming page of a range or lane and then writes the new hint. -/
  | setHint
  /-- MIGRATION_COPY_DONE (R261): The migrator finishes copying a frame into its COPY_DST frame in the other on-package tier. -/
  | migrationCopyDone (frame : Nat) (bad : Bool)
  /-- OFF_PACKAGE_CONFIRM (R261): When the drive or remote node confirms a page write, the FRM rewrites the entry to tier 2 or 3 at
  the next boundary and scrubs the frame. -/
  | offPackageConfirm (frame : Nat)
  /-- FETCH_READ_DONE (R273): A fetched page has arrived from a drive or memory-role node, is written into its frame and checked under
  R167. -/
  | fetchReadDone (frame : Nat) (bad : Bool)
  /-- PCI_LINK_UP (R279): A PCIe link trains and comes up, and PCI posts link_up. -/
  | pciLinkUp (port link speed width : Nat)
  /-- PCI_LINK_DOWN (R269): A PCIe link goes down or a drive is removed; every access to that drive's frames then fails with CRC. -/
  | pciLinkDown (port link : Nat) (present : Bool)
  /-- DRIVE_COMMAND_COMPLETE (R267): An NVMe drive completes a Read or a FUA Write issued for a fetch, move or window access. -/
  | driveCommandComplete (i : Nat) (ok : Bool) (data : DriveData)
  /-- SEG_OPEN (R232): SEG_OPEN opens a segment on a pseudo-channel with its page geometry and row store, and the DBR checks the
  segment before activating DIBBERs. -/
  | segOpen (stack pc code d32 kvhLog t32 store : Nat)
  /-- SIGMA (R232): SIGMA loads the segment's score multiplier. -/
  | sigma (stack sigma : Nat)
  /-- LIMIT (R232): LIMIT loads the lane length at the start of the admitting tick. -/
  | limit (stack limit : Nat)
  /-- WINDOW (R232): WINDOW loads the segment's window and prefix. -/
  | window (stack window prefix_ : Nat)
  /-- ROW (R232): ROW names one row of the pass with its slot, head and position. -/
  | row (stack slot head pos : Nat)
  /-- SEGMENT_PAGE (R232): The PAGE command names one page of the segment by row set, count, page base and bound bit. -/
  | segmentPage (stack rowSet countM1 base : Nat) (bound : Bool)
  /-- SEG_CLOSE (R232): SEG_CLOSE ends the segment. -/
  | segClose (stack : Nat)
  /-- WAIT (R232): WAIT delays the next PAGE of a raw program by the given number of stack cycles. -/
  | wait (stack sc : Nat)
  /-- MARK (R232): MARK sets the tag written into the following raw result records. -/
  | mark (stack tag : Nat)
  /-- DEST (R232): DEST names the tile and request slot that receive a vendor segment's exit records. -/
  | dest (stack tile slot : Nat)
  /-- SEGMENT_COMPLETE (R230): A segment's last page's exit records are complete, its DIBBERs deactivate and the records leave for the
  owning tile. -/
  | segmentComplete (stack pc : Nat) (met : SegEcc)
  /-- CHANNEL_MODE_CHANGE (R235): At a planned sc edge a pseudo-channel changes between MEM and PIM mode and publishes its READY bit.
  -/
  | channelModeChange (stack pc : Nat)
  /-- CROWN_QUEUE_SERVE (R237): A crown access held in a PIM-mode channel's crown queue is served in arrival order in the next MEM
  window. -/
  | crownQueueServe (stack pc : Nat) (bad : Bool) (addr : Nat)
  /-- REFRESH_SLOT (R240): A refresh slot of a refresh group begins and refresh takes its channels, interrupting any overrunning
  holder. -/
  | refreshSlot (stack group : Nat)
  /-- TEMP_FLAG_CHANGE (R241): A channel's core-die temperature flag changes, and its group's refresh period switches at the next
  boundary. -/
  | tempFlagChange (stack pc : Nat) (hot : Bool)
  /-- BOOKED_INTERVAL_GRANT (R242): At the first sc of a booked interval the channel controller grants the interval's owner without
  arbitration. -/
  | bookedIntervalGrant (ch : FenCh) (fix : FenFix)
  /-- ARBITER_GRANT (R243): Between booked intervals the channel arbiter grants an eligible requester by pointer order, or the longest
  waiter every eighth grant. -/
  | arbiterGrant (ch : FenCh) (fix : FenFix)
  /-- FEN_WATCHDOG_BITE (R245): A channel grant held 65,536 cc is ended, its holder is fenced and a fen watchdog fault is recorded. -/
  | fenWatchdogBite (stack pc : Nat)
  /-- FENCE_CLEAR (R252): A W1C write of FEN_CHSTAT.fenced unfences a requester on a channel, and the planner books it again from the
  next boundary. -/
  | fenceClear (stack pc bits : Nat)
  /-- FEN_TRAINING_DONE (R526): A fen stack finishes training its interface and calibrating its pseudo-channels after its en goes from
  0 to 1. -/
  | fenTrainingDone (stack : Nat) (ok : Bool)
  /-- DBR_RAW_ARM (R253): DBR_RAW_CTL.arm asks for the raw program to run once in the first booked reservation after the arm applies.
  -/
  | dbrRawArm (stack words : Nat)
  /-- RAW_PROGRAM_START (R249): An armed raw program starts in the first booked reservation and its segments are checked against the
  reservation. -/
  | rawProgramStart (stack : Nat)
  /-- RAW_PROGRAM_DONE (R250): A raw program ends, its result records are written, DBR_RAW_STAT is set and raw_done is posted. -/
  | rawProgramDone (stack : Nat) (bad : List Nat) (met : RawEcc)
  /-- TRW_START (R289): The start bit of TRW_CHc_CTL starts a channel's chain with a descriptor fetch at TRW_CHc_HEAD. -/
  | trwStart (engine ch : Nat)
  /-- TRW_ABORT (R291): The abort bit stops a running channel at its burst boundary and writes back CANCELLED with the residue. -/
  | trwAbort (engine ch : Nat)
  /-- DESCRIPTOR_FETCH (R284): A fetched Trowel descriptor is checked in order, and the channel then runs it, halts, or writes it back
  with the failing status. -/
  | descriptorFetch (engine ch : Nat) (bad : Bool)
  /-- TRW_BURST_READ_DONE (R296): A burst's read completes into a staging slot and its write can start. -/
  | trwBurstReadDone (engine : Nat) (at_ : TrwSlot) (bad : Bool)
  /-- TRW_BURST_WRITE_DONE (R296): A burst's write completes and its staging slot frees. -/
  | trwBurstWriteDone (engine : Nat) (at_ : TrwSlot)
  /-- FEED_RECORD (R287): A 16-byte feed record arrives from a RAKE and is written to the feed's destination, or dropped if the
  staging buffer is full. -/
  | feedRecord (rak : Nat)
  /-- TRW_PBLOCK_WRITE (R292): A write of TRW_PBLOCK blocks or unblocks a partition's tagged descriptors at once, stopping running
  ones with PART_RESET. -/
  | trwPblockWrite (engine parts : Nat)
  /-- RDL_LOOKUP (R304): A lookup compares a key against all entries and returns the longest match in the partition's region or
  visible shared entries. -/
  | rdlLookup (core len shared part : Nat) (bad : Option Nat)
  /-- RDL_LOOKUP_RESULT (R305): A lookup's result is ready 24 cc after issue, and a counting hit updates the entry's hits and
  last_hit. -/
  | rdlLookupResult (port : Nat)
  /-- RDL_INSERT (R308): An INSERT checks its fields and region, then replaces an equal entry or shifts entries to place a new one in
  length order. -/
  | rdlInsert (core len shared part : Nat)
  /-- RDL_DELETE (R309): A DELETE removes the matching entry of a region and shifts the entries behind it towards the base. -/
  | rdlDelete (core len shared part : Nat)
  /-- RDL_COMMAND_DONE (R312): An INSERT or DELETE finishes its shift and final write, clears busy and makes its status readable. -/
  | rdlCommandDone
  /-- TIL_START (R347): A start written to a stopped, halted or faulted tile begins measurement of its image. -/
  | tilStart (tile : Nat)
  /-- TIL_STOP (R347): A stop written to an armed or running tile stops it at the next boundary. -/
  | tilStop (tile : Nat)
  /-- MEASURE_DONE (R348): Measurement of a tile image ends; the tile becomes ARMED, or STOPPED with MALFORMED or AUTH. -/
  | measureDone (tile : Nat)
  /-- ADD (R342): Adds two scalar registers modulo 2^64. -/
  | add (tile : Nat)
  /-- SUB (R342): Subtracts one scalar register from another. -/
  | sub (tile : Nat)
  /-- AND (R342): Bitwise AND of two scalar registers. -/
  | and (tile : Nat)
  /-- OR (R342): Bitwise OR of two scalar registers. -/
  | or (tile : Nat)
  /-- XOR (R342): Bitwise XOR of two scalar registers. -/
  | xor (tile : Nat)
  /-- SHL (R342): Shifts a scalar register left by a register or immediate amount. -/
  | shl (tile : Nat)
  /-- SHR (R342): Shifts a scalar register logically right. -/
  | shr (tile : Nat)
  /-- MUL (R342): Writes the low 64 bits of the product of two scalar registers. -/
  | mul (tile : Nat)
  /-- ADDI (R342): Adds a signed 14-bit immediate to a scalar register. -/
  | addi (tile : Nat)
  /-- LI (R342): Loads a signed 19-bit immediate into a scalar register. -/
  | li (tile : Nat)
  /-- LD (R342): Loads 8 aligned bytes into a scalar register. -/
  | ld (tile : Nat) (bad : Bool)
  /-- LW (R342): Loads 4 aligned bytes, zero-extended, into a scalar register. -/
  | lw (tile : Nat) (bad : Bool)
  /-- ST (R342): Stores 8 bytes of a scalar register. -/
  | st (tile : Nat)
  /-- SW (R342): Stores the low 4 bytes of a scalar register. -/
  | sw (tile : Nat)
  /-- VLD (R342): Loads 256 aligned bytes into a vector register. -/
  | vld (tile : Nat) (bad : Bool)
  /-- VST (R342): Stores a vector register to 256 aligned bytes. -/
  | vst (tile : Nat)
  /-- BEQ (R342): Branches if two scalar registers are equal. -/
  | beq (tile : Nat)
  /-- BNE (R342): Branches if two scalar registers differ. -/
  | bne (tile : Nat)
  /-- BLT (R342): Branches if one scalar register is less than another, signed. -/
  | blt (tile : Nat)
  /-- JAL (R342): Writes the return address and jumps by a word offset. -/
  | jal (tile : Nat)
  /-- JR (R342): Jumps to the address in a scalar register. -/
  | jr (tile : Nat)
  /-- WAITCC (R342): Waits until CC reaches a register value, optionally first waiting for the next tick boundary. -/
  | waitcc (tile : Nat)
  /-- WAIT_RELEASE (R319): A tile waiting on WAITCC, RECV or FENCE resumes issue when its condition holds or its deadline passes. -/
  | waitRelease (tile : Nat)
  /-- HALT (R342): Puts the tile in HALTED and sets its halted event bit. -/
  | halt (tile : Nat)
  /-- VADD (R342): Adds two vector registers lane by lane. -/
  | vadd (tile : Nat)
  /-- VMUL (R342): Multiplies two vector registers lane by lane. -/
  | vmul (tile : Nat)
  /-- VFMA (R342): Fused multiply-add of three vector registers lane by lane. -/
  | vfma (tile : Nat)
  /-- VMAX (R342): Lane-wise maximum of two vector registers. -/
  | vmax (tile : Nat)
  /-- VEXP2 (R342): Applies the exp2 algorithm to each lane of a vector register. -/
  | vexp2 (tile : Nat)
  /-- VBCAST (R342): Broadcasts a scalar register's low word to every lane. -/
  | vbcast (tile : Nat)
  /-- VCVT (R342): Converts each lane between FP32, BF16 and int32 as fn selects. -/
  | vcvt (tile : Nat)
  /-- MMAC (R345): Accumulates rows times an expanded operand into a matrix accumulator. -/
  | mmac (tile : Nat)
  /-- EXPAND (R345): Decodes stored elements with their scales into FP32. -/
  | expand (tile : Nat)
  /-- QUANT (R345): Quantizes FP32 values into a storage code with scales. -/
  | quant (tile : Nat)
  /-- ROT (R345): Rotates or un-rotates vectors in place by a context's seed. -/
  | rot (tile : Nat)
  /-- SKETCH (R345): Updates a frame's sketch with one token's stored keys. -/
  | sketch (tile : Nat)
  /-- SCORE (R345): Scores rows of one head against a page's keys. -/
  | score (tile : Nat)
  /-- MERGE (R345): Merges pairs of partials with the merge operator. -/
  | merge (tile : Nat)
  /-- BOUND (R345): Computes each row's score upper bound against a frame's sketch. -/
  | bound (tile : Nat)
  /-- PAGE (R345): Computes masked page partials for rows of the row table against one page. -/
  | page (tile : Nat)
  /-- BLOCK_OP_COMPLETE (R343): A block operation finishes on its unit and its results are written. -/
  | blockOpComplete (tile i bad : Nat)
  /-- SEND (R334): Sends a booked direct write at its booking entry's start, or an unbooked VC1 message to a receive channel. -/
  | send (tile : Nat)
  /-- RECV (R342): Waits for a record on a receive channel until a deadline and returns it. -/
  | recv (tile : Nat)
  /-- POLL (R342): Returns and removes the oldest record of a receive channel, or 0. -/
  | poll (tile : Nat)
  /-- MODEQ (R338): Returns the READY mode word of a fen stack from its FEN port. -/
  | modeq (tile : Nat)
  /-- FENRD (R337): Reads up to 65,536 bytes from a fen frame location into local memory through the crown read queue. -/
  | fenrd (tile : Nat)
  /-- FENWR (R337): Writes up to 65,536 bytes from local memory to a fen frame location through the crown write queue. -/
  | fenwr (tile : Nat)
  /-- FEN_ACCESS_COMPLETE (R337): A tile's fen read data or write acknowledgement arrives, and FENSTAT takes its status. -/
  | fenAccessComplete (tile i : Nat) (bad : Bool)
  /-- HANDOFF (R350): Copies a planned result's rows and row statuses to the transport engine at its booking entry's start. -/
  | handoff (tile : Nat)
  /-- CSRR (R340): Reads a tile control and status register. -/
  | csrr (tile : Nat)
  /-- CSRW (R340): Writes a tile control and status register. -/
  | csrw (tile : Nat)
  /-- FENCE (R342): Waits until every earlier block operation and fen access has completed. -/
  | fence (tile : Nat)
  /-- BCOPY (R342): Copies a block of bytes between local memories. -/
  | bcopy (tile : Nat)
  /-- MESSAGE_EJECT (R333): An arriving VC1 message is written into its receive channel's ring with a record once the ring and record
  queue have room. -/
  | messageEject (tile : Nat) (msg : Ejected)
  /-- EJECTION_TIMEOUT (R333): A message that has waited 16,384 cc at ejection is discarded and counted. -/
  | ejectionTimeout (tile : Nat)
  /-- VC0_DIRECT_WRITE (R334): A booked transfer arrives and is written directly into its receiver's gather buffer, row store or crown
  write queue. -/
  | vc0DirectWrite (src dst addr : Nat) (data : List Nat) (seen : Option (List Nat))
  /-- ROUTER_WATCHDOG_BITE (R355): A router output holding a VC1 grant 65,536 cc without moving a flit loses it and discards the rest
  of the message. -/
  | routerWatchdogBite (router : Nat)
  /-- FRAME_RECEIVE (R359): A port receives a frame, filters it by address and tag, and sends it to the transport engine, punts it to
  the control ring or drops it. -/
  | frameReceive (port : Nat) (fcs : Bool) (frame : WireFrame)
  /-- TX_RING_WRITE (R362): A write of a transmit ring's FRING_WR hands filled slots to the node, which sends them in ring order. -/
  | txRingWrite (ring wr : Nat)
  /-- CONTROL_TX_DONE (R362): A control frame has been sent; the node writes back done, status and any egress timestamp and advances
  RD. -/
  | controlTxDone (ring : Nat)
  /-- MGT_FRAME_RECEIVE (R373): A management port receives a frame and places management, ARP, ICMPv6 or LLDP frames in its receive
  ring, dropping the rest. -/
  | mgtFrameReceive (port : Nat) (fcs : Bool) (bytes : List Nat)
  /-- LINK_CHANGE (R358): A data or management port's link comes up or goes down and link_change is posted. -/
  | linkChange (port : Nat) (up : Bool)
  /-- FEC_DEGRADE (R358): A port exceeds its FEC degrade threshold, sets hi_ser and posts fec_degraded. -/
  | fecDegrade (port : Nat)
  /-- PTP_CFG_WRITE (R364): A write of PTP_CFG selects frequency and phase sources, and the time PLL changes source from a held
  frequency without a phase step. -/
  | ptpCfgWrite (value : Nat)
  /-- PTP_FREQ_WRITE (R363): A write of PTP_FREQ trims the frequency of node time from the next cc. -/
  | ptpFreqWrite (value : Nat)
  /-- PTP_SLEW_WRITE (R365): A write of PTP_SLEW sets the phase still to be slewed, which runs toward zero at PTP_SLEW_RATE. -/
  | ptpSlewWrite (value : Nat)
  /-- PTP_STEP_WRITE (R365): A write of PTP_STEP steps node time at once while the TPL is disabled, and is refused with step_refused
  while it runs. -/
  | ptpStepWrite (value : Nat)
  /-- SERVO_LOCK_WRITE (R366): Firmware sets or clears PTP_SERVO.locked, ending or starting holdover. -/
  | servoLockWrite (locked : Bool)
  /-- PTP_LOSS_TIMEOUT (R366): No PTP event message has been punted from the slave port for PTP_LOSS_TO ms, so holdover begins. -/
  | ptpLossTimeout
  /-- PPS_IN_EDGE (R370): A filtered rising edge on PPS_IN is timestamped and judged for window and chatter. -/
  | ppsInEdge
  /-- PPS_STUCK_TIMEOUT (R370): No PPS_IN edge has arrived for 2.5 s, so the input is disqualified as stuck, high or low. -/
  | ppsStuckTimeout
  /-- SYNC_WINDOW_END (R370): A 100 ms window of SYNC_IN edge counting ends and the input is qualified or disqualified. -/
  | syncWindowEnd (edges : Nat)
  /-- PPS_OUT_PULSE (R372): PPS_OUT rises as node time crosses each whole second while enabled. -/
  | ppsOutPulse
  /-- PPS_OUT_FALL (R372): PPS_OUT falls after its configured high time. -/
  | ppsOutFall
  /-- ITP_PACKET_RECEIVE (R387): An arriving ITP packet passes header, connection, policing, key, tag, replay, window, size and CRC
  checks and its data is placed. -/
  | itpPacketReceive (p : Packet)
  /-- ACK (R390): A received ACK acknowledges PSNs by cumulative PSN and bitmap, completes messages and echoes congestion marks. -/
  | ack (p : Packet)
  /-- NAK (R390): A received NAK completes the named message with its status and stops its retransmission. -/
  | nak (p : Packet)
  /-- ACK_DELAY_TIMEOUT (R390): ITP_ACK.delay cc have passed since the oldest unacknowledged arrival, so an ACK is sent. -/
  | ackDelayTimeout (i : Nat)
  /-- RETRANSMIT_TIMEOUT (R391): ITP_RETX.rto has passed since a PSN was sent, so it is retransmitted on the next healthy path, or the
  connection enters ERROR at the retry limit. -/
  | retransmitTimeout (i psn : Nat)
  /-- MESSAGE_TIMEOUT (R393): A message undelivered for ITP_MSG_TO ticks is abandoned and its connection enters ERROR. -/
  | messageTimeout (i msn : Nat)
  /-- CC_PERIOD_END (R396): At the end of each ITP_CC_PERIOD a connection's rate decreases on echoed congestion or increases
  otherwise. -/
  | ccPeriodEnd (i : Nat)
  /-- CONN_OPEN (R386): ITP_CONN_CMD OPEN checks a FREE connection's fields and job, installs its transmit keys and makes it OPEN. -/
  | connOpen (i : Nat)
  /-- CONN_CLOSE (R386): ITP_CONN_CMD CLOSE frees an OPEN or ERROR connection, advances its generation and empties its key slots. -/
  | connClose (i : Nat)
  /-- REGION_VALIDATE (R398): ITP_REG_CMD VALIDATE makes a FREE or REVOKED region VALID if its range is legal. -/
  | regionValidate (i : Nat)
  /-- REGION_REVOKE (R401): ITP_REG_CMD REVOKE advances a VALID region's generation and sets it REVOKING. -/
  | regionRevoke (i : Nat)
  /-- REVOKE_DONE (R401): A REVOKING region's inflight count reaches zero, it becomes REVOKED and revoke_done is posted. -/
  | revokeDone (i : Nat)
  /-- ITP_SEND (R397): A received SEND takes its partition's head posted buffer, is placed there and writes a completion record at
  delivery. -/
  | itpSend (p : Packet)
  /-- ITP_WRITE (R400): A received WRITE is checked against its region and places its bytes at the region offset. -/
  | itpWrite (p : Packet)
  /-- READ_REQ (R400): A received READ_REQ is checked against its region and answered with a READ_RESP carrying the bytes or the
  failing status. -/
  | readReq (p : Packet)
  /-- READ_RESP (R394): A received READ_RESP places its data in the local buffer of the work request. -/
  | readResp (p : Packet)
  /-- TRIGGER_START (R404): Dormant work-queue entries whose trigger counter has reached its threshold start in the next cc. -/
  | triggerStart
  /-- WR_SEND (R402): A SEND work request at the head of a work queue sends a SEND message. -/
  | wrSend (q : Nat)
  /-- WR_WRITE (R402): A WRITE work request sends a WRITE to a remote region. -/
  | wrWrite (q : Nat)
  /-- WR_READ (R402): A READ work request sends a READ_REQ for a remote region. -/
  | wrRead (q : Nat)
  /-- WR_MSG (R402): A MSG work request sends an attention-service message built from a stored extension header. -/
  | wrMsg (q : Nat)
  /-- AREQ (R405): A delivered AREQ is checked under R118 and enters its partition's queue for attention over the named lanes. -/
  | areq (ecc : Nat)
  /-- APPEND (R407): A delivered APPEND is checked under R118 and queued to add tokens to one or more lanes. -/
  | append (ecc : Nat)
  /-- CLONE (R408): A delivered CLONE, with a source, a key lookup or no source, is checked and queued to create a context. -/
  | clone (ecc : Nat) (bad : Option Nat)
  /-- RELEASE (R409): A delivered RELEASE is checked and queued to remove a context from the node. -/
  | release (ecc : Nat)
  /-- CANCEL (R409): A delivered CANCEL cancels a queued request, or marks an admitted one so its result is discarded, or is counted
  as stale. -/
  | cancel (ecc : Nat)
  /-- MIGRATE (R410): A delivered MIGRATE carrying pages in stored code is checked, costed and queued to import them into a lane. -/
  | migrate (ecc : Nat)
  /-- MIRROR_ADONE (R456): A mirror's ADONE for a forwarded request arrives at the primary and is compared with the primary's outcome.
  -/
  | mirrorAdone
  /-- MIRROR_TIMEOUT (R456): No mirror ADONE has arrived FAB_MIR_TO ticks after the seal point in SYNC, which is a divergence. -/
  | mirrorTimeout (slot : Nat)
  /-- EGRESS_ENQUEUE (R421): A frame offered to an egress queue enters it if its class limit and the buffer allow, or is held and
  offered again next cc. -/
  | egressEnqueue (src : Nat)
  /-- TRANSMIT_DECISION (R429): When a port's transmitter is free RAKn chooses the next frame by deficit round robin under the gates
  and starts it. -/
  | transmitDecision (port : Nat) (bad : Bool)
  /-- FRAME_TX_END (R421): A frame's last byte leaves the port and its bytes leave the egress buffer. -/
  | frameTxEnd (port : Nat)
  /-- GATE_EDGE (R423): At a gate control list offset the open set of classes on a port changes. -/
  | gateEdge (port : Nat)
  /-- TELEMETRY_SAMPLE (R432): At each sample point RAKn produces a feed record for each selected queue, or counts it lost. -/
  | telemetrySample (n : Nat)
  /-- HELLO (R440): A received HELLO probe is answered with a reply; a reply heals its path, refreshes the peer and may raise
  FAB_SKEW. -/
  | hello (p : Packet)
  /-- HELLO_PROBE_PERIOD (R444): Every FAB_HEALTH.probe ticks FAB sends HELLO probes to each valid peer on unhealthy paths and one
  healthy path. -/
  | helloProbePeriod
  /-- FAB_EPOCH_NEXT_WRITE (R447): A write of FAB_EPOCH_NEXT schedules a map flip at the next boundary, or applies it at once before
  the tick counter runs. -/
  | fabEpochNextWrite (value : Nat)
  /-- SNAP (R459): FAB_MCMD SNAP starts a snapshot of a primary context's last pages and then forwarding. -/
  | snap (slot gen : Nat)
  /-- SYNC (R453): FAB_MCMD SYNC puts a context's mirror state in SYNC. -/
  | sync (slot gen : Nat)
  /-- BREAK (R453): FAB_MCMD BREAK stops mirroring of a context and frees snapshot frames or parked requests. -/
  | breakMsg (slot gen : Nat)
  /-- IMPORT (R460): FAB_MCMD IMPORT puts a spare's context in IMPORT, parking forwarded APPENDs until lanes are mapped. -/
  | importMsg (slot gen : Nat)
  /-- SNAPSHOT_COPY_DONE (R459): The snapshot copy of a lane's last page ends, and at the following boundary the state becomes FWD. -/
  | snapshotCopyDone (lane : Nat)
  /-- HOLDOVER_SERVING_STOP (R464): After FAB_HOLD ticks of holdover the node stops serving and answers new requests with NOT_OWNER.
  -/
  | holdoverServingStop
  /-- GET_VERSION (R475): An SPDM GET_VERSION request is answered. -/
  | getVersion (h : MgtHead)
  /-- GET_CAPABILITIES (R475): An SPDM GET_CAPABILITIES request is answered. -/
  | getCapabilities (h : MgtHead)
  /-- NEGOTIATE_ALGORITHMS (R475): An SPDM NEGOTIATE_ALGORITHMS request is answered with the supported algorithms. -/
  | negotiateAlgorithms (h : MgtHead)
  /-- GET_DIGESTS (R475): An SPDM GET_DIGESTS request is answered. -/
  | getDigests (h : MgtHead)
  /-- GET_CERTIFICATE (R493): An SPDM GET_CERTIFICATE request returns the chain from the Weaholt root to the attestation key. -/
  | getCertificate (h : MgtHead) (slot : Nat)
  /-- CHALLENGE (R475): An SPDM CHALLENGE request is answered. -/
  | challenge (h : MgtHead)
  /-- GET_MEASUREMENTS (R499): An SPDM GET_MEASUREMENTS request returns the ROM, SCX, MCX and service measurements and the lifecycle
  bytes. -/
  | getMeasurements (h : MgtHead) (index : Nat)
  /-- KEY_EXCHANGE (R475): An SPDM KEY_EXCHANGE starts a mutually authenticated session, or is refused at the session limit. -/
  | keyExchange (h : MgtHead) (reqSession : Nat) (authed : Bool) (secret : List Nat)
  /-- FINISH (R476): An SPDM FINISH completes a session and sets its level from the requester key digest, or fails. -/
  | finish (h : MgtHead) (id : Nat) (verified : Bool) (digest : Nat)
  /-- END_SESSION (R475): An SPDM END_SESSION ends a secured session. -/
  | endSession (h : MgtHead)
  /-- CHUNK_SEND (R475): An SPDM CHUNK_SEND carries one chunk of a large request. -/
  | chunkSend (h : MgtHead)
  /-- CHUNK_GET (R475): An SPDM CHUNK_GET returns one chunk of a large response. -/
  | chunkGet (h : MgtHead)
  /-- UNSUPPORTED_SPDM_REQUEST (R475): A PSK exchange, KEY_UPDATE, HEARTBEAT, GET_CSR or SET_CERTIFICATE request is answered with
  ERROR UnsupportedRequest. -/
  | unsupportedSpdmRequest (h : MgtHead)
  /-- SESSION_TIMEOUT (R475): A secured session in which no frame verified for 600 s is ended. -/
  | sessionTimeout (id : Nat)
  /-- GET_REPORT (R477): The vendor GET_REPORT command returns a signed attestation report for a nonce. -/
  | getReport (h : MgtHead) (nonce : List Nat)
  /-- IMPORT_JOB (R478): The vendor IMPORT_JOB command unwraps a job master key into a job slot of a partition. -/
  | importJob (h : MgtHead) (part job : Nat) (iv wrapped : List Nat)
  /-- DROP_JOB (R478): The vendor DROP_JOB command zeroes a job slot that no open connection names. -/
  | dropJob (h : MgtHead) (slot : Nat)
  /-- GET_CHALLENGE (R477): The vendor GET_CHALLENGE command returns the current 32-byte challenge. -/
  | getChallenge (h : MgtHead)
  /-- TOKEN (R496): The vendor TOKEN command submits a signed lifecycle or debug token for acceptance. -/
  | token (h : MgtHead) (token : List Nat)
  /-- INSTALL_NEXT (R481): KEY_CMD INSTALL_NEXT derives epoch tx_epoch + 1 of a connection into its key slot. -/
  | installNext (conn : Nat)
  /-- TX_SWITCH (R481): KEY_CMD TX_SWITCH advances a connection's transmit epoch, restarting ctr at 1. -/
  | txSwitch (conn : Nat)
  /-- RETIRE_OLD (R481): KEY_CMD RETIRE_OLD empties a connection's non-transmit key slot and zeroes its keys. -/
  | retireOld (conn : Nat)
  /-- REKEY_JOB (R481): KEY_CMD REKEY_JOB issues INSTALL_NEXT for every open connection of a job. -/
  | rekeyJob (slot : Nat)
  /-- KEY_DERIVATION_DONE (R480): SCX finishes deriving one epoch of one connection, both directions, after 1,024 cc. -/
  | keyDerivationDone
  /-- PRT_RESET_START (R484): PRT_RESET START retires a partition's key and job slots, refuses its new requests and stops its
  admission. -/
  | prtResetStart (part : Nat)
  /-- PRT_RESET_COMMIT (R485): PRT_RESET COMMIT schedules the commit steps of a RETIRED partition's reset for the next boundary. -/
  | prtResetCommit (part : Nat)
  /-- COMMIT_ARB (R492): LCS_CMD COMMIT_ARB raises each anti-rollback counter to the running image's svn. -/
  | commitArb
  /-- SELECT_SLOT (R525): LCS_CMD SELECT_SLOT writes the preferred slot to the boot record with tries 0. -/
  | selectSlot
  /-- RELOCK (R494): LCS_CMD RELOCK ends a debug unlock. -/
  | relock
  /-- NEWCHAL (R503): ATT_CMD NEWCHAL replaces the current challenge. -/
  | newchal
  /-- REPORT (R503): ATT_CMD REPORT writes an attestation report with ATT_NONCE at ATT_BUF. -/
  | report
  /-- ATT_TOKEN (R503): ATT_CMD TOKEN reads a token at ATT_BUF and submits it for acceptance. -/
  | attToken
  /-- REPORT_SIGNED (R499): SCX finishes signing an attestation report with the attestation key, within 2 ms of the request. -/
  | reportSigned
  /-- DEBUG_UNLOCK (R496): An accepted DEBUG_UNLOCK token opens the named debug scopes and posts debug_unlocked. -/
  | debugUnlock
  /-- DEPLOY (R496): An accepted DEPLOY token fuses the owner key digest and enters DEPLOYED. -/
  | deploy
  /-- ENTER_RMA (R497): An accepted ENTER_RMA token retires all keys and jobs, scrubs all memory, clears tables and enters RMA. -/
  | enterRma
  /-- SCRAP (R496): An accepted SCRAP token blows every UDS bit and enters SCRAPPED. -/
  | scrap
  /-- PROVISION (R496): An accepted PROVISION token moves the part from MANUFACTURE to PROVISIONED. -/
  | provision
  /-- PATROL_WORD (R507): The patrol reads the next word of peat or crown SRAM, writes back a correction, or records an uncorrectable
  word and poisons its frame. -/
  | patrolWord (read : PatrolRead)
  /-- POISON_ADD (R508): A write of BST_POISON_ADD adds a frame number to the poison list. -/
  | poisonAdd (frame : Nat)
  /-- POISON_DEL (R508): A write of BST_POISON_DEL removes a frame number from the poison list. -/
  | poisonDel (frame : Nat)
  /-- PORT_B_WATCHDOG_BITE (R512): A peat slice port-B grant held 65,536 cc is ended and the access fails with fault 0x46. -/
  | portBWatchdogBite (slice : Nat)
  /-- LBIST_ARM (R513): BST_LB_CMD arm arms a logic self-test slice for a tile, which starts when the tile is isolated. -/
  | lbistArm (tile : Nat)
  /-- LBIST_ABORT (R515): BST_LB_CMD abort abandons the slice with CANCELLED and re-initializes the tile. -/
  | lbistAbort
  /-- LBIST_SLICE_END (R515): A slice's patterns finish and its signature is compared, passing or quarantining the tile, and the tile
  is re-initialized. -/
  | lbistSliceEnd (misr : Nat)
  /-- MBIST_RUN (R517): BST_MB_CMD RUN runs March C− over one memory kind, logging each failing bit. -/
  | mbistRun (kind : Nat)
  /-- SOFT_REPAIR (R519): BST_MB_CMD SOFT_REPAIR maps the spares named by the last run until device reset. -/
  | softRepair (kind : Nat)
  /-- FUSE_REPAIR (R519): BST_MB_CMD FUSE_REPAIR blows the last run's repair mapping into fuses. -/
  | fuseRepair (kind : Nat)
  /-- MBIST_DONE (R517): A memory self-test or repair command ends, sets its status and posts mbist_done. -/
  | mbistDone (fails : List FailRec) (worst : Option Nat) (exhausted : Bool)
  /-- PINS_QUALIFIED (R555): PWROK and RESET_N are both qualified high, which is start time t0 and begins start-up. -/
  | pinsQualified
  /-- SYS_BOOT_WRITE (R523): A write of SYS_BOOT.step stamps the elapsed time into that step's SYS_STEPT and posts boot_step. -/
  | sysBootWrite (step status : Nat) (serving : Bool)
  /-- PWROK_FALL (R555): A fall of PWROK causes a device reset and sets its cause bit. -/
  | pwrokFall
  /-- RESET_N_FALL (R555): A fall of RESET_N causes a device reset and sets its cause bit. -/
  | resetNFall
  /-- SYS_RESET (R532): A write of 0xA5C3_0001 to SYS_RESET schedules a device reset 100 µs later. -/
  | sysReset (value : Nat)
  /-- DEVICE_RESET (R531): A device reset returns every register to reset, stops tiles and ports and discards all contexts, requests,
  connections and keys. -/
  | deviceReset (cause : Nat)
  /-- SYS_WDOG_KICK (R541): A write of 0x0000_5A5A to SYS_WDOG_KICK restarts the MCX watchdog period. -/
  | sysWdogKick (value : Nat)
  /-- MCX_WATCHDOG_BITE (R541): An armed MCX watchdog period passes without a kick and resets the device. -/
  | mcxWatchdogBite
  /-- PEEK (R537): Snius peek prints up to 16 words of control space or memory. -/
  | peek (line : SerialLine) (addr n : Nat) (bad : Option Nat)
  /-- POKE (R537): Snius poke writes one word. -/
  | poke (line : SerialLine) (addr value : Nat)
  /-- DUMP (R537): Snius dump prints a byte range 16 bytes per line. -/
  | dump (line : SerialLine) (addr bytes : Nat) (bad : Option Nat)
  /-- FILL (R537): Snius fill writes a value to each word of a range. -/
  | fill (line : SerialLine) (addr bytes value : Nat)
  /-- LOAD (R537): Snius load receives hex lines and writes the range only if the final CRC matches. -/
  | load (line : SerialLine) (addr bytes : Nat) (data : List Nat) (crc : Nat)
  /-- EVENTS (R537): Snius events prints the most recent device-ring records without moving RING_RD. -/
  | events (line : SerialLine) (n : Nat)
  /-- TILES (R537): Snius tiles prints each tile's mode, state, status and PC. -/
  | tiles (line : SerialLine)
  /-- LIFECYCLE (R537): Snius lifecycle prints the lifecycle state, open scopes, boot slot and counters. -/
  | lifecycle (line : SerialLine)
  /-- ATTEST (R537): Snius attest writes and prints an attestation report for a nonce. -/
  | attest (line : SerialLine) (nonce : List Nat)
  /-- UART_BREAK (R539): A break on UART_RX clears the line buffer, and one over 1 s sets rx_break and stops reception until idle. -/
  | uartBreak (us : Nat)
  /-- REFCLK_LOSS (R542): A reference input found outside ±1,000 ppm in a 10 µs window is absent, and may be disqualified as a
  frequency source. -/
  | refclkLoss (ref khz : Nat)
  /-- PLL_UNLOCK (R542): A core or stack PLL loses lock and holds its last frequency while the tick counter runs on. -/
  | pllUnlock (pll : Nat)
  /-- ALLOWANCE_SAMPLE (R558): At cc L − 4,096 PWR samples the hottest sensor and computes the thermal allowance for the next tick. -/
  | allowanceSample
  /-- SENSOR_SAMPLE (R557): Every 1 µs PWR reads the temperature sensors, marking invalid ones and checking for a trip. -/
  | sensorSample (readings : List Nat)
  /-- THERMTRIP_RESET (R559): 1,600 cc after a trip the device reset is asserted and held until PWROK falls. -/
  | thermtripReset
  /-- RAIL_MONITOR_SAMPLE (R552): Every 1 µs the on-die monitors compare each rail with its tolerance and record fault 0xC6 after 10
  failing samples. -/
  | railMonitorSample (mv : List Nat)
  /-- AVS_STEP (R553): At most every 10 µs PWR moves the VDD_CORE regulator one 2.5 mV step toward the AVS target. -/
  | avsStep (ok : Bool)
  /-- AVS_POLL (R553): Every 100 µs PWR reads the regulator's STATUS_WORD and READ_IOUT and records faults 0xC4, 0xC5 or 0xC7. -/
  | avsPoll (ok : Bool) (status iout : Nat)
  /-- PMB_ALERT (R553): A qualified low on PMB_ALERT_N records fault 0xC5. -/
  | pmbAlert (status : Nat)
  /-- FAULT_N_ASSERTED (R560): FAULT_N qualifies low from outside, recording fault 0xC2 and zeroing the allowance, or resetting the
  device if ext_reset is set. -/
  | faultNAsserted
  /-- FAULTN_CLEAR (R561): PWR_FAULTN.clr ends the stuck state if the pin has been high for at least 1 ms. -/
  | faultnClear
  /-- MIGRATE_COPY_DONE (R410): The service copy of a MIGRATE's pages from staging into their frames ends after the seal point, so the
  pages can be mapped at the next boundary. -/
  | migrateCopyDone (slot : Nat) (bad : Bool)
  /-- SLEW_COMPLETE (R365): The remaining PTP_SLEW value reaches zero, slewing clears and node time returns to the rate set by
  PTP_FREQ alone. -/
  | slewComplete
  /-- FAULT_N_RELEASED (R560): FAULT_N, driven low from outside, returns high, so the pin is no longer qualified low and the allowance
  is no longer forced to zero. -/
  | faultNReleased
  /-- REFCLK_RETURN (R542): An absent reference clock input is again within ±1,000 ppm in a 10 µs window and its CLK_STAT bit is set
  again. -/
  | refclkReturn (ref khz : Nat)
  /-- PLL_LOCK (R542): A core, stack, SerDes or PCIe PLL that lost lock regains it and its CLK_STAT lock bit is set again. -/
  | pllLock (pll : Nat)
  /-- UART_RX_RESUME (R539): After a long break, UART_RX stays idle for one character time and reception starts again. -/
  | uartRxResume
  /-- PORT_B_GRANT (R322): Peat slice port B grants a waiting user, in the order partner, Trowel and migrator in rotation, then
  patrol, in a cc that no booking holds. -/
  | portBGrant (slice : Nat)
deriving DecidableEq, Repr

end Sys2Proof
end

