-- ==== Sys2Proof/Decode.lean ====
section
/-!
DEFINITION. The command that a word spells by the table's bits. No row of spec/opcode_table.json gives bits (every row's list of fields is
empty), so no word spells a command.
-/

namespace Sys2Proof

/-- The command that a word of `nbits` bits spells: none, because the table gives no row any bits. -/
def decodeTableWord (_nbits _w : Nat) : Option Instr := none

end Sys2Proof
end

