-- ==== Sys2Proof/Machine/Fp.lean ====
section
/-!
DEFINITION. The number rules of spec/06 (R168): IEEE 754 binary32 on bit patterns, computed through exact signed
binary numbers and rounded once. Nothing here flushes a subnormal; zeros of either sign compare equal.
-/

namespace Sys2Proof.Machine

/-- A binary32 bit pattern (R168). -/
abbrev F32 := BitVec 32

/-- An exact number: not a number, an infinity, or (−1)^neg × m × 2^e (zero keeps its sign). -/
inductive Ex where
  | nan
  | inf (neg : Bool)
  | fin (neg : Bool) (m : Nat) (e : Int)
deriving DecidableEq, Repr

/-- Rounding directions: to nearest with ties to even, and toward +∞ (R168). -/
inductive Rnd where
  | near | up
deriving DecidableEq, Repr

/-- The quiet NaN pattern that the node reports (R179). -/
def f32NaN : F32 := 0x7FC00000#32
def f32Inf : F32 := 0x7F800000#32
def f32NegInf : F32 := 0xFF800000#32
def f32Zero : F32 := 0#32
def f32One : F32 := 0x3F800000#32

def f32IsNaN (x : F32) : Bool := decide (0x7F800000 < x.toNat % 0x80000000)
def f32IsInf (x : F32) : Bool := decide (x.toNat % 0x80000000 = 0x7F800000)
def f32Finite (x : F32) : Bool := decide (x.toNat % 0x80000000 < 0x7F800000)
def f32Neg? (x : F32) : Bool := decide (0x80000000 ≤ x.toNat)

/-- The exact value of a bit pattern. -/
def f32Ex (x : F32) : Ex :=
  let u := x.toNat % 0x80000000
  let s := f32Neg? x
  if 0x7F800000 < u then .nan
  else if u = 0x7F800000 then .inf s
  else
    let ef := u / 0x800000
    let fr := u % 0x800000
    if ef = 0 then .fin s fr (-149) else .fin s (fr + 0x800000) ((ef : Int) - 150)

/-- Flip the sign of an exact number. -/
def Ex.neg : Ex → Ex
  | .nan => .nan
  | .inf s => .inf (!s)
  | .fin s m e => .fin (!s) m e

/-- Scale by 2^k. -/
def Ex.scale (x : Ex) (k : Int) : Ex :=
  match x with
  | .fin s m e => .fin s m (e + k)
  | y => y

/-- The exact product. -/
def Ex.mul : Ex → Ex → Ex
  | .nan, _ => .nan
  | _, .nan => .nan
  | .inf s, .inf t => .inf (s != t)
  | .inf s, .fin t m _ => if m = 0 then .nan else .inf (s != t)
  | .fin s m _, .inf t => if m = 0 then .nan else .inf (s != t)
  | .fin s m e, .fin t n f => .fin (s != t) (m * n) (e + f)

/-- Signed integer mantissa. -/
def signedMant (s : Bool) (m : Nat) : Int := if s then -(m : Int) else (m : Int)

/-- The exact sum; an exact zero is +0 unless both terms are −0. -/
def Ex.add : Ex → Ex → Ex
  | .nan, _ => .nan
  | _, .nan => .nan
  | .inf s, .inf t => if s = t then .inf s else .nan
  | .inf s, .fin _ _ _ => .inf s
  | .fin _ _ _, .inf t => .inf t
  | .fin s m e, .fin t n f =>
    let g := min e f
    let a := signedMant s (m * 2 ^ (e - g).toNat)
    let b := signedMant t (n * 2 ^ (f - g).toNat)
    let c := a + b
    if c = 0 then .fin (s && t) 0 g else .fin (decide (c < 0)) c.natAbs g

/-- `m / 2^sh` rounded to an integer: to nearest even, or away from zero when `away` (directed) applies. -/
def shiftRound (m sh : Nat) (r : Rnd) (neg : Bool) : Nat :=
  let q := m / 2 ^ sh
  let rem := m % 2 ^ sh
  match r with
  | .near =>
    let half := 2 ^ sh / 2
    if rem * 2 < 2 ^ sh ∨ sh = 0 then q
    else if half < rem then q + 1
    else if rem = half then q + q % 2 else q
  | .up => if rem = 0 ∨ neg then q else q + 1

/-- Round an exact number to binary32, once (fp32 and rnd_up of R168). -/
def Ex.round (x : Ex) (r : Rnd) : F32 :=
  match x with
  | .nan => f32NaN
  | .inf s => if s then f32NegInf else f32Inf
  | .fin s m e =>
    let sb : Nat := if s then 0x80000000 else 0
    if m = 0 then BitVec.ofNat 32 sb
    else
      let nb : Int := (Nat.log2 m : Int) + 1
      let q : Int := max (e + nb - 24) (-149)
      let mant := if q ≤ e then m * 2 ^ (e - q).toNat else shiftRound m (q - e).toNat r s
      let bits := (q + 149).toNat * 0x800000 + mant
      if 0x7F800000 ≤ bits then
        (if r = .up ∧ s then 0xFF7FFFFF#32 else BitVec.ofNat 32 (sb + 0x7F800000))
      else BitVec.ofNat 32 (sb + bits)

/-- fp32 of R168. -/
def fp32 (x : Ex) : F32 := x.round .near
/-- rnd_up of R168. -/
def rndUp (x : Ex) : F32 := x.round .up

def f32Add (a b : F32) : F32 := fp32 ((f32Ex a).add (f32Ex b))
def f32Sub (a b : F32) : F32 := fp32 ((f32Ex a).add (f32Ex b).neg)
def f32Mul (a b : F32) : F32 := fp32 ((f32Ex a).mul (f32Ex b))
/-- fma(a, b, c) = fp32(a × b + c), rounded once (R168). -/
def f32Fma (a b c : F32) : F32 := fp32 (((f32Ex a).mul (f32Ex b)).add (f32Ex c))

/-- The exact quotient rounded once, for finite operands and a non-zero divisor; IEEE 754 otherwise. -/
def f32Div (a b : F32) : F32 :=
  match f32Ex a, f32Ex b with
  | .nan, _ => f32NaN
  | _, .nan => f32NaN
  | .inf _, .inf _ => f32NaN
  | .inf s, .fin t _ _ => if s = t then f32Inf else f32NegInf
  | .fin s _ _, .inf t => if s = t then f32Zero else 0x80000000#32
  | .fin s m e, .fin t n f =>
    if n = 0 then (if m = 0 then f32NaN else if s = t then f32Inf else f32NegInf)
    else
      let big := m * 2 ^ 64
      let q := big / n
      let sticky := if big % n = 0 then 0 else 1
      fp32 (.fin (s != t) (2 * q + sticky) (e - f - 65))

/-- Order key of a pattern that is not a NaN; zeros of either sign have the same key. -/
def f32Key (x : F32) : Int :=
  let u : Int := (x.toNat % 0x80000000 : Nat)
  if f32Neg? x then -u else u

def f32Lt (a b : F32) : Bool := !f32IsNaN a && !f32IsNaN b && decide (f32Key a < f32Key b)
def f32Le (a b : F32) : Bool := !f32IsNaN a && !f32IsNaN b && decide (f32Key a ≤ f32Key b)

/-- `x` rounded half to even to an integer, for an exact finite value. -/
def exRoundInt : Ex → Int
  | .fin s m e =>
    if 0 ≤ e then signedMant s (m * 2 ^ e.toNat)
    else signedMant s (shiftRound m (-e).toNat .near s)
  | _ => 0

/-- ⌈x⌉ of an exact finite value. -/
def exCeil : Ex → Int
  | .fin s m e =>
    if 0 ≤ e then signedMant s (m * 2 ^ e.toNat)
    else
      let d := 2 ^ (-e).toNat
      if s then -((m / d : Nat) : Int) else ((ceilDiv m d : Nat) : Int)
  | _ => 0

/-- ⌊x⌋ of an exact finite value. -/
def exFloor (x : Ex) : Int := -(exCeil x.neg)

/-- ⌊log2 |x|⌋ of an exact non-zero finite value. -/
def exLog2 : Ex → Int
  | .fin _ m e => (Nat.log2 m : Int) + e
  | _ => 0

/-- The coefficients c5 to c0 of the exp2 polynomial (R174). -/
def exp2Coeffs : List F32 :=
  [0x3AAFA3E8#32, 0x3C1E87A2#32, 0x3D635767#32, 0x3E75FC85#32, 0x3F317218#32, 0x3F800000#32]

/-- exp2(x) for x ≤ 0 (R174). -/
def f32Exp2 (x : F32) : F32 :=
  if f32IsNaN x then f32NaN
  else if f32Lt x 0xC3160000#32 then f32Zero
  else
    let n := exRoundInt (f32Ex x)
    let f := fp32 ((f32Ex x).add (.fin (decide (0 < n)) n.natAbs 0))
    let p := match exp2Coeffs with
      | [] => f32Zero
      | c :: cs => cs.foldl (fun acc k => f32Fma acc f k) c
    fp32 ((f32Ex p).scale n)

/-- Exact conversion of a BF16 pattern (R145). -/
def bf16ToF32 (b : Nat) : F32 := BitVec.ofNat 32 (b % 65536 * 65536)

end Sys2Proof.Machine
end

