-- ==== Sys2Proof/Machine/Formats.lean ====
section
/-!
DEFINITION. Stored formats, rotation, sketch, wire codec and check bits (spec/05). Everything here is a pure function:
a page is given by its geometry and by the function that reads its frame bytes.
-/

namespace Sys2Proof.Machine

/-- Geometry of a lane: storage code, head dimension, KV heads per group and page length (R97, R143). -/
structure Geo where
  code : Nat
  d : Nat
  kvh : Nat
  t : Nat
deriving DecidableEq, Repr

/-- A small floating-point element format: exponent bits, mantissa bits, bias and its largest finite magnitude code
(R140). -/
structure EFmt where
  eb : Nat
  mb : Nat
  bias : Nat
  maxCode : Nat
deriving DecidableEq, Repr

def fmtBf16 : EFmt := ⟨8, 7, 127, 0x7F7F⟩
def fmtE4M3 : EFmt := ⟨4, 3, 7, 0x7E⟩
def fmtE2M3 : EFmt := ⟨2, 3, 1, 0x1F⟩
def fmtE2M1 : EFmt := ⟨2, 1, 1, 0x7⟩
/-- Formats that only the expander of a tile decodes (R139, R345). -/
def fmtE5M2 : EFmt := ⟨5, 2, 15, 0x7B⟩
def fmtE3M2 : EFmt := ⟨3, 2, 3, 0x1F⟩

/-- Element format of a storage code (R139). -/
def codeFmt (code : Nat) : EFmt :=
  if code = 0 then fmtBf16 else if code = 3 then fmtE2M3 else if code = 4 then fmtE2M1 else fmtE4M3

/-- Element bits of a storage code (R139). -/
def elemBits (code : Nat) : Nat :=
  if code = 0 then 16 else if code = 3 then 6 else if code = 4 then 4 else 8

/-- S8, S6 and S4 are rotated (R139). -/
def isRotated (code : Nat) : Bool := decide (2 ≤ code)

/-- S6 and S4 carry an E8M0 scale per 32 elements (R139). -/
def hasScale (code : Nat) : Bool := decide (3 ≤ code)

/-- Bits per 32 elements, scale included: 512, 256, 256, 200, 136 (R139). -/
def bitsPer32 (code : Nat) : Nat := 32 * elemBits code + (if hasScale code then 8 else 0)

/-- b: bytes per token in the stored code, K and V with scales (R82, R100). -/
def bytesPerToken (code d kvh : Nat) : Nat := 2 * kvh * (d / 32) * bitsPer32 code / 8

/-- The legal head dimensions: d32 2, 3, 4, 6, 8 or 16 (R97). -/
def legalD (d : Nat) : Bool := d == 64 || d == 96 || d == 128 || d == 192 || d == 256 || d == 512

/-- The page length of a geometry: the largest multiple of 32, not above 1,024, with T × b ≤ 64,512; 0 where the
geometry is refused (R100, R101). -/
def pageLen (code d kvh : Nat) : Nat :=
  if !(decide (code ≤ 4) && legalD d && (kvh == 1 || kvh == 2 || kvh == 4 || kvh == 8)) then 0
  else if isRotated code && (d == 96 || d == 192) then 0
  else
    let b := bytesPerToken code d kvh
    min 1024 (64512 / b / 32 * 32)

/-- R_T = ⌈2^34 / T⌉ (R97). -/
def recipT (t : Nat) : Nat := ceilDiv (2 ^ 34) t

/-- The page index of a token position: (t × R_T) >> 34 (R103). -/
def pageOf (t pos : Nat) : Nat := pos * recipT t / 2 ^ 34

/-! ### Element codes -/

/-- The exact value of an element code; codes that the quantizer never produces decode as zero (R140, R149). -/
def decodeElem (f : EFmt) (c : Nat) : Ex :=
  let mag := c % 2 ^ (f.eb + f.mb)
  let s := bitOf c (f.eb + f.mb)
  if f.maxCode < mag ∨ mag = 0 then .fin false 0 0
  else
    let ef := mag / 2 ^ f.mb
    let fr := mag % 2 ^ f.mb
    if ef = 0 then .fin s fr (1 - (f.bias : Int) - f.mb)
    else .fin s (fr + 2 ^ f.mb) ((ef : Int) - f.bias - f.mb)

/-- Quantize an exact finite value: the code and whether it saturated (R146). -/
def quantElem (f : EFmt) (x : Ex) : Nat × Bool :=
  match x with
  | .fin s m e =>
    if m = 0 then (0, false)
    else
      let qmin : Int := 1 - (f.bias : Int) - f.mb
      let q : Int := max (e + ((Nat.log2 m : Int) + 1) - (f.mb + 1)) qmin
      let mant := if q ≤ e then m * 2 ^ (e - q).toNat else shiftRound m (q - e).toNat .near s
      let mag := (q - qmin).toNat * 2 ^ f.mb + mant
      -- the largest finite value, compared exactly
      let mx := decodeElem f f.maxCode
      let sat := match (Ex.fin false m e).add mx.neg with
        | .fin neg d _ => !neg && decide (d ≠ 0)
        | _ => true
      let mag' := if sat then f.maxCode else mag
      if mag' = 0 then (0, sat) else ((if s then 2 ^ (f.eb + f.mb) else 0) + mag', sat)
  | _ => (0, false)

/-- The exponent X of a group's shared scale 2^X (R148). -/
def groupScaleX (vs : List F32) : Int :=
  let mx := vs.foldl (fun (a : F32) v => if f32Lt a (v &&& 0x7FFFFFFF#32) then v &&& 0x7FFFFFFF#32 else a) f32Zero
  if mx = f32Zero then -127
  else max (-127) (min 127 (exLog2 (f32Ex mx) - 2))

/-- Quantize one group of 32 values to a scaled format: scale byte, codes and how many saturated (R148). -/
def quantGroup (f : EFmt) (vs : List F32) : Nat × List Nat × Nat :=
  let x := groupScaleX vs
  let qs := vs.map fun v => quantElem f ((f32Ex v).scale (-x))
  ((x + 127).toNat, qs.map (·.1), (qs.filter (·.2)).length)

/-- The 32-element groups of a list. -/
def groupsOf (n : Nat) : Nat → List α → List (List α)
  | 0, _ => []
  | k + 1, xs => if xs.isEmpty then [] else xs.take n :: groupsOf n k (xs.drop n)

/-- One vector of d values in a storage code: the element codes, the scale bytes and how many saturated (R147, R148). -/
def quantVec (code : Nat) (vs : List F32) : List Nat × List Nat × Nat :=
  if hasScale code then
    let gs := (groupsOf 32 vs.length vs).map (quantGroup (codeFmt code))
    (gs.flatMap (·.2.1), gs.map (·.1), gs.foldl (fun a g => a + g.2.2) 0)
  else
    let qs := vs.map fun v => quantElem (codeFmt code) (f32Ex v)
    (qs.map (·.1), [], (qs.filter (·.2)).length)

/-- The exact value of an element under a scale byte; scale 0xFF decodes as zero (R149, R169). -/
def scaledElem (f : EFmt) (c sc : Nat) : Ex :=
  if sc = 0xFF then .fin false 0 0 else (decodeElem f c).scale ((sc : Int) - 127)

/-- A dequantized magnitude above the FP32 maximum is taken as ±0x7F7F_FFFF (R169). -/
def satF32 (x : Ex) : F32 :=
  let y := fp32 x
  if f32IsInf y then (if f32Neg? y then 0xFF7FFFFF#32 else 0x7F7FFFFF#32) else y

/-! ### Regions of a page (R141, R142) -/

/-- Bytes of the K block, which is also the V block's length. -/
def kBytes (g : Geo) : Nat := g.t * g.kvh * g.d * elemBits g.code / 8

/-- Bytes of each half of the scale region. -/
def scBytes (g : Geo) : Nat := if hasScale g.code then g.t * g.kvh * g.d / 32 else 0

/-- Frame offset of the K block (kv = 0) or the V block (kv = 1). -/
def blkOff (g : Geo) (kv : Nat) : Nat := 1024 + kv * kBytes g

/-- Frame offset of the K scales or the V scales. -/
def scaleOff (g : Geo) (kv : Nat) : Nat := 1024 + 2 * kBytes g + kv * scBytes g

/-- Little-endian number of `n` bytes. -/
def leBytes (rd : Nat → Nat) (a n : Nat) : Nat :=
  (List.range n).foldr (fun i acc => rd (a + i) % 256 + 256 * acc) 0

/-- Element `n` of a block of `e`-bit codes at frame offset `base` (R141). -/
def elemAt (rd : Nat → Nat) (base n e : Nat) : Nat :=
  let bit := n * e
  leBytes rd (base + bit / 8) ((e + 14) / 8) / 2 ^ (bit % 8) % 2 ^ e

/-- The dequantized value of slot `slot`, head `h`, dimension `i` of K (kv = 0) or V (kv = 1) (R141, R142, R169). -/
def pageElem (rd : Nat → Nat) (g : Geo) (kv slot h i : Nat) : F32 :=
  let n := (slot * g.kvh + h) * g.d + i
  let c := elemAt rd (blkOff g kv) n (elemBits g.code)
  if hasScale g.code then
    satF32 (scaledElem (codeFmt g.code) c (rd (scaleOff g kv + (slot * g.kvh + h) * (g.d / 32) + i / 32) % 256))
  else satF32 (decodeElem (codeFmt g.code) c)

/-- The dequantized vector of a slot and head. -/
def pageVec (rd : Nat → Nat) (g : Geo) (kv slot h : Nat) : List F32 :=
  (List.range g.d).map (pageElem rd g kv slot h)

/-- The bytes of a run of `e`-bit codes packed from bit 0 upward (R141). -/
def packCodes (e : Nat) (cs : List Nat) : List Nat :=
  let v := cs.foldr (fun c acc => c % 2 ^ e + 2 ^ e * acc) 0
  (List.range (ceilDiv (cs.length * e) 8)).map fun i => v / 256 ^ i % 256

/-! ### Rotation (R150 to R152) -/

/-- One butterfly stage with half-width `h`, over at most `fuel` blocks. -/
def butterfly (h : Nat) : Nat → List F32 → List F32
  | 0, xs => xs
  | k + 1, xs =>
    if xs.length < 2 * h ∨ h = 0 then xs
    else
      let a := xs.take h
      let b := (xs.drop h).take h
      List.zipWith f32Add a b ++ List.zipWith f32Sub a b ++ butterfly h k (xs.drop (2 * h))

/-- The unnormalized Walsh–Hadamard transform W in Sylvester order (R150). -/
def walsh (lam : Nat) (xs : List F32) : List F32 :=
  (List.range lam).foldl (fun ys st => butterfly (2 ^ st) xs.length ys) xs

/-- c_d (R150). -/
def rotConst (d : Nat) : F32 :=
  if d = 64 then 0x3E000000#32 else if d = 128 then 0x3DB504F3#32
  else if d = 256 then 0x3D800000#32 else 0x3D3504F3#32

/-- One step of the sign generator (R151). -/
def xorshift (s : BitVec 64) : BitVec 64 :=
  let a := s ^^^ (s <<< 13)
  let b := a ^^^ (a >>> 7)
  b ^^^ (b <<< 17)

/-- The words of the sign vector after a state (R151). -/
def signWords : Nat → BitVec 64 → List (BitVec 64)
  | 0, _ => []
  | k + 1, s => let n := xorshift s; n :: signWords k n

/-- The sign vector of a seed: true is −1 (R151). -/
def signVec (seed : BitVec 64) (d : Nat) : List Bool :=
  let s0 := if seed = 0#64 then 0x9E3779B97F4A7C15#64 else seed
  (signWords (ceilDiv d 64) s0).flatMap (fun w => (List.range 64).map fun i => w.getLsbD i) |>.take d

/-- Flip the sign bits that the sign vector names. -/
def applySigns (sv : List Bool) (xs : List F32) : List F32 :=
  List.zipWith (fun s x => if s then x ^^^ 0x80000000#32 else x) sv xs

/-- The rotation y = c_d × W(s ⊙ x) (R150). -/
def rotate (seed : BitVec 64) (xs : List F32) : List F32 :=
  let d := xs.length
  (walsh (Nat.log2 d) (applySigns (signVec seed d) xs)).map (f32Mul (rotConst d))

/-- The un-rotation o = s ⊙ (c_d × W(O′)) (R152). -/
def unrotate (seed : BitVec 64) (xs : List F32) : List F32 :=
  let d := xs.length
  applySigns (signVec seed d) ((walsh (Nat.log2 d) xs).map (f32Mul (rotConst d)))

/-! ### Sketch (R153 to R156) -/

/-- The width k of the sketch codes for x = kvh × d (R153). -/
def sketchK (x : Nat) : Nat :=
  if x ≤ 384 then 8 else if x ≤ 512 then 6 else if x ≤ 768 then 4 else 3

/-- One group of the sketch: exponent byte, max codes and min codes. -/
structure SkGroup where
  e : Nat
  a : List Int
  b : List Int
deriving DecidableEq, Repr

/-- ⌈v / 2^(e−127)⌉ and ⌊v / 2^(e−127)⌋. -/
def skCeil (v : F32) (e : Nat) : Int := exCeil ((f32Ex v).scale (127 - (e : Int)))
def skFloor (v : F32) (e : Nat) : Int := exFloor ((f32Ex v).scale (127 - (e : Int)))

/-- fits(e) of R155. -/
def skFits (k e : Nat) (vs : List F32) : Bool :=
  vs.all fun v => decide (skCeil v e ≤ 2 ^ (k - 1) - 1) && decide (-(2 ^ (k - 1) : Int) ≤ skFloor v e)

/-- The smallest e at or above `e0` that fits, searching `fuel` steps; 256 where none does. -/
def skSmallest (k : Nat) (vs : List F32) : Nat → Nat → Nat
  | 0, _ => 256
  | n + 1, e => if skFits k e vs then e else skSmallest k vs n (e + 1)

/-- ⌈x / 2^k⌉ of an integer. -/
def intCeilShift (x : Int) (k : Nat) : Int := -((-x) / ((2 ^ k : Nat) : Int))

/-- The update of one group by one token; `none` where it would need an exponent above 254 (R155, R156). -/
def skUpdate (k : Nat) (first : Bool) (g : SkGroup) (vs : List F32) : Option SkGroup :=
  let e0 := if first then 0 else g.e
  let e1 := skSmallest k vs (257 - e0) e0
  if 254 < e1 then none
  else if first then some ⟨e1, vs.map (skCeil · e1), vs.map (skFloor · e1)⟩
  else
    let sh := e1 - g.e
    let a := g.a.map fun x => intCeilShift x sh
    let b := g.b.map fun (x : Int) => x / ((2 ^ sh : Nat) : Int)
    some ⟨e1, List.zipWith (fun x v => max x (skCeil v e1)) a vs, List.zipWith (fun x v => min x (skFloor v e1)) b vs⟩

/-- Read the sketch of a page with x = kvh × d (R154). -/
def readSketch (rd : Nat → Nat) (x : Nat) : List SkGroup :=
  let k := sketchK x
  let amax := 32 + x / 32
  let amin := amax + x * k / 8
  (List.range (x / 32)).map fun g =>
    ⟨rd (32 + g) % 256,
     (List.range 32).map fun i => signedOf (elemAt rd amax (32 * g + i) k) k,
     (List.range 32).map fun i => signedOf (elemAt rd amin (32 * g + i) k) k⟩

/-- The 992 bytes of a sketch region (R154). -/
def sketchBytes (x : Nat) (gs : List SkGroup) : List Nat :=
  let k := sketchK x
  let body := gs.map (·.e) ++ packCodes k (gs.flatMap fun g => g.a.map (ofSigned · k))
    ++ packCodes k (gs.flatMap fun g => g.b.map (ofSigned · k))
  body ++ List.replicate (992 - body.length) 0

/-- Update every group with one token's stored keys (all heads, dimension order); `none` freezes the sketch (R156). -/
def sketchToken (x : Nat) (first : Bool) (gs : List SkGroup) (keys : List F32) : Option (List SkGroup) :=
  let k := sketchK x
  let vss := groupsOf 32 keys.length keys
  (List.zipWith (fun g vs => skUpdate k first g vs) gs vss).foldr
    (fun o acc => match o, acc with
      | some g, some r => some (g :: r)
      | _, _ => none) (some [])

/-- An empty sketch with the right number of groups. -/
def emptySketch (x : Nat) : List SkGroup :=
  List.replicate (x / 32) ⟨0, List.replicate 32 0, List.replicate 32 0⟩

/-- Decoded upper and lower bound of dimension D (R154). -/
def skBound (g : SkGroup) (i : Nat) (upper : Bool) : Ex :=
  let c := (if upper then g.a else g.b).getD i 0
  .fin (decide (c < 0)) c.natAbs ((g.e : Int) - 127)

/-! ### Wire codec (R159 to R162) -/

/-- Mantissa bits of a wire code. -/
def wireK (wc : Nat) : Nat := if wc = 1 then 8 else if wc = 2 then 12 else 16

/-- S_O: bytes of one output vector under a wire code (R159, R193). -/
def wireVecBytes (wc d : Nat) : Nat :=
  if wc = 0 then 4 * d else (4 * wireK wc + 1) * d / 32

/-- One codec block of 32 values (R160 to R162). -/
def wireBlock (k : Nat) (vs : List F32) : List Nat :=
  if vs.all f32Finite then
    let nz := vs.filter fun v => decide (v.toNat % 0x80000000 ≠ 0)
    match nz with
    | [] => 0 :: packCodes k (vs.map fun _ => 0)
    | v0 :: r =>
      let em := r.foldl (fun m v => max m (exLog2 (f32Ex v))) (exLog2 (f32Ex v0))
      let x : Int := max 0 (min 254 (em + 127))
      let lim : Int := 2 ^ (k - 1) - 1
      let ms := vs.map fun v => max (-lim) (min lim (exRoundInt ((f32Ex v).scale (-(x - 127 - (k - 2))))))
      x.toNat :: packCodes k (ms.map (ofSigned · k))
  else 0xFF :: packCodes k (vs.map fun _ => 0)

/-- The four little-endian bytes of a word. -/
def f32Bytes (x : F32) : List Nat := (List.range 4).map fun i => x.toNat / 256 ^ i % 256

/-- One output vector as sent (R159, R193). -/
def wireVec (wc : Nat) (o : List F32) : List Nat :=
  if wc = 0 then o.flatMap f32Bytes else (groupsOf 32 o.length o).flatMap (wireBlock (wireK wc))

/-! ### CRC-32C (R163) -/

/-- Eight shifts of the reflected CRC register. -/
def crcShift : Nat → Nat → Nat
  | 0, c => c
  | k + 1, c => crcShift k (if c % 2 = 1 then Nat.xor (c / 2) 0x82F63B78 else c / 2)

/-- The CRC register over a run of bytes. -/
def crcStep (c b : Nat) : Nat := crcShift 8 (Nat.xor c (b % 256))

/-- CRC-32C of a byte sequence (R163). -/
def crc32c (bs : List Nat) : Nat := Nat.xor (bs.foldl crcStep 0xFFFFFFFF) 0xFFFFFFFF

/-- One bit, and one byte, of the CRC-16 of mesh flits: polynomial 0x1021, most significant bit first (R505). -/
def crc16Shift : Nat → Nat → Nat
  | 0, c => c
  | k + 1, c => crc16Shift k (if 0x8000 ≤ c then Nat.xor (c * 2 % 65536) 0x1021 else c * 2 % 65536)

def crc16Step (c b : Nat) : Nat := crc16Shift 8 (Nat.xor c (b % 256 * 256))

/-- CRC-16 with initial value 0xFFFF, not reflected, without a final XOR (R505). -/
def crc16 (bs : List Nat) : Nat := bs.foldl crc16Step 0xFFFF

/-! ### Page header (R143) -/

/-- Header fields of a page. -/
structure PageHdr where
  g : Geo
  count : Nat
  page : Nat
  origin : Nat
  lane : Nat
  skValid : Bool
  clamped : Nat
deriving DecidableEq, Repr

/-- Little-endian bytes of a number. -/
def toLE (n v : Nat) : List Nat := (List.range n).map fun i => v / 256 ^ i % 256

/-- The 32 bytes of a page header, with hdr_crc over bytes 0 to 23 (R143). -/
def hdrBytes (h : PageHdr) : List Nat :=
  let b := [1, h.g.code, h.g.d / 32, h.g.kvh] ++ toLE 2 h.g.t ++ toLE 2 h.count ++ toLE 4 h.page ++ toLE 4 h.origin
    ++ toLE 2 h.lane ++ [sketchK (h.g.kvh * h.g.d), b2n h.skValid] ++ toLE 2 h.clamped ++ [0, 0]
  b ++ toLE 4 (crc32c b) ++ [0, 0, 0, 0]

/-- Read a page header's fields. -/
def readHdr (rd : Nat → Nat) : PageHdr :=
  ⟨⟨rd 1 % 256, 32 * (rd 2 % 256), rd 3 % 256, leBytes rd 4 2⟩, leBytes rd 6 2, leBytes rd 8 4, leBytes rd 12 4,
   leBytes rd 16 2, bitOf (rd 19) 0, leBytes rd 20 2⟩

/-- The check of a received page against the lane's geometry (R167): 0x00, 0x0B MALFORMED or 0x0E CRC. -/
def pageCheck (rd : Nat → Nat) (g : Geo) : Nat :=
  let h := readHdr rd
  if rd 0 % 256 ≠ 1 ∨ h.g ≠ g then 0x0B
  else if crc32c ((List.range 24).map fun i => rd i % 256) ≠ leBytes rd 24 4 then 0x0E
  else 0

/-- Bytes of one page on the wire: frame bytes 0 to 1,023 + T × b (R162, R166). -/
def pageWireBytes (g : Geo) : Nat := 1024 + g.t * bytesPerToken g.code g.d g.kvh

end Sys2Proof.Machine
end

