-- ==== Sys2Proof/Machine/Attention.lean ====
section
/-!
DEFINITION. Attention arithmetic (spec/06): scores, the merge operator, the canonical page and row folds, masks,
bounded-sparse skipping and the row record. Pure functions over page readers; no placement enters (R183).
-/

namespace Sys2Proof.Machine

/-- A partial: maximum, sum, output and the non-finite flag (R176). -/
structure Part where
  m : F32
  l : F32
  o : List F32
  nf : Bool
deriving DecidableEq, Repr

/-- The empty partial (R176). -/
def Part.empty (d : Nat) : Part := ⟨f32NegInf, f32Zero, List.replicate d f32Zero, false⟩

/-- The non-finite partial (R177, R179). -/
def Part.nonfinite (d : Nat) : Part := ⟨f32NaN, f32NaN, List.replicate d f32NaN, true⟩

/-- Pairwise sums of one tree level; an odd last value passes up unchanged (R172). -/
def treeLevel (add : F32 → F32 → F32) : List F32 → List F32
  | a :: b :: r => add a b :: treeLevel add r
  | r => r

/-- The tree down to one value, over at most `fuel` levels. -/
def treeSum (add : F32 → F32 → F32) : Nat → List F32 → F32
  | 0, xs => xs.headD f32Zero
  | k + 1, xs => if xs.length ≤ 1 then xs.headD f32Zero else treeSum add k (treeLevel add xs)

/-- First level of a group: exact terms summed pairwise with one rounding (R172). -/
def exPairs (r : Rnd) : List Ex → List F32
  | a :: b :: t => (a.add b).round r :: exPairs r t
  | [a] => [a.round r]
  | [] => []

/-- The fixed tree of R172 over exact terms, each fp32 taken in direction `r`. -/
def dotTree (r : Rnd) (ts : List Ex) : F32 :=
  let add := fun a b : F32 => ((f32Ex a).add (f32Ex b)).round r
  let grp := (groupsOf 32 ts.length ts).map fun g => treeSum add 8 (exPairs r g)
  treeSum add 16 grp

/-- The dot product of a rotated query with a dequantized key (R172). -/
def dotQK (q k : List F32) : F32 :=
  dotTree .near (List.zipWith (fun a b => (f32Ex a).mul (f32Ex b)) q k)

/-- A token's score (R173). -/
def score (sigma : F32) (q k : List F32) : F32 := f32Mul (dotQK q k) sigma

/-- The token partial of a score and a value vector; a score that is not finite makes it non-finite (R176, R179). -/
def tokenPart (s : F32) (v : List F32) : Part :=
  if f32Finite s then ⟨s, f32One, v, false⟩ else Part.nonfinite v.length

/-- The merge operator (R177). -/
def Part.merge (a b : Part) : Part :=
  if a.nf ∨ b.nf then Part.nonfinite a.o.length
  else if a.m = f32NegInf then b
  else if b.m = f32NegInf then a
  else
    let (big, small) := if f32Le b.m a.m then (a, b) else (b, a)
    let f := f32Exp2 (f32Sub small.m big.m)
    let l := f32Fma small.l f big.l
    let o := List.zipWith (fun x y => f32Fma x f y) small.o big.o
    if f32Finite l && o.all f32Finite then ⟨big.m, l, o, false⟩ else Part.nonfinite big.o.length

/-- What a row brings to a page: score multiplier, window, prefix, lane length, position, head and rotated query. -/
structure Row where
  sigma : F32
  win : Nat
  pre : Nat
  len : Nat
  pos : Nat
  head : Nat
  q : List F32
deriving DecidableEq, Repr

/-- v_i = min(p_i + 1, L0) (R132). -/
def Row.v (r : Row) : Nat := min (r.pos + 1) r.len

/-- Visibility of key position `k` to a row (R184). -/
def Row.visible (r : Row) (k : Nat) : Bool :=
  decide (k < r.v) && (decide (r.win = 0) || decide (r.pos < k + r.win) || decide (k < r.pre))

/-- A page as its reader sees it: frame bytes by offset, the entry's valid count and sketch_valid (R144). -/
structure PageView where
  rd : Nat → Nat
  count : Nat
  skValid : Bool

/-- Visible valid slots of page `j` for a row, ascending. -/
def visSlots (g : Geo) (j count : Nat) (r : Row) : List Nat :=
  (List.range g.t).filter fun s => decide (s < count) && r.visible (j * g.t + s)

/-- Fully masked: no valid slot of the page is visible (R186). -/
def fullyMasked (g : Geo) (j count : Nat) (r : Row) : Bool := (visSlots g j count r).isEmpty

/-- The partial of one sub-block of a page whose first token has position `base` (R180). -/
def subBlockAt (g : Geo) (pv : PageView) (base : Nat) (r : Row) (c : Nat) : Part :=
  let w := g.t / 32
  ((List.range w).map (c * w + ·)).foldl (fun acc s =>
    if decide (s < pv.count) && r.visible (base + s) then
      acc.merge (tokenPart (score r.sigma r.q (pageVec pv.rd g 0 s r.head)) (pageVec pv.rd g 1 s r.head))
    else acc) (Part.empty g.d)

/-- A row's partial of a page whose first token has position `base`: the left fold of its 32 sub-blocks in chain order
(R181, R225). -/
def pagePartAt (g : Geo) (pv : PageView) (base : Nat) (r : Row) : Part :=
  ((List.range 31).map (· + 1)).foldl (fun acc c => acc.merge (subBlockAt g pv base r c)) (subBlockAt g pv base r 0)

/-- A row's page partial (R181). -/
def pagePart (g : Geo) (pv : PageView) (j : Nat) (r : Row) : Part := pagePartAt g pv (j * g.t) r

/-- The score upper bound of a page for a row (R187). -/
def scoreUB (g : Geo) (pv : PageView) (r : Row) : F32 :=
  let sk := readSketch pv.rd (g.kvh * g.d)
  let terms := r.q.zipIdx.map fun (qi, i) =>
    let dd := r.head * g.d + i
    let grp := sk.getD (dd / 32) ⟨0, [], []⟩
    let hi := (f32Ex qi).mul (skBound grp (dd % 32) true)
    let lo := (f32Ex qi).mul (skBound grp (dd % 32) false)
    if decide (qi.toNat % 0x80000000 = 0) then Ex.fin false 0 0
    else match lo.add hi.neg with
      | .fin false _ _ => lo
      | .inf false => lo
      | _ => hi
  ((f32Ex (dotTree .up terms)).mul (f32Ex r.sigma)).round .up

/-- Arithmetic parameters of a request that its rows share (R171). -/
structure AttnReq where
  mode : Nat
  tau : Nat
  normalize : Bool
  probes : List Nat
  wire : Nat
  seed : BitVec 64
deriving DecidableEq, Repr

/-- Result of a row: the partial as sent and the fields of its status (R191 to R194). -/
structure RowRes where
  part : Part
  omega : F32
  skipped : Nat
  empty : Bool
  normalized : Bool
  normRefused : Bool
  nonfinite : Bool
  sparse : Bool
deriving DecidableEq, Repr

/-- Pages of the row's list that are not fully masked, ascending (R132, R182, R186). -/
def rowPages (g : Geo) (pages : Nat → PageView) (r : Row) : List Nat :=
  (List.range (ceilDiv r.v g.t)).filter fun j => !fullyMasked g j (pages j).count r

/-- The probe pages of a row among its pages (R188). -/
def probePages (g : Geo) (rq : AttnReq) (r : Row) (list : List Nat) : List Nat :=
  let ji := ceilDiv r.v g.t
  list.filter fun j => j == 0 || j + 2 == ji || j + 1 == ji || rq.probes.contains j

/-- The left fold of page partials in a given page order (R182). -/
def foldPages (g : Geo) (pages : Nat → PageView) (r : Row) (order : List Nat) : Part :=
  order.foldl (fun acc j => acc.merge (pagePart g (pages j) j r)) (Part.empty g.d)

/-- fp32 of a natural number. -/
def natF32 (n : Nat) : F32 := fp32 (.fin false n 0)

/-- A row's result (R182, R188 to R192). -/
def rowResult (g : Geo) (rq : AttnReq) (pages : Nat → PageView) (r : Row) : RowRes :=
  let list := rowPages g pages r
  let sparse := decide (rq.mode = 1)
  let probes := probePages g rq r list
  let mp := if sparse then
      let p := foldPages g pages r probes
      if p.nf then f32NegInf else p.m
    else f32NegInf
  let thr := f32Sub mp (natF32 rq.tau)
  let qok := r.q.all f32Finite
  let skip := if sparse && qok && decide (mp ≠ f32NegInf) then
      list.filter fun j => !probes.contains j && (pages j).skValid && f32Lt (scoreUB g (pages j) r) thr
    else []
  let order := if sparse then probes ++ list.filter (fun j => !probes.contains j && !skip.contains j) else list
  let fin := foldPages g pages r order
  if fin.nf then
    ⟨Part.nonfinite g.d, f32Zero, 0, false, false, rq.normalize, true, sparse⟩
  else if fin.m = f32NegInf then
    ⟨Part.empty g.d, f32Zero, 0, true, false, rq.normalize, false, sparse⟩
  else
    let o1 := if isRotated g.code then unrotate rq.seed fin.o else fin.o
    let norm := rq.normalize && decide (r.pos < r.len)
    let o2 := if norm then o1.map (f32Div · fin.l) else o1
    let acc := skip.foldl (fun a j =>
      let n := (visSlots g j (pages j).count r).length
      f32Add a (f32Mul (natF32 n) (f32Exp2 (f32Sub (scoreUB g (pages j) r) fin.m)))) f32Zero
    let om := if sparse && !skip.isEmpty then f32Div acc fin.l else f32Zero
    ⟨⟨fin.m, fin.l, o2, false⟩, om, min skip.length 0xFFFF, false, norm, rq.normalize && !norm, false, sparse⟩

/-- The row record: O in the wire code, then m and l raw (R193). -/
def rowRecord (wire : Nat) (res : RowRes) : List Nat :=
  wireVec wire res.part.o ++ f32Bytes res.part.m ++ f32Bytes res.part.l

/-- The 8-byte row status (R194). -/
def rowStatus (res : RowRes) : List Nat :=
  toLE 8 (res.omega.toNat + res.skipped * 2 ^ 32 + b2n res.empty * 2 ^ 48 + b2n res.normalized * 2 ^ 49
    + b2n res.normRefused * 2 ^ 50 + b2n res.nonfinite * 2 ^ 51 + b2n res.sparse * 2 ^ 52)

/-- The APART payload: every row record, then every row status (R166, R193, R194). -/
def apartPayload (wire : Nat) (rs : List RowRes) : List Nat :=
  rs.flatMap (rowRecord wire) ++ rs.flatMap rowStatus

end Sys2Proof.Machine
end

