-- ==== Sys2Proof/Config.lean ====
section
/-!
DEFINITION. What the spec leaves to the part, to chance or to algorithms it names but does not define bit by bit: opaque
constants without a body, so that no proof can see a value of them, and the few fixed counts of the part.
-/

namespace Sys2Proof

/-- Values the spec leaves open, one fresh value per draw number (assumption 3). -/
opaque Config.freeValue : Nat → BitVec 64

/-- Random initial generation of a slot after the given device reset (R526): kind 0 context slot, 1 request slot,
2 connection, 3 region, 4 key-slot epoch (assumption 4). -/
opaque Config.initialGen : Nat → Nat → Nat → BitVec 16

/-- Request key, response key, request IV and response IV (32, 32, 12 and 12 bytes) that the SPDM key schedule makes of a session's export
secret (R475): DSP0274 defines the schedule (assumption 5). -/
opaque Config.spdmKeys : List Nat → List Nat

/-- The 12-byte nonce of a response on the open session, by seq (R474): the spec gives its key but no nonce (assumption 102). -/
opaque Config.openNonce : Nat → List Nat

/-- The bytes of an SPDM response of a kind with its contents (R475): DSP0274 defines them (assumption 5). -/
opaque Config.spdmBytes : Nat → List Nat → List Nat

/-- Whether an ECDSA P-384 signature verifies: public key, message and signature (R495). -/
opaque Config.ecdsaVerifies : List Nat → List Nat → List Nat → Bool

/-- The signature that the attestation key makes: what the key was derived from, and the message (R493, R498). -/
opaque Config.akSign : List Nat → List Nat → List Nat

/-- SHA-384 digests of Weaholt's public keys that this part trusts: 0 the debug key, 1 the lifecycle key (R496). -/
opaque Config.weaholtKey : Nat → BitVec 384

/-- Measurement of the boot ROM, and digest of the DeviceID public key (R493, R498). -/
opaque Config.romDigest : BitVec 384
opaque Config.deviceId : BitVec 384

end Sys2Proof
end

