-- ==== Sys2Proof/Machine/Crypto.lean ====
section
/-!
DEFINITION. The algorithms that the spec names and takes from their standards (R46, R348, R381, R475, R478, R479): SHA-384 (FIPS 180-4),
HKDF-SHA-384 (RFC 5869) and AES-256-GCM (FIPS 197, SP 800-38D). PRESUMED: their definitions stand outside the spec (assumption 5).
-/

namespace Sys2Proof.Machine

/-! ### Network byte order (R5) -/

/-- `n` bytes of a number, most significant first. -/
def toBE (n v : Nat) : List Nat := (toLE n v).reverse

/-- The number that bytes spell, most significant first. -/
def ofBE (l : List Nat) : Nat := l.foldl (fun a b => 256 * a + b % 256) 0

/-- A network-order field of a header: `n` bytes at offset `o`. -/
def beAt (l : List Nat) (o n : Nat) : Nat := ofBE ((l.drop o).take n)

/-- A list cut into pieces of `n`, at most `k` of them. -/
def pieces (n : Nat) (l : List Nat) : Nat → List (List Nat)
  | 0 => []
  | k + 1 => if l.isEmpty then [] else l.take n :: pieces n (l.drop n) k

/-- The bytes of two lists, XORed place by place. -/
def xorBytes (a b : List Nat) : List Nat := (a.zip b).map fun x => Nat.xor x.1 x.2

/-! ### SHA-384 -/

/-- The greatest `r` below 2^`k` with r^`e` ≤ `x`, from its top bit down. -/
def rootBits (e x : Nat) : Nat → Nat → Nat
  | 0, r => r
  | k + 1, r => rootBits e x k (if (r + 2 ^ k) ^ e ≤ x then r + 2 ^ k else r)

/-- The primes below 410: the first eighty. A number below 21² that no smaller one from 2 to 20 divides is prime. -/
def shaPrimes : List Nat := (List.range 410).filter fun n => 2 ≤ n && ((List.range (min n 21)).drop 2).all fun d => n % d != 0

/-- Round constants: the first 64 bits of the fractional parts of the primes' cube roots. -/
def shaK : List Nat := shaPrimes.map fun p => rootBits 3 (p * 2 ^ 192) 68 0 % 2 ^ 64

/-- SHA-384's initial value: the same of the square roots of the ninth to sixteenth primes. -/
def shaInit : List Nat := ((shaPrimes.drop 8).take 8).map fun p => rootBits 2 (p * 2 ^ 128) 70 0 % 2 ^ 64

def rotr64 (x n : Nat) : Nat := x / 2 ^ n + x % 2 ^ n * 2 ^ (64 - n)
def xor3 (a b c : Nat) : Nat := Nat.xor (Nat.xor a b) c

/-- The next word of the message schedule, whose words stand newest first. -/
def shaNext (w : List Nat) : Nat :=
  let a := w.getD 14 0
  let b := w.getD 1 0
  (w.getD 15 0 + xor3 (rotr64 a 1) (rotr64 a 8) (a / 2 ^ 7) + w.getD 6 0 + xor3 (rotr64 b 19) (rotr64 b 61) (b / 2 ^ 6)) % 2 ^ 64

/-- The 80 words of a block's message schedule. -/
def shaSchedule (block : List Nat) : List Nat :=
  ((List.range 64).foldl (fun w _ => shaNext w :: w) ((pieces 8 block 16).map ofBE).reverse).reverse

/-- One round, with a round constant and a word of the schedule. -/
def shaRound (h : List Nat) (kw : Nat × Nat) : List Nat :=
  match h with
  | [a, b, c, d, e, f, g, x] =>
    let t1 := x + xor3 (rotr64 e 14) (rotr64 e 18) (rotr64 e 41) + Nat.xor (Nat.land e f) (Nat.land (2 ^ 64 - 1 - e) g) + kw.1 + kw.2
    let t2 := xor3 (rotr64 a 28) (rotr64 a 34) (rotr64 a 39) + xor3 (Nat.land a b) (Nat.land a c) (Nat.land b c)
    [(t1 + t2) % 2 ^ 64, a, b, c, (d + t1) % 2 ^ 64, e, f, g]
  | _ => h

/-- One block of 128 bytes. -/
def shaBlock (h block : List Nat) : List Nat :=
  (h.zip ((shaK.zip (shaSchedule block)).foldl shaRound h)).map fun x => (x.1 + x.2) % 2 ^ 64

/-- The message with its padding. -/
def shaPad (m : List Nat) : List Nat := m ++ [128] ++ List.replicate ((239 - m.length % 128) % 128) 0 ++ toBE 16 (8 * m.length)

/-- The 48 bytes of SHA-384 of a byte string. -/
def sha384Bytes (m : List Nat) : List Nat :=
  let p := shaPad m
  (((pieces 128 p (p.length / 128)).foldl shaBlock shaInit).take 6).flatMap (toBE 8)

/-- SHA-384 of a byte string. -/
def sha384 (m : List Nat) : BitVec 384 := BitVec.ofNat 384 (ofBE (sha384Bytes m))

/-! ### HKDF-SHA-384 -/

/-- HMAC-SHA-384 of a key of at most 128 bytes, or of the digest of a longer one. -/
def hmac384 (key m : List Nat) : List Nat :=
  let k := if 128 < key.length then sha384Bytes key else key
  let pad := fun (b : Nat) => (k ++ List.replicate (128 - k.length) 0).map fun x => Nat.xor x b
  sha384Bytes (pad 0x5C ++ sha384Bytes (pad 0x36 ++ m))

/-- The blocks T(i) and on of HKDF-Expand, after `prev`. -/
def hkdfBlocks (prk info prev : List Nat) (i : Nat) : Nat → List Nat
  | 0 => []
  | n + 1 =>
    let t := hmac384 prk (prev ++ info ++ [i % 256])
    t ++ hkdfBlocks prk info t (i + 1) n

/-- HKDF-Expand: pseudorandom key, info and length. -/
def hkdfExpand (prk info : List Nat) (len : Nat) : List Nat := (hkdfBlocks prk info [] 1 (ceilDiv len 48)).take len

/-- HKDF: salt, input keying material, info and length. -/
def hkdf (salt ikm info : List Nat) (len : Nat) : List Nat := hkdfExpand (hmac384 salt ikm) info len

/-! ### AES-256 -/

/-- Multiplication by x in GF(2^8). -/
def gfDouble (a : Nat) : Nat := if a < 128 then 2 * a else Nat.xor (2 * a - 256) 0x1B

/-- The first `n` powers of x + 1 times `a`; its 255 powers are all the elements but 0. -/
def gfPowers : Nat → Nat → List Nat
  | 0, _ => []
  | n + 1, a => a :: gfPowers n (Nat.xor (gfDouble a) a)

def rotl8 (x n : Nat) : Nat := x * 2 ^ n % 256 + x / 2 ^ (8 - n)

/-- The S-box's affine map, of the inverse `b` of a byte. -/
def aesAffine (b : Nat) : Nat := Nat.xor (Nat.xor (xor3 b (rotl8 b 1) (rotl8 b 2)) (Nat.xor (rotl8 b 3) (rotl8 b 4))) 0x63

/-- The S-box as one number, whose byte `a` is entry `a`: the inverse of power k is power 255 − k, and 0 stands for itself. -/
def aesBox : Nat :=
  let p := gfPowers 255 1
  (p.zip (p.take 1 ++ (p.drop 1).reverse)).foldl (fun t x => t + aesAffine x.2 * 2 ^ (8 * x.1)) (aesAffine 0)

/-- A byte through the S-box. -/
def aesSub (a : Nat) : Nat := aesBox / 2 ^ (8 * a) % 256

/-- The next word of the key schedule; the words stand newest first, and `i` is its index. -/
def aesNextKey (w : List (List Nat)) (i : Nat) : List Nat :=
  let t := w.getD 0 []
  let u := if i % 8 = 0 then
      xorBytes ((t.drop 1 ++ t.take 1).map aesSub) [(List.range (i / 8 - 1)).foldl (fun a _ => gfDouble a) 1, 0, 0, 0]
    else if i % 8 = 4 then t.map aesSub
    else t
  xorBytes (w.getD 7 []) u

/-- The 15 round keys of a 32-byte key. -/
def aesKeys (key : List Nat) : List (List Nat) :=
  let w := ((List.range 52).foldl (fun w i => aesNextKey w (i + 8) :: w) (pieces 4 key 8).reverse).reverse
  pieces 16 w.flatten 15

/-- ShiftRows: byte r + 4c comes from column c + r. -/
def aesShift (s : List Nat) : List Nat := (List.range 16).map fun i => s.getD ((i + 4 * (i % 4)) % 16) 0

/-- MixColumns of one column. -/
def aesMixColumn (c : List Nat) : List Nat :=
  let at_ := fun i => c.getD (i % 4) 0
  (List.range 4).map fun i =>
    Nat.xor (Nat.xor (gfDouble (at_ i)) (Nat.xor (gfDouble (at_ (i + 1))) (at_ (i + 1)))) (Nat.xor (at_ (i + 2)) (at_ (i + 3)))

/-- AES-256 of one block of 16 bytes. -/
def aesBlock (key block : List Nat) : List Nat :=
  let ks := aesKeys key
  let s := (ks.drop 1).take 13 |>.foldl (fun s k =>
    xorBytes ((pieces 4 (aesShift (s.map aesSub)) 4).flatMap aesMixColumn) k) (xorBytes block (ks.getD 0 []))
  xorBytes (aesShift (s.map aesSub)) (ks.getD 14 [])

/-! ### AES-256-GCM -/

/-- Multiplication by `h` in GF(2^128), bit 0 the most significant, over the low `n` bits of `x` from its top. -/
def ghashMul (x v : Nat) : Nat → Nat
  | 0 => 0
  | n + 1 =>
    Nat.xor (if bitOf x n then v else 0) (ghashMul x (if v % 2 = 1 then Nat.xor (v / 2) (0xE1 * 2 ^ 120) else v / 2) n)

/-- Bytes filled up with zeros to whole blocks. -/
def blockPad (l : List Nat) : List Nat := l ++ List.replicate ((16 - l.length % 16) % 16) 0

/-- GHASH of whole blocks under the subkey `h`. -/
def ghash (h : Nat) (l : List Nat) : Nat :=
  (pieces 16 l (l.length / 16)).foldl (fun y b => ghashMul (Nat.xor y (ofBE b)) h 128) 0

/-- The keystream of a 12-byte IV, from counter 2 on, over the text. -/
def gcmCrypt (key iv text : List Nat) : List Nat :=
  ((pieces 16 text (ceilDiv text.length 16)).zipIdx).flatMap fun x => xorBytes x.1 (aesBlock key (iv ++ toBE 4 (x.2 + 2)))

/-- The tag of a ciphertext with its additional data. -/
def gcmTag (key iv aad ct : List Nat) : List Nat :=
  let h := ofBE (aesBlock key (List.replicate 16 0))
  let y := ghash h (blockPad aad ++ blockPad ct ++ toBE 8 (8 * aad.length) ++ toBE 8 (8 * ct.length))
  xorBytes (toBE 16 y) (aesBlock key (iv ++ [0, 0, 0, 1]))

/-- AES-256-GCM sealing: the ciphertext, then the 16-byte tag. -/
def gcmSeal (key iv aad plain : List Nat) : List Nat :=
  let ct := gcmCrypt key iv plain
  ct ++ gcmTag key iv aad ct

/-- AES-256-GCM opening of a ciphertext and tag; `none` where the tag fails. -/
def gcmOpen (key iv aad ct tag : List Nat) : Option (List Nat) :=
  if gcmTag key iv aad ct == tag then some (gcmCrypt key iv ct) else none

end Sys2Proof.Machine
end

