-- ==== Sys2Proof/Machine/RegTable.lean ====
section
/-!
DEFINITION. The register tables of spec/02 to spec/20: the page map (R23), every register with its fields, their
access codes (R7) and reset values (R8), and one address function per register. The rows follow the register tables
of the rules named beside them; only read, write and reset use them (Machine/Ops.lean).
-/

namespace Sys2Proof.Machine

/-- Access code of a register field (R7). -/
inductive Acc where
  | ro | rw | w1c | wo | rc | rwl | rwt
deriving DecidableEq, Repr

/-- One field of a register: bits `[hi:lo]`, its access code and its value after device reset. -/
structure Fld where
  hi : Nat
  lo : Nat
  acc : Acc
  rst : Nat
deriving DecidableEq, Repr

/-- One register of a block: its byte offset in the block, two replication steps (stride and count, outer and inner)
and its fields. A register that stands alone has counts 1 and 1. -/
structure RegRow where
  off : Nat
  s1 : Nat
  n1 : Nat
  s2 : Nat
  n2 : Nat
  flds : List Fld
deriving DecidableEq, Repr

/-- The blocks of the page map (R23). -/
inductive Blk where
  | sys | lcs | att | key | prt | pwr | clk | uar | mgt | bst | tpl | ctx | pwk | frm | rdl | trw | fen | dbr | pci | eth | slu | rak | ptp | itp | fab | msh | til | dpw
deriving DecidableEq, Repr

/-- Page index of instance 0 of a block, which is also its BLK_ID.block_code (R23). -/
def Blk.page : Blk → Nat
  | .sys => 0x0
  | .lcs => 0x1
  | .att => 0x2
  | .key => 0x3
  | .prt => 0x4
  | .pwr => 0x5
  | .clk => 0x6
  | .uar => 0x7
  | .mgt => 0x8
  | .bst => 0xa
  | .tpl => 0x10
  | .ctx => 0x11
  | .pwk => 0x12
  | .frm => 0x13
  | .rdl => 0x14
  | .trw => 0x15
  | .fen => 0x20
  | .dbr => 0x28
  | .pci => 0x30
  | .eth => 0x40
  | .slu => 0x48
  | .rak => 0x50
  | .ptp => 0x58
  | .itp => 0x60
  | .fab => 0x70
  | .msh => 0x80
  | .til => 0x100
  | .dpw => 0x200

/-- How many instances a block has (R23). -/
def Blk.count : Blk → Nat
  | .sys => 1
  | .lcs => 1
  | .att => 1
  | .key => 1
  | .prt => 1
  | .pwr => 1
  | .clk => 1
  | .uar => 1
  | .mgt => 2
  | .bst => 1
  | .tpl => 1
  | .ctx => 1
  | .pwk => 1
  | .frm => 1
  | .rdl => 1
  | .trw => 4
  | .fen => 8
  | .dbr => 8
  | .pci => 2
  | .eth => 8
  | .slu => 8
  | .rak => 8
  | .ptp => 1
  | .itp => 1
  | .fab => 1
  | .msh => 1
  | .til => 128
  | .dpw => 1

/-- BLK_CAP of a block, as its own chapter gives it (R28). -/
def Blk.cap : Blk → Nat
  | .sys => 0x3
  | .lcs => 0x5
  | .att => 0x1
  | .key => 0xa0d
  | .prt => 0x40
  | .pwr => 0x151c
  | .clk => 0x3
  | .uar => 0x215
  | .mgt => 0x1
  | .bst => 0xa80
  | .tpl => 0x18040
  | .ctx => 0xb1412
  | .pwk => 0x81000
  | .frm => 0x1040
  | .rdl => 0x46010
  | .trw => 0x80e08
  | .fen => 0x80104020
  | .dbr => 0x4cc0820
  | .pci => 0x410
  | .eth => 0xf08
  | .slu => 0x840
  | .rak => 0x164008
  | .ptp => 0x12
  | .itp => 0x100a100c
  | .fab => 0x1010
  | .msh => 0x100810
  | .til => 0x110110
  | .dpw => 0x40004

/-- Every block, in page order. -/
def Blk.all : List Blk :=
  [.sys, .lcs, .att, .key, .prt, .pwr, .clk, .uar, .mgt, .bst, .tpl, .ctx, .pwk, .frm, .rdl, .trw, .fen, .dbr, .pci, .eth, .slu, .rak, .ptp, .itp, .fab, .msh, .til, .dpw]

/-- Base address of instance `n` of a block in the control space (R23). -/
def Blk.base (b : Blk) (n : Nat) : Nat := (b.page + n) * 0x1000

/-- A block-page owner of a control-space page: the block and its instance; ITP owns sixteen pages (R23, R416). -/
def pageOwner (pg : Nat) : Option (Blk × Nat) :=
  if 0x60 ≤ pg ∧ pg < 0x70 then some (.itp, 0)
  else (Blk.all.find? fun b => decide (b.page ≤ pg) && decide (pg < b.page + b.count)).map fun b => (b, pg - b.page)

namespace Reg

/-- Header registers of instance `n` of block `b` (R26 to R37). -/
abbrev BLK_ID (b : Blk) (n : Nat) : Nat := b.base n
abbrev BLK_VER (b : Blk) (n : Nat) : Nat := b.base n + 0x004
abbrev BLK_CAP (b : Blk) (n : Nat) : Nat := b.base n + 0x008
abbrev BLK_CTL (b : Blk) (n : Nat) : Nat := b.base n + 0x010
abbrev BLK_STAT (b : Blk) (n : Nat) : Nat := b.base n + 0x014
abbrev BLK_EVT (b : Blk) (n : Nat) : Nat := b.base n + 0x018
abbrev BLK_EVT_EN (b : Blk) (n : Nat) : Nat := b.base n + 0x01C
abbrev BLK_FLT (b : Blk) (n : Nat) : Nat := b.base n + 0x020
abbrev BLK_FLT_INFO0 (b : Blk) (n : Nat) : Nat := b.base n + 0x024
abbrev BLK_FLT_INFO1 (b : Blk) (n : Nat) : Nat := b.base n + 0x028
abbrev BLK_LOCK (b : Blk) (n : Nat) : Nat := b.base n + 0x030

/-- Addresses of the DPW registers of R43. -/
abbrev DPW_ADDR_LO (k : Nat) : Nat := 0x200040 + k * 32
abbrev DPW_ADDR_HI (k : Nat) : Nat := 0x200044 + k * 32
abbrev DPW_DATA (k : Nat) : Nat := 0x200048 + k * 32
abbrev DPW_STAT (k : Nat) : Nat := 0x20004c + k * 32
abbrev DPW_BURST : Nat := 0x2000c0

/-- Addresses of the TPL registers of R88. -/
abbrev TPL_TICK_LEN : Nat := 0x10040

/-- Addresses of the TPL registers of R89. -/
abbrev TPL_SEAL : Nat := 0x10044
abbrev TPL_DENSE_ROWS : Nat := 0x10048
abbrev TPL_HORIZON : Nat := 0x1004c
abbrev TPL_MAX_CARRY : Nat := 0x10050

/-- Addresses of the TPL registers of R90. -/
abbrev TPL_EBUDGET : Nat := 0x10054
abbrev TPL_PIM_STACKS : Nat := 0x10058
abbrev TPL_EXCLUDE : Nat := 0x1005c

/-- Addresses of the TPL registers of R91. -/
abbrev TPL_TICK_LO : Nat := 0x10060
abbrev TPL_TICK_HI : Nat := 0x10064
abbrev TPL_LAST_ADMIT : Nat := 0x10068
abbrev TPL_LAST_LATE : Nat := 0x1006c
abbrev TPL_LAST_ENERGY : Nat := 0x10070

/-- Addresses of the TPL registers of R92. -/
abbrev TPL_PQ (k : Nat) : Nat := 0x10400 + k * 16
abbrev TPL_PCAP (k : Nat) : Nat := 0x10404 + k * 16
abbrev TPL_PDEF (k : Nat) : Nat := 0x10408 + k * 16
abbrev TPL_PQD (k : Nat) : Nat := 0x1040c + k * 16

/-- Addresses of the CTX registers of R133. -/
abbrev CTX_BASE_LO : Nat := 0x11040
abbrev CTX_BASE_HI : Nat := 0x11044
abbrev CTX_REQ_BASE_LO : Nat := 0x11048
abbrev CTX_REQ_BASE_HI : Nat := 0x1104c
abbrev CTX_ACTIVE : Nat := 0x11050
abbrev CTX_REQ_INUSE : Nat := 0x11054
abbrev CTX_STARVED : Nat := 0x11058
abbrev CTX_STALE : Nat := 0x1105c
abbrev CTX_FORCE : Nat := 0x11060

/-- Addresses of the PWK registers of R134. -/
abbrev PWK_LAB_INV : Nat := 0x12040
abbrev PWK_HITS : Nat := 0x12044
abbrev PWK_MISSES : Nat := 0x12048
abbrev PWK_FAULTS : Nat := 0x1204c

/-- Addresses of the FRM registers of R135. -/
abbrev FRM_POOL_PEAT : Nat := 0x13040
abbrev FRM_POOL_FEN : Nat := 0x13044
abbrev FRM_GRANT : Nat := 0x13048
abbrev FRM_GRANT_STAT : Nat := 0x1304c
abbrev FRM_SCRUB : Nat := 0x13050
abbrev FRM_COW : Nat := 0x13054
abbrev FRM_PINNED : Nat := 0x13058
abbrev FRM_DEVRES : Nat := 0x1305c
abbrev FRM_DEVRES_STAT : Nat := 0x13060
abbrev FRM_DEVRES_CNT : Nat := 0x13064

/-- Addresses of the FRM registers of R138. -/
abbrev FRM_PQUOTA (k : Nat) : Nat := 0x13400 + k * 32
abbrev FRM_PRES (k : Nat) : Nat := 0x13404 + k * 32
abbrev FRM_PHELD (k : Nat) : Nat := 0x13408 + k * 32
abbrev FRM_PFREE_PEAT (k : Nat) : Nat := 0x1340c + k * 32
abbrev FRM_PFREE_FEN (k : Nat) : Nat := 0x13410 + k * 32
abbrev FRM_PNOFRAME (k : Nat) : Nat := 0x13414 + k * 32

/-- Addresses of the TPL registers of R216. -/
abbrev TPL_PLACE : Nat := 0x10074
abbrev TPL_JOIN : Nat := 0x10078
abbrev TPL_SHARE_LO : Nat := 0x1007c
abbrev TPL_SHARE_HI : Nat := 0x10080
abbrev TPL_SVC_MASK (k : Nat) : Nat := 0x10084 + k * 4
abbrev TPL_TALLY : Nat := 0x10094

/-- Addresses of the FEN registers of R251. -/
abbrev FEN_CH_READY (n : Nat) : Nat := 0x20040 + n * 0x1000
abbrev FEN_CH_TEMP (n : Nat) : Nat := 0x20044 + n * 0x1000
abbrev FEN_CH_REFFAST (n : Nat) : Nat := 0x20048 + n * 0x1000
abbrev FEN_REF_PHASE (n k : Nat) : Nat := 0x20050 + n * 0x1000 + k * 4
abbrev FEN_ECC_CORR (n : Nat) : Nat := 0x20060 + n * 0x1000
abbrev FEN_ODECC_CORR (n : Nat) : Nat := 0x20064 + n * 0x1000
abbrev FEN_ECC_UNCORR (n : Nat) : Nat := 0x20068 + n * 0x1000
abbrev FEN_ECC_ADDR_LO (n : Nat) : Nat := 0x2006c + n * 0x1000
abbrev FEN_ECC_ADDR_HI (n : Nat) : Nat := 0x20070 + n * 0x1000
abbrev FEN_HELD (n : Nat) : Nat := 0x20074 + n * 0x1000
abbrev FEN_WD_BITES (n : Nat) : Nat := 0x20078 + n * 0x1000

/-- Addresses of the FEN registers of R252. -/
abbrev FEN_CHSTAT (n k : Nat) : Nat := 0x20100 + n * 0x1000 + k * 4

/-- Addresses of the DBR registers of R253. -/
abbrev DBR_ACTIVE (n : Nat) : Nat := 0x28040 + n * 0x1000
abbrev DBR_SEGS (n : Nat) : Nat := 0x28044 + n * 0x1000
abbrev DBR_REFUSED (n : Nat) : Nat := 0x28048 + n * 0x1000
abbrev DBR_RAW_CH (n : Nat) : Nat := 0x2804c + n * 0x1000
abbrev DBR_RAW_START (n : Nat) : Nat := 0x28050 + n * 0x1000
abbrev DBR_RAW_LEN (n : Nat) : Nat := 0x28054 + n * 0x1000
abbrev DBR_RAW_PROG_LO (n : Nat) : Nat := 0x28058 + n * 0x1000
abbrev DBR_RAW_PROG_HI (n : Nat) : Nat := 0x2805c + n * 0x1000
abbrev DBR_RAW_OUT_LO (n : Nat) : Nat := 0x28060 + n * 0x1000
abbrev DBR_RAW_OUT_HI (n : Nat) : Nat := 0x28064 + n * 0x1000
abbrev DBR_RAW_CTL (n : Nat) : Nat := 0x28068 + n * 0x1000
abbrev DBR_RAW_STAT (n : Nat) : Nat := 0x2806c + n * 0x1000

/-- Addresses of the FRM registers of R278. -/
abbrev FRM_MIG_RING_LO : Nat := 0x13100
abbrev FRM_MIG_RING_HI : Nat := 0x13104
abbrev FRM_MIG_CFG : Nat := 0x13108
abbrev FRM_MIG_WR : Nat := 0x1310c
abbrev FRM_MIG_RD : Nat := 0x13110
abbrev FRM_MIG_RATE : Nat := 0x13114
abbrev FRM_RFT_LO : Nat := 0x13118
abbrev FRM_RFT_HI : Nat := 0x1311c
abbrev FRM_RFT_CFG : Nat := 0x13120
abbrev FRM_RET_LO : Nat := 0x13124
abbrev FRM_RET_HI : Nat := 0x13128
abbrev FRM_RET_CFG : Nat := 0x1312c
abbrev FRM_RET_WR : Nat := 0x13130
abbrev FRM_RET_RD : Nat := 0x13134
abbrev FRM_RET_DROP : Nat := 0x13138
abbrev FRM_FETCH : Nat := 0x1313c

/-- Addresses of the PCI registers of R279. -/
abbrev PCI_LINK_CTL (n : Nat) : Nat := 0x30040 + n * 0x1000
abbrev PCI_LINK_STAT (n k : Nat) : Nat := 0x30044 + n * 0x1000 + k * 4
abbrev PCI_ERR_CORR (n : Nat) : Nat := 0x30054 + n * 0x1000
abbrev PCI_ERR_UNCORR (n : Nat) : Nat := 0x30058 + n * 0x1000

/-- Addresses of the PCI registers of R280. -/
abbrev T2MAP_FIRST (k : Nat) : Nat := 0x30200 + k * 32
abbrev T2MAP_COUNT (k : Nat) : Nat := 0x30204 + k * 32
abbrev T2MAP_LBA_LO (k : Nat) : Nat := 0x30208 + k * 32
abbrev T2MAP_LBA_HI (k : Nat) : Nat := 0x3020c + k * 32
abbrev T2MAP_TGT (k : Nat) : Nat := 0x30210 + k * 32

/-- Addresses of the TRW registers of R298. -/
abbrev TRW_PBLOCK_LO (n : Nat) : Nat := 0x15040 + n * 0x1000
abbrev TRW_PBLOCK_HI (n : Nat) : Nat := 0x15044 + n * 0x1000
abbrev TRW_BURSTS (n : Nat) : Nat := 0x15048 + n * 0x1000
abbrev TRW_FEEDDROP (n : Nat) : Nat := 0x1504c + n * 0x1000

/-- Addresses of the TRW registers of R299. -/
abbrev TRW_CH_HEAD_LO (n k : Nat) : Nat := 0x15100 + n * 0x1000 + k * 32
abbrev TRW_CH_HEAD_HI (n k : Nat) : Nat := 0x15104 + n * 0x1000 + k * 32
abbrev TRW_CH_CTL (n k : Nat) : Nat := 0x15108 + n * 0x1000 + k * 32
abbrev TRW_CH_STAT (n k : Nat) : Nat := 0x1510c + n * 0x1000 + k * 32
abbrev TRW_CH_CUR_LO (n k : Nat) : Nat := 0x15110 + n * 0x1000 + k * 32
abbrev TRW_CH_CUR_HI (n k : Nat) : Nat := 0x15114 + n * 0x1000 + k * 32
abbrev TRW_CH_DST_LO (n k : Nat) : Nat := 0x15118 + n * 0x1000 + k * 32
abbrev TRW_CH_DST_HI (n k : Nat) : Nat := 0x1511c + n * 0x1000 + k * 32

/-- Addresses of the RDL registers of R315. -/
abbrev RDL_XPART_LO : Nat := 0x14040
abbrev RDL_XPART_HI : Nat := 0x14044
abbrev RDL_LOOKUPS : Nat := 0x14048
abbrev RDL_HITS : Nat := 0x1404c
abbrev RDL_MISSES : Nat := 0x14050
abbrev RDL_STALE : Nat := 0x14054
abbrev RDL_SHIFT : Nat := 0x14058

/-- Addresses of the RDL registers of R316. -/
abbrev RDL_KEY0 (k : Nat) : Nat := 0x14100 + k * 64
abbrev RDL_KEY1 (k : Nat) : Nat := 0x14104 + k * 64
abbrev RDL_KEY2 (k : Nat) : Nat := 0x14108 + k * 64
abbrev RDL_HANDLE (k : Nat) : Nat := 0x1410c + k * 64
abbrev RDL_N (k : Nat) : Nat := 0x14110 + k * 64
abbrev RDL_CHECK (k : Nat) : Nat := 0x14114 + k * 64
abbrev RDL_OP (k : Nat) : Nat := 0x14118 + k * 64
abbrev RDL_RES (k : Nat) : Nat := 0x1411c + k * 64
abbrev RDL_RHANDLE (k : Nat) : Nat := 0x14120 + k * 64
abbrev RDL_RN (k : Nat) : Nat := 0x14124 + k * 64
abbrev RDL_RCHECK (k : Nat) : Nat := 0x14128 + k * 64
abbrev RDL_RINFO (k : Nat) : Nat := 0x1412c + k * 64

/-- Addresses of the RDL registers of R317. -/
abbrev RDL_RBASE (k : Nat) : Nat := 0x14400 + k * 16
abbrev RDL_RSIZE (k : Nat) : Nat := 0x14404 + k * 16
abbrev RDL_RUSED (k : Nat) : Nat := 0x14408 + k * 16
abbrev RDL_RQUOTA (k : Nat) : Nat := 0x1440c + k * 16

/-- Addresses of the TIL registers of R354. -/
abbrev TIL_IMG_LEN (n : Nat) : Nat := 0x100040 + n * 0x1000
abbrev TIL_MODE (n : Nat) : Nat := 0x100044 + n * 0x1000
abbrev TIL_CMD (n : Nat) : Nat := 0x100048 + n * 0x1000
abbrev TIL_STATE (n : Nat) : Nat := 0x10004c + n * 0x1000
abbrev TIL_PC (n : Nat) : Nat := 0x100050 + n * 0x1000
abbrev TIL_RXDROP (n : Nat) : Nat := 0x100054 + n * 0x1000
abbrev TIL_SLOTMISS (n : Nat) : Nat := 0x100058 + n * 0x1000
abbrev TIL_BOOKED (n : Nat) : Nat := 0x10005c + n * 0x1000
abbrev TIL_DIGEST (n k : Nat) : Nat := 0x100060 + n * 0x1000 + k * 4

/-- Addresses of the MSH registers of R355. -/
abbrev MSH_SVC_DIGEST (k : Nat) : Nat := 0x80040 + k * 4
abbrev MSH_CRC_ERR : Nat := 0x80070
abbrev MSH_DISCARD : Nat := 0x80074
abbrev MSH_WD_BITES : Nat := 0x80078
abbrev MSH_ISOLATED : Nat := 0x8007c

/-- Addresses of the ETH registers of R374. -/
abbrev ETH_MODE (n : Nat) : Nat := 0x40040 + n * 0x1000
abbrev ETH_PSTAT (n k : Nat) : Nat := 0x40044 + n * 0x1000 + k * 4
abbrev ETH_PUNT_LIM (n : Nat) : Nat := 0x40064 + n * 0x1000
abbrev ETH_VLAN (n k : Nat) : Nat := 0x40080 + n * 0x1000 + k * 4
abbrev ETH_PCPMAP (n : Nat) : Nat := 0x400a0 + n * 0x1000
abbrev ETH_RX_FRAMES (n : Nat) : Nat := 0x400a4 + n * 0x1000
abbrev ETH_RX_DROP (n : Nat) : Nat := 0x400a8 + n * 0x1000
abbrev ETH_FCS_ERR (n : Nat) : Nat := 0x400ac + n * 0x1000
abbrev ETH_FEC_CORR (n : Nat) : Nat := 0x400b0 + n * 0x1000
abbrev ETH_FEC_UNCORR (n : Nat) : Nat := 0x400b4 + n * 0x1000
abbrev ETH_TX_FRAMES (n : Nat) : Nat := 0x400b8 + n * 0x1000
abbrev ETH_MAC_LO (n : Nat) : Nat := 0x400c0 + n * 0x1000
abbrev ETH_MAC_HI (n : Nat) : Nat := 0x400c4 + n * 0x1000

/-- Addresses of the PTP registers of R375. -/
abbrev PTP_CFG : Nat := 0x58040
abbrev PTP_FREQ : Nat := 0x58044
abbrev PTP_SLEW : Nat := 0x58048
abbrev PTP_SLEW_RATE : Nat := 0x5804c
abbrev PTP_STEP_LO : Nat := 0x58050
abbrev PTP_STEP_HI : Nat := 0x58054
abbrev PTP_SERVO : Nat := 0x58058
abbrev PTP_LOSS_TO : Nat := 0x5805c
abbrev PTP_TIME_NS : Nat := 0x58060
abbrev PTP_TIME_SEC_LO : Nat := 0x58064
abbrev PTP_TIME_SEC_HI : Nat := 0x58068
abbrev PTP_PPS_WIN : Nat := 0x5806c
abbrev PTP_PPS_OUT : Nat := 0x58070
abbrev PTP_SYNC_NOM : Nat := 0x58074
abbrev PTP_STAT : Nat := 0x58078
abbrev PTP_PPS_OOW : Nat := 0x5807c
abbrev PTP_PPS_CHATTER : Nat := 0x58080
abbrev PTP_PPS_TS_NS : Nat := 0x58090
abbrev PTP_PPS_TS_SEC_LO : Nat := 0x58094
abbrev PTP_PPS_TS_SEC_HI : Nat := 0x58098

/-- Addresses of the MGT registers of R376. -/
abbrev MGT_CFG (n : Nat) : Nat := 0x8040 + n * 0x1000
abbrev MGT_UDP (n : Nat) : Nat := 0x8044 + n * 0x1000
abbrev MGT_MAC_LO (n : Nat) : Nat := 0x8048 + n * 0x1000
abbrev MGT_MAC_HI (n : Nat) : Nat := 0x804c + n * 0x1000
abbrev MGT_STAT (n : Nat) : Nat := 0x8050 + n * 0x1000
abbrev MGT_RX_FRAMES (n : Nat) : Nat := 0x8054 + n * 0x1000
abbrev MGT_RX_DROP (n : Nat) : Nat := 0x8058 + n * 0x1000
abbrev MGT_ADDR6 (n k : Nat) : Nat := 0x805c + n * 0x1000 + k * 4
abbrev MGT_ADDR4 (n : Nat) : Nat := 0x806c + n * 0x1000
abbrev MGT_ADDR_CFG (n : Nat) : Nat := 0x8070 + n * 0x1000

/-- Addresses of the ITP registers of R416. -/
abbrev ITP_UDP : Nat := 0x60040
abbrev ITP_CONN_CMD : Nat := 0x60044
abbrev ITP_REG_BASE_LO : Nat := 0x60048
abbrev ITP_REG_BASE_HI : Nat := 0x6004c
abbrev ITP_REG_CFG : Nat := 0x60050
abbrev ITP_REG_CMD : Nat := 0x60054
abbrev ITP_CMD_STAT : Nat := 0x60058
abbrev ITP_STAGE_BASE_LO : Nat := 0x6005c
abbrev ITP_STAGE_BASE_HI : Nat := 0x60060
abbrev ITP_STAGE_CFG : Nat := 0x60064
abbrev ITP_ACK : Nat := 0x60068
abbrev ITP_RETX : Nat := 0x6006c
abbrev ITP_MSG_TO : Nat := 0x60070
abbrev ITP_CC_PERIOD : Nat := 0x60074
abbrev ITP_CC : Nat := 0x60078
abbrev ITP_CC_MIN : Nat := 0x6007c
abbrev ITP_CC_INIT : Nat := 0x60080

/-- Addresses of the ITP registers of R419. -/
abbrev ITP_TRIG (k : Nat) : Nat := 0x63000 + k * 4

/-- Addresses of the RAK registers of R436. -/
abbrev RAK_TEL_PERIOD (n : Nat) : Nat := 0x50040 + n * 0x1000
abbrev RAK_TEL_SEL (n k : Nat) : Nat := 0x50044 + n * 0x1000 + k * 4
abbrev RAK_TEL_LOST (n : Nat) : Nat := 0x50064 + n * 0x1000
abbrev RAK_HOLD (n : Nat) : Nat := 0x50068 + n * 0x1000
abbrev RAK_BUF (n : Nat) : Nat := 0x5006c + n * 0x1000
abbrev RAK_POL_BASE_LO (n : Nat) : Nat := 0x50070 + n * 0x1000
abbrev RAK_POL_BASE_HI (n : Nat) : Nat := 0x50074 + n * 0x1000
abbrev RAK_POL_CFG (n : Nat) : Nat := 0x50078 + n * 0x1000
abbrev RAK_POL_DROP (n : Nat) : Nat := 0x5007c + n * 0x1000
abbrev RAK_CLIM (n k : Nat) : Nat := 0x50080 + n * 0x1000 + k * 4
abbrev RAK_QUANT (n k j : Nat) : Nat := 0x50100 + n * 0x1000 + k * 128 + j * 4
abbrev RAK_QDEPTH (n k j : Nat) : Nat := 0x50800 + n * 0x1000 + k * 256 + j * 4

/-- Addresses of the SLU registers of R437. -/
abbrev SLU_MODE (n : Nat) : Nat := 0x48040 + n * 0x1000
abbrev SLU_GB (n k : Nat) : Nat := 0x48044 + n * 0x1000 + k * 4
abbrev SLU_COUNT (n k : Nat) : Nat := 0x48080 + n * 0x1000 + k * 4
abbrev SLU_OPEN (n k : Nat) : Nat := 0x480a0 + n * 0x1000 + k * 4
abbrev SLU_REFUSED (n : Nat) : Nat := 0x480c0 + n * 0x1000
abbrev SLU_OVERRUN (n : Nat) : Nat := 0x480c4 + n * 0x1000
abbrev SLU_GCL (n k j : Nat) : Nat := 0x48800 + n * 0x1000 + k * 256 + j * 4

/-- Addresses of the FAB registers of R467. -/
abbrev FAB_NODE_ID : Nat := 0x70040
abbrev FAB_ADDR6 (k : Nat) : Nat := 0x70044 + k * 4
abbrev FAB_ADDR4 : Nat := 0x70054
abbrev FAB_ADDR_CFG : Nat := 0x70058
abbrev FAB_ROLE : Nat := 0x7005c
abbrev FAB_EPOCH : Nat := 0x70060
abbrev FAB_EPOCH_NEXT : Nat := 0x70064
abbrev FAB_OWN_SEL : Nat := 0x70068
abbrev FAB_OWN_A_LO : Nat := 0x7006c
abbrev FAB_OWN_A_HI : Nat := 0x70070
abbrev FAB_OWN_B_LO : Nat := 0x70074
abbrev FAB_OWN_B_HI : Nat := 0x70078
abbrev FAB_PEER_LO : Nat := 0x7007c
abbrev FAB_PEER_HI : Nat := 0x70080
abbrev FAB_HEALTH : Nat := 0x70084
abbrev FAB_HOLD : Nat := 0x70088
abbrev FAB_FWD_BASE : Nat := 0x7008c
abbrev FAB_FWD_COUNT : Nat := 0x70090
abbrev FAB_MIR_TO : Nat := 0x70094
abbrev FAB_MCMD : Nat := 0x70098
abbrev FAB_MST_LO : Nat := 0x7009c
abbrev FAB_MST_HI : Nat := 0x700a0
abbrev FAB_SNAP_LO : Nat := 0x700a4
abbrev FAB_SNAP_HI : Nat := 0x700a8
abbrev FAB_SNAP_STAT : Nat := 0x700ac
abbrev FAB_SUS_LO : Nat := 0x700b0
abbrev FAB_SUS_HI : Nat := 0x700b4
abbrev FAB_SUS_CFG : Nat := 0x700b8
abbrev FAB_SUS_WR : Nat := 0x700bc
abbrev FAB_SUS_RD : Nat := 0x700c0
abbrev FAB_SUS_DROP : Nat := 0x700c4
abbrev FAB_SUS_SUPP : Nat := 0x700c8
abbrev FAB_STALE_MAP : Nat := 0x700cc
abbrev FAB_AHEAD : Nat := 0x700d0
abbrev FAB_NOTOWN : Nat := 0x700d4
abbrev FAB_FWD : Nat := 0x700d8
abbrev FAB_SKEW : Nat := 0x700dc
abbrev FAB_PATHS : Nat := 0x700e0
abbrev FAB_NOPATH : Nat := 0x700e4

/-- Addresses of the PRT registers of R500. -/
abbrev PRT_RESET : Nat := 0x4040
abbrev PRT_RST_STAT : Nat := 0x4044
abbrev PRT_RST_KEPT : Nat := 0x4048
abbrev PRT_EXPORTED_LO : Nat := 0x404c
abbrev PRT_EXPORTED_HI : Nat := 0x4050
abbrev PRT_ACTIVE_LO : Nat := 0x4054
abbrev PRT_ACTIVE_HI : Nat := 0x4058
abbrev PRT_CRED_LO : Nat := 0x405c
abbrev PRT_CRED_HI : Nat := 0x4060
abbrev PRT_CTXR (k : Nat) : Nat := 0x4100 + k * 16
abbrev PRT_CTXN (k : Nat) : Nat := 0x4104 + k * 16
abbrev PRT_REQR (k : Nat) : Nat := 0x4108 + k * 16
abbrev PRT_REQN (k : Nat) : Nat := 0x410c + k * 16
abbrev PRT_CONN (k : Nat) : Nat := 0x4500 + k * 8
abbrev PRT_REGN (k : Nat) : Nat := 0x4504 + k * 8
abbrev PRT_JOBQ (k : Nat) : Nat := 0x4700 + k * 4

/-- Addresses of the KEY registers of R501. -/
abbrev KEY_CMD : Nat := 0x3040
abbrev KEY_CMD_STAT : Nat := 0x3044
abbrev KEY_CFG : Nat := 0x3048
abbrev KEY_JSEL : Nat := 0x304c
abbrev KEY_JINFO : Nat := 0x3050
abbrev KEY_JID : Nat := 0x3054
abbrev KEY_JFREE : Nat := 0x3058

/-- Addresses of the LCS registers of R502. -/
abbrev LCS_STATE : Nat := 0x1040
abbrev LCS_ARB : Nat := 0x1044
abbrev LCS_BOOT : Nat := 0x1048
abbrev LCS_CMD : Nat := 0x104c
abbrev LCS_CMD_STAT : Nat := 0x1050
abbrev LCS_SERIAL (k : Nat) : Nat := 0x1060 + k * 4
abbrev LCS_OWNER (k : Nat) : Nat := 0x1070 + k * 4

/-- Addresses of the ATT registers of R503. -/
abbrev ATT_CHAL (k : Nat) : Nat := 0x2040 + k * 4
abbrev ATT_CMD : Nat := 0x2060
abbrev ATT_STAT : Nat := 0x2064
abbrev ATT_BUF_LO : Nat := 0x2068
abbrev ATT_BUF_HI : Nat := 0x206c
abbrev ATT_NONCE (k : Nat) : Nat := 0x2070 + k * 4

/-- Addresses of the BST registers of R521. -/
abbrev BST_LB_CMD : Nat := 0xa040
abbrev BST_LB_STAT : Nat := 0xa044
abbrev BST_LB_PATTERNS : Nat := 0xa048
abbrev BST_LB_SEED : Nat := 0xa04c
abbrev BST_LB_GOLDEN (k : Nat) : Nat := 0xa050 + k * 4
abbrev BST_LB_MISR (k : Nat) : Nat := 0xa060 + k * 4
abbrev BST_LB_EBUDGET : Nat := 0xa070
abbrev BST_LB_CYCLES : Nat := 0xa074
abbrev BST_LB_COUNT : Nat := 0xa078
abbrev BST_QUAR (k : Nat) : Nat := 0xa080 + k * 4
abbrev BST_MB_CMD : Nat := 0xa100
abbrev BST_MB_STAT : Nat := 0xa104
abbrev BST_MB_LOG_LO : Nat := 0xa108
abbrev BST_MB_LOG_HI : Nat := 0xa10c
abbrev BST_MB_LOG_CFG : Nat := 0xa110
abbrev BST_MB_LOG_WR : Nat := 0xa114
abbrev BST_MB_LOG_RD : Nat := 0xa118
abbrev BST_PATROL : Nat := 0xa180
abbrev BST_PATROL_POS : Nat := 0xa184
abbrev BST_PEAT_CORR : Nat := 0xa1c0
abbrev BST_PEAT_UNCORR : Nat := 0xa1c4
abbrev BST_CROWN_CORR : Nat := 0xa1c8
abbrev BST_CROWN_UNCORR : Nat := 0xa1cc
abbrev BST_INT_CORR : Nat := 0xa1d0
abbrev BST_INT_UNCORR : Nat := 0xa1d4
abbrev BST_POISON_CNT : Nat := 0xa200
abbrev BST_POISON_ADD : Nat := 0xa204
abbrev BST_POISON_DEL : Nat := 0xa208
abbrev BST_POISON_IDX : Nat := 0xa20c
abbrev BST_POISON_VAL : Nat := 0xa210

/-- Addresses of the SYS registers of R541. -/
abbrev SYS_ID : Nat := 0x40
abbrev SYS_RESET : Nat := 0x44
abbrev SYS_RESET_CAUSE : Nat := 0x48
abbrev SYS_BOOT : Nat := 0x4c
abbrev SYS_STEPT (k : Nat) : Nat := 0x50 + k * 4
abbrev SYS_UPTIME_LO : Nat := 0x70
abbrev SYS_UPTIME_HI : Nat := 0x74
abbrev SYS_SCRATCH : Nat := 0x78
abbrev SYS_WDOG : Nat := 0x7c
abbrev SYS_WDOG_KICK : Nat := 0x80

/-- Addresses of the CLK registers of R542. -/
abbrev CLK_STAT : Nat := 0x6040
abbrev CLK_LOSS : Nat := 0x6044
abbrev CLK_SYS_KHZ : Nat := 0x6048

/-- Addresses of the UAR registers of R543. -/
abbrev UAR_DIV : Nat := 0x7040
abbrev UAR_CFG : Nat := 0x7044
abbrev UAR_STAT : Nat := 0x7048
abbrev UAR_ERR : Nat := 0x704c
abbrev UAR_WRITES : Nat := 0x7050

/-- Addresses of the PWR registers of R564. -/
abbrev PWR_TEMP : Nat := 0x5040
abbrev PWR_TSOFT : Nat := 0x5044
abbrev PWR_MAX_UJ : Nat := 0x5048
abbrev PWR_MIN_UJ : Nat := 0x504c
abbrev PWR_TALLOW : Nat := 0x5050
abbrev PWR_AVS_CFG : Nat := 0x5054
abbrev PWR_VCORE : Nat := 0x5058
abbrev PWR_VOFF : Nat := 0x505c
abbrev PWR_FAULTN : Nat := 0x5060
abbrev PWR_FAULTN_CNT : Nat := 0x5064
abbrev PWR_IOUT : Nat := 0x5068
abbrev PWR_IPEAK : Nat := 0x506c
abbrev PWR_RAILS : Nat := 0x5070
abbrev PWR_TSENS (k : Nat) : Nat := 0x5080 + k * 4

/-- Addresses of the SYS registers of R24. -/
abbrev SYS_VIEWA_SEL : Nat := 0x100
abbrev SYS_VIEWB_SEL : Nat := 0x104
abbrev SYS_VIEWC_SEL : Nat := 0x108

/-- Addresses of the SYS registers of R53. -/
abbrev SYS_RING_BASE_LO : Nat := 0x200
abbrev SYS_RING_BASE_HI : Nat := 0x204
abbrev SYS_RING_CFG : Nat := 0x208
abbrev SYS_RING_WR : Nat := 0x20c
abbrev SYS_RING_RD : Nat := 0x210
abbrev SYS_RING_DROP : Nat := 0x214
abbrev PRT_RING_BASE_LO (k : Nat) : Nat := 0x4800 + k * 32
abbrev PRT_RING_BASE_HI (k : Nat) : Nat := 0x4804 + k * 32
abbrev PRT_RING_CFG (k : Nat) : Nat := 0x4808 + k * 32
abbrev PRT_RING_WR (k : Nat) : Nat := 0x480c + k * 32
abbrev PRT_RING_RD (k : Nat) : Nat := 0x4810 + k * 32
abbrev PRT_RING_DROP (k : Nat) : Nat := 0x4814 + k * 32

/-- Addresses of the ETH registers of R362. -/
abbrev ETH_RXR_BASE_LO : Nat := 0x40100
abbrev ETH_RXR_BASE_HI : Nat := 0x40104
abbrev ETH_RXR_CFG : Nat := 0x40108
abbrev ETH_RXR_WR : Nat := 0x4010c
abbrev ETH_RXR_RD : Nat := 0x40110
abbrev ETH_RXR_DROP : Nat := 0x40114
abbrev ETH_TXR_BASE_LO : Nat := 0x40120
abbrev ETH_TXR_BASE_HI : Nat := 0x40124
abbrev ETH_TXR_CFG : Nat := 0x40128
abbrev ETH_TXR_WR : Nat := 0x4012c
abbrev ETH_TXR_RD : Nat := 0x40130
abbrev ETH_TXR_DROP : Nat := 0x40134
abbrev MGT_RXR_BASE_LO (n : Nat) : Nat := 0x8100 + n * 0x1000
abbrev MGT_RXR_BASE_HI (n : Nat) : Nat := 0x8104 + n * 0x1000
abbrev MGT_RXR_CFG (n : Nat) : Nat := 0x8108 + n * 0x1000
abbrev MGT_RXR_WR (n : Nat) : Nat := 0x810c + n * 0x1000
abbrev MGT_RXR_RD (n : Nat) : Nat := 0x8110 + n * 0x1000
abbrev MGT_RXR_DROP (n : Nat) : Nat := 0x8114 + n * 0x1000
abbrev MGT_TXR_BASE_LO (n : Nat) : Nat := 0x8120 + n * 0x1000
abbrev MGT_TXR_BASE_HI (n : Nat) : Nat := 0x8124 + n * 0x1000
abbrev MGT_TXR_CFG (n : Nat) : Nat := 0x8128 + n * 0x1000
abbrev MGT_TXR_WR (n : Nat) : Nat := 0x812c + n * 0x1000
abbrev MGT_TXR_RD (n : Nat) : Nat := 0x8130 + n * 0x1000
abbrev MGT_TXR_DROP (n : Nat) : Nat := 0x8134 + n * 0x1000

/-- Addresses of the ITP registers of R418. -/
abbrev ITP_WQ_BASE_LO (k : Nat) : Nat := 0x61000 + k * 32
abbrev ITP_WQ_BASE_HI (k : Nat) : Nat := 0x61004 + k * 32
abbrev ITP_WQ_CFG (k : Nat) : Nat := 0x61008 + k * 32
abbrev ITP_WQ_WR (k : Nat) : Nat := 0x6100c + k * 32
abbrev ITP_WQ_RD (k : Nat) : Nat := 0x61010 + k * 32
abbrev ITP_RQ_BASE_LO (k : Nat) : Nat := 0x62000 + k * 32
abbrev ITP_RQ_BASE_HI (k : Nat) : Nat := 0x62004 + k * 32
abbrev ITP_RQ_CFG (k : Nat) : Nat := 0x62008 + k * 32
abbrev ITP_RQ_WR (k : Nat) : Nat := 0x6200c + k * 32
abbrev ITP_RQ_RD (k : Nat) : Nat := 0x62010 + k * 32
abbrev ITP_CQ_BASE_LO : Nat := 0x62800
abbrev ITP_CQ_BASE_HI : Nat := 0x62804
abbrev ITP_CQ_CFG : Nat := 0x62808
abbrev ITP_CQ_WR : Nat := 0x6280c
abbrev ITP_CQ_RD : Nat := 0x62810

/-- Addresses of the PCI registers of R281. -/
abbrev PCI_APER (k : Nat) : Nat := 0x30400 + k * 4

/-- Addresses of the ITP registers of R417. -/
abbrev ITP_RX_PKTS : Nat := 0x60100
abbrev ITP_TX_PKTS : Nat := 0x60104
abbrev ITP_DROP_HDR : Nat := 0x60108
abbrev ITP_DROP_CONN : Nat := 0x6010c
abbrev ITP_DROP_AUTH : Nat := 0x60110
abbrev ITP_REPLAY : Nat := 0x60114
abbrev ITP_KEY_EPOCH : Nat := 0x60118
abbrev ITP_WINDOW : Nat := 0x6011c
abbrev ITP_SIZE : Nat := 0x60120
abbrev ITP_CRC : Nat := 0x60124
abbrev ITP_STALE : Nat := 0x60128
abbrev ITP_RETX_PKTS : Nat := 0x6012c
abbrev ITP_STAGE_FULL : Nat := 0x60130
abbrev ITP_CE : Nat := 0x60134
abbrev ITP_TRIG_IGN : Nat := 0x60138
abbrev ITP_CQ_DROP : Nat := 0x6013c

end Reg

/-- Register rows of SYS (R24, R53, R541). -/
def rowsSys : List RegRow := [
  ⟨0x40, 4, 1, 4, 1, [⟨15, 0, .ro, 29248⟩, ⟨23, 16, .ro, 176⟩, ⟨27, 24, .ro, 8⟩]⟩,
  ⟨0x44, 4, 1, 4, 1, [⟨31, 0, .wo, 0⟩]⟩,
  ⟨0x48, 4, 1, 4, 1, [⟨4, 0, .ro, 0⟩]⟩,
  ⟨0x4c, 4, 1, 4, 1, [⟨3, 0, .rw, 0⟩, ⟨15, 8, .rw, 0⟩, ⟨31, 31, .rw, 0⟩]⟩,
  ⟨0x50, 4, 8, 4, 1, [⟨31, 0, .ro, 0⟩]⟩,
  ⟨0x70, 4, 1, 4, 1, [⟨31, 0, .ro, 0⟩]⟩,
  ⟨0x74, 4, 1, 4, 1, [⟨31, 0, .ro, 0⟩]⟩,
  ⟨0x78, 4, 1, 4, 1, [⟨31, 0, .rw, 0⟩]⟩,
  ⟨0x7c, 4, 1, 4, 1, [⟨23, 0, .rwl, 10000⟩, ⟨31, 31, .rwl, 0⟩]⟩,
  ⟨0x80, 4, 1, 4, 1, [⟨31, 0, .wo, 0⟩]⟩,
  ⟨0x100, 4, 1, 4, 1, [⟨7, 0, .rw, 0⟩, ⟨19, 8, .rw, 0⟩]⟩,
  ⟨0x104, 4, 1, 4, 1, [⟨7, 0, .rw, 0⟩, ⟨19, 8, .rw, 0⟩]⟩,
  ⟨0x108, 4, 1, 4, 1, [⟨7, 0, .rw, 0⟩, ⟨19, 8, .rw, 0⟩]⟩,
  ⟨0x200, 4, 1, 4, 1, [⟨31, 0, .rwl, 0⟩]⟩,
  ⟨0x204, 4, 1, 4, 1, [⟨31, 0, .rwl, 0⟩]⟩,
  ⟨0x208, 4, 1, 4, 1, [⟨4, 0, .rwl, 6⟩, ⟨8, 8, .rwl, 0⟩]⟩,
  ⟨0x20c, 4, 1, 4, 1, [⟨31, 0, .ro, 0⟩]⟩,
  ⟨0x210, 4, 1, 4, 1, [⟨31, 0, .rw, 0⟩]⟩,
  ⟨0x214, 4, 1, 4, 1, [⟨31, 0, .rc, 0⟩]⟩]

/-- Register rows of LCS (R502). -/
def rowsLcs : List RegRow := [
  ⟨0x40, 4, 1, 4, 1, [⟨2, 0, .ro, 0⟩, ⟨10, 8, .ro, 0⟩]⟩,
  ⟨0x44, 4, 1, 4, 1, [⟨6, 0, .ro, 0⟩, ⟨14, 8, .ro, 0⟩, ⟨22, 16, .ro, 0⟩]⟩,
  ⟨0x48, 4, 1, 4, 1, [⟨0, 0, .ro, 0⟩, ⟨1, 1, .ro, 0⟩, ⟨2, 2, .rw, 0⟩]⟩,
  ⟨0x4c, 4, 1, 4, 1, [⟨3, 0, .wo, 0⟩]⟩,
  ⟨0x50, 4, 1, 4, 1, [⟨7, 0, .ro, 0⟩]⟩,
  ⟨0x60, 4, 4, 4, 1, [⟨31, 0, .ro, 0⟩]⟩,
  ⟨0x70, 4, 12, 4, 1, [⟨31, 0, .ro, 0⟩]⟩]

/-- Register rows of ATT (R503). -/
def rowsAtt : List RegRow := [
  ⟨0x40, 4, 8, 4, 1, [⟨31, 0, .ro, 0⟩]⟩,
  ⟨0x60, 4, 1, 4, 1, [⟨1, 0, .wo, 0⟩]⟩,
  ⟨0x64, 4, 1, 4, 1, [⟨7, 0, .ro, 0⟩, ⟨8, 8, .ro, 0⟩]⟩,
  ⟨0x68, 4, 1, 4, 1, [⟨31, 0, .rw, 0⟩]⟩,
  ⟨0x6c, 4, 1, 4, 1, [⟨31, 0, .rw, 0⟩]⟩,
  ⟨0x70, 4, 8, 4, 1, [⟨31, 0, .rw, 0⟩]⟩]

/-- Register rows of KEY (R501). -/
def rowsKey : List RegRow := [
  ⟨0x40, 4, 1, 4, 1, [⟨11, 0, .wo, 0⟩, ⟨19, 16, .wo, 0⟩]⟩,
  ⟨0x44, 4, 1, 4, 1, [⟨7, 0, .ro, 0⟩, ⟨8, 8, .ro, 0⟩]⟩,
  ⟨0x48, 4, 1, 4, 1, [⟨0, 0, .rw, 1⟩]⟩,
  ⟨0x4c, 4, 1, 4, 1, [⟨9, 0, .rw, 0⟩]⟩,
  ⟨0x50, 4, 1, 4, 1, [⟨5, 0, .ro, 0⟩, ⟨8, 8, .ro, 0⟩]⟩,
  ⟨0x54, 4, 1, 4, 1, [⟨31, 0, .ro, 0⟩]⟩,
  ⟨0x58, 4, 1, 4, 1, [⟨10, 0, .ro, 1024⟩]⟩]

/-- Register rows of PRT (R53, R500). -/
def rowsPrt : List RegRow := [
  ⟨0x40, 4, 1, 4, 1, [⟨5, 0, .wo, 0⟩, ⟨9, 8, .wo, 0⟩]⟩,
  ⟨0x44, 4, 1, 4, 1, [⟨7, 0, .ro, 0⟩, ⟨13, 8, .ro, 0⟩]⟩,
  ⟨0x48, 4, 1, 4, 1, [⟨24, 0, .ro, 0⟩]⟩,
  ⟨0x4c, 4, 1, 4, 1, [⟨31, 0, .ro, 0⟩]⟩,
  ⟨0x50, 4, 1, 4, 1, [⟨31, 0, .ro, 0⟩]⟩,
  ⟨0x54, 4, 1, 4, 1, [⟨31, 0, .ro, 0⟩]⟩,
  ⟨0x58, 4, 1, 4, 1, [⟨31, 0, .ro, 0⟩]⟩,
  ⟨0x5c, 4, 1, 4, 1, [⟨31, 0, .rwl, 0⟩]⟩,
  ⟨0x60, 4, 1, 4, 1, [⟨31, 0, .rwl, 0⟩]⟩,
  ⟨0x100, 16, 64, 4, 1, [⟨17, 0, .rwt, 0⟩, ⟨30, 28, .ro, 0⟩]⟩,
  ⟨0x104, 16, 64, 4, 1, [⟨18, 0, .rwt, 0⟩]⟩,
  ⟨0x108, 16, 64, 4, 1, [⟨19, 0, .rwt, 0⟩]⟩,
  ⟨0x10c, 16, 64, 4, 1, [⟨20, 0, .rwt, 0⟩]⟩,
  ⟨0x500, 8, 64, 4, 1, [⟨11, 0, .rwt, 0⟩, ⟨24, 12, .rwt, 0⟩]⟩,
  ⟨0x504, 8, 64, 4, 1, [⟨11, 0, .rwt, 0⟩, ⟨24, 12, .rwt, 0⟩]⟩,
  ⟨0x700, 4, 64, 4, 1, [⟨10, 0, .rwt, 0⟩, ⟨26, 16, .ro, 0⟩]⟩,
  ⟨0x800, 32, 64, 4, 1, [⟨31, 0, .rwl, 0⟩]⟩,
  ⟨0x804, 32, 64, 4, 1, [⟨31, 0, .rwl, 0⟩]⟩,
  ⟨0x808, 32, 64, 4, 1, [⟨4, 0, .rwl, 6⟩, ⟨8, 8, .rwl, 0⟩, ⟨9, 9, .rwl, 1⟩]⟩,
  ⟨0x80c, 32, 64, 4, 1, [⟨31, 0, .ro, 0⟩]⟩,
  ⟨0x810, 32, 64, 4, 1, [⟨31, 0, .rw, 0⟩]⟩,
  ⟨0x814, 32, 64, 4, 1, [⟨31, 0, .rc, 0⟩]⟩]

/-- Register rows of PWR (R564). -/
def rowsPwr : List RegRow := [
  ⟨0x40, 4, 1, 4, 1, [⟨11, 0, .ro, 0⟩, ⟨20, 16, .ro, 0⟩]⟩,
  ⟨0x44, 4, 1, 4, 1, [⟨11, 0, .rwl, 760⟩]⟩,
  ⟨0x48, 4, 1, 4, 1, [⟨31, 0, .rwl, 176000⟩]⟩,
  ⟨0x4c, 4, 1, 4, 1, [⟨31, 0, .rwl, 17600⟩]⟩,
  ⟨0x50, 4, 1, 4, 1, [⟨31, 0, .ro, 176000⟩]⟩,
  ⟨0x54, 4, 1, 4, 1, [⟨6, 0, .rwl, 64⟩, ⟨8, 8, .rwl, 0⟩]⟩,
  ⟨0x58, 4, 1, 4, 1, [⟨9, 0, .ro, 750⟩, ⟨25, 16, .ro, 750⟩]⟩,
  ⟨0x5c, 4, 1, 4, 1, [⟨7, 0, .rwl, 0⟩]⟩,
  ⟨0x60, 4, 1, 4, 1, [⟨0, 0, .ro, 1⟩, ⟨1, 1, .ro, 0⟩, ⟨2, 2, .ro, 0⟩, ⟨8, 8, .rwl, 1⟩, ⟨9, 9, .rwl, 0⟩, ⟨16, 16, .wo, 0⟩]⟩,
  ⟨0x64, 4, 1, 4, 1, [⟨31, 0, .rc, 0⟩]⟩,
  ⟨0x68, 4, 1, 4, 1, [⟨15, 0, .ro, 0⟩]⟩,
  ⟨0x6c, 4, 1, 4, 1, [⟨15, 0, .rwl, 13500⟩]⟩,
  ⟨0x70, 4, 1, 4, 1, [⟨20, 0, .ro, 0⟩]⟩,
  ⟨0x80, 4, 28, 4, 1, [⟨11, 0, .ro, 0⟩, ⟨31, 31, .ro, 0⟩]⟩]

/-- Register rows of CLK (R542). -/
def rowsClk : List RegRow := [
  ⟨0x40, 4, 1, 4, 1, [⟨0, 0, .ro, 0⟩, ⟨1, 1, .ro, 0⟩, ⟨2, 2, .ro, 0⟩, ⟨8, 8, .ro, 0⟩, ⟨9, 9, .ro, 0⟩, ⟨10, 10, .ro, 0⟩, ⟨11, 11, .ro, 0⟩]⟩,
  ⟨0x44, 4, 1, 4, 1, [⟨31, 0, .rc, 0⟩]⟩,
  ⟨0x48, 4, 1, 4, 1, [⟨19, 0, .ro, 0⟩]⟩]

/-- Register rows of UAR (R543). -/
def rowsUar : List RegRow := [
  ⟨0x40, 4, 1, 4, 1, [⟨15, 0, .rwl, 13889⟩]⟩,
  ⟨0x44, 4, 1, 4, 1, [⟨0, 0, .rwl, 0⟩, ⟨1, 1, .rwl, 0⟩, ⟨2, 2, .rwl, 0⟩, ⟨8, 8, .rwl, 1⟩]⟩,
  ⟨0x48, 4, 1, 4, 1, [⟨0, 0, .ro, 0⟩, ⟨1, 1, .ro, 0⟩]⟩,
  ⟨0x4c, 4, 1, 4, 1, [⟨31, 0, .rc, 0⟩]⟩,
  ⟨0x50, 4, 1, 4, 1, [⟨31, 0, .rc, 0⟩]⟩]

/-- Register rows of MGT (R362, R376). -/
def rowsMgt : List RegRow := [
  ⟨0x40, 4, 1, 4, 1, [⟨0, 0, .rwl, 0⟩]⟩,
  ⟨0x44, 4, 1, 4, 1, [⟨15, 0, .rwl, 46129⟩]⟩,
  ⟨0x48, 4, 1, 4, 1, [⟨31, 0, .rwl, 0⟩]⟩,
  ⟨0x4c, 4, 1, 4, 1, [⟨15, 0, .rwl, 0⟩]⟩,
  ⟨0x50, 4, 1, 4, 1, [⟨0, 0, .ro, 0⟩]⟩,
  ⟨0x54, 4, 1, 4, 1, [⟨31, 0, .rc, 0⟩]⟩,
  ⟨0x58, 4, 1, 4, 1, [⟨31, 0, .rc, 0⟩]⟩,
  ⟨0x5c, 4, 4, 4, 1, [⟨31, 0, .rwl, 0⟩]⟩,
  ⟨0x6c, 4, 1, 4, 1, [⟨31, 0, .rwl, 0⟩]⟩,
  ⟨0x70, 4, 1, 4, 1, [⟨0, 0, .rwl, 0⟩]⟩,
  ⟨0x100, 4, 1, 4, 1, [⟨31, 0, .rwl, 0⟩]⟩,
  ⟨0x104, 4, 1, 4, 1, [⟨31, 0, .rwl, 0⟩]⟩,
  ⟨0x108, 4, 1, 4, 1, [⟨3, 0, .rwl, 4⟩, ⟨8, 8, .rwl, 0⟩]⟩,
  ⟨0x10c, 4, 1, 4, 1, [⟨31, 0, .ro, 0⟩]⟩,
  ⟨0x110, 4, 1, 4, 1, [⟨31, 0, .rw, 0⟩]⟩,
  ⟨0x114, 4, 1, 4, 1, [⟨31, 0, .rc, 0⟩]⟩,
  ⟨0x120, 4, 1, 4, 1, [⟨31, 0, .rwl, 0⟩]⟩,
  ⟨0x124, 4, 1, 4, 1, [⟨31, 0, .rwl, 0⟩]⟩,
  ⟨0x128, 4, 1, 4, 1, [⟨3, 0, .rwl, 4⟩, ⟨8, 8, .rwl, 0⟩]⟩,
  ⟨0x12c, 4, 1, 4, 1, [⟨31, 0, .rw, 0⟩]⟩,
  ⟨0x130, 4, 1, 4, 1, [⟨31, 0, .ro, 0⟩]⟩,
  ⟨0x134, 4, 1, 4, 1, [⟨31, 0, .rc, 0⟩]⟩]

/-- Register rows of BST (R521), part 1. -/
def rowsBst0 : List RegRow := [
  ⟨0x40, 4, 1, 4, 1, [⟨6, 0, .wo, 0⟩, ⟨8, 8, .wo, 0⟩, ⟨9, 9, .wo, 0⟩]⟩,
  ⟨0x44, 4, 1, 4, 1, [⟨7, 0, .ro, 0⟩, ⟨14, 8, .ro, 0⟩, ⟨16, 16, .ro, 0⟩, ⟨17, 17, .ro, 0⟩]⟩,
  ⟨0x48, 4, 1, 4, 1, [⟨15, 0, .rw, 1024⟩]⟩,
  ⟨0x4c, 4, 1, 4, 1, [⟨31, 0, .rw, 1013904242⟩]⟩,
  ⟨0x50, 4, 4, 4, 1, [⟨31, 0, .rw, 0⟩]⟩,
  ⟨0x60, 4, 4, 4, 1, [⟨31, 0, .ro, 0⟩]⟩,
  ⟨0x70, 4, 1, 4, 1, [⟨31, 0, .rwl, 3000⟩]⟩,
  ⟨0x74, 4, 1, 4, 1, [⟨23, 0, .ro, 0⟩]⟩,
  ⟨0x78, 4, 1, 4, 1, [⟨31, 0, .rc, 0⟩]⟩,
  ⟨0x80, 4, 4, 4, 1, [⟨31, 0, .w1c, 0⟩]⟩,
  ⟨0x100, 4, 1, 4, 1, [⟨3, 0, .wo, 0⟩, ⟨11, 8, .wo, 0⟩]⟩,
  ⟨0x104, 4, 1, 4, 1, [⟨7, 0, .ro, 0⟩, ⟨8, 8, .ro, 0⟩, ⟨31, 16, .ro, 0⟩]⟩,
  ⟨0x108, 4, 1, 4, 1, [⟨31, 0, .rwl, 0⟩]⟩,
  ⟨0x10c, 4, 1, 4, 1, [⟨31, 0, .rwl, 0⟩]⟩,
  ⟨0x110, 4, 1, 4, 1, [⟨3, 0, .rwl, 4⟩, ⟨8, 8, .rwl, 0⟩]⟩,
  ⟨0x114, 4, 1, 4, 1, [⟨31, 0, .ro, 0⟩]⟩,
  ⟨0x118, 4, 1, 4, 1, [⟨31, 0, .rw, 0⟩]⟩,
  ⟨0x180, 4, 1, 4, 1, [⟨15, 0, .rwt, 2048⟩, ⟨16, 16, .rwt, 1⟩]⟩,
  ⟨0x184, 4, 1, 4, 1, [⟨22, 0, .ro, 0⟩]⟩,
  ⟨0x1c0, 4, 1, 4, 1, [⟨31, 0, .rc, 0⟩]⟩,
  ⟨0x1c4, 4, 1, 4, 1, [⟨31, 0, .rc, 0⟩]⟩,
  ⟨0x1c8, 4, 1, 4, 1, [⟨31, 0, .rc, 0⟩]⟩,
  ⟨0x1cc, 4, 1, 4, 1, [⟨31, 0, .rc, 0⟩]⟩,
  ⟨0x1d0, 4, 1, 4, 1, [⟨31, 0, .rc, 0⟩]⟩]

/-- Register rows of BST (R521), part 2. -/
def rowsBst1 : List RegRow := [
  ⟨0x1d4, 4, 1, 4, 1, [⟨31, 0, .rc, 0⟩]⟩,
  ⟨0x200, 4, 1, 4, 1, [⟨10, 0, .ro, 0⟩, ⟨31, 31, .w1c, 0⟩]⟩,
  ⟨0x204, 4, 1, 4, 1, [⟨31, 0, .wo, 0⟩]⟩,
  ⟨0x208, 4, 1, 4, 1, [⟨31, 0, .wo, 0⟩]⟩,
  ⟨0x20c, 4, 1, 4, 1, [⟨9, 0, .rw, 0⟩]⟩,
  ⟨0x210, 4, 1, 4, 1, [⟨31, 0, .ro, 4294967295⟩]⟩]

/-- Register rows of BST. -/
def rowsBst : List RegRow := rowsBst0 ++ rowsBst1

/-- Register rows of TPL (R88, R89, R90, R91, R92, R216). -/
def rowsTpl : List RegRow := [
  ⟨0x40, 4, 1, 4, 1, [⟨20, 0, .rwl, 40000⟩]⟩,
  ⟨0x44, 4, 1, 4, 1, [⟨23, 0, .rwt, 16000⟩]⟩,
  ⟨0x48, 4, 1, 4, 1, [⟨7, 0, .rwt, 16⟩]⟩,
  ⟨0x4c, 4, 1, 4, 1, [⟨7, 0, .rwt, 16⟩]⟩,
  ⟨0x50, 4, 1, 4, 1, [⟨7, 0, .rwt, 8⟩]⟩,
  ⟨0x54, 4, 1, 4, 1, [⟨31, 0, .rwt, 176000⟩]⟩,
  ⟨0x58, 4, 1, 4, 1, [⟨3, 0, .rwt, 8⟩]⟩,
  ⟨0x5c, 4, 1, 4, 1, [⟨6, 0, .rwt, 0⟩, ⟨8, 8, .rwt, 0⟩]⟩,
  ⟨0x60, 4, 1, 4, 1, [⟨31, 0, .ro, 0⟩]⟩,
  ⟨0x64, 4, 1, 4, 1, [⟨15, 0, .ro, 0⟩]⟩,
  ⟨0x68, 4, 1, 4, 1, [⟨20, 0, .ro, 0⟩]⟩,
  ⟨0x6c, 4, 1, 4, 1, [⟨20, 0, .ro, 0⟩]⟩,
  ⟨0x70, 4, 1, 4, 1, [⟨31, 0, .ro, 0⟩]⟩,
  ⟨0x74, 4, 1, 4, 1, [⟨0, 0, .rwt, 1⟩, ⟨1, 1, .rwt, 1⟩]⟩,
  ⟨0x78, 4, 1, 4, 1, [⟨11, 0, .rwt, 1024⟩]⟩,
  ⟨0x7c, 4, 1, 4, 1, [⟨31, 0, .rwt, 0⟩]⟩,
  ⟨0x80, 4, 1, 4, 1, [⟨31, 0, .rwt, 0⟩]⟩,
  ⟨0x84, 4, 4, 4, 1, [⟨31, 0, .rwt, 4294967295⟩]⟩,
  ⟨0x94, 4, 1, 4, 1, [⟨14, 0, .ro, 0⟩, ⟨15, 15, .ro, 0⟩]⟩,
  ⟨0x400, 16, 64, 4, 1, [⟨23, 0, .rwt, 0⟩]⟩,
  ⟨0x404, 16, 64, 4, 1, [⟨23, 0, .rwt, 0⟩]⟩,
  ⟨0x408, 16, 64, 4, 1, [⟨23, 0, .ro, 0⟩]⟩,
  ⟨0x40c, 16, 64, 4, 1, [⟨20, 0, .ro, 0⟩]⟩]

/-- Register rows of CTX (R133). -/
def rowsCtx : List RegRow := [
  ⟨0x40, 4, 1, 4, 1, [⟨31, 0, .ro, 4177526784⟩]⟩,
  ⟨0x44, 4, 1, 4, 1, [⟨31, 0, .ro, 1⟩]⟩,
  ⟨0x48, 4, 1, 4, 1, [⟨31, 0, .ro, 4194304000⟩]⟩,
  ⟨0x4c, 4, 1, 4, 1, [⟨31, 0, .ro, 1⟩]⟩,
  ⟨0x50, 4, 1, 4, 1, [⟨18, 0, .ro, 0⟩]⟩,
  ⟨0x54, 4, 1, 4, 1, [⟨20, 0, .ro, 0⟩]⟩,
  ⟨0x58, 4, 1, 4, 1, [⟨31, 0, .ro, 0⟩]⟩,
  ⟨0x5c, 4, 1, 4, 1, [⟨31, 0, .rc, 0⟩]⟩,
  ⟨0x60, 4, 1, 4, 1, [⟨17, 0, .rwt, 0⟩, ⟨25, 18, .rwt, 0⟩, ⟨27, 26, .rwt, 0⟩]⟩]

/-- Register rows of PWK (R134). -/
def rowsPwk : List RegRow := [
  ⟨0x40, 4, 1, 4, 1, [⟨17, 0, .wo, 0⟩, ⟨31, 31, .wo, 0⟩]⟩,
  ⟨0x44, 4, 1, 4, 1, [⟨31, 0, .rc, 0⟩]⟩,
  ⟨0x48, 4, 1, 4, 1, [⟨31, 0, .rc, 0⟩]⟩,
  ⟨0x4c, 4, 1, 4, 1, [⟨31, 0, .rc, 0⟩]⟩]

/-- Register rows of FRM (R135, R138, R278), part 1. -/
def rowsFrm0 : List RegRow := [
  ⟨0x40, 4, 1, 4, 1, [⟨16, 0, .ro, 63744⟩]⟩,
  ⟨0x44, 4, 1, 4, 1, [⟨24, 0, .ro, 16777216⟩]⟩,
  ⟨0x48, 4, 1, 4, 1, [⟨5, 0, .rwt, 0⟩, ⟨6, 6, .rwt, 0⟩, ⟨7, 7, .rwt, 0⟩, ⟨31, 8, .rwt, 0⟩]⟩,
  ⟨0x4c, 4, 1, 4, 1, [⟨23, 0, .ro, 0⟩, ⟨31, 24, .ro, 0⟩]⟩,
  ⟨0x50, 4, 1, 4, 1, [⟨24, 0, .ro, 0⟩]⟩,
  ⟨0x54, 4, 1, 4, 1, [⟨31, 0, .ro, 0⟩]⟩,
  ⟨0x58, 4, 1, 4, 1, [⟨24, 0, .ro, 0⟩]⟩,
  ⟨0x5c, 4, 1, 4, 1, [⟨24, 0, .rwt, 0⟩, ⟨30, 30, .rwt, 0⟩, ⟨31, 31, .rwt, 0⟩]⟩,
  ⟨0x60, 4, 1, 4, 1, [⟨7, 0, .ro, 0⟩]⟩,
  ⟨0x64, 4, 1, 4, 1, [⟨24, 0, .ro, 0⟩]⟩,
  ⟨0x100, 4, 1, 4, 1, [⟨31, 0, .rwl, 0⟩]⟩,
  ⟨0x104, 4, 1, 4, 1, [⟨31, 0, .rwl, 0⟩]⟩,
  ⟨0x108, 4, 1, 4, 1, [⟨3, 0, .rwl, 4⟩, ⟨8, 8, .rwl, 0⟩]⟩,
  ⟨0x10c, 4, 1, 4, 1, [⟨31, 0, .rw, 0⟩]⟩,
  ⟨0x110, 4, 1, 4, 1, [⟨31, 0, .ro, 0⟩]⟩,
  ⟨0x114, 4, 1, 4, 1, [⟨15, 0, .rwt, 1024⟩]⟩,
  ⟨0x118, 4, 1, 4, 1, [⟨31, 0, .rwl, 0⟩]⟩,
  ⟨0x11c, 4, 1, 4, 1, [⟨31, 0, .rwl, 0⟩]⟩,
  ⟨0x120, 4, 1, 4, 1, [⟨20, 0, .rwl, 0⟩]⟩,
  ⟨0x124, 4, 1, 4, 1, [⟨31, 0, .rwl, 0⟩]⟩,
  ⟨0x128, 4, 1, 4, 1, [⟨31, 0, .rwl, 0⟩]⟩,
  ⟨0x12c, 4, 1, 4, 1, [⟨4, 0, .rwl, 8⟩, ⟨8, 8, .rwl, 0⟩]⟩,
  ⟨0x130, 4, 1, 4, 1, [⟨31, 0, .ro, 0⟩]⟩,
  ⟨0x134, 4, 1, 4, 1, [⟨31, 0, .rw, 0⟩]⟩]

/-- Register rows of FRM (R135, R138, R278), part 2. -/
def rowsFrm1 : List RegRow := [
  ⟨0x138, 4, 1, 4, 1, [⟨31, 0, .rc, 0⟩]⟩,
  ⟨0x13c, 4, 1, 4, 1, [⟨12, 0, .ro, 0⟩]⟩,
  ⟨0x400, 32, 64, 4, 1, [⟨24, 0, .rwt, 0⟩]⟩,
  ⟨0x404, 32, 64, 4, 1, [⟨24, 0, .rwt, 0⟩]⟩,
  ⟨0x408, 32, 64, 4, 1, [⟨24, 0, .ro, 0⟩]⟩,
  ⟨0x40c, 32, 64, 4, 1, [⟨16, 0, .ro, 0⟩]⟩,
  ⟨0x410, 32, 64, 4, 1, [⟨24, 0, .ro, 0⟩]⟩,
  ⟨0x414, 32, 64, 4, 1, [⟨31, 0, .rc, 0⟩]⟩,
  ⟨0x418, 32, 64, 4, 1, [⟨31, 0, .ro, 0⟩]⟩,
  ⟨0x41c, 32, 64, 4, 1, [⟨31, 0, .ro, 0⟩]⟩]

/-- Register rows of FRM. -/
def rowsFrm : List RegRow := rowsFrm0 ++ rowsFrm1

/-- Register rows of RDL (R315, R316, R317). -/
def rowsRdl : List RegRow := [
  ⟨0x40, 4, 1, 4, 1, [⟨31, 0, .rwt, 0⟩]⟩,
  ⟨0x44, 4, 1, 4, 1, [⟨31, 0, .rwt, 0⟩]⟩,
  ⟨0x48, 4, 1, 4, 1, [⟨31, 0, .rc, 0⟩]⟩,
  ⟨0x4c, 4, 1, 4, 1, [⟨31, 0, .rc, 0⟩]⟩,
  ⟨0x50, 4, 1, 4, 1, [⟨31, 0, .rc, 0⟩]⟩,
  ⟨0x54, 4, 1, 4, 1, [⟨31, 0, .rc, 0⟩]⟩,
  ⟨0x58, 4, 1, 4, 1, [⟨16, 0, .ro, 0⟩, ⟨31, 31, .ro, 0⟩]⟩,
  ⟨0x100, 64, 4, 4, 1, [⟨31, 0, .rw, 0⟩]⟩,
  ⟨0x104, 64, 4, 4, 1, [⟨31, 0, .rw, 0⟩]⟩,
  ⟨0x108, 64, 4, 4, 1, [⟨31, 0, .rw, 0⟩]⟩,
  ⟨0x10c, 64, 4, 4, 1, [⟨31, 0, .rw, 0⟩]⟩,
  ⟨0x110, 64, 4, 4, 1, [⟨24, 0, .rw, 0⟩]⟩,
  ⟨0x114, 64, 4, 4, 1, [⟨31, 0, .rw, 0⟩]⟩,
  ⟨0x118, 64, 4, 4, 1, [⟨6, 0, .rw, 0⟩, ⟨7, 7, .rw, 0⟩, ⟨13, 8, .rw, 0⟩, ⟨17, 16, .wo, 0⟩]⟩,
  ⟨0x11c, 64, 4, 4, 1, [⟨7, 0, .ro, 0⟩, ⟨8, 8, .ro, 0⟩, ⟨9, 9, .ro, 0⟩, ⟨10, 10, .ro, 0⟩, ⟨31, 16, .ro, 0⟩]⟩,
  ⟨0x120, 64, 4, 4, 1, [⟨31, 0, .ro, 0⟩]⟩,
  ⟨0x124, 64, 4, 4, 1, [⟨24, 0, .ro, 0⟩]⟩,
  ⟨0x128, 64, 4, 4, 1, [⟨31, 0, .ro, 0⟩]⟩,
  ⟨0x12c, 64, 4, 4, 1, [⟨6, 0, .ro, 0⟩, ⟨7, 7, .ro, 0⟩, ⟨13, 8, .ro, 0⟩]⟩,
  ⟨0x400, 16, 64, 4, 1, [⟨15, 0, .rwt, 0⟩]⟩,
  ⟨0x404, 16, 64, 4, 1, [⟨16, 0, .rwt, 0⟩]⟩,
  ⟨0x408, 16, 64, 4, 1, [⟨16, 0, .ro, 0⟩]⟩,
  ⟨0x40c, 16, 64, 4, 1, [⟨31, 0, .rc, 0⟩]⟩]

/-- Register rows of TRW (R298, R299). -/
def rowsTrw : List RegRow := [
  ⟨0x40, 4, 1, 4, 1, [⟨31, 0, .rw, 0⟩]⟩,
  ⟨0x44, 4, 1, 4, 1, [⟨31, 0, .rw, 0⟩]⟩,
  ⟨0x48, 4, 1, 4, 1, [⟨31, 0, .rc, 0⟩]⟩,
  ⟨0x4c, 4, 1, 4, 1, [⟨31, 0, .rc, 0⟩]⟩,
  ⟨0x100, 32, 8, 4, 1, [⟨31, 0, .rw, 0⟩]⟩,
  ⟨0x104, 32, 8, 4, 1, [⟨31, 0, .rw, 0⟩]⟩,
  ⟨0x108, 32, 8, 4, 1, [⟨0, 0, .wo, 0⟩, ⟨1, 1, .wo, 0⟩]⟩,
  ⟨0x10c, 32, 8, 4, 1, [⟨2, 0, .ro, 0⟩, ⟨15, 8, .ro, 0⟩, ⟨21, 16, .ro, 0⟩, ⟨22, 22, .ro, 0⟩]⟩,
  ⟨0x110, 32, 8, 4, 1, [⟨31, 0, .ro, 0⟩]⟩,
  ⟨0x114, 32, 8, 4, 1, [⟨31, 0, .ro, 0⟩]⟩,
  ⟨0x118, 32, 8, 4, 1, [⟨31, 0, .ro, 0⟩]⟩,
  ⟨0x11c, 32, 8, 4, 1, [⟨31, 0, .ro, 0⟩]⟩]

/-- Register rows of FEN (R251, R252). -/
def rowsFen : List RegRow := [
  ⟨0x40, 4, 1, 4, 1, [⟨31, 0, .ro, 4294967295⟩]⟩,
  ⟨0x44, 4, 1, 4, 1, [⟨31, 0, .ro, 0⟩]⟩,
  ⟨0x48, 4, 1, 4, 1, [⟨31, 0, .ro, 0⟩]⟩,
  ⟨0x50, 4, 4, 4, 1, [⟨11, 0, .rwl, 0⟩]⟩,
  ⟨0x60, 4, 1, 4, 1, [⟨31, 0, .rc, 0⟩]⟩,
  ⟨0x64, 4, 1, 4, 1, [⟨31, 0, .rc, 0⟩]⟩,
  ⟨0x68, 4, 1, 4, 1, [⟨31, 0, .rc, 0⟩]⟩,
  ⟨0x6c, 4, 1, 4, 1, [⟨31, 0, .ro, 0⟩]⟩,
  ⟨0x70, 4, 1, 4, 1, [⟨31, 0, .ro, 0⟩]⟩,
  ⟨0x74, 4, 1, 4, 1, [⟨31, 0, .rc, 0⟩]⟩,
  ⟨0x78, 4, 1, 4, 1, [⟨31, 0, .rc, 0⟩]⟩,
  ⟨0x100, 4, 32, 4, 1, [⟨5, 0, .w1c, 0⟩, ⟨6, 6, .ro, 0⟩, ⟨7, 7, .ro, 0⟩, ⟨8, 8, .ro, 0⟩, ⟨22, 16, .ro, 0⟩]⟩]

/-- Register rows of DBR (R253). -/
def rowsDbr : List RegRow := [
  ⟨0x40, 4, 1, 4, 1, [⟨8, 0, .ro, 0⟩]⟩,
  ⟨0x44, 4, 1, 4, 1, [⟨31, 0, .rc, 0⟩]⟩,
  ⟨0x48, 4, 1, 4, 1, [⟨31, 0, .rc, 0⟩]⟩,
  ⟨0x4c, 4, 1, 4, 1, [⟨4, 0, .rwt, 0⟩, ⟨8, 8, .rwt, 0⟩]⟩,
  ⟨0x50, 4, 1, 4, 1, [⟨22, 0, .rwt, 0⟩]⟩,
  ⟨0x54, 4, 1, 4, 1, [⟨12, 0, .rwt, 0⟩]⟩,
  ⟨0x58, 4, 1, 4, 1, [⟨31, 0, .rw, 0⟩]⟩,
  ⟨0x5c, 4, 1, 4, 1, [⟨31, 0, .rw, 0⟩]⟩,
  ⟨0x60, 4, 1, 4, 1, [⟨31, 0, .rw, 0⟩]⟩,
  ⟨0x64, 4, 1, 4, 1, [⟨31, 0, .rw, 0⟩]⟩,
  ⟨0x68, 4, 1, 4, 1, [⟨11, 0, .rw, 0⟩, ⟨16, 16, .rwt, 0⟩]⟩,
  ⟨0x6c, 4, 1, 4, 1, [⟨7, 0, .ro, 0⟩, ⟨19, 8, .ro, 0⟩, ⟨20, 20, .ro, 0⟩]⟩]

/-- Register rows of PCI (R279, R280, R281). -/
def rowsPci : List RegRow := [
  ⟨0x40, 4, 1, 4, 1, [⟨1, 0, .rwl, 0⟩, ⟨7, 4, .rwl, 15⟩]⟩,
  ⟨0x44, 4, 4, 4, 1, [⟨0, 0, .ro, 0⟩, ⟨3, 1, .ro, 0⟩, ⟨8, 4, .ro, 0⟩, ⟨9, 9, .ro, 0⟩]⟩,
  ⟨0x54, 4, 1, 4, 1, [⟨31, 0, .rc, 0⟩]⟩,
  ⟨0x58, 4, 1, 4, 1, [⟨31, 0, .rc, 0⟩]⟩,
  ⟨0x200, 32, 16, 4, 1, [⟨31, 0, .rwl, 0⟩]⟩,
  ⟨0x204, 32, 16, 4, 1, [⟨31, 0, .rwl, 0⟩]⟩,
  ⟨0x208, 32, 16, 4, 1, [⟨31, 0, .rwl, 0⟩]⟩,
  ⟨0x20c, 32, 16, 4, 1, [⟨31, 0, .rwl, 0⟩]⟩,
  ⟨0x210, 32, 16, 4, 1, [⟨0, 0, .rwl, 0⟩, ⟨2, 1, .rwl, 0⟩, ⟨3, 3, .rwl, 0⟩, ⟨15, 8, .rwl, 0⟩, ⟨31, 31, .rwl, 0⟩]⟩,
  ⟨0x400, 4, 16, 4, 1, [⟨11, 0, .rw, 0⟩]⟩]

/-- Register rows of ETH (R362, R374), part 1. -/
def rowsEth0 : List RegRow := [
  ⟨0x40, 4, 1, 4, 1, [⟨1, 0, .rwl, 0⟩, ⟨4, 4, .rwl, 0⟩, ⟨15, 8, .rwl, 255⟩]⟩,
  ⟨0x44, 4, 8, 4, 1, [⟨0, 0, .ro, 0⟩, ⟨1, 1, .ro, 0⟩, ⟨2, 2, .ro, 0⟩, ⟨3, 3, .ro, 0⟩]⟩,
  ⟨0x64, 4, 1, 4, 1, [⟨15, 0, .rw, 64⟩]⟩,
  ⟨0x80, 4, 8, 4, 1, [⟨11, 0, .rw, 0⟩, ⟨12, 12, .rw, 0⟩]⟩,
  ⟨0xa0, 4, 1, 4, 1, [⟨23, 0, .rw, 342391⟩]⟩,
  ⟨0xa4, 4, 1, 4, 1, [⟨31, 0, .rc, 0⟩]⟩,
  ⟨0xa8, 4, 1, 4, 1, [⟨31, 0, .rc, 0⟩]⟩,
  ⟨0xac, 4, 1, 4, 1, [⟨31, 0, .rc, 0⟩]⟩,
  ⟨0xb0, 4, 1, 4, 1, [⟨31, 0, .rc, 0⟩]⟩,
  ⟨0xb4, 4, 1, 4, 1, [⟨31, 0, .rc, 0⟩]⟩,
  ⟨0xb8, 4, 1, 4, 1, [⟨31, 0, .rc, 0⟩]⟩,
  ⟨0xc0, 4, 1, 4, 1, [⟨31, 0, .rwl, 0⟩]⟩,
  ⟨0xc4, 4, 1, 4, 1, [⟨15, 0, .rwl, 0⟩]⟩,
  ⟨0x100, 4, 1, 4, 1, [⟨31, 0, .rwl, 0⟩]⟩,
  ⟨0x104, 4, 1, 4, 1, [⟨31, 0, .rwl, 0⟩]⟩,
  ⟨0x108, 4, 1, 4, 1, [⟨3, 0, .rwl, 4⟩, ⟨8, 8, .rwl, 0⟩]⟩,
  ⟨0x10c, 4, 1, 4, 1, [⟨31, 0, .ro, 0⟩]⟩,
  ⟨0x110, 4, 1, 4, 1, [⟨31, 0, .rw, 0⟩]⟩,
  ⟨0x114, 4, 1, 4, 1, [⟨31, 0, .rc, 0⟩]⟩,
  ⟨0x120, 4, 1, 4, 1, [⟨31, 0, .rwl, 0⟩]⟩,
  ⟨0x124, 4, 1, 4, 1, [⟨31, 0, .rwl, 0⟩]⟩,
  ⟨0x128, 4, 1, 4, 1, [⟨3, 0, .rwl, 4⟩, ⟨8, 8, .rwl, 0⟩]⟩,
  ⟨0x12c, 4, 1, 4, 1, [⟨31, 0, .rw, 0⟩]⟩,
  ⟨0x130, 4, 1, 4, 1, [⟨31, 0, .ro, 0⟩]⟩]

/-- Register rows of ETH (R362, R374), part 2. -/
def rowsEth1 : List RegRow := [
  ⟨0x134, 4, 1, 4, 1, [⟨31, 0, .rc, 0⟩]⟩]

/-- Register rows of ETH. -/
def rowsEth : List RegRow := rowsEth0 ++ rowsEth1

/-- Register rows of SLU (R437). -/
def rowsSlu : List RegRow := [
  ⟨0x40, 4, 1, 4, 1, [⟨0, 0, .rwt, 0⟩]⟩,
  ⟨0x44, 4, 8, 4, 1, [⟨15, 0, .rwt, 592⟩]⟩,
  ⟨0x80, 4, 8, 4, 1, [⟨6, 0, .rwt, 0⟩]⟩,
  ⟨0xa0, 4, 8, 4, 1, [⟨7, 0, .ro, 255⟩, ⟨14, 8, .ro, 0⟩]⟩,
  ⟨0xc0, 4, 1, 4, 1, [⟨31, 0, .rc, 0⟩]⟩,
  ⟨0xc4, 4, 1, 4, 1, [⟨31, 0, .rc, 0⟩]⟩,
  ⟨0x800, 256, 8, 4, 64, [⟨23, 0, .rwt, 0⟩, ⟨31, 24, .rwt, 0⟩]⟩]

/-- Register rows of RAK (R436). -/
def rowsRak : List RegRow := [
  ⟨0x40, 4, 1, 4, 1, [⟨23, 0, .rwt, 0⟩]⟩,
  ⟨0x44, 4, 8, 4, 1, [⟨2, 0, .rwt, 0⟩, ⟨5, 3, .rwt, 0⟩, ⟨8, 6, .rwt, 0⟩, ⟨15, 15, .rwt, 0⟩]⟩,
  ⟨0x64, 4, 1, 4, 1, [⟨31, 0, .rc, 0⟩]⟩,
  ⟨0x68, 4, 1, 4, 1, [⟨31, 0, .rc, 0⟩]⟩,
  ⟨0x6c, 4, 1, 4, 1, [⟨22, 0, .ro, 0⟩]⟩,
  ⟨0x70, 4, 1, 4, 1, [⟨31, 0, .rwl, 0⟩]⟩,
  ⟨0x74, 4, 1, 4, 1, [⟨31, 0, .rwl, 0⟩]⟩,
  ⟨0x78, 4, 1, 4, 1, [⟨0, 0, .rwl, 0⟩]⟩,
  ⟨0x7c, 4, 1, 4, 1, [⟨31, 0, .rc, 0⟩]⟩,
  ⟨0x80, 4, 8, 4, 1, [⟨22, 0, .rwt, 524288⟩]⟩,
  ⟨0x100, 128, 8, 4, 32, [⟨9, 0, .rwt, 150⟩, ⟨25, 16, .rwt, 150⟩]⟩,
  ⟨0x800, 256, 8, 4, 64, [⟨22, 0, .ro, 0⟩]⟩]

/-- Register rows of PTP (R375). -/
def rowsPtp : List RegRow := [
  ⟨0x40, 4, 1, 4, 1, [⟨7, 0, .rwl, 0⟩, ⟨13, 8, .rwl, 0⟩, ⟨17, 16, .rwl, 2⟩, ⟨19, 18, .rwl, 0⟩, ⟨25, 20, .rwl, 0⟩]⟩,
  ⟨0x44, 4, 1, 4, 1, [⟨31, 0, .rw, 0⟩]⟩,
  ⟨0x48, 4, 1, 4, 1, [⟨31, 0, .rw, 0⟩]⟩,
  ⟨0x4c, 4, 1, 4, 1, [⟨15, 0, .rw, 10000⟩]⟩,
  ⟨0x50, 4, 1, 4, 1, [⟨31, 0, .rw, 0⟩]⟩,
  ⟨0x54, 4, 1, 4, 1, [⟨31, 0, .rw, 0⟩]⟩,
  ⟨0x58, 4, 1, 4, 1, [⟨0, 0, .rw, 0⟩]⟩,
  ⟨0x5c, 4, 1, 4, 1, [⟨15, 0, .rw, 3000⟩]⟩,
  ⟨0x60, 4, 1, 4, 1, [⟨29, 0, .ro, 0⟩]⟩,
  ⟨0x64, 4, 1, 4, 1, [⟨31, 0, .ro, 0⟩]⟩,
  ⟨0x68, 4, 1, 4, 1, [⟨15, 0, .ro, 0⟩]⟩,
  ⟨0x6c, 4, 1, 4, 1, [⟨15, 0, .rw, 1000⟩]⟩,
  ⟨0x70, 4, 1, 4, 1, [⟨29, 0, .rw, 100000000⟩, ⟨31, 31, .rw, 0⟩]⟩,
  ⟨0x74, 4, 1, 4, 1, [⟨0, 0, .rwl, 0⟩]⟩,
  ⟨0x78, 4, 1, 4, 1, [⟨0, 0, .ro, 0⟩, ⟨1, 1, .ro, 0⟩, ⟨2, 2, .ro, 0⟩, ⟨3, 3, .ro, 0⟩, ⟨4, 4, .ro, 0⟩, ⟨5, 5, .ro, 0⟩, ⟨6, 6, .ro, 0⟩, ⟨7, 7, .ro, 0⟩, ⟨8, 8, .ro, 0⟩]⟩,
  ⟨0x7c, 4, 1, 4, 1, [⟨31, 0, .rc, 0⟩]⟩,
  ⟨0x80, 4, 1, 4, 1, [⟨31, 0, .rc, 0⟩]⟩,
  ⟨0x90, 4, 1, 4, 1, [⟨29, 0, .ro, 0⟩]⟩,
  ⟨0x94, 4, 1, 4, 1, [⟨31, 0, .ro, 0⟩]⟩,
  ⟨0x98, 4, 1, 4, 1, [⟨15, 0, .ro, 0⟩]⟩]

/-- Register rows of ITP (R416, R417, R418, R419), part 1. -/
def rowsItp0 : List RegRow := [
  ⟨0x40, 4, 1, 4, 1, [⟨15, 0, .rwl, 46128⟩]⟩,
  ⟨0x44, 4, 1, 4, 1, [⟨11, 0, .wo, 0⟩, ⟨17, 16, .wo, 0⟩]⟩,
  ⟨0x48, 4, 1, 4, 1, [⟨31, 0, .rwl, 0⟩]⟩,
  ⟨0x4c, 4, 1, 4, 1, [⟨31, 0, .rwl, 0⟩]⟩,
  ⟨0x50, 4, 1, 4, 1, [⟨20, 0, .rwl, 0⟩]⟩,
  ⟨0x54, 4, 1, 4, 1, [⟨19, 0, .wo, 0⟩, ⟨21, 20, .wo, 0⟩]⟩,
  ⟨0x58, 4, 1, 4, 1, [⟨7, 0, .ro, 0⟩]⟩,
  ⟨0x5c, 4, 1, 4, 1, [⟨31, 0, .rwl, 0⟩]⟩,
  ⟨0x60, 4, 1, 4, 1, [⟨31, 0, .rwl, 0⟩]⟩,
  ⟨0x64, 4, 1, 4, 1, [⟨11, 0, .rwl, 0⟩]⟩,
  ⟨0x68, 4, 1, 4, 1, [⟨7, 0, .rw, 16⟩, ⟨31, 16, .rw, 3200⟩]⟩,
  ⟨0x6c, 4, 1, 4, 1, [⟨7, 0, .rw, 32⟩, ⟨15, 8, .rw, 7⟩, ⟨31, 16, .rw, 64⟩]⟩,
  ⟨0x70, 4, 1, 4, 1, [⟨15, 0, .rw, 64⟩]⟩,
  ⟨0x74, 4, 1, 4, 1, [⟨19, 0, .rw, 8000⟩]⟩,
  ⟨0x78, 4, 1, 4, 1, [⟨3, 0, .rw, 3⟩, ⟨31, 8, .rw, 1000⟩]⟩,
  ⟨0x7c, 4, 1, 4, 1, [⟨23, 0, .rw, 1000⟩]⟩,
  ⟨0x80, 4, 1, 4, 1, [⟨23, 0, .rw, 200000⟩]⟩,
  ⟨0x100, 4, 1, 4, 1, [⟨31, 0, .rc, 0⟩]⟩,
  ⟨0x104, 4, 1, 4, 1, [⟨31, 0, .rc, 0⟩]⟩,
  ⟨0x108, 4, 1, 4, 1, [⟨31, 0, .rc, 0⟩]⟩,
  ⟨0x10c, 4, 1, 4, 1, [⟨31, 0, .rc, 0⟩]⟩,
  ⟨0x110, 4, 1, 4, 1, [⟨31, 0, .rc, 0⟩]⟩,
  ⟨0x114, 4, 1, 4, 1, [⟨31, 0, .rc, 0⟩]⟩,
  ⟨0x118, 4, 1, 4, 1, [⟨31, 0, .rc, 0⟩]⟩]

/-- Register rows of ITP (R416, R417, R418, R419), part 2. -/
def rowsItp1 : List RegRow := [
  ⟨0x11c, 4, 1, 4, 1, [⟨31, 0, .rc, 0⟩]⟩,
  ⟨0x120, 4, 1, 4, 1, [⟨31, 0, .rc, 0⟩]⟩,
  ⟨0x124, 4, 1, 4, 1, [⟨31, 0, .rc, 0⟩]⟩,
  ⟨0x128, 4, 1, 4, 1, [⟨31, 0, .rc, 0⟩]⟩,
  ⟨0x12c, 4, 1, 4, 1, [⟨31, 0, .rc, 0⟩]⟩,
  ⟨0x130, 4, 1, 4, 1, [⟨31, 0, .rc, 0⟩]⟩,
  ⟨0x134, 4, 1, 4, 1, [⟨31, 0, .rc, 0⟩]⟩,
  ⟨0x138, 4, 1, 4, 1, [⟨31, 0, .rc, 0⟩]⟩,
  ⟨0x13c, 4, 1, 4, 1, [⟨31, 0, .rc, 0⟩]⟩,
  ⟨0x1000, 32, 16, 4, 1, [⟨31, 0, .rwl, 0⟩]⟩,
  ⟨0x1004, 32, 16, 4, 1, [⟨31, 0, .rwl, 0⟩]⟩,
  ⟨0x1008, 32, 16, 4, 1, [⟨3, 0, .rwl, 4⟩, ⟨8, 8, .rwl, 0⟩]⟩,
  ⟨0x100c, 32, 16, 4, 1, [⟨31, 0, .rw, 0⟩]⟩,
  ⟨0x1010, 32, 16, 4, 1, [⟨31, 0, .ro, 0⟩]⟩,
  ⟨0x2000, 32, 64, 4, 1, [⟨31, 0, .rwl, 0⟩]⟩,
  ⟨0x2004, 32, 64, 4, 1, [⟨31, 0, .rwl, 0⟩]⟩,
  ⟨0x2008, 32, 64, 4, 1, [⟨3, 0, .rwl, 4⟩, ⟨8, 8, .rwl, 0⟩]⟩,
  ⟨0x200c, 32, 64, 4, 1, [⟨31, 0, .rw, 0⟩]⟩,
  ⟨0x2010, 32, 64, 4, 1, [⟨31, 0, .ro, 0⟩]⟩,
  ⟨0x2800, 4, 1, 4, 1, [⟨31, 0, .rwl, 0⟩]⟩,
  ⟨0x2804, 4, 1, 4, 1, [⟨31, 0, .rwl, 0⟩]⟩,
  ⟨0x2808, 4, 1, 4, 1, [⟨3, 0, .rwl, 4⟩, ⟨8, 8, .rwl, 0⟩]⟩,
  ⟨0x280c, 4, 1, 4, 1, [⟨31, 0, .ro, 0⟩]⟩,
  ⟨0x2810, 4, 1, 4, 1, [⟨31, 0, .rw, 0⟩]⟩]

/-- Register rows of ITP (R416, R417, R418, R419), part 3. -/
def rowsItp2 : List RegRow := [
  ⟨0x3000, 4, 1024, 4, 1, [⟨23, 0, .rw, 0⟩, ⟨29, 24, .rw, 0⟩, ⟨31, 31, .rw, 0⟩]⟩]

/-- Register rows of ITP. -/
def rowsItp : List RegRow := rowsItp0 ++ rowsItp1 ++ rowsItp2

/-- Register rows of FAB (R467), part 1. -/
def rowsFab0 : List RegRow := [
  ⟨0x40, 4, 1, 4, 1, [⟨15, 0, .rwl, 0⟩]⟩,
  ⟨0x44, 4, 4, 4, 1, [⟨31, 0, .rwl, 0⟩]⟩,
  ⟨0x54, 4, 1, 4, 1, [⟨31, 0, .rwl, 0⟩]⟩,
  ⟨0x58, 4, 1, 4, 1, [⟨0, 0, .rwl, 0⟩]⟩,
  ⟨0x5c, 4, 1, 4, 1, [⟨0, 0, .rwt, 0⟩]⟩,
  ⟨0x60, 4, 1, 4, 1, [⟨31, 0, .ro, 0⟩]⟩,
  ⟨0x64, 4, 1, 4, 1, [⟨31, 0, .rwt, 0⟩]⟩,
  ⟨0x68, 4, 1, 4, 1, [⟨0, 0, .ro, 0⟩]⟩,
  ⟨0x6c, 4, 1, 4, 1, [⟨31, 0, .rwl, 0⟩]⟩,
  ⟨0x70, 4, 1, 4, 1, [⟨31, 0, .rwl, 0⟩]⟩,
  ⟨0x74, 4, 1, 4, 1, [⟨31, 0, .rwl, 0⟩]⟩,
  ⟨0x78, 4, 1, 4, 1, [⟨31, 0, .rwl, 0⟩]⟩,
  ⟨0x7c, 4, 1, 4, 1, [⟨31, 0, .rwl, 0⟩]⟩,
  ⟨0x80, 4, 1, 4, 1, [⟨31, 0, .rwl, 0⟩]⟩,
  ⟨0x84, 4, 1, 4, 1, [⟨3, 0, .rw, 2⟩, ⟨23, 8, .rw, 500⟩]⟩,
  ⟨0x88, 4, 1, 4, 1, [⟨23, 0, .rw, 10000⟩]⟩,
  ⟨0x8c, 4, 1, 4, 1, [⟨19, 0, .rwl, 0⟩]⟩,
  ⟨0x90, 4, 1, 4, 1, [⟨20, 0, .rwl, 0⟩]⟩,
  ⟨0x94, 4, 1, 4, 1, [⟨7, 0, .rw, 2⟩]⟩,
  ⟨0x98, 4, 1, 4, 1, [⟨17, 0, .rwt, 0⟩, ⟨25, 18, .rwt, 0⟩, ⟨28, 26, .rwt, 0⟩]⟩,
  ⟨0x9c, 4, 1, 4, 1, [⟨31, 0, .rwl, 0⟩]⟩,
  ⟨0xa0, 4, 1, 4, 1, [⟨31, 0, .rwl, 0⟩]⟩,
  ⟨0xa4, 4, 1, 4, 1, [⟨31, 0, .rwl, 0⟩]⟩,
  ⟨0xa8, 4, 1, 4, 1, [⟨31, 0, .rwl, 0⟩]⟩]

/-- Register rows of FAB (R467), part 2. -/
def rowsFab1 : List RegRow := [
  ⟨0xac, 4, 1, 4, 1, [⟨11, 0, .ro, 0⟩, ⟨23, 16, .ro, 0⟩, ⟨30, 30, .ro, 0⟩, ⟨31, 31, .ro, 0⟩]⟩,
  ⟨0xb0, 4, 1, 4, 1, [⟨31, 0, .rwl, 0⟩]⟩,
  ⟨0xb4, 4, 1, 4, 1, [⟨31, 0, .rwl, 0⟩]⟩,
  ⟨0xb8, 4, 1, 4, 1, [⟨3, 0, .rwl, 6⟩, ⟨8, 8, .rwl, 0⟩]⟩,
  ⟨0xbc, 4, 1, 4, 1, [⟨31, 0, .ro, 0⟩]⟩,
  ⟨0xc0, 4, 1, 4, 1, [⟨31, 0, .rw, 0⟩]⟩,
  ⟨0xc4, 4, 1, 4, 1, [⟨31, 0, .rc, 0⟩]⟩,
  ⟨0xc8, 4, 1, 4, 1, [⟨31, 0, .rc, 0⟩]⟩,
  ⟨0xcc, 4, 1, 4, 1, [⟨31, 0, .rc, 0⟩]⟩,
  ⟨0xd0, 4, 1, 4, 1, [⟨31, 0, .rc, 0⟩]⟩,
  ⟨0xd4, 4, 1, 4, 1, [⟨31, 0, .rc, 0⟩]⟩,
  ⟨0xd8, 4, 1, 4, 1, [⟨31, 0, .rc, 0⟩]⟩,
  ⟨0xdc, 4, 1, 4, 1, [⟨31, 0, .rc, 0⟩]⟩,
  ⟨0xe0, 4, 1, 4, 1, [⟨15, 0, .ro, 0⟩, ⟨31, 16, .ro, 0⟩]⟩,
  ⟨0xe4, 4, 1, 4, 1, [⟨15, 0, .ro, 0⟩]⟩]

/-- Register rows of FAB. -/
def rowsFab : List RegRow := rowsFab0 ++ rowsFab1

/-- Register rows of MSH (R355). -/
def rowsMsh : List RegRow := [
  ⟨0x40, 4, 12, 4, 1, [⟨31, 0, .rwl, 0⟩]⟩,
  ⟨0x70, 4, 1, 4, 1, [⟨31, 0, .rc, 0⟩]⟩,
  ⟨0x74, 4, 1, 4, 1, [⟨31, 0, .rc, 0⟩]⟩,
  ⟨0x78, 4, 1, 4, 1, [⟨31, 0, .rc, 0⟩]⟩,
  ⟨0x7c, 4, 1, 4, 1, [⟨6, 0, .ro, 0⟩, ⟨8, 8, .ro, 0⟩]⟩]

/-- Register rows of TIL (R354). -/
def rowsTil : List RegRow := [
  ⟨0x40, 4, 1, 4, 1, [⟨17, 0, .rw, 0⟩]⟩,
  ⟨0x44, 4, 1, 4, 1, [⟨1, 0, .rw, 0⟩]⟩,
  ⟨0x48, 4, 1, 4, 1, [⟨0, 0, .wo, 0⟩, ⟨1, 1, .wo, 0⟩]⟩,
  ⟨0x4c, 4, 1, 4, 1, [⟨2, 0, .ro, 0⟩, ⟨15, 8, .ro, 0⟩]⟩,
  ⟨0x50, 4, 1, 4, 1, [⟨16, 0, .ro, 0⟩]⟩,
  ⟨0x54, 4, 1, 4, 1, [⟨31, 0, .rc, 0⟩]⟩,
  ⟨0x58, 4, 1, 4, 1, [⟨31, 0, .rc, 0⟩]⟩,
  ⟨0x5c, 4, 1, 4, 1, [⟨11, 0, .ro, 0⟩]⟩,
  ⟨0x60, 4, 12, 4, 1, [⟨31, 0, .ro, 0⟩]⟩]

/-- Register rows of DPW (R43). -/
def rowsDpw : List RegRow := [
  ⟨0x40, 32, 4, 4, 1, [⟨31, 0, .rw, 0⟩]⟩,
  ⟨0x44, 32, 4, 4, 1, [⟨31, 0, .rw, 0⟩]⟩,
  ⟨0x48, 32, 4, 4, 1, [⟨31, 0, .rw, 0⟩]⟩,
  ⟨0x4c, 32, 4, 4, 1, [⟨7, 0, .rc, 0⟩]⟩,
  ⟨0xc0, 4, 1, 4, 1, [⟨10, 0, .rwl, 1024⟩]⟩]

/-- Rows of the block-specific registers of a block. -/
def Blk.rows : Blk → List RegRow
  | .sys => rowsSys
  | .lcs => rowsLcs
  | .att => rowsAtt
  | .key => rowsKey
  | .prt => rowsPrt
  | .pwr => rowsPwr
  | .clk => rowsClk
  | .uar => rowsUar
  | .mgt => rowsMgt
  | .bst => rowsBst
  | .tpl => rowsTpl
  | .ctx => rowsCtx
  | .pwk => rowsPwk
  | .frm => rowsFrm
  | .rdl => rowsRdl
  | .trw => rowsTrw
  | .fen => rowsFen
  | .dbr => rowsDbr
  | .pci => rowsPci
  | .eth => rowsEth
  | .slu => rowsSlu
  | .rak => rowsRak
  | .ptp => rowsPtp
  | .itp => rowsItp
  | .fab => rowsFab
  | .msh => rowsMsh
  | .til => rowsTil
  | .dpw => rowsDpw

/-- BLK_CTL's fields (R29): SYS, LCS and KEY read en as 1 and ignore writes; the reset value of en is 1 in ten blocks. -/
def ctlRow (b : Blk) : RegRow :=
  let en : Fld :=
    if b = .sys ∨ b = .lcs ∨ b = .key then ⟨0, 0, .ro, 1⟩
    else if b = .att ∨ b = .pwr ∨ b = .clk ∨ b = .uar ∨ b = .mgt ∨ b = .dpw then ⟨0, 0, .rwt, 1⟩
    else ⟨0, 0, .rwt, 0⟩
  ⟨0x010, 4, 1, 4, 1, [en, ⟨1, 1, .rwl, 0⟩]⟩

/-- The common block header (R26 to R37) of instance `n` of block `b`. -/
def headerRows (b : Blk) (n : Nat) : List RegRow := [
  ⟨0x000, 4, 1, 4, 1, [⟨11, 0, .ro, b.page⟩, ⟨23, 16, .ro, n⟩]⟩,
  ⟨0x004, 4, 1, 4, 1, [⟨31, 0, .ro, 0x200⟩]⟩,
  ⟨0x008, 4, 1, 4, 1, [⟨31, 0, .ro, b.cap⟩]⟩,
  ctlRow b,
  ⟨0x014, 4, 1, 4, 1, [⟨31, 0, .ro, 0⟩]⟩,
  ⟨0x018, 4, 1, 4, 1, [⟨31, 0, .w1c, 0⟩]⟩,
  ⟨0x01C, 4, 1, 4, 1, [⟨31, 0, .rw, 0⟩]⟩,
  ⟨0x020, 4, 1, 4, 1, [⟨7, 0, .ro, 0⟩, ⟨8, 8, .w1c, 0⟩, ⟨9, 9, .ro, 0⟩, ⟨10, 10, .ro, 0⟩, ⟨21, 16, .ro, 0⟩]⟩,
  ⟨0x024, 4, 1, 4, 1, [⟨31, 0, .ro, 0⟩]⟩,
  ⟨0x028, 4, 1, 4, 1, [⟨31, 0, .ro, 0⟩]⟩,
  ⟨0x030, 4, 1, 4, 1, [⟨0, 0, .ro, 0⟩, ⟨31, 16, .wo, 0⟩]⟩]

/-- Whether a block-page offset is one of a row's (replicated) register words. -/
def RegRow.hit (r : RegRow) (off : Nat) : Bool :=
  let d := off - r.off
  let e := d % r.s1
  decide (r.off ≤ off) && decide (d / r.s1 < r.n1) && decide (e % r.s2 = 0) && decide (e / r.s2 < r.n2)

/-- Registers that only one instance of their block has: the tier-2 map in PCI0 (R280), the policer and its counter in
RAK0 (R436), the control rings in ETH0 (R374). -/
def onlyInstanceZero (b : Blk) (off : Nat) : Bool :=
  match b with
  | .pci => decide (0x200 ≤ off)
  | .rak => decide (0x070 ≤ off) && decide (off < 0x080)
  | .eth => decide (0x100 ≤ off)
  | _ => false

/-- The row that defines a control-space word, with its block, instance and offset; `none` for an address that no block
defines (R22). -/
def regRow (a : Nat) : Option (Blk × Nat × Nat × RegRow) :=
  if a % 4 ≠ 0 ∨ 0x400000 ≤ a then none
  else match pageOwner (a / 0x1000) with
    | none => none
    | some (b, n) =>
      let off := if b = .itp then a - 0x60000 else a % 0x1000
      let inst := if b = .itp then 0 else n
      if onlyInstanceZero b off && decide (inst ≠ 0) then none
      else (if off < 0x040 then (headerRows b inst).find? (·.hit off) else b.rows.find? (·.hit off)).map
        fun r => (b, inst, off, r)

/-- Reset value of one word of a register: its fields' reset values put together. The refresh phase of FENn is
780q + 96n (R251), the only reset value that depends on the copy. -/
def regReset (a : Nat) : Nat :=
  match regRow a with
  | none => 0
  | some (b, n, off, r) =>
    if b = .fen ∧ 0x050 ≤ off ∧ off < 0x060 then 780 * ((off - 0x050) / 4) + 96 * n
    else r.flds.foldl (fun acc f => acc + f.rst * 2 ^ f.lo) 0

/-- Low words of the 64-bit registers (R21), by block and offset: the register with its high word four bytes above. -/
def wideOffsets : Blk → List (Nat × Nat × Nat)
  | .sys => [(0x70, 4, 1), (0x200, 4, 1)]
  | .att => [(0x68, 4, 1)]
  | .prt => [(0x4c, 4, 1), (0x54, 4, 1), (0x5c, 4, 1), (0x800, 32, 64)]
  | .mgt => [(0x48, 4, 1), (0x100, 4, 1), (0x120, 4, 1)]
  | .bst => [(0x108, 4, 1)]
  | .tpl => [(0x60, 4, 1), (0x7c, 4, 1)]
  | .ctx => [(0x40, 4, 1), (0x48, 4, 1)]
  | .frm => [(0x100, 4, 1), (0x118, 4, 1), (0x124, 4, 1)]
  | .rdl => [(0x40, 4, 1)]
  | .trw => [(0x40, 4, 1), (0x100, 32, 8), (0x110, 32, 8), (0x118, 32, 8)]
  | .fen => [(0x6c, 4, 1)]
  | .dbr => [(0x58, 4, 1), (0x60, 4, 1)]
  | .pci => [(0x208, 32, 16)]
  | .eth => [(0xc0, 4, 1), (0x100, 4, 1), (0x120, 4, 1)]
  | .rak => [(0x70, 4, 1)]
  | .ptp => [(0x50, 4, 1)]
  | .itp => [(0x48, 4, 1), (0x5c, 4, 1), (0x1000, 32, 16), (0x2000, 32, 64), (0x2800, 4, 1)]
  | .fab => [(0x6c, 4, 1), (0x74, 4, 1), (0x7c, 4, 1), (0x9c, 4, 1), (0xa4, 4, 1), (0xb0, 4, 1)]
  | .dpw => [(0x40, 32, 4)]
  | _ => []

/-- Whether the word at a defined address is the low word of a 64-bit register (R21). -/
def isWideLo (a : Nat) : Bool :=
  match regRow a with
  | none => false
  | some (b, _, off, _) =>
    (wideOffsets b).any fun (o, s, n) => decide (o ≤ off) && decide ((off - o) % s = 0) && decide ((off - o) / s < n)

/-- Whether the word is the high word of a 64-bit register (R21). -/
def isWideHi (a : Nat) : Bool := decide (4 ≤ a) && isWideLo (a - 4)

end Sys2Proof.Machine
end

