-- ==== Sys2Proof/Machine/SMap.lean ====
section
/-!
DEFINITION. Sparse tables in one canonical form: a list of (key, value) pairs with keys strictly rising and no entry
equal to what an unlisted key reads as. Memory, the register file and every hardware table of the node are held so,
so that equal tables are equal data. `Runs` holds a queue of numbers as runs of consecutive ones, head first.
-/

namespace Sys2Proof.Machine

/-- A sparse table from numbers to values. -/
abbrev SMap (α : Type) := List (Nat × α)

/-- The value at key `k`, or `d` where the key is not listed. -/
def SMap.get {α : Type} (m : SMap α) (d : α) (k : Nat) : α :=
  match m with
  | [] => d
  | (k', v) :: r => if k = k' then v else if k < k' then d else SMap.get r d k

/-- Write `v` at key `k`, keeping the canonical form for the default `d`. -/
def SMap.set {α : Type} [DecidableEq α] (m : SMap α) (d : α) (k : Nat) (v : α) : SMap α :=
  match m with
  | [] => if v = d then [] else [(k, v)]
  | (k', v') :: r =>
    if k = k' then (if v = d then r else (k, v) :: r)
    else if k < k' then (if v = d then (k', v') :: r else (k, v) :: (k', v') :: r)
    else (k', v') :: SMap.set r d k v

/-- Keys strictly rise from a bound on. -/
def SMap.rises {α : Type} (m : SMap α) (lo : Nat) : Bool :=
  match m with
  | [] => true
  | (k, _) :: r => decide (lo ≤ k) && SMap.rises r (k + 1)

/-- The canonical form: keys strictly rising and no entry equal to the default. -/
def SMap.wf {α : Type} [DecidableEq α] (m : SMap α) (d : α) : Bool :=
  SMap.rises m 0 && m.all fun kv => !decide (kv.2 = d)

/-- A queue of numbers as runs (first, count), the head of the queue first. -/
abbrev Runs := List (Nat × Nat)

/-- How many numbers a queue holds. -/
def Runs.size (q : Runs) : Nat := q.foldl (fun a r => a + r.2) 0

/-- Whether a number stands in the queue. -/
def Runs.has (q : Runs) (x : Nat) : Bool := q.any fun r => decide (r.1 ≤ x) && decide (x < r.1 + r.2)

/-- Append a run at the tail, merging it with the last run where the two join. -/
def Runs.push (q : Runs) (a n : Nat) : Runs :=
  if n = 0 then q
  else match q with
    | [] => [(a, n)]
    | [(b, m)] => if b + m = a then [(b, m + n)] else [(b, m), (a, n)]
    | r :: r' :: q' => r :: Runs.push (r' :: q') a n

/-- The head of the queue. -/
def Runs.head? (q : Runs) : Option Nat :=
  match q with
  | [] => none
  | r :: _ => some r.1

/-- The queue without its head. -/
def Runs.tail (q : Runs) : Runs :=
  match q with
  | [] => []
  | (a, n) :: r => if n ≤ 1 then r else (a + 1, n - 1) :: r

/-- Take up to `n` numbers from the head: the runs taken and the rest. -/
def Runs.take (q : Runs) (n : Nat) : Runs × Runs :=
  match q with
  | [] => ([], [])
  | (a, m) :: r =>
    if n = 0 then ([], (a, m) :: r)
    else if n < m then ([(a, n)], (a + n, m - n) :: r)
    else
      let (t, rest) := Runs.take r (n - m)
      ((a, m) :: t, rest)

/-- All of one queue after another. -/
def Runs.append (q t : Runs) : Runs := t.foldl (fun acc r => Runs.push acc r.1 r.2) q

/-- The queue without the numbers of `[lo, hi)`. -/
def Runs.without (q : Runs) (lo hi : Nat) : Runs :=
  q.foldl (fun acc r =>
    let a := r.1
    let b := r.1 + r.2
    let acc1 := if a < lo then Runs.push acc a (min b lo - a) else acc
    if hi < b then Runs.push acc1 (max a hi) (b - max a hi) else acc1) []

/-- The queue without one number. -/
def Runs.remove (q : Runs) (x : Nat) : Runs := Runs.without q x (x + 1)

/-- Every number of the queue, head first. -/
def Runs.toList (q : Runs) : List Nat :=
  q.foldr (fun r acc => (List.range r.2).map (r.1 + ·) ++ acc) []

/-- The number that follows `x` in the queue, if any. -/
def Runs.next (q : Runs) (x : Nat) : Option Nat :=
  match q with
  | [] => none
  | (a, n) :: r =>
    if a ≤ x ∧ x + 1 < a + n then some (x + 1)
    else if a ≤ x ∧ x < a + n then Runs.head? r
    else Runs.next r x

end Sys2Proof.Machine
end

