-- ==== Sys2Proof/Machine/State.lean ====
section
/-!
DEFINITION. The state of the node: every register, table, queue, counter, mode and pin the spec gives it, as plain data,
with the reasons a step can stop and the state right after device reset.
-/

namespace Sys2Proof.Machine

/-! ### Contexts, requests and frames (spec/04) -/

/-- State of a context slot (R97). -/
inductive CtxSt where
  | free | active | lost
deriving DecidableEq, Repr

/-- A context-table entry (R97). The generation is the slot's current one. -/
structure Ctx where
  st : CtxSt := .free
  gen : Nat := 0
  part : Nat := 0
  code : Nat := 0
  d32 : Nat := 0
  kvh : Nat := 0
  t : Nat := 0
  layerFirst : Nat := 0
  layerCount : Nat := 0
  groupFirst : Nat := 0
  groupCount : Nat := 0
  hint : Nat := 0
  mirror : Bool := false
  shareOk : Bool := false
  maxLen : Nat := 0
  seed : Nat := 0
  laneArray : Nat := 0
deriving DecidableEq, Repr

/-- State of a request slot (R117, R119). -/
inductive ReqSt where
  | free | queued | admitted | done
deriving DecidableEq, Repr

/-- A request-table entry (R117). `params` is the 24-byte kind-specific field as a little-endian number (R565). -/
structure Req where
  st : ReqSt := .free
  gen : Nat := 0
  handle : Nat := 0
  kind : Nat := 0
  status : Nat := 0
  late : Bool := false
  cancel : Bool := false
  conn : Nat := 0
  target : Nat := 0
  ran : Nat := 0
  epoch : Nat := 0
  arrival : Nat := 0
  charge : Nat := 0
  layer : Nat := 0
  count : Nat := 0
  position : Nat := 0
  payload : Nat := 0
  bytes : Nat := 0
  params : Nat := 0
deriving DecidableEq, Repr

/-- State of a frame (R111). -/
inductive FrSt where
  | free | data | table | scrub | copyDst | reserved | retired
deriving DecidableEq, Repr

/-- A frame descriptor less its location (R111). The owner is 0 to 63, or 64 for device-owned (0x40). The owner, link
and state of a FREE frame follow from the free list that holds it. -/
structure Frame where
  st : FrSt := .free
  owner : Nat := 0
  refs : Nat := 0
  migLock : Bool := false
  slot : Nat := 0
  gen : Nat := 0
  page : Nat := 0
  lane : Nat := 0
deriving DecidableEq, Repr

/-- One look-aside entry: context slot, generation, lane index, directory index, and the directory entry it holds
(R108). -/
structure LabEnt where
  slot : Nat
  gen : Nat
  lane : Nat
  dir : Nat
  entry : Nat
deriving DecidableEq, Repr

/-- A copy-on-write of one lane: its COPY_DST frame and whether the copy has ended (R121, R122). -/
structure Cow where
  slot : Nat
  lane : Nat
  dst : Nat
  src : Nat
  slots : Nat
  copied : Bool
deriving DecidableEq, Repr

/-- CTX and PWK state (spec/04). -/
structure CtxBlock where
  ctxs : SMap Ctx := []
  reqs : SMap Req := []
  /-- Free-slot queue of each partition (R95). -/
  freeQ : SMap Runs := []
  /-- Look-aside buffer: each of its 512 sets, most recently used entry first (R108). -/
  lab : SMap (List LabEnt) := []
  /-- Lanes whose private copy is pending (R122). -/
  cows : List Cow := []
deriving DecidableEq, Repr

/-- A fetch of one off-package page: on demand for request slot `req`, or for the move order in progress (R258, R273). -/
structure Fetch where
  slot : Nat
  gen : Nat
  lane : Nat
  page : Nat
  tier : Nat
  num : Nat
  frame : Nat
  req : Nat
  /-- The move order it serves, by its number (R278), where no request asked for it. -/
  order : Option Nat
  /-- The bytes that have arrived and await their write and check. -/
  data : Option (List Nat)
  /-- The page has arrived and passed its check; the rewrite waits for the boundary. -/
  ready : Bool
  /-- Segments of a READ_RESP that have arrived so far, by offset (R271, R394). -/
  got : SMap (List Nat) := []
deriving DecidableEq, Repr

/-- A page move in flight (R261), for the order of a number (R278). `stage`: 0 copying, or reading for a write off the package, 1 copied
(exchange waits for the boundary), 4 being written off the package, 2 written but unconfirmed, 3 confirmed (rewrite waits for the
boundary). -/
structure Move where
  slot : Nat
  gen : Nat
  lane : Nat
  page : Nat
  src : Nat
  dst : Nat
  target : Nat
  dest : Nat
  stage : Nat
  order : Nat
deriving DecidableEq, Repr

/-- The move order in progress (R258, R260): its address in the order ring and the pages still to start. -/
structure Order where
  addr : Nat
  handle : Nat
  lane : Nat
  op : Nat
  target : Nat
  first : Nat
  count : Nat
  dest : Nat
  hint : Nat
  todo : List Nat
deriving DecidableEq, Repr

/-- FRM state: frames, locations, free lists, table space and the migrator (spec/04, spec/09). -/
structure FrmBlock where
  frames : SMap Frame := []
  /-- Location of a frame number plus 1, listed where an exchange has moved it from its reset location (R107, R113). -/
  locs : SMap Nat := []
  poolPeat : Runs := [(0, 63744)]
  poolFen : Runs := [(65536, 16777216)]
  /-- Free list of partition p and tier t (0 peat, 1 fen) at key 2p + t (R136). -/
  free : SMap Runs := []
  /-- Table frames of each partition, in the order they were taken (R104). -/
  tables : SMap (List Nat) := []
  /-- Used granules of each table frame: the mask of its 256 granules (R104). -/
  grans : SMap Nat := []
  fetches : List Fetch := []
  moves : List Move := []
  order : Option Order := none
  /-- Moves started in this tick (R260). -/
  started : Nat := 0
deriving DecidableEq, Repr

/-- What an NVMe command is for: a move of a frame, a fetch into a frame, or burst `n` of a Trowel channel. -/
inductive DriveUse where
  | move (frame : Nat)
  | fetch (frame : Nat)
  | window (engine ch n : Nat)
deriving DecidableEq, Repr

/-- An NVMe Read or Write under way: port, link, namespace, first LBA, LBA count, whether FUA is set, as it is in every write, and the
bytes of a write (R265, R267). Flush and Dataset Management are commands of MCX firmware through its private window (R264; assumption
118). -/
structure DriveCmd where
  port : Nat
  link : Nat
  nsid : Nat
  lba : Nat
  count : Nat
  write : Bool
  fua : Bool
  data : List Nat
  use : DriveUse
deriving DecidableEq, Repr

/-! ### Planner (spec/03, spec/07) -/

/-- A unit that booked work runs on. -/
inductive BUnit where
  | tile (n : Nat)
  | chan (stack pc : Nat)
  | frm
deriving DecidableEq, Repr

/-- Kind of a booked item (R83, R349). -/
inductive IKind where
  | rotate | walk | pages | shared | chain | merge | finalize | handoff | append (lane : Nat) | clone | release | migrate
deriving DecidableEq, Repr

/-- Progress of a booked item. -/
inductive ISt where
  | booked | running | done
deriving DecidableEq, Repr

/-- A booked item: its request slot (and, for a shared item, those of all participants), unit, start and ledger cost in
cc, page list and rows (R83, R206, R212). -/
structure Item where
  reqs : List Nat
  kind : IKind
  unit : BUnit
  start : Nat
  len : Nat
  rows : Nat
  pages : List (Nat × Nat)
  st : ISt
deriving DecidableEq, Repr

/-- An occupied interval [from, to) in cc. -/
structure Busy where
  lo : Nat
  hi : Nat
deriving DecidableEq, Repr

/-- A booked MEM-window transfer of a crown queue [lo, hi) in cc, and whether it writes (R242). -/
structure MemBook where
  lo : Nat
  hi : Nat
  write : Bool
deriving DecidableEq, Repr

/-- An occupied interval of the gather buffer: cc interval and bytes (R214). -/
structure Occ where
  lo : Nat
  hi : Nat
  bytes : Nat
deriving DecidableEq, Repr

/-- A booked mesh transfer, or one part of a transfer above 65,536 B: start cc, flits, mesh IDs, the directed links of its route, the
request it serves, its legs as a SEND entry of a booking list gives them, the lane and page of a page partial, the byte at which the part
begins, and whether it has arrived (R328, R329, R349). -/
structure Xfer where
  start : Nat
  flits : Nat
  src : Nat
  dst : Nat
  links : List Nat
  slot : Nat
  legs : Nat
  page : Option (Nat × Nat) := none
  off : Nat := 0
  sent : Bool := false
deriving DecidableEq, Repr

/-- A segment booked on a channel [lo, hi) in sc, and the cc at which the transfer of its rows ends (R212, R226). -/
structure SegBook where
  lo : Nat
  hi : Nat
  rows : Nat
deriving DecidableEq, Repr

/-- A PIM window booked on a channel, in sc, with the segments inside it (R212, R239). -/
structure PimWin where
  stack : Nat
  pc : Nat
  lo : Nat
  hi : Nat
  segs : List SegBook
  raw : Bool
deriving DecidableEq, Repr

/-- The shared item that an opener booked for a tallied frame: tile, start, cc at which the page is done, and its place in
the list of items (R206). -/
structure Shared where
  tile : Nat
  start : Nat
  done : Nat
  item : Nat
deriving DecidableEq, Repr

/-- One frame of the share tally: rows, the requests counted, whether one of them brings a sketch bound, the shared item once booked, and
the rows joined so far with their bound (R205 to R207). -/
structure Tally where
  frame : Nat
  rows : Nat
  reqs : List Nat
  bound : Bool := false
  shared : Option Shared := none
  joined : Nat := 0
  joinedBound : Bool := false
deriving DecidableEq, Repr

/-- A queue entry of a partition's admission queue (R69): request slot, the tick it is queued for, and the order keys
of its arrival (tick, cc, port, connection). -/
structure QEnt where
  req : Nat
  tick : Nat
  at_ : Nat
  cc : Nat
  port : Nat
  conn : Nat
deriving DecidableEq, Repr

/-- TPL state: queues, the plan of the current tick and the counters captured at cc 2,048 (spec/03, spec/07). -/
structure TplBlock where
  queues : SMap (List QEnt) := []
  deficit : SMap Nat := []
  /-- Deficits as the current tick began: carried into it (R92). -/
  carried : SMap Nat := []
  items : List Item := []
  tileBusy : SMap (List Busy) := []
  frmBusy : List Busy := []
  memBusy : SMap (List MemBook) := []
  pims : List PimWin := []
  xfers : List Xfer := []
  gather : SMap (List Occ) := []
  energy : Nat := 0
  admitted : Nat := 0
  lateCnt : Nat := 0
  examined : Nat := 0
  tally : List Tally := []
  tallyOver : Bool := false
  /-- Bytes of the APART payload of each admitted AREQ, as the start-of-tick state gives it (R16). -/
  results : SMap (List Nat) := []
  /-- Requests to complete at this tick's seal point, with their status, in admission order (R120, R129). -/
  sealing : List (Nat × Nat) := []
  /-- Request slots admitted in this tick, in admission order. -/
  order : List Nat := []
  /-- Frames taken at admission for a request, and the context prepared for a CLONE (R115, R120, R121). -/
  taken : SMap (List Nat) := []
  prep : SMap Ctx := []
  /-- The draw counter as the booking lists were written, which their free addresses are drawn from (R349). -/
  draws : Nat := 0
  /-- Request slots with a booked transfer that was discarded, or a SEND or HANDOFF that was refused: their items stay unfinished (R331,
  R350). -/
  lost : List Nat := []
  /-- Requests that the pass found to need pages of tier 2 or 3 (R273). -/
  wantFetch : List Nat := []
  /-- A tick-length or phase-step change to apply the LATE completions of R62 at the next boundary. -/
  renumber : Bool := false
  /-- The plan window of this tick has ended (R91), and its seal point has passed (R68). -/
  planned : Bool := false
  sealed : Bool := false
  /-- The share tally of the next tick has been built (R205). -/
  tallied : Bool := false
deriving DecidableEq, Repr

/-! ### Fen stacks and near-bank units (spec/08) -/

/-- A crown access waiting in a PIM-mode channel's crown queue (R237): its queue (0 read, 1 write), who sent it, its
hold time in sc and when it was raised, in cc since start time. Senders: tile n, 128 + c for the data port of MCX core c (4 a management
burst, 5 Snius), 256 + 16e + 2c + k for reads and 320 + 16e + 2c + k for writes of staging slot k of channel c of Trowel engine e, 511 for
the debug port, 1024 + f for the migrator's copy of frame f. -/
structure CrownReq where
  q : Nat
  src : Nat
  hold : Nat
  raised : Nat
deriving DecidableEq, Repr

/-- A request at the channel arbiter: requester index, sender, raise time in cc since start time and hold time in sc (R242,
R243). -/
structure ArbReq where
  idx : Nat
  src : Nat
  raised : Nat
  hold : Nat
deriving DecidableEq, Repr

/-- A grant in force: requester, start in cc since start time, hold time in sc, whether it is the owner of a booked
interval (R242, R244, R245). -/
structure Grant where
  idx : Nat
  start : Nat
  hold : Nat
  booked : Bool
deriving DecidableEq, Repr

/-- A pseudo-channel (R235 to R245). Its fence bits, mode and flags stand in FEN_CHSTAT. -/
structure Chan where
  ptr : Nat := 0
  cnt : Nat := 0
  /-- Last winner among the sharers of requester 3: 0 the migrator, 1 + e Trowel engine e (R297). -/
  rot : Nat := 0
  crownQ : List CrownReq := []
  waiting : List ArbReq := []
  grant : Option Grant := none
  /-- A transfer that refresh or the debug port interrupted (R244). -/
  resumed : Option Grant := none
deriving DecidableEq, Repr

/-- One row of a segment: row slot, head, position, and the rotated row's words for a raw program (R232). -/
structure SegRow where
  slot : Nat
  head : Nat
  pos : Nat
  q : List F32
deriving DecidableEq, Repr

/-- One page of a segment, with the WAIT time and the tag in force (R230, R232). -/
structure SegPage where
  rowSet : Nat
  countM1 : Nat
  base : Nat
  bound : Bool
  wait : Nat
  tag : Nat
deriving DecidableEq, Repr

/-- A segment being built from commands, or running (R232, R233). `bad` records a command out of its place; `wait` is the
delay before the next page. -/
structure Seg where
  pc : Nat
  code : Nat
  d32 : Nat
  kvh : Nat
  t : Nat
  store : Nat
  sigma : Option F32 := none
  limit : Option Nat := none
  win : Option (Nat × Nat) := none
  rows : List SegRow := []
  pages : List SegPage := []
  wait : Nat := 0
  dest : Option (Nat × Nat) := none
  raw : Bool := false
  bad : Bool := false
  /-- A WAIT or MARK since the last PAGE: a PAGE must follow (R233). -/
  hang : Bool := false
deriving DecidableEq, Repr

/-- A segment that has activated its DIBBERs, with its start sc in the tick and how many of its pages have their records in the exit
buffer (R230). -/
structure SegRun where
  seg : Seg
  start : Nat
  out : Nat := 0
deriving DecidableEq, Repr

/-- DBR state of one stack: the segment under construction, the running segments, the row stores and exit buffers of the
channels, the MARK tag in force, and the running raw program with the commands it has executed (R226, R228, R249, R253).
-/
structure Dbr where
  open_ : Option Seg := none
  runs : List SegRun := []
  /-- Bytes that a mesh transfer has put into row store t of channel p, at key 2p + t (R226). -/
  stores : SMap (List Nat) := []
  /-- Exit records of a channel that wait for their mesh slot, with their tile, request slot and the page's row set (R228). -/
  exits : SMap (List (Nat × Nat × Nat × List Nat)) := []
  tag : Nat := 0
  raw : Option (List SegRun) := none
  rawDone : Nat := 0
deriving DecidableEq, Repr

/-! ### Port B of the peat slices (R322) and Trowel (spec/10) -/

/-- A request for port B of a peat slice: the sender as at a fen channel, with the partner tile's number for its program,
1000 for the patrol; and its raise time in cc since start time (R297, R322). -/
structure PortReq where
  src : Nat
  raised : Nat
deriving DecidableEq, Repr

/-- Port B of a slice: waiting requests, the last winner of the rotation, and the holder with the cc of its grant (R322,
R512). -/
structure PortB where
  waiting : List PortReq := []
  rot : Nat := 0
  holder : Option PortReq := none
deriving DecidableEq, Repr

/-- State of a Trowel channel; WAIT is RUN with a request that awaits its grant (R289). -/
inductive TrwSt where
  | idle | fetch | run | halted
deriving DecidableEq, Repr

/-- A burst in one of a channel's two staging slots (R286, R296): offset in the descriptor, bytes, the data once its read has completed, and
the staging slot, 0 or 1. -/
structure Burst where
  off : Nat
  len : Nat
  data : Option (List Nat)
  slot : Nat
deriving DecidableEq, Repr

/-- A descriptor as fetched (R282). -/
structure Desc where
  src : Nat := 0
  dst : Nat := 0
  len : Nat := 0
  srcWrap : Nat := 0
  dstWrap : Nat := 0
  ctl : Nat := 0
  burst : Nat := 0
  part : Nat := 0
  feed : Nat := 0
deriving DecidableEq, Repr

/-- A Trowel channel (R289): state, descriptor address and fields, bytes issued and bytes written, its bursts, the status
for which it stops, an abort that arrived during a fetch (R291), and the cc since start time, plus 1, of the last start that found it busy. -/
structure TrwCh where
  st : TrwSt := .idle
  addr : Nat := 0
  d : Desc := {}
  issued : Nat := 0
  written : Nat := 0
  bursts : List Burst := []
  stop : Option Nat := none
  abort : Bool := false
  startAt : Nat := 0
deriving DecidableEq, Repr

/-! ### Tiles and mesh (spec/12) -/

/-- State of a tile (R347). -/
inductive TileSt where
  | stopped | measure | armed | running | halted | faulted | isolated
deriving DecidableEq, Repr

/-- What a running tile waits for (R319, R342). -/
inductive Wait where
  /-- WAITCC: wait for the next boundary first, then until CC reaches the value. -/
  | cc (v : Nat) (boundary : Bool)
  /-- RECV into register d from channel c until the deadline. -/
  | recv (d c v : Nat)
  /-- FENCE: block operations and fen accesses outstanding. -/
  | fence
  /-- An access to the partner's slice that awaits port B (R322). -/
  | port (slice : Nat)
deriving DecidableEq, Repr

/-- A block operation in progress on its unit, with the descriptor as read at issue (R343 to R345). -/
structure BlockOp where
  op : Nat
  d : Nat
  acc : Nat
  desc : List Nat
  /-- A store has touched what the operation reads or writes: its result is undefined (R323). -/
  torn : Bool := false
  /-- It holds port B of the partner's slice (R322). -/
  port : Bool := false
deriving DecidableEq, Repr

/-- A fen access of a tile: write flag, fen address, local address, bytes, the data of a write, whether it is a booked
direct write, and the mark of an uncorrectable error met on the way (R248, R334, R337). -/
structure FenOp where
  write : Bool
  fen : Nat
  local_ : Nat
  bytes : Nat
  data : List Nat := []
  direct : Bool := false
  failed : Bool := false
deriving DecidableEq, Repr

/-- A mesh message on VC1: source and destination mesh IDs, channel, tag, payload, and when it was injected, in cc since
start time (R332 to R334). -/
structure Msg where
  src : Nat
  dst : Nat
  chan : Nat
  tag : Nat
  data : List Nat
  since : Nat
deriving DecidableEq, Repr

/-- A booked transfer that a program's SEND sends on VC0: source, destination, receiver address and bytes, with the start of its entry, at
which it is injected, and the request slot that it serves (R334, R350). -/
structure Direct where
  src : Nat
  dst : Nat
  addr : Nat
  data : List Nat
  start : Nat
  slot : Nat
deriving DecidableEq, Repr

/-- A tile (R318 to R353). Registers not listed read zero; CH_SIZE reads 15 where not listed. -/
structure Tile where
  st : TileSt := .stopped
  former : TileSt := .stopped
  stopReq : Bool := false
  mode : Nat := 0
  status : Nat := 0
  pc : Nat := 0
  lastPc : Nat := 0
  g : SMap DWord := []
  v : SMap (List F32) := []
  acc : SMap (List F32) := []
  chBase : SMap Nat := []
  chSize : SMap Nat := []
  chRd : SMap Nat := []
  chWr : SMap Nat := []
  recs : SMap (List Nat) := []
  wait : Option Wait := none
  blocks : List BlockOp := []
  fens : List FenOp := []
  fenStat : Nat := 0
  /-- Messages waiting at injection, and messages on their way to the tile or waiting at its ejection port (R333, R335). -/
  inject : List Msg := []
  eject : List Msg := []
  /-- Since when the message at the front of `eject` has held the ejection port, in cc since start time (R333). -/
  hold : Option Nat := none
deriving DecidableEq, Repr

/-! ### Isgan transport (spec/14, spec/17) -/

/-- State of a key slot (R480). -/
inductive KeySt where
  | empty | live | retired
deriving DecidableEq, Repr

/-- A key slot (R382, R384, R480): its epoch, last transmit counter used, highest authenticated counter H, the window of
received counters (bit i stands for H − i), its job slot and the keys. -/
structure KeySlot where
  st : KeySt := .empty
  epoch : Nat := 0
  txCtr : Nat := 0
  rxHigh : Nat := 0
  seen : Nat := 0
  job : Nat := 0
  conn : Nat := 0
  keys : List Nat := []
deriving DecidableEq, Repr

/-- State of a connection (R386). -/
inductive ConnSt where
  | free | open_ | error
deriving DecidableEq, Repr

/-- Where a message's data goes (R394): a run of staging frames, memory, the fetch of a page into a frame (R271), or nowhere. -/
inductive Dest where
  | stage (addr : Nat)
  | mem (addr : Nat)
  | page (frame : Nat)
  | none
deriving DecidableEq, Repr

/-- A message being received (R388, R393 to R395). `failed` holds its failing status and `counter` the counter of that
failure; `region` the region whose inflight count it raised; `buf` the posted buffer's tag and address; `since` the tick of its
first packet. -/
structure RxMsg where
  msn : Nat
  psn : Nat
  op : Nat
  cls : Nat
  ext : List Nat
  len : Nat
  pkts : Nat
  seg : Nat
  dest : Dest
  since : Nat
  failed : Option Nat := none
  counter : Nat := 0
  region : Option Nat := none
  buf : Option (Nat × Nat) := none
deriving DecidableEq, Repr

/-- Where the payload of a message to send comes from. -/
inductive Src where
  | bytes (l : List Nat)
  | mem (addr : Nat)
deriving DecidableEq, Repr

/-- What a message sent by the node is for, which decides what its completion does (R403, R119, R400, R454, R261, R273).
-/
inductive Use where
  | none
  | wr (q tag : Nat) (record : Bool) (addr : Nat)
  | reply (slot : Nat)
  | readResp (region : Option Nat)
  | forward (slot gen : Nat)
  | move (frame : Nat)
  | fetch (frame : Nat)
deriving DecidableEq, Repr

/-- A message being sent (R380, R391). -/
structure TxMsg where
  op : Nat
  cls : Nat
  ext : List Nat
  len : Nat
  pkts : Nat
  psn : Nat
  msn : Nat
  src : Src
  use : Use
deriving DecidableEq, Repr

/-- A sequenced packet sent or to be sent: its PSN, how often it was sent, whether it waits to be offered to egress, whether
it stands in an egress queue, its last path and when it was last sent, in cc since start time (R391, R392). -/
structure TxPkt where
  psn : Nat
  sends : Nat := 0
  due : Bool := true
  queued : Bool := false
  path : Nat := 0
  at_ : Nat := 0
  acked : Bool := false
deriving DecidableEq, Repr

/-- An unsequenced packet to send: ACK, NAK or HELLO with its extension; a HELLO names its path (R390, R440). -/
structure Ctl where
  op : Nat
  ext : List Nat
  path : Option Nat := none
deriving DecidableEq, Repr

/-- A READ that awaits its response: read_id, local address, length and use (R399, R402). -/
structure ReadSt where
  id : Nat
  addr : Nat
  len : Nat
  use : Use
deriving DecidableEq, Repr

/-- A connection-table entry (R385) with the transport's own state of it. `paths` is the field of the entry, paths − 1. -/
structure Conn where
  st : ConnSt := .free
  gen : Nat := 0
  part : Nat := 0
  paths : Nat := 0
  v4 : Bool := false
  seg : Nat := 0
  peerConn : Nat := 0
  peerNode : Nat := 0
  peerPort : Nat := 0
  peerAddr : Nat := 0
  job : Nat := 0
  txEpoch : Nat := 0
  txPsn : Nat := 0
  rxPsn : Nat := 0
  rate : Nat := 0
  stageMax : Nat := 0
  /-- PSNs received at or above ePSN: bit i stands for ePSN + i (R389). -/
  rx : Nat := 0
  msgs : List RxMsg := []
  /-- MSN and first PSN that the next message delivered must have (R395). -/
  rxMsn : Nat := 0
  rxNext : Nat := 0
  txMsn : Nat := 0
  out : List TxMsg := []
  pkts : List TxPkt := []
  ctl : List Ctl := []
  reads : List ReadSt := []
  readId : Nat := 0
  /-- The partner's latest ePSN, which bounds what may be sent (R389). -/
  txWin : Nat := 0
  /-- Arrivals since the last ACK, when the oldest of them came (cc since start time), and CE marks (R390). -/
  ackCnt : Nat := 0
  ackSince : Option Nat := none
  ce : Nat := 0
  /-- Tick of the last KEY_EPOCH NAK, plus 1 (R383). -/
  nakTick : Nat := 0
  /-- An ACK of this rate-control period carried ce above 0 (R396). -/
  ceSeen : Bool := false
  /-- cc since start time before which a paced packet may not go to egress (R396). -/
  paceAt : Nat := 0
  /-- When the rate-control period under way began, in cc since start time (R396). -/
  ccAt : Nat := 0
  /-- OPEN waits for its keys (R480). -/
  opening : Bool := false
deriving DecidableEq, Repr

/-- A delivered message that awaits its own step: connection word, port, arrival tick and cc, opcode, extension, length
and staging address (R393). -/
structure Delivered where
  conn : Nat
  port : Nat
  tick : Nat
  cc : Nat
  op : Nat
  ext : List Nat
  len : Nat
  addr : Nat
deriving DecidableEq, Repr

/-- A run of staging frames in use (R394): first frame, count, connection word, and the request slot that keeps it. -/
structure Stage where
  first : Nat
  n : Nat
  conn : Nat
  slot : Option Nat
deriving DecidableEq, Repr

/-- A reply that falls due: connection word, opcode, extension, payload and the request slot it completes (R412). -/
structure Due where
  conn : Nat
  op : Nat
  ext : List Nat
  payload : List Nat
  slot : Option Nat
deriving DecidableEq, Repr

/-- A key derivation under way: connection word, epoch, whether it opens the connection, and the cc since start time at which SCX ends it
(R480). -/
structure Derive where
  conn : Nat
  epoch : Nat
  opens : Bool
  due : Nat := 0
deriving DecidableEq, Repr

/-- A retirement in progress (R484): the partition, its next key slot and the slots left. -/
structure Retire where
  part : Nat
  first : Nat
  left : Nat
deriving DecidableEq, Repr

/-- A job slot (R478): its partition, job ID and master key. -/
structure JobSlot where
  valid : Bool := false
  part : Nat := 0
  id : Nat := 0
  key : List Nat := []
deriving DecidableEq, Repr

/-- ITP and KEY state. -/
structure ItpBlock where
  conns : SMap Conn := []
  /-- Key slots: slot 2i + (e mod 2) of connection i (R480). -/
  keys : SMap KeySlot := []
  inbox : List Delivered := []
  stages : List Stage := []
  held : List Due := []
  derives : List Derive := []
  /-- Job slots (R478). -/
  jobs : SMap JobSlot := []
  /-- KEY_CMD commands that wait for the derivations under way: op and target (R501). -/
  keyCmds : List (Nat × Nat) := []
deriving DecidableEq, Repr

/-! ### Fabric (spec/16) -/

/-- A request forwarded to a mirror, or one that a mirror holds for a primary (R454 to R456): request slot and
generation, context slot, the primary's status and ran once they are known, the mirror's, and the tick of the primary's
seal point. -/
structure Fwd where
  slot : Nat
  gen : Nat
  ctx : Nat
  own : Option (Nat × Nat)
  far : Option (Nat × Nat)
  sealTick : Nat
  sent : Bool
  /-- The primary's own ADONE waits for the mirror's (R456). -/
  waits : Bool
deriving DecidableEq, Repr

/-- A lane of the snapshot in progress (R459): lane, source frame, snapshot frame, length, copied. -/
structure SnapLane where
  lane : Nat
  src : Nat
  dst : Nat
  len : Nat
  copied : Bool
deriving DecidableEq, Repr

/-- A snapshot in progress or kept for firmware (R453, R459). -/
structure Snap where
  slot : Nat
  gen : Nat
  tick : Nat
  taken : Bool
  lanes : List SnapLane
deriving DecidableEq, Repr

/-- An imported MIGRATE: request slot, frames taken, whether the service copy has ended (R410). -/
structure Import where
  req : Nat
  frames : List Nat
  copied : Bool
deriving DecidableEq, Repr

/-- FAB state (spec/16). -/
structure FabBlock where
  /-- A flip has taken place since device reset, the replaced epoch and the tick of the last flip (R447, R448). -/
  flipped : Bool := false
  /-- A flip at this boundary whose queued requests are still to be judged (R450, R533). -/
  flipNow : Bool := false
  ePrev : Nat := 0
  flipTick : Nat := 0
  /-- Forwarded requests at a primary (R454); and, at a mirror, forward-pool slots in use with the forwarded req_id that
  each serves (R455). -/
  fwds : List Fwd := []
  pool : List (Nat × Nat) := []
  parked : List QEnt := []
  snap : Option Snap := none
  imports : List Import := []
  /-- Ticks for which holdover has stayed on, and the node not serving (R464). -/
  holdTicks : Nat := 0
  notServing : Bool := false
  /-- Ticks since the last HELLO probes, echo counter, and rotation of the healthy path probed (R444). -/
  helloTicks : Nat := 0
  echo : Nat := 0
  rot : Nat := 0
  /-- Probe periods without a HELLO reply, per peer node (R465). -/
  missed : SMap Nat := []
  /-- Paths that their port keeps out of use, at 16 × node + path (R442). -/
  portDown : List Nat := []
deriving DecidableEq, Repr

/-! ### RIDDLE (spec/11) -/

/-- An entry of the prefix index (R300). -/
structure RdlEnt where
  valid : Bool := false
  shared : Bool := false
  key : Nat := 0
  len : Nat := 0
  part : Nat := 0
  handle : Nat := 0
  n : Nat := 0
  check : Nat := 0
  lastHit : Nat := 0
  hits : Nat := 0
  /-- An uncorrectable error was met in it: it matches nothing until it is rewritten (R506). -/
  dead : Bool := false
deriving DecidableEq, Repr

/-- An INSERT or DELETE in the command queue, with its operands as issued (R307). -/
structure RdlCmd where
  core : Nat
  insert : Bool
  part : Nat
  key : Nat
  len : Nat
  shared : Bool
  handle : Nat
  n : Nat
  check : Nat
  /-- The cc of its issue, since start time. -/
  issued : Nat
deriving DecidableEq, Repr

/-- What the checks and placement of the command in front come to (R308, R309): its status, whether it found an equal entry, the position of
its insertion, replacement or deletion, and the entries that its shift moves. -/
structure RdlPlan where
  status : Nat
  found : Bool
  pos : Nat
  moves : Nat
deriving DecidableEq, Repr

/-- A lookup whose result is on its way: its port (0 to 3 an MCX core, 4 the CTX), the entry found with its position, and
for the CTX port the CLONE that asked; and the cc of its compare, since start time (R305, R313). -/
structure RdlLook where
  port : Nat
  found : Option (Nat × RdlEnt)
  clone : Option Delivered
  issued : Nat
deriving DecidableEq, Repr

/-- RDL state. `ents` is the table as it stands between commands; what a shift in progress shows of it follows from `start`, the cc since start
time at which the command in front began, and `plan`, what its checks came to (R310). -/
structure RdlBlock where
  ents : SMap RdlEnt := []
  cmds : List RdlCmd := []
  start : Nat := 0
  plan : Option RdlPlan := none
  looks : List RdlLook := []
deriving DecidableEq, Repr

/-! ### Egress (spec/15) -/

/-- What an egress frame carries: a sequenced packet of a connection word, an unsequenced one, or a slot of the control transmit
ring, by its free-running index (R362, R420). -/
inductive EgKind where
  | pkt (conn psn : Nat)
  | ctl (conn : Nat)
  | ring (slot : Nat)
deriving DecidableEq, Repr

/-- A frame in an egress queue: bytes with FCS, when it entered, in cc since start time (R421, R422), what it is, the path of
an ITP packet, and its bytes from the destination MAC through the payload, as they go on the wire (R360, R377, R381). -/
structure EgFrame where
  bytes : Nat
  enq : Nat
  kind : EgKind
  path : Nat
  out : List Nat
deriving DecidableEq, Repr

/-- A frame on the wire: its queue, start and end in cc since start time, the node time of its start, and whether its FCS goes out
inverted (R368, R422, R506). -/
structure OnWire where
  q : Nat
  ts : Nat
  start : Nat
  fin : Nat
  frame : EgFrame
  spoilt : Bool := false
deriving DecidableEq, Repr

/-- A port's egress state (R429). -/
structure Port where
  queues : SMap (List EgFrame) := []
  deficit : SMap Nat := []
  turn : SMap Nat := []
  ptr : Nat := 0
  wire : Option OnWire := none
deriving DecidableEq, Repr

/-! ### Network time (spec/13) -/

/-- What the spec of spec/13 keeps beside its registers. Node time at start time t0 in units of 125 ps; the slew in progress:
what remained of it, in units of 125 ps × 10^9 × 2^8, at a cc since start time; when the last PTP event message of the slave port was
punted, plus 1; the last PPS_IN edge that was accepted and the last that was seen, plus 1; the seconds that qualify PPS_IN so
far with the last of them; the windows that qualify SYNC_IN so far; the PPS_OUT pin with its last rise. -/
structure PtpBlock where
  base : Int := 0
  slewNeg : Bool := false
  slewRem : Nat := 0
  slewAt : Nat := 0
  lastMsg : Nat := 0
  accepted : Nat := 0
  edge : Nat := 0
  ppsGood : Nat := 0
  ppsSec : Nat := 0
  syncGood : Nat := 0
  ppsOut : Bool := false
  rise : Nat := 0
  /-- Second of the last accepted PPS_IN edge, which a read of PTP_PPS_TS_NS latches (R375). -/
  edgeSec : Nat := 0
  /-- When node time was last stepped, plus 1, with the base before the steps of that cc (R371). -/
  stepAt : Nat := 0
  stepBase : Int := 0
  /-- The level at which PPS_IN was last found stuck (R370). -/
  stuckHigh : Bool := false
deriving DecidableEq, Repr

/-! ### Time (spec/03) -/

/-- PRT state (spec/17): partitions whose COMMIT waits for the boundary, in command order, and the frames made device-owned so far
by each partition's reset (R485, R487). -/
structure PrtBlock where
  commits : List Nat := []
  kept : SMap Nat := []
  /-- Retirements of key slots in progress, in command order (R484, R489). -/
  retiring : List Retire := []
deriving DecidableEq, Repr

/-! ### Lifecycle, start-up and self-test (spec/17 to spec/20) -/

/-- An image of a QSPI slot (R490): whether its signature verifies and its kind fits its position, its svn and its measurement as
a little-endian number. -/
structure Image where
  ok : Bool := true
  svn : Nat := 0
  digest : Nat := 0
deriving DecidableEq, Repr

/-- What survives a device reset beside the fuses that registers show: the boot record (R525), the images, image k of slot n at key
3n + k, and the repairs blown into fuses, as (memory kind, address) (R519). -/
structure NvBlock where
  recordOk : Bool := true
  preferred : Nat := 0
  tries : Nat := 0
  images : SMap Image := []
  repairs : List (Nat × Nat) := []
deriving DecidableEq, Repr

/-- Where a report or an answer goes: a memory address, a management session, or the serial line. -/
inductive Wants where
  | mem (addr : Nat)
  | session (id : Nat)
  | serial
deriving DecidableEq, Repr

/-- A token submitted for acceptance: its 252 bytes and who submitted it (R495, R496). -/
structure Submitted where
  bytes : List Nat
  from_ : Wants
deriving DecidableEq, Repr

/-- A report that awaits its signature (R498, R499): the bytes sampled and where it goes. -/
structure ReportJob where
  bytes : List Nat
  dest : Wants
deriving DecidableEq, Repr

/-- LCS and ATT state: the node is held in boot ROM (R491, R494), t0 has passed since the last reset of the pins, scopes unlocked
(R494), what the attestation key was derived from (R493), tokens and reports in progress. -/
structure LcsBlock where
  rom : Bool := false
  started : Bool := false
  unlock : Nat := 0
  akFrom : List Nat := []
  tokens : List Submitted := []
  reports : List ReportJob := []
deriving DecidableEq, Repr

/-- BST state (spec/18): the patrol's next 64-bit word and the words it has read in this tick (R507); start of the logic self-test
slice in cc since t0 (R513); the memory command in progress, its kind and the cc since t0 of its end (R517, R519); the repairable
failures of the last run; and the repairs that last until device reset. -/
structure BstBlock where
  pos : Nat := 0
  words : Nat := 0
  lbAt : Nat := 0
  mbOp : Nat := 0
  mbKind : Nat := 0
  mbDue : Nat := 0
  repairable : List (Nat × Nat) := []
  soft : List (Nat × Nat) := []
deriving DecidableEq, Repr

/-- PWR state (spec/20) beside its registers: sensors at or above the trip limit in the last sample; the cc since t0 of a trip; the node
held in reset by a trip (R559); failing samples in a row of each rail (R552); voltage of the core rail in units of 0.5 mV, last AVS step plus 1
and refused transactions in a row (R553); FAULT_N low from outside, node times of its falls in the last second, and when it last went high
plus 1 (R560, R561). -/
structure PwrBlock where
  hot : List Nat := []
  trip : Option Nat := none
  hold : Bool := false
  rails : SMap Nat := []
  vcore : Nat := 1500
  avsAt : Nat := 0
  refused : Nat := 0
  low : Bool := false
  falls : List Nat := []
  highAt : Nat := 0
deriving DecidableEq, Repr

/-- SYS state: when a software reset was asked for (R532) and when the MCX watchdog was last kicked or armed (R541), in cc since
t0. -/
structure SysBlock where
  resetAt : Option Nat := none
  kickAt : Nat := 0
deriving DecidableEq, Repr

/-! ### Requesters: MCX cores, management sessions and Snius (spec/02, spec/17, spec/19) -/

/-- A word access to fen that waits for its channel (R45, R223): who made it (0 to 3 the data port of an MCX core, 4 a management burst, 5
Snius), write, address, the word to write, and whether it has found room in the crown queue (R237). -/
structure DpwHeld where
  core : Nat
  write : Bool
  addr : Nat
  value : Nat
  asked : Bool
deriving DecidableEq, Repr

/-- Words of a management burst or of a Snius command that are still to be accessed: the address of the next one, the words to write or how
many to read, those read so far with their addresses, how many are done, and the index of a word with an uncorrectable error. -/
structure WordRun where
  write : Bool
  addr : Nat
  todo : List Nat
  read : List (Nat × Nat) := []
  done : Nat := 0
  bad : Option Nat := none
deriving DecidableEq, Repr

/-- A management burst that waits for a fen channel (R45, R50): its request, level and words. -/
structure BurstHeld where
  head : MgtHead
  level : Nat
  run : WordRun
deriving DecidableEq, Repr

/-- How a Snius command prints what it has read (R537): address and value of each word, or the bytes in address order. -/
inductive Shows where
  | words | bytes
deriving DecidableEq, Repr

/-- An SPDM response (R475): the message, with the contents that the spec gives it. -/
inductive Spdm where
  | version
  | capabilities
  | algorithms
  | digests
  | certificate
  | challengeAuth
  | measurements (index : Nat) (value : List Nat)
  | keyExchangeRsp (rspSession : Nat)
  | finishRsp
  | endSessionAck
  | chunkSendAck
  | chunkResponse
  | vendor (bytes : List Nat)
  | unsupportedRequest
  | sessionLimitExceeded
  | error
deriving DecidableEq, Repr

/-- A management response (R49): opcode, session, seq, status, entries or words done and the values read, or an SPDM message. -/
structure Resp where
  op : Nat
  session : Nat
  seq : Nat
  status : Nat
  done : Nat
  values : List Nat
  spdm : Option Spdm
deriving DecidableEq, Repr

/-- A source on the open session (R474): address and UDP port, last seq accepted plus 1 and its response. -/
structure OpenSrc where
  src : Nat
  seq : Nat
  resp : Option Resp
deriving DecidableEq, Repr

/-- A secured session (R475, R476): its identifier, the level once FINISH has completed it (0 owner, 1 + p supervisor of p), last seq
accepted plus 1 and its response, when a frame last verified in cc since t0, and its export secret. -/
structure Sess where
  id : Nat
  level : Option Nat
  seq : Nat
  resp : Option Resp
  heard : Nat
  secret : List Nat
deriving DecidableEq, Repr

/-- Management sessions: open sources, most recently heard first (R474), secured sessions (R475), and the last response sent on any
port. -/
structure MgtBlock where
  opens : List OpenSrc := []
  sessions : List Sess := []
  sent : Option Resp := none
  /-- The bytes of that response after the UDP header (R46). -/
  wire : List Nat := []
  /-- A burst that waits for a fen channel (R45). -/
  burst : Option BurstHeld := none
deriving DecidableEq, Repr

/-- The serial line: status of the last Snius command, the numbers it printed (R535, R537), and a command that waits for a fen channel with
the way it prints (R45). -/
structure UartBlock where
  status : Nat := 0
  out : List Nat := []
  job : Option (WordRun × Shows) := none
deriving DecidableEq, Repr

/-- Where the node stands in time: whether the tick counter runs, the tick and cc, the tick length in force in units of
5 ns, one accepted but not yet in force, and core cycles since start time t0 (R59 to R62, R522). -/
structure Time where
  running : Bool := false
  tick : Nat := 0
  cc : Nat := 0
  len5 : Nat := 40000
  lenNext : Option Nat := none
  up : Nat := 0
deriving DecidableEq, Repr


/-- What an event carries besides its block and bit (R52). `part` is the partition of a partition-scoped event. -/
structure EvInfo where
  status : Nat := 0
  part : Option Nat := none
  flt : Bool := false
  i0 : Nat := 0
  i1 : Nat := 0
  i2 : Nat := 0
deriving DecidableEq, Repr

/-- An event with the cc since start time in which it came: the base address of its block's registers, its bit, and whether
the bit rose with it (R34). -/
structure Seen where
  up : Nat
  blk : Nat
  bit : Nat
  info : EvInfo
  rose : Bool
deriving DecidableEq, Repr

/-- A fault with the cc since start time in which it came, and whether it found no fault recorded (R509). -/
structure SeenFlt where
  up : Nat
  blk : Nat
  code : Nat
  part : Option Nat
  i0 : Nat
  i1 : Nat
  kept : Bool
deriving DecidableEq, Repr

/-- The state of the node. -/
structure State where
  /-- Commands waiting, first in, first out. -/
  pending : List Instr
  /-- Bytes of peat, crown SRAM and fen by physical location; a byte not listed reads 0 (R255, R526). -/
  mem : List Host.Cell := []
  /-- Control-space words by address; a word not listed reads its reset value (R8, R20). -/
  regs : SMap Nat := []
  /-- Written RWT values that await the next boundary (R39). -/
  rwt : SMap Nat := []
  /-- Latched high words of 64-bit reads, at requester × 2^26 + address; the value plus 1 (R21). -/
  latch : SMap Nat := []
  /-- Staged high words of 64-bit writes, by address; the value plus 1 (R21). -/
  stage : SMap Nat := []
  /-- Per ring (0 device, 1 + p partition p): records offered, and 65,536 more when lost_before is due (R52, R55). -/
  ringAux : SMap Nat := []
  /-- Events of the current cc, for a W1C write in that cc (R34). -/
  seen : List Seen := []
  /-- Faults of the current cc (R509). -/
  seenFlt : List SeenFlt := []
  time : Time := {}
  ctx : CtxBlock := {}
  frm : FrmBlock := {}
  tpl : TplBlock := {}
  /-- Pseudo-channel p of stack n at key 32n + p. -/
  chans : SMap Chan := []
  dbrs : SMap Dbr := []
  /-- Port B of peat slice n. -/
  portB : SMap PortB := []
  /-- Trowel channel c of engine e at key 8e + c. -/
  trw : SMap TrwCh := []
  /-- Feed records that RAKn has produced and not yet delivered (R287, R432). -/
  feeds : SMap (List (List Nat)) := []
  tiles : SMap Tile := []
  direct : List Direct := []
  /-- The poison list (R508). -/
  poison : List Nat := []
  itp : ItpBlock := {}
  fab : FabBlock := {}
  prt : PrtBlock := {}
  rdl : RdlBlock := {}
  /-- NVMe commands under way, and the bifurcation in force of PCI0 and PCI1 (R265, R279). -/
  drive : List DriveCmd := []
  /-- Fen stacks whose training runs (R526). -/
  training : List Nat := []
  bifurc : SMap Nat := []
  /-- Ports at port index 8 × instance + sub-port (R356). -/
  ports : SMap Port := []
  /-- Frames punted by each port in this tick (R359). -/
  punts : SMap Nat := []
  ptp : PtpBlock := {}
  /-- Slots of a control transmit ring that have been handed over, past RD: ring 0 ETH, 1 and 2 MGT0 and MGT1 (R362). -/
  txGiven : SMap Nat := []
  /-- Node time, plus 1, at which the frame of a slot of ring 0 began on the wire, by the slot's free-running index, once its last byte has
  left and until it is written back (R362, R368). -/
  txDone : SMap Nat := []
  /-- ETH_MODE.media in force of each ETH instance (R358). -/
  ethMedia : SMap Bool := []
  /-- ETH_MODE.mode in force of each ETH instance (R358). -/
  ethMode : SMap Nat := []
  /-- Egress buffer bytes in use of each RAK (R421). -/
  egBuf : SMap Nat := []
  /-- When a frame last left each RAK's egress buffer, in cc since start time plus 1, and the bytes that left in that cc (R421). -/
  egLeft : SMap (Nat × Nat) := []
  /-- When each RAK last sampled its queues, in cc since start time plus 1 (R432). -/
  telAt : SMap Nat := []
  nv : NvBlock := {}
  lcs : LcsBlock := {}
  bst : BstBlock := {}
  pwr : PwrBlock := {}
  sys : SysBlock := {}
  mgt : MgtBlock := {}
  uart : UartBlock := {}
  /-- Data-port accesses that wait for a fen channel (R45). -/
  dpw : List DpwHeld := []
  /-- The value that each MCX core's last read returned (R20, R43). -/
  ret : SMap Nat := []
  /-- Device resets taken since State.reset; random initial values after them are free (R526, R531). -/
  boot : Nat := 0
  /-- The model's own counter of free values drawn. -/
  fresh : Nat := 0
deriving DecidableEq, Repr

/-- Why a step stops with a fault. No command of the node stops it: every error that the spec describes is a status, a count, an event or a
fault record, and the node goes on. The type has no constructor. Safe: nothing raises it. -/
inductive Fault where
deriving DecidableEq, Repr

/-- Why a step is refused. -/
inductive Refusal where
  /-- The command has no meaning in the model yet. Raised by Dispatch only. Safe. -/
  | notModelled (mnemonic : String)
deriving DecidableEq, Repr

/-- The node right after device reset (R8, R531): every register at its reset value, no context, request, connection,
key or job, and no command waiting. -/
def State.reset : State := { pending := [] }

end Sys2Proof.Machine
end

