-- ==== Sys2Proof/Machine/Ops.lean ====
section
/-!
DEFINITION. The named operations over registers, memory and time that every family of commands uses: reading and
writing a register word and its fields, saturating counters, bytes of the internal address space, and the tables that
stand in peat (spec/02, spec/04, spec/08, spec/09).
-/

namespace Sys2Proof.Machine

/-! ### Status codes (R58) -/

def stOK : Nat := 0x00
def stLATE : Nat := 0x01
def stSTALE_MAP : Nat := 0x02
def stNO_FRAME : Nat := 0x03
def stREVOKED : Nat := 0x04
def stBAD_GEN : Nat := 0x05
def stKEY_EPOCH : Nat := 0x06
def stSIZE_MISMATCH : Nat := 0x07
def stCTX_LOST : Nat := 0x08
def stNOT_OWNER : Nat := 0x09
def stQUOTA : Nat := 0x0A
def stMALFORMED : Nat := 0x0B
def stCANCELLED : Nat := 0x0C
def stPART_RESET : Nat := 0x0D
def stCRC : Nat := 0x0E
def stAUTH : Nat := 0x0F

/-! ### Registers -/

/-- The raw value of a register word. -/
def State.rg (s : State) (a : Nat) : Nat := SMap.get s.regs (regReset a) a

/-- Set the raw value of a register word. -/
def State.setRg (s : State) (a v : Nat) : State :=
  { s with regs := SMap.set s.regs (regReset a) a (v % 2 ^ 32) }

/-- A field of a register word. -/
def State.fld (s : State) (a hi lo : Nat) : Nat := bitsOf (s.rg a) hi lo

/-- Set a field of a register word. -/
def State.setFld (s : State) (a hi lo v : Nat) : State := s.setRg a (putBits (s.rg a) hi lo v)

/-- One bit of a register word. -/
def State.bit (s : State) (a k : Nat) : Bool := bitOf (s.rg a) k

/-- Raise a counter that saturates at 0xFFFF_FFFF. -/
def State.countBy (s : State) (a n : Nat) : State := s.setRg a (min (s.rg a + n) 0xFFFFFFFF)

/-- Raise a saturating counter by one. -/
def State.count (s : State) (a : Nat) : State := s.countBy a 1

/-- A 64-bit register from its two words (R21). -/
def State.rg64 (s : State) (lo : Nat) : Nat := s.rg lo + 2 ^ 32 * s.rg (lo + 4)

/-- Set a 64-bit register's two words. -/
def State.setRg64 (s : State) (lo v : Nat) : State := (s.setRg lo v).setRg (lo + 4) (v / 2 ^ 32)

/-- Effective en of a block instance (R29, R31): SYS, LCS and KEY read 1. -/
def State.en (s : State) (b : Blk) (n : Nat) : Bool := s.bit (Reg.BLK_CTL b n) 0

/-- Halted by halt_on_fault: the block accepts no new work while a fault is recorded (R29, R31). -/
def State.halted (s : State) (b : Blk) (n : Nat) : Bool :=
  s.bit (Reg.BLK_CTL b n) 1 && s.bit (Reg.BLK_FLT b n) 8

/-- 16 cc after a trip the clocks of the tiles, the DIBBERs and the fen controllers stop (R559). -/
def State.clocksStopped (s : State) : Bool :=
  match s.pwr.trip with
  | none => false
  | some t => decide (t + 16 ≤ s.time.up)

/-- The block is one whose clock a trip stops (R559). -/
def Blk.tripStops (b : Blk) : Bool := b == .til || b == .dbr || b == .fen

/-- The block takes new work: enabled, not halted on a fault, and its clock running (R29, R30, R559). -/
def State.up (s : State) (b : Blk) (n : Nat) : Bool := s.en b n && !s.halted b n && !(b.tripStops && s.clocksStopped)

/-- The block's RWL fields ignore writes (R37, R38). -/
def State.locked (s : State) (b : Blk) (n : Nat) : Bool := s.bit (Reg.BLK_LOCK b n) 0

/-! ### Address ranges (R255) -/

def peatBase : Nat := 0x100000000
def crownBase : Nat := 0x200000000
def gatherBase0 : Nat := 0x20C000000
def crownEnd : Nat := 0x218000000
def fenBase : Nat := 0x10000000000
def fenEnd : Nat := 0x20000000000
def nvmeBase : Nat := 0x40000000000
def nvmeEnd : Nat := 0x50000000000
def ctxTableBase : Nat := 0x1F9000000
def reqTableBase : Nat := 0x1FA000000

def inPeat (a : Nat) : Bool := decide (peatBase ≤ a) && decide (a < crownBase)
def inCrown (a : Nat) : Bool := decide (crownBase ≤ a) && decide (a < crownEnd)
def inFen (a : Nat) : Bool := decide (fenBase ≤ a) && decide (a < fenEnd)
def inNvme (a : Nat) : Bool := decide (nvmeBase ≤ a) && decide (a < nvmeEnd)
/-- Peat or crown SRAM: where rings and descriptors may lie. -/
def inSram (a : Nat) : Bool := decide (peatBase ≤ a) && decide (a < crownEnd)
/-- Peat, crown SRAM or fen: what the data port and management bursts reach (R44). -/
def inMem (a : Nat) : Bool := inSram a || inFen a

/-- Base of tile n's private crown SRAM and of its gather buffer; both are 0x18_0000 bytes (R255). -/
def privBase (n : Nat) : Nat := crownBase + n * 0x180000
def gatherBase (n : Nat) : Nat := gatherBase0 + n * 0x180000
/-- Base of tile n's peat slice (R255). -/
def sliceBase (n : Nat) : Nat := peatBase + n * 0x2000000

/-- The tile whose private code region or booking area an address lies in, with the offset (R321). -/
def privRegion (a : Nat) : Option (Nat × Nat) :=
  if crownBase ≤ a ∧ a < gatherBase0 then some ((a - crownBase) / 0x180000, (a - crownBase) % 0x180000) else none

/-! ### Bytes -/

/-- The stored byte at a physical location. -/
def State.cell (s : State) (a : Nat) : Nat := (SMap.get s.mem (0#8) a).toNat

/-- Store a byte at a physical location. -/
def State.setCell (s : State) (a v : Nat) : State :=
  { s with mem := SMap.set s.mem (0#8) a (BitVec.ofNat 8 v) }

/-- The layout key of the fen frame whose physical base is `b`: the geometry where it is valid (R220). -/
def fenKey (s : State) (b : Nat) : Option Geo :=
  let g : Geo := ⟨s.cell (b + 1), 32 * s.cell (b + 2), s.cell (b + 3), s.cell (b + 4) + 256 * s.cell (b + 5)⟩
  if s.cell b = 1 ∧ g.t ≠ 0 ∧ pageLen g.code g.d g.kvh = g.t then some g else none

/-- Position within the frame's 64 KiB of banks (2,048 bytes per pair) of frame offset `o` (R219, R221, R222). -/
def fenPlace (key : Option Geo) (o : Nat) : Nat :=
  if o < 1024 then o / 32 * 2048 + o % 32
  else match key with
    | none => (o - 1024) / 2016 * 2048 + 32 + (o - 1024) % 2016
    | some g =>
      let kr := g.t * g.kvh * (g.d / 32) * elemBits g.code / 8
      let sr := if hasScale g.code then g.t * g.kvh * (g.d / 32) / 32 else 0
      let z := 2016 - 2 * kr - 2 * sr
      let p := o - 1024
      if p < 32 * kr then p / kr * 2048 + 32 + p % kr
      else if p < 64 * kr then (p - 32 * kr) / kr * 2048 + 32 + kr + (p - 32 * kr) % kr
      else if p < 64 * kr + 32 * sr then (p - 64 * kr) / sr * 2048 + 32 + 2 * kr + (p - 64 * kr) % sr
      else if p < 64 * kr + 64 * sr then
        (p - 64 * kr - 32 * sr) / sr * 2048 + 32 + 2 * kr + sr + (p - 64 * kr - 32 * sr) % sr
      else (p - 64 * kr - 64 * sr) / z * 2048 + 32 + 2 * kr + 2 * sr + (p - 64 * kr - 64 * sr) % z

/-- The physical location of an internal address: fen bytes lie on their bank pairs (R218 to R223). -/
def physOf (s : State) (a : Nat) : Nat :=
  if inFen a then
    let b := a - a % 65536
    b + fenPlace (fenKey s b) (a % 65536)
  else a

/-! ### The context and request tables in peat (R97, R117) -/

def ctxStCode : CtxSt → Nat
  | .free => 0
  | .active => 1
  | .lost => 2

def reqStCode : ReqSt → Nat
  | .free => 0
  | .queued => 1
  | .admitted => 2
  | .done => 3

def frStCode : FrSt → Nat
  | .free => 0
  | .data => 1
  | .table => 2
  | .scrub => 3
  | .copyDst => 4
  | .reserved => 5
  | .retired => 6

/-- A number built from (value, bytes) fields, little-endian. -/
def packLE : List (Nat × Nat) → Nat
  | [] => 0
  | (v, n) :: r => v % 256 ^ n + 256 ^ n * packLE r

/-- `n` bytes at byte offset `o` of a little-endian number. -/
def unpackLE (x o n : Nat) : Nat := x / 256 ^ o % 256 ^ n

/-- Initial generation of a slot: drawn at each device reset (R526); 0 at State.reset. -/
def initGen (boot kind slot : Nat) : Nat := if boot = 0 then 0 else (Config.initialGen boot kind slot).toNat % 256

/-- The default entry of a context slot: FREE at its initial generation. -/
def State.ctxDef (s : State) (slot : Nat) : Ctx := { gen := initGen s.boot 0 slot }
/-- The default entry of a request slot. -/
def State.reqDef (s : State) (slot : Nat) : Req := { gen := initGen s.boot 1 slot }

def State.ctxAt (s : State) (slot : Nat) : Ctx := SMap.get s.ctx.ctxs (s.ctxDef slot) slot
def State.reqAt (s : State) (slot : Nat) : Req := SMap.get s.ctx.reqs (s.reqDef slot) slot
def State.setCtx (s : State) (slot : Nat) (c : Ctx) : State :=
  { s with ctx := { s.ctx with ctxs := SMap.set s.ctx.ctxs (s.ctxDef slot) slot c } }
def State.setReq (s : State) (slot : Nat) (r : Req) : State :=
  { s with ctx := { s.ctx with reqs := SMap.set s.ctx.reqs (s.reqDef slot) slot r } }

/-- A context handle (R94). -/
def mkHandle (part gen slot : Nat) : Nat := part % 64 * 2 ^ 26 + gen % 256 * 2 ^ 18 + slot % 2 ^ 18
def hSlot (h : Nat) : Nat := h % 2 ^ 18
def hGen (h : Nat) : Nat := bitsOf h 25 18
def hPart (h : Nat) : Nat := bitsOf h 31 26
/-- A request ID (R94). -/
def mkReqId (gen slot : Nat) : Nat := gen % 256 * 2 ^ 20 + slot % 2 ^ 20
def rSlot (i : Nat) : Nat := i % 2 ^ 20
def rGen (i : Nat) : Nat := bitsOf i 27 20

/-- The handle a context entry shows: a FREE entry's holds partition 0 (R97). -/
def ctxHandle (c : Ctx) (slot : Nat) : Nat := mkHandle (if c.st = .free then 0 else c.part) c.gen slot

def frameDef (f : Nat) : Frame :=
  if 63744 ≤ f ∧ f < 65536 then { st := .reserved, owner := 64 } else {}
def State.frame (s : State) (f : Nat) : Frame := SMap.get s.frm.frames (frameDef f) f
def State.setFrame (s : State) (f : Nat) (d : Frame) : State :=
  { s with frm := { s.frm with frames := SMap.set s.frm.frames (frameDef f) f d } }

/-- Data frames whose descriptors name a context (R97, offset 48). -/
def ctxFrames (s : State) (slot gen : Nat) : Nat :=
  (s.frm.frames.filter fun kv => decide (kv.2.st = .data) && decide (0 < kv.2.refs) && kv.2.slot == slot && kv.2.gen == gen).length

/-- Little-endian number of `n` stored bytes of a table in plain memory. -/
def State.cellLE (s : State) (a n : Nat) : Nat := leBytes s.cell a n

/-- Lanes a context holds on this node (R99). -/
def Ctx.lanes (c : Ctx) : Nat := c.layerCount * c.groupCount

/-- Address of a lane record (R102). -/
def laneRec (c : Ctx) (lane : Nat) : Nat := c.laneArray + 32 * lane

/-- Lanes of a context in append-starved state (R97, offset 28). -/
def ctxStarved (s : State) (c : Ctx) : Nat :=
  if c.st = .free then 0
  else ((List.range c.lanes).filter fun l => bitOf (s.cellLE (laneRec c l) 4) 25).length

/-- The 64 bytes of a context-table entry (R97). -/
def ctxToNat (s : State) (slot : Nat) : Nat :=
  let c := s.ctxAt slot
  if c.st = .free then packLE [(ctxHandle c slot, 4), (0, 60)]
  else packLE [(ctxHandle c slot, 4), (ctxStCode c.st, 1), (c.code, 1), (c.d32, 1), (c.kvh, 1), (c.t, 2),
    (c.layerFirst, 2), (c.layerCount, 2), (c.groupFirst, 2), (c.groupCount, 2), (c.hint, 1),
    (b2n c.mirror + 2 * b2n c.shareOk, 1), (recipT c.t, 4), (c.maxLen, 4), (ctxStarved s c, 4), (c.seed, 8),
    (c.laneArray, 8), (ctxFrames s slot c.gen, 4), (0, 12)]

/-- The context entry that 64 bytes spell. -/
def ctxOfNat (x : Nat) : Ctx :=
  let st := unpackLE x 4 1
  { st := if st = 1 then .active else if st = 2 then .lost else .free
    gen := hGen (unpackLE x 0 4), part := hPart (unpackLE x 0 4), code := unpackLE x 5 1, d32 := unpackLE x 6 1
    kvh := unpackLE x 7 1, t := unpackLE x 8 2, layerFirst := unpackLE x 10 2, layerCount := unpackLE x 12 2
    groupFirst := unpackLE x 14 2, groupCount := unpackLE x 16 2, hint := unpackLE x 18 1
    mirror := bitOf (unpackLE x 19 1) 0, shareOk := bitOf (unpackLE x 19 1) 1, maxLen := unpackLE x 24 4
    seed := unpackLE x 32 8, laneArray := unpackLE x 40 8 }

/-- The 96 bytes of a request-table entry (R117). -/
def reqToNat (s : State) (slot : Nat) : Nat :=
  let r := s.reqAt slot
  packLE [(mkReqId r.gen slot + 2 ^ 28 * reqStCode r.st, 4), (r.handle, 4), (r.kind, 1), (r.status, 1),
    (b2n r.late + 2 * b2n r.cancel, 2), (r.conn, 4), (r.target, 8), (r.ran, 8), (r.epoch, 4), (r.arrival, 4),
    (r.charge, 4), (r.layer, 2), (r.count, 2), (r.position, 4), (0, 4), (r.payload, 8), (r.bytes, 4), (0, 4),
    (r.params, 24)]

/-- The request entry that 96 bytes spell. -/
def reqOfNat (x : Nat) : Req :=
  let st := bitsOf (unpackLE x 0 4) 31 28
  { st := if st = 1 then .queued else if st = 2 then .admitted else if st = 3 then .done else .free
    gen := rGen (unpackLE x 0 4), handle := unpackLE x 4 4, kind := unpackLE x 8 1, status := unpackLE x 9 1
    late := bitOf (unpackLE x 10 2) 0, cancel := bitOf (unpackLE x 10 2) 1, conn := unpackLE x 12 4
    target := unpackLE x 16 8, ran := unpackLE x 24 8, epoch := unpackLE x 32 4, arrival := unpackLE x 36 4
    charge := unpackLE x 40 4, layer := unpackLE x 44 2, count := unpackLE x 46 2, position := unpackLE x 48 4
    payload := unpackLE x 56 8, bytes := unpackLE x 64 4, params := unpackLE x 72 24 }

/-- The byte an address reads as: table entries where the context and request tables stand, else the stored byte. -/
def State.byte (s : State) (a : Nat) : Nat :=
  if ctxTableBase ≤ a ∧ a < reqTableBase then
    unpackLE (ctxToNat s ((a - ctxTableBase) / 64)) ((a - ctxTableBase) % 64) 1
  else if reqTableBase ≤ a ∧ a < crownBase then
    unpackLE (reqToNat s ((a - reqTableBase) / 96)) ((a - reqTableBase) % 96) 1
  else s.cell (physOf s a)

/-- Replace one byte of a little-endian number. -/
def putByte (x o v : Nat) : Nat := putBits x (8 * o + 7) (8 * o) v

/-- Write one byte at an internal address. -/
def State.setByte (s : State) (a v : Nat) : State :=
  if ctxTableBase ≤ a ∧ a < reqTableBase then
    let slot := (a - ctxTableBase) / 64
    s.setCtx slot (ctxOfNat (putByte (ctxToNat s slot) ((a - ctxTableBase) % 64) v))
  else if reqTableBase ≤ a ∧ a < crownBase then
    let slot := (a - reqTableBase) / 96
    s.setReq slot (reqOfNat (putByte (reqToNat s slot) ((a - reqTableBase) % 96) v))
  else s.setCell (physOf s a) v

/-- Little-endian number of `n` bytes at an internal address. -/
def State.readLE (s : State) (a n : Nat) : Nat := leBytes s.byte a n

/-- The bytes of a range. -/
def State.readBytes (s : State) (a n : Nat) : List Nat := (List.range n).map fun i => s.byte (a + i)

/-- Write a run of bytes at rising addresses. -/
def State.writeBytes (s : State) (a : Nat) : List Nat → State
  | [] => s
  | b :: bs => (s.setByte a b).writeBytes (a + 1) bs

/-- Write a little-endian number of `n` bytes. -/
def State.writeLE (s : State) (a n v : Nat) : State := s.writeBytes a (toLE n v)

/-- A new free value: the counter advances (open values of the spec). -/
def State.draw (s : State) : State := { s with fresh := s.fresh + 1 }

/-- The free value that the current draw number names, cut to `w` bits. -/
def State.free (s : State) (w : Nat) : Nat := (Config.freeValue s.fresh).toNat % 2 ^ w

def State.tile (s : State) (n : Nat) : Tile := SMap.get s.tiles {} n

/-- A writer other than the planner is refused at a private crown SRAM address: the booking area always, the code region unless
the tile is STOPPED, HALTED or FAULTED (R321). -/
def privRefused (s : State) (a : Nat) : Bool :=
  match privRegion a with
  | some (n, o) =>
    let ts := (s.tile n).st
    if o < 0x20000 then !(ts == .stopped || ts == .halted || ts == .faulted) else decide (o < 0x40000)
  | none => false

/-- A run of bytes meets an address at which another writer than the planner is refused (R321). -/
def rangeRefused (s : State) (a n : Nat) : Bool := decide (0 < n) && (privRefused s a || privRefused s (a + n - 1))

/-- The node writes bytes for anyone but a tile's own program and the planner: where R321 refuses them, nothing is written. -/
def State.putBytes (s : State) (a : Nat) (l : List Nat) : State := if rangeRefused s a l.length then s else s.writeBytes a l
def State.putLE (s : State) (a n v : Nat) : State := s.putBytes a (toLE n v)
def State.putByte (s : State) (a v : Nat) : State := if privRefused s a then s else s.setByte a v

/-- Free values in place of `n` bytes at an address whose contents no rule gives. -/
def freeFill (s : State) (a n : Nat) : State :=
  (List.range n).foldl (fun s k => (s.putByte (a + k) (s.free 8)).draw) s

/-! ### Time -/

/-- Tick length in cc: 1.6 × L ns, 8 cc per 5 ns unit (R60). -/
def State.lcc (s : State) : Nat := 8 * s.time.len5

/-- The seal distance S that the planner uses (R66): odd values round up, out-of-range values go to the nearer limit. -/
def State.sealS (s : State) : Nat :=
  let v := s.fld Reg.TPL_SEAL 23 0
  max 4096 (min (s.lcc - 4096) (v + v % 2))

/-- `n` core cycles of the clock. -/
def State.clock (s : State) (n : Nat) : State :=
  { s with time := { s.time with up := s.time.up + n, cc := if s.time.running then s.time.cc + n else s.time.cc } }

/-- µs since start time t0 (R541): 1,600 cc per µs. -/
def State.uptimeUs (s : State) : Nat := s.time.up / 1600

end Sys2Proof.Machine
end

