-- ==== Sys2Proof/Machine/Flags.lean ====
section
/-!
DEFINITION. Event bits, event records and rings, and fault capture: the flag computations every block shares (R32 to
R36, R52 to R57).
-/

namespace Sys2Proof.Machine

/-! ### Event records and rings (R52 to R57) -/

/-- Base address of a ring's register set: the device ring (0), or partition r − 1's (R53). -/
def ringSet (r : Nat) : Nat := if r = 0 then Reg.SYS_RING_BASE_LO else Reg.PRT_RING_BASE_LO (r - 1)

/-- log2 of a ring's entries: 6 to 16, other values act as 6 (R53). -/
def ringLog2 (s : State) (r : Nat) : Nat :=
  let k := s.fld (ringSet r + 8) 4 0
  if 6 ≤ k ∧ k ≤ 16 then k else 6

/-- The 32 bytes of an event record (R52). -/
def recordBytes (s : State) (page bit seq : Nat) (lost : Bool) (e : EvInfo) : List Nat :=
  let pre := !s.time.running
  let flags := e.part.getD 0 % 64 + b2n e.part.isSome * 64 + b2n e.flt * 128 + b2n lost * 256 + b2n pre * 512
  toLE 2 page ++ [bit, e.status] ++ toLE 2 seq ++ toLE 2 flags ++ toLE 8 (if pre then 0 else s.time.tick)
    ++ toLE 4 (if pre then s.uptimeUs else s.time.cc) ++ toLE 4 e.i0 ++ toLE 4 e.i1 ++ toLE 4 e.i2

/-- A record's contents in another record's place of the ring, whose seq and lost_before belong to the place (R55, R57). -/
def recordAt (place new : List Nat) : List Nat :=
  new.take 4 ++ (place.drop 4).take 2 ++ [new.getD 6 0, new.getD 7 0 / 2 * 2 + place.getD 7 0 % 2] ++ new.drop 8

/-- Two records of one ring carry the same tick and cc (or µs), and the later one comes from the lower page (R57). -/
def recordsSwap (old new : List Nat) : Bool :=
  (old.drop 8).take 12 == (new.drop 8).take 12 && old.getD 7 0 / 2 % 2 == new.getD 7 0 / 2 % 2
    && decide (new.getD 0 0 + 256 * new.getD 1 0 < old.getD 0 0 + 256 * old.getD 1 0)

/-- The record with counter `wr` moves in front of the unread records of its cc that higher pages posted (R57); at most as many places as
the last argument. -/
def ringSort (s : State) (addr k wr : Nat) : Nat → State
  | 0 => s
  | n + 1 =>
    let prev := (wr + 2 ^ 32 - 1) % 2 ^ 32
    let a := addr + 32 * (wr % 2 ^ k)
    let b := addr + 32 * (prev % 2 ^ k)
    let new := s.readBytes a 32
    let old := s.readBytes b 32
    if recordsSwap old new then
      ringSort ((s.putBytes b (recordAt old new)).putBytes a (recordAt new old)) addr k prev n
    else s

/-- Offer one record to a ring: written in its place among the records of its cc, or dropped and counted, and its seq value taken either
way (R54, R55, R57). In a full ring a record of this cc from a higher page gives way to it. -/
def ringPost (s : State) (r page bit : Nat) (e : EvInfo) : State :=
  let base := ringSet r
  let aux := SMap.get s.ringAux 0 r
  let seq := aux % 65536
  let lost := decide (65536 ≤ aux)
  let k := ringLog2 s r
  let addr := s.rg64 base
  let wr := s.rg (base + 0x0C)
  let used := (wr + 2 ^ 32 - s.rg (base + 0x10)) % 2 ^ 32
  let size := 32 * 2 ^ k
  let ok := s.bit (base + 8) 8 && inSram addr && decide (addr % size = 0)
  let new := recordBytes s page bit seq lost e
  if ok && decide (used < 2 ^ k) then
    let s1 := ringSort (s.putBytes (addr + 32 * (wr % 2 ^ k)) new) addr k wr used
    let s2 := s1.setRg (base + 0x0C) (wr + 1)
    { s2 with ringAux := SMap.set s2.ringAux 0 r ((seq + 1) % 65536) }
  else
    let last := (wr + 2 ^ 32 - 1) % 2 ^ 32
    let at_ := addr + 32 * (last % 2 ^ k)
    let s0 := if ok && decide (used = 2 ^ k) && recordsSwap (s.readBytes at_ 32) new then
        ringSort (s.putBytes at_ (recordAt (s.readBytes at_ 32) new)) addr k last (used - 1)
      else s
    let s1 := s0.count (base + 0x14)
    { s1 with ringAux := SMap.set s1.ringAux 0 r ((seq + 1) % 65536 + 65536) }

/-- Post a record where its scope sends it (R56). -/
def postRecord (s : State) (page bit : Nat) (e : EvInfo) : State :=
  match e.part with
  | none => ringPost s 0 page bit e
  | some p =>
    let s1 := ringPost s (1 + p) page bit e
    if s.bit (Reg.PRT_RING_CFG p) 9 then ringPost s1 0 page bit e else s1

/-- Note an event of this cc for a W1C write of the same cc (R34); what an earlier cc has seen is forgotten. -/
def noteEvent (s : State) (x : Seen) : State := { s with seen := x :: s.seen.filter fun y => y.up == s.time.up }

/-- An event of kind `bit` in a block: the bit is set, and one record is posted on a 0-to-1 change while enabled
(R33). -/
def event (s : State) (b : Blk) (n bit : Nat) (e : EvInfo) : State :=
  let a := Reg.BLK_EVT b n
  let s0 := noteEvent s ⟨s.time.up, b.base n, bit, e, !s.bit a bit⟩
  if s.bit a bit then s0
  else
    let s1 := s0.setFld a bit bit 1
    if s.bit (Reg.BLK_EVT_EN b n) bit then postRecord s1 (b.page + n) bit e else s1

/-- Bits of BLK_EVT that a W1C write of `v` has just cleared in the cc of their event end set; an event that came while its
bit was set counts as a 0-to-1 change (R34). -/
def evtStays (s : State) (b : Blk) (n v : Nat) : State :=
  let mine := s.seen.reverse.filter fun x => x.up == s.time.up && x.blk == b.base n && bitOf v x.bit
  mine.foldl (fun s x =>
    if s.bit (Reg.BLK_EVT b n) x.bit then s
    else if mine.any fun y => y.bit == x.bit && y.rose then s.setFld (Reg.BLK_EVT b n) x.bit x.bit 1
    else event s b n x.bit x.info) s

/-- A device-scoped event without detail. -/
def event0 (s : State) (b : Blk) (n bit : Nat) : State := event s b n bit {}

/-! ### Faults (R35, R36) -/

/-- The BLK_FLT word of a fault just recorded (R35). -/
def faultWord (code : Nat) (part : Option Nat) : Nat :=
  code % 256 + 256 + (if part.isSome then 1024 + part.getD 0 % 64 * 65536 else 0)

/-- BLK_FLT and its detail take a fault (R35, R36). -/
def faultPut (s : State) (b : Blk) (n code : Nat) (part : Option Nat) (i0 i1 : Nat) : State :=
  ((s.setRg (Reg.BLK_FLT b n) (faultWord code part)).setRg (Reg.BLK_FLT_INFO0 b n) i0).setRg (Reg.BLK_FLT_INFO1 b n) i1

/-- Record a fault: the first unacknowledged one is kept, a further one sets overflow (R35, R36), and of two in one cc the
lower code is the one recorded (R509); valid going to 1 is event bit 0 (R32). -/
def fault (s : State) (b : Blk) (n code : Nat) (part : Option Nat) (i0 i1 : Nat) : State :=
  let a := Reg.BLK_FLT b n
  let now := s.seenFlt.filter fun x => x.up == s.time.up
  let s0 := { s with seenFlt := ⟨s.time.up, b.base n, code, part, i0, i1, !s.bit a 8⟩ :: now }
  if s.bit a 8 then
    let s1 := if now.any fun x => x.blk == b.base n && x.kept && decide (code < x.code) then faultPut s0 b n code part i0 i1 else s0
    s1.setFld a 9 9 1
  else
    event (faultPut s0 b n code part i0 i1) b n 0
      { part := part, flt := true, i0 := i0 % 2 ^ 32, i1 := i1 % 2 ^ 32, i2 := faultWord code part }

/-- A W1C write has just cleared valid: the faults of the same cc are recorded after the clear (R509). -/
def fltStays (s : State) (b : Blk) (n : Nat) : State :=
  let mine := s.seenFlt.reverse.filter fun x => x.up == s.time.up && x.blk == b.base n
  mine.foldl (fun s x => fault s b n x.code x.part x.i0 x.i1) { s with seenFlt := s.seenFlt.filter fun x => !(x.up == s.time.up && x.blk == b.base n) }

/-- An uncorrectable word met in peat or crown SRAM is counted (R504); fen keeps its own counters (R248). -/
def uncorr (s : State) (a : Nat) : State :=
  if inPeat a then s.count Reg.BST_PEAT_UNCORR else if inCrown a then s.count Reg.BST_CROWN_UNCORR else s

end Sys2Proof.Machine
end

