-- ==== Sys2Proof/Machine/RegBase.lean ====
section
/-!
DEFINITION. Writing a register word under its fields' access codes, without the effects that a block attaches to the write
(R7, R20, R21, R37 to R41).
-/

namespace Sys2Proof.Machine

/-- What a write of `v` leaves in one field of a word `old` that takes effect immediately (R7). -/
def Fld.put (locked : Bool) (f : Fld) (old v : Nat) : Nat :=
  match f.acc with
  | .rw => putBits old f.hi f.lo (bitsOf v f.hi f.lo)
  | .rwl => if locked then old else putBits old f.hi f.lo (bitsOf v f.hi f.lo)
  | .w1c => putBits old f.hi f.lo (Nat.land (bitsOf old f.hi f.lo) (2 ^ (f.hi + 1 - f.lo) - 1 - bitsOf v f.hi f.lo))
  | _ => old

/-- What a write of `v` leaves in one field that waits for the boundary (R7). -/
def Fld.putT (f : Fld) (old v : Nat) : Nat :=
  match f.acc with
  | .rwt => putBits old f.hi f.lo (bitsOf v f.hi f.lo)
  | _ => old

/-- The pending value of a word's RWT fields; its current value where none is pending (R39). -/
def State.pendWord (s : State) (a : Nat) : Nat :=
  let p := SMap.get s.rwt 0 a
  if p = 0 then s.rg a else p - 1

/-- The write is ignored in an RWL field of a locked block: locked_write (R38). -/
def lockStops (s : State) (a : Nat) : Bool :=
  match regRow a with
  | none => false
  | some (b, n, _, r) => s.locked b n && r.flds.any fun f => decide (f.acc = .rwl)

/-- Put the fields of a word that waits for the boundary into force (R39, R40). -/
def rwtPlain (s : State) (a : Nat) : State :=
  let p := SMap.get s.rwt 0 a
  if p = 0 then s
  else match regRow a with
    | none => s
    | some (_, _, _, r) =>
      let s1 := { s with rwt := SMap.set s.rwt 0 a 0 }
      s1.setRg a (r.flds.foldl (fun old f => f.putT old (p - 1)) (s.rg a))

/-- A write of one defined word: RW, RWL and W1C fields change at once, RWT fields are held (R7, R38, R39). -/
def wordWrite (s : State) (a v : Nat) : State :=
  match regRow a with
  | none => s
  | some (b, n, _, r) =>
    let s0 := if lockStops s a then event0 s b n 1 else s
    let s1 := s0.setRg a (r.flds.foldl (fun old f => f.put (s.locked b n) old v) (s0.rg a))
    if r.flds.any fun f => decide (f.acc = .rwt) then
      { s1 with rwt := SMap.set s1.rwt 0 a (r.flds.foldl (fun old f => f.putT old v) (s0.pendWord a) + 1) }
    else s1

end Sys2Proof.Machine
end

