-- ==== Sys2Proof/Machine/Grants.lean ====
section
/-!
DEFINITION. Requests for shared units: accesses that wait at a fen channel (R237, R242) and at port B of a peat slice
(R322), how the sharers of one requester take turns (R297), and how a request is withdrawn.
-/

namespace Sys2Proof.Machine

def State.chan (s : State) (n p : Nat) : Chan := SMap.get s.chans {} (32 * n + p)
def State.setChan (s : State) (n p : Nat) (c : Chan) : State :=
  { s with chans := SMap.set s.chans {} (32 * n + p) c }
def State.pb (s : State) (n : Nat) : PortB := SMap.get s.portB {} n
def State.setPb (s : State) (n : Nat) (b : PortB) : State := { s with portB := SMap.set s.portB {} n b }

def State.setTile (s : State) (n : Nat) (t : Tile) : State := { s with tiles := SMap.set s.tiles {} n t }

/-- The channel is in PIM mode (R235). -/
def chanPim (s : State) (n p : Nat) : Bool := s.bit (Reg.FEN_CHSTAT n p) 6

/-- Hold time of a transfer of `b` bytes in sc (R223). -/
def holdOf (b : Nat) : Nat := max 1 (ceilDiv b 96)

/-- The stack and channel of a fen address. -/
def addrStack (a : Nat) : Nat := (a - fenBase) / 2 ^ 37 % 8
def addrPc (a : Nat) : Nat := (a - fenBase) / 2 ^ 32 % 32

/-- Place of a sender in the rotation of requester 3: 0 the migrator, 1 + e Trowel engine e (R297). -/
def sharer (src : Nat) : Nat := if 1024 ≤ src then 0 else 1 + (src - 256) % 64 / 16

/-- The winner among the sharers of requester 3: they take turns after the last winner; within an engine the longest waiter
goes first, and equal waits go to the lower channel (R297). -/
def rotWinner (rot : Nat) (rs : List PortReq) : Option PortReq :=
  ((List.range 5).map fun i => (rot + 1 + i) % 5).findSome? fun i =>
    let mine := rs.filter fun r => sharer r.src == i
    mine.foldl (fun best r => match best with
      | none => some r
      | some b => if r.raised < b.raised ∨ (r.raised = b.raised ∧ i ≠ 0 ∧ r.src / 2 % 8 < b.src / 2 % 8) then some r else best) none

/-- The crown queues of a channel hold 64 accesses: no further one finds room (R237). -/
def crownFull (s : State) (n p : Nat) : Bool :=
  decide (64 ≤ (s.chan n p).crownQ.length + ((s.chan n p).waiting.filter (·.idx ≤ 1)).length)

/-- An access of requester `q` reaches a channel: crown queue accesses (0 and 1) are held there in PIM mode; every other
request waits at the arbiter (R237, R242). -/
def fenRequest (s : State) (n p q src bytes : Nat) : State :=
  let c := s.chan n p
  if chanPim s n p ∧ q ≤ 1 then
    let s1 := (s.count (Reg.FEN_HELD n)).setFld (Reg.FEN_CHSTAT n p) 22 16 (min 64 (c.crownQ.length + 1))
    s1.setChan n p { c with crownQ := c.crownQ ++ [⟨q, src, holdOf bytes, s.time.up⟩] }
  else s.setChan n p { c with waiting := c.waiting ++ [⟨q, src, s.time.up, holdOf bytes⟩] }

/-- A word access of `who` to fen waits for its channel, in the crown queue where that has room (R45, R237). -/
def dpwHold (s : State) (who : Nat) (write : Bool) (a v : Nat) : State :=
  let n := addrStack a
  let p := addrPc a
  let full := crownFull s n p
  let s1 := if full then s else fenRequest s n p (b2n write) (128 + who) 4
  { s1 with dpw := s1.dpw ++ [⟨who, write, a, v, !full⟩] }

/-- Word accesses that found a channel's crown queue full enter it, oldest first, once an entry has drained (R237). -/
def dpwEnter (s : State) (n p : Nat) : State :=
  match s.dpw.find? fun h => !h.asked && addrStack h.addr == n && addrPc h.addr == p with
  | none => s
  | some h =>
    if crownFull s n p then s
    else
      let s1 := fenRequest s n p (b2n h.write) (128 + h.core) 4
      { s1 with dpw := s1.dpw.map fun x => if x == h then { x with asked := true } else x }

/-- A sender's access still waits on a channel, in the crown queue or at the arbiter. -/
def fenPending (s : State) (n p src : Nat) : Bool :=
  (s.chan n p).crownQ.any (·.src == src) || (s.chan n p).waiting.any (·.src == src)

/-- A request is raised for port B of a slice (R322). -/
def portRequest (s : State) (n src : Nat) : State :=
  s.setPb n { s.pb n with waiting := (s.pb n).waiting ++ [⟨src, s.time.up⟩] }

/-- The slice of a peat address. -/
def sliceOf (a : Nat) : Nat := (a - peatBase) / 0x2000000

/-- The patrol scrubber as a user of port B; the migrator's copy, or the fetch, of frame f is user 1024 + f. -/
def patrolSrc : Nat := 1000

/-- A sender that is not the partner tile's program raises its request for the unit behind an address, where the unit has
an arbiter. -/
def memRequest (s : State) (a src bytes : Nat) : State :=
  if inPeat a then portRequest s (sliceOf a) src
  else if inFen a then fenRequest s (addrStack a) (addrPc a) 3 src bytes
  else s

/-- A tile gives up what it holds of port B of its partner's slice, and what it asks of it. -/
def portDrop (s : State) (n : Nat) : State :=
  let m := Nat.xor n 1
  let b := s.pb m
  s.setPb m { b with waiting := b.waiting.filter (·.src != n), holder := if b.holder.any (·.src == n) then none else b.holder }

/-- A faulted tile stops issuing and abandons its unit work and the messages and booked transfers that it has not injected (R352). -/
def tileDown (s : State) (n : Nat) : State :=
  let t := s.tile n
  let s1 := portDrop s n
  { s1.setTile n { t with st := .faulted, wait := none, blocks := [], inject := [] } with
    direct := s.direct.filter fun x => x.src != n || decide (x.start ≤ s.time.cc) }

/-- How many requests of a sender still wait for the unit behind an address. -/
def memWaiting (s : State) (a src : Nat) : Nat :=
  if inPeat a then ((s.pb (sliceOf a)).waiting.filter (·.src == src)).length
  else if inFen a then ((s.chan (addrStack a) (addrPc a)).waiting.filter (·.src == src)).length
  else 0

/-- Withdraw the requests of a sender that still wait for the unit behind an address. -/
def memWithdraw (s : State) (a src : Nat) : State :=
  if inPeat a then
    let b := s.pb (sliceOf a)
    s.setPb (sliceOf a) { b with waiting := b.waiting.filter (·.src != src) }
  else if inFen a then
    let c := s.chan (addrStack a) (addrPc a)
    s.setChan (addrStack a) (addrPc a) { c with waiting := c.waiting.filter (·.src != src) }
  else s

/-- A sender's access at the unit behind an address has ended: port B is free again. A channel's hold runs out by itself. -/
def memRelease (s : State) (a src : Nat) : State :=
  if inPeat a then
    let b := s.pb (sliceOf a)
    if b.holder.any (·.src == src) then s.setPb (sliceOf a) { b with holder := none } else s
  else s

end Sys2Proof.Machine
end

