-- ==== Sys2Proof/Machine/Frames.lean ====
section
/-!
DEFINITION. Frames, free lists, table space and page tables (R102 to R115, R136, R137, R257): the frame allocator's and
page walker's operations.
-/

namespace Sys2Proof.Machine

/-! ### Frame locations -/

/-- Location number of a frame: 0 to 65,535 peat, 65,536 onward fen (R111). -/
def State.loc (s : State) (f : Nat) : Nat := SMap.get s.frm.locs (f + 1) f - 1

/-- Set a frame's location number. -/
def State.setLoc (s : State) (f l : Nat) : State :=
  { s with frm := { s.frm with locs := SMap.set s.frm.locs (f + 1) f (l + 1) } }

/-- Tier of a location: 0 peat, 1 fen. -/
def locTier (l : Nat) : Nat := if l < 65536 then 0 else 1

/-- Address of a location (R218, R255). -/
def locAddr (l : Nat) : Nat := if l < 65536 then peatBase + 65536 * l else fenBase + 65536 * (l - 65536)

/-- Tier of a frame. -/
def State.frTier (s : State) (f : Nat) : Nat := locTier (s.loc f)

/-- Address of a frame. -/
def State.frAddr (s : State) (f : Nat) : Nat := locAddr (s.loc f)

/-- Stack, pseudo-channel and row set of a fen location (R218). -/
def locStack (l : Nat) : Nat := (l - 65536) / 2097152 % 8
def locPc (l : Nat) : Nat := (l - 65536) / 65536 % 32
def locRow (l : Nat) : Nat := (l - 65536) % 65536

/-- Frames in all: 65,536 peat and 16,777,216 fen (R14). -/
def frameCount : Nat := 16842752

/-- Zero the 64 KiB of a location. -/
def zeroLoc (s : State) (l : Nat) : State :=
  let a := locAddr l
  { s with mem := s.mem.filter fun kv => decide (kv.1 < a) || decide (a + 65536 ≤ kv.1) }

/-- Copy all bytes of one location to another, in frame-offset order (R223, R261). -/
def copyLoc (s : State) (src dst : Nat) : State :=
  let bs := s.readBytes (locAddr src) 65536
  (zeroLoc s dst).writeBytes (locAddr dst) bs

/-! ### Free lists and counts (R114, R136) -/

def State.freeList (s : State) (p t : Nat) : Runs := SMap.get s.frm.free [] (2 * p + t)
def State.setFreeList (s : State) (p t : Nat) (q : Runs) : State :=
  { s with frm := { s.frm with free := SMap.set s.frm.free [] (2 * p + t) q } }
def State.pool (s : State) (t : Nat) : Runs := if t = 0 then s.frm.poolPeat else s.frm.poolFen
def State.setPool (s : State) (t : Nat) (q : Runs) : State :=
  if t = 0 then { s with frm := { s.frm with poolPeat := q } } else { s with frm := { s.frm with poolFen := q } }

/-- FRM_PHELD_p: frames of partition p in any state but FREE (R138). -/
def State.held (s : State) (p : Nat) : Nat :=
  (s.frm.frames.filter fun kv => kv.2.owner == p && decide (kv.2.st ≠ .free)).length

/-- Free frames of partition p on both lists. -/
def State.freeCnt (s : State) (p : Nat) : Nat := (s.freeList p 0).size + (s.freeList p 1).size

/-- Link a FREE frame to the tail of its owner's list for its location's tier (R112, R136). -/
def linkFree (s : State) (f owner : Nat) : State :=
  let t := s.frTier f
  let s1 := s.setFrame f (frameDef f)
  if owner < 64 then s1.setFreeList owner t ((s1.freeList owner t).push f 1)
  else s1.setPool t ((s1.pool t).push f 1)

/-- The frame whose bytes lie at a location (R107). -/
def frameAt (s : State) (l : Nat) : Nat :=
  match s.frm.locs.find? fun kv => kv.2 == l + 1 with
  | some kv => kv.1
  | none => l

/-- Put a frame on the poison list; when it is full the list says so (R508). -/
def poisonAdd (s : State) (f : Nat) : State :=
  if s.poison.contains f then s
  else if 1024 ≤ s.poison.length then event0 (s.setFld Reg.BST_POISON_CNT 31 31 1) .bst 0 7
  else { s with poison := s.poison ++ [f] }

/-- A frame enters SCRUB, or RETIRED where it is poisoned (R112, R508). -/
def toScrub (s : State) (f : Nat) : State :=
  let d := s.frame f
  if s.poison.contains f then
    { s.setFrame f { st := .retired, owner := d.owner } with poison := s.poison.filter (· != f) }
  else s.setFrame f { st := .scrub, owner := d.owner }

/-- The first failing condition of R114 for one frame of partition p in one of the tiers `ts`, in order; the copy-on-write
allowance lifts the reserve. -/
def takeStatus (s : State) (p : Nat) (ts : List Nat) (cow : Bool) : Nat :=
  if s.fld (Reg.FRM_PQUOTA p) 24 0 < s.held p + 1 then stQUOTA
  else if !cow && decide (s.freeCnt p ≤ s.fld (Reg.FRM_PRES p) 24 0) then stNO_FRAME
  else if ts.all fun t => (s.freeList p t).isEmpty then stNO_FRAME
  else stOK

/-- Take one frame for partition p under R114: the state with it held in state `st`, and its number; or the status. -/
def takeFrame (s : State) (p : Nat) (ts : List Nat) (cow : Bool) (st : FrSt) : Except Nat (State × Nat) :=
  let c := takeStatus s p ts cow
  if c ≠ stOK then .error c
  else match ts.find? fun t => !(s.freeList p t).isEmpty with
    | none => .error stNO_FRAME
    | some t => match Runs.head? (s.freeList p t) with
      | none => .error stNO_FRAME
      | some f =>
        let s1 := s.setFreeList p t (Runs.tail (s.freeList p t))
        .ok (s1.setFrame f { st := st, owner := p }, f)

/-- Take several frames, all or nothing (R115): each request is (tiers, allowance, state). -/
def takeFrames (s : State) (p : Nat) : List (List Nat × Bool × FrSt) → Except Nat (State × List Nat)
  | [] => .ok (s, [])
  | (ts, cow, st) :: r =>
    match takeFrame s p ts cow st with
    | .error e => .error e
    | .ok (s1, f) => match takeFrames s1 p r with
      | .error e => .error e
      | .ok (s2, fs) => .ok (s2, f :: fs)

/-- A refusal under R114: quota_hit for QUOTA, the NO_FRAME counter for NO_FRAME (R138, R567). -/
def refuseFrames (s : State) (p status handle : Nat) : State :=
  if status = stQUOTA then
    event s .frm 0 3 { status := stQUOTA, part := some p, i0 := handle, i1 := s.held p }
  else if status = stNO_FRAME then s.count (Reg.FRM_PNOFRAME p)
  else s

/-! ### Reference counts (R112) -/

/-- Raise a frame's count by one; at 0xFFFF it is pinned (R112). -/
def incRef (s : State) (f : Nat) : State :=
  let d := s.frame f
  if d.refs ≥ 0xFFFF then s
  else
    let s1 := s.setFrame f { d with refs := d.refs + 1 }
    if d.refs + 1 = 0xFFFF then event s1 .frm 0 7 { i0 := f, i1 := d.owner } else s1

/-- Lower a frame's count by one; a pinned frame keeps it, and a frame lowered to 0 enters SCRUB (R112). -/
def decRef (s : State) (f : Nat) : State :=
  let d := s.frame f
  if d.refs ≥ 0xFFFF ∨ d.refs = 0 then s
  else if d.refs = 1 then toScrub s f
  else s.setFrame f { d with refs := d.refs - 1 }

/-- The first page-table entry naming a frame is written: DATA with count 1 and its first owner (R111, R112). -/
def frameFirst (s : State) (f slot gen page lane : Nat) : State :=
  s.setFrame f { s.frame f with st := .data, refs := 1, slot := slot, gen := gen, page := page, lane := lane,
                                migLock := false }

/-! ### Page-table entries (R106) -/

/-- A page-table entry. -/
structure Pte where
  frame : Nat
  tier : Nat
  valid : Bool
  cow : Bool
  skValid : Bool
  countM1 : Nat
  hint : Nat
deriving DecidableEq, Repr

def Pte.toNat (e : Pte) : Nat :=
  e.frame % 2 ^ 32 + e.tier % 4 * 2 ^ 32 + b2n e.valid * 2 ^ 34 + b2n e.cow * 2 ^ 35 + b2n e.skValid * 2 ^ 36
    + e.countM1 % 1024 * 2 ^ 37 + e.hint % 8 * 2 ^ 47

def Pte.ofNat (x : Nat) : Pte :=
  ⟨bitsOf x 31 0, bitsOf x 33 32, bitOf x 34, bitOf x 35, bitOf x 36, bitsOf x 46 37, bitsOf x 49 47⟩

/-! ### Lane records (R102) -/

def laneLen (s : State) (c : Ctx) (lane : Nat) : Nat := bitsOf (s.readLE (laneRec c lane) 4) 24 0
def laneStarved (s : State) (c : Ctx) (lane : Nat) : Bool := bitOf (s.readLE (laneRec c lane) 4) 25
def laneCow (s : State) (c : Ctx) (lane : Nat) : Bool := bitOf (s.readLE (laneRec c lane) 4) 26
def laneHint (s : State) (c : Ctx) (lane : Nat) : Nat := bitsOf (s.readLE (laneRec c lane) 4) 29 27
def laneDir (s : State) (c : Ctx) (lane : Nat) : Nat := bitsOf (s.readLE (laneRec c lane + 4) 4) 23 0
def lanePages (s : State) (c : Ctx) (lane : Nat) : Nat := bitsOf (s.readLE (laneRec c lane + 8) 4) 19 0
def laneDirs (s : State) (c : Ctx) (lane : Nat) : Nat := bitsOf (s.readLE (laneRec c lane + 8) 4) 27 20 + 1
def laneLast (s : State) (c : Ctx) (lane : Nat) : Nat := s.readLE (laneRec c lane + 12) 4

/-- Write bits [hi:lo] of the 32-bit word at an address. -/
def putWord (s : State) (a hi lo v : Nat) : State := s.writeLE a 4 (putBits (s.readLE a 4) hi lo v)

def setLaneLen (s : State) (c : Ctx) (lane v : Nat) : State := putWord s (laneRec c lane) 24 0 v
def setLaneStarved (s : State) (c : Ctx) (lane : Nat) (b : Bool) : State := putWord s (laneRec c lane) 25 25 (b2n b)
def setLaneCow (s : State) (c : Ctx) (lane : Nat) (b : Bool) : State := putWord s (laneRec c lane) 26 26 (b2n b)
def setLaneHint (s : State) (c : Ctx) (lane v : Nat) : State := putWord s (laneRec c lane) 29 27 v
def setLanePages (s : State) (c : Ctx) (lane v : Nat) : State := putWord s (laneRec c lane + 8) 19 0 v
def setLaneLast (s : State) (c : Ctx) (lane v : Nat) : State := s.writeLE (laneRec c lane + 12) 4 v

/-- Address of a granule (R104). -/
def granAddr (g : Nat) : Nat := peatBase + 256 * g

/-- The directory entry that maps a page of a lane (R106). -/
def dirEntry (s : State) (c : Ctx) (lane e : Nat) : Nat := s.readLE (granAddr (laneDir s c lane) + 8 * e) 8

/-- Address of a page-table entry, where the directory holds a leaf for it (R106). -/
def pteAddr (s : State) (c : Ctx) (lane page : Nat) : Nat :=
  granAddr (bitsOf (dirEntry s c lane (page / 8192)) 23 0) + 8 * (page % 8192)

/-- A page-table entry of a lane; not valid where the directory entry is not (R106). -/
def pteAt (s : State) (c : Ctx) (lane page : Nat) : Pte :=
  if bitOf (dirEntry s c lane (page / 8192)) 32 then Pte.ofNat (s.readLE (pteAddr s c lane page) 8)
  else Pte.ofNat 0

/-- Write a page-table entry; the lane record keeps a copy of the last page's frame (R102). -/
def setPte (s : State) (c : Ctx) (lane page : Nat) (e : Pte) : State :=
  let s1 := s.writeLE (pteAddr s c lane page) 8 e.toNat
  if page + 1 = lanePages s1 c lane then setLaneLast s1 c lane e.frame else s1

/-- The effective hint of a page's own hint in a lane (R257): the entry's, else the lane's, else the context's. -/
def effHint (s : State) (c : Ctx) (lane own : Nat) : Nat :=
  if 1 ≤ own ∧ own ≤ 4 then own
  else
    let l := laneHint s c lane
    if 1 ≤ l ∧ l ≤ 4 then l else c.hint

/-- Tiers that a hint allows for a new or fetched frame, in order (R114, R257). -/
def hintTiers (h : Nat) : List Nat :=
  if h = 1 then [0] else if h = 2 then [0, 1] else [1]

/-- Whether a move toward a target tier is allowed by a hint (R257). -/
def hintAllows (h target : Nat) : Bool :=
  if h = 1 then target == 0 else if h = 2 then decide (target ≤ 1) else if h = 3 then target == 1
  else decide (1 ≤ target)

/-! ### Table space (R104, R105) -/

def State.tablesOf (s : State) (p : Nat) : List Nat := SMap.get s.frm.tables [] p
def State.granMask (s : State) (f : Nat) : Nat := SMap.get s.frm.grans 0 f
def State.setGran (s : State) (f m : Nat) : State :=
  { s with frm := { s.frm with grans := SMap.set s.frm.grans 0 f m } }
def State.setTables (s : State) (p : Nat) (l : List Nat) : State :=
  { s with frm := { s.frm with tables := SMap.set s.frm.tables [] p l } }

/-- The first run of `n` free granules of a table frame (R104). -/
def firstFit (mask n : Nat) : Option Nat :=
  (List.range (257 - n)).find? fun i => bitsOf mask (i + n - 1) i == 0

/-- Place one structure of `n` granules by first fit, taking a new table frame where none holds it; the granule index
(R104). -/
def allocGran (s : State) (p n : Nat) : Except Nat (State × Nat) :=
  let cand := (s.tablesOf p).filterMap fun f => (firstFit (s.granMask f) n).map fun i => (f, i)
  match cand.head? with
  | some (f, i) =>
    .ok (s.setGran f (s.granMask f + (2 ^ n - 1) * 2 ^ i), s.loc f * 256 + i)
  | none =>
    match takeFrame s p [0] false .table with
    | .error e => .error e
    | .ok (s1, f) =>
      let s2 := s1.setTables p (s1.tablesOf p ++ [f])
      .ok (s2.setGran f (2 ^ n - 1), s2.loc f * 256)

/-- Free `n` granules from a granule index; a table frame with none left goes through SCRUB (R104). -/
def freeGran (s : State) (p gi n : Nat) : State :=
  match (s.tablesOf p).find? fun f => s.loc f == gi / 256 with
  | none => s
  | some f =>
    let m := putBits (s.granMask f) (gi % 256 + n - 1) (gi % 256) 0
    let s1 := s.setGran f m
    if m = 0 then toScrub (s1.setTables p ((s1.tablesOf p).filter (· != f))) f else s1

/-- Sizes of a lane's table structures: pages, directory entries and granules of each leaf (R105). -/
def lanePmax (t maxLen : Nat) : Nat := ceilDiv maxLen t
def laneDirEntries (t maxLen : Nat) : Nat := ceilDiv (lanePmax t maxLen) 8192
def leafGrans (t maxLen e : Nat) : Nat :=
  if e + 1 < laneDirEntries t maxLen then 256
  else ceilDiv (lanePmax t maxLen - 8192 * (laneDirEntries t maxLen - 1)) 32

/-- Zero a run of granules. -/
def zeroGran (s : State) (gi n : Nat) : State :=
  let a := granAddr gi
  { s with mem := s.mem.filter fun kv => decide (kv.1 < a) || decide (a + 256 * n ≤ kv.1) }

/-- Allocate and prepare the leaves of one lane: directory entries written as the leaves are placed. -/
def allocLeaves (s : State) (p dirG t maxLen : Nat) : List Nat → Except Nat State
  | [] => .ok s
  | e :: es =>
    let n := leafGrans t maxLen e
    match allocGran s p n with
    | .error x => .error x
    | .ok (s1, g) =>
      let s2 := (zeroGran s1 g n).writeLE (granAddr dirG + 8 * e) 8 (g + (n - 1) * 2 ^ 24 + 2 ^ 32)
      allocLeaves s2 p dirG t maxLen es

/-- Allocate and prepare the directories and leaves of the lanes of a new context, in lane order. -/
def allocLanes (s : State) (p arr t maxLen : Nat) : List Nat → Except Nat State
  | [] => .ok s
  | l :: ls =>
    let de := laneDirEntries t maxLen
    let n := ceilDiv de 32
    match allocGran s p n with
    | .error x => .error x
    | .ok (s1, g) =>
      let s2 := zeroGran s1 g n
      let rec_ := arr + 32 * l
      let s3 := (s2.writeLE (rec_ + 4) 4 g).writeLE (rec_ + 8) 4 ((de - 1) * 2 ^ 20)
      match allocLeaves s3 p g t maxLen (List.range de) with
      | .error x => .error x
      | .ok s4 => allocLanes s4 p arr t maxLen ls

/-- Table space of a new context: the lane-record array, then each lane's directory and leaves (R104, R105). The address
of the lane records. -/
def allocContext (s : State) (p lanes t maxLen : Nat) : Except Nat (State × Nat) :=
  let n := ceilDiv (32 * lanes) 256
  match allocGran s p n with
  | .error x => .error x
  | .ok (s1, g) =>
    match allocLanes (zeroGran s1 g n) p (granAddr g) t maxLen (List.range lanes) with
    | .error x => .error x
    | .ok s2 => .ok (s2, granAddr g)

/-- Free the table space of a context (R131). -/
def freeContextTables (s : State) (c : Ctx) : State :=
  let de := laneDirEntries c.t c.maxLen
  let s1 := (List.range c.lanes).foldl (fun s l =>
    let d := laneDir s c l
    let s2 := (List.range de).foldl (fun s e =>
      let x := s.readLE (granAddr d + 8 * e) 8
      if bitOf x 32 then freeGran s c.part (bitsOf x 23 0) (bitsOf x 31 24 + 1) else s) s
    freeGran s2 c.part d (ceilDiv de 32)) s
  freeGran s1 c.part ((c.laneArray - peatBase) / 256) (ceilDiv (32 * c.lanes) 256)

/-! ### The look-aside buffer (R108, R110, R134) -/

def labSet (slot lane dir : Nat) : Nat := Nat.xor (Nat.xor slot lane) (8 * dir) % 512

/-- Look up one directory entry: a hit becomes most recently used; a miss fills, replacing the least recently used of
eight ways (R108). -/
def labAccess (s : State) (slot gen lane dir entry : Nat) : State :=
  let k := labSet slot lane dir
  let set := SMap.get s.ctx.lab [] k
  let same := fun (e : LabEnt) => e.slot == slot && e.gen == gen && e.lane == lane && e.dir == dir
  let put := fun (s : State) (l : List LabEnt) => { s with ctx := { s.ctx with lab := SMap.set s.ctx.lab [] k l } }
  match set.find? same with
  | some e => (put s (e :: set.filter fun x => !same x)).count Reg.PWK_HITS
  | none => (put s (⟨slot, gen, lane, dir, entry⟩ :: set.take 7)).count Reg.PWK_MISSES

/-- Invalidate the entries of one context slot (R110, R134). -/
def labDrop (s : State) (slot : Nat) : State :=
  { s with ctx := { s.ctx with
    lab := (s.ctx.lab.map fun kv => (kv.1, kv.2.filter fun e => e.slot != slot)).filter fun kv => !kv.2.isEmpty } }

/-- Invalidate every entry (R134). -/
def labClear (s : State) : State := { s with ctx := { s.ctx with lab := [] } }

/-- The page walk of one directory index of a lane (R86, R108). -/
def walkDir (s : State) (slot : Nat) (c : Ctx) (lane dir : Nat) : State :=
  labAccess s slot c.gen lane dir (dirEntry s c lane dir)

/-- A walk fault: counted, recorded and posted (R109); format faults are the partition's (R511). -/
def walkFault (s : State) (slot : Nat) (c : Ctx) (lane page : Nat) (ecc : Bool) : State :=
  let h := ctxHandle c slot
  let i1 := lane % 2048 + page / 8192 % 64 * 2048
  let s1 := s.count Reg.PWK_FAULTS
  let s2 := fault s1 .pwk 0 (if ecc then 0x19 else 0x18) (if ecc then none else some c.part) h i1
  event s2 .pwk 0 3 { status := if ecc then stCRC else stMALFORMED, part := some c.part, i0 := h, i1 := i1 }

/-- Whether an entry is well formed for a walk: valid, tier not 0b01 (R109). -/
def Pte.walkOk (e : Pte) : Bool := e.valid && e.tier != 1

/-! ### A page as attention reads it -/

/-- The reader of a page's frame bytes, by offset. -/
def frameReader (s : State) (f : Nat) : Nat → Nat := fun o => s.byte (s.frAddr f + o)

/-- Geometry of a context (R97). -/
def Ctx.geo (c : Ctx) : Geo := ⟨c.code, 32 * c.d32, c.kvh, c.t⟩

/-- A page of a lane as attention reads it (R144). -/
def pageView (s : State) (c : Ctx) (lane page : Nat) : PageView :=
  let e := pteAt s c lane page
  ⟨frameReader s e.frame, e.countM1 + 1, e.skValid⟩

end Sys2Proof.Machine
end

