-- ==== Sys2Proof/Machine/Transport.lean ====
section
/-!
DEFINITION. What the transport engine holds and does for every other block (spec/14, R377 to R412): connections, key
slots, messages to send, staging frames, replies, and the freeing of request slots (R119).
-/

namespace Sys2Proof.Machine

/-- Signed difference of two 32-bit sequence numbers (R380). -/
def seqDiff (a b : Nat) : Int := signedOf (a + 2 ^ 32 - b % 2 ^ 32) 32

/-! ### Connections and key slots -/

def State.connDef (s : State) (i : Nat) : Conn := { gen := initGen s.boot 2 i }
def State.conn (s : State) (i : Nat) : Conn := SMap.get s.itp.conns (s.connDef i) i
def State.setConn (s : State) (i : Nat) (c : Conn) : State :=
  { s with itp := { s.itp with conns := SMap.set s.itp.conns (s.connDef i) i c } }

/-- Connection word: index and generation (R378). -/
def connWord (i gen : Nat) : Nat := i % 4096 + gen % 256 * 4096
def cwIdx (w : Nat) : Nat := w % 4096
def cwGen (w : Nat) : Nat := w / 4096 % 256

/-- Whether a connection word names the slot's current generation. -/
def State.connCurrent (s : State) (w : Nat) : Bool := (s.conn (cwIdx w)).gen == cwGen w

/-- Whether a connection word names an OPEN connection. -/
def State.connOpen (s : State) (w : Nat) : Bool :=
  s.connCurrent w && decide ((s.conn (cwIdx w)).st = .open_)

/-- A key slot as device reset leaves it: EMPTY, its epoch drawn (R526). -/
def State.keyDef (s : State) (k : Nat) : KeySlot := { epoch := if s.boot = 0 then 0 else (Config.initialGen s.boot 4 k).toNat }
def State.keySlot (s : State) (k : Nat) : KeySlot := SMap.get s.itp.keys (s.keyDef k) k
def State.setKeySlot (s : State) (k : Nat) (v : KeySlot) : State :=
  { s with itp := { s.itp with keys := SMap.set s.itp.keys (s.keyDef k) k v } }
/-- A key slot is emptied: its keys are zeroed (R386, R481). -/
def keyEmpty (s : State) (k : Nat) : State := s.setKeySlot k { s.keySlot k with st := .empty, keys := [] }

/-- The key slot that holds an epoch of a connection, where it is LIVE with that epoch (R383, R480). -/
def State.liveKey (s : State) (i epoch : Nat) : Option Nat :=
  let k := 2 * i + epoch % 2
  let v := s.keySlot k
  if v.st = .live ∧ v.epoch = epoch then some k else none

/-! ### Sealing and opening (R381) -/

/-- The parts of a slot's keys: receive and transmit key, receive and transmit salt (R479). -/
def KeySlot.rxKey (v : KeySlot) : List Nat := v.keys.take 32
def KeySlot.txKey (v : KeySlot) : List Nat := (v.keys.drop 32).take 32
def KeySlot.rxSalt (v : KeySlot) : List Nat := (v.keys.drop 64).take 4
def KeySlot.txSalt (v : KeySlot) : List Nat := (v.keys.drop 68).take 4

/-- The nonce of a packet: salt, two zero bytes, counter. -/
def pktNonce (salt : List Nat) (ctr : Nat) : List Nat := salt ++ [0, 0] ++ toBE 6 ctr

/-- The UDP payload of a packet that the node sends: both headers, the ciphertext of the plaintext, and the tag (R377, R381). -/
def sealPk (v : KeySlot) (ctr : Nat) (head plain : List Nat) : List Nat :=
  head ++ gcmSeal v.txKey (pktNonce v.txSalt ctr) head plain

/-- Whether connection `i` may send: its transmit slot is LIVE and its counter is not used up (R382, R483). -/
def State.canSend (s : State) (i : Nat) : Bool :=
  match s.liveKey i (s.conn i).txEpoch with
  | none => false
  | some k => decide ((s.keySlot k).txCtr < 2 ^ 48 - 1)

/-! ### Messages to send (R380) -/

/-- Packets of a message of `len` bytes in segments of `seg` × 64 bytes (R380). -/
def msgPkts (len seg : Nat) : Nat := max 1 (ceilDiv len (64 * seg))

/-- Hand a message to an OPEN connection: it takes the next MSN and PSNs, and its packets wait for egress (R380, R389). -/
def queueMsg (s : State) (i op cls : Nat) (ext : List Nat) (len : Nat) (src : Src) (use : Use) : State :=
  let c := s.conn i
  let n := msgPkts len c.seg
  let m : TxMsg := ⟨op, cls, ext, len, n, c.txPsn, c.txMsn, src, use⟩
  s.setConn i { c with
    out := c.out ++ [m]
    pkts := c.pkts ++ (List.range n).map fun k => { psn := (c.txPsn + k) % 2 ^ 32 }
    txPsn := (c.txPsn + n) % 2 ^ 32
    txMsn := (c.txMsn + 1) % 2 ^ 32 }

/-- Hand an unsequenced packet to a connection; one with no LIVE transmit slot sends nothing (R483). -/
def queueCtl (s : State) (i : Nat) (c : Ctl) : State :=
  if s.canSend i then s.setConn i { s.conn i with ctl := (s.conn i).ctl ++ [c] } else s

/-! ### Staging (R394) -/

/-- Staging frames in the pool: none where the base is not aligned or the pool leaves peat. -/
def stageFrames (s : State) : Nat :=
  let base := s.rg64 Reg.ITP_STAGE_BASE_LO
  let n := s.fld Reg.ITP_STAGE_CFG 11 0
  if base % 65536 = 0 ∧ inPeat base ∧ base + 65536 * n ≤ crownBase then n else 0

/-- First run of `n` free staging frames. -/
def stageFit (s : State) (n : Nat) : Option Nat :=
  (List.range (stageFrames s + 1 - n)).find? fun f =>
    s.itp.stages.all fun g => decide (g.first + g.n ≤ f) || decide (f + n ≤ g.first)

/-- Frames that a connection holds. -/
def stageHeld (s : State) (w : Nat) : Nat :=
  s.itp.stages.foldl (fun a g => if g.conn = w then a + g.n else a) 0

/-- Take a run for a message of `len` bytes on connection word `w`: the state and the run's address, or `none`. -/
def stageTake (s : State) (w len : Nat) : Option (State × Nat) :=
  let n := max 1 (ceilDiv len 65536)
  let lim := if (s.conn (cwIdx w)).stageMax = 0 then 1024 else (s.conn (cwIdx w)).stageMax
  if lim < stageHeld s w + n then none
  else match stageFit s n with
    | none => none
    | some f => some ({ s with itp := { s.itp with stages := s.itp.stages ++ [⟨f, n, w, none⟩] } },
        s.rg64 Reg.ITP_STAGE_BASE_LO + 65536 * f)

/-- Free the run at a staging address. -/
def stageFree (s : State) (addr : Nat) : State :=
  let f := (addr - s.rg64 Reg.ITP_STAGE_BASE_LO) / 65536
  { s with itp := { s.itp with stages := s.itp.stages.filter fun g => g.first != f } }

/-- A request slot now keeps the run at a staging address (R394). -/
def stageKeep (s : State) (addr slot : Nat) : State :=
  let f := (addr - s.rg64 Reg.ITP_STAGE_BASE_LO) / 65536
  { s with itp := { s.itp with stages := s.itp.stages.map fun g => if g.first = f then { g with slot := some slot } else g } }

/-! ### Request slots (R95, R119) -/

/-- Free a request slot: its generation advances and its staging frames and forward-pool slot are given up (R95, R119,
R394, R455). -/
def freeReq (s : State) (slot : Nat) : State :=
  let r := s.reqAt slot
  if r.st = .free then s
  else
    let s1 := s.setReq slot { gen := (r.gen + 1) % 256 }
    { s1 with
      itp := { s1.itp with stages := s1.itp.stages.filter fun g => g.slot != some slot }
      fab := { s1.fab with pool := s1.fab.pool.filter (·.1 != slot) } }

/-! ### Replies (R406, R411, R412) -/

/-- The ADONE extension (R411). -/
def adoneExt (reqId handle status kind ran : Nat) : List Nat :=
  toBE 4 reqId ++ toBE 4 handle ++ [status, kind] ++ toBE 6 ran

/-- The APART extension (R406). -/
def apartExt (reqId handle status wire rows d32 ran : Nat) : List Nat :=
  toBE 4 reqId ++ toBE 4 handle ++ [status, 4 * wire] ++ toBE 2 rows ++ [d32, 0] ++ toBE 6 ran ++ toBE 4 0

/-- Send a reply on its connection, hold it while ITP is off, or drop it where the connection's generation has passed
(R412). A dropped reply frees its request slot (R119). -/
def sendDue (s : State) (d : Due) : State :=
  let drop := fun (s : State) => match d.slot with
    | none => s
    | some r => freeReq s r
  if !s.en .itp 0 then { s with itp := { s.itp with held := s.itp.held ++ [d] } }
  else if !s.connCurrent d.conn then drop (s.count Reg.ITP_STALE)
  else if !s.connOpen d.conn then drop s
  else queueMsg s (cwIdx d.conn) d.op 0 d.ext d.payload.length (.bytes d.payload)
    (match d.slot with | none => .none | some r => .reply r)

/-- Send the held replies when ITP's en reads 1 again (R412). -/
def releaseHeld (s : State) : State :=
  if s.en .itp 0 then
    s.itp.held.foldl sendDue { s with itp := { s.itp with held := [] } }
  else s

/-- Wire code of an AREQ (R405 flags [3:2]). -/
def areqFlags (r : Req) : Nat := unpackLE r.params 12 1
def areqWire (r : Req) : Nat := bitsOf (areqFlags r) 3 2
def areqD32 (r : Req) : Nat := unpackLE r.params 15 1
def areqRows (r : Req) : Nat := unpackLE r.params 16 2

/-- Complete a request: the slot is DONE with its status and its reply falls due (R119, R406, R411). An APART carries
the payload only with OK or LATE. `handle` is the handle the reply carries. -/
def complete (s : State) (slot status handle : Nat) (payload : List Nat) : State :=
  let r := s.reqAt slot
  if r.st = .free then s
  else
    let s1 := s.setReq slot { r with st := .done, status := status }
    let id := match s.fab.pool.find? (·.1 == slot) with
      | some (_, far) => far
      | none => mkReqId r.gen slot
    let ran := r.ran
    let ext := if r.kind = 1 then
        let has := !payload.isEmpty
        apartExt id handle status (areqWire r) (if has then areqRows r else 0) (areqD32 r) (if has then ran else 0)
      else adoneExt id handle status r.kind ran
    sendDue s1 ⟨r.conn, if r.kind = 1 then 0x11 else 0x17, ext, payload, some slot⟩

/-- The payload of a CLONE's handle field when no context is named (R565). -/
def noHandle : Nat := 0xFFFFFFFF

/-- Complete a request with a status and no result (R119, R406). -/
def completeEmpty (s : State) (slot status : Nat) : State := complete s slot status (s.reqAt slot).handle []

/-- Answer a refused message at once: no request slot is taken (R118, R406, R411). The staging frames are given up. -/
def refuse (s : State) (m : Delivered) (kind reqId handle status : Nat) : State :=
  let ext := if kind = 1 then
      apartExt reqId handle status (bitsOf (beAt m.ext 19 1) 3 2) 0 (beAt m.ext 18 1) 0
    else adoneExt reqId handle status kind 0
  stageFree (sendDue s ⟨m.conn, if kind = 1 then 0x11 else 0x17, ext, [], none⟩) m.addr

/-! ### Partitions (R470) -/

def ctxBase (s : State) (p : Nat) : Nat := s.fld (Reg.PRT_CTXR p) 17 0
def ctxCount (s : State) (p : Nat) : Nat := if s.en .prt 0 then s.fld (Reg.PRT_CTXN p) 18 0 else 0
def reqBase (s : State) (p : Nat) : Nat := s.fld (Reg.PRT_REQR p) 19 0
def reqCount (s : State) (p : Nat) : Nat := if s.en .prt 0 then s.fld (Reg.PRT_REQN p) 20 0 else 0

/-- Whether a context slot lies in a partition's range (R470). -/
def ownsCtx (s : State) (p slot : Nat) : Bool :=
  decide (ctxBase s p ≤ slot) && decide (slot < ctxBase s p + ctxCount s p)
def ownsReq (s : State) (p slot : Nat) : Bool :=
  decide (reqBase s p ≤ slot) && decide (slot < reqBase s p + reqCount s p)

/-- The partition whose range holds a context slot. -/
def ctxOwner (s : State) (slot : Nat) : Option Nat := (List.range 64).find? fun p => ownsCtx s p slot

/-- Reset state of a partition (R484 to R488): 0 IDLE, 1 ACTIVE, 2 RETIRED, 3 COMMITTED, 4 SCRUBBING. -/
def partState (s : State) (p : Nat) : Nat := s.fld (Reg.PRT_CTXR p) 30 28

/-- The partition is resetting: its key slots retire, or it is RETIRED, COMMITTED or SCRUBBING (R472, R484). -/
def resetting (s : State) (p : Nat) : Bool := decide (2 ≤ partState s p) || s.prt.retiring.any (·.part == p)

/-! ### Core cycles and the retirement of key slots (R484) -/

/-- A key slot retires: its epoch advances by 2 and its keys are zeroed (R484). -/
def keyRetire (s : State) (k : Nat) : State :=
  let v := s.keySlot k
  s.setKeySlot k { v with st := .retired, epoch := (v.epoch + 2) % 65536, keys := [] }

/-- `n` key slots retire from slot `k` on, in ascending order. -/
def retireSlots (s : State) (k n : Nat) : State := (List.range n).foldl (fun s i => keyRetire s (k + i)) s

/-- The last key slots of a partition have retired: its state becomes RETIRED (R484, R501). -/
def retireEnd (s : State) (p : Nat) : State := event (s.setFld (Reg.PRT_CTXR p) 30 28 2) .key 0 4 { i0 := p }

/-- `n` core cycles in which retirements run one after the other, 8 slots per cc (R484, R489). -/
def retireRun : List Retire → Nat → State → State
  | [], n, s => { s.clock n with prt := { s.prt with retiring := [] } }
  | r :: rest, n, s =>
    let need := max 1 (ceilDiv r.left 8)
    if n < need then
      let s1 := (retireSlots s r.first (8 * n)).clock n
      { s1 with prt := { s1.prt with retiring := { r with first := r.first + 8 * n, left := r.left - 8 * n } :: rest } }
    else retireRun rest (n - need) (retireEnd ((retireSlots s r.first r.left).clock need) r.part)

/-- Core cycles advance by `n`. -/
def State.ccPass (s : State) (n : Nat) : State :=
  match s.prt.retiring with
  | [] => s.clock n
  | l => retireRun l n s

/-- Time reaches a cc since start time, where that lies within the tick or the tick counter does not run. -/
def reachUp (s : State) (u : Nat) : Option State :=
  let d := u - s.time.up
  if !s.time.running ∨ s.time.cc + d < s.lcc then some (s.ccPass d) else none

/-- Time reaches cc `c` of the tick; it never runs backward. -/
def State.ccTo (s : State) (c : Nat) : State :=
  if s.time.running ∧ s.time.cc < c then s.ccPass (c - s.time.cc) else s

end Sys2Proof.Machine
end

