-- ==== Sys2Proof/Machine/FabOps.lean ====
section
/-!
DEFINITION. Fabric tables and checks that other blocks use (spec/16): peers and paths, ownership entries, the map-epoch
and ownership checks of intake, mirror states and suspect records.
-/

namespace Sys2Proof.Machine

/-! ### Ports and paths (R356, R441, R442) -/

/-- Lanes per port of an ETH mode (R356). -/
def modeLanes (mode : Nat) : Nat := if mode = 0 then 8 else if mode = 1 then 4 else if mode = 2 then 2 else 1

/-- ETH_MODE.mode in force of instance `n` (R358). -/
def State.ethModeOf (s : State) (n : Nat) : Nat := SMap.get s.ethMode 0 n

/-- Sub-port number of a port index in its instance's mode, where the port exists (R356). -/
def subPort (s : State) (port : Nat) : Option Nat :=
  let w := modeLanes (s.ethModeOf (port / 8))
  if port < 64 ∧ port % 8 % w = 0 then some (port % 8 / w) else none

/-- The port exists in its instance's mode and its sub-port is enabled (R442). -/
def portUsable (s : State) (port : Nat) : Bool :=
  match subPort s port with
  | none => false
  | some k => s.bit (Reg.ETH_MODE (port / 8)) (8 + k)

/-- Address of a peer-table entry and of a path word in it (R441). -/
def peerAddr (s : State) (node : Nat) : Nat := s.rg64 Reg.FAB_PEER_LO + 128 * node
def pathAddr (s : State) (node i : Nat) : Nat := peerAddr s node + 64 + 4 * i

/-- The peer table stands in peat, aligned to its 8 MiB; the node reads no other as one, nor writes it (R467, assumption 139). -/
def peerTableOk (s : State) : Bool := inPeat (s.rg64 Reg.FAB_PEER_LO) && decide (s.rg64 Reg.FAB_PEER_LO % 8388608 = 0)
/-- The node writes a field of a peer-table entry. -/
def putPeer (s : State) (a n v : Nat) : State := if peerTableOk s then s.putLE a n v else s

def setPeerFlag (s : State) (node k : Nat) (b : Bool) : State :=
  putPeer s (peerAddr s node) 1 (putBits (s.byte (peerAddr s node)) k k (b2n b))

def pathWord (s : State) (node i : Nat) : Nat := if peerTableOk s then s.readLE (pathAddr s node i) 4 else 0
def setPathWord (s : State) (node i v : Nat) : State := putPeer s (pathAddr s node i) 4 v
def pathPort (s : State) (node i : Nat) : Nat := bitsOf (pathWord s node i) 21 16

/-- Path i is configured and in use: valid, its port usable and its healthy bit set (R442). -/
def pathHealthy (s : State) (node i : Nat) : Bool :=
  bitOf (pathWord s node i) 22 && portUsable s (pathPort s node i) && bitOf (pathWord s node i) 23

/-- Healthy paths to a peer. -/
def healthyCount (s : State) (node : Nat) : Nat := ((List.range 16).filter (pathHealthy s node)).length

/-- The first healthy path among `n` paths at or after `i`, in ascending order and wrapping (R392). -/
def nextHealthy (s : State) (node n i : Nat) : Option Nat :=
  ((List.range n).map fun k => (i + k) % n).find? (pathHealthy s node)

/-- The path a packet takes that would start at path `i`: the next healthy one, else path 0 where its port is usable
(R392, R442, R443). -/
def choosePath (s : State) (c : Conn) (i : Nat) : Option Nat :=
  match nextHealthy s c.peerNode (c.paths + 1) (i % (c.paths + 1)) with
  | some k => some k
  | none => if portUsable s (pathPort s c.peerNode 0) then some 0 else none

/-- A write of a path word by firmware: where valid goes from 0 to 1 the path becomes healthy with no strikes, or where its port is not
usable stays unhealthy until it is (R442). -/
def pathWritten (s : State) (a old : Nat) : State :=
  let base := s.rg64 Reg.FAB_PEER_LO
  if peerTableOk s ∧ base ≤ a ∧ a < base + 8388608 ∧ 64 ≤ (a - base) % 128 ∧ a % 4 = 0 then
    let w := s.readLE a 4
    if !bitOf old 22 && bitOf w 22 then
      let k := 16 * ((a - base) / 128) + ((a - base) % 128 - 64) / 4
      let up := portUsable s (bitsOf w 21 16)
      let s1 := s.putLE a 4 (putBits (putBits w 27 24 0) 23 23 (b2n up))
      { s1 with fab := { s1.fab with portDown := s1.fab.portDown.filter (· != k) ++ (if up then [] else [k]) } }
    else s
  else s

/-- The same of every path word in `len` bytes at `a` that a channel has written over those of `old` (R442). -/
def pathsWritten (old s : State) (a len : Nat) : State :=
  let base := s.rg64 Reg.FAB_PEER_LO
  if peerTableOk s ∧ base < a + len ∧ a < base + 8388608 then
    ((List.range (len / 4 + 1)).map fun i => a - a % 4 + 4 * i).foldl
      (fun s x => if x < a + len then pathWritten s x (old.readLE x 4) else s) s
  else s

/-! ### Suspect records (R465, R466) -/

/-- log2 of the suspect ring's entries (R467). -/
def susLog2 (s : State) : Nat :=
  let k := s.fld Reg.FAB_SUS_CFG 3 0
  if 6 ≤ k ∧ k ≤ 12 then k else 6

/-- Offer a suspect record about a peer; at most one per peer in 64 ticks (R465, R466). -/
def suspect (s : State) (node cause conn : Nat) : State :=
  let a := peerAddr s node
  let last := if peerTableOk s then s.readLE (a + 16) 6 else 0
  if s.time.tick < last + 64 then s.count Reg.FAB_SUS_SUPP
  else
    let s1 := putPeer (setPeerFlag s node 1 true) (a + 16) 6 s.time.tick
    let k := susLog2 s1
    let wr := s1.rg Reg.FAB_SUS_WR
    let used := (wr + 2 ^ 32 - s1.rg Reg.FAB_SUS_RD) % 2 ^ 32
    let base := s1.rg64 Reg.FAB_SUS_LO
    if s1.bit Reg.FAB_SUS_CFG 8 && decide (used < 2 ^ k) && inPeat base && decide (base % (16 * 2 ^ k) = 0) then
      let bs := toLE 6 s1.time.tick ++ toLE 2 node ++ [cause, healthyCount s1 node] ++ toLE 2 0 ++ toLE 4 conn
      (s1.putBytes (base + 16 * (wr % 2 ^ k)) bs).setRg Reg.FAB_SUS_WR (wr + 1)
    else event0 (s1.count Reg.FAB_SUS_DROP) .fab 0 7

/-! ### Path health (R442 to R444) -/

/-- FAB_HEALTH.strikes; 0 acts as 1 (R467). -/
def strikeLimit (s : State) : Nat := max 1 (s.fld Reg.FAB_HEALTH 3 0)

/-- The peer's last healthy path may have gone down: then it has none, and is reported (R443, R465). -/
def noPathCheck (s : State) (node : Nat) : State :=
  if healthyCount s node = 0 then suspect (setPeerFlag s node 2 true) node 1 0 else s

/-- A path takes a strike; a healthy one goes out of use at the limit (R443). The 4-bit count stops at 15 (DESIGN CHOICE, assumption 138). -/
def chargeStrike (s : State) (node i : Nat) : State :=
  if !s.up .fab 0 then s
  else
    let w := pathWord s node i
    let k := min 15 (bitsOf w 27 24 + 1)
    let s1 := setPathWord s node i (putBits w 27 24 k)
    if !pathHealthy s node i || decide (k < strikeLimit s) then s1
    else
      noPathCheck (event (setPathWord s1 node i (putBits (putBits w 27 24 k) 23 23 0)) .fab 0 6 { i0 := node, i1 := i }) node

/-- A packet that the path carried is acknowledged: its strikes return to 0 (R443). -/
def clearStrikes (s : State) (node i : Nat) : State :=
  if !s.en .fab 0 then s else setPathWord s node i (putBits (pathWord s node i) 27 24 0)

/-- A path is healthy again, with no strikes (R442, R444). -/
def healPath (s : State) (node i : Nat) : State :=
  setPeerFlag (setPathWord s node i (putBits (putBits (pathWord s node i) 27 24 0) 23 23 1)) node 2 false

/-! ### Ownership (R445 to R449) -/

/-- An ownership-table entry (R445). -/
structure Own where
  role : Nat
  mirrored : Bool
  gen : Nat
  first : Nat
  count : Nat
  node : Nat
  conn : Nat
  handle : Nat
deriving DecidableEq, Repr

/-- Base of the current ownership table. -/
def ownBase (s : State) : Nat :=
  if s.bit Reg.FAB_OWN_SEL 0 then s.rg64 Reg.FAB_OWN_B_LO else s.rg64 Reg.FAB_OWN_A_LO

/-- The current table's entry of a context slot. -/
def ownEntry (s : State) (slot : Nat) : Own :=
  let a := ownBase s + 16 * slot
  let b0 := s.byte a
  ⟨if b0 % 4 = 3 then 0 else b0 % 4, bitOf b0 2, s.byte (a + 1), s.readLE (a + 2) 2, s.readLE (a + 4) 2,
    s.readLE (a + 6) 2, s.readLE (a + 8) 4 % 2 ^ 20, s.readLE (a + 12) 4⟩

/-- The entry that applies to a context, if any (R446, R447). -/
def ownApplies (s : State) (slot : Nat) : Option Own :=
  let e := ownEntry s slot
  let c := s.ctxAt slot
  if s.fab.flipped ∧ e.gen = c.gen ∧ c.st ≠ .free then some e else none

/-- Whether the ownership map serves a request of `kind` on a context's lanes, arriving on connection word `conn`
(R446, R449). RELEASE is never checked. -/
def ownServes (s : State) (slot kind conn : Nat) (lanes : List Nat) : Bool :=
  match ownApplies s slot with
  | none => true
  | some e =>
    let inside := lanes.all fun l => decide (e.first ≤ l) && decide (l < e.first + e.count)
    if kind = 4 then true
    else if e.role = 1 then inside
    else if e.role = 2 then
      inside && (kind == 1 || kind == 3 || e.mirrored && e.conn == conn)
    else false

/-- The connection word on which a MIRROR context's primary forwards (R449, R455). -/
def mirrorConnOf (s : State) (slot : Nat) : Option Nat :=
  match ownApplies s slot with
  | some e => if e.role = 2 ∧ e.mirrored then some e.conn else none
  | none => none

/-- The mirror that an OWNER entry names (R445). -/
def primaryOf (s : State) (slot : Nat) : Option Own :=
  match ownApplies s slot with
  | some e => if e.role = 1 ∧ e.mirrored then some e else none
  | none => none

/-- Check of a request's map epoch (R448): the status that refuses it, with the counter raised, or none. -/
def epochCheck (s : State) (c : Nat) : Option (Nat × Nat) :=
  let e := s.rg Reg.FAB_EPOCH
  if c = e then none
  else if c = s.fab.ePrev ∧ s.fab.flipped ∧ s.time.tick ≤ s.fab.flipTick + 1 then none
  else if 0 < seqDiff c e then some (stSTALE_MAP, Reg.FAB_AHEAD)
  else some (stSTALE_MAP, Reg.FAB_STALE_MAP)

/-- The node is in memory role (R452), or not serving (R464): it answers requests with NOT_OWNER. -/
def memoryRole (s : State) : Bool := s.bit Reg.FAB_ROLE 0
/-- Requests are refused: the memory role, holdover past its limit, or a part in RMA (R452, R464, R497). -/
def refusesAll (s : State) : Bool := memoryRole s || s.fab.notServing || s.fld Reg.LCS_STATE 2 0 == 3

/-! ### Mirror states (R453) -/

def mstOFF : Nat := 0
def mstSNAP : Nat := 1
def mstFWD : Nat := 2
def mstSYNC : Nat := 3
def mstBROKEN : Nat := 4
def mstIMPORT : Nat := 5

/-- Mirror state of a context slot; OFF where no table stands in peat. -/
def mst (s : State) (slot : Nat) : Nat :=
  if inPeat (s.rg64 Reg.FAB_MST_LO) then s.byte (s.rg64 Reg.FAB_MST_LO + slot) else 0

/-- Set a mirror state. -/
def setMst (s : State) (slot v : Nat) : State :=
  if inPeat (s.rg64 Reg.FAB_MST_LO) then s.putByte (s.rg64 Reg.FAB_MST_LO + slot) v else s

/-- Frames of the snapshot go through SCRUB (R453). -/
def dropSnap (s : State) (slot : Nat) : State :=
  match s.fab.snap with
  | none => s
  | some n =>
    if n.slot = slot then
      let s1 := n.lanes.foldl (fun s l => toScrub s l.dst) s
      ({ s1 with fab := { s1.fab with snap := none } }).setFld Reg.FAB_SNAP_STAT 30 30 0
    else s

/-- A context leaves FWD and SYNC: its forwarded requests are compared no longer, and an ADONE that waited for the mirror's goes out with the
status it has (R453, R456). -/
def mirrorEnd (s : State) (slot : Nat) : State :=
  let s1 := { s with fab := { s.fab with fwds := s.fab.fwds.filter (·.ctx != slot) } }
  (s.fab.fwds.filter fun f => f.ctx == slot && f.waits && (s.reqAt f.slot).gen == f.gen).foldl
    (fun s f => complete s f.slot (f.own.getD (0, 0)).1 (s.reqAt f.slot).handle []) s1

/-- A primary context in FWD or SYNC diverges from its mirror (R456): BROKEN, forwarding stops. -/
def diverge (s : State) (slot status : Nat) : State :=
  let s1 := setMst s slot mstBROKEN
  mirrorEnd (event s1 .fab 0 5 { i0 := ctxHandle (s1.ctxAt slot) slot, i1 := status }) slot

end Sys2Proof.Machine
end

