-- ==== Sys2Proof/Machine/Ledger.lean ====
section
/-!
DEFINITION. The cycle ledger (R83, R87) and the bookings of one tick (R79, R85, R212 to R214, R239, R240, R325 to R330,
R349): costs, free time of tiles and channels, PIM windows, mesh routes and the gather buffer.
-/

namespace Sys2Proof.Machine

/-! ### Costs (R83) -/

/-- λ of R83. -/
def lamOf (code d : Nat) : Nat := if isRotated code then Nat.log2 d else 0
/-- w and k of R83. -/
def widthOf (code : Nat) : Nat := if code = 0 then 2 else 1

def costWalk : Nat := 52
def costRotate (code d n : Nat) : Nat := 16 + n * (d / 64) * lamOf code d
def costMesh (h b : Nat) : Nat := 4 + 2 * h + ceilDiv b 64
/-- Tile page work for r rows per KV head (R83). -/
def costPage (g : Geo) (fen : Bool) (r : Nat) : Nat :=
  let e := g.t * g.kvh * g.d / 16
  let m := 2 * g.kvh * ceilDiv r 64 * g.t * g.d * widthOf g.code / 64
  48 + max (max e (if fen then 1366 else 128)) m + 32 * ceilDiv (r * g.kvh) 64
def costBound (d n : Nat) : Nat := 4 + n * ceilDiv d 64
def costBoundChain : Nat := 6
/-- DIBBER page time U and chain hop H, in sc (R83). -/
def chainU (g : Geo) : Nat := 8 + 2 * (g.d / 32) * widthOf g.code * g.kvh * (g.t / 32)
def chainH (d n : Nat) : Nat := 2 + ceilDiv (n * (d + 2)) 64
/-- Length in sc of a segment whose pages take the times `us` (R83). -/
def chainLen (h : Nat) : List Nat → Nat
  | [] => 0
  | u :: us => us.foldl (fun a v => a + max v h) u + 32 * h
def costMerge (d n : Nat) : Nat := 4 + ceilDiv (n * (d + 2)) 64
/-- Bytes of a page partial of n rows (R214). -/
def partialBytes (d n : Nat) : Nat := n * (d + 2) * 4
def costHandoff (d n wire : Nat) : Nat :=
  8 + ceilDiv (n * (d + 2) * 4 + 8 * n) 64 + (if wire = 0 then 0 else ceilDiv (n * d) 32)
/-- APPEND of a tokens opening g pages on one lane: tile cc and channel sc (R83). -/
def costAppend (q : Geo) (fen : Bool) (a g : Nat) : Nat × Nat :=
  let b := bytesPerToken q.code q.d q.kvh
  let c := 64 + a * (2 * q.kvh * (q.d / 64) * lamOf q.code q.d + 2 * q.kvh * q.d / 32 + 2 * q.kvh * ceilDiv q.d 64) + 56 * g
  if fen then (c, ceilDiv (a * b) 96 + 16) else (c + ceilDiv (a * b) 512 + 16, 0)
def costClone (p : Nat) : Nat := 128 + 3 * p
def costRelease (p : Nat) : Nat := 64 + 2 * p

/-- Energies in pJ (R87). -/
def energyChain : Nat := 220201
def energyPeat : Nat := 445645
def energyFen : Nat := 1520436
def energyAppend (q : Geo) (fen : Bool) (a : Nat) : Nat :=
  let bits := a * bytesPerToken q.code q.d q.kvh * 8
  if fen then ceilDiv (bits * 29) 10 else ceilDiv (bits * 85) 100

/-! ### The plan window of the tick -/

def planStart : Nat := 2048
/-- cc of the seal point (R65, R66). -/
def State.sealCC (s : State) : Nat := s.lcc - s.sealS
/-- Admission budget of a unit per tick (R65). -/
def State.unitBudget (s : State) : Nat := s.sealCC - planStart

/-! ### Tiles (R80, R209 to R211, R215, R330, R351) -/

/-- A tile is available to vendor work: set in TPL_SVC_MASK, not excluded, and RUNNING in mode 0 or 1 (R80, R215, R351).
-/
def tileAvail (s : State) (n : Nat) : Bool :=
  let t := s.tile n
  s.bit (Reg.TPL_SVC_MASK (n / 32)) (n % 32)
    && !(s.bit Reg.TPL_EXCLUDE 8 && s.fld Reg.TPL_EXCLUDE 6 0 == n)
    && decide (t.st = .running) && decide (t.mode ≤ 1)

/-- Reading tile of a peat location (R209). -/
def readingTile (s : State) (l : Nat) : Option Nat :=
  let home := l / 512
  let partner := Nat.xor home 1
  if tileAvail s home then some home else if tileAvail s partner then some partner else none

/-- Owning tile of a lane (R211). -/
def owningTile (s : State) (c : Ctx) (slot lane : Nat) : Option Nat :=
  let n := lanePages s c lane
  let e := pteAt s c lane (n - 1)
  if n ≠ 0 ∧ e.tier = 0 ∧ s.frTier e.frame = 0 then readingTile s (s.loc e.frame)
  else ((List.range 128).map fun k => (slot + lane + k) % 128).find? (tileAvail s)

/-- Router coordinates of a mesh ID (R325): router index x + 16y, and whether it is an edge port. -/
def meshRouter (id : Nat) : Nat × Bool :=
  if id < 128 then (id, false)
  else
    let s := id % 8
    let off := if id < 136 then 1 else 2
    if s < 4 then (4 * s + off, true) else (4 * (s - 4) + off + 112, true)

def dist1 (a b : Nat) : Nat := (a - b) + (b - a)
/-- Links of a one-leg route between routers. -/
def routerDist (a b : Nat) : Nat := dist1 (a % 16) (b % 16) + dist1 (a / 16) (b / 16)

/-- Tiles in preference order of a stack: by hop count of the one-leg route to its FEN port, then index (R330). -/
def preference (stack : Nat) : List Nat :=
  let r := (meshRouter (128 + stack)).1
  (List.range 24).flatMap fun h => (List.range 128).filter fun t => routerDist t r == h

/-! ### Free time of a unit -/

/-- Earliest start at or after `x` of `len` cc in the gaps of a busy list. -/
def gapFrom (busy : List Busy) (len : Nat) : Nat → Nat → Nat
  | 0, x => x
  | k + 1, x =>
    match busy.find? fun b => decide (x < b.hi) && decide (b.lo < x + len) with
    | none => x
    | some b => gapFrom busy len k b.hi

def gap (busy : List Busy) (x len : Nat) : Nat := gapFrom busy len (busy.length + 1) x

def TplBlock.tileList (b : TplBlock) (n : Nat) : List Busy := SMap.get b.tileBusy [] n
def TplBlock.addTile (b : TplBlock) (n x len : Nat) : TplBlock :=
  { b with tileBusy := SMap.set b.tileBusy [] n (⟨x, x + len⟩ :: b.tileList n) }
def TplBlock.memList (b : TplBlock) (ch : Nat) : List MemBook := SMap.get b.memBusy [] ch
def TplBlock.addMem (b : TplBlock) (ch lo hi : Nat) (write : Bool) : TplBlock :=
  { b with memBusy := SMap.set b.memBusy [] ch (⟨lo, hi, write⟩ :: b.memList ch) }
def TplBlock.gatherList (b : TplBlock) (n : Nat) : List Occ := SMap.get b.gather [] n
def TplBlock.addGather (b : TplBlock) (n : Nat) (o : Occ) : TplBlock :=
  { b with gather := SMap.set b.gather [] n (o :: b.gatherList n) }

/-- Book `len` cc on a tile at the earliest time from `x` that ends by `fin`: the plan and the start. -/
def bookTile (b : TplBlock) (n x len fin : Nat) : Option (TplBlock × Nat) :=
  let a := gap (b.tileList n) x len
  if a + len ≤ fin then some (b.addTile n a len, a) else none

/-- Book `len` cc on the frame allocator. -/
def bookFrm (b : TplBlock) (x len fin : Nat) : Option (TplBlock × Nat) :=
  let a := gap b.frmBusy x len
  if a + len ≤ fin then some ({ b with frmBusy := ⟨a, a + len⟩ :: b.frmBusy }, a) else none

/-! ### Refresh (R240) -/

/-- Refresh period of a channel in sc (R240, R241). -/
def refPeriod (s : State) (n p : Nat) : Nat := if s.bit (Reg.FEN_CHSTAT n p) 8 then 1560 else 3120

/-- First refresh slot start of a channel at or after sc 0 of the tick, in sc (R240). -/
def refOffset (s : State) (n p : Nat) : Nat :=
  let per := refPeriod s n p
  let phase := s.fld (Reg.FEN_REF_PHASE n (p / 8)) 11 0
  (phase % per + per - (4 * s.time.len5 * s.time.tick) % per) % per

/-- End of a refresh slot that overlaps [a, b) sc of a channel, if any; a slot lasts 328 sc. -/
def refreshHit (s : State) (n p a b : Nat) : Option Nat :=
  let per := refPeriod s n p
  let off := refOffset s n p
  -- slots start at off + k·per for every integer k; one period is added so that no start is negative
  let first := off + per * ceilDiv (a + per - 327 - off) per
  if first < b + per then some (first + 328 - per) else none

/-! ### PIM windows (R79, R85, R212, R239) -/

def pimLimit (s : State) : Nat := min 8 (s.fld Reg.TPL_PIM_STACKS 3 0)

/-- Stacks with a window over instant `x`. -/
def stacksAt (ws : List PimWin) (x : Nat) : Nat :=
  ((List.range 8).filter fun n => ws.any fun w => w.stack == n && decide (w.lo ≤ x) && decide (x < w.hi)).length

/-- At no instant of [lo, hi) do more stacks than the limit have a window (R79); windows change only at their edges. -/
def stacksOk (s : State) (ws : List PimWin) (lo hi : Nat) : Bool :=
  (lo :: ws.map (·.lo)).all fun x =>
    !(decide (lo ≤ x) && decide (x < hi)) || decide (stacksAt ws x ≤ pimLimit s)

/-- At most eight channels of a stack in segments at once (tSPA of R239). -/
def spaOk (ws : List PimWin) (n lo hi : Nat) : Bool :=
  let segs := (ws.filter (·.stack == n)).flatMap (·.segs)
  (lo :: segs.map (·.lo)).all fun x =>
    !(decide (lo ≤ x) && decide (x < hi))
      || decide ((segs.filter fun g => decide (g.lo ≤ x) && decide (x < g.hi)).length ≤ 8)

/-- Windows of a channel. -/
def winsOf (b : TplBlock) (n p : Nat) : List PimWin := b.pims.filter fun w => w.stack == n && w.pc == p

/-- Start in cc of the last segment of a channel that begins before sc `a`. -/
def segBefore (b : TplBlock) (n p a : Nat) : Nat :=
  (((winsOf b n p).flatMap (·.segs)).filter fun g => decide (g.lo < a)).foldl (fun x g => max x (2 * g.lo)) 0

/-- Place a segment [a, a + len) sc on a channel if every rule of R212 allows it there: the plan with it. Its rows arrive at cc `rows`; a
later segment whose rows arrive before this one begins stands against it, as they would fill a store that is in use (R226). -/
def placeSeg (s : State) (b : TplBlock) (n p a len rows : Nat) : Option TplBlock :=
  let fin := a + len
  let mine := winsOf b n p
  let busyMem := fun (lo hi : Nat) =>
    (b.memList (32 * n + p)).any fun m => decide (lo < ceilDiv m.hi 2) && decide (m.lo / 2 < hi)
  let segClash := mine.any fun w => w.segs.any fun g => decide (a < g.hi) && (decide (g.lo < fin) || decide (g.rows < 2 * a))
  if 2 * fin > s.sealCC || (refreshHit s n p a fin).isSome || segClash || busyMem a fin then none
  else
    let others := fun (w : PimWin) => b.pims.filter (· != w)
    let apart := fun (ws : List PimWin) (lo hi : Nat) =>
      ws.all fun v => !(v.stack == n && v.pc == p) || decide (v.hi + 800 ≤ lo) || decide (hi + 800 ≤ v.lo)
    let join := mine.find? fun w =>
      let lo := min w.lo a
      let hi := max w.hi fin
      !w.raw && decide (w.lo ≤ a) && decide (hi - lo ≤ 6400) && apart (others w) lo hi && !busyMem lo hi
        && stacksOk s ({ w with hi := hi } :: others w) lo hi
    match join with
    | some w =>
      let w' := { w with hi := max w.hi fin, segs := ⟨a, fin, rows⟩ :: w.segs }
      let b' := { b with pims := w' :: others w }
      if spaOk b'.pims n a fin then some b' else none
    | none =>
      let w : PimWin := ⟨n, p, a, fin, [⟨a, fin, rows⟩], false⟩
      let b' := { b with pims := w :: b.pims }
      if decide (len ≤ 6400) && apart b.pims a fin && stacksOk s b'.pims a fin && spaOk b'.pims n a fin then some b'
      else none

/-- The next sc after `a` at which a condition of R212 can change. -/
def nextChange (s : State) (b : TplBlock) (n p a len : Nat) : Nat :=
  let ends := (b.memList (32 * n + p)).map (fun m => ceilDiv m.hi 2)
    ++ b.pims.flatMap (fun w => w.hi :: (w.hi + 800) :: w.segs.map (·.hi))
    ++ (match refreshHit s n p a (a + len) with | some e => [e] | none => [])
  (ends.filter fun e => decide (a < e)).foldl min (s.sealCC + 1)

/-- Earliest placement of a segment of `len` sc at or after sc `a`, with its rows in place at cc `rows` (R212, R226). -/
def findSeg (s : State) (b : TplBlock) (n p len rows : Nat) : Nat → Nat → Option (TplBlock × Nat)
  | 0, _ => none
  | k + 1, a =>
    if 2 * (a + len) > s.sealCC then none
    else match placeSeg s b n p a len rows with
      | some b' => some (b', a)
      | none => findSeg s b n p len rows k (nextChange s b n p a len)

/-- A MEM-window transfer [lo, hi) cc on a channel meets a refresh slot, a PIM window or another booking: the cc at which
the earliest of these ends, if so. -/
def memClash (s : State) (b : TplBlock) (n p lo hi : Nat) : Option Nat :=
  match refreshHit s n p (lo / 2) (ceilDiv hi 2) with
  | some e => some (2 * e)
  | none =>
    match (winsOf b n p).find? fun w => decide (lo < 2 * w.hi) && decide (2 * w.lo < hi) with
    | some w => some (2 * w.hi)
    | none => ((b.memList (32 * n + p)).find? fun m => decide (lo < m.hi) && decide (m.lo < hi)).map (·.hi)

/-- Earliest start at or after `x`, on an even cc, of a MEM-window transfer of `sc` stack cycles. -/
def findMem (s : State) (b : TplBlock) (n p sc : Nat) : Nat → Nat → Nat
  | 0, x => x
  | k + 1, x =>
    let y := x + x % 2
    match memClash s b n p y (y + 2 * sc) with
    | none => y
    | some e => findMem s b n p sc k e

/-! ### Mesh routes (R326, R328 to R330) -/

/-- Directed links of a straight run between two positions on one axis; `key` names the link leaving a position up or
down. -/
def axisLinks (key : Nat → Bool → Nat) (a b : Nat) : List Nat :=
  if a ≤ b then (List.range (b - a)).map fun i => key (a + i) true
  else (List.range (a - b)).map fun i => key (a - i) false

/-- Links of one leg, X first or Y first, from router a to router b. Link keys: 4 × router + 0 east, 1 west, 2 south,
3 north. -/
def legLinks (xFirst : Bool) (a b : Nat) : List Nat :=
  let xs := fun (y : Nat) => axisLinks (fun x up => 4 * (x + 16 * y) + (if up then 0 else 1)) (a % 16) (b % 16)
  let ys := fun (x : Nat) => axisLinks (fun y up => 4 * (x + 16 * y) + (if up then 2 else 3)) (a / 16) (b / 16)
  if xFirst then xs (a / 16) ++ ys (b % 16) else ys (a % 16) ++ xs (b / 16)

/-- The link between an edge port and its router, out of the mesh or into it. -/
def edgeLink (id : Nat) (into : Bool) : Nat := 1000 + 2 * id + (if into then 1 else 0)

/-- A route by its legs: the first leg's order, and the waypoint with the second leg's order. -/
structure Route where
  leg0 : Bool
  way : Option (Nat × Bool)
deriving DecidableEq, Repr

/-- A route's legs in the frame field of a SEND entry (R349). -/
def Route.legs (r : Route) : Nat :=
  b2n (!r.leg0) * 256 + match r.way with
    | none => 0
    | some (w, o) => b2n (!o) * 512 + 1024 + w * 65536

/-- Links of a route between two mesh endpoints. -/
def routeLinks (src dst : Nat) (r : Route) : List Nat :=
  let (a, ea) := meshRouter src
  let (b, eb) := meshRouter dst
  let mid := match r.way with
    | none => legLinks r.leg0 a b
    | some (w, o) => legLinks r.leg0 a w ++ legLinks o w b
  (if ea then [edgeLink src true] else []) ++ mid ++ (if eb then [edgeLink dst false] else [])

/-- Routers that a route passes through. -/
def routeRouters (src dst : Nat) (r : Route) : List Nat :=
  (meshRouter src).1 :: (meshRouter dst).1 :: ((routeLinks src dst r).filter (· < 1000)).map (· / 4)

/-- The routes of R329 in order of preference. -/
def routesOf (src dst : Nat) : List Route :=
  let (a, _) := meshRouter src
  let (b, _) := meshRouter dst
  let two := (List.range 45).flatMap fun h =>
    ((List.range 128).filter fun w => routerDist a w + routerDist w b == h).flatMap fun w =>
      [⟨true, some (w, true)⟩, ⟨true, some (w, false)⟩, ⟨false, some (w, true)⟩, ⟨false, some (w, false)⟩]
  ⟨true, none⟩ :: ⟨false, none⟩ :: two

/-- The resources of a transfer with the cc interval each is held (R329). -/
def xferUse (x : Xfer) : List (Nat × Nat) :=
  (3000 + x.src, x.start) :: (4000 + x.dst, x.start + 2 + 2 * x.links.length)
    :: x.links.zipIdx.map fun (l, k) => (l, x.start + 2 + 2 * k)

/-- Two transfers share a link direction or a port in some cc. -/
def xferClash (x y : Xfer) : Bool :=
  (xferUse x).any fun (k, t) => (xferUse y).any fun (k', t') =>
    k == k' && decide (t < t' + y.flits) && decide (t' < t + x.flits)

/-- First start from `x.start` on at which some route is free, with that route (R329). -/
def findXfer (b : TplBlock) (x : Xfer) (routes : List Route) : Nat → Option Xfer
  | 0 => none
  | k + 1 =>
    match routes.findSome? fun r =>
      let y : Xfer := { x with links := routeLinks x.src x.dst r, legs := r.legs }
      if b.xfers.all fun z => !xferClash y z then some y else none with
    | some y => some y
    | none => findXfer b { x with start := x.start + 1 } routes k

/-- Most bytes of one transfer (R328). -/
def xferMax : Nat := 65536

/-- Book the parts of a transfer of `bytes` from one endpoint to another for request `slot` (with the page of a partial), each of at most
65,536 B, from byte `off` on, ready at `t` and ending by `fin`: the plan and the cc at which the last part has arrived (R328, R329). -/
def bookParts (s : State) (slot src dst bytes t fin : Nat) (page : Option (Nat × Nat)) (routes : List Route) :
    Nat → TplBlock → Nat → Nat → Option (TplBlock × Nat)
  | 0, b, _, e => some (b, e)
  | k + 1, b, off, e =>
    if bytes ≤ off then some (b, e)
    else
      let n := min xferMax (bytes - off)
      match findXfer b ⟨t, ceilDiv n 64, src, dst, [], slot, 0, page, off, false⟩ routes (fin - t) with
      | none => none
      | some x =>
        let y := x.start + costMesh x.links.length n
        if y ≤ fin then bookParts s slot src dst bytes t fin page routes k { b with xfers := x :: b.xfers } (off + n) (max e y)
        else none

/-- Book a transfer (R213, R329). One to the sending tile itself takes no slot. -/
def bookXfer (s : State) (b : TplBlock) (slot src dst bytes t fin : Nat) (page : Option (Nat × Nat)) : Option (TplBlock × Nat) :=
  if src = dst then some (b, t)
  else
    let routes := (routesOf src dst).filter fun r => (routeRouters src dst r).all (tileAvail s)
    bookParts s slot src dst bytes t fin page routes (ceilDiv bytes xferMax) b 0 t

/-! ### Gather buffer (R214) -/

def gatherBytes : Nat := 1572864

/-- Occupancy of a gather buffer at a cc. -/
def gatherAt (os : List Occ) (x : Nat) : Nat :=
  os.foldl (fun a o => if o.lo ≤ x ∧ x < o.hi then a + o.bytes else a) 0

/-- The first cc at which the buffer would hold more than its size. -/
def gatherFull (os : List Occ) : Option Nat :=
  ((os.map (·.lo)).filter fun x => decide (gatherBytes < gatherAt os x)).foldl (fun a x => some (min x (a.getD x))) none

end Sys2Proof.Machine
end

