-- ==== Sys2Proof/Machine/Placement.lean ====
section
/-!
DEFINITION. Placing and booking one request in the plan of a tick (spec/07, with spec/03's ledger and R132, R184 to R186
for the pages a request reads).
-/

namespace Sys2Proof.Machine

/-- Why a request is not booked. -/
inductive PlanFail where
  /-- It does not fit in this tick (R72). -/
  | noFit
  /-- It does not fit because a page has no reading tile or its channel's requester is fenced: info1 of R217. -/
  | unplaceable (info1 : Nat)
  /-- Its partials would overfill the gather buffer; the producer of the page at a place of the page order may start later (R214). -/
  | gather (delay : Option (Nat × Nat))
  /-- Thin pages whose chain passes find no place; they may fall back to crown tiles (R203). -/
  | chains (pages : List (Nat × Nat))
  /-- It needs pages of tier 2 or 3 first: lane and page (R273). -/
  | fetch (pages : List (Nat × Nat))
  /-- A walk faults: lane and page (R109). -/
  | walk (lane page : Nat)
deriving DecidableEq, Repr

/-! ### The rows and pages of an AREQ (R132, R199, R405) -/

/-- A row of an AREQ: index, position, KV head within its lane, lane. -/
structure ARow where
  idx : Nat
  pos : Nat
  head : Nat
  lane : Nat
deriving DecidableEq, Repr

def areqProbes (r : Req) : Nat := unpackLE r.params 14 1
def areqNormalize (r : Req) : Bool := bitOf (areqFlags r) 0
def areqFp32 (r : Req) : Bool := bitOf (areqFlags r) 1
def areqMode (r : Req) : Nat := bitsOf (areqFlags r) 4 4
def areqSigma (r : Req) : Nat := unpackLE r.params 0 4
def areqWindow (r : Req) : Nat := unpackLE r.params 4 4 % 2 ^ 25
def areqPrefix (r : Req) : Nat := unpackLE r.params 8 4 % 2 ^ 25
def areqTau (r : Req) : Nat := unpackLE r.params 13 1

/-- Lane index of KV head `h` of a layer in a context's slice (R99). -/
def laneOf (c : Ctx) (layer h : Nat) : Nat := (layer - c.layerFirst) * c.groupCount + (h / c.kvh - c.groupFirst)

/-- The row table of an AREQ in staging (R405). -/
def areqRowList (s : State) (r : Req) (c : Ctx) : List ARow :=
  (List.range (areqRows r)).map fun i =>
    let w := s.readLE (r.payload + 4 * areqProbes r + 4 * i) 4
    let h := bitsOf w 31 24
    ⟨i, bitsOf w 23 0, h % c.kvh, laneOf c r.layer h⟩

/-- The probe table (R405). -/
def areqProbeList (s : State) (r : Req) : List Nat :=
  (List.range (areqProbes r)).map fun i => s.readLE (r.payload + 4 * i) 4 % 2 ^ 19

/-- The row as the masks see it (R184), without its query. -/
def maskRow (r : Req) (len : Nat) (a : ARow) (q : List F32) : Row :=
  ⟨BitVec.ofNat 32 (areqSigma r), areqWindow r, areqPrefix r, len, a.pos, a.head, q⟩

/-- One page that a request reads: its entry's frame, the location that it is priced at, whether it lies off the package (R272), the rows for
which it is in the list and not fully masked, rows per KV head, and the rows that may skip it: in bounded-sparse mode those that do not
probe a page with a valid sketch (R83, R188, R199, R229). -/
structure PageWork where
  lane : Nat
  page : Nat
  frame : Nat
  loc : Nat
  off : Bool
  rows : List ARow
  r : Nat
  skips : List Nat
deriving DecidableEq, Repr

/-- The page brings a sketch bound (R83). -/
def PageWork.bound (w : PageWork) : Bool := !w.skips.isEmpty

/-- The frame of the first page of a booked item's list. -/
def itemFrame (s : State) (it : Item) : Nat :=
  let p := it.pages.headD (0, 0)
  (pteAt s (s.ctxAt (hSlot (s.reqAt (it.reqs.headD 0)).handle)) p.1 p.2).frame

/-- Rows per KV head of a row list (R199). -/
def rowsPerHead (kvh : Nat) (rows : List ARow) : Nat :=
  ((List.range kvh).map fun h => (rows.filter (·.head == h)).length).foldl max 0

/-- The location of a page that a plan reckons with: its frame's, or, off the package, one in the first tier that its effective hint allows
for a fetch (R257, R272). -/
def planLoc (s : State) (c : Ctx) (lane : Nat) (e : Pte) : Nat :=
  if e.tier < 2 then s.loc e.frame else if (hintTiers (effHint s c lane e.hint)).headD 1 = 0 then 0 else 65536

/-- The pages of one lane that a request reads, ascending (R132, R184, R186). -/
def lanePageWorks (s : State) (r : Req) (c : Ctx) (lane : Nat) (rows : List ARow) : List PageWork :=
  let g := c.geo
  let len := laneLen s c lane
  let probes := areqProbeList s r
  let vOf := fun (a : ARow) => (maskRow r len a []).v
  let top := (rows.map fun a => ceilDiv (vOf a) g.t).foldl max 0
  (List.range top).filterMap fun j =>
    let e := pteAt s c lane j
    let mine := rows.filter fun a =>
      decide (j < ceilDiv (vOf a) g.t) && !fullyMasked g j (e.countM1 + 1) (maskRow r len a [])
    if mine.isEmpty then none
    else
      let isProbe := fun (a : ARow) =>
        let n := ceilDiv (vOf a) g.t
        j == 0 || j + 2 == n || j + 1 == n || probes.contains j
      some ⟨lane, j, e.frame, planLoc s c lane e, decide (2 ≤ e.tier), mine, rowsPerHead g.kvh mine,
        if areqMode r == 1 && e.skValid then (mine.filter fun a => !isProbe a).map (·.idx) else []⟩

/-- Lanes of a row list, ascending. -/
def rowLanes (c : Ctx) (rows : List ARow) : List Nat :=
  (List.range c.lanes).filter fun l => rows.any (·.lane == l)

/-- All pages of a request in its page order: lane by lane, pages ascending (R132, R182). -/
def pageWorks (s : State) (r : Req) (c : Ctx) : List PageWork :=
  let rows := areqRowList s r c
  (rowLanes c rows).flatMap fun l => lanePageWorks s r c l (rows.filter (·.lane == l))

/-! ### Booking an AREQ -/

/-- info1 of unplaceable for a frame: its peat index, or in fen its number (R217); also where no tile is left to own a lane whose last page
lies in fen, a case that the spec does not name (DESIGN CHOICE, assumption 106). -/
def placeInfo (s : State) (f : Nat) : Nat := if s.loc f < 65536 then s.loc f else f

/-- A page partial on its way to the gather buffer: the page's place in the page order, the rows for which the page is in the list, its
arrival, the start of its producer, and whether that start may still be put off (R214). -/
structure Arrival where
  pos : Nat
  rows : Nat
  at_ : Nat
  start : Nat
  free : Bool

/-- What a booking in progress carries: the plan, tile cc, channel sc, energy, the tiles that have the rotated rows and those that have
walked the page list, with the cc of it, the sequencers that have rows, and the partials (R212 to R214). -/
structure Build where
  b : TplBlock
  tcc : Nat := 0
  sc : Nat := 0
  pj : Nat := 0
  rowsAt : List (Nat × Nat) := []
  walks : List (Nat × Nat) := []
  seqs : List (Nat × List Nat × Nat) := []
  arr : List Arrival := []

/-- What is common to the bookings of one AREQ: its request slot, geometry and owning tile, the end of the rotation, its distinct rows, the
starts that some producers wait for (R214) and the seal point. -/
structure Job where
  slot : Nat
  g : Geo
  owner : Nat
  rotEnd : Nat
  nrows : Nat
  holds : List (Nat × Nat)
  fin : Nat

/-- The cc before which the producer of the page at place `pos` does not start (R214). -/
def Job.hold (j : Job) (pos : Nat) : Nat := (j.holds.filter (·.1 == pos)).foldl (fun a h => max a h.2) 0

/-- Distinct row indices of some pages. -/
def rowIdxs (ws : List PageWork) : List Nat := (ws.flatMap fun w => w.rows.map (·.idx)).eraseDups

/-- Rotated rows reach a tile, once: with their arrival (R213). -/
def rowsToTile (s : State) (j : Job) (u : Build) (t : Nat) : Option (Build × Nat) :=
  match u.rowsAt.find? (·.1 == t) with
  | some (_, x) => some (u, x)
  | none => (bookXfer s u.b j.slot j.owner t (j.nrows * j.g.d * 4) j.rotEnd j.fin none).map fun (b, x) =>
      ({ u with b := b, rowsAt := (t, x) :: u.rowsAt }, x)

/-- A tile's first page of a request brings the page-list walk, an item of its own at the tile's earliest free time (R83, R212, R349); later
pages find it done. The cc from which a page item may start. -/
def walkOnTile (s : State) (j : Job) (u : Build) (w : PageWork) (t : Nat) : Option (Build × Nat) :=
  match rowsToTile s j u t with
  | none => none
  | some (u1, x) => match u1.walks.find? (·.1 == t) with
    | some (_, y) => some (u1, max x y)
    | none => (bookTile u1.b t planStart costWalk j.fin).map fun (b, y) =>
        let it : Item := ⟨[j.slot], .walk, .tile t, y, costWalk, 1, [(w.lane, w.page)], .booked⟩
        ({ u1 with b := { b with items := b.items ++ [it] }, tcc := u1.tcc + costWalk, walks := (t, y + costWalk) :: u1.walks },
          max x (y + costWalk))

/-- A page partial of `bytes`, with `rows` rows in the list, goes from `src` to the owning tile's gather buffer (R213, R214). -/
def partialHome (s : State) (j : Job) (u : Build) (w : PageWork) (src pos rows bytes start at_ : Nat) (free : Bool) : Option Build :=
  (bookXfer s u.b j.slot src j.owner bytes at_ j.fin (some (w.lane, w.page))).map fun (b, x) =>
    { u with b := b, arr := u.arr ++ [⟨pos, rows, x, start, free⟩] }

/-- Ledger cost of a page on a tile with its bound (R83). -/
def tilePageCost (g : Geo) (fen bound : Bool) (r : Nat) : Nat :=
  costPage g fen r + (if bound then costBound g.d (r * g.kvh) else 0)

/-- Fence bit of a requester on the channel of a fen location (R245, R246). -/
def fenced (s : State) (l k : Nat) : Bool := s.bit (Reg.FEN_CHSTAT (locStack l) (locPc l)) k

/-- Start of a crown item on a tile, with the channel read for a fen page from the start of its page work (R210, R212).
-/
def crownStart (s : State) (b : TplBlock) (t lead len l : Nat) : Nat → Nat → Nat
  | 0, x => x
  | k + 1, x =>
    let a := gap (b.tileList t) x len
    if l < 65536 then a
    else
      let rd := a + lead + (a + lead) % 2
      match memClash s b (locStack l) (locPc l) rd (rd + 1366) with
      | none => a
      | some e => crownStart s b t lead len l k (max (a + 1) (e - lead))

/-- Book `len` cc on tile `t` for a crown item at `x`, whose page work begins `lead` cc later, with the channel read of a fen page (R210). -/
def bookCrownAt (b : TplBlock) (t x lead len l : Nat) (it : Item) : TplBlock :=
  let b1 := b.addTile t x len
  let rd := x + lead + (x + lead) % 2
  let b2 := if l < 65536 then b1 else b1.addMem (32 * locStack l + locPc l) rd (rd + 1366) false
  { b2 with items := b2.items ++ [it] }

/-- Channel sc and energy of a page read on a crown tile (R83, R87). -/
def crownRead (u : Build) (l : Nat) : Build :=
  if l < 65536 then { u with pj := u.pj + energyPeat } else { u with sc := u.sc + 683, pj := u.pj + energyFen }

/-- Book one page on a given tile for the request's own rows. -/
def crownOn (s : State) (j : Job) (u : Build) (w : PageWork) (pos t : Nat) : Option Build :=
  match walkOnTile s j u w t with
  | none => none
  | some (u1, ready) =>
    let c := tilePageCost j.g (decide (65536 ≤ w.loc)) w.bound w.r
    let x := crownStart s u1.b t 0 c w.loc j.fin (max ready (j.hold pos))
    if x + c ≤ j.fin then
      let it : Item := ⟨[j.slot], .pages, .tile t, x, c, w.r * j.g.kvh, [(w.lane, w.page)], .booked⟩
      partialHome s j { crownRead u1 w.loc with b := bookCrownAt u1.b t x 0 c w.loc it, tcc := u1.tcc + c }
        w t pos w.rows.length (partialBytes j.g.d (w.r * j.g.kvh)) x (x + c) true
    else none

/-- Tiles a crown item may take: the reading tile of a peat frame; for a fen frame the owning tile, then the stack's
preference list (R209, R210). -/
def crownTiles (s : State) (owner l : Nat) : List Nat :=
  if l < 65536 then (readingTile s l).toList
  else owner :: (preference (locStack l)).filter fun t => t != owner && tileAvail s t

/-- A page's crown item runs on the first tile that can take it; where no tile may read the page at all, the request is unplaceable (R201,
R209, R210, R217, R246). -/
def onCrownTile (s : State) (j : Job) (w : PageWork) (f : Nat → Option Build) : Except PlanFail Build :=
  if w.loc < 65536 ∧ (readingTile s w.loc).isNone then .error (.unplaceable w.loc)
  else if 65536 ≤ w.loc ∧ (fenced s w.loc 0 ∨ fenced s w.loc 1) then .error (.unplaceable w.frame)
  else match (crownTiles s j.owner w.loc).findSome? f with
    | some u1 => .ok u1
    | none => .error .noFit

/-- Book one page as a crown item (R201, R210, R246). -/
def bookCrown (s : State) (j : Job) (u : Build) (w : PageWork) (pos : Nat) : Except PlanFail Build :=
  onCrownTile s j w (crownOn s j u w pos)

/-- The dense threshold (R200). -/
def denseRows (s : State) : Nat := max (s.fld Reg.TPL_DENSE_ROWS 7 0) 9

/-- The tally entry under which a request's page is dense: the frame's count is above 1, the partition consents now, this request and at
least one other are counted, and the rows reach the threshold (R204, R206, R217). -/
def tallyOf (s : State) (b : TplBlock) (slot : Nat) (w : PageWork) : Option Tally :=
  let p := hPart (s.reqAt slot).handle
  if s.bit Reg.TPL_PLACE 0 ∧ s.bit (Reg.TPL_SHARE_LO + 4 * (p / 32)) (p % 32) ∧ !w.off ∧ 1 < (s.frame w.frame).refs then
    b.tally.find? fun t => t.frame == w.frame && t.reqs.contains slot && decide (denseRows s ≤ t.rows) && decide (2 ≤ t.reqs.length)
  else none

def setTally (b : TplBlock) (t : Tally) : TplBlock :=
  { b with tally := b.tally.map fun x => if x.frame = t.frame then t else x }

/-- Open a shared item for a frame on tile `n`: sized by the tally's rows, from the join point on, with the opener's own page-list walk where
the tile has not done it (R206, R207). -/
def openOn (s : State) (j : Job) (u : Build) (w : PageWork) (t : Tally) (pos n : Nat) : Option Build :=
  match rowsToTile s j u n with
  | none => none
  | some (u1, at_) =>
    let walked := u1.walks.find? (·.1 == n)
    let lead := if walked.isSome then 0 else costWalk
    let fen := decide (65536 ≤ w.loc)
    let c := lead + tilePageCost j.g fen t.bound t.rows
    let join := planStart + s.fld Reg.TPL_JOIN 11 0
    let ready := max (max at_ ((walked.map (·.2)).getD 0)) (max (j.hold pos) join)
    let x := crownStart s u1.b n lead c w.loc j.fin ready
    if x + c ≤ j.fin then
      let it : Item := ⟨[j.slot], .shared, .tile n, x, c, t.rows * j.g.kvh, [(w.lane, w.page)], .booked⟩
      let b1 := setTally (bookCrownAt u1.b n x lead c w.loc it)
        { t with shared := some ⟨n, x, x + c, u1.b.items.length⟩, joined := w.r, joinedBound := w.bound }
      partialHome s j { crownRead u1 w.loc with
          b := b1, tcc := u1.tcc + lead + tilePageCost j.g fen w.bound w.r
          walks := if walked.isSome then u1.walks else (n, x + lead) :: u1.walks }
        w n pos w.rows.length (partialBytes j.g.d (w.r * j.g.kvh)) x (x + c) true
    else none

/-- Join a shared item whose start the rotated rows reach; `none` where they do not. The charge is what the rows add to the item's cost, with
a sketch bound once one of them needs it (R206, R207). -/
def joinShared (s : State) (j : Job) (u : Build) (w : PageWork) (t : Tally) (h : Shared) (pos : Nat) : Option Build :=
  match rowsToTile s j u h.tile with
  | none => none
  | some (u1, x) =>
    if x ≤ h.start then
      let fen := decide (65536 ≤ w.loc)
      let bound := t.joinedBound || w.bound
      let more := tilePageCost j.g fen bound (t.joined + w.r) - tilePageCost j.g fen t.joinedBound t.joined
      let b1 := setTally { u1.b with items := u1.b.items.zipIdx.map fun (it, k) =>
        if k = h.item then { it with reqs := it.reqs ++ [j.slot] } else it } { t with joined := t.joined + w.r, joinedBound := bound }
      partialHome s j { u1 with b := b1, tcc := u1.tcc + more } w h.tile pos w.rows.length (partialBytes j.g.d (w.r * j.g.kvh))
        h.start h.done false
    else none

/-! ### Chain segments (R202, R212) -/

/-- One page of one chain pass: the page's place in the page order, the pass, its rows, its rows per KV head and its bound bit (R202, R229).
-/
structure Pass where
  pos : Nat
  k : Nat
  w : PageWork
  rows : List ARow
  r : Nat
  bound : Bool
deriving DecidableEq, Repr

/-- The chain passes of a thin page: eight rows of each KV head to a pass, in row-table order (R202). -/
def passesOf (kvh pos : Nat) (w : PageWork) : List Pass :=
  (List.range (ceilDiv w.r 8)).map fun k =>
    let rows := (List.range kvh).flatMap fun h => ((w.rows.filter (·.head == h)).drop (8 * k)).take 8
    ⟨pos, k, w, rows, rowsPerHead kvh rows, rows.any fun a => w.skips.contains a.idx⟩

/-- A segment under construction: its channel and passes. -/
structure SegPlan where
  ch : Nat
  passes : List Pass
deriving DecidableEq, Repr

/-- Times and length in sc of a segment (R83). -/
def passU (g : Geo) (p : Pass) : Nat := chainU g + (if p.bound then costBoundChain else 0)
def segH (g : Geo) (ps : List Pass) : Nat := chainH g.d ((ps.map fun p => p.r * g.kvh).foldl max 0)
def segLen (g : Geo) (ps : List Pass) : Nat := chainLen (segH g ps) (ps.map (passU g))

/-- Distinct rows of some passes by head never exceed eight (R233). -/
def segRowsOk (kvh : Nat) (ps : List Pass) : Bool :=
  decide (rowsPerHead kvh ((ps.flatMap (·.rows)).eraseDups) ≤ 8)

/-- The place in the page order of the channel's last page before `pos`. -/
def pageBefore (segs : List SegPlan) (ch pos : Nat) : Option Nat :=
  ((((segs.filter (·.ch == ch)).flatMap (·.passes)).map (·.pos)).filter fun x => decide (x < pos)).foldl
    (fun a x => some (max x (a.getD x))) none

/-- Add a pass to the segment that ends with the same pass of the channel's page before it, if the limits of R85 allow, else begin a new one
(R212). -/
def addPass (g : Geo) (segs : List SegPlan) (ch : Nat) (p : Pass) : List SegPlan :=
  let prev := pageBefore segs ch p.pos
  let joins := fun (x : SegPlan) =>
    x.ch == ch && (match x.passes.getLast? with
      | some q => q.k == p.k && some q.pos == prev
      | none => false)
      && decide (segLen g (x.passes ++ [p]) ≤ 1228) && segRowsOk g.kvh (x.passes ++ [p])
  match segs.findIdx? joins with
  | some i => segs.zipIdx.map fun (x, n) => if n = i then { x with passes := x.passes ++ [p] } else x
  | none => segs ++ [⟨ch, [p]⟩]

/-- Cumulative end of each page of a segment, in sc from its start (R83). -/
def segEnds (h : Nat) (first : Bool) (acc : Nat) : List Nat → List Nat
  | [] => []
  | u :: us =>
    let e := acc + (if first then u else max u h)
    (e + 32 * h) :: segEnds h false e us

/-- The rotated rows reach a stack's sequencer no earlier than cc `t`: with their arrival (R213, R226). -/
def rowsToSeq (s : State) (j : Job) (u : Build) (n : Nat) (rows : List Nat) (t : Nat) : Option (Build × Nat) :=
  match u.seqs.find? fun x => x.1 == n && x.2.1 == rows && decide (t ≤ x.2.2) with
  | some (_, _, x) => some (u, x)
  | none =>
    let bytes := rows.length * j.g.d * 4
    let least := costMesh (routerDist (meshRouter j.owner).1 (meshRouter (136 + n)).1 + 1) (min bytes xferMax)
    (bookXfer s u.b j.slot j.owner (136 + n) bytes (max j.rotEnd (t - least)) j.fin none).map fun (b, x) =>
      ({ u with b := b, seqs := (n, rows, x) :: u.seqs }, x)

/-- Place a segment of `len` sc on channel p of stack n no earlier than `ready`, with its rows in place and no earlier than the start of the
channel's segment before it (R212, R226): the booking, the plan with the segment, and its start in sc. -/
def placeWithRows (s : State) (j : Job) (u : Build) (n p : Nat) (rows : List Nat) (len ready : Nat) :
    Nat → Nat → Option (Build × TplBlock × Nat)
  | 0, _ => none
  | k + 1, t => match rowsToSeq s j u n rows t with
    | none => none
    | some (u1, x) => match findSeg s u1.b n p len x j.fin (ceilDiv (max x ready) 2) with
      | none => none
      | some (b1, a) =>
        let e := segBefore u1.b n p a
        if e ≤ x then some (u1, b1, a) else placeWithRows s j u n p rows len ready k e

/-- Book one segment on its channel: the rotated rows go to the stack's sequencer, and each page's partial comes home (R212, R213, R228). -/
def bookSeg (s : State) (j : Job) (u : Build) (ch : Nat) (ps : List Pass) : Option Build :=
  let n := ch / 32
  let p := ch % 32
  let len := segLen j.g ps
  let ready := ps.foldl (fun a q => max a (j.hold q.pos)) (planStart + costWalk)
  match if len ≤ 1228 then placeWithRows s j u n p (((ps.flatMap (·.rows)).map (·.idx)).eraseDups) len ready j.fin 0 else none with
  | none => none
  | some (u1, b1, a) =>
    let it : Item := ⟨[j.slot], .chain, .chan n p, 2 * a, 2 * len, 0, ps.map fun q => (q.w.lane, q.w.page), .booked⟩
    let u2 := { u1 with b := { b1 with items := b1.items ++ [it] }, sc := u1.sc + len, pj := u1.pj + energyChain * ps.length }
    let ends := segEnds (segH j.g ps) true 0 (ps.map (passU j.g))
    (ps.zip ends).foldl (fun acc (q, e) => acc.bind fun v =>
      let n' := q.r * j.g.kvh
      partialHome s j v q.w (136 + n) q.pos q.rows.length (partialBytes j.g.d n' + (if q.bound then 4 * n' else 0))
        (2 * a) (2 * (a + e)) true) (some u2)

/-- Book the passes of a planned segment: together, or split where only a shorter segment finds a place; a page that no segment takes may
fall back to a crown tile (R85, R203, R212). -/
def bookPasses (s : State) (j : Job) (ch : Nat) : Nat → Build → List Pass → Except PlanFail Build
  | 0, u, _ => .ok u
  | k + 1, u, ps =>
    match (List.range ps.length).findSome? fun i =>
      (bookSeg s j u ch (ps.take (ps.length - i))).map fun v => (v, ps.drop (ps.length - i)) with
    | some (v, []) => .ok v
    | some (v, rest) => bookPasses s j ch k v rest
    | none => .error (.chains ((ps.take 1).map fun q => (q.w.lane, q.w.page)))

/-! ### The whole AREQ -/

/-- Merges in page order, each from the later of its partial's arrival and the end of the previous one, with the gather buffer's occupancy:
the plan, the end of the last merge, and the end of each (R214). -/
def bookMerges (j : Job) (ws : List PageWork) (u : Build) : Option (Build × Nat × List Nat) :=
  (ws.zipIdx).foldl (fun acc (w, pos) => acc.bind fun (v, prev, ends) =>
      let mine := v.arr.filter (·.pos == pos)
      let ready := (mine.map (·.at_)).foldl max prev
      let c := costMerge j.g.d (w.r * j.g.kvh)
      (bookTile v.b j.owner ready c j.fin).map fun (b, x) =>
        let it : Item := ⟨[j.slot], .merge, .tile j.owner, x, c, w.r * j.g.kvh, [(w.lane, w.page)], .booked⟩
        let b1 := mine.foldl (fun b m => b.addGather j.owner ⟨m.at_, x + c, partialBytes j.g.d m.rows⟩)
          { b with items := b.items ++ [it] }
        ({ v with b := b1, tcc := v.tcc + c }, x + c, ends ++ [x + c])) (some (u, j.rotEnd, []))

/-- Which producer waits, and until when, so that a gather buffer that is over its size at cc `x` keeps within it: of the request's own
partials that lie there the last in page order, by as much as the first end of an occupancy asks (R214). -/
def gatherDelay (os : List Occ) (arr : List Arrival) (ends : List Nat) (x : Nat) : Option (Nat × Nat) :=
  let mine := arr.filter fun a => a.free && decide (a.at_ ≤ x) && decide (x < ends.getD a.pos 0)
  let next := ((os.filter fun o => decide (o.lo ≤ x) && decide (x < o.hi)).map (·.hi)).foldl (fun a h => some (min h (a.getD h))) none
  match mine.foldl (fun (best : Option Arrival) a => match best with
      | some v => if v.pos < a.pos then some a else best
      | none => some a) none, next with
  | some a, some h => some (a.pos, a.start + (h - a.at_))
  | _, _ => none

/-- A shared item begins with its opener's page-list walk, unless the tile has done that walk before (R83, R206). -/
def walksFirst (b : TplBlock) (it : Item) : Bool :=
  !(b.items.any fun x => x.unit == it.unit && x.reqs.head? == it.reqs.head?
    && (x.kind == .walk || (x.kind == .shared && decide (x.start < it.start))))

/-- Entries of a tile's booking list so far (R349). -/
def tileEntries (b : TplBlock) (n : Nat) : Nat :=
  let its := b.items.filter fun it => it.unit = .tile n
  its.length + (its.filter fun it => it.kind == .shared && walksFirst b it).length + (b.xfers.filter (·.src == n)).length

/-- No tile has more entries than a booking list holds (R349). -/
def entriesOk (b : TplBlock) : Bool := (List.range 128).all fun t => decide (tileEntries b t ≤ 4094)

/-- Whether thin pages of a fen location go to crown tiles in any case (R30, R203, R246). -/
def noChains (s : State) (l : Nat) : Bool :=
  pimLimit s == 0 || fenced s l 2 || !s.up .dbr (locStack l)

/-- A page that the request reads on its own rows runs on a crown tile: it lies in peat, is dense, or may not or cannot be scanned in its
stack (R201, R203). -/
def goesCrown (s : State) (crown : List (Nat × Nat)) (w : PageWork) : Bool :=
  decide (w.loc < 65536) || decide (denseRows s ≤ w.r) || noChains s w.loc || crown.contains (w.lane, w.page)

/-- Place the pages of a request in page order: crown and shared items at once, thin pages as planned segments (R201 to R212). -/
def placePages (s : State) (j : Job) (share : Bool) (crown : List (Nat × Nat)) (ws : List PageWork) (u0 : Build) :
    Except PlanFail (Build × List SegPlan) :=
  ws.zipIdx.foldl (fun acc (w, pos) => match acc with
    | .error f => .error f
    | .ok (u, segs) =>
      let own : Except PlanFail (Build × List SegPlan) :=
        if goesCrown s crown w then (bookCrown s j u w pos).map fun u' => (u', segs)
        else .ok (u, (passesOf j.g.kvh pos w).foldl (fun sg p => addPass j.g sg (32 * locStack w.loc + locPc w.loc) p) segs)
      match if share then tallyOf s u.b j.slot w else none with
      | none => own
      | some t => match t.shared with
        | none => (onCrownTile s j w (openOn s j u w t pos)).map fun u' => (u', segs)
        | some h => match joinShared s j u w t h pos with
          | some u' => .ok (u', segs)
          | none => own) (.ok (u0, []))

/-- Book the end of an AREQ: merges, finalize and hand-off on the owning tile, within the gather buffer and the booking lists (R83, R214,
R349). -/
def bookEnd (j : Job) (ws : List PageWork) (n wire : Nat) (u : Build) : Except PlanFail Build :=
  match bookMerges j ws u with
  | none => .error .noFit
  | some (u1, m, ends) =>
    let rotN := costRotate j.g.code j.g.d n
    let ho := costHandoff j.g.d n wire
    match (bookTile u1.b j.owner m rotN j.fin).bind fun (b, x) =>
      (bookTile b j.owner (x + rotN) ho j.fin).map fun (b', y) => (b', x, y) with
    | none => .error .noFit
    | some (b, x, y) =>
      let its := [⟨[j.slot], .finalize, .tile j.owner, x, rotN, n, [], .booked⟩, ⟨[j.slot], .handoff, .tile j.owner, y, ho, n, [], .booked⟩]
      let b1 := { b with items := b.items ++ its }
      match gatherFull (b1.gatherList j.owner) with
      | some z => .error (.gather (gatherDelay (b1.gatherList j.owner) u1.arr ends z))
      | none => if entriesOk b1 then .ok { u1 with b := b1, tcc := u1.tcc + rotN + ho } else .error .noFit

/-- Book an AREQ with a given set of pages forced onto crown tiles and producers that wait; `share` allows shared items (R201 to R214). -/
def planAreqWith (s : State) (b : TplBlock) (slot : Nat) (share : Bool) (crown holds : List (Nat × Nat)) : Except PlanFail Build :=
  let r := s.reqAt slot
  let c := s.ctxAt (hSlot r.handle)
  let g := c.geo
  let ws := pageWorks s r c
  let rows := areqRowList s r c
  let lane := (rowLanes c rows).headD 0
  let fin := s.sealCC
  let rot := costRotate g.code g.d rows.length
  match ws.find? fun w => !(pteAt s c w.lane w.page).walkOk with
  | some w => .error (.walk w.lane w.page)
  | none =>
  let off := (ws.filter (·.off)).map fun w => (w.lane, w.page)
  if !off.isEmpty then .error (.fetch off)
  else if ws.any fun w => decide (65536 ≤ w.loc) && !s.up .fen (locStack w.loc) then .error .noFit
  else match owningTile s c (hSlot r.handle) lane with
  | none => .error (.unplaceable (placeInfo s (pteAt s c lane (lanePages s c lane - 1)).frame))
  | some o => match bookTile b o planStart rot fin with
    | none => .error .noFit
    | some (b0, x0) =>
      let it : Item := ⟨[slot], .rotate, .tile o, x0, rot, rows.length, [], .booked⟩
      let j : Job := ⟨slot, g, o, x0 + rot, (rowIdxs ws).length, holds, fin⟩
      match placePages s j share crown ws { b := { b0 with items := b0.items ++ [it] }, tcc := rot } with
      | .error f => .error f
      | .ok (u1, segs) =>
        match segs.foldl (fun (acc : Except PlanFail Build) sg => acc.bind fun u => bookPasses s j sg.ch sg.passes.length u sg.passes)
          (.ok u1) with
        | .error f => .error f
        | .ok u2 => bookEnd j ws rows.length (areqWire r) u2

/-- Fall back to crown tiles for pages whose chains find no place, where TPL_PLACE allows, and put producers off whose partials would overfill
the gather buffer (R203, R214). -/
def planAreqTries (s : State) (b : TplBlock) (slot : Nat) (share : Bool) :
    Nat → List (Nat × Nat) → List (Nat × Nat) → Except PlanFail Build
  | 0, _, _ => .error .noFit
  | k + 1, crown, holds =>
    match planAreqWith s b slot share crown holds with
    | .error (.chains ps) =>
      if s.bit Reg.TPL_PLACE 1 then planAreqTries s b slot share k (crown ++ ps) holds else .error .noFit
    | .error (.gather (some d)) => planAreqTries s b slot share k crown (d :: holds)
    | .error (.gather none) => .error .noFit
    | r => r

/-- The thermal allowance of the tick in µJ (R77, R30). -/
def tickAllowance (s : State) : Nat := if s.en .pwr 0 then s.rg Reg.PWR_TALLOW else 0

/-- Energy limit of the tick in pJ (R77, R78). -/
def energyLimit (s : State) : Nat :=
  let lb := s.bit Reg.BST_LB_STAT 17
    || s.bit Reg.BST_LB_STAT 16 && s.bit Reg.TPL_EXCLUDE 8 && s.fld Reg.TPL_EXCLUDE 6 0 == s.fld Reg.BST_LB_STAT 14 8
  (min (s.rg Reg.TPL_EBUDGET) (tickAllowance s) - (if lb then s.rg Reg.BST_LB_EBUDGET else 0)) * 1000000

/-- The request would open a shared item (R206). -/
def opensShared (s : State) (b : TplBlock) (slot : Nat) : Bool :=
  let r := s.reqAt slot
  (pageWorks s r (s.ctxAt (hSlot r.handle))).any fun w => match tallyOf s b slot w with
    | some t => t.shared.isNone
    | none => false

/-- Most bookings that a request is tried with: each falls back with a page or puts a producer off. -/
def planTries : Nat := 65536

/-- Book an AREQ: tile cc and channel sc as its charge, and its energy. An opener that does not fit, in energy or otherwise, is booked once
more on its own rows (R77, R206). Without a limit the energy is not judged. -/
def planAreq (s : State) (b : TplBlock) (slot : Nat) (limit : Option Nat) : Except PlanFail (TplBlock × Nat × Nat) :=
  let try_ := fun (share : Bool) => show Except PlanFail (TplBlock × Nat × Nat) from
    match planAreqTries s b slot share planTries [] [] with
    | .error f => .error f
    | .ok u => if limit.any fun e => decide (e < b.energy + u.pj) then .error .noFit else .ok (u.b, u.tcc + 2 * u.sc, u.pj)
  match try_ true with
  | .ok x => .ok x
  | .error f => match f, opensShared s b slot with
    | .noFit, true => try_ false
    | .unplaceable _, true => try_ false
    | _, _ => .error f

end Sys2Proof.Machine
end

