-- ==== Sys2Proof/Machine/Contexts.lean ====
section
/-!
DEFINITION. What happens to contexts, their frames and their requests (spec/04): completion of requests with the mirror's
answer (R456), CLONE, APPEND, RELEASE and MIGRATE taking effect, loss of a context, copy-on-write, scrubbing, grants,
device reservations, starvation, and return entries (R276).
-/

namespace Sys2Proof.Machine

/-! ### Requests -/

/-- The partition a request belongs to: the one whose request-slot range holds its slot, else its handle's. -/
def reqPart (s : State) (slot : Nat) : Nat :=
  match (List.range 64).find? fun p => ownsReq s p slot with
  | some p => p
  | none =>
    let r := s.reqAt slot
    if r.handle = noHandle then (s.conn (cwIdx r.conn)).part else hPart r.handle

/-- Take a request out of every queue. -/
def dequeue (s : State) (slot : Nat) : State :=
  { s with tpl := { s.tpl with
    queues := (s.tpl.queues.map fun kv => (kv.1, kv.2.filter fun q => q.req != slot)).filter fun kv => !kv.2.isEmpty } }

/-- Order of two queue entries: arrival tick and cc, then port, then connection index (R69). -/
def QEnt.before (a b : QEnt) : Bool :=
  if a.at_ ≠ b.at_ then decide (a.at_ < b.at_)
  else if a.cc ≠ b.cc then decide (a.cc < b.cc)
  else if a.port ≠ b.port then decide (a.port < b.port)
  else decide (a.conn < b.conn)

/-- Insert an entry in its place (R69). -/
def qInsert (q : QEnt) : List QEnt → List QEnt
  | [] => [q]
  | x :: r => if q.before x then q :: x :: r else x :: qInsert q r

/-- Put a request into a partition's queue (R69). -/
def enqueue (s : State) (p : Nat) (q : QEnt) : State :=
  { s with tpl := { s.tpl with queues := SMap.set s.tpl.queues [] p (qInsert q (SMap.get s.tpl.queues [] p)) } }

/-- Whether two outcomes of a forwarded request diverge (R456): one side applied it and the other did not, or both did and their statuses
differ (assumption 45). -/
def diverges (own far : Nat) : Bool :=
  let applied := fun st => st == stOK || st == stLATE
  applied own != applied far || (applied own && own != far)

/-- A request's outcome is known: its reply goes out, except that a context in SYNC waits for its mirror's answer, and a
divergence breaks the mirror (R411, R456). -/
def settle (s : State) (slot status handle : Nat) (payload : List Nat) : State :=
  let r := s.reqAt slot
  match s.fab.fwds.find? fun f => f.slot == slot && f.gen == r.gen && f.sent with
  | none => complete s slot status handle payload
  | some f =>
    let put := fun (s : State) (f' : Option Fwd) => { s with fab := { s.fab with
      fwds := (s.fab.fwds.filter fun x => !(x.slot == slot && x.gen == r.gen)) ++ f'.toList } }
    match f.far with
    | some (st, ran) =>
      let s1 := put s none
      if diverges status st then complete (diverge s1 f.ctx st) slot status handle payload
      else complete (s1.setReq slot { r with ran := max r.ran ran }) slot status handle payload
    | none =>
      let s1 := put s (some { f with own := some (status, r.ran), sealTick := s.time.tick, waits := mst s f.ctx == mstSYNC })
      if mst s f.ctx = mstSYNC then s1.setReq slot { r with st := .done, status := status }
      else complete s1 slot status handle payload

/-- Complete a request that never ran, and take it out of the queues and of the parked list. -/
def dismiss (s : State) (slot status : Nat) : State :=
  let s1 := dequeue s slot
  let s2 := { s1 with fab := { s1.fab with parked := s1.fab.parked.filter fun q => q.req != slot } }
  settle s2 slot status (s2.reqAt slot).handle []

/-- Queued requests of every partition, in pass order from partition 0. -/
def queuedReqs (s : State) : List Nat := s.tpl.queues.flatMap fun kv => kv.2.map (·.req)

/-- Complete with a status every QUEUED or parked request that satisfies a test. -/
def dismissWhere (s : State) (f : Nat → Bool) (status : Nat) : State :=
  ((queuedReqs s ++ s.fab.parked.map (·.req)).filter f).foldl (fun s r => dismiss s r status) s

/-! ### Return entries (R276) -/

/-- Write a return entry for a tier-2 frame number or remote slot of partition `p`. -/
def returnEntry (s : State) (num tier p : Nat) : State :=
  let k0 := s.fld Reg.FRM_RET_CFG 4 0
  let k := if 8 ≤ k0 ∧ k0 ≤ 20 then k0 else 8
  let wr := s.rg Reg.FRM_RET_WR
  let used := (wr + 2 ^ 32 - s.rg Reg.FRM_RET_RD) % 2 ^ 32
  if s.bit Reg.FRM_RET_CFG 8 && decide (used < 2 ^ k) then
    (s.putLE (s.rg64 Reg.FRM_RET_LO + 8 * (wr % 2 ^ k)) 8 (num % 2 ^ 32 + tier % 4 * 2 ^ 32 + p % 64 * 2 ^ 34)).setRg
      Reg.FRM_RET_WR (wr + 1)
  else event0 (s.count Reg.FRM_RET_DROP) .frm 0 10

/-! ### Frames leaving (R112) -/

/-- A COPY_DST frame to which nothing has been written returns to its owner's free list at once (R131). -/
def copyDstBack (s : State) (f : Nat) : State :=
  if s.up .frm 0 then linkFree s f (s.frame f).owner else toScrub s f

/-- SCRUB ends: the frame is zero and joins its owner's free list for its location's tier; a partition being reset gives
it to the device pool (R112, R487). -/
def scrubEnd (s : State) (f : Nat) : State :=
  let d := s.frame f
  let owner := if d.owner < 64 ∧ resetting s d.owner then 64 else d.owner
  linkFree (zeroLoc s (s.loc f)) f owner

/-! ### Orders, moves and fetches that end early (R263, R273) -/

/-- Tier of a page: that of its location, or its off-package tier. -/
def pageTier (s : State) (e : Pte) : Nat := if e.tier = 0 then s.frTier e.frame else e.tier

/-- Tiers that conform to a hint. -/
def hintConforms (h t : Nat) : Bool :=
  if h = 1 then t == 0 else if h = 2 then decide (t ≤ 1) else if h = 3 then t == 1 else decide (1 ≤ t)

/-- The pages an order names: op 2, and SET_HINT on a lane record, name the whole lane (R258). -/
def orderPages (s : State) (c : Ctx) (o : Order) : List Nat :=
  if o.op = 2 ∨ (o.op = 3 ∧ o.target % 2 = 1) then List.range (lanePages s c o.lane)
  else (List.range o.count).map (o.first + ·)

/-- The effective hint a page has, or will have once a SET_HINT has written its hint (R257, R258). -/
def orderHint (s : State) (c : Ctx) (o : Order) (page : Nat) : Nat :=
  let own := (pteAt s c o.lane page).hint
  if o.op ≠ 3 then effHint s c o.lane own
  else
    let laneH := if o.target % 2 = 1 then o.hint else laneHint s c o.lane
    let own1 := if o.target % 2 = 1 then own else o.hint
    if 1 ≤ own1 ∧ own1 ≤ 4 then own1 else if 1 ≤ laneH ∧ laneH ≤ 4 then laneH else c.hint

/-- Where an order sends a page. -/
def orderTarget (s : State) (c : Ctx) (o : Order) (page : Nat) : Nat :=
  if o.op ≠ 3 then o.target
  else if orderHint s c o page ≤ 2 then 0 else 1

/-- A page already lies where an order wants it. -/
def orderDone (s : State) (c : Ctx) (o : Order) (page : Nat) : Bool :=
  let t := pageTier s (pteAt s c o.lane page)
  if o.op = 3 then hintConforms (orderHint s c o page) t else t == o.target

/-- Pages of an order that lie where it wants them; none where its context or lane is no longer there (R258). -/
def orderCount (s : State) (o : Order) : Nat :=
  let c := s.ctxAt (hSlot o.handle)
  let named := fun j => decide (o.op = 2 ∨ (o.op = 3 ∧ o.target % 2 = 1)) || decide (o.first ≤ j) && decide (j < o.first + o.count)
  if c.gen ≠ hGen o.handle ∨ c.st = .free ∨ c.lanes ≤ o.lane then 0
  else ((List.range (lanePages s c o.lane)).filter fun j => named j && orderDone s c o j).length

/-- The number of the order in progress: how many the migrator has completed (R278). -/
def orderNo (s : State) : Nat := s.rg Reg.FRM_MIG_RD

/-- Complete the move order in progress: status and done count go to the ring entry, FRM_MIG_RD advances and order_done
is posted (R258, R260). -/
def orderEnd (s : State) (status : Nat) : State :=
  match s.frm.order with
  | none => s
  | some o =>
    let s1 := (s.putByte (o.addr + 21) status).putLE (o.addr + 24) 4 (orderCount s o)
    let s2 := { s1 with frm := { s1.frm with order := none } }
    event0 (s2.setRg Reg.FRM_MIG_RD (s2.rg Reg.FRM_MIG_RD + 1)) .frm 0 8

/-- Drop a move: its COPY_DST frame goes to SCRUB and mig_lock clears (R263). -/
def moveDrop (s : State) (m : Move) : State :=
  let s0 := memWithdraw (memRelease s (s.frAddr m.src) (1024 + m.src)) (s.frAddr m.src) (1024 + m.src)
  let sd := if m.target ≤ 1 then memWithdraw (memRelease s0 (s0.frAddr m.dst) (1024 + m.src)) (s0.frAddr m.dst) (1024 + m.src) else s0
  let s1 := { sd with frm := { sd.frm with moves := sd.frm.moves.filter (· != m) } }
  let s2 := s1.setFrame m.src { s1.frame m.src with migLock := false }
  if m.target ≤ 1 then toScrub s2 m.dst else s2

/-- Stop every move of a context (R263): its order completes with `status`. -/
def movesStop (s : State) (slot gen status : Nat) : State :=
  let s1 := (s.frm.moves.filter fun m => m.slot == slot && m.gen == gen).foldl moveDrop s
  match s1.frm.order with
  | some o => if hSlot o.handle = slot ∧ hGen o.handle = gen then orderEnd s1 status else s1
  | none => s1

/-- Drop a fetch: its frame goes to SCRUB. -/
def fetchDrop (s : State) (f : Fetch) : State :=
  let s1 := memWithdraw (memRelease s (s.frAddr f.frame) (1024 + f.frame)) (s.frAddr f.frame) (1024 + f.frame)
  toScrub { s1 with frm := { s1.frm with fetches := s1.frm.fetches.filter (· != f) } } f.frame

/-- Drop the fetches of a context. -/
def fetchesStop (s : State) (slot gen : Nat) : State :=
  (s.frm.fetches.filter fun f => f.slot == slot && f.gen == gen).foldl fetchDrop s

/-! ### RELEASE (R131) -/

/-- Lower the counts of the frames one lane names, with return entries for pages off the package. -/
def releaseLane (s : State) (c : Ctx) (lane : Nat) : State :=
  (List.range (lanePages s c lane)).foldl (fun s j =>
    let e := pteAt s c lane j
    if !e.valid then s
    else if e.tier = 0 then decRef s e.frame
    else returnEntry s e.frame e.tier c.part) s

/-- A request names a context: as its own, or as a CLONE's source. -/
def namesCtx (s : State) (slot gen q : Nat) : Bool :=
  let h := (s.reqAt q).handle
  h != noHandle && hSlot h == slot && hGen h == gen

/-- Queued CLONEs that found the context by a key are stale once it is gone: counted and posted (R314). Only they carry a payload, the key
(R565). -/
def staleKeys (s : State) (slot gen : Nat) : State :=
  ((queuedReqs s).filter fun q => namesCtx s slot gen q && (s.reqAt q).kind == 3 && (s.reqAt q).bytes != 0).foldl (fun s q =>
    event (s.count Reg.RDL_STALE) .rdl 0 5 { i0 := (s.reqAt q).handle }) s

/-- The effects of RELEASE on a context (R131): frames, table space, look-aside entries, queued requests and the slot. -/
def releaseApply (s : State) (slot : Nat) : State :=
  let c := s.ctxAt slot
  if c.st = .free then s
  else
    let s1 := fetchesStop (movesStop s slot c.gen stBAD_GEN) slot c.gen
    let s2 := (List.range c.lanes).foldl (fun s l => releaseLane s c l) s1
    let mine := s2.ctx.cows.filter (·.slot == slot)
    let s3 := mine.foldl (fun s w => copyDstBack s w.dst)
      { s2 with ctx := { s2.ctx with cows := s2.ctx.cows.filter (·.slot != slot) } }
    let s4 := labDrop (freeContextTables s3 c) slot
    let s5 := dismissWhere (staleKeys s4 slot c.gen) (namesCtx s4 slot c.gen) stBAD_GEN
    let s6 := s5.setCtx slot { gen := (c.gen + 1) % 256 }
    match ctxOwner s6 slot with
    | none => s6
    | some p => { s6 with ctx := { s6.ctx with
        freeQ := SMap.set s6.ctx.freeQ [] p (Runs.push (SMap.get s6.ctx.freeQ [] p) slot 1) } }

/-! ### Loss (R98, R566) -/

/-- A context enters LOST: its queued AREQs, APPENDs, CLONEs naming it and MIGRATEs complete with CTX_LOST, and lost is
posted with its cause (R97, R98, R566). -/
def loseContext (s : State) (slot cause : Nat) : State :=
  let c := s.ctxAt slot
  if c.st = .active then
    let s1 := s.setCtx slot { c with st := .lost }
    let s2 := dismissWhere s1 (fun r => (s1.reqAt r).kind != 4 && namesCtx s1 slot c.gen r) stCTX_LOST
    event s2 .ctx 0 3 { status := stCTX_LOST, part := some ((ctxOwner s2 slot).getD c.part),
                        i0 := if cause = 2 then slot else ctxHandle c slot, i1 := cause }
  else s

/-- The context that a request names has been lost since it was admitted: it completes with CTX_LOST (R98). -/
def ctxGone (s : State) (slot : Nat) : Bool :=
  let r := s.reqAt slot
  let c := s.ctxAt (hSlot r.handle)
  r.kind != 4 && r.handle != noHandle && decide (c.st = .lost) && c.gen == hGen r.handle

/-! ### Uncorrectable table entries (R506) -/

/-- A context-table entry cannot be read: the context is LOST (R98, R506). -/
def ctxBad (s : State) (slot : Nat) : State :=
  loseContext (fault (s.count Reg.BST_PEAT_UNCORR) .ctx 0 0x24 none slot 0) slot 2

/-- What a request has booked is dropped, and it leaves every queue. -/
def reqDrop (s : State) (slot : Nat) : State :=
  dequeue { s with
    tpl := { s.tpl with items := s.tpl.items.filter (fun it => !(it.reqs == [slot]))
                        order := s.tpl.order.filter (· != slot), results := SMap.set s.tpl.results [] slot [] }
    fab := { s.fab with parked := s.fab.parked.filter fun q => q.req != slot } } slot

/-- A request-table entry cannot be read: the request completes with CRC; where the id or conn word is lost no reply is sent and the slot
stays DONE (R506). -/
def reqBad (s : State) (slot : Nat) (noReply : Bool) : State :=
  let r := s.reqAt slot
  let s1 := fault (s.count Reg.BST_PEAT_UNCORR) .ctx 0 0x25 none slot 0
  if r.st = .queued ∨ r.st = .admitted then
    let s2 := reqDrop s1 slot
    if noReply then s2.setReq slot { r with st := .done, status := stCRC } else settle s2 slot stCRC r.handle []
  else s1

/-! ### CLONE (R120 to R125, R304) -/

/-- A CLONE's fields (R565). -/
structure CloneFields where
  maxLen : Nat
  layerFirst : Nat
  layerCount : Nat
  groupFirst : Nat
  groupCount : Nat
  code : Nat
  d32 : Nat
  kvh : Nat
  hint : Nat
  flags : Nat
deriving DecidableEq, Repr

def cloneFields (r : Req) : CloneFields :=
  ⟨unpackLE r.params 0 4 % 2 ^ 25, unpackLE r.params 4 2, unpackLE r.params 6 2, unpackLE r.params 8 2,
   unpackLE r.params 10 2, unpackLE r.params 16 1, unpackLE r.params 17 1, unpackLE r.params 18 1,
   unpackLE r.params 19 1, unpackLE r.params 20 1⟩

/-- The context that a CLONE creates, before it has a slot: geometry, code, seed and slice from the message or from the
source; hint, max_len and flags from the message (R120, R408). -/
def cloneCtx (s : State) (slot : Nat) : Ctx :=
  let r := s.reqAt slot
  let f := cloneFields r
  let part := reqPart s slot
  if r.handle = noHandle then
    { st := .active, part := part, code := f.code, d32 := f.d32, kvh := f.kvh
      t := pageLen f.code (32 * f.d32) f.kvh, layerFirst := f.layerFirst, layerCount := f.layerCount
      groupFirst := f.groupFirst, groupCount := f.groupCount, hint := f.hint, mirror := bitOf f.flags 1
      shareOk := bitOf f.flags 0, maxLen := f.maxLen, seed := r.payload }
  else
    let c := s.ctxAt (hSlot r.handle)
    { c with st := .active, gen := 0, part := part, hint := f.hint, mirror := bitOf f.flags 1
             shareOk := bitOf f.flags 0, maxLen := f.maxLen, laneArray := 0 }

/-- Entries that each lane of a CLONE receives. -/
def clonePages (s : State) (slot : Nat) : Nat :=
  let r := s.reqAt slot
  if r.handle = noHandle then 0 else ceilDiv r.position (s.ctxAt (hSlot r.handle)).t

/-- Write one lane of a clone: entries that name the source's frames with cow set, and the lane record (R121). An entry's hint is 0, to inherit
the clone lane's (DESIGN CHOICE: the spec does not say whether the source entry's hint is copied; assumption 110). -/
def cloneLane (s : State) (src c : Ctx) (n lane : Nat) : State :=
  let pages := ceilDiv n src.t
  let s1 := setLanePages s c lane pages
  let s2 := (List.range pages).foldl (fun s j =>
    let e := pteAt s src lane j
    let cnt := if j + 1 = pages ∧ n % src.t ≠ 0 then n % src.t - 1 else src.t - 1
    setPte s c lane j { e with cow := true, countM1 := cnt, hint := 0 }) s1
  setLaneCow (setLaneLen s2 c lane n) c lane (n % src.t ≠ 0)

/-- Take at admission what a CLONE needs, all or nothing: table space, then one COPY_DST frame for each lane whose last
page is partial (R115, R120, R121). -/
def cloneTake (s : State) (slot : Nat) : Except Nat State :=
  let r := s.reqAt slot
  let c0 := cloneCtx s slot
  let lanes := c0.lanes
  let p := c0.part
  let pending := (s.tpl.prep.filter fun kv => reqPart s kv.1 == p).length
  if (SMap.get s.ctx.freeQ [] p).size ≤ pending then .error (256 + stQUOTA)
  else match allocContext s p lanes c0.t c0.maxLen with
  | .error e => .error e
  | .ok (s1, arr) =>
    let partial_ := decide (r.handle ≠ noHandle) && decide (r.position % c0.t ≠ 0)
    let tiers := hintTiers c0.hint
    match takeFrames s1 p (if partial_ then List.replicate lanes (tiers, true, .copyDst) else []) with
    | .error e => .error e
    | .ok (s2, fs) =>
      let src := s.ctxAt (hSlot r.handle)
      let c := { c0 with laneArray := arr }
      let s3 := if r.handle = noHandle then s2
        else (List.range lanes).foldl (fun s l => cloneLane s src c r.position l) s2
      .ok { s3 with tpl := { s3.tpl with taken := SMap.set s3.tpl.taken [] slot fs
                                         prep := SMap.set s3.tpl.prep {} slot c } }

/-- The count increases of a CLONE (R121). -/
def cloneCount (s : State) (slot : Nat) : State :=
  let r := s.reqAt slot
  if r.handle = noHandle then s
  else
    let c := SMap.get s.tpl.prep {} slot
    (List.range c.lanes).foldl (fun s l => (List.range (ceilDiv r.position c.t)).foldl (fun s j =>
      let f := (pteAt s c l j).frame
      let own := (s.frame f).owner
      let s1 := incRef s f
      if own < 64 ∧ own ≠ c.part then
        let a := Reg.PRT_EXPORTED_LO + 4 * (own / 32)
        s1.setFld a (own % 32) (own % 32) 1
      else s1) s) s

/-- A CLONE takes effect: its slot leaves the head of the free-slot queue, its context becomes ACTIVE, pending copies are
recorded, and its ADONE carries the new handle (R95, R121, R411). -/
def cloneApply (s : State) (slot status : Nat) : State :=
  let r := s.reqAt slot
  let c0 := SMap.get s.tpl.prep {} slot
  let p := c0.part
  let q := SMap.get s.ctx.freeQ [] p
  match Runs.head? q with
  | none => settle s slot stQUOTA r.handle []
  | some k =>
    let c := { c0 with gen := (s.ctxAt k).gen }
    let fs := SMap.get s.tpl.taken [] slot
    let s1 := s.setCtx k c
    let s2 := { s1 with
      ctx := { s1.ctx with freeQ := SMap.set s1.ctx.freeQ [] p (Runs.tail q) }
      tpl := { s1.tpl with prep := SMap.set s1.tpl.prep {} slot {}, taken := SMap.set s1.tpl.taken [] slot [] } }
    let cows := fs.zipIdx.map fun (f, l) =>
      let e := pteAt s2 c l (lanePages s2 c l - 1)
      (⟨k, l, f, e.frame, r.position % c.t, false⟩ : Cow)
    let s3 := { s2 with ctx := { s2.ctx with cows := s2.ctx.cows ++ cows } }
    settle s3 slot status (mkHandle p c.gen k) []

/-! ### Copy-on-write (R122) -/

/-- Copy a page's header, sketch and first `n` slots into another frame, with zero over the other slots (R122). -/
def copyPagePart (s : State) (g : Geo) (src dst n : Nat) : State :=
  let rd := frameReader s src
  let e := elemBits g.code
  let kb := n * g.kvh * g.d * e / 8
  let sb := if hasScale g.code then n * g.kvh * (g.d / 32) else 0
  let run := fun (s : State) (o len : Nat) => s.writeBytes (s.frAddr dst + o) ((List.range len).map fun i => rd (o + i))
  let s1 := run (zeroLoc s (s.loc dst)) 0 1024
  let s2 := run (run s1 (blkOff g 0) kb) (blkOff g 1) kb
  run (run s2 (scaleOff g 0) sb) (scaleOff g 1) sb

/-- The FRM finishes copying a lane's partial page (R122). -/
def cowCopy (s : State) (slot lane : Nat) : State :=
  match s.ctx.cows.find? fun w => w.slot == slot && w.lane == lane && !w.copied with
  | none => s
  | some w =>
    let s1 := copyPagePart s (s.ctxAt slot).geo w.src w.dst w.slots
    { s1 with ctx := { s1.ctx with cows := s1.ctx.cows.map fun x => if x = w then { x with copied := true } else x } }

/-- The rewrite at the boundary after the copy: entry, new frame, shared frame's count, copy_pending (R122). -/
def cowRewrite (s : State) (w : Cow) : State :=
  let c := s.ctxAt w.slot
  let j := lanePages s c w.lane - 1
  let s1 := frameFirst s w.dst w.slot c.gen j w.lane
  let s2 := setPte s1 c w.lane j { pteAt s1 c w.lane j with frame := w.dst, cow := false }
  let s3 := setLaneCow (decRef s2 w.src) c w.lane false
  { s3 with ctx := { s3.ctx with cows := s3.ctx.cows.filter (· != w) } }

/-- All copies that have ended are applied (R533 step 3). -/
def cowRewriteAll (s : State) : State := (s.ctx.cows.filter (·.copied)).foldl cowRewrite s

/-! ### APPEND (R126 to R130, R145 to R157) -/

def apGroupFirst (r : Req) : Nat := unpackLE r.params 0 2
def apGroups (r : Req) : Nat := unpackLE r.params 2 1
def apFp32 (r : Req) : Bool := bitOf (unpackLE r.params 3 1) 0
def apTokens (r : Req) : Nat := unpackLE r.params 4 2

/-- Lanes that an APPEND covers, in group order. -/
def apLanes (r : Req) (c : Ctx) : List Nat :=
  (List.range (apGroups r)).map fun i => (r.layer - c.layerFirst) * c.groupCount + (apGroupFirst r + i - c.groupFirst)

/-- Pages that tokens pos to pos + a − 1 open: the slot-0 positions (R129). -/
def pagesOpened (t pos a : Nat) : Nat := ceilDiv (pos + a) t - ceilDiv pos t

/-- One element vector of an APPEND's payload, converted to FP32: lane `li` of the message, token `i`, K or V, head `h`
(R145, R407). -/
def apVec (s : State) (r : Req) (c : Ctx) (li i kv h : Nat) : List F32 :=
  let d := 32 * c.d32
  let n := (((li * apTokens r + i) * 2 + kv) * c.kvh + h) * d
  (List.range d).map fun k =>
    if apFp32 r then BitVec.ofNat 32 (s.readLE (r.payload + 4 * (n + k)) 4)
    else bf16ToF32 (s.readLE (r.payload + 2 * (n + k)) 2)

/-- The vector as it is quantized: rotated under the context's seed for a rotated code (R152). -/
def apRot (c : Ctx) (v : List F32) : List F32 :=
  if isRotated c.code then rotate (BitVec.ofNat 64 c.seed) v else v

/-- Every element of the APPEND is finite, before and after rotation (R145). -/
def apFinite (s : State) (r : Req) (c : Ctx) : Bool :=
  (List.range (apGroups r)).all fun li => (List.range (apTokens r)).all fun i => (List.range 2).all fun kv =>
    (List.range c.kvh).all fun h =>
      let v := apVec s r c li i kv h
      v.all f32Finite && (apRot c v).all f32Finite

/-- Store one token in slot `pos mod T` of a frame: header, K, V and scale bytes, and the sketch (R141 to R157). The frame's
header is written first when the page opens, so that its layout on the banks holds (R220). -/
def tokenWrite (s : State) (c : Ctx) (slot lane f pos : Nat) (first : Bool) (kvs : List (List (List F32))) : State :=
  let g := c.geo
  let sl := pos % g.t
  let a := s.frAddr f
  let x := g.kvh * g.d
  let h0 : PageHdr := if first then ⟨g, 0, pos / g.t, ctxHandle c slot, lane, true, 0⟩ else readHdr (frameReader s f)
  let s0 := if first then (s.writeBytes a (hdrBytes h0)).writeBytes (a + 32) (sketchBytes x (emptySketch x)) else s
  let put := fun (acc : State × Nat) (kvi : List (List F32) × Nat) =>
    kvi.1.zipIdx.foldl (fun (acc : State × Nat) (vh : List F32 × Nat) =>
      let (codes, scales, sat) := quantVec g.code vh.1
      let n := sl * g.kvh + vh.2
      let s1 := acc.1.writeBytes (a + blkOff g kvi.2 + n * g.d * elemBits g.code / 8) (packCodes (elemBits g.code) codes)
      let s2 := s1.writeBytes (a + scaleOff g kvi.2 + n * (g.d / 32)) scales
      (s2, acc.2 + sat)) acc
  let (s1, sat) := kvs.zipIdx.foldl put (s0, 0)
  let keys := (List.range g.kvh).flatMap fun h => pageVec (frameReader s1 f) g 0 sl h
  let (s2, ok) := if h0.skValid then
      match sketchToken x first (readSketch (frameReader s1 f) x) keys with
      | some gs => (s1.writeBytes (a + 32) (sketchBytes x gs), true)
      | none => (s1, false)
    else (s1, false)
  s2.writeBytes a (hdrBytes { h0 with count := sl + 1, skValid := ok, clamped := min 0xFFFF (h0.clamped + sat) })

/-- Append one token to a lane, opening a page with the next taken frame at slot 0. -/
def appendToken (slot lane : Nat) (kvs : List (List (List F32))) (acc : State × List Nat) (pos : Nat) :
    State × List Nat :=
  let s := acc.1
  let c := s.ctxAt slot
  let j := pos / c.t
  if pos % c.t = 0 then
    match acc.2 with
    | [] => acc
    | f :: fs =>
      let s1 := frameFirst s f slot c.gen j lane
      let s2 := tokenWrite s1 c slot lane f pos true kvs
      let s3 := setLanePages s2 c lane (j + 1)
      (setPte s3 c lane j ⟨f, 0, true, false, (readHdr (frameReader s3 f)).skValid, 0, 0⟩, fs)
  else
    let e := pteAt s c lane j
    let s1 := tokenWrite s c slot lane e.frame pos false kvs
    (setPte s1 c lane j { e with countM1 := pos % c.t
                                 skValid := e.skValid && (readHdr (frameReader s1 e.frame)).skValid }, acc.2)

/-- Apply an APPEND to one lane. -/
def appendLane (r : Req) (slot : Nat) (acc : State × List Nat) (ln : Nat × Nat) : State × List Nat :=
  let (lane, li) := ln
  let s := acc.1
  let c := s.ctxAt slot
  let a := apTokens r
  let vecs := (List.range a).map fun i => (List.range 2).map fun kv => (List.range c.kvh).map fun h =>
    apRot c (apVec s r c li i kv h)
  let res := vecs.zipIdx.foldl (fun acc vi => appendToken slot lane vi.1 acc (r.position + vi.2)) acc
  (setLaneLen res.1 c lane (r.position + a), res.2)

/-- The APPEND commits as a whole, or writes nothing and gives its frames back through SCRUB (R126, R128, R145): the state
and the status. -/
def appendCommit (s : State) (slot : Nat) : State × Nat :=
  let r := s.reqAt slot
  let k := hSlot r.handle
  let c := s.ctxAt k
  let fs := SMap.get s.tpl.taken [] slot
  let s0 := { s with tpl := { s.tpl with taken := SMap.set s.tpl.taken [] slot [] } }
  let lanes := apLanes r c
  let ok := !ctxGone s slot && lanes.all (fun l => laneLen s c l == r.position) && decide (r.position + apTokens r ≤ c.maxLen)
    && fs.length == lanes.length * pagesOpened c.t r.position (apTokens r) && apFinite s r c
  if ok then ((lanes.zipIdx.foldl (appendLane r k) (s0, fs)).1, stOK)
  else (fs.foldl toScrub s0, if ctxGone s slot then stCTX_LOST else stMALFORMED)

/-! ### Starvation (R129, R130) -/

/-- The lanes of an APPEND enter the append-starved state (R129). -/
def starveLanes (s : State) (slot : Nat) : State :=
  let r := s.reqAt slot
  let c := s.ctxAt (hSlot r.handle)
  let s1 := (apLanes r c).foldl (fun s l => setLaneStarved s c l true) s
  event s1 .frm 0 5 { status := stNO_FRAME, part := some c.part, i0 := r.handle
                      i1 := r.layer % 65536 + apGroupFirst r % 65536 * 65536 }

/-- Clear the starved lanes of one context whose partition again has frames for them (R130). -/
def starvedClear (s : State) (slot : Nat) : State :=
  let c := s.ctxAt slot
  if c.st = .free ∨ s.freeCnt c.part ≤ s.fld (Reg.FRM_PRES c.part) 24 0 then s
  else
    let ls := (List.range c.lanes).filter fun l =>
      laneStarved s c l && (hintTiers (effHint s c l 0)).any fun t => !(s.freeList c.part t).isEmpty
    if ls.isEmpty then s
    else
      event (ls.foldl (fun s l => setLaneStarved s c l false) s) .frm 0 6
        { part := some c.part, i0 := ctxHandle c slot, i1 := ls.length }

/-- Context slots that are listed: every slot ever used. -/
def ctxSlots (s : State) : List Nat := s.ctx.ctxs.map (·.1)

def starvedClearAll (s : State) : State := (ctxSlots s).foldl starvedClear s

/-! ### CTX_FORCE (R133) -/

/-- Carry out a CTX_FORCE operation on a slot whose generation matches (R133). -/
def ctxForce (s : State) (slot gen op : Nat) : State :=
  let c := s.ctxAt slot
  if c.st = .free ∨ c.gen ≠ gen then s
  else if op = 1 then (List.range c.lanes).foldl (fun s l => setLaneStarved s c l false) s
  else if op = 2 then loseContext s slot 0
  else if op = 3 then releaseApply s slot
  else s

/-! ### Grants and device reservations (R136, R137) -/

/-- Take up to `n` frames from the head of a queue: frames taken, runs, rest. -/
def grantMove (q : Runs) (n : Nat) : Nat × Runs × Runs :=
  let (t, rest) := Runs.take q n
  (t.size, t, rest)

/-- FRM_GRANT applies (R136). -/
def frmGrant (s : State) (p tier : Nat) (toPool : Bool) (n : Nat) : State :=
  if n = 0 then s
  else
    let (moved, t, rest) := grantMove (if toPool then s.freeList p tier else s.pool tier) n
    let s1 := if toPool then (s.setFreeList p tier rest).setPool tier (Runs.append (s.pool tier) t)
      else (s.setPool tier rest).setFreeList p tier (Runs.append (s.freeList p tier) t)
    let st := if moved < n then stNO_FRAME else stOK
    let s2 := s1.setRg Reg.FRM_GRANT_STAT (moved + st * 2 ^ 24)
    if moved < n then
      event s2 .frm 0 4 { status := stNO_FRAME, i0 := p + tier * 64 + b2n toPool * 128, i1 := moved }
    else s2

/-- FRM_DEVRES with release 0: a FREE frame of the device pool becomes RESERVED (R137). -/
def devresTake (s : State) (f : Nat) : State :=
  let t := s.frTier f
  if f < frameCount ∧ (s.pool t).has f then
    ((s.setPool t ((s.pool t).remove f)).setFrame f { st := .reserved, owner := 64 }).setRg Reg.FRM_DEVRES_STAT stOK
  else s.setRg Reg.FRM_DEVRES_STAT stMALFORMED

/-- FRM_DEVRES with release 1: a device-owned RESERVED frame goes through SCRUB to the device pool (R137). -/
def devresRelease (s : State) (f : Nat) : State :=
  let d := s.frame f
  if d.st = .reserved ∧ d.owner = 64 ∧ ¬(63744 ≤ f ∧ f < 65536) then
    (toScrub s f).setRg Reg.FRM_DEVRES_STAT stOK
  else s.setRg Reg.FRM_DEVRES_STAT stMALFORMED

/-! ### MIGRATE (R410) -/

def migGroup (r : Req) : Nat := unpackLE r.params 0 2
def migFirst (r : Req) : Nat := unpackLE r.params 8 4
def migCount (r : Req) : Nat := unpackLE r.params 12 4
def migLength (r : Req) : Nat := unpackLE r.params 16 4 % 2 ^ 25
def migLane (r : Req) (c : Ctx) : Nat := (r.layer - c.layerFirst) * c.groupCount + (migGroup r - c.groupFirst)

/-- Pages of a lane in admitted MIGRATEs that are not yet mapped (R410). -/
def migPending (s : State) (slot lane : Nat) : Nat :=
  s.fab.imports.foldl (fun a i =>
    let r := s.reqAt i.req
    if hSlot r.handle = slot ∧ migLane r (s.ctxAt slot) = lane then a + migCount r else a) 0

/-- The service copy of a MIGRATE's pages from staging into its frames; the unused tail of each frame is zero (R162,
R410). -/
def migCopy (s : State) (slot : Nat) : State :=
  match s.fab.imports.find? fun i => i.req == slot && !i.copied with
  | none => s
  | some im =>
    let r := s.reqAt slot
    let g := (s.ctxAt (hSlot r.handle)).geo
    let n := pageWireBytes g
    let s1 := im.frames.zipIdx.foldl (fun s (f, i) =>
      let bs := s.readBytes (r.payload + n * i) n
      (zeroLoc s (s.loc f)).writeBytes (s.frAddr f) bs) s
    { s1 with fab := { s1.fab with
      imports := s1.fab.imports.map fun x => if x.req = slot then { x with copied := true } else x } }

/-- The boundary that maps a MIGRATE's pages: entries, lane length, ADONE (R410, R411). Where the context has been released since, its frames
go back and the request completes normally (R131); where it has been lost, with CTX_LOST (R98). -/
def migMap (s : State) (im : Import) : State :=
  let r := s.reqAt im.req
  let k := hSlot r.handle
  let c := s.ctxAt k
  let lane := migLane r c
  let s0 := { s with fab := { s.fab with imports := s.fab.imports.filter (·.req != im.req) } }
  let late := decide (r.target < r.ran)
  let good := if r.cancel then stCANCELLED else if late then stLATE else stOK
  if c.st ≠ .active ∨ c.gen ≠ hGen r.handle then
    settle (im.frames.foldl toScrub s0) im.req (if ctxGone s im.req ∧ ¬ r.cancel then stCTX_LOST else good) r.handle []
  else
    let n := migCount r
    let s1 := setLanePages s0 c lane (migFirst r + n)
    let s2 := im.frames.zipIdx.foldl (fun s (f, i) =>
      let j := migFirst r + i
      let cnt := if i + 1 = n then migLength r - 1 - j * c.t else c.t - 1
      let s1 := frameFirst s f k c.gen j lane
      setPte s1 c lane j ⟨f, 0, true, false, (readHdr (frameReader s1 f)).skValid, cnt, 0⟩) s1
    let s3 := setLaneLen s2 c lane (migLength r)
    settle s3 im.req good r.handle []

def migMapAll (s : State) : State := (s.fab.imports.filter (·.copied)).foldl migMap s

end Sys2Proof.Machine
end

