-- ==== Sys2Proof/Machine/Admission.lean ====
section
/-!
DEFINITION. The share tally, the price of a request at intake, and the admission pass of a tick (R71 to R79, R199 to R217,
R249, R272 to R275).
-/

namespace Sys2Proof.Machine

/-! ### Other kinds of request in the plan -/

/-- A request is an APPEND that covers a lane of a context. -/
def appendsTo (s : State) (k gen lane q : Nat) : Bool :=
  let r := s.reqAt q
  r.kind == 2 && hSlot r.handle == k && hGen r.handle == gen && (apLanes r (s.ctxAt k)).contains lane

/-- End of the last item of the APPENDs booked in this tick that cover a lane: each is applied in full before the next one for the lane
begins (R127). -/
def appendEnd (s : State) (b : TplBlock) (k gen lane : Nat) : Nat :=
  b.items.foldl (fun a it => if appendsTo s k gen lane (it.reqs.headD 0) then max a (it.start + it.len) else a) planStart

/-- The frame that the FRM has taken for the first page of a lane without pages: the first of an APPEND admitted earlier in this tick that
covers the lane and opens one, else of the frames `fs` of APPEND `slot` (R83, R129). -/
def laneFirst (s : State) (b : TplBlock) (k gen lane slot : Nat) (fs : List Nat) : Option Nat :=
  let own := fun (q : Nat) (fs : List Nat) =>
    let r := s.reqAt q
    let c := s.ctxAt k
    let per := pagesOpened c.t r.position (apTokens r)
    if per = 0 then none else ((apLanes r c).findIdx? (· == lane)).bind fun i => fs[i * per]?
  ((s.tpl.order.filter (appendsTo s k gen lane)).findSome? fun q => own q (SMap.get b.taken [] q)).orElse fun _ => own slot fs

/-- A lane takes no APPEND now: a pending copy, a snapshot being taken, or an admitted MIGRATE not yet mapped (R123, R459,
R460). -/
def laneClosed (s : State) (k lane : Nat) : Bool :=
  let c := s.ctxAt k
  laneCow s c lane || decide (migPending s k lane ≠ 0)
    || (match s.fab.snap with
        | some n => n.slot == k && n.gen == c.gen && mst s k == mstSNAP && decide (n.tick < s.time.tick)
        | none => false)

/-- The frames an APPEND needs, in lane order (R115, R129): tiers for each page opened. -/
def appendNeeds (s : State) (r : Req) (c : Ctx) : List (List Nat × Bool × FrSt) :=
  (apLanes r c).flatMap fun l =>
    List.replicate (pagesOpened c.t r.position (apTokens r)) (hintTiers (effHint s c l 0), false, .data)

/-- The first tier in which a lane without pages may take a frame: where none has been taken, its APPEND is priced there (R83). -/
def forecastFen (s : State) (c : Ctx) (lane : Nat) : Bool := (hintTiers (effHint s c lane 0)).headD 1 != 0

/-- Book an APPEND's lane items, each on its lane's owning tile; a lane whose last page lies in fen also takes its channel
in a MEM window after the tile's work (R83, R211, R246). `firsts` gives the first frame taken for a lane that has no page yet; where none
could be taken no channel is booked. -/
def bookAppend (s : State) (b : TplBlock) (slot : Nat) (firsts : Nat → Option Nat) : Except PlanFail (TplBlock × Nat × Nat) :=
  let r := s.reqAt slot
  let k := hSlot r.handle
  let c := s.ctxAt k
  let g := c.geo
  let a := apTokens r
  (apLanes r c).foldl (fun acc lane => match acc with
    | .error f => .error f
    | .ok (b, charge, pj) =>
      let n := lanePages s c lane
      let e := pteAt s c lane (n - 1)
      let at_ := if n = 0 then firsts lane else some e.frame
      let fen := match at_ with
        | some f => decide (65536 ≤ s.loc f)
        | none => forecastFen s c lane
      let f := at_.getD 0
      let l := s.loc f
      let chan := fen && at_.isSome
      if n ≠ 0 ∧ ¬ e.walkOk then .error (.walk lane (n - 1))
      else if chan && !s.up .fen (locStack l) then .error .noFit
      else if chan && (fenced s l 0 || fenced s l 1) then .error (.unplaceable f)
      else match owningTile s c k lane with
      | none => .error (.unplaceable (placeInfo s f))
      | some o =>
        let (tc, sc) := costAppend g fen a (pagesOpened c.t r.position a)
        match bookTile b o (appendEnd s b k c.gen lane) tc s.sealCC with
        | none => .error .noFit
        | some (b1, x) =>
          let it : Item := ⟨[slot], .append lane, .tile o, x, tc, a, [], .booked⟩
          let b2 := { b1 with items := b1.items ++ [it] }
          let ch := charge + tc + 2 * sc
          let e := pj + energyAppend g fen a
          if chan then
            let y := findMem s b2 (locStack l) (locPc l) sc s.sealCC (x + tc)
            if y + 2 * sc ≤ s.sealCC ∧ entriesOk b2 then
              let it2 : Item := ⟨[slot], .append lane, .chan (locStack l) (locPc l), y, 2 * sc, a, [], .booked⟩
              let b3 := b2.addMem (32 * locStack l + locPc l) y (y + 2 * sc) true
              .ok ({ b3 with items := b3.items ++ [it2] }, ch, e)
            else .error .noFit
          else if entriesOk b2 then .ok (b2, ch, e) else .error .noFit) (.ok (b, 0, 0))

/-- What planning a request yields: the state with its frames taken, the plan with its items, its charge and energy, and the status with
which it completes where its frames or its place cannot be had (R72, R120, R129, R130, R410). -/
structure Planned where
  s : State
  b : TplBlock
  charge : Nat
  pj : Nat
  fails : Option Nat

/-- Plan an APPEND at admission: its frames are taken under R114 and R115, and its items booked (R126 to R130). Where they cannot be taken
its fit and charge are those of its forecast. -/
def planAppend (s : State) (b : TplBlock) (slot : Nat) : Except PlanFail Planned :=
  let r := s.reqAt slot
  let k := hSlot r.handle
  let c := s.ctxAt k
  let lanes := apLanes r c
  let needs := appendNeeds s r c
  let firsts := fun (s : State) (fs : List Nat) (lane : Nat) => laneFirst s b k c.gen lane slot fs
  let took : Except Nat (State × List Nat) :=
    if lanes.any (laneStarved s c) then .error stNO_FRAME else takeFrames s c.part needs
  if lanes.any (laneClosed s k) then .error .noFit
  else if !s.up .frm 0 && !needs.isEmpty then .error .noFit
  else match took with
    | .error e => (bookAppend s b slot (firsts s [])).map fun (b1, ch, pj) => ⟨s, b1, ch, pj, some e⟩
    | .ok (s1, fs) => (bookAppend s1 b slot (firsts s1 fs)).map fun (b1, ch, pj) =>
        ⟨s1, { b1 with taken := SMap.set b1.taken [] slot fs }, ch, pj, none⟩

/-- Pages of tier 2 or 3 in the range a CLONE shares (R275). -/
def cloneOff (s : State) (slot : Nat) : List (Nat × Nat) :=
  let r := s.reqAt slot
  if r.handle = noHandle then []
  else
    let c := s.ctxAt (hSlot r.handle)
    (List.range c.lanes).flatMap fun l =>
      ((List.range (clonePages s slot)).filter fun j => decide (2 ≤ (pteAt s c l j).tier)).map fun j => (l, j)

/-- Frame-allocator cost of a CLONE, RELEASE or MIGRATE (R83, R124, R410). -/
def frmCost (s : State) (slot : Nat) : Nat :=
  let r := s.reqAt slot
  let c := s.ctxAt (hSlot r.handle)
  if r.kind = 3 then (cloneCtx s slot).lanes * costClone (clonePages s slot)
  else if r.kind = 4 then (List.range c.lanes).foldl (fun a l => a + costRelease (lanePages s c l)) 0
  else costClone (migCount r)

/-- Book one item on the frame allocator. -/
def planFrm (s : State) (b : TplBlock) (slot : Nat) (kind : IKind) : Except PlanFail (TplBlock × Nat × Nat) :=
  let n := frmCost s slot
  match bookFrm b planStart n s.sealCC with
  | none => .error .noFit
  | some (b1, x) =>
    .ok ({ b1 with items := b1.items ++ [⟨[slot], kind, .frm, x, n, 0, [], .booked⟩] }, n, 0)

/-- Plan a CLONE at admission (R120, R121, R124, R275). -/
def planClone (s : State) (b : TplBlock) (slot : Nat) : Except PlanFail Planned :=
  let r := s.reqAt slot
  let c := s.ctxAt (hSlot r.handle)
  let long := decide (r.handle ≠ noHandle) && !(List.range c.lanes).all fun l => decide (r.position ≤ laneLen s c l)
  if !(cloneOff s slot).isEmpty then .error (.fetch (cloneOff s slot))
  else if !s.up .frm 0 then .error .noFit
  else (planFrm s b slot .clone).map fun (b1, ch, pj) =>
    if long then ⟨s, b1, ch, pj, some stMALFORMED⟩
    else match cloneTake s slot with
      | .error e => ⟨s, b1, ch, pj, some e⟩
      | .ok s1 => ⟨s1, { b1 with taken := s1.tpl.taken, prep := s1.tpl.prep }, ch, pj, none⟩

/-- Check of a MIGRATE's place in its lane at admission (R410). -/
def migPlace (s : State) (slot : Nat) : Bool :=
  let r := s.reqAt slot
  let k := hSlot r.handle
  let c := s.ctxAt k
  migFirst r == lanePages s c (migLane r c) + migPending s k (migLane r c)

/-- Plan a MIGRATE at admission: frames by the lane's hint, frame-allocator time (R115, R410). -/
def planMigrate (s : State) (b : TplBlock) (slot : Nat) : Except PlanFail Planned :=
  let r := s.reqAt slot
  let c := s.ctxAt (hSlot r.handle)
  let needs := List.replicate (migCount r) (hintTiers (effHint s c (migLane r c) 0), false, .data)
  if !s.up .frm 0 then .error .noFit
  else (planFrm s b slot .migrate).map fun (b1, ch, pj) =>
    if !migPlace s slot then ⟨s, b1, ch, pj, some stMALFORMED⟩
    else match takeFrames s c.part needs with
      | .error e => ⟨s, b1, ch, pj, some e⟩
      | .ok (s1, fs) => ⟨{ s1 with fab := { s1.fab with imports := s1.fab.imports ++ [⟨slot, fs, false⟩] } }, b1, ch, pj, none⟩

/-- Plan a request of any kind. -/
def planReq (s : State) (b : TplBlock) (slot : Nat) : Except PlanFail Planned :=
  let r := s.reqAt slot
  if !s.up .pwk 0 then .error .noFit
  else if r.kind = 1 then (planAreq s b slot (some (energyLimit s))).map fun (b1, ch, pj) => ⟨s, b1, ch, pj, none⟩
  else if r.kind = 2 then planAppend s b slot
  else if r.kind = 3 then planClone s b slot
  else if r.kind = 4 then (planFrm s b slot .release).map fun (b1, ch, pj) => ⟨s, b1, ch, pj, none⟩
  else planMigrate s b slot

/-! ### The price at intake (R71, R272) -/

/-- Tile cc and frame-allocator cc booked in a plan, the largest of any one unit. -/
def largestUnit (b : TplBlock) : Nat :=
  let sum := fun (l : List Busy) => l.foldl (fun a x => a + (x.hi - x.lo)) 0
  (b.tileBusy.map fun kv => sum kv.2).foldl max (sum b.frmBusy)

/-- The largest sum of the cc that a list books by tile. -/
def largestTile (l : List (Nat × Nat)) : Nat :=
  (l.map fun x => (l.filter (·.1 == x.1)).foldl (fun a y => a + y.2) 0).foldl max 0

/-- Charge of an AREQ by the ledger alone, and the most cc that one tile needs, where no plan of an empty tick takes it as the node stands:
each page at the unit that R201 gives it, an excluded tile standing for itself, a page whose walk fails left out, and a page off the package
in the tier of its fetch, on a unit and in a segment of its own (R70, R71, R272). -/
def priceAreq (s : State) (slot : Nat) : Nat × Nat :=
  let r := s.reqAt slot
  let c := s.ctxAt (hSlot r.handle)
  let g := c.geo
  let ws := (pageWorks s r c).filter fun w => (pteAt s c w.lane w.page).walkOk
  let n := areqRows r
  let owner := 128
  let (crown, thin) := ws.partition (goesCrown s [])
  let cost := fun (w : PageWork) => tilePageCost g (decide (65536 ≤ w.loc)) w.bound w.r
  let tile := fun (w : PageWork) => if w.loc < 65536 then (readingTile s w.loc).getD (w.loc / 512) else owner
  let (fixed, moving) := crown.partition fun w => decide (w.loc < 65536) && !w.off
  let walks := ((crown.map tile).eraseDups).map fun t => (t, costWalk)
  let home := 2 * costRotate g.code g.d n + costHandoff g.d n (areqWire r) + (ws.map fun w => costMerge g.d (w.r * g.kvh)).foldl (· + ·) 0
  let segs := (thin.zipIdx.foldl (fun sg (w, pos) =>
    let ch := if w.off then 256 + pos else 32 * locStack w.loc + locPc w.loc
    (passesOf g.kvh pos w).foldl (fun sg p => addPass g sg ch p) sg) []).map fun x => segLen g x.passes
  let own := match owningTile s c (hSlot r.handle) ((rowLanes c (areqRowList s r c)).headD 0) with
    | some o => o
    | none => owner
  let loads := (own, home) :: fixed.map (fun w => (tile w, cost w)) ++ walks
  let reads := crown.foldl (fun a w => a + cost w + (if w.loc < 65536 then 0 else 2 * 683)) 0
  (home + reads + costWalk * walks.length + 2 * segs.foldl (· + ·) 0, max (largestTile loads) ((moving.map fun w => costWalk + cost w).foldl max 0))

/-- Charge of an APPEND by the ledger, and the most cc that one tile needs (R70, R71, R83). -/
def priceAppend (s : State) (slot : Nat) : Nat × Nat :=
  let r := s.reqAt slot
  let k := hSlot r.handle
  let c := s.ctxAt k
  let a := apTokens r
  let items := (apLanes r c).map fun lane =>
    let n := lanePages s c lane
    let fen := if n = 0 then forecastFen s c lane else decide (65536 ≤ planLoc s c lane (pteAt s c lane (n - 1)))
    ((owningTile s c k lane).getD ((k + lane) % 128), costAppend c.geo fen a (pagesOpened c.t r.position a))
  (items.foldl (fun x y => x + y.2.1 + 2 * y.2.2) 0, largestTile (items.map fun y => (y.1, y.2.1)))

/-- Charge of a request as if it were alone in the tick, or `none` where a unit would need more than its budget (R71). Nothing is taken. -/
def priceAlone (s : State) (slot : Nat) : Option Nat :=
  let r := s.reqAt slot
  let (ch, unit) :=
    if r.kind = 1 then match planAreq s {} slot none with
      | .ok (b, ch, _) => (ch, largestUnit b)
      | .error _ => priceAreq s slot
    else if r.kind = 2 then priceAppend s slot
    else (frmCost s slot, frmCost s slot)
  if unit ≤ s.unitBudget then some ch else none

/-- Check 10 of R118: the charge within quantum and cap, and each unit's budget (R71). -/
def priceOk (s : State) (p slot : Nat) : Option Nat :=
  match priceAlone s slot with
  | none => none
  | some ch => if s.fld (Reg.TPL_PQ p) 23 0 + s.fld (Reg.TPL_PCAP p) 23 0 < ch then none else some ch

/-! ### The share tally (R205) -/

/-- Most frames the tally holds, and page entries it reads between the intake cutoff and the boundary (8 per cc). -/
def tallyFrames : Nat := 16384
def tallyReads : Nat := 8 * 4096

/-- Count one page of a request, where a frame is left for it (R205). -/
def tallyPage (t : List Tally) (w : PageWork) (slot : Nat) : List Tally :=
  if t.any (·.frame == w.frame) then
    t.map fun x => if x.frame = w.frame then { x with rows := x.rows + w.r, reqs := x.reqs ++ [slot], bound := x.bound || w.bound } else x
  else if t.length < tallyFrames then t ++ [{ frame := w.frame, rows := w.r, reqs := [slot], bound := w.bound }]
  else t

/-- Pass order of the partitions in tick `n` (R72). -/
def passOrder (n : Nat) : List Nat := (List.range 64).map fun i => (n + i) % 64

/-- Entries of a partition's admission queue for tick `n` (R69, R72). -/
def queueFor (s : State) (p n : Nat) : List QEnt := (SMap.get s.tpl.queues [] p).filter fun q => decide (q.tick ≤ n)

/-- The tally for tick `n` from the queued AREQs of consenting partitions, and whether a limit was reached (R204, R205). The page entries
that count as read are those of pages with rows that are not fully masked (DESIGN CHOICE: the spec does not say; assumption 108); a page off
the package is read and has no frame to share (R275). -/
def tallyBuild (s : State) (n : Nat) : List Tally × Bool :=
  let reqs := (passOrder n).flatMap fun p =>
    if s.bit Reg.TPL_PLACE 0 && s.bit (Reg.TPL_SHARE_LO + 4 * (p / 32)) (p % 32) then
      (queueFor s p n).map (·.req) else []
  let pages := (reqs.filter fun q => (s.reqAt q).kind == 1).flatMap fun q =>
    (pageWorks s (s.reqAt q) (s.ctxAt (hSlot (s.reqAt q).handle))).map fun w => (q, w)
  let shared := (pages.take tallyReads).filter fun (_, w) => !w.off && decide (1 < (s.frame w.frame).refs)
  let res := shared.foldl (fun t (q, w) => tallyPage t w q) []
  (res, decide (tallyFrames ≤ res.length) || decide (tallyReads ≤ pages.length))

/-! ### Results of an AREQ -/

/-- The rotated query of a row (R152, R405). -/
def areqQuery (s : State) (r : Req) (c : Ctx) (i : Nat) : List F32 :=
  let d := 32 * c.d32
  let base := r.payload + 4 * areqProbes r + 4 * areqRows r
  let q := (List.range d).map fun k =>
    if areqFp32 r then BitVec.ofNat 32 (s.readLE (base + 4 * (i * d + k)) 4)
    else bf16ToF32 (s.readLE (base + 2 * (i * d + k)) 2)
  if isRotated c.code then rotate (BitVec.ofNat 64 c.seed) q else q

/-- The payload of an AREQ's APART from the state at the start of its tick (R16, R193, R194). -/
def areqPayload (s : State) (slot : Nat) : List Nat :=
  let r := s.reqAt slot
  let c := s.ctxAt (hSlot r.handle)
  let rq : AttnReq := ⟨areqMode r, areqTau r, areqNormalize r, areqProbeList s r, areqWire r, BitVec.ofNat 64 c.seed⟩
  apartPayload rq.wire ((areqRowList s r c).map fun a =>
    rowResult c.geo rq (pageView s c a.lane) (maskRow r (laneLen s c a.lane) a (areqQuery s r c a.idx)))

/-! ### The pass (R72) -/

/-- The tick admits no work at all, or none of partition `p` (R90, R92, R560). -/
def noWork (s : State) (p : Nat) : Bool :=
  s.rg Reg.TPL_EBUDGET == 0 || tickAllowance s == 0 || s.fld (Reg.TPL_PQ p) 23 0 == 0

/-- A request is admitted: its entry, the plan, its result. -/
def admitted (s : State) (b : TplBlock) (slot charge pj : Nat) : State :=
  let r := s.reqAt slot
  let s1 := s.setReq slot { r with st := .admitted, ran := s.time.tick, charge := charge }
  let s2 := { s1 with tpl := { b with
    queues := s1.tpl.queues, deficit := s1.tpl.deficit, energy := s1.tpl.energy + pj
    admitted := s1.tpl.admitted + 1, order := s1.tpl.order ++ [slot]
    results := if r.kind = 1 then SMap.set s1.tpl.results [] slot (areqPayload s slot) else s1.tpl.results } }
  dequeue s2 slot

/-- A request is admitted with nothing booked and completes with its status at the seal point (R72, R120, R129, R130,
R410). -/
def admittedEmpty (s : State) (slot st : Nat) : State :=
  let r := s.reqAt slot
  let p := reqPart s slot
  let status := st % 256
  let s1 := if st = 256 + stQUOTA then
      event s .ctx 0 4 { status := stQUOTA, part := some p, i0 := mkReqId r.gen slot
                         i1 := s.fld (Reg.PRT_CTXN p) 18 0 }
    else refuseFrames s p status (if r.kind = 3 ∧ r.handle = noHandle then noHandle else r.handle)
  let starved := r.kind = 2 ∧ status = stNO_FRAME
  let already := starved ∧ (apLanes r (s.ctxAt (hSlot r.handle))).any (laneStarved s (s.ctxAt (hSlot r.handle)))
  let s2 := if starved ∧ ¬ already then starveLanes s1 slot else s1
  let s3 := s2.setReq slot { r with st := .admitted, ran := s.time.tick }
  dequeue { s3 with tpl := { s3.tpl with
    sealing := s3.tpl.sealing ++ [(slot, status)], admitted := s3.tpl.admitted + 1 } } slot

/-- A lane of the request whose record holds more pages than its directory can map (R511). -/
def laneOver (s : State) (slot : Nat) : Option Nat :=
  let r := s.reqAt slot
  let c := s.ctxAt (hSlot r.handle)
  let ls := if r.kind = 1 then rowLanes c (areqRowList s r c) else if r.kind = 2 then apLanes r c else []
  ls.find? fun l => decide (8192 * laneDirs s c l < lanePages s c l)

/-- What the pass does with the head of a queue. -/
inductive Verdict where
  | stop (s : State)
  | next (s : State) (credit : Nat)

/-- Examine one request with its partition's credit (R72), with the errors that the pass meets (R506). -/
def examine (s : State) (errs : List PlanErr) (slot credit : Nat) : Verdict :=
  let r := s.reqAt slot
  let k := hSlot r.handle
  let gone := fun (s : State) st => dismiss (s.setReq slot { r with ran := s.time.tick }) slot st
  match errs.find? (·.slot == slot) with
  | some e =>
    .next (if e.kind = 0 then gone (walkFault s k (s.ctxAt k) e.a e.b true) stCRC
      else if e.kind = 1 then ctxBad s k
      else if e.kind = 2 then reqBad s slot false
      else if e.kind = 3 then reqBad s slot true
      else gone (fault (uncorr s e.a) .tpl 0 0x11 none (e.a % 2 ^ 32) (e.b % 256)) stCRC) credit
  | none => match laneOver s slot with
  | some l => .next (gone (fault s .ctx 0 0x26 (some (s.ctxAt k).part) (ctxHandle (s.ctxAt k) k) l) stMALFORMED) credit
  | none => match planReq s s.tpl slot with
  | .ok x =>
    if credit < x.charge ∨ energyLimit s < s.tpl.energy + x.pj then .stop s
    else match x.fails with
      | some st => .next (admittedEmpty s slot st) credit
      | none => .next (admitted { x.s with tpl := s.tpl } x.b slot x.charge x.pj) (credit - x.charge)
  | .error (.walk lane page) =>
    .next (gone (walkFault s k (s.ctxAt k) lane page false) stMALFORMED) credit
  | .error (.unplaceable i1) => .stop (event s .tpl 0 7 { i0 := r.handle, i1 := i1 })
  | .error (.fetch _) => .stop { s with tpl := { s.tpl with wantFetch := s.tpl.wantFetch ++ [slot] } }
  | .error _ => .stop s

/-- Most queue entries examined in a pass (R72). -/
def examLimit : Nat := 32768

/-- One partition's turn over at most `k` requests: state and credit left. -/
def turn (s : State) (errs : List PlanErr) (p n : Nat) : Nat → Nat → State × Nat
  | 0, credit => (s, credit)
  | k + 1, credit =>
    match queueFor s p n with
    | [] => (s, credit)
    | q :: _ =>
      if examLimit ≤ s.tpl.examined ∨ noWork s p then (s, credit)
      else
        let s1 := { s with tpl := { s.tpl with examined := s.tpl.examined + 1 } }
        match examine s1 errs q.req credit with
        | .stop s2 => (s2, credit)
        | .next s2 credit2 => turn s2 (errs.filter (·.slot != q.req)) p n k credit2

/-- Requests left behind whose target tick is not after `n` are marked late, and all of them count (R72, R75, R91). -/
def markLate (s : State) (p n : Nat) : State :=
  let left := (queueFor s p n).filter fun q => decide ((s.reqAt q.req).target ≤ n)
  let s1 := left.foldl (fun s q => s.setReq q.req { s.reqAt q.req with late := true }) s
  if left.isEmpty then s1
  else event0 { s1 with tpl := { s1.tpl with lateCnt := s1.tpl.lateCnt + left.length } } .tpl 0 5

def State.deficit (s : State) (p : Nat) : Nat := SMap.get s.tpl.deficit 0 p
def State.setDeficit (s : State) (p v : Nat) : State :=
  { s with tpl := { s.tpl with deficit := SMap.set s.tpl.deficit 0 p v } }

/-- One partition in the pass (R72), reached or not before the examination limit; a partition being reset is not admitted (R484). -/
def passPart (s : State) (errs : List PlanErr) (n p : Nat) : State :=
  let quantum := s.fld (Reg.TPL_PQ p) 23 0
  let cap := s.fld (Reg.TPL_PCAP p) 23 0
  let credit := quantum + s.deficit p
  if resetting s p then s
  else
    let (s1, left) := turn s errs p n (queueFor s p n).length credit
    if (queueFor s1 p n).isEmpty then s1.setDeficit p 0
    else markLate (s1.setDeficit p (min left cap)) p n

/-- Book a stack's raw reservation before the pass, or refuse it (R249, R253). One of more than 6,400 sc books nothing and posts no event
(DESIGN CHOICE: R249 posts bit 5 for a timing rule that is broken, R253 says only that such a length books nothing; assumption 105). -/
def bookRaw (s : State) (n : Nat) : State :=
  let ch := s.rg (Reg.DBR_RAW_CH n)
  if !bitOf ch 8 then s
  else
    let p := bitsOf ch 4 0
    let lo := max 1024 (s.fld (Reg.DBR_RAW_START n) 22 0)
    let len := s.fld (Reg.DBR_RAW_LEN n) 12 0
    let pj := len * 3441
    let w : PimWin := ⟨n, p, lo, lo + len, [⟨lo, lo + len, 2 * lo⟩], true⟩
    let b := { s.tpl with pims := w :: s.tpl.pims }
    let ok := decide (0 < len) && decide (len ≤ 6400) && decide (2 * (lo + len) ≤ s.sealCC)
      && stacksOk s b.pims lo (lo + len) && spaOk b.pims n lo (lo + len) && !fenced s (65536 + 65536 * (p + 32 * n)) 2
      && s.up .dbr n && s.up .fen n && decide (s.tpl.energy + pj ≤ energyLimit s)
    if len = 0 ∨ 6400 < len then s
    else if ok then { s with tpl := { b with energy := s.tpl.energy + pj } }
    else event0 s .dbr n 5

/-- The plan of a new tick begins empty; queues, deficits, the tally and unfinished completions stay. -/
def planReset (s : State) : State :=
  { s with tpl := { queues := s.tpl.queues, deficit := s.tpl.deficit, carried := s.tpl.deficit, tally := s.tpl.tally
                    tallyOver := s.tpl.tallyOver, renumber := s.tpl.renumber } }

/-- The admission pass of the tick that begins (R62, R72, R249); while CTX is off no request reaches it (R30). -/
def admissionPass (s : State) (errs : List PlanErr) : State :=
  if !s.up .tpl 0 then s
  else if !s.en .ctx 0 then (List.range 8).foldl bookRaw s
  else
    let n := s.time.tick
    let s0 := (List.range 8).foldl bookRaw s
    let s1 := (passOrder n).foldl (fun s p => passPart s errs n p) s0
    if examLimit ≤ s1.tpl.examined ∧ (List.range 64).any (fun p => !(queueFor s1 p n).isEmpty) then event0 s1 .tpl 0 6
    else s1

/-! ### Removal (R75) -/

/-- Remove a request whose carry has closed, whether or not a pass has examined it: one that arrives so late that its carry closes before the
tick for which it may be planned is removed at its first boundary. The spec does not name that case (DESIGN CHOICE, assumption 107). -/
def carryRemove (s : State) (slot : Nat) : State :=
  let r := s.reqAt slot
  if r.st = .queued ∧ r.target + s.fld Reg.TPL_MAX_CARRY 7 0 < s.time.tick then dismiss s slot stLATE else s

def carryRemoveAll (s : State) : State := (queuedReqs s).foldl carryRemove s

end Sys2Proof.Machine
end

