-- ==== Sys2Proof/Machine/Riddle.lean ====
section
/-!
DEFINITION. The RIDDLE prefix index (spec/11, R300 to R317): entries, regions, lookups, and the INSERT and DELETE
commands of the four MCX cores.
-/

namespace Sys2Proof.Machine

/-! ### Shifts (R310, R311) -/

/-- Shift the entries at positions `lo` to `hi − 1` by one towards the tail. -/
def rdlShiftUp (ents : SMap RdlEnt) (lo hi : Nat) : SMap RdlEnt :=
  ents.map fun kv => if lo ≤ kv.1 ∧ kv.1 < hi then (kv.1 + 1, kv.2) else kv

/-- Remove position `i` and shift the entries up to `hi − 1` behind it by one towards the base. -/
def rdlShiftDown (ents : SMap RdlEnt) (i hi : Nat) : SMap RdlEnt :=
  (ents.filter fun kv => kv.1 != i).map fun kv => if i < kv.1 ∧ kv.1 < hi then (kv.1 - 1, kv.2) else kv

/-- Entries of a shift that earlier cc have copied, 32 in each from cc 12 of the command on (R310, R312). -/
def rdlCopied (s : State) (p : RdlPlan) : Nat := min p.moves (32 * (s.time.up - s.rdl.start - 12))

/-- The table as it stands at the start of this cc: in a shift the entry at the moving edge stands at two adjacent positions (R305,
R310). -/
def rdlShown (s : State) : SMap RdlEnt :=
  match s.rdl.cmds, s.rdl.plan with
  | k :: _, some p =>
    let n := rdlCopied s p
    if n = 0 then s.rdl.ents
    else if k.insert then
      let hi := p.pos + p.moves
      SMap.set (rdlShiftUp s.rdl.ents (hi - n) hi) {} (hi - n) (SMap.get s.rdl.ents {} (hi - n))
    else
      let hi := p.pos + 1 + n
      SMap.set (rdlShiftDown s.rdl.ents p.pos hi) {} (hi - 1) (SMap.get s.rdl.ents {} (hi - 1))
  | _, _ => s.rdl.ents

def State.rdlEnt (s : State) (i : Nat) : RdlEnt := SMap.get (rdlShown s) {} i
def State.setRdlEnt (s : State) (i : Nat) (e : RdlEnt) : State :=
  { s with rdl := { s.rdl with ents := SMap.set s.rdl.ents {} i e } }

/-- The top `len` bits of a 96-bit key, the rest zero (R301). -/
def keyTop (k len : Nat) : Nat := k % 2 ^ 96 / 2 ^ (96 - len) * 2 ^ (96 - len)

/-- An entry matches a key (R301). -/
def RdlEnt.hitBy (e : RdlEnt) (k : Nat) : Bool := e.valid && !e.dead && keyTop e.key e.len == keyTop k e.len

def rdlBase (s : State) (p : Nat) : Nat := s.fld (Reg.RDL_RBASE p) 15 0
def rdlSize (s : State) (p : Nat) : Nat := s.fld (Reg.RDL_RSIZE p) 16 0
def rdlUsed (s : State) (p : Nat) : Nat := s.fld (Reg.RDL_RUSED p) 16 0

/-- The entries of a region by position (R302). -/
def rdlRegion (s : State) (p : Nat) : List (Nat × RdlEnt) :=
  (rdlShown s).filter fun kv => decide (rdlBase s p ≤ kv.1) && decide (kv.1 < rdlBase s p + rdlSize s p)

/-- Of two candidates the one with the greater len, the first on equal lengths (R304). -/
def rdlBetter (a b : Option (Nat × RdlEnt)) : Option (Nat × RdlEnt) :=
  match a, b with
  | none, y => y
  | x, none => x
  | some x, some y => if x.2.len < y.2.len then some y else some x

/-- The lookup of key `k` for partition `p` (R304): own region first, then shared entries of the others. -/
def rdlFind (s : State) (k p : Nat) : Option (Nat × RdlEnt) :=
  if !s.up .rdl 0 then none
  else
    let own := (rdlRegion s p).find? fun e => e.2.hitBy k
    if s.bit (Reg.RDL_XPART_LO + 4 * (p / 32)) (p % 32) then
      ((List.range 64).filter (· != p)).foldl (fun best q =>
        rdlBetter best ((rdlRegion s q).find? fun e => e.2.shared && e.2.hitBy k)) own
    else own

/-- One entry of the table, at whatever positions it now stands, changes. -/
def rdlAlter (s : State) (e : RdlEnt) (f : RdlEnt → RdlEnt) : State :=
  let alike := fun (x : RdlEnt) => x.valid && x.part == e.part && x.len == e.len && x.key == e.key
  { s with rdl := { s.rdl with ents := s.rdl.ents.map fun kv => if alike kv.2 then (kv.1, f kv.2) else kv } }

/-- A counting hit: last_hit and hits of the entry, both copies of it where a shift shows two. They carry the tick of the cc after the
compare, and are written with it (R306; assumption 121). -/
def rdlCountHit (s : State) (e : RdlEnt) : State :=
  let tick := if s.time.running ∧ s.time.cc + 1 = s.lcc then s.time.tick + 1 else s.time.tick
  rdlAlter (s.count Reg.RDL_HITS) e fun x => { x with lastHit := tick % 65536, hits := min 0xFFFF (x.hits + 1) }

/-- Write core `c`'s result: status, busy clear, hit, replaced, position (R316). -/
def rdlResult (s : State) (c status : Nat) (hit replaced : Bool) (pos : Nat) : State :=
  s.setRg (Reg.RDL_RES c) (status % 256 + b2n hit * 512 + b2n replaced * 1024 + pos % 65536 * 65536)

/-- Core `c`'s command is running. -/
def rdlBusy (s : State) (c : Nat) : Bool := s.bit (Reg.RDL_RES c) 8

/-- The key in core `c`'s command registers. -/
def rdlKey (s : State) (c : Nat) : Nat :=
  s.rg (Reg.RDL_KEY0 c) + 2 ^ 32 * s.rg (Reg.RDL_KEY1 c) + 2 ^ 64 * s.rg (Reg.RDL_KEY2 c)

/-- Store the fields that a write of RDL_OP_c carries besides the op (R316). -/
def rdlOpFields (s : State) (c len shared part : Nat) : State :=
  s.setRg (Reg.RDL_OP c) (len % 128 + shared % 2 * 128 + part % 64 * 256)

/-- The compare meets an uncorrectable entry: it matches nothing until it is rewritten (R506). -/
def rdlBad (s : State) (bad : Option Nat) : State :=
  match bad with
  | none => s
  | some i =>
    if (s.rdlEnt i).valid then
      fault (rdlAlter (s.count Reg.BST_INT_UNCORR) (s.rdlEnt i) fun x => { x with dead := true }) .rdl 0 0x58 none i 0
    else s

/-- LOOKUP on a command port: the compare runs at once, its result follows 24 cc later (R305, R307). An issue while busy is
ignored. `bad` names an entry that the compare cannot read. -/
def execRdlLookup (core len shared part : Nat) (bad : Option Nat) (s : State) : Host.Outcome State Fault Refusal :=
  let c := core % 4
  let s := rdlBad s (if rdlBusy s c then none else bad)
  let s0 := rdlOpFields s c len shared part
  if rdlBusy s c then .next s0
  else
    let s1 := (s0.count Reg.RDL_LOOKUPS).setFld (Reg.RDL_RES c) 8 8 1
    let l : RdlLook := ⟨c, rdlFind s1 (rdlKey s1 c) (part % 64), none, s.time.up⟩
    .next { s1 with rdl := { s1.rdl with looks := s1.rdl.looks ++ [l] } }

/-- Offset in its region of the entry with a command's len and cleared key. -/
def rdlEqual (s : State) (k : RdlCmd) : Option Nat :=
  ((rdlRegion s k.part).find? fun e => e.2.valid && !e.2.dead && e.2.len == k.len && e.2.key == keyTop k.key k.len).map (·.1)

/-- The position of a new entry: after the last entry whose len is at least its own (R308). -/
def rdlPlace (s : State) (k : RdlCmd) : Nat :=
  rdlBase s k.part + ((rdlRegion s k.part).filter fun e => e.2.valid && decide (k.len ≤ e.2.len)).length

/-- The status of an INSERT, with its position where it succeeds (R308): checks 1 to 6 in order. -/
def rdlInsertCheck (s : State) (k : RdlCmd) : Nat × Nat :=
  let c := s.ctxAt (hSlot k.handle)
  let bad := decide (96 < k.len) || k.n == 0 || decide (16777216 < k.n) || rdlSize s k.part == 0
  if bad then (stMALFORMED, 0)
  else if resetting s k.part then (stPART_RESET, 0)
  else if hPart k.handle ≠ k.part then (stMALFORMED, 0)
  else if c.gen ≠ hGen k.handle ∨ c.st ≠ .active then (stBAD_GEN, 0)
  else if k.shared && !c.shareOk then (stMALFORMED, 0)
  else match rdlEqual s k with
    | some i => (stOK, i)
    | none => if rdlUsed s k.part < rdlSize s k.part then (stOK, rdlPlace s k) else (stQUOTA, 0)

/-- The checks and the placement of a command, against the table and the contexts as they stand when it begins (R308, R309, R312). -/
def rdlPlan (s : State) (k : RdlCmd) : RdlPlan :=
  let tail := rdlBase s k.part + rdlUsed s k.part
  if !s.up .rdl 0 then ⟨stMALFORMED, false, 0, 0⟩
  else if k.insert then
    let (st, pos) := rdlInsertCheck s k
    let equal := st == stOK && (rdlEqual s k).isSome
    ⟨st, equal, pos, if st = stOK ∧ ¬ equal then tail - pos else 0⟩
  else match rdlEqual s k with
    | some i => ⟨stOK, true, i, tail - (i + 1)⟩
    | none => ⟨stOK, false, 0, 0⟩

/-- How long a command takes (R312). -/
def rdlTime (k : RdlCmd) (p : RdlPlan) : Nat :=
  if k.insert ∧ p.status ≠ stOK then 12 else 14 + ceilDiv p.moves 32

/-- The command in front begins at a cc since start time. -/
def rdlBegin (s : State) (up : Nat) : State :=
  let s1 := { s with rdl := { s.rdl with start := up, plan := none } }
  { s1 with rdl := { s1.rdl with plan := s1.rdl.cmds.head?.map (rdlPlan s1) } }

/-- A command takes its place behind those issued before it, and behind those of the same cc from lower cores (R307). -/
def rdlQueue (k : RdlCmd) : List RdlCmd → List RdlCmd
  | [] => [k]
  | x :: r => if x.issued = k.issued ∧ k.core < x.core then k :: x :: r else x :: rdlQueue k r

/-- Put an INSERT or DELETE of core `c` into the command queue (R307). -/
def rdlIssue (s : State) (c : Nat) (insert : Bool) (len shared part : Nat) : State :=
  let s0 := rdlOpFields s c len shared part
  if rdlBusy s c then s0
  else
    let cmd : RdlCmd := ⟨c, insert, part % 64, rdlKey s c, len % 128, shared % 2 == 1, s.rg (Reg.RDL_HANDLE c),
      s.fld (Reg.RDL_N c) 24 0, s.rg (Reg.RDL_CHECK c), s.time.up⟩
    let s1 := s0.setFld (Reg.RDL_RES c) 8 8 1
    let q := rdlQueue cmd s1.rdl.cmds
    let s2 := { s1 with rdl := { s1.rdl with cmds := q } }
    if q.head? = some cmd then rdlBegin s2 s.time.up else s2

/-- INSERT is issued on core `core` (R307, R308). -/
def execRdlInsert (core len shared part : Nat) (s : State) : Host.Outcome State Fault Refusal :=
  .next (rdlIssue s (core % 4) true len shared part)

/-- DELETE is issued on core `core` (R307, R309). -/
def execRdlDelete (core len shared part : Nat) (s : State) : Host.Outcome State Fault Refusal :=
  .next (rdlIssue s (core % 4) false len shared part)

/-- An INSERT ends: its entry is written, and used rises (R308, R312). -/
def rdlInsertEnd (s : State) (k : RdlCmd) (p : RdlPlan) : State :=
  let e : RdlEnt := ⟨true, k.shared, keyTop k.key k.len, k.len, k.part, k.handle, k.n, k.check, 0, 0, false⟩
  if p.status = stQUOTA then
    event (rdlResult (s.count (Reg.RDL_RQUOTA k.part)) k.core p.status false false 0) .rdl 0 3
      { status := stQUOTA, part := some k.part, i0 := k.part, i1 := rdlUsed s k.part }
  else if p.status ≠ stOK then rdlResult s k.core p.status false false 0
  else if p.found then rdlResult (s.setRdlEnt p.pos e) k.core stOK false true p.pos
  else
    let s1 := { s with rdl := { s.rdl with ents := rdlShiftUp s.rdl.ents p.pos (p.pos + p.moves) } }
    rdlResult ((s1.setRdlEnt p.pos e).setRg (Reg.RDL_RUSED k.part) (rdlUsed s k.part + 1)) k.core stOK false false p.pos

/-- A DELETE ends: the tail slot is clear, and used falls (R309, R312). -/
def rdlDeleteEnd (s : State) (k : RdlCmd) (p : RdlPlan) : State :=
  if p.status ≠ stOK ∨ ¬ p.found then rdlResult s k.core p.status false false 0
  else
    let s1 := { s with rdl := { s.rdl with ents := rdlShiftDown s.rdl.ents p.pos (p.pos + 1 + p.moves) } }
    rdlResult (s1.setRg (Reg.RDL_RUSED k.part) (rdlUsed s k.part - 1)) k.core stOK true false p.pos

/-- The command in front finishes once its time has passed: its change is complete, busy clears and the next begins (R307, R312). -/
def execRdlCommandDone (s : State) : Host.Outcome State Fault Refusal :=
  match s.rdl.cmds, s.rdl.plan with
  | k :: r, some p =>
    let fin := s.rdl.start + rdlTime k p
    match reachUp s fin with
    | none => .next s
    | some s1 =>
      let s2 := { s1 with rdl := { s1.rdl with cmds := r, plan := none } }
      .next (rdlBegin (if k.insert then rdlInsertEnd s2 k p else rdlDeleteEnd s2 k p) fin)
  | _, _ => .next s

/-- RDL_SHIFT: entries still to move in the running shift (R310, R312, R315). -/
def rdlShiftLeft (s : State) : Nat :=
  match s.rdl.plan with
  | some p => if s.time.up < s.rdl.start + 12 then 0 else p.moves - rdlCopied s p
  | none => 0

/-- The result of a lookup on a command port (R316). -/
def rdlLookEnd (s : State) (l : RdlLook) : State :=
  match l.found with
  | none => rdlResult s l.port stOK false false 0
  | some (i, e) =>
    let s1 := rdlResult s l.port stOK true false i
    (((s1.setRg (Reg.RDL_RHANDLE l.port) e.handle).setRg (Reg.RDL_RN l.port) e.n).setRg (Reg.RDL_RCHECK l.port) e.check).setRg
      (Reg.RDL_RINFO l.port) (e.len + b2n e.shared * 128 + e.part * 256)

/-- The 32 bytes of an entry (R300). -/
def rdlEntNat (e : RdlEnt) : Nat :=
  if e.valid then
    packLE [(e.key, 12), (e.len, 1), (1 + 2 * b2n e.shared, 1), (e.part, 1), (0, 1), (e.handle, 4), (e.n, 4), (e.check, 4),
      (e.lastHit, 2), (e.hits, 2)]
  else 0

/-- The region registers written for the next boundary are checked together; a failing region keeps both old values and
posts region_refused (R303). `new` gives the pending (base, size) of a partition. The partitions to refuse. -/
def rdlBoundsRefused (s : State) (new : Nat → Nat × Nat) (written : Nat → Bool) : List Nat :=
  (List.range 64).filter fun p =>
    written p &&
    (let (b, n) := new p
     decide (65536 < b + n)
     || (List.range 64).any (fun q => q != p && (let (b2, n2) := new q
                                                 decide (0 < n) && decide (0 < n2) && decide (b < b2 + n2) && decide (b2 < b + n)))
     || decide (n < rdlUsed s p)
     || (decide (0 < rdlUsed s p) && b != rdlBase s p))

/-- A partition reset completes: its region's entries are invalid and its used count 0 (R303); a command of the partition that still runs
changes nothing and ends with PART_RESET (assumption 122). -/
def rdlClear (s : State) (p : Nat) : State :=
  let cut := fun (x : RdlPlan) => if (s.rdl.cmds.head?.map (·.part)) = some p then ⟨stPART_RESET, false, 0, 0⟩ else x
  let out := fun (kv : Nat × RdlEnt) => !(decide (rdlBase s p ≤ kv.1) && decide (kv.1 < rdlBase s p + rdlSize s p))
  { (s.setRg (Reg.RDL_RUSED p) 0) with rdl := { s.rdl with ents := s.rdl.ents.filter out, plan := s.rdl.plan.map cut } }

end Sys2Proof.Machine
end

