-- ==== Sys2Proof/Machine/Intake.lean ====
section
/-!
DEFINITION. What a delivered attention message does (spec/04, spec/14, spec/16): the checks of R118 in order, the target
tick, the request slot and the queue for AREQ, APPEND, CLONE, RELEASE and MIGRATE; CANCEL; and the mirror's ADONE. Each
command takes the message that stands first in the engine's inbox where it has the command's opcode.
-/

namespace Sys2Proof.Machine

/-! ### Target tick (R63, R64) -/

/-- The target tick that 16 bits name at an arrival in tick `c` (R63); one before tick 0 counts as tick 0. -/
def resolveTick (c bits : Nat) : Nat :=
  let d := (bits % 65536 + 65536 - c % 65536) % 65536
  if d ≤ 32768 then c + d else c + d - 65536

/-- TPL_HORIZON: 0 and 1 act as 2 (R64). -/
def horizon (s : State) : Nat := max 2 (s.fld Reg.TPL_HORIZON 7 0)

/-- The plannable tick of an arrival at (tick, cc) (R64). -/
def plannable (s : State) (tick cc : Nat) : Nat := if cc ≤ s.lcc - 4096 then tick + 1 else tick + 2

/-! ### Fields of the extension headers (R405, R407 to R409, R565) -/

/-- An attention request as its message gives it: the request, the request ID, the map epoch and the tick field. -/
structure Ask where
  kind : Nat
  id : Nat
  handle : Nat
  epoch : Nat
  tick : Nat
  req : Req
deriving DecidableEq, Repr

/-- The request that an AREQ carries (R405). -/
def askAreq (m : Delivered) : Ask :=
  let b := beAt m.ext
  ⟨1, b 0 4, b 4 4, b 8 4, b 12 2,
    { kind := 1, handle := b 4 4, layer := b 14 2, count := b 16 2,
      params := packLE [(b 20 4, 4), (b 24 4, 4), (b 28 4, 4), (b 19 1, 1), (b 32 1, 1), (b 33 1, 1), (b 18 1, 1), (b 16 2, 2)] }⟩

/-- The request that an APPEND carries (R407). -/
def askAppend (m : Delivered) : Ask :=
  let b := beAt m.ext
  ⟨2, b 0 4, b 4 4, b 8 4, b 12 2,
    { kind := 2, handle := b 4 4, layer := b 14 2, count := b 24 2, position := b 20 4 % 2 ^ 25,
      params := packLE [(b 16 2, 2), (b 18 1, 1), (b 19 1, 1), (b 24 2, 2), (b 26 1, 1), (b 27 1, 1)] }⟩

/-- The request that a CLONE carries (R408). -/
def askClone (m : Delivered) : Ask :=
  let b := beAt m.ext
  ⟨3, b 0 4, b 4 4, b 8 4, b 12 2,
    { kind := 3, handle := b 4 4, position := b 20 4 % 2 ^ 25, payload := if b 4 4 = noHandle then b 40 8 else 0,
      params := packLE [(b 24 4 % 2 ^ 25, 4), (b 28 2, 2), (b 30 2, 2), (b 32 2, 2), (b 34 2, 2), (b 36 4, 4), (b 14 1, 1),
        (b 15 1, 1), (b 16 1, 1), (b 17 1, 1), (b 18 1, 1)] }⟩

/-- The request that a RELEASE carries (R409). -/
def askRelease (m : Delivered) : Ask :=
  let b := beAt m.ext
  ⟨4, b 0 4, b 4 4, b 8 4, b 12 2, { kind := 4, handle := b 4 4 }⟩

/-- The request that a MIGRATE carries (R409). -/
def askMigrate (m : Delivered) : Ask :=
  let b := beAt m.ext
  ⟨5, b 0 4, b 4 4, b 8 4, b 12 2,
    { kind := 5, handle := b 4 4, layer := b 14 2,
      params := packLE [(b 16 2, 2), (b 18 1, 1), (b 19 1, 1), (b 20 1, 1), (0, 1), (b 22 2, 2), (b 24 4, 4), (b 28 4, 4),
        (b 32 4 % 2 ^ 25, 4)] }⟩

/-! ### Check 8: message fields -/

/-- sigma is finite and above 0 (R171). -/
def sigmaOk (w : Nat) : Bool := decide (0 < w) && decide (w < 0x7F800000)

/-- Check 8 of an AREQ (R171, R405). The window and prefix words are compared whole, so that a bit of [31:25] refuses the request (DESIGN CHOICE: R405
gives [24:0] only; assumption 126). -/
def areqFieldsOk (s : State) (r : Req) (c : Ctx) : Bool :=
  let rows := areqRows r
  decide (1 ≤ rows) && decide (rows ≤ 8192) && areqD32 r == c.d32 && sigmaOk (areqSigma r)
    && (areqMode r == 0 || decide (4 ≤ areqTau r) && decide (areqTau r ≤ 64) && decide (areqProbes r ≤ 4))
    && decide (unpackLE r.params 4 4 ≤ 16777216) && decide (unpackLE r.params 8 4 ≤ 16777216)
    && decide (c.layerFirst ≤ r.layer) && decide (r.layer < c.layerFirst + c.layerCount)
    && (List.range rows).all (fun i =>
      let h := s.byte (r.payload + 4 * areqProbes r + 4 * i + 3)
      decide (c.groupFirst ≤ h / c.kvh) && decide (h / c.kvh < c.groupFirst + c.groupCount))
    && (List.range (rows * 32 * c.d32)).all (fun k =>
      let base := r.payload + 4 * areqProbes r + 4 * rows
      if areqFp32 r then f32Finite (BitVec.ofNat 32 (s.readLE (base + 4 * k) 4))
      else f32Finite (bf16ToF32 (s.readLE (base + 2 * k) 2)))

/-- Check 8 of an APPEND (R407). -/
def appendFieldsOk (r : Req) (c : Ctx) : Bool :=
  unpackLE r.params 6 1 == c.d32 && unpackLE r.params 7 1 == c.kvh && decide (1 ≤ apGroups r)
    && decide (1 ≤ apTokens r) && decide (apTokens r ≤ 4096)
    && decide (c.layerFirst ≤ r.layer) && decide (r.layer < c.layerFirst + c.layerCount)
    && decide (c.groupFirst ≤ apGroupFirst r) && decide (apGroupFirst r + apGroups r ≤ c.groupFirst + c.groupCount)

/-- Check 8 of a CLONE (R99, R100, R120). -/
def cloneFieldsOk (r : Req) : Bool :=
  let maxLen := unpackLE r.params 0 4
  if r.handle = noHandle then
    let lf := unpackLE r.params 4 2
    let lc := unpackLE r.params 6 2
    let gf := unpackLE r.params 8 2
    let gc := unpackLE r.params 10 2
    let kvh := unpackLE r.params 18 1
    pageLen (unpackLE r.params 16 1) (32 * unpackLE r.params 17 1) kvh != 0
      && decide (1 ≤ lc) && decide (1 ≤ gc) && decide (lc * gc ≤ 2048) && decide (lf + lc ≤ 1024)
      && decide (gf + gc ≤ 256 / kvh) && decide (1 ≤ maxLen) && decide (maxLen ≤ 16777216)
  else r.position != 0 && decide (r.position ≤ maxLen)

/-- Check 8 of a MIGRATE less its pages (R409, R410). -/
def migrateFieldsOk (r : Req) (c : Ctx) : Bool :=
  let n := migFirst r + migCount r
  unpackLE r.params 2 1 == c.code && unpackLE r.params 3 1 == c.d32 && unpackLE r.params 4 1 == c.kvh
    && unpackLE r.params 6 2 == c.t && decide (1 ≤ migCount r)
    && decide ((n - 1) * c.t + 1 ≤ migLength r) && decide (migLength r ≤ n * c.t)
    && decide (n ≤ lanePmax c.t c.maxLen)
    && decide (c.layerFirst ≤ r.layer) && decide (r.layer < c.layerFirst + c.layerCount)
    && decide (c.groupFirst ≤ migGroup r) && decide (migGroup r < c.groupFirst + c.groupCount)

/-- The first failing status of a MIGRATE's pages (R167), OK where all pass. -/
def migratePages (s : State) (r : Req) (c : Ctx) : Nat :=
  let n := pageWireBytes c.geo
  ((List.range (migCount r)).map fun i => pageCheck (fun o => s.byte (r.payload + n * i + o)) c.geo).find? (· ≠ 0) |>.getD 0

/-- Check 8 of R118: OK, or the refusing status. -/
def check8 (s : State) (r : Req) (c : Ctx) : Nat :=
  if r.kind = 1 then if areqFieldsOk s r c then stOK else stMALFORMED
  else if r.kind = 2 then if appendFieldsOk r c then stOK else stMALFORMED
  else if r.kind = 3 then if cloneFieldsOk r then stOK else stMALFORMED
  else if r.kind = 4 then stOK
  else if migrateFieldsOk r c then migratePages s r c else stMALFORMED

/-- The lanes that check 7 covers (R449), within the node's slice. -/
def coveredLanes (s : State) (r : Req) (c : Ctx) : List Nat :=
  let layerIn := decide (c.layerFirst ≤ r.layer) && decide (r.layer < c.layerFirst + c.layerCount)
  let lane := fun g => if c.groupFirst ≤ g ∧ g < c.groupFirst + c.groupCount then
    [(r.layer - c.layerFirst) * c.groupCount + (g - c.groupFirst)] else []
  if r.kind = 3 then List.range c.lanes
  else if !layerIn then []
  else if r.kind = 1 then
    ((List.range (areqRows r)).flatMap fun i => lane (s.byte (r.payload + 4 * areqProbes r + 4 * i + 3) / max 1 c.kvh)).eraseDups
  else if r.kind = 2 then (List.range (apGroups r)).flatMap fun i => lane (apGroupFirst r + i)
  else if r.kind = 5 then lane (migGroup r)
  else []

/-! ### Request slots -/

/-- The forward pool serves this request: it arrived on the mirror connection of the MIRROR context it names (R455). -/
def fromPool (s : State) (conn handle : Nat) : Bool :=
  handle != noHandle && mirrorConnOf s (hSlot handle) == some (conn % 2 ^ 20)

/-- The first free slot of the forward pool (R455). -/
def poolSlot (s : State) : Option Nat :=
  ((List.range (s.fld Reg.FAB_FWD_COUNT 20 0)).map (s.fld Reg.FAB_FWD_BASE 19 0 + ·)).find? fun k =>
    decide (k < 2 ^ 20) && decide ((s.reqAt k).st = .free)

/-- Checks 4 to 6 of R118, or the forward pool in their place: the slot, or the refusing status. -/
def pickSlot (s : State) (p : Nat) (a : Ask) (conn : Nat) : Except Nat Nat :=
  if fromPool s conn a.handle then
    match poolSlot s with
    | some k => .ok k
    | none => .error stQUOTA
  else
    let k := rSlot a.id
    if !ownsReq s p k then .error stMALFORMED
    else if (s.reqAt k).gen ≠ rGen a.id then .error stBAD_GEN
    else if (s.reqAt k).st ≠ .free then .error stMALFORMED
    else .ok k

/-- Checks 1 to 3 of R118 for partition `p`; `shared` says that a key lookup found a shared entry (R125). -/
def checkHandle (s : State) (p : Nat) (a : Ask) (shared : Bool) : Nat :=
  if a.kind = 3 ∧ a.handle = noHandle then stOK
  else
    let k := hSlot a.handle
    let c := s.ctxAt k
    let hp := hPart a.handle
    if hp ≠ p ∧ ¬ (a.kind = 3 ∧ shared ∧ c.shareOk) then stAUTH
    else if !ownsCtx s hp k || decide (c.gen ≠ hGen a.handle) || decide (c.st = .free) then stBAD_GEN
    else if c.st = .lost ∧ a.kind ≠ 4 then stCTX_LOST
    else stOK

/-- Check 7 of R118 (R446, R448, R449, R460): OK, or the refusing status with the counter it raises. -/
def checkMap (s : State) (a : Ask) (r : Req) (conn : Nat) : Nat × Nat :=
  match epochCheck s a.epoch with
  | some e => e
  | none =>
    if a.kind = 3 ∧ a.handle = noHandle then (stOK, 0)
    else
      let k := hSlot a.handle
      if a.kind = 1 ∧ mst s k = mstIMPORT ∧ (mirrorConnOf s k).isSome then (stNOT_OWNER, Reg.FAB_NOTOWN)
      else if ownServes s k a.kind (conn % 2 ^ 20) (coveredLanes s r (s.ctxAt k)) then (stOK, 0)
      else (stNOT_OWNER, Reg.FAB_NOTOWN)

/-! ### Parking at a spare (R460) -/

/-- Tokens of APPENDs that wait or run for a lane. -/
def queuedTokens (s : State) (slot gen lane : Nat) : Nat :=
  s.ctx.reqs.foldl (fun a kv =>
    let r := kv.2
    if r.kind = 2 ∧ (r.st = .queued ∨ r.st = .admitted) ∧ hSlot r.handle = slot ∧ hGen r.handle = gen
      ∧ ¬ s.fab.parked.any (·.req == kv.1) ∧ (apLanes r (s.ctxAt slot)).contains lane then a + apTokens r else a) 0

/-- An APPEND for a context in IMPORT is parked while a lane it covers has not reached its position, or an earlier one is
parked for that lane (R460). -/
def mustPark (s : State) (r : Req) : Bool :=
  let k := hSlot r.handle
  let c := s.ctxAt k
  r.kind == 2 && mst s k == mstIMPORT &&
    (apLanes r c).any fun l =>
      decide (laneLen s c l + queuedTokens s k c.gen l < r.position)
      || s.fab.parked.any (fun q => let x := s.reqAt q.req
                                    hSlot x.handle == k && (apLanes x c).contains l)

/-- Parked APPENDs whose lanes have been mapped enter their partition's queue in arrival order (R460). -/
def unpark (s : State) : State :=
  s.fab.parked.foldl (fun s q =>
    let r := s.reqAt q.req
    let s0 := { s with fab := { s.fab with parked := s.fab.parked.filter (·.req != q.req) } }
    let c := s.ctxAt (hSlot r.handle)
    let earlier := s0.fab.parked.filter (fun x => x.before q)
    if mustPark { s0 with fab := { s0.fab with parked := earlier } } r && decide (c.gen = hGen r.handle) then s
    else enqueue s0 (reqPart s q.req) q) s

/-! ### Intake (R64, R118, R119) -/

/-- Refuse a message with a status: counted where it is BAD_GEN, and answered at once (R118, R411, R566). -/
def refuseAsk (s : State) (m : Delivered) (a : Ask) (status : Nat) : State :=
  let p := (s.conn (cwIdx m.conn)).part
  let s1 := if status = stBAD_GEN then
      event (s.count Reg.CTX_STALE) .ctx 0 5 { status := stBAD_GEN, part := some p, i0 := a.handle, i1 := a.id }
    else s
  refuse s1 m a.kind a.id a.handle status

/-- The request passes: it takes its slot and enters its queue, or is parked (R64, R69, R119). -/
def acceptAsk (s : State) (m : Delivered) (a : Ask) (r : Req) (k x : Nat) : State :=
  let s1 := stageKeep (s.setReq k r) m.addr k
  let s2 := if fromPool s m.conn a.handle then { s1 with fab := { s1.fab with pool := s1.fab.pool ++ [(k, a.id)] } } else s1
  let q : QEnt := ⟨k, max x (plannable s m.tick m.cc), m.tick, m.cc, m.port, cwIdx m.conn⟩
  if mustPark s r then { s2 with fab := { s2.fab with parked := s2.fab.parked ++ [q] } }
  else enqueue s2 (reqPart s2 k) q

/-- Refusals that no check of R118 makes: NOT_OWNER while CTX is off, PART_RESET of a partition being reset, NOT_OWNER in the memory role or
where the node does not serve (R12, R30, R452, R484). Where several apply the spec gives no order: this one is the model's (DESIGN CHOICE,
assumption 47). -/
def doorStatus (s : State) (p kind : Nat) : Nat :=
  if !s.up .ctx 0 then stNOT_OWNER
  else if resetting s p then stPART_RESET
  else if refusesAll s ∧ kind ≠ 4 then stNOT_OWNER
  else stOK

/-- The checks of R118 in order on a request, with `shared` from a key lookup, and its admission to a queue. -/
def intake (s : State) (m : Delivered) (a : Ask) (shared : Bool) : State :=
  let p := (s.conn (cwIdx m.conn)).part
  let no := fun (s : State) st => refuseAsk s m a st
  let d := doorStatus s p a.kind
  if d ≠ stOK then no s d
  else
    let h := checkHandle s p a shared
    if h ≠ stOK then no s h
    else match pickSlot s p a m.conn with
    | .error st => no s st
    | .ok k =>
      let x := resolveTick m.tick a.tick
      let r : Req := { a.req with
        st := .queued, gen := (s.reqAt k).gen, conn := m.conn, target := x, epoch := a.epoch, arrival := m.cc
        late := decide (x < plannable s m.tick m.cc)
        payload := if a.kind = 3 ∧ a.handle = noHandle then a.req.payload else m.addr, bytes := m.len }
      let (ms, ctr) := checkMap s a r m.conn
      if ms ≠ stOK then no (s.count ctr) ms
      else
        let c := s.ctxAt (hSlot a.handle)
        let f := check8 s r c
        if f ≠ stOK then no s f
        else if m.tick + horizon s < x then no s stMALFORMED
        else match priceOk (s.setReq k r) p k with
          | none => no s stQUOTA
          | some ch => acceptAsk s m a { r with charge := ch } k x

/-! ### The commands -/

/-- Take the first message of the inbox where it has opcode `op`. -/
def takeInbox (s : State) (op : Nat) : Option (Delivered × State) :=
  match s.itp.inbox with
  | [] => none
  | m :: r => if m.op = op then some (m, { s with itp := { s.itp with inbox := r } }) else none

/-- A request message is taken in; `ecc`: 1 its staging frame, 2 the context's entry cannot be read (R506). -/
def intakeEcc (s : State) (m : Delivered) (a : Ask) (ecc : Nat) : State :=
  if ecc = 1 then refuseAsk (fault (uncorr s m.addr) .itp 0 0x60 none (cwIdx m.conn) (m.addr % 2 ^ 32)) m a stCRC
  else if ecc = 2 ∧ (a.kind ≠ 3 ∨ a.handle ≠ noHandle) then intake (ctxBad s (hSlot a.handle)) m a false
  else intake s m a false

/-- AREQ (R118, R405). -/
def execAreq (ecc : Nat) (s : State) : Host.Outcome State Fault Refusal :=
  match takeInbox s 0x10 with
  | none => .next s
  | some (m, s1) => .next (intakeEcc s1 m (askAreq m) ecc)

/-- APPEND (R118, R407). -/
def execAppend (ecc : Nat) (s : State) : Host.Outcome State Fault Refusal :=
  match takeInbox s 0x12 with
  | none => .next s
  | some (m, s1) => .next (intakeEcc s1 m (askAppend m) ecc)

/-- RELEASE (R118, R409). -/
def execRelease (ecc : Nat) (s : State) : Host.Outcome State Fault Refusal :=
  match takeInbox s 0x14 with
  | none => .next s
  | some (m, s1) => .next (intakeEcc s1 m (askRelease m) ecc)

/-- MIGRATE (R118, R410). -/
def execMigrate (ecc : Nat) (s : State) : Host.Outcome State Fault Refusal :=
  match takeInbox s 0x16 with
  | none => .next s
  | some (m, s1) => .next (intakeEcc s1 m (askMigrate m) ecc)

/-- A CLONE that looks up a key: the source and n that the entry gives, once the result is there (R313). -/
def cloneByKey (s : State) (m : Delivered) (found : Option (Nat × RdlEnt)) : State :=
  let a := askClone m
  let d := doorStatus s (s.conn (cwIdx m.conn)).part 3
  let miss := fun (s : State) => refuseAsk (s.count Reg.RDL_MISSES) m a (if d ≠ stOK then d else stMALFORMED)
  match found with
  | none => miss s
  | some (_, e) =>
    let chk := unpackLE a.req.params 12 4
    if chk ≠ 0 ∧ chk ≠ e.check then miss s
    else
      let n := if a.req.position = 0 ∨ e.n < a.req.position then e.n else a.req.position
      let b : Ask := { a with handle := e.handle, req := { a.req with handle := e.handle, position := n } }
      let k := hSlot e.handle
      let stale := (s.ctxAt k).gen ≠ hGen e.handle ∨ (s.ctxAt k).st = .free
      let s2 := if stale then event (s.count Reg.RDL_STALE) .rdl 0 5 { i0 := e.handle } else s
      intake s2 m b e.shared

/-- CLONE (R118, R313, R408): one that names a key waits for its lookup; `bad` names a RIDDLE entry that the compare cannot read. -/
def execClone (ecc : Nat) (bad : Option Nat) (s : State) : Host.Outcome State Fault Refusal :=
  match takeInbox s 0x13 with
  | none => .next s
  | some (m, s1) =>
    if beAt m.ext 4 4 = 0xFFFFFFFE ∧ ecc ≠ 1 then
      let s1 := rdlBad s1 bad
      let key := ofBE (s1.readBytes m.addr 12)
      let found := rdlFind s1 key (s1.conn (cwIdx m.conn)).part
      let l : RdlLook := ⟨4, found, some m, s.time.up⟩
      let s2 := s1.count Reg.RDL_LOOKUPS
      let s2 := match found with
        | some (_, e) => rdlCountHit s2 e
        | none => s2
      .next { s2 with rdl := { s2.rdl with looks := s2.rdl.looks ++ [l] } }
    else .next (intakeEcc s1 m (askClone m) ecc)

/-- The result of the oldest lookup of a port (0 to 3 an MCX core, 4 the CTX) is ready, 24 cc after its compare (R305, R312, R313). -/
def execRdlLookupResult (port : Nat) (s : State) : Host.Outcome State Fault Refusal :=
  match s.rdl.looks.find? (·.port == port) with
  | none => .next s
  | some l =>
    match reachUp s (l.issued + 24) with
    | none => .next s
    | some s0 =>
      let s1 := { s0 with rdl := { s0.rdl with looks := s0.rdl.looks.erase l } }
      match l.clone with
      | none => .next (rdlLookEnd s1 l)
      | some m => .next (cloneByKey s1 m l.found)

/-! ### CANCEL (R119, R409, R454) -/

/-- Forward a CANCEL of a request that went to the mirror (R454). -/
def forwardCancel (s : State) (slot : Nat) : State :=
  let r := s.reqAt slot
  match s.fab.fwds.find? fun f => f.slot == slot && f.gen == r.gen && f.sent && f.far.isNone with
  | none => s
  | some f => match primaryOf s f.ctx with
    | some e =>
      if s.connOpen e.conn then
        (queueMsg s (cwIdx e.conn) 0x15 1 (toBE 4 (mkReqId r.gen slot) ++ toBE 4 e.handle) 0 (.bytes []) .none).count
          Reg.FAB_FWD
      else s
    | none => s

/-- Carry out a CANCEL on a slot that its checks admit (R119): a queued request is removed, an admitted one runs on and its
result is discarded. -/
def cancelSlot (s : State) (slot : Nat) : State :=
  let r := s.reqAt slot
  match r.st with
  | .queued => dismiss s slot stCANCELLED
  | .admitted => forwardCancel (s.setReq slot { r with cancel := true }) slot
  | _ => s

/-- The slot that a CANCEL names: a forwarded request's slot of the forward pool, or the ID's own (R409, R455). -/
def cancelTarget (s : State) (m : Delivered) : Option Nat :=
  let id := beAt m.ext 0 4
  let h := beAt m.ext 4 4
  let p := (s.conn (cwIdx m.conn)).part
  match s.fab.pool.find? fun f => f.2 == id && (s.reqAt f.1).handle == h && (s.reqAt f.1).conn == m.conn with
  | some (k, _) => some k
  | none =>
    let k := rSlot id
    let r := s.reqAt k
    if ownsReq s p k ∧ r.st ≠ .free ∧ r.gen = rGen id ∧ r.handle = h then some k else none

/-- CANCEL (R409); `ecc`: 1 the request's entry, 2 its id or conn word cannot be read (R506). -/
def execCancel (ecc : Nat) (s : State) : Host.Outcome State Fault Refusal :=
  match takeInbox s 0x15 with
  | none => .next s
  | some (m, s1) =>
    let s2 := stageFree s1 m.addr
    match cancelTarget s2 m with
    | none => .next (s2.count Reg.ITP_STALE)
    | some k => .next (if ecc = 0 then cancelSlot s2 k else reqBad s2 k (ecc == 2))

/-! ### The mirror's answer (R456) -/

/-- The record of a forwarded request is closed or updated by the mirror's status and ran. -/
def mirrorAnswer (s : State) (f : Fwd) (status ran : Nat) : State :=
  let rest := s.fab.fwds.filter (· != f)
  match f.own with
  | none => { s with fab := { s.fab with fwds := rest ++ [{ f with far := some (status, ran) }] } }
  | some (own, ranOwn) =>
    let s1 := { s with fab := { s.fab with fwds := rest } }
    let s2 := if diverges own status then diverge s1 f.ctx status else s1
    let r := s2.reqAt f.slot
    if f.waits ∧ r.gen = f.gen ∧ r.st ≠ .free then
      let s3 := if diverges own status then s2 else s2.setReq f.slot { r with ran := max ranOwn ran }
      complete s3 f.slot own r.handle []
    else s2

/-- A mirror's ADONE for a forwarded request arrives (R456). -/
def execMirrorAdone (s : State) : Host.Outcome State Fault Refusal :=
  match takeInbox s 0x17 with
  | none => .next s
  | some (m, s1) =>
    let s2 := stageFree s1 m.addr
    let id := beAt m.ext 0 4
    match s2.fab.fwds.find? fun f => f.slot == rSlot id && f.gen == rGen id && f.sent && f.far.isNone with
    | none => .next s2
    | some f => .next (mirrorAnswer s2 f (beAt m.ext 8 1) (beAt m.ext 10 6))

/-- FAB_MIR_TO ticks after the seal point a context in SYNC still has no answer for a request: a divergence (R456). -/
def execMirrorTimeout (slot : Nat) (s : State) : Host.Outcome State Fault Refusal :=
  let r := s.reqAt slot
  match s.fab.fwds.find? fun f => f.slot == slot && f.gen == r.gen && f.sent && f.far.isNone && f.own.isSome with
  | none => .next s
  | some f =>
    if mst s f.ctx = mstSYNC ∧ f.sealTick + max 1 (s.fld Reg.FAB_MIR_TO 7 0) ≤ s.time.tick then
      let s1 := diverge { s with fab := { s.fab with fwds := s.fab.fwds.filter (· != f) } } f.ctx 0xFF
      .next (if f.waits then complete s1 slot (f.own.getD (0, 0)).1 r.handle [] else s1)
    else .next s

end Sys2Proof.Machine
end

