-- ==== Sys2Proof/Machine/Fen.lean ====
section
/-!
DEFINITION. Fen stacks and near-bank units (spec/08, R218 to R253): segments and raw programs of the near-bank sequencers,
channel modes, crown queues, refresh, the channel arbiter with its watchdog, and fen errors.
-/

namespace Sys2Proof.Machine

/-! ### Channels -/

def State.dbr (s : State) (n : Nat) : Dbr := SMap.get s.dbrs {} n
def State.setDbr (s : State) (n : Nat) (d : Dbr) : State := { s with dbrs := SMap.set s.dbrs {} n d }

/-- Show the channel's mode in FEN_CHSTAT and FEN_CH_READY (R236, R252). -/
def setPim (s : State) (n p : Nat) (pim : Bool) : State :=
  (s.setFld (Reg.FEN_CHSTAT n p) 6 6 (b2n pim)).setFld (Reg.FEN_CH_READY n) p p (b2n !pim)

/-- Current sc of the tick. -/
def State.sc (s : State) : Nat := s.time.cc / 2

/-- A grant's hold has run out. -/
def Grant.over (g : Grant) (up : Nat) : Bool := decide (g.start + 2 * g.hold ≤ up)

/-- A segment runs on the channel (R238). -/
def segRunning (s : State) (n p : Nat) : Bool := (s.dbr n).runs.any fun r => r.seg.pc == p

/-! ### Errors (R248) -/

/-- An error that the interface path or a DIBBER cannot correct: counted, address captured, its frame poisoned, event bit 3
(R248, R508). -/
def fenUncorr (s : State) (n addr : Nat) : State :=
  let s := if inFen addr then poisonAdd s (frameAt s (65536 + (addr - fenBase) / 65536)) else s
  event0 ((s.count (Reg.FEN_ECC_UNCORR n)).setRg64 (Reg.FEN_ECC_ADDR_LO n) addr) .fen n 3

/-- The interface path's uncorrectable error is also a fault (R506, R511). -/
def fenFault (s : State) (n addr requester : Nat) : State :=
  fault (fenUncorr s n addr) .fen n 0x29 none (addr % 2 ^ 32) (addr / 2 ^ 32 % 256 + requester % 8 * 256)

/-- An uncorrectable error met at an address, by requester `req` where it lies in fen (R248, R504). -/
def memUncorr (s : State) (a req : Nat) : State := if inFen a then fenFault s (addrStack a) a req else uncorr s a

/-! ### Mode changes (R235, R236) -/

/-- The first PIM window of a channel whose opening edge has not passed. -/
def nextWin (s : State) (n p : Nat) : Option PimWin :=
  ((winsOf s.tpl n p).filter fun w => decide (s.time.cc ≤ 2 * w.lo)).foldl (fun best w => match best with
    | none => some w
    | some v => if w.lo < v.lo then some w else best) none

/-- The channel changes mode at the edge that the plan names, and at no other time, unless a transfer or segment holds it (R235). -/
def execChannelModeChange (stack pc : Nat) (s : State) : Host.Outcome State Fault Refusal :=
  let n := stack % 8
  let p := pc % 32
  let held := segRunning s n p || (match (s.chan n p).grant with
    | some g => g.idx != 2 && !g.over s.time.up
    | none => false)
  if held || !s.up .fen n then .next s
  else if chanPim s n p then
    match (winsOf s.tpl n p).find? fun w => decide (2 * w.lo ≤ s.time.cc) && decide (s.time.cc ≤ 2 * w.hi) with
    | some w => .next (setPim (s.ccTo (2 * w.hi)) n p false)
    | none => .next s
  else
    match nextWin s n p with
    | some w => .next (setPim (s.ccTo (2 * w.lo)) n p true)
    | none => .next s

/-- The oldest held access of a channel that is again in MEM mode goes to the arbiter (R237). `bad` says that it meets an
uncorrectable error, at address `addr` (R248). -/
def execCrownQueueServe (stack pc : Nat) (bad : Bool) (addr : Nat) (s : State) : Host.Outcome State Fault Refusal :=
  let n := stack % 8
  let p := pc % 32
  let c := s.chan n p
  match c.crownQ with
  | [] => .next s
  | x :: r =>
    if chanPim s n p || !s.up .fen n then .next s
    else
      let c1 := { c with crownQ := r, waiting := c.waiting ++ [⟨x.q, x.src, x.raised, x.hold⟩] }
      let s1 := (s.setChan n p c1).setFld (Reg.FEN_CHSTAT n p) 22 16 (min 64 r.length)
      if bad then
        let s2 := fenFault s1 n addr x.q
        let t := s2.tile x.src
        let mark := fun (f : FenOp) => if addrStack f.fen = n ∧ addrPc f.fen = p then { f with failed := true } else f
        if x.src < 128 then .next (s2.setTile x.src { t with fens := t.fens.map mark })
        else .next s2
      else .next s1

/-! ### Refresh (R240, R241, R244) -/

/-- What is left of a grant that another requester interrupts now for `sc` stack cycles (R244): a transfer keeps its whole rest, and a PIM
window's grant still ends with the window. -/
def Grant.rest (g : Grant) (up sc : Nat) : Option Grant :=
  let left := g.hold - (up - g.start) / 2
  if g.over up then none
  else if g.idx = 2 then (if left ≤ sc then none else some { g with hold := left - sc })
  else some { g with hold := left }

/-- Put refresh on one channel: a holder is interrupted and resumes afterwards (R244). -/
def refreshChan (n : Nat) (s : State) (p : Nat) : State :=
  let c := s.chan n p
  let res := match c.grant with
    | some g => if g.idx ≠ 4 then (g.rest s.time.up 328).orElse fun _ => c.resumed else c.resumed
    | none => c.resumed
  s.setChan n p { c with grant := some ⟨4, s.time.up, 328, true⟩, resumed := res }

/-- First sc at or after `x` at which a refresh slot of the channel begins (R240). -/
def nextRefresh (s : State) (n p x : Nat) : Nat :=
  let per := refPeriod s n p
  let off := refOffset s n p
  off + per * ceilDiv (x - off) per

/-- The next refresh slot of a refresh group begins and takes its eight channels (R240, R242, R244). -/
def execRefreshSlot (stack group : Nat) (s : State) : Host.Outcome State Fault Refusal :=
  let n := stack % 8
  let q := group % 4
  if !s.en .fen n || s.clocksStopped then .next s
  else
    let s1 := s.ccTo (2 * nextRefresh s n (8 * q) (ceilDiv s.time.cc 2))
    .next (((List.range 8).map (8 * q + ·)).foldl (refreshChan n) s1)

/-- The temperature flag of a channel's core die changes (R241). -/
def execTempFlagChange (stack pc : Nat) (hot : Bool) (s : State) : Host.Outcome State Fault Refusal :=
  let n := stack % 8
  let p := pc % 32
  .next ((s.setFld (Reg.FEN_CHSTAT n p) 7 7 (b2n hot)).setFld (Reg.FEN_CH_TEMP n) p p (b2n hot))

/-- At a boundary the refresh period of a group follows the flags of its channels; ref_period is posted on a change (R81,
R241). -/
def refreshPeriods (s : State) : State :=
  (List.range 32).foldl (fun s k =>
    let n := k / 4
    let ps := (List.range 8).map (8 * (k % 4) + ·)
    let hot := ps.any fun p => s.bit (Reg.FEN_CH_TEMP n) p
    if hot = s.bit (Reg.FEN_CH_REFFAST n) (8 * (k % 4)) then s
    else
      let put := fun (s : State) p =>
        (s.setFld (Reg.FEN_CHSTAT n p) 8 8 (b2n hot)).setFld (Reg.FEN_CH_REFFAST n) p p (b2n hot)
      event0 (ps.foldl put s) .fen n 5) s

/-! ### The arbiter (R242 to R245) -/

/-- The booked interval of a channel that covers or begins at cc `x`: owner and end in cc. -/
def bookedAt (s : State) (n p x : Nat) : Option (Nat × Nat) :=
  match refreshHit s n p (x / 2) (x / 2 + 1) with
  | some e => some (4, 2 * e)
  | none => match (winsOf s.tpl n p).find? fun w => decide (2 * w.lo ≤ x) && decide (x < 2 * w.hi) with
    | some w => some (2, 2 * w.hi)
    | none => ((SMap.get s.tpl.memBusy [] (32 * n + p)).find? fun m => decide (m.lo ≤ x) && decide (x < m.hi)).map
        fun m => (b2n m.write, m.hi)

/-- cc of the next booked interval of a channel after cc `x`. -/
def nextBooked (s : State) (n p x : Nat) : Nat :=
  let starts := (winsOf s.tpl n p).map (fun w => 2 * w.lo) ++ (SMap.get s.tpl.memBusy [] (32 * n + p)).map (·.lo)
  (starts.filter fun y => decide (x < y)).foldl min (2 * nextRefresh s n p (x / 2 + 1))

/-- A request may be granted at cc `x`: the channel's mode permits it, its requester is not fenced, and its hold ends by
the next booked interval (R235, R242, R245). -/
def eligible (s : State) (n p x : Nat) (r : ArbReq) : Bool :=
  (if chanPim s n p then r.idx == 2 || r.idx == 5 else r.idx != 2)
    && !s.bit (Reg.FEN_CHSTAT n p) r.idx && decide (x + 2 * r.hold ≤ nextBooked s n p x)

/-- The request that the pointer rule chooses (R243); the sharers of requester 3 take turns (R297). -/
def byPointer (c : Chan) (rs : List ArbReq) : Option ArbReq :=
  ((List.range 6).map fun i => (c.ptr + i) % 6).findSome? fun i =>
    let mine := rs.filter (·.idx == i)
    if i = 3 then
      (rotWinner c.rot (mine.map fun r => ⟨r.src, r.raised⟩)).bind fun w => mine.find? fun r => r.src == w.src && r.raised == w.raised
    else mine.head?

/-- The winner of a decision (R243): the longest waiter at every eighth grant, else by pointer order. -/
def arbWinner (c : Chan) (rs : List ArbReq) : Option ArbReq :=
  if c.cnt = 7 then
    let oldest := rs.foldl (fun a r => min a r.raised) (rs.headD ⟨0, 0, 0, 0⟩).raised
    byPointer c (rs.filter fun r => r.raised == oldest)
  else byPointer c rs

/-- `wait` cc pass, and then as many as bring the next edge of the stack clock: sc begin on even cc of a tick (R2). -/
def State.scEdge (s : State) (wait : Nat) : State :=
  if s.time.running then s.ccTo (s.time.cc + wait + (s.time.cc + wait) % 2) else s.ccPass (wait + (s.time.up + wait) % 2)

/-- Errors corrected during a transfer, by the controller and by the core die, are counted and posted (R247). -/
def fenCorr (s : State) (n corr odCorr : Nat) : State :=
  if corr = 0 ∧ odCorr = 0 then s
  else event0 ((s.countBy (Reg.FEN_ECC_CORR n) corr).countBy (Reg.FEN_ODECC_CORR n) odCorr) .fen n 6

/-- The mode of a channel permits a requester's booked interval (R235): the sequencer in PIM mode, a crown queue in MEM mode, and refresh. -/
def modeTakes (s : State) (n p idx : Nat) : Bool := idx == 4 || chanPim s n p == (idx == 2)

/-- The owner of a booked interval is granted without arbitration (R242); the pointer and the counter stay. The mode must permit it (R235),
and a fenced owner is granted nothing (R245). `corr` and `odCorr` count the errors corrected during the transfer. -/
def execBookedIntervalGrant (ch : FenCh) (fix : FenFix) (s : State) : Host.Outcome State Fault Refusal :=
  let n := ch.stack % 8
  let p := ch.pc % 32
  let s1 := s.scEdge 0
  if !s.up .fen n then .next s
  else match bookedAt s1 n p s1.time.cc with
  | none => .next s
  | some (idx, fin) =>
    let c := s.chan n p
    if !modeTakes s n p idx || s.bit (Reg.FEN_CHSTAT n p) idx then .next s
    else .next (fenCorr (s1.setChan n p { c with grant := some ⟨idx, s1.time.up, (fin - s1.time.cc) / 2, true⟩ }) n fix.ecc fix.onDie)

/-- The debug port takes the channel from its holder at any sc, except during a segment or a refresh slot; the interrupted transfer resumes
afterwards (R238, R244). -/
def debugTakes (s : State) (n p : Nat) : Option ArbReq :=
  let c := s.chan n p
  if (c.grant.any fun g => (g.idx == 4 || g.idx == 5) && !g.over s.time.up) || segRunning s n p || s.bit (Reg.FEN_CHSTAT n p) 5 then none
  else c.waiting.find? (·.idx == 5)

/-- A decision of the channel arbiter, once the grant in force is over (R242 to R244). An interrupted transfer resumes
before any arbitration, and the debug port waits for no holder. `corr` and `odCorr` count the errors corrected during the transfer. -/
def execArbiterGrant (ch : FenCh) (fix : FenFix) (s : State) : Host.Outcome State Fault Refusal :=
  let n := ch.stack % 8
  let p := ch.pc % 32
  let c := s.chan n p
  let wait := match c.grant with
    | some g => g.start + 2 * g.hold - s.time.up
    | none => 0
  let s1 := s.scEdge wait
  let s0 := s.scEdge 0
  if !s.up .fen n then .next s
  else match debugTakes s0 n p with
  | some w =>
    let res := (c.grant.bind fun g => g.rest s0.time.up w.hold).orElse fun _ => c.resumed
    .next (fenCorr (s0.setChan n p { c with
      waiting := c.waiting.erase w, resumed := res, grant := some ⟨5, s0.time.up, w.hold, false⟩ }) n fix.ecc fix.onDie)
  | none => match c.resumed with
  | some g => .next (s1.setChan n p { c with grant := some { g with start := s1.time.up }, resumed := none })
  | none =>
    if (bookedAt s1 n p s1.time.cc).isSome then .next s
    else
      let rs := c.waiting.filter (eligible s1 n p s1.time.cc)
      match arbWinner c rs with
      | none => .next s
      | some w =>
        .next (fenCorr (dpwEnter (s1.setChan n p { c with
          waiting := c.waiting.erase w, rot := if w.idx = 3 then sharer w.src else c.rot, ptr := (w.idx + 1) % 6, cnt := (c.cnt + 1) % 8
          grant := some ⟨w.idx, s1.time.up, w.hold, false⟩ }) n p) n fix.ecc fix.onDie)

/-- The watchdog ends a grant that has lasted 65,536 cc and fences its holder (R245). Refresh grants are not counted. -/
def execFenWatchdogBite (stack pc : Nat) (s : State) : Host.Outcome State Fault Refusal :=
  let n := stack % 8
  let p := pc % 32
  let c := s.chan n p
  match c.grant with
  | none => .next s
  | some g =>
    if g.idx = 4 ∨ s.time.up < g.start + 65536 then .next s
    else
      let s1 := (s.setChan n p { c with grant := none }).setFld (Reg.FEN_CHSTAT n p) g.idx g.idx 1
      let s2 := fault (s1.count (Reg.FEN_WD_BITES n)) .fen n 0x28 none (p + g.idx * 256) s.time.cc
      .next (event0 s2 .fen n 4)

/-- Firmware clears fence bits with a W1C write of FEN_CHSTAT (R252). -/
def execFenceClear (stack pc bits : Nat) (s : State) : Host.Outcome State Fault Refusal :=
  let a := Reg.FEN_CHSTAT (stack % 8) (pc % 32)
  .next (s.setFld a 5 0 (Nat.land (s.fld a 5 0) (63 - bits % 64)))

/-! ### Building a segment (R232, R233) -/

/-- Geometry of a segment. -/
def Seg.geo (g : Seg) : Geo := ⟨g.code, 32 * g.d32, g.kvh, g.t⟩

/-- The segment has its three parameters. -/
def Seg.ready (g : Seg) : Bool := g.sigma.isSome && g.limit.isSome && g.win.isSome

/-- Change the segment under construction of stack `n`, where one is open. -/
def withSeg (s : State) (n : Nat) (f : Seg → Seg) : State :=
  match (s.dbr n).open_ with
  | none => s
  | some g => s.setDbr n { s.dbr n with open_ := some (f g) }

def Seg.putSigma (v : F32) (g : Seg) : Seg :=
  if g.sigma.isSome ∨ g.rows ≠ [] then { g with bad := true } else { g with sigma := some v }
def Seg.putLimit (v : Nat) (g : Seg) : Seg :=
  if g.limit.isSome ∨ g.rows ≠ [] then { g with bad := true } else { g with limit := some v }
def Seg.putWin (w p : Nat) (g : Seg) : Seg :=
  if g.win.isSome ∨ g.rows ≠ [] then { g with bad := true } else { g with win := some (w, p) }
def Seg.putRow (r : SegRow) (g : Seg) : Seg :=
  let g1 := { g with rows := g.rows ++ [r] }
  if !g.ready || !g.pages.isEmpty then { g1 with bad := true } else g1
def Seg.putPage (p : SegPage) (g : Seg) : Seg :=
  let g1 := { g with pages := g.pages ++ [p], wait := 0, hang := false }
  if g.rows.isEmpty || !g.raw && g.dest.isNone then { g1 with bad := true } else g1
def Seg.putWait (w : Nat) (g : Seg) : Seg :=
  if g.rows.isEmpty || !g.raw then { g with bad := true } else { g with wait := g.wait + w, hang := true }
/-- MARK stands before a PAGE, as WAIT does (R233). -/
def Seg.putMark (g : Seg) : Seg := if g.rows.isEmpty then { g with bad := true } else { g with hang := true }
def Seg.putDest (tile slot : Nat) (g : Seg) : Seg :=
  if g.raw then g else if g.pages.isEmpty then { g with dest := some (tile, slot) } else { g with bad := true }

/-- A new segment from the fields of SEG_OPEN (R232). -/
def segOpen (pc code d32 kvhLog t32 store : Nat) (raw : Bool) : Seg :=
  { pc := pc % 32, code := code % 8, d32 := d32 % 32, kvh := 2 ^ (kvhLog % 4), t := 32 * (t32 % 32), store := store % 2, raw := raw }

/-- SEG_OPEN on stack `stack` (R232). A segment still open is dropped: a program that opens two is malformed. -/
def execSegOpen (stack pc code d32 kvhLog t32 store : Nat) (s : State) : Host.Outcome State Fault Refusal :=
  let n := stack % 8
  let g := segOpen pc code d32 kvhLog t32 store false
  .next (s.setDbr n { s.dbr n with open_ := some { g with bad := (s.dbr n).open_.isSome } })

/-- SIGMA (R232). -/
def execSigma (stack sigma : Nat) (s : State) : Host.Outcome State Fault Refusal :=
  .next (withSeg s (stack % 8) (Seg.putSigma (BitVec.ofNat 32 sigma)))

/-- LIMIT (R232). -/
def execLimit (stack limit : Nat) (s : State) : Host.Outcome State Fault Refusal :=
  .next (withSeg s (stack % 8) (Seg.putLimit (limit % 2 ^ 25)))

/-- WINDOW (R232). -/
def execWindow (stack window prefix_ : Nat) (s : State) : Host.Outcome State Fault Refusal :=
  .next (withSeg s (stack % 8) (Seg.putWin (window % 2 ^ 25) (prefix_ % 2 ^ 25)))

/-- ROW of a vendor segment: its rotated row lies in the row store (R226, R232). -/
def execRow (stack slot head pos : Nat) (s : State) : Host.Outcome State Fault Refusal :=
  .next (withSeg s (stack % 8) (Seg.putRow ⟨slot % 64, head % 8, pos % 2 ^ 24, []⟩))

/-- PAGE (R232). -/
def execSegmentPage (stack rowSet countM1 base : Nat) (bound : Bool) (s : State) : Host.Outcome State Fault Refusal :=
  let tag := (s.dbr (stack % 8)).tag
  .next (withSeg s (stack % 8) fun g =>
    Seg.putPage ⟨rowSet % 65536, countM1 % 1024, base % 2 ^ 24, bound, g.wait, tag⟩ g)

/-- WAIT (R232): raw programs only, so it breaks the form of a vendor segment. -/
def execWait (stack sc : Nat) (s : State) : Host.Outcome State Fault Refusal :=
  .next (withSeg s (stack % 8) (Seg.putWait (sc % 65536)))

/-- MARK (R232). -/
def execMark (stack tag : Nat) (s : State) : Host.Outcome State Fault Refusal :=
  let n := stack % 8
  let g := (s.dbr n).open_
  let g1 := g.map Seg.putMark
  .next (s.setDbr n { s.dbr n with tag := tag % 2 ^ 32, open_ := g1 })

/-- DEST (R232). -/
def execDest (stack tile slot : Nat) (s : State) : Host.Outcome State Fault Refusal :=
  .next (withSeg s (stack % 8) (Seg.putDest (tile % 128) (slot % 2 ^ 20)))

/-! ### Checking and running a segment (R230, R231, R234, R239) -/

/-- Page times a_p of a segment, from its start (R230). -/
def segTimes (g : Seg) : List Nat :=
  let h := chainH (32 * g.d32) g.rows.length
  let us := g.pages.map fun p => (chainU g.geo + (if p.bound then costBoundChain else 0), p.wait)
  let step := fun (acc : List Nat × Nat) (u : Nat × Nat) =>
    let a := if acc.1.isEmpty then u.1 else acc.2 + max u.1 h + u.2
    (acc.1 ++ [a], a)
  (us.foldl step ([], 0)).1

/-- Length of a segment in sc (R230). -/
def segLength (g : Seg) : Nat := (segTimes g).getLastD 0 + 32 * chainH (32 * g.d32) g.rows.length

/-- The form of a segment (R233). -/
def segForm (g : Seg) : Bool :=
  !g.bad && !g.hang && g.ready && decide (pageLen g.code (32 * g.d32) g.kvh = g.t) && decide (g.t ≠ 0)
    && decide (1 ≤ g.rows.length) && decide (g.rows.length ≤ 64)
    && decide ((g.rows.map (·.slot)).Nodup) && g.rows.all (fun r => decide (r.head < g.kvh))
    && (List.range 8).all (fun h => decide ((g.rows.filter (·.head == h)).length ≤ 8))
    && decide (1 ≤ g.pages.length) && g.pages.all (fun p => decide (p.countM1 < g.t))

/-- At least 800 sc of MEM mode lie between a window [wlo, whi) of a channel and its other windows (tMEM of R239). -/
def memApart (s : State) (n p wlo whi : Nat) : Bool :=
  (winsOf s.tpl n p).all fun w => (w.lo == wlo && w.hi == whi) || decide (w.hi + 800 ≤ wlo) || decide (whi + 800 ≤ w.lo)

/-- The segment may run on [lo, lo + its length) sc of its channel inside window [wlo, whi), beside the segments `others` of its stack (R234,
R239). tPAW holds by the stagger of R231, and the stack overlap is the planner's. -/
def segFits (s : State) (n : Nat) (g : Seg) (lo wlo whi : Nat) (others : List SegRun) : Bool :=
  let hi := lo + segLength g
  decide (segLength g ≤ 1228) && (refreshHit s n g.pc lo hi).isNone && decide (wlo ≤ lo) && decide (hi ≤ whi)
    && decide (whi - wlo ≤ 6400) && memApart s n g.pc wlo whi
    && others.all (fun r => r.seg.pc != g.pc || decide (r.start + segLength r.seg ≤ lo) || decide (hi ≤ r.start))
    && decide (((others.filter fun r => r.seg.pc != g.pc && decide (r.start < hi) && decide (lo < r.start + segLength r.seg)).map
        (·.seg.pc)).eraseDups.length < 8)

/-- An admitted request fails with a status: its booked items are dropped and it completes (R234, R248). -/
def failRequest (s : State) (slot status : Nat) : State :=
  let r := s.reqAt slot
  if r.st = .admitted then
    let s1 := { s with tpl := { s.tpl with
      items := s.tpl.items.filter (fun it => !(it.reqs == [slot]))
      order := s.tpl.order.filter (· != slot), results := SMap.set s.tpl.results [] slot [] } }
    settle s1 slot status r.handle []
  else s

/-- A segment is refused: counted, posted; a vendor segment also fails its request and records a fault (R234, R511). -/
def segRefuse (s : State) (n : Nat) (g : Seg) : State :=
  let s1 := event0 (s.count (Reg.DBR_REFUSED n)) .dbr n 3
  match g.dest with
  | some (_, slot) =>
    if g.raw then s1
    else failRequest (fault s1 .dbr n 0x30 none (mkReqId (s.reqAt slot).gen slot) g.pc) slot stMALFORMED
  | none => s1

/-- SEG_CLOSE: the DBR checks the segment and activates its DIBBERs at the current sc, or refuses it (R231, R234). -/
def execSegClose (stack : Nat) (s : State) : Host.Outcome State Fault Refusal :=
  let n := stack % 8
  let d := s.dbr n
  match d.open_ with
  | none => .next s
  | some g =>
    let s1 := s.setDbr n { d with open_ := none }
    let lo := ceilDiv s.time.cc 2
    let ok := match (winsOf s.tpl n g.pc).find? fun w => decide (w.lo ≤ lo) && decide (lo < w.hi) with
      | some w => s.up .dbr n && chanPim s n g.pc && segForm g && segFits s n g lo w.lo w.hi (d.runs ++ d.raw.getD [])
      | none => false
    if ok then .next (s1.setDbr n { d with open_ := none, runs := d.runs ++ [⟨g, lo, 0⟩] })
    else .next (segRefuse s1 n g)

/-! ### What a chain yields (R224 to R229, R250) -/

/-- A DIBBER's reader of a row set: the bank bytes that the segment's geometry names (R219, R224). -/
def dibberRead (s : State) (n : Nat) (g : Seg) (rowSet : Nat) : Nat → Nat :=
  let b := fenBase + 65536 * (n * 2097152 + g.pc * 65536 + rowSet)
  fun o => s.cell (b + fenPlace (some g.geo) o)

/-- The rotated row of a ROW command: its own data, or the row that stands in its row slot of the row store, where slot k begins at byte k ×
4d (R226, R232; the spec gives the store no layout: DESIGN CHOICE, assumption 103). -/
def segQuery (s : State) (n : Nat) (g : Seg) (r : SegRow) : List F32 :=
  if g.raw then r.q
  else
    let st := SMap.get (s.dbr n).stores [] (2 * g.pc + g.store)
    (List.range (32 * g.d32)).map fun k =>
      BitVec.ofNat 32 (leBytes (fun o => st.getD o 0) (4 * (r.slot * 32 * g.d32 + k)) 4)

/-- One exit record of a page: the row slot, the partial and the bound (R228, R229). -/
def exitOf (s : State) (n : Nat) (g : Seg) (p : SegPage) (r : SegRow) : Nat × Part × F32 :=
  let pv : PageView := ⟨dibberRead s n g p.rowSet, p.countM1 + 1, true⟩
  let w := g.win.getD (0, 0)
  let row : Row := ⟨g.sigma.getD f32Zero, w.1, w.2, g.limit.getD 0, r.pos, r.head, segQuery s n g r⟩
  (r.slot, pagePartAt g.geo pv p.base row, if p.bound then scoreUB g.geo pv row else f32Zero)

/-- The exit records of a segment, page by page in row order. -/
def segExits (s : State) (n : Nat) (g : Seg) : List (SegPage × List (Nat × Part × F32)) :=
  g.pages.map fun p => (p, g.rows.map (exitOf s n g p))

/-- Bytes of a vendor exit transfer: O, m, l and, with bounds, ub of every row (R228). -/
def exitBytes (p : SegPage) (xs : List (Nat × Part × F32)) : List Nat :=
  xs.flatMap fun (_, a, ub) => a.o.flatMap f32Bytes ++ f32Bytes a.m ++ f32Bytes a.l ++ (if p.bound then f32Bytes ub else [])

/-- Free words stand in for the partial of a record whose chain state is marked failed: no rule gives their value. -/
def failedPart (s : State) (d : Nat) : Part :=
  let w := fun (k : Nat) => BitVec.ofNat 32 (Config.freeValue (s.fresh + k)).toNat
  ⟨w 0, w 1, (List.range d).map fun k => w (k + 2), false⟩

/-- A raw result record (R250). -/
def rawRecord (s : State) (p : SegPage) (failed : Bool) (x : Nat × Part × F32) : List Nat :=
  let (slot, a0, ub) := x
  let a := if failed then failedPart s a0.o.length else a0
  let empty := !a.nf && decide (a.m = f32NegInf) && !failed
  toLE 4 p.base ++ [slot, b2n empty + 2 * b2n (a.nf && !failed) + 4 * b2n failed + 8 * b2n p.bound, 0, 0]
    ++ (if p.bound then f32Bytes ub else toLE 4 0) ++ toLE 4 p.tag
    ++ a.o.flatMap f32Bytes ++ f32Bytes a.m ++ f32Bytes a.l

/-- Pages of a segment whose records are complete at cc `x` (R230). -/
def segReady (r : SegRun) (x : Nat) : Nat :=
  ((segTimes r.seg).filter fun a => decide (2 * (r.start + a + 32 * chainH (32 * r.seg.d32) r.seg.rows.length) ≤ x)).length

/-- The records of a running vendor segment's pages join the exit buffer of their channel as each page's are complete (R228, R230). -/
def segDrain (s : State) (n : Nat) (r : SegRun) : State :=
  let k := max r.out (segReady r s.time.cc)
  if k = r.out then s
  else
    let (tile, slot) := r.seg.dest.getD (0, 0)
    let pages := (r.seg.pages.take k).drop r.out
    let recs := pages.map fun p => (tile, slot, p.rowSet, exitBytes p (r.seg.rows.map (exitOf s n r.seg p)))
    let d := s.dbr n
    s.setDbr n { d with
      runs := d.runs.map fun x => if x == r then { x with out := k } else x
      exits := SMap.set d.exits [] r.seg.pc (SMap.get d.exits [] r.seg.pc ++ recs) }

/-- The exit buffers of a stack take what is complete by now. -/
def exitsTurn (s : State) (n : Nat) : State := (s.dbr n).runs.foldl (fun s r => segDrain s n r) s

/-- `len` bytes from byte `off` of the oldest record for a tile and a request that channel `p` of a stack holds of the page in a row set, and
the state without the record once its last byte has gone (R228). -/
def exitTake (s : State) (n p rowSet tile slot off len : Nat) : Option (State × List Nat) :=
  let d := s.dbr n
  let l := SMap.get d.exits [] p
  (l.find? fun x => x.1 == tile && x.2.1 == slot && x.2.2.1 == rowSet).map fun x =>
    let bytes := x.2.2.2
    (if bytes.length ≤ off + len then s.setDbr n { d with exits := SMap.set d.exits [] p (l.erase x) } else s, (bytes.drop off).take len)

/-- A vendor segment's records are complete: they wait in the exit buffer for their mesh slot, and its DIBBERs are done
(R228, R230, R231). `bad` is the DIBBER of a chain state marked failed, with the address (R248); records that come after
their booked time are a fault (R511). `odCorr` counts the errors that the core die corrected for the DIBBERs (R247). -/
def execSegmentComplete (stack pc : Nat) (met : SegEcc) (s : State) : Host.Outcome State Fault Refusal :=
  let n := stack % 8
  let p := pc % 32
  if s.clocksStopped then .next s
  else match (s.dbr n).runs.find? (·.seg.pc == p) with
  | none => .next s
  | some r =>
    let fin := 2 * (r.start + segLength r.seg)
    let (_, slot) := r.seg.dest.getD (0, 0)
    let id := mkReqId (s.reqAt slot).gen slot
    let s0 := segDrain (s.ccTo fin) n r
    let d := s0.dbr n
    let s1 := fenCorr ((s0.setDbr n { d with runs := d.runs.filter (·.seg.pc != p) }).count (Reg.DBR_SEGS n)) n 0 met.onDie
    let s2 := if fin < s.time.cc then fault (event0 s1 .dbr n 6) .dbr n 0x31 none id p else s1
    match met.bad with
    | none => .next s2
    | some (dib, addr) =>
      let s3 := fault (fenUncorr s2 n addr) .dbr n 0x32 none id (p + dib % 32 * 256)
      .next (failRequest s3 slot stCRC)

/-! ### Raw programs (R249, R250, R253) -/

/-- The 64-bit word at index `i` of a stack's raw program. -/
def rawWord (s : State) (n i : Nat) : Nat := s.readLE (s.rg64 (Reg.DBR_RAW_PROG_LO n) + 8 * i) 8

/-- State of reading a raw program: the segments read, the open one, the tag, the commands executed. -/
structure RawParse where
  segs : List Seg := []
  cur : Option Seg := none
  tag : Nat := 0
  done : Nat := 0
  bad : Bool := false

/-- Change the open segment of a raw program; without one the program is malformed. -/
def RawParse.on (x : RawParse) (f : Seg → Seg) : RawParse :=
  match x.cur with
  | none => { x with bad := true }
  | some g => { x with cur := some (f g), done := x.done + 1 }

/-- Read one command of a raw program (R232); `data` are the words of a ROW's rotated row. -/
def RawParse.cmd (x : RawParse) (w : Nat) (data : List Nat) : RawParse :=
  let op := w % 256
  if op = 0x01 then
    let g := segOpen (bitsOf w 12 8) (bitsOf w 15 13) (bitsOf w 20 16) (bitsOf w 22 21) (bitsOf w 27 23) (bitsOf w 28 28) true
    if x.cur.isSome then { x with bad := true } else { x with cur := some g, done := x.done + 1 }
  else if op = 0x02 then x.on (Seg.putSigma (BitVec.ofNat 32 (bitsOf w 63 32)))
  else if op = 0x03 then x.on (Seg.putLimit (bitsOf w 32 8))
  else if op = 0x04 then x.on (Seg.putWin (bitsOf w 32 8) (bitsOf w 57 33))
  else if op = 0x05 then
    let q := data.flatMap fun v => [BitVec.ofNat 32 v, BitVec.ofNat 32 (v / 2 ^ 32)]
    x.on (Seg.putRow ⟨bitsOf w 13 8, bitsOf w 16 14, bitsOf w 40 17, q⟩)
  else if op = 0x06 then
    x.on fun g => Seg.putPage ⟨bitsOf w 23 8, bitsOf w 33 24, bitsOf w 57 34, bitOf w 58, g.wait, x.tag⟩ g
  else if op = 0x07 then
    match x.cur with
    | none => { x with bad := true }
    | some g => { x with segs := x.segs ++ [g], cur := none, done := x.done + 1 }
  else if op = 0x08 then x.on (Seg.putWait (bitsOf w 23 8))
  else if op = 0x09 then ({ x with tag := bitsOf w 39 8 }).on Seg.putMark
  else if op = 0x0A then { x with done := x.done + 1 }
  else { x with bad := true }

/-- Read a raw program of `words` words from word `i` on. -/
def rawParse (s : State) (n words : Nat) : Nat → Nat → RawParse → RawParse
  | 0, _, x => x
  | k + 1, i, x =>
    if x.bad ∨ words ≤ i then x
    else
      let w := rawWord s n i
      let d := if w % 256 = 0x05 then 16 * (match x.cur with | some g => g.d32 | none => 0) else 0
      if words < i + 1 + d then { x with bad := true }
      else rawParse s n words k (i + 1 + d) (x.cmd w ((List.range d).map fun j => rawWord s n (i + 1 + j)))

/-- Place the segments of a raw program one after another in its reservation, each after its rows have loaded at 128 B
per sc (R249); those that pass their checks, up to the first refused. -/
def rawPlace (s : State) (n lo hi : Nat) : List Seg → Nat → List SegRun → List SegRun × Bool
  | [], _, acc => (acc, true)
  | g :: r, at_, acc =>
    let start := at_ + ceilDiv (g.rows.length * 128 * g.d32) 128
    if segForm g && segFits s n g start lo hi ((s.dbr n).runs ++ acc) then
      rawPlace s n lo hi r (start + segLength g) (acc ++ [⟨g, start, 0⟩])
    else (acc, false)

/-- Bytes of the records of a segment (R250). -/
def rawBytes (g : Seg) : Nat := g.pages.length * g.rows.length * (24 + 128 * g.d32)

/-- A raw program ends with a status (R250, R253). -/
def rawEnd (s : State) (n status done : Nat) : State :=
  let s1 := s.setDbr n { s.dbr n with raw := none, rawDone := 0 }
  let s2 := s1.setRg (Reg.DBR_RAW_STAT n) (status + done % 4096 * 256 + 2 ^ 20)
  event0 (s2.setFld (Reg.DBR_RAW_CTL n) 16 16 0) .dbr n 4

/-- An armed raw program starts in its booked reservation, once its channel is in PIM mode (R235), or is refused (R249, R250). A program
with one refused segment is refused whole, with done 0 (DESIGN CHOICE, assumption 104). -/
def execRawProgramStart (stack : Nat) (s : State) : Host.Outcome State Fault Refusal :=
  let n := stack % 8
  let d := s.dbr n
  match s.tpl.pims.find? fun w => w.raw && w.stack == n with
  | none => .next s
  | some w =>
    if !s.bit (Reg.DBR_RAW_CTL n) 16 || d.raw.isSome || decide (2 * w.hi ≤ s.time.cc) || !chanPim s n w.pc
        || !s.up .dbr n then .next s
    else
      let s0 := s.ccTo (2 * w.lo)
      let words := s.fld (Reg.DBR_RAW_CTL n) 11 0
      let base := s.rg64 (Reg.DBR_RAW_PROG_LO n)
      let x := rawParse s n words words 0 {}
      let inside := decide (base % 8 = 0) && inSram base && decide (base + 8 * words ≤ crownEnd) && decide (1 ≤ words)
      let here := x.segs.all fun g => decide (g.pc = w.pc)
      let (runs, placed) := rawPlace s n w.lo w.hi x.segs (max w.lo (ceilDiv s0.time.cc 2)) []
      let size := runs.foldl (fun a r => a + rawBytes r.seg) 0
      let out := s.rg64 (Reg.DBR_RAW_OUT_LO n)
      let outOk := decide (out % 32 = 0) && inSram out && decide (out + size ≤ crownEnd)
      if inside && !x.bad && x.cur.isNone && here && placed && outOk then
        .next (s0.setDbr n { d with raw := some runs, rawDone := x.done })
      else
        .next (rawEnd (event0 (s0.count (Reg.DBR_REFUSED n)) .dbr n 3) n stMALFORMED 0)

/-- The running raw program ends: its records are written in exit order (R250). `bad` lists the pages, counted over the
whole program, whose chain state was marked failed, with the address of the first error; `odCorr` counts the errors corrected. -/
def execRawProgramDone (stack : Nat) (bad : List Nat) (met : RawEcc) (s : State) : Host.Outcome State Fault Refusal :=
  let n := stack % 8
  let d := s.dbr n
  if s.clocksStopped then .next s
  else match d.raw with
  | none => .next s
  | some runs =>
    let fin := runs.foldl (fun a r => max a (r.start + segLength r.seg)) 0
    let s0 := fenCorr (s.ccTo (2 * fin)) n 0 met.onDie
    let pages := runs.flatMap fun r => segExits s n r.seg
    let recs := pages.zipIdx.flatMap fun (pg, i) => pg.2.flatMap (rawRecord s pg.1 (bad.contains i))
    let s1 := (s0.putBytes (s.rg64 (Reg.DBR_RAW_OUT_LO n)) recs).countBy (Reg.DBR_SEGS n) runs.length
    let hit := bad.any fun i => decide (i < pages.length)
    let s2 := if hit then
        let s3 := fenUncorr s1 n met.addr
        { s3 with fresh := s3.fresh + 514 }
      else s1
    .next (rawEnd s2 n (if hit then stCRC else stOK) d.rawDone)

/-- DIBBERs of a segment that are active at cc `x`: group g of eight joins at sc 26g, and all leave at its end (R231). -/
def segActive (r : SegRun) (x : Nat) : Nat :=
  if x < 2 * (r.start + segLength r.seg) then 8 * ((List.range 4).filter fun g => decide (2 * (r.start + 26 * g) ≤ x)).length else 0

/-- DIBBERs active now in a stack (R231, R253). -/
def dibbersActive (s : State) (n : Nat) : Nat :=
  let d := s.dbr n
  (d.runs ++ d.raw.getD []).foldl (fun a r => a + segActive r s.time.cc) 0

end Sys2Proof.Machine
end

