-- ==== Sys2Proof/Machine/Tiers.lean ====
section
/-!
DEFINITION. Memory tiers (spec/09, R254 to R281): move orders and moves, off-package writes and fetches, NVMe drives and
their links, the tier-2 map and the remote frame table.
-/

namespace Sys2Proof.Machine

/-! ### Drives (R264 to R269) -/

/-- Links of a port in a bifurcation (R279). -/
def linkCount (b : Nat) : Nat := if b = 1 then 2 else if b = 2 then 4 else 1

/-- A link that exists, is enabled and is up (R279). -/
def linkUp (s : State) (port link : Nat) : Bool :=
  decide (link < linkCount (SMap.get s.bifurc 0 port)) && s.bit (Reg.PCI_LINK_CTL port) (4 + link)
    && s.bit (Reg.PCI_LINK_STAT port link) 0

/-- The tier-2 map entry of a tier-2 frame number (R266, R280). -/
def t2Entry (s : State) (f : Nat) : Option Nat :=
  (List.range 16).find? fun e =>
    s.bit (Reg.T2MAP_TGT e) 31 && decide (s.fld (Reg.T2MAP_TGT e) 15 8 ≠ 0) && decide (s.rg (Reg.T2MAP_FIRST e) ≤ f)
      && decide (f < s.rg (Reg.T2MAP_FIRST e) + s.rg (Reg.T2MAP_COUNT e))

/-- LBA size of a map entry. -/
def t2Lba (s : State) (e : Nat) : Nat := if s.bit (Reg.T2MAP_TGT e) 3 then 4096 else 512

/-- An access of the window covers whole LBAs of the namespace (R268). -/
def t2Whole (s : State) (e a len : Nat) : Bool := decide (a % t2Lba s e = 0) && decide (len % t2Lba s e = 0)

/-- The command that moves `bytes` bytes at offset `off` of tier-2 frame `f` under map entry `e` (R266, R267, R268). -/
def t2Cmd (s : State) (e f off bytes : Nat) (write : Bool) (data : List Nat) (use : DriveUse) : DriveCmd :=
  let z := t2Lba s e
  let base := s.rg (Reg.T2MAP_LBA_LO e) + 2 ^ 32 * s.rg (Reg.T2MAP_LBA_HI e)
  ⟨s.fld (Reg.T2MAP_TGT e) 0 0, s.fld (Reg.T2MAP_TGT e) 2 1, s.fld (Reg.T2MAP_TGT e) 15 8,
    base + (f - s.rg (Reg.T2MAP_FIRST e)) * (65536 / z) + off / z, ceilDiv bytes z, write, write,
    if write then data ++ List.replicate (ceilDiv bytes z * z - data.length) 0 else [], use⟩

/-- Issue a command where its link is up; the status of the attempt (R269). -/
def driveIssue (s : State) (c : DriveCmd) : State × Nat :=
  if linkUp s c.port c.link then ({ s with drive := s.drive ++ [c] }, stOK) else (s, stCRC)

/-! ### Remote frames (R270, R271) -/

/-- An entry of the remote frame table. -/
structure Remote where
  node : Nat
  part : Nat
  valid : Bool
  conn : Nat
  region : Nat
  offset : Nat

/-- The entry of a remote slot, where the slot is in the table. -/
def remoteOf (s : State) (i : Nat) : Option Remote :=
  if i < s.fld Reg.FRM_RFT_CFG 20 0 then
    let a := s.rg64 Reg.FRM_RFT_LO + 16 * i
    some ⟨s.readLE a 2, s.byte (a + 2) % 64, bitOf (s.byte (a + 3)) 0, s.readLE (a + 4) 4 % 2 ^ 20,
      s.readLE (a + 8) 4 % 2 ^ 28, s.readLE (a + 12) 4 % 2 ^ 24⟩
  else none

/-- WRITE extension (R399). -/
def writeExt (region trig offset : Nat) : List Nat := toBE 4 region ++ toBE 2 trig ++ [0, 0] ++ toBE 8 offset
/-- READ_REQ extension (R399). -/
def readExt (region len offset id : Nat) : List Nat :=
  toBE 4 region ++ toBE 4 len ++ toBE 8 offset ++ toBE 4 id ++ [0, 0, 0, 0]

/-- Send a READ_REQ on a connection and note the read it awaits (R399, R402). -/
def sendRead (s : State) (i cls region len offset addr : Nat) (use : Use) : State :=
  let c := s.conn i
  let s1 := s.setConn i { c with readId := (c.readId + 1) % 2 ^ 32, reads := c.reads ++ [⟨c.readId, addr, len, use⟩] }
  queueMsg s1 i 0x03 cls (readExt region len offset c.readId) 0 (.bytes []) .none

/-! ### Frames that admitted work names (R76, R262, R263) -/

/-- Frames that an admitted request names. -/
def reqFrames (s : State) (slot : Nat) : List Nat :=
  let r := s.reqAt slot
  let c := s.ctxAt (hSlot r.handle)
  let all := fun l n => (List.range n).map fun j => (pteAt s c l j).frame
  if r.kind = 1 then ((pageWorks s r c).filter fun w => !w.off).map (·.frame)
  else if r.kind = 2 then (apLanes r c).map fun l => (pteAt s c l (lanePages s c l - 1)).frame
  else if r.kind = 3 then
    if r.handle = noHandle then [] else (List.range c.lanes).flatMap fun l => all l (clonePages s slot)
  else if r.kind = 4 then (List.range c.lanes).flatMap fun l => all l (lanePages s c l)
  else []

/-- Frames named by the work admitted in this tick. -/
def namedFrames (s : State) : List Nat := (s.tpl.order.flatMap (reqFrames s)).eraseDups

/-! ### Starting a fetch (R273, R274) -/

/-- A fetch fails: its frame goes to SCRUB, its request completes at once, or its order stops (R263, R274). -/
def fetchFail (s : State) (f : Fetch) (status : Nat) : State :=
  let s1 := fetchDrop s f
  let h := ctxHandle (s1.ctxAt f.slot) f.slot
  let s2 := event s1 .frm 0 9 { status := status, i0 := h, i1 := f.page % 2 ^ 20 + status * 2 ^ 20 }
  if f.order.isSome then (if f.order = some (orderNo s2) then orderEnd s2 status else s2)
  else if (s2.reqAt f.req).st = .queued then dismiss s2 f.req status else s2

/-- Begin reading the page of a fetch from its drive or memory-role node (R267, R271). -/
def fetchRead (s : State) (f : Fetch) : State :=
  let c := s.ctxAt f.slot
  let n := pageWireBytes c.geo
  if f.tier = 2 then
    match t2Entry s f.num with
    | none => fetchFail s f stMALFORMED
    | some e =>
      let (s1, st) := driveIssue s (t2Cmd s e f.num 0 n false [] (.fetch f.frame))
      if st = stOK then s1 else fetchFail s1 f st
  else match remoteOf s f.num with
    | some r =>
      if r.valid && r.part == c.part && s.connOpen r.conn then
        sendRead s (cwIdx r.conn) 2 r.region n (r.offset * 65536) (s.frAddr f.frame) (.fetch f.frame)
      else fetchFail s f (if r.valid && r.part == c.part then stCRC else stMALFORMED)
    | none => fetchFail s f stMALFORMED

/-- Start a fetch of one page for a request or an order into a frame of one of the tiers `ts` (R114, R273). -/
def fetchStart (s : State) (slot lane page req : Nat) (order : Bool) (ts : List Nat) : State :=
  let c := s.ctxAt slot
  let e := pteAt s c lane page
  let busy := s.frm.fetches.any fun f => f.slot == slot && f.gen == c.gen && f.lane == lane && f.page == page
  if busy || decide (4096 ≤ s.frm.fetches.length) || decide (e.tier < 2) then s
  else match takeFrame s c.part ts false .data with
    | .error st =>
      let h := ctxHandle c slot
      let s1 := event (refuseFrames s c.part st h) .frm 0 9 { status := st, i0 := h, i1 := page % 2 ^ 20 + st * 2 ^ 20 }
      if order then orderEnd s1 st else if (s1.reqAt req).st = .queued then dismiss s1 req st else s1
    | .ok (s1, g) =>
      let f : Fetch := { slot := slot, gen := c.gen, lane := lane, page := page, tier := e.tier, num := e.frame, frame := g, req := req
                         order := if order then some (orderNo s1) else none, data := none, ready := false }
      fetchRead { s1 with frm := { s1.frm with fetches := s1.frm.fetches ++ [f] } } f

/-- Off-package pages that a queued request needs, as (lane, page). -/
def offPages (s : State) (slot : Nat) : List (Nat × Nat) :=
  let r := s.reqAt slot
  let c := s.ctxAt (hSlot r.handle)
  if r.kind = 3 then cloneOff s slot
  else ((pageWorks s r c).filter (·.off)).map fun w => (w.lane, w.page)

/-- Start the fetches of every request that the pass found waiting for pages, up to 4,096 in flight (R273, R274). -/
def fetchesBegin (s : State) : State :=
  if !s.up .frm 0 then s
  else
    s.tpl.wantFetch.foldl (fun s q =>
      let k := hSlot (s.reqAt q).handle
      let c := s.ctxAt k
      (offPages s q).foldl (fun s (l, j) =>
        if (s.reqAt q).st = .queued then
          fetchStart s k l j q false (hintTiers (effHint s c l (pteAt s c l j).hint))
        else s) s) s

/-! ### Move orders (R258 to R263) -/

/-- A page that never leaves tiers 0 and 1: the lane's last page, or a shared one (R259). -/
def pageStays (s : State) (c : Ctx) (lane page : Nat) : Bool :=
  let e := pteAt s c lane page
  page + 1 == lanePages s c lane || e.cow || decide (e.tier = 0) && decide (1 < (s.frame e.frame).refs)

/-- The off-package frame or slot that an order gives a page (R258). -/
def orderDest (o : Order) (page : Nat) : Nat := if o.op = 1 then o.dest + (page - o.first) else o.dest + page

/-- The checks of R259 in order. -/
def orderCheck (s : State) (o : Order) : Nat :=
  let k := hSlot o.handle
  let c := s.ctxAt k
  let legal := (o.op == 1 || o.op == 2 || o.op == 3) && (o.op == 3 || decide (o.target ≤ 3)) && (o.op != 3 || decide (o.hint ≤ 4))
  let ranged := o.op == 1 || o.op == 3 && o.target % 2 == 0
  let inRange := decide (o.lane < c.lanes)
    && (!ranged || decide (1 ≤ o.count) && decide (o.count ≤ 524288) && decide (o.first + o.count ≤ lanePages s c o.lane))
  if !(legal && inRange) then stMALFORMED
  else if c.gen ≠ hGen o.handle ∨ c.st = .free ∨ hPart o.handle ≠ c.part then stBAD_GEN
  else if c.st = .lost then stCTX_LOST
  else
    let go := orderPages s c o
    if o.op ≠ 3 ∧ ¬ (go.all fun j => hintAllows (orderHint s c o j) o.target) then stMALFORMED
    else if o.op = 1 ∧ 2 ≤ o.target ∧ go.any (pageStays s c o.lane) then stMALFORMED
    else if o.op ≠ 3 ∧ o.target = 2 ∧ ¬ (go.all fun j => (t2Entry s (orderDest o j)).isSome) then stMALFORMED
    else if o.op ≠ 3 ∧ o.target = 3 ∧ ¬ (go.all fun j => match remoteOf s (orderDest o j) with
        | some r => r.valid && r.part == c.part
        | none => false) then stMALFORMED
    else stOK

/-- Write a SET_HINT's hint (R258, R260). -/
def orderWriteHint (s : State) (o : Order) : State :=
  let c := s.ctxAt (hSlot o.handle)
  if o.op ≠ 3 then s
  else if o.target % 2 = 1 then setLaneHint s c o.lane o.hint
  else (orderPages s c o).foldl (fun s j => setPte s c o.lane j { pteAt s c o.lane j with hint := o.hint }) s

/-- Complete the order: one that ends with OK writes its hint (R260). -/
def orderClose (s : State) (status : Nat) : State :=
  match s.frm.order with
  | none => s
  | some o => orderEnd (if status = stOK then orderWriteHint s o else s) status

/-- What starting one page's move comes to. -/
inductive MoveTry where
  | started (s : State)
  | fetching (s : State)
  | wait
  | skip
  | fail (s : State) (status : Nat)

/-- Start the move of one page of an order (R260 to R263, R271). A page that goes from one off-package tier to the other is first fetched, and
its move goes on from there (assumption 119). -/
def moveStart (s : State) (o : Order) (page : Nat) : MoveTry :=
  let k := hSlot o.handle
  let c := s.ctxAt k
  let e := pteAt s c o.lane page
  let t := orderTarget s c o page
  let d := s.frame e.frame
  let push := fun (s : State) (m : Move) => { s with frm := { s.frm with moves := s.frm.moves ++ [m] } }
  let lock := fun (s : State) => s.setFrame e.frame { s.frame e.frame with migLock := true }
  let raise := fun (s : State) (f : Nat) => memRequest s (s.frAddr f) (1024 + e.frame) 65536
  if orderDone s c o page then .skip
  else if 2 ≤ t ∧ pageStays s c o.lane page then .skip
  else if 2 ≤ e.tier then
    if s.frm.fetches.any (fun f => f.slot == k && f.gen == c.gen && f.lane == o.lane && f.page == page)
      ∨ 4096 ≤ s.frm.fetches.length then .wait
    else if 2 ≤ t then .fetching (fetchStart s k o.lane page noHandle true (hintTiers (orderHint s c o page)))
    else .started (fetchStart s k o.lane page noHandle true (if o.op = 3 ∧ orderHint s c o page = 2 then [0, 1] else [t]))
  else if d.migLock ∨ (namedFrames s).contains e.frame then .wait
  else if t ≤ 1 then
    match takeFrame s d.owner [t] false .copyDst with
    | .error st => .fail (refuseFrames s d.owner st o.handle) st
    | .ok (s1, g) =>
      .started (lock (push (raise (raise s1 e.frame) g) ⟨k, c.gen, o.lane, page, e.frame, g, t, 0, 0, orderNo s⟩))
  else .started (lock (push (raise s e.frame) ⟨k, c.gen, o.lane, page, e.frame, 0, t, orderDest o page, 0, orderNo s⟩))

/-- Moves and fetches that belong to the order in progress are still in flight. -/
def orderBusy (s : State) : Bool :=
  (s.frm.moves.any fun m => m.order == orderNo s) || s.frm.fetches.any fun f => f.order == some (orderNo s)

/-- Start moves in ascending page order while the tick's rate allows, and complete the order when nothing is left (R260). Demand fetches
come first, so no move starts in a plan window (R274; assumption 120). `n` bounds the pages looked at. -/
def movesStart (s : State) : Nat → State
  | 0 => s
  | n + 1 =>
    match s.frm.order with
    | none => s
    | some o =>
      match o.todo with
      | [] => if orderBusy s then s else orderClose s stOK
      | j :: r =>
        if s.fld Reg.FRM_MIG_RATE 15 0 ≤ s.frm.started ∨ !s.up .frm 0 ∨ (s.time.running ∧ !s.tpl.planned) then s
        else
          let drop := fun (s : State) => { s with frm := { s.frm with order := s.frm.order.map fun o => { o with todo := r } } }
          match moveStart s o j with
          | .skip => movesStart (drop s) n
          | .wait => s
          | .fetching s1 => { s1 with frm := { s1.frm with started := s1.frm.started + 1 } }
          | .fail s1 st => orderClose s1 st
          | .started s1 => movesStart { drop s1 with frm := { (drop s1).frm with started := s1.frm.started + 1 } } n

/-- Carry on with the order in progress. -/
def movesGo (s : State) : State :=
  match s.frm.order with
  | none => s
  | some o => movesStart s (o.todo.length + 1)

/-- The order ring: base, log2 size, and whether it can be read (R258, R278). -/
def migRingOk (s : State) : Bool :=
  let k0 := s.fld Reg.FRM_MIG_CFG 3 0
  let k := if 4 ≤ k0 ∧ k0 ≤ 12 then k0 else 4
  let base := s.rg64 Reg.FRM_MIG_RING_LO
  inSram base && decide (base % (32 * 2 ^ k) = 0)

/-- The order that stands next in the ring, where orders run (R258, R278). -/
def nextOrder (s : State) : Option Order :=
  let k0 := s.fld Reg.FRM_MIG_CFG 3 0
  let k := if 4 ≤ k0 ∧ k0 ≤ 12 then k0 else 4
  let rd := s.rg Reg.FRM_MIG_RD
  if s.frm.order.isNone && s.up .frm 0 && s.bit Reg.FRM_MIG_CFG 8 && migRingOk s && decide (rd ≠ s.rg Reg.FRM_MIG_WR) then
    let a := s.rg64 Reg.FRM_MIG_RING_LO + 32 * (rd % 2 ^ k)
    some ⟨a, s.readLE a 4, s.readLE (a + 4) 2, s.byte (a + 6), s.byte (a + 7), s.readLE (a + 8) 4 % 2 ^ 20, s.readLE (a + 12) 4,
      s.readLE (a + 16) 4, s.byte (a + 20), []⟩
  else none

/-- The migrator takes an order: its checks, and its first moves (R259, R260). -/
def orderTake (s : State) (o : Order) : State :=
  let st := if resetting s (hPart o.handle) then stPART_RESET else orderCheck s o
  let s1 := { s with frm := { s.frm with order := some o } }
  if st ≠ stOK then orderEnd s1 st
  else movesGo { s1 with frm := { s1.frm with order := some { o with todo := orderPages s (s.ctxAt (hSlot o.handle)) o } } }

/-- MOVE: the next order of the ring, where its op is MOVE or none of the legal ones (R258, R259). -/
def execMove (s : State) : Host.Outcome State Fault Refusal :=
  match nextOrder s with
  | none => .next s
  | some o => if o.op = 2 ∨ o.op = 3 then .next s else .next (orderTake s o)

/-- MOVE_LANE (R258). -/
def execMoveLane (s : State) : Host.Outcome State Fault Refusal :=
  match nextOrder s with
  | none => .next s
  | some o => if o.op = 2 then .next (orderTake s o) else .next s

/-- SET_HINT (R258). -/
def execSetHint (s : State) : Host.Outcome State Fault Refusal :=
  match nextOrder s with
  | none => .next s
  | some o => if o.op = 3 then .next (orderTake s o) else .next s

/-- Change the stage of the move of a frame. -/
def moveStage (s : State) (frame frm next : Nat) : State :=
  let put := fun (m : Move) => if m.src = frame ∧ m.stage = frm then { m with stage := next } else m
  { s with frm := { s.frm with moves := s.frm.moves.map put } }

/-- A move stops with a status: the page is not moved and its order, where it is still in progress, completes (R263). -/
def moveFail (s : State) (m : Move) (status : Nat) : State :=
  let s1 := moveDrop s m
  if m.order = orderNo s1 then orderClose s1 status else s1

/-- The bytes of a page that has been read leave for their drive or memory-role node (R261, R267, R271). -/
def moveSend (s : State) (m : Move) : State :=
  let n := pageWireBytes (s.ctxAt m.slot).geo
  let data := s.readBytes (s.frAddr m.src) n
  let sent := moveStage s m.src 0 4
  if m.target = 2 then
    match t2Entry s m.dest with
    | none => moveFail s m stMALFORMED
    | some x =>
      let (s1, st) := driveIssue sent (t2Cmd s x m.dest 0 n true data (.move m.src))
      if st = stOK then s1 else moveFail s m st
  else match remoteOf s m.dest with
    | some r =>
      if s.connOpen r.conn then
        queueMsg sent (cwIdx r.conn) 0x02 2 (writeExt r.region 0xFFFF (r.offset * 65536)) n (.bytes data) (.move m.src)
      else moveFail s m stCRC
    | none => moveFail s m stMALFORMED

/-- The copy of a frame still awaits a grant at its source or destination (R297). -/
def copyWaits (s : State) (m : Move) : Bool :=
  decide (0 < memWaiting s (s.frAddr m.src) (1024 + m.src)) || decide (0 < memWaiting s (s.frAddr m.dst) (1024 + m.src))

/-- The migrator finishes copying a frame into its COPY_DST frame, or reading it for a write off the package, once what it touches has been
granted; `bad` marks an uncorrectable error (R261, R262, R263, R511). -/
def execMigrationCopyDone (frame : Nat) (bad : Bool) (s : State) : Host.Outcome State Fault Refusal :=
  match s.frm.moves.find? fun m => m.src == frame && m.stage == 0 with
  | none => .next s
  | some m =>
    if !s.en .frm 0 || copyWaits s m then .next s
    else if bad then
      .next (moveFail (fault (memUncorr s (s.frAddr frame) 3) .frm 0 0x21 none frame (s.frAddr frame % 2 ^ 32)) m stCRC)
    else if 2 ≤ m.target then .next (moveSend (memRelease s (s.frAddr m.src) (1024 + frame)) m)
    else
      let s1 := memRelease (memRelease s (s.frAddr m.src) (1024 + frame)) (s.frAddr m.dst) (1024 + frame)
      .next (moveStage (copyLoc s1 (s1.loc frame) (s1.loc m.dst)) frame 0 1)

/-- The drive or remote node confirms a page write (R261, R267, R271): the rewrite waits for the boundary. -/
def execOffPackageConfirm (frame : Nat) (s : State) : Host.Outcome State Fault Refusal :=
  .next (moveStage s frame 2 3)

/-- Exchange the locations of a moved frame and its COPY_DST frame (R113). -/
def moveExchange (s : State) (m : Move) : State :=
  let lf := s.loc m.src
  let lg := s.loc m.dst
  let owner := (s.frame m.dst).owner
  let s1 := (s.setLoc m.src lg).setLoc m.dst lf
  let s2 := s1.setFrame m.src { s1.frame m.src with migLock := false }
  linkFree s2 m.dst owner

/-- Rewrite the entry of a page that has left the package, unless a CLONE has come to share its frame (R261, R263). -/
def moveRewrite (s : State) (m : Move) : State :=
  let c := s.ctxAt m.slot
  let unlock := fun (s : State) => s.setFrame m.src { s.frame m.src with migLock := false }
  if 1 < (s.frame m.src).refs then unlock s
  else toScrub (setPte s c m.lane m.page { pteAt s c m.lane m.page with frame := m.dest, tier := m.target }) m.src

/-- Moves whose copy or write has ended take effect at the boundary (R113, R261), and the order goes on. -/
def movesApply (s : State) : State :=
  let s1 := (s.frm.moves.filter fun m => m.stage == 1 || m.stage == 3).foldl (fun s m =>
    let s0 := { s with frm := { s.frm with moves := s.frm.moves.filter (· != m) } }
    if m.stage = 1 then moveExchange s0 m else moveRewrite s0 m) s
  movesGo { s1 with frm := { s1.frm with started := 0 } }

/-- Copies of frames that the new tick's admitted work names stop at cc 2,048; their pages are tried again later (R263). -/
def movesPlanStop (s : State) : State :=
  let named := namedFrames s
  (s.frm.moves.filter fun m => m.stage == 0 && named.contains m.src).foldl (fun s m =>
    let s1 := moveDrop s m
    let again := fun (o : Order) =>
      if m.order = orderNo s then { o with todo := o.todo.filter (· < m.page) ++ m.page :: o.todo.filter (m.page < ·) } else o
    { s1 with frm := { s1.frm with order := s1.frm.order.map again } }) s

/-! ### The end of fetches (R273) -/

/-- A fetched page has arrived and its frame has been granted: it is written there and checked; `bad` marks an uncorrectable error on the
way (R273). -/
def execFetchReadDone (frame : Nat) (bad : Bool) (s : State) : Host.Outcome State Fault Refusal :=
  match s.frm.fetches.find? fun f => f.frame == frame && f.data.isSome && !f.ready with
  | none => .next s
  | some f =>
    if !s.en .frm 0 || decide (0 < memWaiting s (s.frAddr frame) (1024 + frame)) then .next s
    else if bad then .next (fetchesBegin (fetchFail s f stCRC))
    else
      let s0 := memRelease s (s.frAddr frame) (1024 + frame)
      let s1 := (zeroLoc s0 (s0.loc frame)).writeBytes (s0.frAddr frame) (f.data.getD [])
      let st := pageCheck (frameReader s1 frame) (s1.ctxAt f.slot).geo
      if st ≠ 0 then .next (fetchesBegin (fetchFail s1 f st))
      else
        let put := fun (x : Fetch) => if x = f then { x with data := none, ready := true } else x
        .next { s1 with frm := { s1.frm with fetches := s1.frm.fetches.map put } }

/-- Fetched pages enter the page tables at the boundary, with return entries for what they leave (R112, R273, R276). -/
def fetchesApply (s : State) : State :=
  (s.frm.fetches.filter (·.ready)).foldl (fun s f =>
    let s0 := { s with frm := { s.frm with fetches := s.frm.fetches.filter (· != f) } }
    let c := s0.ctxAt f.slot
    let s1 := frameFirst s0 f.frame f.slot f.gen f.page f.lane
    let s2 := setPte s1 c f.lane f.page { pteAt s1 c f.lane f.page with frame := f.frame, tier := 0 }
    returnEntry s2 f.num f.tier c.part) s

/-- A fetch's bytes have arrived from its drive or remote node, and wait for a grant of the frame: bulk-window time in fen, port B in peat
(R262, R273). -/
def fetchArrive (s : State) (frame : Nat) (data : List Nat) : State :=
  let n := fun (f : Fetch) => pageWireBytes (s.ctxAt f.slot).geo
  let put := fun (f : Fetch) => if f.frame = frame ∧ ¬ f.ready then { f with data := some (data.take (n f)), got := [] } else f
  let s1 := { s with frm := { s.frm with fetches := s.frm.fetches.map put } }
  if s.frm.fetches.any fun f => f.frame == frame && !f.ready then memRequest s1 (s1.frAddr frame) (1024 + frame) 65536 else s1

/-- A segment of a fetch's READ_RESP arrives, at its offset in the page (R271, R394). -/
def fetchSegment (s : State) (frame off : Nat) (data : List Nat) : State :=
  let put := fun (f : Fetch) => if f.frame = frame ∧ ¬ f.ready then { f with got := SMap.set f.got [] off data } else f
  { s with frm := { s.frm with fetches := s.frm.fetches.map put } }

/-- The bytes of a fetch's READ_RESP, once all its segments have arrived. -/
def fetchGot (s : State) (frame : Nat) : List Nat :=
  match s.frm.fetches.find? fun f => f.frame == frame && !f.ready with
  | some f => f.got.flatMap (·.2)
  | none => []

/-- A fetch's read has failed. -/
def fetchLost (s : State) (frame status : Nat) : State :=
  match s.frm.fetches.find? fun f => f.frame == frame && !f.ready with
  | some f => fetchesBegin (fetchFail s f status)
  | none => s

/-- A move's write has failed. -/
def moveLost (s : State) (frame status : Nat) : State :=
  match s.frm.moves.find? fun m => m.src == frame with
  | some m => moveFail s m status
  | none => s

/-! ### Links (R269, R279) -/

/-- A link trains and comes up at a speed (1 to 6) and width (R279). -/
def execPciLinkUp (port link speed width : Nat) (s : State) : Host.Outcome State Fault Refusal :=
  let p := port % 2
  if s.up .pci p && decide (link < linkCount (SMap.get s.bifurc 0 p)) && s.bit (Reg.PCI_LINK_CTL p) (4 + link) then
    .next (event0 (s.setRg (Reg.PCI_LINK_STAT p link) (1 + speed % 8 * 2 + width % 32 * 16 + 512)) .pci p 3)
  else .next s

end Sys2Proof.Machine
end

