-- ==== Sys2Proof/Machine/Trowel.lean ====
section
/-!
DEFINITION. The Trowel DMA engines (spec/10, R282 to R299): descriptors and their checks, bursts, feeds, aborts and blocked
partitions; with the drives' completions and link losses (R267 to R269), and port B of the peat slices (R322, R512).
-/

namespace Sys2Proof.Machine

/-! ### Channels and descriptors -/

def State.trwCh (s : State) (e c : Nat) : TrwCh := SMap.get s.trw {} (8 * e + c)
def State.setTrwCh (s : State) (e c : Nat) (t : TrwCh) : State := { s with trw := SMap.set s.trw {} (8 * e + c) t }

/-- Sender codes of the reads and writes of a channel's staging slot `k`. -/
def readSrc (e c k : Nat) : Nat := 256 + 16 * e + 2 * c + k
def writeSrc (e c k : Nat) : Nat := 320 + 16 * e + 2 * c + k

/-- Active wrap of an end: 8 to 32, other values act as 0 (R285). -/
def wrapOf (w : Nat) : Nat := if 8 ≤ w ∧ w ≤ 32 then w else 0

/-- Address of an end after `n` bytes (R285). -/
def endAddr (a w n : Nat) : Nat :=
  if wrapOf w = 0 then a + n else a - a % 2 ^ w + (a % 2 ^ w + n) % 2 ^ w

def Desc.swap (d : Desc) : Nat := d.ctl % 4
def Desc.kind (d : Desc) : Nat := bitsOf d.ctl 3 2
def Desc.evt (d : Desc) : Bool := bitOf d.ctl 4
def Desc.haltAfter (d : Desc) : Bool := bitOf d.ctl 5
def Desc.tagged (d : Desc) : Bool := bitOf d.part 6
/-- Burst size: log2 6 to 14, other values act as 12 (R282). -/
def Desc.burstBytes (d : Desc) : Nat := 2 ^ (if 6 ≤ d.burst ∧ d.burst ≤ 14 then d.burst else 12)
def Desc.srcAt (d : Desc) (n : Nat) : Nat := endAddr d.src d.srcWrap n
def Desc.dstAt (d : Desc) (n : Nat) : Nat := endAddr d.dst d.dstWrap n

/-- The descriptor at an address (R282). -/
def descAt (s : State) (a : Nat) : Desc :=
  { src := s.readLE a 8, dst := s.readLE (a + 8) 8, len := s.readLE (a + 16) 4, srcWrap := s.byte (a + 20)
    dstWrap := s.byte (a + 21), ctl := s.byte (a + 22), burst := s.byte (a + 23), part := s.byte (a + 24) % 128
    feed := s.byte (a + 25) }

/-- The partition of a tagged descriptor is blocked on the engine (R292). -/
def descBlocked (s : State) (e : Nat) (d : Desc) : Bool :=
  d.tagged && bitOf (s.rg64 (Reg.TRW_PBLOCK_LO e)) (d.part % 64)

/-! ### Tier window (R268) -/

/-- Tier-2 frame and byte offset behind a window address. -/
def windowFrame (s : State) (a : Nat) : Nat :=
  let o := a - nvmeBase
  s.fld (Reg.PCI_APER (o / 2 ^ 36)) 11 0 * 2 ^ 20 + o % 2 ^ 36 / 65536

/-- Every frame of a window range is mapped, with address, length and burst whole multiples of its LBA size (R284). -/
def windowOk (s : State) (a len burst : Nat) : Bool :=
  (List.range (ceilDiv (a % 65536 + len) 65536)).all fun i =>
    match t2Entry s (windowFrame s (a + 65536 * i)) with
    | none => false
    | some e => let z := t2Lba s e
      decide (a % z = 0) && decide (len % z = 0) && decide (burst % z = 0)

/-! ### Checks at fetch (R284) -/

/-- The extent of an end: its linear bytes, or its whole wrap region. -/
def endExtent (a w len : Nat) : Nat × Nat :=
  if wrapOf w = 0 then (a, if len = 0 then 2 ^ 64 else len) else (a - a % 2 ^ w, 2 ^ w)

/-- An extent lies wholly in one of the ranges a chain may name. -/
def inOneRange (x : Nat × Nat) : Bool :=
  [(peatBase, crownBase), (crownBase, crownEnd), (fenBase, fenEnd), (nvmeBase, nvmeEnd)].any fun r =>
    decide (r.1 ≤ x.1) && decide (x.1 + x.2 ≤ r.2)

/-- A feed is bound to a running channel. -/
def feedBound (s : State) (f : Nat) : Bool :=
  s.trw.any fun kv => kv.2.st == .run && kv.2.d.kind == 1 && kv.2.d.feed == f

/-- Checks 2 to 8 of a fetched descriptor. -/
def descCheck (s : State) (e : Nat) (d : Desc) : Nat :=
  let mem := d.kind == 0
  let feed := d.kind == 1
  let window := fun (a w : Nat) =>
    !inNvme a || (decide (wrapOf w = 0) && windowOk s a d.len d.burstBytes)
  if d.kind = 3 ∨ (feed && !(decide (1 ≤ d.feed) && decide (d.feed ≤ 8) && !feedBound s d.feed)) then stMALFORMED
  else if !feed && (decide (d.len % 4 ≠ 0) || decide (d.len = 0)) then stMALFORMED
  else if (mem && decide (d.src % 4 ≠ 0)) || decide (d.dst % 4 ≠ 0) then stMALFORMED
  else if (mem && !inOneRange (endExtent d.src d.srcWrap d.len)) || !inOneRange (endExtent d.dst d.dstWrap d.len) then stMALFORMED
  else if (mem && inNvme d.src && inNvme d.dst) || (feed && !inSram d.dst) then stMALFORMED
  else if (mem && !window d.src d.srcWrap) || !window d.dst d.dstWrap then stMALFORMED
  else if descBlocked s e d then stPART_RESET
  else stOK

/-! ### Status, write-back and chaining (R289, R290, R294) -/

/-- TRW_CHc_STAT, CUR and DST show the channel (R299). The WAIT state is added where the register is read. -/
def trwShow (s : State) (e c : Nat) : State :=
  let t := s.trwCh e c
  let code := match t.st with
    | .idle => 0
    | .fetch => 1
    | .run => 2
    | .halted => 4
  let s1 := (s.setFld (Reg.TRW_CH_STAT e c) 2 0 code).setFld (Reg.TRW_CH_STAT e c) 22 16 t.d.part
  let s2 := s1.setRg64 (Reg.TRW_CH_CUR_LO e c) t.addr
  if t.st = .run then s2.setRg64 (Reg.TRW_CH_DST_LO e c) (t.d.dstAt t.written) else s2

/-- Put a channel and show it. -/
def trwPut (s : State) (e c : Nat) (t : TrwCh) : State := trwShow (s.setTrwCh e c t) e c

/-- A chain begins with a fetch at TRW_CHc_HEAD (R289). -/
def trwBegin (s : State) (e c : Nat) : State :=
  trwPut s e c { st := .fetch, addr := s.rg64 (Reg.TRW_CH_HEAD_LO e c), d := (s.trwCh e c).d }

/-- The channel comes to rest, IDLE or HALTED; a start written in the same cc is applied (R289). -/
def trwRest (s : State) (e c : Nat) (t : TrwCh) : State :=
  let s1 := trwPut s e c t
  if t.startAt = s.time.up + 1 then trwBegin s1 e c else s1

/-- The channel halts (R290): event bit 4. -/
def trwHalt (s : State) (e c status : Nat) : State :=
  let t := s.trwCh e c
  event (trwRest s e c { t with st := .halted, bursts := [] }) .trw e 4 { status := status, i0 := c + 256 * status, i1 := t.addr % 2 ^ 32 }

/-- Bytes of the descriptor not transferred (R291): 0 for an endless feed. -/
def trwResidue (t : TrwCh) : Nat := t.d.len - t.written

/-- Write the descriptor back, post its event, read next again and follow R290. -/
def trwWriteBack (s : State) (e c status : Nat) : State :=
  let t := s.trwCh e c
  let wb := [status, 1, 0, 0] ++ toLE 4 (trwResidue t) ++ toLE 6 s.time.tick ++ [0, 0]
  let s1 := (s.putBytes (t.addr + 48) wb).setFld (Reg.TRW_CH_STAT e c) 15 8 status
  let info : EvInfo := { status := status, i0 := c + 256 * status, i1 := t.addr % 2 ^ 32 }
  let s2 := if t.d.evt then event s1 .trw e 3 info else s1
  let next := s2.readLE (t.addr + 32) 8
  let t1 := { t with issued := 0, written := 0, bursts := [], stop := none, abort := false }
  let go := (status == stOK && decide (next ≠ 0) && !t.d.haltAfter) || (status == stPART_RESET && decide (next ≠ 0))
  if go then trwPut s2 e c { t1 with st := .fetch, addr := next }
  else if status = stOK ∨ status = stCANCELLED ∨ status = stPART_RESET then trwRest s2 e c { t1 with st := .idle }
  else event (trwRest s2 e c { t1 with st := .halted }) .trw e 4 info

/-! ### Bursts (R286, R291, R296) -/

/-- Bytes of the burst that starts `n` bytes into the descriptor (R286). -/
def burstLen (d : Desc) (n : Nat) : Nat :=
  let toWrap := fun (a w : Nat) => if wrapOf w = 0 then 65536 else 2 ^ w - a % 2 ^ w
  let cuts := [d.burstBytes, d.len - n, toWrap (d.dstAt n) d.dstWrap, 65536 - d.dstAt n % 65536]
    ++ (if d.kind = 0 then [toWrap (d.srcAt n) d.srcWrap, 65536 - d.srcAt n % 65536] else [])
  cuts.foldl min 65536

/-- Every byte of a descriptor has been issued. -/
def trwAllIssued (t : TrwCh) : Bool := decide (t.issued = t.d.len) && !(t.d.kind == 1 && t.d.len == 0)

/-- The channel's transfer is at its end, or has stopped with no burst in flight: write back (R291, R294). -/
def trwSettle (s : State) (e c : Nat) : State :=
  let t := s.trwCh e c
  if t.st ≠ .run ∨ t.bursts ≠ [] then trwShow s e c
  else match t.stop with
    | some st => trwWriteBack (trwShow s e c) e c st
    | none => if trwAllIssued t then trwWriteBack (trwShow s e c) e c stOK else trwShow s e c

/-- Stop a running channel at its burst boundary (R291): bursts whose read has not begun are withdrawn. PART_RESET prevails
over CANCELLED (R292). -/
def trwStop (s : State) (e c status : Nat) : State :=
  let t := s.trwCh e c
  if t.st ≠ .run then s
  else
    let st := match t.stop with
      | none => status
      | some old => if status = stPART_RESET ∧ old = stCANCELLED then stPART_RESET else old
    let notBegun := fun (b : Burst) => b.data.isNone && decide (0 < memWaiting s (t.d.srcAt b.off) (readSrc e c b.slot))
    let s1 := (t.bursts.filter notBegun).foldl (fun s b => memWithdraw s (t.d.srcAt b.off) (readSrc e c b.slot)) s
    trwSettle (s1.setTrwCh e c { t with stop := some st, bursts := t.bursts.filter fun b => !notBegun b }) e c

/-- A fen address of a disabled stack (R30). -/
def fenOff (s : State) (a : Nat) : Bool := inFen a && !s.en .fen (addrStack a)

/-- The write of a burst begins (R293, R321): a refused region or a link that is down stops the descriptor. -/
def trwWrite (s : State) (e c : Nat) (b : Burst) : State :=
  let t := s.trwCh e c
  let a := t.d.dstAt b.off
  let data := b.data.getD []
  let drop := fun (st : Nat) =>
    trwStop (s.setTrwCh e c { t with bursts := t.bursts.filter (·.off != b.off) }) e c st
  if rangeRefused s a b.len || fenOff s a then drop stMALFORMED
  else if inNvme a then
    match t2Entry s (windowFrame s a) with
    | none => drop stMALFORMED
    | some x =>
      let (s1, st) := if t2Whole s x a b.len then
          driveIssue s (t2Cmd s x (windowFrame s a) (a % 65536) b.len true data (.window e c b.off))
        else (s, stMALFORMED)
      if st = stOK then s1 else drop st
  else memRequest s a (writeSrc e c b.slot) b.len

/-- The swap of each aligned 4-byte group in flight (R288). -/
def swapBytes (k : Nat) : List Nat → List Nat
  | b0 :: b1 :: b2 :: b3 :: r =>
    (if k = 1 then [b1, b0, b3, b2] else if k = 2 then [b3, b2, b1, b0] else if k = 3 then [b2, b3, b0, b1]
      else [b0, b1, b2, b3]) ++ swapBytes k r
  | l => l

/-- A burst's read has completed with its data: swapped in flight (R288), it goes on to be written. -/
def burstArrive (s : State) (e c off : Nat) (data : List Nat) : State :=
  let t := s.trwCh e c
  let put := fun (b : Burst) => if b.off = off then { b with data := some (swapBytes t.d.swap data) } else b
  let s1 := s.setTrwCh e c { t with bursts := t.bursts.map put }
  match (s1.trwCh e c).bursts.find? (·.off == off) with
  | some b => trwWrite s1 e c b
  | none => s1

/-- A staging slot that no burst holds (R296). -/
def TrwCh.freeSlot (t : TrwCh) : Nat := b2n (t.bursts.any (·.slot == 0))

/-- Issue bursts of a memory or zero source while a staging slot is free (R296); `n` bounds the bursts issued. -/
def trwIssue (s : State) (e c : Nat) : Nat → State
  | 0 => s
  | n + 1 =>
    let t := s.trwCh e c
    if t.st ≠ .run ∨ t.stop.isSome ∨ 2 ≤ t.bursts.length ∨ trwAllIssued t ∨ t.d.kind = 1 then s
    else
      let b : Burst := ⟨t.issued, burstLen t.d t.issued, none, t.freeSlot⟩
      let s1 := s.setTrwCh e c { t with issued := t.issued + b.len, bursts := t.bursts ++ [b] }
      let a := t.d.srcAt b.off
      let s2 :=
        if t.d.kind = 2 then burstArrive s1 e c b.off (List.replicate b.len 0)
        else if inNvme a then
          match t2Entry s1 (windowFrame s1 a) with
          | none => trwStop (s1.setTrwCh e c { s1.trwCh e c with bursts := t.bursts }) e c stMALFORMED
          | some x =>
            let (s3, st) := if t2Whole s1 x a b.len then
                driveIssue s1 (t2Cmd s1 x (windowFrame s1 a) (a % 65536) b.len false [] (.window e c b.off))
              else (s1, stMALFORMED)
            if st = stOK then s3 else trwStop (s1.setTrwCh e c { s1.trwCh e c with bursts := t.bursts }) e c st
        else if fenOff s1 a then trwStop (s1.setTrwCh e c { s1.trwCh e c with bursts := t.bursts }) e c stMALFORMED
        else memRequest s1 a (readSrc e c b.slot) b.len
      trwIssue s2 e c n

/-- A burst has been written (or has failed): its slot frees, and the channel goes on. -/
def burstEnd (s : State) (e c off : Nat) (fail : Option Nat) : State :=
  let t := s.trwCh e c
  match t.bursts.find? (·.off == off) with
  | none => s
  | some b =>
    let t1 := { t with bursts := t.bursts.filter (·.off != off) }
    match fail with
    | some st => trwStop (s.setTrwCh e c t1) e c st
    | none =>
      let s1 := (s.count (Reg.TRW_BURSTS e)).setTrwCh e c { t1 with written := t.written + b.len }
      trwSettle (trwIssue s1 e c 2) e c

/-! ### Commands -/

/-- The start bit of TRW_CHc_CTL (R289): a chain begins at a channel at rest; a busy one notes the cc, in which it may yet come to rest. -/
def execTrwStart (engine ch : Nat) (s : State) : Host.Outcome State Fault Refusal :=
  let e := engine % 4
  let c := ch % 8
  let t := s.trwCh e c
  if !s.up .trw e then .next s
  else if t.st == .idle || t.st == .halted then .next (trwBegin s e c)
  else .next (s.setTrwCh e c { t with startAt := s.time.up + 1 })

/-- Abort one channel (R291). -/
def trwAbort (s : State) (e c : Nat) : State :=
  let t := s.trwCh e c
  if t.st = .fetch then s.setTrwCh e c { t with abort := true } else trwStop s e c stCANCELLED

/-- The abort bit of TRW_CHc_CTL (R291). -/
def execTrwAbort (engine ch : Nat) (s : State) : Host.Outcome State Fault Refusal :=
  .next (trwAbort s (engine % 4) (ch % 8))

/-- A descriptor's fetch ends; `bad` marks an uncorrectable error (R284, R289). -/
def execDescriptorFetch (engine ch : Nat) (bad : Bool) (s : State) : Host.Outcome State Fault Refusal :=
  let e := engine % 4
  let c := ch % 8
  let t := s.trwCh e c
  let halt := fun (s : State) (st : Nat) =>
    trwHalt (s.setFld (Reg.TRW_CH_STAT e c) 15 8 st) e c st
  if t.st ≠ .fetch then .next s
  else if t.addr % 64 ≠ 0 ∨ ¬ inSram t.addr then .next (halt s stMALFORMED)
  else if bad then .next (halt (uncorr s t.addr) stCRC)
  else
    let d := descAt s t.addr
    let st := descCheck s e d
    let s1 := trwPut s e c { t with d := d }
    if st ≠ stOK then .next (trwWriteBack s1 e c st)
    else if t.abort then .next (trwWriteBack s1 e c stCANCELLED)
    else .next (trwSettle (trwIssue (trwPut s1 e c { t with d := d, st := .run }) e c 2) e c)

/-- The read of the burst in staging slot `slot` ends, once its request has been granted; `bad` marks an uncorrectable error (R293, R296,
R506). -/
def execTrwBurstReadDone (engine : Nat) (at_ : TrwSlot) (bad : Bool) (s : State) : Host.Outcome State Fault Refusal :=
  let e := engine % 4
  let c := at_.ch % 8
  let t := s.trwCh e c
  match t.bursts.find? fun b => b.slot == at_.slot && b.data.isNone with
  | none => .next s
  | some b =>
    let a := t.d.srcAt b.off
    if t.st ≠ .run ∨ inNvme a ∨ 0 < memWaiting s a (readSrc e c at_.slot) then .next s
    else
      let s1 := memRelease s a (readSrc e c at_.slot)
      if bad then .next (burstEnd (fault (memUncorr s1 a 3) .trw e 0x38 none (t.addr % 2 ^ 32) c) e c b.off (some stCRC))
      else .next (trwShow (burstArrive s1 e c b.off (s1.readBytes a b.len)) e c)

/-- The write of the burst in staging slot `slot` ends (R296): its bytes are in memory and its slot frees. -/
def execTrwBurstWriteDone (engine : Nat) (at_ : TrwSlot) (s : State) : Host.Outcome State Fault Refusal :=
  let e := engine % 4
  let c := at_.ch % 8
  let t := s.trwCh e c
  match t.bursts.find? fun b => b.slot == at_.slot && b.data.isSome with
  | none => .next s
  | some b =>
    let a := t.d.dstAt b.off
    if t.st ≠ .run ∨ inNvme a ∨ 0 < memWaiting s a (writeSrc e c at_.slot) then .next s
    else
      let s1 := memRelease s a (writeSrc e c at_.slot)
      let put := fun (s : State) (x : Nat × Nat) => s.putByte (t.d.dstAt (b.off + x.2)) x.1
      let s2 := pathsWritten s1 ((b.data.getD []).zipIdx.foldl put s1) (t.d.dstAt b.off) (b.data.getD []).length
      .next (burstEnd s2 e c b.off none)

/-- The channel that a feed is bound to. -/
def feedChannel (s : State) (f : Nat) : Option Nat :=
  (s.trw.find? fun kv => kv.2.st == .run && kv.2.d.kind == 1 && kv.2.d.feed == f && kv.2.stop.isNone).map (·.1)

/-- Take the oldest record that RAKn has produced. -/
def feedTake (s : State) (rak : Nat) : Option (List Nat × State) :=
  match SMap.get s.feeds [] rak with
  | [] => none
  | r :: rest => some (r, { s with feeds := SMap.set s.feeds [] rak rest })

/-- A feed delivers its oldest record to the channel bound to it: staged for its write, or dropped where the staging buffer is
full (R287). -/
def execFeedRecord (rak : Nat) (s : State) : Host.Outcome State Fault Refusal :=
  let r := rak % 8
  match feedTake s r with
  | none => .next s
  | some (rec, s1) =>
    match feedChannel s1 (r + 1) with
    | none => .next s1
    | some k =>
      let e := k / 8
      let c := k % 8
      let t := s1.trwCh e c
      if trwAllIssued t then .next s1
      else if 2 ≤ t.bursts.length then .next (event0 (s1.count (Reg.TRW_FEEDDROP e)) .trw e 5)
      else
        let n := if t.d.len = 0 then 16 else min 16 (t.d.len - t.issued)
        let s2 := s1.setTrwCh e c { t with issued := t.issued + n, bursts := t.bursts ++ [⟨t.issued, n, none, t.freeSlot⟩] }
        .next (burstArrive s2 e c t.issued (rec.take n))

/-- TRW_PBLOCK blocks and unblocks partitions at once, and stops the running descriptors of those it blocks (R292). -/
def trwBlock (s : State) (e : Nat) : State :=
  (List.range 8).foldl (fun s c =>
    let t := s.trwCh e c
    if t.st = .run ∧ descBlocked s e t.d then trwStop s e c stPART_RESET else s) s

/-- A write of both words of TRW_PBLOCK of an engine (R292). -/
def execTrwPblockWrite (engine parts : Nat) (s : State) : Host.Outcome State Fault Refusal :=
  let e := engine % 4
  .next (trwBlock (s.setRg64 (Reg.TRW_PBLOCK_LO e) parts) e)

/-- TRWn disabled: every channel stops as if aborted (R29 to R31). -/
def trwDisable (s : State) (e : Nat) : State := (List.range 8).foldl (fun s c => trwAbort s e c) s

/-! ### Drives and links (R267, R269) -/

/-- What a command's end does to the work it serves: `data` on success. -/
def driveEnd (s : State) (k : DriveCmd) (ok : Bool) (data : List Nat) : State :=
  match k.use with
  | .move f => if ok then moveStage s f 4 2 else moveLost s f stCRC
  | .fetch f => if ok then fetchArrive s f data else fetchLost s f stCRC
  | .window e c off =>
    if !ok then burstEnd s e c off (some stCRC)
    else if k.write then burstEnd s e c off none
    else
      match (s.trwCh e c).bursts.find? (·.off == off) with
      | some b => trwShow (burstArrive s e c off (data.take b.len)) e c
      | none => s

/-- A drive completes the `i`-th command under way, with the bytes of a read, or fails it; `linkCorr` link
errors were corrected meanwhile (R267, R269, R279). -/
def execDriveCommandComplete (i : Nat) (ok : Bool) (data : DriveData) (s : State) : Host.Outcome State Fault Refusal :=
  match s.drive[i]? with
  | none => .next s
  | some k =>
    let s1 := { s with drive := s.drive.eraseIdx i }.countBy (Reg.PCI_ERR_CORR k.port) data.linkCorr
    let s2 := if ok then s1 else event0 (s1.count (Reg.PCI_ERR_UNCORR k.port)) .pci k.port 4
    .next (driveEnd s2 k ok (data.bytes.map (· % 256)))

/-- A link goes down or its drive is removed: its commands fail with CRC (R269). -/
def linkDown (s : State) (p k : Nat) (present : Bool) : State :=
  let s1 := event0 (s.setRg (Reg.PCI_LINK_STAT p k) (if present then 512 else 0)) .pci p 5
  let mine := s1.drive.filter fun d => d.port == p && d.link == k
  let s2 := { s1 with drive := s1.drive.filter fun d => !(d.port == p && d.link == k) }
  mine.foldl (fun s d => driveEnd (s.count (Reg.PCI_ERR_UNCORR p)) d false []) s2

/-- PCI_LINK_DOWN (R269). -/
def execPciLinkDown (port link : Nat) (present : Bool) (s : State) : Host.Outcome State Fault Refusal :=
  let p := port % 2
  let k := link % 4
  if s.bit (Reg.PCI_LINK_STAT p k) 0 || s.bit (Reg.PCI_LINK_STAT p k) 9 then .next (linkDown s p k present) else .next s

/-! ### Port B (R322, R512) -/

/-- Patrol is enabled and takes the cycles that nobody else wants (R507). -/
def patrolOn (s : State) : Bool := s.up .bst 0 && s.bit Reg.BST_PATROL 16

/-- Address of the patrol's next word: peat, then crown SRAM (R507). -/
def patrolAddr (s : State) : Nat := if 8 * s.bst.pos < 2 ^ 32 then peatBase + 8 * s.bst.pos else crownBase + (8 * s.bst.pos - 2 ^ 32)

/-- The patrol still has words to read in this tick (R507, R521). -/
def patrolDue (s : State) : Bool := patrolOn s && decide (s.bst.words < 128 * max 1 (s.fld Reg.BST_PATROL 15 0))

/-- The patrol goes on to the next word, wrapping at the end of the 4.375 GiB (R507). -/
def patrolNext (s : State) : State :=
  { s with bst := { s.bst with pos := (s.bst.pos + 1) % 587202560, words := s.bst.words + 1 } }

/-- Address of the page that a page item of tile `t` reads at the current cc, where its frame lies in peat (R67, R209). -/
def readsNow (s : State) (t : Nat) (it : Item) : Option Nat :=
  let f := itemFrame s it
  if it.unit = .tile t ∧ (it.kind = .pages ∨ it.kind = .shared) ∧ it.st ≠ .done ∧ it.start ≤ s.time.cc ∧ s.time.cc < it.start + it.len
      ∧ s.loc f < 65536 then some (s.frAddr f)
  else none

/-- A booked read by the partner holds port B of slice n at the current cc (R209, R322). -/
def portBooked (s : State) (n : Nat) : Bool :=
  s.tpl.items.any fun it => (readsNow s (Nat.xor n 1) it).any fun a => sliceOf a == n

/-- Port B of a slice grants a waiting user (R297, R322): the partner's program, then Trowel and the migrator in rotation, then
the patrol, in a cc that no booked read holds. -/
def execPortBGrant (slice : Nat) (s : State) : Host.Outcome State Fault Refusal :=
  let n := slice % 128
  let b := s.pb n
  if b.holder.isSome ∨ portBooked s n then .next s
  else
    let win := match b.waiting.find? (·.src < 128) with
      | some r => some r
      | none => rotWinner b.rot b.waiting
    match win with
    | some r =>
      .next (s.setPb n { waiting := b.waiting.erase r, rot := if r.src < 128 then b.rot else sharer r.src, holder := some { r with raised := s.time.up } })
    | none => if patrolDue s && inPeat (patrolAddr s) && sliceOf (patrolAddr s) == n then .next (s.setPb n { b with holder := some ⟨patrolSrc, s.time.up⟩ }) else .next s

/-- A grant of port B has lasted 65,536 cc: it ends and the access fails (R293, R263, R512). -/
def execPortBWatchdogBite (slice : Nat) (s : State) : Host.Outcome State Fault Refusal :=
  let n := slice % 128
  let b := s.pb n
  match b.holder with
  | none => .next s
  | some h =>
    if s.time.up < h.raised + 65536 then .next s
    else
      let user := if h.src < 128 then 0 else if h.src = patrolSrc then 3 else if 1024 ≤ h.src then 2 else 1
      let s1 := fault (s.setPb n { b with holder := none }) .til n 0x46 none user s.time.cc
      if user = 0 then .next (tileDown s1 h.src)
      else if user = 1 then
        let e := (h.src - 256) % 64 / 16
        let c := h.src % 16 / 2
        let t := s1.trwCh e c
        match t.bursts.find? fun x => x.slot == h.src % 2 && x.data.isSome == decide (320 ≤ h.src) with
        | some x => .next (burstEnd s1 e c x.off (some stCRC))
        | none => .next s1
      else if user = 2 then .next (fetchLost (moveLost s1 (h.src - 1024) stCRC) (h.src - 1024) stCRC)
      else .next (patrolNext s1)

end Sys2Proof.Machine
end

