-- ==== Sys2Proof/Machine/Tiles.lean ====
section
/-!
DEFINITION. The tile grid (spec/12, R318 to R355): tile states, images and measurement, the memories a program reaches, mesh
messages and direct writes, fen accesses of programs, and tile faults.
-/

namespace Sys2Proof.Machine

/-! ### Faults (R352) -/

/-- A tile fault: the tile stops issuing, abandons its unit work and what it has not injected, and records the fault (R352). An
uncorrectable error at an address in a peat frame poisons the frame (R508). -/
def tileFault (s : State) (n code addr : Nat) : State :=
  let s1 := tileDown s n
  let s2 := fault (if code = 0x44 then uncorr s1 addr else s1) .til n code none (s.tile n).pc (addr % 2 ^ 32)
  if code = 0x44 ∧ inPeat addr then poisonAdd s2 (frameAt s2 ((addr - peatBase) / 65536)) else s2

/-! ### Addresses that a program reaches (R320, R321) -/

/-- The range of tile n that holds [a, a + len): 0 private, 1 gather buffer, 2 own slice, 3 partner's slice. -/
def tileRange (n a len : Nat) : Option Nat :=
  let inR := fun (b size : Nat) => decide (b ≤ a) && decide (a + len ≤ b + size)
  if inR (privBase n) 0x180000 then some 0
  else if inR (gatherBase n) 0x180000 then some 1
  else if inR (sliceBase n) 0x2000000 then some 2
  else if inR (sliceBase (Nat.xor n 1)) 0x2000000 then some 3
  else none

/-- A program may read the range. -/
def tileReads (n a len : Nat) : Bool := (tileRange n a len).isSome

/-- A program may write the range: not the code region and not the booking area. -/
def tileWrites (n a len : Nat) : Bool :=
  (tileRange n a len).isSome && (tileRange n a len != some 0 || decide (privBase n + 0x40000 ≤ a))

/-- The partner's slice is free for tile n's program to use through port B (R322). -/
def portFree (s : State) (n : Nat) : Bool :=
  let m := Nat.xor n 1
  ((s.pb m).holder.isNone && !portBooked s m) || (s.pb m).holder.any (·.src == n)

/-- A program's access to [a, a + len) has to wait for port B of the partner's slice (R322). -/
def portWaits (s : State) (n a len : Nat) : Bool := tileRange n a len == some 3 && !portFree s n

/-- The tile waits for port B of its partner's slice; its request is raised once. -/
def portAsk (s : State) (n : Nat) : State :=
  let m := Nat.xor n 1
  let s1 := if (s.pb m).waiting.any (·.src == n) then s else portRequest s m n
  s1.setTile n { s1.tile n with wait := some (.port m) }

/-- An access of tile n to [a, a + len) has ended: port B is free again, unless a block operation still uses it. -/
def portLeave (s : State) (n a len : Nat) : State :=
  if tileRange n a len = some 3 ∧ !(s.tile n).blocks.any (·.port) then memRelease s a n else s

/-! ### Registers of a tile (R339) -/

/-- Scalar register k; g0 reads zero. -/
def Tile.gr (t : Tile) (k : Nat) : Nat := if k = 0 then 0 else (SMap.get t.g (0#64) k).toNat

/-- Write scalar register k; writes of g0 are ignored. -/
def Tile.setG (t : Tile) (k v : Nat) : Tile :=
  if k = 0 then t else { t with g := SMap.set t.g (0#64) k (BitVec.ofNat 64 v) }

/-- The zero vector. -/
def zeroV : List F32 := List.replicate 64 f32Zero

/-- Vector register k. -/
def Tile.vr (t : Tile) (k : Nat) : List F32 := SMap.get t.v zeroV k
def Tile.setV (t : Tile) (k : Nat) (v : List F32) : Tile := { t with v := SMap.set t.v zeroV k v }

/-- Accumulator k: 64 × 64 values, row by row. -/
def zeroAcc : List F32 := List.replicate 4096 f32Zero
def Tile.ar (t : Tile) (k : Nat) : List F32 := SMap.get t.acc zeroAcc k
def Tile.setA (t : Tile) (k : Nat) (v : List F32) : Tile := { t with acc := SMap.set t.acc zeroAcc k v }

/-- A tile as it enters RUNNING: every register, the PC and every CSR that a program can write zero; the channels unconfigured (R332, R339).
Fen accesses under way, and what has been sent to it, remain. -/
def Tile.fresh (t : Tile) : Tile :=
  { st := .running, former := t.former, mode := t.mode, status := t.status, lastPc := t.lastPc, fens := t.fens, fenStat := t.fenStat
    eject := t.eject, hold := t.hold }

/-! ### Starting and stopping (R347, R348) -/

/-- TIL_CMD.start (R347); a disabled block refuses it (R30). -/
def execTilStart (tile : Nat) (s : State) : Host.Outcome State Fault Refusal :=
  let n := tile % 128
  let t := s.tile n
  if !(t.st == .stopped || t.st == .halted || t.st == .faulted) || s.halted .til n then .next s
  else if !s.up .til n then .next (event (s.setTile n { t with status := stMALFORMED }) .til n 7 { status := stMALFORMED })
  else .next (s.setTile n { t with st := .measure, mode := s.fld (Reg.TIL_MODE n) 1 0, stopReq := false })

/-- TIL_CMD.stop (R347): it takes effect at the next boundary. -/
def execTilStop (tile : Nat) (s : State) : Host.Outcome State Fault Refusal :=
  let n := tile % 128
  let t := s.tile n
  if t.st = .armed ∨ t.st = .running then .next (s.setTile n { t with stopReq := true }) else .next s

/-- Code-region bytes from `len` on read zero (R348). -/
def zeroCode (s : State) (n len : Nat) : State :=
  { s with mem := s.mem.filter fun kv => !(decide (privBase n + len ≤ kv.1) && decide (kv.1 < privBase n + 0x20000)) }

/-- The digest of a tile's image as twelve words (R348, R354). -/
def imageDigest (s : State) (n len : Nat) : List Nat :=
  let v := (sha384 (s.readBytes (privBase n) len)).toNat
  (List.range 12).map fun k => v / 2 ^ (32 * k) % 2 ^ 32

/-- Put words into consecutive registers. -/
def setWords (s : State) (reg : Nat → Nat) (ws : List Nat) : State :=
  ws.zipIdx.foldl (fun s x => s.setRg (reg x.2) x.1) s

/-- Measurement of a tile's image ends (R347, R348). -/
def execMeasureDone (tile : Nat) (s : State) : Host.Outcome State Fault Refusal :=
  let n := tile % 128
  let t := s.tile n
  let len := s.fld (Reg.TIL_IMG_LEN n) 17 0
  let refuse := fun (s : State) (st : Nat) => event (s.setTile n { s.tile n with st := .stopped, status := st }) .til n 7 { status := st }
  if t.st ≠ .measure then .next s
  else if len % 128 ≠ 0 ∨ len < 128 ∨ 131072 < len ∨ t.mode = 3 then .next (refuse s stMALFORMED)
  else
    let s1 := zeroCode s n len
    let dig := imageDigest s1 n len
    let s2 := setWords s1 (Reg.TIL_DIGEST n) dig
    if t.mode = 0 ∧ dig ≠ (List.range 12).map (fun k => s.rg (Reg.MSH_SVC_DIGEST k)) then .next (refuse s2 stAUTH)
    else .next (event0 (s2.setTile n { t with st := .armed, status := stOK }) .til n 6)

/-! ### Mesh messages (R325 to R335) -/

/-- The tile that TPL_EXCLUDE isolates now (R353). -/
def isolated (s : State) (n : Nat) : Bool := (s.tile n).st == .isolated

/-- A message waits at injection: the routers are disabled, or its one-leg, X-first route crosses the router of an ISOLATED tile
(R30, R326, R335). -/
def routeBlocked (s : State) (src dst : Nat) : Bool := !s.up .msh 0 || (routeRouters src dst ⟨true, none⟩).any (isolated s)

/-- A message is discarded and counted (R334, R335). -/
def mshDiscard (s : State) : State := event0 (s.count Reg.MSH_DISCARD) .msh 0 4

/-- A VC1 message at injection (R335): discarded, held back, or sent on its way. -/
def inject (s : State) (m : Msg) : State :=
  let gone := decide (128 ≤ m.dst) || ((s.tile m.dst).st == .isolated || (s.tile m.dst).st == .stopped || (s.tile m.dst).st == .faulted)
  if gone then mshDiscard s
  else if routeBlocked s m.src m.dst then
    s.setTile m.src { s.tile m.src with inject := (s.tile m.src).inject ++ [m] }
  else s.setTile m.dst { s.tile m.dst with eject := (s.tile m.dst).eject ++ [{ m with since := s.time.up }] }

/-- Flits of a payload (R328). -/
def flits (bytes : Nat) : Nat := ceilDiv bytes 64

/-- log2 of a channel's ring size, where the channel is configured on a legal ring (R332). -/
def ringOf (n : Nat) (t : Tile) (c : Nat) : Option Nat :=
  let k := SMap.get t.chSize 15 c
  let b := SMap.get t.chBase 0 c
  if k ≤ 14 ∧ b % 64 = 0 ∧ tileWrites n b (64 * 2 ^ k) ∧ (tileRange n b (64 * 2 ^ k) = some 0 ∨ tileRange n b (64 * 2 ^ k) = some 1) then some k
  else none

/-- Write a payload into a ring of 2^k flits from flit position `w` on, wrapping at its end (R333). -/
def ringWrite (s : State) (base k w : Nat) (data : List Nat) : State :=
  data.zipIdx.foldl (fun s x => s.setByte (base + (64 * w + x.2) % (64 * 2 ^ k)) x.1) s

/-- A record word (R336). -/
def recWord (off fl src tag : Nat) : Nat := off % 2 ^ 20 + fl % 2 ^ 11 * 2 ^ 20 + 2 ^ 31 + src % 256 * 2 ^ 32 + tag % 65536 * 2 ^ 40

/-- A message is discarded at ejection (R333). -/
def rxDrop (s : State) (n : Nat) : State := event0 (s.count (Reg.TIL_RXDROP n)) .til n 5

/-- A poisoned message or transfer is discarded by its receiver (R331). -/
def crcDiscard (s : State) (src dst router : Nat) : State :=
  event0 (fault (s.count Reg.MSH_CRC_ERR) .msh 0 0x50 none (src % 256 + dst % 256 * 256) router) .msh 0 3

/-! ### Flits on the links (R324, R331, R505) -/

/-- The CRC of a flit: over its 64 data bytes and sideband bytes 0 to 5 (R505). -/
def flitCrc (bytes : List Nat) : Nat := crc16 (bytes.take 70)

/-- A flit as a sender puts it on a link: 64 data bytes, 6 sideband bytes, and the CRC in sideband bits 63:48 (R324, R505). -/
def flitSend (data side : List Nat) : List Nat :=
  let l := (data ++ List.replicate 64 0).take 64 ++ (side ++ List.replicate 6 0).take 6
  l ++ toLE 2 (flitCrc l)

/-- A flit as a router or receiver finds it, 64 data bytes and 8 sideband bytes, has a bad CRC (R331). -/
def flitBad (flit : List Nat) : Bool := flitCrc flit != leBytes (fun o => flit.getD (70 + o) 0) 0 2

/-- Some flit of a message has a bad CRC: `seen` are the bytes of a flit that a link has disturbed, where there is one. -/
def poisoned (seen : Option (List Nat)) : Bool := seen.any flitBad

/-- The ejection port of a tile takes a message: the one that holds it, else one with no earlier message of its sender before it, at place
`pick` (R327). It goes into its channel's ring with a record, once both have room, and holds the port until then; `seen` is a flit of it that
a link has disturbed (R331, R333). -/
def execMessageEject (tile : Nat) (msg : Ejected) (s : State) : Host.Outcome State Fault Refusal :=
  let n := tile % 128
  let t := s.tile n
  let k := if t.hold.isSome then 0 else msg.pick
  match t.eject[k]? with
  | none => .next s
  | some m =>
    let r := t.eject.eraseIdx k
    let s1 := s.setTile n { t with eject := r, hold := none }
    if t.st = .isolated ∨ (t.eject.take k).any (·.src == m.src) then .next s
    else if poisoned msg.seen then .next (crcDiscard s1 m.src n n)
    else match ringOf n t m.chan with
      | none => .next (rxDrop s1 n)
      | some k =>
        let w := SMap.get t.chWr 0 m.chan
        let rd := SMap.get t.chRd 0 m.chan
        let f := flits m.data.length
        let recs := SMap.get t.recs [] m.chan
        if 2 ^ k < (w + 2 ^ 64 - rd) % 2 ^ 64 + f ∨ 64 ≤ recs.length then
          .next (s.setTile n { t with eject := m :: r, hold := some (t.hold.getD s.time.up) })
        else
          let s2 := ringWrite s1 (SMap.get t.chBase 0 m.chan) k w m.data
          let rec_ := recWord (64 * (w % 2 ^ k)) f m.src m.tag
          .next (s2.setTile n { t with eject := r, hold := none, chWr := SMap.set t.chWr 0 m.chan ((w + f) % 2 ^ 64)
                                       recs := SMap.set t.recs [] m.chan (recs ++ [rec_]) })

/-- The message that holds a tile's ejection port has waited there for 16,384 cc (R333). -/
def execEjectionTimeout (tile : Nat) (s : State) : Host.Outcome State Fault Refusal :=
  let n := tile % 128
  let t := s.tile n
  match t.hold with
  | none => .next s
  | some h => if s.time.up < h + 16384 then .next s else .next (rxDrop (s.setTile n { t with eject := t.eject.tail, hold := none }) n)

/-- A router's output has held a VC1 grant 65,536 cc without moving a flit: the message that it holds is discarded (R355,
R512). -/
def execRouterWatchdogBite (router : Nat) (s : State) : Host.Outcome State Fault Refusal :=
  let r := router % 128
  let stuck := fun (m : Msg) => decide (m.since + 65536 ≤ s.time.up) && (routeRouters m.src m.dst ⟨true, none⟩).contains r
  match s.tiles.findSome? fun kv => (kv.2.eject.find? stuck).map fun m => (kv.1, m) with
  | none => .next s
  | some (n, m) =>
    let t := s.tile n
    let held := if t.eject.head? = some m then none else t.hold
    let s1 := (s.setTile n { t with eject := t.eject.erase m, hold := held }).count Reg.MSH_WD_BITES
    .next (event0 (fault s1 .msh 0 0x52 none (m.src % 256 + m.dst % 256 * 256) r) .msh 0 5)

/-- Where a booked transfer's bytes go (R334): a tile's gather buffer, the row stores of the channels that the address names
(bits 31:0, with the store in bit 32), or the crown write queue of a fen address. -/
def directWrite (s : State) (x : Direct) (vendor : Bool) : State :=
  if x.dst < 128 then
    if gatherBase x.dst ≤ x.addr ∧ x.addr + x.data.length ≤ gatherBase x.dst + 0x180000 then s.writeBytes x.addr x.data
    else event0 (fault (s.count Reg.MSH_DISCARD) .msh 0 0x51 none (x.src % 256 + x.dst % 256 * 256) (x.addr % 2 ^ 32)) .msh 0 4
  else if 136 ≤ x.dst then
    let n := x.dst % 8
    (List.range 32).foldl (fun s p =>
      if bitOf x.addr p then
        s.setDbr n { s.dbr n with stores := SMap.set (s.dbr n).stores [] (2 * p + x.addr / 2 ^ 32 % 2) x.data }
      else s) s
  else if vendor || !inFen x.addr then s
  else
    let t := s.tile x.src
    let op : FenOp := { write := true, fen := x.addr, local_ := 0, bytes := x.data.length, data := x.data, direct := true }
    fenRequest (s.setTile x.src { t with fens := t.fens ++ [op] }) (addrStack x.addr) (addrPc x.addr) 1 x.src x.data.length

/-! ### Booked transfers (R228, R328 to R331, R334, R349, R350) -/

/-- A free place in tile n's gather buffer, from draw `k` of this plan: the spec gives no addresses there (assumption 72). -/
def gatherPlace (s : State) (n k : Nat) : Nat := gatherBase n + 64 * ((Config.freeValue (s.tpl.draws + k)).toNat % 24576)

/-- Place among the plan's items of the merge of a request's partial of a page. -/
def mergeIdx (b : TplBlock) (slot : Nat) (p : Nat × Nat) : Nat :=
  b.items.findIdx fun it => it.kind == .merge && it.reqs == [slot] && it.pages == [p]

/-- Address of a request's partial of a page in the gather buffer of its owning tile, which every entry of the partial names (R214, R349). -/
def partialAddr (s : State) (slot : Nat) (p : Nat × Nat) : Nat :=
  let k := mergeIdx s.tpl slot p
  match s.tpl.items[k]? with
  | none => gatherBase0
  | some it => match it.unit with
    | .tile n => gatherPlace s n k
    | .chan _ _ => gatherBase0
    | .frm => gatherBase0

/-- Receiver address of a booked transfer (R334, R349): a partial's place, or a free place for rotated rows. The spec gives no form to the
address of a row store: it is a free value (assumption 72). -/
def xferAddr (s : State) (x : Xfer) : Nat :=
  let k := s.tpl.items.length + s.tpl.xfers.findIdx fun y => y.slot == x.slot && y.src == x.src && y.dst == x.dst && y.page == x.page
  match x.page with
  | some p => partialAddr s x.slot p + x.off
  | none => if x.dst < 128 then gatherPlace s x.dst k + x.off else (Config.freeValue (s.tpl.draws + k)).toNat

/-- The first booked transfer between two endpoints that has not been sent. -/
def nextXfer (s : State) (src dst : Nat) : Option Xfer :=
  (s.tpl.xfers.filter fun x => x.src == src && x.dst == dst && !x.sent).foldl (fun best x => match best with
    | none => some x
    | some y => if x.start < y.start then some x else best) none

/-- A booked transfer has been sent. -/
def xferSent (s : State) (x : Xfer) : State :=
  { s with tpl := { s.tpl with xfers := s.tpl.xfers.map fun y => if y == x then { y with sent := true } else y } }

/-- Booked work of a request is lost: what it still has to do stays unfinished (R68, R331, R350). -/
def lose (s : State) (slot : Nat) : State := { s with tpl := { s.tpl with lost := slot :: s.tpl.lost } }

/-- The bytes of a page partial that a stack's exit buffer holds for a booked transfer, and the state without them once its last part has
gone (R228). -/
def exitPart (s : State) (x : Xfer) : Option (State × List Nat) :=
  let p := x.page.getD (0, 0)
  let f := (pteAt s (s.ctxAt (hSlot (s.reqAt x.slot).handle)) p.1 p.2).frame
  exitTake (exitsTurn s (x.src % 8)) (x.src % 8) (locPc (s.loc f)) (locRow (s.loc f)) x.dst x.slot x.off (64 * x.flits)

/-- A booked transfer with bytes `data` reaches its receiver, or is discarded there for its CRC (R328, R331, R334). -/
def xferArrive (s : State) (d : Direct) (vendor bad : Bool) : State :=
  if bad then lose (crcDiscard s d.src d.dst (meshRouter d.dst).1) d.slot else directWrite s d vendor

/-- A booked transfer arrives (R328, R334): one that a program has sent, else the first one that the planner has booked for vendor work: a
partial from a stack's exit buffer (R228), or `data` for the address that the plan or, for a row store, `addr` names. Disabled routers carry
none (R30). `seen` is a flit that a link has disturbed (R331). -/
def execVc0DirectWrite (src dst addr : Nat) (data : List Nat) (seen : Option (List Nat)) (s : State) : Host.Outcome State Fault Refusal :=
  let bad := poisoned seen
  if !s.up .msh 0 then .next s
  else match s.direct.find? fun x => x.src == src && x.dst == dst with
  | some x => .next (xferArrive { s with direct := s.direct.erase x } x false bad)
  | none => match nextXfer s src dst with
    | none => .next s
    | some x =>
      let s0 := s.ccTo (x.start + costMesh x.links.length (64 * x.flits))
      let to_ := if dst < 128 then xferAddr s0 x else addr
      let whole := if 136 ≤ src then exitPart s0 x else if flits data.length ≤ x.flits then some (s0, data.map (· % 256)) else none
      match whole with
      | none => .next s
      | some (s1, bytes) => .next (xferArrive (xferSent s1 x) ⟨src, dst, to_, bytes, x.start, x.slot⟩ true bad)

/-! ### Fen accesses of programs (R337) -/

/-- The access at place `i` of a tile's list is no longer behind requests of its own that still wait at the channel. -/
def fenServed (s : State) (n i : Nat) (o : FenOp) : Bool :=
  let k := addrStack o.fen
  let p := addrPc o.fen
  let same := fun (x : FenOp) => addrStack x.fen == k && addrPc x.fen == p
  let all := ((s.tile n).fens.filter same).length
  let upto := (((s.tile n).fens.take (i + 1)).filter same).length
  let waits := ((s.chan k p).crownQ.filter (·.src == n)).length + ((s.chan k p).waiting.filter (·.src == n)).length
  decide (upto + waits ≤ all)

/-- The `i`-th outstanding fen access of a tile completes: data or acknowledgement arrives, and FENSTAT takes its status; `bad`
marks an uncorrectable error of a read (R248, R337). The reply waits while an isolated router bars its route (R335), and data for the
partner's slice waits for port B (R322). An access of a disabled stack fails with MALFORMED (R30). -/
def execFenAccessComplete (tile i : Nat) (bad : Bool) (s : State) : Host.Outcome State Fault Refusal :=
  let n := tile % 128
  let t := s.tile n
  match t.fens[i]? with
  | none => .next s
  | some o =>
    if !o.direct && routeBlocked s (128 + addrStack o.fen) n then .next s
    else if !s.en .fen (addrStack o.fen) then
      .next (s.setTile n { t with fens := t.fens.eraseIdx i, fenStat := if o.direct then t.fenStat else stMALFORMED })
    else if !fenServed s n i o then .next s
    else if !o.write && portWaits s n o.local_ o.bytes then
      .next (if (s.pb (Nat.xor n 1)).waiting.any (·.src == n) then s else portRequest s (Nat.xor n 1) n)
    else
      let failed := o.failed || (bad && !o.write)
      let s0 := if bad && !o.write && !o.failed then fenFault s (addrStack o.fen) o.fen 0 else s
      let st := if failed then stCRC else stOK
      let t1 := { t with fens := t.fens.eraseIdx i, fenStat := if o.direct then t.fenStat else st }
      let s1 := s0.setTile n t1
      if o.write then .next (s1.writeBytes o.fen o.data)
      else if failed then .next s1
      else if t.st = .isolated ∨ t.st = .stopped ∨ t.st = .faulted then .next (mshDiscard s1)
      else .next (portLeave (s1.writeBytes o.local_ (s1.readBytes o.fen o.bytes)) n o.local_ o.bytes)

/-! ### Tile states at a boundary (R347, R353, R533) -/

/-- One tile's state at a boundary: stops and starts. -/
def tileTurn (s : State) (n : Nat) : State :=
  let t := s.tile n
  let w := match t.wait with
    | some (.cc v _) => some (.cc v false)
    | w => w
  if t.stopReq ∧ t.st ≠ .isolated then
    (portDrop s n).setTile n { t with st := .stopped, stopReq := false, wait := none, blocks := [], inject := [] }
  else if t.st = .armed then s.setTile n t.fresh
  else s.setTile n { t with wait := w }

/-- Isolation of the tile that TPL_EXCLUDE names begins, and that of any other ends; a quarantined tile is then FAULTED where it would
be measured (R80, R353, R515). -/
def isolateTurn (s : State) : State :=
  let on := s.bit Reg.TPL_EXCLUDE 8
  let x := s.fld Reg.TPL_EXCLUDE 6 0
  let back := fun (s : State) (n : Nat) =>
    let t := s.tile n
    if t.st = .isolated ∧ ¬ (on ∧ n = x) then
      let again := if s.bit (Reg.BST_QUAR (n / 32)) (n % 32) then .faulted else .measure
      s.setTile n { t with st := if t.former = .armed ∨ t.former = .running ∨ t.former = .measure then again else t.former }
    else s
  let s1 := (s.tiles.map (·.1)).foldl back s
  let s2 := if on ∧ (s1.tile x).st ≠ .isolated then
      (portDrop s1 x).setTile x { s1.tile x with st := .isolated, former := (s1.tile x).st, wait := none, blocks := [] }
    else s1
  s2.setRg Reg.MSH_ISOLATED (if on then x + 256 else 0)

/-- Messages held back at injection go on their way where no isolated router bars them any longer (R335). -/
def injectTurn (s : State) : State :=
  (s.tiles.map (·.1)).foldl (fun s n =>
    let t := s.tile n
    t.inject.foldl inject (s.setTile n { t with inject := [] })) s

/-- Tile state changes of a boundary (R533). -/
def tilesTurn (s : State) : State :=
  injectTurn (isolateTurn ((s.tiles.map (·.1)).foldl tileTurn s))

end Sys2Proof.Machine
end

