-- ==== Sys2Proof/Machine/BlockDesc.lean ====
section
/-!
DEFINITION. Block descriptors (spec/12, R344), the memory that a block operation reads and writes (R345), the units that it takes (R318,
R340), and what a store into that memory does to it (R323).
-/

namespace Sys2Proof.Machine

/-! ### Block descriptors (R344) -/

/-- Fields of a block descriptor. -/
structure BlkDesc where
  src : Nat
  dst : Nat
  aux : Nat
  n : Nat
  code : Nat
  d : Nat
  kvh : Nat
  flags : Nat
  t : Nat
  sigma : F32
  count : Nat
  base : Nat
  l0 : Nat
  window : Nat
  pre : Nat
  pos : Nat

/-- Read a descriptor's fields from its bytes. -/
def blkDesc (l : List Nat) : BlkDesc :=
  let x := fun o n => leBytes (fun i => l.getD i 0) o n
  { src := x 0 8, dst := x 8 8, aux := x 16 8, n := x 24 2, code := x 26 1, d := 32 * x 27 1, kvh := x 28 1, flags := x 29 1
    t := x 30 2, sigma := BitVec.ofNat 32 (x 32 4), count := x 36 4, base := x 40 4 % 2 ^ 24, l0 := x 44 4 % 2 ^ 25
    window := x 48 4 % 2 ^ 25, pre := x 52 4 % 2 ^ 25, pos := x 56 8 }

def BlkDesc.geo (b : BlkDesc) : Geo := ⟨b.code, b.d, b.kvh, b.t⟩

/-- Bits of an element of a code (R344). -/
def codeBits (code : Nat) : Nat := if code = 5 then 8 else if code = 6 then 6 else if code = 7 then 32 else elemBits code

/-- Bytes of `n` elements of a code, whole bytes. -/
def codeBytes (code n : Nat) : Nat := ceilDiv (n * codeBits code) 8

/-- Scale bytes of `n` elements of a storage code. -/
def scaleBytes (code n : Nat) : Nat := if code = 3 ∨ code = 4 then ceilDiv n 32 else 0

/-- Unit of a block operation: the busy bits of CSR UNITS that it takes (R318, R345). -/
def opUnits (op : Nat) : Nat :=
  if op = 0x30 ∨ op = 0x35 then 1 else if op = 0x31 then 2 else if op = 0x32 then 4 else if op = 0x33 then 8
  else if op = 0x34 ∨ op = 0x37 then 16 else if op = 0x36 then 32 else if op = 0x38 then 1 + 2 + 32 else if op = 0x4B then 64 else 0

/-- The runs of bytes that an operation reads (R345). BCOPY's descriptor holds its two addresses and its length. -/
def blockReads (op : Nat) (b : BlkDesc) : List (Nat × Nat) :=
  let scaled := fun (a n : Nat) => if scaleBytes b.code n = 0 then [] else [(a, scaleBytes b.code n)]
  if op = 0x30 then [(b.src, 256 * b.n), (b.aux, 256 * b.n)]
  else if op = 0x31 then (b.src, codeBytes b.code b.n) :: scaled b.aux b.n
  else if op = 0x32 then [(b.src, 4 * b.n)]
  else if op = 0x33 then [(b.src, 4 * b.d * b.n), (b.aux, 8)]
  else if op = 0x34 then (b.src, codeBytes b.code (b.kvh * b.d)) :: (b.dst, 1024) :: scaled b.aux (b.kvh * b.d)
  else if op = 0x35 then [(b.src, 4 * b.d * b.n), (b.aux, codeBytes b.code (b.count * b.d))]
  else if op = 0x36 then [(b.src, (4 * b.d + 8) * b.n), (b.dst, (4 * b.d + 8) * b.n)]
  else if op = 0x37 ∨ op = 0x38 then [(b.src, 4 * b.d * b.n), (b.pos, 4 * b.n), (b.aux, 65536)]
  else [(b.src, b.aux)]

/-- The runs of bytes that an operation writes (R345); MMAC writes an accumulator. -/
def blockWrites (op : Nat) (b : BlkDesc) : List (Nat × Nat) :=
  if op = 0x30 then []
  else if op = 0x31 then [(b.dst, 4 * b.n)]
  else if op = 0x32 then (b.dst, codeBytes b.code b.n) :: (if scaleBytes b.code b.n = 0 then [] else [(b.aux, scaleBytes b.code b.n)])
  else if op = 0x33 then [(b.src, 4 * b.d * b.n)]
  else if op = 0x34 then [(b.dst, 1024)]
  else if op = 0x35 then [(b.dst, 4 * b.n * b.count)]
  else if op = 0x36 then [(b.dst, (4 * b.d + 8) * b.n)]
  else if op = 0x37 then [(b.dst, 4 * b.n)]
  else if op = 0x38 then [(b.dst, (4 * b.d + 8 + (if b.flags % 2 = 1 then 4 else 0)) * b.n)]
  else [(b.dst, b.aux)]

/-- The operation reads or writes a byte of [a, a + len). -/
def BlockOp.touches (o : BlockOp) (a len : Nat) : Bool :=
  let b := blkDesc o.desc
  (blockReads o.op b ++ blockWrites o.op b).any fun r => decide (r.1 < a + len) && decide (a < r.1 + r.2)

/-- A program stores bytes. Where an issued, unfinished block operation reads or writes them, they and its result are undefined: free values
(R323). -/
def storeBytes (s : State) (n a : Nat) (bytes : List Nat) : State :=
  let t := s.tile n
  if t.blocks.any (·.touches a bytes.length) then
    freeFill (s.setTile n { t with blocks := t.blocks.map fun o => if o.touches a bytes.length then { o with torn := true } else o })
      a bytes.length
  else s.writeBytes a bytes

/-- Busy bits of a tile's units. -/
def unitsBusy (t : Tile) : Nat := t.blocks.foldl (fun a b => Nat.lor a (opUnits b.op)) 0

/-- A block operation holds the unit of a vector instruction: the exp2 unit of VEXP2, the vector unit of the others (R318, R343, R345). -/
def unitHeld (t : Tile) (op : Nat) : Bool :=
  if op = 0x24 then t.blocks.any (·.op == 0x38) else decide (Nat.land (unitsBusy t) 32 ≠ 0)

end Sys2Proof.Machine
end

