-- ==== Sys2Proof/Machine/Isa.lean ====
section
/-!
DEFINITION. Maolaun instructions (spec/12, R339 to R343, R350): fetch and issue, scalar and vector arithmetic, loads and
stores, branches, waits, messages, fen accesses, hand-offs and CSRs. An instruction row names a tile; what it issues is the
word at that tile's PC, and a row whose opcode that word does not hold changes nothing.
-/

namespace Sys2Proof.Machine

/-! ### Instruction words (R341) -/

def fD (w : Nat) : Nat := bitsOf w 12 8
def fA (w : Nat) : Nat := bitsOf w 17 13
def fB (w : Nat) : Nat := bitsOf w 22 18
def fC (w : Nat) : Nat := bitsOf w 27 23
/-- fn of format R, and flags of format K. -/
def fFn (w : Nat) : Nat := bitsOf w 31 23
/-- fn of format V. -/
def fVfn (w : Nat) : Nat := bitsOf w 31 28
def fImm14 (w : Nat) : Int := signedOf (bitsOf w 31 18) 14
def fImm19 (w : Nat) : Int := signedOf (bitsOf w 31 13) 19
def fCsr (w : Nat) : Nat := bitsOf w 31 20

/-- The opcodes of the instruction set (R342). -/
def legalOp (op : Nat) : Bool :=
  (decide (1 ≤ op) && decide (op ≤ 0x0A)) || (decide (0x10 ≤ op) && decide (op ≤ 0x15)) || (decide (0x18 ≤ op) && decide (op ≤ 0x1E))
    || (decide (0x20 ≤ op) && decide (op ≤ 0x26)) || (decide (0x30 ≤ op) && decide (op ≤ 0x38))
    || (decide (0x40 ≤ op) && decide (op ≤ 0x46)) || (decide (0x48 ≤ op) && decide (op ≤ 0x4B))

/-- Address of the instruction at the PC (R339). -/
def pcAddr (s : State) (n : Nat) : Nat := privBase n + (s.tile n).pc

/-- The instruction word at a tile's PC. -/
def tileWord (s : State) (n : Nat) : Nat := s.readLE (pcAddr s n) 4

/-- The tile can issue: RUNNING and not waiting (R343, R347), its clock not stopped by a trip (R559). -/
def canIssue (s : State) (n : Nat) : Bool := (s.tile n).st == .running && (s.tile n).wait.isNone && !s.clocksStopped

/-- PC arithmetic within [16:0]. -/
def pcAdd (pc : Nat) (k : Int) : Nat := ofSigned ((pc : Int) + k) 17

/-- The operand `tile` of an instruction names the tile in [6:0]. Bit 7 says that the fetch of the instruction meets an uncorrectable error,
bit 8 that its read of a descriptor or of the bytes it sends does (R352, R506). -/
def fetchBad (tile : Nat) : Bool := bitOf tile 7
def readBad (tile : Nat) : Bool := bitOf tile 8

/-- Issue the instruction at a tile's PC, where its opcode is `op` (R342, R343, R352): a misaligned PC, an uncorrectable error of the fetch
and an illegal opcode are tile faults. -/
def issue (s : State) (tile op : Nat) (f : Nat → State → State) : State :=
  let n := tile % 128
  if !canIssue s n then s
  else
    let s0 := s.setTile n { s.tile n with lastPc := (s.tile n).pc }
    let w := tileWord s n
    if (s.tile n).pc % 4 ≠ 0 then tileFault s0 n 0x42 (pcAddr s n)
    else if fetchBad tile then tileFault s0 n 0x44 (pcAddr s n)
    else if !legalOp (w % 256) then tileFault s0 n 0x40 0
    else if w % 256 ≠ op then s
    else f w s0

/-- Issue a vector instruction once its unit is free (R343). -/
def issueV (s : State) (tile op : Nat) (f : Nat → State → State) : State :=
  if unitHeld (s.tile (tile % 128)) op then s else issue s tile op f

/-- Step past an instruction with a changed tile. -/
def advance (s : State) (n : Nat) (t : Tile) : State := s.setTile n { t with pc := pcAdd t.pc 4 }

/-- An instruction that writes one scalar register. -/
def scalarOp (tile op : Nat) (f : Tile → Nat → Nat) (s : State) : Host.Outcome State Fault Refusal :=
  let n := tile % 128
  .next (issue s tile op fun w s => advance s n ((s.tile n).setG (fD w) (f (s.tile n) w)))

/-- Signed value of a scalar register as a natural number modulo 2^64. -/
def mod64 (i : Int) : Nat := ofSigned i 64

/-! ### Scalar arithmetic -/

def execAdd (tile : Nat) (s : State) : Host.Outcome State Fault Refusal :=
  scalarOp tile 0x01 (fun t w => t.gr (fA w) + t.gr (fB w)) s
def execSub (tile : Nat) (s : State) : Host.Outcome State Fault Refusal :=
  scalarOp tile 0x02 (fun t w => mod64 ((t.gr (fA w) : Int) - t.gr (fB w))) s
def execAnd (tile : Nat) (s : State) : Host.Outcome State Fault Refusal :=
  scalarOp tile 0x03 (fun t w => Nat.land (t.gr (fA w)) (t.gr (fB w))) s
def execOr (tile : Nat) (s : State) : Host.Outcome State Fault Refusal :=
  scalarOp tile 0x04 (fun t w => Nat.lor (t.gr (fA w)) (t.gr (fB w))) s
def execXor (tile : Nat) (s : State) : Host.Outcome State Fault Refusal :=
  scalarOp tile 0x05 (fun t w => Nat.xor (t.gr (fA w)) (t.gr (fB w))) s

/-- Shift amount: g[b] mod 64, or the b field itself when fn[0] is 1. -/
def shiftAmt (t : Tile) (w : Nat) : Nat := if fFn w % 2 = 1 then fB w else t.gr (fB w) % 64

def execShl (tile : Nat) (s : State) : Host.Outcome State Fault Refusal :=
  scalarOp tile 0x06 (fun t w => t.gr (fA w) * 2 ^ shiftAmt t w) s
def execShr (tile : Nat) (s : State) : Host.Outcome State Fault Refusal :=
  scalarOp tile 0x07 (fun t w => t.gr (fA w) / 2 ^ shiftAmt t w) s
def execMul (tile : Nat) (s : State) : Host.Outcome State Fault Refusal :=
  scalarOp tile 0x08 (fun t w => t.gr (fA w) * t.gr (fB w)) s
def execAddi (tile : Nat) (s : State) : Host.Outcome State Fault Refusal :=
  scalarOp tile 0x09 (fun t w => mod64 ((t.gr (fA w) : Int) + fImm14 w)) s
def execLi (tile : Nat) (s : State) : Host.Outcome State Fault Refusal :=
  scalarOp tile 0x0A (fun _ w => mod64 (fImm19 w)) s

/-! ### Loads and stores (R320 to R323) -/

/-- An aligned access of `len` bytes at g[a] + imm14: misaligned and out-of-range accesses are tile faults, and one in the
partner's slice waits for port B; `bad` marks an uncorrectable error of a read (R322, R352). -/
def access (s : State) (n w len : Nat) (write bad : Bool) (f : Nat → State → State) : State :=
  let a := mod64 (((s.tile n).gr (fA w) : Int) + fImm14 w)
  if a % len ≠ 0 then tileFault s n 0x42 a
  else if !(if write then tileWrites n a len else tileReads n a len) then tileFault s n 0x41 a
  else if portWaits s n a len then portAsk s n
  else
    let s1 := portLeave s n a len
    if bad && !write then tileFault s1 n 0x44 a else f a s1

/-- A load of `len` bytes into g[d]. -/
def loadOp (tile op len : Nat) (bad : Bool) (s : State) : Host.Outcome State Fault Refusal :=
  let n := tile % 128
  .next (issue s tile op fun w s => access s n w len false bad fun a s =>
    advance s n ((s.tile n).setG (fD w) (s.readLE a len)))

/-- A store of the low `len` bytes of g[d]. -/
def storeOp (tile op len : Nat) (s : State) : Host.Outcome State Fault Refusal :=
  let n := tile % 128
  .next (issue s tile op fun w s => access s n w len true false fun a s =>
    let s1 := storeBytes s n a (toLE len ((s.tile n).gr (fD w)))
    advance s1 n (s1.tile n))

def execLd (tile : Nat) (bad : Bool) (s : State) : Host.Outcome State Fault Refusal := loadOp tile 0x10 8 bad s
def execLw (tile : Nat) (bad : Bool) (s : State) : Host.Outcome State Fault Refusal := loadOp tile 0x11 4 bad s
def execSt (tile : Nat) (s : State) : Host.Outcome State Fault Refusal := storeOp tile 0x12 8 s
def execSw (tile : Nat) (s : State) : Host.Outcome State Fault Refusal := storeOp tile 0x13 4 s

/-- FP32 values at an address. -/
def readF32s (s : State) (a n : Nat) : List F32 := (List.range n).map fun i => BitVec.ofNat 32 (s.readLE (a + 4 * i) 4)

def execVld (tile : Nat) (bad : Bool) (s : State) : Host.Outcome State Fault Refusal :=
  let n := tile % 128
  .next (issue s tile 0x14 fun w s => access s n w 256 false bad fun a s =>
    advance s n ((s.tile n).setV (fD w) (readF32s s a 64)))

def execVst (tile : Nat) (s : State) : Host.Outcome State Fault Refusal :=
  let n := tile % 128
  .next (issue s tile 0x15 fun w s => access s n w 256 true false fun a s =>
    let s1 := storeBytes s n a (((s.tile n).vr (fD w)).flatMap f32Bytes)
    advance s1 n (s1.tile n))

/-! ### Branches and jumps -/

/-- Branch where a condition on the two registers holds (format B: a in [12:8], b in [17:13]). -/
def branchOp (tile op : Nat) (c : Nat → Nat → Bool) (s : State) : Host.Outcome State Fault Refusal :=
  let n := tile % 128
  .next (issue s tile op fun w s =>
    let t := s.tile n
    s.setTile n { t with pc := pcAdd t.pc (if c (t.gr (fD w)) (t.gr (fA w)) then 4 * fImm14 w else 4) })

def execBeq (tile : Nat) (s : State) : Host.Outcome State Fault Refusal := branchOp tile 0x18 (fun x y => x == y) s
def execBne (tile : Nat) (s : State) : Host.Outcome State Fault Refusal := branchOp tile 0x19 (fun x y => x != y) s
def execBlt (tile : Nat) (s : State) : Host.Outcome State Fault Refusal :=
  branchOp tile 0x1A (fun x y => decide (signedOf x 64 < signedOf y 64)) s

def execJal (tile : Nat) (s : State) : Host.Outcome State Fault Refusal :=
  let n := tile % 128
  .next (issue s tile 0x1B fun w s =>
    let t := s.tile n
    s.setTile n { t.setG (fD w) (pcAdd t.pc 4) with pc := pcAdd t.pc (4 * fImm19 w) })

def execJr (tile : Nat) (s : State) : Host.Outcome State Fault Refusal :=
  let n := tile % 128
  .next (issue s tile 0x1C fun w s =>
    let t := s.tile n
    s.setTile n { t with pc := t.gr (fA w) % 2 ^ 17 })

/-- HALT: the tile enters HALTED; unit work in progress completes (R347). -/
def execHalt (tile : Nat) (s : State) : Host.Outcome State Fault Refusal :=
  let n := tile % 128
  .next (issue s tile 0x1E fun _ s => event0 (s.setTile n { s.tile n with st := .halted }) .til n 3)

/-! ### Receive channels (R332, R336) -/

/-- The oldest record of a channel, taken off its queue. -/
def takeRec (t : Tile) (c : Nat) : Option (Nat × Tile) :=
  match SMap.get t.recs [] c with
  | [] => none
  | r :: rest => some (r, { t with recs := SMap.set t.recs [] c rest })

/-- POLL (R336, R342). -/
def execPoll (tile : Nat) (s : State) : Host.Outcome State Fault Refusal :=
  let n := tile % 128
  .next (issue s tile 0x42 fun w s =>
    match takeRec (s.tile n) (fB w) with
    | some (r, t) => advance s n (t.setG (fD w) r)
    | none => advance s n ((s.tile n).setG (fD w) 0))

/-! ### Waits (R319, R342) -/

/-- Release a tile's wait where its condition holds. -/
def waitDone (s : State) (n : Nat) : State :=
  let t := s.tile n
  match t.wait with
  | none => s
  | some (.cc v b) => if !b ∧ v ≤ s.time.cc then advance s n { t with wait := none } else s
  | some (.recv d c v) =>
    match takeRec t c with
    | some (r, t1) => advance s n { t1.setG d r with wait := none }
    | none => if v ≤ s.time.cc then advance s n { t.setG d 0 with wait := none } else s
  | some .fence => if t.blocks.isEmpty && (t.fens.filter (!·.direct)).isEmpty then advance s n { t with wait := none } else s
  | some (.port m) => if (s.pb m).holder.any (·.src == n) then s.setTile n { t with wait := none } else s

/-- WAITCC: with fn[0] the wait first lets the next boundary pass. -/
def execWaitcc (tile : Nat) (s : State) : Host.Outcome State Fault Refusal :=
  let n := tile % 128
  .next (issue s tile 0x1D fun w s =>
    let t := s.tile n
    waitDone (s.setTile n { t with wait := some (.cc (t.gr (fA w)) (decide (fFn w % 2 = 1))) }) n)

/-- RECV: a record, or 0 at the deadline (R336). -/
def execRecv (tile : Nat) (s : State) : Host.Outcome State Fault Refusal :=
  let n := tile % 128
  .next (issue s tile 0x41 fun w s =>
    let t := s.tile n
    waitDone (s.setTile n { t with wait := some (.recv (fD w) (fB w) (t.gr (fA w))) }) n)

/-- FENCE (R323). -/
def execFence (tile : Nat) (s : State) : Host.Outcome State Fault Refusal :=
  let n := tile % 128
  .next (issue s tile 0x4A fun _ s => waitDone (s.setTile n { s.tile n with wait := some .fence }) n)

/-- A tile's wait ends: its condition holds, or time reaches the cc that it waits for within this tick. -/
def execWaitRelease (tile : Nat) (s : State) : Host.Outcome State Fault Refusal :=
  let n := tile % 128
  let t := s.tile n
  let until_ := match t.wait with
    | some (.cc v false) => if v < s.lcc then v else 0
    | some (.recv _ c v) => if (takeRec t c).isSome ∨ s.lcc ≤ v then 0 else v
    | _ => 0
  if t.st = .running ∧ t.wait.isSome then .next (waitDone (s.ccTo until_) n) else .next s

/-! ### CSRs (R340) -/

/-- The value of a CSR, where it is listed. -/
def csrRead (s : State) (n c : Nat) : Option Nat :=
  let t := s.tile n
  if c = 0 then some n else if c = 1 then some (s.time.tick % 2 ^ 48) else if c = 2 then some s.time.cc else if c = 3 then some t.mode
  else if c = 4 then some (privBase n) else if c = 5 then some (privBase n + 0x40000) else if c = 6 then some (gatherBase n)
  else if c = 7 then some (sliceBase n) else if c = 8 then some (unitsBusy t + min 255 (t.fens.filter (!·.direct)).length * 256)
  else if c = 0x10 then some t.fenStat
  else if 0x20 ≤ c ∧ c < 0x30 then some (SMap.get t.chBase 0 (c - 0x20))
  else if 0x30 ≤ c ∧ c < 0x40 then some (SMap.get t.chSize 15 (c - 0x30))
  else if 0x40 ≤ c ∧ c < 0x50 then some (SMap.get t.chRd 0 (c - 0x40))
  else if 0x50 ≤ c ∧ c < 0x60 then some (SMap.get t.chWr 0 (c - 0x50))
  else none

/-- CSRR; an unlisted CSR is a tile fault (R352). -/
def execCsrr (tile : Nat) (s : State) : Host.Outcome State Fault Refusal :=
  let n := tile % 128
  .next (issue s tile 0x48 fun w s =>
    match csrRead s n (fCsr w) with
    | some v => advance s n ((s.tile n).setG (fD w) v)
    | none => tileFault s n 0x43 (fCsr w))

/-- Write a CSR: the read-only ones ignore it. -/
def csrWrite (t : Tile) (c v : Nat) : Tile :=
  if 0x20 ≤ c ∧ c < 0x30 then { t with chBase := SMap.set t.chBase 0 (c - 0x20) v }
  else if 0x30 ≤ c ∧ c < 0x40 then { t with chSize := SMap.set t.chSize 15 (c - 0x30) (v % 16) }
  else if 0x40 ≤ c ∧ c < 0x50 then { t with chRd := SMap.set t.chRd 0 (c - 0x40) v }
  else t

/-- CSRW. -/
def execCsrw (tile : Nat) (s : State) : Host.Outcome State Fault Refusal :=
  let n := tile % 128
  .next (issue s tile 0x49 fun w s =>
    if (csrRead s n (fCsr w)).isSome then advance s n (csrWrite (s.tile n) (fCsr w) ((s.tile n).gr (fA w)))
    else tileFault s n 0x43 (fCsr w))

/-! ### Vector arithmetic (R342, R168) -/

/-- A NaN whose sign and payload no rule gives (assumption 3): lane `k` of the current draw. -/
def freeNaN (s : State) (k : Nat) : F32 := BitVec.ofNat 32 (Config.freeValue (s.fresh + k)).toNat ||| 0x7FC00000#32

/-- A vector result with free NaNs in place of its NaN lanes; the draw counter moves past its lanes. -/
def putV (s : State) (n d : Nat) (v : List F32) : State :=
  let v1 := v.zipIdx.map fun x => if f32IsNaN x.1 then freeNaN s x.2 else x.1
  advance { s with fresh := s.fresh + 64 } n ((s.tile n).setV d v1)

def execVadd (tile : Nat) (s : State) : Host.Outcome State Fault Refusal :=
  let n := tile % 128
  .next (issueV s tile 0x20 fun w s => putV s n (fD w) (List.zipWith f32Add ((s.tile n).vr (fA w)) ((s.tile n).vr (fB w))))

def execVmul (tile : Nat) (s : State) : Host.Outcome State Fault Refusal :=
  let n := tile % 128
  .next (issueV s tile 0x21 fun w s => putV s n (fD w) (List.zipWith f32Mul ((s.tile n).vr (fA w)) ((s.tile n).vr (fB w))))

def execVfma (tile : Nat) (s : State) : Host.Outcome State Fault Refusal :=
  let n := tile % 128
  .next (issueV s tile 0x22 fun w s =>
    let t := s.tile n
    putV s n (fD w) (List.zipWith (fun xy z => f32Fma xy.1 xy.2 z) (List.zip (t.vr (fA w)) (t.vr (fB w))) (t.vr (fC w))))

/-- The greater lane; equal operands give the first, and a NaN gives 0x7FC0_0000. -/
def maxLane (x y : F32) : F32 := if f32IsNaN x || f32IsNaN y then f32NaN else if f32Lt x y then y else x

def execVmax (tile : Nat) (s : State) : Host.Outcome State Fault Refusal :=
  let n := tile % 128
  .next (issueV s tile 0x23 fun w s =>
    advance s n ((s.tile n).setV (fD w) (List.zipWith maxLane ((s.tile n).vr (fA w)) ((s.tile n).vr (fB w)))))

/-- exp2 of a lane; a lane above zero, or a NaN, gives 0x7FC0_0000. -/
def exp2Lane (x : F32) : F32 := if f32IsNaN x || f32Lt f32Zero x then f32NaN else f32Exp2 x

def execVexp2 (tile : Nat) (s : State) : Host.Outcome State Fault Refusal :=
  let n := tile % 128
  .next (issueV s tile 0x24 fun w s => advance s n ((s.tile n).setV (fD w) (((s.tile n).vr (fA w)).map exp2Lane)))

def execVbcast (tile : Nat) (s : State) : Host.Outcome State Fault Refusal :=
  let n := tile % 128
  .next (issueV s tile 0x25 fun w s =>
    advance s n ((s.tile n).setV (fD w) (List.replicate 64 (BitVec.ofNat 32 ((s.tile n).gr (fA w))))))

/-- FP32 to int32 toward zero, saturating; `none` for a NaN. -/
def toInt32 (x : F32) : Option Int :=
  if f32IsNaN x then none
  else if f32IsInf x then some (if f32Neg? x then -2 ^ 31 else 2 ^ 31 - 1)
  else
    let i := if f32Neg? x then -(exFloor (f32Ex x).neg) else exFloor (f32Ex x)
    some (max (-2 ^ 31) (min (2 ^ 31 - 1) i))

/-- One lane of VCVT: the value, or free bits where no rule gives it: the high half of fn 0, a NaN, an fn above 3. -/
def cvtLane (fn : Nat) (x : F32) (free : BitVec 32) : F32 :=
  if fn = 0 then
    if f32IsNaN x then free
    else
      let big := if f32Neg? x then 0xFF7F else 0x7F7F
      let lo := if f32IsInf x then big else (quantElem fmtBf16 (f32Ex x)).1
      BitVec.ofNat 32 (lo + free.toNat / 65536 * 65536)
  else if fn = 1 then bf16ToF32 (x.toNat % 65536)
  else if fn = 2 then
    let i := signedOf x.toNat 32
    fp32 (.fin (decide (i < 0)) i.natAbs 0)
  else if fn = 3 then
    match toInt32 x with
    | some i => BitVec.ofNat 32 (ofSigned i 32)
    | none => free
  else free

def execVcvt (tile : Nat) (s : State) : Host.Outcome State Fault Refusal :=
  let n := tile % 128
  .next (issueV s tile 0x26 fun w s =>
    let lane := fun (x : F32 × Nat) => cvtLane (fVfn w) x.1 (BitVec.ofNat 32 (Config.freeValue (s.fresh + x.2)).toNat)
    advance { s with fresh := s.fresh + 64 } n ((s.tile n).setV (fD w) (((s.tile n).vr (fA w)).zipIdx.map lane)))

/-! ### Booking lists as a tile reads them (R349) -/

/-- Address of entry i of tile n's booking list. -/
def bookEntry (n i : Nat) : Nat := privBase n + 0x20040 + 32 * i

/-- Entry i of the list in force is of kind `kind`. -/
def bookIs (s : State) (n i kind : Nat) : Bool :=
  let h := privBase n + 0x20000
  decide (s.readLE h 8 = s.time.tick % 2 ^ 48) && decide (i < s.readLE (h + 8) 2) && s.byte (bookEntry n i + 8) == kind

/-- The request slot that entry i of tile n's list serves. -/
def entrySlot (s : State) (n i : Nat) : Nat := rSlot (s.readLE (bookEntry n i + 12) 4)

/-- A SEND or HANDOFF that comes after its entry's start is refused with LATE, and leaves its item unfinished (R350). -/
def slotMissed (s : State) (n i : Nat) : State :=
  event (lose (s.count (Reg.TIL_SLOTMISS n)) (entrySlot s n i)) .til n 4 { status := stLATE }

/-- Step past an instruction that leaves its issue status in g[d] (R343). -/
def issued (s : State) (n w st : Nat) : State := advance s n ((s.tile n).setG (fD w) st)

/-! ### SEND and HANDOFF (R334, R335, R350) -/

/-- An instruction reads `len` bytes at `a` to send them: it waits for port B of the partner's slice, and an uncorrectable error is a tile
fault (R322, R352). -/
def srcRead (s : State) (n a len : Nat) (bad : Bool) (f : List Nat → State → State) : State :=
  if portWaits s n a len then portAsk s n
  else if bad then tileFault (portLeave s n a len) n 0x44 a
  else f (s.readBytes a len) (portLeave s n a len)

/-- A booked SEND: injected at its entry's start, refused after it. The booked transfer of that entry is then the program's. While the routers
are disabled the tile waits (R30). -/
def sendBooked (s0 s : State) (n w src e : Nat) (bad : Bool) : State :=
  let a := bookEntry n e
  let f := s.readLE (a + 10) 2
  let dst := s.byte (a + 16)
  let start := s.readLE a 4
  if !bookIs s n e 0x09 then issued s n w stMALFORMED
  else if !tileReads n src (64 * f) then issued s n w stMALFORMED
  else if start < s.time.cc then issued (slotMissed s n e) n w stLATE
  else if !s.up .msh 0 then s0
  else srcRead s n src (64 * f) bad fun data s =>
    let mine := fun (x : Xfer) => x.src == n && x.dst == dst && x.start == start
    let tp := { s.tpl with xfers := s.tpl.xfers.map fun x => if mine x then { x with sent := true } else x }
    issued { s with tpl := tp, direct := s.direct ++ [⟨n, dst, s.readLE (a + 24) 8, data, start, entrySlot s n e⟩] } n w stOK

/-- An unbooked SEND on VC1. -/
def sendFree (s : State) (n w src word : Nat) (bad : Bool) : State :=
  let dst := word % 256
  let f := bitsOf word 26 16
  if dst < 144 ∧ 1 ≤ f ∧ f ≤ 1024 ∧ tileReads n src (64 * f) then
    srcRead s n src (64 * f) bad fun data s => issued (inject s ⟨n, dst, bitsOf word 11 8, bitsOf word 63 48, data, s.time.up⟩) n w stOK
  else issued s n w stMALFORMED

/-- SEND: from g[a] under the send word in g[b]. -/
def execSend (tile : Nat) (s : State) : Host.Outcome State Fault Refusal :=
  let n := tile % 128
  .next (issue s tile 0x40 fun w s1 =>
    let t := s1.tile n
    let word := t.gr (fB w)
    if bitOf word 12 then sendBooked s s1 n w (t.gr (fA w)) (bitsOf word 43 32) (readBad tile)
    else sendFree s1 n w (t.gr (fA w)) word (readBad tile))

/-- Rows and row statuses as a hand-off sends them: raw row records in memory at `a`, their output vectors under wire code `wc`
(R193, R194, R350). -/
def handoffBytes (s : State) (a rows d wc : Nat) : List Nat :=
  let rec_ := 4 * d + 8
  (List.range rows).flatMap (fun i => wireVec wc (readF32s s (a + rec_ * i) d) ++ s.readBytes (a + rec_ * i + 4 * d) 8)
    ++ s.readBytes (a + rec_ * rows) (8 * rows)

/-- HANDOFF of booking entry g[b][11:0], payload at g[a]: the bytes become the result that the node sends, and the booked item has
started (R350). -/
def execHandoff (tile : Nat) (s : State) : Host.Outcome State Fault Refusal :=
  let n := tile % 128
  .next (issue s tile 0x46 fun w s =>
    let t := s.tile n
    let e := t.gr (fB w) % 4096
    let b := bookEntry n e
    let slot := entrySlot s n e
    let r := s.reqAt slot
    let d := 32 * areqD32 r
    let rows := s.readLE (b + 10) 2
    if !bookIs s n e 0x07 || !tileReads n (t.gr (fA w)) (rows * (4 * d + 16)) then issued s n w stMALFORMED
    else if s.readLE b 4 < s.time.cc then issued (slotMissed s n e) n w stLATE
    else srcRead s n (t.gr (fA w)) (rows * (4 * d + 16)) (readBad tile) fun _ s =>
      let wc := if bitOf (s.byte (b + 9)) 1 then areqWire r else 0
      let run := fun (it : Item) => if it.kind = .handoff ∧ it.reqs = [slot] ∧ it.unit = .tile n ∧ it.st = .booked then { it with st := .running } else it
      let tp := { s.tpl with results := SMap.set s.tpl.results [] slot (handoffBytes s (t.gr (fA w)) rows d wc), items := s.tpl.items.map run }
      issued { s with tpl := tp } n w stOK)

/-! ### Fen accesses (R337, R338) -/

/-- FENRD and FENWR: `g[a]` the fen address, `g[b]` the local one. A full crown queue, or an isolated router on the way, stalls
the tile (R237, R335). -/
def fenOp (tile op : Nat) (write : Bool) (s : State) : Host.Outcome State Fault Refusal :=
  let n := tile % 128
  .next (issue s tile op fun w s0 =>
    let t := s0.tile n
    let f := t.gr (fA w)
    let l := t.gr (fB w)
    let len := 128 * (fFn w + 1)
    let ok := inFen f && decide (f % 128 = 0) && decide (l % 128 = 0) && decide (f % 65536 + len ≤ 65536)
      && (if write then tileReads n l len else tileWrites n l len)
    let ask := fun (data : List Nat) (s0 : State) =>
      let o : FenOp := { write := write, fen := f, local_ := l, bytes := len, data := data }
      let s1 := issued (s0.setTile n { s0.tile n with fens := (s0.tile n).fens ++ [o] }) n w stOK
      fenRequest s1 (addrStack f) (addrPc f) (if write then 1 else 0) n len
    if !ok then issued s0 n w stMALFORMED
    else if routeBlocked s0 n (128 + addrStack f) || crownFull s0 (addrStack f) (addrPc f) then s
    else if write then srcRead s0 n l len (readBad tile) ask
    else ask [] s0)

def execFenrd (tile : Nat) (s : State) : Host.Outcome State Fault Refusal := fenOp tile 0x44 false s
def execFenwr (tile : Nat) (s : State) : Host.Outcome State Fault Refusal := fenOp tile 0x45 true s

/-- MODEQ: the READY word of a stack (R236, R338). -/
def execModeq (tile : Nat) (s : State) : Host.Outcome State Fault Refusal :=
  let n := tile % 128
  .next (issue s tile 0x43 fun w s0 =>
    let t := s0.tile n
    let port := 128 + t.gr (fA w) % 8
    if routeBlocked s0 n port || routeBlocked s0 port n then s
    else advance s0 n (t.setG (fD w) (s0.rg (Reg.FEN_CH_READY (t.gr (fA w) % 8)))))

end Sys2Proof.Machine
end

