-- ==== Sys2Proof/Machine/BlockOps.lean ====
section
/-!
DEFINITION. Block operations of a tile (spec/12, R343 to R345): their descriptors and checks at issue, and what their units
write when they complete.
-/

namespace Sys2Proof.Machine

/-! ### Checks at issue (R343, R344) -/

/-- A page geometry that the node stores. -/
def geoOk (g : Geo) : Bool :=
  decide (g.code ≤ 4) && legalD g.d && (g.kvh == 1 || g.kvh == 2 || g.kvh == 4 || g.kvh == 8) && decide (g.t ≠ 0) && decide (g.t = pageLen g.code g.d g.kvh)

/-- A frame that a block operation may name: a whole frame in the tile's reach, or, for PAGE, a fen frame location. -/
def frameOk (n a : Nat) (fen : Bool) : Bool :=
  decide (a % 65536 = 0) && (tileReads n a 65536 || (fen && inFen a))

/-- Address, length and form checks of an operation at issue (R343). `acc` is the b field of the instruction. A rotation has d = 2^λ (R150;
DEDUCED, assumption 113). -/
def blockOk (n op acc : Nat) (b : BlkDesc) : Bool :=
  let a4 := fun (a : Nat) => decide (a % 4 = 0)
  let heads := b.kvh == 1 || b.kvh == 2 || b.kvh == 4 || b.kvh == 8
  let form :=
    if op = 0x30 then decide (acc < 8) && a4 b.src && a4 b.aux
    else if op = 0x31 then decide (b.code ≤ 7) && a4 b.dst
    else if op = 0x32 then (decide (b.code ≤ 4) || b.code == 7) && a4 b.src && (decide (scaleBytes b.code b.n = 0) || decide (b.n % 32 = 0))
    else if op = 0x33 then legalD b.d && decide (2 ^ Nat.log2 b.d = b.d) && a4 b.src
    else if op = 0x34 then (decide (b.code ≤ 4) || b.code == 7) && legalD b.d && heads && frameOk n b.dst false
    else if op = 0x35 then decide (1 ≤ b.count) && (decide (b.code ≤ 4) || b.code == 7) && legalD b.d && a4 b.src && a4 b.dst
    else if op = 0x36 then legalD b.d && a4 b.src && a4 b.dst
    else if op = 0x37 then legalD b.d && heads && a4 b.src && frameOk n b.aux false && a4 b.dst
    else if op = 0x38 then geoOk b.geo && decide (b.count ≤ b.t) && a4 b.src && frameOk n b.aux true && a4 b.dst
    else true
  form && (op == 0x34 || decide (1 ≤ b.n) || op == 0x4B)
    && ((blockReads op b).all fun r => tileReads n r.1 r.2 || (op == 0x38 && r.1 == b.aux && inFen b.aux))
    && (blockWrites op b).all fun r => tileWrites n r.1 r.2

/-- The planner has booked the read of the page at `a` for tile n at this cc (R209, R322). -/
def readBooked (s : State) (n a : Nat) : Bool := s.tpl.items.any fun it => readsNow s n it == some a

/-- A block operation reaches into the partner's slice with no booked read that holds port B for it (R322). -/
def blockFar (s : State) (n op : Nat) (b : BlkDesc) : Bool :=
  ((blockReads op b ++ blockWrites op b).any fun r => tileRange n r.1 r.2 == some 3) && !(op == 0x38 && readBooked s n b.aux)

/-- The tile holds port B of its partner's slice, from now unless it held it before (R322). -/
def portTake (s : State) (n : Nat) : State :=
  let m := Nat.xor n 1
  if (s.pb m).holder.isNone then s.setPb m { s.pb m with holder := some ⟨n, s.time.up⟩ } else s

/-- A block operation starts on its units, holding port B where it reaches into the partner's slice and no booking holds it for the tile
(R322). It waits while a unit is busy (R343). `s` is the state where it cannot issue yet. -/
def blockStart (s s0 : State) (n w op : Nat) (bytes : List Nat) : State :=
  let b := blkDesc bytes
  let t := s0.tile n
  let far := blockFar s0 n op b
  if Nat.land (unitsBusy t) (opUnits op) ≠ 0 then s
  else if !blockOk n op (fB w) b then issued s0 n w stMALFORMED
  else if far && !portFree s0 n then portAsk s0 n
  else
    let s1 := s0.setTile n { t with blocks := t.blocks ++ [⟨op, fD w, fB w, bytes, false, far⟩] }
    let s2 := if far then portTake s1 n else s1
    let s3 := issued s2 n w stOK
    if op = 0x38 ∧ inFen b.aux then fenRequest s3 (addrStack b.aux) (addrPc b.aux) 0 n 65536 else s3

/-- Issue a block operation (R343, R344): its descriptor is read, and it is refused with MALFORMED in g[d], waits, or starts.
-/
def blockIssue (tile op : Nat) (s : State) : Host.Outcome State Fault Refusal :=
  let n := tile % 128
  .next (issue s tile op fun w s0 =>
    let a := (s0.tile n).gr (fA w)
    if !(decide (a % 64 = 0) && decide (privBase n + 0x40000 ≤ a) && decide (a + 64 ≤ privBase n + 0x180000)) then issued s0 n w stMALFORMED
    else if readBad tile then tileFault s0 n 0x44 a
    else blockStart s s0 n w op (s0.readBytes a 64))

def execMmac (tile : Nat) (s : State) : Host.Outcome State Fault Refusal := blockIssue tile 0x30 s
def execExpand (tile : Nat) (s : State) : Host.Outcome State Fault Refusal := blockIssue tile 0x31 s
def execQuant (tile : Nat) (s : State) : Host.Outcome State Fault Refusal := blockIssue tile 0x32 s
def execRot (tile : Nat) (s : State) : Host.Outcome State Fault Refusal := blockIssue tile 0x33 s
def execSketch (tile : Nat) (s : State) : Host.Outcome State Fault Refusal := blockIssue tile 0x34 s
def execScore (tile : Nat) (s : State) : Host.Outcome State Fault Refusal := blockIssue tile 0x35 s
def execMerge (tile : Nat) (s : State) : Host.Outcome State Fault Refusal := blockIssue tile 0x36 s
def execBound (tile : Nat) (s : State) : Host.Outcome State Fault Refusal := blockIssue tile 0x37 s
def execPage (tile : Nat) (s : State) : Host.Outcome State Fault Refusal := blockIssue tile 0x38 s

/-- BCOPY of 128 × (flags + 1) bytes from g[a] to g[b] on the copier. -/
def execBcopy (tile : Nat) (s : State) : Host.Outcome State Fault Refusal :=
  let n := tile % 128
  .next (issue s tile 0x4B fun w s0 =>
    let t := s0.tile n
    blockStart s s0 n w 0x4B (toLE 8 (t.gr (fA w)) ++ toLE 8 (t.gr (fB w)) ++ toLE 8 (128 * (fFn w + 1))))

/-! ### What the units compute (R345) -/

/-- Write FP32 values at an address. -/
def writeF32s (s : State) (a : Nat) (v : List F32) : State := s.writeBytes a (v.flatMap f32Bytes)

/-- The accumulator after MMAC: products exact, sums by the tree of R172, then one addition to the accumulator. -/
def mmacAcc (s : State) (b : BlkDesc) (old : List F32) : List F32 :=
  let rows := readF32s s b.src (64 * b.n)
  let cols := readF32s s b.aux (64 * b.n)
  (List.range 4096).map fun k =>
    let i := k / 64
    let j := k % 64
    let ts := (List.range b.n).map fun x => (f32Ex (rows.getD (i * b.n + x) f32Zero)).mul (f32Ex (cols.getD (x * 64 + j) f32Zero))
    f32Add (if b.flags % 2 = 1 then f32Zero else old.getD k f32Zero) (dotTree .near ts)

/-- Element `i` of a run of codes at `a` with scales at `sa`, decoded (R149, R169); an E5M2 infinity or NaN is a free value. -/
def expandElem (s : State) (code a sa i : Nat) : F32 :=
  if code = 5 then
    let c := s.byte (a + i)
    if 0x7B < c % 128 then BitVec.ofNat 32 (Config.freeValue (s.fresh + i)).toNat else satF32 (decodeElem fmtE5M2 c)
  else if code = 6 then satF32 (decodeElem fmtE3M2 (elemAt s.byte a i 6))
  else if code = 7 then BitVec.ofNat 32 (s.readLE (a + 4 * i) 4)
  else
    let c := elemAt s.byte a i (elemBits code)
    if hasScale code then satF32 (scaledElem (codeFmt code) c (s.byte (sa + i / 32))) else satF32 (decodeElem (codeFmt code) c)

/-- Quantized codes and scale bytes of a run; a value that is not finite makes free codes, with its group's scale. -/
def quantRun (s : State) (code : Nat) (vs : List F32) : List Nat × List Nat :=
  let e := elemBits code
  let free := fun (i w : Nat) => (Config.freeValue (s.fresh + i)).toNat % 2 ^ w
  if code = 7 then (vs.map (·.toNat), [])
  else if hasScale code then
    let gs := (groupsOf 32 vs.length vs).zipIdx.map fun x =>
      if x.1.all f32Finite then
        let q := quantGroup (codeFmt code) x.1
        (q.1, q.2.1)
      else (free (33 * x.2 + 32) 8, (List.range x.1.length).map fun i => free (33 * x.2 + i) e)
    (gs.flatMap (·.2), gs.map (·.1))
  else (vs.zipIdx.map fun x => if f32Finite x.1 then (quantElem (codeFmt code) (f32Ex x.1)).1 else free x.2 e, [])

/-- A partial in row-record layout: O, m, l (R193). -/
def readPart (s : State) (a d : Nat) : Part :=
  let m := BitVec.ofNat 32 (s.readLE (a + 4 * d) 4)
  ⟨m, BitVec.ofNat 32 (s.readLE (a + 4 * d + 4) 4), readF32s s a d, f32IsNaN m⟩
def writePart (s : State) (a d : Nat) (p : Part) : State := writeF32s (writeF32s s a p.o) (a + 4 * d) [p.m, p.l]

/-- The i-th row that BOUND and PAGE work on: position and head of the row table, and its query (R344). -/
def blkRow (s : State) (b : BlkDesc) (i : Nat) : Row :=
  let e := s.readLE (b.pos + 4 * i) 4
  ⟨b.sigma, b.window, b.pre, b.l0, e % 2 ^ 24, bitsOf e 26 24, readF32s s (b.src + 4 * b.d * i) b.d⟩

/-- The frame that BOUND and PAGE work on. -/
def blkPage (s : State) (b : BlkDesc) : PageView := ⟨fun o => s.byte (b.aux + o), b.count, true⟩

/-- The results of a block operation (R345), with the draw counter moved past the free values it may use. -/
def blockRun (s : State) (n : Nat) (o : BlockOp) : State :=
  let b := blkDesc o.desc
  if o.op = 0x30 then
    let t := s.tile n
    s.setTile n (t.setA (o.acc % 8) (mmacAcc s b (t.ar (o.acc % 8))))
  else if o.op = 0x31 then
    writeF32s { s with fresh := s.fresh + b.n } b.dst ((List.range b.n).map (expandElem s b.code b.src b.aux))
  else if o.op = 0x32 then
    let q := quantRun s b.code (readF32s s b.src b.n)
    ({ s with fresh := s.fresh + 2 * b.n }.writeBytes b.dst (packCodes (codeBits b.code) q.1)).writeBytes b.aux q.2
  else if o.op = 0x33 then
    let seed := BitVec.ofNat 64 (s.readLE b.aux 8)
    (List.range b.n).foldl (fun s i =>
      let a := b.src + 4 * b.d * i
      let v := readF32s s a b.d
      writeF32s s a (if b.flags % 2 = 1 then unrotate seed v else rotate seed v)) s
  else if o.op = 0x34 then
    let x := b.kvh * b.d
    let keys := (List.range x).map (expandElem s b.code b.src b.aux)
    let rd := fun o => s.byte (b.dst + o)
    if !(readHdr rd).skValid then s
    else match sketchToken x (decide (b.count = 0)) (readSketch rd x) keys with
      | some gs => s.writeBytes (b.dst + 32) (sketchBytes x gs)
      | none => s.writeBytes b.dst (hdrBytes { readHdr rd with skValid := false })
  else if o.op = 0x35 then
    let key := fun (k : Nat) => (List.range b.d).map fun i => expandElem s b.code b.aux 0 (k * b.d + i)
    let out := (List.range b.n).flatMap fun i =>
      (List.range b.count).map fun k =>
        if hasScale b.code && b.code != 7 then BitVec.ofNat 32 (Config.freeValue (s.fresh + i * b.count + k)).toNat
        else score b.sigma (readF32s s (b.src + 4 * b.d * i) b.d) (key k)
    writeF32s { s with fresh := s.fresh + b.n * b.count } b.dst out
  else if o.op = 0x36 then
    (List.range b.n).foldl (fun s i =>
      let z := 4 * b.d + 8
      writePart s (b.dst + z * i) b.d ((readPart s (b.dst + z * i) b.d).merge (readPart s (b.src + z * i) b.d))) s
  else if o.op = 0x37 then
    writeF32s s b.dst ((List.range b.n).map fun i => scoreUB ⟨0, b.d, b.kvh, 0⟩ (blkPage s b) (blkRow s b i))
  else if o.op = 0x38 then
    let z := 4 * b.d + 8
    let parts := (List.range b.n).map fun i => pagePartAt b.geo (blkPage s b) b.base (blkRow s b i)
    let ubs := (List.range b.n).map fun i => scoreUB b.geo (blkPage s b) (blkRow s b i)
    let s1 := parts.zipIdx.foldl (fun s x => writePart s (b.dst + z * x.2) b.d x.1) s
    if b.flags % 2 = 1 then writeF32s s1 (b.dst + z * b.n) ubs else s1
  else s.writeBytes b.dst (s.readBytes b.src b.aux)

/-- What a torn operation leaves: free values where its result would stand (R323). -/
def blockTorn (s : State) (n : Nat) (o : BlockOp) : State :=
  let s1 := (blockWrites o.op (blkDesc o.desc)).foldl (fun s r => freeFill s r.1 r.2) s
  if o.op = 0x30 then
    { s1 with fresh := s1.fresh + 4096 }.setTile n
      ((s1.tile n).setA (o.acc % 8) ((List.range 4096).map fun k => BitVec.ofNat 32 (Config.freeValue (s1.fresh + k)).toNat))
  else s1

/-- A block operation leaves its units, and port B where it held it. -/
def blockLeave (s : State) (n i : Nat) : State :=
  let t := s.tile n
  let s1 := s.setTile n { t with blocks := t.blocks.eraseIdx i }
  if (t.blocks[i]?).any (·.port) then portLeave s1 n (sliceBase (Nat.xor n 1)) 1 else s1

/-- The block operation at place `i` of a tile completes; `bad`: 0 no error, 1 an uncorrectable error in an operand, 2 a unit's own
error (R343, R352). An error of a PAGE's read of fen fails the access: it is recorded there, and nothing is written (R248, R506). -/
def execBlockOpComplete (tile i bad : Nat) (s : State) : Host.Outcome State Fault Refusal :=
  let n := tile % 128
  let t := s.tile n
  match t.blocks[i]? with
  | none => .next s
  | some o =>
    let b := blkDesc o.desc
    let waits := o.op == 0x38 && inFen b.aux && fenPending s (addrStack b.aux) (addrPc b.aux) n
    if waits ∨ s.clocksStopped ∨ ¬ (t.st = .running ∨ t.st = .halted) then .next s
    else if bad = 1 ∧ o.op = 0x38 ∧ inFen b.aux then .next (fenFault (blockLeave s n i) (addrStack b.aux) b.aux 0)
    else if bad = 1 then .next (tileFault s n 0x44 b.src)
    else if bad = 2 then .next (tileFault s n 0x45 (opUnits o.op))
    else if o.torn then .next (blockTorn (blockLeave s n i) n o)
    else .next (blockRun (blockLeave s n i) n o)

end Sys2Proof.Machine
end

