-- ==== Sys2Proof/Machine/Ports.lean ====
section
/-!
DEFINITION. Ethernet ports, control rings and network time (spec/13, R356 to R376): which frames a port accepts and where they
go, the rings' slots, links, node time and its slewing, holdover, PTP, PPS_IN, SYNC_IN and PPS_OUT, and the management ports.
-/

namespace Sys2Proof.Machine

/-! ### Node time (R363) -/

/-- Node time in units of 125 ps. -/
def State.nodeTime (s : State) : Nat := (s.ptp.base + 5 * s.time.up).toNat

/-- Node time as it stood at the start of this cc, which a timestamp or an input's edge captures: a step written in the same cc comes
after it (R371). -/
def State.stampTime (s : State) : Nat :=
  if s.ptp.stepAt = s.time.up + 1 then (s.ptp.stepBase + 5 * s.time.up).toNat else s.nodeTime

/-- Seconds, nanoseconds and fraction of a node time. -/
def timeSec (t : Nat) : Nat := t / 8000000000 % 2 ^ 48
def timeNs (t : Nat) : Nat := t / 8 % 1000000000
def timeFrac (t : Nat) : Nat := t % 8 * 8192

/-! ### Slewing (R365) -/

/-- PTP_SLEW_RATE; 0 acts as 1, and a value above 50,000 acts as 50,000. -/
def slewRate (s : State) : Nat := max 1 (min 50000 (s.fld Reg.PTP_SLEW_RATE 15 0))

/-- The rate at which the slew moves node time, in units of 2^−8 ppb: PTP_SLEW_RATE, as far as PTP_FREQ and the slew together stay within
±100 ppm (R363). -/
def slewSpeed (s : State) : Nat :=
  let freq := signedOf (s.rg Reg.PTP_FREQ) 32
  let slew : Int := if s.ptp.slewNeg then -(256 * slewRate s : Nat) else (256 * slewRate s : Nat)
  (max (-25600000) (min 25600000 (freq + slew)) - freq).natAbs

/-- What remains of the slew, in units of 125 ps × 10^9 × 2^8. -/
def slewLeft (s : State) : Nat := s.ptp.slewRem - 5 * (s.time.up - s.ptp.slewAt) * slewSpeed s

/-- PTP_SLEW as it reads: the nanoseconds still to be moved. -/
def slewWord (s : State) : Nat :=
  let n := ceilDiv (slewLeft s) 2048000000000
  ofSigned (if s.ptp.slewNeg then -(n : Int) else n) 32

/-- The slew's account is brought up to now, before its rate, its value or PTP_FREQ changes. -/
def slewBook (s : State) : State := { s with ptp := { s.ptp with slewRem := slewLeft s, slewAt := s.time.up } }

/-- PTP_SLEW is written (R365). -/
def execPtpSlewWrite (value : Nat) (s : State) : Host.Outcome State Fault Refusal :=
  let v := signedOf value 32
  let s1 := { s with ptp := { s.ptp with slewNeg := decide (v < 0), slewRem := v.natAbs * 2048000000000, slewAt := s.time.up } }
  .next ((s1.setRg Reg.PTP_SLEW (value % 2 ^ 32)).setFld Reg.PTP_STAT 1 1 (b2n (decide (v ≠ 0))))

/-- The remaining slew reaches zero (R365); with no rate left to it under the total limit it does not (R363). -/
def execSlewComplete (s : State) : Host.Outcome State Fault Refusal :=
  let u := s.ptp.slewAt + ceilDiv s.ptp.slewRem (5 * slewSpeed s)
  if !s.bit Reg.PTP_STAT 1 ∨ (slewSpeed s = 0 ∧ s.ptp.slewRem ≠ 0) then .next s
  else
    let done := fun (s : State) =>
      ({ s with ptp := { s.ptp with slewRem := 0, slewAt := s.time.up, slewNeg := false } }.setRg Reg.PTP_SLEW 0).setFld Reg.PTP_STAT 1 1 0
    match reachUp s u with
    | some s1 => .next (done s1)
    | none => .next s

/-- PTP_FREQ is written: clamped at ±25,600,000 (R363, R375). -/
def execPtpFreqWrite (value : Nat) (s : State) : Host.Outcome State Fault Refusal :=
  let v := max (-25600000) (min 25600000 (signedOf value 32))
  .next ((slewBook s).setRg Reg.PTP_FREQ (ofSigned v 32))

/-- Node time steps by a signed number of nanoseconds; where the tick counter runs it follows, and the numbering changes (R62,
R365). -/
def stepTime (s : State) (ns : Int) : State :=
  let old := if s.ptp.stepAt = s.time.up + 1 then s.ptp.stepBase else s.ptp.base
  let s1 := { s with ptp := { s.ptp with base := s.ptp.base + 8 * ns, stepAt := s.time.up + 1, stepBase := old } }
  if s.time.running then
    let l := 5 * s.lcc
    { s1 with time := { s1.time with tick := s1.nodeTime / l % 2 ^ 48, cc := s1.nodeTime % l / 5 }, tpl := { s1.tpl with renumber := true } }
  else s1

/-- A write of PTP_STEP_LO commits a step (R21): applied at once while the TPL is disabled, else refused (R365). -/
def execPtpStepWrite (value : Nat) (s : State) : Host.Outcome State Fault Refusal :=
  let s1 := s.setRg64 Reg.PTP_STEP_LO value
  if s.en .tpl 0 then .next (event0 s .ptp 0 6) else .next (stepTime s1 (signedOf value 64))

/-! ### Holdover (R366) -/

/-- Holdover begins: PTP_STAT.holdover and its event. -/
def holdoverStart (s : State) : State :=
  if s.bit Reg.PTP_STAT 0 then s else event0 (s.setFld Reg.PTP_STAT 0 0 1) .ptp 0 4

/-- Firmware writes PTP_SERVO.locked: clearing it begins holdover, setting it ends it. -/
def execServoLockWrite (locked : Bool) (s : State) : Host.Outcome State Fault Refusal :=
  let old := s.bit Reg.PTP_SERVO 0
  let s1 := s.setRg Reg.PTP_SERVO (b2n locked)
  let s2 := if old != locked then event0 s1 .ptp 0 3 else s1
  if locked then .next (s2.setFld Reg.PTP_STAT 0 0 0) else if old then .next (holdoverStart s2) else .next s2

/-- No PTP event message has come from the slave port for PTP_LOSS_TO ms. -/
def execPtpLossTimeout (s : State) : Host.Outcome State Fault Refusal :=
  let last := s.ptp.lastMsg - 1
  if s.en .ptp 0 && decide (last + 1600000 * s.fld Reg.PTP_LOSS_TO 15 0 ≤ s.time.up) then .next (holdoverStart s) else .next s

/-- Phase and frequency sources in force (R375). -/
def phaseSrc (s : State) : Nat := min 2 (s.fld Reg.PTP_CFG 17 16)
def freqSrc (s : State) : Nat := let v := s.fld Reg.PTP_CFG 19 18; if v = 3 then 0 else v

/-- An input is disqualified: its event, and holdover where it is the source selected (R366, R370). -/
def disqualify (s : State) (input flags : Nat) : State :=
  let s1 := event s .ptp 0 5 { i0 := input, i1 := flags }
  let sel := (input = 0 ∧ phaseSrc s = 1) ∨ (input = 1 ∧ freqSrc s = 2)
  if sel then holdoverStart s1 else s1

/-- The SyncE lane has CDR lock and its link is up; where it falls while selected, holdover begins (R375). -/
def synceTurn (s : State) : State :=
  let lane := s.fld Reg.PTP_CFG 25 20
  let n := lane / 8
  let k := lane % 8 / modeLanes (s.ethModeOf n)
  let ok := s.en .ptp 0 && s.en .eth n && s.bit (Reg.ETH_PSTAT n k) 0
  let was := s.bit Reg.PTP_STAT 8
  let s1 := s.setFld Reg.PTP_STAT 8 8 (b2n ok)
  if was && !ok && decide (freqSrc s = 1) then holdoverStart s1 else s1

/-- PTP_CFG is written (R364): sources are selected without a step of phase. -/
def execPtpCfgWrite (value : Nat) (s : State) : Host.Outcome State Fault Refusal :=
  .next (synceTurn (wordWrite s Reg.PTP_CFG value))

/-! ### PPS_IN, SYNC_IN and PPS_OUT (R370 to R372) -/

/-- The signed distance of a node time to its nearest whole second, in units of 125 ps, and that second. -/
def toSecond (t : Nat) : Nat × Nat :=
  let r := t % 8000000000
  if r < 4000000000 then (r, t / 8000000000) else (8000000000 - r, t / 8000000000 + 1)

/-- PPS_IN is judged bad by an edge: each ground is counted, it is no longer qualified, and where it was it is disqualified on all grounds
at once. -/
def ppsBad (s : State) (chatter oow : Bool) : State :=
  let was := s.bit Reg.PTP_STAT 2
  let s0 := if chatter then s.count Reg.PTP_PPS_CHATTER else s
  let s1 := if oow then s0.count Reg.PTP_PPS_OOW else s0
  let s2 := { s1.setFld Reg.PTP_STAT 2 2 0 with ptp := { s.ptp with edge := s.time.up + 1, ppsGood := 0 } }
  let s3 := if chatter then s2.setFld Reg.PTP_STAT 4 4 1 else s2
  if was then disqualify s3 0 (2 * b2n chatter + 4 * b2n oow) else s3

/-- A filtered rising edge on PPS_IN, stamped with node time (R370, R371). Before phase lock the window is not applied. -/
def execPpsInEdge (s : State) : Host.Outcome State Fault Refusal :=
  let t := s.stampTime
  let (dist, sec) := toSecond t
  let chatter := s.ptp.accepted != 0 && decide (s.time.up < s.ptp.accepted - 1 + 1440000000)
  let oow := s.bit Reg.PTP_SERVO 0 && decide (8 * s.fld Reg.PTP_PPS_WIN 15 0 < dist)
  if !s.en .ptp 0 then .next s
  else if chatter || oow then .next (ppsBad s chatter oow)
  else
    let good := if s.ptp.ppsGood ≠ 0 ∧ sec = s.ptp.ppsSec + 1 then s.ptp.ppsGood + 1 else 1
    let p := { s.ptp with accepted := s.time.up + 1, edge := s.time.up + 1, ppsGood := good, ppsSec := sec, edgeSec := timeSec t }
    let s2 := { s with ptp := p }.setRg Reg.PTP_PPS_TS_NS (timeNs t)
    if 4 ≤ good then .next ((s2.setFld Reg.PTP_STAT 2 2 1).setFld Reg.PTP_STAT 4 3 0) else .next s2

/-- No PPS_IN edge has come for 2.5 s: stuck at the level that the pin shows (R370). -/
def execPpsStuckTimeout (s : State) : Host.Outcome State Fault Refusal :=
  let last := s.ptp.edge - 1
  if s.en .ptp 0 && decide (last + 4000000000 ≤ s.time.up) then
    let was := s.bit Reg.PTP_STAT 2
    let s1 := { (s.draw.setFld Reg.PTP_STAT 2 2 0).setFld Reg.PTP_STAT 3 3 1 with ptp := { s.ptp with ppsGood := 0, stuckHigh := bitOf (s.free 1) 0 } }
    .next (if was then disqualify s1 0 1 else s1)
  else .next s

/-- A 100 ms window of SYNC_IN ends with `edges` counted (R370): within ±20 ppm of nominal, or stuck, or off frequency. -/
def execSyncWindowEnd (edges : Nat) (s : State) : Host.Outcome State Fault Refusal :=
  let nom := if s.bit Reg.PTP_SYNC_NOM 0 then 2500000 else 1000000
  let tol := nom * 20 / 1000000
  if !s.en .ptp 0 then .next s
  else if nom ≤ edges + tol ∧ edges ≤ nom + tol then
    let good := s.ptp.syncGood + 1
    let s1 := { s with ptp := { s.ptp with syncGood := min 3 good } }
    if 3 ≤ good then .next ((s1.setFld Reg.PTP_STAT 5 5 1).setFld Reg.PTP_STAT 7 6 0) else .next s1
  else
    let stuck := decide (edges = 0)
    let was := s.bit Reg.PTP_STAT 5
    let s1 := { (s.setFld Reg.PTP_STAT 5 5 0).setFld Reg.PTP_STAT 7 6 (if stuck then 1 else 2) with ptp := { s.ptp with syncGood := 0 } }
    .next (if was then disqualify s1 1 (if stuck then 1 else 8) else s1)

/-- PPS_OUT rises as node time crosses a whole second (R372). -/
def execPpsOutPulse (s : State) : Host.Outcome State Fault Refusal :=
  let u := s.time.up + ceilDiv (ceilDiv s.nodeTime 8000000000 * 8000000000 - s.nodeTime) 5
  if !(s.en .ptp 0 && s.bit Reg.PTP_PPS_OUT 31) || s.ptp.ppsOut then .next s
  else match reachUp s u with
    | some s1 => .next { s1 with ptp := { s1.ptp with ppsOut := true, rise := s1.time.up } }
    | none => .next s

/-- PPS_OUT falls after its high time (R372). -/
def execPpsOutFall (s : State) : Host.Outcome State Fault Refusal :=
  let ns := max 1 (min 999999999 (s.fld Reg.PTP_PPS_OUT 29 0))
  if !s.ptp.ppsOut then .next s
  else match reachUp s (s.ptp.rise + ceilDiv (8 * ns) 5) with
    | some s1 => .next { s1 with ptp := { s1.ptp with ppsOut := false } }
    | none => .next s

/-! ### Frame rings (R361, R362) -/

/-- Register set of a ring: the receive ring (0) or transmit ring (1) of ETH0 (port complex 0), MGT0 (1) or MGT1 (2). -/
def fringBase (k tx : Nat) : Nat :=
  (if k = 0 then Reg.ETH_RXR_BASE_LO else Reg.MGT_RXR_BASE_LO (k - 1)) + 0x20 * tx

/-- log2 of a ring's slots: 4 to 12, other values act as 4. -/
def fringLog2 (s : State) (a : Nat) : Nat :=
  let k := s.fld (a + 8) 3 0
  if 4 ≤ k ∧ k ≤ 12 then k else 4

/-- The ring is used: enabled, aligned and in peat or crown SRAM. -/
def fringOk (s : State) (a : Nat) : Bool :=
  let base := s.rg64 a
  s.bit (a + 8) 8 && inSram base && decide (base % (2048 * 2 ^ fringLog2 s a) = 0)

/-- Address of the slot of a free-running index. -/
def fringSlot (s : State) (a i : Nat) : Nat := s.rg64 a + 2048 * (i % 2 ^ fringLog2 s a)

/-- A receive ring takes a frame: it is used and not full (R362). -/
def puntTaken (s : State) (k : Nat) : Bool :=
  let a := fringBase k 0
  let used := (s.rg (a + 0x0C) + 2 ^ 32 - s.rg (a + 0x10)) % 2 ^ 32
  fringOk s a && decide (used < 2 ^ fringLog2 s a)

/-- A punted frame is written into a receive ring's next slot, or dropped and counted (R361, R362). `ts` is its timestamp in node
time, where it carries one. -/
def puntWrite (s : State) (k port kind vid : Nat) (ts : Option Nat) (frame : List Nat) : State :=
  let a := fringBase k 0
  let wr := s.rg (a + 0x0C)
  if puntTaken s k then
    let t := ts.getD 0
    let stamp := if ts.isSome then toLE 8 (timeSec t) ++ toLE 4 (timeNs t) ++ toLE 2 (timeFrac t) else List.replicate 14 0
    let head := toLE 2 frame.length ++ [port, kind] ++ toLE 2 (b2n ts.isSome) ++ toLE 2 vid ++ stamp ++ List.replicate 10 0
    (s.putBytes (fringSlot s a wr) (head ++ frame)).setRg (a + 0x0C) (wr + 1)
  else
    let s1 := s.count (a + 0x14)
    if k = 0 then event0 s1 .eth 0 5 else s1

/-! ### What a frame says (R359) -/

/-- A frame without its tag: VID where tagged, EtherType and the bytes behind it; `none` for an S-tag or more than one tag. -/
def frameTag (f : List Nat) : Option (Option Nat × Nat × List Nat) :=
  let et := beAt f 12 2
  if et = 0x88A8 then none
  else if et = 0x8100 then
    let et2 := beAt f 16 2
    if et2 = 0x8100 ∨ et2 = 0x88A8 then none else some (some (beAt f 14 2 % 4096), et2, f.drop 18)
  else some (none, et, f.drop 14)

/-- What an IP packet says: its destination address bytes, protocol and payload; `none` where it is no IPv4 or IPv6 packet. -/
def ipParts (et : Nat) (b : List Nat) : Option (List Nat × Nat × List Nat) :=
  if et = 0x0800 ∧ beAt b 0 1 / 16 = 4 then some ((b.drop 16).take 4, beAt b 9 1, b.drop (4 * (beAt b 0 1 % 16)))
  else if et = 0x86DD ∧ beAt b 0 1 / 16 = 6 then some ((b.drop 24).take 16, beAt b 6 1, b.drop 40)
  else none

/-- The node's IPv6 address, and its IPv4 address where it is used, as bytes in wire order (R438). -/
def nodeAddr6 (s : State) : List Nat := (List.range 4).flatMap fun k => toLE 4 (s.rg (Reg.FAB_ADDR6 k))
def nodeAddr4 (s : State) : Option (List Nat) := if s.bit Reg.FAB_ADDR_CFG 0 then some (toLE 4 (s.rg Reg.FAB_ADDR4)) else none

/-- An address is one of the node's. -/
def nodeAddrIs (s : State) (a : List Nat) : Bool := a == nodeAddr6 s || some a == nodeAddr4 s

/-- A MAC address as a number in wire order. -/
def macOf (f : List Nat) (o : Nat) : Nat := beAt f o 6

/-- A port's own MAC address. -/
def portMac (s : State) (n k : Nat) : Nat := s.rg (Reg.ETH_MAC_LO n) + s.fld (Reg.ETH_MAC_HI n) 15 0 * 2 ^ 32 + k

/-- Destinations a data port accepts (R359). -/
def macAccepted (own m : Nat) : Bool :=
  m == own || m == 0xFFFFFFFFFFFF || m == 0x0180C2000002 || m == 0x0180C200000E || m == 0x011B19000000 || m == 0x01005E000181
    || m == 0x01005E00006B || decide (m / 2 ^ 32 = 0x3333)

/-- Where an accepted frame goes. -/
inductive FrameWay where
  | itp
  | punt (kind : Nat)
  | drop
deriving DecidableEq, Repr

/-- The PTP message that a frame carries: EtherType 0x88F7, or UDP destination port 319 or 320 (R359, R367). -/
def ptpMessage (et : Nat) (b : List Nat) : Option (List Nat) :=
  if et = 0x88F7 then some b
  else match ipParts et b with
    | some (_, 17, p) => if beAt p 2 2 = 319 ∨ beAt p 2 2 = 320 then some (p.drop 8) else none
    | _ => none

/-- Whether a PTP message is punted as an event: Sync and Delay_Req. The Pdelay messages, types 2 and 3 among them, are punted like any
other general message (R359, R367; assumption 116). -/
def ptpEvent (m : List Nat) : Bool := decide (beAt m 0 1 % 16 ≤ 1)

/-- Rows 3 to 7 of R359. -/
def sortFrame (s : State) (et : Nat) (b : List Nat) : FrameWay :=
  let ip := ipParts et b
  let udp := match ip with
    | some (_, 17, p) => some (beAt p 2 2)
    | _ => none
  let mine := match ip with
    | some (a, _, _) => nodeAddrIs s a
    | none => false
  if mine && udp == some (s.fld Reg.ITP_UDP 15 0) then .itp
  else match ptpMessage et b with
  | some m => .punt (if ptpEvent m then 1 else 2)
  | none =>
    if et = 0x88CC then .punt 3
    else if et = 0x8809 then (if beAt b 0 1 = 0x0A then .punt 6 else .drop)
    else if et = 0x0806 then .punt 4
    else match ip with
      | some (_, p, _) => if et = 0x86DD ∧ p = 58 then .punt 5 else if mine then .punt 8 else .drop
      | none => .drop

/-- A frame dropped at a port: counted, rx_drop. -/
def rxDropFrame (s : State) (n : Nat) : State := event0 (s.count (Reg.ETH_RX_DROP n)) .eth n 4

/-- TLVs of an LLDPDU: type and value, at most `fuel`. -/
def lldpTlvs : Nat → List Nat → List (Nat × List Nat)
  | 0, _ => []
  | n + 1, b =>
    if b.length < 2 then []
    else
      let h := beAt b 0 2
      let len := h % 512
      (h / 512, (b.drop 2).take len) :: lldpTlvs n (b.drop (2 + len))

/-- A received Weaholt TLV whose tick length differs raises FAB_SKEW and posts the epoch event (R439). -/
def lldpCheck (s : State) (b : List Nat) : State :=
  let bad := (lldpTlvs 64 b).any fun x => x.1 == 127 && x.2.length == 18 && beAt x.2 0 3 == 0x0A5E71 && beAt x.2 3 1 == 1
    && beAt x.2 13 4 != s.rg Reg.TPL_TICK_LEN
  if bad then event0 (s.count Reg.FAB_SKEW) .fab 0 3 else s

/-- Punt a frame of a port, within the port's limit for the tick (R359, R361); while the tick counter does not run there is no tick that
limits it (assumption 117). An event message of the slave port in the configured domain renews the loss timer once it is punted (R366). -/
def puntFrame (s : State) (n port kind vid et : Nat) (frame body : List Nat) : State :=
  let cnt := SMap.get s.punts 0 port
  if 2016 < frame.length ∨ (s.time.running ∧ s.fld (Reg.ETH_PUNT_LIM n) 15 0 ≤ cnt) then rxDropFrame s n
  else
    let s1 := if s.time.running then { s with punts := SMap.set s.punts 0 port (cnt + 1) } else s
    let ts := if kind = 1 ∧ s.en .ptp 0 then some s.stampTime else none
    let dom := (ptpMessage et body).map fun m => beAt m 4 1
    let s2 := if kind = 1 ∧ port = s.fld Reg.PTP_CFG 13 8 ∧ dom = some (s.fld Reg.PTP_CFG 7 0) ∧ puntTaken s1 0 then
        { s1 with ptp := { s1.ptp with lastMsg := s1.time.up + 1 } } else s1
    let s3 := if kind = 3 then lldpCheck s2 body else s2
    puntWrite s3 0 port kind vid ts frame

/-- A data port's link is up. -/
def linkIsUp (s : State) (port : Nat) : Bool :=
  match subPort s port with
  | none => false
  | some k => s.en .eth (port / 8) && s.bit (Reg.ETH_PSTAT (port / 8) k) 0

/-- A port receives a frame (R357, R359, R360): its bytes from the destination MAC through the payload, whether its FCS is right, and
the FEC codewords corrected and uncorrectable since the last frame (R374). A frame for the transport engine goes on as a step of its own (ITP_PACKET_RECEIVE). -/
def execFrameReceive (port : Nat) (fcs : Bool) (frame : WireFrame) (s : State) : Host.Outcome State Fault Refusal :=
  let n := port / 8
  let f := frame.bytes.map (· % 256)
  match subPort s port with
  | none => .next s
  | some k =>
    if !linkIsUp s port then .next s
    else
    let s := (s.countBy (Reg.ETH_FEC_CORR n) frame.fecCorr).countBy (Reg.ETH_FEC_UNCORR n) frame.fecUncorr
    if f.length < 60 ∨ 9212 < f.length then .next (rxDropFrame s n)
    else if !macAccepted (portMac s n k) (macOf f 0) then .next (rxDropFrame s n)
    else
      let s1 := s.count (Reg.ETH_RX_FRAMES n)
      let tagged := s.bit (Reg.ETH_VLAN n k) 12
      if !fcs then .next (s1.count (Reg.ETH_FCS_ERR n))
      else match frameTag f with
        | none => .next (rxDropFrame s1 n)
        | some (vid, et, body) =>
          let vidOk := if tagged then vid == some (s.fld (Reg.ETH_VLAN n k) 11 0) else vid.getD 0 == 0
          if !vidOk then .next (rxDropFrame s1 n)
          else match sortFrame s1 et body with
            | .itp => .next s1
            | .drop => .next (rxDropFrame s1 n)
            | .punt kind => .next (puntFrame s1 n port kind (vid.getD 0) et f body)

/-! ### Management ports (R373) -/

/-- A management port's IPv6 address: its register, or the link-local address of its MAC (R373). -/
def mgtAddr6 (s : State) (n : Nat) : List Nat :=
  let a := (List.range 4).flatMap fun k => toLE 4 (s.rg (Reg.MGT_ADDR6 n k))
  if a.all (· == 0) then
    let m := toBE 6 (s.rg (Reg.MGT_MAC_LO n) + s.fld (Reg.MGT_MAC_HI n) 15 0 * 2 ^ 32)
    [0xFE, 0x80, 0, 0, 0, 0, 0, 0, Nat.xor (m.getD 0 0) 2, m.getD 1 0, m.getD 2 0, 0xFF, 0xFE, m.getD 3 0, m.getD 4 0, m.getD 5 0]
  else a

/-- A management port receives a frame: management, ARP, ICMPv6 and LLDP frames go to its receive ring, the rest is dropped. -/
def execMgtFrameReceive (port : Nat) (fcs : Bool) (bytes : List Nat) (s : State) : Host.Outcome State Fault Refusal :=
  let n := port % 2
  let f := bytes.map (· % 256)
  let m := macOf f 0
  let own := s.rg (Reg.MGT_MAC_LO n) + s.fld (Reg.MGT_MAC_HI n) 15 0 * 2 ^ 32
  let et := beAt f 12 2
  let b := f.drop 14
  let mine := fun (a : List Nat) =>
    a == mgtAddr6 s n || (s.bit (Reg.MGT_ADDR_CFG n) 0 && a == toLE 4 (s.rg (Reg.MGT_ADDR4 n)))
  let kind := match ipParts et b with
    | some (a, 17, p) => if mine a && decide (beAt p 2 2 = s.fld (Reg.MGT_UDP n) 15 0) then 7 else 0
    | some (_, 58, _) => if et = 0x86DD then 5 else 0
    | some _ => 0
    | none => if et = 0x0806 then 4 else if et = 0x88CC then 3 else 0
  if !(s.en .mgt n && s.bit (Reg.MGT_STAT n) 0) then .next s
  else if !fcs || decide (f.length < 60) || decide (2016 < f.length) || !(m == own || m == 0xFFFFFFFFFFFF || decide (m / 2 ^ 32 = 0x3333)) || kind == 0 then
    .next (s.count (Reg.MGT_RX_DROP n))
  else .next (puntWrite (s.count (Reg.MGT_RX_FRAMES n)) (n + 1) (64 + n) kind 0 none f)

/-! ### Links (R358) -/

/-- The link of a data port (0 to 63) or management port (64, 65) comes up or goes down. -/
def execLinkChange (port : Nat) (up : Bool) (s : State) : Host.Outcome State Fault Refusal :=
  if 64 ≤ port then
    let n := port % 2
    if s.bit (Reg.MGT_STAT n) 0 = up ∨ (up ∧ ¬ s.en .mgt n) then .next s
    else .next (event (s.setRg (Reg.MGT_STAT n) (b2n up)) .mgt n 3 { i0 := 64 + n })
  else
    let n := port / 8
    match subPort s port with
    | none => .next s
    | some k =>
      let a := Reg.ETH_PSTAT n k
      if s.bit a 0 = up ∨ (up ∧ ¬ (s.en .eth n ∧ portUsable s port)) then .next s
      else
        let v := if up then 1 + 4 + (if SMap.get s.ethMedia false n then 0 else 2) else 0
        .next (synceTurn (event (s.setRg a v) .eth n 3 { i0 := port }))

/-- A port exceeds the FEC degrade threshold of its PHY (R358). -/
def execFecDegrade (port : Nat) (s : State) : Host.Outcome State Fault Refusal :=
  let n := port / 8 % 8
  match subPort s port with
  | none => .next s
  | some k =>
    if linkIsUp s port then .next (event (s.setFld (Reg.ETH_PSTAT n k) 3 3 1) .eth n 6 { i0 := port }) else .next s

/-! ### Control transmit rings (R361, R362) -/

/-- Slots that have been filled but not yet handed over. -/
def txReady (s : State) (k : Nat) : Nat :=
  let a := fringBase k 1
  (s.rg (a + 0x0C) + 2 ^ 32 - (s.rg (a + 0x10) + SMap.get s.txGiven 0 k)) % 2 ^ 32

/-- The slot's length and port are legal. -/
def txSlotOk (s : State) (k slot : Nat) : Bool :=
  let len := s.readLE slot 2
  let port := s.byte (slot + 2)
  decide (60 ≤ len) && decide (len ≤ 2016) && (if k = 0 then (subPort s port).isSome else port == 63 + k)

/-- Firmware hands filled slots over with a write of FRING_WR; at least as many slots as the ring has can be unsent (R362). -/
def execTxRingWrite (ring wr : Nat) (s : State) : Host.Outcome State Fault Refusal :=
  .next (s.setRg (fringBase (ring % 3) 1 + 0x0C) wr)

/-- Write a transmit slot back and advance RD: done, status and the egress timestamp asked for (R361, R368). -/
def txWriteBack (s : State) (k status t : Nat) : State :=
  let a := fringBase k 1
  let slot := fringSlot s a (s.rg (a + 0x10))
  let fl := s.readLE (slot + 4) 2
  let ts := k = 0 ∧ bitOf fl 1 ∧ status = stOK ∧ s.en .ptp 0
  let s1 := (s.putLE (slot + 4) 2 (putBits (putBits fl 8 8 1) 0 0 (if ts then 1 else fl))).putByte (slot + 22) status
  let s2 := if ts then ((s1.putLE (slot + 8) 8 (timeSec t)).putLE (slot + 16) 4 (timeNs t)).putLE (slot + 20) 2 (timeFrac t) else s1
  s2.setRg (a + 0x10) (s.rg (a + 0x10) + 1)

/-- A control frame has been sent: its slot is written back (R362). A slot that is illegal ends with MALFORMED without being sent, and a
management port sends without a queue. -/
def execControlTxDone (ring : Nat) (s : State) : Host.Outcome State Fault Refusal :=
  let k := ring % 3
  let a := fringBase k 1
  let filled := (s.rg (a + 0x0C) + 2 ^ 32 - s.rg (a + 0x10)) % 2 ^ 32
  if filled = 0 ∨ ¬ fringOk s a then .next s
  else
    let slot := fringSlot s a (s.rg (a + 0x10))
    let given := SMap.get s.txGiven 0 k
    if !txSlotOk s k slot then
      .next (txWriteBack { s with txGiven := SMap.set s.txGiven 0 k (given - 1) } k stMALFORMED 0)
    else if k = 0 then
      -- a frame of the data ports is done once its last byte has left (FRAME_TX_END)
      let rd := s.rg (a + 0x10) % 2 ^ 32
      let sent := SMap.get s.txDone 0 rd
      if sent ≠ 0 ∧ given ≠ 0 then
        .next (txWriteBack { s with txGiven := SMap.set s.txGiven 0 0 (given - 1), txDone := SMap.set s.txDone 0 rd 0 } 0 stOK (sent - 1))
      else .next s
    else if s.en .mgt (k - 1) && s.bit (Reg.MGT_STAT (k - 1)) 0 then .next (txWriteBack s k stOK 0)
    else .next s

end Sys2Proof.Machine
end

