-- ==== Sys2Proof/Machine/Itp.lean ====
section
/-!
DEFINITION. The transport engine (spec/14, R377 to R404, and R478 to R483): receiving a packet through its checks, messages and
their delivery, acknowledgement and retransmission, errors of a connection, registered regions, work requests, triggers and
completion records.
-/

namespace Sys2Proof.Machine

/-! ### Rings (R402, R418) -/

/-- Entries of a work, receive or completion ring: 2^(log2_size + 4), where sizes above 8 act as 0. -/
def itpRingSize (s : State) (base : Nat) : Nat :=
  let k := s.fld (base + 8) 3 0
  2 ^ ((if 8 < k then 0 else k) + 4)

/-- A ring with entries of `sz` bytes is served: enabled, in peat or crown SRAM, and aligned to its size. -/
def itpRingOk (s : State) (base sz : Nat) : Bool :=
  let a := s.rg64 base
  s.bit (base + 8) 8 && inSram a && decide (a + sz * itpRingSize s base ≤ crownEnd) && decide (a % (sz * itpRingSize s base) = 0)

/-- Entries written and not yet consumed. -/
def itpRingFill (s : State) (base : Nat) : Nat := (s.rg (base + 0x0C) + 2 ^ 32 - s.rg (base + 0x10)) % 2 ^ 32

/-- Address of the entry at the head of a ring that has one. -/
def itpRingHead (s : State) (base sz : Nat) : Option Nat :=
  if itpRingOk s base sz ∧ itpRingFill s base ≠ 0 then
    some (s.rg64 base + sz * (s.rg (base + 0x10) % itpRingSize s base))
  else none

/-- Consume the head entry of a ring. -/
def itpRingPop (s : State) (base : Nat) : State := s.setRg (base + 0x10) (s.rg (base + 0x10) + 1)

/-! ### Completion records (R403) -/

/-- A completion record. -/
structure CqRec where
  kind : Nat
  status : Nat
  error : Bool := false
  wq : Nat
  conn : Nat
  tag : Nat
  bytes : Nat
  addr : Nat := 0

/-- Write a completion record, or drop and count it. -/
def cqWrite (s : State) (r : CqRec) : State :=
  let base := Reg.ITP_CQ_BASE_LO
  let n := itpRingSize s base
  if itpRingOk s base 32 ∧ itpRingFill s base < n then
    let bs := [r.kind, r.status, b2n r.error, r.wq] ++ toLE 4 r.conn ++ toLE 4 r.tag ++ toLE 4 r.bytes ++ toLE 8 r.addr
      ++ toLE 8 s.time.tick
    (s.putBytes (s.rg64 base + 32 * (s.rg (base + 0x0C) % n)) bs).setRg (base + 0x0C) (s.rg (base + 0x0C) + 1)
  else event0 (s.count Reg.ITP_CQ_DROP) .itp 0 8

/-- The record of a work request that has ended. -/
def wrRec (q conn tag status : Nat) (error : Bool) (len : Nat) : CqRec :=
  ⟨1, status, error, q, conn, tag, if status = stOK then len else 0, 0⟩

/-! ### Registered regions (R398 to R401) -/

def regionAddr (s : State) (i : Nat) : Nat := s.rg64 Reg.ITP_REG_BASE_LO + 32 * i
def regionGen (s : State) (i : Nat) : Nat := bitsOf (s.readLE (regionAddr s i + 16) 4) 27 20
def regionState (s : State) (i : Nat) : Nat := bitsOf (s.readLE (regionAddr s i + 16) 4) 29 28
def regionInflight (s : State) (i : Nat) : Nat := s.readLE (regionAddr s i + 24) 4
def setRegionId (s : State) (i gen st : Nat) : State := s.putLE (regionAddr s i + 16) 4 (i + gen % 256 * 2 ^ 20 + st % 4 * 2 ^ 28)
def setInflight (s : State) (i n : Nat) : State := s.putLE (regionAddr s i + 24) 4 n

/-- Check of a region for a message of a connection (R400): the address of its first byte, or the failing status. -/
def regionCheck (s : State) (part handle offset len : Nat) (read : Bool) : Except Nat Nat :=
  let i := handle % 2 ^ 20
  let g := bitsOf handle 27 20
  let st := regionState s i
  let a := regionAddr s i
  if s.fld Reg.ITP_REG_CFG 20 0 ≤ i then .error stBAD_GEN
  else if g ≠ regionGen s i ∨ st ≠ 1 then
    .error (if (g + 1) % 256 = regionGen s i ∧ 2 ≤ st then stREVOKED else stBAD_GEN)
  else if s.byte (a + 20) % 64 ≠ part then .error stAUTH
  else if !bitOf (s.byte (a + 21)) (b2n read) then .error stAUTH
  else if s.readLE (a + 8) 8 < offset + len then .error stMALFORMED
  else .ok (s.readLE a 8 + offset)

/-- A BAD_GEN of a region is counted (R400). -/
def regionCount (s : State) (status : Nat) : State := if status = stBAD_GEN then s.count Reg.ITP_STALE else s

/-- A message is past the check, or has ended (R400). -/
def inflightUp (s : State) (i : Nat) : State := setInflight s i (regionInflight s i + 1)
def inflightDown (s : State) (i : Nat) : State := setInflight s i (regionInflight s i - 1)

/-- A range lies wholly in one range of R255 that the region table lists: peat, private or shared crown SRAM, or fen (R398). -/
def rangeOk (a n : Nat) : Bool :=
  decide (peatBase ≤ a) && decide (a + n ≤ crownBase) || decide (crownBase ≤ a) && decide (a + n ≤ gatherBase0)
    || decide (gatherBase0 ≤ a) && decide (a + n ≤ crownEnd) || decide (fenBase ≤ a) && decide (a + n ≤ fenEnd)

/-- Every byte of a range is in peat, crown SRAM or fen (R255, R402). -/
def rangeMapped (a n : Nat) : Bool :=
  decide (peatBase ≤ a) && decide (a + n ≤ crownEnd) || decide (fenBase ≤ a) && decide (a + n ≤ fenEnd)

/-- Registered regions of a partition (R470). -/
def ownsRegion (s : State) (p i : Nat) : Bool :=
  s.en .prt 0 && decide (256 * s.fld (Reg.PRT_REGN p) 11 0 ≤ i)
    && decide (i < 256 * (s.fld (Reg.PRT_REGN p) 11 0 + s.fld (Reg.PRT_REGN p) 24 12))

/-- Connections of a partition (R470). -/
def ownsConn (s : State) (p i : Nat) : Bool :=
  s.en .prt 0 && decide (s.fld (Reg.PRT_CONN p) 11 0 ≤ i) && decide (i < s.fld (Reg.PRT_CONN p) 11 0 + s.fld (Reg.PRT_CONN p) 24 12)

def cmdStat (s : State) (status : Nat) : State := s.setRg Reg.ITP_CMD_STAT status

/-- ITP_REG_CMD VALIDATE (R398); the generation of a region that was FREE starts from the value drawn at reset (R526). -/
def execRegionValidate (i : Nat) (s : State) : Host.Outcome State Fault Refusal :=
  let i := i % 2 ^ 20
  let a := regionAddr s i
  let st := regionState s i
  if i < s.fld Reg.ITP_REG_CFG 20 0 ∧ (st = 0 ∨ st = 3) ∧ rangeOk (s.readLE a 8) (s.readLE (a + 8) 8)
      ∧ ownsRegion s (s.byte (a + 20) % 64) i then
    .next (cmdStat (setRegionId s i (regionGen s i + (if st = 0 then initGen s.boot 3 i else 0)) 1) stOK)
  else .next (cmdStat s stMALFORMED)

/-- Revoke a VALID region (R401). -/
def revokeRegion (s : State) (i : Nat) : State := setRegionId s i (regionGen s i + 1) 2

/-- ITP_REG_CMD REVOKE (R401). -/
def execRegionRevoke (i : Nat) (s : State) : Host.Outcome State Fault Refusal :=
  let i := i % 2 ^ 20
  if i < s.fld Reg.ITP_REG_CFG 20 0 ∧ regionState s i = 1 then .next (cmdStat (revokeRegion s i) stOK)
  else .next (cmdStat s stMALFORMED)

/-- A REVOKING region's inflight count has reached 0 (R401). -/
def execRevokeDone (i : Nat) (s : State) : Host.Outcome State Fault Refusal :=
  let i := i % 2 ^ 20
  if i < s.fld Reg.ITP_REG_CFG 20 0 ∧ regionState s i = 2 ∧ regionInflight s i = 0 then
    .next (event (setRegionId s i (regionGen s i) 3) .itp 0 3 { i0 := i, i1 := regionGen s i })
  else .next s

/-! ### The end of what a connection was doing -/

/-- A READ of this node ends with a status (R394, R402). -/
def readEnd (s : State) (i : Nat) (r : ReadSt) (status : Nat) (error : Bool) : State :=
  let c := s.conn i
  let s1 := s.setConn i { c with reads := c.reads.filter (·.id != r.id) }
  match r.use with
  | .wr q tag rec_ _ =>
    if rec_ then cqWrite s1 (wrRec q (connWord i c.gen) tag status error r.len) else s1
  | .fetch f => if status = stOK then fetchArrive s1 f (fetchGot s1 f) else fetchLost s1 f status
  | _ => s1

/-- A message sent by the node is complete with a status (R391): what its use then does. -/
def txEnd (s : State) (i : Nat) (m : TxMsg) (status : Nat) (error : Bool) : State :=
  let c := s.conn i
  match m.use with
  | .none =>
    if m.op = 0x03 ∧ status ≠ stOK then
      match c.reads.find? (·.id == beAt m.ext 16 4) with
      | some r => readEnd s i r status error
      | none => s
    else s
  | .wr q tag rec_ _ =>
    if rec_ then cqWrite s (wrRec q (connWord i c.gen) tag status error m.len) else s
  | .reply slot => freeReq s slot
  | .readResp (some g) => inflightDown s g
  | .readResp none => s
  | .forward _ _ => s
  | .move f => if status = stOK then moveStage s f 4 2 else moveLost s f status
  | .fetch _ => s

/-- A message being received is given up: its staging frames are freed and its region's count falls (R394, R400). -/
def rxAbandon (s : State) (m : RxMsg) : State :=
  let s1 := match m.dest with
    | .stage a => stageFree s a
    | _ => s
  match m.region with
  | some g => inflightDown s1 g
  | none => s1

/-- A connection leaves OPEN: what it was sending ends with CANCELLED and conn_error, what it was receiving is abandoned (R119,
R386, R400). -/
def connLeave (s : State) (i : Nat) : State :=
  let c := s.conn i
  let s1 := s.setConn i { c with out := [], pkts := [], ctl := [], msgs := [], ackCnt := 0, ackSince := none }
  let s2 := c.out.foldl (fun s m => txEnd s i m stCANCELLED true) s1
  let s3 := c.reads.foldl (fun s r => readEnd s i r stCANCELLED true) s2
  (c.msgs.filter (·.failed.isNone)).foldl rxAbandon s3

/-- A connection enters ERROR (R386): a record and a suspect record are posted. The spec names no cause status for a retry limit,
a timeout or a broken sequence; the record's is a free value. -/
def connError (s : State) (i : Nat) : State :=
  let c := s.conn i
  if c.st ≠ .open_ then s
  else
    let s1 := connLeave s i
    let s2 := s1.setConn i { s1.conn i with st := .error }
    let w := connWord i c.gen
    suspect (event s2.draw .itp 0 4 { i0 := w, i1 := s2.free 8 }) c.peerNode 2 w

/-! ### Acknowledgement (R389, R390) -/

/-- The ACK extension: the ePSN, the bits received above it and the CE count. -/
def ackExt (c : Conn) : List Nat :=
  toBE 4 c.rxPsn ++ (List.range 32).map (fun k => c.rx / 256 ^ k % 256) ++ toBE 2 (min c.ce 65535) ++ [0, 0]

/-- Send an ACK on a connection that can send. -/
def ackNow (s : State) (i : Nat) : State :=
  if s.canSend i then
    let s1 := queueCtl s i ⟨0x05, ackExt (s.conn i), none⟩
    s1.setConn i { s1.conn i with ackCnt := 0, ackSince := none, ce := 0 }
  else s

/-- A sequenced packet has arrived and is not yet acknowledged (R390). -/
def ackNote (s : State) (i : Nat) : State :=
  let c := s.conn i
  s.setConn i { c with ackCnt := c.ackCnt + 1, ackSince := c.ackSince.orElse fun _ => some s.time.up }

/-- With arrivals unacknowledged, an ACK leaves where the packet asks for one or the coalescing limit is reached (R390). -/
def ackTurn (s : State) (i : Nat) (now : Bool) : State :=
  let c := s.conn i
  if c.ackSince.isSome ∧ (now ∨ max 1 (s.fld Reg.ITP_ACK 7 0) ≤ c.ackCnt) then ackNow s i else s

/-- A message has been delivered: what has arrived and is not yet acknowledged is acknowledged (R390). -/
def ackDelivered (s : State) (i : Nat) : State := if (s.conn i).ackSince.isSome then ackNow s i else s

/-- The NAK extension (R390). -/
def nakExt (psn msn status : Nat) : List Nat := toBE 4 psn ++ toBE 4 msn ++ [status, 0, 0, 0, 0, 0, 0, 0]

/-- ITP_ACK.delay has passed since the oldest unacknowledged arrival of a connection (R390). -/
def execAckDelayTimeout (i : Nat) (s : State) : Host.Outcome State Fault Refusal :=
  let i := i % 4096
  match (s.conn i).ackSince with
  | none => .next s
  | some t =>
    match reachUp s (t + s.fld Reg.ITP_ACK 31 16) with
    | some s1 => .next (ackNow s1 i)
    | none => .next s

/-! ### Packets as they arrive (R377 to R380) -/

/-- A packet's base header, extension header, ciphertext and tag; once it is opened, `body` is its plaintext. -/
structure Pk where
  op : Nat
  flags : Nat
  cls : Nat
  conn : Nat
  src : Nat
  epoch : Nat
  ctr : Nat
  psn : Nat
  msn : Nat
  len : Nat
  idx : Nat
  pkts : Nat
  seg : Nat
  ext : List Nat
  body : List Nat
  tag : List Nat

/-- Length of an opcode's extension header (R379, R440). -/
def extLen (op : Nat) : Option Nat :=
  match op with
  | 0x01 => some 8
  | 0x02 => some 16
  | 0x03 => some 24
  | 0x04 => some 8
  | 0x05 => some 40
  | 0x06 => some 16
  | 0x07 => some 16
  | 0x10 => some 36
  | 0x11 => some 24
  | 0x12 => some 32
  | 0x13 => some 48
  | 0x14 => some 16
  | 0x15 => some 8
  | 0x16 => some 40
  | 0x17 => some 16
  | _ => none

/-- ACK, NAK and HELLO are not sequenced (R379). -/
def isSeq (op : Nat) : Bool := decide (op < 5) || decide (7 < op)
def isService (op : Nat) : Bool := decide (0x10 ≤ op)

/-- Checks 2 and 3 of R387: the packet's parts, where its lengths and opcode allow. -/
def parsePk (p : Packet) : Option Pk :=
  let b := p.bytes
  let at_ := beAt b
  match extLen (at_ 1 1) with
  | none => none
  | some n =>
    if p.frag ∨ b.length < 56 + n ∨ at_ 0 1 ≠ 1 then none
    else some ⟨at_ 1 1, at_ 2 1, at_ 3 1 % 8, at_ 4 4 % 2 ^ 20, at_ 8 2, at_ 10 2, at_ 14 6, at_ 20 4, at_ 24 4, at_ 28 4, at_ 32 2,
      at_ 34 2, at_ 36 2, (b.drop 40).take n, (b.drop (40 + n)).take (b.length - 56 - n), b.drop (b.length - 16)⟩

/-- Check 8 of R387: the plaintext under the slot's receive key, where the tag verifies over both headers as they came (R381). -/
def openPk (v : KeySlot) (p : Packet) (k : Pk) : Option (List Nat) :=
  gcmOpen v.rxKey (pktNonce v.rxSalt k.ctr) (p.bytes.take (40 + k.ext.length)) k.body k.tag

/-- The size formula of an opcode over its own extension header (R166, R380, R399, R405 to R410); `none` where any length is
allowed. -/
def sizeFormula (c : Conn) (op : Nat) (ext : List Nat) : Option Nat :=
  let b := beAt ext
  let elem := fun fp32 => if fp32 then 4 else 2
  match op with
  | 0x01 => none
  | 0x02 => none
  | 0x04 => if b 4 1 = 0 then (c.reads.find? (·.id == b 0 4)).map (·.len) else some 0
  | 0x10 => some (4 * b 33 1 + 4 * b 16 2 + b 16 2 * (32 * b 18 1) * elem (bitOf (b 19 1) 1))
  | 0x11 => some (b 10 2 * (wireVecBytes (bitsOf (b 9 1) 3 2) (32 * b 12 1) + 8) + 8 * b 10 2)
  | 0x12 => some (b 24 2 * b 18 1 * 2 * b 27 1 * (32 * b 26 1) * elem (bitOf (b 19 1) 0))
  | 0x13 => some (if b 4 4 = 0xFFFFFFFE then 12 else 0)
  | 0x16 => some (b 28 4 * (1024 + b 22 2 * bytesPerToken (b 18 1) (32 * b 19 1) (b 20 1)))
  | _ => some 0

/-- Bytes that packet `idx` of a message carries (R380). -/
def segShare (len seg idx : Nat) : Nat :=
  if idx + 1 < msgPkts len seg then 64 * seg else len - 64 * seg * (msgPkts len seg - 1)

/-- Check 11 of R387: OK, SIZE_MISMATCH or MALFORMED (R380, R414). -/
def checkSize (c : Conn) (k : Pk) : Nat :=
  if k.seg < 4 ∨ 128 < k.seg ∨ 67108864 < k.len ∨ (k.op = 0x03 ∧ 67108864 < beAt k.ext 4 4) ∨ k.pkts ≤ k.idx ∨ bitOf k.flags 2 ≠ decide (k.idx + 1 = k.pkts)
      ∨ bitOf k.flags 3 ≠ decide (k.idx = 0) then stMALFORMED
  else if k.pkts ≠ msgPkts k.len k.seg then stSIZE_MISMATCH
  else if (sizeFormula c k.op k.ext).isSome ∧ sizeFormula c k.op k.ext ≠ some k.len then stSIZE_MISMATCH
  else if k.body.length ≠ segShare k.len k.seg k.idx + 4 then stSIZE_MISMATCH
  else stOK

/-! ### Receiving messages (R388 to R395) -/

/-- Mark `n` PSNs from `psn` on as received; those below the ePSN are so already (R388, R389). -/
def markPsns (c : Conn) (psn n : Nat) : Conn :=
  let d := seqDiff psn c.rxPsn
  let skip := (-d).toNat
  let m := (2 ^ (n - skip) - 1) * 2 ^ d.toNat
  { c with rx := Nat.lor c.rx m }

/-- Trailing ones of a bitmap, up to `n`. -/
def trailOnes : Nat → Nat → Nat
  | 0, _ => 0
  | n + 1, x => if x % 2 = 1 then 1 + trailOnes n (x / 2) else 0

/-- A message fails (R388): a NAK, every PSN of it counted as received, its data given up, and the failure's counter. -/
def rxFail (s : State) (i : Nat) (m : RxMsg) (psn status counter : Nat) : State :=
  let s0 := if counter = 0 then s else s.count counter
  let s1 := match m.dest with
    | .mem a => if m.op = 0x01 ∨ m.op = 0x02 then freeFill s0 a m.len else s0
    | _ => s0
  let s2 := rxAbandon s1 m
  let c := s2.conn i
  let f : RxMsg := { m with failed := some status, counter := counter, region := none, dest := .none }
  let s3 := s2.setConn i (markPsns { c with msgs := c.msgs.filter (·.msn != m.msn) ++ [f] } m.psn m.pkts)
  queueCtl s3 i ⟨0x06, nakExt psn m.msn status, none⟩

/-- Add 1 to the trigger counter that a delivered SEND or WRITE names (R404). -/
def trigger (s : State) (part k : Nat) : State :=
  if k = 0xFFFF then s
  else
    let w := s.rg (Reg.ITP_TRIG k)
    if k < 1024 ∧ bitOf w 31 ∧ bitsOf w 29 24 = part then s.setFld (Reg.ITP_TRIG k) 23 0 (min (bitsOf w 23 0 + 1) 0xFFFFFF)
    else s.count Reg.ITP_TRIG_IGN

/-- Answer a READ_REQ at its delivery (R400). A length that the connection's segments cannot carry in 65,535 packets (R380) is answered
with MALFORMED (assumption 137). -/
def readAnswer (s : State) (i : Nat) (m : RxMsg) : State :=
  let b := beAt m.ext
  let resp := fun (s : State) st len src reg =>
    queueMsg s i 0x04 m.cls (toBE 4 (b 16 4) ++ [st, 0, 0, 0]) len src (.readResp reg)
  match if 65535 < msgPkts (b 4 4) (s.conn i).seg then .error stMALFORMED else regionCheck s (s.conn i).part (b 0 4) (b 8 8) (b 4 4) true with
  | .error st => resp (regionCount s st) st 0 (.bytes []) none
  | .ok a => resp (inflightUp s (b 0 4 % 2 ^ 20)) stOK (b 4 4) (.mem a) (some (b 0 4 % 2 ^ 20))

/-- What the delivery of a message does (R393, R394, R397, R400, R404). -/
def deliver (s : State) (i port : Nat) (m : RxMsg) : State :=
  let c := s.conn i
  let w := connWord i c.gen
  if m.op = 0x01 then
    let (tag, addr) := m.buf.getD (0, 0)
    let s1 := cqWrite s { kind := 2, status := stOK, wq := 0xFF, conn := w, tag := tag, bytes := m.len, addr := addr }
    trigger s1 c.part (beAt m.ext 0 2)
  else if m.op = 0x02 then
    let s1 := match m.region with
      | some g => inflightDown s g
      | none => s
    trigger s1 c.part (beAt m.ext 4 2)
  else if m.op = 0x03 then readAnswer s i m
  else if m.op = 0x04 then
    match c.reads.find? (·.id == beAt m.ext 0 4) with
    | some r => readEnd s i r (beAt m.ext 4 1) false
    | none => s
  else
    let a := match m.dest with
      | .stage a => a
      | _ => 0
    if m.op = 0x11 then stageFree s a
    else { s with itp := { s.itp with inbox := s.itp.inbox ++ [⟨w, port, s.time.tick, s.time.cc, m.op, m.ext, m.len, a⟩] } }

/-- Deliver the messages that the ePSN has passed, in order; a broken sequence ends the connection (R393, R395). `n` bounds the
messages looked at. -/
def deliverAll (s : State) (i port : Nat) : Nat → State
  | 0 => s
  | n + 1 =>
    let c := s.conn i
    match c.msgs.find? fun m => decide (seqDiff (m.psn + m.pkts) c.rxPsn ≤ 0) with
    | none => s
    | some m0 =>
      let m := (c.msgs.find? fun m => m.psn == c.rxNext && decide (seqDiff (m.psn + m.pkts) c.rxPsn ≤ 0)).getD m0
      if m.psn ≠ c.rxNext ∨ m.msn ≠ c.rxMsn then connError s i
      else
        let s1 := s.setConn i { c with msgs := c.msgs.filter (·.msn != m.msn), rxMsn := (m.msn + 1) % 2 ^ 32
                                       rxNext := (m.psn + m.pkts) % 2 ^ 32 }
        let s2 := if m.failed.isSome then s1 else ackDelivered (deliver s1 i port m) i
        deliverAll s2 i port n

/-- The ePSN passes every consecutive PSN received, and messages are delivered (R389, R393). -/
def rxAdvance (s : State) (i port : Nat) : State :=
  let c := s.conn i
  let n := trailOnes (Nat.log2 c.rx + 1) c.rx
  if n = 0 then s
  else
    let s1 := s.setConn i { c with rxPsn := (c.rxPsn + n) % 2 ^ 32, rx := c.rx / 2 ^ n }
    deliverAll s1 i port (c.msgs.length + 1)

/-- A packet of a message has been taken: it counts as an arrival, the ePSN advances, and an ACK leaves where one is due, one at most
(R389, R390, R393). -/
def rxTaken (s : State) (i port : Nat) (now : Bool) : State := ackTurn (rxAdvance (ackNote s i) i port) i now

/-- The message-level checks at a message's first arriving packet (check 13 of R387; R394, R397, R400): the state with the
message's destination, the status that fails it, or `none` where the packet is discarded for want of staging. -/
def rxOpen (s : State) (i : Nat) (m : RxMsg) : Option (Except (State × Nat) (State × RxMsg)) :=
  let c := s.conn i
  if m.op = 0x01 then
    let base := Reg.ITP_RQ_BASE_LO c.part
    match itpRingHead s base 16 with
    | none => some (.error (s, stNO_FRAME))
    | some a =>
      let s1 := itpRingPop s base
      if s.readLE (a + 8) 4 < m.len then some (.error (s1, stMALFORMED))
      else some (.ok (s1, { m with dest := .mem (s.readLE a 8), buf := some (s.readLE (a + 12) 4, s.readLE a 8) }))
  else if m.op = 0x02 then
    match regionCheck s c.part (beAt m.ext 0 4) (beAt m.ext 8 8) m.len false with
    | .error st => some (.error (regionCount s st, st))
    | .ok a => some (.ok (inflightUp s (beAt m.ext 0 4 % 2 ^ 20), { m with dest := .mem a, region := some (beAt m.ext 0 4 % 2 ^ 20) }))
  else if m.op = 0x03 then some (.ok (s, m))
  else if m.op = 0x04 then
    match c.reads.find? (·.id == beAt m.ext 0 4) with
    | some r => some (.ok (s, { m with dest := match r.use with | .fetch f => .page f | _ => .mem r.addr }))
    | none => some (.error (s, stMALFORMED))
  else match stageTake s (connWord i c.gen) m.len with
    | none => none
    | some (s1, a) => some (.ok (s1, { m with dest := .stage a }))

/-- The place of a segment lies where a write is refused (R321). -/
def rxRefused (s : State) (m : RxMsg) (k : Pk) : Bool :=
  match m.dest with
  | .mem a => rangeRefused s (a + 64 * k.seg * k.idx) (segShare k.len k.seg k.idx)
  | _ => false

/-- Place one segment and count its PSN as received (R389, R394). -/
def rxPlace (s : State) (i port : Nat) (m : RxMsg) (k : Pk) : State :=
  let data := k.body.take (segShare k.len k.seg k.idx)
  let s1 := match m.dest with
    | .none => s
    | .stage a => s.putBytes (a + 64 * k.seg * k.idx) data
    | .mem a => s.putBytes (a + 64 * k.seg * k.idx) data
    | .page f => fetchSegment s f (64 * k.seg * k.idx) data
  let c := s1.conn i
  let s2 := s1.setConn i (markPsns { c with msgs := c.msgs.filter (·.msn != m.msn) ++ [m] } k.psn 1)
  rxTaken s2 i port (bitOf k.flags 0)

/-- Checks 10 to 13 of R387 on a sequenced packet. -/
def rxSeq (s : State) (i port : Nat) (k : Pk) : State :=
  let c := s.conn i
  let d := seqDiff k.psn c.rxPsn
  if d < 0 then ackNow s i
  else if 256 ≤ d then s.count Reg.ITP_WINDOW
  else
    let old := c.msgs.find? (·.msn == k.msn)
    let new : RxMsg := { msn := k.msn, psn := (k.psn + 2 ^ 32 - k.idx) % 2 ^ 32, op := k.op, cls := k.cls, ext := k.ext, len := k.len,
                         pkts := k.pkts, seg := k.seg, dest := .none, since := s.time.tick }
    let m := old.getD new
    let failAs := fun (m : RxMsg) (s : State) st ctr => rxTaken (rxFail s i m k.psn st ctr) i port (bitOf k.flags 0)
    let fail := failAs m
    -- A tile's code region and booking area refuse these writes too; the message then fails with MALFORMED (R321; assumption 112).
    let place := fun (s : State) (m : RxMsg) => if rxRefused s m k then failAs m s stMALFORMED 0 else rxPlace s i port m k
    match m.failed with
    | some _ => ackTurn (ackNote (if m.counter = 0 then s else s.count m.counter) i) i (bitOf k.flags 0)
    | none =>
      if bitOf c.rx d.toNat then ackNow s i
      else if checkSize c k ≠ stOK then fail s (checkSize c k) Reg.ITP_SIZE
      else if crc32c (k.body.take (k.body.length - 4)) ≠ leBytes (fun o => k.body.getD o 0) (k.body.length - 4) 4 then
        fail s stCRC Reg.ITP_CRC
      else if old.isSome then
        if (m.op, m.ext, m.len, m.pkts, m.seg, m.psn) = (new.op, new.ext, new.len, new.pkts, new.seg, new.psn) then
          place s m
        else fail s stMALFORMED 0
      else match rxOpen s i new with
        | none => event0 (s.count Reg.ITP_STAGE_FULL) .itp 0 6
        | some (.error (s1, st)) => fail s1 st 0
        | some (.ok (s1, m1)) => place s1 m1

/-! ### What the partner acknowledges (R389 to R391) -/

/-- Messages all of whose packets are acknowledged are complete (R391). -/
def txSettle (s : State) (i : Nat) : State :=
  let c := s.conn i
  let open_ := fun (m : TxMsg) => c.pkts.any fun p => decide (0 ≤ seqDiff p.psn m.psn) && decide (seqDiff p.psn (m.psn + m.pkts) < 0)
  let done := c.out.filter fun m => !open_ m
  done.foldl (fun s m => txEnd s i m stOK false) (s.setConn i { c with out := c.out.filter open_ })

/-- A PSN is to be sent again (R391, R443); at the retry limit the connection enters ERROR. -/
def retransmit (s : State) (i psn : Nat) : State :=
  let c := s.conn i
  match c.pkts.find? (·.psn == psn) with
  | none => s
  | some p =>
    if p.due ∨ p.queued ∨ p.sends = 0 then s
    else if s.fld Reg.ITP_RETX 15 8 + 1 ≤ p.sends then connError s i
    else
      let s1 := s.setConn i { c with pkts := c.pkts.map fun q => if q.psn = psn then { q with due := true } else q }
      chargeStrike s1 c.peerNode p.path

/-- A received ACK (R390, R391). -/
def rxAck (s : State) (i : Nat) (ext : List Nat) : State :=
  let c := s.conn i
  let cum := beAt ext 0 4
  if 0 < seqDiff cum c.txPsn then s.count Reg.ITP_DROP_HDR
  else
    let map := leBytes (fun k => ext.getD (4 + k) 0) 0 32
    let acked := fun (p : TxPkt) => decide (p.sends ≠ 0) &&
      (decide (seqDiff p.psn cum < 0) || decide (seqDiff p.psn cum < 256) && bitOf map (seqDiff p.psn cum).toNat)
    let gone := c.pkts.filter acked
    let win := if 0 < seqDiff cum c.txWin then cum else c.txWin
    let s1 := s.setConn i { c with pkts := c.pkts.filter (fun p => !acked p), txWin := win, ceSeen := c.ceSeen || decide (beAt ext 36 2 ≠ 0) }
    let s2 := gone.foldl (fun s p => clearStrikes s c.peerNode p.path) s1
    let s3 := txSettle s2 i
    let above := fun (p : TxPkt) => ((List.range 256).filter fun k => bitOf map k && decide (seqDiff p.psn cum < k)).length
    ((s3.conn i).pkts.filter fun p => decide (max 1 (s.fld Reg.ITP_RETX 7 0) ≤ above p)).foldl (fun s p => retransmit s i p.psn) s3

/-- A received NAK completes the message it names with its status (R388, R391). A KEY_EPOCH NAK names none. -/
def rxNak (s : State) (i : Nat) (ext : List Nat) : State :=
  let c := s.conn i
  let st := beAt ext 8 1
  match c.out.find? (fun m => m.msn == beAt ext 4 4) with
  | none => s
  | some m =>
    if st = stKEY_EPOCH ∨ st = stOK then s
    else
      let mine := fun (p : TxPkt) => decide (0 ≤ seqDiff p.psn m.psn) && decide (seqDiff p.psn (m.psn + m.pkts) < 0)
      txEnd (s.setConn i { c with out := c.out.filter (· != m), pkts := c.pkts.filter fun p => !mine p }) i m st false

/-! ### HELLO (R440, R443, R444) -/

/-- The HELLO extension of this node. -/
def helloExt (s : State) (kind path echo : Nat) : List Nat :=
  [kind, path, b2n (s.bit Reg.FAB_ROLE 0), b2n (s.bit Reg.PTP_STAT 0) + 2 * b2n s.fab.notServing] ++ toBE 4 (s.rg Reg.FAB_EPOCH)
    ++ toBE 4 echo ++ toBE 2 s.time.tick ++ [0, 0]

/-- A received HELLO: a probe is answered on the same path; a reply heals its path and refreshes the peer (R440, R444). -/
def rxHello (s : State) (i : Nat) (ext : List Nat) : State :=
  let node := (s.conn i).peerNode
  let kind := beAt ext 0 1
  let path := beAt ext 1 1 % 16
  if 1 < kind then s.count Reg.ITP_DROP_HDR
  else if !s.up .fab 0 then s
  else if kind = 0 then queueCtl s i ⟨0x07, helloExt s 1 path (beAt ext 8 4), some path⟩
  else
    let heals := bitOf (pathWord s node path) 22 && portUsable s (pathPort s node path) && !pathHealthy s node path
    let s1 := if heals then healPath s node path else s
    let s2 := setPeerFlag (putPeer s1 (peerAddr s1 node + 8) 6 s1.time.tick) node 1 false
    let s3 := { s2 with fab := { s2.fab with missed := SMap.set s2.fab.missed 0 node 0 } }
    if beAt ext 4 4 ≠ s.rg Reg.FAB_EPOCH then event0 (s3.count Reg.FAB_SKEW) .fab 0 3 else s3

/-! ### The checks of an arriving packet (R381 to R387) -/

/-- Policing (check 6; R434, R435): whether the packet goes on. -/
def police (s : State) (i u : Nat) : State × Bool :=
  let a := s.rg64 (Reg.RAK_POL_BASE_LO 0) + 16 * i
  if !s.en .rak 0 || !s.bit (Reg.RAK_POL_CFG 0) 0 || s.readLE a 4 == 0 then (s, true)
  else if u ≤ s.readLE (a + 8) 4 then (s.putLE (a + 8) 4 (s.readLE (a + 8) 4 - u), true)
  else
    let s1 := s.putLE (a + 12) 4 (min (s.readLE (a + 12) 4 + 1) 0xFFFFFFFF)
    (event0 (s1.count (Reg.RAK_POL_DROP 0)) .rak 0 5, false)

/-- No key slot holds the packet's epoch (R383): one NAK at most per connection and tick. -/
def keyEpochDrop (s : State) (i : Nat) : State :=
  let s1 := event (s.count Reg.ITP_KEY_EPOCH) .itp 0 5 { i0 := connWord i (s.conn i).gen }
  if (s.conn i).nakTick = s.time.tick + 1 then s1
  else
    let s2 := queueCtl s1 i ⟨0x06, nakExt 0 0 stKEY_EPOCH, none⟩
    s2.setConn i { s2.conn i with nakTick := s.time.tick + 1 }

/-- The transmit epoch advances (R481, R482). -/
def txSwitch (s : State) (i : Nat) : State := s.setConn i { s.conn i with txEpoch := ((s.conn i).txEpoch + 1) % 65536 }

/-- Anti-replay (R384): the key slot with the counter noted, or `none` for a replay. -/
def antiReplay (k : KeySlot) (ctr : Nat) : Option KeySlot :=
  if k.rxHigh < ctr then
    some { k with rxHigh := ctr, seen := (k.seen * 2 ^ (ctr - k.rxHigh) + 1) % 2 ^ 1024 }
  else if ctr + 1024 ≤ k.rxHigh ∨ bitOf k.seen (k.rxHigh - ctr) then none
  else some { k with seen := k.seen + 2 ^ (k.rxHigh - ctr) }

/-- An ITP packet arrives and passes the checks of R387 in order; `only` selects the opcodes that this command takes. -/
def receive (only : Nat → Bool) (p : Packet) (s : State) : State :=
  if !p.fcs then s
  else match parsePk p with
  | none =>
    if only (beAt p.bytes 1 1) then (if s.up .itp 0 then s.count Reg.ITP_DROP_HDR else s.count Reg.ITP_DROP_CONN) else s
  | some k =>
    let i := k.conn % 4096
    let c := s.conn i
    if !only k.op then s
    else if !s.up .itp 0 || !s.connOpen k.conn || k.src != c.peerNode || p.src != c.peerAddr then s.count Reg.ITP_DROP_CONN
    else
      let (s1, goes) := police s i p.bytes.length
      if !goes then s1
      else match s1.liveKey i k.epoch with
      | none => keyEpochDrop s1 i
      | some slot =>
        match openPk (s1.keySlot slot) p k with
        | none => s1.count Reg.ITP_DROP_AUTH
        | some plain => match antiReplay (s1.keySlot slot) k.ctr with
        | none => (s1.count Reg.ITP_RX_PKTS).count Reg.ITP_REPLAY
        | some v =>
          let s2 := (s1.count Reg.ITP_RX_PKTS).setKeySlot slot v
          let s3 := if p.ce then (s2.count Reg.ITP_CE).setConn i { s2.conn i with ce := (s2.conn i).ce + 1 } else s2
          let s4 := if s.bit Reg.KEY_CFG 0 ∧ k.epoch = (c.txEpoch + 1) % 65536 then txSwitch s3 i else s3
          if k.op = 0x05 then rxAck s4 i k.ext
          else if k.op = 0x06 then rxNak s4 i k.ext
          else if k.op = 0x07 then rxHello s4 i k.ext
          else rxSeq s4 i p.port { k with body := plain }

/-- An ITP packet of any opcode arrives (R387). -/
def execItpPacketReceive (p : Packet) (s : State) : Host.Outcome State Fault Refusal := .next (receive (fun _ => true) p s)
/-- An ACK arrives (R390). -/
def execAck (p : Packet) (s : State) : Host.Outcome State Fault Refusal := .next (receive (· == 0x05) p s)
/-- A NAK arrives (R390). -/
def execNak (p : Packet) (s : State) : Host.Outcome State Fault Refusal := .next (receive (· == 0x06) p s)
/-- A HELLO arrives (R440). -/
def execHello (p : Packet) (s : State) : Host.Outcome State Fault Refusal := .next (receive (· == 0x07) p s)
/-- A packet of a SEND arrives (R397). -/
def execItpSend (p : Packet) (s : State) : Host.Outcome State Fault Refusal := .next (receive (· == 0x01) p s)
/-- A packet of a WRITE arrives (R400). -/
def execItpWrite (p : Packet) (s : State) : Host.Outcome State Fault Refusal := .next (receive (· == 0x02) p s)
/-- A READ_REQ arrives (R400). -/
def execReadReq (p : Packet) (s : State) : Host.Outcome State Fault Refusal := .next (receive (· == 0x03) p s)
/-- A packet of a READ_RESP arrives (R394, R402). -/
def execReadResp (p : Packet) (s : State) : Host.Outcome State Fault Refusal := .next (receive (· == 0x04) p s)

/-! ### Timers (R391, R393, R396) -/

/-- ITP_RETX.rto has passed since a PSN was last sent (R391). -/
def execRetransmitTimeout (i psn : Nat) (s : State) : Host.Outcome State Fault Refusal :=
  let i := i % 4096
  let c := s.conn i
  match c.pkts.find? (·.psn == psn) with
  | none => .next s
  | some p =>
    if p.due ∨ p.queued ∨ p.sends = 0 ∨ c.st ≠ .open_ ∨ !s.en .itp 0 ∨ !s.canSend i then .next s
    else match reachUp s (p.at_ + 1600 * max 1 (s.fld Reg.ITP_RETX 31 16)) with
      | some s1 => .next (retransmit s1 i psn)
      | none => .next s

/-- A message has stayed undelivered for ITP_MSG_TO ticks (R393). -/
def execMessageTimeout (i msn : Nat) (s : State) : Host.Outcome State Fault Refusal :=
  let i := i % 4096
  match (s.conn i).msgs.find? (·.msn == msn) with
  | none => .next s
  | some m => if m.since + max 1 (s.fld Reg.ITP_MSG_TO 15 0) ≤ s.time.tick then .next (connError s i) else .next s

/-- Rate of a port in Mb/s (R356). -/
def portRate (s : State) (port : Nat) : Nat := 1600000 / 2 ^ s.ethModeOf (port / 8)

/-- Length of a rate-control period in cc: 0 acts as 1,024 (R416). -/
def ccPeriod (s : State) : Nat :=
  let n := s.fld Reg.ITP_CC_PERIOD 19 0
  if n = 0 then 1024 else n

/-- A connection's rate after a period (R396): lowered where an ACK carried CE, raised otherwise, within its limits. -/
def ccRate (s : State) (c : Conn) : Nat :=
  let r := if c.ceSeen then c.rate - c.rate / 2 ^ max 1 (s.fld Reg.ITP_CC 3 0) else c.rate + s.fld Reg.ITP_CC 31 8
  min (portRate s (pathPort s c.peerNode 0)) (max (s.fld Reg.ITP_CC_MIN 23 0) r)

/-- A rate-control period of a connection ends (R396). -/
def execCcPeriodEnd (i : Nat) (s : State) : Host.Outcome State Fault Refusal :=
  let i := i % 4096
  let c := s.conn i
  if c.st ≠ .open_ then .next s
  else match reachUp s (c.ccAt + ccPeriod s) with
    | none => .next s
    | some s1 => .next (s1.setConn i { c with rate := ccRate s c, ceSeen := false, ccAt := s1.time.up })

/-! ### Keys (R478 to R483) -/

def State.job (s : State) (k : Nat) : JobSlot := SMap.get s.itp.jobs {} k
def State.setJob (s : State) (k : Nat) (j : JobSlot) : State :=
  { s with itp := { s.itp with jobs := SMap.set s.itp.jobs {} k j } }

/-- The job slot of a partition that holds a job ID (R478). -/
def jobOf (s : State) (p id : Nat) : Option Nat :=
  (s.itp.jobs.find? fun kv => kv.2.valid && kv.2.part == p && kv.2.id == id).map (·.1)

/-- The byte string I of a key (R479): job ID, sender, its connection, receiver, its connection and epoch. -/
def keyInfo (job a ca b cb e : Nat) : List Nat := toBE 4 job ++ toBE 2 a ++ toBE 4 ca ++ toBE 2 b ++ toBE 4 cb ++ toBE 2 e

/-- ASCII bytes of a label. -/
def ascii (t : String) : List Nat := t.toList.map (·.toNat)

/-- Receive key, transmit key and the two salts of one epoch of a connection, in the order in which a key slot holds them (R479). -/
def deriveKeys (s : State) (i epoch : Nat) : List Nat :=
  let c := s.conn i
  let j := s.job ((jobOf s c.part c.job).getD 0)
  let me := s.fld Reg.FAB_NODE_ID 15 0
  let tx := keyInfo c.job me (connWord i c.gen) c.peerNode (c.peerConn % 2 ^ 20) epoch
  let rx := keyInfo c.job c.peerNode (c.peerConn % 2 ^ 20) me (connWord i c.gen) epoch
  let h : List Nat → Nat → List Nat := fun l n => (hkdf (ascii "WEAHOLT-ITP-1") j.key l n).map (· % 256)
  h (ascii "itp key" ++ rx) 32 ++ h (ascii "itp key" ++ tx) 32 ++ h (ascii "itp salt" ++ rx) 4 ++ h (ascii "itp salt" ++ tx) 4

/-- Ask SCX to derive one epoch of a connection (R480). -/
def deriveAsk (s : State) (i epoch : Nat) (opens : Bool) : State :=
  let from_ := match s.itp.derives.getLast? with
    | some d => max s.time.up d.due
    | none => s.time.up
  let d : Derive := ⟨connWord i (s.conn i).gen, epoch % 65536, opens, from_ + 1024⟩
  ({ s with itp := { s.itp with derives := s.itp.derives ++ [d] } }).setFld Reg.KEY_CMD_STAT 8 8 1

/-- ITP_CONN_CMD OPEN (R386, R480): the keys are derived first. -/
def execConnOpen (i : Nat) (s : State) : Host.Outcome State Fault Refusal :=
  let i := i % 4096
  let c := s.conn i
  if c.st ≠ .free ∨ c.opening ∨ !s.up .itp 0 ∨ c.seg < 4 ∨ 128 < c.seg ∨ !ownsConn s c.part i ∨ (jobOf s c.part c.job).isNone then
    .next (cmdStat s stMALFORMED)
  else .next (deriveAsk (s.setConn i { c with opening := true }) i c.txEpoch true)

/-- The connection is OPEN: sequences, rate and policer start (R386, R396, R434). -/
def connStart (s : State) (i : Nat) : State :=
  let c := s.conn i
  let s1 := s.setConn i { c with
    st := .open_, opening := false, rate := s.fld Reg.ITP_CC_INIT 23 0, rx := 0, msgs := [], rxMsn := 0, rxNext := c.rxPsn, txMsn := 0
    out := [], pkts := [], ctl := [], reads := [], txWin := c.txPsn, ackCnt := 0, ackSince := none, ce := 0, nakTick := 0
    ceSeen := false, paceAt := 0, ccAt := s.time.up }
  let a := s1.rg64 (Reg.RAK_POL_BASE_LO 0) + 16 * i
  let s2 := if s1.bit (Reg.RAK_POL_CFG 0) 0 then (s1.putLE (a + 8) 4 (max (s1.readLE a 4) (s1.readLE (a + 4) 4))).putLE (a + 12) 4 0 else s1
  cmdStat s2 stOK

/-- Close a connection: free, its generation advanced and its key slots empty (R386). -/
def connClose (s : State) (i : Nat) : State :=
  let s1 := connLeave s i
  let c := s1.conn i
  let s2 := s1.setConn i { c with st := .free, gen := (c.gen + 1) % 256 }
  keyEmpty (keyEmpty s2 (2 * i)) (2 * i + 1)

/-- ITP_CONN_CMD CLOSE (R386). -/
def execConnClose (i : Nat) (s : State) : Host.Outcome State Fault Refusal :=
  let i := i % 4096
  if (s.conn i).st = .free then .next (cmdStat s stMALFORMED) else .next (cmdStat (connClose s i) stOK)

/-! ### Work requests (R402 to R404) -/

def wqBase (q : Nat) : Nat := Reg.ITP_WQ_BASE_LO q

/-- A work-queue entry. -/
structure Wqe where
  op : Nat
  cls : Nat
  trig : Nat
  conn : Nat
  local_ : Nat
  length : Nat
  region : Nat
  remote : Nat
  wait : Nat
  msgOp : Nat
  rec_ : Bool
  threshold : Nat
  tag : Nat
deriving DecidableEq, Repr

def readWqe (s : State) (a : Nat) : Wqe :=
  ⟨s.byte a, s.byte (a + 1) % 8, s.readLE (a + 2) 2, s.readLE (a + 4) 4 % 2 ^ 20, s.readLE (a + 8) 8, s.readLE (a + 16) 4,
    s.readLE (a + 20) 4, s.readLE (a + 24) 8, s.readLE (a + 32) 2, s.byte (a + 34), bitOf (s.byte (a + 35)) 0,
    s.readLE (a + 36) 4, s.readLE (a + 40) 4⟩

/-- The head entry of a work queue, where the queue is served. -/
def wqHead (s : State) (q : Nat) : Option Wqe :=
  if s.up .itp 0 ∧ q < 16 then (itpRingHead s (wqBase q) 64).map (readWqe s) else none

/-- The head entry waits for a counter that has not reached its threshold (R402, R404). -/
def wqeDormant (s : State) (w : Wqe) : Bool :=
  w.wait != 0xFFFF && !(decide (w.wait < 1024) && decide (w.threshold ≤ s.fld (Reg.ITP_TRIG w.wait) 23 0))

/-- The extension header that a MSG entry names, in memory. -/
def wqeExt (s : State) (w : Wqe) : List Nat := s.readBytes w.remote ((extLen w.msgOp).getD 0)

/-- The checks of an entry at the head (R402). -/
def wqeStatus (s : State) (w : Wqe) : Nat :=
  let i := cwIdx w.conn
  let c := s.conn i
  let msg := w.op == 4
  let opOk := w.op == 1 || w.op == 2 || w.op == 3 || msg && (w.msgOp == 0x10 || decide (0x12 ≤ w.msgOp) && decide (w.msgOp ≤ 0x16))
  let sizeOk := decide (w.length ≤ 67108864) && (w.op == 3 || decide (msgPkts w.length c.seg ≤ 65535))
  let addrOk := (w.length == 0 || rangeMapped w.local_ w.length) && (!msg || rangeMapped w.remote ((extLen w.msgOp).getD 0))
  if s.connCurrent w.conn ∧ c.st = .error then stCANCELLED
  else if s.connOpen w.conn && opOk && sizeOk && addrOk
      && (!msg || sizeFormula c w.msgOp (wqeExt s w) == some w.length) then stOK
  else stMALFORMED

/-- Serve the head entry of a work queue (R402). -/
def wqServe (s : State) (q : Nat) (w : Wqe) : State :=
  let s1 := itpRingPop s (wqBase q)
  let i := cwIdx w.conn
  let use : Use := .wr q w.tag w.rec_ 0
  let st := wqeStatus s w
  if st ≠ stOK then
    if w.rec_ then cqWrite s1 (wrRec q w.conn w.tag st (decide (st = stCANCELLED)) 0) else s1
  else if w.op = 1 then queueMsg s1 i 0x01 w.cls (toBE 2 w.trig ++ [0, 0, 0, 0, 0, 0]) w.length (.mem w.local_) use
  else if w.op = 2 then queueMsg s1 i 0x02 w.cls (writeExt w.region w.trig w.remote) w.length (.mem w.local_) use
  else if w.op = 3 then sendRead s1 i w.cls w.region w.length w.remote w.local_ use
  else queueMsg s1 i w.msgOp (if w.msgOp = 0x16 then 2 else 1) (wqeExt s w) w.length (.mem w.local_) use

/-- Serve queue `q` where its head is an entry of `op` that is not dormant; an illegal op goes with SEND. An entry that fails its checks
completes as soon as it is at the head, whatever it would wait for. -/
def wqRun (s : State) (q : Nat) (mine : Nat → Bool) : State :=
  match wqHead s q with
  | none => s
  | some w => if mine w.op && (!wqeDormant s w || wqeStatus s w != stOK) then wqServe s q w else s

/-- A SEND work request, or one of an illegal op, at the head of queue `q` (R402). -/
def execWrSend (q : Nat) (s : State) : Host.Outcome State Fault Refusal :=
  .next (wqRun s q fun op => op == 1 || op == 0 || decide (4 < op))
/-- A WRITE work request (R402). -/
def execWrWrite (q : Nat) (s : State) : Host.Outcome State Fault Refusal := .next (wqRun s q (· == 2))
/-- A READ work request (R402). -/
def execWrRead (q : Nat) (s : State) : Host.Outcome State Fault Refusal := .next (wqRun s q (· == 3))
/-- A MSG work request (R402). -/
def execWrMsg (q : Nat) (s : State) : Host.Outcome State Fault Refusal := .next (wqRun s q (· == 4))

/-- Dormant entries whose counter has reached its threshold start, in ascending queue order (R404). -/
def execTriggerStart (s : State) : Host.Outcome State Fault Refusal :=
  .next ((List.range 16).foldl (fun s q =>
    match wqHead s q with
    | none => s
    | some w => if w.wait ≠ 0xFFFF ∧ !wqeDormant s w then wqServe s q w else s) s)

end Sys2Proof.Machine
end

