-- ==== Sys2Proof/Machine/Egress.lean ====
section
/-!
DEFINITION. RAKE and SLUICE (spec/15, R420 to R437): egress queues, gates, deficit round robin, the wire, and queue telemetry.
-/

namespace Sys2Proof.Machine

/-! ### Queues (R420, R421) -/

def State.port (s : State) (p : Nat) : Port := SMap.get s.ports {} p
def State.setPort (s : State) (p : Nat) (v : Port) : State := { s with ports := SMap.set s.ports {} p v }

def Port.queue (p : Port) (q : Nat) : List EgFrame := SMap.get p.queues [] q
def Port.setQueue (p : Port) (q : Nat) (l : List EgFrame) : Port := { p with queues := SMap.set p.queues [] q l }

/-- Depth of a queue in frame bytes. -/
def Port.depth (p : Port) (q : Nat) : Nat := (p.queue q).foldl (fun a f => a + f.bytes) 0

/-- RAK_CLIM_c: values below 9,216 act as 9,216. -/
def classLimit (s : State) (n c : Nat) : Nat := max 9216 (s.fld (Reg.RAK_CLIM n c) 22 0)

/-- The frames that a queue held at the start of this cc and holds now, its new ones too: one that started in this cc counts still
(R421, R431). -/
def Port.held (p : Port) (q up : Nat) : List EgFrame :=
  match p.wire with
  | some w => if w.q = q ∧ w.start = up then w.frame :: p.queue q else p.queue q
  | none => p.queue q

/-- Bytes of RAKn's buffer that an offer sees taken: room that frees in a cc is seen from the next one on (R421). -/
def egUsed (s : State) (n : Nat) : Nat :=
  let left := SMap.get s.egLeft (0, 0) n
  SMap.get s.egBuf 0 n + (if left.1 = s.time.up + 1 then left.2 else 0)

/-- Offer a frame to queue 8c + g of a port; false where it is held, which RAK_HOLD counts (R421). -/
def egOffer (s : State) (port c g : Nat) (f : EgFrame) : State × Bool :=
  let n := port / 8
  let q := 8 * c + g
  let p := s.port port
  let depth := (p.held q s.time.up).foldl (fun a f => a + f.bytes) 0
  if s.up .rak n ∧ depth + f.bytes ≤ classLimit s n c ∧ egUsed s n + f.bytes ≤ 4194304 then
    let s1 := s.setPort port (p.setQueue q (p.queue q ++ [f]))
    ({ s1 with egBuf := SMap.set s1.egBuf 0 n (SMap.get s1.egBuf 0 n + f.bytes) }, true)
  else (s.count (Reg.RAK_HOLD n), false)

/-! ### Packets that a connection has to send (R377, R378, R389, R392, R396) -/

/-- The C-tag of every frame that a port sends, where its ETH_VLANk.tagged is 1: the port's VID, the PCP of the frame's class, DEI 0 (R360). -/
def vlanTag (s : State) (port cls : Nat) : List Nat :=
  match subPort s port with
  | some k =>
    let w := Reg.ETH_VLAN (port / 8) k
    if s.bit w 12 then [0x81, 0x00] ++ toBE 2 (8192 * s.fld (Reg.ETH_PCPMAP (port / 8)) (3 * cls + 2) (3 * cls) + s.fld w 11 0) else []
  | none => []

/-- The complement of the ones' complement sum of 16-bit words in network order: the checksum of IP and UDP. -/
def inetSum (l : List Nat) : Nat :=
  let fold := fun x => x % 65536 + x / 65536
  65535 - fold (fold (((pieces 2 (l ++ List.replicate (l.length % 2) 0) l.length).map ofBE).foldl (· + ·) 0))

/-- Source and destination address of a packet of a connection, in wire order (R385, R438). -/
def pktAddrs (s : State) (c : Conn) : List Nat × List Nat :=
  if c.v4 then (toLE 4 (s.rg Reg.FAB_ADDR4), (toLE 16 c.peerAddr).drop 12) else (nodeAddr6 s, toLE 16 c.peerAddr)

/-- The IP header over `len` bytes (R377): hop limit or TTL 64, DSCP 0, ECT(0), and DF on IPv4. `id` is the IPv4 identification or the IPv6
flow label, which the spec does not give. -/
def ipHeader (s : State) (c : Conn) (len id : Nat) : List Nat :=
  let (src, dst) := pktAddrs s c
  if c.v4 then
    let head := [0x45, 2] ++ toBE 2 (20 + len) ++ toBE 2 id ++ [0x40, 0, 64, 17]
    head ++ toBE 2 (inetSum (head ++ src ++ dst)) ++ src ++ dst
  else toBE 4 (0x60200000 + id % 2 ^ 20) ++ toBE 2 len ++ [17, 64] ++ src ++ dst

/-- The UDP header of a payload: source port the path's entropy, destination port the partner's, with a valid checksum (R377). -/
def udpHeader (s : State) (c : Conn) (entropy : Nat) (payload : List Nat) : List Nat :=
  let (src, dst) := pktAddrs s c
  let ports := toBE 2 entropy ++ toBE 2 c.peerPort ++ toBE 2 (8 + payload.length)
  let sum := inetSum (src ++ dst ++ toBE 2 (8 + payload.length) ++ [0, 17] ++ ports ++ payload)
  ports ++ toBE 2 (if sum = 0 then 65535 else sum)

/-- The Ethernet header, with the port's tag: the spec gives no destination MAC. -/
def ethHeader (s : State) (port cls dst type : Nat) : List Nat :=
  toBE 6 dst ++ toBE 6 (portMac s (port / 8) ((subPort s port).getD 0)) ++ vlanTag s port cls ++ toBE 2 type

/-- A packet as it goes on the wire, FCS left out (R377). Destination MAC and IP identification are free values (assumption 115). -/
def pktFrame (s : State) (c : Conn) (port path cls : Nat) (payload : List Nat) : List Nat :=
  ethHeader s port cls (s.free 48) (if c.v4 then 0x0800 else 0x86DD) ++ ipHeader s c (8 + payload.length) (s.draw.free 16)
    ++ udpHeader s c (pathWord s c.peerNode path % 65536) payload ++ payload

/-- Frame bytes of an ITP packet, FCS included (R377). -/
def itpFrameBytes (s : State) (c : Conn) (port ext body : Nat) : Nat :=
  14 + (vlanTag s port 0).length + (if c.v4 then 20 else 40) + 8 + 40 + ext + body + 16 + 4

/-- The base header of a packet that the node sends (R378). -/
def baseHeader (s : State) (c : Conn) (op flags cls ctr psn msn len idx pkts seg : Nat) : List Nat :=
  [1, op, flags, cls] ++ toBE 4 (c.peerConn % 2 ^ 20) ++ toBE 2 (s.fld Reg.FAB_NODE_ID 15 0) ++ toBE 2 c.txEpoch ++ [0, 0]
    ++ toBE 6 ctr ++ toBE 4 psn ++ toBE 4 msn ++ toBE 4 len ++ toBE 2 idx ++ toBE 2 pkts ++ toBE 2 seg ++ [0, 0]

/-- The segment of packet `idx` of a message. -/
def txSegment (s : State) (m : TxMsg) (seg idx : Nat) : List Nat :=
  let n := segShare m.len seg idx
  match m.src with
  | .bytes l => (l.drop (64 * seg * idx)).take n
  | .mem a => s.readBytes (a + 64 * seg * idx) n

/-- The message of a connection that holds a PSN. -/
def txMsgOf (c : Conn) (psn : Nat) : Option TxMsg :=
  c.out.find? fun m => decide (0 ≤ seqDiff psn m.psn) && decide (seqDiff psn (m.psn + m.pkts) < 0)

/-- Classes 2 and 4 to 7 are paced (R396). -/
def pacedClass (c : Nat) : Bool := c == 2 || decide (4 ≤ c)

/-- The packet that a connection offers next: due, within the partner's window, and not held back by its rate (R389, R396). -/
def nextPkt (s : State) (c : Conn) : Option (TxPkt × TxMsg) :=
  c.pkts.findSome? fun p =>
    match txMsgOf c p.psn with
    | none => none
    | some m =>
      if p.due ∧ ¬ p.queued ∧ seqDiff p.psn (c.txWin + 256) < 0 ∧ ¬ (pacedClass m.cls ∧ s.time.up < c.paceAt) then some (p, m) else none

/-- A transmit counter has been used: at 2^47 the node posts ctr_high (R382). -/
def useCtr (s : State) (i slot : Nat) : State :=
  let k := s.keySlot slot
  let s1 := s.setKeySlot slot { k with txCtr := k.txCtr + 1 }
  if k.txCtr + 1 = 2 ^ 47 then event s1 .itp 0 7 { i0 := connWord i (s.conn i).gen } else s1

/-- A packet for which no path is usable is dropped before egress (R442): it counts as sent. -/
def pathDrop (s : State) (i : Nat) (psn : Option Nat) : State :=
  let s1 := s.count Reg.ITP_DROP_CONN
  let c := s1.conn i
  match psn with
  | none => s1.setConn i { c with ctl := c.ctl.tail }
  | some x =>
    let put := fun (p : TxPkt) => if p.psn = x then { p with due := false, sends := p.sends + 1, at_ := s.time.up } else p
    s1.setConn i { c with pkts := c.pkts.map put }

/-- Offer an unsequenced packet (R390, R392, R440). -/
def offerCtl (s : State) (i slot : Nat) (x : Ctl) : State :=
  let c := s.conn i
  let ctr := (s.keySlot slot).txCtr + 1
  let path := match x.path with
    | some k => if bitOf (pathWord s c.peerNode k) 22 && portUsable s (pathPort s c.peerNode k) then some k else none
    | none => choosePath s c ctr
  match path with
  | none => pathDrop s i none
  | some k =>
    let port := pathPort s c.peerNode k
    let payload := sealPk (s.keySlot slot) ctr (baseHeader s c x.op 0 3 ctr 0 0 0 0 0 0 ++ x.ext) []
    let f : EgFrame := ⟨itpFrameBytes s c port x.ext.length 0, s.time.up, .ctl (connWord i c.gen), k, pktFrame s c port k 3 payload⟩
    let (s1, entered) := egOffer s.draw.draw port 3 (i % 8) f
    if entered then
      let s2 := useCtr s1 i slot
      s2.setConn i { s2.conn i with ctl := c.ctl.tail }
    else s1

/-- Offer a sequenced packet (R380, R381, R391, R392). -/
def offerPkt (s : State) (i slot : Nat) (p : TxPkt) (m : TxMsg) : State :=
  let c := s.conn i
  let ctr := (s.keySlot slot).txCtr + 1
  match choosePath s c (if p.sends = 0 then p.psn else p.path + 1) with
  | none => pathDrop s i (some p.psn)
  | some k =>
    let port := pathPort s c.peerNode k
    let idx := (seqDiff p.psn m.psn).toNat
    let data := txSegment s m c.seg idx
    let flags := (if p.sends = 0 then 0 else 2) + (if idx + 1 = m.pkts then 4 else 0) + (if idx = 0 then 8 else 0)
    let head := baseHeader s c m.op flags m.cls ctr p.psn m.msn m.len idx m.pkts c.seg ++ m.ext
    let payload := sealPk (s.keySlot slot) ctr head (data ++ toLE 4 (crc32c data))
    let f : EgFrame := ⟨itpFrameBytes s c port m.ext.length (data.length + 4), s.time.up, .pkt (connWord i c.gen) p.psn, k,
      pktFrame s c port k m.cls payload⟩
    let (s1, entered) := egOffer s.draw.draw port m.cls (i % 8) f
    if entered then
      let s2 := useCtr s1 i slot
      let c2 := s2.conn i
      let put := fun (q : TxPkt) => if q.psn = p.psn then { q with due := false, queued := true, path := k } else q
      let pace := if pacedClass m.cls then max c2.paceAt s.time.up + ceilDiv (12800 * f.bytes) (max 1 c2.rate) else c2.paceAt
      s2.setConn i { c2 with pkts := c2.pkts.map put, paceAt := pace }
    else s1

/-- Offer the next frame of the control transmit ring, tagged as its port asks: class 3, group 7 (R360, R361, R420). -/
def offerRing (s : State) : State :=
  let a := fringBase 0 1
  let given := SMap.get s.txGiven 0 0
  if txReady s 0 = 0 ∨ !fringOk s a then s
  else
    let slot := fringSlot s a (s.rg (a + 0x10) + given)
    let more := fun (s : State) => { s with txGiven := SMap.set s.txGiven 0 0 (given + 1) }
    if !txSlotOk s 0 slot then more s
    else
      let port := s.byte (slot + 2)
      let len := s.readLE slot 2
      let tag := vlanTag s port 3
      let frame := s.readBytes (slot + 32) len
      let (s1, entered) := egOffer s port 3 7 ⟨len + tag.length + 4, s.time.up, .ring ((s.rg (a + 0x10) + given) % 2 ^ 32), 0,
        frame.take 12 ++ tag ++ frame.drop 12⟩
      if entered then more s1 else s1

/-- A frame is offered to its egress queue: the next packet of connection `src`, or with `src` above 4,095 the next frame of the
control transmit ring (R421). -/
def execEgressEnqueue (src : Nat) (s : State) : Host.Outcome State Fault Refusal :=
  if 4096 ≤ src then .next (offerRing s)
  else
    let c := s.conn src
    match s.liveKey src c.txEpoch with
    | none => .next s
    | some slot =>
      if c.st ≠ .open_ ∨ !s.up .itp 0 ∨ !s.canSend src then .next s
      else match c.ctl with
        | x :: _ => .next (offerCtl s src slot x)
        | [] => match nextPkt s c with
          | some (p, m) => .next (offerPkt s src slot p m)
          | none => .next s

/-! ### Gates (R423 to R427) -/

/-- The gate list that the registers of sub-port `k` of SLUn spell, as they stand or with pending values. -/
def gateRegs (s : State) (n k : Nat) (pending : Bool) : List (Nat × Nat) :=
  let rd := fun a => if pending then s.pendWord a else s.rg a
  (List.range (bitsOf (rd (Reg.SLU_COUNT n k)) 6 0)).map fun i =>
    let w := rd (Reg.SLU_GCL n k i)
    (bitsOf w 23 0, bitsOf w 31 24)

/-- Offsets rise strictly from 0 and stay below the tick length; at most 64 entries (R424). -/
def gatesLegal (lcc : Nat) (l : List (Nat × Nat)) : Bool :=
  decide (l.length ≤ 64) && (l.isEmpty || (l.headD (1, 0)).1 == 0)
    && (l.zip l.tail).all (fun x => decide (x.1.1 < x.2.1)) && l.all (fun x => decide (x.1 < lcc))

/-- A list that was illegal where it was to apply is refused: the registers hold the former list again, and an empty one
where the former list, `old`, is illegal as well (R424). -/
def gatesRefuse (old s : State) (n k : Nat) : State :=
  let s1 := (Reg.SLU_COUNT n k :: (List.range 64).map (Reg.SLU_GCL n k)).foldl (fun s a => s.setRg a (old.rg a)) s
  let s2 := if gatesLegal s.lcc (gateRegs old n k false) then s1 else s1.setFld (Reg.SLU_COUNT n k) 6 0 0
  event (s2.count (Reg.SLU_REFUSED n)) .slu n 3 { i0 := k }

/-- The list of sub-port `k` of SLUn is checked, at a boundary or as it is written before the tick counter runs; `old` is the
state before (R424). -/
def gatesApply (old s : State) (n k : Nat) : State :=
  if gatesLegal s.lcc (gateRegs s n k false) then s else gatesRefuse old s n k

/-- The gate list in force at a port: none while its SLU is disabled (R30, R423). -/
def gateList (s : State) (port : Nat) : List (Nat × Nat) :=
  match subPort s port with
  | some k => if s.en .slu (port / 8) then gateRegs s (port / 8) k false else []
  | none => []

/-- The cc that gate offsets count from: 0 until the tick counter runs. -/
def gateCc (s : State) : Nat := if s.time.running then s.time.cc else 0

/-- The entry of a list that governs a cc, with its index. -/
def gateEntry (l : List (Nat × Nat)) (cc : Nat) : Nat := (l.filter fun x => decide (x.1 ≤ cc)).length - 1

/-- The open mask at a cc: every gate where the list is empty (R423). -/
def gateMask (l : List (Nat × Nat)) (cc : Nat) : Nat := if l.isEmpty then 0xFF else (l.getD (gateEntry l cc) (0, 0xFF)).2

/-- The list that will govern from the next boundary (R425). -/
def nextGates (s : State) (port : Nat) : List (Nat × Nat) :=
  match subPort s port with
  | none => []
  | some k =>
    let g := gateRegs s (port / 8) k true
    if gatesLegal s.lcc g then g else gateList s port

/-- The close of a class after a cc (R425): the first later cc, in this tick or the next, at which its gate goes shut; `none` where the gate
runs on. -/
def gateClose (s : State) (port c cc : Nat) : Option Nat :=
  match (gateList s port).find? fun x => decide (cc < x.1) && !bitOf x.2 c with
  | some x => some x.1
  | none => if s.time.running then ((nextGates s port).find? fun x => !bitOf x.2 c).map fun x => s.lcc + x.1 else none

/-- Wire time of a frame (R422). -/
def wireTime (s : State) (port bytes : Nat) : Nat := ceilDiv ((bytes + 20) * 2 ^ s.ethModeOf (port / 8)) 125

/-- A frame of class `c` may start now (R426, R427). -/
def mayStart (s : State) (port k c bytes : Nat) : Bool :=
  let cc := gateCc s
  let n := port / 8
  if !s.en .slu n then true
  else bitOf (gateMask (gateList s port) cc) c &&
    match gateClose s port c cc with
    | none => true
    | some x => if s.bit (Reg.SLU_MODE n) 0 then decide (cc + s.fld (Reg.SLU_GB n k) 15 0 < x)
      else decide (cc + wireTime s port bytes ≤ x)

/-! ### Deficit round robin (R429) -/

/-- Quantum of a queue in units of 64 B; 0 acts as 1 (R430). -/
def quantum (s : State) (n k q : Nat) : Nat :=
  let w := s.rg (Reg.RAK_QUANT n k (q / 2))
  max 1 (if q % 2 = 0 then bitsOf w 9 0 else bitsOf w 25 16)

/-- The queue's head has been there since an earlier cc and may start now (R422, R429). -/
def egEligible (s : State) (port k : Nat) (p : Port) (q : Nat) : Bool :=
  match p.queue q with
  | [] => false
  | f :: _ => decide (f.enq < s.time.up) && mayStart s port k (q / 8) f.bytes

/-- Visit queues in order until one sends: the port's deficits and turns, and the queue that starts (R429). -/
def drr (s : State) (port k : Nat) : List Nat → Port → Port × Option Nat
  | [], p => (p, none)
  | q :: rest, p =>
    match p.queue q with
    | [] => drr s port k rest { p with deficit := SMap.set p.deficit 0 q 0, turn := SMap.set p.turn 0 q 0 }
    | f :: _ =>
      if !egEligible s port k p q then drr s port k rest p
      else
        let d0 := SMap.get p.deficit 0 q
        let d := if SMap.get p.turn 0 q = 0 then d0 + 64 * quantum s (port / 8) k q else d0
        if f.bytes ≤ d then ({ p with deficit := SMap.set p.deficit 0 q (d - f.bytes), turn := SMap.set p.turn 0 q 1 }, some q)
        else drr s port k rest { p with deficit := SMap.set p.deficit 0 q d, turn := SMap.set p.turn 0 q 0 }

/-- Queues in the order of a decision: rounds from the pointer, as many as the largest frame and the least quantum need. -/
def drrOrder (ptr : Nat) : List Nat := (List.range (64 * 150)).map fun i => (ptr + i) % 64

/-- A sequenced packet starts on the wire: it is sent (R391). -/
def packetSent (s : State) (f : EgFrame) : State :=
  match f.kind with
  | .ring _ => s
  | .ctl _ => s.count Reg.ITP_TX_PKTS
  | .pkt w psn =>
    let s1 := s.count Reg.ITP_TX_PKTS
    let i := cwIdx w
    if !s.connCurrent w then s1
    else
      let c := s1.conn i
      let s2 := if c.pkts.any (fun p => p.psn == psn && decide (p.sends ≠ 0)) then s1.count Reg.ITP_RETX_PKTS else s1
      let put := fun (p : TxPkt) => if p.psn = psn then { p with queued := false, sends := p.sends + 1, at_ := s.time.up } else p
      s2.setConn i { c with pkts := c.pkts.map put }

/-- Start the head frame of a queue: its bytes leave the queue's depth (R421, R429). -/
def startFrame (s : State) (port q : Nat) (p : Port) : State :=
  match p.queue q with
  | [] => s
  | f :: rest =>
    let p1 := (p.setQueue q rest)
    let p2 := if rest.isEmpty then
        { p1 with deficit := SMap.set p1.deficit 0 q 0, turn := SMap.set p1.turn 0 q 0, ptr := (q + 1) % 64 }
      else { p1 with ptr := q }
    let w : OnWire := { q := q, ts := s.stampTime, start := s.time.up, fin := s.time.up + wireTime s port f.bytes, frame := f }
    packetSent (s.setPort port { p2 with wire := some w }) f

/-- The frame that has just started goes out with an inverted FCS (R506). -/
def spoilFcs (s : State) (port : Nat) : State :=
  let p := s.port port
  s.setPort port { p with wire := p.wire.map fun w => { w with spoilt := true } }

/-- A port whose transmitter is free decides what to send (R429); `bad` says that reading the egress buffer meets an uncorrectable
error, so the frame goes out with an inverted FCS (R506). -/
def execTransmitDecision (port : Nat) (bad : Bool) (s : State) : Host.Outcome State Fault Refusal :=
  let n := port / 8
  match subPort s port with
  | none => .next s
  | some k =>
    let p := s.port port
    if p.wire.isSome ∨ !s.up .rak n ∨ !linkIsUp s port ∨ !((List.range 64).any (egEligible s port k p)) then .next s
    else match drr s port k (drrOrder p.ptr) p with
      | (_, none) => .next s
      | (p1, some q) =>
        let s1 := startFrame s port q p1
        .next (if bad then (fault (spoilFcs s1 port) .rak n 0x68 none port q).count Reg.BST_INT_UNCORR else s1)

/-- A frame's last byte leaves the port (R421). -/
def execFrameTxEnd (port : Nat) (s : State) : Host.Outcome State Fault Refusal :=
  match (s.port port).wire with
  | none => .next s
  | some w =>
    match reachUp s w.fin with
    | none => .next s
    | some s1 =>
      let n := port / 8
      let s2 := s1.setPort port { s1.port port with wire := none }
      let left := SMap.get s2.egLeft (0, 0) n
      let now := s2.time.up + 1
      let s3 := { s2 with
        egBuf := SMap.set s2.egBuf 0 n (SMap.get s2.egBuf 0 n - w.frame.bytes)
        egLeft := SMap.set s2.egLeft (0, 0) n (now, (if left.1 = now then left.2 else 0) + w.frame.bytes) }.count (Reg.ETH_TX_FRAMES n)
      .next (match w.frame.kind with
        | .ring slot => { s3 with txDone := SMap.set s3.txDone 0 slot (w.ts + 1) }
        | _ => s3)

/-- The frame on a port's wire is still there at the close of its class: only guard-band mode lets this happen (R427). -/
def overrun (s : State) (port old new : Nat) : State :=
  match subPort s port, (s.port port).wire with
  | some k, some w =>
    let c := w.q / 8
    if s.en .slu (port / 8) && bitOf old c && !bitOf new c && decide (s.time.up < w.fin) then
      event (s.count (Reg.SLU_OVERRUN (port / 8))) .slu (port / 8) 4 { i0 := k, i1 := c }
    else s
  | _, _ => s

/-- The next gate edge of a port in this tick (R423). -/
def execGateEdge (port : Nat) (s : State) : Host.Outcome State Fault Refusal :=
  let l := gateList s port
  match (subPort s port), l.find? (fun x => decide (s.time.cc < x.1)) with
  | some _, some (o, m) =>
    if s.time.running then
      let old := gateMask l s.time.cc
      .next (overrun (s.ccTo o) port old m)
    else .next s
  | _, _ => .next s

/-! ### Telemetry (R432, R433) -/

/-- The feed record of one selected queue, as it stood at the start of the cc: without a frame that entered it in this cc, and with one that
started in it (R431, R433). -/
def feedRecord (s : State) (port q : Nat) : List Nat :=
  let held := ((s.port port).held q s.time.up).filter fun f => decide (f.enq < s.time.up)
  let open_ := bitOf (gateMask (gateList s port) (gateCc s)) (q / 8)
  let soj := match held with
    | [] => 0
    | f :: _ => min (s.time.up - f.enq) 0xFFFFFFFF
  toLE 4 s.time.cc ++ toLE 2 s.time.tick ++ [port, q / 8 + q % 8 * 8 + b2n open_ * 64] ++ toLE 4 (held.foldl (fun a f => a + f.bytes) 0) ++ toLE 4 soj

/-- Entry `e` of RAK_TEL_SEL at a sampling instant: where it is enabled, its queue's record goes to the rack's feed, or is lost where no
channel serves the feed (R432). -/
def telEntry (n : Nat) (s : State) (e : Nat) : State :=
  let w := s.rg (Reg.RAK_TEL_SEL n e)
  match (List.range 8).find? fun l => subPort s (8 * n + l) == some (bitsOf w 2 0) with
  | none => s
  | some l =>
    if !bitOf w 15 then s
    else if (feedChannel s (n + 1)).isSome then
      let r := feedRecord s (8 * n + l) (8 * bitsOf w 5 3 + bitsOf w 8 6)
      { s with feeds := SMap.set s.feeds [] n (SMap.get s.feeds [] n ++ [r]) }
    else event0 (s.count (Reg.RAK_TEL_LOST n)) .rak n 3

/-- The next sample point of RAKn (R432). -/
def execTelemetrySample (n : Nat) (s : State) : Host.Outcome State Fault Refusal :=
  let n := n % 8
  let per := s.fld (Reg.RAK_TEL_PERIOD n) 23 0
  if per = 0 ∨ !s.up .rak n ∨ !s.time.running then .next s
  else
    let taken := SMap.get s.telAt 0 n = s.time.up + 1
    let at_ := if s.time.cc % per = 0 ∧ ¬ taken then s.time.cc else (s.time.cc / per + 1) * per
    if s.lcc ≤ at_ then .next s
    else
      let s0 := s.ccTo at_
      let s1 := { s0 with telAt := SMap.set s0.telAt 0 n (s0.time.up + 1) }
      .next ((List.range 8).foldl (telEntry n) s1)

end Sys2Proof.Machine
end

