-- ==== Sys2Proof/Machine/Fabric.lean ====
section
/-!
DEFINITION. Fabric membership (spec/16, R438 to R467): probes, paths and their ports, flips of the ownership map, mirror commands,
snapshots, forwarding to a mirror, and holdover.
-/

namespace Sys2Proof.Machine

/-! ### Peers (R441, R442) -/

/-- Nodes whose peer-table entry is valid; none where the table does not stand in peat, aligned to its 8 MiB (R467). -/
def validPeers (s : State) : List Nat :=
  let base := s.rg64 Reg.FAB_PEER_LO
  if !peerTableOk s then []
  else s.mem.filterMap fun c =>
    if base ≤ c.1 ∧ c.1 < base + 8388608 ∧ (c.1 - base) % 128 = 0 ∧ bitOf c.2.toNat 0 then some ((c.1 - base) / 128) else none

/-- The valid paths of a peer. -/
def validPaths (s : State) (node : Nat) : List Nat := (List.range 16).filter fun i => bitOf (pathWord s node i) 22

/-- FAB_PATHS: healthy paths and valid paths now unhealthy, over all valid peers (R467). -/
def pathsWord (s : State) : Nat :=
  let ps := validPeers s
  let up := ps.foldl (fun a n => a + healthyCount s n) 0
  let all := ps.foldl (fun a n => a + (validPaths s n).length) 0
  min up 0xFFFF + min (all - up) 0xFFFF * 65536

/-- FAB_NOPATH: peers with no healthy path (R467). -/
def noPathCount (s : State) : Nat := ((validPeers s).filter fun n => healthyCount s n == 0).length

/-- Paths whose port has gone, and paths whose port has come back, which are healthy again with no strikes, at a boundary
(R442); a healthy path that goes may be its peer's last (R443). -/
def pathPorts (s : State) : State :=
  if !s.en .fab 0 then s
  else
    (validPeers s).foldl (fun s node => (validPaths s node).foldl (fun s i =>
      let k := 16 * node + i
      let down := s.fab.portDown.contains k
      if portUsable s (pathPort s node i) then
        if down then
          let s1 := healPath s node i
          { s1 with fab := { s1.fab with portDown := s1.fab.portDown.filter (· != k) } }
        else s
      else if down then s
      else
        let was := bitOf (pathWord s node i) 23
        let s1 := setPathWord s node i (putBits (pathWord s node i) 23 23 0)
        let s2 := { s1 with fab := { s1.fab with portDown := s1.fab.portDown ++ [k] } }
        if was then noPathCheck s2 node else s2) s) s

/-- One probe to a peer on a path. -/
def probeSend (s : State) (node i : Nat) : State :=
  let w := s.readLE (peerAddr s node + 4) 4 % 2 ^ 20
  if s.connOpen w ∧ (s.conn (cwIdx w)).peerNode = node then
    let s1 := queueCtl s (cwIdx w) ⟨0x07, helloExt s 0 i s.fab.echo, some i⟩
    { s1 with fab := { s1.fab with echo := (s1.fab.echo + 1) % 2 ^ 32 } }
  else s

/-- The probes to one peer: every unhealthy path, and one healthy path in rotation (R444); a peer that has not replied for three
periods is reported (R465). -/
def probePeer (s : State) (node : Nat) : State :=
  let paths := (validPaths s node).filter fun i => portUsable s (pathPort s node i)
  let up := paths.filter (pathHealthy s node)
  let pick := if up.isEmpty then [] else [up.getD (s.fab.rot % up.length) 0]
  let s1 := (paths.filter (fun i => !pathHealthy s node i) ++ pick).foldl (fun s i => probeSend s node i) s
  let m := SMap.get s.fab.missed 0 node
  let s2 := if 3 ≤ m then suspect s1 node 3 0 else s1
  { s2 with fab := { s2.fab with missed := SMap.set s2.fab.missed 0 node (m + 1) } }

/-- FAB_HEALTH.probe ticks have passed (R444). -/
def execHelloProbePeriod (s : State) : Host.Outcome State Fault Refusal :=
  if !s.up .fab 0 ∨ s.fab.helloTicks < max 1 (s.fld Reg.FAB_HEALTH 23 8) then .next s
  else
    let s1 := (validPeers s).foldl probePeer s
    .next { s1 with fab := { s1.fab with helloTicks := 0, rot := s1.fab.rot + 1 } }

/-! ### Flips (R447 to R452, R461) -/

/-- Whether the ownership map serves a request that has passed intake (R449, R450). -/
def reqServed (s : State) (slot : Nat) : Bool :=
  let r := s.reqAt slot
  let k := hSlot r.handle
  if r.kind = 4 then true
  else if memoryRole s then false
  else if r.handle = noHandle then true
  else ownServes s k r.kind (r.conn % 2 ^ 20) (coveredLanes s r (s.ctxAt k))

/-- The lowest lane of a context that the current table refuses (R451). -/
def refusedLane (s : State) (slot : Nat) : Option Nat :=
  match ownApplies s slot with
  | none => none
  | some e => (List.range (s.ctxAt slot).lanes).find? fun l => e.role == 0 || decide (l < e.first) || decide (e.first + e.count ≤ l)

/-- A flip finds the contexts that it refuses some lane of, and reports the first (R451). -/
def flipReport (s : State) : State :=
  match (ctxSlots s).find? fun k => (refusedLane s k).isSome with
  | none => s
  | some k => event s .fab 0 4 { i0 := ctxHandle (s.ctxAt k) k, i1 := (refusedLane s k).getD 0 }

/-- A spare in IMPORT that a flip makes OWNER is lost (R461). `old` is the node that each slot's former entry named. -/
def flipLost (old : Nat → Nat) (s : State) : State :=
  (ctxSlots s).foldl (fun s k =>
    match ownApplies s k with
    | some e =>
      if mst s k = mstIMPORT ∧ e.role = 1 ∧ (s.ctxAt k).st = .active then
        let s1 := loseContext s k 1
        suspect (event s1 .fab 0 8 { i0 := ctxHandle (s1.ctxAt k) k }) (old k) 5 0
      else s
    | none => s) s

/-- The node flips to the other ownership table under epoch `v` (R447), or refuses a table that does not stand in peat. -/
def flip (s : State) (v : Nat) : State :=
  let toB := !s.fab.flipped || !s.bit Reg.FAB_OWN_SEL 0
  let base := if toB then s.rg64 Reg.FAB_OWN_B_LO else s.rg64 Reg.FAB_OWN_A_LO
  if !inPeat base || decide (base % 4194304 ≠ 0) || decide (crownBase < base + 4194304) then event0 (s.count Reg.FAB_SKEW) .fab 0 3
  else
    let old := fun k => (ownEntry s k).node
    let s1 := (s.setRg Reg.FAB_OWN_SEL (b2n toB)).setRg Reg.FAB_EPOCH v
    let s2 := { s1 with fab := { s1.fab with flipped := true, ePrev := s.rg Reg.FAB_EPOCH, flipTick := s.time.tick } }
    let role := SMap.get s2.rwt 0 Reg.FAB_ROLE
    let s3 := if role = 0 then s2 else { s2 with rwt := SMap.set s2.rwt 0 Reg.FAB_ROLE 0 }.setRg Reg.FAB_ROLE ((role - 1) % 2)
    let s4 := event0 s3 .fab 0 3
    flipLost old (flipReport { s4 with fab := { s4.fab with flipNow := true } })

/-- After a flip, queued requests that the map does not serve complete with NOT_OWNER (R450, R533). -/
def flipDismiss (s : State) : State :=
  if s.fab.flipNow then
    dismissWhere { s with fab := { s.fab with flipNow := false } } (fun r => !reqServed s r) stNOT_OWNER
  else s

/-- A pending FAB_EPOCH_NEXT value applies, where FAB's en reads 1 (R447). -/
def flipApply (s : State) : State :=
  let v := SMap.get s.rwt 0 Reg.FAB_EPOCH_NEXT
  if v = 0 ∨ !s.up .fab 0 then s
  else flip ({ s with rwt := SMap.set s.rwt 0 Reg.FAB_EPOCH_NEXT 0 }.setRg Reg.FAB_EPOCH_NEXT (v - 1)) (v - 1)

/-- FAB_EPOCH_NEXT is written (R447): a value not ahead of FAB_EPOCH is ignored; the flip waits for the boundary, and takes place at
once before the tick counter runs. -/
def execFabEpochNextWrite (value : Nat) (s : State) : Host.Outcome State Fault Refusal :=
  let v := value % 2 ^ 32
  if seqDiff v (s.rg Reg.FAB_EPOCH) ≤ 0 then .next (event0 (s.count Reg.FAB_SKEW) .fab 0 3)
  else
    let s1 := { s with rwt := SMap.set s.rwt 0 Reg.FAB_EPOCH_NEXT (v + 1) }
    .next (if s.time.running then s1 else flipDismiss (flipApply s1))

/-! ### Mirror commands (R453, R459, R460) -/

/-- A SNAP takes effect: the snapshot waits for the seal point (R459). A node holds one snapshot at a time, so an earlier one's
frames are scrubbed, whichever context it was of (assumption 124). -/
def snapStart (s : State) (slot : Nat) : State :=
  let n : Snap := ⟨slot, (s.ctxAt slot).gen, s.time.tick, false, []⟩
  let s0 := setMst s slot mstSNAP
  let s1 := match s0.fab.snap with
    | none => s0
    | some old => dropSnap s0 old.slot
  { s1 with fab := { s1.fab with snap := some n } }.setRg Reg.FAB_SNAP_STAT (2 ^ 30)

/-- Carry out an FAB_MCMD operation on a context slot (R453). -/
def mcmd (s : State) (slot gen op : Nat) : State :=
  let c := s.ctxAt slot
  let m := mst s slot
  if c.st = .free ∨ c.gen ≠ gen then s
  else if op = 1 then
    if (m = mstOFF ∨ m = mstBROKEN) ∧ !s.bit Reg.FAB_SNAP_STAT 30 then snapStart s slot else s
  else if op = 2 then
    if m = mstFWD then setMst (dropSnap s slot) slot mstSYNC
    else if m = mstOFF ∨ m = mstIMPORT then setMst s slot mstSYNC else s
  else if op = 3 then
    let s1 := mirrorEnd (setMst (dropSnap s slot) slot mstOFF) slot
    dismissWhere s1 (fun r => s1.fab.parked.any (·.req == r) && hSlot (s1.reqAt r).handle == slot) stCANCELLED
  else if op = 4 then
    if m = mstOFF then setMst s slot mstIMPORT else s
  else s

/-- A pending FAB_MCMD applies; its op reads 0 from then on (R453, R467). -/
def mcmdApply (s : State) : State :=
  let v := SMap.get s.rwt 0 Reg.FAB_MCMD
  if v = 0 then s
  else
    let w := v - 1
    let s1 := { s with rwt := SMap.set s.rwt 0 Reg.FAB_MCMD 0 }.setRg Reg.FAB_MCMD (putBits w 28 26 0)
    mcmd s1 (bitsOf w 17 0) (bitsOf w 25 18) (bitsOf w 28 26)

/-- FAB_MCMD is written with an operation: it waits for the boundary, and applies at once before the tick counter runs (R453). -/
def mcmdWrite (slot gen op : Nat) (s : State) : State :=
  let s1 := { s with rwt := SMap.set s.rwt 0 Reg.FAB_MCMD (slot % 2 ^ 18 + gen % 256 * 2 ^ 18 + op * 2 ^ 26 + 1) }
  if s.time.running then s1 else mcmdApply s1

/-- FAB_MCMD SNAP (R459). -/
def execSnap (slot gen : Nat) (s : State) : Host.Outcome State Fault Refusal := .next (mcmdWrite slot gen 1 s)
/-- FAB_MCMD SYNC (R453). -/
def execSync (slot gen : Nat) (s : State) : Host.Outcome State Fault Refusal := .next (mcmdWrite slot gen 2 s)
/-- FAB_MCMD BREAK (R453). -/
def execBreak (slot gen : Nat) (s : State) : Host.Outcome State Fault Refusal := .next (mcmdWrite slot gen 3 s)
/-- FAB_MCMD IMPORT (R453, R460). -/
def execImport (slot gen : Nat) (s : State) : Host.Outcome State Fault Refusal := .next (mcmdWrite slot gen 4 s)

/-! ### Snapshots (R459) -/

/-- The lanes of a context that have a last page, each with the frame tiers of its hint. -/
def snapLanes (s : State) (c : Ctx) : List Nat := (List.range c.lanes).filter fun l => lanePages s c l != 0

/-- Take the frames of a snapshot under the copy-on-write allowance, all or none (R114, R115). -/
def snapFrames (s : State) (c : Ctx) : List Nat → Except Nat (State × List SnapLane)
  | [] => .ok (s, [])
  | l :: rest =>
    let e := pteAt s c l (lanePages s c l - 1)
    match takeFrame s c.part (hintTiers (effHint s c l e.hint)) true .reserved with
    | .error st => .error st
    | .ok (s1, f) => match snapFrames s1 c rest with
      | .error st => .error st
      | .ok (s2, ls) => .ok (s2, ⟨l, e.frame, f, laneLen s c l, false⟩ :: ls)

/-- The entry that a snapshot lane leaves in the snapshot list. -/
def snapEntry (s : State) (handle i : Nat) (x : SnapLane) : State :=
  s.putBytes (s.rg64 Reg.FAB_SNAP_LO + 16 * i) (toLE 4 x.dst ++ toLE 2 x.lane ++ [0, 0] ++ toLE 4 x.len ++ toLE 4 handle)

/-- At the seal point the FRM takes a waiting snapshot's frames and records its lanes; with no frame the snapshot ends with NO_FRAME
(R459). -/
def snapSeal (s : State) : State :=
  match s.fab.snap with
  | none => s
  | some n =>
    if n.taken ∨ !s.up .frm 0 then s
    else
      let c := s.ctxAt n.slot
      if c.gen ≠ n.gen ∨ c.st = .free then
        { s with fab := { s.fab with snap := none } }.setFld Reg.FAB_SNAP_STAT 30 30 0
      else match snapFrames s c (snapLanes s c) with
        | .error st =>
          let s := refuseFrames s c.part st (ctxHandle c n.slot)
          ({ s with fab := { s.fab with snap := none } }.setFld Reg.FAB_SNAP_STAT 30 30 0).setFld Reg.FAB_SNAP_STAT 23 16 stNO_FRAME
        | .ok (s1, ls) =>
          let h := ctxHandle c n.slot
          let s2 := (ls.zipIdx).foldl (fun s x => snapEntry s h x.2 x.1) s1
          { s2 with fab := { s2.fab with snap := some { n with taken := true, lanes := ls } } }.setFld Reg.FAB_SNAP_STAT 11 0 ls.length

/-- The copy of a lane's last page ends (R459). -/
def execSnapshotCopyDone (lane : Nat) (s : State) : Host.Outcome State Fault Refusal :=
  match s.fab.snap with
  | none => .next s
  | some n =>
    match n.lanes.find? fun x => x.lane == lane && !x.copied with
    | none => .next s
    | some x =>
      if !s.en .frm 0 then .next s
      else
        let s1 := copyLoc s (s.loc x.src) (s.loc x.dst)
        let ls := n.lanes.map fun y => if y = x then { y with copied := true } else y
        .next { s1 with fab := { s1.fab with snap := some { n with lanes := ls } } }

/-- At the boundary after the last copy the context is in FWD (R453, R459). -/
def snapBoundary (s : State) : State :=
  match s.fab.snap with
  | none => s
  | some n =>
    if n.taken ∧ s.bit Reg.FAB_SNAP_STAT 30 ∧ n.lanes.all (·.copied) ∧ mst s n.slot = mstSNAP then
      ((setMst s n.slot mstFWD).setFld Reg.FAB_SNAP_STAT 30 30 0).setFld Reg.FAB_SNAP_STAT 31 31 1
    else s

/-! ### Forwarding (R454) -/

/-- The extension of a forwarded request: the mirror's handle, this node's epoch and the next tick. -/
def forwardExt (s : State) (slot : Nat) (e : Own) : List Nat :=
  let r := s.reqAt slot
  let head := toBE 4 (mkReqId r.gen slot) ++ toBE 4 e.handle ++ toBE 4 (s.rg Reg.FAB_EPOCH) ++ toBE 2 ((s.time.tick + 1) % 65536)
  if r.kind = 2 then
    head ++ toBE 2 r.layer ++ toBE 2 (apGroupFirst r) ++ [apGroups r, unpackLE r.params 3 1] ++ toBE 4 r.position ++ toBE 2 (apTokens r)
      ++ [unpackLE r.params 6 1, unpackLE r.params 7 1, 0, 0, 0, 0]
  else head ++ [0, 0]

/-- Forward one admitted APPEND or RELEASE of a context in FWD or SYNC to its mirror. -/
def forwardReq (s : State) (slot : Nat) : State :=
  let r := s.reqAt slot
  let k := hSlot r.handle
  match primaryOf s k with
  | none => s
  | some e =>
    if (r.kind = 2 ∨ r.kind = 4) ∧ (mst s k = mstFWD ∨ mst s k = mstSYNC) then
      let f : Fwd := ⟨slot, r.gen, k, none, none, s.time.tick, true, false⟩
      let s1 := { s with fab := { s.fab with fwds := s.fab.fwds ++ [f] } }
      if s.connOpen e.conn then
        let body := if r.kind = 2 then s.readBytes r.payload r.bytes else []
        (queueMsg s1 (cwIdx e.conn) (if r.kind = 2 then 0x12 else 0x14) 1 (forwardExt s slot e) body.length (.bytes body)
          (.forward slot r.gen)).count Reg.FAB_FWD
      else s1
    else s

/-- At cc 2,048 the admitted requests of mirrored contexts are forwarded, in admission order (R454). -/
def forwardAll (s : State) : State := s.tpl.order.foldl forwardReq s

/-! ### Holdover (R464) -/

/-- Holdover has lasted FAB_HOLD ticks: the node stops serving (R464). -/
def execHoldoverServingStop (s : State) : Host.Outcome State Fault Refusal :=
  if s.bit Reg.PTP_STAT 0 ∧ s.fab.notServing = false ∧ s.fld Reg.FAB_HOLD 23 0 ≤ s.fab.holdTicks then
    let s1 := { s with fab := { s.fab with notServing := true } }
    let s2 := event s1 .fab 0 9 { i0 := s.fld Reg.FAB_HOLD 23 0 }
    .next (suspect s2 (s.fld Reg.FAB_NODE_ID 15 0) 4 0)
  else .next s

/-- The counts that run once a tick: probe periods and holdover; the node serves again after holdover (R444, R464). -/
def fabTick (s : State) : State :=
  let hold := s.bit Reg.PTP_STAT 0
  { s with fab := { s.fab with
    helloTicks := s.fab.helloTicks + 1
    holdTicks := if hold then s.fab.holdTicks + 1 else 0
    notServing := s.fab.notServing && hold } }

end Sys2Proof.Machine
end

