-- ==== Sys2Proof/Machine/Partitions.lean ====
section
/-!
DEFINITION. Keys and partitions (spec/17, R470 to R489): KEY_CMD and the derivation of keys, the bounds of a partition, and its
reset in steps.
-/

namespace Sys2Proof.Machine

/-! ### Key commands (R480 to R483, R501) -/

def keyStat (s : State) (status : Nat) : State := s.setFld Reg.KEY_CMD_STAT 7 0 status

/-- INSTALL_NEXT: derive epoch tx_epoch + 1 of a connection (R481). -/
def installNext (s : State) (i : Nat) : State :=
  let c := s.conn i
  if resetting s c.part then keyStat s stPART_RESET
  else if c.st = .open_ ∧ (jobOf s c.part c.job).isSome then keyStat (deriveAsk s i (c.txEpoch + 1) false) stOK
  else keyStat s stMALFORMED

/-- TX_SWITCH: the transmit epoch advances where the next one is LIVE (R481). -/
def txSwitchCmd (s : State) (i : Nat) : State :=
  if resetting s (s.conn i).part then keyStat s stPART_RESET
  else if (s.liveKey i (((s.conn i).txEpoch + 1) % 65536)).isSome then keyStat (txSwitch s i) stOK
  else keyStat s stMALFORMED

/-- RETIRE_OLD: the key slot that is not the transmit one is emptied (R481). -/
def retireOld (s : State) (i : Nat) : State :=
  if resetting s (s.conn i).part then keyStat s stPART_RESET
  else keyStat (keyEmpty s (2 * i + ((s.conn i).txEpoch + 1) % 2)) stOK

/-- Connections that are OPEN and hold a job, in ascending index. -/
def jobConns (s : State) (j : JobSlot) : List Nat :=
  (s.itp.conns.filter fun kv => decide (kv.2.st = .open_) && kv.2.part == j.part && kv.2.job == j.id).map (·.1)

/-- REKEY_JOB: INSTALL_NEXT for every OPEN connection of the job (R481). -/
def rekeyJob (s : State) (k : Nat) : State :=
  let j := s.job k
  if !j.valid then keyStat s stMALFORMED
  else if resetting s j.part then keyStat s stPART_RESET
  else keyStat ((jobConns s j).foldl (fun s i => deriveAsk s i ((s.conn i).txEpoch + 1) false) s) stOK

/-- Carry out a KEY_CMD operation (R481). -/
def keyDo (s : State) (op target : Nat) : State :=
  if op = 1 then installNext s target
  else if op = 2 then txSwitchCmd s target
  else if op = 3 then retireOld s target
  else rekeyJob s (target % 1024)

/-- A KEY_CMD is written: it queues behind derivations in progress, up to 64 commands (R501); a halted KEY takes none (R29). -/
def keyCmd (op target : Nat) (s : State) : State :=
  let target := target % 4096
  if s.halted .key 0 then s
  else if s.bit Reg.KEY_CMD_STAT 8 then
    if s.itp.keyCmds.length < 64 then { s with itp := { s.itp with keyCmds := s.itp.keyCmds ++ [(op, target)] } } else s
  else keyDo s op target

/-- KEY_CMD INSTALL_NEXT (R481). -/
def execInstallNext (conn : Nat) (s : State) : Host.Outcome State Fault Refusal := .next (keyCmd 1 conn s)
/-- KEY_CMD TX_SWITCH (R481). -/
def execTxSwitch (conn : Nat) (s : State) : Host.Outcome State Fault Refusal := .next (keyCmd 2 conn s)
/-- KEY_CMD RETIRE_OLD (R481). -/
def execRetireOld (conn : Nat) (s : State) : Host.Outcome State Fault Refusal := .next (keyCmd 3 conn s)
/-- KEY_CMD REKEY_JOB (R481). -/
def execRekeyJob (slot : Nat) (s : State) : Host.Outcome State Fault Refusal := .next (keyCmd 4 slot s)

/-- The keys of a derivation go into their slot, unless the connection has gone, its job has gone or its partition is being
reset; a connection that was opening is OPEN (R480, R386). -/
def deriveEnd (s : State) (d : Derive) : State :=
  let i := cwIdx d.conn
  let c := s.conn i
  let stop := fun (s : State) => if d.opens then cmdStat (s.setConn i { c with opening := false }) stMALFORMED else s
  if !s.connCurrent d.conn then s
  else match jobOf s c.part c.job with
  | none => stop s
  | some j =>
    if resetting s c.part then stop s
    else
      let v : KeySlot := { st := .live, epoch := d.epoch, job := j, conn := d.conn, keys := deriveKeys s i d.epoch }
      let s1 := s.setKeySlot (2 * i + d.epoch % 2) v
      if d.opens then connStart s1 i else s1

/-- Serve queued key commands until one starts a derivation. -/
def keyServe : Nat → State → State
  | 0, s => s
  | n + 1, s =>
    match s.itp.keyCmds with
    | [] => s
    | (op, target) :: r =>
      let s1 := keyDo { s with itp := { s.itp with keyCmds := r } } op target
      if s1.bit Reg.KEY_CMD_STAT 8 then s1 else keyServe n s1

/-- SCX ends the derivation of one epoch of one connection (R480). -/
def execKeyDerivationDone (s : State) : Host.Outcome State Fault Refusal :=
  match s.itp.derives with
  | [] => .next s
  | d :: r =>
    match reachUp s d.due with
    | none => .next s
    | some s0 =>
    let s1 := deriveEnd { s0 with itp := { s0.itp with derives := r } } d
    if r.isEmpty then .next (keyServe (s1.itp.keyCmds.length + 1) (s1.setFld Reg.KEY_CMD_STAT 8 8 0)) else .next s1

/-- The 128 bytes of a key-slot entry, with keys and salts as zero (R480). -/
def keyEntNat (s : State) (k : Nat) : Nat :=
  let v := s.keySlot k
  let c := s.conn (k / 2)
  let st := match v.st with | .empty => 0 | .live => 1 | .retired => 2
  packLE [(v.conn, 4), (v.epoch, 2), (st, 1), (b2n (decide (v.st = .live) && v.epoch == c.txEpoch), 1), (v.job, 2), (v.rxHigh, 6),
    (v.txCtr, 6)]

/-- Job slots that a partition holds, and those that are free (R478, R501). -/
def jobsHeld (s : State) (p : Nat) : Nat := (s.itp.jobs.filter fun kv => kv.2.valid && kv.2.part == p).length
def jobsFree (s : State) : Nat := 1024 - (s.itp.jobs.filter fun kv => kv.2.valid).length

/-! ### Bounds (R470 to R472) -/

/-- A partition's bounds: context slots, request slots, connections and regions ÷ 256, each a base and a count, and its job
quota. -/
structure Bounds where
  ctx : Nat × Nat
  req : Nat × Nat
  conn : Nat × Nat
  reg : Nat × Nat
  jobs : Nat
deriving DecidableEq, Repr

/-- The bounds that six register words spell. -/
def boundsOf (rd : Nat → Nat) (p : Nat) : Bounds :=
  let c := rd (Reg.PRT_CONN p)
  let r := rd (Reg.PRT_REGN p)
  ⟨(bitsOf (rd (Reg.PRT_CTXR p)) 17 0, bitsOf (rd (Reg.PRT_CTXN p)) 18 0),
   (bitsOf (rd (Reg.PRT_REQR p)) 19 0, bitsOf (rd (Reg.PRT_REQN p)) 20 0),
   (bitsOf c 11 0, bitsOf c 24 12), (bitsOf r 11 0, bitsOf r 24 12), bitsOf (rd (Reg.PRT_JOBQ p)) 10 0⟩

/-- The registers of a partition's bounds. -/
def boundRegs (p : Nat) : List Nat :=
  [Reg.PRT_CTXR p, Reg.PRT_CTXN p, Reg.PRT_REQR p, Reg.PRT_REQN p, Reg.PRT_CONN p, Reg.PRT_REGN p, Reg.PRT_JOBQ p]

/-- The partition whose bounds a register belongs to. -/
def boundPart (a : Nat) : Option Nat := (List.range 64).find? fun p => (boundRegs p).contains a

/-- Every count is 0: the partition is IDLE (R472). -/
def Bounds.none_ (b : Bounds) : Bool := b.ctx.2 == 0 && b.req.2 == 0 && b.conn.2 == 0 && b.reg.2 == 0 && b.jobs == 0

def rangesMeet (a b : Nat × Nat) : Bool :=
  decide (0 < a.2) && decide (0 < b.2) && decide (a.1 < b.1 + b.2) && decide (b.1 < a.1 + a.2)

/-- Two partitions' bounds share a resource. -/
def Bounds.meets (a b : Bounds) : Bool :=
  rangesMeet a.ctx b.ctx || rangesMeet a.req b.req || rangesMeet a.conn b.conn || rangesMeet a.reg b.reg

def inRange (r : Nat × Nat) (x : Nat) : Bool := decide (r.1 ≤ x) && decide (x < r.1 + r.2)

/-- Regions of the table that are not FREE (R398). -/
def regionsInUse (s : State) : List Nat :=
  let base := s.rg64 Reg.ITP_REG_BASE_LO
  s.mem.filterMap fun c =>
    let i := (c.1 - base) / 32
    if base ≤ c.1 ∧ (c.1 - base) % 32 = 19 ∧ i < s.fld Reg.ITP_REG_CFG 20 0 ∧ bitsOf c.2.toNat 5 4 ≠ 0 then some i else none

/-- Something in use in the old ranges lies outside the new ones (R471). -/
def boundsStrand (s : State) (p : Nat) (old new : Bounds) : Bool :=
  let out := fun (a b : Nat × Nat) x => inRange a x && !inRange b x
  s.ctx.ctxs.any (fun kv => decide (kv.2.st ≠ .free) && out old.ctx new.ctx kv.1)
    || s.ctx.reqs.any (fun kv => decide (kv.2.st ≠ .free) && out old.req new.req kv.1)
    || s.itp.conns.any (fun kv => decide (kv.2.st ≠ .free) && out old.conn new.conn kv.1)
    || (regionsInUse s).any (fun i => out old.reg new.reg (i / 256))
    || decide (new.jobs < jobsHeld s p)

/-- R471 refuses a new set for partition `p`: `taken` are the sets accepted so far at this boundary, `wait` the partitions whose
sets are still to be checked. -/
def boundsRefused (s : State) (p : Nat) (taken : List (Nat × Bounds)) (wait : List Nat) : Bool :=
  let old := boundsOf s.rg p
  let new := boundsOf s.pendWord p
  let other := fun q =>
    match taken.find? (·.1 == q) with
    | some (_, b) => some b
    | none => if wait.contains q then none else some (boundsOf s.rg q)
  let fwd := (s.fld Reg.FAB_FWD_BASE 19 0, s.fld Reg.FAB_FWD_COUNT 20 0)
  (List.range 64).any (fun q => q != p && (match other q with | some b => new.meets b | none => false))
    || decide (262144 < new.ctx.1 + new.ctx.2) || decide (1048576 < new.req.1 + new.req.2) || decide (4096 < new.conn.1 + new.conn.2)
    || decide (4096 < new.reg.1 + new.reg.2) || decide (1024 < new.jobs)
    || rangesMeet new.req fwd || boundsStrand s p old new || resetting s p

/-- The free-slot queue after a change of the context range: lost slots leave, gained FREE slots join the tail in ascending order
(R95). -/
def freeQMove (s : State) (p : Nat) (old new : Nat × Nat) : State :=
  let q := SMap.get s.ctx.freeQ [] p
  let kept := (q.without 0 new.1).without (new.1 + new.2) 262144
  let gain := (Runs.push [] new.1 new.2).without old.1 (old.1 + old.2)
  let busy := (s.ctx.ctxs.filter fun kv => decide (kv.2.st ≠ .free)).map (·.1)
  { s with ctx := { s.ctx with freeQ := SMap.set s.ctx.freeQ [] p (Runs.append kept (busy.foldl Runs.remove gain)) } }

/-- The partition's state follows its counts, outside a reset (R472). -/
def partIdle (s : State) (p : Nat) : State :=
  if resetting s p then s else s.setFld (Reg.PRT_CTXR p) 30 28 (b2n !(boundsOf s.rg p).none_)

/-- What a change of a partition's bounds brings with it; `old` are the bounds before. -/
def boundsMoved (s : State) (p : Nat) (old : Bounds) : State :=
  partIdle (freeQMove s p old.ctx (boundsOf s.rg p).ctx) p

/-- Give a partition its pending bounds. -/
def boundsTake (s : State) (p : Nat) : State :=
  let old := boundsOf s.rg p
  let put := fun (s : State) (a hi : Nat) => s.setFld a hi 0 (bitsOf (s.pendWord a) hi 0)
  let s1 := put (put (put (put s (Reg.PRT_CTXR p) 17) (Reg.PRT_CTXN p) 18) (Reg.PRT_REQR p) 19) (Reg.PRT_REQN p) 20
  let s2 := put (put (put s1 (Reg.PRT_CONN p) 24) (Reg.PRT_REGN p) 24) (Reg.PRT_JOBQ p) 10
  boundsMoved s2 p old

/-- Drop the pending words of a partition's bounds. -/
def boundsDrop (s : State) (p : Nat) : State := (boundRegs p).foldl (fun s a => { s with rwt := SMap.set s.rwt 0 a 0 }) s

/-- The pending bounds of every partition whose bounds were written, in ascending index (R471): which are accepted. -/
def boundsSort (s : State) : List Nat → List (Nat × Bounds) → List (Nat × Bounds)
  | [], acc => acc
  | p :: r, acc => boundsSort s r (if boundsRefused s p acc r then acc else acc ++ [(p, boundsOf s.pendWord p)])

/-- The partitions whose bounds have a pending word. -/
def boundsAsked (s : State) : List Nat := (List.range 64).filter fun p => (boundRegs p).any fun a => SMap.get s.rwt 0 a != 0

/-- The partitions whose pending bounds are accepted. -/
def boundsOk (s : State) : List Nat := (boundsSort s (boundsAsked s) []).map (·.1)

/-- PRT checks and applies the pending bounds at a boundary (R471). -/
def boundsApply (s : State) : State :=
  let ok := boundsOk s
  (boundsAsked s).foldl (fun s p =>
    if ok.contains p then boundsDrop (boundsTake s p) p
    else event (boundsDrop s p) .prt 0 3 { i0 := p }) s

/-! ### Reset (R484 to R488) -/

def rstStat (s : State) (status p : Nat) : State := s.setRg Reg.PRT_RST_STAT (status % 256 + p % 64 * 256)

/-- A partition's key slots begin to retire, from the next cc on, and its job slots are zeroed (R484). -/
def retirePart (s : State) (p : Nat) : State :=
  let b := (boundsOf s.rg p).conn
  { s with
    itp := { s.itp with jobs := s.itp.jobs.filter fun kv => kv.2.part != p }
    prt := { s.prt with retiring := s.prt.retiring ++ [⟨p, 2 * b.1, 2 * b.2⟩] } }

/-- PRT_RESET START (R484). -/
def execPrtResetStart (part : Nat) (s : State) : Host.Outcome State Fault Refusal :=
  let p := part % 64
  if resetting s p then .next (rstStat s stMALFORMED p)
  else
    let s1 := retirePart s p
    .next (rstStat { s1 with prt := { s1.prt with kept := SMap.set s1.prt.kept 0 p 0 } } stOK p)

/-- What one frame of a resetting partition becomes (R487). -/
def frameReset (s : State) (p f : Nat) : State :=
  let d := s.frame f
  let keep := fun (s : State) =>
    let s1 := s.setFrame f { d with owner := 64 }
    { s1 with prt := { s1.prt with kept := SMap.set s1.prt.kept 0 p (SMap.get s1.prt.kept 0 p + 1) } }
  if d.st = .scrub ∨ d.st = .retired then s
  else if 0xFFFF ≤ d.refs then
    if s.bit (Reg.PRT_EXPORTED_LO + 4 * (p / 32)) (p % 32) then keep s else toScrub s f
  else if d.st = .data ∧ 0 < d.refs then keep s
  else toScrub s f

/-- Steps 1 and 2 of COMMIT: queued and parked requests, migration orders and mirror states of p (R486, R263). -/
def commitWork (s : State) (p : Nat) : State :=
  let s1 := dismissWhere s (fun r => reqPart s r == p) stPART_RESET
  let s2 := match s1.frm.order with
    | some o => if hPart o.handle = p then movesStop s1 (hSlot o.handle) (hGen o.handle) stPART_RESET else s1
    | none => s1
  let b := (boundsOf s2.rg p).ctx
  (List.range b.2).foldl (fun s k => if mst s (b.1 + k) = mstOFF then s else mirrorEnd (setMst (dropSnap s (b.1 + k)) (b.1 + k) mstOFF) (b.1 + k)) s2

/-- Steps 3 and 4 of COMMIT: connections, receive queue, trigger counters and regions of p (R486). -/
def commitItp (s : State) (p : Nat) : State :=
  let b := boundsOf s.rg p
  let s1 := (List.range b.conn.2).foldl (fun s k => if (s.conn (b.conn.1 + k)).st = .free then s else connClose s (b.conn.1 + k)) s
  let s2 := s1.setRg (Reg.ITP_RQ_BASE_LO p + 0x10) (s1.rg (Reg.ITP_RQ_BASE_LO p + 0x0C))
  let s3 := (List.range 1024).foldl (fun s k =>
    if bitOf (s.rg (Reg.ITP_TRIG k)) 31 ∧ bitsOf (s.rg (Reg.ITP_TRIG k)) 29 24 = p then s.setFld (Reg.ITP_TRIG k) 31 31 0 else s) s2
  ((regionsInUse s3).filter fun i => inRange b.reg (i / 256) && regionState s3 i == 1).foldl revokeRegion s3

/-- Step 5 of COMMIT and the frames of p (R486, R487). -/
def commitFrames (s : State) (p : Nat) : State :=
  let mine := (s.ctx.ctxs.filter fun kv => decide (kv.2.st ≠ .free) && kv.2.part == p).map (·.1)
  let s1 := mine.foldl releaseApply s
  let gone := s1.fab.imports.filter fun im => im.frames.any fun f => (s1.frame f).owner == p
  let s2 := { s1 with fab := { s1.fab with imports := s1.fab.imports.filter fun im => !gone.contains im } }
  let s3 := gone.foldl (fun s im => settle s im.req stPART_RESET (s.reqAt im.req).handle []) s2
  let fs := (s3.frm.frames.filter fun kv => kv.2.owner == p && decide (kv.2.st ≠ .free)).map (·.1)
  let s4 := fs.foldl (fun s f => frameReset s p f) s3
  let s5 := (s4.tablesOf p).foldl (fun s f => s.setGran f 0) s4
  let s6 := s5.setTables p []
  let s7 := (s6.setPool 0 (Runs.append (s6.pool 0) (s6.freeList p 0))).setFreeList p 0 []
  (s7.setPool 1 (Runs.append (s7.pool 1) (s7.freeList p 1))).setFreeList p 1 []

/-- A COMMIT applies at a boundary (R486, R487). -/
def commitOne (s : State) (p : Nat) : State :=
  let s1 := commitFrames (commitItp (commitWork s p) p) p
  let s2 := s1.setDeficit p 0
  let scrubs := s2.frm.frames.any fun kv => kv.2.owner == p && decide (kv.2.st = .scrub)
  s2.setFld (Reg.PRT_CTXR p) 30 28 (if scrubs then 4 else 3)

/-- The COMMITs that wait apply, in command order. -/
def commitApply (s : State) : State :=
  s.prt.commits.foldl commitOne { s with prt := { s.prt with commits := [] } }

/-- PRT_RESET COMMIT: only for a partition that is RETIRED (R485). -/
def execPrtResetCommit (part : Nat) (s : State) : Host.Outcome State Fault Refusal :=
  let p := part % 64
  if partState s p ≠ 2 ∨ s.prt.commits.contains p then .next (rstStat s stMALFORMED p)
  else
    let s1 := rstStat { s with prt := { s.prt with commits := s.prt.commits ++ [p] } } stOK p
    .next (if s1.time.running then s1 else commitApply s1)

/-- Every block whose recorded fault is partition-scoped and p's clears it (R510). -/
def faultsClear (s : State) (p : Nat) : State :=
  (List.range 0x400).foldl (fun s pg =>
    match pageOwner pg with
    | none => s
    | some (b, n) =>
      let w := s.rg (Reg.BLK_FLT b n)
      if bitOf w 8 ∧ bitOf w 10 ∧ bitsOf w 21 16 = p then s.setRg (Reg.BLK_FLT b n) 0 else s) s

/-- A partition's reset has nothing left to wait for (R488). -/
def resetEnded (s : State) (p : Nat) : Bool :=
  let b := boundsOf s.rg p
  decide (3 ≤ partState s p)
    && !(s.frm.frames.any fun kv => kv.2.owner == p && (decide (kv.2.st = .scrub) || decide (kv.2.st = .copyDst)))
    && !((regionsInUse s).any fun i => inRange b.reg (i / 256) && regionState s i == 2)
    && !(s.itp.stages.any fun g => (s.conn (cwIdx g.conn)).part == p)
    && !(s.ctx.reqs.any fun kv => decide (kv.2.st ≠ .free) && inRange b.req kv.1)

/-- A partition's reset completes (R488). -/
def resetEnd (s : State) (p : Nat) : State :=
  let kept := SMap.get s.prt.kept 0 p
  let s1 := faultsClear (rdlClear s p) p
  let s2 := s1.setFld (Reg.PRT_EXPORTED_LO + 4 * (p / 32)) (p % 32) (p % 32) 0
  let s3 := s2.setFld (Reg.PRT_CTXR p) 30 28 (b2n !(boundsOf s2.rg p).none_)
  let s4 := { s3.setRg Reg.PRT_RST_KEPT kept with prt := { s3.prt with kept := SMap.set s3.prt.kept 0 p 0 } }
  event s4 .prt 0 4 { i0 := p, i1 := kept }

/-- Resets complete at a boundary, in ascending index (R488); a partition whose first frame enters SCRUB later is SCRUBBING from
then on. -/
def resetsEnd (s : State) : State :=
  (List.range 64).foldl (fun s p =>
    if resetEnded s p then resetEnd s p
    else if partState s p = 3 ∧ s.frm.frames.any (fun kv => kv.2.owner == p && decide (kv.2.st = .scrub)) then
      s.setFld (Reg.PRT_CTXR p) 30 28 4
    else s) s

end Sys2Proof.Machine
end

