-- ==== Sys2Proof/Machine/SelfTest.lean ====
section
/-!
DEFINITION. Self-test (spec/18, R507 to R521): the patrol, the poison list, logic self-test slices, and memory self-test with its
repairs.
-/

namespace Sys2Proof.Machine

/-- Lifecycle state (R494): 0 MANUFACTURE, 1 PROVISIONED, 2 DEPLOYED, 3 RMA, 4 SCRAPPED. -/
def lifeState (s : State) : Nat := s.fld Reg.LCS_STATE 2 0

/-- MANUFACTURE or RMA, where every BST function is open (R520). -/
def lifeOpen (s : State) : Bool := lifeState s == 0 || lifeState s == 3

/-! ### Patrol and poison (R507, R508) -/

/-- Corrections in the read path of every other reader are counted: of peat, of crown SRAM and of the internal memories (R504). -/
def readCorr (s : State) (peat crown inner : Nat) : State :=
  ((s.countBy Reg.BST_PEAT_CORR peat).countBy Reg.BST_CROWN_CORR crown).countBy Reg.BST_INT_CORR inner

/-- The patrol reads its next word: `outcome` 0 good, 1 correctable, 2 uncorrectable. A peat word needs port B of its slice (R322). The other
operands are the words that other reads have had corrected since the patrol's last one (R504, assumption 88). -/
def execPatrolWord (read : PatrolRead) (s : State) : Host.Outcome State Fault Refusal :=
  let s := readCorr s read.peat read.crown read.inner
  let a := patrolAddr s
  let held := !inPeat a || (s.pb (sliceOf a)).holder.any (·.src == patrolSrc)
  if !patrolDue s || !held || lifeState s == 4 then .next s
  else
    let s1 := patrolNext (memRelease s a patrolSrc)
    if read.outcome = 1 then .next (s1.count (if inPeat a then Reg.BST_PEAT_CORR else Reg.BST_CROWN_CORR))
    else if read.outcome = 2 then
      let s2 := event0 (fault (uncorr s1 a) .bst 0 0xB2 none (a % 2 ^ 32) (a / 2 ^ 32 % 256)) .bst 0 6
      .next (if inPeat a then poisonAdd s2 (frameAt s2 ((a - peatBase) / 65536)) else s2)
    else .next s1

/-- BST_POISON_ADD (R508, R521). -/
def execPoisonAdd (frame : Nat) (s : State) : Host.Outcome State Fault Refusal :=
  .next (if lifeState s = 4 then s else poisonAdd s (frame % 2 ^ 32))

/-- BST_POISON_DEL (R508, R521). -/
def execPoisonDel (frame : Nat) (s : State) : Host.Outcome State Fault Refusal :=
  .next (if lifeState s = 4 then s else { s with poison := s.poison.filter (· != frame % 2 ^ 32) })

/-! ### Logic self-test (R513 to R516) -/

def lbTile (s : State) : Nat := s.fld Reg.BST_LB_STAT 14 8
def lbArmed (s : State) : Bool := s.bit Reg.BST_LB_STAT 16
def lbRunning (s : State) : Bool := s.bit Reg.BST_LB_STAT 17

/-- cc of a slice without re-initialization (R513). -/
def lbLength (s : State) : Nat := 1024 + 520 * max 1 (s.fld Reg.BST_LB_PATTERNS 15 0)

/-- BST re-initializes a tile: every flop at its reset value; its place among the states stays (R513). -/
def tileReinit (s : State) (n : Nat) : State :=
  let t := s.tile n
  s.setTile n { st := t.st, former := t.former, stopReq := t.stopReq, mode := t.mode, status := t.status, eject := t.eject }

/-- The slice ends with a status after `cc` cycles, re-initialization included. -/
def lbEnd (s : State) (status cc : Nat) : State :=
  ((tileReinit s (lbTile s)).setRg Reg.BST_LB_STAT (status % 256 + lbTile s * 256)).setRg Reg.BST_LB_CYCLES (min cc 0xFFFFFF)

/-- BST_LB_CMD arm (R513); nothing is armed while BST is disabled or the part is SCRAPPED (R30, R520). -/
def execLbistArm (tile : Nat) (s : State) : Host.Outcome State Fault Refusal :=
  if lbArmed s ∨ lbRunning s ∨ !s.up .bst 0 ∨ lifeState s = 4 then .next s
  else .next (s.setRg Reg.BST_LB_STAT (s.fld Reg.BST_LB_STAT 7 0 + tile % 128 * 256 + 65536))

/-- BST_LB_CMD abort: an armed slice is dropped, a running one stops at once and its tile is re-initialized (R515). -/
def execLbistAbort (s : State) : Host.Outcome State Fault Refusal :=
  if lbRunning s then .next (lbEnd s stCANCELLED (s.time.up - s.bst.lbAt + 256))
  else if lbArmed s then .next (s.setRg Reg.BST_LB_STAT (stCANCELLED + lbTile s * 256))
  else .next s

/-- The running slice ends: its patterns have all been applied, the signature compared and the tile re-initialized (R513, R515). -/
def execLbistSliceEnd (misr : Nat) (s : State) : Host.Outcome State Fault Refusal :=
  if !lbRunning s then .next s
  else match reachUp s (s.bst.lbAt + lbLength s + 256) with
  | none => .next s
  | some s0 =>
    let words := (List.range 4).map fun k => misr / 2 ^ (32 * k) % 2 ^ 32
    let golden := (List.range 4).map fun k => s.rg (Reg.BST_LB_GOLDEN k)
    let n := lbTile s
    let s1 := setWords s0 Reg.BST_LB_MISR words
    if words = golden then
      let s2 := (lbEnd s1 stOK (lbLength s + 256)).count Reg.BST_LB_COUNT
      .next (event0 (s2.setFld (Reg.BST_QUAR (n / 32)) (n % 32) (n % 32) 0) .bst 0 3)
    else
      let s2 := fault (lbEnd s1 stCRC (lbLength s + 256)) .bst 0 0xB0 none n (words.getD 0 0)
      .next (event0 (s2.setFld (Reg.BST_QUAR (n / 32)) (n % 32) (n % 32) 1) .bst 0 4)

/-- At a boundary, after the tile changes: a slice whose tile has left ISOLATED is cancelled, and an armed one starts where its tile is
ISOLATED (R513, R515). -/
def lbTurn (s : State) : State :=
  let iso := (s.tile (lbTile s)).st == .isolated
  if lbRunning s then if iso then s else lbEnd s stCANCELLED (s.time.up - s.bst.lbAt + 256)
  else if lbArmed s && iso then
    { (s.setFld Reg.BST_LB_STAT 17 16 2) with bst := { s.bst with lbAt := s.time.up } }
  else s

/-! ### Memory self-test and repair (R517 to R519) -/

def mbStat (s : State) (status : Nat) : State := s.setFld Reg.BST_MB_STAT 7 0 status

/-- cc of a run over a memory kind, and of a repair (R517, R519). -/
def mbLength (s : State) (op kind : Nat) : Nat :=
  if op ≠ 1 then 4096 * s.bst.repairable.length
  else if kind = 1 then 655360
  else if kind = 2 then 245760
  else if kind = 3 then 2 * 447392430
  else 65536

/-- A BST_MB_CMD operation is taken where the lifecycle allows it and the TPL is disabled; one written while busy is ignored (R517, R520,
R521). -/
def mbCommand (op kind : Nat) (s : State) : State :=
  if s.bit Reg.BST_MB_STAT 8 then s
  else if !lifeOpen s then mbStat s stAUTH
  else if s.en .tpl 0 ∨ kind < 1 ∨ 4 < kind then mbStat s stMALFORMED
  else { s.setFld Reg.BST_MB_STAT 8 8 1 with bst := { s.bst with mbOp := op, mbKind := kind, mbDue := s.time.up + mbLength s op kind } }

/-- BST_MB_CMD RUN (R517). -/
def execMbistRun (kind : Nat) (s : State) : Host.Outcome State Fault Refusal := .next (mbCommand 1 kind s)
/-- BST_MB_CMD SOFT_REPAIR (R519). -/
def execSoftRepair (kind : Nat) (s : State) : Host.Outcome State Fault Refusal := .next (mbCommand 2 kind s)
/-- BST_MB_CMD FUSE_REPAIR (R519). -/
def execFuseRepair (kind : Nat) (s : State) : Host.Outcome State Fault Refusal := .next (mbCommand 3 kind s)

/-- log2 of the fail log's entries (R521). -/
def mbLog2 (s : State) : Nat := let k := s.fld Reg.BST_MB_LOG_CFG 3 0; if 4 ≤ k ∧ k ≤ 12 then k else 4

/-- One fail record to the log ring, or dropped; counted either way (R518). -/
def mbRecord (s : State) (f : FailRec) : State :=
  let k := mbLog2 s
  let base := s.rg64 Reg.BST_MB_LOG_LO
  let wr := s.rg Reg.BST_MB_LOG_WR
  let used := (wr + 2 ^ 32 - s.rg Reg.BST_MB_LOG_RD) % 2 ^ 32
  let s1 := s.setFld Reg.BST_MB_STAT 31 16 (min 0xFFFF (s.fld Reg.BST_MB_STAT 31 16 + 1))
  if s.bit Reg.BST_MB_LOG_CFG 8 ∧ used < 2 ^ k ∧ inSram base ∧ base % (16 * 2 ^ k) = 0 then
    (s1.putBytes (base + 16 * (wr % 2 ^ k)) (toLE 8 f.address ++ [f.bit % 256, s.bst.mbKind, f.element % 256, f.flags % 256, 0, 0, 0, 0])).setRg
      Reg.BST_MB_LOG_WR (wr + 1)
  else s1

/-- What a run leaves of a memory kind: every word zero, the last element of March C− having written 0 (R517). Kind 4 are the look-aside buffer, the
RIDDLE entries, the egress buffers, the tiles' register files and the stores of connections and key slots (R504). PRESUMED (assumption 64). -/
def mbWipe (s : State) (kind : Nat) : State :=
  let keep := fun (f : Nat → Bool) (s : State) => { s with mem := s.mem.filter fun kv => !f kv.1 }
  if kind = 1 then
    let s1 := keep inPeat s
    { s1 with ctx := { s1.ctx with ctxs := [], reqs := [] } }
  else if kind = 2 then keep inCrown s
  else if kind = 3 then keep inFen s
  else if kind = 4 then
    let s1 := s.tiles.foldl (fun s kv => s.setTile kv.1 { kv.2 with g := [], v := [], acc := [] }) s
    let s2 := s1.ports.foldl (fun s kv => s.setPort kv.1 { kv.2 with queues := [] }) s1
    { s2 with ctx := { s2.ctx with lab := [] }, rdl := { s2.rdl with ents := [] }, itp := { s2.itp with conns := [], keys := [] }, egBuf := [], egLeft := [] }
  else s

/-- A memory command ends (R517 to R519): `fails` are the failing bits of a run, `worst` the first address that no spare can mend,
`exhausted` says that the repair fuses have no room left. -/
def execMbistDone (fails : List FailRec) (worst : Option Nat) (exhausted : Bool) (s : State) : Host.Outcome State Fault Refusal :=
  if !s.bit Reg.BST_MB_STAT 8 then .next s
  else match reachUp s s.bst.mbDue with
  | none => .next s
  | some s =>
    let kind := s.bst.mbKind
    let s0 := s.setFld Reg.BST_MB_STAT 8 8 0
    let fin := fun (s : State) (st : Nat) => event0 (mbStat s st) .bst 0 5
    if s.bst.mbOp = 1 then
      let s1 := (mbWipe s0 kind).setFld Reg.BST_MB_STAT 31 16 0
      let s2 := fails.foldl mbRecord s1
      let good := (fails.filter fun f => bitOf f.flags 0 && kind != 4).map fun f => (kind, f.address)
      let s3 := { s2 with bst := { s2.bst with repairable := good } }
      let s4 := match worst with
        | some a => fault s3 .bst 0 0xB1 none kind (a % 2 ^ 32)
        | none => s3
      .next (fin s4 stOK)
    else if s.bst.mbOp = 2 then .next (fin { s0 with bst := { s0.bst with soft := s0.bst.soft ++ s0.bst.repairable } } stOK)
    else if exhausted then .next (fin s0 stQUOTA)
    else .next (fin { s0 with nv := { s0.nv with repairs := s0.nv.repairs ++ s0.bst.repairable } } stOK)

/-- A word of the poison list as BST_POISON_VAL shows it (R521). -/
def poisonVal (s : State) : Nat := s.poison.getD (s.fld Reg.BST_POISON_IDX 9 0) 0xFFFFFFFF

end Sys2Proof.Machine
end

