-- ==== Sys2Proof/Machine/Lifecycle.lean ====
section
/-!
DEFINITION. Lifecycle, boot images, tokens and attestation (spec/17, R490 to R503).
-/

namespace Sys2Proof.Machine

/-! ### Images and boot (R490, R491, R525) -/

/-- Image of kind `k` (0 SCX, 1 MCX, 2 tile service) in slot `n`. -/
def State.image (s : State) (n k : Nat) : Image := SMap.get s.nv.images {} (3 * n + k)

/-- The anti-rollback counter of an image kind (R492). -/
def arbOf (s : State) (k : Nat) : Nat := s.fld Reg.LCS_ARB (8 * k + 6) (8 * k)

/-- A slot's three images are good (R490). -/
def slotGood (s : State) (n : Nat) : Bool :=
  (List.range 3).all fun k => (s.image n k).ok && decide (arbOf s k ≤ (s.image n k).svn)

/-- The slot that was booted (R502). -/
def bootSlot (s : State) : Nat := s.fld Reg.LCS_BOOT 0 0

/-- 48 bytes of a digest held as a little-endian number. -/
def digestBytes (d : Nat) : List Nat := toLE 48 d

/-- What the attestation key is derived from: measurements, svns, lifecycle and debug state at boot (R493). -/
def akInputs (s : State) (n : Nat) : List Nat :=
  digestBytes (s.image n 0).digest ++ toLE 2 (s.image n 0).svn ++ digestBytes (s.image n 1).digest ++ toLE 2 (s.image n 1).svn ++ [lifeState s]

/-- Boot ROM reads the boot record, picks a slot and counts the attempt (R525): the slot and whether it is the other one. -/
def bootPick (s : State) : State × Nat × Bool :=
  let pref := if s.nv.recordOk then s.nv.preferred % 2 else 0
  let tries := if s.nv.recordOk then s.nv.tries else 0
  if tries < 3 then ({ s with nv := { s.nv with recordOk := true, preferred := pref, tries := tries + 1 } }, pref, false)
  else (s, 1 - pref, true)

/-- Start-up begins at t0: the slot to boot is found, or the node stays in ROM (R491, R494, R522). -/
def bootStart (s : State) : State :=
  let (s1, n, fb) := bootPick { s with lcs := { s.lcs with started := true } }
  let pref := if s1.nv.recordOk then s1.nv.preferred % 2 else 0
  let put := fun (s : State) (n : Nat) (fb : Bool) =>
    let s2 := s.setRg Reg.LCS_BOOT (n + 2 * b2n fb + 4 * pref)
    { s2 with lcs := { s2.lcs with akFrom := akInputs s2 n } }
  if lifeState s = 4 then { s1 with lcs := { s1.lcs with rom := true } }
  else if slotGood s1 n then put s1 n fb
  else if slotGood s1 (1 - n) then put s1 (1 - n) true
  else { (put s1 n true) with lcs := { s1.lcs with rom := true } }

/-! ### Scopes and the challenge (R494, R496, R502) -/

/-- Scopes open: [0] Snius writes, [1] JTAG private, [2] fen debug port (R494). -/
def openScopes (s : State) : Nat :=
  if lifeOpen s then 7 else if lifeState s = 4 then 0 else s.lcs.unlock % 8

/-- The challenge is replaced by eight random words (R496, R503). -/
def newChallenge (s : State) : State :=
  (List.range 8).foldl (fun s k => (s.setRg (Reg.ATT_CHAL k) (s.free 32)).draw) s

def lcsStat (s : State) (status : Nat) : State := s.setRg Reg.LCS_CMD_STAT status

/-- LCS_CMD COMMIT_ARB: each counter rises to the running image's svn, at most 64 (R492). -/
def execCommitArb (s : State) : Host.Outcome State Fault Refusal :=
  let n := bootSlot s
  let s1 := (List.range 3).foldl (fun s k => s.setFld Reg.LCS_ARB (8 * k + 6) (8 * k) (max (arbOf s k) (min 64 (s.image n k).svn))) s
  let big := (List.range 3).any fun k => decide (64 < (s.image n k).svn)
  .next (event0 (lcsStat s1 (if big then stMALFORMED else stOK)) .lcs 0 5)

/-- LCS_CMD SELECT_SLOT: LCS_BOOT.next becomes the preferred slot, with no tries (R525). -/
def execSelectSlot (s : State) : Host.Outcome State Fault Refusal :=
  .next (lcsStat { s with nv := { s.nv with recordOk := true, preferred := s.fld Reg.LCS_BOOT 2 2, tries := 0 } } stOK)

/-- LCS_CMD RELOCK ends a debug unlock (R494). -/
def execRelock (s : State) : Host.Outcome State Fault Refusal :=
  .next (lcsStat { s with lcs := { s.lcs with unlock := 0 } } stOK)

/-! ### Reports (R498, R499) -/

/-- Bytes of consecutive registers in ascending order. -/
def regBytes (s : State) (reg : Nat → Nat) (n : Nat) : List Nat := (List.range n).flatMap fun k => toLE 4 (s.rg (reg k))

/-- The address of a credential-table entry (R476). -/
def credAddr (s : State) (p : Nat) : Nat := s.rg64 Reg.PRT_CRED_LO + 64 * p
/-- The credential table stands in peat, 4,096-byte aligned (R500). -/
def credTable (s : State) : Bool := inPeat (s.rg64 Reg.PRT_CRED_LO) && decide (s.rg64 Reg.PRT_CRED_LO % 4096 = 0)
def credValid (s : State) (p : Nat) : Bool := credTable s && bitOf (s.byte (credAddr s p + 48)) 0

/-- Code of a tile state in TIL_STATE (R347, R354). -/
def tileStCode : TileSt → Nat
  | .stopped => 0
  | .measure => 1
  | .armed => 2
  | .running => 3
  | .halted => 4
  | .faulted => 5
  | .isolated => 6

/-- The 48 bytes of a partition in a report (R498). -/
def reportPart (s : State) (p : Nat) : List Nat :=
  let b := boundsOf s.rg p
  let bitAt := fun (lo : Nat) => b2n (s.bit (lo + 4 * (p / 32)) (p % 32))
  let flags := b2n (credValid s p) + 2 * bitAt Reg.TPL_SHARE_LO + 4 * bitAt Reg.RDL_XPART_LO + 8 * bitAt Reg.PRT_EXPORTED_LO
  [partState s p, flags] ++ toLE 2 (jobsHeld s p) ++ toLE 4 b.ctx.1 ++ toLE 4 b.ctx.2 ++ toLE 4 b.req.1 ++ toLE 4 b.req.2
    ++ toLE 2 b.conn.1 ++ toLE 2 b.conn.2 ++ toLE 2 (2 * b.conn.1) ++ toLE 2 (2 * b.conn.2) ++ toLE 2 b.reg.1 ++ toLE 2 b.reg.2
    ++ toLE 2 (rdlBase s p) ++ toLE 2 b.jobs ++ toLE 4 (rdlSize s p) ++ toLE 4 (s.fld (Reg.FRM_PQUOTA p) 24 0)
    ++ toLE 4 (s.fld (Reg.FRM_PRES p) 24 0)

/-- Lifecycle and debug bytes of a report (R498). -/
def lifeBytes (s : State) : List Nat :=
  [lifeState s, b2n (openScopes s != 0) + 2 * openScopes s]

/-- Bytes 0 to 10,103 of a report (R498). -/
def reportBody (s : State) (nonce : List Nat) : List Nat :=
  let n := bootSlot s
  [0x48, 0x4B, 0x56, 0x52] ++ toLE 2 1 ++ toLE 2 10200 ++ (List.range 32).map (fun i => nonce.getD i 0 % 256) ++ toLE 8 s.time.tick
    ++ regBytes s Reg.LCS_SERIAL 4 ++ digestBytes Config.deviceId.toNat ++ lifeBytes s ++ [s.fld Reg.LCS_BOOT 1 0, 0]
    ++ toLE 2 (arbOf s 0) ++ toLE 2 (arbOf s 1) ++ toLE 2 (arbOf s 2) ++ toLE 2 0xB0 ++ toLE 4 (s.rg Reg.FAB_EPOCH)
    ++ digestBytes Config.romDigest.toNat ++ digestBytes (s.image n 0).digest ++ digestBytes (s.image n 1).digest
    ++ regBytes s Reg.MSH_SVC_DIGEST 12 ++ regBytes s Reg.LCS_OWNER 12 ++ toLE 8 0
    ++ (List.range 128).flatMap (fun t => [(s.tile t).mode, tileStCode (s.tile t).st, 0, 0] ++ regBytes s (Reg.TIL_DIGEST t) 12)
    ++ (List.range 64).flatMap (reportPart s)

/-- A signed report (R498): the body and 96 bytes of signature. -/
def signReport (s : State) (body : List Nat) : List Nat :=
  let sig := Config.akSign s.lcs.akFrom body
  body ++ (List.range 96).map fun i => sig.getD i 0 % 256

/-- Ask for a report: its values are sampled at once (R498). -/
def reportAsk (s : State) (nonce : List Nat) (dest : Wants) : State :=
  { s with lcs := { s.lcs with reports := s.lcs.reports ++ [⟨reportBody s nonce, dest⟩] } }

def attStat (s : State) (status : Nat) : State := s.setFld Reg.ATT_STAT 7 0 status
def attBusy (s : State) (b : Bool) : State := s.setFld Reg.ATT_STAT 8 8 (b2n b)
def attBuf (s : State) : Nat := s.rg64 Reg.ATT_BUF_LO
/-- ATT_BUF is 64-byte aligned in peat or crown SRAM (R503). -/
def attBufOk (s : State) : Bool := inSram (attBuf s) && decide (attBuf s % 64 = 0)
/-- ATT takes a command: enabled, and none in progress (R30, R503). -/
def attTakes (s : State) : Bool := s.up .att 0 && !s.bit Reg.ATT_STAT 8

/-- ATT_CMD NEWCHAL (R503). -/
def execNewchal (s : State) : Host.Outcome State Fault Refusal :=
  .next (if attTakes s then attStat (newChallenge s) stOK else s)

/-- ATT_CMD REPORT with ATT_NONCE (R503). -/
def execReport (s : State) : Host.Outcome State Fault Refusal :=
  if !attTakes s then .next s
  else if !attBufOk s then .next (attStat s stMALFORMED)
  else .next (attBusy (reportAsk s (regBytes s Reg.ATT_NONCE 8) (.mem (attBuf s))) true)

/-! ### Tokens (R495, R496) -/

/-- Fields of a token (R495). -/
def tokKind (b : List Nat) : Nat := b.getD 2 0
def tokScope (b : List Nat) : Nat := b.getD 3 0
def tokNum (b : List Nat) (o n : Nat) : Nat := packLE (((b.drop o).take n).map fun x => (x, 1))

/-- SHA-384 of a token's key, as a little-endian number of its bytes. -/
def tokKeyDigest (b : List Nat) : Nat := (sha384 ((b.drop 60).take 96)).toNat

/-- The fused owner key digest (R502). -/
def ownerDigest (s : State) : Nat := packLE ((List.range 12).map fun k => (s.rg (Reg.LCS_OWNER k), 4))

/-- The key that R496 requires for a token's kind in the present state; `none` where the kind is not accepted in it. -/
def tokSigner (s : State) (kind digest : Nat) : Bool :=
  let life := lifeState s
  if kind = 1 then (life == 1 && digest == (Config.weaholtKey 0).toNat) || (life == 2 && digest == ownerDigest s)
  else if kind = 2 then life == 1
  else if kind = 3 then life == 2 && digest == ownerDigest s
  else if kind = 4 then
    if life = 2 ∨ life = 3 then digest == ownerDigest s else life != 4 && digest == (Config.weaholtKey 1).toNat
  else kind == 5 && life == 0 && digest == (Config.weaholtKey 1).toNat

/-- SCX accepts a token (R496). -/
def tokAccepted (s : State) (b : List Nat) : Bool :=
  let expiry := tokNum b 52 6
  b.length == 252 && tokNum b 0 2 == 1
    && tokNum b 4 16 == packLE ((List.range 4).map fun k => (s.rg (Reg.LCS_SERIAL k), 4))
    && tokNum b 20 32 == packLE ((List.range 8).map fun k => (s.rg (Reg.ATT_CHAL k), 4))
    && (tokKind b != 1 || expiry == 0 || decide (s.time.tick ≤ expiry))
    && Config.ecdsaVerifies ((b.drop 60).take 96) (b.take 156) ((b.drop 156).take 96)
    && tokSigner s (tokKind b) (tokKeyDigest b)

/-- Answer a management session: its response to a request gains its contents when they are ready. -/
def mgtAnswer (s : State) (id : Nat) (m : Spdm) : State :=
  match s.mgt.sessions.find? (·.id == id) with
  | none => s
  | some x =>
    let r : Resp := { op := 0x85, session := id, seq := x.seq - 1, status := stOK, done := 0, values := [], spdm := some m }
    let ss := s.mgt.sessions.map fun y => if y.id = id then { y with resp := some r } else y
    { s with mgt := { s.mgt with sessions := ss, sent := some r } }

/-- Tell whoever submitted a token its status (R477, R503). -/
def tokenTell (s : State) (w : Wants) (status : Nat) : State :=
  match w with
  | .mem _ => attBusy (attStat s status) false
  | .session id => mgtAnswer (if status = stAUTH then attStat s status else s) id (.vendor [status])
  | .serial => s

/-- The token in front is judged as one of `kind` and, where accepted, has its effect; every attempt replaces the challenge (R496). -/
def tokenJudge (kind : Nat) (effect : List Nat → State → State) (s : State) : State :=
  match s.lcs.tokens with
  | [] => s
  | t :: rest =>
    if tokKind t.bytes ≠ kind then s
    else
      let s1 := { s with lcs := { s.lcs with tokens := rest } }
      if tokAccepted s t.bytes then tokenTell (newChallenge (effect t.bytes s1)) t.from_ stOK
      else event0 (tokenTell (newChallenge s1) t.from_ stAUTH) .att 0 4

/-- A token reaches SCX; one of no legal kind is refused at once (R496). -/
def tokenSubmit (s : State) (b : List Nat) (w : Wants) : State :=
  if tokKind b < 1 ∨ 5 < tokKind b then event0 (tokenTell (newChallenge s) w stAUTH) .att 0 4
  else { s with lcs := { s.lcs with tokens := s.lcs.tokens ++ [⟨b, w⟩] } }

/-- ATT_CMD TOKEN: the 252 bytes at ATT_BUF are submitted (R503). -/
def execAttToken (s : State) : Host.Outcome State Fault Refusal :=
  if !attTakes s then .next s
  else if !attBufOk s then .next (attStat s stMALFORMED)
  else .next (tokenSubmit (attBusy s true) (s.readBytes (attBuf s) 252) (.mem (attBuf s)))

def setLife (s : State) (v : Nat) : State := s.setFld Reg.LCS_STATE 2 0 v

/-- DEBUG_UNLOCK: the scopes open until device reset or RELOCK (R494, R496). -/
def execDebugUnlock (s : State) : Host.Outcome State Fault Refusal :=
  .next (tokenJudge 1 (fun b s =>
    event0 { s with lcs := { s.lcs with unlock := Nat.lor s.lcs.unlock (tokScope b % 8) } } .lcs 0 3) s)

/-- DEPLOY: the signer's key digest becomes the owner's (R496). -/
def execDeploy (s : State) : Host.Outcome State Fault Refusal :=
  .next (tokenJudge 2 (fun b s =>
    setLife (setWords s Reg.LCS_OWNER ((List.range 12).map fun k => tokKeyDigest b / 2 ^ (32 * k) % 2 ^ 32)) 2) s)

/-- What ENTER_RMA does before the state changes (R497): every key and job slot goes, peat and fen are scrubbed, and with peat every
ownership, peer and credential table is cleared; the node serves nothing from then on. -/
def rmaClear (s : State) : State :=
  let s1 := retireSlots { s with itp := { s.itp with jobs := [] }, prt := { s.prt with retiring := [] } } 0 8192
  let s2 := { s1 with mem := s1.mem.filter fun kv => !(inPeat kv.1 || inFen kv.1) }
  { s2 with ctx := { s2.ctx with ctxs := [], reqs := [] }, frm := {}, tpl := {} }

/-- ENTER_RMA (R496, R497). -/
def execEnterRma (s : State) : Host.Outcome State Fault Refusal :=
  .next (tokenJudge 3 (fun _ s => setLife (rmaClear s) 3) s)

/-- SCRAP: the unique device secret is gone (R496). -/
def execScrap (s : State) : Host.Outcome State Fault Refusal := .next (tokenJudge 4 (fun _ s => setLife s 4) s)

/-- PROVISION (R496). -/
def execProvision (s : State) : Host.Outcome State Fault Refusal := .next (tokenJudge 5 (fun _ s => setLife s 1) s)

/-- SCX has signed the report in front: it goes where it was asked for (R499, R503). -/
def execReportSigned (s : State) : Host.Outcome State Fault Refusal :=
  match s.lcs.reports with
  | [] => .next s
  | r :: rest =>
    let s1 := { s with lcs := { s.lcs with reports := rest } }
    let b := signReport s r.bytes
    match r.dest with
    | .mem a => .next (event0 (attBusy (attStat (s1.putBytes a b) stOK) false) .att 0 3)
    | .session id => .next (mgtAnswer s1 id (.vendor b))
    | .serial =>
      .next (event0 { s1.putBytes (attBuf s1) (if attBufOk s1 then b else []) with uart := { status := stOK, out := b } } .att 0 3)

end Sys2Proof.Machine
end

