-- ==== Sys2Proof/Machine/Startup.lean ====
section
/-!
DEFINITION. Device reset, start-up and the SYS and CLK blocks (spec/19, R522 to R543; spec/20, R555).
-/

namespace Sys2Proof.Machine

/-! ### Device reset (R531) -/

/-- The registers that show fuses, which a device reset keeps (R531, R502, R564). -/
def fuseRegs : List Nat :=
  [Reg.LCS_STATE, Reg.LCS_ARB] ++ (List.range 4).map Reg.LCS_SERIAL ++ (List.range 12).map Reg.LCS_OWNER

/-- A device reset: every register at its reset value, every context, request, connection, key and job gone, memory zero; fuses, QSPI
contents and SYS_RESET_CAUSE survive, and the challenge is drawn anew (R531, R526, R503). `cause` are the bits it sets. -/
def deviceReset (s : State) (cause : Nat) : State :=
  let blank : State :=
    { pending := s.pending, nv := s.nv, boot := s.boot + 1, fresh := s.fresh, lcs := { started := s.lcs.started } }
  let s1 := fuseRegs.foldl (fun t a => t.setRg a (s.rg a)) blank
  let s2 := s1.setFld Reg.PWR_VCORE 25 16 (s.fld Reg.PWR_VCORE 25 16)
  newChallenge (s2.setRg Reg.SYS_RESET_CAUSE (Nat.lor (s.rg Reg.SYS_RESET_CAUSE) (cause % 32)))

/-- A reset that leaves the pins as they are: start-up runs again at once (R531, R555). -/
def warmReset (s : State) (cause : Nat) : State :=
  let s1 := deviceReset s cause
  if s.lcs.started then bootStart s1 else s1

/-- A reset that a pin brings: t0 is still to come (R555). -/
def pinReset (s : State) (cause : Nat) : State :=
  let s1 := deviceReset s cause
  { s1 with lcs := { s1.lcs with started := false } }

/-- A device reset with the cause bits given (R531); that of SYS_RESET comes 160,000 cc after the write that asked for it (R532). -/
def execDeviceReset (cause : Nat) (s : State) : Host.Outcome State Fault Refusal :=
  if cause % 32 ≠ 4 then .next (warmReset s cause)
  else match s.sys.resetAt with
  | none => .next s
  | some a => match reachUp s (a + 160000) with
    | none => .next s
    | some s1 => .next (warmReset s1 cause)

/-- A write of SYS_RESET: only 0xA5C3_0001 asks for a reset (R532). -/
def execSysReset (value : Nat) (s : State) : Host.Outcome State Fault Refusal :=
  if value = 0xA5C30001 ∧ s.sys.resetAt.isNone then .next { s with sys := { s.sys with resetAt := some s.time.up } } else .next s

/-- PWROK falls: a device reset, which ends a trip and its hold; in the cc of the trip both cause bits are set (R555, R559, R562,
assumption 140). -/
def execPwrokFall (s : State) : Host.Outcome State Fault Refusal := .next (pinReset s (if s.pwr.trip = some s.time.up then 9 else 1))

/-- RESET_N falls: a device reset, but ignored from a trip on; in the cc of the trip both cause bits are set, and the node is held in reset (R555,
R559, R562). -/
def execResetNFall (s : State) : Host.Outcome State Fault Refusal :=
  if s.pwr.hold then .next s
  else if s.pwr.trip = none then .next (pinReset s 2)
  else if s.pwr.trip = some s.time.up then .next { pinReset s 10 with pwr := { (pinReset s 10).pwr with hold := true } }
  else .next s

/-- PWROK and RESET_N are both qualified high: start time t0 (R555, R522). -/
def execPinsQualified (s : State) : Host.Outcome State Fault Refusal :=
  if s.lcs.started ∨ s.pwr.hold then .next s else .next (bootStart { s with time := {} })

/-! ### Start-up steps (R522 to R524) -/

/-- What a completed start-up step brings with it: SCX writes the service image's measurement and locks MSH (R491); MCX runs and the
fallback shows (R491). -/
def bootStepDone (s : State) (step : Nat) : State :=
  if step = 3 then
    let d := (s.image (bootSlot s) 2).digest
    (setWords s Reg.MSH_SVC_DIGEST ((List.range 12).map fun k => d / 2 ^ (32 * k) % 2 ^ 32)).setFld (Reg.BLK_LOCK .msh 0) 0 0 1
  else if step = 4 ∧ s.bit Reg.LCS_BOOT 1 then event0 s .lcs 0 4
  else s

/-- Before step 4, and while ROM holds the node, the UART carries a ROM line for each step written: its step, status and time (R536). -/
def romLine (s : State) (step status us : Nat) : State :=
  if s.lcs.rom ∨ step < 4 then { s with uart := { s.uart with status := stOK, out := [step, status, us] } } else s

/-- SYS_BOOT is written: the step's time is stamped and boot_step posted (R523); a node held in ROM goes no further than step 2, and a
failure in one of the steps 1 to 3 holds it there (R524). -/
def execSysBootWrite (step status : Nat) (serving : Bool) (s : State) : Host.Outcome State Fault Refusal :=
  let step := step % 16
  if s.lcs.rom ∧ 3 ≤ step then .next s
  else
    let us := s.uptimeUs % 2 ^ 32
    let s1 := s.setRg Reg.SYS_BOOT (step + status % 256 * 256 + b2n serving * 2 ^ 31)
    let s2 := if 1 ≤ step ∧ step ≤ 8 then s1.setRg (Reg.SYS_STEPT (step - 1)) us else s1
    let s3 := if step ≤ 2 ∧ status % 256 ≠ 0 then { s2 with lcs := { s2.lcs with rom := true } } else s2
    .next (romLine (event (bootStepDone s3 step) .sys 0 3 { i0 := step, i1 := us }) step (status % 256) us)

/-! ### The MCX watchdog (R541) -/

/-- A write of SYS_WDOG_KICK: 0x0000_5A5A restarts the period (R541). -/
def execSysWdogKick (value : Nat) (s : State) : Host.Outcome State Fault Refusal :=
  if value = 0x5A5A then .next { s with sys := { s.sys with kickAt := s.time.up } } else .next s

/-- The armed watchdog's period has passed without a kick (R541). -/
def execMcxWatchdogBite (s : State) : Host.Outcome State Fault Refusal :=
  if !s.bit Reg.SYS_WDOG 31 then .next s
  else match reachUp s (s.sys.kickAt + 1600000 * max 1 (s.fld Reg.SYS_WDOG 23 0)) with
  | none => .next s
  | some s1 => .next (warmReset s1 16)

/-! ### Clocks (R542) -/

/-- A CLK_STAT bit falls: counted and posted; nothing is judged while CLK is disabled (R30, R542). -/
def clkFall (s : State) (bit evt : Nat) : State :=
  if s.en .clk 0 ∧ s.bit Reg.CLK_STAT bit then
    event ((s.setFld Reg.CLK_STAT bit bit 0).count Reg.CLK_LOSS) .clk 0 evt { i0 := bit }
  else s

def clkRise (s : State) (bit : Nat) : State := if s.en .clk 0 then s.setFld Reg.CLK_STAT bit bit 1 else s

/-- The frequency measured in the window, for REFCLK_SYS. -/
def clkKhz (s : State) (ref khz : Nat) : State := if s.en .clk 0 ∧ ref = 0 then s.setRg Reg.CLK_SYS_KHZ (khz % 2 ^ 20) else s

/-- A reference input (0 SYS, 1 ETH, 2 PCIE) is outside ±1,000 ppm in a window: absent; the selected frequency source begins holdover (R542,
R366). -/
def execRefclkLoss (ref khz : Nat) (s : State) : Host.Outcome State Fault Refusal :=
  let ref := ref % 3
  let s1 := clkFall (clkKhz s ref khz) ref 3
  .next (if s.en .clk 0 ∧ ref = 0 ∧ s.bit Reg.CLK_STAT 0 ∧ freqSrc s = 0 then holdoverStart s1 else s1)

/-- A reference input is present in a window (R542). -/
def execRefclkReturn (ref khz : Nat) (s : State) : Host.Outcome State Fault Refusal :=
  .next (clkRise (clkKhz s (ref % 3) khz) (ref % 3))

/-- A PLL (0 core, 1 stack, 2 SerDes, 3 PCIe) loses lock (R542). -/
def execPllUnlock (pll : Nat) (s : State) : Host.Outcome State Fault Refusal := .next (clkFall s (8 + pll % 4) 4)

/-- A PLL is locked (R542). -/
def execPllLock (pll : Nat) (s : State) : Host.Outcome State Fault Refusal := .next (clkRise s (8 + pll % 4))

end Sys2Proof.Machine
end

