-- ==== Sys2Proof/Machine/Power.lean ====
section
/-!
DEFINITION. Temperature, power and the FAULT_N pin (spec/20, R551 to R564).
-/

namespace Sys2Proof.Machine

/-! ### Temperature (R557 to R559) -/

/-- A 12-bit temperature in units of 0.125 °C. -/
def tempOf (w : Nat) : Int := signedOf w 12

/-- Range of a working sensor: −40 °C to 150 °C (R557). -/
def tempValid (w : Nat) : Bool := decide (-320 ≤ tempOf w) && decide (tempOf w ≤ 1200)

/-- One sensor's reading: one that becomes invalid is recorded (R557). -/
def senseOne (s : State) (k w : Nat) : State :=
  let w := w % 4096
  let was := s.bit (Reg.PWR_TSENS k) 31
  let s1 := s.setRg (Reg.PWR_TSENS k) (w + b2n (!tempValid w) * 2 ^ 31)
  if tempValid w ∨ was then s1 else event0 (fault s1 .pwr 0 0xC1 none k w) .pwr 0 6

/-- Some sensor is invalid. -/
def senseBad (s : State) : Bool := (List.range 28).any fun k => s.bit (Reg.PWR_TSENS k) 31

/-- The hottest valid sensor, the lowest of equals. -/
def senseMax (s : State) : Option (Nat × Nat) :=
  ((List.range 28).filter fun k => !s.bit (Reg.PWR_TSENS k) 31).foldl (fun best k =>
    let w := s.fld (Reg.PWR_TSENS k) 11 0
    match best with
    | none => some (k, w)
    | some (_, b) => if tempOf b < tempOf w then some (k, w) else best) none

/-- PWR reads the 28 sensors; two samples in a row of one valid sensor at or above 115 °C are a trip (R557, R559). -/
def execSensorSample (readings : List Nat) (s : State) : Host.Outcome State Fault Refusal :=
  let s1 := (List.range 28).foldl (fun s k => senseOne s k (readings.getD k (s.fld (Reg.PWR_TSENS k) 11 0))) s
  let s2 := match senseMax s1 with
    | some (k, w) => s1.setRg Reg.PWR_TEMP (w + k * 65536)
    | none => s1
  let hot := (List.range 28).filter fun k => !s2.bit (Reg.PWR_TSENS k) 31 && decide (920 ≤ tempOf (s2.fld (Reg.PWR_TSENS k) 11 0))
  let trip := hot.any s.pwr.hot.contains && s.pwr.trip.isNone
  .next { s2 with pwr := { s2.pwr with hot := hot, trip := if trip then some s2.time.up else s2.pwr.trip } }

/-- 1,600 cc after a trip: a device reset, held until PWROK falls (R559). -/
def execThermtripReset (s : State) : Host.Outcome State Fault Refusal :=
  match s.pwr.trip with
  | none => .next s
  | some t =>
    match reachUp s (t + 1600) with
    | none => .next s
    | some s1 =>
      let s2 := pinReset s1 8
      .next { s2 with pwr := { s2.pwr with hold := true } }

/-- The thermal allowance of R558, in µJ. -/
def allowance (s : State) : Nat :=
  let t := tempOf (s.fld Reg.PWR_TEMP 11 0)
  let soft0 := tempOf (s.fld Reg.PWR_TSOFT 11 0)
  let soft := if 840 ≤ soft0 then 839 else soft0
  let mx := s.rg Reg.PWR_MAX_UJ
  let mn := min (s.rg Reg.PWR_MIN_UJ) mx
  let a := if t ≤ soft then mx else if 840 ≤ t then mn else max mn (mx * (840 - t).toNat / (840 - soft).toNat)
  let b := if s.pwr.low ∨ s.bit Reg.PWR_FAULTN 2 then 0 else a
  if senseBad s then min b mn else b

/-- At cc L − 4,096 PWR computes the allowance of the next tick (R558). -/
def execAllowanceSample (s : State) : Host.Outcome State Fault Refusal :=
  if !s.time.running ∨ !s.up .pwr 0 then .next s
  else
    let s0 := s.ccTo (s.lcc - 4096)
    let t := tempOf (s0.fld Reg.PWR_TEMP 11 0)
    let s1 := if 840 ≤ t then fault s0 .pwr 0 0xC0 none (s0.fld Reg.PWR_TEMP 20 16) (s0.fld Reg.PWR_TEMP 11 0) else s0
    let a := allowance s1
    let s2 := s1.setRg Reg.PWR_TALLOW a
    let mx := s.rg Reg.PWR_MAX_UJ
    .next (if s.rg Reg.PWR_TALLOW = mx ∧ a < mx then event0 s2 .pwr 0 3 else s2)

/-! ### Rails and the regulator (R551 to R553) -/

/-- Nominal voltage of a rail in mV and its tolerance in percent, in the order of PWR_RAILS (R551, R564). -/
def railSpec (s : State) (r : Nat) : Nat × Nat :=
  if r = 0 then (s.fld Reg.PWR_VCORE 9 0, 2)
  else if r = 1 then (750, 3)
  else if r ≤ 9 then (1050, 3)
  else if r ≤ 17 then (1800, 5)
  else if r = 18 then (850, 2)
  else if r = 19 then (1200, 3)
  else (1800, 5)

/-- One rail's sample: the tenth failing one in a row is recorded and clears the rail's bit (R552). -/
def railOne (s : State) (r mv : Nat) : State :=
  let (nom, tol) := railSpec s r
  let off := if nom ≤ mv then mv - nom else nom - mv
  let put := fun (s : State) (n : Nat) => { s with pwr := { s.pwr with rails := SMap.set s.pwr.rails 0 r n } }
  if 100 * off ≤ tol * nom then put (s.setFld Reg.PWR_RAILS r r 1) 0
  else
    let n := SMap.get s.pwr.rails 0 r + 1
    if n = 10 then fault (put (s.setFld Reg.PWR_RAILS r r 0) n) .pwr 0 0xC6 none r mv else put s (min n 10)

/-- The monitors compare each rail with its tolerance; `mv` are the 21 voltages in mV (R552). -/
def execRailMonitorSample (mv : List Nat) (s : State) : Host.Outcome State Fault Refusal :=
  .next ((List.range 21).foldl (fun s r => match mv[r]? with | some v => railOne s r v | none => s) s)

/-- PMBus codes of the commands that PWR sends (assumption 62). -/
def pmbVoutCommand : Nat := 0x21
def pmbStatusWord : Nat := 0x79

/-- A transaction is refused; the third in a row is recorded (R553). -/
def avsRefused (s : State) (code : Nat) : State :=
  let n := s.pwr.refused + 1
  let s1 := { s with pwr := { s.pwr with refused := if n = 3 then 0 else n } }
  if n = 3 then event0 (fault s1 .pwr 0 0xC4 none (s.fld Reg.PWR_AVS_CFG 6 0) code) .pwr 0 5 else s1

/-- The AVS target: the fused value plus PWR_VOFF, within 700 to 780 mV (R553). -/
def avsTarget (s : State) : Nat :=
  (max 700 (min 780 ((s.fld Reg.PWR_VCORE 25 16 : Int) + signedOf (s.fld Reg.PWR_VOFF 7 0) 8))).toNat

/-- One AVS step: 2.5 mV toward the target, at most one per 10 µs; `ok`: the regulator took it (R553). -/
def execAvsStep (ok : Bool) (s : State) : Host.Outcome State Fault Refusal :=
  if !s.bit Reg.PWR_AVS_CFG 8 ∨ s.pwr.trip.isSome ∨ (s.pwr.avsAt ≠ 0 ∧ s.time.up < s.pwr.avsAt - 1 + 16000) then .next s
  else
    let s1 := s.setFld Reg.PWR_VCORE 9 0 (avsTarget s)
    let goal := 2 * avsTarget s
    let v := s.pwr.vcore
    if v = goal then .next s1
    else if !ok then .next (avsRefused { s1 with pwr := { s1.pwr with avsAt := s.time.up + 1 } } pmbVoutCommand)
    else
      let v1 := if v < goal then min goal (v + 5) else max goal (v - 5)
      .next { s1 with pwr := { s1.pwr with avsAt := s.time.up + 1, vcore := v1, refused := 0 } }

/-- A regulator fault is reported (R553). -/
def avsFault (s : State) (status : Nat) : State :=
  event0 (fault s .pwr 0 0xC5 none (s.fld Reg.PWR_AVS_CFG 6 0) (status % 65536)) .pwr 0 5

/-- PWR reads STATUS_WORD and READ_IOUT; `ok`: the regulator answered (R553). -/
def execAvsPoll (ok : Bool) (status iout : Nat) (s : State) : Host.Outcome State Fault Refusal :=
  if !s.bit Reg.PWR_AVS_CFG 8 then .next s
  else if !ok then .next (avsRefused s pmbStatusWord)
  else
    let i := iout % 65536
    let s1 := { s.setRg Reg.PWR_IOUT i with pwr := { s.pwr with refused := 0 } }
    let s2 := if status % 65536 ≠ 0 then avsFault s1 status else s1
    let pk := s.fld Reg.PWR_IPEAK 15 0
    .next (if pk < i then fault s2 .pwr 0 0xC7 none i pk else s2)

/-- A qualified low on PMB_ALERT_N, with the STATUS_WORD read (R553). -/
def execPmbAlert (status : Nat) (s : State) : Host.Outcome State Fault Refusal := .next (avsFault s status)

/-! ### FAULT_N (R560, R561) -/

/-- The node drives FAULT_N low: during a trip, or for a recorded PWR fault while drive_en is set (R560). -/
def faultnDrives (s : State) : Bool := s.clocksStopped || s.bit (Reg.BLK_FLT .pwr 0) 8 && s.bit Reg.PWR_FAULTN 8

/-- FAULT_N is qualified low from outside; the pin is judged only while the node does not drive it (R560, R561). -/
def execFaultNAsserted (s : State) : Host.Outcome State Fault Refusal :=
  if faultnDrives s ∨ s.pwr.low then .next s
  else if s.bit Reg.PWR_FAULTN 9 then .next (warmReset s 0)
  else
    let now := s.nodeTime
    let falls := s.pwr.falls.filter (fun t => decide (now < t + 8000000000)) ++ [now]
    let s1 := { ((s.count Reg.PWR_FAULTN_CNT).setFld Reg.PWR_FAULTN 0 0 0) with pwr := { s.pwr with low := true, falls := falls } }
    let s2 := event0 (fault s1 .pwr 0 0xC2 none 0 s.time.cc) .pwr 0 4
    .next (if 8 < falls.length then (fault s2 .pwr 0 0xC3 none falls.length 0).setFld Reg.PWR_FAULTN 2 2 1 else s2)

/-- FAULT_N returns high: it is no longer qualified low (R560). -/
def execFaultNReleased (s : State) : Host.Outcome State Fault Refusal :=
  if faultnDrives s ∨ !s.pwr.low then .next s
  else .next { s.setFld Reg.PWR_FAULTN 0 0 1 with pwr := { s.pwr with low := false, highAt := s.time.up + 1 } }

/-- PWR_FAULTN.clr ends the stuck state where the pin has been high for at least 1 ms (R561). -/
def execFaultnClear (s : State) : Host.Outcome State Fault Refusal :=
  if !s.pwr.low && !faultnDrives s && decide (s.pwr.highAt - 1 + 1600000 ≤ s.time.up) then .next (s.setFld Reg.PWR_FAULTN 2 2 0)
  else .next s

/-- The node has stopped driving FAULT_N: the pin is high from now on, unless it is held low from outside. `before` is the state before. -/
def faultnLetGo (before s : State) : State :=
  if faultnDrives before && !faultnDrives s then { s with pwr := { s.pwr with highAt := s.time.up + 1 } } else s

end Sys2Proof.Machine
end

