-- ==== Sys2Proof/Machine/RegRead.lean ====
section
/-!
DEFINITION. What a register word reads as (R7, R20, R21, R31, R39): stored words, words that show the state of a block, pending RWT values,
and the effects that a read has.
-/

namespace Sys2Proof.Machine

/-! ### Requesters (R42) -/

/-- The requester of a management frame, which R21 tells from the MCX cores 0 to 3. -/
def mgtRequester : Nat := 4

/-! ### Words that show a block's state -/

/-- Some access of Trowel engine `e`'s channel `c` waits for its unit's grant (R289). -/
def trwWaits (s : State) (e c : Nat) : Bool :=
  let mine := fun (x : Nat) => (List.range 2).any fun k => x == readSrc e c k || x == writeSrc e c k
  s.portB.any (fun kv => kv.2.waiting.any fun r => mine r.src) || s.chans.any (fun kv => kv.2.waiting.any fun r => mine r.src)

/-- The port index of a sub-port of an instance, in the mode in force (R356). -/
def portOfSub (s : State) (n k : Nat) : Option Nat :=
  ((List.range 8).find? fun l => subPort s (8 * n + l) == some k).map (8 * n + ·)

/-- BLK_STAT.busy: the block has work in progress (R31). -/
def blkBusy (s : State) (b : Blk) (n : Nat) : Bool :=
  match b with
  | .sys => s.sys.resetAt.isSome
  | .lcs => !s.lcs.tokens.isEmpty
  | .att => s.bit Reg.ATT_STAT 8
  | .key => s.bit Reg.KEY_CMD_STAT 8
  | .prt => (List.range 64).any (resetting s)
  | .pwr => s.pwr.trip.isSome
  | .clk => false
  | .uar => false
  | .mgt => txReady s (n + 1) != 0
  | .bst => s.bit Reg.BST_LB_STAT 16 || s.bit Reg.BST_LB_STAT 17 || s.bit Reg.BST_MB_STAT 8
  | .tpl => s.tpl.items.any fun i => i.st != .done
  | .ctx => s.ctx.reqs.any fun kv => kv.2.st == .queued || kv.2.st == .admitted
  | .pwk => false
  | .frm => !s.frm.moves.isEmpty || !s.frm.fetches.isEmpty || s.frm.order.isSome || !s.ctx.cows.isEmpty
      || s.frm.frames.any fun kv => kv.2.st == .scrub
  | .rdl => !s.rdl.cmds.isEmpty || !s.rdl.looks.isEmpty
  | .trw => (List.range 8).any fun c => (s.trwCh n c).st == .fetch || (s.trwCh n c).st == .run
  | .fen => s.training.contains n || (List.range 32).any fun p => !(s.chan n p).crownQ.isEmpty || !(s.chan n p).waiting.isEmpty
  | .dbr => !(s.dbr n).runs.isEmpty || (s.dbr n).raw.isSome
  | .pci => s.drive.any fun d => d.port == n
  | .eth => n == 0 && txReady s 0 != 0
  | .slu => false
  | .rak => SMap.get s.egBuf 0 n != 0
  | .ptp => s.bit Reg.PTP_STAT 1
  | .itp => s.itp.conns.any fun kv => !kv.2.out.isEmpty || !kv.2.msgs.isEmpty || !kv.2.ctl.isEmpty
  | .fab => s.bit Reg.FAB_SNAP_STAT 30 || SMap.get s.rwt 0 Reg.FAB_EPOCH_NEXT != 0
  | .msh => s.tiles.any fun kv => !kv.2.inject.isEmpty || !kv.2.eject.isEmpty
  | .til => (s.tile n).st == .measure || (s.tile n).st == .running
  | .dpw => !s.dpw.isEmpty

/-- A written RWT value of the block awaits the boundary (R31). -/
def rwtPending (s : State) (b : Blk) (n : Nat) : Bool :=
  s.rwt.any fun kv => match regRow kv.1 with
    | some (b2, n2, _, _) => b2 == b && n2 == n
    | none => false

/-- BLK_STAT of a block instance (R31). -/
def blkStat (s : State) (b : Blk) (n : Nat) : Nat :=
  b2n (s.en b n) + 2 * b2n (blkBusy s b n) + 4 * b2n (s.halted b n) + 8 * b2n (s.locked b n) + 16 * b2n (rwtPending s b n)

/-- Number of entries of a table of the context block that satisfy a test. -/
def countWhere {α : Type} (m : SMap α) (f : α → Bool) : Nat := (m.filter fun kv => f kv.2).length

/-- Frames reserved for device use (R137). -/
def devresCount (s : State) : Nat :=
  (s.frm.frames.filter fun kv => kv.2.st == .reserved && kv.2.owner == 64 && !(decide (63744 ≤ kv.1) && decide (kv.1 < 65536))).length

/-- A word of TPL, CTX or FRM that shows state. -/
def shownCore (s : State) (b : Blk) (off : Nat) : Option Nat :=
  match b with
  | .tpl =>
    if 0x400 ≤ off ∧ off % 16 = 8 then some (SMap.get s.tpl.carried 0 ((off - 0x400) / 16) % 2 ^ 24)
    else if 0x400 ≤ off ∧ off % 16 = 12 then some (queueFor s ((off - 0x400) / 16) s.time.tick).length
    else none
  | .ctx =>
    if off = 0x050 then some (countWhere s.ctx.ctxs fun c => c.st != .free)
    else if off = 0x054 then some (countWhere s.ctx.reqs fun r => r.st != .free)
    else if off = 0x058 then some (s.ctx.ctxs.foldl (fun a kv => a + ctxStarved s kv.2) 0)
    else none
  | .frm =>
    if off = 0x040 then some s.frm.poolPeat.size
    else if off = 0x044 then some s.frm.poolFen.size
    else if off = 0x050 then some (countWhere s.frm.frames fun d => d.st == .scrub)
    else if off = 0x054 then some s.ctx.cows.length
    else if off = 0x058 then some (countWhere s.frm.frames fun d => decide (0xFFFF ≤ d.refs))
    else if off = 0x064 then some (devresCount s)
    else if off = 0x13C then some s.frm.fetches.length
    else if 0x400 ≤ off ∧ off % 32 = 0x08 then some (s.held ((off - 0x400) / 32))
    else if 0x400 ≤ off ∧ off % 32 = 0x0C then some (s.freeList ((off - 0x400) / 32) 0).size
    else if 0x400 ≤ off ∧ off % 32 = 0x10 then some (s.freeList ((off - 0x400) / 32) 1).size
    else none
  | _ => none

/-- A word of a port, the fabric or the mesh that shows state. -/
def shownEdge (s : State) (b : Blk) (n off w : Nat) : Option Nat :=
  match b with
  | .ptp =>
    if off = 0x048 then some (slewWord s)
    else if off = 0x060 then some (timeNs s.nodeTime)
    else none
  | .rak =>
    if off = 0x06C then some (SMap.get s.egBuf 0 n)
    else if 0x800 ≤ off then
      some (match portOfSub s n ((off - 0x800) / 256) with
        | some p => (s.port p).depth (off % 256 / 4)
        | none => 0)
    else if 0x100 ≤ off then some (if (portOfSub s n ((off - 0x100) / 128)).isSome then w else 0)
    else none
  | .slu =>
    if 0x0A0 ≤ off ∧ off < 0x0C0 then
      match portOfSub s n ((off - 0x0A0) / 4) with
      | some p =>
        let l := gateList s p
        some (gateMask l (gateCc s) + gateEntry l (gateCc s) * 256)
      | none => some 0xFF
    else none
  | .fab =>
    if off = 0x0E0 then some (pathsWord s)
    else if off = 0x0E4 then some (min 0xFFFF (noPathCount s))
    else none
  | .til =>
    let t := s.tile n
    if off = 0x04C then some (tileStCode t.st + t.status * 256)
    else if off = 0x050 then some (t.lastPc % 2 ^ 17)
    else none
  | .dbr => if off = 0x040 then some (dibbersActive s n) else none
  | .trw =>
    let c := (off - 0x100) / 32
    if 0x100 ≤ off ∧ off % 32 = 0x0C ∧ (s.trwCh n c).st = .run ∧ trwWaits s n c then some (putBits w 2 0 3) else none
  | .rdl =>
    if off = 0x058 then
      let left := rdlShiftLeft s
      some (left + b2n (left != 0) * 2 ^ 31)
    else none
  | _ => none

/-- A word of the system blocks that shows state. -/
def shownSys (s : State) (b : Blk) (off w : Nat) : Option Nat :=
  match b with
  | .sys =>
    if off = 0x070 then some (s.uptimeUs % 2 ^ 32)
    else if off = 0x074 then some (s.uptimeUs / 2 ^ 32 % 2 ^ 32)
    else none
  | .lcs => if off = 0x040 then some (putBits w 10 8 (openScopes s)) else none
  | .key =>
    let j := SMap.get s.itp.jobs {} (s.fld Reg.KEY_JSEL 9 0)
    if off = 0x050 then some (if j.valid then j.part + 256 else 0)
    else if off = 0x054 then some (if j.valid then j.id else 0)
    else if off = 0x058 then some (jobsFree s)
    else none
  | .prt =>
    let active := fun (lo : Nat) => (List.range 32).foldl (fun a i => a + b2n (partState s (lo + i) != 0) * 2 ^ i) 0
    if off = 0x054 then some (active 0)
    else if off = 0x058 then some (active 32)
    else if 0x700 ≤ off ∧ off < 0x800 then some (putBits w 26 16 (jobsHeld s ((off - 0x700) / 4)))
    else none
  | .pwr =>
    if off = 0x050 ∧ !s.en .pwr 0 then some 0
    else if off = 0x060 then some (putBits w 1 1 (b2n (faultnDrives s)))
    else none
  | .bst =>
    if off = 0x184 then some (s.bst.pos / 128)
    else if off = 0x200 then some (putBits w 10 0 s.poison.length)
    else if off = 0x210 then some (poisonVal s)
    else none
  | _ => none

/-- The word that a block shows at an offset, whose stored word is `w`. -/
def shown (s : State) (b : Blk) (n off w : Nat) : Nat :=
  if off = 0x014 then blkStat s b n
  else if off < 0x040 then w
  else ((shownCore s b off).orElse fun _ => (shownEdge s b n off w).orElse fun _ => shownSys s b off w).getD w

/-! ### Reading a word -/

/-- The value that a defined word reads as, before any effect of the read: WO fields read zero and RWT fields as last written (R7,
R39). -/
def readValue (s : State) (a : Nat) : Nat :=
  match regRow a with
  | none => 0
  | some (b, n, off, r) =>
    let live := shown s b n off (s.rg a)
    let pend := shown s b n off (s.pendWord a)
    r.flds.foldl (fun acc f => match f.acc with
      | .wo => acc
      | .rwt => acc + bitsOf pend f.hi f.lo * 2 ^ f.lo
      | _ => acc + bitsOf live f.hi f.lo * 2 ^ f.lo) 0

def latchKey (req a : Nat) : Nat := req * 2 ^ 26 + a

/-- Clear the RC fields of a word (R7). -/
def clearRc (s : State) (a : Nat) : State :=
  match regRow a with
  | none => s
  | some (_, _, _, r) =>
    if r.flds.any fun f => decide (f.acc = .rc) then
      s.setRg a (r.flds.foldl (fun w f => if f.acc = .rc then putBits w f.hi f.lo 0 else w) (s.rg a))
    else s

/-- The seconds that a read of a PTP nanosecond word latches (R375). -/
def latchSec (s : State) (a : Nat) : State :=
  let put := fun (lo hi t : Nat) => (s.setRg lo (t % 2 ^ 32)).setRg hi (t / 2 ^ 32)
  if a = Reg.PTP_TIME_NS then put Reg.PTP_TIME_SEC_LO Reg.PTP_TIME_SEC_HI (timeSec s.nodeTime)
  else if a = Reg.PTP_PPS_TS_NS then put Reg.PTP_PPS_TS_SEC_LO Reg.PTP_PPS_TS_SEC_HI s.ptp.edgeSec
  else s

/-- Requester `req` reads a register word: the value and the state, with the high word of a 64-bit register latched or taken from the
latch, RC fields cleared and PTP seconds latched (R7, R21, R375). An address that no block defines reads zero (R22). -/
def readReg (s : State) (req a : Nat) : State × Nat :=
  let l := SMap.get s.latch 0 (latchKey req a)
  if isWideHi a ∧ l ≠ 0 then ({ s with latch := SMap.set s.latch 0 (latchKey req a) 0 }, l - 1)
  else
    let v := readValue s a
    let s1 := if isWideLo a then { s with latch := SMap.set s.latch 0 (latchKey req (a + 4)) (readValue s (a + 4) + 1) } else s
    (latchSec (clearRc s1 a) a, v)

end Sys2Proof.Machine
end

