-- ==== Sys2Proof/Machine/RegWrite.lean ====
section
/-!
DEFINITION. What a write of a control-space word does (R7, R20, R21, R29, R30, R37 to R41): the fields, the effect that a block attaches
to the write, pending RWT values coming into force, and blocks being enabled and disabled.
-/

namespace Sys2Proof.Machine

/-- The state that an outcome goes on with. -/
def outState (s : State) (o : Host.Outcome State Fault Refusal) : State :=
  match o with
  | .next t => t
  | _ => s

/-! ### Enabling and disabling (R29, R30) -/

/-- Every link of ETHn or PCIn that is up goes down. -/
def ethLinksDown (s : State) (n : Nat) : State :=
  (List.range 8).foldl (fun s l => outState s (execLinkChange (8 * n + l) false s)) s

def pciLinksDown (s : State) (n : Nat) : State :=
  (List.range 4).foldl (fun s k =>
    if s.bit (Reg.PCI_LINK_STAT n k) 0 then linkDown s n k (s.bit (Reg.PCI_LINK_STAT n k) 9) else s) s

/-- ETHn is enabled: its mode and media come into force and every link trains again (R358). -/
def ethUp (s : State) (n : Nat) : State :=
  let s1 := ethLinksDown s n
  let m := s1.rg (Reg.ETH_MODE n)
  { s1 with ethMode := SMap.set s1.ethMode 0 n (bitsOf m 1 0), ethMedia := SMap.set s1.ethMedia false n (bitOf m 4) }

/-- The effective en of a block instance has just changed (R30). A TIL that falls is dealt with at the boundary's tile step. -/
def enChange (s : State) (b : Blk) (n : Nat) : State :=
  let on := s.en b n
  match b with
  | .trw => if on then s else trwDisable s n
  | .eth => synceTurn (if on then ethUp s n else ethLinksDown s n)
  | .pci => if on then { s with bifurc := SMap.set s.bifurc 0 n (s.fld (Reg.PCI_LINK_CTL n) 1 0) } else pciLinksDown s n
  | .fen => { s with training := s.training.filter (· != n) ++ (if on then [n] else []) }
  | .mgt => if on then s else outState s (execLinkChange (64 + n) false s)
  | .ptp => synceTurn (if on then s else { s with ptp := { s.ptp with ppsOut := false } })
  | .itp => releaseHeld s
  | .fab => if on && !s.time.running then flipDismiss (flipApply s) else s
  | .msh => injectTurn s
  | _ => s

/-- A disabled TIL's tile that is ARMED or RUNNING will stop at the next boundary (R30). -/
def tilesDisabled (s : State) : State :=
  (s.tiles.map (·.1)).foldl (fun s n =>
    let t := s.tile n
    if !s.en .til n && (t.st == .armed || t.st == .running) then s.setTile n { t with stopReq := true } else s) s

/-! ### Pending values come into force (R39 to R41) -/

/-- The (base, size) that the registers of a RIDDLE region spell, pending values included. -/
def rdlPend (s : State) (p : Nat) : Nat × Nat := (bitsOf (s.pendWord (Reg.RDL_RBASE p)) 15 0, bitsOf (s.pendWord (Reg.RDL_RSIZE p)) 16 0)

/-- A region register of partition `p` has a pending value. -/
def rdlWritten (s : State) (p : Nat) : Bool := SMap.get s.rwt 0 (Reg.RDL_RBASE p) != 0 || SMap.get s.rwt 0 (Reg.RDL_RSIZE p) != 0

/-- The partitions whose pending region is refused (R303). -/
def rdlRefused (s : State) : List Nat := rdlBoundsRefused s (rdlPend s) (rdlWritten s)

/-- Pending region registers apply, or are refused (R303). -/
def rdlApply (s : State) : State :=
  let no := rdlRefused s
  ((List.range 64).filter (rdlWritten s)).foldl (fun s p =>
    if no.contains p then
      event0 { s with rwt := SMap.set (SMap.set s.rwt 0 (Reg.RDL_RBASE p) 0) 0 (Reg.RDL_RSIZE p) 0 } .rdl 0 4
    else rwtPlain (rwtPlain s (Reg.RDL_RBASE p)) (Reg.RDL_RSIZE p)) s

/-- CTX_FORCE applies; its op reads 0 from then on (R133). -/
def ctxForceApply (s : State) : State :=
  let w := s.pendWord Reg.CTX_FORCE
  let s1 := (rwtPlain s Reg.CTX_FORCE).setFld Reg.CTX_FORCE 27 26 0
  ctxForce s1 (bitsOf w 17 0) (bitsOf w 25 18) (bitsOf w 27 26)

/-- FRM_GRANT applies (R136); it waits while FRM is disabled (R30). -/
def grantApply (s : State) : State :=
  if !s.up .frm 0 then s
  else
    let w := s.pendWord Reg.FRM_GRANT
    frmGrant (rwtPlain s Reg.FRM_GRANT) (bitsOf w 5 0) (bitsOf w 6 6) (bitOf w 7) (bitsOf w 31 8)

/-- FRM_DEVRES applies; go reads 0 from then on (R135, R137). -/
def devresApply (s : State) : State :=
  let w := s.pendWord Reg.FRM_DEVRES
  let s1 := (rwtPlain s Reg.FRM_DEVRES).setFld Reg.FRM_DEVRES 31 31 0
  if !bitOf w 31 then s1
  else if bitOf w 30 then devresRelease s1 (bitsOf w 24 0)
  else devresTake s1 (bitsOf w 24 0)

/-- Registers of FRM that act when their pending value applies, and the action. -/
def rwtAction (a : Nat) : Option (State → State) :=
  if a = Reg.CTX_FORCE then some ctxForceApply
  else if a = Reg.FRM_GRANT then some grantApply
  else if a = Reg.FRM_DEVRES then some devresApply
  else if a = Reg.FAB_EPOCH_NEXT then some flipApply
  else if a = Reg.FAB_MCMD then some mcmdApply
  else if a = Reg.FAB_ROLE then some id
  else none

/-- One written word takes effect at once, before the tick counter runs (R41). -/
def rwtNow (s : State) (b : Blk) (n off a : Nat) : State :=
  match rwtAction a with
  | some f => flipDismiss (f s)
  | none =>
    if off = 0x010 then
      let s1 := rwtPlain s a
      if s1.en b n = s.en b n then s1
      else
        let s2 := tilesDisabled (enChange s1 b n)
        if b = .frm ∧ SMap.get s2.rwt 0 Reg.FRM_GRANT ≠ 0 then grantApply s2 else s2
    else match b with
      | .prt =>
        match boundPart a with
        | some p => boundsMoved (rwtPlain s a) p (boundsOf s.rg p)
        | none => rwtPlain s a
      | .rdl => if 0x400 ≤ off then rdlApply s else rwtPlain s a
      | .slu =>
        let s1 := rwtPlain s a
        if 0x800 ≤ off then gatesApply s s1 n ((off - 0x800) / 256)
        else if 0x080 ≤ off ∧ off < 0x0A0 then gatesApply s s1 n ((off - 0x080) / 4)
        else s1
      | _ => rwtPlain s a

/-- The words whose pending value does more than change fields: checked bounds, and the registers that act. -/
def rwtSpecial (a : Nat) : Bool :=
  (rwtAction a).isSome || (boundPart a).isSome || (decide (Reg.RDL_RBASE 0 ≤ a) && decide (a < Reg.RDL_RBASE 64))

/-- The block instances whose en changes with the pending values (R30). -/
def rwtFlips (s : State) : List (Blk × Nat) :=
  (s.rwt.filterMap fun kv => match regRow kv.1 with
    | some (b, n, 0x010, _) => some (b, n)
    | _ => none).filter fun x => bitOf (s.pendWord (Reg.BLK_CTL x.1 x.2)) 0 != s.en x.1 x.2

/-- Plain fields come into force, then the blocks whose en has changed follow (R30, R40). -/
def rwtFields (s : State) : State :=
  (rwtFlips s).foldl (fun s x => enChange s x.1 x.2) (((s.rwt.map (·.1)).filter fun a => !rwtSpecial a).foldl rwtPlain s)

/-- The registers that act do so with their pending values: FRM_DEVRES, FRM_GRANT, then CTX_FORCE (DESIGN CHOICE: R40 and R533 give no order; assumption
8). -/
def rwtActs (s : State) : State :=
  [Reg.FRM_DEVRES, Reg.FRM_GRANT, Reg.CTX_FORCE, Reg.FAB_EPOCH_NEXT, Reg.FAB_MCMD].foldl (fun s a =>
    if SMap.get s.rwt 0 a = 0 then s else match rwtAction a with
      | some f => f s
      | none => s) s

/-- A region register of RIDDLE whose pending value is refused (R303). -/
def rdlRefusedAt (no : List Nat) (a : Nat) : Bool := no.any fun p => a == Reg.RDL_RBASE p || a == Reg.RDL_RSIZE p

/-- The block instances that had a pending value before, in `old`, and have taken it; a word of `refused` was dropped, not applied. -/
def rwtTaken (old s : State) (refused : Nat → Bool) : List (Blk × Nat) :=
  (((old.rwt.map (·.1)).filter fun a => SMap.get s.rwt 0 a == 0 && !refused a).filterMap fun a =>
    (regRow a).map fun x => (x.1, x.2.1)).eraseDups

/-- Every pending value comes into force at a boundary (R40, R533 step 1): plain fields first, then checked bounds and the registers that
act; rwt_applied is posted by every block that applied one (R32): a value that R471 or R303 refuses is not applied. -/
def rwtBoundary (s : State) : State :=
  let s0 := rwtFields s
  let ok := boundsOk s0
  let sb := boundsApply s0
  let no := rdlRefused sb
  let s1 := rwtActs (rdlApply sb)
  let refused := fun a => rdlRefusedAt no a || (match boundPart a with
    | some p => !ok.contains p
    | none => false)
  (rwtTaken s s1 refused).foldl (fun s x => event0 s x.1 x.2 2) s1

/-! ### Effects of a write -/

/-- TPL_TICK_LEN is written (R60, R61): only while the TPL is disabled, and only a legal length. -/
def tickLenWrite (s : State) (v : Nat) : State :=
  let v := v % 2 ^ 21
  let ns := 5 * v
  let legal := decide (25000 ≤ ns) && decide (ns ≤ 10000000) && decide (1000000000 % ns = 0)
  if s.locked .tpl 0 then event0 s .tpl 0 1
  else if s.en .tpl 0 || !legal then event0 s .tpl 0 4
  else
    let s1 := s.setRg Reg.TPL_TICK_LEN v
    if s.time.running then { s1 with time := { s1.time with lenNext := some v } }
    else { s1 with time := { s1.time with len5 := v, lenNext := none } }

/-- Writes of the command registers of SYS, LCS, ATT, KEY, PRT and BST (R484, R501 to R503, R521, R541). -/
def sysEffect (s : State) (b : Blk) (off v : Nat) : Option State :=
  let go := fun (o : Host.Outcome State Fault Refusal) => some (outState s o)
  match b with
  | .sys =>
    if off = 0x044 then go (execSysReset v s)
    else if off = 0x04C then go (execSysBootWrite (bitsOf v 3 0) (bitsOf v 15 8) (bitOf v 31) s)
    else if off = 0x07C then
      let s1 := wordWrite s Reg.SYS_WDOG v
      some (if !s.bit Reg.SYS_WDOG 31 && s1.bit Reg.SYS_WDOG 31 then { s1 with sys := { s1.sys with kickAt := s1.time.up } } else s1)
    else if off = 0x080 then go (execSysWdogKick v s)
    else none
  | .lcs =>
    if off = 0x04C then
      let op := bitsOf v 3 0
      if op = 1 then go (execCommitArb s) else if op = 2 then go (execSelectSlot s) else if op = 3 then go (execRelock s) else some s
    else none
  | .att =>
    if off = 0x060 then
      let op := bitsOf v 1 0
      if op = 1 then go (execNewchal s) else if op = 2 then go (execReport s) else if op = 3 then go (execAttToken s) else some s
    else none
  | .key =>
    if off = 0x040 then
      let op := bitsOf v 19 16
      some (if 1 ≤ op ∧ op ≤ 4 then keyCmd op (bitsOf v 11 0) s else s)
    else none
  | .prt =>
    if off = 0x040 then
      let op := bitsOf v 9 8
      if op = 1 then go (execPrtResetStart (bitsOf v 5 0) s) else if op = 2 then go (execPrtResetCommit (bitsOf v 5 0) s) else some s
    else none
  | .bst =>
    if off = 0x040 then
      let s1 := if bitOf v 9 then outState s (execLbistAbort s) else s
      some (if bitOf v 8 then outState s1 (execLbistArm (bitsOf v 6 0) s1) else s1)
    else if 0x048 ≤ off ∧ off < 0x060 then some (if lifeOpen s then wordWrite s (Blk.bst.base 0 + off) v else s)
    else if off = 0x100 then
      let op := bitsOf v 3 0
      some (if 1 ≤ op ∧ op ≤ 3 then mbCommand op (bitsOf v 11 8) s else s)
    else if off = 0x204 then go (execPoisonAdd v s)
    else if off = 0x208 then go (execPoisonDel v s)
    else none
  | _ => none

/-- Writes of the command registers of the core blocks: PWK, TPL, RDL, TRW, FEN, DBR, TIL and ITP. -/
def coreEffect (s : State) (b : Blk) (n off v : Nat) : Option State :=
  let go := fun (o : Host.Outcome State Fault Refusal) => some (outState s o)
  match b with
  | .tpl => if off = 0x040 then some (tickLenWrite s v) else none
  | .pwk => if off = 0x040 then some (if bitOf v 31 then labClear s else labDrop s (bitsOf v 17 0)) else none
  | .rdl =>
    if 0x100 ≤ off ∧ off < 0x200 ∧ off % 64 = 0x18 then
      let c := (off - 0x100) / 64
      let op := bitsOf v 17 16
      if op = 1 then go (execRdlLookup c (bitsOf v 6 0) (bitsOf v 7 7) (bitsOf v 13 8) none s)
      else if 2 ≤ op then some (rdlIssue s c (op == 2) (bitsOf v 6 0) (bitsOf v 7 7) (bitsOf v 13 8))
      else none
    else none
  | .trw =>
    if 0x100 ≤ off ∧ off % 32 = 0x08 then
      let c := (off - 0x100) / 32
      let s1 := if bitOf v 1 then outState s (execTrwAbort n c s) else s
      some (if bitOf v 0 then outState s1 (execTrwStart n c s1) else s1)
    else none
  | .fen => if 0x050 ≤ off ∧ off < 0x060 ∧ s.en .fen n then some (if lockStops s (Blk.fen.base n + off) then event0 s .fen n 1 else s) else none
  | .dbr =>
    if off = 0x068 then
      let s1 := wordWrite s (Reg.DBR_RAW_CTL n) v
      some (if bitOf v 16 then s1.setFld (Reg.DBR_RAW_STAT n) 20 20 0 else s1)
    else none
  | .til =>
    if off = 0x048 then
      let s1 := if bitOf v 1 then outState s (execTilStop n s) else s
      some (if bitOf v 0 then outState s1 (execTilStart n s1) else s1)
    else none
  | .itp =>
    if off = 0x044 then
      let op := bitsOf v 17 16
      if op = 1 then go (execConnOpen (bitsOf v 11 0) s) else if op = 2 then go (execConnClose (bitsOf v 11 0) s) else some s
    else if off = 0x054 then
      let op := bitsOf v 21 20
      if op = 1 then go (execRegionValidate (bitsOf v 19 0) s) else if op = 2 then go (execRegionRevoke (bitsOf v 19 0) s) else some s
    else none
  | _ => none

/-- Writes of PWR, PTP, PCI, ETH, MGT and FAB registers that do more than hold a value. -/
def edgeEffect (s : State) (b : Blk) (n off v : Nat) : Option State :=
  let a := b.base n + off
  let go := fun (o : Host.Outcome State Fault Refusal) => some (outState s o)
  match b with
  | .pwr =>
    if off = 0x060 then
      let s1 := faultnLetGo s (wordWrite s a v)
      some (if bitOf v 16 then outState s1 (execFaultnClear s1) else s1)
    else none
  | .ptp =>
    if off = 0x040 then go (execPtpCfgWrite v s)
    else if off = 0x044 then go (execPtpFreqWrite v s)
    else if off = 0x048 then go (execPtpSlewWrite v s)
    else if off = 0x04C then some (wordWrite (slewBook s) a v)
    else if off = 0x058 then go (execServoLockWrite (bitOf v 0) s)
    else if off = 0x070 then
      let s1 := wordWrite s a v
      some (if bitOf v 31 then s1 else { s1 with ptp := { s1.ptp with ppsOut := false } })
    else none
  | .pci =>
    if off = 0x040 then
      let s1 := wordWrite s a v
      some ((List.range 4).foldl (fun s k =>
        if !s.bit a (4 + k) && s.bit (Reg.PCI_LINK_STAT n k) 0 then linkDown s n k (s.bit (Reg.PCI_LINK_STAT n k) 9) else s) s1)
    else none
  | .eth =>
    if off = 0x040 then
      let s1 := wordWrite s a v
      some ((List.range 8).foldl (fun s l =>
        if portUsable s (8 * n + l) then s else outState s (execLinkChange (8 * n + l) false s)) s1)
    else none
  | .mgt =>
    if off = 0x040 then
      let s1 := wordWrite s a v
      some (if s1.rg a = s.rg a then s1 else outState s1 (execLinkChange (64 + n) false s1))
    else none
  | .fab => if off = 0x064 then go (execFabEpochNextWrite v s) else none
  | _ => none

/-- Writes of the header registers that are more than fields: BLK_EVT, BLK_FLT and BLK_LOCK (R34, R35, R37, R509). -/
def headEffect (s : State) (b : Blk) (n off v : Nat) : Option State :=
  if off = 0x020 then
    some (if bitOf v 8 then
        let s1 := fltStays (s.setRg (Reg.BLK_FLT b n) 0) b n
        if b = .pwr then faultnLetGo s s1 else s1
      else s)
  else if off = 0x018 then some (evtStays (wordWrite s (Reg.BLK_EVT b n) v) b n v)
  else if off = 0x030 then some (if v / 65536 % 65536 = 0xA5C3 then s.setRg (Reg.BLK_LOCK b n) (v % 2) else s)
  else none

/-- A write of `v` to one defined word, 64-bit pairs apart. -/
def oneWrite (s : State) (a v : Nat) : State :=
  let v := v % 2 ^ 32
  match regRow a with
  | none => s
  | some (b, n, off, r) =>
    let done := (headEffect s b n off v).orElse fun _ => (sysEffect s b off v).orElse fun _ =>
      (coreEffect s b n off v).orElse fun _ => edgeEffect s b n off v
    let s1 := done.getD (wordWrite s a v)
    if !s.time.running && (r.flds.any fun f => decide (f.acc = .rwt)) && SMap.get s1.rwt 0 a != 0 then rwtNow s1 b n off a else s1

/-- A write of `v` to a control-space word (R21, R22): the high word of a 64-bit register is staged, and the low word commits it; a write to
no register does nothing. -/
def writeReg (s : State) (a v : Nat) : State :=
  let v := v % 2 ^ 32
  match regRow a with
  | none => s
  | some (b, n, _, _) =>
    if isWideHi a then
      if lockStops s a then event0 s b n 1 else { s with stage := SMap.set s.stage 0 a (v + 1) }
    else if isWideLo a then
      let st := SMap.get s.stage 0 (a + 4)
      let s1 := { s with stage := SMap.set s.stage 0 (a + 4) 0 }
      let hi := if st = 0 then s.pendWord (a + 4) else st - 1
      if a = Reg.PTP_STEP_LO then outState s1 (execPtpStepWrite (v + 2 ^ 32 * hi) s1)
      else
        let s2 := if st = 0 then s1 else oneWrite s1 (a + 4) hi
        let s3 := oneWrite s2 a v
        if b = .trw ∧ a = Reg.TRW_PBLOCK_LO n then trwBlock s3 n else s3
    else oneWrite s a v

/-- The status that a management frame answers for a write (R22, R38, R43, R516). -/
def writeStatus (s : State) (a : Nat) : Nat :=
  match regRow a with
  | none => stMALFORMED
  | some (b, _, off, _) =>
    if b = .dpw ∧ 0x040 ≤ off ∧ off < 0x0C0 then stMALFORMED
    else if lockStops s a then stAUTH
    else if b = .bst ∧ 0x048 ≤ off ∧ off < 0x060 ∧ !lifeOpen s then stAUTH
    else stOK

end Sys2Proof.Machine
end

