-- ==== Sys2Proof/Machine/Views.lean ====
section
/-!
DEFINITION. The indirect table views A, B and C (R24, R25): the entries of the hardware tables as their chapters lay them out, and what a
read or write of a view's word does.
-/

namespace Sys2Proof.Machine

/-! ### Frame descriptors (R111) -/

/-- The free list that holds a frame: its owner (0x40 for the device pool) and the frame that follows. -/
def freeListOf (s : State) (f : Nat) : Option (Nat × Option Nat) :=
  let lists := (List.range 64).flatMap (fun p => [(p, s.freeList p 0), (p, s.freeList p 1)]) ++ [(64, s.pool 0), (64, s.pool 1)]
  (lists.find? fun l => Runs.has l.2 f).map fun l => (l.1, Runs.next l.2 f)

/-- The loc field of a location (R111). -/
def locField (l : Nat) : Nat := if l < 65536 then l else 2 ^ 31 + (l - 65536)

/-- The location that a loc field names. -/
def locOfField (x : Nat) : Nat := if bitOf x 31 then 65536 + bitsOf x 23 0 else bitsOf x 15 0

/-- The 16 bytes of a frame descriptor (R111). -/
def frameToNat (s : State) (f : Nat) : Nat :=
  let d := s.frame f
  let list := if d.st = .free then freeListOf s f else none
  let owner := (list.map (·.1)).getD d.owner
  let link := match d.st with
    | .free => (list.bind (·.2)).getD 0xFFFFFFFF
    | .data => d.slot + 2 ^ 18 * d.gen
    | _ => 0
  let wher := if d.st = .data then d.page + 2 ^ 20 * d.lane else 0
  packLE [(locField (s.loc f), 4), (d.refs, 2), (owner, 1), (frStCode d.st + 8 * b2n d.migLock, 1), (link, 4), (wher, 4)]

/-- The frame state that a code names; the codes of FREE and the reserved one name none. -/
def frStOf (c : Nat) : Option FrSt :=
  match c with
  | 1 => some .data
  | 2 => some .table
  | 3 => some .scrub
  | 4 => some .copyDst
  | 5 => some .reserved
  | 6 => some .retired
  | _ => none

/-- A frame descriptor is written through a view. A FREE frame stays on its list: the write is ignored, as is one that would make a frame
FREE (assumption 70). -/
def frameOfNat (s : State) (f x : Nat) : State :=
  let w := unpackLE x 7 1
  match frStOf (bitsOf w 2 0) with
  | none => s
  | some st =>
    if (s.frame f).st = .free then s
    else
      let link := unpackLE x 8 4
      let wher := unpackLE x 12 4
      (s.setLoc f (locOfField (unpackLE x 0 4))).setFrame f
        { st := st, owner := bitsOf (unpackLE x 6 1) 6 0, refs := unpackLE x 4 2, migLock := bitOf w 3
          slot := bitsOf link 17 0, gen := bitsOf link 25 18, page := bitsOf wher 19 0, lane := bitsOf wher 30 20 }

/-! ### Connections and key slots (R385, R480) -/

def connStCode : ConnSt → Nat
  | .free => 0
  | .open_ => 1
  | .error => 2

def keyStCode : KeySt → Nat
  | .empty => 0
  | .live => 1
  | .retired => 2

/-- The 64 bytes of a connection-table entry (R385). -/
def connToNat (s : State) (i : Nat) : Nat :=
  let c := s.conn i
  packLE [(i + 4096 * c.gen + 2 ^ 20 * connStCode c.st, 4), (c.part, 1), (c.paths + 16 * b2n c.v4, 1), (c.seg, 2), (c.peerConn, 4),
    (c.peerNode, 2), (c.peerPort, 2), (c.peerAddr, 16), (c.job, 4), (c.txEpoch, 2), (0, 2), (c.txPsn, 4), (c.rxPsn, 4), (c.rate, 4),
    (c.stageMax, 4), (0, 8)]

/-- The setup fields of a FREE connection are written; every other write of the entry is ignored (R385). -/
def connOfNat (s : State) (i x : Nat) : State :=
  let c := s.conn i
  if c.st ≠ .free then s
  else
    s.setConn i { c with
      part := bitsOf (unpackLE x 4 1) 5 0, paths := bitsOf (unpackLE x 5 1) 3 0, v4 := bitOf (unpackLE x 5 1) 4
      seg := unpackLE x 6 2, peerConn := bitsOf (unpackLE x 8 4) 19 0, peerNode := unpackLE x 12 2, peerPort := unpackLE x 14 2
      peerAddr := unpackLE x 16 16, job := unpackLE x 32 4, txEpoch := unpackLE x 36 2, txPsn := unpackLE x 40 4
      rxPsn := unpackLE x 44 4, stageMax := unpackLE x 52 4 }

/-- The 128 bytes of a key-slot entry, whose key material reads zero (R25, R480). -/
def keyToNat (s : State) (k : Nat) : Nat :=
  let v := s.keySlot k
  let tx := v.st = .live ∧ v.epoch = (s.conn (k / 2)).txEpoch
  packLE [(v.conn % 2 ^ 20, 4), (v.epoch, 2), (keyStCode v.st, 1), (b2n (decide tx), 1), (v.job, 2), (v.rxHigh, 6), (v.txCtr, 6), (0, 106)]

/-! ### Views (R24, R25) -/

/-- Bytes of an entry and entries of a table (R24). -/
def tableShape (t : Nat) : Nat × Nat :=
  match t with
  | 1 => (64, 262144)
  | 2 => (96, 1048576)
  | 3 => (16, frameCount)
  | 4 => (32, 4096)
  | 5 => (32, 65536)
  | 6 => (64, 4096)
  | 7 => (128, 8192)
  | _ => (4, 0)

/-- The table that view `v` (0 to 2) shows, and the table byte that a view offset names. -/
def viewPlace (s : State) (v off : Nat) : Nat × Nat :=
  let w := s.rg (Reg.SYS_VIEWA_SEL + 4 * v)
  (bitsOf w 7 0, bitsOf w 19 8 * 2 ^ 24 + off)

/-- An entry of a table as a little-endian number; those of the look-aside buffer have no layout in the spec. -/
def tableEntry (s : State) (t i : Nat) : Nat :=
  match t with
  | 1 => ctxToNat s i
  | 2 => reqToNat s i
  | 3 => frameToNat s i
  | 5 => rdlEntNat (s.rdlEnt i)
  | 6 => connToNat s i
  | 7 => keyToNat s i
  | _ => 0

/-- A word of a table is written; RIDDLE and the look-aside buffer take no writes (R25, R300), nor does key material (R480). No other field of a
key slot takes a write either (DESIGN CHOICE: the spec names key material alone; assumption 125). -/
def tableWrite (s : State) (t b v : Nat) : State :=
  let n := (tableShape t).1
  let i := b / n
  let o := b % n
  let x := putBits (tableEntry s t i) (8 * o + 31) (8 * o) v
  match t with
  | 1 => s.setCtx i (ctxOfNat x)
  | 2 => s.setReq i (reqOfNat x)
  | 3 => frameOfNat s i x
  | 6 => connOfNat s i x
  | _ => s

/-- A read of the word at offset `off` of view `v` (R25): a free value for the look-aside buffer (assumption 71); `bad`: the entry holds an uncorrectable error, so the value is free and the
fault is recorded (R511). -/
def viewRead (s : State) (v off : Nat) (bad : Bool) : State × Nat :=
  let (t, b) := viewPlace s v off
  let (n, cnt) := tableShape t
  if n * cnt ≤ b then (s, 0)
  else if bad then
    let s1 := if t = 1 ∨ t = 2 then s.count Reg.BST_PEAT_UNCORR else s.count Reg.BST_INT_UNCORR
    ((fault s1 .sys 0 0x02 none (0x1000000 * (v + 1) + off) t).draw, s.free 32)
  else if t = 4 then (s.draw, s.free 32)
  else (s, unpackLE (tableEntry s t (b / n)) (b % n) 4)

/-- A write of the word at offset `off` of view `v` (R25). -/
def viewWrite (s : State) (v off x : Nat) : State :=
  let (t, b) := viewPlace s v off
  let (n, cnt) := tableShape t
  if n * cnt ≤ b then s else tableWrite s t b (x % 2 ^ 32)

/-- The view that a control-space address lies in, with the offset (R23). -/
def viewOf (a : Nat) : Option (Nat × Nat) :=
  if 0x1000000 ≤ a ∧ a < 0x4000000 then some (a / 0x1000000 - 1, a % 0x1000000) else none

end Sys2Proof.Machine
end

