-- ==== Sys2Proof/Machine/Access.lean ====
section
/-!
DEFINITION. Accesses from outside the blocks (R20 to R22, R42 to R45): loads and stores of the MCX cores in the control space, and the
data port to memory; the commands of the control-space registers.
-/

namespace Sys2Proof.Machine

/-- A control-space access of the wrong width or alignment (R20). -/
def accessFault (s : State) (req a : Nat) : State := fault s .sys 0 0x01 none (a % 2 ^ 26) (req % 8)

/-! ### Memory behind the data port (R44) -/

/-- A word access to memory is refused with MALFORMED (R44, R30, R321). -/
def memRefused (s : State) (a : Nat) (write : Bool) : Bool :=
  !s.up .dpw 0 || !inMem a || decide (a % 4 ≠ 0) || (write && privRefused s a) || (inFen a && !s.en .fen (addrStack a))

/-- A word is read: its value and status; an uncorrectable error reads zero and fails with CRC (R44, R248). -/
def memRead (s : State) (a src : Nat) (bad : Bool) : State × Nat × Nat :=
  if bad then
    (if inFen a then fenFault s (addrStack a) a src else uncorr s a, 0, stCRC)
  else (s, s.readLE a 4, stOK)

/-- A word is written; a path word of a peer entry may heal its path (R442). -/
def memWrite (s : State) (a v : Nat) : State := pathWritten (s.writeLE a 4 (v % 2 ^ 32)) a (s.readLE a 4)

/-- One word access takes place: state, value read, status. -/
def wordDo (s : State) (write : Bool) (a v : Nat) (bad : Bool) : State × Nat × Nat :=
  if write then (memWrite s a v, 0, stOK) else memRead s a 0 bad

/-! ### Runs of words: management bursts and Snius (R45, R50, R539) -/

/-- What a run of words comes to: the state, the status of the first word that failed, the words read, how many are done, and the words
still to come where one waits for its channel, with the next address. -/
structure WordsOut where
  s : State
  status : Nat
  read : List (Nat × Nat)
  done : Nat
  rest : Option (Nat × List Nat)

/-- Words from address `a` on, up to the first that fails or that waits for a fen channel. `refuse` is the status that an address is refused
with, OK where it is not. -/
def wordsRun (refuse : State → Nat → Nat) (who : Nat) (write : Bool) (bad : Option Nat) (s : State) (a : Nat) (read : List (Nat × Nat))
    (n : Nat) : List Nat → WordsOut
  | [] => ⟨s, stOK, read, n, none⟩
  | v :: vs =>
    if refuse s a ≠ stOK then ⟨s, refuse s a, read, n, none⟩
    else if inFen a then ⟨dpwHold s who write a v, stOK, read, n, some (a, v :: vs)⟩
    else
      let (s1, x, st) := wordDo s write a v (bad == some n)
      if st ≠ stOK then ⟨s1, st, read, n, none⟩
      else wordsRun refuse who write bad s1 (a + 4) (if write then read else read ++ [(a, x)]) (n + 1) vs

/-- A run whose front word has been granted its channel goes on. -/
def wordsResume (refuse : State → Nat → Nat) (who : Nat) (r : WordRun) (bad : Bool) (s : State) : WordsOut :=
  match r.todo with
  | [] => ⟨s, stOK, r.read, r.done, none⟩
  | v :: vs =>
    if refuse s r.addr ≠ stOK then ⟨s, refuse s r.addr, r.read, r.done, none⟩
    else
      let (s1, x, st) := wordDo s r.write r.addr v (bad || r.bad == some r.done)
      if st ≠ stOK then ⟨s1, st, r.read, r.done, none⟩
      else wordsRun refuse who r.write r.bad s1 (r.addr + 4) (if r.write then r.read else r.read ++ [(r.addr, x)]) (r.done + 1) vs

/-! ### The data port (R43 to R45) -/

/-- The value that core `c`'s access returns. -/
def State.answer (s : State) (c v : Nat) : State := { s with ret := SMap.set s.ret 0 c v }

def dpwAddr (s : State) (c : Nat) : Nat := s.rg64 (Reg.DPW_ADDR_LO c)
def dpwFail (s : State) (c status : Nat) : State := s.setRg (Reg.DPW_STAT c) status

/-- Core `c`'s access to memory at address `a` takes place, and its DPW address advances by 4 (R43, R44). -/
def dpwPerform (s : State) (c a v : Nat) (write bad : Bool) : State :=
  let s1 := s.setRg64 (Reg.DPW_ADDR_LO c) ((a + 4) % 2 ^ 64)
  if write then memWrite s1 a v
  else
    let (s2, x, st) := memRead s1 a 0 bad
    (if st = stOK then s2 else dpwFail s2 c st).answer c x

/-- Core `c` reads or writes DPW_DATA: refused, waiting for a fen channel, or done at once (R43 to R45, R223). -/
def dpwData (s : State) (c v : Nat) (write bad : Bool) : State :=
  let a := dpwAddr s c
  if memRefused s a write then
    let s1 := dpwFail s c stMALFORMED
    if write then s1 else s1.answer c 0
  else if inFen a then dpwHold s c write a v
  else dpwPerform s c a v write bad

/-- Core `c`'s access that waited has its channel: it takes place, or fails where its stack is in use no longer (R30, R45). -/
def dpwServed (s : State) (h : DpwHeld) (bad : Bool) : State :=
  if memRefused s h.addr h.write then
    let s1 := dpwFail s h.core stMALFORMED
    if h.write then s1 else s1.answer h.core 0
  else dpwPerform s h.core h.addr h.value h.write bad

/-- The core waits for a held access (R45), or for the end of a management burst that is under way (R50). -/
def coreStalled (s : State) (c : Nat) : Bool := s.dpw.any (·.core == c) || s.mgt.burst.isSome

/-! ### Loads and stores of an MCX core (R20, R42, R43) -/

/-- The core and register offset of a per-core DPW register. -/
def dpwSet (a : Nat) : Option (Nat × Nat) :=
  if 0x200040 ≤ a ∧ a < 0x2000C0 then some ((a - 0x200040) / 32, (a - 0x200040) % 32) else none

/-- A store of core `c` at an aligned control-space address. -/
def coreStore (s : State) (c a v : Nat) : State :=
  match viewOf a with
  | some (w, off) => viewWrite s w off v
  | none => match dpwSet a with
    | some (k, off) => if k ≠ c then s else if off = 8 then dpwData s c (v % 2 ^ 32) true false else writeReg s a v
    | none => writeReg s a v

/-- A load of core `c` at an aligned control-space address; `bad`: an uncorrectable error behind a view or the data port. -/
def coreLoad (s : State) (c a : Nat) (bad : Bool) : State :=
  match viewOf a with
  | some (w, off) =>
    let (s1, v) := viewRead s w off bad
    s1.answer c v
  | none => match dpwSet a with
    | some (k, off) =>
      if k ≠ c then s.answer c 0
      else if off = 8 then dpwData s c 0 false bad
      else
        let (s1, v) := readReg s c a
        s1.answer c v
    | none =>
      let (s1, v) := readReg s c a
      s1.answer c v

/-- An access of core `c` of `width` bits: one of another width or alignment does nothing and reads zero (R20); a stalled core makes none
(R45). -/
def coreAccess (s : State) (c a width : Nat) (write : Bool) (v : Nat) (bad : Bool) : State :=
  if coreStalled s c then s
  else if width ≠ 32 ∨ a % 4 ≠ 0 then
    let s1 := accessFault s c a
    if write then s1 else s1.answer c 0
  else if write then coreStore s c a v
  else coreLoad s c a bad

/-! ### The commands (R7, R20, R21, R25, R33, R35, R37, R43, R45) -/

/-- REGISTER_WRITE: an MCX core stores `value` at `addr` (R7, R20). -/
def execRegisterWrite (core addr value width : Nat) (s : State) : Host.Outcome State Fault Refusal :=
  .next (coreAccess s (core % 4) addr width true value false)

/-- WIDE_REGISTER_ACCESS: a load or store of one word of a 64-bit register (R21). -/
def execWideRegisterAccess (core addr : Nat) (write : Bool) (value : Nat) (s : State) : Host.Outcome State Fault Refusal :=
  .next (if isWideLo addr || isWideHi addr then coreAccess s (core % 4) addr 32 write value false else s)

/-- COUNTER_READ_CLEAR: a load of a register that holds an RC field (R7). -/
def execCounterReadClear (core addr : Nat) (s : State) : Host.Outcome State Fault Refusal :=
  let rc : Bool := match regRow addr with
    | some (_, _, _, r) => r.flds.any fun f => decide (f.acc = .rc)
    | none => false
  .next (if rc then coreAccess s (core % 4) addr 32 false 0 false else s)

/-- VIEW_ACCESS: a load or store through view A, B or C (R25). -/
def execViewAccess (core view off : Nat) (write : Bool) (value : Nat) (bad : Bool) (s : State) : Host.Outcome State Fault Refusal :=
  .next (coreAccess s (core % 4) (0x1000000 * (view % 3 + 1) + off % 0x1000000) 32 write value bad)

/-- Header register `off` of the block whose page holds `page`; nothing where no block's header stands there. -/
def headWrite (s : State) (page off v : Nat) : State := writeReg s (page * 4096 + off) v

/-- BLK_LOCK_WRITE: a write of a page's BLK_LOCK (R37). -/
def execBlkLockWrite (page value : Nat) (s : State) : Host.Outcome State Fault Refusal := .next (headWrite s page 0x030 value)

/-- BLK_EVT_CLEAR: a W1C write of a page's BLK_EVT (R33). -/
def execBlkEvtClear (page bits : Nat) (s : State) : Host.Outcome State Fault Refusal := .next (headWrite s page 0x018 bits)

/-- BLK_FLT_CLEAR: a W1C write of a page's BLK_FLT (R35). -/
def execBlkFltClear (page value : Nat) (s : State) : Host.Outcome State Fault Refusal := .next (headWrite s page 0x020 value)

/-- DPW_DATA_ACCESS: core `core` reads or writes its DPW_DATA (R43). -/
def execDpwDataAccess (core : Nat) (write : Bool) (value : Nat) (bad : Bool) (s : State) : Host.Outcome State Fault Refusal :=
  let c := core % 4
  .next (if coreStalled s c then s else dpwData s c (value % 2 ^ 32) write bad)

/-- CTX_FORCE_CLEAR_STARVED: CTX_FORCE is written with op 1 (R133). -/
def execCtxForceClearStarved (slot gen : Nat) (s : State) : Host.Outcome State Fault Refusal :=
  .next (writeReg s Reg.CTX_FORCE (slot % 2 ^ 18 + gen % 256 * 2 ^ 18 + 2 ^ 26))

/-- CTX_FORCE_LOST: op 2 (R133). -/
def execCtxForceLost (slot gen : Nat) (s : State) : Host.Outcome State Fault Refusal :=
  .next (writeReg s Reg.CTX_FORCE (slot % 2 ^ 18 + gen % 256 * 2 ^ 18 + 2 * 2 ^ 26))

/-- CTX_FORCE_RELEASE: op 3 (R133). -/
def execCtxForceRelease (slot gen : Nat) (s : State) : Host.Outcome State Fault Refusal :=
  .next (writeReg s Reg.CTX_FORCE (slot % 2 ^ 18 + gen % 256 * 2 ^ 18 + 3 * 2 ^ 26))

/-- LAB_INVALIDATE_SLOT: PWK_LAB_INV is written with all clear (R134). -/
def execLabInvalidateSlot (slot : Nat) (s : State) : Host.Outcome State Fault Refusal :=
  .next (writeReg s Reg.PWK_LAB_INV (slot % 2 ^ 18))

/-- LAB_INVALIDATE_ALL: PWK_LAB_INV is written with all set (R134). -/
def execLabInvalidateAll (s : State) : Host.Outcome State Fault Refusal := .next (writeReg s Reg.PWK_LAB_INV (2 ^ 31))

/-- FRM_GRANT_TO_PARTITION: FRM_GRANT is written with dir 0 (R136). -/
def execFrmGrantToPartition (part tier count : Nat) (s : State) : Host.Outcome State Fault Refusal :=
  .next (writeReg s Reg.FRM_GRANT (part % 64 + tier % 2 * 64 + count % 2 ^ 24 * 256))

/-- FRM_GRANT_TO_POOL: FRM_GRANT is written with dir 1 (R136). -/
def execFrmGrantToPool (part tier count : Nat) (s : State) : Host.Outcome State Fault Refusal :=
  .next (writeReg s Reg.FRM_GRANT (part % 64 + tier % 2 * 64 + 128 + count % 2 ^ 24 * 256))

/-- FRM_DEVRES_TAKE: FRM_DEVRES is written with go and release 0 (R137). -/
def execFrmDevresTake (frame : Nat) (s : State) : Host.Outcome State Fault Refusal :=
  .next (writeReg s Reg.FRM_DEVRES (frame % 2 ^ 25 + 2 ^ 31))

/-- FRM_DEVRES_RELEASE: FRM_DEVRES is written with go and release 1 (R137). -/
def execFrmDevresRelease (frame : Nat) (s : State) : Host.Outcome State Fault Refusal :=
  .next (writeReg s Reg.FRM_DEVRES (frame % 2 ^ 25 + 2 ^ 30 + 2 ^ 31))

/-- DBR_RAW_ARM: DBR_RAW_CTL is written with arm and the program's length (R253). -/
def execDbrRawArm (stack words : Nat) (s : State) : Host.Outcome State Fault Refusal :=
  .next (writeReg s (Reg.DBR_RAW_CTL (stack % 8)) (words % 4096 + 2 ^ 16))

/-- TPL_TICK_LEN_WRITE: TPL_TICK_LEN is written (R61). -/
def execTplTickLenWrite (value : Nat) (s : State) : Host.Outcome State Fault Refusal := .next (writeReg s Reg.TPL_TICK_LEN value)

end Sys2Proof.Machine
end

