-- ==== Sys2Proof/Machine/Tick.lean ====
section
/-!
DEFINITION. The tick: its boundary (R533), the plan window's end (R91, R349), booked items (R67, R68), the seal point (R68, R121, R131), the
start of the tick counter (R528), and the service copies that end in between (R112, R122, R410, R526).
-/

namespace Sys2Proof.Machine

/-! ### Booking lists (R349) -/

/-- The 32 bytes of a booking-list entry. -/
def entryBytes (start fin kind flags rows req frame page addr : Nat) : List Nat :=
  toLE 4 start ++ toLE 4 fin ++ [kind % 256, flags % 256] ++ toLE 2 rows ++ toLE 4 req ++ toLE 4 frame ++ toLE 4 page ++ toLE 8 addr

/-- Address of a request-table entry (R117). -/
def reqEntry (slot : Nat) : Nat := reqTableBase + 96 * slot

/-- The pages that a page-list walk of request `slot` on a unit covers, as booked (R86, R349). -/
def walkPages (s : State) (slot : Nat) (u : BUnit) : List (Nat × Nat) :=
  (s.tpl.items.filter fun y => y.unit == u && y.reqs.head? == some slot && (y.kind == .pages || y.kind == .shared || y.kind == .chain)).flatMap
    (·.pages)

/-- Where the walk port of tile n writes the frame base addresses of `pages` pages: a free place in its data region or its gather buffer, from
draw `k` of this plan (assumption 72). -/
def walkAddr (s : State) (n k pages : Nat) : Nat :=
  let v := (Config.freeValue (s.tpl.draws + k)).toNat
  if v % 2 = 0 then privBase n + 0x40000 + 8 * (v / 2 % (163840 - pages)) else gatherBase n + 8 * (v / 2 % (196608 - pages))

/-- Entries of one item of tile n, item `k` of the plan, with their starts. -/
def itemEntries (s : State) (n : Nat) (it : Item) (k : Nat) : List (Nat × List Nat) :=
  let slot := it.reqs.headD 0
  let r := s.reqAt slot
  let c := s.ctxAt (hSlot r.handle)
  let id := mkReqId r.gen slot
  let fin := it.start + it.len
  let (lane, page) := it.pages.headD (0, 0)
  let f := itemFrame s it
  let bound := (pageWorks s r c).any fun w => w.lane == lane && w.page == page && w.bound
  let home := partialAddr s slot (lane, page)
  let pages := (walkPages s slot it.unit).length
  let walk := fun (x : Nat) => entryBytes it.start x 0x0A 0 pages id 0 page (walkAddr s n k pages)
  match it.kind with
  | .rotate => [(it.start, entryBytes it.start fin 0x01 0 it.rows id 0 0 (reqEntry slot))]
  | .merge => [(it.start, entryBytes it.start fin 0x05 0 it.rows id 0 page home)]
  | .finalize => [(it.start, entryBytes it.start fin 0x06 0 it.rows id 0 0 (reqEntry slot))]
  | .handoff => [(it.start, entryBytes it.start fin 0x07 (if areqWire r = 0 then 0 else 2) it.rows id 0 0 (reqEntry slot))]
  | .append _ => [(it.start, entryBytes it.start fin 0x08 0 it.rows id 0 0 (reqEntry slot))]
  | .clone => []
  | .release => []
  | .migrate => []
  | .chain => []
  | .walk => [(it.start, walk fin)]
  | .pages => [(it.start, entryBytes it.start fin (if s.frTier f = 0 then 0x02 else 0x03) (b2n bound) it.rows id f page home)]
  | .shared =>
    let first := walksFirst s.tpl it
    let x := if first then it.start + costWalk else it.start
    (if first then [(it.start, walk x)] else [])
      ++ [(x, entryBytes x fin (if s.frTier f = 0 then 0x02 else 0x03) (b2n bound + 4) it.rows id f page home)]

/-- The SEND entry of a transfer. -/
def sendEntry (s : State) (x : Xfer) : Nat × List Nat :=
  (x.start, entryBytes x.start (x.start + costMesh x.links.length (64 * x.flits)) 0x09 0 x.flits
    (mkReqId (s.reqAt x.slot).gen x.slot) (x.dst + x.legs) 0 (xferAddr s x))

/-- The entries of tile n's booking list, in ascending start order. -/
def bookEntries (s : State) (n : Nat) : List (List Nat) :=
  let its := (s.tpl.items.zipIdx.filter fun x => x.1.unit == .tile n).flatMap fun x => itemEntries s n x.1 x.2
  let sends := (s.tpl.xfers.filter fun x => x.src == n).map (sendEntry s)
  ((its ++ sends).mergeSort fun a b => decide (a.1 ≤ b.1)).map (·.2)

/-- The planner writes tile n's booking list into its booking area (R349). -/
def bookList (s : State) (n : Nat) : State :=
  let es := bookEntries s n
  let h := privBase n + 0x20000
  let s1 := s.writeBytes h (toLE 8 (s.time.tick % 2 ^ 48) ++ toLE 2 es.length ++ List.replicate 54 0)
  (s1.writeBytes (h + 64) es.flatten).setRg (Reg.TIL_BOOKED n) (es.length % 4096)

/-! ### Page-list walks (R86, R108, R318) -/

/-- The walker looks up the directory entries of some pages of a request in the look-aside buffer (R108). -/
def walkLab (s : State) (slot : Nat) (pages : List (Nat × Nat)) : State :=
  let k := hSlot (s.reqAt slot).handle
  ((pages.map fun p => (p.1, p.2 / 8192)).eraseDups).foldl (fun s d => walkDir s k (s.ctxAt k) d.1 d.2) s

/-- The walk of item `k` is delivered: the walk port writes one 8-byte frame base address per page (R318, R349). -/
def walkOut (s : State) (it : Item) (k : Nat) : State :=
  let slot := it.reqs.headD 0
  let ps := walkPages s slot it.unit
  match it.unit with
  | .tile n =>
    let c := s.ctxAt (hSlot (s.reqAt slot).handle)
    s.writeBytes (walkAddr s n k ps.length) (ps.flatMap fun p => toLE 8 (s.frAddr (pteAt s c p.1 p.2).frame))
  | .chan _ _ => s
  | .frm => s

/-- The walks of the sequencers, which are booked ahead of their segments (R86). -/
def walkChains (s : State) : State :=
  (s.tpl.items.filter (·.kind == .chain)).foldl (fun s it => walkLab s (it.reqs.headD 0) it.pages) s

/-! ### The end of the plan window (R91) -/

/-- Admitted work starts at cc 2,048: the status registers and the tally are captured, the booking lists stand, admitted requests of
mirrored contexts are forwarded, copies of frames that admitted work names stop and fetches on demand begin (R91, R216, R263, R273, R349,
R454). -/
def planEnd (s : State) : State :=
  if s.tpl.planned then s
  else
    let s0 := s.ccTo planStart
    let s1 := (s0.setRg Reg.TPL_TICK_LO (s0.time.tick % 2 ^ 32)).setRg Reg.TPL_TICK_HI (s0.time.tick / 2 ^ 32 % 2 ^ 16)
    let s2 := (s1.setRg Reg.TPL_LAST_ADMIT (s1.tpl.admitted % 2 ^ 21)).setRg Reg.TPL_LAST_LATE (s1.tpl.lateCnt % 2 ^ 21)
    let s3 := s2.setRg Reg.TPL_LAST_ENERGY (ceilDiv s2.tpl.energy 1000000)
    let s4 := s3.setRg Reg.TPL_TALLY (s3.tpl.tally.length % 2 ^ 15 + b2n s3.tpl.tallyOver * 2 ^ 15)
    let s5 := { s4 with
      fresh := s4.fresh + (s4.tpl.items.length + s4.tpl.xfers.length), tpl := { s4.tpl with draws := s4.fresh } }
    let s6 := walkChains ((List.range 128).foldl bookList s5)
    let s7 := { s6 with tpl := { s6.tpl with planned := true } }
    movesGo (fetchesBegin (movesPlanStop (forwardAll s7)))

/-- PLAN_WINDOW_END (R91). -/
def execPlanWindowEnd (s : State) : Host.Outcome State Fault Refusal :=
  .next (if s.time.running then planEnd s else s)

/-! ### Booked items (R67, R68, R206, R212) -/

/-- The unit of an item can run it. -/
def unitRuns (s : State) (u : BUnit) : Bool :=
  match u with
  | .tile n => (s.tile n).st == .running
  | .chan n _ => s.en .fen n
  | .frm => true

def setItem (s : State) (i : Nat) (st : ISt) : State :=
  { s with tpl := { s.tpl with items := s.tpl.items.zipIdx.map fun x => if x.2 = i then { x.1 with st := st } else x.1 } }

/-- Every request of an item has lost booked work: the item stays unfinished (R68, R331, R350). -/
def itemLost (s : State) (it : Item) : Bool := it.reqs.all s.tpl.lost.contains

/-- What the start of an item brings: a page-list walk begins; a shared item's own walk is delivered with it. -/
def itemBegin (s : State) (it : Item) (k : Nat) : State :=
  let slot := it.reqs.headD 0
  match it.kind with
  | .walk => walkLab s slot (walkPages s slot it.unit)
  | .shared => if walksFirst s.tpl it then walkOut (walkLab s slot (walkPages s slot it.unit)) it k else s
  | _ => s

/-- BOOKED_ITEM_START: item `i` of the plan starts at its booked cc (R212); one on a unit that a fault has stopped, or whose work is lost,
never starts (R68). -/
def execBookedItemStart (i : Nat) (s : State) : Host.Outcome State Fault Refusal :=
  match s.tpl.items[i]? with
  | none => .next s
  | some it =>
    if it.st = .booked ∧ s.tpl.planned ∧ !s.tpl.sealed ∧ unitRuns s it.unit ∧ !itemLost s it then
      .next (itemBegin (setItem (s.ccTo it.start) i .running) it i)
    else .next s

/-- The status with which a request's work ends well: CANCELLED, LATE or OK (R75, R119). -/
def endStatus (r : Req) (st : Nat) : Nat :=
  if r.cancel then stCANCELLED else if st ≠ stOK then st else if r.target < r.ran then stLATE else stOK

/-- What an admitted request has taken goes back: frames of an APPEND or MIGRATE, frames and table space of a CLONE (R115, R120, R410). -/
def giveBack (s : State) (slot : Nat) : State :=
  let r := s.reqAt slot
  let fs := SMap.get s.tpl.taken [] slot
  let s0 := { s with tpl := { s.tpl with taken := SMap.set s.tpl.taken [] slot [] } }
  if r.kind = 3 then
    let c := SMap.get s.tpl.prep {} slot
    let s1 := { fs.foldl copyDstBack s0 with tpl := { s0.tpl with prep := SMap.set s0.tpl.prep {} slot {} } }
    if c.st = .free then s1 else freeContextTables s1 c
  else
    let im := s.fab.imports.find? (·.req == slot)
    let s1 := { s0 with fab := { s0.fab with imports := s0.fab.imports.filter (·.req != slot) } }
    (fs ++ (im.map (·.frames)).getD []).foldl toScrub s1

/-- An admitted request fails on an uncorrectable error met on the way (R248, R506). -/
def failAdmitted (s : State) (slot : Nat) : State :=
  if (s.reqAt slot).st = .admitted then failRequest (giveBack s slot) slot stCRC else s

/-- An uncorrectable error stops an item: a tile faults at its own memory; a crown read of fen and a read of staging fail the requests
(R248, R352, R506). -/
def itemBad (s : State) (it : Item) (addr : Nat) : State :=
  let failAll := fun (s : State) => it.reqs.foldl failAdmitted s
  match it.unit with
  | .tile n =>
    if inFen addr then failAll (fenFault s (addrStack addr) addr 0)
    else if it.kind == .rotate || (match it.kind with | .append _ => true | _ => false) then
      failAll (fault (uncorr s addr) .itp 0 0x60 none (cwIdx (s.reqAt (it.reqs.headD 0)).conn) (addr % 2 ^ 32))
    else tileFault s n 0x44 addr
  | .chan n _ => failAll (fenUncorr s n addr)
  | .frm => failAll (fault (uncorr s addr) .frm 0 0x21 none (frameAt s ((addr - peatBase) / 65536)) (addr % 2 ^ 32))

/-- Every item of a request but item `i` is done. -/
def othersDone (s : State) (slot i : Nat) : Bool :=
  s.tpl.items.zipIdx.all fun x => x.2 == i || !x.1.reqs.contains slot || x.1.st == .done

/-- What the end of an item brings: a hand-off sends the request's result (R350, R411); the last item of an APPEND commits it (R128). -/
def itemEnd (s : State) (it : Item) (i : Nat) : State :=
  let slot := it.reqs.headD 0
  let r := s.reqAt slot
  if r.st ≠ .admitted then s
  else match it.kind with
  | .handoff =>
    if othersDone s slot i then
      if ctxGone s slot then settle s slot (endStatus r stCTX_LOST) r.handle []
      else settle s slot (endStatus r stOK) r.handle (if r.cancel then [] else SMap.get s.tpl.results [] slot)
    else s
  | .append _ =>
    if othersDone s slot i then
      let (s1, st) := appendCommit s slot
      { s1 with tpl := { s1.tpl with sealing := s1.tpl.sealing ++ [(slot, st)] } }
    else s
  | .walk => walkOut s it i
  | _ => s

/-- BOOKED_ITEM_COMPLETE: a running item ends exactly its ledger cost after its booked start (R67). `bad`: the address of an uncorrectable
error that it met. -/
def execBookedItemComplete (i : Nat) (bad : Option Nat) (s : State) : Host.Outcome State Fault Refusal :=
  match s.tpl.items[i]? with
  | none => .next s
  | some it =>
    if it.st ≠ .running ∨ s.tpl.sealed ∨ !unitRuns s it.unit ∨ itemLost s it then .next s
    else
      let s1 := s.ccTo (it.start + it.len)
      match bad with
      | some a => .next (itemBad s1 it a)
      | none => .next (itemEnd (setItem s1 i .done) it i)

/-! ### The seal point (R68, R121, R131, R411) -/

/-- Code of an item's kind in the fault record (R349, R511); frame-allocator items have none, and read 0. -/
def kindCode (it : Item) (fen : Bool) : Nat :=
  match it.kind with
  | .rotate => 0x01
  | .walk => 0x0A
  | .pages => if fen then 0x03 else 0x02
  | .shared => if fen then 0x03 else 0x02
  | .merge => 0x05
  | .finalize => 0x06
  | .handoff => 0x07
  | .append _ => 0x08
  | .chain => 0x10
  | .clone => 0
  | .release => 0
  | .migrate => 0

/-- info1 of an unfinished item (R511). -/
def overInfo (s : State) (it : Item) : Nat :=
  let fen := s.frTier (itemFrame s it) == 1
  kindCode it fen + match it.unit with
    | .tile n => n * 256
    | .chan n p => 0xFF00 + n * 65536 + p * 2 ^ 19
    | .frm => 0xFF00

/-- A request with an unfinished item: its work is abandoned, with a fault and event bit 3, and it stands again at the head of its partition's
queue, marked late (R68, event bit 5); where a CANCEL has come it completes with CANCELLED. -/
def overrunReq (s : State) (slot : Nat) : State :=
  let r := s.reqAt slot
  match s.tpl.items.find? fun it => it.reqs.contains slot && it.st != .done with
  | none => s
  | some it =>
    if r.st ≠ .admitted then s
    else
      let sf := event0 (fault s .tpl 0 0x10 none (mkReqId r.gen slot) (overInfo s it)) .tpl 0 3
      let s1 := giveBack (if r.cancel then sf else event0 sf .tpl 0 5) slot
      let s2 := { s1 with tpl := { s1.tpl with results := SMap.set s1.tpl.results [] slot [], order := s1.tpl.order.filter (· != slot) } }
      if r.cancel then settle s2 slot stCANCELLED r.handle []
      else
        let p := reqPart s2 slot
        let q : QEnt := ⟨slot, s2.time.tick, 0, 0, 0, cwIdx r.conn⟩
        let s3 := s2.setReq slot { s2.reqAt slot with st := .queued, late := true }
        { s3 with tpl := { s3.tpl with queues := SMap.set s3.tpl.queues [] p (q :: SMap.get s3.tpl.queues [] p) } }

/-- One admitted request of kind CLONE or RELEASE takes effect. -/
def sealOne (s : State) (slot : Nat) : State :=
  let r := s.reqAt slot
  if r.st ≠ .admitted then s
  else if r.kind = 3 then
    if ctxGone s slot then settle (giveBack s slot) slot (endStatus r stCTX_LOST) r.handle [] else cloneApply s slot (endStatus r stOK)
  else if r.kind = 4 then
    let h := r.handle
    settle (releaseApply s (hSlot h)) slot (endStatus r stOK) h []
  else s

/-- The seal point: unfinished work is abandoned; CLONEs count their frames, then CLONEs and RELEASEs take effect in admission order; the
ADONEs that fell due with a status are sent; a waiting snapshot takes its frames (R68, R121, R131, R411, R459). -/
def sealPoint (s : State) : State :=
  if s.tpl.sealed then s
  else
    let s0 := (planEnd s).ccTo s.sealCC
    let s1 := s0.tpl.order.reverse.foldl overrunReq s0
    let due := s1.tpl.order.filter fun q => (s1.reqAt q).st == .admitted
    let s2 := (due.filter fun q => (s1.reqAt q).kind == 3 && !ctxGone s1 q).foldl cloneCount s1
    let s3 := due.foldl sealOne s2
    let s4 := s3.tpl.sealing.foldl (fun s x =>
      let r := s.reqAt x.1
      if r.st = .admitted then settle s x.1 (endStatus r x.2) r.handle [] else s) s3
    snapSeal { s4 with tpl := { s4.tpl with sealed := true, order := [], items := [], sealing := [] } }

/-- SEAL_POINT (R68). -/
def execSealPoint (s : State) : Host.Outcome State Fault Refusal := .next (if s.time.running then sealPoint s else s)

/-! ### The boundary (R533) -/

/-- Policers fill at cc 0 of each tick (R435). -/
def policersFill (s : State) : State :=
  if !s.bit (Reg.RAK_POL_CFG 0) 0 then s
  else
    (List.range 4096).foldl (fun s i =>
      let a := s.rg64 (Reg.RAK_POL_BASE_LO 0) + 16 * i
      let rate := s.readLE a 4
      if rate = 0 then s else s.putLE (a + 8) 4 (min (s.readLE (a + 8) 4 + rate) (max rate (s.readLE (a + 4) 4)))) s

/-- The gates at the boundary: lists are checked under the tick length that applies, and a frame that is still on the wire of
a closing class is an overrun (R424, R427). -/
def gatesBoundary (old s : State) : State :=
  let s1 := (List.range 64).foldl (fun s i => gatesApply old s (i / 8) (i % 8)) s
  (s.ports.map (·.1)).foldl (fun s p => overrun s p (gateMask (gateList old p) (old.lcc - 1)) (gateMask (gateList s p) 0)) s1

/-- Step 1 of R533: pending values, refresh periods, exclusion, gates; with them what each tick begins with. -/
def boundaryStart (s : State) : State :=
  let s1 := gatesBoundary s (rwtBoundary s)
  let s2 := fabTick (pathPorts (policersFill (refreshPeriods s1)))
  { s2 with punts := [], frm := { s2.frm with started := 0 }, bst := { s2.bst with words := 0 } }

/-- A queued request names a frame that is poisoned or whose descriptor could not be read (R506, R508). -/
def poisonedReq (s : State) (slot : Nat) : Bool :=
  let r := s.reqAt slot
  let k := hSlot r.handle
  let c := s.ctxAt k
  let on := fun (lane page : Nat) =>
    let e := pteAt s c lane page
    e.valid && e.tier == 0 && (s.poison.contains e.frame || decide ((s.frame e.frame).st = .retired))
  if s.poison.isEmpty && !s.frm.frames.any (fun kv => decide (kv.2.st = .retired)) then false
  else if r.kind = 1 then (pageWorks s r c).any fun w => on w.lane w.page
  else if r.kind = 2 then (apLanes r c).any fun l => decide (0 < lanePages s c l) && decide (r.position % c.t ≠ 0) && on l (lanePages s c l - 1)
  else if r.kind = 3 ∧ r.handle ≠ noHandle then
    (List.range c.lanes).any fun l => (List.range (clonePages s slot)).any fun j => on l j
  else false

/-- Step 5 of R533: queued requests complete with NOT_OWNER after a flip, with CRC for poisoned frames, with LATE where the numbering of
ticks has changed or their carry has closed (R62, R75, R450, R508). -/
def boundaryQueues (s : State) : State :=
  let s1 := flipDismiss s
  let s2 := dismissWhere s1 (poisonedReq s1) stCRC
  let s3 := if s2.tpl.renumber then
      let s' := dismissWhere s2 (fun _ => true) stLATE
      { s' with tpl := { s'.tpl with deficit := [], renumber := false } }
    else s2
  carryRemoveAll s3

/-- The share tally of tick `n` is built (R205). -/
def tallyFor (s : State) (n : Nat) : State :=
  if s.tpl.tallied then s
  else
    let (l, more) := tallyBuild s n
    { s with tpl := { s.tpl with tally := l, tallyOver := more, tallied := true } }

/-- The actions of a boundary in order (R533), at cc 0 of the tick that begins; `errs` are the errors that the pass meets. -/
def boundaryActs (s : State) (errs : List PlanErr) : State :=
  let s0 := tallyFor s s.time.tick
  let s1 := boundaryStart s0
  let s2 := tilesDisabled (lbTurn (tilesTurn s1))
  let s3 := snapBoundary (migMapAll (fetchesApply (cowRewriteAll (if s2.up .frm 0 then movesApply s2 else s2))))
  let s4 := resetsEnd (commitApply s3)
  let s5 := boundaryQueues s4
  let s6 := unpark (starvedClearAll s5)
  admissionPass (planReset s6) errs

/-- The tick that follows: its number, and the new length where one takes effect at this whole second (R59, R61). -/
def nextTick (t : Time) : Time × Bool :=
  let n := t.tick + 1
  let up := t.up + (8 * t.len5 - t.cc)
  match t.lenNext with
  | some v =>
    if n * t.len5 % 200000000 = 0 ∧ v ≠ 0 then
      ({ t with tick := n * t.len5 / v % 2 ^ 48, cc := 0, up := up, len5 := v, lenNext := none }, true)
    else ({ t with tick := n % 2 ^ 48, cc := 0, up := up }, false)
  | none => ({ t with tick := n % 2 ^ 48, cc := 0, up := up }, false)

/-- The tick closes and the next one opens; the seal point always comes first (R59, R68). -/
def tickTurn (s : State) (errs : List PlanErr) : State :=
  let s1 := (sealPoint s).ccTo s.lcc
  let (t, new) := nextTick s1.time
  let s2 := tallyFor s1 t.tick
  boundaryActs { s2 with time := t, tpl := { s2.tpl with renumber := s2.tpl.renumber || new } } errs

/-- TICK_BOUNDARY (R533): nothing before the tick counter runs (R528). -/
def execTickBoundary (errs : List PlanErr) (s : State) : Host.Outcome State Fault Refusal :=
  .next (if s.time.running then tickTurn s errs else s)

/-- TICK_COUNTER_START: the TPL is enabled for the first time; the counter starts at the next whole second of node time, which opens tick
⌊t / L⌋ (R528). -/
def execTickCounterStart (s : State) : Host.Outcome State Fault Refusal :=
  if s.time.running ∨ !s.en .tpl 0 then .next s
  else
    let sec := 8000000000
    let t := s.nodeTime
    let next := (t / sec + 1) * sec
    let s1 := s.ccPass (ceilDiv (next - t) 5)
    .next (boundaryActs { s1 with time := { s1.time with running := true, tick := next / (5 * s.lcc) % 2 ^ 48, cc := 0 } } [])

/-- TICK_LEN_APPLY: the boundary at a whole second at which an accepted length takes effect (R61, R62). -/
def execTickLenApply (s : State) : Host.Outcome State Fault Refusal :=
  .next (if s.time.running && (nextTick s.time).2 then tickTurn s [] else s)

/-- SHARE_TALLY_BUILD: between the intake cutoff and the boundary the planner builds the tally of the next tick (R205). -/
def execShareTallyBuild (s : State) : Host.Outcome State Fault Refusal :=
  .next (if s.time.running then let s1 := s.ccTo (s.lcc - 4096); tallyFor s1 (nextTick s1.time).1.tick else s)

/-- CARRY_REMOVAL: a queued request whose carry has closed (R75); TICK_BOUNDARY removes every such request. -/
def execCarryRemoval (slot : Nat) (s : State) : Host.Outcome State Fault Refusal :=
  .next (if s.time.running && (queuedReqs s).contains slot then carryRemove s slot else s)

/-! ### Service work that ends (R112, R122, R410, R526) -/

/-- A frame's service work meets an uncorrectable error: it is recorded, and the work is still to be done (assumption 73). -/
def serviceBad (s : State) (f : Nat) : State :=
  fault (memUncorr s (s.frAddr f) 0) .frm 0 0x21 none f (s.frAddr f % 2 ^ 32)

/-- COW_COPY_DONE (R122): nothing is copied while FRM is disabled (R30). -/
def execCowCopyDone (slot lane : Nat) (bad : Bool) (s : State) : Host.Outcome State Fault Refusal :=
  if !s.en .frm 0 then .next s
  else if bad then
    match s.ctx.cows.find? fun w => w.slot == slot && w.lane == lane && !w.copied with
    | none => .next s
    | some w => .next (serviceBad s w.src)
  else .next (cowCopy s slot lane)

/-- SCRUB_DONE (R112); `bad`: the FRM cannot read the descriptor of the frame, in use or in SCRUB, so that it is RETIRED (R506). -/
def execScrubDone (frame : Nat) (bad : Bool) (s : State) : Host.Outcome State Fault Refusal :=
  let d := s.frame frame
  if !s.en .frm 0 ∨ d.st = .free ∨ d.st = .retired ∨ (d.st ≠ .scrub ∧ !bad) then .next s
  else if bad then .next ((fault (s.count Reg.BST_INT_UNCORR) .frm 0 0x20 none frame 0).setFrame frame { st := .retired, owner := d.owner })
  else .next (scrubEnd s frame)

/-- MIGRATE_COPY_DONE (R410); `bad`: a staging frame cannot be read, so that the request fails with CRC (R506). -/
def execMigrateCopyDone (slot : Nat) (bad : Bool) (s : State) : Host.Outcome State Fault Refusal :=
  if !s.en .frm 0 then .next s
  else if bad then
    let r := s.reqAt slot
    match s.fab.imports.find? fun i => i.req == slot && !i.copied with
    | none => .next s
    | some _ =>
      .next (failAdmitted (fault (uncorr s r.payload) .itp 0 0x60 none (cwIdx r.conn) (r.payload % 2 ^ 32)) slot)
  else .next (migCopy s slot)

/-- Every frame whose location lies in stack n is RETIRED and leaves the pool (R526). -/
def stackRetire (s : State) (n : Nat) : State :=
  let lo := 65536 + 2097152 * n
  let s1 := (List.range 2097152).foldl (fun s i => s.setFrame (frameAt s (lo + i)) { st := .retired, owner := 64 }) s
  { s1 with frm := { s1.frm with poolFen := Runs.without s1.frm.poolFen lo (lo + 2097152) } }

/-- FEN_TRAINING_DONE: a stack that was enabled has trained, or has failed and stays disabled (R526). -/
def execFenTrainingDone (stack : Nat) (ok : Bool) (s : State) : Host.Outcome State Fault Refusal :=
  let n := stack % 8
  if !s.training.contains n then .next s
  else
    let s1 := { s with training := s.training.filter (· != n) }
    if ok then .next s1
    else .next ((stackRetire (s1.setFld (Reg.BLK_CTL .fen n) 0 0 0) n).setFld Reg.SYS_BOOT 15 8 stCRC)

end Sys2Proof.Machine
end

