-- ==== Sys2Proof/Machine/Mgmt.lean ====
section
/-!
DEFINITION. The management protocol (R42, R46 to R51), its SPDM sessions (R474 to R476) and Weaholt's vendor commands (R477, R478).
-/

namespace Sys2Proof

/-! ### The header of a request (R46): fields in network byte order -/

def MgtHead.version (h : MgtHead) : Nat := Machine.beAt h.hdr 0 1
def MgtHead.opcode (h : MgtHead) : Nat := Machine.beAt h.hdr 1 1
def MgtHead.length (h : MgtHead) : Nat := Machine.beAt h.hdr 2 2
def MgtHead.session (h : MgtHead) : Nat := Machine.beAt h.hdr 4 4
def MgtHead.seq (h : MgtHead) : Nat := Machine.beAt h.hdr 8 4

end Sys2Proof

namespace Sys2Proof.Machine

/-- The opcode of the response: the request's with bit 7 set (R46, R49). -/
def respOp (h : MgtHead) : Nat := h.opcode % 128 + 128

/-! ### The bytes of a response (R46, R49, R474, R475) -/

/-- The SPDM message of a response, as its kind and its contents; DSP0274 spells them out. -/
def Spdm.bytes (m : Spdm) : List Nat :=
  match m with
  | .version => Config.spdmBytes 0 []
  | .capabilities => Config.spdmBytes 1 []
  | .algorithms => Config.spdmBytes 2 []
  | .digests => Config.spdmBytes 3 []
  | .certificate => Config.spdmBytes 4 []
  | .challengeAuth => Config.spdmBytes 5 []
  | .measurements i v => Config.spdmBytes 6 (i :: v)
  | .keyExchangeRsp r => Config.spdmBytes 7 [r]
  | .finishRsp => Config.spdmBytes 8 []
  | .endSessionAck => Config.spdmBytes 9 []
  | .chunkSendAck => Config.spdmBytes 10 []
  | .chunkResponse => Config.spdmBytes 11 []
  | .vendor b => Config.spdmBytes 12 b
  | .unsupportedRequest => Config.spdmBytes 13 []
  | .sessionLimitExceeded => Config.spdmBytes 14 []
  | .error => Config.spdmBytes 15 []

/-- The body of a response (R49): status, done in network order, and the words read as little-endian images; or an SPDM message. -/
def Resp.body (r : Resp) : List Nat :=
  match r.spdm with
  | some m => m.bytes
  | none => [r.status, 0] ++ toBE 2 r.done ++ r.values.flatMap (toLE 4)

/-- The 16 header bytes of a response, in network order (R46, R49). -/
def Resp.header (r : Resp) : List Nat := [1, r.op] ++ toBE 2 r.body.length ++ toBE 4 r.session ++ toBE 4 r.seq ++ [0, 0, 0, 0]

/-- Key and nonce of a response: 32 zero bytes on the open session (R474), else the session's response key and its IV with the last four bytes
XORed with seq (R475). -/
def respKey (s : State) (r : Resp) : List Nat × List Nat :=
  if r.session = 0 then (List.replicate 32 0, (Config.openNonce r.seq).take 12)
  else
    let secret := ((s.mgt.sessions.find? (·.id == r.session)).map (·.secret)).getD []
    let k := (Config.spdmKeys secret).map (· % 256)
    let iv := (k.drop 76).take 12
    ((k.drop 32).take 32, iv.take 8 ++ xorBytes (iv.drop 8) (toBE 4 r.seq))

/-- The packet of a response after the UDP header: header, ciphertext and tag (R46). -/
def Resp.packet (s : State) (r : Resp) : List Nat :=
  let (key, iv) := respKey s r
  r.header ++ gcmSeal key iv r.header r.body

/-- A response goes out. -/
def mgtSend (s : State) (r : Resp) : State := { s with mgt := { s.mgt with sent := some r, wire := r.packet s } }

/-! ### Requests, repeats and drops (R47, R474, R475) -/

/-- A management port takes frames: enabled, its link up, the node past boot ROM (R30, R491), and no burst under way that its entries would
interrupt (R50). -/
def mgtOn (s : State) (port : Nat) : Bool :=
  s.up .mgt (port % 2) && s.bit (Reg.MGT_STAT (port % 2)) 0 && !s.lcs.rom && s.mgt.burst.isNone

def mgtDrop (s : State) (h : MgtHead) : State := s.count (Reg.MGT_RX_DROP (h.port % 2))

/-- What becomes of a management request: dropped, answered with the stored response, or run at a level (none: the open session; 0 owner; 1 + p
supervisor of p). -/
inductive MgtTake where
  | drop (s : State)
  | run (s : State) (level : Option Nat)

/-- The source is moved to the front of the open session's list; a 65th one drops the one least recently heard (R474). -/
def openHeard (s : State) (x : OpenSrc) : State :=
  { s with mgt := { s.mgt with opens := (x :: s.mgt.opens.filter (·.src != x.src)).take 64 } }

def setSess (s : State) (x : Sess) : State :=
  { s with mgt := { s.mgt with sessions := s.mgt.sessions.map fun y => if y.id = x.id then x else y } }

/-- A response is sent again (R47). -/
def resend (s : State) (r : Option Resp) : State :=
  match r with
  | none => s
  | some r => mgtSend s r

/-- Version, session, tag and seq of a request (R46, R47, R474). -/
def mgtTake (s : State) (h : MgtHead) : MgtTake :=
  if !mgtOn s h.port then .drop s
  else if h.version ≠ 1 ∨ !h.tagOk then .drop (mgtDrop s h)
  else if h.session = 0 then
    let x := (s.mgt.opens.find? (·.src == h.src)).getD ⟨h.src, 0, none⟩
    if x.seq ≤ h.seq then .run (openHeard s ⟨h.src, h.seq + 1, none⟩) none
    else if x.seq = h.seq + 1 then .drop (resend (openHeard s x) x.resp)
    else .drop (mgtDrop (openHeard s x) h)
  else match s.mgt.sessions.find? fun x => x.id == h.session && x.level.isSome with
    | none => .drop (mgtDrop s h)
    | some x =>
      let s1 := setSess s { x with heard := s.time.up }
      if x.seq ≤ h.seq then .run (setSess s { x with heard := s.time.up, seq := h.seq + 1, resp := none }) x.level
      else if x.seq = h.seq + 1 then .drop (resend s1 x.resp)
      else .drop (mgtDrop s1 h)

/-- A response is stored and sent (R47, R49). -/
def mgtReply (s : State) (h : MgtHead) (r : Resp) : State :=
  let s1 := if h.session = 0 then
      { s with mgt := { s.mgt with opens := s.mgt.opens.map fun (x : OpenSrc) => if x.src = h.src then { x with resp := some r } else x } }
    else { s with mgt := { s.mgt with sessions := s.mgt.sessions.map fun (x : Sess) => if x.id = h.session then { x with resp := some r } else x } }
  mgtSend s1 r

/-! ### Register and burst frames (R42, R48 to R51, R473) -/

/-- The registers that a supervisor of `p` may read (R473). -/
def supReads (p a : Nat) : Bool :=
  [Reg.PRT_CTXR p, Reg.PRT_CTXN p, Reg.PRT_REQR p, Reg.PRT_REQN p, Reg.PRT_CONN p, Reg.PRT_REGN p, Reg.PRT_JOBQ p, Reg.TPL_PQ p,
    Reg.TPL_PCAP p, Reg.TPL_PDEF p, Reg.TPL_PQD p, Reg.RDL_RBASE p, Reg.RDL_RSIZE p, Reg.RDL_RUSED p, Reg.RDL_RQUOTA p].contains a
    || decide (Reg.PRT_RING_BASE_LO p ≤ a) && decide (a < Reg.PRT_RING_BASE_LO p + 0x20)
    || decide (Reg.FRM_PQUOTA p ≤ a) && decide (a < Reg.FRM_PQUOTA p + 0x20)

/-- A level may read or write a register (R42, R473): a supervisor writes only RING_RD of its own ring. -/
def mgtMay (level a : Nat) (write : Bool) : Bool :=
  if level = 0 then true
  else if write then a == Reg.PRT_RING_BASE_LO (level - 1) + 0x10
  else supReads (level - 1) a

/-- One entry of a REG_READ: state, value, status. -/
def mgtRead (s : State) (level a : Nat) : State × Nat × Nat :=
  if a % 4 ≠ 0 then (accessFault s mgtRequester a, 0, stMALFORMED)
  else if !mgtMay level a false then (s, 0, stAUTH)
  else match viewOf a with
  | some (v, off) =>
    let (s1, x) := viewRead s v off false
    (s1, x, stOK)
  | none =>
    if (dpwSet a).isSome || (regRow a).isNone then (s, 0, stMALFORMED)
    else
      let (s1, x) := readReg s mgtRequester a
      (s1, x, stOK)

/-- One entry of a REG_WRITE: state and status. -/
def mgtWrite (s : State) (level a v : Nat) : State × Nat :=
  if a % 4 ≠ 0 then (accessFault s mgtRequester a, stMALFORMED)
  else if !mgtMay level a true then (s, stAUTH)
  else match viewOf a with
  | some (w, off) => (viewWrite s w off v, stOK)
  | none =>
    let st := writeStatus s a
    (if st = stMALFORMED then s else writeReg s a v, st)

/-- The words read by a frame until the first that fails: state, status, values. -/
def mgtReads (s : State) (level : Nat) : List Nat → State × Nat × List Nat
  | [] => (s, stOK, [])
  | a :: r =>
    let (s1, x, st) := mgtRead s level a
    if st ≠ stOK then (s1, st, [])
    else
      let (s2, st2, xs) := mgtReads s1 level r
      (s2, st2, x :: xs)

/-- The entries of a frame written until the first that fails: state, status, entries done. -/
def mgtWrites (s : State) (level n : Nat) : List (Nat × Nat) → State × Nat × Nat
  | [] => (s, stOK, n)
  | (a, v) :: r =>
    let (s1, st) := mgtWrite s level a v
    if st ≠ stOK then (s1, st, n) else mgtWrites s1 level (n + 1) r

/-- DPW_BURST.max_words: 0 and values above 1,024 act as 1,024 (R43). -/
def burstMax (s : State) : Nat :=
  let v := s.fld Reg.DPW_BURST 10 0
  if 1 ≤ v ∧ v ≤ 1024 then v else 1024

/-- A supervisor's bursts read its own ring memory only (R42). -/
def burstMay (s : State) (level a : Nat) (write : Bool) : Bool :=
  if level = 0 then true
  else
    let base := ringSet level
    let lo := s.rg64 base
    !write && decide (lo ≤ a) && decide (a + 4 ≤ lo + 32 * 2 ^ ringLog2 s level)

/-- The status that a burst's word at an address is refused with (R42, R44). -/
def burstRefused (level : Nat) (write : Bool) (s : State) (a : Nat) : Nat :=
  if !burstMay s level a write then stAUTH else if memRefused s a write then stMALFORMED else stOK

/-- A register or burst frame: refused on the open session, on a length that disagrees with its size formula, or on a count outside its
limits, before anything executes (R48, R51, R474); else its entries run in order (R50). -/
def mgtFrame (s : State) (h : MgtHead) (body : List Nat) (len : Nat) (legal : Bool) (act : State → Nat → State) : State :=
  match mgtTake s h with
  | .drop s1 => s1
  | .run s1 level =>
    let reply := fun (st : Nat) => mgtReply s1 h ⟨respOp h, h.session, h.seq, st, 0, [], none⟩
    match level with
    | none => reply stAUTH
    | some l =>
      if h.length ≠ len ∨ body.length ≠ len then reply stSIZE_MISMATCH
      else if !legal then reply stMALFORMED
      else act s1 l

/-- `n` addresses of `step` bytes apart in a body, in network order. -/
def bodyAddrs (body : List Nat) (step n : Nat) : List Nat := (List.range n).map fun i => beAt body (4 + step * i) 4

/-- `n` words of a body from offset `o` on, `step` bytes apart: little-endian images of device words (R46). -/
def bodyWords (body : List Nat) (o step n : Nat) : List Nat :=
  (List.range n).map fun i => leBytes (fun k => body.getD k 0 % 256) (o + step * i) 4

/-- REG_READ (R48 to R50). -/
def execRegRead (h : MgtHead) (body : List Nat) (s : State) : Host.Outcome State Fault Refusal :=
  let n := beAt body 0 2
  .next (mgtFrame s h body (4 + 4 * n) (decide (1 ≤ n) && decide (n ≤ 64)) fun s l =>
    let (s1, st, vs) := mgtReads s l (bodyAddrs body 4 n)
    mgtReply s1 h ⟨respOp h, h.session, h.seq, st, vs.length, vs, none⟩)

/-- REG_WRITE (R48 to R50). -/
def execRegWrite (h : MgtHead) (body : List Nat) (s : State) : Host.Outcome State Fault Refusal :=
  let n := beAt body 0 2
  .next (mgtFrame s h body (4 + 8 * n) (decide (1 ≤ n) && decide (n ≤ 64)) fun s l =>
    let (s1, st, k) := mgtWrites s l 0 ((bodyAddrs body 8 n).zip (bodyWords body 8 8 n))
    mgtReply s1 h ⟨respOp h, h.session, h.seq, st, k, [], none⟩)

/-- A burst has gone as far as it can: it is answered, or waits for the channel of its next word (R45, R49, R50). -/
def burstAfter (h : MgtHead) (level : Nat) (write : Bool) (bad : Option Nat) (o : WordsOut) : State :=
  match o.rest with
  | some (a, vs) => { o.s with mgt := { o.s.mgt with burst := some ⟨h, level, ⟨write, a, vs, o.read, o.done, bad⟩⟩ } }
  | none =>
    mgtReply { o.s with mgt := { o.s.mgt with burst := none } } h ⟨respOp h, h.session, h.seq, o.status, o.done, o.read.map (·.2), none⟩

/-- A burst's words, from its first. -/
def burstStart (h : MgtHead) (write : Bool) (bad : Option Nat) (a : Nat) (vs : List Nat) (s : State) (level : Nat) : State :=
  burstAfter h level write bad (wordsRun (burstRefused level write) 4 write bad s a [] 0 vs)

/-- BURST_READ (R48 to R51); `bad` is the index of a word with an uncorrectable error. -/
def execBurstRead (h : MgtHead) (addr count : List Nat) (bad : Option Nat) (s : State) : Host.Outcome State Fault Refusal :=
  let body := addr ++ count
  let n := beAt body 8 2
  .next (mgtFrame s h body 12 (decide (1 ≤ n) && decide (n ≤ burstMax s)) (burstStart h false bad (beAt body 0 8) (List.replicate n 0)))

/-- BURST_WRITE (R48 to R51). -/
def execBurstWrite (h : MgtHead) (addr words : List Nat) (s : State) : Host.Outcome State Fault Refusal :=
  let body := addr ++ words
  let n := beAt body 8 2
  .next (mgtFrame s h body (12 + 4 * n) (decide (1 ≤ n) && decide (n ≤ burstMax s))
    (burstStart h true none (beAt body 0 8) (bodyWords body 12 4 n)))

/-- A burst whose front word has its channel goes on (R45). -/
def burstServed (s : State) (bad : Bool) : State :=
  match s.mgt.burst with
  | none => s
  | some b => burstAfter b.head b.level b.run.write b.run.bad (wordsResume (burstRefused b.level b.run.write) 4 b.run bad s)

/-! ### SPDM (R475, R476) -/

/-- The response to an SPDM message. -/
def spdmReply (s : State) (h : MgtHead) (m : Spdm) : State :=
  mgtReply s h ⟨respOp h, h.session, h.seq, stOK, 0, [], some m⟩

/-- An SPDM request that is taken runs `act` at its level. -/
def spdmRun (s : State) (h : MgtHead) (act : State → Option Nat → State) : State :=
  match mgtTake s h with
  | .drop s1 => s1
  | .run s1 level => act s1 level

/-- An SPDM request with one answer. -/
def spdmAnswer (s : State) (h : MgtHead) (m : Spdm) : State := spdmRun s h fun s _ => spdmReply s h m

/-- GET_VERSION (R475). -/
def execGetVersion (h : MgtHead) (s : State) : Host.Outcome State Fault Refusal := .next (spdmAnswer s h .version)
/-- GET_CAPABILITIES (R475). -/
def execGetCapabilities (h : MgtHead) (s : State) : Host.Outcome State Fault Refusal := .next (spdmAnswer s h .capabilities)
/-- NEGOTIATE_ALGORITHMS (R475). -/
def execNegotiateAlgorithms (h : MgtHead) (s : State) : Host.Outcome State Fault Refusal := .next (spdmAnswer s h .algorithms)
/-- GET_DIGESTS (R475). -/
def execGetDigests (h : MgtHead) (s : State) : Host.Outcome State Fault Refusal := .next (spdmAnswer s h .digests)
/-- GET_CERTIFICATE: slot 0 holds the chain; there is no other (R493). -/
def execGetCertificate (h : MgtHead) (slot : Nat) (s : State) : Host.Outcome State Fault Refusal :=
  .next (spdmAnswer s h (if slot = 0 then .certificate else .error))
/-- CHALLENGE (R475). -/
def execChallenge (h : MgtHead) (s : State) : Host.Outcome State Fault Refusal := .next (spdmAnswer s h .challengeAuth)

/-- The measurement of an index: ROM, SCX, MCX, service, lifecycle and debug (R499). -/
def measurement (s : State) (i : Nat) : Option (List Nat) :=
  match i with
  | 1 => some (digestBytes Config.romDigest.toNat)
  | 2 => some (digestBytes (s.image (bootSlot s) 0).digest)
  | 3 => some (digestBytes (s.image (bootSlot s) 1).digest)
  | 4 => some (regBytes s Reg.MSH_SVC_DIGEST 12)
  | 5 => some (lifeBytes s)
  | _ => none

/-- GET_MEASUREMENTS (R499). -/
def execGetMeasurements (h : MgtHead) (index : Nat) (s : State) : Host.Outcome State Fault Refusal :=
  .next (spdmRun s h fun s _ => spdmReply s h (match measurement s index with
    | some v => .measurements index v
    | none => .error))

/-- A RspSessionID that no session uses and that is not 0: which one the node takes is open (assumption 74). -/
def rspPick (s : State) : Nat :=
  let used := s.mgt.sessions.map fun x => x.id % 65536
  let v := s.free 16
  (((List.range 17).map fun k => 1 + (v + k) % 65535).find? fun x => !used.contains x).getD 1

/-- KEY_EXCHANGE: `authed` says that the requester takes part in mutual authentication; the export secret is the exchange's (R475). -/
def execKeyExchange (h : MgtHead) (reqSession : Nat) (authed : Bool) (secret : List Nat) (s : State) : Host.Outcome State Fault Refusal :=
  .next (spdmRun s h fun s level =>
    if level.isSome ∨ !authed then spdmReply s h .error
    else if 16 ≤ s.mgt.sessions.length then spdmReply s h .sessionLimitExceeded
    else
      let rsp := rspPick s
      let x : Sess := ⟨reqSession % 65536 * 65536 + rsp, none, 0, none, s.time.up, secret⟩
      spdmReply { s.draw with mgt := { s.mgt with sessions := s.mgt.sessions ++ [x] } } h (.keyExchangeRsp rsp))

/-- The level that a requester's key digest gives: owner, or supervisor of the partition whose valid credential it is (R476). -/
def levelOf (s : State) (digest : Nat) : Option Nat :=
  if digest = ownerDigest s then some 0
  else ((List.range 64).find? fun p => credValid s p && s.readLE (credAddr s p) 48 == digest).map (1 + ·)

/-- FINISH of session `id`: it is complete at its level, or ends with ERROR (R476). `verified`: signature and HMAC hold; `digest`: SHA-384 of
the requester's leaf key. -/
def execFinish (h : MgtHead) (id : Nat) (verified : Bool) (digest : Nat) (s : State) : Host.Outcome State Fault Refusal :=
  .next (spdmRun s h fun s _ =>
    match s.mgt.sessions.find? fun x => x.id == id && x.level.isNone with
    | none => spdmReply s h .error
    | some x =>
      match levelOf s digest with
      | some l =>
        if verified then spdmReply (setSess s { x with level := some l, heard := s.time.up }) h .finishRsp
        else spdmReply { s with mgt := { s.mgt with sessions := s.mgt.sessions.filter (·.id != id) } } h .error
      | none => spdmReply { s with mgt := { s.mgt with sessions := s.mgt.sessions.filter (·.id != id) } } h .error)

/-- END_SESSION ends the session it is sent in (R475). -/
def execEndSession (h : MgtHead) (s : State) : Host.Outcome State Fault Refusal :=
  .next (spdmRun s h fun s level =>
    if level.isNone then spdmReply s h .error
    else
      let s1 := spdmReply s h .endSessionAck
      { s1 with mgt := { s1.mgt with sessions := s1.mgt.sessions.filter (·.id != h.session) } })

/-- CHUNK_SEND (R475). -/
def execChunkSend (h : MgtHead) (s : State) : Host.Outcome State Fault Refusal := .next (spdmAnswer s h .chunkSendAck)
/-- CHUNK_GET (R475). -/
def execChunkGet (h : MgtHead) (s : State) : Host.Outcome State Fault Refusal := .next (spdmAnswer s h .chunkResponse)
/-- A request that the node does not support (R475). -/
def execUnsupportedSpdmRequest (h : MgtHead) (s : State) : Host.Outcome State Fault Refusal := .next (spdmAnswer s h .unsupportedRequest)

/-- SESSION_TIMEOUT: 600 s have passed since a frame of the session last verified (R475). -/
def execSessionTimeout (id : Nat) (s : State) : Host.Outcome State Fault Refusal :=
  match s.mgt.sessions.find? (·.id == id) with
  | none => .next s
  | some x =>
    match reachUp s (x.heard + 960000000000) with
    | none => .next s
    | some s1 => .next { s1 with mgt := { s1.mgt with sessions := s1.mgt.sessions.filter (·.id != id) } }

/-! ### Vendor commands (R477, R478) -/

/-- A vendor command at a permitted level; at another, and on the open session, it answers AUTH (R477). -/
def vendorRun (s : State) (h : MgtHead) (may : State → Nat → Bool) (act : State → State) : State :=
  spdmRun s h fun s level =>
    match level with
    | none => spdmReply s h (.vendor [stAUTH])
    | some l => if may s l then act s else spdmReply s h (.vendor [stAUTH])

/-- GET_REPORT: the report is signed later (R477, R499). -/
def execGetReport (h : MgtHead) (nonce : List Nat) (s : State) : Host.Outcome State Fault Refusal :=
  .next (vendorRun s h (fun _ _ => true) fun s =>
    if nonce.length = 32 then reportAsk s nonce (.session h.session) else spdmReply s h .error)

/-- The ASCII bytes "hkv jmk". -/
def jmkLabel : List Nat := [0x68, 0x6B, 0x76, 0x20, 0x6A, 0x6D, 0x6B]

/-- The master key that IMPORT_JOB's wrapped field holds, where its tag verifies (R478). -/
def jobUnwrap (secret : List Nat) (part job : Nat) (iv wrapped : List Nat) : Option (List Nat) :=
  let who := part % 256 :: toBE 4 job
  gcmOpen (hkdfExpand secret (jmkLabel ++ who) 32) iv who (wrapped.take 32) ((wrapped.drop 32).take 16)

/-- IMPORT_JOB's first failing check (R478). -/
def importStatus (s : State) (part job : Nat) (key : Option (List Nat)) : Nat :=
  let quota := if s.en .prt 0 then s.fld (Reg.PRT_JOBQ part) 10 0 else 0
  if key.isNone then stAUTH
  else if (jobOf s part job).isSome then stMALFORMED
  else if quota ≤ jobsHeld s part ∨ jobsFree s = 0 then stQUOTA
  else if resetting s part then stPART_RESET
  else stOK

/-- IMPORT_JOB: the key goes into the lowest free job slot (R478). -/
def execImportJob (h : MgtHead) (part job : Nat) (iv wrapped : List Nat) (s : State) : Host.Outcome State Fault Refusal :=
  .next (vendorRun s h (fun _ l => decide (part < 64) && (l == 0 || l == 1 + part)) fun s =>
    let secret := ((s.mgt.sessions.find? (·.id == h.session)).map (·.secret)).getD []
    let key := jobUnwrap secret part job iv wrapped
    let st := importStatus s part job key
    match ((List.range 1024).find? fun i => !(SMap.get s.itp.jobs {} i).valid), key with
    | some i, some k =>
      if st = stOK then
        let j : JobSlot := ⟨true, part, job % 2 ^ 32, k⟩
        spdmReply { s with itp := { s.itp with jobs := SMap.set s.itp.jobs {} i j } } h (.vendor ([stOK, 0] ++ toLE 2 i))
      else spdmReply (event s .key 0 3 { status := st, part := some part }) h (.vendor [st, 0, 0, 0])
    | _, _ => spdmReply (event s .key 0 3 { status := st, part := some part }) h (.vendor [st, 0, 0, 0]))

/-- A connection that is OPEN or ERROR names the job (R478). -/
def jobNamed (s : State) (j : JobSlot) : Bool :=
  s.itp.conns.any fun kv => kv.2.st != .free && kv.2.part == j.part && kv.2.job == j.id

/-- DROP_JOB zeroes a job slot that no connection names (R478). -/
def execDropJob (h : MgtHead) (slot : Nat) (s : State) : Host.Outcome State Fault Refusal :=
  .next (vendorRun s h (fun s l =>
      let j := SMap.get s.itp.jobs {} slot
      l == 0 || (j.valid && l == 1 + j.part)) fun s =>
    let j := SMap.get s.itp.jobs {} slot
    if !j.valid || jobNamed s j then spdmReply s h (.vendor [stMALFORMED])
    else spdmReply { s with itp := { s.itp with jobs := SMap.set s.itp.jobs {} slot {} } } h (.vendor [stOK]))

/-- GET_CHALLENGE (R477). -/
def execGetChallenge (h : MgtHead) (s : State) : Host.Outcome State Fault Refusal :=
  .next (vendorRun s h (fun _ _ => true) fun s => spdmReply s h (.vendor (regBytes s Reg.ATT_CHAL 8)))

/-- TOKEN: submitted for acceptance; its status follows (R477, R496). -/
def execToken (h : MgtHead) (token : List Nat) (s : State) : Host.Outcome State Fault Refusal :=
  .next (vendorRun s h (fun _ _ => true) fun s => tokenSubmit s token (.session h.session))

end Sys2Proof.Machine
end

