-- ==== Sys2Proof/Machine/Snius.lean ====
section
/-!
DEFINITION. The Snius monitor on the UART (R535 to R540, R543). One command line is one command of the model; its reply is the status it
ends with and the numbers it prints. Snius makes its control-space accesses as MCX core 0 (DESIGN CHOICE, assumption 75).
-/

namespace Sys2Proof.Machine

/-! ### When Snius runs, and its replies (R524, R530, R536, R538, R539) -/

/-- MCX firmware runs and Snius is available: step 4 is complete, or failed, in a node that ROM does not hold (R524, R536, R538). -/
def sniusRuns (s : State) : Bool :=
  let boot := s.rg Reg.SYS_BOOT
  !s.lcs.rom && decide (lifeState s ≠ 4)
    && (decide (4 ≤ bitsOf boot 3 0) || (decide (bitsOf boot 3 0 = 3) && decide (bitsOf boot 15 8 ≠ 0)))

/-- The UART takes a command line: Snius runs and is enabled, no long break stops reception (R30, R539, R543), and neither a command nor a
management burst waits for a fen channel (R50, R535; assumption 102). -/
def sniusHears (s : State) : Bool :=
  sniusRuns s && s.up .uar 0 && s.bit Reg.UAR_CFG 8 && !s.bit Reg.UAR_STAT 0 && s.uart.job.isNone && s.mgt.burst.isNone

/-- The reply of a command: its status and what it printed. -/
def State.reply (s : State) (status : Nat) (out : List Nat) : State := { s with uart := { status := status, out := out } }

/-- A command line reaches Snius: ignored when it takes no input; a line with a framing or parity error is answered with CRC and counted,
one that is too long with MALFORMED, and any other runs (R539). -/
def sniusLine (line : SerialLine) (run : State → State) (s : State) : State :=
  if !sniusHears s then s
  else match line with
    | .garbled => (s.count Reg.UAR_ERR).reply stCRC []
    | .tooLong => s.reply stMALFORMED []
    | .clean => run s

/-- The Snius-write scope is open (R538). -/
def sniusOpen (s : State) : Bool := bitOf (openScopes s) 0

/-- A write command has executed: counted and posted (R538). -/
def sniusWrote (s : State) : State := event0 (s.count Reg.UAR_WRITES) .uar 0 3

def inControl (a : Nat) : Bool := decide (a < 2 ^ 26)

/-! ### Words of the control space (R20, R42, R537, R540) -/

/-- A control-space word is read as core 0 reads it: state, value, status. -/
def sniusGet (s : State) (a : Nat) (bad : Bool) : State × Nat × Nat :=
  if !inControl a then (s, 0, stMALFORMED)
  else if a % 4 ≠ 0 then (accessFault s 0 a, 0, stMALFORMED)
  else
    let s1 := coreLoad s 0 a bad
    (s1, SMap.get s1.ret 0 0, stOK)

/-- A control-space word is written as core 0 writes it: state and status. -/
def sniusPut (s : State) (a v : Nat) : State × Nat :=
  if !inControl a then (s, stMALFORMED)
  else if a % 4 ≠ 0 then (accessFault s 0 a, stMALFORMED)
  else (coreStore s 0 a v, stOK)

/-- Words read from `a` on, up to the first that fails; `bad` is the index of a word with an uncorrectable error. -/
def sniusGets (s : State) (a : Nat) (bad : Option Nat) (i : Nat) : Nat → State × Nat × List (Nat × Nat)
  | 0 => (s, stOK, [])
  | k + 1 =>
    let (s1, x, st) := sniusGet s a (bad == some i)
    if st ≠ stOK then (s1, st, [])
    else
      let (s2, st2, xs) := sniusGets s1 (a + 4) bad (i + 1) k
      (s2, st2, (a, x) :: xs)

/-- Words written from `a` on, up to the first that fails; the words written before it stand (R539). -/
def sniusPuts (s : State) (a : Nat) : List Nat → State × Nat
  | [] => (s, stOK)
  | v :: vs =>
    let (s1, st) := sniusPut s a v
    if st ≠ stOK then (s1, st) else sniusPuts s1 (a + 4) vs

/-! ### Words of memory, through the data port (R44, R45, R537, R539) -/

/-- The numbers that a command prints for the words it has read. -/
def Shows.print (p : Shows) (xs : List (Nat × Nat)) : List Nat :=
  match p with
  | .words => xs.flatMap fun x => [x.1, x.2]
  | .bytes => xs.flatMap fun x => toLE 4 x.2

/-- The status that a word of memory is refused with (R44). -/
def sniusRefused (write : Bool) (s : State) (a : Nat) : Nat := if memRefused s a write then stMALFORMED else stOK

/-- A command has gone as far as it can: it is answered, or waits for the channel of its next word (R45, R538, R539). -/
def sniusAfter (write : Bool) (p : Shows) (bad : Option Nat) (o : WordsOut) : State :=
  match o.rest with
  | some (a, vs) => { o.s with uart := { o.s.uart with job := some (⟨write, a, vs, o.read, o.done, bad⟩, p) } }
  | none => ({ (if write then sniusWrote o.s else o.s) with uart := { job := none } }).reply o.status (p.print o.read)

/-- The words of a command whose front word has its channel go on. -/
def sniusServed (s : State) (bad : Bool) : State :=
  match s.uart.job with
  | none => s
  | some (r, p) => sniusAfter r.write p r.bad (wordsResume (sniusRefused r.write) 5 r bad s)

/-- DPW_HELD_COMPLETE: the channel has served a word access, of core `core`, of a management burst (4) or of Snius (5), which completes
(R45). -/
def execDpwHeldComplete (core : Nat) (bad : Bool) (s : State) : Host.Outcome State Fault Refusal :=
  let c := core % 6
  match s.dpw.find? (·.core == c) with
  | none => .next s
  | some h =>
    if !h.asked || fenPending s (addrStack h.addr) (addrPc h.addr) (128 + c) then .next s
    else
      let s1 := { s with dpw := s.dpw.filter (·.core != c) }
      .next (if c = 4 then burstServed s1 bad else if c = 5 then sniusServed s1 bad else dpwServed s1 h bad)

/-! ### Ranges -/

/-- A byte range as dump, fill and load take it: 4 to 65,536 bytes, a multiple of 4 (R537). -/
def sniusRange (bytes : Nat) : Bool := decide (4 ≤ bytes) && decide (bytes ≤ 65536) && decide (bytes % 4 = 0)

/-- A read of words: refused on access in memory unless the scope is open (R538). -/
def sniusReads (a n : Nat) (bad : Option Nat) (p : Shows) (s : State) : State :=
  if inControl a then
    let (s1, st, xs) := sniusGets s a bad 0 n
    s1.reply st (p.print xs)
  else if !sniusOpen s then s.reply stAUTH []
  else sniusAfter false p bad (wordsRun (sniusRefused false) 5 false bad s a [] 0 (List.replicate n 0))

/-- A write command's words, with the count and the event of its execution (R538, R539). -/
def sniusWrites (a : Nat) (vs : List Nat) (s : State) : State :=
  if inControl a then
    let (s1, st) := sniusPuts s a vs
    (sniusWrote s1).reply st []
  else sniusAfter true .words none (wordsRun (sniusRefused true) 5 true none s a [] 0 vs)

/-- 4-byte words of a byte list, little-endian. -/
def wordsOf (bs : List Nat) (n : Nat) : List Nat := (List.range n).map fun i => leBytes (fun o => bs.getD o 0 % 256) (4 * i) 4

/-! ### The commands (R537) -/

/-- PEEK: 1 to 16 words, printed as address and value. -/
def execPeek (line : SerialLine) (addr n : Nat) (bad : Option Nat) (s : State) : Host.Outcome State Fault Refusal :=
  .next (sniusLine line (fun s =>
    if n = 0 ∨ 16 < n then s.reply stMALFORMED []
    else sniusReads addr n bad .words s) s)

/-- POKE: one word. -/
def execPoke (line : SerialLine) (addr value : Nat) (s : State) : Host.Outcome State Fault Refusal :=
  .next (sniusLine line (fun s => if !sniusOpen s then s.reply stAUTH [] else sniusWrites addr [value % 2 ^ 32] s) s)

/-- DUMP: the bytes of a range in address order. -/
def execDump (line : SerialLine) (addr bytes : Nat) (bad : Option Nat) (s : State) : Host.Outcome State Fault Refusal :=
  .next (sniusLine line (fun s =>
    if !sniusRange bytes then s.reply stMALFORMED []
    else sniusReads addr (bytes / 4) bad .bytes s) s)

/-- FILL: one value to each word of a range. -/
def execFill (line : SerialLine) (addr bytes value : Nat) (s : State) : Host.Outcome State Fault Refusal :=
  .next (sniusLine line (fun s =>
    if !sniusRange bytes then s.reply stMALFORMED []
    else if !sniusOpen s then s.reply stAUTH []
    else sniusWrites addr (List.replicate (bytes / 4) (value % 2 ^ 32)) s) s)

/-- LOAD: `data` is what the lines carried; the range is written only if `crc` is its CRC-32C. -/
def execLoad (line : SerialLine) (addr bytes : Nat) (data : List Nat) (crc : Nat) (s : State) : Host.Outcome State Fault Refusal :=
  .next (sniusLine line (fun s =>
    if !sniusRange bytes then s.reply stMALFORMED []
    else if !sniusOpen s then s.reply stAUTH []
    else if data.length ≠ bytes then s.reply stMALFORMED []
    else if crc32c (data.map (· % 256)) ≠ crc % 2 ^ 32 then s.reply stCRC []
    else sniusWrites addr (wordsOf data (bytes / 4)) s) s)

/-- EVENTS: the most recent records of the device ring, oldest first; RING_RD stays. -/
def execEvents (line : SerialLine) (n : Nat) (s : State) : Host.Outcome State Fault Refusal :=
  .next (sniusLine line (fun s =>
    let size := 2 ^ ringLog2 s 0
    let wr := s.rg Reg.SYS_RING_WR
    let k := min n (min wr size)
    let base := s.rg64 Reg.SYS_RING_BASE_LO
    s.reply stOK ((List.range k).flatMap fun i => s.readBytes (base + 32 * ((wr - k + i) % size)) 32)) s)

/-- TILES: tile, mode, state, status and PC of the 128 tiles (R354). -/
def execTiles (line : SerialLine) (s : State) : Host.Outcome State Fault Refusal :=
  .next (sniusLine line (fun s =>
    s.reply stOK ((List.range 128).flatMap fun n =>
      let st := readValue s (Reg.TIL_STATE n)
      [n, readValue s (Reg.TIL_MODE n) % 4, bitsOf st 2 0, bitsOf st 15 8, readValue s (Reg.TIL_PC n)])) s)

/-- LIFECYCLE: state, open scopes, boot slot, fallback and the three anti-rollback counters. -/
def execLifecycle (line : SerialLine) (s : State) : Host.Outcome State Fault Refusal :=
  .next (sniusLine line (fun s =>
    s.reply stOK ([lifeState s, openScopes s, bootSlot s, s.fld Reg.LCS_BOOT 1 1] ++ (List.range 3).map (arbOf s))) s)

/-- ATTEST: a report with the 32-byte nonce is asked for; REPORT_SIGNED prints it (R498). -/
def execAttest (line : SerialLine) (nonce : List Nat) (s : State) : Host.Outcome State Fault Refusal :=
  .next (sniusLine line (fun s => if nonce.length ≠ 32 then s.reply stMALFORMED [] else reportAsk s nonce .serial) s)

/-! ### The line itself (R539) -/

/-- UART_BREAK: a break of `us` microseconds. One of more than 1 s sets rx_break and posts its event; a
shorter one at most clears the line buffer, which is empty between the commands of the model. -/
def execUartBreak (us : Nat) (s : State) : Host.Outcome State Fault Refusal :=
  .next (if us ≤ 1000000 || !s.up .uar 0 || s.bit Reg.UAR_STAT 0 then s
    else event0 (s.setFld Reg.UAR_STAT 0 0 1) .uar 0 4)

/-- UART_RX_RESUME: the line has been idle for one character time, and reception starts again. -/
def execUartRxResume (s : State) : Host.Outcome State Fault Refusal := .next (s.setFld Reg.UAR_STAT 0 0 0)

end Sys2Proof.Machine
end

