-- ==== Sys2Proof/Machine/Dispatch.lean ====
section
/-!
DEFINITION. The meaning of every command, one arm each.
-/

namespace Sys2Proof.Machine

/-- The effect of a command on everything but the queue of waiting commands. -/
def exec (i : Instr) (s : State) : Host.Outcome State Fault Refusal :=
  match i with
  | .registerWrite core addr value width => Sys2Proof.Machine.execRegisterWrite core addr value width s
  | .wideRegisterAccess core addr write value => Sys2Proof.Machine.execWideRegisterAccess core addr write value s
  | .counterReadClear core addr => Sys2Proof.Machine.execCounterReadClear core addr s
  | .viewAccess core view off write value bad => Sys2Proof.Machine.execViewAccess core view off write value bad s
  | .blkLockWrite page value => Sys2Proof.Machine.execBlkLockWrite page value s
  | .blkEvtClear page bits => Sys2Proof.Machine.execBlkEvtClear page bits s
  | .blkFltClear page value => Sys2Proof.Machine.execBlkFltClear page value s
  | .dpwDataAccess core write value bad => Sys2Proof.Machine.execDpwDataAccess core write value bad s
  | .dpwHeldComplete core bad => Sys2Proof.Machine.execDpwHeldComplete core bad s
  | .regRead h body => Sys2Proof.Machine.execRegRead h body s
  | .regWrite h body => Sys2Proof.Machine.execRegWrite h body s
  | .burstRead h addr count bad => Sys2Proof.Machine.execBurstRead h addr count bad s
  | .burstWrite h addr words => Sys2Proof.Machine.execBurstWrite h addr words s
  | .tickBoundary errs => Sys2Proof.Machine.execTickBoundary errs s
  | .tickCounterStart => Sys2Proof.Machine.execTickCounterStart s
  | .tickLenApply => Sys2Proof.Machine.execTickLenApply s
  | .tplTickLenWrite value => Sys2Proof.Machine.execTplTickLenWrite value s
  | .shareTallyBuild => Sys2Proof.Machine.execShareTallyBuild s
  | .planWindowEnd => Sys2Proof.Machine.execPlanWindowEnd s
  | .bookedItemStart k => Sys2Proof.Machine.execBookedItemStart k s
  | .bookedItemComplete k bad => Sys2Proof.Machine.execBookedItemComplete k bad s
  | .sealPoint => Sys2Proof.Machine.execSealPoint s
  | .carryRemoval slot => Sys2Proof.Machine.execCarryRemoval slot s
  | .ctxForceClearStarved slot gen => Sys2Proof.Machine.execCtxForceClearStarved slot gen s
  | .ctxForceLost slot gen => Sys2Proof.Machine.execCtxForceLost slot gen s
  | .ctxForceRelease slot gen => Sys2Proof.Machine.execCtxForceRelease slot gen s
  | .cowCopyDone slot lane bad => Sys2Proof.Machine.execCowCopyDone slot lane bad s
  | .scrubDone frame bad => Sys2Proof.Machine.execScrubDone frame bad s
  | .labInvalidateSlot slot => Sys2Proof.Machine.execLabInvalidateSlot slot s
  | .labInvalidateAll => Sys2Proof.Machine.execLabInvalidateAll s
  | .frmGrantToPartition part tier count => Sys2Proof.Machine.execFrmGrantToPartition part tier count s
  | .frmGrantToPool part tier count => Sys2Proof.Machine.execFrmGrantToPool part tier count s
  | .frmDevresTake frame => Sys2Proof.Machine.execFrmDevresTake frame s
  | .frmDevresRelease frame => Sys2Proof.Machine.execFrmDevresRelease frame s
  | .move => Sys2Proof.Machine.execMove s
  | .moveLane => Sys2Proof.Machine.execMoveLane s
  | .setHint => Sys2Proof.Machine.execSetHint s
  | .migrationCopyDone frame bad => Sys2Proof.Machine.execMigrationCopyDone frame bad s
  | .offPackageConfirm frame => Sys2Proof.Machine.execOffPackageConfirm frame s
  | .fetchReadDone frame bad => Sys2Proof.Machine.execFetchReadDone frame bad s
  | .pciLinkUp port link speed width => Sys2Proof.Machine.execPciLinkUp port link speed width s
  | .pciLinkDown port link present => Sys2Proof.Machine.execPciLinkDown port link present s
  | .driveCommandComplete k ok data => Sys2Proof.Machine.execDriveCommandComplete k ok data s
  | .segOpen stack pc code d32 kvhLog t32 store => Sys2Proof.Machine.execSegOpen stack pc code d32 kvhLog t32 store s
  | .sigma stack sigma => Sys2Proof.Machine.execSigma stack sigma s
  | .limit stack limit => Sys2Proof.Machine.execLimit stack limit s
  | .window stack window prefix_ => Sys2Proof.Machine.execWindow stack window prefix_ s
  | .row stack slot head pos => Sys2Proof.Machine.execRow stack slot head pos s
  | .segmentPage stack rowSet countM1 base bound => Sys2Proof.Machine.execSegmentPage stack rowSet countM1 base bound s
  | .segClose stack => Sys2Proof.Machine.execSegClose stack s
  | .wait stack sc => Sys2Proof.Machine.execWait stack sc s
  | .mark stack tag => Sys2Proof.Machine.execMark stack tag s
  | .dest stack tile slot => Sys2Proof.Machine.execDest stack tile slot s
  | .segmentComplete stack pc met => Sys2Proof.Machine.execSegmentComplete stack pc met s
  | .channelModeChange stack pc => Sys2Proof.Machine.execChannelModeChange stack pc s
  | .crownQueueServe stack pc bad addr => Sys2Proof.Machine.execCrownQueueServe stack pc bad addr s
  | .refreshSlot stack group => Sys2Proof.Machine.execRefreshSlot stack group s
  | .tempFlagChange stack pc hot => Sys2Proof.Machine.execTempFlagChange stack pc hot s
  | .bookedIntervalGrant ch fix => Sys2Proof.Machine.execBookedIntervalGrant ch fix s
  | .arbiterGrant ch fix => Sys2Proof.Machine.execArbiterGrant ch fix s
  | .fenWatchdogBite stack pc => Sys2Proof.Machine.execFenWatchdogBite stack pc s
  | .fenceClear stack pc bits => Sys2Proof.Machine.execFenceClear stack pc bits s
  | .fenTrainingDone stack ok => Sys2Proof.Machine.execFenTrainingDone stack ok s
  | .dbrRawArm stack words => Sys2Proof.Machine.execDbrRawArm stack words s
  | .rawProgramStart stack => Sys2Proof.Machine.execRawProgramStart stack s
  | .rawProgramDone stack bad met => Sys2Proof.Machine.execRawProgramDone stack bad met s
  | .trwStart engine ch => Sys2Proof.Machine.execTrwStart engine ch s
  | .trwAbort engine ch => Sys2Proof.Machine.execTrwAbort engine ch s
  | .descriptorFetch engine ch bad => Sys2Proof.Machine.execDescriptorFetch engine ch bad s
  | .trwBurstReadDone engine at_ bad => Sys2Proof.Machine.execTrwBurstReadDone engine at_ bad s
  | .trwBurstWriteDone engine at_ => Sys2Proof.Machine.execTrwBurstWriteDone engine at_ s
  | .feedRecord rak => Sys2Proof.Machine.execFeedRecord rak s
  | .trwPblockWrite engine parts => Sys2Proof.Machine.execTrwPblockWrite engine parts s
  | .rdlLookup core len shared part bad => Sys2Proof.Machine.execRdlLookup core len shared part bad s
  | .rdlLookupResult port => Sys2Proof.Machine.execRdlLookupResult port s
  | .rdlInsert core len shared part => Sys2Proof.Machine.execRdlInsert core len shared part s
  | .rdlDelete core len shared part => Sys2Proof.Machine.execRdlDelete core len shared part s
  | .rdlCommandDone => Sys2Proof.Machine.execRdlCommandDone s
  | .tilStart tile => Sys2Proof.Machine.execTilStart tile s
  | .tilStop tile => Sys2Proof.Machine.execTilStop tile s
  | .measureDone tile => Sys2Proof.Machine.execMeasureDone tile s
  | .add tile => Sys2Proof.Machine.execAdd tile s
  | .sub tile => Sys2Proof.Machine.execSub tile s
  | .and tile => Sys2Proof.Machine.execAnd tile s
  | .or tile => Sys2Proof.Machine.execOr tile s
  | .xor tile => Sys2Proof.Machine.execXor tile s
  | .shl tile => Sys2Proof.Machine.execShl tile s
  | .shr tile => Sys2Proof.Machine.execShr tile s
  | .mul tile => Sys2Proof.Machine.execMul tile s
  | .addi tile => Sys2Proof.Machine.execAddi tile s
  | .li tile => Sys2Proof.Machine.execLi tile s
  | .ld tile bad => Sys2Proof.Machine.execLd tile bad s
  | .lw tile bad => Sys2Proof.Machine.execLw tile bad s
  | .st tile => Sys2Proof.Machine.execSt tile s
  | .sw tile => Sys2Proof.Machine.execSw tile s
  | .vld tile bad => Sys2Proof.Machine.execVld tile bad s
  | .vst tile => Sys2Proof.Machine.execVst tile s
  | .beq tile => Sys2Proof.Machine.execBeq tile s
  | .bne tile => Sys2Proof.Machine.execBne tile s
  | .blt tile => Sys2Proof.Machine.execBlt tile s
  | .jal tile => Sys2Proof.Machine.execJal tile s
  | .jr tile => Sys2Proof.Machine.execJr tile s
  | .waitcc tile => Sys2Proof.Machine.execWaitcc tile s
  | .waitRelease tile => Sys2Proof.Machine.execWaitRelease tile s
  | .halt tile => Sys2Proof.Machine.execHalt tile s
  | .vadd tile => Sys2Proof.Machine.execVadd tile s
  | .vmul tile => Sys2Proof.Machine.execVmul tile s
  | .vfma tile => Sys2Proof.Machine.execVfma tile s
  | .vmax tile => Sys2Proof.Machine.execVmax tile s
  | .vexp2 tile => Sys2Proof.Machine.execVexp2 tile s
  | .vbcast tile => Sys2Proof.Machine.execVbcast tile s
  | .vcvt tile => Sys2Proof.Machine.execVcvt tile s
  | .mmac tile => Sys2Proof.Machine.execMmac tile s
  | .expand tile => Sys2Proof.Machine.execExpand tile s
  | .quant tile => Sys2Proof.Machine.execQuant tile s
  | .rot tile => Sys2Proof.Machine.execRot tile s
  | .sketch tile => Sys2Proof.Machine.execSketch tile s
  | .score tile => Sys2Proof.Machine.execScore tile s
  | .merge tile => Sys2Proof.Machine.execMerge tile s
  | .bound tile => Sys2Proof.Machine.execBound tile s
  | .page tile => Sys2Proof.Machine.execPage tile s
  | .blockOpComplete tile k bad => Sys2Proof.Machine.execBlockOpComplete tile k bad s
  | .send tile => Sys2Proof.Machine.execSend tile s
  | .recv tile => Sys2Proof.Machine.execRecv tile s
  | .poll tile => Sys2Proof.Machine.execPoll tile s
  | .modeq tile => Sys2Proof.Machine.execModeq tile s
  | .fenrd tile => Sys2Proof.Machine.execFenrd tile s
  | .fenwr tile => Sys2Proof.Machine.execFenwr tile s
  | .fenAccessComplete tile k bad => Sys2Proof.Machine.execFenAccessComplete tile k bad s
  | .handoff tile => Sys2Proof.Machine.execHandoff tile s
  | .csrr tile => Sys2Proof.Machine.execCsrr tile s
  | .csrw tile => Sys2Proof.Machine.execCsrw tile s
  | .fence tile => Sys2Proof.Machine.execFence tile s
  | .bcopy tile => Sys2Proof.Machine.execBcopy tile s
  | .messageEject tile msg => Sys2Proof.Machine.execMessageEject tile msg s
  | .ejectionTimeout tile => Sys2Proof.Machine.execEjectionTimeout tile s
  | .vc0DirectWrite src dst addr data seen => Sys2Proof.Machine.execVc0DirectWrite src dst addr data seen s
  | .routerWatchdogBite router => Sys2Proof.Machine.execRouterWatchdogBite router s
  | .frameReceive port fcs frame => Sys2Proof.Machine.execFrameReceive port fcs frame s
  | .txRingWrite ring wr => Sys2Proof.Machine.execTxRingWrite ring wr s
  | .controlTxDone ring => Sys2Proof.Machine.execControlTxDone ring s
  | .mgtFrameReceive port fcs bytes => Sys2Proof.Machine.execMgtFrameReceive port fcs bytes s
  | .linkChange port up => Sys2Proof.Machine.execLinkChange port up s
  | .fecDegrade port => Sys2Proof.Machine.execFecDegrade port s
  | .ptpCfgWrite value => Sys2Proof.Machine.execPtpCfgWrite value s
  | .ptpFreqWrite value => Sys2Proof.Machine.execPtpFreqWrite value s
  | .ptpSlewWrite value => Sys2Proof.Machine.execPtpSlewWrite value s
  | .ptpStepWrite value => Sys2Proof.Machine.execPtpStepWrite value s
  | .servoLockWrite locked => Sys2Proof.Machine.execServoLockWrite locked s
  | .ptpLossTimeout => Sys2Proof.Machine.execPtpLossTimeout s
  | .ppsInEdge => Sys2Proof.Machine.execPpsInEdge s
  | .ppsStuckTimeout => Sys2Proof.Machine.execPpsStuckTimeout s
  | .syncWindowEnd edges => Sys2Proof.Machine.execSyncWindowEnd edges s
  | .ppsOutPulse => Sys2Proof.Machine.execPpsOutPulse s
  | .ppsOutFall => Sys2Proof.Machine.execPpsOutFall s
  | .itpPacketReceive p => Sys2Proof.Machine.execItpPacketReceive p s
  | .ack p => Sys2Proof.Machine.execAck p s
  | .nak p => Sys2Proof.Machine.execNak p s
  | .ackDelayTimeout k => Sys2Proof.Machine.execAckDelayTimeout k s
  | .retransmitTimeout k psn => Sys2Proof.Machine.execRetransmitTimeout k psn s
  | .messageTimeout k msn => Sys2Proof.Machine.execMessageTimeout k msn s
  | .ccPeriodEnd k => Sys2Proof.Machine.execCcPeriodEnd k s
  | .connOpen k => Sys2Proof.Machine.execConnOpen k s
  | .connClose k => Sys2Proof.Machine.execConnClose k s
  | .regionValidate k => Sys2Proof.Machine.execRegionValidate k s
  | .regionRevoke k => Sys2Proof.Machine.execRegionRevoke k s
  | .revokeDone k => Sys2Proof.Machine.execRevokeDone k s
  | .itpSend p => Sys2Proof.Machine.execItpSend p s
  | .itpWrite p => Sys2Proof.Machine.execItpWrite p s
  | .readReq p => Sys2Proof.Machine.execReadReq p s
  | .readResp p => Sys2Proof.Machine.execReadResp p s
  | .triggerStart => Sys2Proof.Machine.execTriggerStart s
  | .wrSend q => Sys2Proof.Machine.execWrSend q s
  | .wrWrite q => Sys2Proof.Machine.execWrWrite q s
  | .wrRead q => Sys2Proof.Machine.execWrRead q s
  | .wrMsg q => Sys2Proof.Machine.execWrMsg q s
  | .areq ecc => Sys2Proof.Machine.execAreq ecc s
  | .append ecc => Sys2Proof.Machine.execAppend ecc s
  | .clone ecc bad => Sys2Proof.Machine.execClone ecc bad s
  | .release ecc => Sys2Proof.Machine.execRelease ecc s
  | .cancel ecc => Sys2Proof.Machine.execCancel ecc s
  | .migrate ecc => Sys2Proof.Machine.execMigrate ecc s
  | .mirrorAdone => Sys2Proof.Machine.execMirrorAdone s
  | .mirrorTimeout slot => Sys2Proof.Machine.execMirrorTimeout slot s
  | .egressEnqueue src => Sys2Proof.Machine.execEgressEnqueue src s
  | .transmitDecision port bad => Sys2Proof.Machine.execTransmitDecision port bad s
  | .frameTxEnd port => Sys2Proof.Machine.execFrameTxEnd port s
  | .gateEdge port => Sys2Proof.Machine.execGateEdge port s
  | .telemetrySample n => Sys2Proof.Machine.execTelemetrySample n s
  | .hello p => Sys2Proof.Machine.execHello p s
  | .helloProbePeriod => Sys2Proof.Machine.execHelloProbePeriod s
  | .fabEpochNextWrite value => Sys2Proof.Machine.execFabEpochNextWrite value s
  | .snap slot gen => Sys2Proof.Machine.execSnap slot gen s
  | .sync slot gen => Sys2Proof.Machine.execSync slot gen s
  | .breakMsg slot gen => Sys2Proof.Machine.execBreak slot gen s
  | .importMsg slot gen => Sys2Proof.Machine.execImport slot gen s
  | .snapshotCopyDone lane => Sys2Proof.Machine.execSnapshotCopyDone lane s
  | .holdoverServingStop => Sys2Proof.Machine.execHoldoverServingStop s
  | .getVersion h => Sys2Proof.Machine.execGetVersion h s
  | .getCapabilities h => Sys2Proof.Machine.execGetCapabilities h s
  | .negotiateAlgorithms h => Sys2Proof.Machine.execNegotiateAlgorithms h s
  | .getDigests h => Sys2Proof.Machine.execGetDigests h s
  | .getCertificate h slot => Sys2Proof.Machine.execGetCertificate h slot s
  | .challenge h => Sys2Proof.Machine.execChallenge h s
  | .getMeasurements h index => Sys2Proof.Machine.execGetMeasurements h index s
  | .keyExchange h reqSession authed secret => Sys2Proof.Machine.execKeyExchange h reqSession authed secret s
  | .finish h id verified digest => Sys2Proof.Machine.execFinish h id verified digest s
  | .endSession h => Sys2Proof.Machine.execEndSession h s
  | .chunkSend h => Sys2Proof.Machine.execChunkSend h s
  | .chunkGet h => Sys2Proof.Machine.execChunkGet h s
  | .unsupportedSpdmRequest h => Sys2Proof.Machine.execUnsupportedSpdmRequest h s
  | .sessionTimeout id => Sys2Proof.Machine.execSessionTimeout id s
  | .getReport h nonce => Sys2Proof.Machine.execGetReport h nonce s
  | .importJob h part job iv wrapped => Sys2Proof.Machine.execImportJob h part job iv wrapped s
  | .dropJob h slot => Sys2Proof.Machine.execDropJob h slot s
  | .getChallenge h => Sys2Proof.Machine.execGetChallenge h s
  | .token h token => Sys2Proof.Machine.execToken h token s
  | .installNext conn => Sys2Proof.Machine.execInstallNext conn s
  | .txSwitch conn => Sys2Proof.Machine.execTxSwitch conn s
  | .retireOld conn => Sys2Proof.Machine.execRetireOld conn s
  | .rekeyJob slot => Sys2Proof.Machine.execRekeyJob slot s
  | .keyDerivationDone => Sys2Proof.Machine.execKeyDerivationDone s
  | .prtResetStart part => Sys2Proof.Machine.execPrtResetStart part s
  | .prtResetCommit part => Sys2Proof.Machine.execPrtResetCommit part s
  | .commitArb => Sys2Proof.Machine.execCommitArb s
  | .selectSlot => Sys2Proof.Machine.execSelectSlot s
  | .relock => Sys2Proof.Machine.execRelock s
  | .newchal => Sys2Proof.Machine.execNewchal s
  | .report => Sys2Proof.Machine.execReport s
  | .attToken => Sys2Proof.Machine.execAttToken s
  | .reportSigned => Sys2Proof.Machine.execReportSigned s
  | .debugUnlock => Sys2Proof.Machine.execDebugUnlock s
  | .deploy => Sys2Proof.Machine.execDeploy s
  | .enterRma => Sys2Proof.Machine.execEnterRma s
  | .scrap => Sys2Proof.Machine.execScrap s
  | .provision => Sys2Proof.Machine.execProvision s
  | .patrolWord read => Sys2Proof.Machine.execPatrolWord read s
  | .poisonAdd frame => Sys2Proof.Machine.execPoisonAdd frame s
  | .poisonDel frame => Sys2Proof.Machine.execPoisonDel frame s
  | .portBWatchdogBite slice => Sys2Proof.Machine.execPortBWatchdogBite slice s
  | .lbistArm tile => Sys2Proof.Machine.execLbistArm tile s
  | .lbistAbort => Sys2Proof.Machine.execLbistAbort s
  | .lbistSliceEnd misr => Sys2Proof.Machine.execLbistSliceEnd misr s
  | .mbistRun kind => Sys2Proof.Machine.execMbistRun kind s
  | .softRepair kind => Sys2Proof.Machine.execSoftRepair kind s
  | .fuseRepair kind => Sys2Proof.Machine.execFuseRepair kind s
  | .mbistDone fails worst exhausted => Sys2Proof.Machine.execMbistDone fails worst exhausted s
  | .pinsQualified => Sys2Proof.Machine.execPinsQualified s
  | .sysBootWrite step status serving => Sys2Proof.Machine.execSysBootWrite step status serving s
  | .pwrokFall => Sys2Proof.Machine.execPwrokFall s
  | .resetNFall => Sys2Proof.Machine.execResetNFall s
  | .sysReset value => Sys2Proof.Machine.execSysReset value s
  | .deviceReset cause => Sys2Proof.Machine.execDeviceReset cause s
  | .sysWdogKick value => Sys2Proof.Machine.execSysWdogKick value s
  | .mcxWatchdogBite => Sys2Proof.Machine.execMcxWatchdogBite s
  | .peek line addr n bad => Sys2Proof.Machine.execPeek line addr n bad s
  | .poke line addr value => Sys2Proof.Machine.execPoke line addr value s
  | .dump line addr bytes bad => Sys2Proof.Machine.execDump line addr bytes bad s
  | .fill line addr bytes value => Sys2Proof.Machine.execFill line addr bytes value s
  | .load line addr bytes data crc => Sys2Proof.Machine.execLoad line addr bytes data crc s
  | .events line n => Sys2Proof.Machine.execEvents line n s
  | .tiles line => Sys2Proof.Machine.execTiles line s
  | .lifecycle line => Sys2Proof.Machine.execLifecycle line s
  | .attest line nonce => Sys2Proof.Machine.execAttest line nonce s
  | .uartBreak us => Sys2Proof.Machine.execUartBreak us s
  | .refclkLoss ref khz => Sys2Proof.Machine.execRefclkLoss ref khz s
  | .pllUnlock pll => Sys2Proof.Machine.execPllUnlock pll s
  | .allowanceSample => Sys2Proof.Machine.execAllowanceSample s
  | .sensorSample readings => Sys2Proof.Machine.execSensorSample readings s
  | .thermtripReset => Sys2Proof.Machine.execThermtripReset s
  | .railMonitorSample mv => Sys2Proof.Machine.execRailMonitorSample mv s
  | .avsStep ok => Sys2Proof.Machine.execAvsStep ok s
  | .avsPoll ok status iout => Sys2Proof.Machine.execAvsPoll ok status iout s
  | .pmbAlert status => Sys2Proof.Machine.execPmbAlert status s
  | .faultNAsserted => Sys2Proof.Machine.execFaultNAsserted s
  | .faultnClear => Sys2Proof.Machine.execFaultnClear s
  | .migrateCopyDone slot bad => Sys2Proof.Machine.execMigrateCopyDone slot bad s
  | .slewComplete => Sys2Proof.Machine.execSlewComplete s
  | .faultNReleased => Sys2Proof.Machine.execFaultNReleased s
  | .refclkReturn ref khz => Sys2Proof.Machine.execRefclkReturn ref khz s
  | .pllLock pll => Sys2Proof.Machine.execPllLock pll s
  | .uartRxResume => Sys2Proof.Machine.execUartRxResume s
  | .portBGrant slice => Sys2Proof.Machine.execPortBGrant slice s

end Sys2Proof.Machine
end

