-- ==== Sys2Proof/WellFormed.lean ====
section
/-!
DEFINITION. Well-formed commands: every operand within the range that the field or the pin it stands for has. The world outside sends no
other command.
-/

namespace Sys2Proof

/-- A number that fits a field of `w` bits. -/
def bits (w v : Nat) : Bool := decide (v < 2 ^ w)

/-- An index below a count of things. -/
def below (n v : Nat) : Bool := decide (v < n)

/-- Bytes: every element below 256. -/
def octets (l : List Nat) : Bool := l.all fun b => below 256 b

/-- The operand of an instruction: a tile in [6:0], an error of the fetch in bit 7 and of what it reads to send in bit 8. -/
def issues (tile : Nat) : Bool := below 512 tile

/-- A flit as a link carries it: 64 data bytes and 8 sideband bytes (R324). -/
def flit (l : List Nat) : Bool := octets l && l.length == 72

/-- A management header: 16 bytes, the second of which is the command's opcode (R46). -/
def MgtHead.wf (h : MgtHead) (op : Nat) : Bool := below 66 h.port && octets h.hdr && h.hdr.length == 16 && h.hdr.getD 1 0 == op

/-- A well-formed command. -/
def Instr.wf : Instr → Bool
  | .registerWrite core addr value width => below 4 core && bits 26 addr && bits 32 value && [8, 16, 32, 64].contains width
  | .wideRegisterAccess core addr _ value => below 4 core && bits 26 addr && bits 32 value
  | .counterReadClear core addr => below 4 core && bits 26 addr
  | .viewAccess core view off _ value _ => below 4 core && below 3 view && bits 24 off && bits 32 value
  | .blkLockWrite pageV value => bits 14 pageV && bits 32 value
  | .blkEvtClear pageV evts => bits 14 pageV && bits 32 evts
  | .blkFltClear pageV value => bits 14 pageV && bits 32 value
  | .dpwDataAccess core _ value _ => below 4 core && bits 32 value
  | .dpwHeldComplete core _ => below 6 core
  | .regRead h body => h.wf 1 && octets body
  | .regWrite h body => h.wf 2 && octets body
  | .burstRead h addr count _ => h.wf 3 && octets (addr ++ count)
  | .burstWrite h addr words => h.wf 4 && octets (addr ++ words)
  | .tickBoundary _ => true
  | .tickCounterStart => true
  | .tickLenApply => true
  | .tplTickLenWrite value => bits 32 value
  | .shareTallyBuild => true
  | .planWindowEnd => true
  | .bookedItemStart _ => true
  | .bookedItemComplete _ _ => true
  | .sealPoint => true
  | .carryRemoval slot => bits 20 slot
  | .ctxForceClearStarved slot gen => bits 18 slot && bits 8 gen
  | .ctxForceLost slot gen => bits 18 slot && bits 8 gen
  | .ctxForceRelease slot gen => bits 18 slot && bits 8 gen
  | .cowCopyDone slot _ _ => bits 18 slot
  | .scrubDone frame _ => bits 25 frame
  | .labInvalidateSlot slot => bits 18 slot
  | .labInvalidateAll => true
  | .frmGrantToPartition part tier count => bits 6 part && below 2 tier && bits 24 count
  | .frmGrantToPool part tier count => bits 6 part && below 2 tier && bits 24 count
  | .frmDevresTake frame => bits 25 frame
  | .frmDevresRelease frame => bits 25 frame
  | .move => true
  | .moveLane => true
  | .setHint => true
  | .migrationCopyDone frame _ => bits 25 frame
  | .offPackageConfirm frame => bits 25 frame
  | .fetchReadDone frame _ => bits 25 frame
  | .pciLinkUp port link speed width => below 2 port && below 4 link && below 8 speed && below 32 width
  | .pciLinkDown port link _ => below 2 port && below 4 link
  | .driveCommandComplete _ _ data => octets data.bytes
  | .segOpen stack pc code d32 kvhLog t32 store =>
    below 8 stack && below 32 pc && below 8 code && bits 5 d32 && below 4 kvhLog && bits 5 t32 && below 2 store
  | .sigma stack sigmaV => below 8 stack && bits 32 sigmaV
  | .limit stack limitV => below 8 stack && bits 25 limitV
  | .window stack windowV prefix_ => below 8 stack && bits 25 windowV && bits 25 prefix_
  | .row stack slot head pos => below 8 stack && below 64 slot && below 8 head && bits 24 pos
  | .segmentPage stack rowSet countM1 base _ => below 8 stack && bits 16 rowSet && bits 10 countM1 && bits 24 base
  | .segClose stack => below 8 stack
  | .wait stack sc => below 8 stack && bits 16 sc
  | .mark stack tag => below 8 stack && bits 32 tag
  | .dest stack tile slot => below 8 stack && below 128 tile && bits 20 slot
  | .segmentComplete stack pc _ => below 8 stack && below 32 pc
  | .channelModeChange stack pc => below 8 stack && below 32 pc
  | .crownQueueServe stack pc _ addr => below 8 stack && below 32 pc && bits 48 addr
  | .refreshSlot stack group => below 8 stack && below 4 group
  | .tempFlagChange stack pc _ => below 8 stack && below 32 pc
  | .bookedIntervalGrant ch _ => below 8 ch.stack && below 32 ch.pc
  | .arbiterGrant ch _ => below 8 ch.stack && below 32 ch.pc
  | .fenWatchdogBite stack pc => below 8 stack && below 32 pc
  | .fenceClear stack pc fenceV => below 8 stack && below 32 pc && bits 32 fenceV
  | .fenTrainingDone stack _ => below 8 stack
  | .dbrRawArm stack words => below 8 stack && bits 12 words
  | .rawProgramStart stack => below 8 stack
  | .rawProgramDone stack _ met => below 8 stack && bits 48 met.addr
  | .trwStart engine ch => below 4 engine && below 8 ch
  | .trwAbort engine ch => below 4 engine && below 8 ch
  | .descriptorFetch engine ch _ => below 4 engine && below 8 ch
  | .trwBurstReadDone engine at_ _ => below 4 engine && below 8 at_.ch && below 2 at_.slot
  | .trwBurstWriteDone engine at_ => below 4 engine && below 8 at_.ch && below 2 at_.slot
  | .feedRecord rak => below 8 rak
  | .trwPblockWrite engine parts => below 4 engine && bits 64 parts
  | .rdlLookup core len shared part _ => below 4 core && bits 7 len && bits 1 shared && bits 6 part
  | .rdlLookupResult port => below 5 port
  | .rdlInsert core len shared part => below 4 core && bits 7 len && bits 1 shared && bits 6 part
  | .rdlDelete core len shared part => below 4 core && bits 7 len && bits 1 shared && bits 6 part
  | .rdlCommandDone => true
  | .tilStart tile => below 128 tile
  | .tilStop tile => below 128 tile
  | .measureDone tile => below 128 tile
  | .add tile => issues tile
  | .sub tile => issues tile
  | .and tile => issues tile
  | .or tile => issues tile
  | .xor tile => issues tile
  | .shl tile => issues tile
  | .shr tile => issues tile
  | .mul tile => issues tile
  | .addi tile => issues tile
  | .li tile => issues tile
  | .ld tile _ => issues tile
  | .lw tile _ => issues tile
  | .st tile => issues tile
  | .sw tile => issues tile
  | .vld tile _ => issues tile
  | .vst tile => issues tile
  | .beq tile => issues tile
  | .bne tile => issues tile
  | .blt tile => issues tile
  | .jal tile => issues tile
  | .jr tile => issues tile
  | .waitcc tile => issues tile
  | .waitRelease tile => below 128 tile
  | .halt tile => issues tile
  | .vadd tile => issues tile
  | .vmul tile => issues tile
  | .vfma tile => issues tile
  | .vmax tile => issues tile
  | .vexp2 tile => issues tile
  | .vbcast tile => issues tile
  | .vcvt tile => issues tile
  | .mmac tile => issues tile
  | .expand tile => issues tile
  | .quant tile => issues tile
  | .rot tile => issues tile
  | .sketch tile => issues tile
  | .score tile => issues tile
  | .merge tile => issues tile
  | .bound tile => issues tile
  | .page tile => issues tile
  | .blockOpComplete tile _ bad => below 128 tile && below 3 bad
  | .send tile => issues tile
  | .recv tile => issues tile
  | .poll tile => issues tile
  | .modeq tile => issues tile
  | .fenrd tile => issues tile
  | .fenwr tile => issues tile
  | .fenAccessComplete tile _ _ => below 128 tile
  | .handoff tile => issues tile
  | .csrr tile => issues tile
  | .csrw tile => issues tile
  | .fence tile => issues tile
  | .bcopy tile => issues tile
  | .messageEject tile msg => below 128 tile && msg.seen.all flit
  | .ejectionTimeout tile => below 128 tile
  | .vc0DirectWrite src dst addr data seen =>
    below 256 src && below 256 dst && bits 48 addr && octets data && seen.all flit
  | .routerWatchdogBite router => below 128 router
  | .frameReceive port _ frame => below 64 port && octets frame.bytes
  | .txRingWrite ring wr => below 3 ring && bits 32 wr
  | .controlTxDone ring => below 3 ring
  | .mgtFrameReceive port _ bytes => below 2 port && octets bytes
  | .linkChange port _ => below 66 port
  | .fecDegrade port => below 64 port
  | .ptpCfgWrite value => bits 32 value
  | .ptpFreqWrite value => bits 32 value
  | .ptpSlewWrite value => bits 32 value
  | .ptpStepWrite value => bits 32 value
  | .servoLockWrite _ => true
  | .ptpLossTimeout => true
  | .ppsInEdge => true
  | .ppsStuckTimeout => true
  | .syncWindowEnd _ => true
  | .ppsOutPulse => true
  | .ppsOutFall => true
  | .itpPacketReceive p => octets p.bytes && below 64 p.port && bits 128 p.src
  | .ack p => octets p.bytes && below 64 p.port && bits 128 p.src
  | .nak p => octets p.bytes && below 64 p.port && bits 128 p.src
  | .ackDelayTimeout i => below 4096 i
  | .retransmitTimeout i psn => below 4096 i && bits 32 psn
  | .messageTimeout i msn => below 4096 i && bits 32 msn
  | .ccPeriodEnd i => below 4096 i
  | .connOpen i => below 4096 i
  | .connClose i => below 4096 i
  | .regionValidate i => bits 20 i
  | .regionRevoke i => bits 20 i
  | .revokeDone i => bits 20 i
  | .itpSend p => octets p.bytes && below 64 p.port && bits 128 p.src
  | .itpWrite p => octets p.bytes && below 64 p.port && bits 128 p.src
  | .readReq p => octets p.bytes && below 64 p.port && bits 128 p.src
  | .readResp p => octets p.bytes && below 64 p.port && bits 128 p.src
  | .triggerStart => true
  | .wrSend _ => true
  | .wrWrite _ => true
  | .wrRead _ => true
  | .wrMsg _ => true
  | .areq ecc => below 3 ecc
  | .append ecc => below 3 ecc
  | .clone ecc _ => below 3 ecc
  | .release ecc => below 3 ecc
  | .cancel ecc => below 3 ecc
  | .migrate ecc => below 3 ecc
  | .mirrorAdone => true
  | .mirrorTimeout slot => bits 20 slot
  | .egressEnqueue src => below 4097 src
  | .transmitDecision port _ => below 64 port
  | .frameTxEnd port => below 64 port
  | .gateEdge port => below 64 port
  | .telemetrySample n => below 8 n
  | .hello p => octets p.bytes && below 64 p.port && bits 128 p.src
  | .helloProbePeriod => true
  | .fabEpochNextWrite value => bits 32 value
  | .snap slot gen => bits 18 slot && bits 8 gen
  | .sync slot gen => bits 18 slot && bits 8 gen
  | .breakMsg slot gen => bits 18 slot && bits 8 gen
  | .importMsg slot gen => bits 18 slot && bits 8 gen
  | .snapshotCopyDone _ => true
  | .holdoverServingStop => true
  | .getVersion h => h.wf 5
  | .getCapabilities h => h.wf 5
  | .negotiateAlgorithms h => h.wf 5
  | .getDigests h => h.wf 5
  | .getCertificate h slot => h.wf 5 && bits 8 slot
  | .challenge h => h.wf 5
  | .getMeasurements h index => h.wf 5 && bits 8 index
  | .keyExchange h reqSession _ secret => h.wf 5 && bits 16 reqSession && octets secret
  | .finish h id _ digest => h.wf 5 && bits 32 id && bits 384 digest
  | .endSession h => h.wf 5
  | .chunkSend h => h.wf 5
  | .chunkGet h => h.wf 5
  | .unsupportedSpdmRequest h => h.wf 5
  | .sessionTimeout id => bits 32 id
  | .getReport h nonce => h.wf 5 && nonce.length == 32 && octets nonce
  | .importJob h part job iv wrapped => h.wf 5 && bits 6 part && bits 32 job && iv.length == 12 && octets iv && octets wrapped
  | .dropJob h slot => h.wf 5 && bits 16 slot
  | .getChallenge h => h.wf 5
  | .token h tokenV => h.wf 5 && octets tokenV
  | .installNext conn => below 4096 conn
  | .txSwitch conn => below 4096 conn
  | .retireOld conn => below 4096 conn
  | .rekeyJob slot => bits 16 slot
  | .keyDerivationDone => true
  | .prtResetStart part => bits 6 part
  | .prtResetCommit part => bits 6 part
  | .commitArb => true
  | .selectSlot => true
  | .relock => true
  | .newchal => true
  | .report => true
  | .attToken => true
  | .reportSigned => true
  | .debugUnlock => true
  | .deploy => true
  | .enterRma => true
  | .scrap => true
  | .provision => true
  | .patrolWord read => below 3 read.outcome
  | .poisonAdd frame => bits 32 frame
  | .poisonDel frame => bits 32 frame
  | .portBWatchdogBite slice => below 128 slice
  | .lbistArm tile => below 128 tile
  | .lbistAbort => true
  | .lbistSliceEnd misr => bits 128 misr
  | .mbistRun kind => bits 4 kind
  | .softRepair kind => bits 4 kind
  | .fuseRepair kind => bits 4 kind
  | .mbistDone fails _ _ => (fails.all fun f => bits 64 f.address && bits 16 f.bit && bits 8 f.element && bits 8 f.flags)
  | .pinsQualified => true
  | .sysBootWrite step status _ => bits 4 step && bits 8 status
  | .pwrokFall => true
  | .resetNFall => true
  | .sysReset value => bits 32 value
  | .deviceReset cause => bits 5 cause
  | .sysWdogKick value => bits 32 value
  | .mcxWatchdogBite => true
  | .peek _ addr _ _ => bits 64 addr
  | .poke _ addr value => bits 64 addr && bits 32 value
  | .dump _ addr bytes _ => bits 64 addr && bits 32 bytes
  | .fill _ addr bytes value => bits 64 addr && bits 32 bytes && bits 32 value
  | .load _ addr bytes data crc => bits 64 addr && bits 32 bytes && octets data && bits 32 crc
  | .events _ _ => true
  | .tiles _ => true
  | .lifecycle _ => true
  | .attest _ nonce => octets nonce
  | .uartBreak _ => true
  | .refclkLoss ref khz => below 3 ref && bits 20 khz
  | .pllUnlock pll => below 4 pll
  | .allowanceSample => true
  | .sensorSample readings => readings.length == 28 && readings.all (bits 12)
  | .thermtripReset => true
  | .railMonitorSample mv => mv.length == 21 && mv.all (bits 16)
  | .avsStep _ => true
  | .avsPoll _ status iout => bits 16 status && bits 16 iout
  | .pmbAlert status => bits 16 status
  | .faultNAsserted => true
  | .faultnClear => true
  | .migrateCopyDone slot _ => bits 20 slot
  | .slewComplete => true
  | .faultNReleased => true
  | .refclkReturn ref khz => below 3 ref && bits 20 khz
  | .pllLock pll => below 4 pll
  | .uartRxResume => true
  | .portBGrant slice => below 128 slice

end Sys2Proof
end

