-- ==== Sys2Proof/Machine/Step.lean ====
section
/-!
DEFINITION. One step of the node: the command at the front of the queue, or one core cycle that passes when none waits.
-/

namespace Sys2Proof.Machine

/-- One step. With no command waiting, one core cycle passes (DESIGN CHOICE, assumption 1). -/
def step (s : State) : Host.Outcome State Fault Refusal :=
  match s.pending with
  | [] => .next (s.ccPass 1)
  | c :: rest => exec c { s with pending := rest }

/-- The state with the command that a word spells put at the front of its queue; unchanged where the word spells none. -/
def State.withFetchWord (s : State) (nbits w : Nat) : State :=
  match decodeTableWord nbits w with
  | some c => { s with pending := c :: s.pending }
  | none => s

end Sys2Proof.Machine
end

