-- ==== Sys2Proof/Safety.lean ====
section
/-!
DEFINITION. What a well-kept state is, in the terms the statements use: memory and the register file in their one canonical
form, every register word within 32 bits, and what a step must leave so.
-/

namespace Sys2Proof.Machine

/-- Memory is in canonical form: addresses strictly rise, and no listed byte equals what an unlisted address reads as. -/
def Memory.wf (m : List Host.Cell) : Bool := SMap.wf m (0#8)

/-- The register file is in canonical form: addresses strictly rise, every word is below 2^32, and none listed equals its
reset value. -/
def Regs.wf (m : SMap Nat) : Bool :=
  SMap.rises m 0 && m.all fun kv => decide (kv.2 < 2 ^ 32) && !decide (kv.2 = regReset kv.1)

/-- A well-kept state. -/
def State.ok (s : State) : Prop := Memory.wf s.mem = true ∧ Regs.wf s.regs = true

/-- What every command's effect keeps: the queue of waiting commands, and the state well kept; the model's counters of free
values and of device resets never fall. -/
structure Keeps (s t : State) : Prop where
  pending : t.pending = s.pending
  fresh : s.fresh ≤ t.fresh
  boot : s.boot ≤ t.boot
  ok : s.ok → t.ok

/-- An outcome that keeps what `Keeps` says, whatever next state it gives. -/
def KeepsOut (s : State) (o : Host.Outcome State Fault Refusal) : Prop := ∀ t, o = .next t → Keeps s t

/-- A range of peat or crown SRAM in which a byte is simply stored: below the context and request tables, or in the crown banks
(R97, R255). -/
def plainAt (a n : Nat) : Prop := (peatBase ≤ a ∧ a + n ≤ ctxTableBase) ∨ (crownBase ≤ a ∧ a + n ≤ crownEnd)

/-- What a machine's stored bytes are after the bytes `bs` have gone to address `a`: those bytes there, and everything else as before. -/
def StoredAt (s t : State) (a : Nat) (bs : List Nat) : Prop :=
  ∀ x, t.cell x = if a ≤ x ∧ x < a + bs.length then bs.getD (x - a) 0 % 256 else s.cell x

/-- A write has only been taken into a register's pending value: every stored word and everything else is as before (R39). -/
def HeldIn (s t : State) : Prop :=
  (∀ x, t.rg x % 2 ^ 32 = s.rg x % 2 ^ 32) ∧ { t with regs := s.regs, rwt := s.rwt } = s

/-- Tile `n` can issue, its pc is aligned, and the instruction word there is `w`, of a legal opcode (R342). -/
def IssuesAt (s : State) (n w : Nat) : Prop :=
  n < 128 ∧ SMap.rises s.tiles 0 = true ∧ canIssue s n = true ∧ (s.tile n).pc % 4 = 0 ∧ tileWord s n = w ∧ legalOp (w % 256) = true

/-- `t` is `s` with tile `n` become `x`: every other tile and everything else is as in `s`. -/
def TileRan (s t : State) (n : Nat) (x : Tile) : Prop :=
  t.tile n = x ∧ (∀ m, m ≠ n → t.tile m = s.tile m) ∧ { t with tiles := s.tiles } = s

/-- Tile `n` with its pc noted as the last one issued. -/
def State.noted (s : State) (n : Nat) : State := s.setTile n { s.tile n with lastPc := (s.tile n).pc }

/-- Tile `x` after an instruction that only goes to the next word (R342). -/
def Tile.step (x : Tile) : Tile := { x with lastPc := x.pc, pc := pcAdd x.pc 4 }

/-- Command `c` ends as tile `n` become `y` with its pc noted, every other tile and everything else as in `s`. -/
def RunsTo (s : State) (n : Nat) (c : Instr) (y : Tile) : Prop :=
  ∃ t, exec c s = .next t ∧ TileRan s t n { y with lastPc := (s.tile n).pc }

end Sys2Proof.Machine
end

