-- ==== Sys2Proof/Certificates/Slice0/Obligations.lean ====
section
/-!
DEFINITION. The statements for the provers: what the commands do, by the spec's rules, and what every step keeps.
-/

section

open Sys2Proof Sys2Proof.Machine

/-- The block takes its commands in order: where a command stands at the front of the queue, a step is that command's effect on the state with the queue's
rest; with no command waiting, one core cycle passes (the model's choice, assumption 1). -/
def Obligations.StepRunsTheFrontCommand : Prop :=
  ∀ s : State, (∀ c rest, s.pending = c :: rest → step s = exec c { s with pending := rest }) ∧ (s.pending = [] → step s = .next (s.ccPass 1))

/-- R531: after reset every register reads its reset value, no command waits, memory lists nothing and reads zero, no tile is at work, the tick counter
does not run, and the state is well kept. What the spec gives no reset value for is the model's choice (assumptions named in NOTES.md). The model's
own readings and choices in it: assumptions 2, 4, 6, 7. -/
def Obligations.ResetStateIsWellKept : Prop :=
  State.reset.ok ∧ State.reset.pending = [] ∧ State.reset.mem = [] ∧ State.reset.time.running = false ∧ (∀ a, State.reset.rg a = regReset a)
  ∧ (∀ a, State.reset.cell a = 0) ∧ (∀ n, State.reset.tile n = {}) ∧ State.reset.poison = []

/-- No command of the table is refused or stops the machine: with any operands and in any state it answers a next state, in which the queue is as before,
a well-kept state is well kept still, and the model's counters of free values and resets have not fallen. The model's own readings and choices in it:
assumptions 3, 12. -/
def Obligations.EveryCommandAnswersANextState : Prop :=
  ∀ (c : Instr) (s : State), ∃ t, exec c s = .next t ∧ Keeps s t

/-- Whatever the state and whatever command stands in front, a step from a well-kept state leaves a well-kept state: memory and register file in canonical
form, every register word below 2^32. It takes at most one command off the queue and adds none, and never lowers the model's counters of free values
and resets. The model's own readings and choices in it: assumptions 1, 3. -/
def Obligations.StepsKeepTheMachine : Prop :=
  ∀ s t : State, s.ok → step s = .next t → t.ok ∧ t.pending = s.pending.tail ∧ s.fresh ≤ t.fresh ∧ s.boot ≤ t.boot

/-- R7, R20: a 32-bit store to a register word that has no effect of its own leaves in each field what its access code says, and changes nothing else. The
model's own readings and choices in it: assumptions 9, 10. -/
def Obligations.PlainStoreChangesFieldsByAccessCode : Prop :=
  ∀ (core addr v n off : Nat) (b : Blk) (r : RegRow) (s : State),
    s.ok → core < 4 → coreStalled s core = false → addr % 4 = 0 → dpwSet addr = none →
    regRow addr = some (b, n, off, r) → isWideLo addr = false → isWideHi addr = false → lockStops s addr = false →
    headEffect s b n off (v % 2 ^ 32) = none → sysEffect s b off (v % 2 ^ 32) = none →
    coreEffect s b n off (v % 2 ^ 32) = none → edgeEffect s b n off (v % 2 ^ 32) = none →
    (r.flds.any fun f => decide (f.acc = .rwt)) = false →
    ∃ t, exec (.registerWrite core addr v 32) s = .next t
      ∧ t.rg addr = r.flds.foldl (fun old f => f.put (s.locked b n) old (v % 2 ^ 32)) (s.rg addr) % 2 ^ 32
      ∧ (∀ a, a ≠ addr → t.rg a = s.rg a) ∧ { t with regs := s.regs } = s

/-- R39: while the tick counter runs, a store to a word of RWT fields leaves every stored word alone; the value waits, and the word's pending value is the
one last written. R41: before the counter first runs, the same store to a word whose change moves nothing else is in the register at once (assumption
8). The model's own readings and choices in it: assumptions 8, 10. -/
def Obligations.HeldStoreWaitsForBoundary : Prop :=
  ∀ (core addr v n off : Nat) (b : Blk) (r : RegRow) (s : State),
    s.ok → SMap.rises s.rwt 0 = true → core < 4 → coreStalled s core = false → addr % 4 = 0 → dpwSet addr = none →
    regRow addr = some (b, n, off, r) → isWideLo addr = false → isWideHi addr = false →
    headEffect s b n off (v % 2 ^ 32) = none → sysEffect s b off (v % 2 ^ 32) = none →
    coreEffect s b n off (v % 2 ^ 32) = none → edgeEffect s b n off (v % 2 ^ 32) = none →
    (∀ f ∈ r.flds, f.acc = .rwt) → r.flds ≠ [] →
    (s.time.running = true →
      ∃ t, exec (.registerWrite core addr v 32) s = .next t ∧ (∀ a, t.rg a % 2 ^ 32 = s.rg a % 2 ^ 32)
        ∧ t.pendWord addr = r.flds.foldl (fun old f => f.putT old (v % 2 ^ 32)) (s.pendWord addr)
        ∧ { t with regs := s.regs, rwt := s.rwt } = s)
    ∧ (s.time.running = false → rwtAction addr = none → off ≠ 0x010 → b ≠ .prt → b ≠ .rdl → b ≠ .slu → SMap.get s.rwt 0 addr = 0 →
      ∃ t, exec (.registerWrite core addr v 32) s = .next t ∧ (∀ a, a ≠ addr → t.rg a % 2 ^ 32 = s.rg a % 2 ^ 32)
        ∧ { t with regs := s.regs, rwt := s.rwt } = s ∧ SMap.get t.rwt 0 addr = 0
        ∧ t.rg addr = r.flds.foldl (fun old f => f.putT old (r.flds.foldl (fun old f => f.putT old (v % 2 ^ 32)) (s.rg addr))) (s.rg addr % 2 ^ 32) % 2 ^ 32)

/-- R20: a store that is not 32 bits wide, or not at a multiple of 4, changes no register it names; SYS records the access fault, with the requester. -/
def Obligations.MisshapenStoreIsAnAccessFault : Prop :=
  ∀ (core addr v width : Nat) (s : State), core < 4 → coreStalled s core = false → width ≠ 32 ∨ addr % 4 ≠ 0 →
    exec (.registerWrite core addr v width) s = .next (fault s .sys 0 0x01 none (addr % 2 ^ 26) core)

/-- R21: for a 64-bit register whose words have no effect of their own, a read of the low word answers it and latches the high word for that requester;
the next read of the high word answers the latch and empties it; a write of the high word is staged; a write of the low word commits the staged word
and the low one. The model's own readings and choices in it: assumption 9. -/
def Obligations.WideRegisterHalvesMoveTogether : Prop :=
  ∀ (core addr n off : Nat) (b : Blk) (r : RegRow) (s : State),
    core < 4 → coreStalled s core = false → addr % 4 = 0 → dpwSet addr = none → regRow addr = some (b, n, off, r) →
    (isWideLo addr = true → isWideHi addr = false → (r.flds.any fun f => decide (f.acc = .rc)) = false →
      addr ≠ Reg.PTP_TIME_NS → addr ≠ Reg.PTP_PPS_TS_NS → ∀ v,
      exec (.wideRegisterAccess core addr false v) s =
        .next ({ s with latch := SMap.set s.latch 0 (latchKey core (addr + 4)) (readValue s (addr + 4) + 1) }.answer core (readValue s addr)))
    ∧ (isWideHi addr = true → ∀ x v, SMap.get s.latch 0 (latchKey core addr) = x + 1 →
      exec (.wideRegisterAccess core addr false v) s =
        .next ({ s with latch := SMap.set s.latch 0 (latchKey core addr) 0 }.answer core x))
    ∧ (isWideHi addr = true → lockStops s addr = false → ∀ v,
      exec (.wideRegisterAccess core addr true v) s = .next { s with stage := SMap.set s.stage 0 addr (v % 2 ^ 32 + 1) })
    ∧ (isWideLo addr = true → isWideHi addr = false → addr ≠ Reg.PTP_STEP_LO → b ≠ .trw → ∀ hi v,
      SMap.get s.stage 0 (addr + 4) = hi + 1 →
      exec (.wideRegisterAccess core addr true v) s =
        .next (oneWrite (oneWrite { s with stage := SMap.set s.stage 0 (addr + 4) 0 } (addr + 4) hi) addr (v % 2 ^ 32)))

/-- R7: a load of a 32-bit register that holds an RC field answers the value before the load and leaves every RC field at zero. -/
def Obligations.ReadOfAnRcWordClearsIt : Prop :=
  ∀ (core addr n off : Nat) (b : Blk) (r : RegRow) (s : State),
    core < 4 → coreStalled s core = false → addr % 4 = 0 → dpwSet addr = none → regRow addr = some (b, n, off, r) →
    isWideLo addr = false → isWideHi addr = false → addr ≠ Reg.PTP_TIME_NS → addr ≠ Reg.PTP_PPS_TS_NS →
    (r.flds.any fun f => decide (f.acc = .rc)) = true →
    exec (.counterReadClear core addr) s =
      .next ((s.setRg addr (r.flds.foldl (fun w f => if f.acc = .rc then putBits w f.hi f.lo 0 else w) (s.rg addr))).answer core (readValue s addr))

/-- R25: through a view, an aligned load inside a defined table (the look-aside buffer apart) answers that word of the entry, one outside the table reads
zero; an aligned store inside the table writes the word of the entry, one outside does nothing. The model's own readings and choices in it:
assumptions 70, 71, 125. -/
def Obligations.ViewShowsItsTableWindow : Prop :=
  ∀ (core view off v t p : Nat) (s : State), core < 4 → view < 3 → off < 2 ^ 24 → off % 4 = 0 → coreStalled s core = false →
    viewPlace s view off = (t, p) →
    ((tableShape t).1 * (tableShape t).2 ≤ p →
      exec (.viewAccess core view off false v false) s = .next (s.answer core 0) ∧ exec (.viewAccess core view off true v false) s = .next s)
    ∧ (p < (tableShape t).1 * (tableShape t).2 → t ≠ 4 →
      exec (.viewAccess core view off false v false) s =
        .next (s.answer core (unpackLE (tableEntry s t (p / (tableShape t).1)) (p % (tableShape t).1) 4))
      ∧ exec (.viewAccess core view off true v false) s = .next (tableWrite s t p (v % 2 ^ 32)))

/-- R33, R35, R37: in every block instance, a write of BLK_LOCK with 0xA5C3 above sets the lock to bit 0 and any other value does nothing; with no event
of the block in this core cycle a write of BLK_EVT clears exactly the bits written as one; with no fault of the block in this cycle a write of BLK_FLT
with valid as one clears the word, and with valid as zero does nothing. -/
def Obligations.HeaderWritesLockAndAcknowledge : Prop :=
  ∀ (b : Blk) (n v : Nat) (s : State), s.ok → n < b.count → v < 2 ^ 32 →
    (v / 65536 = 0xA5C3 → exec (.blkLockWrite (b.page + n) v) s = .next (s.setRg (Reg.BLK_LOCK b n) (v % 2)))
    ∧ (v / 65536 ≠ 0xA5C3 → exec (.blkLockWrite (b.page + n) v) s = .next s)
    ∧ ((s.seen.all fun x => x.up != s.time.up || x.blk != b.base n) = true →
      ∃ t, exec (.blkEvtClear (b.page + n) v) s = .next t ∧ { t with regs := s.regs } = s ∧ (∀ a, a ≠ Reg.BLK_EVT b n → t.rg a = s.rg a)
        ∧ ∀ k, k < 32 → t.bit (Reg.BLK_EVT b n) k = (s.bit (Reg.BLK_EVT b n) k && !bitOf v k))
    ∧ (b ≠ .pwr → (s.seenFlt.all fun x => x.up != s.time.up || x.blk != b.base n) = true → bitOf v 8 = true →
      exec (.blkFltClear (b.page + n) v) s = .next (s.setRg (Reg.BLK_FLT b n) 0))
    ∧ (bitOf v 8 = false → exec (.blkFltClear (b.page + n) v) s = .next s)

/-- R43, R44: a core whose DPW address names a readable word outside fen reads that word through DPW_DATA; a write through DPW_DATA to a plain range of
peat or crown SRAM (no peer entry of the fabric) stores the four bytes of the value there, lowest first; either way the address advances by 4 and
nothing else changes. An address the port refuses records MALFORMED and stays. The model's own readings and choices in it: assumptions 11, 38. -/
def Obligations.DataPortMovesOneWord : Prop :=
  ∀ (core v a : Nat) (s : State), s.ok → core < 4 → v < 2 ^ 32 → coreStalled s core = false → dpwAddr s core = a →
    (memRefused s a false = false → inFen a = false →
      exec (.dpwDataAccess core false v false) s =
        .next ((s.setRg64 (Reg.DPW_ADDR_LO core) ((a + 4) % 2 ^ 64)).answer core ((s.setRg64 (Reg.DPW_ADDR_LO core) ((a + 4) % 2 ^ 64)).readLE a 4)))
    ∧ (memRefused s a true = false → plainAt a 4 → a < s.rg64 Reg.FAB_PEER_LO ∨ s.rg64 Reg.FAB_PEER_LO + 8388608 ≤ a →
      ∃ t, exec (.dpwDataAccess core true v false) s = .next t ∧ StoredAt s t a (toLE 4 v)
        ∧ { t with mem := s.mem } = s.setRg64 (Reg.DPW_ADDR_LO core) ((a + 4) % 2 ^ 64))
    ∧ (∀ w, memRefused s a w = true →
      exec (.dpwDataAccess core w v false) s =
        .next (if w then s.setRg (Reg.DPW_STAT core) stMALFORMED else (s.setRg (Reg.DPW_STAT core) stMALFORMED).answer core 0))

/-- R45, R237: an access to fen asks its channel for a grant (in PIM mode it joins the channel's crown queue) and is held, and its core stalls; while the
channel's crown queue is full nothing is asked yet; once the channel has served it, it takes place at its own address and the core is free again, and
one that the port refuses by then records MALFORMED. The model's own readings and choices in it: assumptions 11, 12. -/
def Obligations.HeldAccessCompletesInTheMemWindow : Prop :=
  ∀ (core v a : Nat) (w bad : Bool) (s : State), core < 4 → v < 2 ^ 32 →
    (coreStalled s core = false → dpwAddr s core = a → memRefused s a w = false → inFen a = true →
      (crownFull s (addrStack a) (addrPc a) = false →
        exec (.dpwDataAccess core w v bad) s =
          .next { fenRequest s (addrStack a) (addrPc a) (b2n w) (128 + core) 4 with dpw := s.dpw ++ [⟨core, w, a, v, true⟩] })
      ∧ (crownFull s (addrStack a) (addrPc a) = true →
        exec (.dpwDataAccess core w v bad) s = .next { s with dpw := s.dpw ++ [⟨core, w, a, v, false⟩] }))
    ∧ (∀ h u, s.dpw.find? (·.core == core) = some h → u = { s with dpw := s.dpw.filter (·.core != core) } →
      (h.asked = true → fenPending s (addrStack h.addr) (addrPc h.addr) (128 + core) = false →
        (memRefused u h.addr h.write = false →
          exec (.dpwHeldComplete core bad) s = .next (dpwPerform u core h.addr h.value h.write bad))
        ∧ (memRefused u h.addr h.write = true → h.write = true →
          exec (.dpwHeldComplete core bad) s = .next (u.setRg (Reg.DPW_STAT core) stMALFORMED)))
      ∧ (h.asked = false ∨ fenPending s (addrStack h.addr) (addrPc h.addr) (128 + core) = true →
        exec (.dpwHeldComplete core bad) s = .next s))

/-- R47: on a completed session, with the port on and the header right, a request with a new seq runs at the session's level, with its seq recorded and no
response stored yet; one with the seq last accepted is answered with the stored response and does not run; an older seq, and a tag that does not
verify, only count a drop. -/
def Obligations.ManagementRequestsInSequenceRunOnce : Prop :=
  ∀ (h : MgtHead) (x : Sess) (l : Nat) (s : State), mgtOn s h.port = true → h.version = 1 → h.session ≠ 0 →
    s.mgt.sessions.find? (fun y => y.id == h.session && y.level.isSome) = some x → x.level = some l →
    (h.tagOk = true → x.seq ≤ h.seq → mgtTake s h = .run (setSess s { x with heard := s.time.up, seq := h.seq + 1, resp := none }) (some l))
    ∧ (∀ body rest bad, ∀ c ∈ [Instr.regRead h body, .regWrite h body, .burstRead h body rest bad, .burstWrite h body rest],
      (h.tagOk = true → x.seq = h.seq + 1 → exec c s = .next (resend (setSess s { x with heard := s.time.up }) x.resp))
      ∧ (h.tagOk = true → h.seq + 1 < x.seq → exec c s = .next ((setSess s { x with heard := s.time.up }).count (Reg.MGT_RX_DROP (h.port % 2))))
      ∧ (h.tagOk = false → exec c s = .next (s.count (Reg.MGT_RX_DROP (h.port % 2)))))

/-- R48 to R51: a request taken at a secured level, whose length and body are those of its opcode's formula and whose count is legal, runs its entries or
words in order up to the first that fails, and answers its opcode with bit 7 set, its session and seq, the status and the number done, with the words
read; a burst that comes to a word of fen waits there for its channel with what it has done so far, and answers when its last word is done; a length
that disagrees answers SIZE_MISMATCH, a count that is 0 or too high MALFORMED, and on the open session AUTH: then nothing executes. The model's own
readings and choices in it: assumption 85. -/
def Obligations.RegisterFramesRunInOrder : Prop :=
  (∀ (h : MgtHead) (s s1 : State) (l n : Nat) (body addr rest : List Nat), body = addr ++ rest → mgtTake s h = .run s1 (some l) → h.length = body.length →
    (n = beAt body 0 2 → 1 ≤ n → n ≤ 64 →
      (∀ s2 st vs, body.length = 4 + 4 * n → mgtReads s1 l (bodyAddrs body 4 n) = (s2, st, vs) →
        exec (.regRead h body) s = .next (mgtReply s2 h ⟨respOp h, h.session, h.seq, st, vs.length, vs, none⟩))
      ∧ (∀ s2 st k, body.length = 4 + 8 * n → mgtWrites s1 l 0 ((bodyAddrs body 8 n).zip (bodyWords body 8 8 n)) = (s2, st, k) →
        exec (.regWrite h body) s = .next (mgtReply s2 h ⟨respOp h, h.session, h.seq, st, k, [], none⟩)))
    ∧ (n = beAt body 8 2 → 1 ≤ n → n ≤ burstMax s →
      (∀ bad o, body.length = 12 → o = wordsRun (burstRefused l false) 4 false bad s1 (beAt body 0 8) [] 0 (List.replicate n 0) →
        (o.rest = none → exec (.burstRead h addr rest bad) s = .next (mgtReply { o.s with mgt := { o.s.mgt with burst := none } } h
          ⟨respOp h, h.session, h.seq, o.status, o.done, o.read.map (·.2), none⟩))
        ∧ (∀ a vs, o.rest = some (a, vs) → exec (.burstRead h addr rest bad) s =
          .next { o.s with mgt := { o.s.mgt with burst := some ⟨h, l, ⟨false, a, vs, o.read, o.done, bad⟩⟩ } }))
      ∧ (∀ o, body.length = 12 + 4 * n → o = wordsRun (burstRefused l true) 4 true none s1 (beAt body 0 8) [] 0 (bodyWords body 12 4 n) → o.rest = none →
        exec (.burstWrite h addr rest) s = .next (mgtReply { o.s with mgt := { o.s.mgt with burst := none } } h
          ⟨respOp h, h.session, h.seq, o.status, o.done, o.read.map (·.2), none⟩)))
    ∧ (body.length ≠ 4 + 4 * beAt body 0 2 →
      exec (.regRead h body) s = .next (mgtReply s1 h ⟨respOp h, h.session, h.seq, stSIZE_MISMATCH, 0, [], none⟩))
    ∧ (body.length = 12 + 4 * beAt body 8 2 → burstMax s < beAt body 8 2 →
      exec (.burstWrite h addr rest) s = .next (mgtReply s1 h ⟨respOp h, h.session, h.seq, stMALFORMED, 0, [], none⟩)))
  ∧ (∀ (h : MgtHead) (s s1 : State) (body rest : List Nat) (bad : Option Nat), mgtTake s h = .run s1 none →
    ∀ c ∈ [Instr.regRead h body, .regWrite h body, .burstRead h body rest bad, .burstWrite h body rest],
      exec c s = .next (mgtReply s1 h ⟨respOp h, h.session, h.seq, stAUTH, 0, [], none⟩))

/-- R475, R499: a GET_VERSION, GET_CAPABILITIES, NEGOTIATE_ALGORITHMS, GET_DIGESTS, GET_CERTIFICATE of slot 0, CHALLENGE, CHUNK_SEND, CHUNK_GET or
GET_MEASUREMENTS request that is taken answers its response; an unsupported request answers UnsupportedRequest. The model's own readings and choices
in it: assumptions 74, 86. -/
def Obligations.SpdmRequestsAreAnswered : Prop :=
  ∀ (h : MgtHead) (s s1 : State) (l : Option Nat), mgtTake s h = .run s1 l →
    exec (.getVersion h) s = .next (spdmReply s1 h .version)
    ∧ exec (.getCapabilities h) s = .next (spdmReply s1 h .capabilities)
    ∧ exec (.negotiateAlgorithms h) s = .next (spdmReply s1 h .algorithms)
    ∧ exec (.getDigests h) s = .next (spdmReply s1 h .digests)
    ∧ exec (.getCertificate h 0) s = .next (spdmReply s1 h .certificate)
    ∧ exec (.challenge h) s = .next (spdmReply s1 h .challengeAuth)
    ∧ exec (.chunkSend h) s = .next (spdmReply s1 h .chunkSendAck)
    ∧ exec (.chunkGet h) s = .next (spdmReply s1 h .chunkResponse)
    ∧ exec (.unsupportedSpdmRequest h) s = .next (spdmReply s1 h .unsupportedRequest)
    ∧ (∀ i v, measurement s1 i = some v → exec (.getMeasurements h i) s = .next (spdmReply s1 h (.measurements i v)))

/-- R475, R476: below 16 sessions, an authenticated KEY_EXCHANGE on the open session adds one session, not yet complete, whose responder half is unused
(the model's free choice, log 74); with 16 it answers SessionLimitExceeded. A verified FINISH gives the session the level of the requester's key.
END_SESSION in a session removes it; 600 s after its last verified frame it ends. The model's own readings and choices in it: assumptions 74, 86. -/
def Obligations.SecuredSessionsBeginAndEnd : Prop :=
  (∀ (h : MgtHead) (s s1 : State) (rq : Nat) (secret : List Nat), mgtTake s h = .run s1 none →
    (s1.mgt.sessions.length < 16 →
      exec (.keyExchange h rq true secret) s =
        .next (spdmReply { s1.draw with mgt := { s1.mgt with sessions := s1.mgt.sessions ++
          [⟨rq % 65536 * 65536 + rspPick s1, none, 0, none, s1.time.up, secret⟩] } } h (.keyExchangeRsp (rspPick s1))))
    ∧ (16 ≤ s1.mgt.sessions.length → exec (.keyExchange h rq true secret) s = .next (spdmReply s1 h .sessionLimitExceeded))
    ∧ exec (.keyExchange h rq false secret) s = .next (spdmReply s1 h .error))
  ∧ (∀ (h : MgtHead) (s s1 : State) (l : Option Nat) (id digest k : Nat) (x : Sess), mgtTake s h = .run s1 l →
    s1.mgt.sessions.find? (fun y => y.id == id && y.level.isNone) = some x → levelOf s1 digest = some k →
    exec (.finish h id true digest) s = .next (spdmReply (setSess s1 { x with level := some k, heard := s1.time.up }) h .finishRsp))
  ∧ (∀ (h : MgtHead) (s s1 : State) (k : Nat), mgtTake s h = .run s1 (some k) → ∃ t, exec (.endSession h) s = .next t
    ∧ (∀ y ∈ t.mgt.sessions, y.id ≠ h.session)
    ∧ { t with mgt := s1.mgt } = s1 ∧ t.mgt.opens = (spdmReply s1 h .endSessionAck).mgt.opens)
  ∧ (∀ (id : Nat) (s s1 : State) (x : Sess), s.mgt.sessions.find? (·.id == id) = some x → reachUp s (x.heard + 960000000000) = some s1 →
    exec (.sessionTimeout id) s = .next { s1 with mgt := { s1.mgt with sessions := s1.mgt.sessions.filter (·.id != id) } })

/-- R477, R478: at owner or supervisor level GET_REPORT asks for a signed report over its 32-byte nonce, GET_CHALLENGE answers the challenge and TOKEN
submits its bytes; IMPORT_JOB whose checks hold puts the unwrapped key into the lowest free job slot, and answers AUTH with KEY event 3 where the key
does not unwrap; DROP_JOB empties a slot that no connection names; on the open session every one of them answers AUTH. The model's own readings and
choices in it: assumptions 5, 35, 86. -/
def Obligations.VendorCommandsActAtTheirLevel : Prop :=
  (∀ (h : MgtHead) (s s1 : State) (l : Nat), mgtTake s h = .run s1 (some l) →
    (∀ nonce, nonce.length = 32 → exec (.getReport h nonce) s = .next (reportAsk s1 nonce (.session h.session)))
    ∧ exec (.getChallenge h) s = .next (spdmReply s1 h (.vendor (regBytes s1 Reg.ATT_CHAL 8)))
    ∧ (∀ token, exec (.token h token) s = .next (tokenSubmit s1 token (.session h.session)))
    ∧ (∀ part job i iv wrapped key, part < 64 → l = 0 ∨ l = 1 + part → importStatus s1 part job (some []) = stOK →
      (List.range 1024).find? (fun i => !(SMap.get s1.itp.jobs {} i).valid) = some i →
      key = jobUnwrap (((s1.mgt.sessions.find? (·.id == h.session)).map (·.secret)).getD []) part job iv wrapped →
      (∀ k, key = some k → exec (.importJob h part job iv wrapped) s =
        .next (spdmReply { s1 with itp := { s1.itp with jobs := SMap.set s1.itp.jobs {} i ⟨true, part, job % 2 ^ 32, k⟩ } } h
          (.vendor ([stOK, 0] ++ toLE 2 i))))
      ∧ (key = none → exec (.importJob h part job iv wrapped) s =
        .next (spdmReply (event s1 .key 0 3 { status := stAUTH, part := some part }) h (.vendor [stAUTH, 0, 0, 0]))))
    ∧ (∀ slot, (SMap.get s1.itp.jobs {} slot).valid = true → jobNamed s1 (SMap.get s1.itp.jobs {} slot) = false →
      l = 0 ∨ l = 1 + (SMap.get s1.itp.jobs {} slot).part →
      exec (.dropJob h slot) s =
        .next (spdmReply { s1 with itp := { s1.itp with jobs := SMap.set s1.itp.jobs {} slot {} } } h (.vendor [stOK]))))
  ∧ (∀ (h : MgtHead) (s s1 : State), mgtTake s h = .run s1 none → ∀ nonce part job slot iv wrapped token,
    exec (.getReport h nonce) s = .next (spdmReply s1 h (.vendor [stAUTH]))
    ∧ exec (.importJob h part job iv wrapped) s = .next (spdmReply s1 h (.vendor [stAUTH]))
    ∧ exec (.dropJob h slot) s = .next (spdmReply s1 h (.vendor [stAUTH]))
    ∧ exec (.getChallenge h) s = .next (spdmReply s1 h (.vendor [stAUTH]))
    ∧ exec (.token h token) s = .next (spdmReply s1 h (.vendor [stAUTH])))

/-- R59, R68, R533: while the tick counter runs and no new length waits, a boundary first passes the tick's seal point and the rest of the tick, in which
partitions' key slots may retire (R484), then opens the tick that follows, at cc 0, and carries out the actions of R533 there. The model's own
readings and choices in it: assumptions 16, 17. -/
def Obligations.BoundaryOpensTheNextTick : Prop :=
  ∀ (errs : List PlanErr) (s p : State), s.time.running = true → (sealPoint s).ccTo s.lcc = p → p.time.lenNext = none →
    exec (.tickBoundary errs) s = .next (boundaryActs { tallyFor p ((p.time.tick + 1) % 2 ^ 48) with
      time := { p.time with tick := (p.time.tick + 1) % 2 ^ 48, cc := 0, up := p.time.up + (p.lcc - p.time.cc) } } errs)

/-- R61, R62: with an accepted length waiting and the next boundary at a whole second, the tick that opens there is numbered by the new length, the length
is in force, and the boundary's actions complete the queued requests of the old numbering. `p` is the state at the old tick's end. The model's own
readings and choices in it: assumption 84. -/
def Obligations.NewTickLengthAppliesAtAWholeSecond : Prop :=
  ∀ (s p : State) (v n : Nat), s.time.running = true → s.tpl.sealed = true → s.time.lenNext = some v → v ≠ 0 →
    (s.time.tick + 1) * s.time.len5 % 200000000 = 0 → n = (s.time.tick + 1) * s.time.len5 / v % 2 ^ 48 → p = s.ccTo s.lcc →
    exec .tickLenApply s = .next (boundaryActs
      { tallyFor p n with
        time := { p.time with tick := n, cc := 0, len5 := v, lenNext := none, up := p.time.up + (s.lcc - p.time.cc) }
        tpl := { (tallyFor p n).tpl with renumber := true } } [])

/-- R528: with the TPL enabled and the counter not running, the counter starts at the next whole second of node time: the tick that opens there has the
number of that time divided by the tick length, and the boundary's actions run. -/
def Obligations.TickCounterStartsAtAWholeSecond : Prop :=
  ∀ (s : State) (sec wait : Nat), s.time.running = false → s.en .tpl 0 = true → sec = (s.nodeTime / 8000000000 + 1) * 8000000000 →
    wait = ceilDiv (sec - s.nodeTime) 5 →
    exec .tickCounterStart s = .next (boundaryActs { s.ccPass wait with
      time := { (s.ccPass wait).time with running := true, tick := sec / (5 * s.lcc) % 2 ^ 48, cc := 0 } } [])

/-- R60: a legal length lies from 25,000 to 10,000,000 ns, is a multiple of 5 ns and divides a second; in core cycles it is 1.6 times its ns, a multiple
of 8, and every whole second starts a tick. R61: with the block unlocked, a legal length written while the TPL is disabled stands in the register and,
before the counter runs, is in force at once; once it runs the length waits; a write while the TPL is enabled, or of an illegal length, only posts
len_refused. The length is bits [20:0] of the word; the bits above are read-only (R88). -/
def Obligations.TickLengthIsWrittenOnlyWhileDisabled : Prop :=
  ∀ (w v : Nat) (s : State), w < 2 ^ 32 → v = w % 2 ^ 21 → s.locked .tpl 0 = false →
    (s.en .tpl 0 = false → 25000 ≤ 5 * v → 5 * v ≤ 10000000 → 1000000000 % (5 * v) = 0 →
      exec (.tplTickLenWrite w) s = .next (if s.time.running
        then { s.setRg Reg.TPL_TICK_LEN v with time := { s.time with lenNext := some v } }
        else { s.setRg Reg.TPL_TICK_LEN v with time := { s.time with len5 := v, lenNext := none } }))
    ∧ (s.en .tpl 0 = true ∨ 5 * v < 25000 ∨ 10000000 < 5 * v ∨ 1000000000 % (5 * v) ≠ 0 →
      exec (.tplTickLenWrite w) s = .next (event0 s .tpl 0 4))
    ∧ (5 * s.lcc = 8 * (5 * s.time.len5) ∧ s.lcc % 8 = 0)
    ∧ (1000000000 % (5 * v) = 0 → ∀ sec, sec * 1000000000 % (5 * v) = 0)

/-- R91: when the plan window ends, cc 2,048 has come, the registers show the current tick and the pass's counts of admitted and late requests and the
tiles' booking lists are written; the page walks of chains count at the look-aside buffers, the plan is marked complete, and then forwarding, stopped
moves, fetches and the moves of the order in hand follow. -/
def Obligations.PlanWindowEndsWithTheCounts : Prop :=
  ∀ s : State, s.ok → s.time.running = true → s.tpl.planned = false →
    ∃ m, exec .planWindowEnd s = .next (movesGo (fetchesBegin (movesPlanStop (forwardAll
        { walkChains m with tpl := { (walkChains m).tpl with planned := true } }))))
      ∧ m.time = (s.ccTo 2048).time ∧ m.tpl = { s.tpl with draws := s.fresh } ∧ m.ctx = (s.ccTo 2048).ctx ∧ m.frm = s.frm
      ∧ m.rg Reg.TPL_TICK_LO = s.time.tick % 2 ^ 32 ∧ m.rg Reg.TPL_TICK_HI = s.time.tick / 2 ^ 32 % 2 ^ 16
      ∧ m.rg Reg.TPL_LAST_ADMIT = s.tpl.admitted % 2 ^ 21 ∧ m.rg Reg.TPL_LAST_LATE = s.tpl.lateCnt % 2 ^ 21

/-- R67, R205, R212: from 4,096 cc before the boundary the tally of the next tick is built once; a booked item of a completed plan starts at its booked cc
on a unit that can run it, unless all its requests have lost a transfer (R331); a walk of pages, its own item or a shared item's first, counts at the
look-aside buffers then and hands its list on; a running item ends its ledger cost later, and is then done; the last hand-off of an admitted request
settles it, and one that meets an uncorrectable error stops there. The model's own readings and choices in it: assumptions 12, 14, 109, 132. -/
def Obligations.BookedWorkRunsFromItsStartToItsLedgerCost : Prop :=
  (∀ (s : State), s.time.running = true → s.tpl.tallied = false →
    exec .shareTallyBuild s = .next { s.ccTo (s.lcc - 4096) with tpl := { s.tpl with
      tally := (tallyBuild (s.ccTo (s.lcc - 4096)) (nextTick (s.ccTo (s.lcc - 4096)).time).1.tick).1, tallied := true
      tallyOver := (tallyBuild (s.ccTo (s.lcc - 4096)) (nextTick (s.ccTo (s.lcc - 4096)).time).1.tick).2 } })
  ∧ (∀ (i : Nat) (it : Item) (s : State), s.tpl.items[i]? = some it → s.tpl.sealed = false → unitRuns s it.unit = true → itemLost s it = false →
    (it.st = .booked → s.tpl.planned = true →
        exec (.bookedItemStart i) s = .next (itemBegin (setItem (s.ccTo it.start) i .running) it i)
        ∧ (it.kind ≠ .walk → it.kind ≠ .shared → exec (.bookedItemStart i) s = .next (setItem (s.ccTo it.start) i .running)))
    ∧ (it.st = .running →
        exec (.bookedItemComplete i none) s = .next (itemEnd (setItem (s.ccTo (it.start + it.len)) i .done) it i)
        ∧ (∀ a, exec (.bookedItemComplete i (some a)) s = .next (itemBad (s.ccTo (it.start + it.len)) it a))
        ∧ (it.kind ≠ .handoff → it.kind ≠ .walk → (∀ l, it.kind ≠ .append l) →
            exec (.bookedItemComplete i none) s = .next (setItem (s.ccTo (it.start + it.len)) i .done))))
  ∧ (∀ (i : Nat) (it : Item) (s : State) (st : ISt), s.tpl.items[i]? = some it →
    (setItem s i st).tpl.items[i]? = some { it with st := st } ∧ (setItem s i st).tpl.items.length = s.tpl.items.length
    ∧ ∀ j, j ≠ i → (setItem s i st).tpl.items[j]? = s.tpl.items[j]?)

/-- R68, R121, R131: while the counter runs the seal point leaves the tick marked sealed with no booked item, no admitted request and no completion
waiting; a second seal point in the tick changes nothing. A queued request whose carry has closed completes with LATE (R75). The model's own readings
and choices in it: assumption 14. -/
def Obligations.SealPointEndsTheTicksWork : Prop :=
  (∀ s : State, s.time.running = true →
    (s.tpl.sealed = true → exec .sealPoint s = .next s)
    ∧ (s.tpl.sealed = false → ∃ m, exec .sealPoint s = .next (snapSeal m) ∧ m.tpl.sealed = true ∧ m.tpl.items = [] ∧ m.tpl.order = [] ∧ m.tpl.sealing = []
      ∧ (s.tpl.planned = true → s.tpl.order = [] → s.tpl.sealing = [] →
          m = { s.ccTo s.sealCC with tpl := { s.tpl with sealed := true, items := [] } })))
  ∧ (∀ (s : State) (slot : Nat), s.time.running = true → (queuedReqs s).contains slot = true → (s.reqAt slot).st = .queued →
    (s.reqAt slot).target + s.fld Reg.TPL_MAX_CARRY 7 0 < s.time.tick → exec (.carryRemoval slot) s = .next (dismiss s slot stLATE))

/-- R66: with v in TPL_SEAL and a tick of at least 8,192 cc, the seal distance is v where v is even and in range, v + 1 where v is odd and in range, 4,096
below the range and L − 4,096 above it; it is even and lies from 4,096 to L − 4,096 whatever the register holds. -/
def Obligations.SealDistanceIsEvenAndInRange : Prop :=
  ∀ (s : State) (v : Nat), v = s.fld Reg.TPL_SEAL 23 0 → 8192 ≤ s.lcc →
    (4096 ≤ v → v ≤ s.lcc - 4096 → v % 2 = 0 → s.sealS = v)
    ∧ (4096 ≤ v → v ≤ s.lcc - 4096 → v % 2 = 1 → s.sealS = v + 1)
    ∧ (v < 4096 → s.sealS = 4096) ∧ (s.lcc - 4096 < v → s.sealS = s.lcc - 4096)
    ∧ s.sealS % 2 = 0 ∧ 4096 ≤ s.sealS ∧ s.sealS ≤ s.lcc - 4096

/-- R39, R133, R136, R137: while the tick counter runs, each command of CTX_FORCE, FRM_GRANT and FRM_DEVRES only leaves its operands in the pending value
of its register; every stored word, and everything else, stays. The model's own readings and choices in it: assumption 82. -/
def Obligations.MaintenanceCommandsWaitForTheBoundary : Prop :=
  ∀ s : State, s.ok → SMap.rises s.rwt 0 = true → s.time.running = true →
    (∀ slot gen, slot < 2 ^ 18 → gen < 256 → ∀ c ∈ [(1, Instr.ctxForceClearStarved slot gen), (2, .ctxForceLost slot gen), (3, .ctxForceRelease slot gen)],
      ∃ t, exec c.2 s = .next t ∧ HeldIn s t ∧ bitsOf (t.pendWord Reg.CTX_FORCE) 17 0 = slot
        ∧ bitsOf (t.pendWord Reg.CTX_FORCE) 25 18 = gen ∧ bitsOf (t.pendWord Reg.CTX_FORCE) 27 26 = c.1)
    ∧ (∀ part tier count, part < 64 → tier < 2 → count < 2 ^ 24 →
      ∀ c ∈ [(0, Instr.frmGrantToPartition part tier count), (1, .frmGrantToPool part tier count)],
      ∃ t, exec c.2 s = .next t ∧ HeldIn s t ∧ bitsOf (t.pendWord Reg.FRM_GRANT) 5 0 = part
        ∧ bitsOf (t.pendWord Reg.FRM_GRANT) 6 6 = tier ∧ bitsOf (t.pendWord Reg.FRM_GRANT) 7 7 = c.1 ∧ bitsOf (t.pendWord Reg.FRM_GRANT) 31 8 = count)
    ∧ (∀ frame, frame < 2 ^ 25 → ∀ c ∈ [(0, Instr.frmDevresTake frame), (1, .frmDevresRelease frame)],
      ∃ t, exec c.2 s = .next t ∧ HeldIn s t ∧ bitsOf (t.pendWord Reg.FRM_DEVRES) 24 0 = frame
        ∧ bitsOf (t.pendWord Reg.FRM_DEVRES) 30 30 = c.1 ∧ bitsOf (t.pendWord Reg.FRM_DEVRES) 31 31 = 1)

/-- R134: PWK_LAB_INV with a slot leaves no look-aside entry of that slot and every other entry in its set; with all set it leaves none; nothing else
changes. -/
def Obligations.LookAsideEntriesAreDropped : Prop :=
  ∀ s : State,
    (∀ slot, slot < 2 ^ 18 → ∃ t, exec (.labInvalidateSlot slot) s = .next t
      ∧ (∀ k es, (k, es) ∈ t.ctx.lab → es ≠ [] ∧ (∀ e ∈ es, e.slot ≠ slot) ∧ ∃ old, (k, old) ∈ s.ctx.lab ∧ ∀ e, e ∈ es ↔ e ∈ old ∧ e.slot ≠ slot)
      ∧ (∀ k old e, (k, old) ∈ s.ctx.lab → e ∈ old → e.slot ≠ slot → ∃ es, (k, es) ∈ t.ctx.lab ∧ e ∈ es)
      ∧ { t with ctx := { t.ctx with lab := s.ctx.lab } } = s)
    ∧ exec .labInvalidateAll s = .next { s with ctx := { s.ctx with lab := [] } }

/-- R112, R122, R410: with FRM enabled, the copy of a lane's last page copies the page's used slots and marks the copy ended; a frame in SCRUB is zeroed
and joins its owner's free list (the device pool where its partition is being reset); a MIGRATE's pages are copied from staging into its frames. An
uncorrectable error is recorded instead, and a frame whose descriptor cannot be read is RETIRED. The model's own readings and choices in it:
assumptions 73, 143. -/
def Obligations.ServiceCopiesEnd : Prop :=
  ∀ s : State, s.en .frm 0 = true →
    (∀ slot lane w, s.ctx.cows.find? (fun w => w.slot == slot && w.lane == lane && !w.copied) = some w →
      exec (.cowCopyDone slot lane false) s =
        .next { copyPagePart s (s.ctxAt slot).geo w.src w.dst w.slots with ctx := { (copyPagePart s (s.ctxAt slot).geo w.src w.dst w.slots).ctx with
          cows := (copyPagePart s (s.ctxAt slot).geo w.src w.dst w.slots).ctx.cows.map fun x => if x = w then { x with copied := true } else x } }
      ∧ exec (.cowCopyDone slot lane true) s =
        .next (fault (memUncorr s (s.frAddr w.src) 0) .frm 0 0x21 none w.src (s.frAddr w.src % 2 ^ 32)))
    ∧ (∀ frame, (s.frame frame).st = .scrub →
      exec (.scrubDone frame false) s = .next (linkFree (zeroLoc s (s.loc frame)) frame
        (if (s.frame frame).owner < 64 ∧ resetting s (s.frame frame).owner then 64 else (s.frame frame).owner))
      ∧ exec (.scrubDone frame true) s = .next ((fault (s.count Reg.BST_INT_UNCORR) .frm 0 0x20 none frame 0).setFrame frame
          { st := .retired, owner := (s.frame frame).owner }))
    ∧ (∀ slot im, s.fab.imports.find? (fun i => i.req == slot && !i.copied) = some im → ∃ m, exec (.migrateCopyDone slot false) s =
        .next { m with fab := { m.fab with imports := m.fab.imports.map fun x => if x.req = slot then { x with copied := true } else x } }
      ∧ m = im.frames.zipIdx.foldl (fun u (fi : Nat × Nat) => (zeroLoc u (u.loc fi.1)).writeBytes (u.frAddr fi.1)
          (u.readBytes ((s.reqAt slot).payload + pageWireBytes (s.ctxAt (hSlot (s.reqAt slot).handle)).geo * fi.2)
            (pageWireBytes (s.ctxAt (hSlot (s.reqAt slot).handle)).geo))) s)

/-- R258, R259: the command whose op the ring's next order names takes that order and makes it the order in progress; the other two do nothing. An order
whose partition is not in reset and that passes its checks starts with the list of its pages; one that fails them ends with its status, and then no
order is in progress. With no order to take, all three do nothing. R261 to R263, R267, R271, R273: with FRM enabled, a move to peat or fen whose two
accesses no channel or port still holds up copies its 64 KiB frame, and its stage becomes 1; one to tier 2 or 3 then sends its page's bytes away; an
uncorrectable error in the copy is counted where the frame lies, faulted, and fails the move with CRC. A confirmed write moves its move from stage 2
to 3. A fetch whose read has arrived and whose frame's channel has served it zeroes its frame, writes the page there, and is ready when the page's
header checks; a read that failed ends the fetch with CRC. R267, R269, R279: a link of an enabled port that its bifurcation gives and whose enable bit
is set shows up, with its speed and width and a drive present, and raises event 3; a link that falls raises event 5, every drive command on it ends as
failed. An ended drive command leaves the list of those in flight, the corrections its link made are counted, a failed one is counted and raises event
4, and its owner goes on by its result. The model's own readings and choices in it: assumptions 36, 52, 54, 118, 119, 120. -/
def Obligations.MigratorAndDrivesMoveAndReport : Prop :=
  ((∀ (s : State) (o : Order), nextOrder s = some o →
    (o.op ≠ 2 → o.op ≠ 3 → exec .move s = .next (orderTake s o) ∧ exec .moveLane s = .next s ∧ exec .setHint s = .next s)
    ∧ (o.op = 2 → exec .moveLane s = .next (orderTake s o) ∧ exec .move s = .next s ∧ exec .setHint s = .next s)
    ∧ (o.op = 3 → exec .setHint s = .next (orderTake s o) ∧ exec .move s = .next s ∧ exec .moveLane s = .next s)
    ∧ (resetting s (hPart o.handle) = false → orderCheck s o = stOK →
        orderTake s o = movesGo { s with frm := { s.frm with order := some { o with todo := orderPages s (s.ctxAt (hSlot o.handle)) o } } })
    ∧ (resetting s (hPart o.handle) = false → orderCheck s o ≠ stOK →
        orderTake s o = orderEnd { s with frm := { s.frm with order := some o } } (orderCheck s o))
    ∧ (resetting s (hPart o.handle) = true → orderTake s o = orderEnd { s with frm := { s.frm with order := some o } } stPART_RESET))
  ∧ (∀ s : State, nextOrder s = none → exec .move s = .next s ∧ exec .moveLane s = .next s ∧ exec .setHint s = .next s)
  ∧ (∀ (s : State) (st : Nat), (orderEnd s st).frm.order = none))
  ∧ (∀ (s : State) (frame : Nat),
    (∀ m, s.frm.moves.find? (fun m => m.src == frame && m.stage == 0) = some m → s.en .frm 0 = true → copyWaits s m = false →
      (m.target ≤ 1 → ∀ u, u = memRelease (memRelease s (s.frAddr m.src) (1024 + frame)) (s.frAddr m.dst) (1024 + frame) →
        exec (.migrationCopyDone frame false) s = .next (moveStage (copyLoc u (u.loc frame) (u.loc m.dst)) frame 0 1))
      ∧ (2 ≤ m.target → exec (.migrationCopyDone frame false) s = .next (moveSend (memRelease s (s.frAddr m.src) (1024 + frame)) m))
      ∧ exec (.migrationCopyDone frame true) s =
        .next (moveFail (fault (memUncorr s (s.frAddr frame) 3) .frm 0 0x21 none frame (s.frAddr frame % 2 ^ 32)) m stCRC))
    ∧ exec (.offPackageConfirm frame) s = .next { s with frm := { s.frm with
        moves := s.frm.moves.map fun m => if m.src = frame ∧ m.stage = 2 then { m with stage := 3 } else m } }
    ∧ (∀ f bs, s.frm.fetches.find? (fun f => f.frame == frame && f.data.isSome && !f.ready) = some f → s.en .frm 0 = true → f.data = some bs →
        memWaiting s (s.frAddr frame) (1024 + frame) = 0 →
      (∀ v u, v = memRelease s (s.frAddr frame) (1024 + frame) → u = (zeroLoc v (v.loc frame)).writeBytes (v.frAddr frame) bs → pageCheck (frameReader u frame) (u.ctxAt f.slot).geo = 0 →
        exec (.fetchReadDone frame false) s = .next { u with frm := { u.frm with
          fetches := u.frm.fetches.map fun x => if x = f then { x with data := none, ready := true } else x } })
      ∧ exec (.fetchReadDone frame true) s = .next (fetchesBegin (fetchFail s f stCRC))))
  ∧ (∀ s : State,
    (∀ port link speed width, port < 2 → link < linkCount (SMap.get s.bifurc 0 port) → speed < 8 → width < 32 → s.up .pci port = true →
      s.bit (Reg.PCI_LINK_CTL port) (4 + link) = true →
      exec (.pciLinkUp port link speed width) s =
        .next (event0 (s.setRg (Reg.PCI_LINK_STAT port link) (1 + speed * 2 + width * 16 + 512)) .pci port 3))
    ∧ (∀ port link present, port < 2 → link < 4 → s.bit (Reg.PCI_LINK_STAT port link) 0 = true →
      exec (.pciLinkDown port link present) s = .next (linkDown s port link present)
      ∧ (s.drive = [] → linkDown s port link present =
          event0 (s.setRg (Reg.PCI_LINK_STAT port link) (if present then 512 else 0)) .pci port 5))
    ∧ (∀ i k data n u, s.drive[i]? = some k → (∀ x ∈ data, x < 256) → u = { s with drive := s.drive.eraseIdx i }.countBy (Reg.PCI_ERR_CORR k.port) n →
      exec (.driveCommandComplete i true ⟨data, n⟩) s = .next (driveEnd u k true data)
      ∧ exec (.driveCommandComplete i false ⟨data, n⟩) s =
        .next (driveEnd (event0 (u.count (Reg.PCI_ERR_UNCORR k.port)) .pci k.port 4) k false data)))

/-- R226, R232: SEG_OPEN makes a new open segment of the stack with its pseudo-channel, geometry and store. On a well-formed segment that has no row yet,
SIGMA, LIMIT and WINDOW set their fields once, and a second SIGMA marks the segment malformed; ROW adds a row to a segment that is ready and has no
page; DEST names where its results go; PAGE adds a page to a segment with rows and a destination; WAIT in a mesh-fed segment marks it malformed; MARK
sets the tag, and WAIT and MARK then need a PAGE after them. Nothing but that stack's segment unit changes, and without an open segment these commands
change nothing but MARK's tag. R231, R234: a closed segment runs from this sc when its DBR is on, its channel computes, its form is legal and it fits
the window; a segment that no window of its channel holds is counted as refused, raises event 3, and a mesh-fed one with a destination fails its
request as MALFORMED. R228, R230, R247, R248: a segment completes its length after its start: the exits of its pages not yet handed on join its
channel's, where they wait for their mesh slots, it no longer runs, it is counted, and so are the corrections its DIBBERs made. The model's own
readings and choices in it: assumptions 53, 88, 103. -/
def Obligations.SegmentsFillRunAndComplete : Prop :=
  (∀ (n : Nat) (s : State), n < 8 →
    (∀ pc code d32 kl t32 store, pc < 32 → code < 8 → d32 < 32 → kl < 4 → t32 < 32 → store < 2 → exec (.segOpen n pc code d32 kl t32 store) s =
      .next (s.setDbr n { s.dbr n with open_ := some { pc := pc, code := code, d32 := d32, kvh := 2 ^ kl, t := 32 * t32, store := store, bad := (s.dbr n).open_.isSome } }))
    ∧ (∀ (g : Seg) (put : Seg → State), (s.dbr n).open_ = some g → (∀ x, put x = s.setDbr n { s.dbr n with open_ := some x }) →
      (g.rows = [] →
        (∀ v, g.sigma = none → exec (.sigma n v) s = .next (put { g with sigma := some (BitVec.ofNat 32 v) }))
        ∧ (∀ v, g.sigma ≠ none → exec (.sigma n v) s = .next (put { g with bad := true }))
        ∧ (∀ l, l < 2 ^ 25 → g.limit = none → exec (.limit n l) s = .next (put { g with limit := some l }))
        ∧ (∀ w p, w < 2 ^ 25 → p < 2 ^ 25 → g.win = none → exec (.window n w p) s = .next (put { g with win := some (w, p) })))
      ∧ (∀ slot head pos, slot < 64 → head < 8 → pos < 2 ^ 24 → g.ready = true → g.pages = [] →
        exec (.row n slot head pos) s = .next (put { g with rows := g.rows ++ [⟨slot, head, pos, []⟩] }))
      ∧ (∀ tile slot, tile < 128 → slot < 2 ^ 20 → g.raw = false → g.pages = [] →
        exec (.dest n tile slot) s = .next (put { g with dest := some (tile, slot) }))
      ∧ (∀ rowSet m base bound, rowSet < 65536 → m < 1024 → base < 2 ^ 24 → g.rows ≠ [] → g.dest.isSome = true →
        exec (.segmentPage n rowSet m base bound) s =
          .next (put { g with pages := g.pages ++ [⟨rowSet, m, base, bound, g.wait, (s.dbr n).tag⟩], wait := 0, hang := false }))
      ∧ (∀ sc, g.raw = false → exec (.wait n sc) s = .next (put { g with bad := true }))
      ∧ (∀ sc, sc < 65536 → g.raw = true → g.rows ≠ [] → exec (.wait n sc) s = .next (put { g with wait := g.wait + sc, hang := true }))
      ∧ (∀ tag, tag < 2 ^ 32 → exec (.mark n tag) s = .next (s.setDbr n { s.dbr n with tag := tag, open_ := some (if g.rows = [] then { g with bad := true } else { g with hang := true }) })))
    ∧ ((s.dbr n).open_ = none → ∀ a b c d, exec (.sigma n a) s = .next s ∧ exec (.limit n a) s = .next s ∧ exec (.window n a b) s = .next s
      ∧ exec (.row n a b c) s = .next s ∧ exec (.segmentPage n a b c d) s = .next s ∧ exec (.wait n a) s = .next s ∧ exec (.dest n a b) s = .next s))
  ∧ (∀ (n : Nat) (s : State), n < 8 →
    (∀ g w, (s.dbr n).open_ = some g → (winsOf s.tpl n g.pc).find? (fun w => decide (w.lo ≤ ceilDiv s.time.cc 2) && decide (ceilDiv s.time.cc 2 < w.hi)) = some w →
      s.up .dbr n = true → chanPim s n g.pc = true → segForm g = true →
      segFits s n g (ceilDiv s.time.cc 2) w.lo w.hi ((s.dbr n).runs ++ (s.dbr n).raw.getD []) = true →
      ∃ u, u = s.setDbr n { s.dbr n with open_ := none }
        ∧ exec (.segClose n) s = .next (u.setDbr n { s.dbr n with open_ := none, runs := (s.dbr n).runs ++ [⟨g, ceilDiv s.time.cc 2, 0⟩] }))
    ∧ (∀ g, (s.dbr n).open_ = some g → winsOf s.tpl n g.pc = [] → ∀ u, u = event0 ((s.setDbr n { s.dbr n with open_ := none }).count (Reg.DBR_REFUSED n)) .dbr n 3 →
      ((g.raw = true ∨ g.dest = none) → exec (.segClose n) s = .next u)
      ∧ (∀ tile slot, g.raw = false → g.dest = some (tile, slot) → exec (.segClose n) s =
          .next (failRequest (fault u .dbr n 0x30 none (mkReqId (s.reqAt slot).gen slot) g.pc) slot stMALFORMED)))
    ∧ (∀ p r c fin u, p < 32 → s.clocksStopped = false → (s.dbr n).runs.find? (fun r => r.seg.pc == p) = some r →
      fin = 2 * (r.start + segLength r.seg) → s.time.cc ≤ fin → u = segDrain (s.ccTo fin) n r →
      exec (.segmentComplete n p ⟨none, c⟩) s =
        .next (fenCorr ((u.setDbr n { u.dbr n with runs := (u.dbr n).runs.filter (·.seg.pc != p) }).count (Reg.DBR_SEGS n)) n 0 c))
    ∧ (∀ r k tile slot, r.seg.dest = some (tile, slot) → k = max r.out (segReady r s.time.cc) → k ≠ r.out → ∀ recs,
      recs = ((r.seg.pages.take k).drop r.out).map (fun p => (tile, slot, p.rowSet, exitBytes p (r.seg.rows.map (exitOf s n r.seg p)))) →
      segDrain s n r = s.setDbr n { s.dbr n with runs := (s.dbr n).runs.map fun x => if x == r then { x with out := k } else x
                                                 exits := SMap.set (s.dbr n).exits [] r.seg.pc (SMap.get (s.dbr n).exits [] r.seg.pc ++ recs) }))

/-- R2, R242 to R245, R247: a grant starts at an sc's edge (`u` is the state there). With the stack on, no grant in progress, no booked interval, no
interrupted transfer and nothing for the debug port, the grant goes to a transfer that was waiting and is eligible; it leaves the waiting list, it
starts now, the pointer moves past its requester, and the oldest data-port access that found the crown queue full may then ask; where none is eligible
nothing changes. An interrupted transfer is resumed before any other, with the time it has left. The debug port takes the channel from any requester
but refresh, unless it is fenced off or a segment runs. In a booked interval the booked requester has the channel to the interval's end, if the
channel's mode serves it and it is not fenced off. The corrections that a transfer meets are counted. -/
def Obligations.ArbiterGrantsAWaitingTransferThatFits : Prop :=
  ∀ (n p i j : Nat) (s u : State), n < 8 → p < 32 → s.up .fen n = true → u = s.scEdge 0 →
    ((s.chan n p).grant = none → debugTakes u n p = none →
      ((s.chan n p).resumed = none → bookedAt u n p u.time.cc = none →
        (∀ w, arbWinner (s.chan n p) ((s.chan n p).waiting.filter (eligible u n p u.time.cc)) = some w →
          w ∈ (s.chan n p).waiting ∧ eligible u n p u.time.cc w = true
          ∧ ∃ c, exec (.arbiterGrant ⟨n, p⟩ ⟨i, j⟩) s = .next (fenCorr (dpwEnter (u.setChan n p c) n p) n i j) ∧ c.waiting = (s.chan n p).waiting.erase w
            ∧ c.grant = some ⟨w.idx, u.time.up, w.hold, false⟩ ∧ c.ptr = (w.idx + 1) % 6 ∧ c.crownQ = (s.chan n p).crownQ ∧ c.resumed = none)
        ∧ ((∀ w ∈ (s.chan n p).waiting, eligible u n p u.time.cc w = false) → exec (.arbiterGrant ⟨n, p⟩ ⟨i, j⟩) s = .next s))
      ∧ (∀ g, (s.chan n p).resumed = some g → ∃ c, exec (.arbiterGrant ⟨n, p⟩ ⟨i, j⟩) s = .next (u.setChan n p c)
          ∧ c.grant = some { g with start := u.time.up } ∧ c.resumed = none ∧ c.waiting = (s.chan n p).waiting))
    ∧ (∀ w, debugTakes u n p = some w → ∃ c, exec (.arbiterGrant ⟨n, p⟩ ⟨i, j⟩) s = .next (fenCorr (u.setChan n p c) n i j)
        ∧ c.waiting = (s.chan n p).waiting.erase w ∧ c.grant = some ⟨5, u.time.up, w.hold, false⟩
        ∧ ((s.chan n p).grant = none → c.resumed = (s.chan n p).resumed)
        ∧ (∀ g, (s.chan n p).grant = some g → g.idx ≠ 2 → g.over u.time.up = false →
            c.resumed = some { g with hold := g.hold - (u.time.up - g.start) / 2 }))
    ∧ (∀ idx fin, bookedAt u n p u.time.cc = some (idx, fin) → modeTakes s n p idx = true →
        (s.bit (Reg.FEN_CHSTAT n p) idx = false → exec (.bookedIntervalGrant ⟨n, p⟩ ⟨i, j⟩) s =
          .next (fenCorr (u.setChan n p { s.chan n p with grant := some ⟨idx, u.time.up, (fin - u.time.cc) / 2, true⟩ }) n i j))
        ∧ (s.bit (Reg.FEN_CHSTAT n p) idx = true → exec (.bookedIntervalGrant ⟨n, p⟩ ⟨i, j⟩) s = .next s))
    ∧ (bookedAt u n p u.time.cc = none → exec (.bookedIntervalGrant ⟨n, p⟩ ⟨i, j⟩) s = .next s)
    ∧ (s.time.running = true → s.time.cc % 2 = 0 → u = s)
    ∧ fenCorr u n 0 0 = u

/-- R237, R248: outside compute mode a channel of an enabled stack moves the oldest access of its crown queue to the waiting transfers. R240, R244: a
refresh slot holds the channel for 328 sc from the slot's start, and a transfer it interrupts keeps the time it had left, an in-DRAM window's less the
refresh. R241: the hot flag stands in FEN_CHSTAT and FEN_CH_TEMP. R245: a grant held 65,536 cc or more, not by refresh, is ended by the watchdog,
which fences that requester, counts, faults and raises event 4; a younger one is left. R252: a fence clear clears the fence bits that are given, and
no other bit. R235, R236: a channel on an enabled stack that no running segment and no unfinished grant holds enters compute mode at the start of its
next window, leaves it at a window's end, no later than that, and stays as it is without a window to enter; while a segment runs on it, or where the
stack is off, nothing changes. R526: a stack whose training succeeds no longer trains; where it fails the stack is disabled, its frames are retired
and SYS_BOOT shows CRC. The model's own readings and choices in it: assumptions 12, 88. -/
def Obligations.ChannelsServeRefreshFenceAndChangeMode : Prop :=
  (∀ (n p : Nat) (s : State), n < 8 → p < 32 →
    (∀ x r, (s.chan n p).crownQ = x :: r → chanPim s n p = false → s.up .fen n = true → exec (.crownQueueServe n p false 0) s =
      .next ((s.setChan n p { s.chan n p with crownQ := r, waiting := (s.chan n p).waiting ++ [⟨x.q, x.src, x.raised, x.hold⟩] }).setFld
        (Reg.FEN_CHSTAT n p) 22 16 (min 64 r.length)))
    ∧ (∀ group, group < 4 → s.en .fen n = true → s.clocksStopped = false → exec (.refreshSlot n group) s = .next (((List.range 8).map (8 * group + ·)).foldl (refreshChan n)
        (s.ccTo (2 * nextRefresh s n (8 * group) (ceilDiv s.time.cc 2)))))
    ∧ ((s.chan n p).grant = none →
        refreshChan n s p = s.setChan n p { s.chan n p with grant := some ⟨4, s.time.up, 328, true⟩, resumed := (s.chan n p).resumed })
    ∧ (∀ g, (s.chan n p).grant = some g → g.idx ≠ 4 → g.idx ≠ 2 → g.over s.time.up = false → refreshChan n s p = s.setChan n p { s.chan n p with
        grant := some ⟨4, s.time.up, 328, true⟩, resumed := some { g with hold := g.hold - (s.time.up - g.start) / 2 } })
    ∧ (∀ g, (s.chan n p).grant = some g → g.idx = 2 → g.over s.time.up = false → 328 < g.hold - (s.time.up - g.start) / 2 →
        refreshChan n s p = s.setChan n p { s.chan n p with
          grant := some ⟨4, s.time.up, 328, true⟩, resumed := some { g with hold := g.hold - (s.time.up - g.start) / 2 - 328 } })
    ∧ (∀ hot, exec (.tempFlagChange n p hot) s =
        .next ((s.setFld (Reg.FEN_CHSTAT n p) 7 7 (b2n hot)).setFld (Reg.FEN_CH_TEMP n) p p (b2n hot)))
    ∧ (∀ g, (s.chan n p).grant = some g → g.idx ≠ 4 →
      (g.start + 65536 ≤ s.time.up → exec (.fenWatchdogBite n p) s =
        .next (event0 (fault (((s.setChan n p { s.chan n p with grant := none }).setFld (Reg.FEN_CHSTAT n p) g.idx g.idx 1).count (Reg.FEN_WD_BITES n))
          .fen n 0x28 none (p + g.idx * 256) s.time.cc) .fen n 4))
      ∧ (s.time.up < g.start + 65536 → exec (.fenWatchdogBite n p) s = .next s))
    ∧ (∀ bits, bits < 64 → exec (.fenceClear n p bits) s =
        .next (s.setFld (Reg.FEN_CHSTAT n p) 5 0 (Nat.land (s.fld (Reg.FEN_CHSTAT n p) 5 0) (63 - bits)))))
  ∧ (∀ (n p : Nat) (s : State), n < 8 → p < 32 →
    (segRunning s n p = false → (s.chan n p).grant = none → s.up .fen n = true →
      (∀ w, chanPim s n p = false → nextWin s n p = some w →
        exec (.channelModeChange n p) s = .next (setPim (s.ccTo (2 * w.lo)) n p true))
      ∧ (chanPim s n p = false → winsOf s.tpl n p = [] → exec (.channelModeChange n p) s = .next s)
      ∧ (∀ w, chanPim s n p = true → (winsOf s.tpl n p).find? (fun w => decide (2 * w.lo ≤ s.time.cc) && decide (s.time.cc ≤ 2 * w.hi)) = some w →
        exec (.channelModeChange n p) s = .next (setPim (s.ccTo (2 * w.hi)) n p false)))
    ∧ (segRunning s n p = true ∨ s.up .fen n = false → exec (.channelModeChange n p) s = .next s)
    ∧ (s.training.contains n = true →
      exec (.fenTrainingDone n true) s = .next { s with training := s.training.filter (· != n) }
      ∧ exec (.fenTrainingDone n false) s = .next ((stackRetire ({ s with training := s.training.filter (· != n) }.setFld (Reg.BLK_CTL .fen n) 0 0 0) n).setFld
          Reg.SYS_BOOT 15 8 stCRC)))

/-- R253: while the counter runs, arming writes the program's length at once, shows the stack's last program as not done, and holds the arm bit for the
boundary. R249, R250: an armed program whose channel computes and whose DBR is on starts where its raw window starts, or as soon after as it can, when
its words lie in crown SRAM, spell legal segments of the window's channel that fit it, and its output region holds the results; a program of no words
ends as MALFORMED, counted, with event 3. A running program ends with its last segment: its records stand at the output address (outside code and
booking regions, R321), its segments and the corrections of its DIBBERs are counted, and it ends OK. The model's own readings and choices in it:
assumptions 8, 55, 96, 103, 104, 105. -/
def Obligations.RawProgramsArmRunAndEnd : Prop :=
  ∀ (n : Nat) (s : State), n < 8 →
    (s.ok → SMap.rises s.rwt 0 = true → s.time.running = true → ∀ words, words < 4096 → ∃ t, exec (.dbrRawArm n words) s = .next t
      ∧ t.fld (Reg.DBR_RAW_CTL n) 11 0 = words ∧ t.bit (Reg.DBR_RAW_CTL n) 16 = s.bit (Reg.DBR_RAW_CTL n) 16
      ∧ bitOf (t.pendWord (Reg.DBR_RAW_CTL n)) 16 = true ∧ t.bit (Reg.DBR_RAW_STAT n) 20 = false)
    ∧ (∀ w, s.tpl.pims.find? (fun w => w.raw && w.stack == n) = some w → s.bit (Reg.DBR_RAW_CTL n) 16 = true → (s.dbr n).raw = none → s.time.cc < 2 * w.hi → chanPim s n w.pc = true → s.up .dbr n = true →
      (∀ words base out x runs, words = s.fld (Reg.DBR_RAW_CTL n) 11 0 → base = s.rg64 (Reg.DBR_RAW_PROG_LO n) → out = s.rg64 (Reg.DBR_RAW_OUT_LO n) →
        x = rawParse s n words words 0 {} → rawPlace s n w.lo w.hi x.segs (max w.lo (ceilDiv (s.ccTo (2 * w.lo)).time.cc 2)) [] = (runs, true) →
        1 ≤ words → base % 8 = 0 → inSram base = true → base + 8 * words ≤ crownEnd → x.bad = false → x.cur = none → (∀ g ∈ x.segs, g.pc = w.pc) →
        out % 32 = 0 → inSram out = true → out + runs.foldl (fun a r => a + rawBytes r.seg) 0 ≤ crownEnd →
        exec (.rawProgramStart n) s = .next ((s.ccTo (2 * w.lo)).setDbr n { s.dbr n with raw := some runs, rawDone := x.done }))
      ∧ (s.fld (Reg.DBR_RAW_CTL n) 11 0 = 0 → exec (.rawProgramStart n) s =
        .next (rawEnd (event0 ((s.ccTo (2 * w.lo)).count (Reg.DBR_REFUSED n)) .dbr n 3) n stMALFORMED 0)))
    ∧ (∀ runs addr c, (s.dbr n).raw = some runs → s.clocksStopped = false →
      ∃ u recs, exec (.rawProgramDone n [] ⟨addr, c⟩) s = .next (rawEnd (u.countBy (Reg.DBR_SEGS n) runs.length) n stOK (s.dbr n).rawDone)
      ∧ u = (fenCorr (s.ccTo (2 * runs.foldl (fun a r => max a (r.start + segLength r.seg)) 0)) n 0 c).putBytes (s.rg64 (Reg.DBR_RAW_OUT_LO n)) recs
      ∧ recs = (runs.flatMap fun r => segExits s n r.seg).zipIdx.flatMap fun x => x.1.2.flatMap (rawRecord s x.1.1 false))
    ∧ (SMap.rises s.dbrs 0 = true → ∀ status done, (rawEnd s n status done).dbr n = { s.dbr n with raw := none, rawDone := 0 })

/-- R289: a start of an idle or halted channel of an engine that is on makes it fetch the descriptor at its head; a start of a channel under way counts
only if the channel comes to rest in the same core cycle (the model notes when it was written, log 56), and nothing starts while the engine is off.
R284, R289: a fetched descriptor outside 64-byte alignment or crown SRAM and peat halts the channel as MALFORMED, an uncorrectable one as CRC; one
that fails its checks is written back with its status; a good one runs. R291: an abort of a fetching channel is remembered, an abort of a resting one
does nothing. R292: a write of the partition block stops each running channel that it names, and nothing else where none runs. R293, R296: in a
running channel the unread burst of a slot, once its memory has served it, takes its bytes, or ends the descriptor with CRC where the read was
uncorrectable; the burst of a slot with its bytes, once served, stores them at its destination (outside code and booking regions, R321) and ends.
R287: the oldest record of a feed goes to the running descriptor of that feed, is dropped where none takes it, and is counted as dropped with event 5
where two bursts already wait; without a record nothing changes. The model's own readings and choices in it: assumptions 56, 142. -/
def Obligations.TrowelChannelsRunTheirDescriptors : Prop :=
  (∀ (e c : Nat) (s : State) (t : TrwCh), e < 4 → c < 8 → t = s.trwCh e c →
    (s.up .trw e = true → (t.st = .idle ∨ t.st = .halted) →
      exec (.trwStart e c) s = .next (trwPut s e c { st := .fetch, addr := s.rg64 (Reg.TRW_CH_HEAD_LO e c), d := t.d }))
    ∧ (s.up .trw e = true → (t.st = .fetch ∨ t.st = .run) → exec (.trwStart e c) s = .next (s.setTrwCh e c { t with startAt := s.time.up + 1 }))
    ∧ (s.up .trw e = false → exec (.trwStart e c) s = .next s)
    ∧ (t.st = .fetch →
      (t.addr % 64 ≠ 0 ∨ inSram t.addr = false → ∀ bad, exec (.descriptorFetch e c bad) s =
        .next (trwHalt (s.setFld (Reg.TRW_CH_STAT e c) 15 8 stMALFORMED) e c stMALFORMED))
      ∧ (t.addr % 64 = 0 → inSram t.addr = true →
        exec (.descriptorFetch e c true) s = .next (trwHalt ((uncorr s t.addr).setFld (Reg.TRW_CH_STAT e c) 15 8 stCRC) e c stCRC)
        ∧ (∀ d, d = descAt s t.addr →
          (descCheck s e d ≠ stOK → exec (.descriptorFetch e c false) s = .next (trwWriteBack (trwPut s e c { t with d := d }) e c (descCheck s e d)))
          ∧ (descCheck s e d = stOK → t.abort = true → exec (.descriptorFetch e c false) s = .next (trwWriteBack (trwPut s e c { t with d := d }) e c stCANCELLED))
          ∧ (descCheck s e d = stOK → t.abort = false → exec (.descriptorFetch e c false) s =
              .next (trwSettle (trwIssue (trwPut (trwPut s e c { t with d := d }) e c { t with d := d, st := .run }) e c 2) e c))))
      ∧ exec (.trwAbort e c) s = .next (s.setTrwCh e c { t with abort := true }))
    ∧ ((t.st = .idle ∨ t.st = .halted) → exec (.trwAbort e c) s = .next s ∧ ∀ bad, exec (.descriptorFetch e c bad) s = .next s)
    ∧ (t.st = .run → exec (.trwAbort e c) s = .next (trwStop s e c stCANCELLED))
    ∧ (∀ parts, (∀ k, (s.trwCh e k).st ≠ .run) → exec (.trwPblockWrite e parts) s = .next (s.setRg64 (Reg.TRW_PBLOCK_LO e) parts))
    ∧ (∀ parts, exec (.trwPblockWrite e parts) s = .next (trwBlock (s.setRg64 (Reg.TRW_PBLOCK_LO e) parts) e)))
  ∧ ((∀ (e c k : Nat) (s : State) (t : TrwCh) (b : Burst), e < 4 → c < 8 → t = s.trwCh e c → t.st = .run →
    (∀ a, a = t.d.srcAt b.off → t.bursts.find? (fun b => b.slot == k && b.data.isNone) = some b → inNvme a = false →
      memWaiting s a (readSrc e c k) = 0 →
      exec (.trwBurstReadDone e ⟨c, k⟩ false) s =
        .next (trwShow (burstArrive (memRelease s a (readSrc e c k)) e c b.off ((memRelease s a (readSrc e c k)).readBytes a b.len)) e c)
      ∧ exec (.trwBurstReadDone e ⟨c, k⟩ true) s =
        .next (burstEnd (fault (memUncorr (memRelease s a (readSrc e c k)) a 3) .trw e 0x38 none (t.addr % 2 ^ 32) c) e c b.off (some stCRC)))
    ∧ (∀ a bs, a = t.d.dstAt b.off → t.bursts.find? (fun b => b.slot == k && b.data.isSome) = some b → b.data = some bs → inNvme a = false →
      memWaiting s a (writeSrc e c k) = 0 →
      exec (.trwBurstWriteDone e ⟨c, k⟩) s =
        .next (burstEnd (pathsWritten (memRelease s a (writeSrc e c k))
          (bs.zipIdx.foldl (fun u x => u.putByte (t.d.dstAt (b.off + x.2)) x.1) (memRelease s a (writeSrc e c k))) a bs.length) e c b.off none)))
  ∧ (∀ (r : Nat) (s : State), r < 8 →
    (SMap.get s.feeds [] r = [] → exec (.feedRecord r) s = .next s)
    ∧ (∀ rec rest u, SMap.get s.feeds [] r = rec :: rest → u = { s with feeds := SMap.set s.feeds [] r rest } →
      (feedChannel u (r + 1) = none → exec (.feedRecord r) s = .next u)
      ∧ (∀ e c t, e < 4 → c < 8 → feedChannel u (r + 1) = some (8 * e + c) → t = u.trwCh e c → trwAllIssued t = false →
        (2 ≤ t.bursts.length → exec (.feedRecord r) s = .next (event0 (u.count (Reg.TRW_FEEDDROP e)) .trw e 5))
        ∧ (∀ n, t.bursts.length < 2 → n = (if t.d.len = 0 then 16 else min 16 (t.d.len - t.issued)) → exec (.feedRecord r) s =
          .next (burstArrive (u.setTrwCh e c { t with issued := t.issued + n, bursts := t.bursts ++ [⟨t.issued, n, none, t.freeSlot⟩] }) e c t.issued (rec.take n)))))))

/-- R305, R307: on a port that is not busy, a lookup is counted, makes the port busy and finds the entry its key reaches; an INSERT or a DELETE makes the
port busy and joins the queue of table changes, behind every one issued before it, and begins at once where it is in front; on a busy port each only
writes the port's operand register. R305, R306: a lookup's result is ready 24 cc after its compare: one that found nothing answers no hit, one that
found an entry answers the entry's fields. R307, R312: the table change in front, whose checks were made when it began, ends its time after that and
leaves the queue, and the next one begins; before that time neither does anything. R309: the DELETE of an entry that is not there changes no entry.
The model's own readings and choices in it: assumptions 50, 121, 122, 136. -/
def Obligations.RiddleTakesOneCommandPerPort : Prop :=
  ∀ s : State,
    (∀ c len shared part, c < 4 → len < 128 → shared < 2 → part < 64 → ∀ u, u = s.setRg (Reg.RDL_OP c) (len + shared * 128 + part * 256) →
      (rdlBusy s c = true → exec (.rdlLookup c len shared part none) s = .next u ∧ exec (.rdlInsert c len shared part) s = .next u
        ∧ exec (.rdlDelete c len shared part) s = .next u)
      ∧ (rdlBusy s c = false →
        (∀ v, v = (u.count Reg.RDL_LOOKUPS).setFld (Reg.RDL_RES c) 8 8 1 → exec (.rdlLookup c len shared part none) s =
          .next { v with rdl := { v.rdl with looks := v.rdl.looks ++ [⟨c, rdlFind v (rdlKey v c) part, none, s.time.up⟩] } })
        ∧ (∀ ins k v w, v = u.setFld (Reg.RDL_RES c) 8 8 1 → k = (⟨c, ins, part, rdlKey s c, len, shared == 1, s.rg (Reg.RDL_HANDLE c),
            s.fld (Reg.RDL_N c) 24 0, s.rg (Reg.RDL_CHECK c), s.time.up⟩ : RdlCmd) → w = { v with rdl := { v.rdl with cmds := rdlQueue k v.rdl.cmds } } →
          exec (if ins then .rdlInsert c len shared part else .rdlDelete c len shared part) s =
            .next (if (rdlQueue k v.rdl.cmds).head? = some k then rdlBegin w s.time.up else w))))
    ∧ (∀ (k : RdlCmd) (q : List RdlCmd), (∀ x ∈ q, x.issued ≠ k.issued) → rdlQueue k q = q ++ [k])
    ∧ (∀ p l, s.rdl.looks.find? (·.port == p) = some l → l.clone = none →
      (∀ u, reachUp s (l.issued + 24) = some u →
        exec (.rdlLookupResult p) s = .next (rdlLookEnd { u with rdl := { u.rdl with looks := u.rdl.looks.erase l } } l))
      ∧ (reachUp s (l.issued + 24) = none → exec (.rdlLookupResult p) s = .next s)
      ∧ (l.found = none → ∀ u, rdlLookEnd u l = rdlResult u l.port stOK false false 0))
    ∧ (∀ k r p fin, s.rdl.cmds = k :: r → s.rdl.plan = some p → fin = s.rdl.start + rdlTime k p →
      (∀ u v, reachUp s fin = some u → v = { u with rdl := { u.rdl with cmds := r, plan := none } } →
        exec .rdlCommandDone s = .next (rdlBegin (if k.insert then rdlInsertEnd v k p else rdlDeleteEnd v k p) fin))
      ∧ (reachUp s fin = none → exec .rdlCommandDone s = .next s))
    ∧ (s.rdl.cmds = [] → exec .rdlCommandDone s = .next s)
    ∧ (∀ k p, p.found = false → (rdlDeleteEnd s k p).rdl.ents = s.rdl.ents)

/-- R342, R344: a tile that issues ADD, SUB, AND, OR, XOR, SHL, SHR, MUL, ADDI or LI writes the result, modulo 2^64, to the register its word names and
its pc moves by 4; no other register, tile or state changes. A read of a register after it gives the result; a write to register 0 is discarded and it
reads 0. -/
def Obligations.ScalarInstructionsWriteTheirResult : Prop :=
  (∀ (n w : Nat) (s : State) (x : Tile), IssuesAt s n w → x = s.tile n →
    ∀ (op : Nat × Instr × Nat), op ∈ [(0x01, Instr.add n, x.gr (fA w) + x.gr (fB w)), (0x02, .sub n, x.gr (fA w) + 2 ^ 64 - x.gr (fB w)),
        (0x03, .and n, Nat.land (x.gr (fA w)) (x.gr (fB w))), (0x04, .or n, Nat.lor (x.gr (fA w)) (x.gr (fB w))),
        (0x05, .xor n, Nat.xor (x.gr (fA w)) (x.gr (fB w))),
        (0x06, .shl n, x.gr (fA w) * 2 ^ (if fFn w % 2 = 1 then fB w else x.gr (fB w) % 64)),
        (0x07, .shr n, x.gr (fA w) / 2 ^ (if fFn w % 2 = 1 then fB w else x.gr (fB w) % 64)), (0x08, .mul n, x.gr (fA w) * x.gr (fB w)),
        (0x09, .addi n, mod64 ((x.gr (fA w) : Int) + fImm14 w)), (0x0A, .li n, mod64 (fImm19 w))] →
      w % 256 = op.1 → ∃ t, exec op.2.1 s = .next t ∧ TileRan s t n (x.setG (fD w) op.2.2).step)
  ∧ (∀ (x : Tile) (d v : Nat), SMap.rises x.g 0 = true →
    (x.setG d v).step.gr d = (if d = 0 then 0 else v % 2 ^ 64) ∧ ∀ e, e ≠ d → (x.setG d v).step.gr e = x.gr e)

/-- R322, R342, R345: at an aligned address of the tile's own code and booking region, gather area or peat slice, or of its partner's slice once port B is
free for it, LD and LW load 8 and 4 bytes, little-endian, into the destination register, VLD 64 floating-point lanes; ST, SW and VST store the
register's bytes there and change nothing else but port B, which the access lets go; the pc moves by 4. While port B is held by another, the tile asks
for it and waits. R323: a store that touches what an issued block operation reads or writes leaves those bytes and the operation's result undefined. A
misaligned address stops the tile with fault 0x42, one outside its reach with 0x41, and a load of uncorrectable data with 0x44. The model's own
readings and choices in it: assumptions 133, 135. -/
def Obligations.LoadsAndStoresMoveLittleEndianData : Prop :=
  ∀ (n w a : Nat) (s : State) (x : Tile), IssuesAt s n w → x = s.tile n → a = mod64 ((x.gr (fA w) : Int) + fImm14 w) →
    (∀ op ∈ [(0x10, 8, Instr.ld n false, x.setG (fD w) (s.readLE a 8)), (0x11, 4, .lw n false, x.setG (fD w) (s.readLE a 4)),
        (0x14, 256, .vld n false, x.setV (fD w) (readF32s s a 64))],
      w % 256 = op.1 → a % op.2.1 = 0 → tileReads n a op.2.1 = true →
        (portWaits s n a op.2.1 = false → ∃ t, exec op.2.2.1 s = .next t ∧ TileRan (portLeave s n a op.2.1) t n op.2.2.2.step)
        ∧ (portWaits s n a op.2.1 = true → exec op.2.2.1 s = .next (portAsk (s.noted n) n)))
    ∧ (∀ op ∈ [(0x12, 8, Instr.st n, toLE 8 (x.gr (fD w))), (0x13, 4, .sw n, toLE 4 (x.gr (fD w))), (0x15, 256, .vst n, (x.vr (fD w)).flatMap f32Bytes)],
      w % 256 = op.1 → a % op.2.1 = 0 → tileWrites n a op.2.1 = true →
        (∀ u, u = portLeave s n a op.2.1 → portWaits s n a op.2.1 = false →
          (x.blocks.any (·.touches a op.2.2.2.length) = false → ∃ t, exec op.2.2.1 s = .next t ∧ TileRan (u.writeBytes a op.2.2.2) t n x.step)
          ∧ (∀ v, v = storeBytes (u.noted n) n a op.2.2.2 → exec op.2.2.1 s = .next (advance v n (v.tile n))))
        ∧ (portWaits s n a op.2.1 = true → exec op.2.2.1 s = .next (portAsk (s.noted n) n)))
    ∧ (tileRange n a 8 ≠ some 3 → portWaits s n a 8 = false ∧ portLeave s n a 8 = s)
    ∧ (w % 256 = 0x10 → a % 8 ≠ 0 → exec (.ld n false) s = .next (tileFault (s.noted n) n 0x42 a))
    ∧ (w % 256 = 0x12 → a % 8 = 0 → tileWrites n a 8 = false → exec (.st n) s = .next (tileFault (s.noted n) n 0x41 a))
    ∧ (w % 256 = 0x11 → a % 4 = 0 → tileReads n a 4 = true → portWaits s n a 4 = false →
      exec (.lw n true) s = .next (tileFault ((portLeave s n a 4).noted n) n 0x44 a))

/-- R342, R346: a taken branch goes to its pc plus 4 times its offset, one not taken to the next word; JAL saves the next word's pc; JR goes to the
register's low 17 bits. WAITCC goes on when the tick has reached its cc and waits otherwise; RECV takes the channel's oldest record, gives 0 at its
deadline, and waits until then; FENCE goes on when no block operation or counted fen access is under way and waits otherwise; HALT halts the tile and
raises event 3. No other tile and no other state changes. The model's own readings and choices in it: assumption 57. -/
def Obligations.BranchesJumpsAndWaitsSetThePc : Prop :=
  ∀ (n w : Nat) (s : State) (x : Tile), IssuesAt s n w → x = s.tile n →
    (w % 256 = 0x18 → RunsTo s n (.beq n) { x with pc := pcAdd x.pc (if x.gr (fD w) = x.gr (fA w) then 4 * fImm14 w else 4) })
    ∧ (w % 256 = 0x19 → RunsTo s n (.bne n) { x with pc := pcAdd x.pc (if x.gr (fD w) = x.gr (fA w) then 4 else 4 * fImm14 w) })
    ∧ (w % 256 = 0x1A → RunsTo s n (.blt n) { x with pc := pcAdd x.pc (if signedOf (x.gr (fD w)) 64 < signedOf (x.gr (fA w)) 64 then 4 * fImm14 w else 4) })
    ∧ (w % 256 = 0x1B → RunsTo s n (.jal n) { x.setG (fD w) (pcAdd x.pc 4) with pc := pcAdd x.pc (4 * fImm19 w) })
    ∧ (w % 256 = 0x1C → RunsTo s n (.jr n) { x with pc := x.gr (fA w) % 2 ^ 17 })
    ∧ (w % 256 = 0x1D →
      (fFn w % 2 = 0 → x.gr (fA w) ≤ s.time.cc → RunsTo s n (.waitcc n) x.step)
      ∧ (s.time.cc < x.gr (fA w) → RunsTo s n (.waitcc n) { x with wait := some (.cc (x.gr (fA w)) (decide (fFn w % 2 = 1))) })
      ∧ (fFn w % 2 = 1 → RunsTo s n (.waitcc n) { x with wait := some (.cc (x.gr (fA w)) true) }))
    ∧ (w % 256 = 0x41 →
      (∀ r rest, SMap.get x.recs [] (fB w) = r :: rest → RunsTo s n (.recv n) ({ x with recs := SMap.set x.recs [] (fB w) rest }.setG (fD w) r).step)
      ∧ (SMap.get x.recs [] (fB w) = [] → x.gr (fA w) ≤ s.time.cc → RunsTo s n (.recv n) (x.setG (fD w) 0).step)
      ∧ (SMap.get x.recs [] (fB w) = [] → s.time.cc < x.gr (fA w) → RunsTo s n (.recv n) { x with wait := some (.recv (fD w) (fB w) (x.gr (fA w))) }))
    ∧ (w % 256 = 0x4A →
      (x.blocks = [] → x.fens = [] → RunsTo s n (.fence n) x.step)
      ∧ (x.blocks ≠ [] → RunsTo s n (.fence n) { x with wait := some .fence }))
    ∧ (w % 256 = 0x1E → ∃ u, exec (.halt n) s = .next (event0 u .til n 3) ∧ TileRan s u n { x with lastPc := x.pc, st := .halted })

/-- R342: VADD, VMUL and VFMA write each lane's sum, product or fused sum, and where that is not a number, a quiet NaN whose payload is open; VMAX and
VEXP2 write each lane's result, VBCAST the low 32 bits of a scalar register to every lane, VCVT each lane's conversion, with the bits the spec leaves
open free. R343: each issues only while no block operation holds its unit. The pc moves by 4 and no other tile and nothing else changes but the
model's count of free values. A vector register read after the write gives what was written. The model's own readings and choices in it: assumptions
3, 92. -/
def Obligations.VectorInstructionsActLaneByLane : Prop :=
  (∀ (n w : Nat) (s : State) (x : Tile) (lanes : List F32 → List F32), IssuesAt s n w → x = s.tile n →
    (lanes = fun l => l.zipIdx.map fun y => if f32IsNaN y.1 then freeNaN s y.2 else y.1) →
    (∀ op ∈ [(0x20, Instr.vadd n, lanes (List.zipWith f32Add (x.vr (fA w)) (x.vr (fB w)))), (0x21, .vmul n, lanes (List.zipWith f32Mul (x.vr (fA w)) (x.vr (fB w)))),
        (0x22, .vfma n, lanes (List.zipWith (fun y z => f32Fma y.1 y.2 z) (List.zip (x.vr (fA w)) (x.vr (fB w))) (x.vr (fC w)))),
        (0x26, .vcvt n, (x.vr (fA w)).zipIdx.map fun y => cvtLane (fVfn w) y.1 (BitVec.ofNat 32 (Config.freeValue (s.fresh + y.2)).toNat))],
      w % 256 = op.1 → unitHeld x op.1 = false → ∃ t, exec op.2.1 s = .next t ∧ TileRan { s with fresh := s.fresh + 64 } t n (x.setV (fD w) op.2.2).step)
    ∧ (w % 256 = 0x23 → unitHeld x 0x23 = false → RunsTo s n (.vmax n) (x.setV (fD w) (List.zipWith maxLane (x.vr (fA w)) (x.vr (fB w)))).step)
    ∧ (w % 256 = 0x24 → unitHeld x 0x24 = false → RunsTo s n (.vexp2 n) (x.setV (fD w) ((x.vr (fA w)).map exp2Lane)).step)
    ∧ (w % 256 = 0x25 → unitHeld x 0x25 = false → RunsTo s n (.vbcast n) (x.setV (fD w) (List.replicate 64 (BitVec.ofNat 32 (x.gr (fA w))))).step)
    ∧ (∀ op ∈ [(0x20, Instr.vadd n), (0x21, .vmul n), (0x22, .vfma n), (0x23, .vmax n), (0x24, .vexp2 n), (0x25, .vbcast n), (0x26, .vcvt n)],
      unitHeld x op.1 = true → exec op.2 s = .next s))
  ∧ (∀ (x : Tile) (d : Nat) (v : List F32), SMap.rises x.v 0 = true →
    (x.setV d v).step.vr d = v ∧ (∀ e, e ≠ d → (x.setV d v).step.vr e = x.vr e) ∧ ∀ k, (x.setV d v).step.gr k = x.gr k)

/-- R347, R348: a resting tile that is switched on starts to measure its image in the mode its register gives; one switched off raises event 7 with
MALFORMED. A stop marks an armed or running tile and changes nothing else. A measure of an image whose length is not a legal multiple of 128 leaves
the tile stopped with MALFORMED and event 7; a legal one zeroes the rest of the code region, shows the digest, and arms the tile with event 6, or
stops it with AUTH where a service image's digest is not the expected one. A tile that waits for a cc goes on when that cc has come. The model's own
readings and choices in it: assumption 69. -/
def Obligations.TilesStartMeasureArmAndStop : Prop :=
  ∀ (n : Nat) (s : State) (x : Tile), n < 128 → x = s.tile n →
    ((x.st = .stopped ∨ x.st = .halted ∨ x.st = .faulted) → s.halted .til n = false →
      (s.up .til n = true → exec (.tilStart n) s = .next (s.setTile n { x with st := .measure, mode := s.fld (Reg.TIL_MODE n) 1 0, stopReq := false }))
      ∧ (s.up .til n = false → exec (.tilStart n) s = .next (event (s.setTile n { x with status := stMALFORMED }) .til n 7 { status := stMALFORMED })))
    ∧ ((x.st = .armed ∨ x.st = .running) → exec (.tilStop n) s = .next (s.setTile n { x with stopReq := true }) ∧ exec (.tilStart n) s = .next s)
    ∧ ((x.st = .stopped ∨ x.st = .halted) → exec (.tilStop n) s = .next s)
    ∧ (∀ len, x.st = .measure → len = s.fld (Reg.TIL_IMG_LEN n) 17 0 →
      (len % 128 ≠ 0 ∨ len < 128 ∨ 131072 < len → exec (.measureDone n) s =
        .next (event (s.setTile n { x with st := .stopped, status := stMALFORMED }) .til n 7 { status := stMALFORMED }))
      ∧ (len % 128 = 0 → 128 ≤ len → len ≤ 131072 → x.mode ≠ 3 → ∀ u dig, dig = imageDigest (zeroCode s n len) n len → u = setWords (zeroCode s n len) (Reg.TIL_DIGEST n) dig →
        (x.mode ≠ 0 ∨ dig = (List.range 12).map (fun k => s.rg (Reg.MSH_SVC_DIGEST k)) →
          exec (.measureDone n) s = .next (event0 (u.setTile n { x with st := .armed, status := stOK }) .til n 6))
        ∧ (x.mode = 0 → dig ≠ (List.range 12).map (fun k => s.rg (Reg.MSH_SVC_DIGEST k)) → exec (.measureDone n) s =
          .next (event (u.setTile n { u.tile n with st := .stopped, status := stAUTH }) .til n 7 { status := stAUTH }))))
    ∧ (∀ v, x.st = .running → x.wait = some (.cc v false) → v < s.lcc → s.time.running = true →
      exec (.waitRelease n) s = .next ((s.ccTo v).setTile n { x with wait := none, pc := pcAdd x.pc 4 }))

/-- R343, R352: a block instruction whose units are free and whose descriptor lies where the tile may keep one and is legal joins the tile's block
operations and writes OK to its destination register, and a PAGE on a fen page asks the channel for it; a descriptor that is misaligned or not legal
writes MALFORMED; while a unit it needs is busy nothing changes. BCOPY does the same from two addresses and a length. R322: an operation that reaches
into the partner's slice takes port B with it, and while another holds port B the tile asks for it and waits. When an operation of a running or halted
tile completes it leaves the queue and takes its effect; a copy's effect is its bytes at the destination; R323: one that a store has touched leaves
what it writes undefined. An uncorrectable error stops the tile with fault 0x44, in a fen page it is fen's, and a unit's check stops the tile with
0x45. The model's own readings and choices in it: assumptions 58, 133. -/
def Obligations.BlockInstructionsJoinTheirQueue : Prop :=
  (∀ (n w : Nat) (s : State) (x : Tile), IssuesAt s n w → x = s.tile n →
    (∀ op ∈ [(0x30, Instr.mmac n), (0x31, .expand n), (0x32, .quant n), (0x33, .rot n), (0x34, .sketch n), (0x35, .score n), (0x36, .merge n), (0x37, .bound n), (0x38, .page n), (0x4B, .bcopy n)],
      w % 256 = op.1 → ∀ a bs b, a = x.gr (fA w) → b = blkDesc bs →
      (if op.1 = 0x4B then bs = toLE 8 a ++ toLE 8 (x.gr (fB w)) ++ toLE 8 (128 * (fFn w + 1))
        else bs = s.readBytes a 64 ∧ a % 64 = 0 ∧ privBase n + 0x40000 ≤ a ∧ a + 64 ≤ privBase n + 0x180000) →
      (Nat.land (unitsBusy x) (opUnits op.1) = 0 →
        (∀ far, far = blockFar s n op.1 b → (far = true → portFree s n = true) → blockOk n op.1 (fB w) b = true →
          ∃ t, exec op.2 s = .next (if op.1 = 0x38 ∧ inFen b.aux then fenRequest t (addrStack b.aux) (addrPc b.aux) 0 n 65536 else t)
            ∧ TileRan (if far then portTake s n else s) t n (({ x with blocks := x.blocks ++ [⟨op.1, fD w, fB w, bs, false, far⟩] } : Tile).setG (fD w) stOK).step)
        ∧ (blockOk n op.1 (fB w) b = true → blockFar s n op.1 b = true → portFree s n = false → exec op.2 s = .next (portAsk (s.noted n) n))
        ∧ (blockOk n op.1 (fB w) b = false → RunsTo s n op.2 (x.setG (fD w) stMALFORMED).step))
      ∧ (Nat.land (unitsBusy x) (opUnits op.1) ≠ 0 → exec op.2 s = .next s))
    ∧ (∀ op ∈ [(0x30, Instr.mmac n), (0x31, .expand n), (0x32, .quant n), (0x33, .rot n), (0x34, .sketch n), (0x35, .score n), (0x36, .merge n), (0x37, .bound n), (0x38, .page n)],
      w % 256 = op.1 → x.gr (fA w) % 64 ≠ 0 → RunsTo s n op.2 (x.setG (fD w) stMALFORMED).step))
  ∧ (∀ (n i : Nat) (s : State) (o : BlockOp) (b : BlkDesc), n < 128 → (s.tile n).blocks[i]? = some o → ((s.tile n).st = .running ∨ (s.tile n).st = .halted) → s.clocksStopped = false →
    b = blkDesc o.desc → (o.op = 0x38 → inFen b.aux = true → fenPending s (addrStack b.aux) (addrPc b.aux) n = false) → ∀ u, u = blockLeave s n i →
      (o.torn = false → exec (.blockOpComplete n i 0) s = .next (blockRun u n o))
      ∧ (o.torn = true → exec (.blockOpComplete n i 0) s = .next (blockTorn u n o))
      ∧ (o.op ≠ 0x38 ∨ inFen b.aux = false → exec (.blockOpComplete n i 1) s = .next (tileFault s n 0x44 b.src))
      ∧ (o.op = 0x38 → inFen b.aux = true → exec (.blockOpComplete n i 1) s = .next (fenFault u (addrStack b.aux) b.aux 0))
      ∧ exec (.blockOpComplete n i 2) s = .next (tileFault s n 0x45 (opUnits o.op))
      ∧ (o.op = 0x4B → blockRun u n o = u.writeBytes b.dst (u.readBytes b.src b.aux))
      ∧ (o.port = false → u = s.setTile n { s.tile n with blocks := (s.tile n).blocks.eraseIdx i }))

/-- R336, R342: POLL takes a channel's oldest record, or gives 0. MODEQ gives a reachable stack's word of ready channels. CSRR gives the tile's number,
the tick, the cc; CSRW sets a channel's ring, and is ignored by a read-only register; an address that is no CSR stops the tile with fault 0x43. SEND
puts a message on the mesh and gives OK, MALFORMED for a destination or length out of range, and a booked SEND or a HANDOFF without its booking entry
gives MALFORMED; past its booking each gives LATE and is counted; in time a booked SEND, with the mesh on, hands its transfer to VC0 at its booked
start, and a HANDOFF leaves its request's result, and both give OK. R322: a source in the partner's slice waits for port B, and the access lets it go.
The model's own readings and choices in it: assumptions 57, 59. -/
def Obligations.PollModeqCsrAndSendAnswer : Prop :=
  ∀ (n w : Nat) (s : State) (x : Tile), IssuesAt s n w → x = s.tile n →
    (w % 256 = 0x42 →
      (∀ r rest, SMap.get x.recs [] (fB w) = r :: rest → RunsTo s n (.poll n) (({ x with recs := SMap.set x.recs [] (fB w) rest } : Tile).setG (fD w) r).step)
      ∧ (SMap.get x.recs [] (fB w) = [] → RunsTo s n (.poll n) (x.setG (fD w) 0).step))
    ∧ (w % 256 = 0x43 → ∀ port, port = 128 + x.gr (fA w) % 8 →
      (routeBlocked s n port = false → routeBlocked s port n = false →
        RunsTo s n (.modeq n) (x.setG (fD w) (s.rg (Reg.FEN_CH_READY (x.gr (fA w) % 8)))).step)
      ∧ (routeBlocked s n port = true ∨ routeBlocked s port n = true → exec (.modeq n) s = .next s))
    ∧ (w % 256 = 0x48 →
      (∀ v, (fCsr w, v) ∈ [(0, n), (1, s.time.tick % 2 ^ 48), (2, s.time.cc), (3, x.mode)] → RunsTo s n (.csrr n) (x.setG (fD w) v).step)
      ∧ (∀ k, k < 16 → fCsr w = 0x50 + k → RunsTo s n (.csrr n) (x.setG (fD w) (SMap.get x.chWr 0 k)).step)
      ∧ (0x60 ≤ fCsr w → exec (.csrr n) s = .next (tileFault (s.noted n) n 0x43 (fCsr w))))
    ∧ (w % 256 = 0x49 →
      (∀ k, k < 16 → fCsr w = 0x20 + k → RunsTo s n (.csrw n) ({ x with chBase := SMap.set x.chBase 0 k (x.gr (fA w)) } : Tile).step)
      ∧ (fCsr w = 2 → RunsTo s n (.csrw n) x.step))
    ∧ (w % 256 = 0x40 → ∀ word dst f a, word = x.gr (fB w) → dst = word % 256 → f = bitsOf word 26 16 → a = x.gr (fA w) →
      (bitOf word 12 = false →
        (dst < 144 → 1 ≤ f → f ≤ 1024 → tileReads n a (64 * f) = true →
          (portWaits s n a (64 * f) = false → exec (.send n) s = .next (issued
            (inject (portLeave (s.noted n) n a (64 * f)) ⟨n, dst, bitsOf word 11 8, bitsOf word 63 48, s.readBytes a (64 * f), s.time.up⟩) n w stOK))
          ∧ (portWaits s n a (64 * f) = true → exec (.send n) s = .next (portAsk (s.noted n) n)))
        ∧ ((144 ≤ dst ∨ f = 0 ∨ 1024 < f) → RunsTo s n (.send n) (x.setG (fD w) stMALFORMED).step))
      ∧ (bitOf word 12 = true → ∀ e k start, e = bitsOf word 43 32 → k = s.readLE (bookEntry n e + 10) 2 → start = s.readLE (bookEntry n e) 4 →
        (bookIs s n e 0x09 = false → RunsTo s n (.send n) (x.setG (fD w) stMALFORMED).step)
        ∧ (bookIs s n e 0x09 = true → tileReads n a (64 * k) = true →
          (start < s.time.cc → exec (.send n) s = .next (issued (slotMissed (s.noted n) n e) n w stLATE))
          ∧ (s.time.cc ≤ start → s.up .msh 0 = true → portWaits s n a (64 * k) = false → ∃ u, exec (.send n) s = .next (issued u n w stOK)
            ∧ u.direct = s.direct ++ [⟨n, s.byte (bookEntry n e + 16), s.readLE (bookEntry n e + 24) 8, s.readBytes a (64 * k), start, entrySlot s n e⟩]))))
    ∧ (w % 256 = 0x46 → ∀ e, e = x.gr (fB w) % 4096 →
      (bookIs s n e 0x07 = false → RunsTo s n (.handoff n) (x.setG (fD w) stMALFORMED).step)
      ∧ (∀ slot r d rows a, slot = entrySlot s n e → r = s.reqAt slot → d = 32 * areqD32 r → rows = s.readLE (bookEntry n e + 10) 2 → a = x.gr (fA w) →
        bookIs s n e 0x07 = true → tileReads n a (rows * (4 * d + 16)) = true →
        (s.readLE (bookEntry n e) 4 < s.time.cc → exec (.handoff n) s = .next (issued (slotMissed (s.noted n) n e) n w stLATE))
        ∧ (s.time.cc ≤ s.readLE (bookEntry n e) 4 → portWaits s n a (rows * (4 * d + 16)) = false → ∃ u, exec (.handoff n) s = .next (issued u n w stOK)
          ∧ u.tpl.results = SMap.set s.tpl.results [] slot (handoffBytes s a rows d (if bitOf (s.byte (bookEntry n e + 9)) 1 then areqWire r else 0)))))

/-- R337: FENRD and FENWR of aligned ranges inside one 64 KiB frame and the tile's own memory, on a reachable channel with room, give OK and ask the
channel for the transfer, a FENWR with the bytes it writes; one out of alignment or range gives MALFORMED. R335, R337: an isolated router on the way
or a full queue holds the access. R322: a FENWR whose bytes lie in the partner's slice waits for port B, and lets it go once it has read them. R248: a
served write stores its bytes in fen and a served read stores fen's bytes in the tile's memory, each leaving OK as the status; a read of uncorrectable
data stores nothing and leaves CRC; on a disabled stack the access ends as MALFORMED and moves nothing. R335: a reply held by an isolated router, an
access not served yet and a read that must wait for port B all go on waiting, and a read's data for a stopped tile is discarded. R331, R333: a message
at a tile's ejection port goes into its channel's ring where there is room, with a record of its place, length, source and tag, and the ring's write
index moves by its flits; where there is no room it stays at the head of the port and holds it, and is dropped, counted and raises event 5 when it has
held it 16,384 cc; a message for a channel without a ring is dropped so at once. A message with a bad flit checksum is discarded with fault 0x50.
R327: messages of one source leave in their order, and which source's comes next is the router's choice (the command's operand). R334: a transfer
handed to VC0, or else the oldest transfer of the plan not yet sent between its two ends, comes to its destination, and stays away while the mesh is
off; one with a bad checksum is discarded and its request loses it (R331, R68). A direct write into a tile's gather buffer stores its bytes. R355: a
message held 65,536 cc at a router is dropped, counted, and raises event 5 of the mesh. The model's own readings and choices in it: assumptions 12,
59, 131, 134, 135. -/
def Obligations.TileFenAccessesAndMeshMessages : Prop :=
  ((∀ (n w : Nat) (s : State) (x : Tile), IssuesAt s n w → x = s.tile n → ∀ f l len, f = x.gr (fA w) → l = x.gr (fB w) → len = 128 * (fFn w + 1) →
    (∀ wr, (w % 256 = if wr then 0x45 else 0x44) → inFen f = true → f % 128 = 0 → l % 128 = 0 → f % 65536 + len ≤ 65536 → (if wr then tileReads n l len else tileWrites n l len) = true →
      ((routeBlocked s n (128 + addrStack f) = true ∨ crownFull s (addrStack f) (addrPc f) = true) → exec (if wr then .fenwr n else .fenrd n) s = .next s)
      ∧ (routeBlocked s n (128 + addrStack f) = false → crownFull s (addrStack f) (addrPc f) = false →
        (wr = true → portWaits s n l len = true → exec (.fenwr n) s = .next (portAsk (s.noted n) n))
        ∧ ((wr = true → portWaits s n l len = false) → ∃ (o : FenOp) (u : State), o = { write := wr, fen := f, local_ := l, bytes := len, data := if wr then s.readBytes l len else [] } ∧
          u = (if wr then portLeave (s.noted n) n l len else s.noted n) ∧
          exec (if wr then .fenwr n else .fenrd n) s = .next (fenRequest (issued (u.setTile n { x with lastPc := x.pc, fens := x.fens ++ [o] }) n w stOK)
            (addrStack f) (addrPc f) (if wr then 1 else 0) n len))))
    ∧ (w % 256 = 0x44 → (inFen f = false ∨ f % 128 ≠ 0 ∨ l % 128 ≠ 0 ∨ 65536 < f % 65536 + len) → exec (.fenrd n) s = .next (issued (s.noted n) n w stMALFORMED))
    ∧ (w % 256 = 0x45 → (inFen f = false ∨ f % 128 ≠ 0 ∨ l % 128 ≠ 0 ∨ 65536 < f % 65536 + len) → exec (.fenwr n) s = .next (issued (s.noted n) n w stMALFORMED)))
  ∧ (∀ (n i : Nat) (s : State) (o : FenOp) (done : Nat → State), n < 128 → (s.tile n).fens[i]? = some o → o.failed = false → o.direct = false →
    (∀ st, done st = s.setTile n { s.tile n with fens := (s.tile n).fens.eraseIdx i, fenStat := st }) →
    (∀ bad, routeBlocked s (128 + addrStack o.fen) n = true → exec (.fenAccessComplete n i bad) s = .next s)
    ∧ (routeBlocked s (128 + addrStack o.fen) n = false →
      (∀ bad, s.en .fen (addrStack o.fen) = false → exec (.fenAccessComplete n i bad) s = .next (done stMALFORMED))
      ∧ (s.en .fen (addrStack o.fen) = true →
        (∀ bad, fenServed s n i o = false → exec (.fenAccessComplete n i bad) s = .next s)
        ∧ (fenServed s n i o = true →
          (∀ bad, o.write = true → exec (.fenAccessComplete n i bad) s = .next ((done stOK).writeBytes o.fen o.data))
          ∧ (∀ bad, o.write = false → portWaits s n o.local_ o.bytes = true → (s.pb (Nat.xor n 1)).waiting.any (·.src == n) = true → exec (.fenAccessComplete n i bad) s = .next s)
          ∧ (o.write = false → portWaits s n o.local_ o.bytes = false →
            ((s.tile n).st = .running → exec (.fenAccessComplete n i false) s =
              .next (portLeave ((done stOK).writeBytes o.local_ ((done stOK).readBytes o.fen o.bytes)) n o.local_ o.bytes))
            ∧ (((s.tile n).st = .isolated ∨ (s.tile n).st = .stopped ∨ (s.tile n).st = .faulted) → exec (.fenAccessComplete n i false) s = .next (mshDiscard (done stOK)))
            ∧ (∃ u, exec (.fenAccessComplete n i true) s = .next (u.setTile n { s.tile n with fens := (s.tile n).fens.eraseIdx i, fenStat := stCRC })
              ∧ u = fenFault s (addrStack o.fen) o.fen 0)))))))
  ∧ ((∀ (n : Nat) (s : State) (x : Tile), n < 128 → x = s.tile n →
    (∀ pick seen k m r, k = (if x.hold.isSome then 0 else pick) → x.eject[k]? = some m → r = x.eject.eraseIdx k →
      ((x.st = .isolated ∨ (x.eject.take k).any (·.src == m.src) = true) → exec (.messageEject n ⟨pick, seen⟩) s = .next s)
      ∧ (x.st ≠ .isolated → (x.eject.take k).any (·.src == m.src) = false → ∀ u, u = s.setTile n { x with eject := r, hold := none } →
        (poisoned seen = true → exec (.messageEject n ⟨pick, seen⟩) s = .next (crcDiscard u m.src n n))
        ∧ (poisoned seen = false → ringOf n x m.chan = none → exec (.messageEject n ⟨pick, seen⟩) s = .next (rxDrop u n))
        ∧ (poisoned seen = false → ∀ z wr rd rs, ringOf n x m.chan = some z → wr = SMap.get x.chWr 0 m.chan → rd = SMap.get x.chRd 0 m.chan → rs = SMap.get x.recs [] m.chan →
          ((wr + 2 ^ 64 - rd) % 2 ^ 64 + flits m.data.length ≤ 2 ^ z → rs.length < 64 → exec (.messageEject n ⟨pick, seen⟩) s =
            .next ((ringWrite u (SMap.get x.chBase 0 m.chan) z wr m.data).setTile n { x with
              eject := r, hold := none, chWr := SMap.set x.chWr 0 m.chan ((wr + flits m.data.length) % 2 ^ 64),
              recs := SMap.set x.recs [] m.chan (rs ++ [recWord (64 * (wr % 2 ^ z)) (flits m.data.length) m.src m.tag]) }))
          ∧ ((2 ^ z < (wr + 2 ^ 64 - rd) % 2 ^ 64 + flits m.data.length ∨ 64 ≤ rs.length) →
            exec (.messageEject n ⟨pick, seen⟩) s = .next (s.setTile n { x with eject := m :: r, hold := some (x.hold.getD s.time.up) })))))
    ∧ (∀ h, x.hold = some h →
      (h + 16384 ≤ s.time.up → exec (.ejectionTimeout n) s = .next (rxDrop (s.setTile n { x with eject := x.eject.tail, hold := none }) n))
      ∧ (s.time.up < h + 16384 → exec (.ejectionTimeout n) s = .next s))
    ∧ (x.hold = none → exec (.ejectionTimeout n) s = .next s))
  ∧ (∀ (s : State) (src dst addr : Nat) (data : List Nat) (seen : Option (List Nat)),
    (s.up .msh 0 = false → exec (.vc0DirectWrite src dst addr data seen) s = .next s)
    ∧ (s.up .msh 0 = true →
      (∀ y, s.direct.find? (fun y' => y'.src == src && y'.dst == dst) = some y →
        exec (.vc0DirectWrite src dst addr data seen) s = .next (xferArrive { s with direct := s.direct.erase y } y false (poisoned seen)))
      ∧ (s.direct.find? (fun y' => y'.src == src && y'.dst == dst) = none → ∀ x, nextXfer s src dst = some x → src < 136 → flits data.length ≤ x.flits → ∀ u, u = s.ccTo (x.start + costMesh x.links.length (64 * x.flits)) →
        exec (.vc0DirectWrite src dst addr data seen) s =
          .next (xferArrive (xferSent u x) ⟨src, dst, if dst < 128 then xferAddr u x else addr, data.map (· % 256), x.start, x.slot⟩ true (poisoned seen))))
    ∧ (∀ y v, xferArrive s y v true = lose (crcDiscard s y.src y.dst (meshRouter y.dst).1) y.slot)
    ∧ (∀ y v, y.dst < 128 → gatherBase y.dst ≤ y.addr → y.addr + y.data.length ≤ gatherBase y.dst + 0x180000 → xferArrive s y v false = s.writeBytes y.addr y.data))
  ∧ (∀ (s : State) (r n : Nat) (m : Msg), r < 128 → s.tiles.findSome? (fun kv => (kv.2.eject.find? fun m =>
      decide (m.since + 65536 ≤ s.time.up) && (routeRouters m.src m.dst ⟨true, none⟩).contains r).map fun m => (kv.1, m)) = some (n, m) →
    exec (.routerWatchdogBite r) s = .next (event0 (fault ((s.setTile n { s.tile n with
      eject := (s.tile n).eject.erase m, hold := if (s.tile n).eject.head? = some m then none else (s.tile n).hold }).count Reg.MSH_WD_BITES)
      .msh 0 0x52 none (m.src % 256 + m.dst % 256 * 256) r) .msh 0 5)))

/-- R356, R359: a frame a live port accepts is counted, after the code words its error correction mended or lost; one whose checksum fails is counted as
such and goes no further; one for the transport goes to it; one for software is punted to the receive ring; a frame too short, too long, for another
address, doubly tagged, or of a VLAN that is not the port's is dropped, counted and raises event 4. R362: a write of a transmit ring's index is
stored; a slot of length or port out of range is written back as MALFORMED; a sent one as OK, with the time its own frame started (R368). A link that
changes shows in its status and raises event 3, one that stays does nothing; a degraded code on a live link raises event 6. R359, R361: on a
management port that is on and whose link is up, a good frame of 60 to 2,016 bytes to its address or a group address, with an address resolution or a
discovery message, is counted and punted to its ring; a bad one, or one for another station, is counted as dropped; on a port that is off or down
nothing changes. A management link that rises while its port is on, or that falls, shows in its status and raises event 3. The model's own readings
and choices in it: assumptions 61, 91, 114, 115, 116, 117. -/
def Obligations.PortsTakeAndSendTheirFrames : Prop :=
  ((∀ (port n k fc fu : Nat) (s v : State) (f : List Nat), n = port / 8 → subPort s port = some k → linkIsUp s port = true → (∀ x ∈ f, x < 256) →
    v = (s.countBy (Reg.ETH_FEC_CORR n) fc).countBy (Reg.ETH_FEC_UNCORR n) fu →
    (60 ≤ f.length → f.length ≤ 9212 → macAccepted (portMac v n k) (macOf f 0) = true →
      exec (.frameReceive port false ⟨f, fc, fu⟩) s = .next ((v.count (Reg.ETH_RX_FRAMES n)).count (Reg.ETH_FCS_ERR n))
      ∧ (frameTag f = none → exec (.frameReceive port true ⟨f, fc, fu⟩) s = .next (rxDropFrame (v.count (Reg.ETH_RX_FRAMES n)) n))
      ∧ (∀ vid et body, frameTag f = some (vid, et, body) →
        ((if v.bit (Reg.ETH_VLAN n k) 12 then vid == some (v.fld (Reg.ETH_VLAN n k) 11 0) else vid.getD 0 == 0) = false →
          exec (.frameReceive port true ⟨f, fc, fu⟩) s = .next (rxDropFrame (v.count (Reg.ETH_RX_FRAMES n)) n))
        ∧ ((if v.bit (Reg.ETH_VLAN n k) 12 then vid == some (v.fld (Reg.ETH_VLAN n k) 11 0) else vid.getD 0 == 0) = true →
          (sortFrame (v.count (Reg.ETH_RX_FRAMES n)) et body = .itp → exec (.frameReceive port true ⟨f, fc, fu⟩) s = .next (v.count (Reg.ETH_RX_FRAMES n)))
          ∧ (∀ kind, sortFrame (v.count (Reg.ETH_RX_FRAMES n)) et body = .punt kind →
            exec (.frameReceive port true ⟨f, fc, fu⟩) s = .next (puntFrame (v.count (Reg.ETH_RX_FRAMES n)) n port kind (vid.getD 0) et f body))
          ∧ (sortFrame (v.count (Reg.ETH_RX_FRAMES n)) et body = .drop →
            exec (.frameReceive port true ⟨f, fc, fu⟩) s = .next (rxDropFrame (v.count (Reg.ETH_RX_FRAMES n)) n)))))
    ∧ ((f.length < 60 ∨ 9212 < f.length ∨ macAccepted (portMac v n k) (macOf f 0) = false) → ∀ fcs,
      exec (.frameReceive port fcs ⟨f, fc, fu⟩) s = .next (event0 (v.count (Reg.ETH_RX_DROP n)) .eth n 4))
    ∧ (n < 8 → exec (.fecDegrade port) s = .next (event (s.setFld (Reg.ETH_PSTAT n k) 3 3 1) .eth n 6 { i0 := port })
      ∧ exec (.linkChange port true) s = .next s
      ∧ exec (.linkChange port false) s = .next (synceTurn (event (s.setRg (Reg.ETH_PSTAT n k) 0) .eth n 3 { i0 := port }))))
  ∧ (∀ (ring wr : Nat) (s : State), ring < 3 → exec (.txRingWrite ring wr) s = .next (s.setRg (fringBase ring 1 + 0x0C) wr))
  ∧ (∀ (ring a slot : Nat) (s : State), ring < 3 → a = fringBase ring 1 → slot = fringSlot s a (s.rg (a + 0x10)) →
    (s.rg (a + 0x0C) + 2 ^ 32 - s.rg (a + 0x10)) % 2 ^ 32 ≠ 0 → fringOk s a = true →
    (txSlotOk s ring slot = false → exec (.controlTxDone ring) s =
      .next (txWriteBack { s with txGiven := SMap.set s.txGiven 0 ring (SMap.get s.txGiven 0 ring - 1) } ring stMALFORMED 0))
    ∧ (txSlotOk s ring slot = true → 1 ≤ ring → s.en .mgt (ring - 1) = true → s.bit (Reg.MGT_STAT (ring - 1)) 0 = true →
      exec (.controlTxDone ring) s = .next (txWriteBack s ring stOK 0))
    ∧ (∀ rd ts, txSlotOk s ring slot = true → ring = 0 → rd = s.rg (a + 0x10) % 2 ^ 32 → SMap.get s.txDone 0 rd = ts + 1 → SMap.get s.txGiven 0 0 ≠ 0 → exec (.controlTxDone ring) s =
      .next (txWriteBack { s with txGiven := SMap.set s.txGiven 0 0 (SMap.get s.txGiven 0 0 - 1), txDone := SMap.set s.txDone 0 rd 0 } 0 stOK ts))))
  ∧ (∀ (n : Nat) (s : State) (f : List Nat), n < 2 → (∀ x ∈ f, x < 256) →
    (s.en .mgt n = true → s.bit (Reg.MGT_STAT n) 0 = true →
      (∀ et kind, (et, kind) ∈ [(0x0806, 4), (0x88CC, 3)] → 60 ≤ f.length → f.length ≤ 2016 → beAt f 12 2 = et → ipParts et (f.drop 14) = none →
        (macOf f 0 = s.rg (Reg.MGT_MAC_LO n) + s.fld (Reg.MGT_MAC_HI n) 15 0 * 2 ^ 32 ∨ macOf f 0 = 0xFFFFFFFFFFFF) →
        exec (.mgtFrameReceive n true f) s = .next (puntWrite (s.count (Reg.MGT_RX_FRAMES n)) (n + 1) (64 + n) kind 0 none f))
      ∧ exec (.mgtFrameReceive n false f) s = .next (s.count (Reg.MGT_RX_DROP n))
      ∧ (f.length < 60 ∨ 2016 < f.length → ∀ fcs, exec (.mgtFrameReceive n fcs f) s = .next (s.count (Reg.MGT_RX_DROP n)))
      ∧ exec (.linkChange (64 + n) false) s = .next (event (s.setRg (Reg.MGT_STAT n) 0) .mgt n 3 { i0 := 64 + n }))
    ∧ (s.bit (Reg.MGT_STAT n) 0 = false →
      (∀ fcs, exec (.mgtFrameReceive n fcs f) s = .next s)
      ∧ (s.en .mgt n = true → exec (.linkChange (64 + n) true) s = .next (event (s.setRg (Reg.MGT_STAT n) 1) .mgt n 3 { i0 := 64 + n }))))

/-- R363, R375: the frequency word is held within 25,600,000 of zero either way, after what the slew has done so far is booked at its old rate. R365: a
slew starts now with its sign and its magnitude in units of a nanosecond, and PTP_STAT shows it while it is not 0; a step while the tick plan is off
moves the node time by its nanoseconds, and a stamp taken in that same cc still has the old time; a step while it is on only raises event 6. A slew
that the limit on the total leaves no speed does not end. R366: a lost lock that was held starts the holdover, which PTP_STAT shows and which raises
event 4; a gained one ends it, each raising event 3; in holdover already, its start changes nothing. A configuration write is stored and the frequency
source checked. R370, R371: with the clock on, an edge of PPS_IN within 0.9 s of the accepted one is counted as chatter, one outside the window of a
locked servo as out of window, one that is both as both, and the input is no longer qualified, which raises event 5 with what was wrong; the fourth
good edge of successive seconds qualifies it. No edge for 2.5 s shows the input stuck, at whichever level it stays, and not qualified. A window of
edges within 20 ppm of nominal is good, the third in a row qualifies the synchronous input; another makes it unqualified. R372: the output rises at
the next whole second and falls after its width, where the tick has not ended. R365: a slew whose end has come is used up. The model's own readings
and choices in it: assumptions 61, 130. -/
def Obligations.NodeTimeFollowsItsSourcesAndPins : Prop :=
  (∀ s : State,
    (∀ v, exec (.ptpFreqWrite v) s = .next ((slewBook s).setRg Reg.PTP_FREQ (ofSigned (max (-25600000) (min 25600000 (signedOf v 32))) 32)))
    ∧ (∀ v, exec (.ptpSlewWrite v) s = .next (({ s with ptp := { s.ptp with slewNeg := decide (signedOf v 32 < 0), slewRem := (signedOf v 32).natAbs * 2048000000000, slewAt := s.time.up } }.setRg
        Reg.PTP_SLEW (v % 2 ^ 32)).setFld Reg.PTP_STAT 1 1 (if signedOf v 32 = 0 then 0 else 1)))
    ∧ (∀ v, s.en .tpl 0 = true → exec (.ptpStepWrite v) s = .next (event0 s .ptp 0 6))
    ∧ (∀ v, s.en .tpl 0 = false → s.time.running = false →
        exec (.ptpStepWrite v) s = .next { s.setRg64 Reg.PTP_STEP_LO v with ptp := { s.ptp with
          base := s.ptp.base + 8 * signedOf v 64, stepAt := s.time.up + 1, stepBase := if s.ptp.stepAt = s.time.up + 1 then s.ptp.stepBase else s.ptp.base } })
    ∧ (∀ v, exec (.ptpCfgWrite v) s = .next (synceTurn (wordWrite s Reg.PTP_CFG v)))
    ∧ (s.bit Reg.PTP_SERVO 0 = true → exec (.servoLockWrite false) s = .next (holdoverStart (event0 (s.setRg Reg.PTP_SERVO 0) .ptp 0 3))
      ∧ exec (.servoLockWrite true) s = .next ((s.setRg Reg.PTP_SERVO 1).setFld Reg.PTP_STAT 0 0 0))
    ∧ (s.bit Reg.PTP_SERVO 0 = false → exec (.servoLockWrite true) s = .next ((event0 (s.setRg Reg.PTP_SERVO 1) .ptp 0 3).setFld Reg.PTP_STAT 0 0 0)
      ∧ exec (.servoLockWrite false) s = .next (s.setRg Reg.PTP_SERVO 0))
    ∧ (s.bit Reg.PTP_STAT 0 = true → holdoverStart s = s)
    ∧ (s.bit Reg.PTP_STAT 0 = false → holdoverStart s = event0 (s.setFld Reg.PTP_STAT 0 0 1) .ptp 0 4)
    ∧ (s.en .ptp 0 = true →
      (s.ptp.lastMsg - 1 + 1600000 * s.fld Reg.PTP_LOSS_TO 15 0 ≤ s.time.up → exec .ptpLossTimeout s = .next (holdoverStart s))
      ∧ (s.time.up < s.ptp.lastMsg - 1 + 1600000 * s.fld Reg.PTP_LOSS_TO 15 0 → exec .ptpLossTimeout s = .next s))
    ∧ (s.bit Reg.PTP_STAT 1 = true → slewSpeed s = 0 → s.ptp.slewRem ≠ 0 → exec .slewComplete s = .next s)
    ∧ (∀ u, s.bit Reg.PTP_STAT 1 = true → (slewSpeed s ≠ 0 ∨ s.ptp.slewRem = 0) → reachUp s (s.ptp.slewAt + ceilDiv s.ptp.slewRem (5 * slewSpeed s)) = some u → exec .slewComplete s =
        .next (({ u with ptp := { u.ptp with slewRem := 0, slewAt := u.time.up, slewNeg := false } }.setRg Reg.PTP_SLEW 0).setFld Reg.PTP_STAT 1 1 0))
    ∧ (s.bit Reg.PTP_STAT 1 = false → exec .slewComplete s = .next s))
  ∧ (∀ s : State, s.en .ptp 0 = true →
    (∀ dist sec chatter oow, toSecond s.stampTime = (dist, sec) →
      chatter = (s.ptp.accepted != 0 && decide (s.time.up < s.ptp.accepted - 1 + 1440000000)) → oow = (s.bit Reg.PTP_SERVO 0 && decide (8 * s.fld Reg.PTP_PPS_WIN 15 0 < dist)) →
      (chatter = true ∨ oow = true → exec .ppsInEdge s = .next (ppsBad s chatter oow))
      ∧ (chatter = false → oow = false →
        ∀ good u, good = (if s.ptp.ppsGood ≠ 0 ∧ sec = s.ptp.ppsSec + 1 then s.ptp.ppsGood + 1 else 1) →
        u = { s with ptp := { s.ptp with accepted := s.time.up + 1, edge := s.time.up + 1, ppsGood := good, ppsSec := sec, edgeSec := timeSec s.stampTime } }.setRg
          Reg.PTP_PPS_TS_NS (timeNs s.stampTime) →
        exec .ppsInEdge s = .next (if 4 ≤ good then (u.setFld Reg.PTP_STAT 2 2 1).setFld Reg.PTP_STAT 4 3 0 else u)))
    ∧ (∀ chatter oow v, v = { ((if oow then (if chatter then s.count Reg.PTP_PPS_CHATTER else s).count Reg.PTP_PPS_OOW else (if chatter then s.count Reg.PTP_PPS_CHATTER else s)).setFld Reg.PTP_STAT 2 2 0) with
        ptp := { s.ptp with edge := s.time.up + 1, ppsGood := 0 } } →
      (s.bit Reg.PTP_STAT 2 = false → ppsBad s chatter oow = if chatter then v.setFld Reg.PTP_STAT 4 4 1 else v)
      ∧ (s.bit Reg.PTP_STAT 2 = true → ppsBad s chatter oow = disqualify (if chatter then v.setFld Reg.PTP_STAT 4 4 1 else v) 0 (2 * b2n chatter + 4 * b2n oow)))
    ∧ (∃ high, ∀ v, v = { (s.draw.setFld Reg.PTP_STAT 2 2 0).setFld Reg.PTP_STAT 3 3 1 with ptp := { s.ptp with ppsGood := 0, stuckHigh := high } } →
      (s.ptp.edge - 1 + 4000000000 ≤ s.time.up →
        (s.bit Reg.PTP_STAT 2 = false → exec .ppsStuckTimeout s = .next v)
        ∧ (s.bit Reg.PTP_STAT 2 = true → exec .ppsStuckTimeout s = .next (disqualify v 0 1)))
      ∧ (s.time.up < s.ptp.edge - 1 + 4000000000 → exec .ppsStuckTimeout s = .next s))
    ∧ (∀ edges nom, nom = (if s.bit Reg.PTP_SYNC_NOM 0 then 2500000 else 1000000) →
      (nom ≤ edges + nom * 20 / 1000000 → edges ≤ nom + nom * 20 / 1000000 → ∀ u, u = { s with ptp := { s.ptp with syncGood := min 3 (s.ptp.syncGood + 1) } } →
        exec (.syncWindowEnd edges) s = .next (if 2 ≤ s.ptp.syncGood then (u.setFld Reg.PTP_STAT 5 5 1).setFld Reg.PTP_STAT 7 6 0 else u))
      ∧ (edges + nom * 20 / 1000000 < nom ∨ nom + nom * 20 / 1000000 < edges → ∀ v, v = { (s.setFld Reg.PTP_STAT 5 5 0).setFld Reg.PTP_STAT 7 6 (if edges = 0 then 1 else 2) with ptp := { s.ptp with syncGood := 0 } } →
        (s.bit Reg.PTP_STAT 5 = false → exec (.syncWindowEnd edges) s = .next v)
        ∧ (s.bit Reg.PTP_STAT 5 = true → exec (.syncWindowEnd edges) s = .next (disqualify v 1 (if edges = 0 then 1 else 8)))))
    ∧ (s.bit Reg.PTP_PPS_OUT 31 = true → s.ptp.ppsOut = false →
      ∀ u, reachUp s (s.time.up + ceilDiv (ceilDiv s.nodeTime 8000000000 * 8000000000 - s.nodeTime) 5) = some u →
      exec .ppsOutPulse s = .next { u with ptp := { u.ptp with ppsOut := true, rise := u.time.up } })
    ∧ (s.ptp.ppsOut = true → ∀ u, reachUp s (s.ptp.rise + ceilDiv (8 * max 1 (min 999999999 (s.fld Reg.PTP_PPS_OUT 29 0))) 5) = some u →
      exec .ppsOutFall s = .next { u with ptp := { u.ptp with ppsOut := false } })
    ∧ (s.ptp.ppsOut = false → exec .ppsOutFall s = .next s))

/-- R381, R382, R384, R387: a packet with a good frame check, a header that parses, an open connection, the peer's node and address, room under policing,
a live key of its epoch, a tag that AES-256-GCM verifies under that key and a counter not seen before is counted, its counter is recorded, a
congestion mark is counted, the first packet of the next epoch moves sending to it, and its opcode's action runs: an ACK, a NAK, a HELLO, or a
sequenced packet of SEND, WRITE, READ_REQ or READ_RESP with the plaintext as its body. A packet beyond policing, a bad tag or a replayed counter is
only counted, one of an epoch without a key is answered with a NAK; a packet off any open connection is counted as dropped; a bad frame check, and a
command of another opcode, change nothing. R390: a delayed acknowledgement whose delay ends before the boundary is queued. R391: a packet of an open
connection that is sent and not queued is marked due again when its timeout comes, and one sent as often as the limit allows makes the connection
fail. R393: a message older than its timeout makes the connection fail, a younger one does nothing. R396: at the end of a period an open connection's
rate is cut where congestion was marked and raised where it was not, within its lower limit and its port's rate. The model's own readings and choices
in it: assumptions 12, 18, 20, 112, 138. -/
def Obligations.PacketsAreCheckedAndTimersAct : Prop :=
  (∀ (p : Packet) (k : Pk) (s s1 : State) (i slot : Nat), p.fcs = true → parsePk p = some k → i = k.conn % 4096 →
    (s.up .itp 0 = true → s.connOpen k.conn = true → k.src = (s.conn i).peerNode → p.src = (s.conn i).peerAddr →
      (police s i p.bytes.length = (s1, false) → exec (.itpPacketReceive p) s = .next s1)
      ∧ (police s i p.bytes.length = (s1, true) → s1.liveKey i k.epoch = none → exec (.itpPacketReceive p) s = .next (keyEpochDrop s1 i))
      ∧ (police s i p.bytes.length = (s1, true) → s1.liveKey i k.epoch = some slot →
      (∀ plain v u u2 u3, openPk (s1.keySlot slot) p k = some plain → antiReplay (s1.keySlot slot) k.ctr = some v → u2 = (s1.count Reg.ITP_RX_PKTS).setKeySlot slot v →
        u3 = (if p.ce then (u2.count Reg.ITP_CE).setConn i { u2.conn i with ce := (u2.conn i).ce + 1 } else u2) →
        u = (if s.bit Reg.KEY_CFG 0 ∧ k.epoch = ((s.conn i).txEpoch + 1) % 65536 then txSwitch u3 i else u3) →
        (k.op = 0x05 → exec (.ack p) s = .next (rxAck u i k.ext) ∧ exec (.itpPacketReceive p) s = .next (rxAck u i k.ext))
        ∧ (k.op = 0x06 → exec (.nak p) s = .next (rxNak u i k.ext) ∧ exec (.itpPacketReceive p) s = .next (rxNak u i k.ext))
        ∧ (k.op = 0x07 → exec (.hello p) s = .next (rxHello u i k.ext))
        ∧ (k.op = 0x01 → exec (.itpSend p) s = .next (rxSeq u i p.port { k with body := plain }))
        ∧ (k.op = 0x02 → exec (.itpWrite p) s = .next (rxSeq u i p.port { k with body := plain }))
        ∧ (k.op = 0x03 → exec (.readReq p) s = .next (rxSeq u i p.port { k with body := plain }))
        ∧ (k.op = 0x04 → exec (.readResp p) s = .next (rxSeq u i p.port { k with body := plain })))
      ∧ (openPk (s1.keySlot slot) p k = none → exec (.itpPacketReceive p) s = .next (s1.count Reg.ITP_DROP_AUTH))
      ∧ (∀ plain, openPk (s1.keySlot slot) p k = some plain → antiReplay (s1.keySlot slot) k.ctr = none → exec (.itpPacketReceive p) s = .next ((s1.count Reg.ITP_RX_PKTS).count Reg.ITP_REPLAY))))
    ∧ ((s.up .itp 0 = false ∨ s.connOpen k.conn = false ∨ k.src ≠ (s.conn i).peerNode ∨ p.src ≠ (s.conn i).peerAddr) →
      exec (.itpPacketReceive p) s = .next (s.count Reg.ITP_DROP_CONN))
    ∧ (∀ c ∈ [(0x05, Instr.ack p), (0x06, .nak p), (0x07, .hello p), (0x01, .itpSend p), (0x02, .itpWrite p), (0x03, .readReq p), (0x04, .readResp p)], k.op ≠ c.1 → exec c.2 s = .next s)
    ∧ (∀ q, q.fcs = false → ∀ c ∈ [Instr.itpPacketReceive q, .ack q, .nak q, .hello q, .itpSend q, .itpWrite q, .readReq q, .readResp q], exec c s = .next s))
  ∧ (∀ (i : Nat) (s : State) (c : Conn), i < 4096 → c = s.conn i →
    (∀ t u, c.ackSince = some t → reachUp s (t + s.fld Reg.ITP_ACK 31 16) = some u → exec (.ackDelayTimeout i) s = .next (ackNow u i))
    ∧ (c.ackSince = none → exec (.ackDelayTimeout i) s = .next s)
    ∧ (∀ psn p u, c.pkts.find? (·.psn == psn) = some p → p.due = false → p.queued = false → p.sends ≠ 0 → c.st = .open_ → s.en .itp 0 = true → s.canSend i = true →
      reachUp s (p.at_ + 1600 * max 1 (s.fld Reg.ITP_RETX 31 16)) = some u → exec (.retransmitTimeout i psn) s = .next (retransmit u i psn))
    ∧ (∀ psn p, c.pkts.find? (·.psn == psn) = some p → p.due = false → p.queued = false → p.sends ≠ 0 →
      (s.fld Reg.ITP_RETX 15 8 < p.sends → retransmit s i psn = connError s i)
      ∧ (p.sends ≤ s.fld Reg.ITP_RETX 15 8 → retransmit s i psn =
        chargeStrike (s.setConn i { c with pkts := c.pkts.map fun q => if q.psn = psn then { q with due := true } else q }) c.peerNode p.path))
    ∧ (∀ msn m, c.msgs.find? (·.msn == msn) = some m →
      (m.since + max 1 (s.fld Reg.ITP_MSG_TO 15 0) ≤ s.time.tick → exec (.messageTimeout i msn) s = .next (connError s i))
      ∧ (s.time.tick < m.since + max 1 (s.fld Reg.ITP_MSG_TO 15 0) → exec (.messageTimeout i msn) s = .next s))
    ∧ (c.st = .open_ → ∀ top lo u, top = portRate s (pathPort s c.peerNode 0) → lo = s.fld Reg.ITP_CC_MIN 23 0 →
      reachUp s (c.ccAt + (if s.fld Reg.ITP_CC_PERIOD 19 0 = 0 then 1024 else s.fld Reg.ITP_CC_PERIOD 19 0)) = some u →
      (c.ceSeen = true → exec (.ccPeriodEnd i) s =
        .next (u.setConn i { c with rate := min top (max lo (c.rate - c.rate / 2 ^ max 1 (s.fld Reg.ITP_CC 3 0))), ceSeen := false, ccAt := u.time.up }))
      ∧ (c.ceSeen = false → exec (.ccPeriodEnd i) s = .next (u.setConn i { c with rate := min top (max lo (c.rate + s.fld Reg.ITP_CC 31 8)), ceSeen := false, ccAt := u.time.up })))
    ∧ (c.st = .free → exec (.ccPeriodEnd i) s = .next s))

/-- R386: an open of a free connection of its partition, not opening, of legal segment size, with a live job, asks for its key; another open, and a close
of a free connection, answer MALFORMED; a close of a used one answers OK and its command ends. R398: a region in the table, invalid or revoked, whose
range lies in memory and which its partition owns becomes valid with OK, an invalid one with the generation that the last reset began it with; another
answers MALFORMED. R401: a valid region that is revoked takes the next generation and is revoking, with OK; when no access to it is in flight any more
it is revoked, and event 3 names it. The command's status is what was last written to it. The model's own readings and choices in it: assumptions 26,
27. -/
def Obligations.ConnectionsAndRegionsOpenAndClose : Prop :=
  (∀ (i : Nat) (s : State) (c : Conn), i < 4096 → c = s.conn i →
    (c.st = .free → c.opening = false → s.up .itp 0 = true → 4 ≤ c.seg → c.seg ≤ 128 → ownsConn s c.part i = true → (jobOf s c.part c.job).isSome = true →
      exec (.connOpen i) s = .next (deriveAsk (s.setConn i { c with opening := true }) i c.txEpoch true))
    ∧ ((c.st ≠ .free ∨ c.opening = true ∨ c.seg < 4 ∨ 128 < c.seg ∨ s.up .itp 0 = false ∨ ownsConn s c.part i = false ∨ jobOf s c.part c.job = none) → exec (.connOpen i) s = .next (cmdStat s stMALFORMED))
    ∧ (c.st = .free → exec (.connClose i) s = .next (cmdStat s stMALFORMED))
    ∧ (c.st ≠ .free → exec (.connClose i) s = .next (cmdStat (connClose s i) stOK)))
  ∧ (∀ (i : Nat) (s : State), i < 2 ^ 20 →
    (i < s.fld Reg.ITP_REG_CFG 20 0 →
      (regionState s i = 3 → rangeOk (s.readLE (regionAddr s i) 8) (s.readLE (regionAddr s i + 8) 8) = true → ownsRegion s (s.byte (regionAddr s i + 20) % 64) i = true →
        exec (.regionValidate i) s = .next (cmdStat (setRegionId s i (regionGen s i) 1) stOK))
      ∧ (regionState s i = 0 → rangeOk (s.readLE (regionAddr s i) 8) (s.readLE (regionAddr s i + 8) 8) = true → ownsRegion s (s.byte (regionAddr s i + 20) % 64) i = true →
        exec (.regionValidate i) s = .next (cmdStat (setRegionId s i (regionGen s i + initGen s.boot 3 i) 1) stOK))
      ∧ (regionState s i = 1 ∨ regionState s i = 2 ∨ rangeOk (s.readLE (regionAddr s i) 8) (s.readLE (regionAddr s i + 8) 8) = false ∨ ownsRegion s (s.byte (regionAddr s i + 20) % 64) i = false → exec (.regionValidate i) s = .next (cmdStat s stMALFORMED))
      ∧ (regionState s i = 1 → exec (.regionRevoke i) s = .next (cmdStat (setRegionId s i (regionGen s i + 1) 2) stOK))
      ∧ (regionState s i ≠ 1 → exec (.regionRevoke i) s = .next (cmdStat s stMALFORMED))
      ∧ (regionState s i = 2 → regionInflight s i = 0 →
        exec (.revokeDone i) s = .next (event (setRegionId s i (regionGen s i) 3) .itp 0 3 { i0 := i, i1 := regionGen s i }))
      ∧ (regionState s i ≠ 2 ∨ regionInflight s i ≠ 0 → exec (.revokeDone i) s = .next s))
    ∧ (s.fld Reg.ITP_REG_CFG 20 0 ≤ i → exec (.regionValidate i) s = .next (cmdStat s stMALFORMED) ∧ exec (.regionRevoke i) s = .next (cmdStat s stMALFORMED)
        ∧ exec (.revokeDone i) s = .next s))
  ∧ (∀ (s : State) (st : Nat), s.ok → st < 256 → (cmdStat s st).rg Reg.ITP_CMD_STAT = st)

/-- R402: a queue's head that no trigger holds back is served by the command of its opcode, and by no other command: a valid SEND, WRITE, READ or MSG is
queued on its connection and leaves the ring; one that fails its checks, even one that still waits on a trigger or one of no opcode, leaves the ring
with a completion record where it asks for one. R404: a head whose trigger counter is below its threshold waits, and a trigger's start serves, queue
by queue, each whose head waited on a trigger that has come. R118, R405 to R410: when the oldest delivered message is of its kind, AREQ, APPEND,
CLONE, RELEASE and MIGRATE take it to intake, and an uncorrectable payload is faulted and refused with CRC; a CLONE by key asks RIDDLE first, where
the compare counts a hit; CANCEL cancels a request of its connection it names, and counts a name that is not there. A command of another kind than the
oldest message's does nothing. R456: the far node's ADONE of a mirrored request is taken the same way, and answers the request it names or none; a
mirror that is too late diverges and the request completes with its own status. The model's own readings and choices in it: assumptions 25, 45, 47,
50, 83, 126, 141. -/
def Obligations.WorkAndRequestMessagesAreTakenInOrder : Prop :=
  ((∀ (q : Nat) (w : Wqe) (s : State), wqHead s q = some w →
    (wqeDormant s w = false →
      (∀ op ∈ [(1, Instr.wrSend q), (2, .wrWrite q), (3, .wrRead q), (4, .wrMsg q)], w.op = op.1 → exec op.2 s = .next (wqServe s q w))
      ∧ (w.op = 2 → exec (.wrSend q) s = .next s ∧ exec (.wrRead q) s = .next s ∧ exec (.wrMsg q) s = .next s))
    ∧ (wqeDormant s w = true → wqeStatus s w = stOK → exec (.wrSend q) s = .next s ∧ exec (.wrWrite q) s = .next s ∧ exec (.wrRead q) s = .next s ∧ exec (.wrMsg q) s = .next s)
    ∧ (wqeStatus s w ≠ stOK →
      (∀ op ∈ [(1, Instr.wrSend q), (2, .wrWrite q), (3, .wrRead q), (4, .wrMsg q)], w.op = op.1 → exec op.2 s = .next (wqServe s q w))
      ∧ (w.op = 0 ∨ 4 < w.op → exec (.wrSend q) s = .next (wqServe s q w)))
    ∧ (∀ u use, u = itpRingPop s (wqBase q) → use = .wr q w.tag w.rec_ 0 →
      (wqeStatus s w ≠ stOK → wqServe s q w = if w.rec_ then cqWrite u (wrRec q w.conn w.tag (wqeStatus s w) (decide (wqeStatus s w = stCANCELLED)) 0) else u)
      ∧ (wqeStatus s w = stOK →
        (w.op = 1 → wqServe s q w = queueMsg u (cwIdx w.conn) 0x01 w.cls (toBE 2 w.trig ++ [0, 0, 0, 0, 0, 0]) w.length (.mem w.local_) use)
        ∧ (w.op = 2 → wqServe s q w = queueMsg u (cwIdx w.conn) 0x02 w.cls (writeExt w.region w.trig w.remote) w.length (.mem w.local_) use)
        ∧ (w.op = 3 → wqServe s q w = sendRead u (cwIdx w.conn) w.cls w.region w.length w.remote w.local_ use)
        ∧ (w.op = 4 → wqServe s q w = queueMsg u (cwIdx w.conn) w.msgOp (if w.msgOp = 0x16 then 2 else 1) (wqeExt s w) w.length (.mem w.local_) use))))
  ∧ (∀ (q : Nat) (s : State), wqHead s q = none → exec (.wrSend q) s = .next s ∧ exec (.wrWrite q) s = .next s ∧ exec (.wrRead q) s = .next s ∧ exec (.wrMsg q) s = .next s)
  ∧ (∀ s : State, ∀ one : State → Nat → State, (∀ u q, wqHead u q = none → one u q = u) →
      (∀ u q w, wqHead u q = some w → one u q = if w.wait ≠ 0xFFFF ∧ wqeDormant u w = false then wqServe u q w else u) → exec .triggerStart s = .next ((List.range 16).foldl one s))
  ∧ (∀ s : State, (∀ q, q < 16 → ∀ w, wqHead s q = some w → w.wait = 0xFFFF ∨ wqeDormant s w = true) → exec .triggerStart s = .next s)
  ∧ (∀ (s : State) (q : Nat) (w : Wqe), q < 16 → wqHead s q = some w → w.wait ≠ 0xFFFF → wqeDormant s w = false →
      (∀ k, k ≠ q → ∀ u, u = s ∨ u = wqServe s q w → wqHead u k = none) → exec .triggerStart s = .next (wqServe s q w)))
  ∧ (∀ (s u : State) (m : Delivered) (r : List Delivered), s.itp.inbox = m :: r → u = { s with itp := { s.itp with inbox := r } } →
    (∀ k ∈ [(0x10, fun e => Instr.areq e, askAreq m), (0x12, fun e => .append e, askAppend m), (0x14, fun e => .release e, askRelease m), (0x16, fun e => .migrate e, askMigrate m)],
      (m.op = k.1 →
        exec (k.2.1 0) s = .next (intake u m k.2.2 false)
        ∧ exec (k.2.1 1) s = .next (refuseAsk (fault (uncorr u m.addr) .itp 0 0x60 none (cwIdx m.conn) (m.addr % 2 ^ 32)) m k.2.2 stCRC))
      ∧ (m.op ≠ k.1 → ∀ e, exec (k.2.1 e) s = .next s))
    ∧ (m.op ≠ 0x13 → ∀ e b, exec (.clone e b) s = .next s) ∧ (m.op ≠ 0x15 → ∀ e, exec (.cancel e) s = .next s) ∧ (m.op ≠ 0x17 → exec .mirrorAdone s = .next s)
    ∧ (m.op = 0x13 →
      (beAt m.ext 4 4 ≠ 0xFFFFFFFE → exec (.clone 0 none) s = .next (intake u m (askClone m) false))
      ∧ (∀ b, exec (.clone 1 b) s = .next (refuseAsk (fault (uncorr u m.addr) .itp 0 0x60 none (cwIdx m.conn) (m.addr % 2 ^ 32)) m (askClone m) stCRC))
      ∧ (beAt m.ext 4 4 = 0xFFFFFFFE → ∀ found v, found = rdlFind u (ofBE (u.readBytes m.addr 12)) (u.conn (cwIdx m.conn)).part →
        v = (match found with | some (_, e) => rdlCountHit (u.count Reg.RDL_LOOKUPS) e | none => u.count Reg.RDL_LOOKUPS) →
        exec (.clone 0 none) s = .next { v with rdl := { v.rdl with looks := v.rdl.looks ++ [⟨4, found, some m, s.time.up⟩] } }))
    ∧ (m.op = 0x15 →
      (∀ k, cancelTarget (stageFree u m.addr) m = some k → exec (.cancel 0) s = .next (cancelSlot (stageFree u m.addr) k))
      ∧ (cancelTarget (stageFree u m.addr) m = none → exec (.cancel 0) s = .next ((stageFree u m.addr).count Reg.ITP_STALE)))
    ∧ (m.op = 0x17 → ∀ id, id = beAt m.ext 0 4 →
      (∀ f, (stageFree u m.addr).fab.fwds.find? (fun f => f.slot == rSlot id && f.gen == rGen id && f.sent && f.far.isNone) = some f →
        exec .mirrorAdone s = .next (mirrorAnswer (stageFree u m.addr) f (beAt m.ext 8 1) (beAt m.ext 10 6)))
      ∧ ((stageFree u m.addr).fab.fwds = [] → exec .mirrorAdone s = .next (stageFree u m.addr)))
    ∧ (∀ slot f own, s.fab.fwds.find? (fun f => f.slot == slot && f.gen == (s.reqAt slot).gen && f.sent && f.far.isNone && f.own.isSome) = some f → f.own = some own →
      (mst s f.ctx = mstSYNC → f.sealTick + max 1 (s.fld Reg.FAB_MIR_TO 7 0) ≤ s.time.tick → exec (.mirrorTimeout slot) s =
        .next (if f.waits then complete (diverge { s with fab := { s.fab with fwds := s.fab.fwds.filter (· != f) } } f.ctx 0xFF) slot own.1 (s.reqAt slot).handle []
          else diverge { s with fab := { s.fab with fwds := s.fab.fwds.filter (· != f) } } f.ctx 0xFF))
      ∧ (mst s f.ctx ≠ mstSYNC → exec (.mirrorTimeout slot) s = .next s)))

/-- R421: an enqueue command offers the control ring's next slot, or on an open connection with a live key its oldest control packet, else its next data
packet. R429: an idle live port starts the frame that its deficit round-robin picks, and where its buffer has an uncorrectable error its frame check
is spoiled and the error faulted; a port already sending starts none. The frame's end frees the wire and its buffer, counts it, and a control frame's
start time is kept under its own ring index for its write-back. R423: a gate edge moves to the edge's cc. R432: a telemetry sample with no period, or
whose next instant lies past the tick, takes nothing; another moves to its instant and hands each enabled entry's record to the rack's feed, or counts
it lost with event 3 where no channel serves the feed. The model's own readings and choices in it: assumptions 12, 19, 115. -/
def Obligations.EgressQueuesSendAndSample : Prop :=
  (∀ (i slot : Nat) (s : State) (c : Conn), i < 4096 → c = s.conn i → s.liveKey i c.txEpoch = some slot → c.st = .open_ → s.up .itp 0 = true → s.canSend i = true →
    (∀ x r, c.ctl = x :: r → exec (.egressEnqueue i) s = .next (offerCtl s i slot x))
    ∧ (∀ p m, c.ctl = [] → nextPkt s c = some (p, m) → exec (.egressEnqueue i) s = .next (offerPkt s i slot p m)))
  ∧ (∀ (src : Nat) (s : State), 4096 ≤ src → exec (.egressEnqueue src) s = .next (offerRing s))
  ∧ (∀ (port n k : Nat) (s : State), n = port / 8 → subPort s port = some k →
    ((s.port port).wire.isSome = true → ∀ bad, exec (.transmitDecision port bad) s = .next s)
    ∧ (∀ p1 q, (s.port port).wire = none → s.up .rak n = true → linkIsUp s port = true → (List.range 64).any (egEligible s port k (s.port port)) = true →
      drr s port k (drrOrder (s.port port).ptr) (s.port port) = (p1, some q) →
      exec (.transmitDecision port false) s = .next (startFrame s port q p1)
      ∧ exec (.transmitDecision port true) s = .next ((fault (spoilFcs (startFrame s port q p1) port) .rak n 0x68 none port q).count Reg.BST_INT_UNCORR)))
  ∧ (∀ (port : Nat) (s u v w : State) (x : OnWire), (s.port port).wire = some x → reachUp s x.fin = some u → v = u.setPort port { u.port port with wire := none } →
    w = { v with
      egBuf := SMap.set v.egBuf 0 (port / 8) (SMap.get v.egBuf 0 (port / 8) - x.frame.bytes)
      egLeft := SMap.set v.egLeft (0, 0) (port / 8) (v.time.up + 1,
        (if (SMap.get v.egLeft (0, 0) (port / 8)).1 = v.time.up + 1 then (SMap.get v.egLeft (0, 0) (port / 8)).2 else 0) + x.frame.bytes) }.count
          (Reg.ETH_TX_FRAMES (port / 8)) →
    (∀ slot, x.frame.kind = .ring slot → exec (.frameTxEnd port) s = .next { w with txDone := SMap.set w.txDone 0 slot (x.ts + 1) })
    ∧ ((∀ slot, x.frame.kind ≠ .ring slot) → exec (.frameTxEnd port) s = .next w))
  ∧ (∀ (port : Nat) (s : State), (s.port port).wire = none → exec (.frameTxEnd port) s = .next s)
  ∧ (∀ (port k o m : Nat) (s : State), subPort s port = some k → (gateList s port).find? (fun x => decide (s.time.cc < x.1)) = some (o, m) → s.time.running = true →
    exec (.gateEdge port) s = .next (overrun (s.ccTo o) port (gateMask (gateList s port) s.time.cc) m))
  ∧ (∀ (n : Nat) (s : State), n < 8 → (s.fld (Reg.RAK_TEL_PERIOD n) 23 0 = 0 ∨ s.lcc ≤ s.time.cc) → exec (.telemetrySample n) s = .next s)
  ∧ (∀ (n per at_ : Nat) (s u : State), n < 8 → per = s.fld (Reg.RAK_TEL_PERIOD n) 23 0 → per ≠ 0 → s.up .rak n = true → s.time.running = true →
    at_ = (if s.time.cc % per = 0 ∧ SMap.get s.telAt 0 n ≠ s.time.up + 1 then s.time.cc else (s.time.cc / per + 1) * per) → at_ < s.lcc →
    u = { s.ccTo at_ with telAt := SMap.set (s.ccTo at_).telAt 0 n ((s.ccTo at_).time.up + 1) } →
    exec (.telemetrySample n) s = .next ((List.range 8).foldl (telEntry n) u))
  ∧ (∀ (n e l w : Nat) (s : State), w = s.rg (Reg.RAK_TEL_SEL n e) →
    (bitOf w 15 = false → telEntry n s e = s)
    ∧ (bitOf w 15 = true → (List.range 8).find? (fun l => subPort s (8 * n + l) == some (bitsOf w 2 0)) = some l →
      (∀ ch, feedChannel s (n + 1) = some ch → telEntry n s e = { s with feeds := SMap.set s.feeds [] n (SMap.get s.feeds [] n ++ [feedRecord s (8 * n + l) (8 * bitsOf w 5 3 + bitsOf w 8 6)]) })
      ∧ (feedChannel s (n + 1) = none → telEntry n s e = event0 (s.count (Reg.RAK_TEL_LOST n)) .rak n 3)))

/-- R447: an epoch no later than the current one is refused with event 3 and counted; a later one waits for the boundary while the counter runs. R453:
SNAP, SYNC, BREAK and IMPORT leave their operands in FAB_MCMD's pending value for the boundary while the counter runs, and change nothing else. R444:
when a probe period has passed with the fabric on, each valid peer is probed, and the count starts again; before it, or off, nothing happens. R459: a
snapshot's copy of a lane copies its page, with FRM on. R464: a node in holdover for the time FAB_HOLD allows stops serving, once, with event 9 and a
suspicion of itself. The model's own readings and choices in it: assumptions 29, 30, 31, 139, 141. -/
def Obligations.FabricCommandsWaitOrRunAtOnce : Prop :=
  ∀ s : State,
    (∀ v, v < 2 ^ 32 →
      (seqDiff v (s.rg Reg.FAB_EPOCH) ≤ 0 → exec (.fabEpochNextWrite v) s = .next (event0 (s.count Reg.FAB_SKEW) .fab 0 3))
      ∧ (0 < seqDiff v (s.rg Reg.FAB_EPOCH) → s.time.running = true →
        exec (.fabEpochNextWrite v) s = .next { s with rwt := SMap.set s.rwt 0 Reg.FAB_EPOCH_NEXT (v + 1) }))
    ∧ (s.time.running = true → SMap.rises s.rwt 0 = true → ∀ slot gen, slot < 2 ^ 18 → gen < 256 →
      ∀ c ∈ [(1, Instr.snap slot gen), (2, .sync slot gen), (3, .breakMsg slot gen), (4, .importMsg slot gen)],
        ∃ t, exec c.2 s = .next t ∧ t.pendWord Reg.FAB_MCMD = slot + gen * 2 ^ 18 + c.1 * 2 ^ 26 ∧ { t with rwt := s.rwt } = s)
    ∧ (s.up .fab 0 = true → max 1 (s.fld Reg.FAB_HEALTH 23 8) ≤ s.fab.helloTicks → ∃ u, exec .helloProbePeriod s =
        .next { u with fab := { u.fab with helloTicks := 0, rot := u.fab.rot + 1 } } ∧ u = (validPeers s).foldl probePeer s)
    ∧ ((s.up .fab 0 = false ∨ s.fab.helloTicks < max 1 (s.fld Reg.FAB_HEALTH 23 8)) → exec .helloProbePeriod s = .next s)
    ∧ (∀ n x lane, s.fab.snap = some n → n.lanes.find? (fun x => x.lane == lane && !x.copied) = some x → s.en .frm 0 = true →
      ∀ u, u = copyLoc s (s.loc x.src) (s.loc x.dst) → exec (.snapshotCopyDone lane) s =
        .next { u with fab := { u.fab with snap := some { n with lanes := n.lanes.map fun y => if y = x then { y with copied := true } else y } } })
    ∧ (s.bit Reg.PTP_STAT 0 = true → s.fab.notServing = false → s.fld Reg.FAB_HOLD 23 0 ≤ s.fab.holdTicks → exec .holdoverServingStop s =
        .next (suspect (event { s with fab := { s.fab with notServing := true } } .fab 0 9 { i0 := s.fld Reg.FAB_HOLD 23 0 }) (s.fld Reg.FAB_NODE_ID 15 0) 4 0))
    ∧ ((s.bit Reg.PTP_STAT 0 = false ∨ s.fab.notServing = true ∨ s.fab.holdTicks < s.fld Reg.FAB_HOLD 23 0) → exec .holdoverServingStop s = .next s)

/-- R481: while no key is being derived a key command runs at once on its target; while one is, a command waits behind the others, and the 65th is lost.
While the key block is halted a command changes nothing (R29). R480: when the oldest derivation's 1,024 cc are over it ends, and where none is left
the waiting commands are served in order; with more to come they still wait. A derivation for a connection that is no longer what it was puts no key
anywhere, and one whose time the node does not reach in this tick goes on. The model's own readings and choices in it: assumptions 33, 65, 102, 129. -/
def Obligations.KeyCommandsRunInOrderOrWait : Prop :=
  (∀ (s : State) (k : Nat), k < 4096 → ∀ c ∈ [(1, Instr.installNext k), (2, .txSwitch k), (3, .retireOld k), (4, .rekeyJob k)],
    (s.halted .key 0 = true → exec c.2 s = .next s)
    ∧ (s.halted .key 0 = false → s.bit Reg.KEY_CMD_STAT 8 = false → exec c.2 s = .next (keyDo s c.1 k))
    ∧ (s.halted .key 0 = false → s.bit Reg.KEY_CMD_STAT 8 = true → s.itp.keyCmds.length < 64 → exec c.2 s = .next { s with itp := { s.itp with keyCmds := s.itp.keyCmds ++ [(c.1, k)] } })
    ∧ (s.halted .key 0 = false → s.bit Reg.KEY_CMD_STAT 8 = true → 64 ≤ s.itp.keyCmds.length → exec c.2 s = .next s))
  ∧ (∀ (s v u : State) (d : Derive) (r : List Derive), s.itp.derives = d :: r → reachUp s d.due = some v → u = deriveEnd { v with itp := { v.itp with derives := r } } d →
    (r ≠ [] → exec .keyDerivationDone s = .next u)
    ∧ (r = [] → exec .keyDerivationDone s = .next (keyServe (u.itp.keyCmds.length + 1) (u.setFld Reg.KEY_CMD_STAT 8 8 0)))
    ∧ (r = [] → u.itp.keyCmds = [] → exec .keyDerivationDone s = .next (u.setFld Reg.KEY_CMD_STAT 8 8 0)))
  ∧ (∀ s : State, s.itp.derives = [] → exec .keyDerivationDone s = .next s)
  ∧ (∀ (s : State) (d : Derive) (r : List Derive), s.itp.derives = d :: r → reachUp s d.due = none → exec .keyDerivationDone s = .next s)
  ∧ (∀ (s : State) (d : Derive), s.connCurrent d.conn = false → deriveEnd s d = s)

/-- R484: a reset of a partition that is not in reset begins to retire its key slots, zeroes its jobs and answers OK; of one in reset already, or being
retired, it answers MALFORMED. Its slots retire 8 in each cc that passes, and with the last of them its state becomes RETIRED and event 4 of the key
block is raised. R485: while the counter runs, a commit of a retired partition answers OK and waits for the boundary, once; a commit of a partition
that is not retired answers MALFORMED and nothing else changes. The model's own readings and choices in it: assumptions 36, 122, 127. -/
def Obligations.PartitionsResetInTwoCommands : Prop :=
  ∀ (p : Nat) (s : State), p < 64 →
    (resetting s p = true → exec (.prtResetStart p) s = .next (rstStat s stMALFORMED p))
    ∧ (resetting s p = false → ∀ a b, (boundsOf s.rg p).conn = (a, b) → ∃ u, exec (.prtResetStart p) s = .next (rstStat u stOK p) ∧ u = { s with
        itp := { s.itp with jobs := s.itp.jobs.filter fun kv => kv.2.part != p },
        prt := { s.prt with retiring := s.prt.retiring ++ [⟨p, 2 * a, 2 * b⟩], kept := SMap.set s.prt.kept 0 p 0 } })
    ∧ (s.prt.retiring.any (·.part == p) = true → resetting s p = true)
    ∧ (∀ r, s.prt.retiring = [r] →
      (∀ n, n < max 1 (ceilDiv r.left 8) → ∃ u, u = (retireSlots s r.first (8 * n)).clock n ∧
        s.ccPass n = { u with prt := { u.prt with retiring := [{ r with first := r.first + 8 * n, left := r.left - 8 * n }] } })
      ∧ (∀ n, n = max 1 (ceilDiv r.left 8) → ∃ u, u = (event (((retireSlots s r.first r.left).clock n).setFld (Reg.PRT_CTXR r.part) 30 28 2) .key 0 4 { i0 := r.part }).clock 0 ∧
        s.ccPass n = { u with prt := { u.prt with retiring := [] } }))
    ∧ (partState s p ≠ 2 → exec (.prtResetCommit p) s = .next (rstStat s stMALFORMED p))
    ∧ (partState s p = 2 → s.time.running = true →
      (s.prt.commits.contains p = false → exec (.prtResetCommit p) s = .next (rstStat { s with prt := { s.prt with commits := s.prt.commits ++ [p] } } stOK p))
      ∧ (s.prt.commits.contains p = true → exec (.prtResetCommit p) s = .next (rstStat s stMALFORMED p)))
    ∧ (s.ok → ∀ st, st < 256 → (rstStat s st p).fld Reg.PRT_RST_STAT 7 0 = st ∧ (rstStat s st p).fld Reg.PRT_RST_STAT 13 8 = p)

/-- R492: COMMIT_ARB raises each image's minimum version to that of the boot slot's image, at most 64, and raises event 5, with MALFORMED where an image's
is larger. R525: SELECT_SLOT records the preferred slot and forgets its tries. R494: RELOCK clears the unlocks. R503: with the attestation block on
and idle, NEWCHAL draws a challenge, REPORT asks for a report into its buffer, TOKEN submits the buffer's 252 bytes; with a buffer out of place they
answer MALFORMED; busy, nothing changes. R499: a signed report goes where it was asked for: its buffer, its session or the serial console. R494 to
R497: the token in front is judged by the command of its kind alone; one that is accepted has its effect, uses up the challenge and answers OK;
another answers AUTH with event 4 and has no effect. The model's own readings and choices in it: assumptions 5, 67. -/
def Obligations.LifecycleCommandsAnswer : Prop :=
  ∀ s : State,
    (∀ u, u = (List.range 3).foldl (fun t k => t.setFld Reg.LCS_ARB (8 * k + 6) (8 * k) (max (arbOf t k) (min 64 (t.image (bootSlot s) k).svn))) s →
      ((∀ k < 3, (s.image (bootSlot s) k).svn ≤ 64) → exec .commitArb s = .next (event0 (lcsStat u stOK) .lcs 0 5))
      ∧ ((∃ k, k < 3 ∧ 64 < (s.image (bootSlot s) k).svn) → exec .commitArb s = .next (event0 (lcsStat u stMALFORMED) .lcs 0 5)))
    ∧ exec .selectSlot s = .next (lcsStat { s with nv := { s.nv with recordOk := true, preferred := s.fld Reg.LCS_BOOT 2 2, tries := 0 } } stOK)
    ∧ exec .relock s = .next (lcsStat { s with lcs := { s.lcs with unlock := 0 } } stOK)
    ∧ (attTakes s = true → exec .newchal s = .next (attStat (newChallenge s) stOK)
      ∧ (attBufOk s = true → exec .report s = .next (attBusy (reportAsk s (regBytes s Reg.ATT_NONCE 8) (.mem (attBuf s))) true)
        ∧ exec .attToken s = .next (tokenSubmit (attBusy s true) (s.readBytes (attBuf s) 252) (.mem (attBuf s))))
      ∧ (attBufOk s = false → exec .report s = .next (attStat s stMALFORMED) ∧ exec .attToken s = .next (attStat s stMALFORMED)))
    ∧ (attTakes s = false → exec .newchal s = .next s ∧ exec .report s = .next s ∧ exec .attToken s = .next s)
    ∧ (∀ r rest u, s.lcs.reports = r :: rest → u = { s with lcs := { s.lcs with reports := rest } } →
      (∀ a, r.dest = .mem a → exec .reportSigned s = .next (event0 (attBusy (attStat (u.putBytes a (signReport s r.bytes)) stOK) false) .att 0 3))
      ∧ (∀ id, r.dest = .session id → exec .reportSigned s = .next (mgtAnswer u id (.vendor (signReport s r.bytes))))
      ∧ (r.dest = .serial → attBufOk u = true → ∀ v, v = u.putBytes (attBuf u) (signReport s r.bytes) →
        exec .reportSigned s = .next (event0 { v with uart := { status := stOK, out := signReport s r.bytes } } .att 0 3)))
    ∧ (∀ t rest u, s.lcs.tokens = t :: rest → u = { s with lcs := { s.lcs with tokens := rest } } →
      ∀ k ∈ [(1, Instr.debugUnlock, fun v : State => event0 { v with lcs := { v.lcs with unlock := Nat.lor v.lcs.unlock (tokScope t.bytes % 8) } } .lcs 0 3),
        (2, .deploy, fun v => setLife (setWords v Reg.LCS_OWNER ((List.range 12).map fun k => tokKeyDigest t.bytes / 2 ^ (32 * k) % 2 ^ 32)) 2),
        (3, .enterRma, fun v => setLife (rmaClear v) 3), (4, .scrap, fun v => setLife v 4), (5, .provision, fun v => setLife v 1)],
      (tokKind t.bytes = k.1 → tokAccepted s t.bytes = true → exec k.2.1 s = .next (tokenTell (newChallenge (k.2.2 u)) t.from_ stOK))
      ∧ (tokKind t.bytes = k.1 → tokAccepted s t.bytes = false → exec k.2.1 s = .next (event0 (tokenTell (newChallenge u) t.from_ stAUTH) .att 0 4))
      ∧ (tokKind t.bytes ≠ k.1 → exec k.2.1 s = .next s))

/-- R507: a due patrol word steps the position, which wraps after the last, and is counted in the tick's words; a correctable one counts for its memory,
an uncorrectable one counts too, records fault 0xB2 with the address, raises BST event 6, and poisons its frame if it lies in peat; the corrections
made on reads since are counted beside it, and a word not due or not granted only counts those. R508, R521: a frame not listed enters the poison list
at its end; one already there changes nothing; when 1,024 are listed the full bit is set and event 7 raised; a removed frame is not listed; in
SCRAPPED neither does anything. R322: a free, unbooked slice goes to a waiting partner first, then to the rotation's winner, and to the patrol where
its next word lies there and nobody waits. R512: a holder of 65,536 cc loses the port; the bite is fault 0x46, takes a partner's tile down, fails a
Trowel burst, a migrator copy or a fetch, and makes the patrol go on. R513: an arm command while BST holds no slice shows the tile armed; while one is
held it is ignored. R515: an abort drops an armed slice with CANCELLED and stops a running one at once, its tile re-initialized; a slice whose
signature matches ends OK, counts, clears the tile's quarantine bit and raises event 3; one that differs ends with CRC, fault 0xB0, the bit set and
event 4. R517, R519, R520: a memory command is taken in MANUFACTURE or RMA with the TPL disabled and a kind 1 to 4; elsewhere it answers AUTH or
MALFORMED, and while busy it is ignored. R518, R519: a run's end empties the memory, logs its fail records and answers OK; a soft repair maps the
repairable words until device reset, a fuse repair keeps them, or answers QUOTA when the fuses are exhausted. The model's own readings and choices in
it: assumptions 63, 64, 65, 88, 128. -/
def Obligations.SelfTestPatrolPoisonAndPortB : Prop :=
  ((∀ (s0 s : State) (a peat crown inner : Nat), s = ((s0.countBy Reg.BST_PEAT_CORR peat).countBy Reg.BST_CROWN_CORR crown).countBy Reg.BST_INT_CORR inner → a = patrolAddr s →
    ((patrolDue s = false ∨ (inPeat a = true ∧ (s.pb (sliceOf a)).holder.any (·.src == patrolSrc) = false)) → ∀ o, exec (.patrolWord ⟨o, peat, crown, inner⟩) s0 = .next s)
    ∧ (patrolDue s = true → (inPeat a = true → (s.pb (sliceOf a)).holder.any (·.src == patrolSrc) = true) → lifeState s ≠ 4 →
      ∀ u, u = { memRelease s a patrolSrc with bst := { s.bst with pos := (s.bst.pos + 1) % 587202560, words := s.bst.words + 1 } } →
      exec (.patrolWord ⟨0, peat, crown, inner⟩) s0 = .next u
      ∧ exec (.patrolWord ⟨1, peat, crown, inner⟩) s0 = .next (u.count (if inPeat a then Reg.BST_PEAT_CORR else Reg.BST_CROWN_CORR))
      ∧ (∀ v, v = event0 (fault (uncorr u a) .bst 0 0xB2 none (a % 2 ^ 32) (a / 2 ^ 32 % 256)) .bst 0 6 →
          exec (.patrolWord ⟨2, peat, crown, inner⟩) s0 = .next (if inPeat a then poisonAdd v (frameAt v ((a - peatBase) / 65536)) else v))))
  ∧ (∀ (s : State) (f : Nat), f < 2 ^ 32 → lifeState s ≠ 4 →
    (f ∉ s.poison → s.poison.length < 1024 → exec (.poisonAdd f) s = .next { s with poison := s.poison ++ [f] })
    ∧ (f ∈ s.poison → exec (.poisonAdd f) s = .next s)
    ∧ (f ∉ s.poison → 1024 ≤ s.poison.length → exec (.poisonAdd f) s = .next (event0 (s.setFld Reg.BST_POISON_CNT 31 31 1) .bst 0 7))
    ∧ (∃ t, exec (.poisonDel f) s = .next t ∧ (∀ x, x ∈ t.poison ↔ x ∈ s.poison ∧ x ≠ f) ∧ { t with poison := s.poison } = s))
  ∧ (∀ (s : State) (f : Nat), lifeState s = 4 → exec (.poisonAdd f) s = .next s ∧ exec (.poisonDel f) s = .next s)
  ∧ (∀ (n : Nat) (s : State) (b : PortB), n < 128 → b = s.pb n → b.holder = none → portBooked s n = false →
    (∀ r, (b.waiting.find? (·.src < 128) = some r ∨ (b.waiting.find? (·.src < 128) = none ∧ rotWinner b.rot b.waiting = some r)) →
      exec (.portBGrant n) s = .next (s.setPb n { waiting := b.waiting.erase r, rot := if r.src < 128 then b.rot else sharer r.src, holder := some { r with raised := s.time.up } }))
    ∧ (b.waiting.find? (·.src < 128) = none → rotWinner b.rot b.waiting = none → patrolDue s = true → inPeat (patrolAddr s) = true → sliceOf (patrolAddr s) = n →
      exec (.portBGrant n) s = .next (s.setPb n { b with holder := some ⟨patrolSrc, s.time.up⟩ })))
  ∧ (∀ (n : Nat) (s u : State) (h : PortReq), n < 128 → (s.pb n).holder = some h → h.raised + 65536 ≤ s.time.up →
    (∀ c, u = fault (s.setPb n { s.pb n with holder := none }) .til n 0x46 none c s.time.cc →
      (h.src < 128 → c = 0 → exec (.portBWatchdogBite n) s = .next (tileDown u h.src))
      ∧ (h.src = patrolSrc → c = 3 → exec (.portBWatchdogBite n) s = .next { u with bst := { u.bst with pos := (u.bst.pos + 1) % 587202560, words := u.bst.words + 1 } })
      ∧ (1024 ≤ h.src → c = 2 → exec (.portBWatchdogBite n) s = .next (fetchLost (moveLost u (h.src - 1024) stCRC) (h.src - 1024) stCRC))
      ∧ (∀ x e k, 256 ≤ h.src → h.src < 384 → c = 1 → e = (h.src - 256) % 64 / 16 → k = h.src % 16 / 2 →
          (u.trwCh e k).bursts.find? (fun x => x.slot == h.src % 2 && x.data.isSome == decide (320 ≤ h.src)) = some x →
          exec (.portBWatchdogBite n) s = .next (burstEnd u e k x.off (some stCRC))))))
  ∧ ((∀ (n : Nat) (s : State), n < 128 → s.up .bst 0 = true → lifeState s ≠ 4 →
    (lbArmed s = false → lbRunning s = false → exec (.lbistArm n) s = .next (s.setRg Reg.BST_LB_STAT (s.fld Reg.BST_LB_STAT 7 0 + n * 256 + 65536)))
    ∧ ((lbArmed s = true ∨ lbRunning s = true) → exec (.lbistArm n) s = .next s))
  ∧ (∀ s : State, lbRunning s = false → lbArmed s = true → exec .lbistAbort s = .next (s.setRg Reg.BST_LB_STAT (stCANCELLED + lbTile s * 256)))
  ∧ (∀ s : State, lbRunning s = true → exec .lbistAbort s = .next (lbEnd s stCANCELLED (s.time.up - s.bst.lbAt + 256)))
  ∧ (∀ (misr n : Nat) (s u v : State), lbRunning s = true → n = lbTile s → reachUp s (s.bst.lbAt + lbLength s + 256) = some u →
    v = setWords u Reg.BST_LB_MISR ((List.range 4).map fun k => misr / 2 ^ (32 * k) % 2 ^ 32) →
    ((∀ k, k < 4 → misr / 2 ^ (32 * k) % 2 ^ 32 = s.rg (Reg.BST_LB_GOLDEN k)) →
      exec (.lbistSliceEnd misr) s = .next (event0 (((lbEnd v stOK (lbLength s + 256)).count Reg.BST_LB_COUNT).setFld (Reg.BST_QUAR (n / 32)) (n % 32) (n % 32) 0) .bst 0 3))
    ∧ ((∃ k, k < 4 ∧ misr / 2 ^ (32 * k) % 2 ^ 32 ≠ s.rg (Reg.BST_LB_GOLDEN k)) →
      exec (.lbistSliceEnd misr) s
        = .next (event0 ((fault (lbEnd v stCRC (lbLength s + 256)) .bst 0 0xB0 none n (misr % 2 ^ 32)).setFld (Reg.BST_QUAR (n / 32)) (n % 32) (n % 32) 1) .bst 0 4)))
  ∧ (∀ (k : Nat) (s : State), ∀ c ∈ [(1, Instr.mbistRun k), (2, .softRepair k), (3, .fuseRepair k)],
    (s.bit Reg.BST_MB_STAT 8 = true → exec c.2 s = .next s)
    ∧ (s.bit Reg.BST_MB_STAT 8 = false → lifeOpen s = false → exec c.2 s = .next (s.setFld Reg.BST_MB_STAT 7 0 stAUTH))
    ∧ (s.bit Reg.BST_MB_STAT 8 = false → lifeOpen s = true → (s.en .tpl 0 = true ∨ k < 1 ∨ 4 < k) → exec c.2 s = .next (s.setFld Reg.BST_MB_STAT 7 0 stMALFORMED))
    ∧ (s.bit Reg.BST_MB_STAT 8 = false → lifeOpen s = true → s.en .tpl 0 = false → 1 ≤ k → k ≤ 4 →
      ∃ t, exec c.2 s = .next t ∧ t = { s.setFld Reg.BST_MB_STAT 8 8 1 with bst := { s.bst with mbOp := c.1, mbKind := k, mbDue := s.time.up + mbLength s c.1 k } }))
  ∧ (∀ (fails : List FailRec) (worst : Option Nat) (ex : Bool) (s0 s u : State), s0.bit Reg.BST_MB_STAT 8 = true → reachUp s0 s0.bst.mbDue = some s → u = s.setFld Reg.BST_MB_STAT 8 8 0 →
    (∀ v w, s.bst.mbOp = 1 → v = fails.foldl mbRecord ((mbWipe u s.bst.mbKind).setFld Reg.BST_MB_STAT 31 16 0) →
      w = { v with bst := { v.bst with repairable := (fails.filter fun f => bitOf f.flags 0 && s.bst.mbKind != 4).map fun f => (s.bst.mbKind, f.address) } } →
      (worst = none → exec (.mbistDone fails worst ex) s0 = .next (event0 (w.setFld Reg.BST_MB_STAT 7 0 stOK) .bst 0 5))
      ∧ (∀ a, worst = some a →
          exec (.mbistDone fails worst ex) s0 = .next (event0 ((fault w .bst 0 0xB1 none s.bst.mbKind (a % 2 ^ 32)).setFld Reg.BST_MB_STAT 7 0 stOK) .bst 0 5)))
    ∧ (s.bst.mbOp = 2 → exec (.mbistDone fails worst ex) s0
        = .next (event0 (({ u with bst := { u.bst with soft := u.bst.soft ++ u.bst.repairable } } : State).setFld Reg.BST_MB_STAT 7 0 stOK) .bst 0 5))
    ∧ (s.bst.mbOp = 3 → ex = true → exec (.mbistDone fails worst ex) s0 = .next (event0 (u.setFld Reg.BST_MB_STAT 7 0 stQUOTA) .bst 0 5))
    ∧ (s.bst.mbOp = 3 → ex = false → exec (.mbistDone fails worst ex) s0
        = .next (event0 (({ u with nv := { u.nv with repairs := u.nv.repairs ++ u.bst.repairable } } : State).setFld Reg.BST_MB_STAT 7 0 stOK) .bst 0 5))))

/-- R531: a device reset leaves every register at its reset value but those that show fuses and the drawn challenge, no context, request, connection, key
or tile at work, memory zero, and the fuses, QSPI contents and reset cause as they were, with the new cause's bit added. It comes when PWROK or
RESET_N falls, 100 µs after the word 0xA5C3_0001 was written to SYS_RESET (R532), by the MCX watchdog when its period passes without a kick (R541),
and by a direct cause. R562: a pin that falls in the cc of a thermal trip sets the trip's cause bit as well, and RESET_N is ignored from a trip on.
R555: a fall of a pin leaves the node waiting for t0, and both pins qualified start it with time zero. R523: a write of SYS_BOOT stamps the step's
time and raises event 3; a failure in step 1 or 2 holds the node in ROM, which takes no step from 3 on, and until Snius runs each step's number,
status and time is one line on the serial port (R524). The model's own readings and choices in it: assumptions 79, 80, 140. -/
def Obligations.ADeviceResetClearsTheNode : Prop :=
  (∀ (s t : State) (c : Nat), s.ok → t = deviceReset s c →
    t.pending = s.pending ∧ t.nv = s.nv ∧ t.mem = [] ∧ t.ctx = {} ∧ t.frm = {} ∧ t.tpl = {} ∧ t.tiles = [] ∧ t.itp = {} ∧ t.rdl = {} ∧ t.poison = [] ∧ t.ports = [] ∧ t.time = {} ∧ t.rwt = []
    ∧ (∀ a ∈ fuseRegs, t.rg a = s.rg a % 2 ^ 32) ∧ t.rg Reg.SYS_RESET_CAUSE = Nat.lor (s.rg Reg.SYS_RESET_CAUSE) (c % 32) % 2 ^ 32
    ∧ (∀ a, a ∉ fuseRegs → a ≠ Reg.PWR_VCORE → a ≠ Reg.SYS_RESET_CAUSE → (∀ k, k < 8 → a ≠ Reg.ATT_CHAL k) → t.rg a = regReset a))
  ∧ (∀ (s : State) (c : Nat),
    (c % 32 ≠ 4 → exec (.deviceReset c) s = .next (if s.lcs.started then bootStart (deviceReset s c) else deviceReset s c))
    ∧ (c % 32 = 4 → s.sys.resetAt = none → exec (.deviceReset c) s = .next s)
    ∧ (∀ a u, c % 32 = 4 → s.sys.resetAt = some a → reachUp s (a + 160000) = some u →
      exec (.deviceReset c) s = .next (if u.lcs.started then bootStart (deviceReset u c) else deviceReset u c)))
  ∧ (∀ s : State, (s.pwr.trip ≠ some s.time.up → exec .pwrokFall s = .next { deviceReset s 1 with lcs := { (deviceReset s 1).lcs with started := false } })
    ∧ (s.pwr.trip = some s.time.up → exec .pwrokFall s = .next { deviceReset s 9 with lcs := { (deviceReset s 9).lcs with started := false } })
    ∧ (s.pwr.hold = false → s.pwr.trip = none → exec .resetNFall s = .next { deviceReset s 2 with lcs := { (deviceReset s 2).lcs with started := false } })
    ∧ (∀ u, s.pwr.hold = false → s.pwr.trip = some s.time.up → u = deviceReset s 10 →
      exec .resetNFall s = .next { u with lcs := { u.lcs with started := false }, pwr := { u.pwr with hold := true } })
    ∧ (∀ a, s.pwr.trip = some a → a ≠ s.time.up → exec .resetNFall s = .next s)
    ∧ (s.pwr.hold = true → exec .resetNFall s = .next s)
    ∧ (s.lcs.started = false → s.pwr.hold = false → exec .pinsQualified s = .next (bootStart { s with time := {} }))
    ∧ (s.sys.resetAt = none → exec (.sysReset 0xA5C30001) s = .next { s with sys := { s.sys with resetAt := some s.time.up } })
    ∧ (∀ v, v ≠ 0xA5C30001 → exec (.sysReset v) s = .next s)
    ∧ exec (.sysWdogKick 0x5A5A) s = .next { s with sys := { s.sys with kickAt := s.time.up } }
    ∧ (∀ v, v ≠ 0x5A5A → exec (.sysWdogKick v) s = .next s)
    ∧ (s.bit Reg.SYS_WDOG 31 = false → exec .mcxWatchdogBite s = .next s))
  ∧ (∀ s u : State, s.bit Reg.SYS_WDOG 31 = true → reachUp s (s.sys.kickAt + 1600000 * max 1 (s.fld Reg.SYS_WDOG 23 0)) = some u →
    exec .mcxWatchdogBite s = .next (if u.lcs.started then bootStart (deviceReset u 16) else deviceReset u 16))
  ∧ (∀ (s u : State) (k st : Nat) (sv : Bool), 1 ≤ k → k ≤ 8 → st < 256 → (s.lcs.rom = false ∨ k < 3) →
    u = (s.setRg Reg.SYS_BOOT (k + st * 256 + b2n sv * 2 ^ 31)).setRg (Reg.SYS_STEPT (k - 1)) (s.uptimeUs % 2 ^ 32) →
    ∀ v, v = (if k ≤ 2 ∧ st ≠ 0 then { u with lcs := { u.lcs with rom := true } } else u) →
    exec (.sysBootWrite k st sv) s = .next (romLine (event (bootStepDone v k) .sys 0 3 { i0 := k, i1 := s.uptimeUs % 2 ^ 32 }) k st (s.uptimeUs % 2 ^ 32)))
  ∧ (∀ (s : State) (k st us : Nat),
    ((s.lcs.rom = true ∨ k < 4) → romLine s k st us = { s with uart := { s.uart with status := stOK, out := [k, st, us] } })
    ∧ (s.lcs.rom = false → 4 ≤ k → romLine s k st us = s))
  ∧ (∀ (s : State) (k st : Nat) (sv : Bool), s.lcs.rom = true → 3 ≤ k → k < 16 → exec (.sysBootWrite k st sv) s = .next s)

/-- R542: with the CLK block enabled, a reference or a PLL that was good and is lost clears its bit, is counted and raises event 3 or 4; one that is found
sets its bit; REFCLK_SYS shows its measured frequency, and its loss begins the holdover where it is the frequency source. R551, R552: a rail within
its tolerance sets its bit and ends its row of failures; the tenth failing sample in a row clears the bit and records fault 0xC6; others only count.
R553: the AVS target is the fused value plus the offset, held to 700 to 780 mV; a step moves the regulator by 2.5 mV at most toward it; the third
refusal in a row records fault 0xC4; a fault bit or an alert records 0xC5, and a current above its peak 0xC7. The model's own readings and choices in
it: assumptions 62, 66. -/
def Obligations.ClocksRailsAndRegulatorAct : Prop :=
  (∀ (r khz : Nat) (s : State), s.ok → s.en .clk 0 = true → 0 < r → r < 3 →
    (s.bit Reg.CLK_STAT r = true → exec (.refclkLoss r khz) s = .next (event ((s.setFld Reg.CLK_STAT r r 0).count Reg.CLK_LOSS) .clk 0 3 { i0 := r }))
    ∧ exec (.refclkReturn r khz) s = .next (s.setFld Reg.CLK_STAT r r 1))
  ∧ (∀ (khz : Nat) (s u v : State), s.ok → s.en .clk 0 = true → u = s.setRg Reg.CLK_SYS_KHZ (khz % 2 ^ 20) →
    v = event ((u.setFld Reg.CLK_STAT 0 0 0).count Reg.CLK_LOSS) .clk 0 3 { i0 := 0 } →
    (s.bit Reg.CLK_STAT 0 = true → exec (.refclkLoss 0 khz) s = .next (if freqSrc s = 0 then holdoverStart v else v))
    ∧ exec (.refclkReturn 0 khz) s = .next (u.setFld Reg.CLK_STAT 0 0 1))
  ∧ (∀ (p : Nat) (s : State), s.en .clk 0 = true → p < 4 →
    (s.bit Reg.CLK_STAT (8 + p) = true → exec (.pllUnlock p) s = .next (event ((s.setFld Reg.CLK_STAT (8 + p) (8 + p) 0).count Reg.CLK_LOSS) .clk 0 4 { i0 := 8 + p }))
    ∧ (s.bit Reg.CLK_STAT (8 + p) = false → exec (.pllUnlock p) s = .next s)
    ∧ exec (.pllLock p) s = .next (s.setFld Reg.CLK_STAT (8 + p) (8 + p) 1))
  ∧ (∀ (mv : List Nat) (s : State), mv.length = 21 → exec (.railMonitorSample mv) s = .next ((List.range 21).foldl (fun s r => railOne s r (mv.getD r 0)) s))
  ∧ (∀ (r mv nom tol n : Nat) (s : State), (nom, tol) = railSpec s r → n = SMap.get s.pwr.rails 0 r →
    (nom * (100 - tol) ≤ 100 * mv → 100 * mv ≤ nom * (100 + tol) → tol ≤ 100 →
      railOne s r mv = { s.setFld Reg.PWR_RAILS r r 1 with pwr := { s.pwr with rails := SMap.set s.pwr.rails 0 r 0 } })
    ∧ ((100 * mv < nom * (100 - tol) ∨ nom * (100 + tol) < 100 * mv) → tol ≤ 100 →
      (n < 9 → railOne s r mv = { s with pwr := { s.pwr with rails := SMap.set s.pwr.rails 0 r (n + 1) } })
      ∧ (n = 9 → railOne s r mv = fault { s.setFld Reg.PWR_RAILS r r 0 with pwr := { s.pwr with rails := SMap.set s.pwr.rails 0 r 10 } } .pwr 0 0xC6 none r mv)
      ∧ (9 < n → railOne s r mv = { s with pwr := { s.pwr with rails := SMap.set s.pwr.rails 0 r 10 } })))
  ∧ (∀ s : State, 700 ≤ avsTarget s ∧ avsTarget s ≤ 780
    ∧ (700 ≤ (s.fld Reg.PWR_VCORE 25 16 : Int) + signedOf (s.fld Reg.PWR_VOFF 7 0) 8 → (s.fld Reg.PWR_VCORE 25 16 : Int) + signedOf (s.fld Reg.PWR_VOFF 7 0) 8 ≤ 780 →
        (avsTarget s : Int) = s.fld Reg.PWR_VCORE 25 16 + signedOf (s.fld Reg.PWR_VOFF 7 0) 8))
  ∧ (∀ (s u : State) (g : Nat), s.bit Reg.PWR_AVS_CFG 8 = true → s.pwr.trip = none → (s.pwr.avsAt = 0 ∨ s.pwr.avsAt - 1 + 16000 ≤ s.time.up) →
    g = 2 * avsTarget s → u = s.setFld Reg.PWR_VCORE 9 0 (avsTarget s) →
    (s.pwr.vcore = g → ∀ ok, exec (.avsStep ok) s = .next u)
    ∧ (s.pwr.vcore ≠ g → ∃ v, exec (.avsStep true) s = .next { u with pwr := { s.pwr with avsAt := s.time.up + 1, vcore := v, refused := 0 } }
        ∧ (s.pwr.vcore < g → v = min g (s.pwr.vcore + 5)) ∧ (g < s.pwr.vcore → v = max g (s.pwr.vcore - 5)))
    ∧ (s.pwr.vcore ≠ g → exec (.avsStep false) s = .next (avsRefused { u with pwr := { s.pwr with avsAt := s.time.up + 1 } } 0x21)))
  ∧ (∀ (s : State) (c : Nat), (s.pwr.refused < 2 → avsRefused s c = { s with pwr := { s.pwr with refused := s.pwr.refused + 1 } })
    ∧ (s.pwr.refused = 2 → avsRefused s c = event0 (fault { s with pwr := { s.pwr with refused := 0 } } .pwr 0 0xC4 none (s.fld Reg.PWR_AVS_CFG 6 0) c) .pwr 0 5))
  ∧ (∀ (st i : Nat) (s u v : State), s.bit Reg.PWR_AVS_CFG 8 = true → i < 65536 → st < 65536 → u = { s.setRg Reg.PWR_IOUT i with pwr := { s.pwr with refused := 0 } } →
    v = (if st = 0 then u else event0 (fault u .pwr 0 0xC5 none (u.fld Reg.PWR_AVS_CFG 6 0) st) .pwr 0 5) →
    exec (.avsPoll true st i) s = .next (if s.fld Reg.PWR_IPEAK 15 0 < i then fault v .pwr 0 0xC7 none i (s.fld Reg.PWR_IPEAK 15 0) else v)
    ∧ exec (.avsPoll false st i) s = .next (avsRefused s 0x79)
    ∧ exec (.pmbAlert st) s = .next (event0 (fault s .pwr 0 0xC5 none (s.fld Reg.PWR_AVS_CFG 6 0) st) .pwr 0 5))

/-- R557: a reading is shown in its sensor's register, marked invalid outside −40 to 150 °C; one that becomes invalid records fault 0xC1 and raises event
6. R559: a valid sensor at or above 115 °C in two samples in a row trips the node, and 1,600 cc later the device is reset and held, until PWROK falls.
R558: the allowance is the maximum up to the soft limit, the minimum from 105 °C, between them the rule's proportion but no less than the minimum; 0
while FAULT_N is low from outside or stuck, and no more than the minimum while a sensor is invalid; the sample writes it, with fault 0xC0 from 105 °C.
R560: a low from outside is counted and records fault 0xC2, or resets the node where ext_reset is set; R561: more than 8 falls in a second make the
pin stuck with fault 0xC3, which only a clear after 1 ms high ends. The model's own readings and choices in it: assumption 66. -/
def Obligations.HeatAndFaultPinLimitTheNode : Prop :=
  (∀ (k w : Nat) (s : State), w < 4096 →
    (tempValid w = true → senseOne s k w = s.setRg (Reg.PWR_TSENS k) w)
    ∧ (tempValid w = false → s.bit (Reg.PWR_TSENS k) 31 = true → senseOne s k w = s.setRg (Reg.PWR_TSENS k) (w + 2 ^ 31))
    ∧ (tempValid w = false → s.bit (Reg.PWR_TSENS k) 31 = false →
        senseOne s k w = event0 (fault (s.setRg (Reg.PWR_TSENS k) (w + 2 ^ 31)) .pwr 0 0xC1 none k w) .pwr 0 6)
    ∧ (tempValid w = true ↔ -320 ≤ signedOf w 12 ∧ signedOf w 12 ≤ 1200))
  ∧ (∀ (rs : List Nat) (s u v : State), rs.length = 28 → u = (List.range 28).foldl (fun s k => senseOne s k (rs.getD k 0)) s →
    (∀ k w, senseMax u = some (k, w) → v = u.setRg Reg.PWR_TEMP (w + k * 65536)) → (senseMax u = none → v = u) →
    ∃ t, exec (.sensorSample rs) s = .next t ∧ { t with pwr := v.pwr } = v
      ∧ (∀ k, k ∈ t.pwr.hot ↔ k < 28 ∧ v.bit (Reg.PWR_TSENS k) 31 = false ∧ 920 ≤ signedOf (v.fld (Reg.PWR_TSENS k) 11 0) 12)
      ∧ (s.pwr.trip = none → (∃ k, k ∈ t.pwr.hot ∧ k ∈ s.pwr.hot) → t.pwr.trip = some v.time.up)
      ∧ (s.pwr.trip = none → (∀ k, k ∈ t.pwr.hot → k ∉ s.pwr.hot) → t.pwr.trip = v.pwr.trip)
      ∧ (∀ x, s.pwr.trip = some x → t.pwr.trip = v.pwr.trip))
  ∧ (∀ (s u : State) (x : Nat), s.pwr.trip = some x → reachUp s (x + 1600) = some u →
    exec .thermtripReset s = .next { deviceReset u 8 with lcs := { (deviceReset u 8).lcs with started := false }, pwr := { (deviceReset u 8).pwr with hold := true } })
  ∧ (∀ s : State, s.pwr.trip = none → exec .thermtripReset s = .next s)
  ∧ (∀ (s : State) (t soft mx mn : Nat), t = s.fld Reg.PWR_TEMP 11 0 → soft = s.fld Reg.PWR_TSOFT 11 0 → mx = s.rg Reg.PWR_MAX_UJ → mn = s.rg Reg.PWR_MIN_UJ →
    mn ≤ mx → signedOf soft 12 < 840 →
    ((s.pwr.low = true ∨ s.bit Reg.PWR_FAULTN 2 = true) → allowance s = 0)
    ∧ (s.pwr.low = false → s.bit Reg.PWR_FAULTN 2 = false → senseBad s = false →
      (signedOf t 12 ≤ signedOf soft 12 → allowance s = mx) ∧ (840 ≤ signedOf t 12 → allowance s = mn)
      ∧ (signedOf soft 12 < signedOf t 12 → signedOf t 12 < 840 → allowance s = max mn (mx * (840 - signedOf t 12).toNat / (840 - signedOf soft 12).toNat)))
    ∧ (senseBad s = true → allowance s ≤ mn))
  ∧ (∀ s u v : State, s.time.running = true → s.up .pwr 0 = true → u = s.ccTo (s.lcc - 4096) →
    v = (if 840 ≤ signedOf (u.fld Reg.PWR_TEMP 11 0) 12 then fault u .pwr 0 0xC0 none (u.fld Reg.PWR_TEMP 20 16) (u.fld Reg.PWR_TEMP 11 0) else u) →
    exec .allowanceSample s = .next (if s.rg Reg.PWR_TALLOW = s.rg Reg.PWR_MAX_UJ ∧ allowance v < s.rg Reg.PWR_MAX_UJ then event0 (v.setRg Reg.PWR_TALLOW (allowance v)) .pwr 0 3
      else v.setRg Reg.PWR_TALLOW (allowance v)))
  ∧ (∀ (s u : State) (f : List Nat), faultnDrives s = false → s.pwr.low = false → s.bit Reg.PWR_FAULTN 9 = false →
    f = (s.pwr.falls.filter fun x => decide (s.nodeTime < x + 8000000000)) ++ [s.nodeTime] →
    u = event0 (fault { (s.count Reg.PWR_FAULTN_CNT).setFld Reg.PWR_FAULTN 0 0 0 with pwr := { s.pwr with low := true, falls := f } } .pwr 0 0xC2 none 0 s.time.cc) .pwr 0 4 →
    (f.length ≤ 8 → exec .faultNAsserted s = .next u)
    ∧ (8 < f.length → exec .faultNAsserted s = .next ((fault u .pwr 0 0xC3 none f.length 0).setFld Reg.PWR_FAULTN 2 2 1)))
  ∧ (∀ s : State, faultnDrives s = false → s.pwr.low = false → s.bit Reg.PWR_FAULTN 9 = true →
    exec .faultNAsserted s = .next (if s.lcs.started then bootStart (deviceReset s 0) else deviceReset s 0))
  ∧ (∀ s : State, (faultnDrives s = false → s.pwr.low = true →
      exec .faultNReleased s = .next { s.setFld Reg.PWR_FAULTN 0 0 1 with pwr := { s.pwr with low := false, highAt := s.time.up + 1 } })
    ∧ (s.pwr.low = false → faultnDrives s = false → s.pwr.highAt - 1 + 1600000 ≤ s.time.up → exec .faultnClear s = .next (s.setFld Reg.PWR_FAULTN 2 2 0))
    ∧ ((s.pwr.low = true ∨ faultnDrives s = true ∨ s.time.up < s.pwr.highAt - 1 + 1600000) → exec .faultnClear s = .next s))

/-- R538: Snius ignores a line while it does not run or takes no input. R539: a line with a framing or parity error is counted and answered CRC, one too
long MALFORMED; a range or count outside its limits is answered MALFORMED. R538: a memory read or a write is answered AUTH and does nothing while the
write scope is closed; every write that runs is counted and raises UART event 3. R537: peek prints words as address and value, dump bytes in address
order, each up to the first word that fails; a word of fen memory waits for its channel's grant (R45), and the command goes on with it; poke writes
one word, fill one value to each word, load the words of its data where the CRC matches and CRC otherwise; events prints the device ring's last
records, tiles five values for each tile, lifecycle the state and counters; attest asks for a report. R539: a break over 1 s stops reception with
event 4 until the line is idle. The model's own readings and choices in it: assumptions 75, 76, 77, 78, 102, 129. -/
def Obligations.SniusAnswersItsCommandLines : Prop :=
  (∀ (s : State) (l : SerialLine) (a n v : Nat) (bad : Option Nat) (d : List Nat) (crc : Nat),
    ∀ c ∈ [Instr.peek l a n bad, .poke l a v, .dump l a n bad, .fill l a n v, .load l a n d crc, .events l n, .tiles l, .lifecycle l, .attest l d],
    (sniusHears s = false → exec c s = .next s)
    ∧ (sniusHears s = true → l = .garbled → exec c s = .next { s.count Reg.UAR_ERR with uart := { status := stCRC, out := [] } })
    ∧ (sniusHears s = true → l = .tooLong → exec c s = .next { s with uart := { status := stMALFORMED, out := [] } }))
  ∧ (∀ s : State, sniusHears s = true → ∀ (a n v : Nat) (bad : Option Nat) (d : List Nat) (crc : Nat),
    ((n = 0 ∨ 16 < n) → exec (.peek .clean a n bad) s = .next (s.reply stMALFORMED []))
    ∧ ((n < 4 ∨ 65536 < n ∨ n % 4 ≠ 0) → exec (.dump .clean a n bad) s = .next (s.reply stMALFORMED []) ∧ exec (.fill .clean a n v) s = .next (s.reply stMALFORMED [])
        ∧ exec (.load .clean a n d crc) s = .next (s.reply stMALFORMED []))
    ∧ (1 ≤ n → n ≤ 16 → 2 ^ 26 ≤ a → sniusOpen s = false → exec (.peek .clean a n bad) s = .next (s.reply stAUTH []))
    ∧ (1 ≤ n → n ≤ 16 → a < 2 ^ 26 → ∀ t st xs, sniusGets s a bad 0 n = (t, st, xs) →
        exec (.peek .clean a n bad) s = .next (t.reply st (xs.flatMap fun x => [x.1, x.2])))
    ∧ (4 ≤ n → n ≤ 65536 → n % 4 = 0 →
        (sniusOpen s = false → (2 ^ 26 ≤ a → exec (.dump .clean a n bad) s = .next (s.reply stAUTH [])) ∧ exec (.fill .clean a n v) s = .next (s.reply stAUTH [])
          ∧ exec (.load .clean a n d crc) s = .next (s.reply stAUTH []))
        ∧ (a < 2 ^ 26 → ∀ t st xs, sniusGets s a bad 0 (n / 4) = (t, st, xs) →
            exec (.dump .clean a n bad) s = .next (t.reply st (xs.flatMap fun x => toLE 4 x.2)))
        ∧ (2 ^ 26 ≤ a → sniusOpen s = true → exec (.dump .clean a n bad) s = .next (sniusAfter false .bytes bad (wordsRun (sniusRefused false) 5 false bad s a [] 0 (List.replicate (n / 4) 0))))
        ∧ (sniusOpen s = true → ∀ vs, vs = List.replicate (n / 4) (v % 2 ^ 32) →
            (a < 2 ^ 26 → ∀ t st, sniusPuts s a vs = (t, st) → exec (.fill .clean a n v) s = .next ((event0 (t.count Reg.UAR_WRITES) .uar 0 3).reply st []))
            ∧ (2 ^ 26 ≤ a → exec (.fill .clean a n v) s = .next (sniusAfter true .words none (wordsRun (sniusRefused true) 5 true none s a [] 0 vs))))
        ∧ (sniusOpen s = true → d.length = n → crc32c (d.map (· % 256)) = crc % 2 ^ 32 → ∀ vs, vs = wordsOf d (n / 4) →
            (a < 2 ^ 26 → ∀ t st, sniusPuts s a vs = (t, st) → exec (.load .clean a n d crc) s = .next ((event0 (t.count Reg.UAR_WRITES) .uar 0 3).reply st []))
            ∧ (2 ^ 26 ≤ a → exec (.load .clean a n d crc) s = .next (sniusAfter true .words none (wordsRun (sniusRefused true) 5 true none s a [] 0 vs))))
        ∧ (sniusOpen s = true → d.length = n → crc32c (d.map (· % 256)) ≠ crc % 2 ^ 32 → exec (.load .clean a n d crc) s = .next (s.reply stCRC [])))
    ∧ (sniusOpen s = false → exec (.poke .clean a v) s = .next (s.reply stAUTH []))
    ∧ (sniusOpen s = true → a < 2 ^ 26 → ∀ t st, sniusPut s a (v % 2 ^ 32) = (t, st) → exec (.poke .clean a v) s = .next ((event0 (t.count Reg.UAR_WRITES) .uar 0 3).reply st []))
    ∧ (∀ wr k, wr = s.rg Reg.SYS_RING_WR → k = min n (min wr (2 ^ ringLog2 s 0)) → exec (.events .clean n) s
        = .next (s.reply stOK ((List.range k).flatMap fun i => s.readBytes (s.rg64 Reg.SYS_RING_BASE_LO + 32 * ((wr - k + i) % 2 ^ ringLog2 s 0)) 32)))
    ∧ exec (.tiles .clean) s = .next (s.reply stOK ((List.range 128).flatMap fun n =>
        [n, readValue s (Reg.TIL_MODE n) % 4, bitsOf (readValue s (Reg.TIL_STATE n)) 2 0, bitsOf (readValue s (Reg.TIL_STATE n)) 15 8, readValue s (Reg.TIL_PC n)]))
    ∧ exec (.lifecycle .clean) s = .next (s.reply stOK [lifeState s, openScopes s, bootSlot s, s.fld Reg.LCS_BOOT 1 1, arbOf s 0, arbOf s 1, arbOf s 2])
    ∧ (d.length = 32 → exec (.attest .clean d) s = .next { s with lcs := { s.lcs with reports := s.lcs.reports ++ [⟨reportBody s d, .serial⟩] } })
    ∧ (d.length ≠ 32 → exec (.attest .clean d) s = .next (s.reply stMALFORMED [])))
  ∧ (∀ (s : State) (a v : Nat) (bad : Option Nat), sniusHears s = true → sniusOpen s = true → 2 ^ 26 ≤ a →
    (memRefused s a false = true → exec (.peek .clean a 1 bad) s = .next (s.reply stMALFORMED []))
    ∧ (memRefused s a true = true → exec (.poke .clean a v) s = .next ((event0 (s.count Reg.UAR_WRITES) .uar 0 3).reply stMALFORMED []))
    ∧ (inFen a = false →
      (memRefused s a false = false → exec (.peek .clean a 1 none) s = .next (s.reply stOK [a, s.readLE a 4]) ∧ exec (.peek .clean a 1 (some 0)) s = .next ((uncorr s a).reply stCRC []))
      ∧ (memRefused s a true = false → ∀ u, u = pathWritten (s.writeLE a 4 (v % 2 ^ 32)) a (s.readLE a 4) →
        exec (.poke .clean a v) s = .next ((event0 (u.count Reg.UAR_WRITES) .uar 0 3).reply stOK [])))
    ∧ (inFen a = true →
      (memRefused s a false = false → ∀ u, u = dpwHold s 5 false a 0 →
        exec (.peek .clean a 1 bad) s = .next { u with uart := { u.uart with job := some ({ write := false, addr := a, todo := [0], bad := bad }, .words) } })
      ∧ (memRefused s a true = false → ∀ u, u = dpwHold s 5 true a (v % 2 ^ 32) →
        exec (.poke .clean a v) s = .next { u with uart := { u.uart with job := some ({ write := true, addr := a, todo := [v % 2 ^ 32] }, .words) } })))
  ∧ (∀ (s : State) (h : DpwHeld) (bad : Bool), s.dpw.find? (·.core == 5) = some h →
    ((h.asked = false ∨ fenPending s (addrStack h.addr) (addrPc h.addr) 133 = true) → exec (.dpwHeldComplete 5 bad) s = .next s)
    ∧ (h.asked = true → fenPending s (addrStack h.addr) (addrPc h.addr) 133 = false → ∀ u r p, u = { s with dpw := s.dpw.filter (·.core != 5) } → s.uart.job = some (r, p) →
      exec (.dpwHeldComplete 5 bad) s = .next (sniusAfter r.write p r.bad (wordsResume (sniusRefused r.write) 5 r bad u))))
  ∧ (∀ (s : State) (us : Nat), (1000000 < us → s.up .uar 0 = true → s.bit Reg.UAR_STAT 0 = false → exec (.uartBreak us) s = .next (event0 (s.setFld Reg.UAR_STAT 0 0 1) .uar 0 4))
    ∧ (us ≤ 1000000 → exec (.uartBreak us) s = .next s)
    ∧ exec .uartRxResume s = .next (s.setFld Reg.UAR_STAT 0 0 0))

/-- Each of these commands completes, and its own effect is in the state it leaves. R134: no look-aside entry of an invalidated slot is left, and none at
all once all are. R362: a transmit ring's index reads as it was written, and the ring's read index moves on by one slot when a management port has
sent it. R359, R361: an untagged broadcast ARP frame that a port takes, or a management port, is punted as kind 4. R356: a link that comes up on an
enabled, usable port reads as up and trained, and on a link that is up a degraded code reads as such. R513, R515, R517: an armed self-test slice reads
as armed with its tile and an aborted one as CANCELLED; a memory self-test or repair that is taken reads as busy with its operation and kind. R508: an
added frame is in the poison list and a removed one is not. R484, R485: a partition whose reset has started is in reset, and a commit that is taken
waits for the boundary. R531, R532, R541: a fall of PWROK, or of RESET_N outside a hold, and a direct cause before start-up leave memory, tiles,
queues and connections empty; the reset word starts the reset's delay, a kick restarts the watchdog's period. R559, R561: the device that overheated
is held, and a stuck FAULT_N whose pin has been high for 1 ms reads as not stuck. -/
def Obligations.CommandsLeaveTheirEffectToRead : Prop :=
  ∀ s : State, s.ok →
    (∀ slot, slot < 2 ^ 18 → ∃ t, exec (.labInvalidateSlot slot) s = .next t ∧ ∀ kv ∈ t.ctx.lab, ∀ e ∈ kv.2, e.slot ≠ slot)
    ∧ (∃ t, exec .labInvalidateAll s = .next t ∧ t.ctx.lab = [])
    ∧ (∀ ring wr, ring < 3 → ∃ t, exec (.txRingWrite ring wr) s = .next t ∧ t.rg (fringBase ring 1 + 0x0C) = wr % 2 ^ 32 ∧ ∀ a, a ≠ fringBase ring 1 + 0x0C → t.rg a = s.rg a)
    ∧ (∀ ring a, 1 ≤ ring → ring < 3 → a = fringBase ring 1 → (s.rg (a + 0x0C) + 2 ^ 32 - s.rg (a + 0x10)) % 2 ^ 32 ≠ 0 → fringOk s a = true →
        txSlotOk s ring (fringSlot s a (s.rg (a + 0x10))) = true → s.en .mgt (ring - 1) = true → s.bit (Reg.MGT_STAT (ring - 1)) 0 = true →
        ∃ t, exec (.controlTxDone ring) s = .next t ∧ t.rg (a + 0x10) = (s.rg (a + 0x10) + 1) % 2 ^ 32)
    ∧ (∀ port n k f, n = port / 8 → subPort s port = some k → linkIsUp s port = true → (∀ x ∈ f, x < 256) → 60 ≤ f.length → f.length ≤ 9212 → macOf f 0 = 0xFFFFFFFFFFFF →
        beAt f 12 2 = 0x0806 → ∀ u, u = (s.countBy (Reg.ETH_FEC_CORR n) 0).countBy (Reg.ETH_FEC_UNCORR n) 0 → u.bit (Reg.ETH_VLAN n k) 12 = false →
        exec (.frameReceive port true ⟨f, 0, 0⟩) s = .next (puntFrame (u.count (Reg.ETH_RX_FRAMES n)) n port 4 0 0x0806 f (f.drop 14)))
    ∧ (∀ n f, n < 2 → s.en .mgt n = true → s.bit (Reg.MGT_STAT n) 0 = true → (∀ x ∈ f, x < 256) → 60 ≤ f.length → f.length ≤ 2016 → macOf f 0 = 0xFFFFFFFFFFFF → beAt f 12 2 = 0x0806 →
        exec (.mgtFrameReceive n true f) s = .next (puntWrite (s.count (Reg.MGT_RX_FRAMES n)) (n + 1) (64 + n) 4 0 none f))
    ∧ (∀ port n k, n = port / 8 → n < 8 → subPort s port = some k →
        (s.bit (Reg.ETH_PSTAT n k) 0 = false → s.en .eth n = true → portUsable s port = true → ∃ u v, u = s.setRg (Reg.ETH_PSTAT n k) v ∧
          exec (.linkChange port true) s = .next (synceTurn (event u .eth n 3 { i0 := port })) ∧ u.bit (Reg.ETH_PSTAT n k) 0 = true ∧ u.bit (Reg.ETH_PSTAT n k) 2 = true)
        ∧ (linkIsUp s port = true → ∃ u v, u = s.setRg (Reg.ETH_PSTAT n k) v ∧ exec (.fecDegrade port) s = .next (event u .eth n 6 { i0 := port }) ∧ u.bit (Reg.ETH_PSTAT n k) 3 = true))
    ∧ (∀ n, n < 128 → s.up .bst 0 = true → lifeState s ≠ 4 → lbArmed s = false → lbRunning s = false → ∃ t, exec (.lbistArm n) s = .next t ∧ lbArmed t = true ∧ lbTile t = n)
    ∧ (lbRunning s = false → lbArmed s = true → ∃ t, exec .lbistAbort s = .next t ∧ lbArmed t = false ∧ t.fld Reg.BST_LB_STAT 7 0 = stCANCELLED ∧ lbTile t = lbTile s)
    ∧ (∀ k, 1 ≤ k → k ≤ 4 → s.bit Reg.BST_MB_STAT 8 = false → lifeOpen s = true → s.en .tpl 0 = false →
        ∀ c ∈ [(1, Instr.mbistRun k), (2, .softRepair k), (3, .fuseRepair k)], ∃ t, exec c.2 s = .next t ∧ t.bit Reg.BST_MB_STAT 8 = true ∧ t.bst.mbOp = c.1 ∧ t.bst.mbKind = k)
    ∧ (∀ f, f < 2 ^ 32 → lifeState s ≠ 4 →
        (s.poison.length < 1024 → ∃ t, exec (.poisonAdd f) s = .next t ∧ f ∈ t.poison) ∧ ∃ t, exec (.poisonDel f) s = .next t ∧ f ∉ t.poison)
    ∧ (∀ p, p < 64 → resetting s p = false → ∃ t, exec (.prtResetStart p) s = .next t ∧ resetting t p = true ∧ t.fld Reg.PRT_RST_STAT 7 0 = stOK ∧ t.fld Reg.PRT_RST_STAT 13 8 = p)
    ∧ (∀ p, p < 64 → partState s p = 2 → s.prt.commits.contains p = false → s.time.running = true →
        ∃ t, exec (.prtResetCommit p) s = .next t ∧ p ∈ t.prt.commits ∧ t.fld Reg.PRT_RST_STAT 7 0 = stOK)
    ∧ (∃ t, exec .pwrokFall s = .next t ∧ t.lcs.started = false ∧ t.mem = [] ∧ t.tiles = [] ∧ t.tpl = {} ∧ t.itp = {})
    ∧ (s.pwr.hold = false → s.pwr.trip = none → ∃ t, exec .resetNFall s = .next t ∧ t.lcs.started = false ∧ t.mem = [] ∧ t.tiles = [] ∧ t.tpl = {} ∧ t.itp = {})
    ∧ (∀ c, c % 32 ≠ 4 → s.lcs.started = false → ∃ t, exec (.deviceReset c) s = .next t ∧ t.mem = [] ∧ t.tiles = [] ∧ t.tpl = {} ∧ t.itp = {})
    ∧ (s.sys.resetAt = none → ∃ t, exec (.sysReset 0xA5C30001) s = .next t ∧ t.sys.resetAt = some s.time.up)
    ∧ (∃ t, exec (.sysWdogKick 0x5A5A) s = .next t ∧ t.sys.kickAt = s.time.up)
    ∧ (∀ u x, s.pwr.trip = some x → reachUp s (x + 1600) = some u → ∃ t, exec .thermtripReset s = .next t ∧ t.pwr.hold = true ∧ t.lcs.started = false)
    ∧ (s.pwr.low = false → faultnDrives s = false → s.pwr.highAt - 1 + 1600000 ≤ s.time.up → ∃ t, exec .faultnClear s = .next t ∧ t.bit Reg.PWR_FAULTN 2 = false)
    ∧ (faultnDrives s = false → s.pwr.low = true → ∃ t, exec .faultNReleased s = .next t ∧ t.pwr.low = false ∧ t.bit Reg.PWR_FAULTN 0 = true)

end
end

