-- ==== Sys2Proof/Laws/SMap.lean ====
section
/-!
SUPPORT. Laws of sparse tables, memory and the register file: a read after a write, and the canonical form that every write
and every clearing of a range keeps.
-/

namespace Sys2Proof.Machine

variable {α : Type}

theorem SMap.rises_mono (m : SMap α) {a b : Nat} (h : b ≤ a) : SMap.rises m a = true → SMap.rises m b = true := by
  cases m with
  | nil => simp [SMap.rises]
  | cons x r => simp only [SMap.rises, Bool.and_eq_true, decide_eq_true_eq]; exact fun ⟨h1, h2⟩ => ⟨by omega, h2⟩

theorem SMap.get_below (m : SMap α) (d : α) {lo k : Nat} (h : SMap.rises m lo = true) (hk : k < lo) :
    SMap.get m d k = d := by
  cases m with
  | nil => rfl
  | cons x r =>
    simp only [SMap.rises, Bool.and_eq_true, decide_eq_true_eq] at h
    simp only [SMap.get]
    rw [if_neg (by omega), if_pos (by omega)]

variable [DecidableEq α]

theorem SMap.rises_set (m : SMap α) (d : α) (k : Nat) (v : α) :
    ∀ lo, lo ≤ k → SMap.rises m lo = true → SMap.rises (SMap.set m d k v) lo = true := by
  induction m with
  | nil => intro lo hk _; by_cases h : v = d <;> simp [SMap.set, SMap.rises, h, hk]
  | cons x r ih =>
    obtain ⟨k', v'⟩ := x
    intro lo hk h
    simp only [SMap.rises, Bool.and_eq_true, decide_eq_true_eq] at h
    obtain ⟨h1, h2⟩ := h
    simp only [SMap.set]
    split
    · split
      · exact SMap.rises_mono r (by omega) h2
      · subst_vars; simp [SMap.rises, h1, h2]
    · split
      · split
        · simp [SMap.rises, h1, h2]
        · simp only [SMap.rises, Bool.and_eq_true, decide_eq_true_eq]; exact ⟨hk, by omega, h2⟩
      · simp only [SMap.rises, Bool.and_eq_true, decide_eq_true_eq]; exact ⟨h1, ih _ (by omega) h2⟩

/-- Every entry of the table that a write leaves is an old one or the one written. -/
theorem SMap.mem_set (m : SMap α) (d : α) (k : Nat) (v : α) {x : Nat × α} (h : x ∈ SMap.set m d k v) :
    x ∈ m ∨ (x = (k, v) ∧ v ≠ d) := by
  induction m with
  | nil =>
    by_cases hv : v = d
    · simp [SMap.set, hv] at h
    · simp only [SMap.set, hv, if_false, List.mem_singleton] at h; exact .inr ⟨h, hv⟩
  | cons y r ih =>
    obtain ⟨k', v'⟩ := y
    simp only [SMap.set] at h
    split at h
    · split at h
      · exact .inl (List.mem_cons_of_mem _ h)
      · rcases List.mem_cons.mp h with h | h
        · subst_vars; exact .inr ⟨rfl, ‹_›⟩
        · exact .inl (List.mem_cons_of_mem _ h)
    · split at h
      · split at h
        · exact .inl h
        · rcases List.mem_cons.mp h with h | h
          · exact .inr ⟨h, ‹_›⟩
          · exact .inl h
      · rcases List.mem_cons.mp h with h | h
        · exact .inl (h ▸ List.mem_cons_self)
        · rcases ih h with h | h
          · exact .inl (List.mem_cons_of_mem _ h)
          · exact .inr h

/-- The value written is the value read. -/
theorem SMap.get_set_same (m : SMap α) (d : α) (k : Nat) (v : α) :
    ∀ lo, SMap.rises m lo = true → SMap.get (SMap.set m d k v) d k = v := by
  induction m with
  | nil => intro lo _; by_cases h : v = d <;> simp [SMap.set, SMap.get, h]
  | cons x r ih =>
    obtain ⟨k', v'⟩ := x
    intro lo h
    simp only [SMap.rises, Bool.and_eq_true, decide_eq_true_eq] at h
    simp only [SMap.set]
    split
    · split
      · rw [SMap.get_below r d h.2 (by omega)]; exact Eq.symm ‹_›
      · simp [SMap.get]
    · split
      · split
        · simp only [SMap.get]; rw [if_neg (by omega), if_pos (by omega)]; exact Eq.symm ‹_›
        · simp [SMap.get]
      · simp only [SMap.get]; rw [if_neg (by omega), if_neg (by omega)]; exact ih _ h.2

/-- Every other key reads as before, whatever the defaults. -/
theorem SMap.get_set_ne (m : SMap α) (d d' : α) (k j : Nat) (v : α) (hj : j ≠ k) :
    ∀ lo, SMap.rises m lo = true → SMap.get (SMap.set m d k v) d' j = SMap.get m d' j := by
  induction m with
  | nil => intro lo _; by_cases h : v = d <;> simp [SMap.set, SMap.get, h, hj]
  | cons x r ih =>
    obtain ⟨k', v'⟩ := x
    intro lo h
    simp only [SMap.rises, Bool.and_eq_true, decide_eq_true_eq] at h
    simp only [SMap.set]
    split
    · subst_vars
      split
      · simp only [SMap.get]; rw [if_neg hj]
        split
        · exact SMap.get_below r d' h.2 (by omega)
        · rfl
      · simp [SMap.get, hj]
    · split
      · split
        · rfl
        · simp only [SMap.get]; rw [if_neg hj]
          split
          · rw [if_neg (by omega), if_pos (by omega)]
          · rfl
      · simp only [SMap.get]; rw [ih _ h.2]

omit [DecidableEq α] in
theorem SMap.rises_filter (m : SMap α) (p : Nat × α → Bool) : ∀ lo, SMap.rises m lo = true → SMap.rises (m.filter p) lo = true := by
  induction m with
  | nil => simp [SMap.rises]
  | cons x r ih =>
    obtain ⟨k', v'⟩ := x
    intro lo h
    simp only [SMap.rises, Bool.and_eq_true, decide_eq_true_eq] at h
    simp only [List.filter_cons]
    split
    · simp only [SMap.rises, Bool.and_eq_true, decide_eq_true_eq]; exact ⟨h.1, ih _ h.2⟩
    · exact SMap.rises_mono _ (by omega) (ih _ h.2)

theorem SMap.wf_nil (d : α) : SMap.wf ([] : SMap α) d = true := by simp [SMap.wf, SMap.rises]

/-- A write keeps the canonical form. -/
theorem SMap.wf_set (m : SMap α) (d : α) (k : Nat) (v : α) (h : SMap.wf m d = true) : SMap.wf (SMap.set m d k v) d = true := by
  simp only [SMap.wf, Bool.and_eq_true, List.all_eq_true, Bool.not_eq_true', decide_eq_false_iff_not] at h ⊢
  refine ⟨SMap.rises_set m d k v 0 (Nat.zero_le _) h.1, fun x hx => ?_⟩
  rcases SMap.mem_set m d k v hx with hx | ⟨rfl, hv⟩
  · exact h.2 x hx
  · exact hv

/-- Dropping entries keeps the canonical form. -/
theorem SMap.wf_filter (m : SMap α) (d : α) (p : Nat × α → Bool) (h : SMap.wf m d = true) : SMap.wf (m.filter p) d = true := by
  simp only [SMap.wf, Bool.and_eq_true, List.all_eq_true, Bool.not_eq_true', decide_eq_false_iff_not] at h ⊢
  exact ⟨SMap.rises_filter m p 0 h.1, fun x hx => h.2 x (List.mem_filter.mp hx).1⟩

/-- A read after a write of a table in canonical form. -/
theorem SMap.get_set_wf (m : SMap α) (d : α) (k j : Nat) (v : α) (h : SMap.wf m d = true) :
    SMap.get (SMap.set m d k v) d j = if j = k then v else SMap.get m d j := by
  simp only [SMap.wf, Bool.and_eq_true] at h
  split
  · subst_vars; exact SMap.get_set_same m d _ v 0 h.1
  · exact SMap.get_set_ne m d d k j v ‹_› 0 h.1

/-! ### Memory and the register file -/

theorem Memory.wf_nil : Memory.wf [] = true := SMap.wf_nil _

/-- Storing a byte keeps memory in canonical form. -/
theorem Memory.wf_set (m : List Host.Cell) (a : Nat) (v : BitVec 8) (h : Memory.wf m = true) :
    Memory.wf (SMap.set m (0#8) a v) = true := SMap.wf_set m _ a v h

/-- Zeroing a range keeps memory in canonical form. -/
theorem Memory.wf_filter (m : List Host.Cell) (p : Host.Cell → Bool) (h : Memory.wf m = true) : Memory.wf (m.filter p) = true :=
  SMap.wf_filter m _ p h

theorem Regs.wf_nil : Regs.wf [] = true := by simp [Regs.wf, SMap.rises]

/-- Writing a register word keeps the register file in canonical form. -/
theorem Regs.wf_set (m : SMap Nat) (a v : Nat) (h : Regs.wf m = true) :
    Regs.wf (SMap.set m (regReset a) a (v % 2 ^ 32)) = true := by
  simp only [Regs.wf, Bool.and_eq_true, List.all_eq_true, Bool.not_eq_true', decide_eq_true_eq, decide_eq_false_iff_not] at h ⊢
  refine ⟨SMap.rises_set m _ a _ 0 (Nat.zero_le _) h.1, fun x hx => ?_⟩
  rcases SMap.mem_set m _ a _ hx with hx | ⟨rfl, hv⟩
  · exact h.2 x hx
  · exact ⟨Nat.mod_lt _ (by decide), hv⟩

/-- The byte stored is the byte read, and every other byte reads as before. -/
theorem State.cell_setCell (s : State) (a v j : Nat) (h : s.ok) :
    (s.setCell a v).cell j = if j = a then v % 256 else s.cell j := by
  simp only [State.cell, State.setCell, SMap.get_set_wf _ _ _ _ _ h.1]
  split <;> simp

/-- The word written is the word read, and every other word reads as before. -/
theorem State.rg_setRg (s : State) (a v j : Nat) (h : s.ok) :
    (s.setRg a v).rg j = if j = a then v % 2 ^ 32 else s.rg j := by
  obtain ⟨_, h⟩ := h
  simp only [Regs.wf, Bool.and_eq_true] at h
  simp only [State.rg, State.setRg]
  split
  · subst_vars; exact SMap.get_set_same s.regs _ _ _ 0 h.1
  · exact SMap.get_set_ne s.regs _ _ a j _ ‹_› 0 h.1

end Sys2Proof.Machine
end

