-- ==== Sys2Proof/Laws/Keeps.lean ====
section
/-!
SUPPORT. What the primitive updates of the state keep, and the shapes in which the larger operations hand a state on: the
lemmas that the files beside this one chain into `Keeps` for every command.
-/

namespace Sys2Proof.Machine

theorem Keeps.refl (s : State) : Keeps s s := ⟨rfl, Nat.le_refl _, Nat.le_refl _, id⟩

theorem Keeps.trans {s t u : State} (h : Keeps s t) (k : Keeps t u) : Keeps s u :=
  ⟨k.pending.trans h.pending, Nat.le_trans h.fresh k.fresh, Nat.le_trans h.boot k.boot, fun w => k.ok (h.ok w)⟩

/-- A state that differs in no field that `Keeps` names. -/
theorem Keeps.same {s0 s t : State} (h : Keeps s0 s) (hp : t.pending = s.pending) (hm : t.mem = s.mem) (hr : t.regs = s.regs)
    (hb : s.boot ≤ t.boot) (hf : s.fresh ≤ t.fresh) : Keeps s0 t :=
  h.trans ⟨hp, hf, hb, fun w => by simp only [State.ok, hm, hr]; exact w⟩

theorem Keeps.mem {s0 s t : State} (h : Keeps s0 s) (hp : t.pending = s.pending)
    (hm : Memory.wf s.mem = true → Memory.wf t.mem = true) (hr : t.regs = s.regs) (hb : t.boot = s.boot) (hf : t.fresh = s.fresh) :
    Keeps s0 t :=
  h.trans ⟨hp, hf ▸ Nat.le_refl _, hb ▸ Nat.le_refl _, fun w => by simp only [State.ok, hr]; exact ⟨hm w.1, w.2⟩⟩

variable {s0 s t : State} {β γ ε : Type}

/-- The next state of an outcome keeps what `Keeps` says. -/
theorem KeepsOut.next (h : Keeps s0 t) : KeepsOut s0 (.next t) := fun _ e => by cases e; exact h

theorem KeepsOut.use {o : Host.Outcome State Fault Refusal} (h : KeepsOut s0 o) (e : o = .next t) : Keeps s0 t := h t e

/-- Pairs, options and results that carry a state. -/
def KeepsPair (s0 : State) (p : State × β) : Prop := Keeps s0 p.1
def KeepsOpt (s0 : State) (o : Option State) : Prop := ∀ t, o = some t → Keeps s0 t
def KeepsOptP (s0 : State) (o : Option (State × β)) : Prop := ∀ t x, o = some (t, x) → Keeps s0 t
def KeepsOptQ (s0 : State) (o : Option (β × State)) : Prop := ∀ x t, o = some (x, t) → Keeps s0 t
def KeepsExc (s0 : State) (o : Except ε State) : Prop := ∀ t, o = .ok t → Keeps s0 t
def KeepsExcP (s0 : State) (o : Except ε (State × β)) : Prop := ∀ t x, o = .ok (t, x) → Keeps s0 t

theorem KeepsPair.mk {x : β} (h : Keeps s0 t) : KeepsPair s0 (t, x) := h
theorem KeepsPair.mk_iff {x : β} : KeepsPair s0 (t, x) = Keeps s0 t := rfl
theorem KeepsPair.use {p : State × β} {x : β} (h : KeepsPair s0 p) (e : p = (t, x)) : Keeps s0 t := by subst e; exact h
theorem KeepsPair.fst {p : State × β} (h : KeepsPair s0 p) : Keeps s0 p.1 := h
theorem KeepsOpt.none : KeepsOpt s0 none := fun _ e => by cases e
theorem KeepsOpt.some (h : Keeps s0 t) : KeepsOpt s0 (some t) := fun _ e => by cases e; exact h
theorem KeepsOpt.use {o : Option State} (h : KeepsOpt s0 o) (e : o = .some t) : Keeps s0 t := h t e
theorem KeepsOpt.getD {o : Option State} (h : KeepsOpt s0 o) (k : Keeps s0 t) : Keeps s0 (o.getD t) := by
  cases o with
  | none => exact k
  | some u => exact h u rfl
theorem KeepsOpt.orElse {o : Option State} {f : Unit → Option State} (h : KeepsOpt s0 o) (k : KeepsOpt s0 (f ())) :
    KeepsOpt s0 (o.orElse f) := by
  cases o with
  | none => exact k
  | some u => exact h
theorem KeepsOptP.none : KeepsOptP s0 (none : Option (State × β)) := fun _ _ e => by cases e
theorem KeepsOptP.some {x : β} (h : Keeps s0 t) : KeepsOptP s0 (some (t, x)) := fun _ _ e => by cases e; exact h
theorem KeepsOptP.use {o : Option (State × β)} {x : β} (h : KeepsOptP s0 o) (e : o = .some (t, x)) : Keeps s0 t := h t x e
theorem KeepsOptQ.none : KeepsOptQ s0 (none : Option (β × State)) := fun _ _ e => by cases e
theorem KeepsOptQ.some {x : β} (h : Keeps s0 t) : KeepsOptQ s0 (some (x, t)) := fun _ _ e => by cases e; exact h
theorem KeepsOptQ.use {o : Option (β × State)} {x : β} (h : KeepsOptQ s0 o) (e : o = .some (x, t)) : Keeps s0 t := h x t e
theorem KeepsExc.error {e : ε} : KeepsExc s0 (.error e) := fun _ e => by cases e
theorem KeepsExc.ok (h : Keeps s0 t) : KeepsExc (ε := ε) s0 (.ok t) := fun _ e => by cases e; exact h
theorem KeepsExc.use {o : Except ε State} (h : KeepsExc s0 o) (e : o = .ok t) : Keeps s0 t := h t e
theorem KeepsExcP.error {e : ε} : KeepsExcP s0 (.error e : Except ε (State × β)) := fun _ _ e => by cases e
theorem KeepsExcP.ok {x : β} (h : Keeps s0 t) : KeepsExcP (ε := ε) s0 (.ok (t, x)) := fun _ _ e => by cases e; exact h
theorem KeepsExcP.use {o : Except ε (State × β)} {x : β} (h : KeepsExcP s0 o) (e : o = .ok (t, x)) : Keeps s0 t := h t x e

theorem KeepsExcP.map {o : Except ε β} (h : Keeps s0 t) : KeepsExcP s0 (o.map fun x => (t, x)) := by
  cases o with
  | error e => exact fun _ _ e => by cases e
  | ok x => exact fun _ _ e => by cases e; exact h

theorem Keeps.foldl {g : State → β → State} {l : List β} (h : Keeps s0 s) (hg : ∀ t x, Keeps s0 t → Keeps s0 (g t x)) :
    Keeps s0 (l.foldl g s) := by
  induction l generalizing s with
  | nil => exact h
  | cons x l ih => exact ih (hg _ _ h)

theorem KeepsPair.foldl {g : State × γ → β → State × γ} {l : List β} {p : State × γ} (h : KeepsPair s0 p)
    (hg : ∀ q x, KeepsPair s0 q → KeepsPair s0 (g q x)) : KeepsPair s0 (l.foldl g p) := by
  induction l generalizing p with
  | nil => exact h
  | cons x l ih => exact ih (hg _ _ h)

theorem Keeps.ite {c : Prop} [Decidable c] (h : Keeps s0 s) (k : Keeps s0 t) : Keeps s0 (if c then s else t) := by
  split <;> assumption

/-- The state that a device reset starts from: nothing but the queue, the fuses and the model's counters is left. -/
theorem Keeps.blank {nv : NvBlock} {lcs : LcsBlock} (h : Keeps s0 s) :
    Keeps s0 { pending := s.pending, nv := nv, lcs := lcs, boot := s.boot + 1, fresh := s.fresh } :=
  h.trans ⟨rfl, Nat.le_refl _, Nat.le_succ _, fun _ => ⟨Memory.wf_nil, Regs.wf_nil⟩⟩

/-! ### Registers and bytes -/

theorem State.setRg_keeps {a v : Nat} (h : Keeps s0 s) : Keeps s0 (s.setRg a v) :=
  h.trans ⟨rfl, Nat.le_refl _, Nat.le_refl _, fun w => ⟨w.1, Regs.wf_set s.regs a v w.2⟩⟩

theorem State.setCell_keeps {a v : Nat} (h : Keeps s0 s) : Keeps s0 (s.setCell a v) :=
  h.trans ⟨rfl, Nat.le_refl _, Nat.le_refl _, fun w => ⟨Memory.wf_set s.mem a _ w.1, w.2⟩⟩

end Sys2Proof.Machine
end

