-- ==== Sys2Proof/Laws/KeepsOps.lean ====
section
/-!
SUPPORT. What the operations of Machine/Ops.lean keep (`Keeps`), one lemma each.
-/

namespace Sys2Proof.Machine

/-- An update of fields that `Keeps` does not name. -/
theorem Keeps.lit {σ s : State} {x_rwt : SMap Nat} {x_latch : SMap Nat} {x_stage : SMap Nat} {x_ringAux : SMap Nat} {x_seen : List Seen} {x_seenFlt : List SeenFlt} {x_time : Time} {x_ctx : CtxBlock} {x_frm : FrmBlock} {x_tpl : TplBlock} {x_chans : SMap Chan} {x_dbrs : SMap Dbr} {x_portB : SMap PortB} {x_trw : SMap TrwCh} {x_feeds : SMap (List (List Nat))} {x_tiles : SMap Tile} {x_direct : List Direct} {x_poison : List Nat} {x_itp : ItpBlock} {x_fab : FabBlock} {x_prt : PrtBlock} {x_rdl : RdlBlock} {x_drive : List DriveCmd} {x_training : List Nat} {x_bifurc : SMap Nat} {x_ports : SMap Port} {x_punts : SMap Nat} {x_ptp : PtpBlock} {x_txGiven : SMap Nat} {x_txDone : SMap Nat} {x_ethMedia : SMap Bool} {x_ethMode : SMap Nat} {x_egBuf : SMap Nat} {x_egLeft : SMap (Nat × Nat)} {x_telAt : SMap Nat} {x_nv : NvBlock} {x_lcs : LcsBlock} {x_bst : BstBlock} {x_pwr : PwrBlock} {x_sys : SysBlock} {x_mgt : MgtBlock} {x_uart : UartBlock} {x_dpw : List DpwHeld} {x_ret : SMap Nat}
    (h : Keeps σ s) :
    Keeps σ (State.mk s.pending s.mem s.regs x_rwt x_latch x_stage x_ringAux x_seen x_seenFlt x_time x_ctx x_frm x_tpl x_chans x_dbrs x_portB x_trw x_feeds x_tiles x_direct x_poison x_itp x_fab x_prt x_rdl x_drive x_training x_bifurc x_ports x_punts x_ptp x_txGiven x_txDone x_ethMedia x_ethMode x_egBuf x_egLeft x_telAt x_nv x_lcs x_bst x_pwr x_sys x_mgt x_uart x_dpw x_ret s.boot s.fresh) :=
  h.same rfl rfl rfl (Nat.le_refl _) (Nat.le_refl _)

/-- The same as an equation. -/
theorem Keeps.lit_iff {σ s : State} {x_rwt : SMap Nat} {x_latch : SMap Nat} {x_stage : SMap Nat} {x_ringAux : SMap Nat} {x_seen : List Seen} {x_seenFlt : List SeenFlt} {x_time : Time} {x_ctx : CtxBlock} {x_frm : FrmBlock} {x_tpl : TplBlock} {x_chans : SMap Chan} {x_dbrs : SMap Dbr} {x_portB : SMap PortB} {x_trw : SMap TrwCh} {x_feeds : SMap (List (List Nat))} {x_tiles : SMap Tile} {x_direct : List Direct} {x_poison : List Nat} {x_itp : ItpBlock} {x_fab : FabBlock} {x_prt : PrtBlock} {x_rdl : RdlBlock} {x_drive : List DriveCmd} {x_training : List Nat} {x_bifurc : SMap Nat} {x_ports : SMap Port} {x_punts : SMap Nat} {x_ptp : PtpBlock} {x_txGiven : SMap Nat} {x_txDone : SMap Nat} {x_ethMedia : SMap Bool} {x_ethMode : SMap Nat} {x_egBuf : SMap Nat} {x_egLeft : SMap (Nat × Nat)} {x_telAt : SMap Nat} {x_nv : NvBlock} {x_lcs : LcsBlock} {x_bst : BstBlock} {x_pwr : PwrBlock} {x_sys : SysBlock} {x_mgt : MgtBlock} {x_uart : UartBlock} {x_dpw : List DpwHeld} {x_ret : SMap Nat} :
    Keeps σ (State.mk s.pending s.mem s.regs x_rwt x_latch x_stage x_ringAux x_seen x_seenFlt x_time x_ctx x_frm x_tpl x_chans x_dbrs x_portB x_trw x_feeds x_tiles x_direct x_poison x_itp x_fab x_prt x_rdl x_drive x_training x_bifurc x_ports x_punts x_ptp x_txGiven x_txDone x_ethMedia x_ethMode x_egBuf x_egLeft x_telAt x_nv x_lcs x_bst x_pwr x_sys x_mgt x_uart x_dpw x_ret s.boot s.fresh) = Keeps σ s :=
  propext ⟨fun h => Keeps.same (s := State.mk s.pending s.mem s.regs x_rwt x_latch x_stage x_ringAux x_seen x_seenFlt x_time x_ctx x_frm x_tpl x_chans x_dbrs x_portB x_trw x_feeds x_tiles x_direct x_poison x_itp x_fab x_prt x_rdl x_drive x_training x_bifurc x_ports x_punts x_ptp x_txGiven x_txDone x_ethMedia x_ethMode x_egBuf x_egLeft x_telAt x_nv x_lcs x_bst x_pwr x_sys x_mgt x_uart x_dpw x_ret s.boot s.fresh) h rfl rfl rfl (Nat.le_refl _) (Nat.le_refl _), Keeps.lit⟩

/-- The same with free values drawn. -/
theorem Keeps.litFresh {σ s : State} {x_rwt : SMap Nat} {x_latch : SMap Nat} {x_stage : SMap Nat} {x_ringAux : SMap Nat} {x_seen : List Seen} {x_seenFlt : List SeenFlt} {x_time : Time} {x_ctx : CtxBlock} {x_frm : FrmBlock} {x_tpl : TplBlock} {x_chans : SMap Chan} {x_dbrs : SMap Dbr} {x_portB : SMap PortB} {x_trw : SMap TrwCh} {x_feeds : SMap (List (List Nat))} {x_tiles : SMap Tile} {x_direct : List Direct} {x_poison : List Nat} {x_itp : ItpBlock} {x_fab : FabBlock} {x_prt : PrtBlock} {x_rdl : RdlBlock} {x_drive : List DriveCmd} {x_training : List Nat} {x_bifurc : SMap Nat} {x_ports : SMap Port} {x_punts : SMap Nat} {x_ptp : PtpBlock} {x_txGiven : SMap Nat} {x_txDone : SMap Nat} {x_ethMedia : SMap Bool} {x_ethMode : SMap Nat} {x_egBuf : SMap Nat} {x_egLeft : SMap (Nat × Nat)} {x_telAt : SMap Nat} {x_nv : NvBlock} {x_lcs : LcsBlock} {x_bst : BstBlock} {x_pwr : PwrBlock} {x_sys : SysBlock} {x_mgt : MgtBlock} {x_uart : UartBlock} {x_dpw : List DpwHeld} {x_ret : SMap Nat} {k : Nat}
    (h : Keeps σ s) :
    Keeps σ (State.mk s.pending s.mem s.regs x_rwt x_latch x_stage x_ringAux x_seen x_seenFlt x_time x_ctx x_frm x_tpl x_chans x_dbrs x_portB x_trw x_feeds x_tiles x_direct x_poison x_itp x_fab x_prt x_rdl x_drive x_training x_bifurc x_ports x_punts x_ptp x_txGiven x_txDone x_ethMedia x_ethMode x_egBuf x_egLeft x_telAt x_nv x_lcs x_bst x_pwr x_sys x_mgt x_uart x_dpw x_ret s.boot (s.fresh + k)) :=
  h.same rfl rfl rfl (Nat.le_refl _) (Nat.le_add_right _ _)

/-- The same with a range of memory zeroed. -/
theorem Keeps.litZero {σ s : State} {x_rwt : SMap Nat} {x_latch : SMap Nat} {x_stage : SMap Nat} {x_ringAux : SMap Nat} {x_seen : List Seen} {x_seenFlt : List SeenFlt} {x_time : Time} {x_ctx : CtxBlock} {x_frm : FrmBlock} {x_tpl : TplBlock} {x_chans : SMap Chan} {x_dbrs : SMap Dbr} {x_portB : SMap PortB} {x_trw : SMap TrwCh} {x_feeds : SMap (List (List Nat))} {x_tiles : SMap Tile} {x_direct : List Direct} {x_poison : List Nat} {x_itp : ItpBlock} {x_fab : FabBlock} {x_prt : PrtBlock} {x_rdl : RdlBlock} {x_drive : List DriveCmd} {x_training : List Nat} {x_bifurc : SMap Nat} {x_ports : SMap Port} {x_punts : SMap Nat} {x_ptp : PtpBlock} {x_txGiven : SMap Nat} {x_txDone : SMap Nat} {x_ethMedia : SMap Bool} {x_ethMode : SMap Nat} {x_egBuf : SMap Nat} {x_egLeft : SMap (Nat × Nat)} {x_telAt : SMap Nat} {x_nv : NvBlock} {x_lcs : LcsBlock} {x_bst : BstBlock} {x_pwr : PwrBlock} {x_sys : SysBlock} {x_mgt : MgtBlock} {x_uart : UartBlock} {x_dpw : List DpwHeld} {x_ret : SMap Nat} {p : Host.Cell → Bool}
    (h : Keeps σ s) :
    Keeps σ (State.mk s.pending (s.mem.filter p) s.regs x_rwt x_latch x_stage x_ringAux x_seen x_seenFlt x_time x_ctx x_frm x_tpl x_chans x_dbrs x_portB x_trw x_feeds x_tiles x_direct x_poison x_itp x_fab x_prt x_rdl x_drive x_training x_bifurc x_ports x_punts x_ptp x_txGiven x_txDone x_ethMedia x_ethMode x_egBuf x_egLeft x_telAt x_nv x_lcs x_bst x_pwr x_sys x_mgt x_uart x_dpw x_ret s.boot s.fresh) :=
  h.mem rfl (Memory.wf_filter s.mem p) rfl rfl rfl

theorem State.setFld_keeps {σ : State} {s : State} {a hi lo v : Nat} (hk : Keeps σ s) :
    Keeps σ (State.setFld s a hi lo v) := by
  unfold State.setFld
  repeat' first
    | with_reducible assumption
    | with_reducible apply State.setRg_keeps
    | split
    | dsimp only
    | intro _

theorem State.countBy_keeps {σ : State} {s : State} {a n : Nat} (hk : Keeps σ s) :
    Keeps σ (State.countBy s a n) := by
  unfold State.countBy
  repeat' first
    | with_reducible assumption
    | with_reducible apply State.setRg_keeps
    | split
    | dsimp only
    | intro _

theorem State.count_keeps {σ : State} {s : State} {a : Nat} (hk : Keeps σ s) :
    Keeps σ (State.count s a) := by
  unfold State.count
  repeat' first
    | with_reducible assumption
    | with_reducible apply State.countBy_keeps
    | split
    | dsimp only
    | intro _

theorem State.setRg64_keeps {σ : State} {s : State} {lo v : Nat} (hk : Keeps σ s) :
    Keeps σ (State.setRg64 s lo v) := by
  unfold State.setRg64
  repeat' first
    | with_reducible assumption
    | with_reducible apply State.setRg_keeps
    | split
    | dsimp only
    | intro _

theorem State.setCtx_keeps {σ : State} {s : State} {slot : Nat} {c : Ctx} (hk : Keeps σ s) :
    Keeps σ (State.setCtx s slot c) := by
  unfold State.setCtx
  repeat' first
    | with_reducible assumption
    | simp only [Keeps.lit_iff]
    | split
    | dsimp only
    | intro _

theorem State.setReq_keeps {σ : State} {s : State} {slot : Nat} {r : Req} (hk : Keeps σ s) :
    Keeps σ (State.setReq s slot r) := by
  unfold State.setReq
  repeat' first
    | with_reducible assumption
    | simp only [Keeps.lit_iff]
    | split
    | dsimp only
    | intro _

theorem State.setFrame_keeps {σ : State} {s : State} {f : Nat} {d : Frame} (hk : Keeps σ s) :
    Keeps σ (State.setFrame s f d) := by
  unfold State.setFrame
  repeat' first
    | with_reducible assumption
    | simp only [Keeps.lit_iff]
    | split
    | dsimp only
    | intro _

theorem State.setByte_keeps {σ : State} {s : State} {a v : Nat} (hk : Keeps σ s) :
    Keeps σ (State.setByte s a v) := by
  unfold State.setByte
  repeat' first
    | with_reducible assumption
    | with_reducible apply State.setCtx_keeps
    | with_reducible apply State.setReq_keeps
    | with_reducible apply State.setCell_keeps
    | with_reducible refine Keeps.ite ?_ ?_
    | split
    | dsimp only
    | intro _

theorem State.writeBytes_keeps {σ : State} {s : State} {a : Nat} {l : List Nat} (h : Keeps σ s) :
    Keeps σ (s.writeBytes a l) := by
  induction l generalizing s a with
  | nil => exact h
  | cons b bs ih => exact ih (State.setByte_keeps h)

theorem State.writeLE_keeps {σ : State} {s : State} {a n v : Nat} (hk : Keeps σ s) :
    Keeps σ (State.writeLE s a n v) := by
  unfold State.writeLE
  repeat' first
    | with_reducible assumption
    | with_reducible apply State.writeBytes_keeps
    | split
    | dsimp only
    | intro _

theorem State.draw_keeps {σ : State} {s : State} (hk : Keeps σ s) :
    Keeps σ (State.draw s) := by
  unfold State.draw
  repeat' first
    | with_reducible assumption
    | simp only [Keeps.lit_iff]
    | with_reducible apply Keeps.litFresh
    | split
    | dsimp only
    | intro _

theorem State.putBytes_keeps {σ : State} {s : State} {a : Nat} {l : List Nat} (hk : Keeps σ s) :
    Keeps σ (State.putBytes s a l) := by
  unfold State.putBytes
  repeat' first
    | with_reducible assumption
    | with_reducible apply State.writeBytes_keeps
    | with_reducible refine Keeps.ite ?_ ?_
    | split
    | dsimp only
    | intro _

theorem State.putLE_keeps {σ : State} {s : State} {a n v : Nat} (hk : Keeps σ s) :
    Keeps σ (State.putLE s a n v) := by
  unfold State.putLE
  repeat' first
    | with_reducible assumption
    | with_reducible apply State.putBytes_keeps
    | split
    | dsimp only
    | intro _

theorem State.putByte_keeps {σ : State} {s : State} {a v : Nat} (hk : Keeps σ s) :
    Keeps σ (State.putByte s a v) := by
  unfold State.putByte
  repeat' first
    | with_reducible assumption
    | with_reducible apply State.setByte_keeps
    | with_reducible refine Keeps.ite ?_ ?_
    | split
    | dsimp only
    | intro _

theorem freeFill_keeps {σ : State} {s : State} {a n : Nat} (hk : Keeps σ s) :
    Keeps σ (freeFill s a n) := by
  unfold freeFill
  repeat' first
    | with_reducible assumption
    | with_reducible apply Keeps.foldl
    | with_reducible apply KeepsPair.foldl
    | with_reducible apply State.putByte_keeps
    | with_reducible apply State.draw_keeps
    | split
    | dsimp only
    | intro _

theorem State.clock_keeps {σ : State} {s : State} {n : Nat} (hk : Keeps σ s) :
    Keeps σ (State.clock s n) := by
  unfold State.clock
  repeat' first
    | with_reducible assumption
    | simp only [Keeps.lit_iff]
    | with_reducible refine Keeps.ite ?_ ?_
    | split
    | dsimp only
    | intro _

end Sys2Proof.Machine
end

