-- ==== Sys2Proof/Laws/KeepsFlags.lean ====
section
/-!
SUPPORT. What the operations of Machine/Flags.lean keep (`Keeps`), one lemma each.
-/

namespace Sys2Proof.Machine

theorem ringSort_keeps {σ : State} {s : State} {addr k wr l : Nat} (hk : Keeps σ s) :
    Keeps σ (ringSort s addr k wr l) := by
  induction l generalizing s wr with
  | zero =>
    unfold ringSort
    repeat' first
      | with_reducible assumption
      | with_reducible apply State.putBytes_keeps
      | with_reducible refine Keeps.ite ?_ ?_
      | split
      | dsimp only
      | intro _
  | succ n ih =>
    unfold ringSort
    repeat' first
      | with_reducible assumption
      | with_reducible apply ih
      | with_reducible apply State.putBytes_keeps
      | with_reducible refine Keeps.ite ?_ ?_
      | split
      | dsimp only
      | intro _

theorem ringPost_keeps {σ : State} {s : State} {r page bit : Nat} {e : EvInfo} (hk : Keeps σ s) :
    Keeps σ (ringPost s r page bit e) := by
  unfold ringPost
  repeat' first
    | with_reducible assumption
    | with_reducible apply ringSort_keeps
    | with_reducible apply State.putBytes_keeps
    | with_reducible apply State.setRg_keeps
    | with_reducible apply State.count_keeps
    | simp only [Keeps.lit_iff]
    | with_reducible refine Keeps.ite ?_ ?_
    | split
    | dsimp only
    | intro _

theorem postRecord_keeps {σ : State} {s : State} {page bit : Nat} {e : EvInfo} (hk : Keeps σ s) :
    Keeps σ (postRecord s page bit e) := by
  unfold postRecord
  repeat' first
    | with_reducible assumption
    | with_reducible apply ringPost_keeps
    | with_reducible refine Keeps.ite ?_ ?_
    | split
    | dsimp only
    | intro _

theorem noteEvent_keeps {σ : State} {s : State} {x : Seen} (hk : Keeps σ s) :
    Keeps σ (noteEvent s x) := by
  unfold noteEvent
  repeat' first
    | with_reducible assumption
    | simp only [Keeps.lit_iff]
    | split
    | dsimp only
    | intro _

theorem event_keeps {σ : State} {s : State} {b : Blk} {n bit : Nat} {e : EvInfo} (hk : Keeps σ s) :
    Keeps σ (event s b n bit e) := by
  unfold event
  repeat' first
    | with_reducible assumption
    | with_reducible apply noteEvent_keeps
    | with_reducible apply State.setFld_keeps
    | with_reducible apply postRecord_keeps
    | with_reducible refine Keeps.ite ?_ ?_
    | split
    | dsimp only
    | intro _

theorem evtStays_keeps {σ : State} {s : State} {b : Blk} {n v : Nat} (hk : Keeps σ s) :
    Keeps σ (evtStays s b n v) := by
  unfold evtStays
  repeat' first
    | with_reducible assumption
    | with_reducible apply Keeps.foldl
    | with_reducible apply KeepsPair.foldl
    | with_reducible apply State.setFld_keeps
    | with_reducible apply event_keeps
    | with_reducible refine Keeps.ite ?_ ?_
    | split
    | dsimp only
    | intro _

theorem event0_keeps {σ : State} {s : State} {b : Blk} {n bit : Nat} (hk : Keeps σ s) :
    Keeps σ (event0 s b n bit) := by
  unfold event0
  repeat' first
    | with_reducible assumption
    | with_reducible apply event_keeps
    | split
    | dsimp only
    | intro _

theorem faultPut_keeps {σ : State} {s : State} {b : Blk} {n code : Nat} {part : Option Nat} {i0 i1 : Nat} (hk : Keeps σ s) :
    Keeps σ (faultPut s b n code part i0 i1) := by
  unfold faultPut
  repeat' first
    | with_reducible assumption
    | with_reducible apply State.setRg_keeps
    | split
    | dsimp only
    | intro _

theorem fault_keeps {σ : State} {s : State} {b : Blk} {n code : Nat} {part : Option Nat} {i0 i1 : Nat} (hk : Keeps σ s) :
    Keeps σ (fault s b n code part i0 i1) := by
  unfold fault
  repeat' first
    | with_reducible assumption
    | with_reducible apply faultPut_keeps
    | with_reducible apply State.setFld_keeps
    | with_reducible apply event_keeps
    | simp only [Keeps.lit_iff]
    | with_reducible refine Keeps.ite ?_ ?_
    | split
    | dsimp only
    | intro _

theorem fltStays_keeps {σ : State} {s : State} {b : Blk} {n : Nat} (hk : Keeps σ s) :
    Keeps σ (fltStays s b n) := by
  unfold fltStays
  repeat' first
    | with_reducible assumption
    | with_reducible apply Keeps.foldl
    | with_reducible apply KeepsPair.foldl
    | with_reducible apply fault_keeps
    | simp only [Keeps.lit_iff]
    | split
    | dsimp only
    | intro _

theorem uncorr_keeps {σ : State} {s : State} {a : Nat} (hk : Keeps σ s) :
    Keeps σ (uncorr s a) := by
  unfold uncorr
  repeat' first
    | with_reducible assumption
    | with_reducible apply State.count_keeps
    | with_reducible refine Keeps.ite ?_ ?_
    | split
    | dsimp only
    | intro _

end Sys2Proof.Machine
end

