-- ==== Sys2Proof/Laws/KeepsRegBase.lean ====
section
/-!
SUPPORT. What the operations of Machine/RegBase.lean keep (`Keeps`), one lemma each.
-/

namespace Sys2Proof.Machine

theorem rwtPlain_keeps {σ : State} {s : State} {a : Nat} (hk : Keeps σ s) :
    Keeps σ (rwtPlain s a) := by
  unfold rwtPlain
  repeat' first
    | with_reducible assumption
    | with_reducible apply Keeps.foldl
    | with_reducible apply KeepsPair.foldl
    | with_reducible apply State.setRg_keeps
    | simp only [Keeps.lit_iff]
    | with_reducible refine Keeps.ite ?_ ?_
    | split
    | dsimp only
    | intro _

theorem wordWrite_keeps {σ : State} {s : State} {a v : Nat} (hk : Keeps σ s) :
    Keeps σ (wordWrite s a v) := by
  unfold wordWrite
  repeat' first
    | with_reducible assumption
    | with_reducible apply Keeps.foldl
    | with_reducible apply KeepsPair.foldl
    | with_reducible apply event0_keeps
    | with_reducible apply State.setRg_keeps
    | simp only [Keeps.lit_iff]
    | with_reducible refine Keeps.ite ?_ ?_
    | split
    | dsimp only
    | intro _

end Sys2Proof.Machine
end

