-- ==== Sys2Proof/Laws/KeepsGrants.lean ====
section
/-!
SUPPORT. What the operations of Machine/Grants.lean keep (`Keeps`), one lemma each.
-/

namespace Sys2Proof.Machine

theorem State.setChan_keeps {σ : State} {s : State} {n p : Nat} {c : Chan} (hk : Keeps σ s) :
    Keeps σ (State.setChan s n p c) := by
  unfold State.setChan
  repeat' first
    | with_reducible assumption
    | simp only [Keeps.lit_iff]
    | split
    | dsimp only
    | intro _

theorem State.setPb_keeps {σ : State} {s : State} {n : Nat} {b : PortB} (hk : Keeps σ s) :
    Keeps σ (State.setPb s n b) := by
  unfold State.setPb
  repeat' first
    | with_reducible assumption
    | simp only [Keeps.lit_iff]
    | split
    | dsimp only
    | intro _

theorem State.setTile_keeps {σ : State} {s : State} {n : Nat} {t : Tile} (hk : Keeps σ s) :
    Keeps σ (State.setTile s n t) := by
  unfold State.setTile
  repeat' first
    | with_reducible assumption
    | simp only [Keeps.lit_iff]
    | split
    | dsimp only
    | intro _

theorem fenRequest_keeps {σ : State} {s : State} {n p q src bytes : Nat} (hk : Keeps σ s) :
    Keeps σ (fenRequest s n p q src bytes) := by
  unfold fenRequest
  repeat' first
    | with_reducible assumption
    | with_reducible apply State.count_keeps
    | with_reducible apply State.setFld_keeps
    | with_reducible apply State.setChan_keeps
    | simp only [Keeps.lit_iff]
    | with_reducible refine Keeps.ite ?_ ?_
    | split
    | dsimp only
    | intro _

theorem dpwHold_keeps {σ : State} {s : State} {who : Nat} {write : Bool} {a v : Nat} (hk : Keeps σ s) :
    Keeps σ (dpwHold s who write a v) := by
  unfold dpwHold
  repeat' first
    | with_reducible assumption
    | with_reducible apply fenRequest_keeps
    | simp only [Keeps.lit_iff]
    | with_reducible refine Keeps.ite ?_ ?_
    | split
    | dsimp only
    | intro _

theorem dpwEnter_keeps {σ : State} {s : State} {n p : Nat} (hk : Keeps σ s) :
    Keeps σ (dpwEnter s n p) := by
  unfold dpwEnter
  repeat' first
    | with_reducible assumption
    | with_reducible apply fenRequest_keeps
    | simp only [Keeps.lit_iff]
    | with_reducible refine Keeps.ite ?_ ?_
    | split
    | dsimp only
    | intro _

theorem portRequest_keeps {σ : State} {s : State} {n src : Nat} (hk : Keeps σ s) :
    Keeps σ (portRequest s n src) := by
  unfold portRequest
  repeat' first
    | with_reducible assumption
    | with_reducible apply State.setPb_keeps
    | simp only [Keeps.lit_iff]
    | split
    | dsimp only
    | intro _

theorem memRequest_keeps {σ : State} {s : State} {a src bytes : Nat} (hk : Keeps σ s) :
    Keeps σ (memRequest s a src bytes) := by
  unfold memRequest
  repeat' first
    | with_reducible assumption
    | with_reducible apply portRequest_keeps
    | with_reducible apply fenRequest_keeps
    | with_reducible refine Keeps.ite ?_ ?_
    | split
    | dsimp only
    | intro _

theorem portDrop_keeps {σ : State} {s : State} {n : Nat} (hk : Keeps σ s) :
    Keeps σ (portDrop s n) := by
  unfold portDrop
  repeat' first
    | with_reducible assumption
    | with_reducible apply State.setPb_keeps
    | simp only [Keeps.lit_iff]
    | with_reducible refine Keeps.ite ?_ ?_
    | split
    | dsimp only
    | intro _

theorem tileDown_keeps {σ : State} {s : State} {n : Nat} (hk : Keeps σ s) :
    Keeps σ (tileDown s n) := by
  unfold tileDown
  repeat' first
    | with_reducible assumption
    | with_reducible apply portDrop_keeps
    | with_reducible apply State.setTile_keeps
    | simp only [Keeps.lit_iff]
    | split
    | dsimp only
    | intro _

theorem memWithdraw_keeps {σ : State} {s : State} {a src : Nat} (hk : Keeps σ s) :
    Keeps σ (memWithdraw s a src) := by
  unfold memWithdraw
  repeat' first
    | with_reducible assumption
    | with_reducible apply State.setPb_keeps
    | with_reducible apply State.setChan_keeps
    | simp only [Keeps.lit_iff]
    | with_reducible refine Keeps.ite ?_ ?_
    | split
    | dsimp only
    | intro _

theorem memRelease_keeps {σ : State} {s : State} {a src : Nat} (hk : Keeps σ s) :
    Keeps σ (memRelease s a src) := by
  unfold memRelease
  repeat' first
    | with_reducible assumption
    | with_reducible apply State.setPb_keeps
    | simp only [Keeps.lit_iff]
    | with_reducible refine Keeps.ite ?_ ?_
    | split
    | dsimp only
    | intro _

end Sys2Proof.Machine
end

