-- ==== Sys2Proof/Laws/KeepsFrames.lean ====
section
/-!
SUPPORT. What the operations of Machine/Frames.lean keep (`Keeps`), one lemma each.
-/

namespace Sys2Proof.Machine

theorem State.setLoc_keeps {σ : State} {s : State} {f l : Nat} (hk : Keeps σ s) :
    Keeps σ (State.setLoc s f l) := by
  unfold State.setLoc
  repeat' first
    | with_reducible assumption
    | simp only [Keeps.lit_iff]
    | split
    | dsimp only
    | intro _

theorem zeroLoc_keeps {σ : State} {s : State} {l : Nat} (hk : Keeps σ s) :
    Keeps σ (zeroLoc s l) := by
  unfold zeroLoc
  repeat' first
    | with_reducible assumption
    | simp only [Keeps.lit_iff]
    | with_reducible apply Keeps.litZero
    | split
    | dsimp only
    | intro _

theorem copyLoc_keeps {σ : State} {s : State} {src dst : Nat} (hk : Keeps σ s) :
    Keeps σ (copyLoc s src dst) := by
  unfold copyLoc
  repeat' first
    | with_reducible assumption
    | with_reducible apply zeroLoc_keeps
    | with_reducible apply State.writeBytes_keeps
    | split
    | dsimp only
    | intro _

theorem State.setFreeList_keeps {σ : State} {s : State} {p t : Nat} {q : Runs} (hk : Keeps σ s) :
    Keeps σ (State.setFreeList s p t q) := by
  unfold State.setFreeList
  repeat' first
    | with_reducible assumption
    | simp only [Keeps.lit_iff]
    | split
    | dsimp only
    | intro _

theorem State.setPool_keeps {σ : State} {s : State} {t : Nat} {q : Runs} (hk : Keeps σ s) :
    Keeps σ (State.setPool s t q) := by
  unfold State.setPool
  repeat' first
    | with_reducible assumption
    | simp only [Keeps.lit_iff]
    | with_reducible refine Keeps.ite ?_ ?_
    | split
    | dsimp only
    | intro _

theorem linkFree_keeps {σ : State} {s : State} {f owner : Nat} (hk : Keeps σ s) :
    Keeps σ (linkFree s f owner) := by
  unfold linkFree
  repeat' first
    | with_reducible assumption
    | with_reducible apply State.setFrame_keeps
    | with_reducible apply State.setFreeList_keeps
    | with_reducible apply State.setPool_keeps
    | with_reducible refine Keeps.ite ?_ ?_
    | split
    | dsimp only
    | intro _

theorem poisonAdd_keeps {σ : State} {s : State} {f : Nat} (hk : Keeps σ s) :
    Keeps σ (poisonAdd s f) := by
  unfold poisonAdd
  repeat' first
    | with_reducible assumption
    | with_reducible apply event0_keeps
    | with_reducible apply State.setFld_keeps
    | simp only [Keeps.lit_iff]
    | with_reducible refine Keeps.ite ?_ ?_
    | split
    | dsimp only
    | intro _

theorem toScrub_keeps {σ : State} {s : State} {f : Nat} (hk : Keeps σ s) :
    Keeps σ (toScrub s f) := by
  unfold toScrub
  repeat' first
    | with_reducible assumption
    | with_reducible apply State.setFrame_keeps
    | simp only [Keeps.lit_iff]
    | with_reducible refine Keeps.ite ?_ ?_
    | split
    | dsimp only
    | intro _

theorem takeFrame_keeps {σ : State} {s : State} {p : Nat} {ts : List Nat} {cow : Bool} {st : FrSt} (hk : Keeps σ s) :
    KeepsExcP σ (takeFrame s p ts cow st) := by
  unfold takeFrame
  repeat' first
    | with_reducible assumption
    | exact KeepsExcP.error
    | with_reducible apply KeepsExcP.ok
    | with_reducible apply KeepsExcP.map
    | with_reducible apply State.setFreeList_keeps
    | with_reducible apply State.setFrame_keeps
    | refine KeepsExcP.use ?_ (by with_reducible assumption)
    | with_reducible refine Keeps.ite ?_ ?_
    | split
    | dsimp only
    | intro _

theorem takeFrames_keeps {σ : State} {s : State} {p : Nat} {l : List (List Nat × Bool × FrSt)} (hk : Keeps σ s) :
    KeepsExcP σ (takeFrames s p l) := by
  induction l generalizing s with
  | nil =>
    unfold takeFrames
    repeat' first
      | with_reducible assumption
      | exact KeepsExcP.error
      | with_reducible apply KeepsExcP.ok
      | with_reducible apply KeepsExcP.map
      | with_reducible apply takeFrame_keeps
      | refine KeepsExcP.use ?_ (by with_reducible assumption)
      | split
      | dsimp only
      | intro _
  | cons x xs ih =>
    unfold takeFrames
    repeat' first
      | with_reducible assumption
      | with_reducible apply ih
      | exact KeepsExcP.error
      | with_reducible apply KeepsExcP.ok
      | with_reducible apply KeepsExcP.map
      | with_reducible apply takeFrame_keeps
      | refine KeepsExcP.use ?_ (by with_reducible assumption)
      | split
      | dsimp only
      | intro _

theorem refuseFrames_keeps {σ : State} {s : State} {p status handle : Nat} (hk : Keeps σ s) :
    Keeps σ (refuseFrames s p status handle) := by
  unfold refuseFrames
  repeat' first
    | with_reducible assumption
    | with_reducible apply event_keeps
    | with_reducible apply State.count_keeps
    | with_reducible refine Keeps.ite ?_ ?_
    | split
    | dsimp only
    | intro _

theorem incRef_keeps {σ : State} {s : State} {f : Nat} (hk : Keeps σ s) :
    Keeps σ (incRef s f) := by
  unfold incRef
  repeat' first
    | with_reducible assumption
    | with_reducible apply State.setFrame_keeps
    | with_reducible apply event_keeps
    | simp only [Keeps.lit_iff]
    | with_reducible refine Keeps.ite ?_ ?_
    | split
    | dsimp only
    | intro _

theorem decRef_keeps {σ : State} {s : State} {f : Nat} (hk : Keeps σ s) :
    Keeps σ (decRef s f) := by
  unfold decRef
  repeat' first
    | with_reducible assumption
    | with_reducible apply toScrub_keeps
    | with_reducible apply State.setFrame_keeps
    | simp only [Keeps.lit_iff]
    | with_reducible refine Keeps.ite ?_ ?_
    | split
    | dsimp only
    | intro _

theorem frameFirst_keeps {σ : State} {s : State} {f slot gen page lane : Nat} (hk : Keeps σ s) :
    Keeps σ (frameFirst s f slot gen page lane) := by
  unfold frameFirst
  repeat' first
    | with_reducible assumption
    | with_reducible apply State.setFrame_keeps
    | simp only [Keeps.lit_iff]
    | split
    | dsimp only
    | intro _

theorem putWord_keeps {σ : State} {s : State} {a hi lo v : Nat} (hk : Keeps σ s) :
    Keeps σ (putWord s a hi lo v) := by
  unfold putWord
  repeat' first
    | with_reducible assumption
    | with_reducible apply State.writeLE_keeps
    | split
    | dsimp only
    | intro _

theorem setLaneLen_keeps {σ : State} {s : State} {c : Ctx} {lane v : Nat} (hk : Keeps σ s) :
    Keeps σ (setLaneLen s c lane v) := by
  unfold setLaneLen
  repeat' first
    | with_reducible assumption
    | with_reducible apply putWord_keeps
    | split
    | dsimp only
    | intro _

theorem setLaneStarved_keeps {σ : State} {s : State} {c : Ctx} {lane : Nat} {b : Bool} (hk : Keeps σ s) :
    Keeps σ (setLaneStarved s c lane b) := by
  unfold setLaneStarved
  repeat' first
    | with_reducible assumption
    | with_reducible apply putWord_keeps
    | split
    | dsimp only
    | intro _

theorem setLaneCow_keeps {σ : State} {s : State} {c : Ctx} {lane : Nat} {b : Bool} (hk : Keeps σ s) :
    Keeps σ (setLaneCow s c lane b) := by
  unfold setLaneCow
  repeat' first
    | with_reducible assumption
    | with_reducible apply putWord_keeps
    | split
    | dsimp only
    | intro _

theorem setLaneHint_keeps {σ : State} {s : State} {c : Ctx} {lane v : Nat} (hk : Keeps σ s) :
    Keeps σ (setLaneHint s c lane v) := by
  unfold setLaneHint
  repeat' first
    | with_reducible assumption
    | with_reducible apply putWord_keeps
    | split
    | dsimp only
    | intro _

theorem setLanePages_keeps {σ : State} {s : State} {c : Ctx} {lane v : Nat} (hk : Keeps σ s) :
    Keeps σ (setLanePages s c lane v) := by
  unfold setLanePages
  repeat' first
    | with_reducible assumption
    | with_reducible apply putWord_keeps
    | split
    | dsimp only
    | intro _

theorem setLaneLast_keeps {σ : State} {s : State} {c : Ctx} {lane v : Nat} (hk : Keeps σ s) :
    Keeps σ (setLaneLast s c lane v) := by
  unfold setLaneLast
  repeat' first
    | with_reducible assumption
    | with_reducible apply State.writeLE_keeps
    | split
    | dsimp only
    | intro _

theorem setPte_keeps {σ : State} {s : State} {c : Ctx} {lane page : Nat} {e : Pte} (hk : Keeps σ s) :
    Keeps σ (setPte s c lane page e) := by
  unfold setPte
  repeat' first
    | with_reducible assumption
    | with_reducible apply State.writeLE_keeps
    | with_reducible apply setLaneLast_keeps
    | with_reducible refine Keeps.ite ?_ ?_
    | split
    | dsimp only
    | intro _

theorem State.setGran_keeps {σ : State} {s : State} {f m : Nat} (hk : Keeps σ s) :
    Keeps σ (State.setGran s f m) := by
  unfold State.setGran
  repeat' first
    | with_reducible assumption
    | simp only [Keeps.lit_iff]
    | split
    | dsimp only
    | intro _

theorem State.setTables_keeps {σ : State} {s : State} {p : Nat} {l : List Nat} (hk : Keeps σ s) :
    Keeps σ (State.setTables s p l) := by
  unfold State.setTables
  repeat' first
    | with_reducible assumption
    | simp only [Keeps.lit_iff]
    | split
    | dsimp only
    | intro _

theorem allocGran_keeps {σ : State} {s : State} {p n : Nat} (hk : Keeps σ s) :
    KeepsExcP σ (allocGran s p n) := by
  unfold allocGran
  repeat' first
    | with_reducible assumption
    | exact KeepsExcP.error
    | with_reducible apply KeepsExcP.ok
    | with_reducible apply KeepsExcP.map
    | with_reducible apply State.setGran_keeps
    | with_reducible apply takeFrame_keeps
    | with_reducible apply State.setTables_keeps
    | refine KeepsExcP.use ?_ (by with_reducible assumption)
    | split
    | dsimp only
    | intro _

theorem freeGran_keeps {σ : State} {s : State} {p gi n : Nat} (hk : Keeps σ s) :
    Keeps σ (freeGran s p gi n) := by
  unfold freeGran
  repeat' first
    | with_reducible assumption
    | with_reducible apply State.setGran_keeps
    | with_reducible apply toScrub_keeps
    | with_reducible apply State.setTables_keeps
    | with_reducible refine Keeps.ite ?_ ?_
    | split
    | dsimp only
    | intro _

theorem zeroGran_keeps {σ : State} {s : State} {gi n : Nat} (hk : Keeps σ s) :
    Keeps σ (zeroGran s gi n) := by
  unfold zeroGran
  repeat' first
    | with_reducible assumption
    | simp only [Keeps.lit_iff]
    | with_reducible apply Keeps.litZero
    | split
    | dsimp only
    | intro _

theorem allocLeaves_keeps {σ : State} {s : State} {p dirG t maxLen : Nat} {l : List Nat} (hk : Keeps σ s) :
    KeepsExc σ (allocLeaves s p dirG t maxLen l) := by
  induction l generalizing s with
  | nil =>
    unfold allocLeaves
    repeat' first
      | with_reducible assumption
      | exact KeepsExc.error
      | with_reducible apply KeepsExc.ok
      | with_reducible apply allocGran_keeps
      | with_reducible apply zeroGran_keeps
      | with_reducible apply State.writeLE_keeps
      | refine KeepsExc.use ?_ (by with_reducible assumption)
      | refine KeepsExcP.use ?_ (by with_reducible assumption)
      | split
      | dsimp only
      | intro _
  | cons x xs ih =>
    unfold allocLeaves
    repeat' first
      | with_reducible assumption
      | with_reducible apply ih
      | exact KeepsExc.error
      | with_reducible apply KeepsExc.ok
      | with_reducible apply allocGran_keeps
      | with_reducible apply zeroGran_keeps
      | with_reducible apply State.writeLE_keeps
      | refine KeepsExc.use ?_ (by with_reducible assumption)
      | refine KeepsExcP.use ?_ (by with_reducible assumption)
      | split
      | dsimp only
      | intro _

theorem allocLanes_keeps {σ : State} {s : State} {p arr t maxLen : Nat} {l : List Nat} (hk : Keeps σ s) :
    KeepsExc σ (allocLanes s p arr t maxLen l) := by
  induction l generalizing s with
  | nil =>
    unfold allocLanes
    repeat' first
      | with_reducible assumption
      | exact KeepsExc.error
      | with_reducible apply KeepsExc.ok
      | with_reducible apply allocGran_keeps
      | with_reducible apply zeroGran_keeps
      | with_reducible apply State.writeLE_keeps
      | with_reducible apply allocLeaves_keeps
      | refine KeepsExc.use ?_ (by with_reducible assumption)
      | refine KeepsExcP.use ?_ (by with_reducible assumption)
      | split
      | dsimp only
      | intro _
  | cons x xs ih =>
    unfold allocLanes
    repeat' first
      | with_reducible assumption
      | with_reducible apply ih
      | exact KeepsExc.error
      | with_reducible apply KeepsExc.ok
      | with_reducible apply allocGran_keeps
      | with_reducible apply zeroGran_keeps
      | with_reducible apply State.writeLE_keeps
      | with_reducible apply allocLeaves_keeps
      | refine KeepsExc.use ?_ (by with_reducible assumption)
      | refine KeepsExcP.use ?_ (by with_reducible assumption)
      | split
      | dsimp only
      | intro _

theorem allocContext_keeps {σ : State} {s : State} {p lanes t maxLen : Nat} (hk : Keeps σ s) :
    KeepsExcP σ (allocContext s p lanes t maxLen) := by
  unfold allocContext
  repeat' first
    | with_reducible assumption
    | exact KeepsExcP.error
    | with_reducible apply KeepsExcP.ok
    | with_reducible apply KeepsExcP.map
    | with_reducible apply allocGran_keeps
    | with_reducible apply allocLanes_keeps
    | with_reducible apply zeroGran_keeps
    | refine KeepsExc.use ?_ (by with_reducible assumption)
    | refine KeepsExcP.use ?_ (by with_reducible assumption)
    | split
    | dsimp only
    | intro _

theorem freeContextTables_keeps {σ : State} {s : State} {c : Ctx} (hk : Keeps σ s) :
    Keeps σ (freeContextTables s c) := by
  unfold freeContextTables
  repeat' first
    | with_reducible assumption
    | with_reducible apply Keeps.foldl
    | with_reducible apply KeepsPair.foldl
    | with_reducible apply freeGran_keeps
    | with_reducible refine Keeps.ite ?_ ?_
    | split
    | dsimp only
    | intro _

theorem labAccess_keeps {σ : State} {s : State} {slot gen lane dir entry : Nat} (hk : Keeps σ s) :
    Keeps σ (labAccess s slot gen lane dir entry) := by
  unfold labAccess
  repeat' first
    | with_reducible assumption
    | with_reducible apply State.count_keeps
    | simp only [Keeps.lit_iff]
    | split
    | dsimp only
    | intro _

theorem labDrop_keeps {σ : State} {s : State} {slot : Nat} (hk : Keeps σ s) :
    Keeps σ (labDrop s slot) := by
  unfold labDrop
  repeat' first
    | with_reducible assumption
    | simp only [Keeps.lit_iff]
    | split
    | dsimp only
    | intro _

theorem labClear_keeps {σ : State} {s : State} (hk : Keeps σ s) :
    Keeps σ (labClear s) := by
  unfold labClear
  repeat' first
    | with_reducible assumption
    | simp only [Keeps.lit_iff]
    | split
    | dsimp only
    | intro _

theorem walkDir_keeps {σ : State} {s : State} {slot : Nat} {c : Ctx} {lane dir : Nat} (hk : Keeps σ s) :
    Keeps σ (walkDir s slot c lane dir) := by
  unfold walkDir
  repeat' first
    | with_reducible assumption
    | with_reducible apply labAccess_keeps
    | split
    | dsimp only
    | intro _

theorem walkFault_keeps {σ : State} {s : State} {slot : Nat} {c : Ctx} {lane page : Nat} {ecc : Bool} (hk : Keeps σ s) :
    Keeps σ (walkFault s slot c lane page ecc) := by
  unfold walkFault
  repeat' first
    | with_reducible assumption
    | with_reducible apply State.count_keeps
    | with_reducible apply fault_keeps
    | with_reducible apply event_keeps
    | with_reducible refine Keeps.ite ?_ ?_
    | split
    | dsimp only
    | intro _

end Sys2Proof.Machine
end

