-- ==== Sys2Proof/Laws/KeepsTransport.lean ====
section
/-!
SUPPORT. What the operations of Machine/Transport.lean keep (`Keeps`), one lemma each.
-/

namespace Sys2Proof.Machine

theorem State.setConn_keeps {σ : State} {s : State} {i : Nat} {c : Conn} (hk : Keeps σ s) :
    Keeps σ (State.setConn s i c) := by
  unfold State.setConn
  repeat' first
    | with_reducible assumption
    | simp only [Keeps.lit_iff]
    | split
    | dsimp only
    | intro _

theorem State.setKeySlot_keeps {σ : State} {s : State} {k : Nat} {v : KeySlot} (hk : Keeps σ s) :
    Keeps σ (State.setKeySlot s k v) := by
  unfold State.setKeySlot
  repeat' first
    | with_reducible assumption
    | simp only [Keeps.lit_iff]
    | split
    | dsimp only
    | intro _

theorem keyEmpty_keeps {σ : State} {s : State} {k : Nat} (hk : Keeps σ s) :
    Keeps σ (keyEmpty s k) := by
  unfold keyEmpty
  repeat' first
    | with_reducible assumption
    | with_reducible apply State.setKeySlot_keeps
    | simp only [Keeps.lit_iff]
    | split
    | dsimp only
    | intro _

theorem queueMsg_keeps {σ : State} {s : State} {i op cls : Nat} {ext : List Nat} {len : Nat} {src : Src} {use : Use} (hk : Keeps
    σ s) :
    Keeps σ (queueMsg s i op cls ext len src use) := by
  unfold queueMsg
  repeat' first
    | with_reducible assumption
    | with_reducible apply State.setConn_keeps
    | split
    | dsimp only
    | intro _

theorem queueCtl_keeps {σ : State} {s : State} {i : Nat} {c : Ctl} (hk : Keeps σ s) :
    Keeps σ (queueCtl s i c) := by
  unfold queueCtl
  repeat' first
    | with_reducible assumption
    | with_reducible apply State.setConn_keeps
    | simp only [Keeps.lit_iff]
    | with_reducible refine Keeps.ite ?_ ?_
    | split
    | dsimp only
    | intro _

theorem stageTake_keeps {σ : State} {s : State} {w len : Nat} (hk : Keeps σ s) :
    KeepsOptP σ (stageTake s w len) := by
  unfold stageTake
  repeat' first
    | with_reducible assumption
    | exact KeepsOptP.none
    | with_reducible apply KeepsOptP.some
    | refine KeepsOptP.use ?_ (by with_reducible assumption)
    | simp only [Keeps.lit_iff]
    | with_reducible refine Keeps.ite ?_ ?_
    | split
    | dsimp only
    | intro _

theorem stageFree_keeps {σ : State} {s : State} {addr : Nat} (hk : Keeps σ s) :
    Keeps σ (stageFree s addr) := by
  unfold stageFree
  repeat' first
    | with_reducible assumption
    | simp only [Keeps.lit_iff]
    | split
    | dsimp only
    | intro _

theorem stageKeep_keeps {σ : State} {s : State} {addr slot : Nat} (hk : Keeps σ s) :
    Keeps σ (stageKeep s addr slot) := by
  unfold stageKeep
  repeat' first
    | with_reducible assumption
    | simp only [Keeps.lit_iff]
    | with_reducible refine Keeps.ite ?_ ?_
    | split
    | dsimp only
    | intro _

theorem freeReq_keeps {σ : State} {s : State} {slot : Nat} (hk : Keeps σ s) :
    Keeps σ (freeReq s slot) := by
  unfold freeReq
  repeat' first
    | with_reducible assumption
    | with_reducible apply State.setReq_keeps
    | simp only [Keeps.lit_iff]
    | with_reducible refine Keeps.ite ?_ ?_
    | split
    | dsimp only
    | intro _

theorem sendDue_keeps {σ : State} {s : State} {d : Due} (hk : Keeps σ s) :
    Keeps σ (sendDue s d) := by
  unfold sendDue
  repeat' first
    | with_reducible assumption
    | with_reducible apply freeReq_keeps
    | with_reducible apply State.count_keeps
    | with_reducible apply queueMsg_keeps
    | simp only [Keeps.lit_iff]
    | with_reducible refine Keeps.ite ?_ ?_
    | split
    | dsimp only
    | intro _

theorem releaseHeld_keeps {σ : State} {s : State} (hk : Keeps σ s) :
    Keeps σ (releaseHeld s) := by
  unfold releaseHeld
  repeat' first
    | with_reducible assumption
    | with_reducible apply Keeps.foldl
    | with_reducible apply KeepsPair.foldl
    | with_reducible apply sendDue_keeps
    | simp only [Keeps.lit_iff]
    | with_reducible refine Keeps.ite ?_ ?_
    | split
    | dsimp only
    | intro _

theorem complete_keeps {σ : State} {s : State} {slot status handle : Nat} {payload : List Nat} (hk : Keeps σ s) :
    Keeps σ (complete s slot status handle payload) := by
  unfold complete
  repeat' first
    | with_reducible assumption
    | with_reducible apply State.setReq_keeps
    | with_reducible apply sendDue_keeps
    | simp only [Keeps.lit_iff]
    | with_reducible refine Keeps.ite ?_ ?_
    | split
    | dsimp only
    | intro _

theorem completeEmpty_keeps {σ : State} {s : State} {slot status : Nat} (hk : Keeps σ s) :
    Keeps σ (completeEmpty s slot status) := by
  unfold completeEmpty
  repeat' first
    | with_reducible assumption
    | with_reducible apply complete_keeps
    | split
    | dsimp only
    | intro _

theorem refuse_keeps {σ : State} {s : State} {m : Delivered} {kind reqId handle status : Nat} (hk : Keeps σ s) :
    Keeps σ (refuse s m kind reqId handle status) := by
  unfold refuse
  repeat' first
    | with_reducible assumption
    | with_reducible apply stageFree_keeps
    | with_reducible apply sendDue_keeps
    | with_reducible refine Keeps.ite ?_ ?_
    | split
    | dsimp only
    | intro _

theorem keyRetire_keeps {σ : State} {s : State} {k : Nat} (hk : Keeps σ s) :
    Keeps σ (keyRetire s k) := by
  unfold keyRetire
  repeat' first
    | with_reducible assumption
    | with_reducible apply State.setKeySlot_keeps
    | simp only [Keeps.lit_iff]
    | split
    | dsimp only
    | intro _

theorem retireSlots_keeps {σ : State} {s : State} {k n : Nat} (hk : Keeps σ s) :
    Keeps σ (retireSlots s k n) := by
  unfold retireSlots
  repeat' first
    | with_reducible assumption
    | with_reducible apply Keeps.foldl
    | with_reducible apply KeepsPair.foldl
    | with_reducible apply keyRetire_keeps
    | split
    | dsimp only
    | intro _

theorem retireEnd_keeps {σ : State} {s : State} {p : Nat} (hk : Keeps σ s) :
    Keeps σ (retireEnd s p) := by
  unfold retireEnd
  repeat' first
    | with_reducible assumption
    | with_reducible apply event_keeps
    | with_reducible apply State.setFld_keeps
    | split
    | dsimp only
    | intro _

theorem retireRun_keeps {σ : State} {s : State} {n : Nat} {l : List Retire} (hk : Keeps σ s) :
    Keeps σ (retireRun l n s) := by
  induction l generalizing s n with
  | nil =>
    unfold retireRun
    repeat' first
      | with_reducible assumption
      | with_reducible apply State.clock_keeps
      | with_reducible apply retireSlots_keeps
      | with_reducible apply retireEnd_keeps
      | simp only [Keeps.lit_iff]
      | with_reducible refine Keeps.ite ?_ ?_
      | split
      | dsimp only
      | intro _
  | cons x xs ih =>
    unfold retireRun
    repeat' first
      | with_reducible assumption
      | with_reducible apply ih
      | with_reducible apply State.clock_keeps
      | with_reducible apply retireSlots_keeps
      | with_reducible apply retireEnd_keeps
      | simp only [Keeps.lit_iff]
      | with_reducible refine Keeps.ite ?_ ?_
      | split
      | dsimp only
      | intro _

theorem State.ccPass_keeps {σ : State} {s : State} {n : Nat} (hk : Keeps σ s) :
    Keeps σ (State.ccPass s n) := by
  unfold State.ccPass
  repeat' first
    | with_reducible assumption
    | with_reducible apply State.clock_keeps
    | with_reducible apply retireRun_keeps
    | split
    | dsimp only
    | intro _

theorem reachUp_keeps {σ : State} {s : State} {u : Nat} (hk : Keeps σ s) :
    KeepsOpt σ (reachUp s u) := by
  unfold reachUp
  repeat' first
    | with_reducible assumption
    | exact KeepsOpt.none
    | with_reducible apply KeepsOpt.some
    | with_reducible apply State.ccPass_keeps
    | with_reducible apply KeepsOpt.getD
    | with_reducible apply KeepsOpt.orElse
    | refine KeepsOpt.use ?_ (by with_reducible assumption)
    | with_reducible refine Keeps.ite ?_ ?_
    | split
    | dsimp only
    | intro _

theorem State.ccTo_keeps {σ : State} {s : State} {c : Nat} (hk : Keeps σ s) :
    Keeps σ (State.ccTo s c) := by
  unfold State.ccTo
  repeat' first
    | with_reducible assumption
    | with_reducible apply State.ccPass_keeps
    | with_reducible refine Keeps.ite ?_ ?_
    | split
    | dsimp only
    | intro _

end Sys2Proof.Machine
end

