-- ==== Sys2Proof/Laws/KeepsFabOps.lean ====
section
/-!
SUPPORT. What the operations of Machine/FabOps.lean keep (`Keeps`), one lemma each.
-/

namespace Sys2Proof.Machine

theorem putPeer_keeps {σ : State} {s : State} {a n v : Nat} (hk : Keeps σ s) :
    Keeps σ (putPeer s a n v) := by
  unfold putPeer
  repeat' first
    | with_reducible assumption
    | with_reducible apply State.putLE_keeps
    | with_reducible refine Keeps.ite ?_ ?_
    | split
    | dsimp only
    | intro _

theorem setPeerFlag_keeps {σ : State} {s : State} {node k : Nat} {b : Bool} (hk : Keeps σ s) :
    Keeps σ (setPeerFlag s node k b) := by
  unfold setPeerFlag
  repeat' first
    | with_reducible assumption
    | with_reducible apply putPeer_keeps
    | split
    | dsimp only
    | intro _

theorem setPathWord_keeps {σ : State} {s : State} {node i v : Nat} (hk : Keeps σ s) :
    Keeps σ (setPathWord s node i v) := by
  unfold setPathWord
  repeat' first
    | with_reducible assumption
    | with_reducible apply putPeer_keeps
    | split
    | dsimp only
    | intro _

theorem pathWritten_keeps {σ : State} {s : State} {a old : Nat} (hk : Keeps σ s) :
    Keeps σ (pathWritten s a old) := by
  unfold pathWritten
  repeat' first
    | with_reducible assumption
    | with_reducible apply State.putLE_keeps
    | simp only [Keeps.lit_iff]
    | with_reducible refine Keeps.ite ?_ ?_
    | split
    | dsimp only
    | intro _

theorem pathsWritten_keeps {σ : State} {old s : State} {a len : Nat} (hk : Keeps σ s) :
    Keeps σ (pathsWritten old s a len) := by
  unfold pathsWritten
  repeat' first
    | with_reducible assumption
    | with_reducible apply Keeps.foldl
    | with_reducible apply KeepsPair.foldl
    | with_reducible apply pathWritten_keeps
    | with_reducible refine Keeps.ite ?_ ?_
    | split
    | dsimp only
    | intro _

theorem suspect_keeps {σ : State} {s : State} {node cause conn : Nat} (hk : Keeps σ s) :
    Keeps σ (suspect s node cause conn) := by
  unfold suspect
  repeat' first
    | with_reducible assumption
    | with_reducible apply State.count_keeps
    | with_reducible apply putPeer_keeps
    | with_reducible apply setPeerFlag_keeps
    | with_reducible apply State.putBytes_keeps
    | with_reducible apply State.setRg_keeps
    | with_reducible apply event0_keeps
    | with_reducible refine Keeps.ite ?_ ?_
    | split
    | dsimp only
    | intro _

theorem noPathCheck_keeps {σ : State} {s : State} {node : Nat} (hk : Keeps σ s) :
    Keeps σ (noPathCheck s node) := by
  unfold noPathCheck
  repeat' first
    | with_reducible assumption
    | with_reducible apply suspect_keeps
    | with_reducible apply setPeerFlag_keeps
    | with_reducible refine Keeps.ite ?_ ?_
    | split
    | dsimp only
    | intro _

theorem chargeStrike_keeps {σ : State} {s : State} {node i : Nat} (hk : Keeps σ s) :
    Keeps σ (chargeStrike s node i) := by
  unfold chargeStrike
  repeat' first
    | with_reducible assumption
    | with_reducible apply setPathWord_keeps
    | with_reducible apply noPathCheck_keeps
    | with_reducible apply event_keeps
    | with_reducible refine Keeps.ite ?_ ?_
    | split
    | dsimp only
    | intro _

theorem clearStrikes_keeps {σ : State} {s : State} {node i : Nat} (hk : Keeps σ s) :
    Keeps σ (clearStrikes s node i) := by
  unfold clearStrikes
  repeat' first
    | with_reducible assumption
    | with_reducible apply setPathWord_keeps
    | with_reducible refine Keeps.ite ?_ ?_
    | split
    | dsimp only
    | intro _

theorem healPath_keeps {σ : State} {s : State} {node i : Nat} (hk : Keeps σ s) :
    Keeps σ (healPath s node i) := by
  unfold healPath
  repeat' first
    | with_reducible assumption
    | with_reducible apply setPeerFlag_keeps
    | with_reducible apply setPathWord_keeps
    | split
    | dsimp only
    | intro _

theorem setMst_keeps {σ : State} {s : State} {slot v : Nat} (hk : Keeps σ s) :
    Keeps σ (setMst s slot v) := by
  unfold setMst
  repeat' first
    | with_reducible assumption
    | with_reducible apply State.putByte_keeps
    | with_reducible refine Keeps.ite ?_ ?_
    | split
    | dsimp only
    | intro _

theorem dropSnap_keeps {σ : State} {s : State} {slot : Nat} (hk : Keeps σ s) :
    Keeps σ (dropSnap s slot) := by
  unfold dropSnap
  repeat' first
    | with_reducible assumption
    | with_reducible apply Keeps.foldl
    | with_reducible apply KeepsPair.foldl
    | with_reducible apply toScrub_keeps
    | with_reducible apply State.setFld_keeps
    | simp only [Keeps.lit_iff]
    | with_reducible refine Keeps.ite ?_ ?_
    | split
    | dsimp only
    | intro _

theorem mirrorEnd_keeps {σ : State} {s : State} {slot : Nat} (hk : Keeps σ s) :
    Keeps σ (mirrorEnd s slot) := by
  unfold mirrorEnd
  repeat' first
    | with_reducible assumption
    | with_reducible apply Keeps.foldl
    | with_reducible apply KeepsPair.foldl
    | with_reducible apply complete_keeps
    | simp only [Keeps.lit_iff]
    | split
    | dsimp only
    | intro _

theorem diverge_keeps {σ : State} {s : State} {slot status : Nat} (hk : Keeps σ s) :
    Keeps σ (diverge s slot status) := by
  unfold diverge
  repeat' first
    | with_reducible assumption
    | with_reducible apply setMst_keeps
    | with_reducible apply mirrorEnd_keeps
    | with_reducible apply event_keeps
    | split
    | dsimp only
    | intro _

end Sys2Proof.Machine
end

