-- ==== Sys2Proof/Laws/KeepsContexts.lean ====
section
/-!
SUPPORT. What the operations of Machine/Contexts.lean keep (`Keeps`), one lemma each.
-/

namespace Sys2Proof.Machine

theorem dequeue_keeps {σ : State} {s : State} {slot : Nat} (hk : Keeps σ s) :
    Keeps σ (dequeue s slot) := by
  unfold dequeue
  repeat' first
    | with_reducible assumption
    | simp only [Keeps.lit_iff]
    | split
    | dsimp only
    | intro _

theorem enqueue_keeps {σ : State} {s : State} {p : Nat} {q : QEnt} (hk : Keeps σ s) :
    Keeps σ (enqueue s p q) := by
  unfold enqueue
  repeat' first
    | with_reducible assumption
    | simp only [Keeps.lit_iff]
    | split
    | dsimp only
    | intro _

theorem settle_keeps {σ : State} {s : State} {slot status handle : Nat} {payload : List Nat} (hk : Keeps σ s) :
    Keeps σ (settle s slot status handle payload) := by
  unfold settle
  repeat' first
    | with_reducible assumption
    | with_reducible apply complete_keeps
    | with_reducible apply diverge_keeps
    | with_reducible apply State.setReq_keeps
    | simp only [Keeps.lit_iff]
    | with_reducible refine Keeps.ite ?_ ?_
    | split
    | dsimp only
    | intro _

theorem dismiss_keeps {σ : State} {s : State} {slot status : Nat} (hk : Keeps σ s) :
    Keeps σ (dismiss s slot status) := by
  unfold dismiss
  repeat' first
    | with_reducible assumption
    | with_reducible apply dequeue_keeps
    | with_reducible apply settle_keeps
    | simp only [Keeps.lit_iff]
    | split
    | dsimp only
    | intro _

theorem dismissWhere_keeps {σ : State} {s : State} {f : Nat → Bool} {status : Nat} (hk : Keeps σ s) :
    Keeps σ (dismissWhere s f status) := by
  unfold dismissWhere
  repeat' first
    | with_reducible assumption
    | with_reducible apply Keeps.foldl
    | with_reducible apply KeepsPair.foldl
    | with_reducible apply dismiss_keeps
    | split
    | dsimp only
    | intro _

theorem returnEntry_keeps {σ : State} {s : State} {num tier p : Nat} (hk : Keeps σ s) :
    Keeps σ (returnEntry s num tier p) := by
  unfold returnEntry
  repeat' first
    | with_reducible assumption
    | with_reducible apply State.putLE_keeps
    | with_reducible apply State.setRg_keeps
    | with_reducible apply event0_keeps
    | with_reducible apply State.count_keeps
    | with_reducible refine Keeps.ite ?_ ?_
    | split
    | dsimp only
    | intro _

theorem copyDstBack_keeps {σ : State} {s : State} {f : Nat} (hk : Keeps σ s) :
    Keeps σ (copyDstBack s f) := by
  unfold copyDstBack
  repeat' first
    | with_reducible assumption
    | with_reducible apply linkFree_keeps
    | with_reducible apply toScrub_keeps
    | with_reducible refine Keeps.ite ?_ ?_
    | split
    | dsimp only
    | intro _

theorem scrubEnd_keeps {σ : State} {s : State} {f : Nat} (hk : Keeps σ s) :
    Keeps σ (scrubEnd s f) := by
  unfold scrubEnd
  repeat' first
    | with_reducible assumption
    | with_reducible apply linkFree_keeps
    | with_reducible apply zeroLoc_keeps
    | with_reducible refine Keeps.ite ?_ ?_
    | split
    | dsimp only
    | intro _

theorem orderEnd_keeps {σ : State} {s : State} {status : Nat} (hk : Keeps σ s) :
    Keeps σ (orderEnd s status) := by
  unfold orderEnd
  repeat' first
    | with_reducible assumption
    | with_reducible apply State.putByte_keeps
    | with_reducible apply State.putLE_keeps
    | with_reducible apply event0_keeps
    | with_reducible apply State.setRg_keeps
    | simp only [Keeps.lit_iff]
    | split
    | dsimp only
    | intro _

theorem moveDrop_keeps {σ : State} {s : State} {m : Move} (hk : Keeps σ s) :
    Keeps σ (moveDrop s m) := by
  unfold moveDrop
  repeat' first
    | with_reducible assumption
    | with_reducible apply memWithdraw_keeps
    | with_reducible apply memRelease_keeps
    | with_reducible apply State.setFrame_keeps
    | with_reducible apply toScrub_keeps
    | simp only [Keeps.lit_iff]
    | with_reducible refine Keeps.ite ?_ ?_
    | split
    | dsimp only
    | intro _

theorem movesStop_keeps {σ : State} {s : State} {slot gen status : Nat} (hk : Keeps σ s) :
    Keeps σ (movesStop s slot gen status) := by
  unfold movesStop
  repeat' first
    | with_reducible assumption
    | with_reducible apply Keeps.foldl
    | with_reducible apply KeepsPair.foldl
    | with_reducible apply moveDrop_keeps
    | with_reducible apply orderEnd_keeps
    | with_reducible refine Keeps.ite ?_ ?_
    | split
    | dsimp only
    | intro _

theorem fetchDrop_keeps {σ : State} {s : State} {f : Fetch} (hk : Keeps σ s) :
    Keeps σ (fetchDrop s f) := by
  unfold fetchDrop
  repeat' first
    | with_reducible assumption
    | with_reducible apply memWithdraw_keeps
    | with_reducible apply memRelease_keeps
    | with_reducible apply toScrub_keeps
    | simp only [Keeps.lit_iff]
    | split
    | dsimp only
    | intro _

theorem fetchesStop_keeps {σ : State} {s : State} {slot gen : Nat} (hk : Keeps σ s) :
    Keeps σ (fetchesStop s slot gen) := by
  unfold fetchesStop
  repeat' first
    | with_reducible assumption
    | with_reducible apply Keeps.foldl
    | with_reducible apply KeepsPair.foldl
    | with_reducible apply fetchDrop_keeps
    | split
    | dsimp only
    | intro _

theorem releaseLane_keeps {σ : State} {s : State} {c : Ctx} {lane : Nat} (hk : Keeps σ s) :
    Keeps σ (releaseLane s c lane) := by
  unfold releaseLane
  repeat' first
    | with_reducible assumption
    | with_reducible apply Keeps.foldl
    | with_reducible apply KeepsPair.foldl
    | with_reducible apply decRef_keeps
    | with_reducible apply returnEntry_keeps
    | with_reducible refine Keeps.ite ?_ ?_
    | split
    | dsimp only
    | intro _

theorem staleKeys_keeps {σ : State} {s : State} {slot gen : Nat} (hk : Keeps σ s) :
    Keeps σ (staleKeys s slot gen) := by
  unfold staleKeys
  repeat' first
    | with_reducible assumption
    | with_reducible apply Keeps.foldl
    | with_reducible apply KeepsPair.foldl
    | with_reducible apply event_keeps
    | with_reducible apply State.count_keeps
    | split
    | dsimp only
    | intro _

theorem releaseApply_keeps {σ : State} {s : State} {slot : Nat} (hk : Keeps σ s) :
    Keeps σ (releaseApply s slot) := by
  unfold releaseApply
  repeat' first
    | with_reducible assumption
    | with_reducible apply Keeps.foldl
    | with_reducible apply KeepsPair.foldl
    | with_reducible apply fetchesStop_keeps
    | with_reducible apply movesStop_keeps
    | with_reducible apply releaseLane_keeps
    | with_reducible apply copyDstBack_keeps
    | with_reducible apply labDrop_keeps
    | with_reducible apply freeContextTables_keeps
    | with_reducible apply dismissWhere_keeps
    | with_reducible apply staleKeys_keeps
    | with_reducible apply State.setCtx_keeps
    | simp only [Keeps.lit_iff]
    | with_reducible refine Keeps.ite ?_ ?_
    | split
    | dsimp only
    | intro _

theorem loseContext_keeps {σ : State} {s : State} {slot cause : Nat} (hk : Keeps σ s) :
    Keeps σ (loseContext s slot cause) := by
  unfold loseContext
  repeat' first
    | with_reducible assumption
    | with_reducible apply State.setCtx_keeps
    | with_reducible apply dismissWhere_keeps
    | with_reducible apply event_keeps
    | simp only [Keeps.lit_iff]
    | with_reducible refine Keeps.ite ?_ ?_
    | split
    | dsimp only
    | intro _

theorem ctxBad_keeps {σ : State} {s : State} {slot : Nat} (hk : Keeps σ s) :
    Keeps σ (ctxBad s slot) := by
  unfold ctxBad
  repeat' first
    | with_reducible assumption
    | with_reducible apply loseContext_keeps
    | with_reducible apply fault_keeps
    | with_reducible apply State.count_keeps
    | split
    | dsimp only
    | intro _

theorem reqDrop_keeps {σ : State} {s : State} {slot : Nat} (hk : Keeps σ s) :
    Keeps σ (reqDrop s slot) := by
  unfold reqDrop
  repeat' first
    | with_reducible assumption
    | with_reducible apply dequeue_keeps
    | simp only [Keeps.lit_iff]
    | split
    | dsimp only
    | intro _

theorem reqBad_keeps {σ : State} {s : State} {slot : Nat} {noReply : Bool} (hk : Keeps σ s) :
    Keeps σ (reqBad s slot noReply) := by
  unfold reqBad
  repeat' first
    | with_reducible assumption
    | with_reducible apply fault_keeps
    | with_reducible apply State.count_keeps
    | with_reducible apply reqDrop_keeps
    | with_reducible apply State.setReq_keeps
    | with_reducible apply settle_keeps
    | simp only [Keeps.lit_iff]
    | with_reducible refine Keeps.ite ?_ ?_
    | split
    | dsimp only
    | intro _

theorem cloneLane_keeps {σ : State} {s : State} {src c : Ctx} {n lane : Nat} (hk : Keeps σ s) :
    Keeps σ (cloneLane s src c n lane) := by
  unfold cloneLane
  repeat' first
    | with_reducible assumption
    | with_reducible apply Keeps.foldl
    | with_reducible apply KeepsPair.foldl
    | with_reducible apply setLanePages_keeps
    | with_reducible apply setPte_keeps
    | with_reducible apply setLaneCow_keeps
    | with_reducible apply setLaneLen_keeps
    | simp only [Keeps.lit_iff]
    | with_reducible refine Keeps.ite ?_ ?_
    | split
    | dsimp only
    | intro _

theorem cloneTake_keeps {σ : State} {s : State} {slot : Nat} (hk : Keeps σ s) :
    KeepsExc σ (cloneTake s slot) := by
  unfold cloneTake
  repeat' first
    | with_reducible assumption
    | exact KeepsExc.error
    | with_reducible apply KeepsExc.ok
    | with_reducible apply Keeps.foldl
    | with_reducible apply KeepsPair.foldl
    | with_reducible apply allocContext_keeps
    | with_reducible apply takeFrames_keeps
    | with_reducible apply cloneLane_keeps
    | refine KeepsExc.use ?_ (by with_reducible assumption)
    | refine KeepsExcP.use ?_ (by with_reducible assumption)
    | simp only [Keeps.lit_iff]
    | with_reducible refine Keeps.ite ?_ ?_
    | split
    | dsimp only
    | intro _

theorem cloneCount_keeps {σ : State} {s : State} {slot : Nat} (hk : Keeps σ s) :
    Keeps σ (cloneCount s slot) := by
  unfold cloneCount
  repeat' first
    | with_reducible assumption
    | with_reducible apply Keeps.foldl
    | with_reducible apply KeepsPair.foldl
    | with_reducible apply incRef_keeps
    | with_reducible apply State.setFld_keeps
    | with_reducible refine Keeps.ite ?_ ?_
    | split
    | dsimp only
    | intro _

theorem cloneApply_keeps {σ : State} {s : State} {slot status : Nat} (hk : Keeps σ s) :
    Keeps σ (cloneApply s slot status) := by
  unfold cloneApply
  repeat' first
    | with_reducible assumption
    | with_reducible apply settle_keeps
    | with_reducible apply State.setCtx_keeps
    | simp only [Keeps.lit_iff]
    | split
    | dsimp only
    | intro _

theorem copyPagePart_keeps {σ : State} {s : State} {g : Geo} {src dst n : Nat} (hk : Keeps σ s) :
    Keeps σ (copyPagePart s g src dst n) := by
  unfold copyPagePart
  repeat' first
    | with_reducible assumption
    | with_reducible apply State.writeBytes_keeps
    | with_reducible apply zeroLoc_keeps
    | with_reducible refine Keeps.ite ?_ ?_
    | split
    | dsimp only
    | intro _

theorem cowCopy_keeps {σ : State} {s : State} {slot lane : Nat} (hk : Keeps σ s) :
    Keeps σ (cowCopy s slot lane) := by
  unfold cowCopy
  repeat' first
    | with_reducible assumption
    | with_reducible apply copyPagePart_keeps
    | simp only [Keeps.lit_iff]
    | with_reducible refine Keeps.ite ?_ ?_
    | split
    | dsimp only
    | intro _

theorem cowRewrite_keeps {σ : State} {s : State} {w : Cow} (hk : Keeps σ s) :
    Keeps σ (cowRewrite s w) := by
  unfold cowRewrite
  repeat' first
    | with_reducible assumption
    | with_reducible apply frameFirst_keeps
    | with_reducible apply setPte_keeps
    | with_reducible apply setLaneCow_keeps
    | with_reducible apply decRef_keeps
    | simp only [Keeps.lit_iff]
    | split
    | dsimp only
    | intro _

theorem cowRewriteAll_keeps {σ : State} {s : State} (hk : Keeps σ s) :
    Keeps σ (cowRewriteAll s) := by
  unfold cowRewriteAll
  repeat' first
    | with_reducible assumption
    | with_reducible apply Keeps.foldl
    | with_reducible apply KeepsPair.foldl
    | with_reducible apply cowRewrite_keeps
    | split
    | dsimp only
    | intro _

theorem tokenWrite_keeps {σ : State} {s : State} {c : Ctx} {slot lane f pos : Nat} {first : Bool} {kvs : List (List (List F32))}
    (hk : Keeps σ s) :
    Keeps σ (tokenWrite s c slot lane f pos first kvs) := by
  unfold tokenWrite
  repeat' first
    | with_reducible assumption
    | with_reducible apply Keeps.foldl
    | with_reducible apply KeepsPair.foldl
    | with_reducible apply State.writeBytes_keeps
    | with_reducible apply KeepsPair.fst
    | simp only [KeepsPair.mk_iff]
    | simp only [Keeps.lit_iff]
    | with_reducible refine Keeps.ite ?_ ?_
    | split
    | dsimp only
    | intro _

theorem appendToken_keeps {σ : State} {slot lane : Nat} {kvs : List (List (List F32))} {acc : State × List Nat} {pos : Nat} (hk
    : KeepsPair σ acc) :
    KeepsPair σ (appendToken slot lane kvs acc pos) := by
  unfold appendToken
  repeat' first
    | with_reducible assumption
    | with_reducible apply frameFirst_keeps
    | with_reducible apply tokenWrite_keeps
    | with_reducible apply setLanePages_keeps
    | with_reducible apply setPte_keeps
    | refine KeepsPair.use ?_ (by with_reducible assumption)
    | with_reducible apply KeepsPair.fst
    | simp only [KeepsPair.mk_iff]
    | simp only [Keeps.lit_iff]
    | with_reducible refine Keeps.ite ?_ ?_
    | split
    | dsimp only
    | intro _

theorem appendLane_keeps {σ : State} {r : Req} {slot : Nat} {acc : State × List Nat} {ln : Nat × Nat} (hk : KeepsPair σ acc) :
    KeepsPair σ (appendLane r slot acc ln) := by
  unfold appendLane
  repeat' first
    | with_reducible assumption
    | with_reducible apply Keeps.foldl
    | with_reducible apply KeepsPair.foldl
    | with_reducible apply appendToken_keeps
    | with_reducible apply setLaneLen_keeps
    | refine KeepsPair.use ?_ (by with_reducible assumption)
    | with_reducible apply KeepsPair.fst
    | simp only [KeepsPair.mk_iff]
    | split
    | dsimp only
    | intro _

theorem appendCommit_keeps {σ : State} {s : State} {slot : Nat} (hk : Keeps σ s) :
    KeepsPair σ (appendCommit s slot) := by
  unfold appendCommit
  repeat' first
    | with_reducible assumption
    | with_reducible apply Keeps.foldl
    | with_reducible apply KeepsPair.foldl
    | with_reducible apply appendLane_keeps
    | with_reducible apply toScrub_keeps
    | refine KeepsPair.use ?_ (by with_reducible assumption)
    | with_reducible apply KeepsPair.fst
    | simp only [KeepsPair.mk_iff]
    | simp only [Keeps.lit_iff]
    | with_reducible refine Keeps.ite ?_ ?_
    | split
    | dsimp only
    | intro _

theorem starveLanes_keeps {σ : State} {s : State} {slot : Nat} (hk : Keeps σ s) :
    Keeps σ (starveLanes s slot) := by
  unfold starveLanes
  repeat' first
    | with_reducible assumption
    | with_reducible apply Keeps.foldl
    | with_reducible apply KeepsPair.foldl
    | with_reducible apply setLaneStarved_keeps
    | with_reducible apply event_keeps
    | split
    | dsimp only
    | intro _

theorem starvedClear_keeps {σ : State} {s : State} {slot : Nat} (hk : Keeps σ s) :
    Keeps σ (starvedClear s slot) := by
  unfold starvedClear
  repeat' first
    | with_reducible assumption
    | with_reducible apply Keeps.foldl
    | with_reducible apply KeepsPair.foldl
    | with_reducible apply event_keeps
    | with_reducible apply setLaneStarved_keeps
    | with_reducible refine Keeps.ite ?_ ?_
    | split
    | dsimp only
    | intro _

theorem starvedClearAll_keeps {σ : State} {s : State} (hk : Keeps σ s) :
    Keeps σ (starvedClearAll s) := by
  unfold starvedClearAll
  repeat' first
    | with_reducible assumption
    | with_reducible apply Keeps.foldl
    | with_reducible apply KeepsPair.foldl
    | with_reducible apply starvedClear_keeps
    | split
    | dsimp only
    | intro _

theorem ctxForce_keeps {σ : State} {s : State} {slot gen op : Nat} (hk : Keeps σ s) :
    Keeps σ (ctxForce s slot gen op) := by
  unfold ctxForce
  repeat' first
    | with_reducible assumption
    | with_reducible apply Keeps.foldl
    | with_reducible apply KeepsPair.foldl
    | with_reducible apply setLaneStarved_keeps
    | with_reducible apply loseContext_keeps
    | with_reducible apply releaseApply_keeps
    | with_reducible refine Keeps.ite ?_ ?_
    | split
    | dsimp only
    | intro _

theorem frmGrant_keeps {σ : State} {s : State} {p tier : Nat} {toPool : Bool} {n : Nat} (hk : Keeps σ s) :
    Keeps σ (frmGrant s p tier toPool n) := by
  unfold frmGrant
  repeat' first
    | with_reducible assumption
    | with_reducible apply State.setFreeList_keeps
    | with_reducible apply State.setPool_keeps
    | with_reducible apply State.setRg_keeps
    | with_reducible apply event_keeps
    | with_reducible refine Keeps.ite ?_ ?_
    | split
    | dsimp only
    | intro _

theorem devresTake_keeps {σ : State} {s : State} {f : Nat} (hk : Keeps σ s) :
    Keeps σ (devresTake s f) := by
  unfold devresTake
  repeat' first
    | with_reducible assumption
    | with_reducible apply State.setPool_keeps
    | with_reducible apply State.setFrame_keeps
    | with_reducible apply State.setRg_keeps
    | with_reducible refine Keeps.ite ?_ ?_
    | split
    | dsimp only
    | intro _

theorem devresRelease_keeps {σ : State} {s : State} {f : Nat} (hk : Keeps σ s) :
    Keeps σ (devresRelease s f) := by
  unfold devresRelease
  repeat' first
    | with_reducible assumption
    | with_reducible apply toScrub_keeps
    | with_reducible apply State.setRg_keeps
    | with_reducible refine Keeps.ite ?_ ?_
    | split
    | dsimp only
    | intro _

theorem migCopy_keeps {σ : State} {s : State} {slot : Nat} (hk : Keeps σ s) :
    Keeps σ (migCopy s slot) := by
  unfold migCopy
  repeat' first
    | with_reducible assumption
    | with_reducible apply Keeps.foldl
    | with_reducible apply KeepsPair.foldl
    | with_reducible apply zeroLoc_keeps
    | with_reducible apply State.writeBytes_keeps
    | simp only [Keeps.lit_iff]
    | with_reducible refine Keeps.ite ?_ ?_
    | split
    | dsimp only
    | intro _

theorem migMap_keeps {σ : State} {s : State} {im : Import} (hk : Keeps σ s) :
    Keeps σ (migMap s im) := by
  unfold migMap
  repeat' first
    | with_reducible assumption
    | with_reducible apply Keeps.foldl
    | with_reducible apply KeepsPair.foldl
    | with_reducible apply settle_keeps
    | with_reducible apply toScrub_keeps
    | with_reducible apply setLanePages_keeps
    | with_reducible apply frameFirst_keeps
    | with_reducible apply setPte_keeps
    | with_reducible apply setLaneLen_keeps
    | simp only [Keeps.lit_iff]
    | with_reducible refine Keeps.ite ?_ ?_
    | split
    | dsimp only
    | intro _

theorem migMapAll_keeps {σ : State} {s : State} (hk : Keeps σ s) :
    Keeps σ (migMapAll s) := by
  unfold migMapAll
  repeat' first
    | with_reducible assumption
    | with_reducible apply Keeps.foldl
    | with_reducible apply KeepsPair.foldl
    | with_reducible apply migMap_keeps
    | split
    | dsimp only
    | intro _

end Sys2Proof.Machine
end

