-- ==== Sys2Proof/Laws/KeepsAdmission.lean ====
section
/-!
SUPPORT. What the operations of Machine/Admission.lean keep (`Keeps`), one lemma each.
-/

namespace Sys2Proof.Machine

/-- The state that a request's plan hands on. -/
def KeepsPlan (σ : State) (o : Except PlanFail Planned) : Prop := ∀ x, o = .ok x → Keeps σ x.s

theorem KeepsPlan.ok {σ : State} {x : Planned} (h : Keeps σ x.s) : KeepsPlan σ (.ok x) := fun _ e => by cases e; exact h
theorem KeepsPlan.error {σ : State} {e : PlanFail} : KeepsPlan σ (.error e) := fun _ h => by cases h
theorem KeepsPlan.map {σ : State} {α : Type} {o : Except PlanFail α} {f : α → Planned} (h : ∀ a, Keeps σ (f a).s) :
    KeepsPlan σ (o.map f) := by
  cases o with
  | error e => exact KeepsPlan.error
  | ok a => exact KeepsPlan.ok (h a)
theorem KeepsPlan.use {σ : State} {o : Except PlanFail Planned} {x : Planned} (h : KeepsPlan σ o) (e : o = .ok x) : Keeps σ x.s := h x e

theorem planAppend_keeps {σ : State} {s : State} {b : TplBlock} {slot : Nat} (hk : Keeps σ s) :
    KeepsPlan σ (planAppend s b slot) := by
  unfold planAppend
  dsimp only
  split
  · exact KeepsPlan.error
  split
  · exact KeepsPlan.error
  split
  · exact KeepsPlan.map fun _ => hk
  · next s1 fs heq =>
    have h1 : Keeps σ s1 := by
      split at heq
      · cases heq
      · exact (takeFrames_keeps hk) _ _ heq
    exact KeepsPlan.map fun _ => h1

theorem planClone_keeps {σ : State} {s : State} {b : TplBlock} {slot : Nat} (hk : Keeps σ s) :
    KeepsPlan σ (planClone s b slot) := by
  unfold planClone
  repeat' first
    | with_reducible assumption
    | with_reducible exact KeepsPlan.error
    | with_reducible apply KeepsPlan.ok
    | with_reducible apply KeepsPlan.map
    | with_reducible apply cloneTake_keeps
    | refine KeepsExc.use ?_ (by with_reducible assumption)
    | refine KeepsPlan.use ?_ (by with_reducible assumption)
    | simp only [Keeps.lit_iff]
    | with_reducible refine Keeps.ite ?_ ?_
    | split
    | dsimp only
    | intro _

theorem planMigrate_keeps {σ : State} {s : State} {b : TplBlock} {slot : Nat} (hk : Keeps σ s) :
    KeepsPlan σ (planMigrate s b slot) := by
  unfold planMigrate
  repeat' first
    | with_reducible assumption
    | with_reducible exact KeepsPlan.error
    | with_reducible apply KeepsPlan.ok
    | with_reducible apply KeepsPlan.map
    | with_reducible apply takeFrames_keeps
    | refine KeepsPlan.use ?_ (by with_reducible assumption)
    | refine KeepsExcP.use ?_ (by with_reducible assumption)
    | simp only [Keeps.lit_iff]
    | with_reducible refine Keeps.ite ?_ ?_
    | split
    | dsimp only
    | intro _

theorem planReq_keeps {σ : State} {s : State} {b : TplBlock} {slot : Nat} (hk : Keeps σ s) :
    KeepsPlan σ (planReq s b slot) := by
  unfold planReq
  repeat' first
    | with_reducible assumption
    | with_reducible exact KeepsPlan.error
    | with_reducible apply KeepsPlan.ok
    | with_reducible apply KeepsPlan.map
    | with_reducible apply planAppend_keeps
    | with_reducible apply planClone_keeps
    | with_reducible apply planMigrate_keeps
    | refine KeepsPlan.use ?_ (by with_reducible assumption)
    | with_reducible refine Keeps.ite ?_ ?_
    | split
    | dsimp only
    | intro _

theorem admitted_keeps {σ : State} {s : State} {b : TplBlock} {slot charge pj : Nat} (hk : Keeps σ s) :
    Keeps σ (admitted s b slot charge pj) := by
  unfold admitted
  repeat' first
    | with_reducible assumption
    | with_reducible apply State.setReq_keeps
    | with_reducible apply dequeue_keeps
    | simp only [Keeps.lit_iff]
    | with_reducible refine Keeps.ite ?_ ?_
    | split
    | dsimp only
    | intro _

theorem admittedEmpty_keeps {σ : State} {s : State} {slot st : Nat} (hk : Keeps σ s) :
    Keeps σ (admittedEmpty s slot st) := by
  unfold admittedEmpty
  repeat' first
    | with_reducible assumption
    | with_reducible apply event_keeps
    | with_reducible apply refuseFrames_keeps
    | with_reducible apply starveLanes_keeps
    | with_reducible apply State.setReq_keeps
    | with_reducible apply admitted_keeps
    | with_reducible apply dequeue_keeps
    | simp only [Keeps.lit_iff]
    | with_reducible refine Keeps.ite ?_ ?_
    | split
    | dsimp only
    | intro _

/-- The state that a result of type Verdict hands on. -/
def KeepsVerdict (σ : State) (v : Verdict) : Prop :=
  match v with
  | .stop s => Keeps σ s
  | .next s _ => Keeps σ s

theorem KeepsVerdict.stop {σ s : State} (h : Keeps σ s) : KeepsVerdict σ (.stop s) := h
theorem KeepsVerdict.use_stop {σ s : State} {v : Verdict} (h : KeepsVerdict σ v) (e : v = .stop s) : Keeps σ s := by subst e; exact h
theorem KeepsVerdict.next {σ s : State} {x : Nat} (h : Keeps σ s) : KeepsVerdict σ (.next s x) := h
theorem KeepsVerdict.use_next {σ s : State} {x : Nat} {v : Verdict} (h : KeepsVerdict σ v) (e : v = .next s x) : Keeps σ s := by subst e; exact h

theorem examine_keeps {σ : State} {s : State} {errs : List PlanErr} {slot credit : Nat} (hk : Keeps σ s) :
    KeepsVerdict σ (examine s errs slot credit) := by
  unfold examine
  repeat' first
    | with_reducible assumption
    | with_reducible apply KeepsVerdict.stop
    | with_reducible apply KeepsVerdict.next
    | with_reducible apply dismiss_keeps
    | with_reducible apply State.setReq_keeps
    | with_reducible apply walkFault_keeps
    | with_reducible apply ctxBad_keeps
    | with_reducible apply reqBad_keeps
    | with_reducible apply fault_keeps
    | with_reducible apply uncorr_keeps
    | with_reducible apply planReq_keeps
    | with_reducible apply admittedEmpty_keeps
    | with_reducible apply admitted_keeps
    | with_reducible apply event_keeps
    | refine KeepsPlan.use ?_ (by with_reducible assumption)
    | refine KeepsVerdict.use_stop ?_ (by with_reducible assumption)
    | refine KeepsVerdict.use_next ?_ (by with_reducible assumption)
    | simp only [Keeps.lit_iff]
    | with_reducible refine Keeps.ite ?_ ?_
    | split
    | dsimp only
    | intro _

theorem turn_keeps {σ : State} {s : State} {errs : List PlanErr} {p n l m : Nat} (hk : Keeps σ s) :
    KeepsPair σ (turn s errs p n l m) := by
  induction l generalizing s errs m with
  | zero =>
    unfold turn
    repeat' first
      | with_reducible assumption
      | with_reducible apply examine_keeps
      | refine KeepsPair.use ?_ (by with_reducible assumption)
      | refine KeepsVerdict.use_stop ?_ (by with_reducible assumption)
      | refine KeepsVerdict.use_next ?_ (by with_reducible assumption)
      | with_reducible apply KeepsPair.fst
      | simp only [KeepsPair.mk_iff]
      | simp only [Keeps.lit_iff]
      | with_reducible refine Keeps.ite ?_ ?_
      | split
      | dsimp only
      | intro _
  | succ n ih =>
    unfold turn
    repeat' first
      | with_reducible assumption
      | with_reducible apply ih
      | with_reducible apply examine_keeps
      | refine KeepsPair.use ?_ (by with_reducible assumption)
      | refine KeepsVerdict.use_stop ?_ (by with_reducible assumption)
      | refine KeepsVerdict.use_next ?_ (by with_reducible assumption)
      | with_reducible apply KeepsPair.fst
      | simp only [KeepsPair.mk_iff]
      | simp only [Keeps.lit_iff]
      | with_reducible refine Keeps.ite ?_ ?_
      | split
      | dsimp only
      | intro _

theorem markLate_keeps {σ : State} {s : State} {p n : Nat} (hk : Keeps σ s) :
    Keeps σ (markLate s p n) := by
  unfold markLate
  repeat' first
    | with_reducible assumption
    | with_reducible apply Keeps.foldl
    | with_reducible apply KeepsPair.foldl
    | with_reducible apply State.setReq_keeps
    | with_reducible apply event0_keeps
    | simp only [Keeps.lit_iff]
    | with_reducible refine Keeps.ite ?_ ?_
    | split
    | dsimp only
    | intro _

theorem State.setDeficit_keeps {σ : State} {s : State} {p v : Nat} (hk : Keeps σ s) :
    Keeps σ (State.setDeficit s p v) := by
  unfold State.setDeficit
  repeat' first
    | with_reducible assumption
    | simp only [Keeps.lit_iff]
    | split
    | dsimp only
    | intro _

theorem passPart_keeps {σ : State} {s : State} {errs : List PlanErr} {n p : Nat} (hk : Keeps σ s) :
    Keeps σ (passPart s errs n p) := by
  unfold passPart
  repeat' first
    | with_reducible assumption
    | with_reducible apply turn_keeps
    | with_reducible apply State.setDeficit_keeps
    | with_reducible apply markLate_keeps
    | refine KeepsPair.use ?_ (by with_reducible assumption)
    | with_reducible apply KeepsPair.fst
    | simp only [KeepsPair.mk_iff]
    | with_reducible refine Keeps.ite ?_ ?_
    | split
    | dsimp only
    | intro _

theorem bookRaw_keeps {σ : State} {s : State} {n : Nat} (hk : Keeps σ s) :
    Keeps σ (bookRaw s n) := by
  unfold bookRaw
  repeat' first
    | with_reducible assumption
    | with_reducible apply event0_keeps
    | simp only [Keeps.lit_iff]
    | with_reducible refine Keeps.ite ?_ ?_
    | split
    | dsimp only
    | intro _

theorem planReset_keeps {σ : State} {s : State} (hk : Keeps σ s) :
    Keeps σ (planReset s) := by
  unfold planReset
  repeat' first
    | with_reducible assumption
    | simp only [Keeps.lit_iff]
    | split
    | dsimp only
    | intro _

theorem admissionPass_keeps {σ : State} {s : State} {errs : List PlanErr} (hk : Keeps σ s) :
    Keeps σ (admissionPass s errs) := by
  unfold admissionPass
  repeat' first
    | with_reducible assumption
    | with_reducible apply Keeps.foldl
    | with_reducible apply KeepsPair.foldl
    | with_reducible apply bookRaw_keeps
    | with_reducible apply passPart_keeps
    | with_reducible apply event0_keeps
    | with_reducible refine Keeps.ite ?_ ?_
    | split
    | dsimp only
    | intro _

theorem carryRemove_keeps {σ : State} {s : State} {slot : Nat} (hk : Keeps σ s) :
    Keeps σ (carryRemove s slot) := by
  unfold carryRemove
  repeat' first
    | with_reducible assumption
    | with_reducible apply dismiss_keeps
    | with_reducible refine Keeps.ite ?_ ?_
    | split
    | dsimp only
    | intro _

theorem carryRemoveAll_keeps {σ : State} {s : State} (hk : Keeps σ s) :
    Keeps σ (carryRemoveAll s) := by
  unfold carryRemoveAll
  repeat' first
    | with_reducible assumption
    | with_reducible apply Keeps.foldl
    | with_reducible apply KeepsPair.foldl
    | with_reducible apply carryRemove_keeps
    | split
    | dsimp only
    | intro _

end Sys2Proof.Machine
end

