-- ==== Sys2Proof/Laws/KeepsRiddle.lean ====
section
/-!
SUPPORT. What the operations of Machine/Riddle.lean keep (`Keeps`), one lemma each.
-/

namespace Sys2Proof.Machine

theorem State.setRdlEnt_keeps {σ : State} {s : State} {i : Nat} {e : RdlEnt} (hk : Keeps σ s) :
    Keeps σ (State.setRdlEnt s i e) := by
  unfold State.setRdlEnt
  repeat' first
    | with_reducible assumption
    | simp only [Keeps.lit_iff]
    | split
    | dsimp only
    | intro _

theorem rdlAlter_keeps {σ : State} {s : State} {e : RdlEnt} {f : RdlEnt → RdlEnt} (hk : Keeps σ s) :
    Keeps σ (rdlAlter s e f) := by
  unfold rdlAlter
  repeat' first
    | with_reducible assumption
    | simp only [Keeps.lit_iff]
    | with_reducible refine Keeps.ite ?_ ?_
    | split
    | dsimp only
    | intro _

theorem rdlCountHit_keeps {σ : State} {s : State} {e : RdlEnt} (hk : Keeps σ s) :
    Keeps σ (rdlCountHit s e) := by
  unfold rdlCountHit
  repeat' first
    | with_reducible assumption
    | with_reducible apply rdlAlter_keeps
    | with_reducible apply State.count_keeps
    | simp only [Keeps.lit_iff]
    | with_reducible refine Keeps.ite ?_ ?_
    | split
    | dsimp only
    | intro _

theorem rdlResult_keeps {σ : State} {s : State} {c status : Nat} {hit replaced : Bool} {pos : Nat} (hk : Keeps σ s) :
    Keeps σ (rdlResult s c status hit replaced pos) := by
  unfold rdlResult
  repeat' first
    | with_reducible assumption
    | with_reducible apply State.setRg_keeps
    | split
    | dsimp only
    | intro _

theorem rdlOpFields_keeps {σ : State} {s : State} {c len shared part : Nat} (hk : Keeps σ s) :
    Keeps σ (rdlOpFields s c len shared part) := by
  unfold rdlOpFields
  repeat' first
    | with_reducible assumption
    | with_reducible apply State.setRg_keeps
    | split
    | dsimp only
    | intro _

theorem rdlBad_keeps {σ : State} {s : State} {bad : Option Nat} (hk : Keeps σ s) :
    Keeps σ (rdlBad s bad) := by
  unfold rdlBad
  repeat' first
    | with_reducible assumption
    | with_reducible apply fault_keeps
    | with_reducible apply rdlAlter_keeps
    | with_reducible apply State.count_keeps
    | simp only [Keeps.lit_iff]
    | with_reducible refine Keeps.ite ?_ ?_
    | split
    | dsimp only
    | intro _

theorem execRdlLookup_keeps {σ : State} {core len shared part : Nat} {bad : Option Nat} {s : State} (hk : Keeps σ s) :
    KeepsOut σ (execRdlLookup core len shared part bad s) := by
  unfold execRdlLookup
  repeat' first
    | with_reducible assumption
    | with_reducible apply KeepsOut.next
    | with_reducible apply rdlBad_keeps
    | with_reducible apply rdlOpFields_keeps
    | with_reducible apply State.count_keeps
    | with_reducible apply State.setFld_keeps
    | refine KeepsOut.use ?_ (by with_reducible assumption)
    | simp only [Keeps.lit_iff]
    | with_reducible refine Keeps.ite ?_ ?_
    | split
    | dsimp only
    | intro _

theorem rdlBegin_keeps {σ : State} {s : State} {up : Nat} (hk : Keeps σ s) :
    Keeps σ (rdlBegin s up) := by
  unfold rdlBegin
  repeat' first
    | with_reducible assumption
    | simp only [Keeps.lit_iff]
    | split
    | dsimp only
    | intro _

theorem rdlIssue_keeps {σ : State} {s : State} {c : Nat} {insert : Bool} {len shared part : Nat} (hk : Keeps σ s) :
    Keeps σ (rdlIssue s c insert len shared part) := by
  unfold rdlIssue
  repeat' first
    | with_reducible assumption
    | with_reducible apply rdlOpFields_keeps
    | with_reducible apply State.setFld_keeps
    | with_reducible apply rdlBegin_keeps
    | simp only [Keeps.lit_iff]
    | with_reducible refine Keeps.ite ?_ ?_
    | split
    | dsimp only
    | intro _

theorem execRdlInsert_keeps {σ : State} {core len shared part : Nat} {s : State} (hk : Keeps σ s) :
    KeepsOut σ (execRdlInsert core len shared part s) := by
  unfold execRdlInsert
  repeat' first
    | with_reducible assumption
    | with_reducible apply KeepsOut.next
    | with_reducible apply rdlIssue_keeps
    | refine KeepsOut.use ?_ (by with_reducible assumption)
    | split
    | dsimp only
    | intro _

theorem execRdlDelete_keeps {σ : State} {core len shared part : Nat} {s : State} (hk : Keeps σ s) :
    KeepsOut σ (execRdlDelete core len shared part s) := by
  unfold execRdlDelete
  repeat' first
    | with_reducible assumption
    | with_reducible apply KeepsOut.next
    | with_reducible apply rdlIssue_keeps
    | refine KeepsOut.use ?_ (by with_reducible assumption)
    | split
    | dsimp only
    | intro _

theorem rdlInsertEnd_keeps {σ : State} {s : State} {k : RdlCmd} {p : RdlPlan} (hk : Keeps σ s) :
    Keeps σ (rdlInsertEnd s k p) := by
  unfold rdlInsertEnd
  repeat' first
    | with_reducible assumption
    | with_reducible apply event_keeps
    | with_reducible apply rdlResult_keeps
    | with_reducible apply State.count_keeps
    | with_reducible apply State.setRdlEnt_keeps
    | with_reducible apply State.setRg_keeps
    | simp only [Keeps.lit_iff]
    | with_reducible refine Keeps.ite ?_ ?_
    | split
    | dsimp only
    | intro _

theorem rdlDeleteEnd_keeps {σ : State} {s : State} {k : RdlCmd} {p : RdlPlan} (hk : Keeps σ s) :
    Keeps σ (rdlDeleteEnd s k p) := by
  unfold rdlDeleteEnd
  repeat' first
    | with_reducible assumption
    | with_reducible apply rdlResult_keeps
    | with_reducible apply State.setRg_keeps
    | simp only [Keeps.lit_iff]
    | with_reducible refine Keeps.ite ?_ ?_
    | split
    | dsimp only
    | intro _

theorem execRdlCommandDone_keeps {σ : State} {s : State} (hk : Keeps σ s) :
    KeepsOut σ (execRdlCommandDone s) := by
  unfold execRdlCommandDone
  repeat' first
    | with_reducible assumption
    | with_reducible apply KeepsOut.next
    | with_reducible apply reachUp_keeps
    | with_reducible apply rdlBegin_keeps
    | with_reducible apply rdlInsertEnd_keeps
    | with_reducible apply rdlDeleteEnd_keeps
    | with_reducible apply KeepsOpt.getD
    | with_reducible apply KeepsOpt.orElse
    | refine KeepsOpt.use ?_ (by with_reducible assumption)
    | refine KeepsOut.use ?_ (by with_reducible assumption)
    | simp only [Keeps.lit_iff]
    | with_reducible refine Keeps.ite ?_ ?_
    | split
    | dsimp only
    | intro _

theorem rdlLookEnd_keeps {σ : State} {s : State} {l : RdlLook} (hk : Keeps σ s) :
    Keeps σ (rdlLookEnd s l) := by
  unfold rdlLookEnd
  repeat' first
    | with_reducible assumption
    | with_reducible apply rdlResult_keeps
    | with_reducible apply State.setRg_keeps
    | split
    | dsimp only
    | intro _

theorem rdlClear_keeps {σ : State} {s : State} {p : Nat} (hk : Keeps σ s) :
    Keeps σ (rdlClear s p) := by
  unfold rdlClear
  repeat' first
    | with_reducible assumption
    | with_reducible apply State.setRg_keeps
    | simp only [Keeps.lit_iff]
    | with_reducible refine Keeps.ite ?_ ?_
    | split
    | dsimp only
    | intro _

end Sys2Proof.Machine
end

