-- ==== Sys2Proof/Laws/KeepsIntake.lean ====
section
/-!
SUPPORT. What the operations of Machine/Intake.lean keep (`Keeps`), one lemma each.
-/

namespace Sys2Proof.Machine

theorem unpark_keeps {σ : State} {s : State} (hk : Keeps σ s) :
    Keeps σ (unpark s) := by
  unfold unpark
  repeat' first
    | with_reducible assumption
    | with_reducible apply Keeps.foldl
    | with_reducible apply KeepsPair.foldl
    | with_reducible apply enqueue_keeps
    | simp only [Keeps.lit_iff]
    | with_reducible refine Keeps.ite ?_ ?_
    | split
    | dsimp only
    | intro _

theorem refuseAsk_keeps {σ : State} {s : State} {m : Delivered} {a : Ask} {status : Nat} (hk : Keeps σ s) :
    Keeps σ (refuseAsk s m a status) := by
  unfold refuseAsk
  repeat' first
    | with_reducible assumption
    | with_reducible apply event_keeps
    | with_reducible apply State.count_keeps
    | with_reducible apply refuse_keeps
    | with_reducible refine Keeps.ite ?_ ?_
    | split
    | dsimp only
    | intro _

theorem acceptAsk_keeps {σ : State} {s : State} {m : Delivered} {a : Ask} {r : Req} {k x : Nat} (hk : Keeps σ s) :
    Keeps σ (acceptAsk s m a r k x) := by
  unfold acceptAsk
  repeat' first
    | with_reducible assumption
    | with_reducible apply stageKeep_keeps
    | with_reducible apply State.setReq_keeps
    | with_reducible apply enqueue_keeps
    | simp only [Keeps.lit_iff]
    | with_reducible refine Keeps.ite ?_ ?_
    | split
    | dsimp only
    | intro _

theorem intake_keeps {σ : State} {s : State} {m : Delivered} {a : Ask} {shared : Bool} (hk : Keeps σ s) :
    Keeps σ (intake s m a shared) := by
  unfold intake
  repeat' first
    | with_reducible assumption
    | with_reducible apply refuseAsk_keeps
    | with_reducible apply State.count_keeps
    | with_reducible apply State.setReq_keeps
    | with_reducible apply acceptAsk_keeps
    | simp only [Keeps.lit_iff]
    | with_reducible refine Keeps.ite ?_ ?_
    | split
    | dsimp only
    | intro _

theorem takeInbox_keeps {σ : State} {s : State} {op : Nat} (hk : Keeps σ s) :
    KeepsOptQ σ (takeInbox s op) := by
  unfold takeInbox
  repeat' first
    | with_reducible assumption
    | exact KeepsOptQ.none
    | with_reducible apply KeepsOptQ.some
    | refine KeepsOptQ.use ?_ (by with_reducible assumption)
    | simp only [Keeps.lit_iff]
    | with_reducible refine Keeps.ite ?_ ?_
    | split
    | dsimp only
    | intro _

theorem intakeEcc_keeps {σ : State} {s : State} {m : Delivered} {a : Ask} {ecc : Nat} (hk : Keeps σ s) :
    Keeps σ (intakeEcc s m a ecc) := by
  unfold intakeEcc
  repeat' first
    | with_reducible assumption
    | with_reducible apply refuseAsk_keeps
    | with_reducible apply fault_keeps
    | with_reducible apply uncorr_keeps
    | with_reducible apply intake_keeps
    | with_reducible apply ctxBad_keeps
    | with_reducible refine Keeps.ite ?_ ?_
    | split
    | dsimp only
    | intro _

theorem execAreq_keeps {σ : State} {ecc : Nat} {s : State} (hk : Keeps σ s) :
    KeepsOut σ (execAreq ecc s) := by
  unfold execAreq
  repeat' first
    | with_reducible assumption
    | with_reducible apply KeepsOut.next
    | with_reducible apply takeInbox_keeps
    | with_reducible apply intakeEcc_keeps
    | refine KeepsOut.use ?_ (by with_reducible assumption)
    | refine KeepsOptQ.use ?_ (by with_reducible assumption)
    | split
    | dsimp only
    | intro _

theorem execAppend_keeps {σ : State} {ecc : Nat} {s : State} (hk : Keeps σ s) :
    KeepsOut σ (execAppend ecc s) := by
  unfold execAppend
  repeat' first
    | with_reducible assumption
    | with_reducible apply KeepsOut.next
    | with_reducible apply takeInbox_keeps
    | with_reducible apply intakeEcc_keeps
    | refine KeepsOut.use ?_ (by with_reducible assumption)
    | refine KeepsOptQ.use ?_ (by with_reducible assumption)
    | split
    | dsimp only
    | intro _

theorem execRelease_keeps {σ : State} {ecc : Nat} {s : State} (hk : Keeps σ s) :
    KeepsOut σ (execRelease ecc s) := by
  unfold execRelease
  repeat' first
    | with_reducible assumption
    | with_reducible apply KeepsOut.next
    | with_reducible apply takeInbox_keeps
    | with_reducible apply intakeEcc_keeps
    | refine KeepsOut.use ?_ (by with_reducible assumption)
    | refine KeepsOptQ.use ?_ (by with_reducible assumption)
    | split
    | dsimp only
    | intro _

theorem execMigrate_keeps {σ : State} {ecc : Nat} {s : State} (hk : Keeps σ s) :
    KeepsOut σ (execMigrate ecc s) := by
  unfold execMigrate
  repeat' first
    | with_reducible assumption
    | with_reducible apply KeepsOut.next
    | with_reducible apply takeInbox_keeps
    | with_reducible apply intakeEcc_keeps
    | refine KeepsOut.use ?_ (by with_reducible assumption)
    | refine KeepsOptQ.use ?_ (by with_reducible assumption)
    | split
    | dsimp only
    | intro _

theorem cloneByKey_keeps {σ : State} {s : State} {m : Delivered} {found : Option (Nat × RdlEnt)} (hk : Keeps σ s) :
    Keeps σ (cloneByKey s m found) := by
  unfold cloneByKey
  repeat' first
    | with_reducible assumption
    | with_reducible apply refuseAsk_keeps
    | with_reducible apply State.count_keeps
    | with_reducible apply event_keeps
    | with_reducible apply intake_keeps
    | simp only [Keeps.lit_iff]
    | with_reducible refine Keeps.ite ?_ ?_
    | split
    | dsimp only
    | intro _

theorem execClone_keeps {σ : State} {ecc : Nat} {bad : Option Nat} {s : State} (hk : Keeps σ s) :
    KeepsOut σ (execClone ecc bad s) := by
  unfold execClone
  repeat' first
    | with_reducible assumption
    | with_reducible apply KeepsOut.next
    | with_reducible apply takeInbox_keeps
    | with_reducible apply rdlBad_keeps
    | with_reducible apply State.count_keeps
    | with_reducible apply rdlCountHit_keeps
    | with_reducible apply intakeEcc_keeps
    | refine KeepsOut.use ?_ (by with_reducible assumption)
    | refine KeepsOptQ.use ?_ (by with_reducible assumption)
    | simp only [Keeps.lit_iff]
    | with_reducible refine Keeps.ite ?_ ?_
    | split
    | dsimp only
    | intro _

theorem execRdlLookupResult_keeps {σ : State} {port : Nat} {s : State} (hk : Keeps σ s) :
    KeepsOut σ (execRdlLookupResult port s) := by
  unfold execRdlLookupResult
  repeat' first
    | with_reducible assumption
    | with_reducible apply KeepsOut.next
    | with_reducible apply reachUp_keeps
    | with_reducible apply rdlLookEnd_keeps
    | with_reducible apply cloneByKey_keeps
    | with_reducible apply KeepsOpt.getD
    | with_reducible apply KeepsOpt.orElse
    | refine KeepsOpt.use ?_ (by with_reducible assumption)
    | refine KeepsOut.use ?_ (by with_reducible assumption)
    | simp only [Keeps.lit_iff]
    | split
    | dsimp only
    | intro _

theorem forwardCancel_keeps {σ : State} {s : State} {slot : Nat} (hk : Keeps σ s) :
    Keeps σ (forwardCancel s slot) := by
  unfold forwardCancel
  repeat' first
    | with_reducible assumption
    | with_reducible apply queueMsg_keeps
    | with_reducible apply State.count_keeps
    | with_reducible refine Keeps.ite ?_ ?_
    | split
    | dsimp only
    | intro _

theorem cancelSlot_keeps {σ : State} {s : State} {slot : Nat} (hk : Keeps σ s) :
    Keeps σ (cancelSlot s slot) := by
  unfold cancelSlot
  repeat' first
    | with_reducible assumption
    | with_reducible apply dismiss_keeps
    | with_reducible apply admitted_keeps
    | with_reducible apply forwardCancel_keeps
    | with_reducible apply State.setReq_keeps
    | simp only [Keeps.lit_iff]
    | split
    | dsimp only
    | intro _

theorem execCancel_keeps {σ : State} {ecc : Nat} {s : State} (hk : Keeps σ s) :
    KeepsOut σ (execCancel ecc s) := by
  unfold execCancel
  repeat' first
    | with_reducible assumption
    | with_reducible apply KeepsOut.next
    | with_reducible apply takeInbox_keeps
    | with_reducible apply stageFree_keeps
    | with_reducible apply State.count_keeps
    | with_reducible apply cancelSlot_keeps
    | with_reducible apply reqBad_keeps
    | refine KeepsOut.use ?_ (by with_reducible assumption)
    | refine KeepsOptQ.use ?_ (by with_reducible assumption)
    | with_reducible refine Keeps.ite ?_ ?_
    | split
    | dsimp only
    | intro _

theorem mirrorAnswer_keeps {σ : State} {s : State} {f : Fwd} {status ran : Nat} (hk : Keeps σ s) :
    Keeps σ (mirrorAnswer s f status ran) := by
  unfold mirrorAnswer
  repeat' first
    | with_reducible assumption
    | with_reducible apply diverge_keeps
    | with_reducible apply State.setReq_keeps
    | with_reducible apply complete_keeps
    | simp only [Keeps.lit_iff]
    | with_reducible refine Keeps.ite ?_ ?_
    | split
    | dsimp only
    | intro _

theorem execMirrorAdone_keeps {σ : State} {s : State} (hk : Keeps σ s) :
    KeepsOut σ (execMirrorAdone s) := by
  unfold execMirrorAdone
  repeat' first
    | with_reducible assumption
    | with_reducible apply KeepsOut.next
    | with_reducible apply takeInbox_keeps
    | with_reducible apply stageFree_keeps
    | with_reducible apply mirrorAnswer_keeps
    | refine KeepsOut.use ?_ (by with_reducible assumption)
    | refine KeepsOptQ.use ?_ (by with_reducible assumption)
    | split
    | dsimp only
    | intro _

theorem execMirrorTimeout_keeps {σ : State} {slot : Nat} {s : State} (hk : Keeps σ s) :
    KeepsOut σ (execMirrorTimeout slot s) := by
  unfold execMirrorTimeout
  repeat' first
    | with_reducible assumption
    | with_reducible apply KeepsOut.next
    | with_reducible apply diverge_keeps
    | with_reducible apply complete_keeps
    | refine KeepsOut.use ?_ (by with_reducible assumption)
    | simp only [Keeps.lit_iff]
    | with_reducible refine Keeps.ite ?_ ?_
    | split
    | dsimp only
    | intro _

end Sys2Proof.Machine
end

