-- ==== Sys2Proof/Laws/KeepsFen.lean ====
section
/-!
SUPPORT. What the operations of Machine/Fen.lean keep (`Keeps`), one lemma each.
-/

namespace Sys2Proof.Machine

theorem State.setDbr_keeps {σ : State} {s : State} {n : Nat} {d : Dbr} (hk : Keeps σ s) :
    Keeps σ (State.setDbr s n d) := by
  unfold State.setDbr
  repeat' first
    | with_reducible assumption
    | simp only [Keeps.lit_iff]
    | split
    | dsimp only
    | intro _

theorem setPim_keeps {σ : State} {s : State} {n p : Nat} {pim : Bool} (hk : Keeps σ s) :
    Keeps σ (setPim s n p pim) := by
  unfold setPim
  repeat' first
    | with_reducible assumption
    | with_reducible apply State.setFld_keeps
    | split
    | dsimp only
    | intro _

theorem fenUncorr_keeps {σ : State} {s : State} {n addr : Nat} (hk : Keeps σ s) :
    Keeps σ (fenUncorr s n addr) := by
  unfold fenUncorr
  repeat' first
    | with_reducible assumption
    | with_reducible apply poisonAdd_keeps
    | with_reducible apply event0_keeps
    | with_reducible apply State.count_keeps
    | with_reducible apply State.setRg64_keeps
    | with_reducible refine Keeps.ite ?_ ?_
    | split
    | dsimp only
    | intro _

theorem fenFault_keeps {σ : State} {s : State} {n addr requester : Nat} (hk : Keeps σ s) :
    Keeps σ (fenFault s n addr requester) := by
  unfold fenFault
  repeat' first
    | with_reducible assumption
    | with_reducible apply fault_keeps
    | with_reducible apply fenUncorr_keeps
    | split
    | dsimp only
    | intro _

theorem memUncorr_keeps {σ : State} {s : State} {a req : Nat} (hk : Keeps σ s) :
    Keeps σ (memUncorr s a req) := by
  unfold memUncorr
  repeat' first
    | with_reducible assumption
    | with_reducible apply fenFault_keeps
    | with_reducible apply uncorr_keeps
    | with_reducible refine Keeps.ite ?_ ?_
    | split
    | dsimp only
    | intro _

theorem execChannelModeChange_keeps {σ : State} {stack pc : Nat} {s : State} (hk : Keeps σ s) :
    KeepsOut σ (execChannelModeChange stack pc s) := by
  unfold execChannelModeChange
  repeat' first
    | with_reducible assumption
    | with_reducible apply KeepsOut.next
    | with_reducible apply setPim_keeps
    | with_reducible apply State.ccTo_keeps
    | refine KeepsOut.use ?_ (by with_reducible assumption)
    | with_reducible refine Keeps.ite ?_ ?_
    | split
    | dsimp only
    | intro _

theorem execCrownQueueServe_keeps {σ : State} {stack pc : Nat} {bad : Bool} {addr : Nat} {s : State} (hk : Keeps σ s) :
    KeepsOut σ (execCrownQueueServe stack pc bad addr s) := by
  unfold execCrownQueueServe
  repeat' first
    | with_reducible assumption
    | with_reducible apply KeepsOut.next
    | with_reducible apply State.setChan_keeps
    | with_reducible apply State.setFld_keeps
    | with_reducible apply fenFault_keeps
    | with_reducible apply State.setTile_keeps
    | refine KeepsOut.use ?_ (by with_reducible assumption)
    | simp only [Keeps.lit_iff]
    | with_reducible refine Keeps.ite ?_ ?_
    | split
    | dsimp only
    | intro _

theorem refreshChan_keeps {σ : State} {n : Nat} {s : State} {p : Nat} (hk : Keeps σ s) :
    Keeps σ (refreshChan n s p) := by
  unfold refreshChan
  repeat' first
    | with_reducible assumption
    | with_reducible apply State.setChan_keeps
    | simp only [Keeps.lit_iff]
    | with_reducible refine Keeps.ite ?_ ?_
    | split
    | dsimp only
    | intro _

theorem execRefreshSlot_keeps {σ : State} {stack group : Nat} {s : State} (hk : Keeps σ s) :
    KeepsOut σ (execRefreshSlot stack group s) := by
  unfold execRefreshSlot
  repeat' first
    | with_reducible assumption
    | with_reducible apply KeepsOut.next
    | with_reducible apply Keeps.foldl
    | with_reducible apply KeepsPair.foldl
    | with_reducible apply State.ccTo_keeps
    | with_reducible apply refreshChan_keeps
    | refine KeepsOut.use ?_ (by with_reducible assumption)
    | with_reducible refine Keeps.ite ?_ ?_
    | split
    | dsimp only
    | intro _

theorem execTempFlagChange_keeps {σ : State} {stack pc : Nat} {hot : Bool} {s : State} (hk : Keeps σ s) :
    KeepsOut σ (execTempFlagChange stack pc hot s) := by
  unfold execTempFlagChange
  repeat' first
    | with_reducible assumption
    | with_reducible apply KeepsOut.next
    | with_reducible apply State.setFld_keeps
    | refine KeepsOut.use ?_ (by with_reducible assumption)
    | split
    | dsimp only
    | intro _

theorem refreshPeriods_keeps {σ : State} {s : State} (hk : Keeps σ s) :
    Keeps σ (refreshPeriods s) := by
  unfold refreshPeriods
  repeat' first
    | with_reducible assumption
    | with_reducible apply Keeps.foldl
    | with_reducible apply KeepsPair.foldl
    | with_reducible apply State.setFld_keeps
    | with_reducible apply event0_keeps
    | with_reducible refine Keeps.ite ?_ ?_
    | split
    | dsimp only
    | intro _

theorem State.scEdge_keeps {σ : State} {s : State} {wait : Nat} (hk : Keeps σ s) :
    Keeps σ (State.scEdge s wait) := by
  unfold State.scEdge
  repeat' first
    | with_reducible assumption
    | with_reducible apply State.ccTo_keeps
    | with_reducible apply State.ccPass_keeps
    | with_reducible refine Keeps.ite ?_ ?_
    | split
    | dsimp only
    | intro _

theorem fenCorr_keeps {σ : State} {s : State} {n corr odCorr : Nat} (hk : Keeps σ s) :
    Keeps σ (fenCorr s n corr odCorr) := by
  unfold fenCorr
  repeat' first
    | with_reducible assumption
    | with_reducible apply event0_keeps
    | with_reducible apply State.countBy_keeps
    | with_reducible refine Keeps.ite ?_ ?_
    | split
    | dsimp only
    | intro _

theorem execBookedIntervalGrant_keeps {σ : State} {ch : FenCh} {fix : FenFix} {s : State} (hk : Keeps σ s) :
    KeepsOut σ (execBookedIntervalGrant ch fix s) := by
  unfold execBookedIntervalGrant
  repeat' first
    | with_reducible assumption
    | with_reducible apply KeepsOut.next
    | with_reducible apply State.scEdge_keeps
    | with_reducible apply fenCorr_keeps
    | with_reducible apply State.setChan_keeps
    | refine KeepsOut.use ?_ (by with_reducible assumption)
    | simp only [Keeps.lit_iff]
    | with_reducible refine Keeps.ite ?_ ?_
    | split
    | dsimp only
    | intro _

theorem execArbiterGrant_keeps {σ : State} {ch : FenCh} {fix : FenFix} {s : State} (hk : Keeps σ s) :
    KeepsOut σ (execArbiterGrant ch fix s) := by
  unfold execArbiterGrant
  repeat' first
    | with_reducible assumption
    | with_reducible apply KeepsOut.next
    | with_reducible apply State.scEdge_keeps
    | with_reducible apply fenCorr_keeps
    | with_reducible apply State.setChan_keeps
    | with_reducible apply dpwEnter_keeps
    | refine KeepsOut.use ?_ (by with_reducible assumption)
    | simp only [Keeps.lit_iff]
    | with_reducible refine Keeps.ite ?_ ?_
    | split
    | dsimp only
    | intro _

theorem execFenWatchdogBite_keeps {σ : State} {stack pc : Nat} {s : State} (hk : Keeps σ s) :
    KeepsOut σ (execFenWatchdogBite stack pc s) := by
  unfold execFenWatchdogBite
  repeat' first
    | with_reducible assumption
    | with_reducible apply KeepsOut.next
    | with_reducible apply State.setChan_keeps
    | with_reducible apply State.setFld_keeps
    | with_reducible apply fault_keeps
    | with_reducible apply State.count_keeps
    | with_reducible apply event0_keeps
    | refine KeepsOut.use ?_ (by with_reducible assumption)
    | simp only [Keeps.lit_iff]
    | with_reducible refine Keeps.ite ?_ ?_
    | split
    | dsimp only
    | intro _

theorem execFenceClear_keeps {σ : State} {stack pc bits : Nat} {s : State} (hk : Keeps σ s) :
    KeepsOut σ (execFenceClear stack pc bits s) := by
  unfold execFenceClear
  repeat' first
    | with_reducible assumption
    | with_reducible apply KeepsOut.next
    | with_reducible apply State.setFld_keeps
    | refine KeepsOut.use ?_ (by with_reducible assumption)
    | split
    | dsimp only
    | intro _

theorem withSeg_keeps {σ : State} {s : State} {n : Nat} {f : Seg → Seg} (hk : Keeps σ s) :
    Keeps σ (withSeg s n f) := by
  unfold withSeg
  repeat' first
    | with_reducible assumption
    | with_reducible apply State.setDbr_keeps
    | simp only [Keeps.lit_iff]
    | split
    | dsimp only
    | intro _

theorem execSegOpen_keeps {σ : State} {stack pc code d32 kvhLog t32 store : Nat} {s : State} (hk : Keeps σ s) :
    KeepsOut σ (execSegOpen stack pc code d32 kvhLog t32 store s) := by
  unfold execSegOpen
  repeat' first
    | with_reducible assumption
    | with_reducible apply KeepsOut.next
    | with_reducible apply State.setDbr_keeps
    | refine KeepsOut.use ?_ (by with_reducible assumption)
    | simp only [Keeps.lit_iff]
    | split
    | dsimp only
    | intro _

theorem execSigma_keeps {σ : State} {stack sigma : Nat} {s : State} (hk : Keeps σ s) :
    KeepsOut σ (execSigma stack sigma s) := by
  unfold execSigma
  repeat' first
    | with_reducible assumption
    | with_reducible apply KeepsOut.next
    | with_reducible apply withSeg_keeps
    | refine KeepsOut.use ?_ (by with_reducible assumption)
    | split
    | dsimp only
    | intro _

theorem execLimit_keeps {σ : State} {stack limit : Nat} {s : State} (hk : Keeps σ s) :
    KeepsOut σ (execLimit stack limit s) := by
  unfold execLimit
  repeat' first
    | with_reducible assumption
    | with_reducible apply KeepsOut.next
    | with_reducible apply withSeg_keeps
    | refine KeepsOut.use ?_ (by with_reducible assumption)
    | split
    | dsimp only
    | intro _

theorem execWindow_keeps {σ : State} {stack window prefix_ : Nat} {s : State} (hk : Keeps σ s) :
    KeepsOut σ (execWindow stack window prefix_ s) := by
  unfold execWindow
  repeat' first
    | with_reducible assumption
    | with_reducible apply KeepsOut.next
    | with_reducible apply withSeg_keeps
    | refine KeepsOut.use ?_ (by with_reducible assumption)
    | split
    | dsimp only
    | intro _

theorem execRow_keeps {σ : State} {stack slot head pos : Nat} {s : State} (hk : Keeps σ s) :
    KeepsOut σ (execRow stack slot head pos s) := by
  unfold execRow
  repeat' first
    | with_reducible assumption
    | with_reducible apply KeepsOut.next
    | with_reducible apply withSeg_keeps
    | refine KeepsOut.use ?_ (by with_reducible assumption)
    | split
    | dsimp only
    | intro _

theorem execSegmentPage_keeps {σ : State} {stack rowSet countM1 base : Nat} {bound : Bool} {s : State} (hk : Keeps σ s) :
    KeepsOut σ (execSegmentPage stack rowSet countM1 base bound s) := by
  unfold execSegmentPage
  repeat' first
    | with_reducible assumption
    | with_reducible apply KeepsOut.next
    | with_reducible apply withSeg_keeps
    | refine KeepsOut.use ?_ (by with_reducible assumption)
    | split
    | dsimp only
    | intro _

theorem execWait_keeps {σ : State} {stack sc : Nat} {s : State} (hk : Keeps σ s) :
    KeepsOut σ (execWait stack sc s) := by
  unfold execWait
  repeat' first
    | with_reducible assumption
    | with_reducible apply KeepsOut.next
    | with_reducible apply withSeg_keeps
    | refine KeepsOut.use ?_ (by with_reducible assumption)
    | split
    | dsimp only
    | intro _

theorem execMark_keeps {σ : State} {stack tag : Nat} {s : State} (hk : Keeps σ s) :
    KeepsOut σ (execMark stack tag s) := by
  unfold execMark
  repeat' first
    | with_reducible assumption
    | with_reducible apply KeepsOut.next
    | with_reducible apply State.setDbr_keeps
    | refine KeepsOut.use ?_ (by with_reducible assumption)
    | simp only [Keeps.lit_iff]
    | split
    | dsimp only
    | intro _

theorem execDest_keeps {σ : State} {stack tile slot : Nat} {s : State} (hk : Keeps σ s) :
    KeepsOut σ (execDest stack tile slot s) := by
  unfold execDest
  repeat' first
    | with_reducible assumption
    | with_reducible apply KeepsOut.next
    | with_reducible apply withSeg_keeps
    | refine KeepsOut.use ?_ (by with_reducible assumption)
    | split
    | dsimp only
    | intro _

theorem failRequest_keeps {σ : State} {s : State} {slot status : Nat} (hk : Keeps σ s) :
    Keeps σ (failRequest s slot status) := by
  unfold failRequest
  repeat' first
    | with_reducible assumption
    | with_reducible apply admitted_keeps
    | with_reducible apply settle_keeps
    | simp only [Keeps.lit_iff]
    | with_reducible refine Keeps.ite ?_ ?_
    | split
    | dsimp only
    | intro _

theorem segRefuse_keeps {σ : State} {s : State} {n : Nat} {g : Seg} (hk : Keeps σ s) :
    Keeps σ (segRefuse s n g) := by
  unfold segRefuse
  repeat' first
    | with_reducible assumption
    | with_reducible apply event0_keeps
    | with_reducible apply State.count_keeps
    | with_reducible apply failRequest_keeps
    | with_reducible apply fault_keeps
    | with_reducible refine Keeps.ite ?_ ?_
    | split
    | dsimp only
    | intro _

theorem execSegClose_keeps {σ : State} {stack : Nat} {s : State} (hk : Keeps σ s) :
    KeepsOut σ (execSegClose stack s) := by
  unfold execSegClose
  repeat' first
    | with_reducible assumption
    | with_reducible apply KeepsOut.next
    | with_reducible apply State.setDbr_keeps
    | with_reducible apply segRefuse_keeps
    | refine KeepsOut.use ?_ (by with_reducible assumption)
    | simp only [Keeps.lit_iff]
    | with_reducible refine Keeps.ite ?_ ?_
    | split
    | dsimp only
    | intro _

theorem segDrain_keeps {σ : State} {s : State} {n : Nat} {r : SegRun} (hk : Keeps σ s) :
    Keeps σ (segDrain s n r) := by
  unfold segDrain
  repeat' first
    | with_reducible assumption
    | with_reducible apply State.setDbr_keeps
    | simp only [Keeps.lit_iff]
    | with_reducible refine Keeps.ite ?_ ?_
    | split
    | dsimp only
    | intro _

theorem exitsTurn_keeps {σ : State} {s : State} {n : Nat} (hk : Keeps σ s) :
    Keeps σ (exitsTurn s n) := by
  unfold exitsTurn
  repeat' first
    | with_reducible assumption
    | with_reducible apply Keeps.foldl
    | with_reducible apply KeepsPair.foldl
    | with_reducible apply segDrain_keeps
    | split
    | dsimp only
    | intro _

theorem exitTake_keeps {σ : State} {s : State} {n p rowSet tile slot off len : Nat} (hk : Keeps σ s) :
    KeepsOptP σ (exitTake s n p rowSet tile slot off len) := by
  unfold exitTake
  dsimp only
  generalize List.find? _ _ = o
  cases o with
  | none => exact KeepsOptP.none
  | some x =>
    refine KeepsOptP.some ?_
    split
    · exact State.setDbr_keeps hk
    · exact hk

theorem execSegmentComplete_keeps {σ : State} {stack pc : Nat} {met : SegEcc} {s : State} (hk : Keeps σ s) :
    KeepsOut σ (execSegmentComplete stack pc met s) := by
  unfold execSegmentComplete
  repeat' first
    | with_reducible assumption
    | with_reducible apply KeepsOut.next
    | with_reducible apply segDrain_keeps
    | with_reducible apply State.ccTo_keeps
    | with_reducible apply fenCorr_keeps
    | with_reducible apply State.setDbr_keeps
    | with_reducible apply State.count_keeps
    | with_reducible apply fault_keeps
    | with_reducible apply event0_keeps
    | with_reducible apply fenUncorr_keeps
    | with_reducible apply failRequest_keeps
    | refine KeepsOut.use ?_ (by with_reducible assumption)
    | simp only [Keeps.lit_iff]
    | with_reducible refine Keeps.ite ?_ ?_
    | split
    | dsimp only
    | intro _

theorem rawEnd_keeps {σ : State} {s : State} {n status done : Nat} (hk : Keeps σ s) :
    Keeps σ (rawEnd s n status done) := by
  unfold rawEnd
  repeat' first
    | with_reducible assumption
    | with_reducible apply State.setDbr_keeps
    | with_reducible apply State.setRg_keeps
    | with_reducible apply event0_keeps
    | with_reducible apply State.setFld_keeps
    | simp only [Keeps.lit_iff]
    | split
    | dsimp only
    | intro _

theorem execRawProgramStart_keeps {σ : State} {stack : Nat} {s : State} (hk : Keeps σ s) :
    KeepsOut σ (execRawProgramStart stack s) := by
  unfold execRawProgramStart
  repeat' first
    | with_reducible assumption
    | with_reducible apply KeepsOut.next
    | with_reducible apply Keeps.foldl
    | with_reducible apply KeepsPair.foldl
    | with_reducible apply State.ccTo_keeps
    | with_reducible apply State.setDbr_keeps
    | with_reducible apply rawEnd_keeps
    | with_reducible apply event0_keeps
    | with_reducible apply State.count_keeps
    | refine KeepsOut.use ?_ (by with_reducible assumption)
    | simp only [Keeps.lit_iff]
    | with_reducible refine Keeps.ite ?_ ?_
    | split
    | dsimp only
    | intro _

theorem execRawProgramDone_keeps {σ : State} {stack : Nat} {bad : List Nat} {met : RawEcc} {s : State} (hk : Keeps σ s) :
    KeepsOut σ (execRawProgramDone stack bad met s) := by
  unfold execRawProgramDone
  repeat' first
    | with_reducible assumption
    | with_reducible apply KeepsOut.next
    | with_reducible apply Keeps.foldl
    | with_reducible apply KeepsPair.foldl
    | with_reducible apply fenCorr_keeps
    | with_reducible apply State.ccTo_keeps
    | with_reducible apply State.putBytes_keeps
    | with_reducible apply State.countBy_keeps
    | with_reducible apply fenUncorr_keeps
    | with_reducible apply rawEnd_keeps
    | refine KeepsOut.use ?_ (by with_reducible assumption)
    | simp only [Keeps.lit_iff]
    | with_reducible apply Keeps.litFresh
    | with_reducible refine Keeps.ite ?_ ?_
    | split
    | dsimp only
    | intro _

end Sys2Proof.Machine
end

