-- ==== Sys2Proof/Laws/KeepsTiers.lean ====
section
/-!
SUPPORT. What the operations of Machine/Tiers.lean keep (`Keeps`), one lemma each.
-/

namespace Sys2Proof.Machine

theorem driveIssue_keeps {σ : State} {s : State} {c : DriveCmd} (hk : Keeps σ s) :
    KeepsPair σ (driveIssue s c) := by
  unfold driveIssue
  repeat' first
    | with_reducible assumption
    | refine KeepsPair.use ?_ (by with_reducible assumption)
    | with_reducible apply KeepsPair.fst
    | simp only [KeepsPair.mk_iff]
    | simp only [Keeps.lit_iff]
    | with_reducible refine Keeps.ite ?_ ?_
    | split
    | dsimp only
    | intro _

theorem sendRead_keeps {σ : State} {s : State} {i cls region len offset addr : Nat} {use : Use} (hk : Keeps σ s) :
    Keeps σ (sendRead s i cls region len offset addr use) := by
  unfold sendRead
  repeat' first
    | with_reducible assumption
    | with_reducible apply State.setConn_keeps
    | with_reducible apply queueMsg_keeps
    | simp only [Keeps.lit_iff]
    | split
    | dsimp only
    | intro _

theorem fetchFail_keeps {σ : State} {s : State} {f : Fetch} {status : Nat} (hk : Keeps σ s) :
    Keeps σ (fetchFail s f status) := by
  unfold fetchFail
  repeat' first
    | with_reducible assumption
    | with_reducible apply fetchDrop_keeps
    | with_reducible apply event_keeps
    | with_reducible apply orderEnd_keeps
    | with_reducible apply dismiss_keeps
    | with_reducible refine Keeps.ite ?_ ?_
    | split
    | dsimp only
    | intro _

theorem fetchRead_keeps {σ : State} {s : State} {f : Fetch} (hk : Keeps σ s) :
    Keeps σ (fetchRead s f) := by
  unfold fetchRead
  repeat' first
    | with_reducible assumption
    | with_reducible apply fetchFail_keeps
    | with_reducible apply driveIssue_keeps
    | with_reducible apply sendRead_keeps
    | refine KeepsPair.use ?_ (by with_reducible assumption)
    | with_reducible apply KeepsPair.fst
    | simp only [KeepsPair.mk_iff]
    | with_reducible refine Keeps.ite ?_ ?_
    | split
    | dsimp only
    | intro _

theorem fetchStart_keeps {σ : State} {s : State} {slot lane page req : Nat} {order : Bool} {ts : List Nat} (hk : Keeps σ s) :
    Keeps σ (fetchStart s slot lane page req order ts) := by
  unfold fetchStart
  repeat' first
    | with_reducible assumption
    | with_reducible apply takeFrame_keeps
    | with_reducible apply event_keeps
    | with_reducible apply refuseFrames_keeps
    | with_reducible apply orderEnd_keeps
    | with_reducible apply dismiss_keeps
    | with_reducible apply fetchRead_keeps
    | refine KeepsExcP.use ?_ (by with_reducible assumption)
    | simp only [Keeps.lit_iff]
    | with_reducible refine Keeps.ite ?_ ?_
    | split
    | dsimp only
    | intro _

theorem fetchesBegin_keeps {σ : State} {s : State} (hk : Keeps σ s) :
    Keeps σ (fetchesBegin s) := by
  unfold fetchesBegin
  repeat' first
    | with_reducible assumption
    | with_reducible apply Keeps.foldl
    | with_reducible apply KeepsPair.foldl
    | with_reducible apply fetchStart_keeps
    | with_reducible refine Keeps.ite ?_ ?_
    | split
    | dsimp only
    | intro _

theorem orderWriteHint_keeps {σ : State} {s : State} {o : Order} (hk : Keeps σ s) :
    Keeps σ (orderWriteHint s o) := by
  unfold orderWriteHint
  repeat' first
    | with_reducible assumption
    | with_reducible apply Keeps.foldl
    | with_reducible apply KeepsPair.foldl
    | with_reducible apply setLaneHint_keeps
    | with_reducible apply setPte_keeps
    | simp only [Keeps.lit_iff]
    | with_reducible refine Keeps.ite ?_ ?_
    | split
    | dsimp only
    | intro _

theorem orderClose_keeps {σ : State} {s : State} {status : Nat} (hk : Keeps σ s) :
    Keeps σ (orderClose s status) := by
  unfold orderClose
  repeat' first
    | with_reducible assumption
    | with_reducible apply orderEnd_keeps
    | with_reducible apply orderWriteHint_keeps
    | with_reducible refine Keeps.ite ?_ ?_
    | split
    | dsimp only
    | intro _

/-- The state that a result of type MoveTry hands on. -/
def KeepsMove (σ : State) (v : MoveTry) : Prop :=
  match v with
  | .started s => Keeps σ s
  | .fetching s => Keeps σ s
  | .fail s _ => Keeps σ s
  | .wait => True
  | .skip => True

theorem KeepsMove.started {σ s : State} (h : Keeps σ s) : KeepsMove σ (.started s) := h
theorem KeepsMove.use_started {σ s : State} {v : MoveTry} (h : KeepsMove σ v) (e : v = .started s) : Keeps σ s := by subst e; exact h
theorem KeepsMove.fetching {σ s : State} (h : Keeps σ s) : KeepsMove σ (.fetching s) := h
theorem KeepsMove.use_fetching {σ s : State} {v : MoveTry} (h : KeepsMove σ v) (e : v = .fetching s) : Keeps σ s := by subst e; exact h
theorem KeepsMove.fail {σ s : State} {x : Nat} (h : Keeps σ s) : KeepsMove σ (.fail s x) := h
theorem KeepsMove.use_fail {σ s : State} {x : Nat} {v : MoveTry} (h : KeepsMove σ v) (e : v = .fail s x) : Keeps σ s := by subst e; exact h
theorem KeepsMove.wait {σ : State} : KeepsMove σ .wait := trivial
theorem KeepsMove.skip {σ : State} : KeepsMove σ .skip := trivial

theorem moveStart_keeps {σ : State} {s : State} {o : Order} {page : Nat} (hk : Keeps σ s) :
    KeepsMove σ (moveStart s o page) := by
  unfold moveStart
  repeat' first
    | with_reducible assumption
    | exact KeepsMove.wait
    | exact KeepsMove.skip
    | with_reducible apply KeepsMove.started
    | with_reducible apply KeepsMove.fetching
    | with_reducible apply KeepsMove.fail
    | with_reducible apply State.setFrame_keeps
    | with_reducible apply memRequest_keeps
    | with_reducible apply fetchStart_keeps
    | with_reducible apply takeFrame_keeps
    | with_reducible apply refuseFrames_keeps
    | refine KeepsMove.use_started ?_ (by with_reducible assumption)
    | refine KeepsMove.use_fetching ?_ (by with_reducible assumption)
    | refine KeepsMove.use_fail ?_ (by with_reducible assumption)
    | refine KeepsExcP.use ?_ (by with_reducible assumption)
    | simp only [Keeps.lit_iff]
    | with_reducible refine Keeps.ite ?_ ?_
    | split
    | dsimp only
    | intro _

theorem movesStart_keeps {σ : State} {s : State} {l : Nat} (hk : Keeps σ s) :
    Keeps σ (movesStart s l) := by
  induction l generalizing s with
  | zero =>
    unfold movesStart
    repeat' first
      | with_reducible assumption
      | with_reducible apply orderClose_keeps
      | with_reducible apply moveStart_keeps
      | refine KeepsMove.use_started ?_ (by with_reducible assumption)
      | refine KeepsMove.use_fetching ?_ (by with_reducible assumption)
      | refine KeepsMove.use_fail ?_ (by with_reducible assumption)
      | simp only [Keeps.lit_iff]
      | with_reducible refine Keeps.ite ?_ ?_
      | split
      | dsimp only
      | intro _
  | succ n ih =>
    unfold movesStart
    repeat' first
      | with_reducible assumption
      | with_reducible apply ih
      | with_reducible apply orderClose_keeps
      | with_reducible apply moveStart_keeps
      | refine KeepsMove.use_started ?_ (by with_reducible assumption)
      | refine KeepsMove.use_fetching ?_ (by with_reducible assumption)
      | refine KeepsMove.use_fail ?_ (by with_reducible assumption)
      | simp only [Keeps.lit_iff]
      | with_reducible refine Keeps.ite ?_ ?_
      | split
      | dsimp only
      | intro _

theorem movesGo_keeps {σ : State} {s : State} (hk : Keeps σ s) :
    Keeps σ (movesGo s) := by
  unfold movesGo
  repeat' first
    | with_reducible assumption
    | with_reducible apply movesStart_keeps
    | split
    | dsimp only
    | intro _

theorem orderTake_keeps {σ : State} {s : State} {o : Order} (hk : Keeps σ s) :
    Keeps σ (orderTake s o) := by
  unfold orderTake
  repeat' first
    | with_reducible assumption
    | with_reducible apply orderEnd_keeps
    | with_reducible apply movesGo_keeps
    | simp only [Keeps.lit_iff]
    | with_reducible refine Keeps.ite ?_ ?_
    | split
    | dsimp only
    | intro _

theorem execMove_keeps {σ : State} {s : State} (hk : Keeps σ s) :
    KeepsOut σ (execMove s) := by
  unfold execMove
  repeat' first
    | with_reducible assumption
    | with_reducible apply KeepsOut.next
    | with_reducible apply orderTake_keeps
    | refine KeepsOut.use ?_ (by with_reducible assumption)
    | with_reducible refine Keeps.ite ?_ ?_
    | split
    | dsimp only
    | intro _

theorem execMoveLane_keeps {σ : State} {s : State} (hk : Keeps σ s) :
    KeepsOut σ (execMoveLane s) := by
  unfold execMoveLane
  repeat' first
    | with_reducible assumption
    | with_reducible apply KeepsOut.next
    | with_reducible apply orderTake_keeps
    | refine KeepsOut.use ?_ (by with_reducible assumption)
    | with_reducible refine Keeps.ite ?_ ?_
    | split
    | dsimp only
    | intro _

theorem execSetHint_keeps {σ : State} {s : State} (hk : Keeps σ s) :
    KeepsOut σ (execSetHint s) := by
  unfold execSetHint
  repeat' first
    | with_reducible assumption
    | with_reducible apply KeepsOut.next
    | with_reducible apply orderTake_keeps
    | refine KeepsOut.use ?_ (by with_reducible assumption)
    | with_reducible refine Keeps.ite ?_ ?_
    | split
    | dsimp only
    | intro _

theorem moveStage_keeps {σ : State} {s : State} {frame frm next : Nat} (hk : Keeps σ s) :
    Keeps σ (moveStage s frame frm next) := by
  unfold moveStage
  repeat' first
    | with_reducible assumption
    | simp only [Keeps.lit_iff]
    | with_reducible refine Keeps.ite ?_ ?_
    | split
    | dsimp only
    | intro _

theorem moveFail_keeps {σ : State} {s : State} {m : Move} {status : Nat} (hk : Keeps σ s) :
    Keeps σ (moveFail s m status) := by
  unfold moveFail
  repeat' first
    | with_reducible assumption
    | with_reducible apply moveDrop_keeps
    | with_reducible apply orderClose_keeps
    | with_reducible refine Keeps.ite ?_ ?_
    | split
    | dsimp only
    | intro _

theorem moveSend_keeps {σ : State} {s : State} {m : Move} (hk : Keeps σ s) :
    Keeps σ (moveSend s m) := by
  unfold moveSend
  repeat' first
    | with_reducible assumption
    | with_reducible apply moveStage_keeps
    | with_reducible apply moveFail_keeps
    | with_reducible apply driveIssue_keeps
    | with_reducible apply queueMsg_keeps
    | refine KeepsPair.use ?_ (by with_reducible assumption)
    | with_reducible apply KeepsPair.fst
    | simp only [KeepsPair.mk_iff]
    | with_reducible refine Keeps.ite ?_ ?_
    | split
    | dsimp only
    | intro _

theorem execMigrationCopyDone_keeps {σ : State} {frame : Nat} {bad : Bool} {s : State} (hk : Keeps σ s) :
    KeepsOut σ (execMigrationCopyDone frame bad s) := by
  unfold execMigrationCopyDone
  repeat' first
    | with_reducible assumption
    | with_reducible apply KeepsOut.next
    | with_reducible apply moveFail_keeps
    | with_reducible apply fault_keeps
    | with_reducible apply memUncorr_keeps
    | with_reducible apply moveSend_keeps
    | with_reducible apply memRelease_keeps
    | with_reducible apply moveStage_keeps
    | with_reducible apply copyLoc_keeps
    | refine KeepsOut.use ?_ (by with_reducible assumption)
    | with_reducible refine Keeps.ite ?_ ?_
    | split
    | dsimp only
    | intro _

theorem execOffPackageConfirm_keeps {σ : State} {frame : Nat} {s : State} (hk : Keeps σ s) :
    KeepsOut σ (execOffPackageConfirm frame s) := by
  unfold execOffPackageConfirm
  repeat' first
    | with_reducible assumption
    | with_reducible apply KeepsOut.next
    | with_reducible apply moveStage_keeps
    | refine KeepsOut.use ?_ (by with_reducible assumption)
    | split
    | dsimp only
    | intro _

theorem moveExchange_keeps {σ : State} {s : State} {m : Move} (hk : Keeps σ s) :
    Keeps σ (moveExchange s m) := by
  unfold moveExchange
  repeat' first
    | with_reducible assumption
    | with_reducible apply State.setLoc_keeps
    | with_reducible apply State.setFrame_keeps
    | with_reducible apply linkFree_keeps
    | simp only [Keeps.lit_iff]
    | split
    | dsimp only
    | intro _

theorem moveRewrite_keeps {σ : State} {s : State} {m : Move} (hk : Keeps σ s) :
    Keeps σ (moveRewrite s m) := by
  unfold moveRewrite
  repeat' first
    | with_reducible assumption
    | with_reducible apply State.setFrame_keeps
    | with_reducible apply toScrub_keeps
    | with_reducible apply setPte_keeps
    | simp only [Keeps.lit_iff]
    | with_reducible refine Keeps.ite ?_ ?_
    | split
    | dsimp only
    | intro _

theorem movesApply_keeps {σ : State} {s : State} (hk : Keeps σ s) :
    Keeps σ (movesApply s) := by
  unfold movesApply
  repeat' first
    | with_reducible assumption
    | with_reducible apply Keeps.foldl
    | with_reducible apply KeepsPair.foldl
    | with_reducible apply moveExchange_keeps
    | with_reducible apply moveRewrite_keeps
    | with_reducible apply movesGo_keeps
    | simp only [Keeps.lit_iff]
    | with_reducible refine Keeps.ite ?_ ?_
    | split
    | dsimp only
    | intro _

theorem movesPlanStop_keeps {σ : State} {s : State} (hk : Keeps σ s) :
    Keeps σ (movesPlanStop s) := by
  unfold movesPlanStop
  repeat' first
    | with_reducible assumption
    | with_reducible apply Keeps.foldl
    | with_reducible apply KeepsPair.foldl
    | with_reducible apply moveDrop_keeps
    | simp only [Keeps.lit_iff]
    | with_reducible refine Keeps.ite ?_ ?_
    | split
    | dsimp only
    | intro _

theorem execFetchReadDone_keeps {σ : State} {frame : Nat} {bad : Bool} {s : State} (hk : Keeps σ s) :
    KeepsOut σ (execFetchReadDone frame bad s) := by
  unfold execFetchReadDone
  repeat' first
    | with_reducible assumption
    | with_reducible apply KeepsOut.next
    | with_reducible apply fetchesBegin_keeps
    | with_reducible apply fetchFail_keeps
    | with_reducible apply memRelease_keeps
    | with_reducible apply zeroLoc_keeps
    | with_reducible apply State.writeBytes_keeps
    | refine KeepsOut.use ?_ (by with_reducible assumption)
    | simp only [Keeps.lit_iff]
    | with_reducible refine Keeps.ite ?_ ?_
    | split
    | dsimp only
    | intro _

theorem fetchesApply_keeps {σ : State} {s : State} (hk : Keeps σ s) :
    Keeps σ (fetchesApply s) := by
  unfold fetchesApply
  repeat' first
    | with_reducible assumption
    | with_reducible apply Keeps.foldl
    | with_reducible apply KeepsPair.foldl
    | with_reducible apply frameFirst_keeps
    | with_reducible apply setPte_keeps
    | with_reducible apply returnEntry_keeps
    | simp only [Keeps.lit_iff]
    | split
    | dsimp only
    | intro _

theorem fetchArrive_keeps {σ : State} {s : State} {frame : Nat} {data : List Nat} (hk : Keeps σ s) :
    Keeps σ (fetchArrive s frame data) := by
  unfold fetchArrive
  repeat' first
    | with_reducible assumption
    | with_reducible apply memRequest_keeps
    | simp only [Keeps.lit_iff]
    | with_reducible refine Keeps.ite ?_ ?_
    | split
    | dsimp only
    | intro _

theorem fetchSegment_keeps {σ : State} {s : State} {frame off : Nat} {data : List Nat} (hk : Keeps σ s) :
    Keeps σ (fetchSegment s frame off data) := by
  unfold fetchSegment
  repeat' first
    | with_reducible assumption
    | simp only [Keeps.lit_iff]
    | with_reducible refine Keeps.ite ?_ ?_
    | split
    | dsimp only
    | intro _

theorem fetchLost_keeps {σ : State} {s : State} {frame status : Nat} (hk : Keeps σ s) :
    Keeps σ (fetchLost s frame status) := by
  unfold fetchLost
  repeat' first
    | with_reducible assumption
    | with_reducible apply fetchesBegin_keeps
    | with_reducible apply fetchFail_keeps
    | split
    | dsimp only
    | intro _

theorem moveLost_keeps {σ : State} {s : State} {frame status : Nat} (hk : Keeps σ s) :
    Keeps σ (moveLost s frame status) := by
  unfold moveLost
  repeat' first
    | with_reducible assumption
    | with_reducible apply moveFail_keeps
    | split
    | dsimp only
    | intro _

theorem execPciLinkUp_keeps {σ : State} {port link speed width : Nat} {s : State} (hk : Keeps σ s) :
    KeepsOut σ (execPciLinkUp port link speed width s) := by
  unfold execPciLinkUp
  repeat' first
    | with_reducible assumption
    | with_reducible apply KeepsOut.next
    | with_reducible apply event0_keeps
    | with_reducible apply State.setRg_keeps
    | refine KeepsOut.use ?_ (by with_reducible assumption)
    | with_reducible refine Keeps.ite ?_ ?_
    | split
    | dsimp only
    | intro _

end Sys2Proof.Machine
end

