-- ==== Sys2Proof/Laws/KeepsTrowel.lean ====
section
/-!
SUPPORT. What the operations of Machine/Trowel.lean keep (`Keeps`), one lemma each.
-/

namespace Sys2Proof.Machine

theorem State.setTrwCh_keeps {σ : State} {s : State} {e c : Nat} {t : TrwCh} (hk : Keeps σ s) :
    Keeps σ (State.setTrwCh s e c t) := by
  unfold State.setTrwCh
  repeat' first
    | with_reducible assumption
    | simp only [Keeps.lit_iff]
    | split
    | dsimp only
    | intro _

theorem trwShow_keeps {σ : State} {s : State} {e c : Nat} (hk : Keeps σ s) :
    Keeps σ (trwShow s e c) := by
  unfold trwShow
  repeat' first
    | with_reducible assumption
    | with_reducible apply State.setFld_keeps
    | with_reducible apply State.setRg64_keeps
    | with_reducible refine Keeps.ite ?_ ?_
    | split
    | dsimp only
    | intro _

theorem trwPut_keeps {σ : State} {s : State} {e c : Nat} {t : TrwCh} (hk : Keeps σ s) :
    Keeps σ (trwPut s e c t) := by
  unfold trwPut
  repeat' first
    | with_reducible assumption
    | with_reducible apply trwShow_keeps
    | with_reducible apply State.setTrwCh_keeps
    | split
    | dsimp only
    | intro _

theorem trwBegin_keeps {σ : State} {s : State} {e c : Nat} (hk : Keeps σ s) :
    Keeps σ (trwBegin s e c) := by
  unfold trwBegin
  repeat' first
    | with_reducible assumption
    | with_reducible apply trwPut_keeps
    | split
    | dsimp only
    | intro _

theorem trwRest_keeps {σ : State} {s : State} {e c : Nat} {t : TrwCh} (hk : Keeps σ s) :
    Keeps σ (trwRest s e c t) := by
  unfold trwRest
  repeat' first
    | with_reducible assumption
    | with_reducible apply trwPut_keeps
    | with_reducible apply trwBegin_keeps
    | with_reducible refine Keeps.ite ?_ ?_
    | split
    | dsimp only
    | intro _

theorem trwHalt_keeps {σ : State} {s : State} {e c status : Nat} (hk : Keeps σ s) :
    Keeps σ (trwHalt s e c status) := by
  unfold trwHalt
  repeat' first
    | with_reducible assumption
    | with_reducible apply event_keeps
    | with_reducible apply trwRest_keeps
    | simp only [Keeps.lit_iff]
    | split
    | dsimp only
    | intro _

theorem trwWriteBack_keeps {σ : State} {s : State} {e c status : Nat} (hk : Keeps σ s) :
    Keeps σ (trwWriteBack s e c status) := by
  unfold trwWriteBack
  repeat' first
    | with_reducible assumption
    | with_reducible apply State.putBytes_keeps
    | with_reducible apply State.setFld_keeps
    | with_reducible apply event_keeps
    | with_reducible apply trwPut_keeps
    | with_reducible apply trwRest_keeps
    | simp only [Keeps.lit_iff]
    | with_reducible refine Keeps.ite ?_ ?_
    | split
    | dsimp only
    | intro _

theorem trwSettle_keeps {σ : State} {s : State} {e c : Nat} (hk : Keeps σ s) :
    Keeps σ (trwSettle s e c) := by
  unfold trwSettle
  repeat' first
    | with_reducible assumption
    | with_reducible apply trwShow_keeps
    | with_reducible apply trwWriteBack_keeps
    | with_reducible refine Keeps.ite ?_ ?_
    | split
    | dsimp only
    | intro _

theorem trwStop_keeps {σ : State} {s : State} {e c status : Nat} (hk : Keeps σ s) :
    Keeps σ (trwStop s e c status) := by
  unfold trwStop
  repeat' first
    | with_reducible assumption
    | with_reducible apply Keeps.foldl
    | with_reducible apply KeepsPair.foldl
    | with_reducible apply memWithdraw_keeps
    | with_reducible apply trwSettle_keeps
    | with_reducible apply State.setTrwCh_keeps
    | simp only [Keeps.lit_iff]
    | with_reducible refine Keeps.ite ?_ ?_
    | split
    | dsimp only
    | intro _

theorem trwWrite_keeps {σ : State} {s : State} {e c : Nat} {b : Burst} (hk : Keeps σ s) :
    Keeps σ (trwWrite s e c b) := by
  unfold trwWrite
  repeat' first
    | with_reducible assumption
    | with_reducible apply trwStop_keeps
    | with_reducible apply State.setTrwCh_keeps
    | with_reducible apply driveIssue_keeps
    | with_reducible apply memRequest_keeps
    | refine KeepsPair.use ?_ (by with_reducible assumption)
    | with_reducible apply KeepsPair.fst
    | simp only [KeepsPair.mk_iff]
    | simp only [Keeps.lit_iff]
    | with_reducible refine Keeps.ite ?_ ?_
    | split
    | dsimp only
    | intro _

theorem burstArrive_keeps {σ : State} {s : State} {e c off : Nat} {data : List Nat} (hk : Keeps σ s) :
    Keeps σ (burstArrive s e c off data) := by
  unfold burstArrive
  repeat' first
    | with_reducible assumption
    | with_reducible apply State.setTrwCh_keeps
    | with_reducible apply trwWrite_keeps
    | simp only [Keeps.lit_iff]
    | with_reducible refine Keeps.ite ?_ ?_
    | split
    | dsimp only
    | intro _

theorem trwIssue_keeps {σ : State} {s : State} {e c l : Nat} (hk : Keeps σ s) :
    Keeps σ (trwIssue s e c l) := by
  induction l generalizing s with
  | zero =>
    unfold trwIssue
    repeat' first
      | with_reducible assumption
      | with_reducible apply State.setTrwCh_keeps
      | with_reducible apply burstArrive_keeps
      | with_reducible apply trwStop_keeps
      | with_reducible apply driveIssue_keeps
      | with_reducible apply memRequest_keeps
      | refine KeepsPair.use ?_ (by with_reducible assumption)
      | with_reducible apply KeepsPair.fst
      | simp only [KeepsPair.mk_iff]
      | simp only [Keeps.lit_iff]
      | with_reducible refine Keeps.ite ?_ ?_
      | split
      | dsimp only
      | intro _
  | succ n ih =>
    unfold trwIssue
    repeat' first
      | with_reducible assumption
      | with_reducible apply ih
      | with_reducible apply State.setTrwCh_keeps
      | with_reducible apply burstArrive_keeps
      | with_reducible apply trwStop_keeps
      | with_reducible apply driveIssue_keeps
      | with_reducible apply memRequest_keeps
      | refine KeepsPair.use ?_ (by with_reducible assumption)
      | with_reducible apply KeepsPair.fst
      | simp only [KeepsPair.mk_iff]
      | simp only [Keeps.lit_iff]
      | with_reducible refine Keeps.ite ?_ ?_
      | split
      | dsimp only
      | intro _

theorem burstEnd_keeps {σ : State} {s : State} {e c off : Nat} {fail : Option Nat} (hk : Keeps σ s) :
    Keeps σ (burstEnd s e c off fail) := by
  unfold burstEnd
  repeat' first
    | with_reducible assumption
    | with_reducible apply trwStop_keeps
    | with_reducible apply State.setTrwCh_keeps
    | with_reducible apply State.count_keeps
    | with_reducible apply trwSettle_keeps
    | with_reducible apply trwIssue_keeps
    | simp only [Keeps.lit_iff]
    | split
    | dsimp only
    | intro _

theorem execTrwStart_keeps {σ : State} {engine ch : Nat} {s : State} (hk : Keeps σ s) :
    KeepsOut σ (execTrwStart engine ch s) := by
  unfold execTrwStart
  repeat' first
    | with_reducible assumption
    | with_reducible apply KeepsOut.next
    | with_reducible apply trwBegin_keeps
    | with_reducible apply State.setTrwCh_keeps
    | refine KeepsOut.use ?_ (by with_reducible assumption)
    | simp only [Keeps.lit_iff]
    | with_reducible refine Keeps.ite ?_ ?_
    | split
    | dsimp only
    | intro _

theorem trwAbort_keeps {σ : State} {s : State} {e c : Nat} (hk : Keeps σ s) :
    Keeps σ (trwAbort s e c) := by
  unfold trwAbort
  repeat' first
    | with_reducible assumption
    | with_reducible apply State.setTrwCh_keeps
    | with_reducible apply trwStop_keeps
    | simp only [Keeps.lit_iff]
    | with_reducible refine Keeps.ite ?_ ?_
    | split
    | dsimp only
    | intro _

theorem execTrwAbort_keeps {σ : State} {engine ch : Nat} {s : State} (hk : Keeps σ s) :
    KeepsOut σ (execTrwAbort engine ch s) := by
  unfold execTrwAbort
  repeat' first
    | with_reducible assumption
    | with_reducible apply KeepsOut.next
    | with_reducible apply trwAbort_keeps
    | refine KeepsOut.use ?_ (by with_reducible assumption)
    | split
    | dsimp only
    | intro _

theorem execDescriptorFetch_keeps {σ : State} {engine ch : Nat} {bad : Bool} {s : State} (hk : Keeps σ s) :
    KeepsOut σ (execDescriptorFetch engine ch bad s) := by
  unfold execDescriptorFetch
  repeat' first
    | with_reducible assumption
    | with_reducible apply KeepsOut.next
    | with_reducible apply trwHalt_keeps
    | with_reducible apply State.setFld_keeps
    | with_reducible apply uncorr_keeps
    | with_reducible apply trwPut_keeps
    | with_reducible apply trwWriteBack_keeps
    | with_reducible apply trwSettle_keeps
    | with_reducible apply trwIssue_keeps
    | refine KeepsOut.use ?_ (by with_reducible assumption)
    | simp only [Keeps.lit_iff]
    | with_reducible refine Keeps.ite ?_ ?_
    | split
    | dsimp only
    | intro _

theorem execTrwBurstReadDone_keeps {σ : State} {engine : Nat} {at_ : TrwSlot} {bad : Bool} {s : State} (hk : Keeps σ s) :
    KeepsOut σ (execTrwBurstReadDone engine at_ bad s) := by
  unfold execTrwBurstReadDone
  repeat' first
    | with_reducible assumption
    | with_reducible apply KeepsOut.next
    | with_reducible apply memRelease_keeps
    | with_reducible apply burstEnd_keeps
    | with_reducible apply fault_keeps
    | with_reducible apply memUncorr_keeps
    | with_reducible apply trwShow_keeps
    | with_reducible apply burstArrive_keeps
    | refine KeepsOut.use ?_ (by with_reducible assumption)
    | with_reducible refine Keeps.ite ?_ ?_
    | split
    | dsimp only
    | intro _

theorem execTrwBurstWriteDone_keeps {σ : State} {engine : Nat} {at_ : TrwSlot} {s : State} (hk : Keeps σ s) :
    KeepsOut σ (execTrwBurstWriteDone engine at_ s) := by
  unfold execTrwBurstWriteDone
  repeat' first
    | with_reducible assumption
    | with_reducible apply KeepsOut.next
    | with_reducible apply Keeps.foldl
    | with_reducible apply KeepsPair.foldl
    | with_reducible apply memRelease_keeps
    | with_reducible apply State.putByte_keeps
    | with_reducible apply pathsWritten_keeps
    | with_reducible apply burstEnd_keeps
    | refine KeepsOut.use ?_ (by with_reducible assumption)
    | with_reducible refine Keeps.ite ?_ ?_
    | split
    | dsimp only
    | intro _

theorem feedTake_keeps {σ : State} {s : State} {rak : Nat} (hk : Keeps σ s) :
    KeepsOptQ σ (feedTake s rak) := by
  unfold feedTake
  repeat' first
    | with_reducible assumption
    | exact KeepsOptQ.none
    | with_reducible apply KeepsOptQ.some
    | refine KeepsOptQ.use ?_ (by with_reducible assumption)
    | simp only [Keeps.lit_iff]
    | split
    | dsimp only
    | intro _

theorem execFeedRecord_keeps {σ : State} {rak : Nat} {s : State} (hk : Keeps σ s) :
    KeepsOut σ (execFeedRecord rak s) := by
  unfold execFeedRecord
  repeat' first
    | with_reducible assumption
    | with_reducible apply KeepsOut.next
    | with_reducible apply feedTake_keeps
    | with_reducible apply event0_keeps
    | with_reducible apply State.count_keeps
    | with_reducible apply State.setTrwCh_keeps
    | with_reducible apply burstArrive_keeps
    | refine KeepsOut.use ?_ (by with_reducible assumption)
    | refine KeepsOptQ.use ?_ (by with_reducible assumption)
    | simp only [Keeps.lit_iff]
    | with_reducible refine Keeps.ite ?_ ?_
    | split
    | dsimp only
    | intro _

theorem trwBlock_keeps {σ : State} {s : State} {e : Nat} (hk : Keeps σ s) :
    Keeps σ (trwBlock s e) := by
  unfold trwBlock
  repeat' first
    | with_reducible assumption
    | with_reducible apply Keeps.foldl
    | with_reducible apply KeepsPair.foldl
    | with_reducible apply trwStop_keeps
    | with_reducible refine Keeps.ite ?_ ?_
    | split
    | dsimp only
    | intro _

theorem execTrwPblockWrite_keeps {σ : State} {engine parts : Nat} {s : State} (hk : Keeps σ s) :
    KeepsOut σ (execTrwPblockWrite engine parts s) := by
  unfold execTrwPblockWrite
  repeat' first
    | with_reducible assumption
    | with_reducible apply KeepsOut.next
    | with_reducible apply trwBlock_keeps
    | with_reducible apply State.setRg64_keeps
    | refine KeepsOut.use ?_ (by with_reducible assumption)
    | split
    | dsimp only
    | intro _

theorem trwDisable_keeps {σ : State} {s : State} {e : Nat} (hk : Keeps σ s) :
    Keeps σ (trwDisable s e) := by
  unfold trwDisable
  repeat' first
    | with_reducible assumption
    | with_reducible apply Keeps.foldl
    | with_reducible apply KeepsPair.foldl
    | with_reducible apply trwAbort_keeps
    | split
    | dsimp only
    | intro _

theorem driveEnd_keeps {σ : State} {s : State} {k : DriveCmd} {ok : Bool} {data : List Nat} (hk : Keeps σ s) :
    Keeps σ (driveEnd s k ok data) := by
  unfold driveEnd
  repeat' first
    | with_reducible assumption
    | with_reducible apply moveStage_keeps
    | with_reducible apply moveLost_keeps
    | with_reducible apply fetchArrive_keeps
    | with_reducible apply fetchLost_keeps
    | with_reducible apply burstEnd_keeps
    | with_reducible apply trwShow_keeps
    | with_reducible apply burstArrive_keeps
    | with_reducible refine Keeps.ite ?_ ?_
    | split
    | dsimp only
    | intro _

theorem execDriveCommandComplete_keeps {σ : State} {i : Nat} {ok : Bool} {data : DriveData} {s : State} (hk : Keeps σ s) :
    KeepsOut σ (execDriveCommandComplete i ok data s) := by
  unfold execDriveCommandComplete
  repeat' first
    | with_reducible assumption
    | with_reducible apply KeepsOut.next
    | with_reducible apply State.countBy_keeps
    | with_reducible apply event0_keeps
    | with_reducible apply State.count_keeps
    | with_reducible apply driveEnd_keeps
    | refine KeepsOut.use ?_ (by with_reducible assumption)
    | simp only [Keeps.lit_iff]
    | with_reducible refine Keeps.ite ?_ ?_
    | split
    | dsimp only
    | intro _

theorem linkDown_keeps {σ : State} {s : State} {p k : Nat} {present : Bool} (hk : Keeps σ s) :
    Keeps σ (linkDown s p k present) := by
  unfold linkDown
  repeat' first
    | with_reducible assumption
    | with_reducible apply Keeps.foldl
    | with_reducible apply KeepsPair.foldl
    | with_reducible apply event0_keeps
    | with_reducible apply State.setRg_keeps
    | with_reducible apply driveEnd_keeps
    | with_reducible apply State.count_keeps
    | simp only [Keeps.lit_iff]
    | with_reducible refine Keeps.ite ?_ ?_
    | split
    | dsimp only
    | intro _

theorem execPciLinkDown_keeps {σ : State} {port link : Nat} {present : Bool} {s : State} (hk : Keeps σ s) :
    KeepsOut σ (execPciLinkDown port link present s) := by
  unfold execPciLinkDown
  repeat' first
    | with_reducible assumption
    | with_reducible apply KeepsOut.next
    | with_reducible apply linkDown_keeps
    | refine KeepsOut.use ?_ (by with_reducible assumption)
    | with_reducible refine Keeps.ite ?_ ?_
    | split
    | dsimp only
    | intro _

theorem patrolNext_keeps {σ : State} {s : State} (hk : Keeps σ s) :
    Keeps σ (patrolNext s) := by
  unfold patrolNext
  repeat' first
    | with_reducible assumption
    | simp only [Keeps.lit_iff]
    | split
    | dsimp only
    | intro _

theorem execPortBGrant_keeps {σ : State} {slice : Nat} {s : State} (hk : Keeps σ s) :
    KeepsOut σ (execPortBGrant slice s) := by
  unfold execPortBGrant
  repeat' first
    | with_reducible assumption
    | with_reducible apply KeepsOut.next
    | with_reducible apply State.setPb_keeps
    | refine KeepsOut.use ?_ (by with_reducible assumption)
    | simp only [Keeps.lit_iff]
    | with_reducible refine Keeps.ite ?_ ?_
    | split
    | dsimp only
    | intro _

theorem execPortBWatchdogBite_keeps {σ : State} {slice : Nat} {s : State} (hk : Keeps σ s) :
    KeepsOut σ (execPortBWatchdogBite slice s) := by
  unfold execPortBWatchdogBite
  repeat' first
    | with_reducible assumption
    | with_reducible apply KeepsOut.next
    | with_reducible apply fault_keeps
    | with_reducible apply State.setPb_keeps
    | with_reducible apply tileDown_keeps
    | with_reducible apply burstEnd_keeps
    | with_reducible apply fetchLost_keeps
    | with_reducible apply moveLost_keeps
    | with_reducible apply patrolNext_keeps
    | refine KeepsOut.use ?_ (by with_reducible assumption)
    | simp only [Keeps.lit_iff]
    | with_reducible refine Keeps.ite ?_ ?_
    | split
    | dsimp only
    | intro _

end Sys2Proof.Machine
end

