-- ==== Sys2Proof/Laws/KeepsTiles.lean ====
section
/-!
SUPPORT. What the operations of Machine/Tiles.lean keep (`Keeps`), one lemma each.
-/

namespace Sys2Proof.Machine

theorem tileFault_keeps {σ : State} {s : State} {n code addr : Nat} (hk : Keeps σ s) :
    Keeps σ (tileFault s n code addr) := by
  unfold tileFault
  repeat' first
    | with_reducible assumption
    | with_reducible apply tileDown_keeps
    | with_reducible apply fault_keeps
    | with_reducible apply uncorr_keeps
    | with_reducible apply poisonAdd_keeps
    | with_reducible refine Keeps.ite ?_ ?_
    | split
    | dsimp only
    | intro _

theorem portAsk_keeps {σ : State} {s : State} {n : Nat} (hk : Keeps σ s) :
    Keeps σ (portAsk s n) := by
  unfold portAsk
  repeat' first
    | with_reducible assumption
    | with_reducible apply portRequest_keeps
    | with_reducible apply State.setTile_keeps
    | simp only [Keeps.lit_iff]
    | with_reducible refine Keeps.ite ?_ ?_
    | split
    | dsimp only
    | intro _

theorem portLeave_keeps {σ : State} {s : State} {n a len : Nat} (hk : Keeps σ s) :
    Keeps σ (portLeave s n a len) := by
  unfold portLeave
  repeat' first
    | with_reducible assumption
    | with_reducible apply memRelease_keeps
    | with_reducible refine Keeps.ite ?_ ?_
    | split
    | dsimp only
    | intro _

theorem execTilStart_keeps {σ : State} {tile : Nat} {s : State} (hk : Keeps σ s) :
    KeepsOut σ (execTilStart tile s) := by
  unfold execTilStart
  repeat' first
    | with_reducible assumption
    | with_reducible apply KeepsOut.next
    | with_reducible apply event_keeps
    | with_reducible apply State.setTile_keeps
    | refine KeepsOut.use ?_ (by with_reducible assumption)
    | simp only [Keeps.lit_iff]
    | with_reducible refine Keeps.ite ?_ ?_
    | split
    | dsimp only
    | intro _

theorem execTilStop_keeps {σ : State} {tile : Nat} {s : State} (hk : Keeps σ s) :
    KeepsOut σ (execTilStop tile s) := by
  unfold execTilStop
  repeat' first
    | with_reducible assumption
    | with_reducible apply KeepsOut.next
    | with_reducible apply State.setTile_keeps
    | refine KeepsOut.use ?_ (by with_reducible assumption)
    | simp only [Keeps.lit_iff]
    | with_reducible refine Keeps.ite ?_ ?_
    | split
    | dsimp only
    | intro _

theorem zeroCode_keeps {σ : State} {s : State} {n len : Nat} (hk : Keeps σ s) :
    Keeps σ (zeroCode s n len) := by
  unfold zeroCode
  repeat' first
    | with_reducible assumption
    | simp only [Keeps.lit_iff]
    | with_reducible apply Keeps.litZero
    | split
    | dsimp only
    | intro _

theorem setWords_keeps {σ : State} {s : State} {reg : Nat → Nat} {ws : List Nat} (hk : Keeps σ s) :
    Keeps σ (setWords s reg ws) := by
  unfold setWords
  repeat' first
    | with_reducible assumption
    | with_reducible apply Keeps.foldl
    | with_reducible apply KeepsPair.foldl
    | with_reducible apply State.setRg_keeps
    | split
    | dsimp only
    | intro _

theorem execMeasureDone_keeps {σ : State} {tile : Nat} {s : State} (hk : Keeps σ s) :
    KeepsOut σ (execMeasureDone tile s) := by
  unfold execMeasureDone
  repeat' first
    | with_reducible assumption
    | with_reducible apply KeepsOut.next
    | with_reducible apply refuse_keeps
    | with_reducible apply event_keeps
    | with_reducible apply State.setTile_keeps
    | with_reducible apply zeroCode_keeps
    | with_reducible apply setWords_keeps
    | with_reducible apply event0_keeps
    | refine KeepsOut.use ?_ (by with_reducible assumption)
    | simp only [Keeps.lit_iff]
    | with_reducible refine Keeps.ite ?_ ?_
    | split
    | dsimp only
    | intro _

theorem mshDiscard_keeps {σ : State} {s : State} (hk : Keeps σ s) :
    Keeps σ (mshDiscard s) := by
  unfold mshDiscard
  repeat' first
    | with_reducible assumption
    | with_reducible apply event0_keeps
    | with_reducible apply State.count_keeps
    | split
    | dsimp only
    | intro _

theorem inject_keeps {σ : State} {s : State} {m : Msg} (hk : Keeps σ s) :
    Keeps σ (inject s m) := by
  unfold inject
  repeat' first
    | with_reducible assumption
    | with_reducible apply mshDiscard_keeps
    | with_reducible apply State.setTile_keeps
    | simp only [Keeps.lit_iff]
    | with_reducible refine Keeps.ite ?_ ?_
    | split
    | dsimp only
    | intro _

theorem ringWrite_keeps {σ : State} {s : State} {base k w : Nat} {data : List Nat} (hk : Keeps σ s) :
    Keeps σ (ringWrite s base k w data) := by
  unfold ringWrite
  repeat' first
    | with_reducible assumption
    | with_reducible apply Keeps.foldl
    | with_reducible apply KeepsPair.foldl
    | with_reducible apply State.setByte_keeps
    | split
    | dsimp only
    | intro _

theorem rxDrop_keeps {σ : State} {s : State} {n : Nat} (hk : Keeps σ s) :
    Keeps σ (rxDrop s n) := by
  unfold rxDrop
  repeat' first
    | with_reducible assumption
    | with_reducible apply event0_keeps
    | with_reducible apply State.count_keeps
    | split
    | dsimp only
    | intro _

theorem crcDiscard_keeps {σ : State} {s : State} {src dst router : Nat} (hk : Keeps σ s) :
    Keeps σ (crcDiscard s src dst router) := by
  unfold crcDiscard
  repeat' first
    | with_reducible assumption
    | with_reducible apply event0_keeps
    | with_reducible apply fault_keeps
    | with_reducible apply State.count_keeps
    | split
    | dsimp only
    | intro _

theorem execMessageEject_keeps {σ : State} {tile : Nat} {msg : Ejected} {s : State} (hk : Keeps σ s) :
    KeepsOut σ (execMessageEject tile msg s) := by
  unfold execMessageEject
  repeat' first
    | with_reducible assumption
    | with_reducible apply KeepsOut.next
    | with_reducible apply State.setTile_keeps
    | with_reducible apply crcDiscard_keeps
    | with_reducible apply rxDrop_keeps
    | with_reducible apply ringWrite_keeps
    | refine KeepsOut.use ?_ (by with_reducible assumption)
    | simp only [Keeps.lit_iff]
    | with_reducible refine Keeps.ite ?_ ?_
    | split
    | dsimp only
    | intro _

theorem execEjectionTimeout_keeps {σ : State} {tile : Nat} {s : State} (hk : Keeps σ s) :
    KeepsOut σ (execEjectionTimeout tile s) := by
  unfold execEjectionTimeout
  repeat' first
    | with_reducible assumption
    | with_reducible apply KeepsOut.next
    | with_reducible apply rxDrop_keeps
    | with_reducible apply State.setTile_keeps
    | refine KeepsOut.use ?_ (by with_reducible assumption)
    | simp only [Keeps.lit_iff]
    | with_reducible refine Keeps.ite ?_ ?_
    | split
    | dsimp only
    | intro _

theorem execRouterWatchdogBite_keeps {σ : State} {router : Nat} {s : State} (hk : Keeps σ s) :
    KeepsOut σ (execRouterWatchdogBite router s) := by
  unfold execRouterWatchdogBite
  repeat' first
    | with_reducible assumption
    | with_reducible apply KeepsOut.next
    | with_reducible apply State.setTile_keeps
    | with_reducible apply State.count_keeps
    | with_reducible apply event0_keeps
    | with_reducible apply fault_keeps
    | refine KeepsOut.use ?_ (by with_reducible assumption)
    | simp only [Keeps.lit_iff]
    | with_reducible refine Keeps.ite ?_ ?_
    | split
    | dsimp only
    | intro _

theorem directWrite_keeps {σ : State} {s : State} {x : Direct} {vendor : Bool} (hk : Keeps σ s) :
    Keeps σ (directWrite s x vendor) := by
  unfold directWrite
  repeat' first
    | with_reducible assumption
    | with_reducible apply Keeps.foldl
    | with_reducible apply KeepsPair.foldl
    | with_reducible apply State.writeBytes_keeps
    | with_reducible apply event0_keeps
    | with_reducible apply fault_keeps
    | with_reducible apply State.count_keeps
    | with_reducible apply State.setDbr_keeps
    | with_reducible apply fenRequest_keeps
    | with_reducible apply State.setTile_keeps
    | simp only [Keeps.lit_iff]
    | with_reducible refine Keeps.ite ?_ ?_
    | split
    | dsimp only
    | intro _

theorem xferSent_keeps {σ : State} {s : State} {x : Xfer} (hk : Keeps σ s) :
    Keeps σ (xferSent s x) := by
  unfold xferSent
  repeat' first
    | with_reducible assumption
    | simp only [Keeps.lit_iff]
    | with_reducible refine Keeps.ite ?_ ?_
    | split
    | dsimp only
    | intro _

theorem lose_keeps {σ : State} {s : State} {slot : Nat} (hk : Keeps σ s) :
    Keeps σ (lose s slot) := by
  unfold lose
  repeat' first
    | with_reducible assumption
    | simp only [Keeps.lit_iff]
    | split
    | dsimp only
    | intro _

theorem exitPart_keeps {σ : State} {s : State} {x : Xfer} (hk : Keeps σ s) :
    KeepsOptP σ (exitPart s x) := by
  unfold exitPart
  repeat' first
    | with_reducible assumption
    | exact KeepsOptP.none
    | with_reducible apply KeepsOptP.some
    | with_reducible apply exitTake_keeps
    | with_reducible apply exitsTurn_keeps
    | refine KeepsOptP.use ?_ (by with_reducible assumption)
    | split
    | dsimp only
    | intro _

theorem xferArrive_keeps {σ : State} {s : State} {d : Direct} {vendor bad : Bool} (hk : Keeps σ s) :
    Keeps σ (xferArrive s d vendor bad) := by
  unfold xferArrive
  repeat' first
    | with_reducible assumption
    | with_reducible apply lose_keeps
    | with_reducible apply crcDiscard_keeps
    | with_reducible apply directWrite_keeps
    | with_reducible refine Keeps.ite ?_ ?_
    | split
    | dsimp only
    | intro _

theorem execVc0DirectWrite_keeps {σ : State} {src dst addr : Nat} {data : List Nat} {seen : Option (List Nat)} {s : State}
    (hk : Keeps σ s) : KeepsOut σ (execVc0DirectWrite src dst addr data seen s) := by
  unfold execVc0DirectWrite
  dsimp only
  split
  · exact KeepsOut.next hk
  split
  · exact KeepsOut.next (xferArrive_keeps (Keeps.lit hk))
  split
  · exact KeepsOut.next hk
  · next x _ =>
    have h0 : Keeps σ (s.ccTo (x.start + costMesh x.links.length (64 * x.flits))) := State.ccTo_keeps hk
    generalize hw : (if 136 ≤ src then _ else _ : Option (State × List Nat)) = whole
    cases whole with
    | none => exact KeepsOut.next hk
    | some p =>
      have h1 : Keeps σ p.1 := by
        split at hw
        · exact exitPart_keeps h0 _ _ hw
        · split at hw <;> cases hw
          exact h0
      exact KeepsOut.next (xferArrive_keeps (xferSent_keeps h1))

theorem execFenAccessComplete_keeps {σ : State} {tile i : Nat} {bad : Bool} {s : State} (hk : Keeps σ s) :
    KeepsOut σ (execFenAccessComplete tile i bad s) := by
  unfold execFenAccessComplete
  repeat' first
    | with_reducible assumption
    | with_reducible apply KeepsOut.next
    | with_reducible apply State.setTile_keeps
    | with_reducible apply portRequest_keeps
    | with_reducible apply fenFault_keeps
    | with_reducible apply State.writeBytes_keeps
    | with_reducible apply mshDiscard_keeps
    | with_reducible apply portLeave_keeps
    | refine KeepsOut.use ?_ (by with_reducible assumption)
    | simp only [Keeps.lit_iff]
    | with_reducible refine Keeps.ite ?_ ?_
    | split
    | dsimp only
    | intro _

theorem tileTurn_keeps {σ : State} {s : State} {n : Nat} (hk : Keeps σ s) :
    Keeps σ (tileTurn s n) := by
  unfold tileTurn
  repeat' first
    | with_reducible assumption
    | with_reducible apply portDrop_keeps
    | with_reducible apply State.setTile_keeps
    | with_reducible apply inject_keeps
    | simp only [Keeps.lit_iff]
    | with_reducible refine Keeps.ite ?_ ?_
    | split
    | dsimp only
    | intro _

theorem isolateTurn_keeps {σ : State} {s : State} (hk : Keeps σ s) :
    Keeps σ (isolateTurn s) := by
  unfold isolateTurn
  repeat' first
    | with_reducible assumption
    | with_reducible apply Keeps.foldl
    | with_reducible apply KeepsPair.foldl
    | with_reducible apply State.setTile_keeps
    | with_reducible apply portDrop_keeps
    | with_reducible apply State.setRg_keeps
    | simp only [Keeps.lit_iff]
    | with_reducible refine Keeps.ite ?_ ?_
    | split
    | dsimp only
    | intro _

theorem injectTurn_keeps {σ : State} {s : State} (hk : Keeps σ s) :
    Keeps σ (injectTurn s) := by
  unfold injectTurn
  repeat' first
    | with_reducible assumption
    | with_reducible apply Keeps.foldl
    | with_reducible apply KeepsPair.foldl
    | with_reducible apply inject_keeps
    | with_reducible apply State.setTile_keeps
    | simp only [Keeps.lit_iff]
    | split
    | dsimp only
    | intro _

theorem tilesTurn_keeps {σ : State} {s : State} (hk : Keeps σ s) :
    Keeps σ (tilesTurn s) := by
  unfold tilesTurn
  repeat' first
    | with_reducible assumption
    | with_reducible apply Keeps.foldl
    | with_reducible apply KeepsPair.foldl
    | with_reducible apply injectTurn_keeps
    | with_reducible apply isolateTurn_keeps
    | with_reducible apply tileTurn_keeps
    | split
    | dsimp only
    | intro _

end Sys2Proof.Machine
end

