-- ==== Sys2Proof/Laws/KeepsBlockDesc.lean ====
section
/-!
SUPPORT. What the operations of Machine/BlockDesc.lean keep (`Keeps`), one lemma each.
-/

namespace Sys2Proof.Machine

theorem storeBytes_keeps {σ : State} {s : State} {n a : Nat} {bytes : List Nat} (hk : Keeps σ s) :
    Keeps σ (storeBytes s n a bytes) := by
  unfold storeBytes
  repeat' first
    | with_reducible assumption
    | with_reducible apply freeFill_keeps
    | with_reducible apply State.setTile_keeps
    | with_reducible apply State.writeBytes_keeps
    | simp only [Keeps.lit_iff]
    | with_reducible refine Keeps.ite ?_ ?_
    | split
    | dsimp only
    | intro _

end Sys2Proof.Machine
end

