-- ==== Sys2Proof/Laws/KeepsIsa.lean ====
section
/-!
SUPPORT. What the operations of Machine/Isa.lean keep (`Keeps`), one lemma each.
-/

namespace Sys2Proof.Machine

theorem issue_keeps {σ : State} {s : State} {tile op : Nat} {f : Nat → State → State} (hk : Keeps σ s) (hf : ∀ n t, Keeps σ t →
    Keeps σ (f n t)) :
    Keeps σ (issue s tile op f) := by
  unfold issue
  repeat' first
    | with_reducible assumption
    | with_reducible apply State.setTile_keeps
    | with_reducible apply tileFault_keeps
    | with_reducible apply hf
    | simp only [Keeps.lit_iff]
    | with_reducible refine Keeps.ite ?_ ?_
    | split
    | dsimp only
    | intro _

theorem issueV_keeps {σ : State} {s : State} {tile op : Nat} {f : Nat → State → State} (hk : Keeps σ s) (hf : ∀ n t, Keeps σ t →
    Keeps σ (f n t)) :
    Keeps σ (issueV s tile op f) := by
  unfold issueV
  repeat' first
    | with_reducible assumption
    | with_reducible apply issue_keeps
    | with_reducible apply hf
    | with_reducible refine Keeps.ite ?_ ?_
    | split
    | dsimp only
    | intro _

theorem advance_keeps {σ : State} {s : State} {n : Nat} {t : Tile} (hk : Keeps σ s) :
    Keeps σ (advance s n t) := by
  unfold advance
  repeat' first
    | with_reducible assumption
    | with_reducible apply State.setTile_keeps
    | simp only [Keeps.lit_iff]
    | split
    | dsimp only
    | intro _

theorem scalarOp_keeps {σ : State} {tile op : Nat} {f : Tile → Nat → Nat} {s : State} (hk : Keeps σ s) :
    KeepsOut σ (scalarOp tile op f s) := by
  unfold scalarOp
  repeat' first
    | with_reducible assumption
    | with_reducible apply KeepsOut.next
    | with_reducible apply issue_keeps
    | with_reducible apply advance_keeps
    | refine KeepsOut.use ?_ (by with_reducible assumption)
    | split
    | dsimp only
    | intro _

theorem execAdd_keeps {σ : State} {tile : Nat} {s : State} (hk : Keeps σ s) :
    KeepsOut σ (execAdd tile s) := by
  unfold execAdd
  repeat' first
    | with_reducible assumption
    | with_reducible apply KeepsOut.next
    | with_reducible apply scalarOp_keeps
    | refine KeepsOut.use ?_ (by with_reducible assumption)
    | split
    | dsimp only
    | intro _

theorem execSub_keeps {σ : State} {tile : Nat} {s : State} (hk : Keeps σ s) :
    KeepsOut σ (execSub tile s) := by
  unfold execSub
  repeat' first
    | with_reducible assumption
    | with_reducible apply KeepsOut.next
    | with_reducible apply scalarOp_keeps
    | refine KeepsOut.use ?_ (by with_reducible assumption)
    | split
    | dsimp only
    | intro _

theorem execAnd_keeps {σ : State} {tile : Nat} {s : State} (hk : Keeps σ s) :
    KeepsOut σ (execAnd tile s) := by
  unfold execAnd
  repeat' first
    | with_reducible assumption
    | with_reducible apply KeepsOut.next
    | with_reducible apply scalarOp_keeps
    | refine KeepsOut.use ?_ (by with_reducible assumption)
    | split
    | dsimp only
    | intro _

theorem execOr_keeps {σ : State} {tile : Nat} {s : State} (hk : Keeps σ s) :
    KeepsOut σ (execOr tile s) := by
  unfold execOr
  repeat' first
    | with_reducible assumption
    | with_reducible apply KeepsOut.next
    | with_reducible apply scalarOp_keeps
    | refine KeepsOut.use ?_ (by with_reducible assumption)
    | split
    | dsimp only
    | intro _

theorem execXor_keeps {σ : State} {tile : Nat} {s : State} (hk : Keeps σ s) :
    KeepsOut σ (execXor tile s) := by
  unfold execXor
  repeat' first
    | with_reducible assumption
    | with_reducible apply KeepsOut.next
    | with_reducible apply scalarOp_keeps
    | refine KeepsOut.use ?_ (by with_reducible assumption)
    | split
    | dsimp only
    | intro _

theorem execShl_keeps {σ : State} {tile : Nat} {s : State} (hk : Keeps σ s) :
    KeepsOut σ (execShl tile s) := by
  unfold execShl
  repeat' first
    | with_reducible assumption
    | with_reducible apply KeepsOut.next
    | with_reducible apply scalarOp_keeps
    | refine KeepsOut.use ?_ (by with_reducible assumption)
    | split
    | dsimp only
    | intro _

theorem execShr_keeps {σ : State} {tile : Nat} {s : State} (hk : Keeps σ s) :
    KeepsOut σ (execShr tile s) := by
  unfold execShr
  repeat' first
    | with_reducible assumption
    | with_reducible apply KeepsOut.next
    | with_reducible apply scalarOp_keeps
    | refine KeepsOut.use ?_ (by with_reducible assumption)
    | split
    | dsimp only
    | intro _

theorem execMul_keeps {σ : State} {tile : Nat} {s : State} (hk : Keeps σ s) :
    KeepsOut σ (execMul tile s) := by
  unfold execMul
  repeat' first
    | with_reducible assumption
    | with_reducible apply KeepsOut.next
    | with_reducible apply scalarOp_keeps
    | refine KeepsOut.use ?_ (by with_reducible assumption)
    | split
    | dsimp only
    | intro _

theorem execAddi_keeps {σ : State} {tile : Nat} {s : State} (hk : Keeps σ s) :
    KeepsOut σ (execAddi tile s) := by
  unfold execAddi
  repeat' first
    | with_reducible assumption
    | with_reducible apply KeepsOut.next
    | with_reducible apply scalarOp_keeps
    | refine KeepsOut.use ?_ (by with_reducible assumption)
    | split
    | dsimp only
    | intro _

theorem execLi_keeps {σ : State} {tile : Nat} {s : State} (hk : Keeps σ s) :
    KeepsOut σ (execLi tile s) := by
  unfold execLi
  repeat' first
    | with_reducible assumption
    | with_reducible apply KeepsOut.next
    | with_reducible apply scalarOp_keeps
    | refine KeepsOut.use ?_ (by with_reducible assumption)
    | split
    | dsimp only
    | intro _

theorem access_keeps {σ : State} {s : State} {n w len : Nat} {write bad : Bool} {f : Nat → State → State} (hk : Keeps σ s) (hf :
    ∀ n t, Keeps σ t → Keeps σ (f n t)) :
    Keeps σ (access s n w len write bad f) := by
  unfold access
  repeat' first
    | with_reducible assumption
    | with_reducible apply tileFault_keeps
    | with_reducible apply portAsk_keeps
    | with_reducible apply portLeave_keeps
    | with_reducible apply hf
    | with_reducible refine Keeps.ite ?_ ?_
    | split
    | dsimp only
    | intro _

theorem loadOp_keeps {σ : State} {tile op len : Nat} {bad : Bool} {s : State} (hk : Keeps σ s) :
    KeepsOut σ (loadOp tile op len bad s) := by
  unfold loadOp
  repeat' first
    | with_reducible assumption
    | with_reducible apply KeepsOut.next
    | with_reducible apply issue_keeps
    | with_reducible apply access_keeps
    | with_reducible apply advance_keeps
    | refine KeepsOut.use ?_ (by with_reducible assumption)
    | split
    | dsimp only
    | intro _

theorem storeOp_keeps {σ : State} {tile op len : Nat} {s : State} (hk : Keeps σ s) :
    KeepsOut σ (storeOp tile op len s) := by
  unfold storeOp
  repeat' first
    | with_reducible assumption
    | with_reducible apply KeepsOut.next
    | with_reducible apply issue_keeps
    | with_reducible apply access_keeps
    | with_reducible apply storeBytes_keeps
    | with_reducible apply advance_keeps
    | refine KeepsOut.use ?_ (by with_reducible assumption)
    | split
    | dsimp only
    | intro _

theorem execLd_keeps {σ : State} {tile : Nat} {bad : Bool} {s : State} (hk : Keeps σ s) :
    KeepsOut σ (execLd tile bad s) := by
  unfold execLd
  repeat' first
    | with_reducible assumption
    | with_reducible apply KeepsOut.next
    | with_reducible apply loadOp_keeps
    | refine KeepsOut.use ?_ (by with_reducible assumption)
    | split
    | dsimp only
    | intro _

theorem execLw_keeps {σ : State} {tile : Nat} {bad : Bool} {s : State} (hk : Keeps σ s) :
    KeepsOut σ (execLw tile bad s) := by
  unfold execLw
  repeat' first
    | with_reducible assumption
    | with_reducible apply KeepsOut.next
    | with_reducible apply loadOp_keeps
    | refine KeepsOut.use ?_ (by with_reducible assumption)
    | split
    | dsimp only
    | intro _

theorem execSt_keeps {σ : State} {tile : Nat} {s : State} (hk : Keeps σ s) :
    KeepsOut σ (execSt tile s) := by
  unfold execSt
  repeat' first
    | with_reducible assumption
    | with_reducible apply KeepsOut.next
    | with_reducible apply storeOp_keeps
    | refine KeepsOut.use ?_ (by with_reducible assumption)
    | split
    | dsimp only
    | intro _

theorem execSw_keeps {σ : State} {tile : Nat} {s : State} (hk : Keeps σ s) :
    KeepsOut σ (execSw tile s) := by
  unfold execSw
  repeat' first
    | with_reducible assumption
    | with_reducible apply KeepsOut.next
    | with_reducible apply storeOp_keeps
    | refine KeepsOut.use ?_ (by with_reducible assumption)
    | split
    | dsimp only
    | intro _

theorem execVld_keeps {σ : State} {tile : Nat} {bad : Bool} {s : State} (hk : Keeps σ s) :
    KeepsOut σ (execVld tile bad s) := by
  unfold execVld
  repeat' first
    | with_reducible assumption
    | with_reducible apply KeepsOut.next
    | with_reducible apply issue_keeps
    | with_reducible apply access_keeps
    | with_reducible apply advance_keeps
    | refine KeepsOut.use ?_ (by with_reducible assumption)
    | split
    | dsimp only
    | intro _

theorem execVst_keeps {σ : State} {tile : Nat} {s : State} (hk : Keeps σ s) :
    KeepsOut σ (execVst tile s) := by
  unfold execVst
  repeat' first
    | with_reducible assumption
    | with_reducible apply KeepsOut.next
    | with_reducible apply issue_keeps
    | with_reducible apply access_keeps
    | with_reducible apply storeBytes_keeps
    | with_reducible apply advance_keeps
    | refine KeepsOut.use ?_ (by with_reducible assumption)
    | split
    | dsimp only
    | intro _

theorem branchOp_keeps {σ : State} {tile op : Nat} {c : Nat → Nat → Bool} {s : State} (hk : Keeps σ s) :
    KeepsOut σ (branchOp tile op c s) := by
  unfold branchOp
  repeat' first
    | with_reducible assumption
    | with_reducible apply KeepsOut.next
    | with_reducible apply issue_keeps
    | with_reducible apply State.setTile_keeps
    | refine KeepsOut.use ?_ (by with_reducible assumption)
    | simp only [Keeps.lit_iff]
    | with_reducible refine Keeps.ite ?_ ?_
    | split
    | dsimp only
    | intro _

theorem execBeq_keeps {σ : State} {tile : Nat} {s : State} (hk : Keeps σ s) :
    KeepsOut σ (execBeq tile s) := by
  unfold execBeq
  repeat' first
    | with_reducible assumption
    | with_reducible apply KeepsOut.next
    | with_reducible apply branchOp_keeps
    | refine KeepsOut.use ?_ (by with_reducible assumption)
    | split
    | dsimp only
    | intro _

theorem execBne_keeps {σ : State} {tile : Nat} {s : State} (hk : Keeps σ s) :
    KeepsOut σ (execBne tile s) := by
  unfold execBne
  repeat' first
    | with_reducible assumption
    | with_reducible apply KeepsOut.next
    | with_reducible apply branchOp_keeps
    | refine KeepsOut.use ?_ (by with_reducible assumption)
    | split
    | dsimp only
    | intro _

theorem execBlt_keeps {σ : State} {tile : Nat} {s : State} (hk : Keeps σ s) :
    KeepsOut σ (execBlt tile s) := by
  unfold execBlt
  repeat' first
    | with_reducible assumption
    | with_reducible apply KeepsOut.next
    | with_reducible apply branchOp_keeps
    | refine KeepsOut.use ?_ (by with_reducible assumption)
    | split
    | dsimp only
    | intro _

theorem execJal_keeps {σ : State} {tile : Nat} {s : State} (hk : Keeps σ s) :
    KeepsOut σ (execJal tile s) := by
  unfold execJal
  repeat' first
    | with_reducible assumption
    | with_reducible apply KeepsOut.next
    | with_reducible apply issue_keeps
    | with_reducible apply State.setTile_keeps
    | refine KeepsOut.use ?_ (by with_reducible assumption)
    | simp only [Keeps.lit_iff]
    | split
    | dsimp only
    | intro _

theorem execJr_keeps {σ : State} {tile : Nat} {s : State} (hk : Keeps σ s) :
    KeepsOut σ (execJr tile s) := by
  unfold execJr
  repeat' first
    | with_reducible assumption
    | with_reducible apply KeepsOut.next
    | with_reducible apply issue_keeps
    | with_reducible apply State.setTile_keeps
    | refine KeepsOut.use ?_ (by with_reducible assumption)
    | simp only [Keeps.lit_iff]
    | split
    | dsimp only
    | intro _

theorem execHalt_keeps {σ : State} {tile : Nat} {s : State} (hk : Keeps σ s) :
    KeepsOut σ (execHalt tile s) := by
  unfold execHalt
  repeat' first
    | with_reducible assumption
    | with_reducible apply KeepsOut.next
    | with_reducible apply issue_keeps
    | with_reducible apply event0_keeps
    | with_reducible apply State.setTile_keeps
    | refine KeepsOut.use ?_ (by with_reducible assumption)
    | simp only [Keeps.lit_iff]
    | split
    | dsimp only
    | intro _

theorem execPoll_keeps {σ : State} {tile : Nat} {s : State} (hk : Keeps σ s) :
    KeepsOut σ (execPoll tile s) := by
  unfold execPoll
  repeat' first
    | with_reducible assumption
    | with_reducible apply KeepsOut.next
    | with_reducible apply issue_keeps
    | with_reducible apply advance_keeps
    | refine KeepsOut.use ?_ (by with_reducible assumption)
    | split
    | dsimp only
    | intro _

theorem waitDone_keeps {σ : State} {s : State} {n : Nat} (hk : Keeps σ s) :
    Keeps σ (waitDone s n) := by
  unfold waitDone
  repeat' first
    | with_reducible assumption
    | with_reducible apply advance_keeps
    | with_reducible apply State.setTile_keeps
    | simp only [Keeps.lit_iff]
    | with_reducible refine Keeps.ite ?_ ?_
    | split
    | dsimp only
    | intro _

theorem execWaitcc_keeps {σ : State} {tile : Nat} {s : State} (hk : Keeps σ s) :
    KeepsOut σ (execWaitcc tile s) := by
  unfold execWaitcc
  repeat' first
    | with_reducible assumption
    | with_reducible apply KeepsOut.next
    | with_reducible apply issue_keeps
    | with_reducible apply waitDone_keeps
    | with_reducible apply State.setTile_keeps
    | refine KeepsOut.use ?_ (by with_reducible assumption)
    | simp only [Keeps.lit_iff]
    | split
    | dsimp only
    | intro _

theorem execRecv_keeps {σ : State} {tile : Nat} {s : State} (hk : Keeps σ s) :
    KeepsOut σ (execRecv tile s) := by
  unfold execRecv
  repeat' first
    | with_reducible assumption
    | with_reducible apply KeepsOut.next
    | with_reducible apply issue_keeps
    | with_reducible apply waitDone_keeps
    | with_reducible apply State.setTile_keeps
    | refine KeepsOut.use ?_ (by with_reducible assumption)
    | simp only [Keeps.lit_iff]
    | split
    | dsimp only
    | intro _

theorem execFence_keeps {σ : State} {tile : Nat} {s : State} (hk : Keeps σ s) :
    KeepsOut σ (execFence tile s) := by
  unfold execFence
  repeat' first
    | with_reducible assumption
    | with_reducible apply KeepsOut.next
    | with_reducible apply issue_keeps
    | with_reducible apply waitDone_keeps
    | with_reducible apply State.setTile_keeps
    | refine KeepsOut.use ?_ (by with_reducible assumption)
    | simp only [Keeps.lit_iff]
    | split
    | dsimp only
    | intro _

theorem execWaitRelease_keeps {σ : State} {tile : Nat} {s : State} (hk : Keeps σ s) :
    KeepsOut σ (execWaitRelease tile s) := by
  unfold execWaitRelease
  repeat' first
    | with_reducible assumption
    | with_reducible apply KeepsOut.next
    | with_reducible apply waitDone_keeps
    | with_reducible apply State.ccTo_keeps
    | refine KeepsOut.use ?_ (by with_reducible assumption)
    | with_reducible refine Keeps.ite ?_ ?_
    | split
    | dsimp only
    | intro _

theorem execCsrr_keeps {σ : State} {tile : Nat} {s : State} (hk : Keeps σ s) :
    KeepsOut σ (execCsrr tile s) := by
  unfold execCsrr
  repeat' first
    | with_reducible assumption
    | with_reducible apply KeepsOut.next
    | with_reducible apply issue_keeps
    | with_reducible apply advance_keeps
    | with_reducible apply tileFault_keeps
    | refine KeepsOut.use ?_ (by with_reducible assumption)
    | split
    | dsimp only
    | intro _

theorem execCsrw_keeps {σ : State} {tile : Nat} {s : State} (hk : Keeps σ s) :
    KeepsOut σ (execCsrw tile s) := by
  unfold execCsrw
  repeat' first
    | with_reducible assumption
    | with_reducible apply KeepsOut.next
    | with_reducible apply issue_keeps
    | with_reducible apply advance_keeps
    | with_reducible apply tileFault_keeps
    | refine KeepsOut.use ?_ (by with_reducible assumption)
    | with_reducible refine Keeps.ite ?_ ?_
    | split
    | dsimp only
    | intro _

theorem putV_keeps {σ : State} {s : State} {n d : Nat} {v : List F32} (hk : Keeps σ s) :
    Keeps σ (putV s n d v) := by
  unfold putV
  repeat' first
    | with_reducible assumption
    | with_reducible apply advance_keeps
    | simp only [Keeps.lit_iff]
    | with_reducible apply Keeps.litFresh
    | with_reducible refine Keeps.ite ?_ ?_
    | split
    | dsimp only
    | intro _

theorem execVadd_keeps {σ : State} {tile : Nat} {s : State} (hk : Keeps σ s) :
    KeepsOut σ (execVadd tile s) := by
  unfold execVadd
  repeat' first
    | with_reducible assumption
    | with_reducible apply KeepsOut.next
    | with_reducible apply issueV_keeps
    | with_reducible apply putV_keeps
    | refine KeepsOut.use ?_ (by with_reducible assumption)
    | split
    | dsimp only
    | intro _

theorem execVmul_keeps {σ : State} {tile : Nat} {s : State} (hk : Keeps σ s) :
    KeepsOut σ (execVmul tile s) := by
  unfold execVmul
  repeat' first
    | with_reducible assumption
    | with_reducible apply KeepsOut.next
    | with_reducible apply issueV_keeps
    | with_reducible apply putV_keeps
    | refine KeepsOut.use ?_ (by with_reducible assumption)
    | split
    | dsimp only
    | intro _

theorem execVfma_keeps {σ : State} {tile : Nat} {s : State} (hk : Keeps σ s) :
    KeepsOut σ (execVfma tile s) := by
  unfold execVfma
  repeat' first
    | with_reducible assumption
    | with_reducible apply KeepsOut.next
    | with_reducible apply issueV_keeps
    | with_reducible apply putV_keeps
    | refine KeepsOut.use ?_ (by with_reducible assumption)
    | split
    | dsimp only
    | intro _

theorem execVmax_keeps {σ : State} {tile : Nat} {s : State} (hk : Keeps σ s) :
    KeepsOut σ (execVmax tile s) := by
  unfold execVmax
  repeat' first
    | with_reducible assumption
    | with_reducible apply KeepsOut.next
    | with_reducible apply issueV_keeps
    | with_reducible apply advance_keeps
    | refine KeepsOut.use ?_ (by with_reducible assumption)
    | split
    | dsimp only
    | intro _

theorem execVexp2_keeps {σ : State} {tile : Nat} {s : State} (hk : Keeps σ s) :
    KeepsOut σ (execVexp2 tile s) := by
  unfold execVexp2
  repeat' first
    | with_reducible assumption
    | with_reducible apply KeepsOut.next
    | with_reducible apply issueV_keeps
    | with_reducible apply advance_keeps
    | refine KeepsOut.use ?_ (by with_reducible assumption)
    | split
    | dsimp only
    | intro _

theorem execVbcast_keeps {σ : State} {tile : Nat} {s : State} (hk : Keeps σ s) :
    KeepsOut σ (execVbcast tile s) := by
  unfold execVbcast
  repeat' first
    | with_reducible assumption
    | with_reducible apply KeepsOut.next
    | with_reducible apply issueV_keeps
    | with_reducible apply advance_keeps
    | refine KeepsOut.use ?_ (by with_reducible assumption)
    | split
    | dsimp only
    | intro _

theorem execVcvt_keeps {σ : State} {tile : Nat} {s : State} (hk : Keeps σ s) :
    KeepsOut σ (execVcvt tile s) := by
  unfold execVcvt
  repeat' first
    | with_reducible assumption
    | with_reducible apply KeepsOut.next
    | with_reducible apply issueV_keeps
    | with_reducible apply advance_keeps
    | refine KeepsOut.use ?_ (by with_reducible assumption)
    | simp only [Keeps.lit_iff]
    | with_reducible apply Keeps.litFresh
    | split
    | dsimp only
    | intro _

theorem slotMissed_keeps {σ : State} {s : State} {n i : Nat} (hk : Keeps σ s) :
    Keeps σ (slotMissed s n i) := by
  unfold slotMissed
  repeat' first
    | with_reducible assumption
    | with_reducible apply event_keeps
    | with_reducible apply lose_keeps
    | with_reducible apply State.count_keeps
    | split
    | dsimp only
    | intro _

theorem issued_keeps {σ : State} {s : State} {n w st : Nat} (hk : Keeps σ s) :
    Keeps σ (issued s n w st) := by
  unfold issued
  repeat' first
    | with_reducible assumption
    | with_reducible apply advance_keeps
    | split
    | dsimp only
    | intro _

theorem srcRead_keeps {σ : State} {s : State} {n a len : Nat} {bad : Bool} {f : List Nat → State → State} (hk : Keeps σ s) (hf :
    ∀ n t, Keeps σ t → Keeps σ (f n t)) :
    Keeps σ (srcRead s n a len bad f) := by
  unfold srcRead
  repeat' first
    | with_reducible assumption
    | with_reducible apply portAsk_keeps
    | with_reducible apply tileFault_keeps
    | with_reducible apply portLeave_keeps
    | with_reducible apply hf
    | with_reducible refine Keeps.ite ?_ ?_
    | split
    | dsimp only
    | intro _

theorem sendBooked_keeps {σ : State} {s0 s : State} {n w src e : Nat} {bad : Bool} (h0 : Keeps σ s0) (hk : Keeps σ s) :
    Keeps σ (sendBooked s0 s n w src e bad) := by
  unfold sendBooked
  repeat' first
    | with_reducible assumption
    | with_reducible apply issued_keeps
    | with_reducible apply slotMissed_keeps
    | with_reducible apply srcRead_keeps
    | simp only [Keeps.lit_iff]
    | with_reducible refine Keeps.ite ?_ ?_
    | split
    | dsimp only
    | intro _

theorem sendFree_keeps {σ : State} {s : State} {n w src word : Nat} {bad : Bool} (hk : Keeps σ s) :
    Keeps σ (sendFree s n w src word bad) := by
  unfold sendFree
  repeat' first
    | with_reducible assumption
    | with_reducible apply srcRead_keeps
    | with_reducible apply issued_keeps
    | with_reducible apply inject_keeps
    | with_reducible refine Keeps.ite ?_ ?_
    | split
    | dsimp only
    | intro _

theorem execSend_keeps {σ : State} {tile : Nat} {s : State} (hk : Keeps σ s) :
    KeepsOut σ (execSend tile s) := by
  unfold execSend
  repeat' first
    | with_reducible assumption
    | with_reducible apply KeepsOut.next
    | with_reducible apply issue_keeps
    | with_reducible apply sendBooked_keeps
    | with_reducible apply sendFree_keeps
    | refine KeepsOut.use ?_ (by with_reducible assumption)
    | with_reducible refine Keeps.ite ?_ ?_
    | split
    | dsimp only
    | intro _

theorem execHandoff_keeps {σ : State} {tile : Nat} {s : State} (hk : Keeps σ s) :
    KeepsOut σ (execHandoff tile s) := by
  unfold execHandoff
  repeat' first
    | with_reducible assumption
    | with_reducible apply KeepsOut.next
    | with_reducible apply issue_keeps
    | with_reducible apply issued_keeps
    | with_reducible apply slotMissed_keeps
    | with_reducible apply srcRead_keeps
    | refine KeepsOut.use ?_ (by with_reducible assumption)
    | simp only [Keeps.lit_iff]
    | with_reducible refine Keeps.ite ?_ ?_
    | split
    | dsimp only
    | intro _

theorem fenOp_keeps {σ : State} {tile op : Nat} {write : Bool} {s : State} (hk : Keeps σ s) :
    KeepsOut σ (fenOp tile op write s) := by
  unfold fenOp
  repeat' first
    | with_reducible assumption
    | with_reducible apply KeepsOut.next
    | with_reducible apply issue_keeps
    | with_reducible apply issued_keeps
    | with_reducible apply State.setTile_keeps
    | with_reducible apply fenRequest_keeps
    | with_reducible apply srcRead_keeps
    | refine KeepsOut.use ?_ (by with_reducible assumption)
    | simp only [Keeps.lit_iff]
    | with_reducible refine Keeps.ite ?_ ?_
    | split
    | dsimp only
    | intro _

theorem execFenrd_keeps {σ : State} {tile : Nat} {s : State} (hk : Keeps σ s) :
    KeepsOut σ (execFenrd tile s) := by
  unfold execFenrd
  repeat' first
    | with_reducible assumption
    | with_reducible apply KeepsOut.next
    | with_reducible apply fenOp_keeps
    | refine KeepsOut.use ?_ (by with_reducible assumption)
    | split
    | dsimp only
    | intro _

theorem execFenwr_keeps {σ : State} {tile : Nat} {s : State} (hk : Keeps σ s) :
    KeepsOut σ (execFenwr tile s) := by
  unfold execFenwr
  repeat' first
    | with_reducible assumption
    | with_reducible apply KeepsOut.next
    | with_reducible apply fenOp_keeps
    | refine KeepsOut.use ?_ (by with_reducible assumption)
    | split
    | dsimp only
    | intro _

theorem execModeq_keeps {σ : State} {tile : Nat} {s : State} (hk : Keeps σ s) :
    KeepsOut σ (execModeq tile s) := by
  unfold execModeq
  repeat' first
    | with_reducible assumption
    | with_reducible apply KeepsOut.next
    | with_reducible apply issue_keeps
    | with_reducible apply advance_keeps
    | refine KeepsOut.use ?_ (by with_reducible assumption)
    | with_reducible refine Keeps.ite ?_ ?_
    | split
    | dsimp only
    | intro _

end Sys2Proof.Machine
end

