-- ==== Sys2Proof/Laws/KeepsBlockOps.lean ====
section
/-!
SUPPORT. What the operations of Machine/BlockOps.lean keep (`Keeps`), one lemma each.
-/

namespace Sys2Proof.Machine

theorem portTake_keeps {σ : State} {s : State} {n : Nat} (hk : Keeps σ s) :
    Keeps σ (portTake s n) := by
  unfold portTake
  repeat' first
    | with_reducible assumption
    | with_reducible apply State.setPb_keeps
    | simp only [Keeps.lit_iff]
    | with_reducible refine Keeps.ite ?_ ?_
    | split
    | dsimp only
    | intro _

theorem blockStart_keeps {σ : State} {s s0 : State} {n w op : Nat} {bytes : List Nat} (hk : Keeps σ s) (h0 : Keeps σ s0) :
    Keeps σ (blockStart s s0 n w op bytes) := by
  unfold blockStart
  repeat' first
    | with_reducible assumption
    | with_reducible apply issued_keeps
    | with_reducible apply portAsk_keeps
    | with_reducible apply State.setTile_keeps
    | with_reducible apply portTake_keeps
    | with_reducible apply fenRequest_keeps
    | simp only [Keeps.lit_iff]
    | with_reducible refine Keeps.ite ?_ ?_
    | split
    | dsimp only
    | intro _

theorem blockIssue_keeps {σ : State} {tile op : Nat} {s : State} (hk : Keeps σ s) :
    KeepsOut σ (blockIssue tile op s) := by
  unfold blockIssue
  repeat' first
    | with_reducible assumption
    | with_reducible apply KeepsOut.next
    | with_reducible apply issue_keeps
    | with_reducible apply issued_keeps
    | with_reducible apply tileFault_keeps
    | with_reducible apply blockStart_keeps
    | refine KeepsOut.use ?_ (by with_reducible assumption)
    | with_reducible refine Keeps.ite ?_ ?_
    | split
    | dsimp only
    | intro _

theorem execMmac_keeps {σ : State} {tile : Nat} {s : State} (hk : Keeps σ s) :
    KeepsOut σ (execMmac tile s) := by
  unfold execMmac
  repeat' first
    | with_reducible assumption
    | with_reducible apply KeepsOut.next
    | with_reducible apply blockIssue_keeps
    | refine KeepsOut.use ?_ (by with_reducible assumption)
    | split
    | dsimp only
    | intro _

theorem execExpand_keeps {σ : State} {tile : Nat} {s : State} (hk : Keeps σ s) :
    KeepsOut σ (execExpand tile s) := by
  unfold execExpand
  repeat' first
    | with_reducible assumption
    | with_reducible apply KeepsOut.next
    | with_reducible apply blockIssue_keeps
    | refine KeepsOut.use ?_ (by with_reducible assumption)
    | split
    | dsimp only
    | intro _

theorem execQuant_keeps {σ : State} {tile : Nat} {s : State} (hk : Keeps σ s) :
    KeepsOut σ (execQuant tile s) := by
  unfold execQuant
  repeat' first
    | with_reducible assumption
    | with_reducible apply KeepsOut.next
    | with_reducible apply blockIssue_keeps
    | refine KeepsOut.use ?_ (by with_reducible assumption)
    | split
    | dsimp only
    | intro _

theorem execRot_keeps {σ : State} {tile : Nat} {s : State} (hk : Keeps σ s) :
    KeepsOut σ (execRot tile s) := by
  unfold execRot
  repeat' first
    | with_reducible assumption
    | with_reducible apply KeepsOut.next
    | with_reducible apply blockIssue_keeps
    | refine KeepsOut.use ?_ (by with_reducible assumption)
    | split
    | dsimp only
    | intro _

theorem execSketch_keeps {σ : State} {tile : Nat} {s : State} (hk : Keeps σ s) :
    KeepsOut σ (execSketch tile s) := by
  unfold execSketch
  repeat' first
    | with_reducible assumption
    | with_reducible apply KeepsOut.next
    | with_reducible apply blockIssue_keeps
    | refine KeepsOut.use ?_ (by with_reducible assumption)
    | split
    | dsimp only
    | intro _

theorem execScore_keeps {σ : State} {tile : Nat} {s : State} (hk : Keeps σ s) :
    KeepsOut σ (execScore tile s) := by
  unfold execScore
  repeat' first
    | with_reducible assumption
    | with_reducible apply KeepsOut.next
    | with_reducible apply blockIssue_keeps
    | refine KeepsOut.use ?_ (by with_reducible assumption)
    | split
    | dsimp only
    | intro _

theorem execMerge_keeps {σ : State} {tile : Nat} {s : State} (hk : Keeps σ s) :
    KeepsOut σ (execMerge tile s) := by
  unfold execMerge
  repeat' first
    | with_reducible assumption
    | with_reducible apply KeepsOut.next
    | with_reducible apply blockIssue_keeps
    | refine KeepsOut.use ?_ (by with_reducible assumption)
    | split
    | dsimp only
    | intro _

theorem execBound_keeps {σ : State} {tile : Nat} {s : State} (hk : Keeps σ s) :
    KeepsOut σ (execBound tile s) := by
  unfold execBound
  repeat' first
    | with_reducible assumption
    | with_reducible apply KeepsOut.next
    | with_reducible apply blockIssue_keeps
    | refine KeepsOut.use ?_ (by with_reducible assumption)
    | split
    | dsimp only
    | intro _

theorem execPage_keeps {σ : State} {tile : Nat} {s : State} (hk : Keeps σ s) :
    KeepsOut σ (execPage tile s) := by
  unfold execPage
  repeat' first
    | with_reducible assumption
    | with_reducible apply KeepsOut.next
    | with_reducible apply blockIssue_keeps
    | refine KeepsOut.use ?_ (by with_reducible assumption)
    | split
    | dsimp only
    | intro _

theorem execBcopy_keeps {σ : State} {tile : Nat} {s : State} (hk : Keeps σ s) :
    KeepsOut σ (execBcopy tile s) := by
  unfold execBcopy
  repeat' first
    | with_reducible assumption
    | with_reducible apply KeepsOut.next
    | with_reducible apply issue_keeps
    | with_reducible apply blockStart_keeps
    | refine KeepsOut.use ?_ (by with_reducible assumption)
    | split
    | dsimp only
    | intro _

theorem writeF32s_keeps {σ : State} {s : State} {a : Nat} {v : List F32} (hk : Keeps σ s) :
    Keeps σ (writeF32s s a v) := by
  unfold writeF32s
  repeat' first
    | with_reducible assumption
    | with_reducible apply State.writeBytes_keeps
    | split
    | dsimp only
    | intro _

theorem writePart_keeps {σ : State} {s : State} {a d : Nat} {p : Part} (hk : Keeps σ s) :
    Keeps σ (writePart s a d p) := by
  unfold writePart
  repeat' first
    | with_reducible assumption
    | with_reducible apply writeF32s_keeps
    | split
    | dsimp only
    | intro _

theorem blockRun_keeps {σ : State} {s : State} {n : Nat} {o : BlockOp} (hk : Keeps σ s) :
    Keeps σ (blockRun s n o) := by
  unfold blockRun
  repeat' first
    | with_reducible assumption
    | with_reducible apply Keeps.foldl
    | with_reducible apply KeepsPair.foldl
    | with_reducible apply State.setTile_keeps
    | with_reducible apply writeF32s_keeps
    | with_reducible apply State.writeBytes_keeps
    | with_reducible apply State.count_keeps
    | with_reducible apply writePart_keeps
    | simp only [Keeps.lit_iff]
    | with_reducible apply Keeps.litFresh
    | with_reducible refine Keeps.ite ?_ ?_
    | split
    | dsimp only
    | intro _

theorem blockTorn_keeps {σ : State} {s : State} {n : Nat} {o : BlockOp} (hk : Keeps σ s) :
    Keeps σ (blockTorn s n o) := by
  unfold blockTorn
  repeat' first
    | with_reducible assumption
    | with_reducible apply Keeps.foldl
    | with_reducible apply KeepsPair.foldl
    | with_reducible apply freeFill_keeps
    | with_reducible apply State.setTile_keeps
    | simp only [Keeps.lit_iff]
    | with_reducible apply Keeps.litFresh
    | with_reducible refine Keeps.ite ?_ ?_
    | split
    | dsimp only
    | intro _

theorem blockLeave_keeps {σ : State} {s : State} {n i : Nat} (hk : Keeps σ s) :
    Keeps σ (blockLeave s n i) := by
  unfold blockLeave
  repeat' first
    | with_reducible assumption
    | with_reducible apply State.setTile_keeps
    | with_reducible apply portLeave_keeps
    | simp only [Keeps.lit_iff]
    | with_reducible refine Keeps.ite ?_ ?_
    | split
    | dsimp only
    | intro _

theorem execBlockOpComplete_keeps {σ : State} {tile i bad : Nat} {s : State} (hk : Keeps σ s) :
    KeepsOut σ (execBlockOpComplete tile i bad s) := by
  unfold execBlockOpComplete
  repeat' first
    | with_reducible assumption
    | with_reducible apply KeepsOut.next
    | with_reducible apply fenFault_keeps
    | with_reducible apply blockLeave_keeps
    | with_reducible apply tileFault_keeps
    | with_reducible apply blockTorn_keeps
    | with_reducible apply blockRun_keeps
    | refine KeepsOut.use ?_ (by with_reducible assumption)
    | with_reducible refine Keeps.ite ?_ ?_
    | split
    | dsimp only
    | intro _

end Sys2Proof.Machine
end

