-- ==== Sys2Proof/Laws/KeepsPorts.lean ====
section
/-!
SUPPORT. What the operations of Machine/Ports.lean keep (`Keeps`), one lemma each.
-/

namespace Sys2Proof.Machine

theorem slewBook_keeps {σ : State} {s : State} (hk : Keeps σ s) :
    Keeps σ (slewBook s) := by
  unfold slewBook
  repeat' first
    | with_reducible assumption
    | simp only [Keeps.lit_iff]
    | split
    | dsimp only
    | intro _

theorem execPtpSlewWrite_keeps {σ : State} {value : Nat} {s : State} (hk : Keeps σ s) :
    KeepsOut σ (execPtpSlewWrite value s) := by
  unfold execPtpSlewWrite
  repeat' first
    | with_reducible assumption
    | with_reducible apply KeepsOut.next
    | with_reducible apply State.setRg_keeps
    | with_reducible apply State.setFld_keeps
    | refine KeepsOut.use ?_ (by with_reducible assumption)
    | simp only [Keeps.lit_iff]
    | split
    | dsimp only
    | intro _

theorem execSlewComplete_keeps {σ : State} {s : State} (hk : Keeps σ s) :
    KeepsOut σ (execSlewComplete s) := by
  unfold execSlewComplete
  repeat' first
    | with_reducible assumption
    | with_reducible apply KeepsOut.next
    | with_reducible apply State.setRg_keeps
    | with_reducible apply State.setFld_keeps
    | with_reducible apply reachUp_keeps
    | with_reducible apply KeepsOpt.getD
    | with_reducible apply KeepsOpt.orElse
    | refine KeepsOpt.use ?_ (by with_reducible assumption)
    | refine KeepsOut.use ?_ (by with_reducible assumption)
    | simp only [Keeps.lit_iff]
    | with_reducible refine Keeps.ite ?_ ?_
    | split
    | dsimp only
    | intro _

theorem execPtpFreqWrite_keeps {σ : State} {value : Nat} {s : State} (hk : Keeps σ s) :
    KeepsOut σ (execPtpFreqWrite value s) := by
  unfold execPtpFreqWrite
  repeat' first
    | with_reducible assumption
    | with_reducible apply KeepsOut.next
    | with_reducible apply slewBook_keeps
    | with_reducible apply State.setRg_keeps
    | refine KeepsOut.use ?_ (by with_reducible assumption)
    | split
    | dsimp only
    | intro _

theorem stepTime_keeps {σ : State} {s : State} {ns : Int} (hk : Keeps σ s) :
    Keeps σ (stepTime s ns) := by
  unfold stepTime
  repeat' first
    | with_reducible assumption
    | simp only [Keeps.lit_iff]
    | with_reducible refine Keeps.ite ?_ ?_
    | split
    | dsimp only
    | intro _

theorem execPtpStepWrite_keeps {σ : State} {value : Nat} {s : State} (hk : Keeps σ s) :
    KeepsOut σ (execPtpStepWrite value s) := by
  unfold execPtpStepWrite
  repeat' first
    | with_reducible assumption
    | with_reducible apply KeepsOut.next
    | with_reducible apply State.setRg64_keeps
    | with_reducible apply event0_keeps
    | with_reducible apply stepTime_keeps
    | refine KeepsOut.use ?_ (by with_reducible assumption)
    | with_reducible refine Keeps.ite ?_ ?_
    | split
    | dsimp only
    | intro _

theorem holdoverStart_keeps {σ : State} {s : State} (hk : Keeps σ s) :
    Keeps σ (holdoverStart s) := by
  unfold holdoverStart
  repeat' first
    | with_reducible assumption
    | with_reducible apply event0_keeps
    | with_reducible apply State.setFld_keeps
    | with_reducible refine Keeps.ite ?_ ?_
    | split
    | dsimp only
    | intro _

theorem execServoLockWrite_keeps {σ : State} {locked : Bool} {s : State} (hk : Keeps σ s) :
    KeepsOut σ (execServoLockWrite locked s) := by
  unfold execServoLockWrite
  repeat' first
    | with_reducible assumption
    | with_reducible apply KeepsOut.next
    | with_reducible apply State.setRg_keeps
    | with_reducible apply event0_keeps
    | with_reducible apply State.setFld_keeps
    | with_reducible apply holdoverStart_keeps
    | refine KeepsOut.use ?_ (by with_reducible assumption)
    | with_reducible refine Keeps.ite ?_ ?_
    | split
    | dsimp only
    | intro _

theorem execPtpLossTimeout_keeps {σ : State} {s : State} (hk : Keeps σ s) :
    KeepsOut σ (execPtpLossTimeout s) := by
  unfold execPtpLossTimeout
  repeat' first
    | with_reducible assumption
    | with_reducible apply KeepsOut.next
    | with_reducible apply holdoverStart_keeps
    | refine KeepsOut.use ?_ (by with_reducible assumption)
    | with_reducible refine Keeps.ite ?_ ?_
    | split
    | dsimp only
    | intro _

theorem disqualify_keeps {σ : State} {s : State} {input flags : Nat} (hk : Keeps σ s) :
    Keeps σ (disqualify s input flags) := by
  unfold disqualify
  repeat' first
    | with_reducible assumption
    | with_reducible apply event_keeps
    | with_reducible apply holdoverStart_keeps
    | with_reducible refine Keeps.ite ?_ ?_
    | split
    | dsimp only
    | intro _

theorem synceTurn_keeps {σ : State} {s : State} (hk : Keeps σ s) :
    Keeps σ (synceTurn s) := by
  unfold synceTurn
  repeat' first
    | with_reducible assumption
    | with_reducible apply State.setFld_keeps
    | with_reducible apply holdoverStart_keeps
    | with_reducible refine Keeps.ite ?_ ?_
    | split
    | dsimp only
    | intro _

theorem execPtpCfgWrite_keeps {σ : State} {value : Nat} {s : State} (hk : Keeps σ s) :
    KeepsOut σ (execPtpCfgWrite value s) := by
  unfold execPtpCfgWrite
  repeat' first
    | with_reducible assumption
    | with_reducible apply KeepsOut.next
    | with_reducible apply synceTurn_keeps
    | with_reducible apply wordWrite_keeps
    | refine KeepsOut.use ?_ (by with_reducible assumption)
    | split
    | dsimp only
    | intro _

theorem ppsBad_keeps {σ : State} {s : State} {chatter oow : Bool} (hk : Keeps σ s) :
    Keeps σ (ppsBad s chatter oow) := by
  unfold ppsBad
  repeat' first
    | with_reducible assumption
    | with_reducible apply State.count_keeps
    | with_reducible apply State.setFld_keeps
    | with_reducible apply disqualify_keeps
    | simp only [Keeps.lit_iff]
    | with_reducible refine Keeps.ite ?_ ?_
    | split
    | dsimp only
    | intro _

theorem execPpsInEdge_keeps {σ : State} {s : State} (hk : Keeps σ s) :
    KeepsOut σ (execPpsInEdge s) := by
  unfold execPpsInEdge
  repeat' first
    | with_reducible assumption
    | with_reducible apply KeepsOut.next
    | with_reducible apply ppsBad_keeps
    | with_reducible apply State.setRg_keeps
    | with_reducible apply State.setFld_keeps
    | refine KeepsOut.use ?_ (by with_reducible assumption)
    | simp only [Keeps.lit_iff]
    | with_reducible refine Keeps.ite ?_ ?_
    | split
    | dsimp only
    | intro _

theorem execPpsStuckTimeout_keeps {σ : State} {s : State} (hk : Keeps σ s) :
    KeepsOut σ (execPpsStuckTimeout s) := by
  unfold execPpsStuckTimeout
  repeat' first
    | with_reducible assumption
    | with_reducible apply KeepsOut.next
    | with_reducible apply State.draw_keeps
    | with_reducible apply State.setFld_keeps
    | with_reducible apply disqualify_keeps
    | refine KeepsOut.use ?_ (by with_reducible assumption)
    | simp only [Keeps.lit_iff]
    | with_reducible refine Keeps.ite ?_ ?_
    | split
    | dsimp only
    | intro _

theorem execSyncWindowEnd_keeps {σ : State} {edges : Nat} {s : State} (hk : Keeps σ s) :
    KeepsOut σ (execSyncWindowEnd edges s) := by
  unfold execSyncWindowEnd
  repeat' first
    | with_reducible assumption
    | with_reducible apply KeepsOut.next
    | with_reducible apply State.setFld_keeps
    | with_reducible apply disqualify_keeps
    | refine KeepsOut.use ?_ (by with_reducible assumption)
    | simp only [Keeps.lit_iff]
    | with_reducible refine Keeps.ite ?_ ?_
    | split
    | dsimp only
    | intro _

theorem execPpsOutPulse_keeps {σ : State} {s : State} (hk : Keeps σ s) :
    KeepsOut σ (execPpsOutPulse s) := by
  unfold execPpsOutPulse
  repeat' first
    | with_reducible assumption
    | with_reducible apply KeepsOut.next
    | with_reducible apply reachUp_keeps
    | with_reducible apply KeepsOpt.getD
    | with_reducible apply KeepsOpt.orElse
    | refine KeepsOpt.use ?_ (by with_reducible assumption)
    | refine KeepsOut.use ?_ (by with_reducible assumption)
    | simp only [Keeps.lit_iff]
    | with_reducible refine Keeps.ite ?_ ?_
    | split
    | dsimp only
    | intro _

theorem execPpsOutFall_keeps {σ : State} {s : State} (hk : Keeps σ s) :
    KeepsOut σ (execPpsOutFall s) := by
  unfold execPpsOutFall
  repeat' first
    | with_reducible assumption
    | with_reducible apply KeepsOut.next
    | with_reducible apply reachUp_keeps
    | with_reducible apply KeepsOpt.getD
    | with_reducible apply KeepsOpt.orElse
    | refine KeepsOpt.use ?_ (by with_reducible assumption)
    | refine KeepsOut.use ?_ (by with_reducible assumption)
    | simp only [Keeps.lit_iff]
    | with_reducible refine Keeps.ite ?_ ?_
    | split
    | dsimp only
    | intro _

theorem puntWrite_keeps {σ : State} {s : State} {k port kind vid : Nat} {ts : Option Nat} {frame : List Nat} (hk : Keeps σ s) :
    Keeps σ (puntWrite s k port kind vid ts frame) := by
  unfold puntWrite
  repeat' first
    | with_reducible assumption
    | with_reducible apply State.putBytes_keeps
    | with_reducible apply State.setRg_keeps
    | with_reducible apply State.count_keeps
    | with_reducible apply event0_keeps
    | with_reducible refine Keeps.ite ?_ ?_
    | split
    | dsimp only
    | intro _

theorem rxDropFrame_keeps {σ : State} {s : State} {n : Nat} (hk : Keeps σ s) :
    Keeps σ (rxDropFrame s n) := by
  unfold rxDropFrame
  repeat' first
    | with_reducible assumption
    | with_reducible apply event0_keeps
    | with_reducible apply State.count_keeps
    | split
    | dsimp only
    | intro _

theorem lldpCheck_keeps {σ : State} {s : State} {b : List Nat} (hk : Keeps σ s) :
    Keeps σ (lldpCheck s b) := by
  unfold lldpCheck
  repeat' first
    | with_reducible assumption
    | with_reducible apply event0_keeps
    | with_reducible apply State.count_keeps
    | with_reducible refine Keeps.ite ?_ ?_
    | split
    | dsimp only
    | intro _

theorem puntFrame_keeps {σ : State} {s : State} {n port kind vid et : Nat} {frame body : List Nat} (hk : Keeps σ s) :
    Keeps σ (puntFrame s n port kind vid et frame body) := by
  unfold puntFrame
  repeat' first
    | with_reducible assumption
    | with_reducible apply rxDropFrame_keeps
    | with_reducible apply lldpCheck_keeps
    | with_reducible apply puntWrite_keeps
    | simp only [Keeps.lit_iff]
    | with_reducible refine Keeps.ite ?_ ?_
    | split
    | dsimp only
    | intro _

theorem execFrameReceive_keeps {σ : State} {port : Nat} {fcs : Bool} {frame : WireFrame} {s : State} (hk : Keeps σ s) :
    KeepsOut σ (execFrameReceive port fcs frame s) := by
  unfold execFrameReceive
  repeat' first
    | with_reducible assumption
    | with_reducible apply KeepsOut.next
    | with_reducible apply State.countBy_keeps
    | with_reducible apply rxDropFrame_keeps
    | with_reducible apply State.count_keeps
    | with_reducible apply puntFrame_keeps
    | refine KeepsOut.use ?_ (by with_reducible assumption)
    | with_reducible refine Keeps.ite ?_ ?_
    | split
    | dsimp only
    | intro _

theorem execMgtFrameReceive_keeps {σ : State} {port : Nat} {fcs : Bool} {bytes : List Nat} {s : State} (hk : Keeps σ s) :
    KeepsOut σ (execMgtFrameReceive port fcs bytes s) := by
  unfold execMgtFrameReceive
  repeat' first
    | with_reducible assumption
    | with_reducible apply KeepsOut.next
    | with_reducible apply State.count_keeps
    | with_reducible apply puntWrite_keeps
    | refine KeepsOut.use ?_ (by with_reducible assumption)
    | with_reducible refine Keeps.ite ?_ ?_
    | split
    | dsimp only
    | intro _

theorem execLinkChange_keeps {σ : State} {port : Nat} {up : Bool} {s : State} (hk : Keeps σ s) :
    KeepsOut σ (execLinkChange port up s) := by
  unfold execLinkChange
  repeat' first
    | with_reducible assumption
    | with_reducible apply KeepsOut.next
    | with_reducible apply event_keeps
    | with_reducible apply State.setRg_keeps
    | with_reducible apply synceTurn_keeps
    | refine KeepsOut.use ?_ (by with_reducible assumption)
    | with_reducible refine Keeps.ite ?_ ?_
    | split
    | dsimp only
    | intro _

theorem execFecDegrade_keeps {σ : State} {port : Nat} {s : State} (hk : Keeps σ s) :
    KeepsOut σ (execFecDegrade port s) := by
  unfold execFecDegrade
  repeat' first
    | with_reducible assumption
    | with_reducible apply KeepsOut.next
    | with_reducible apply event_keeps
    | with_reducible apply State.setFld_keeps
    | refine KeepsOut.use ?_ (by with_reducible assumption)
    | with_reducible refine Keeps.ite ?_ ?_
    | split
    | dsimp only
    | intro _

theorem execTxRingWrite_keeps {σ : State} {ring wr : Nat} {s : State} (hk : Keeps σ s) :
    KeepsOut σ (execTxRingWrite ring wr s) := by
  unfold execTxRingWrite
  repeat' first
    | with_reducible assumption
    | with_reducible apply KeepsOut.next
    | with_reducible apply State.setRg_keeps
    | refine KeepsOut.use ?_ (by with_reducible assumption)
    | split
    | dsimp only
    | intro _

theorem txWriteBack_keeps {σ : State} {s : State} {k status t : Nat} (hk : Keeps σ s) :
    Keeps σ (txWriteBack s k status t) := by
  unfold txWriteBack
  repeat' first
    | with_reducible assumption
    | with_reducible apply State.putLE_keeps
    | with_reducible apply State.putByte_keeps
    | with_reducible apply State.setRg_keeps
    | with_reducible refine Keeps.ite ?_ ?_
    | split
    | dsimp only
    | intro _

theorem execControlTxDone_keeps {σ : State} {ring : Nat} {s : State} (hk : Keeps σ s) :
    KeepsOut σ (execControlTxDone ring s) := by
  unfold execControlTxDone
  repeat' first
    | with_reducible assumption
    | with_reducible apply KeepsOut.next
    | with_reducible apply txWriteBack_keeps
    | refine KeepsOut.use ?_ (by with_reducible assumption)
    | simp only [Keeps.lit_iff]
    | with_reducible refine Keeps.ite ?_ ?_
    | split
    | dsimp only
    | intro _

end Sys2Proof.Machine
end

