-- ==== Sys2Proof/Laws/KeepsItp.lean ====
section
/-!
SUPPORT. What the operations of Machine/Itp.lean keep (`Keeps`), one lemma each.
-/

namespace Sys2Proof.Machine

theorem itpRingPop_keeps {σ : State} {s : State} {base : Nat} (hk : Keeps σ s) :
    Keeps σ (itpRingPop s base) := by
  unfold itpRingPop
  repeat' first
    | with_reducible assumption
    | with_reducible apply State.setRg_keeps
    | split
    | dsimp only
    | intro _

theorem cqWrite_keeps {σ : State} {s : State} {r : CqRec} (hk : Keeps σ s) :
    Keeps σ (cqWrite s r) := by
  unfold cqWrite
  repeat' first
    | with_reducible assumption
    | with_reducible apply State.putBytes_keeps
    | with_reducible apply State.setRg_keeps
    | with_reducible apply event0_keeps
    | with_reducible apply State.count_keeps
    | with_reducible refine Keeps.ite ?_ ?_
    | split
    | dsimp only
    | intro _

theorem setRegionId_keeps {σ : State} {s : State} {i gen st : Nat} (hk : Keeps σ s) :
    Keeps σ (setRegionId s i gen st) := by
  unfold setRegionId
  repeat' first
    | with_reducible assumption
    | with_reducible apply State.putLE_keeps
    | split
    | dsimp only
    | intro _

theorem setInflight_keeps {σ : State} {s : State} {i n : Nat} (hk : Keeps σ s) :
    Keeps σ (setInflight s i n) := by
  unfold setInflight
  repeat' first
    | with_reducible assumption
    | with_reducible apply State.putLE_keeps
    | split
    | dsimp only
    | intro _

theorem regionCount_keeps {σ : State} {s : State} {status : Nat} (hk : Keeps σ s) :
    Keeps σ (regionCount s status) := by
  unfold regionCount
  repeat' first
    | with_reducible assumption
    | with_reducible apply State.count_keeps
    | with_reducible refine Keeps.ite ?_ ?_
    | split
    | dsimp only
    | intro _

theorem inflightUp_keeps {σ : State} {s : State} {i : Nat} (hk : Keeps σ s) :
    Keeps σ (inflightUp s i) := by
  unfold inflightUp
  repeat' first
    | with_reducible assumption
    | with_reducible apply setInflight_keeps
    | split
    | dsimp only
    | intro _

theorem inflightDown_keeps {σ : State} {s : State} {i : Nat} (hk : Keeps σ s) :
    Keeps σ (inflightDown s i) := by
  unfold inflightDown
  repeat' first
    | with_reducible assumption
    | with_reducible apply setInflight_keeps
    | split
    | dsimp only
    | intro _

theorem cmdStat_keeps {σ : State} {s : State} {status : Nat} (hk : Keeps σ s) :
    Keeps σ (cmdStat s status) := by
  unfold cmdStat
  repeat' first
    | with_reducible assumption
    | with_reducible apply State.setRg_keeps
    | split
    | dsimp only
    | intro _

theorem execRegionValidate_keeps {σ : State} {i : Nat} {s : State} (hk : Keeps σ s) :
    KeepsOut σ (execRegionValidate i s) := by
  unfold execRegionValidate
  repeat' first
    | with_reducible assumption
    | with_reducible apply KeepsOut.next
    | with_reducible apply cmdStat_keeps
    | with_reducible apply setRegionId_keeps
    | refine KeepsOut.use ?_ (by with_reducible assumption)
    | with_reducible refine Keeps.ite ?_ ?_
    | split
    | dsimp only
    | intro _

theorem revokeRegion_keeps {σ : State} {s : State} {i : Nat} (hk : Keeps σ s) :
    Keeps σ (revokeRegion s i) := by
  unfold revokeRegion
  repeat' first
    | with_reducible assumption
    | with_reducible apply setRegionId_keeps
    | split
    | dsimp only
    | intro _

theorem execRegionRevoke_keeps {σ : State} {i : Nat} {s : State} (hk : Keeps σ s) :
    KeepsOut σ (execRegionRevoke i s) := by
  unfold execRegionRevoke
  repeat' first
    | with_reducible assumption
    | with_reducible apply KeepsOut.next
    | with_reducible apply cmdStat_keeps
    | with_reducible apply revokeRegion_keeps
    | refine KeepsOut.use ?_ (by with_reducible assumption)
    | with_reducible refine Keeps.ite ?_ ?_
    | split
    | dsimp only
    | intro _

theorem execRevokeDone_keeps {σ : State} {i : Nat} {s : State} (hk : Keeps σ s) :
    KeepsOut σ (execRevokeDone i s) := by
  unfold execRevokeDone
  repeat' first
    | with_reducible assumption
    | with_reducible apply KeepsOut.next
    | with_reducible apply event_keeps
    | with_reducible apply setRegionId_keeps
    | refine KeepsOut.use ?_ (by with_reducible assumption)
    | with_reducible refine Keeps.ite ?_ ?_
    | split
    | dsimp only
    | intro _

theorem readEnd_keeps {σ : State} {s : State} {i : Nat} {r : ReadSt} {status : Nat} {error : Bool} (hk : Keeps σ s) :
    Keeps σ (readEnd s i r status error) := by
  unfold readEnd
  repeat' first
    | with_reducible assumption
    | with_reducible apply State.setConn_keeps
    | with_reducible apply cqWrite_keeps
    | with_reducible apply fetchArrive_keeps
    | with_reducible apply fetchLost_keeps
    | simp only [Keeps.lit_iff]
    | with_reducible refine Keeps.ite ?_ ?_
    | split
    | dsimp only
    | intro _

theorem txEnd_keeps {σ : State} {s : State} {i : Nat} {m : TxMsg} {status : Nat} {error : Bool} (hk : Keeps σ s) :
    Keeps σ (txEnd s i m status error) := by
  unfold txEnd
  repeat' first
    | with_reducible assumption
    | with_reducible apply readEnd_keeps
    | with_reducible apply cqWrite_keeps
    | with_reducible apply freeReq_keeps
    | with_reducible apply inflightDown_keeps
    | with_reducible apply moveStage_keeps
    | with_reducible apply moveLost_keeps
    | with_reducible refine Keeps.ite ?_ ?_
    | split
    | dsimp only
    | intro _

theorem rxAbandon_keeps {σ : State} {s : State} {m : RxMsg} (hk : Keeps σ s) :
    Keeps σ (rxAbandon s m) := by
  unfold rxAbandon
  repeat' first
    | with_reducible assumption
    | with_reducible apply stageFree_keeps
    | with_reducible apply inflightDown_keeps
    | split
    | dsimp only
    | intro _

theorem connLeave_keeps {σ : State} {s : State} {i : Nat} (hk : Keeps σ s) :
    Keeps σ (connLeave s i) := by
  unfold connLeave
  repeat' first
    | with_reducible assumption
    | with_reducible apply Keeps.foldl
    | with_reducible apply KeepsPair.foldl
    | with_reducible apply State.setConn_keeps
    | with_reducible apply txEnd_keeps
    | with_reducible apply readEnd_keeps
    | with_reducible apply rxAbandon_keeps
    | simp only [Keeps.lit_iff]
    | split
    | dsimp only
    | intro _

theorem connError_keeps {σ : State} {s : State} {i : Nat} (hk : Keeps σ s) :
    Keeps σ (connError s i) := by
  unfold connError
  repeat' first
    | with_reducible assumption
    | with_reducible apply connLeave_keeps
    | with_reducible apply State.setConn_keeps
    | with_reducible apply suspect_keeps
    | with_reducible apply event_keeps
    | with_reducible apply State.draw_keeps
    | simp only [Keeps.lit_iff]
    | with_reducible refine Keeps.ite ?_ ?_
    | split
    | dsimp only
    | intro _

theorem ackNow_keeps {σ : State} {s : State} {i : Nat} (hk : Keeps σ s) :
    Keeps σ (ackNow s i) := by
  unfold ackNow
  repeat' first
    | with_reducible assumption
    | with_reducible apply queueCtl_keeps
    | with_reducible apply State.setConn_keeps
    | simp only [Keeps.lit_iff]
    | with_reducible refine Keeps.ite ?_ ?_
    | split
    | dsimp only
    | intro _

theorem ackNote_keeps {σ : State} {s : State} {i : Nat} (hk : Keeps σ s) :
    Keeps σ (ackNote s i) := by
  unfold ackNote
  repeat' first
    | with_reducible assumption
    | with_reducible apply State.setConn_keeps
    | simp only [Keeps.lit_iff]
    | split
    | dsimp only
    | intro _

theorem ackTurn_keeps {σ : State} {s : State} {i : Nat} {now : Bool} (hk : Keeps σ s) :
    Keeps σ (ackTurn s i now) := by
  unfold ackTurn
  repeat' first
    | with_reducible assumption
    | with_reducible apply ackNow_keeps
    | with_reducible refine Keeps.ite ?_ ?_
    | split
    | dsimp only
    | intro _

theorem ackDelivered_keeps {σ : State} {s : State} {i : Nat} (hk : Keeps σ s) :
    Keeps σ (ackDelivered s i) := by
  unfold ackDelivered
  repeat' first
    | with_reducible assumption
    | with_reducible apply ackNow_keeps
    | with_reducible refine Keeps.ite ?_ ?_
    | split
    | dsimp only
    | intro _

theorem execAckDelayTimeout_keeps {σ : State} {i : Nat} {s : State} (hk : Keeps σ s) :
    KeepsOut σ (execAckDelayTimeout i s) := by
  unfold execAckDelayTimeout
  repeat' first
    | with_reducible assumption
    | with_reducible apply KeepsOut.next
    | with_reducible apply reachUp_keeps
    | with_reducible apply ackNow_keeps
    | with_reducible apply KeepsOpt.getD
    | with_reducible apply KeepsOpt.orElse
    | refine KeepsOpt.use ?_ (by with_reducible assumption)
    | refine KeepsOut.use ?_ (by with_reducible assumption)
    | split
    | dsimp only
    | intro _

theorem rxFail_keeps {σ : State} {s : State} {i : Nat} {m : RxMsg} {psn status counter : Nat} (hk : Keeps σ s) :
    Keeps σ (rxFail s i m psn status counter) := by
  unfold rxFail
  repeat' first
    | with_reducible assumption
    | with_reducible apply State.count_keeps
    | with_reducible apply freeFill_keeps
    | with_reducible apply rxAbandon_keeps
    | with_reducible apply State.setConn_keeps
    | with_reducible apply queueCtl_keeps
    | simp only [Keeps.lit_iff]
    | with_reducible refine Keeps.ite ?_ ?_
    | split
    | dsimp only
    | intro _

theorem trigger_keeps {σ : State} {s : State} {part k : Nat} (hk : Keeps σ s) :
    Keeps σ (trigger s part k) := by
  unfold trigger
  repeat' first
    | with_reducible assumption
    | with_reducible apply State.setFld_keeps
    | with_reducible apply State.count_keeps
    | with_reducible refine Keeps.ite ?_ ?_
    | split
    | dsimp only
    | intro _

theorem readAnswer_keeps {σ : State} {s : State} {i : Nat} {m : RxMsg} (hk : Keeps σ s) :
    Keeps σ (readAnswer s i m) := by
  unfold readAnswer
  repeat' first
    | with_reducible assumption
    | with_reducible apply queueMsg_keeps
    | with_reducible apply regionCount_keeps
    | with_reducible apply inflightUp_keeps
    | with_reducible refine Keeps.ite ?_ ?_
    | split
    | dsimp only
    | intro _

theorem deliver_keeps {σ : State} {s : State} {i port : Nat} {m : RxMsg} (hk : Keeps σ s) :
    Keeps σ (deliver s i port m) := by
  unfold deliver
  repeat' first
    | with_reducible assumption
    | with_reducible apply cqWrite_keeps
    | with_reducible apply trigger_keeps
    | with_reducible apply inflightDown_keeps
    | with_reducible apply readAnswer_keeps
    | with_reducible apply readEnd_keeps
    | with_reducible apply stageFree_keeps
    | simp only [Keeps.lit_iff]
    | with_reducible refine Keeps.ite ?_ ?_
    | split
    | dsimp only
    | intro _

theorem deliverAll_keeps {σ : State} {s : State} {i port l : Nat} (hk : Keeps σ s) :
    Keeps σ (deliverAll s i port l) := by
  induction l generalizing s with
  | zero =>
    unfold deliverAll
    repeat' first
      | with_reducible assumption
      | with_reducible apply connError_keeps
      | with_reducible apply State.setConn_keeps
      | with_reducible apply ackDelivered_keeps
      | with_reducible apply deliver_keeps
      | simp only [Keeps.lit_iff]
      | with_reducible refine Keeps.ite ?_ ?_
      | split
      | dsimp only
      | intro _
  | succ n ih =>
    unfold deliverAll
    repeat' first
      | with_reducible assumption
      | with_reducible apply ih
      | with_reducible apply connError_keeps
      | with_reducible apply State.setConn_keeps
      | with_reducible apply ackDelivered_keeps
      | with_reducible apply deliver_keeps
      | simp only [Keeps.lit_iff]
      | with_reducible refine Keeps.ite ?_ ?_
      | split
      | dsimp only
      | intro _

theorem rxAdvance_keeps {σ : State} {s : State} {i port : Nat} (hk : Keeps σ s) :
    Keeps σ (rxAdvance s i port) := by
  unfold rxAdvance
  repeat' first
    | with_reducible assumption
    | with_reducible apply State.setConn_keeps
    | with_reducible apply deliverAll_keeps
    | simp only [Keeps.lit_iff]
    | with_reducible refine Keeps.ite ?_ ?_
    | split
    | dsimp only
    | intro _

theorem rxTaken_keeps {σ : State} {s : State} {i port : Nat} {now : Bool} (hk : Keeps σ s) :
    Keeps σ (rxTaken s i port now) := by
  unfold rxTaken
  repeat' first
    | with_reducible assumption
    | with_reducible apply ackTurn_keeps
    | with_reducible apply rxAdvance_keeps
    | with_reducible apply ackNote_keeps
    | split
    | dsimp only
    | intro _

/-- The state that the start of a message hands on. -/
def KeepsRx (σ : State) (o : Option (Except (State × Nat) (State × RxMsg))) : Prop :=
  match o with
  | none => True
  | some (.error (s, _)) => Keeps σ s
  | some (.ok (s, _)) => Keeps σ s

theorem KeepsRx.none {σ : State} : KeepsRx σ none := trivial
theorem KeepsRx.err {σ s : State} {x : Nat} (h : Keeps σ s) : KeepsRx σ (some (.error (s, x))) := h
theorem KeepsRx.ok {σ s : State} {x : RxMsg} (h : Keeps σ s) : KeepsRx σ (some (.ok (s, x))) := h
theorem KeepsRx.use_err {σ s : State} {x : Nat} {o : Option (Except (State × Nat) (State × RxMsg))} (h : KeepsRx σ o)
    (e : o = some (.error (s, x))) : Keeps σ s := by subst e; exact h
theorem KeepsRx.use_ok {σ s : State} {x : RxMsg} {o : Option (Except (State × Nat) (State × RxMsg))} (h : KeepsRx σ o)
    (e : o = some (.ok (s, x))) : Keeps σ s := by subst e; exact h

theorem rxOpen_keeps {σ : State} {s : State} {i : Nat} {m : RxMsg} (hk : Keeps σ s) :
    KeepsRx σ (rxOpen s i m) := by
  unfold rxOpen
  repeat' first
    | with_reducible assumption
    | exact KeepsRx.none
    | with_reducible apply KeepsRx.err
    | with_reducible apply KeepsRx.ok
    | with_reducible apply itpRingPop_keeps
    | with_reducible apply regionCount_keeps
    | with_reducible apply inflightUp_keeps
    | with_reducible apply stageTake_keeps
    | refine KeepsRx.use_err ?_ (by with_reducible assumption)
    | refine KeepsRx.use_ok ?_ (by with_reducible assumption)
    | refine KeepsOptP.use ?_ (by with_reducible assumption)
    | simp only [Keeps.lit_iff]
    | with_reducible refine Keeps.ite ?_ ?_
    | split
    | dsimp only
    | intro _

theorem rxPlace_keeps {σ : State} {s : State} {i port : Nat} {m : RxMsg} {k : Pk} (hk : Keeps σ s) :
    Keeps σ (rxPlace s i port m k) := by
  unfold rxPlace
  repeat' first
    | with_reducible assumption
    | with_reducible apply State.putBytes_keeps
    | with_reducible apply fetchSegment_keeps
    | with_reducible apply State.setConn_keeps
    | with_reducible apply rxTaken_keeps
    | simp only [Keeps.lit_iff]
    | split
    | dsimp only
    | intro _

theorem rxSeq_keeps {σ : State} {s : State} {i port : Nat} {k : Pk} (hk : Keeps σ s) :
    Keeps σ (rxSeq s i port k) := by
  unfold rxSeq
  repeat' first
    | with_reducible assumption
    | with_reducible apply ackNow_keeps
    | with_reducible apply State.count_keeps
    | with_reducible apply rxTaken_keeps
    | with_reducible apply rxFail_keeps
    | with_reducible apply refuse_keeps
    | with_reducible apply rxPlace_keeps
    | with_reducible apply ackTurn_keeps
    | with_reducible apply ackNote_keeps
    | with_reducible apply rxOpen_keeps
    | with_reducible apply event0_keeps
    | refine KeepsRx.use_err ?_ (by with_reducible assumption)
    | refine KeepsRx.use_ok ?_ (by with_reducible assumption)
    | simp only [Keeps.lit_iff]
    | with_reducible refine Keeps.ite ?_ ?_
    | split
    | dsimp only
    | intro _

theorem txSettle_keeps {σ : State} {s : State} {i : Nat} (hk : Keeps σ s) :
    Keeps σ (txSettle s i) := by
  unfold txSettle
  repeat' first
    | with_reducible assumption
    | with_reducible apply Keeps.foldl
    | with_reducible apply KeepsPair.foldl
    | with_reducible apply txEnd_keeps
    | with_reducible apply State.setConn_keeps
    | simp only [Keeps.lit_iff]
    | split
    | dsimp only
    | intro _

theorem retransmit_keeps {σ : State} {s : State} {i psn : Nat} (hk : Keeps σ s) :
    Keeps σ (retransmit s i psn) := by
  unfold retransmit
  repeat' first
    | with_reducible assumption
    | with_reducible apply connError_keeps
    | with_reducible apply State.setConn_keeps
    | with_reducible apply chargeStrike_keeps
    | simp only [Keeps.lit_iff]
    | with_reducible refine Keeps.ite ?_ ?_
    | split
    | dsimp only
    | intro _

theorem rxAck_keeps {σ : State} {s : State} {i : Nat} {ext : List Nat} (hk : Keeps σ s) :
    Keeps σ (rxAck s i ext) := by
  unfold rxAck
  repeat' first
    | with_reducible assumption
    | with_reducible apply Keeps.foldl
    | with_reducible apply KeepsPair.foldl
    | with_reducible apply State.count_keeps
    | with_reducible apply State.setConn_keeps
    | with_reducible apply clearStrikes_keeps
    | with_reducible apply txSettle_keeps
    | with_reducible apply retransmit_keeps
    | simp only [Keeps.lit_iff]
    | with_reducible refine Keeps.ite ?_ ?_
    | split
    | dsimp only
    | intro _

theorem rxNak_keeps {σ : State} {s : State} {i : Nat} {ext : List Nat} (hk : Keeps σ s) :
    Keeps σ (rxNak s i ext) := by
  unfold rxNak
  repeat' first
    | with_reducible assumption
    | with_reducible apply txEnd_keeps
    | with_reducible apply State.setConn_keeps
    | simp only [Keeps.lit_iff]
    | with_reducible refine Keeps.ite ?_ ?_
    | split
    | dsimp only
    | intro _

theorem rxHello_keeps {σ : State} {s : State} {i : Nat} {ext : List Nat} (hk : Keeps σ s) :
    Keeps σ (rxHello s i ext) := by
  unfold rxHello
  repeat' first
    | with_reducible assumption
    | with_reducible apply State.count_keeps
    | with_reducible apply queueCtl_keeps
    | with_reducible apply healPath_keeps
    | with_reducible apply setPeerFlag_keeps
    | with_reducible apply putPeer_keeps
    | with_reducible apply event0_keeps
    | simp only [Keeps.lit_iff]
    | with_reducible refine Keeps.ite ?_ ?_
    | split
    | dsimp only
    | intro _

theorem police_keeps {σ : State} {s : State} {i u : Nat} (hk : Keeps σ s) :
    KeepsPair σ (police s i u) := by
  unfold police
  repeat' first
    | with_reducible assumption
    | with_reducible apply State.putLE_keeps
    | with_reducible apply event0_keeps
    | with_reducible apply State.count_keeps
    | refine KeepsPair.use ?_ (by with_reducible assumption)
    | with_reducible apply KeepsPair.fst
    | simp only [KeepsPair.mk_iff]
    | with_reducible refine Keeps.ite ?_ ?_
    | split
    | dsimp only
    | intro _

theorem keyEpochDrop_keeps {σ : State} {s : State} {i : Nat} (hk : Keeps σ s) :
    Keeps σ (keyEpochDrop s i) := by
  unfold keyEpochDrop
  repeat' first
    | with_reducible assumption
    | with_reducible apply event_keeps
    | with_reducible apply State.count_keeps
    | with_reducible apply queueCtl_keeps
    | with_reducible apply State.setConn_keeps
    | simp only [Keeps.lit_iff]
    | with_reducible refine Keeps.ite ?_ ?_
    | split
    | dsimp only
    | intro _

theorem txSwitch_keeps {σ : State} {s : State} {i : Nat} (hk : Keeps σ s) :
    Keeps σ (txSwitch s i) := by
  unfold txSwitch
  repeat' first
    | with_reducible assumption
    | with_reducible apply State.setConn_keeps
    | simp only [Keeps.lit_iff]
    | split
    | dsimp only
    | intro _

theorem receive_keeps {σ : State} {only : Nat → Bool} {p : Packet} {s : State} (hk : Keeps σ s) :
    Keeps σ (receive only p s) := by
  unfold receive
  repeat' first
    | with_reducible assumption
    | with_reducible apply State.count_keeps
    | with_reducible apply police_keeps
    | with_reducible apply keyEpochDrop_keeps
    | with_reducible apply State.setKeySlot_keeps
    | with_reducible apply State.setConn_keeps
    | with_reducible apply txSwitch_keeps
    | with_reducible apply rxAck_keeps
    | with_reducible apply rxNak_keeps
    | with_reducible apply rxHello_keeps
    | with_reducible apply rxSeq_keeps
    | refine KeepsPair.use ?_ (by with_reducible assumption)
    | with_reducible apply KeepsPair.fst
    | simp only [KeepsPair.mk_iff]
    | simp only [Keeps.lit_iff]
    | with_reducible refine Keeps.ite ?_ ?_
    | split
    | dsimp only
    | intro _

theorem execItpPacketReceive_keeps {σ : State} {p : Packet} {s : State} (hk : Keeps σ s) :
    KeepsOut σ (execItpPacketReceive p s) := by
  unfold execItpPacketReceive
  repeat' first
    | with_reducible assumption
    | with_reducible apply KeepsOut.next
    | with_reducible apply receive_keeps
    | refine KeepsOut.use ?_ (by with_reducible assumption)
    | split
    | dsimp only
    | intro _

theorem execAck_keeps {σ : State} {p : Packet} {s : State} (hk : Keeps σ s) :
    KeepsOut σ (execAck p s) := by
  unfold execAck
  repeat' first
    | with_reducible assumption
    | with_reducible apply KeepsOut.next
    | with_reducible apply receive_keeps
    | refine KeepsOut.use ?_ (by with_reducible assumption)
    | split
    | dsimp only
    | intro _

theorem execNak_keeps {σ : State} {p : Packet} {s : State} (hk : Keeps σ s) :
    KeepsOut σ (execNak p s) := by
  unfold execNak
  repeat' first
    | with_reducible assumption
    | with_reducible apply KeepsOut.next
    | with_reducible apply receive_keeps
    | refine KeepsOut.use ?_ (by with_reducible assumption)
    | split
    | dsimp only
    | intro _

theorem execHello_keeps {σ : State} {p : Packet} {s : State} (hk : Keeps σ s) :
    KeepsOut σ (execHello p s) := by
  unfold execHello
  repeat' first
    | with_reducible assumption
    | with_reducible apply KeepsOut.next
    | with_reducible apply receive_keeps
    | refine KeepsOut.use ?_ (by with_reducible assumption)
    | split
    | dsimp only
    | intro _

theorem execItpSend_keeps {σ : State} {p : Packet} {s : State} (hk : Keeps σ s) :
    KeepsOut σ (execItpSend p s) := by
  unfold execItpSend
  repeat' first
    | with_reducible assumption
    | with_reducible apply KeepsOut.next
    | with_reducible apply receive_keeps
    | refine KeepsOut.use ?_ (by with_reducible assumption)
    | split
    | dsimp only
    | intro _

theorem execItpWrite_keeps {σ : State} {p : Packet} {s : State} (hk : Keeps σ s) :
    KeepsOut σ (execItpWrite p s) := by
  unfold execItpWrite
  repeat' first
    | with_reducible assumption
    | with_reducible apply KeepsOut.next
    | with_reducible apply receive_keeps
    | refine KeepsOut.use ?_ (by with_reducible assumption)
    | split
    | dsimp only
    | intro _

theorem execReadReq_keeps {σ : State} {p : Packet} {s : State} (hk : Keeps σ s) :
    KeepsOut σ (execReadReq p s) := by
  unfold execReadReq
  repeat' first
    | with_reducible assumption
    | with_reducible apply KeepsOut.next
    | with_reducible apply receive_keeps
    | refine KeepsOut.use ?_ (by with_reducible assumption)
    | split
    | dsimp only
    | intro _

theorem execReadResp_keeps {σ : State} {p : Packet} {s : State} (hk : Keeps σ s) :
    KeepsOut σ (execReadResp p s) := by
  unfold execReadResp
  repeat' first
    | with_reducible assumption
    | with_reducible apply KeepsOut.next
    | with_reducible apply receive_keeps
    | refine KeepsOut.use ?_ (by with_reducible assumption)
    | split
    | dsimp only
    | intro _

theorem execRetransmitTimeout_keeps {σ : State} {i psn : Nat} {s : State} (hk : Keeps σ s) :
    KeepsOut σ (execRetransmitTimeout i psn s) := by
  unfold execRetransmitTimeout
  repeat' first
    | with_reducible assumption
    | with_reducible apply KeepsOut.next
    | with_reducible apply reachUp_keeps
    | with_reducible apply retransmit_keeps
    | with_reducible apply KeepsOpt.getD
    | with_reducible apply KeepsOpt.orElse
    | refine KeepsOpt.use ?_ (by with_reducible assumption)
    | refine KeepsOut.use ?_ (by with_reducible assumption)
    | with_reducible refine Keeps.ite ?_ ?_
    | split
    | dsimp only
    | intro _

theorem execMessageTimeout_keeps {σ : State} {i msn : Nat} {s : State} (hk : Keeps σ s) :
    KeepsOut σ (execMessageTimeout i msn s) := by
  unfold execMessageTimeout
  repeat' first
    | with_reducible assumption
    | with_reducible apply KeepsOut.next
    | with_reducible apply connError_keeps
    | refine KeepsOut.use ?_ (by with_reducible assumption)
    | with_reducible refine Keeps.ite ?_ ?_
    | split
    | dsimp only
    | intro _

theorem execCcPeriodEnd_keeps {σ : State} {i : Nat} {s : State} (hk : Keeps σ s) :
    KeepsOut σ (execCcPeriodEnd i s) := by
  unfold execCcPeriodEnd
  repeat' first
    | with_reducible assumption
    | with_reducible apply KeepsOut.next
    | with_reducible apply reachUp_keeps
    | with_reducible apply State.setConn_keeps
    | with_reducible apply KeepsOpt.getD
    | with_reducible apply KeepsOpt.orElse
    | refine KeepsOpt.use ?_ (by with_reducible assumption)
    | refine KeepsOut.use ?_ (by with_reducible assumption)
    | simp only [Keeps.lit_iff]
    | with_reducible refine Keeps.ite ?_ ?_
    | split
    | dsimp only
    | intro _

theorem State.setJob_keeps {σ : State} {s : State} {k : Nat} {j : JobSlot} (hk : Keeps σ s) :
    Keeps σ (State.setJob s k j) := by
  unfold State.setJob
  repeat' first
    | with_reducible assumption
    | simp only [Keeps.lit_iff]
    | split
    | dsimp only
    | intro _

theorem deriveAsk_keeps {σ : State} {s : State} {i epoch : Nat} {opens : Bool} (hk : Keeps σ s) :
    Keeps σ (deriveAsk s i epoch opens) := by
  unfold deriveAsk
  repeat' first
    | with_reducible assumption
    | with_reducible apply State.setFld_keeps
    | simp only [Keeps.lit_iff]
    | split
    | dsimp only
    | intro _

theorem execConnOpen_keeps {σ : State} {i : Nat} {s : State} (hk : Keeps σ s) :
    KeepsOut σ (execConnOpen i s) := by
  unfold execConnOpen
  repeat' first
    | with_reducible assumption
    | with_reducible apply KeepsOut.next
    | with_reducible apply cmdStat_keeps
    | with_reducible apply deriveAsk_keeps
    | with_reducible apply State.setConn_keeps
    | refine KeepsOut.use ?_ (by with_reducible assumption)
    | simp only [Keeps.lit_iff]
    | with_reducible refine Keeps.ite ?_ ?_
    | split
    | dsimp only
    | intro _

theorem connStart_keeps {σ : State} {s : State} {i : Nat} (hk : Keeps σ s) :
    Keeps σ (connStart s i) := by
  unfold connStart
  repeat' first
    | with_reducible assumption
    | with_reducible apply State.setConn_keeps
    | with_reducible apply State.putLE_keeps
    | with_reducible apply cmdStat_keeps
    | with_reducible refine Keeps.ite ?_ ?_
    | split
    | dsimp only
    | intro _

theorem connClose_keeps {σ : State} {s : State} {i : Nat} (hk : Keeps σ s) :
    Keeps σ (connClose s i) := by
  unfold connClose
  repeat' first
    | with_reducible assumption
    | with_reducible apply connLeave_keeps
    | with_reducible apply State.setConn_keeps
    | with_reducible apply keyEmpty_keeps
    | simp only [Keeps.lit_iff]
    | split
    | dsimp only
    | intro _

theorem execConnClose_keeps {σ : State} {i : Nat} {s : State} (hk : Keeps σ s) :
    KeepsOut σ (execConnClose i s) := by
  unfold execConnClose
  repeat' first
    | with_reducible assumption
    | with_reducible apply KeepsOut.next
    | with_reducible apply cmdStat_keeps
    | with_reducible apply connClose_keeps
    | refine KeepsOut.use ?_ (by with_reducible assumption)
    | with_reducible refine Keeps.ite ?_ ?_
    | split
    | dsimp only
    | intro _

theorem wqServe_keeps {σ : State} {s : State} {q : Nat} {w : Wqe} (hk : Keeps σ s) :
    Keeps σ (wqServe s q w) := by
  unfold wqServe
  repeat' first
    | with_reducible assumption
    | with_reducible apply itpRingPop_keeps
    | with_reducible apply cqWrite_keeps
    | with_reducible apply queueMsg_keeps
    | with_reducible apply sendRead_keeps
    | with_reducible refine Keeps.ite ?_ ?_
    | split
    | dsimp only
    | intro _

theorem wqRun_keeps {σ : State} {s : State} {q : Nat} {mine : Nat → Bool} (hk : Keeps σ s) :
    Keeps σ (wqRun s q mine) := by
  unfold wqRun
  repeat' first
    | with_reducible assumption
    | with_reducible apply wqServe_keeps
    | with_reducible refine Keeps.ite ?_ ?_
    | split
    | dsimp only
    | intro _

theorem execWrSend_keeps {σ : State} {q : Nat} {s : State} (hk : Keeps σ s) :
    KeepsOut σ (execWrSend q s) := by
  unfold execWrSend
  repeat' first
    | with_reducible assumption
    | with_reducible apply KeepsOut.next
    | with_reducible apply wqRun_keeps
    | refine KeepsOut.use ?_ (by with_reducible assumption)
    | split
    | dsimp only
    | intro _

theorem execWrWrite_keeps {σ : State} {q : Nat} {s : State} (hk : Keeps σ s) :
    KeepsOut σ (execWrWrite q s) := by
  unfold execWrWrite
  repeat' first
    | with_reducible assumption
    | with_reducible apply KeepsOut.next
    | with_reducible apply wqRun_keeps
    | refine KeepsOut.use ?_ (by with_reducible assumption)
    | split
    | dsimp only
    | intro _

theorem execWrRead_keeps {σ : State} {q : Nat} {s : State} (hk : Keeps σ s) :
    KeepsOut σ (execWrRead q s) := by
  unfold execWrRead
  repeat' first
    | with_reducible assumption
    | with_reducible apply KeepsOut.next
    | with_reducible apply wqRun_keeps
    | refine KeepsOut.use ?_ (by with_reducible assumption)
    | split
    | dsimp only
    | intro _

theorem execWrMsg_keeps {σ : State} {q : Nat} {s : State} (hk : Keeps σ s) :
    KeepsOut σ (execWrMsg q s) := by
  unfold execWrMsg
  repeat' first
    | with_reducible assumption
    | with_reducible apply KeepsOut.next
    | with_reducible apply wqRun_keeps
    | refine KeepsOut.use ?_ (by with_reducible assumption)
    | split
    | dsimp only
    | intro _

theorem execTriggerStart_keeps {σ : State} {s : State} (hk : Keeps σ s) :
    KeepsOut σ (execTriggerStart s) := by
  unfold execTriggerStart
  repeat' first
    | with_reducible assumption
    | with_reducible apply KeepsOut.next
    | with_reducible apply Keeps.foldl
    | with_reducible apply KeepsPair.foldl
    | with_reducible apply wqServe_keeps
    | refine KeepsOut.use ?_ (by with_reducible assumption)
    | with_reducible refine Keeps.ite ?_ ?_
    | split
    | dsimp only
    | intro _

end Sys2Proof.Machine
end

