-- ==== Sys2Proof/Laws/KeepsEgress.lean ====
section
/-!
SUPPORT. What the operations of Machine/Egress.lean keep (`Keeps`), one lemma each.
-/

namespace Sys2Proof.Machine

theorem State.setPort_keeps {σ : State} {s : State} {p : Nat} {v : Port} (hk : Keeps σ s) :
    Keeps σ (State.setPort s p v) := by
  unfold State.setPort
  repeat' first
    | with_reducible assumption
    | simp only [Keeps.lit_iff]
    | split
    | dsimp only
    | intro _

theorem egOffer_keeps {σ : State} {s : State} {port c g : Nat} {f : EgFrame} (hk : Keeps σ s) :
    KeepsPair σ (egOffer s port c g f) := by
  unfold egOffer
  repeat' first
    | with_reducible assumption
    | with_reducible apply Keeps.foldl
    | with_reducible apply KeepsPair.foldl
    | with_reducible apply State.setPort_keeps
    | with_reducible apply State.count_keeps
    | refine KeepsPair.use ?_ (by with_reducible assumption)
    | with_reducible apply KeepsPair.fst
    | simp only [KeepsPair.mk_iff]
    | simp only [Keeps.lit_iff]
    | with_reducible refine Keeps.ite ?_ ?_
    | split
    | dsimp only
    | intro _

theorem useCtr_keeps {σ : State} {s : State} {i slot : Nat} (hk : Keeps σ s) :
    Keeps σ (useCtr s i slot) := by
  unfold useCtr
  repeat' first
    | with_reducible assumption
    | with_reducible apply State.setKeySlot_keeps
    | with_reducible apply event_keeps
    | simp only [Keeps.lit_iff]
    | with_reducible refine Keeps.ite ?_ ?_
    | split
    | dsimp only
    | intro _

theorem pathDrop_keeps {σ : State} {s : State} {i : Nat} {psn : Option Nat} (hk : Keeps σ s) :
    Keeps σ (pathDrop s i psn) := by
  unfold pathDrop
  repeat' first
    | with_reducible assumption
    | with_reducible apply State.count_keeps
    | with_reducible apply State.setConn_keeps
    | simp only [Keeps.lit_iff]
    | with_reducible refine Keeps.ite ?_ ?_
    | split
    | dsimp only
    | intro _

theorem offerCtl_keeps {σ : State} {s : State} {i slot : Nat} {x : Ctl} (hk : Keeps σ s) :
    Keeps σ (offerCtl s i slot x) := by
  unfold offerCtl
  repeat' first
    | with_reducible assumption
    | with_reducible apply pathDrop_keeps
    | with_reducible apply egOffer_keeps
    | with_reducible apply State.draw_keeps
    | with_reducible apply useCtr_keeps
    | with_reducible apply State.setConn_keeps
    | refine KeepsPair.use ?_ (by with_reducible assumption)
    | with_reducible apply KeepsPair.fst
    | simp only [KeepsPair.mk_iff]
    | simp only [Keeps.lit_iff]
    | with_reducible refine Keeps.ite ?_ ?_
    | split
    | dsimp only
    | intro _

theorem offerPkt_keeps {σ : State} {s : State} {i slot : Nat} {p : TxPkt} {m : TxMsg} (hk : Keeps σ s) :
    Keeps σ (offerPkt s i slot p m) := by
  unfold offerPkt
  repeat' first
    | with_reducible assumption
    | with_reducible apply pathDrop_keeps
    | with_reducible apply egOffer_keeps
    | with_reducible apply State.draw_keeps
    | with_reducible apply useCtr_keeps
    | with_reducible apply State.setConn_keeps
    | refine KeepsPair.use ?_ (by with_reducible assumption)
    | with_reducible apply KeepsPair.fst
    | simp only [KeepsPair.mk_iff]
    | simp only [Keeps.lit_iff]
    | with_reducible refine Keeps.ite ?_ ?_
    | split
    | dsimp only
    | intro _

theorem offerRing_keeps {σ : State} {s : State} (hk : Keeps σ s) :
    Keeps σ (offerRing s) := by
  unfold offerRing
  repeat' first
    | with_reducible assumption
    | with_reducible apply egOffer_keeps
    | refine KeepsPair.use ?_ (by with_reducible assumption)
    | with_reducible apply KeepsPair.fst
    | simp only [KeepsPair.mk_iff]
    | simp only [Keeps.lit_iff]
    | with_reducible refine Keeps.ite ?_ ?_
    | split
    | dsimp only
    | intro _

theorem execEgressEnqueue_keeps {σ : State} {src : Nat} {s : State} (hk : Keeps σ s) :
    KeepsOut σ (execEgressEnqueue src s) := by
  unfold execEgressEnqueue
  repeat' first
    | with_reducible assumption
    | with_reducible apply KeepsOut.next
    | with_reducible apply offerRing_keeps
    | with_reducible apply offerCtl_keeps
    | with_reducible apply offerPkt_keeps
    | refine KeepsOut.use ?_ (by with_reducible assumption)
    | with_reducible refine Keeps.ite ?_ ?_
    | split
    | dsimp only
    | intro _

theorem gatesRefuse_keeps {σ : State} {old s : State} {n k : Nat} (hk : Keeps σ s) :
    Keeps σ (gatesRefuse old s n k) := by
  unfold gatesRefuse
  repeat' first
    | with_reducible assumption
    | with_reducible apply Keeps.foldl
    | with_reducible apply KeepsPair.foldl
    | with_reducible apply State.setRg_keeps
    | with_reducible apply State.setFld_keeps
    | with_reducible apply event_keeps
    | with_reducible apply State.count_keeps
    | with_reducible refine Keeps.ite ?_ ?_
    | split
    | dsimp only
    | intro _

theorem gatesApply_keeps {σ : State} {old s : State} {n k : Nat} (hk : Keeps σ s) :
    Keeps σ (gatesApply old s n k) := by
  unfold gatesApply
  repeat' first
    | with_reducible assumption
    | with_reducible apply gatesRefuse_keeps
    | with_reducible refine Keeps.ite ?_ ?_
    | split
    | dsimp only
    | intro _

theorem packetSent_keeps {σ : State} {s : State} {f : EgFrame} (hk : Keeps σ s) :
    Keeps σ (packetSent s f) := by
  unfold packetSent
  repeat' first
    | with_reducible assumption
    | with_reducible apply State.count_keeps
    | with_reducible apply State.setConn_keeps
    | simp only [Keeps.lit_iff]
    | with_reducible refine Keeps.ite ?_ ?_
    | split
    | dsimp only
    | intro _

theorem startFrame_keeps {σ : State} {s : State} {port q : Nat} {p : Port} (hk : Keeps σ s) :
    Keeps σ (startFrame s port q p) := by
  unfold startFrame
  repeat' first
    | with_reducible assumption
    | with_reducible apply turn_keeps
    | with_reducible apply packetSent_keeps
    | with_reducible apply State.setPort_keeps
    | refine KeepsPair.use ?_ (by with_reducible assumption)
    | with_reducible apply KeepsPair.fst
    | simp only [KeepsPair.mk_iff]
    | simp only [Keeps.lit_iff]
    | with_reducible refine Keeps.ite ?_ ?_
    | split
    | dsimp only
    | intro _

theorem spoilFcs_keeps {σ : State} {s : State} {port : Nat} (hk : Keeps σ s) :
    Keeps σ (spoilFcs s port) := by
  unfold spoilFcs
  repeat' first
    | with_reducible assumption
    | with_reducible apply State.setPort_keeps
    | simp only [Keeps.lit_iff]
    | split
    | dsimp only
    | intro _

theorem execTransmitDecision_keeps {σ : State} {port : Nat} {bad : Bool} {s : State} (hk : Keeps σ s) :
    KeepsOut σ (execTransmitDecision port bad s) := by
  unfold execTransmitDecision
  repeat' first
    | with_reducible assumption
    | with_reducible apply KeepsOut.next
    | with_reducible apply startFrame_keeps
    | with_reducible apply fault_keeps
    | with_reducible apply spoilFcs_keeps
    | with_reducible apply State.count_keeps
    | refine KeepsOut.use ?_ (by with_reducible assumption)
    | with_reducible refine Keeps.ite ?_ ?_
    | split
    | dsimp only
    | intro _

theorem execFrameTxEnd_keeps {σ : State} {port : Nat} {s : State} (hk : Keeps σ s) :
    KeepsOut σ (execFrameTxEnd port s) := by
  unfold execFrameTxEnd
  repeat' first
    | with_reducible assumption
    | with_reducible apply KeepsOut.next
    | with_reducible apply reachUp_keeps
    | with_reducible apply State.setPort_keeps
    | with_reducible apply State.count_keeps
    | with_reducible apply KeepsOpt.getD
    | with_reducible apply KeepsOpt.orElse
    | refine KeepsOpt.use ?_ (by with_reducible assumption)
    | refine KeepsOut.use ?_ (by with_reducible assumption)
    | simp only [Keeps.lit_iff]
    | with_reducible refine Keeps.ite ?_ ?_
    | split
    | dsimp only
    | intro _

theorem overrun_keeps {σ : State} {s : State} {port old new : Nat} (hk : Keeps σ s) :
    Keeps σ (overrun s port old new) := by
  unfold overrun
  repeat' first
    | with_reducible assumption
    | with_reducible apply event_keeps
    | with_reducible apply State.count_keeps
    | with_reducible refine Keeps.ite ?_ ?_
    | split
    | dsimp only
    | intro _

theorem execGateEdge_keeps {σ : State} {port : Nat} {s : State} (hk : Keeps σ s) :
    KeepsOut σ (execGateEdge port s) := by
  unfold execGateEdge
  repeat' first
    | with_reducible assumption
    | with_reducible apply KeepsOut.next
    | with_reducible apply overrun_keeps
    | with_reducible apply State.ccTo_keeps
    | refine KeepsOut.use ?_ (by with_reducible assumption)
    | with_reducible refine Keeps.ite ?_ ?_
    | split
    | dsimp only
    | intro _

theorem telEntry_keeps {σ : State} {n : Nat} {s : State} {e : Nat} (hk : Keeps σ s) :
    Keeps σ (telEntry n s e) := by
  unfold telEntry
  repeat' first
    | with_reducible assumption
    | with_reducible apply event0_keeps
    | with_reducible apply State.count_keeps
    | simp only [Keeps.lit_iff]
    | with_reducible refine Keeps.ite ?_ ?_
    | split
    | dsimp only
    | intro _

theorem execTelemetrySample_keeps {σ : State} {n : Nat} {s : State} (hk : Keeps σ s) :
    KeepsOut σ (execTelemetrySample n s) := by
  unfold execTelemetrySample
  repeat' first
    | with_reducible assumption
    | with_reducible apply KeepsOut.next
    | with_reducible apply Keeps.foldl
    | with_reducible apply KeepsPair.foldl
    | with_reducible apply State.ccTo_keeps
    | with_reducible apply telEntry_keeps
    | refine KeepsOut.use ?_ (by with_reducible assumption)
    | simp only [Keeps.lit_iff]
    | with_reducible refine Keeps.ite ?_ ?_
    | split
    | dsimp only
    | intro _

end Sys2Proof.Machine
end

