-- ==== Sys2Proof/Laws/KeepsFabric.lean ====
section
/-!
SUPPORT. What the operations of Machine/Fabric.lean keep (`Keeps`), one lemma each.
-/

namespace Sys2Proof.Machine

theorem pathPorts_keeps {σ : State} {s : State} (hk : Keeps σ s) :
    Keeps σ (pathPorts s) := by
  unfold pathPorts
  repeat' first
    | with_reducible assumption
    | with_reducible apply Keeps.foldl
    | with_reducible apply KeepsPair.foldl
    | with_reducible apply healPath_keeps
    | with_reducible apply setPathWord_keeps
    | with_reducible apply noPathCheck_keeps
    | simp only [Keeps.lit_iff]
    | with_reducible refine Keeps.ite ?_ ?_
    | split
    | dsimp only
    | intro _

theorem probeSend_keeps {σ : State} {s : State} {node i : Nat} (hk : Keeps σ s) :
    Keeps σ (probeSend s node i) := by
  unfold probeSend
  repeat' first
    | with_reducible assumption
    | with_reducible apply queueCtl_keeps
    | simp only [Keeps.lit_iff]
    | with_reducible refine Keeps.ite ?_ ?_
    | split
    | dsimp only
    | intro _

theorem probePeer_keeps {σ : State} {s : State} {node : Nat} (hk : Keeps σ s) :
    Keeps σ (probePeer s node) := by
  unfold probePeer
  repeat' first
    | with_reducible assumption
    | with_reducible apply Keeps.foldl
    | with_reducible apply KeepsPair.foldl
    | with_reducible apply probeSend_keeps
    | with_reducible apply suspect_keeps
    | simp only [Keeps.lit_iff]
    | with_reducible refine Keeps.ite ?_ ?_
    | split
    | dsimp only
    | intro _

theorem execHelloProbePeriod_keeps {σ : State} {s : State} (hk : Keeps σ s) :
    KeepsOut σ (execHelloProbePeriod s) := by
  unfold execHelloProbePeriod
  repeat' first
    | with_reducible assumption
    | with_reducible apply KeepsOut.next
    | with_reducible apply Keeps.foldl
    | with_reducible apply KeepsPair.foldl
    | with_reducible apply probePeer_keeps
    | refine KeepsOut.use ?_ (by with_reducible assumption)
    | simp only [Keeps.lit_iff]
    | with_reducible refine Keeps.ite ?_ ?_
    | split
    | dsimp only
    | intro _

theorem flipReport_keeps {σ : State} {s : State} (hk : Keeps σ s) :
    Keeps σ (flipReport s) := by
  unfold flipReport
  repeat' first
    | with_reducible assumption
    | with_reducible apply event_keeps
    | split
    | dsimp only
    | intro _

theorem flipLost_keeps {σ : State} {old : Nat → Nat} {s : State} (hk : Keeps σ s) :
    Keeps σ (flipLost old s) := by
  unfold flipLost
  repeat' first
    | with_reducible assumption
    | with_reducible apply Keeps.foldl
    | with_reducible apply KeepsPair.foldl
    | with_reducible apply loseContext_keeps
    | with_reducible apply suspect_keeps
    | with_reducible apply event_keeps
    | with_reducible refine Keeps.ite ?_ ?_
    | split
    | dsimp only
    | intro _

theorem flip_keeps {σ : State} {s : State} {v : Nat} (hk : Keeps σ s) :
    Keeps σ (flip s v) := by
  unfold flip
  repeat' first
    | with_reducible assumption
    | with_reducible apply event0_keeps
    | with_reducible apply State.count_keeps
    | with_reducible apply State.setRg_keeps
    | with_reducible apply flipLost_keeps
    | with_reducible apply flipReport_keeps
    | simp only [Keeps.lit_iff]
    | with_reducible refine Keeps.ite ?_ ?_
    | split
    | dsimp only
    | intro _

theorem flipDismiss_keeps {σ : State} {s : State} (hk : Keeps σ s) :
    Keeps σ (flipDismiss s) := by
  unfold flipDismiss
  repeat' first
    | with_reducible assumption
    | with_reducible apply dismissWhere_keeps
    | simp only [Keeps.lit_iff]
    | with_reducible refine Keeps.ite ?_ ?_
    | split
    | dsimp only
    | intro _

theorem flipApply_keeps {σ : State} {s : State} (hk : Keeps σ s) :
    Keeps σ (flipApply s) := by
  unfold flipApply
  repeat' first
    | with_reducible assumption
    | with_reducible apply flip_keeps
    | with_reducible apply State.setRg_keeps
    | simp only [Keeps.lit_iff]
    | with_reducible refine Keeps.ite ?_ ?_
    | split
    | dsimp only
    | intro _

theorem execFabEpochNextWrite_keeps {σ : State} {value : Nat} {s : State} (hk : Keeps σ s) :
    KeepsOut σ (execFabEpochNextWrite value s) := by
  unfold execFabEpochNextWrite
  repeat' first
    | with_reducible assumption
    | with_reducible apply KeepsOut.next
    | with_reducible apply event0_keeps
    | with_reducible apply State.count_keeps
    | with_reducible apply flipDismiss_keeps
    | with_reducible apply flipApply_keeps
    | refine KeepsOut.use ?_ (by with_reducible assumption)
    | simp only [Keeps.lit_iff]
    | with_reducible refine Keeps.ite ?_ ?_
    | split
    | dsimp only
    | intro _

theorem snapStart_keeps {σ : State} {s : State} {slot : Nat} (hk : Keeps σ s) :
    Keeps σ (snapStart s slot) := by
  unfold snapStart
  repeat' first
    | with_reducible assumption
    | with_reducible apply setMst_keeps
    | with_reducible apply dropSnap_keeps
    | with_reducible apply State.setRg_keeps
    | simp only [Keeps.lit_iff]
    | split
    | dsimp only
    | intro _

theorem mcmd_keeps {σ : State} {s : State} {slot gen op : Nat} (hk : Keeps σ s) :
    Keeps σ (mcmd s slot gen op) := by
  unfold mcmd
  repeat' first
    | with_reducible assumption
    | with_reducible apply snapStart_keeps
    | with_reducible apply setMst_keeps
    | with_reducible apply dropSnap_keeps
    | with_reducible apply mirrorEnd_keeps
    | with_reducible apply dismissWhere_keeps
    | with_reducible refine Keeps.ite ?_ ?_
    | split
    | dsimp only
    | intro _

theorem mcmdApply_keeps {σ : State} {s : State} (hk : Keeps σ s) :
    Keeps σ (mcmdApply s) := by
  unfold mcmdApply
  repeat' first
    | with_reducible assumption
    | with_reducible apply State.setRg_keeps
    | with_reducible apply mcmd_keeps
    | simp only [Keeps.lit_iff]
    | with_reducible refine Keeps.ite ?_ ?_
    | split
    | dsimp only
    | intro _

theorem mcmdWrite_keeps {σ : State} {slot gen op : Nat} {s : State} (hk : Keeps σ s) :
    Keeps σ (mcmdWrite slot gen op s) := by
  unfold mcmdWrite
  repeat' first
    | with_reducible assumption
    | with_reducible apply mcmdApply_keeps
    | simp only [Keeps.lit_iff]
    | with_reducible refine Keeps.ite ?_ ?_
    | split
    | dsimp only
    | intro _

theorem execSnap_keeps {σ : State} {slot gen : Nat} {s : State} (hk : Keeps σ s) :
    KeepsOut σ (execSnap slot gen s) := by
  unfold execSnap
  repeat' first
    | with_reducible assumption
    | with_reducible apply KeepsOut.next
    | with_reducible apply mcmdWrite_keeps
    | refine KeepsOut.use ?_ (by with_reducible assumption)
    | split
    | dsimp only
    | intro _

theorem execSync_keeps {σ : State} {slot gen : Nat} {s : State} (hk : Keeps σ s) :
    KeepsOut σ (execSync slot gen s) := by
  unfold execSync
  repeat' first
    | with_reducible assumption
    | with_reducible apply KeepsOut.next
    | with_reducible apply mcmdWrite_keeps
    | refine KeepsOut.use ?_ (by with_reducible assumption)
    | split
    | dsimp only
    | intro _

theorem execBreak_keeps {σ : State} {slot gen : Nat} {s : State} (hk : Keeps σ s) :
    KeepsOut σ (execBreak slot gen s) := by
  unfold execBreak
  repeat' first
    | with_reducible assumption
    | with_reducible apply KeepsOut.next
    | with_reducible apply mcmdWrite_keeps
    | refine KeepsOut.use ?_ (by with_reducible assumption)
    | split
    | dsimp only
    | intro _

theorem execImport_keeps {σ : State} {slot gen : Nat} {s : State} (hk : Keeps σ s) :
    KeepsOut σ (execImport slot gen s) := by
  unfold execImport
  repeat' first
    | with_reducible assumption
    | with_reducible apply KeepsOut.next
    | with_reducible apply mcmdWrite_keeps
    | refine KeepsOut.use ?_ (by with_reducible assumption)
    | split
    | dsimp only
    | intro _

theorem snapFrames_keeps {σ : State} {s : State} {c : Ctx} {l : List Nat} (hk : Keeps σ s) :
    KeepsExcP σ (snapFrames s c l) := by
  induction l generalizing s with
  | nil =>
    unfold snapFrames
    repeat' first
      | with_reducible assumption
      | exact KeepsExcP.error
      | with_reducible apply KeepsExcP.ok
      | with_reducible apply KeepsExcP.map
      | with_reducible apply takeFrame_keeps
      | refine KeepsExcP.use ?_ (by with_reducible assumption)
      | split
      | dsimp only
      | intro _
  | cons x xs ih =>
    unfold snapFrames
    repeat' first
      | with_reducible assumption
      | with_reducible apply ih
      | exact KeepsExcP.error
      | with_reducible apply KeepsExcP.ok
      | with_reducible apply KeepsExcP.map
      | with_reducible apply takeFrame_keeps
      | refine KeepsExcP.use ?_ (by with_reducible assumption)
      | split
      | dsimp only
      | intro _

theorem snapEntry_keeps {σ : State} {s : State} {handle i : Nat} {x : SnapLane} (hk : Keeps σ s) :
    Keeps σ (snapEntry s handle i x) := by
  unfold snapEntry
  repeat' first
    | with_reducible assumption
    | with_reducible apply State.putBytes_keeps
    | split
    | dsimp only
    | intro _

theorem snapSeal_keeps {σ : State} {s : State} (hk : Keeps σ s) :
    Keeps σ (snapSeal s) := by
  unfold snapSeal
  repeat' first
    | with_reducible assumption
    | with_reducible apply Keeps.foldl
    | with_reducible apply KeepsPair.foldl
    | with_reducible apply State.setFld_keeps
    | with_reducible apply snapFrames_keeps
    | with_reducible apply refuseFrames_keeps
    | with_reducible apply snapEntry_keeps
    | refine KeepsExcP.use ?_ (by with_reducible assumption)
    | simp only [Keeps.lit_iff]
    | with_reducible refine Keeps.ite ?_ ?_
    | split
    | dsimp only
    | intro _

theorem execSnapshotCopyDone_keeps {σ : State} {lane : Nat} {s : State} (hk : Keeps σ s) :
    KeepsOut σ (execSnapshotCopyDone lane s) := by
  unfold execSnapshotCopyDone
  repeat' first
    | with_reducible assumption
    | with_reducible apply KeepsOut.next
    | with_reducible apply copyLoc_keeps
    | refine KeepsOut.use ?_ (by with_reducible assumption)
    | simp only [Keeps.lit_iff]
    | with_reducible refine Keeps.ite ?_ ?_
    | split
    | dsimp only
    | intro _

theorem snapBoundary_keeps {σ : State} {s : State} (hk : Keeps σ s) :
    Keeps σ (snapBoundary s) := by
  unfold snapBoundary
  repeat' first
    | with_reducible assumption
    | with_reducible apply setMst_keeps
    | with_reducible apply State.setFld_keeps
    | with_reducible refine Keeps.ite ?_ ?_
    | split
    | dsimp only
    | intro _

theorem forwardReq_keeps {σ : State} {s : State} {slot : Nat} (hk : Keeps σ s) :
    Keeps σ (forwardReq s slot) := by
  unfold forwardReq
  repeat' first
    | with_reducible assumption
    | with_reducible apply queueMsg_keeps
    | with_reducible apply State.count_keeps
    | simp only [Keeps.lit_iff]
    | with_reducible refine Keeps.ite ?_ ?_
    | split
    | dsimp only
    | intro _

theorem forwardAll_keeps {σ : State} {s : State} (hk : Keeps σ s) :
    Keeps σ (forwardAll s) := by
  unfold forwardAll
  repeat' first
    | with_reducible assumption
    | with_reducible apply Keeps.foldl
    | with_reducible apply KeepsPair.foldl
    | with_reducible apply forwardReq_keeps
    | split
    | dsimp only
    | intro _

theorem execHoldoverServingStop_keeps {σ : State} {s : State} (hk : Keeps σ s) :
    KeepsOut σ (execHoldoverServingStop s) := by
  unfold execHoldoverServingStop
  repeat' first
    | with_reducible assumption
    | with_reducible apply KeepsOut.next
    | with_reducible apply event_keeps
    | with_reducible apply suspect_keeps
    | refine KeepsOut.use ?_ (by with_reducible assumption)
    | simp only [Keeps.lit_iff]
    | with_reducible refine Keeps.ite ?_ ?_
    | split
    | dsimp only
    | intro _

theorem fabTick_keeps {σ : State} {s : State} (hk : Keeps σ s) :
    Keeps σ (fabTick s) := by
  unfold fabTick
  repeat' first
    | with_reducible assumption
    | simp only [Keeps.lit_iff]
    | with_reducible refine Keeps.ite ?_ ?_
    | split
    | dsimp only
    | intro _

end Sys2Proof.Machine
end

