-- ==== Sys2Proof/Laws/KeepsPartitions.lean ====
section
/-!
SUPPORT. What the operations of Machine/Partitions.lean keep (`Keeps`), one lemma each.
-/

namespace Sys2Proof.Machine

theorem keyStat_keeps {σ : State} {s : State} {status : Nat} (hk : Keeps σ s) :
    Keeps σ (keyStat s status) := by
  unfold keyStat
  repeat' first
    | with_reducible assumption
    | with_reducible apply State.setFld_keeps
    | split
    | dsimp only
    | intro _

theorem installNext_keeps {σ : State} {s : State} {i : Nat} (hk : Keeps σ s) :
    Keeps σ (installNext s i) := by
  unfold installNext
  repeat' first
    | with_reducible assumption
    | with_reducible apply keyStat_keeps
    | with_reducible apply deriveAsk_keeps
    | with_reducible refine Keeps.ite ?_ ?_
    | split
    | dsimp only
    | intro _

theorem txSwitchCmd_keeps {σ : State} {s : State} {i : Nat} (hk : Keeps σ s) :
    Keeps σ (txSwitchCmd s i) := by
  unfold txSwitchCmd
  repeat' first
    | with_reducible assumption
    | with_reducible apply keyStat_keeps
    | with_reducible apply txSwitch_keeps
    | with_reducible refine Keeps.ite ?_ ?_
    | split
    | dsimp only
    | intro _

theorem retireOld_keeps {σ : State} {s : State} {i : Nat} (hk : Keeps σ s) :
    Keeps σ (retireOld s i) := by
  unfold retireOld
  repeat' first
    | with_reducible assumption
    | with_reducible apply keyStat_keeps
    | with_reducible apply keyEmpty_keeps
    | with_reducible refine Keeps.ite ?_ ?_
    | split
    | dsimp only
    | intro _

theorem rekeyJob_keeps {σ : State} {s : State} {k : Nat} (hk : Keeps σ s) :
    Keeps σ (rekeyJob s k) := by
  unfold rekeyJob
  repeat' first
    | with_reducible assumption
    | with_reducible apply Keeps.foldl
    | with_reducible apply KeepsPair.foldl
    | with_reducible apply keyStat_keeps
    | with_reducible apply deriveAsk_keeps
    | with_reducible refine Keeps.ite ?_ ?_
    | split
    | dsimp only
    | intro _

theorem keyDo_keeps {σ : State} {s : State} {op target : Nat} (hk : Keeps σ s) :
    Keeps σ (keyDo s op target) := by
  unfold keyDo
  repeat' first
    | with_reducible assumption
    | with_reducible apply installNext_keeps
    | with_reducible apply txSwitchCmd_keeps
    | with_reducible apply retireOld_keeps
    | with_reducible apply rekeyJob_keeps
    | with_reducible refine Keeps.ite ?_ ?_
    | split
    | dsimp only
    | intro _

theorem keyCmd_keeps {σ : State} {op target : Nat} {s : State} (hk : Keeps σ s) :
    Keeps σ (keyCmd op target s) := by
  unfold keyCmd
  repeat' first
    | with_reducible assumption
    | with_reducible apply keyDo_keeps
    | simp only [Keeps.lit_iff]
    | with_reducible refine Keeps.ite ?_ ?_
    | split
    | dsimp only
    | intro _

theorem execInstallNext_keeps {σ : State} {conn : Nat} {s : State} (hk : Keeps σ s) :
    KeepsOut σ (execInstallNext conn s) := by
  unfold execInstallNext
  repeat' first
    | with_reducible assumption
    | with_reducible apply KeepsOut.next
    | with_reducible apply keyCmd_keeps
    | refine KeepsOut.use ?_ (by with_reducible assumption)
    | split
    | dsimp only
    | intro _

theorem execTxSwitch_keeps {σ : State} {conn : Nat} {s : State} (hk : Keeps σ s) :
    KeepsOut σ (execTxSwitch conn s) := by
  unfold execTxSwitch
  repeat' first
    | with_reducible assumption
    | with_reducible apply KeepsOut.next
    | with_reducible apply keyCmd_keeps
    | refine KeepsOut.use ?_ (by with_reducible assumption)
    | split
    | dsimp only
    | intro _

theorem execRetireOld_keeps {σ : State} {conn : Nat} {s : State} (hk : Keeps σ s) :
    KeepsOut σ (execRetireOld conn s) := by
  unfold execRetireOld
  repeat' first
    | with_reducible assumption
    | with_reducible apply KeepsOut.next
    | with_reducible apply keyCmd_keeps
    | refine KeepsOut.use ?_ (by with_reducible assumption)
    | split
    | dsimp only
    | intro _

theorem execRekeyJob_keeps {σ : State} {slot : Nat} {s : State} (hk : Keeps σ s) :
    KeepsOut σ (execRekeyJob slot s) := by
  unfold execRekeyJob
  repeat' first
    | with_reducible assumption
    | with_reducible apply KeepsOut.next
    | with_reducible apply keyCmd_keeps
    | refine KeepsOut.use ?_ (by with_reducible assumption)
    | split
    | dsimp only
    | intro _

theorem deriveEnd_keeps {σ : State} {s : State} {d : Derive} (hk : Keeps σ s) :
    Keeps σ (deriveEnd s d) := by
  unfold deriveEnd
  repeat' first
    | with_reducible assumption
    | with_reducible apply cmdStat_keeps
    | with_reducible apply State.setConn_keeps
    | with_reducible apply State.setKeySlot_keeps
    | with_reducible apply connStart_keeps
    | simp only [Keeps.lit_iff]
    | with_reducible refine Keeps.ite ?_ ?_
    | split
    | dsimp only
    | intro _

theorem keyServe_keeps {σ : State} {s : State} {l : Nat} (hk : Keeps σ s) :
    Keeps σ (keyServe l s) := by
  induction l generalizing s with
  | zero =>
    unfold keyServe
    repeat' first
      | with_reducible assumption
      | with_reducible apply keyDo_keeps
      | simp only [Keeps.lit_iff]
      | with_reducible refine Keeps.ite ?_ ?_
      | split
      | dsimp only
      | intro _
  | succ n ih =>
    unfold keyServe
    repeat' first
      | with_reducible assumption
      | with_reducible apply ih
      | with_reducible apply keyDo_keeps
      | simp only [Keeps.lit_iff]
      | with_reducible refine Keeps.ite ?_ ?_
      | split
      | dsimp only
      | intro _

theorem execKeyDerivationDone_keeps {σ : State} {s : State} (hk : Keeps σ s) :
    KeepsOut σ (execKeyDerivationDone s) := by
  unfold execKeyDerivationDone
  repeat' first
    | with_reducible assumption
    | with_reducible apply KeepsOut.next
    | with_reducible apply reachUp_keeps
    | with_reducible apply deriveEnd_keeps
    | with_reducible apply keyServe_keeps
    | with_reducible apply State.setFld_keeps
    | with_reducible apply KeepsOpt.getD
    | with_reducible apply KeepsOpt.orElse
    | refine KeepsOpt.use ?_ (by with_reducible assumption)
    | refine KeepsOut.use ?_ (by with_reducible assumption)
    | simp only [Keeps.lit_iff]
    | with_reducible refine Keeps.ite ?_ ?_
    | split
    | dsimp only
    | intro _

theorem freeQMove_keeps {σ : State} {s : State} {p : Nat} {old new : Nat × Nat} (hk : Keeps σ s) :
    Keeps σ (freeQMove s p old new) := by
  unfold freeQMove
  repeat' first
    | with_reducible assumption
    | with_reducible apply Keeps.foldl
    | with_reducible apply KeepsPair.foldl
    | simp only [Keeps.lit_iff]
    | split
    | dsimp only
    | intro _

theorem partIdle_keeps {σ : State} {s : State} {p : Nat} (hk : Keeps σ s) :
    Keeps σ (partIdle s p) := by
  unfold partIdle
  repeat' first
    | with_reducible assumption
    | with_reducible apply State.setFld_keeps
    | with_reducible refine Keeps.ite ?_ ?_
    | split
    | dsimp only
    | intro _

theorem boundsMoved_keeps {σ : State} {s : State} {p : Nat} {old : Bounds} (hk : Keeps σ s) :
    Keeps σ (boundsMoved s p old) := by
  unfold boundsMoved
  repeat' first
    | with_reducible assumption
    | with_reducible apply partIdle_keeps
    | with_reducible apply freeQMove_keeps
    | split
    | dsimp only
    | intro _

theorem boundsTake_keeps {σ : State} {s : State} {p : Nat} (hk : Keeps σ s) :
    Keeps σ (boundsTake s p) := by
  unfold boundsTake
  repeat' first
    | with_reducible assumption
    | with_reducible apply State.setFld_keeps
    | with_reducible apply boundsMoved_keeps
    | split
    | dsimp only
    | intro _

theorem boundsDrop_keeps {σ : State} {s : State} {p : Nat} (hk : Keeps σ s) :
    Keeps σ (boundsDrop s p) := by
  unfold boundsDrop
  repeat' first
    | with_reducible assumption
    | with_reducible apply Keeps.foldl
    | with_reducible apply KeepsPair.foldl
    | simp only [Keeps.lit_iff]
    | split
    | dsimp only
    | intro _

theorem boundsApply_keeps {σ : State} {s : State} (hk : Keeps σ s) :
    Keeps σ (boundsApply s) := by
  unfold boundsApply
  repeat' first
    | with_reducible assumption
    | with_reducible apply Keeps.foldl
    | with_reducible apply KeepsPair.foldl
    | with_reducible apply boundsDrop_keeps
    | with_reducible apply boundsTake_keeps
    | with_reducible apply event_keeps
    | with_reducible refine Keeps.ite ?_ ?_
    | split
    | dsimp only
    | intro _

theorem rstStat_keeps {σ : State} {s : State} {status p : Nat} (hk : Keeps σ s) :
    Keeps σ (rstStat s status p) := by
  unfold rstStat
  repeat' first
    | with_reducible assumption
    | with_reducible apply State.setRg_keeps
    | split
    | dsimp only
    | intro _

theorem retirePart_keeps {σ : State} {s : State} {p : Nat} (hk : Keeps σ s) :
    Keeps σ (retirePart s p) := by
  unfold retirePart
  repeat' first
    | with_reducible assumption
    | simp only [Keeps.lit_iff]
    | split
    | dsimp only
    | intro _

theorem execPrtResetStart_keeps {σ : State} {part : Nat} {s : State} (hk : Keeps σ s) :
    KeepsOut σ (execPrtResetStart part s) := by
  unfold execPrtResetStart
  repeat' first
    | with_reducible assumption
    | with_reducible apply KeepsOut.next
    | with_reducible apply rstStat_keeps
    | with_reducible apply retirePart_keeps
    | refine KeepsOut.use ?_ (by with_reducible assumption)
    | simp only [Keeps.lit_iff]
    | with_reducible refine Keeps.ite ?_ ?_
    | split
    | dsimp only
    | intro _

theorem frameReset_keeps {σ : State} {s : State} {p f : Nat} (hk : Keeps σ s) :
    Keeps σ (frameReset s p f) := by
  unfold frameReset
  repeat' first
    | with_reducible assumption
    | with_reducible apply State.setFrame_keeps
    | with_reducible apply toScrub_keeps
    | simp only [Keeps.lit_iff]
    | with_reducible refine Keeps.ite ?_ ?_
    | split
    | dsimp only
    | intro _

theorem commitWork_keeps {σ : State} {s : State} {p : Nat} (hk : Keeps σ s) :
    Keeps σ (commitWork s p) := by
  unfold commitWork
  repeat' first
    | with_reducible assumption
    | with_reducible apply Keeps.foldl
    | with_reducible apply KeepsPair.foldl
    | with_reducible apply dismissWhere_keeps
    | with_reducible apply movesStop_keeps
    | with_reducible apply mirrorEnd_keeps
    | with_reducible apply setMst_keeps
    | with_reducible apply dropSnap_keeps
    | with_reducible refine Keeps.ite ?_ ?_
    | split
    | dsimp only
    | intro _

theorem commitItp_keeps {σ : State} {s : State} {p : Nat} (hk : Keeps σ s) :
    Keeps σ (commitItp s p) := by
  unfold commitItp
  repeat' first
    | with_reducible assumption
    | with_reducible apply Keeps.foldl
    | with_reducible apply KeepsPair.foldl
    | with_reducible apply connClose_keeps
    | with_reducible apply State.setRg_keeps
    | with_reducible apply State.setFld_keeps
    | with_reducible apply revokeRegion_keeps
    | with_reducible refine Keeps.ite ?_ ?_
    | split
    | dsimp only
    | intro _

theorem commitFrames_keeps {σ : State} {s : State} {p : Nat} (hk : Keeps σ s) :
    Keeps σ (commitFrames s p) := by
  unfold commitFrames
  repeat' first
    | with_reducible assumption
    | with_reducible apply Keeps.foldl
    | with_reducible apply KeepsPair.foldl
    | with_reducible apply releaseApply_keeps
    | with_reducible apply settle_keeps
    | with_reducible apply frameReset_keeps
    | with_reducible apply State.setGran_keeps
    | with_reducible apply State.setTables_keeps
    | with_reducible apply State.setPool_keeps
    | with_reducible apply State.setFreeList_keeps
    | simp only [Keeps.lit_iff]
    | split
    | dsimp only
    | intro _

theorem commitOne_keeps {σ : State} {s : State} {p : Nat} (hk : Keeps σ s) :
    Keeps σ (commitOne s p) := by
  unfold commitOne
  repeat' first
    | with_reducible assumption
    | with_reducible apply commitFrames_keeps
    | with_reducible apply commitItp_keeps
    | with_reducible apply commitWork_keeps
    | with_reducible apply State.setDeficit_keeps
    | with_reducible apply State.setFld_keeps
    | with_reducible refine Keeps.ite ?_ ?_
    | split
    | dsimp only
    | intro _

theorem commitApply_keeps {σ : State} {s : State} (hk : Keeps σ s) :
    Keeps σ (commitApply s) := by
  unfold commitApply
  repeat' first
    | with_reducible assumption
    | with_reducible apply Keeps.foldl
    | with_reducible apply KeepsPair.foldl
    | with_reducible apply commitOne_keeps
    | simp only [Keeps.lit_iff]
    | split
    | dsimp only
    | intro _

theorem execPrtResetCommit_keeps {σ : State} {part : Nat} {s : State} (hk : Keeps σ s) :
    KeepsOut σ (execPrtResetCommit part s) := by
  unfold execPrtResetCommit
  repeat' first
    | with_reducible assumption
    | with_reducible apply KeepsOut.next
    | with_reducible apply rstStat_keeps
    | with_reducible apply commitApply_keeps
    | refine KeepsOut.use ?_ (by with_reducible assumption)
    | simp only [Keeps.lit_iff]
    | with_reducible refine Keeps.ite ?_ ?_
    | split
    | dsimp only
    | intro _

theorem faultsClear_keeps {σ : State} {s : State} {p : Nat} (hk : Keeps σ s) :
    Keeps σ (faultsClear s p) := by
  unfold faultsClear
  repeat' first
    | with_reducible assumption
    | with_reducible apply Keeps.foldl
    | with_reducible apply KeepsPair.foldl
    | with_reducible apply State.setRg_keeps
    | with_reducible refine Keeps.ite ?_ ?_
    | split
    | dsimp only
    | intro _

theorem resetEnd_keeps {σ : State} {s : State} {p : Nat} (hk : Keeps σ s) :
    Keeps σ (resetEnd s p) := by
  unfold resetEnd
  repeat' first
    | with_reducible assumption
    | with_reducible apply faultsClear_keeps
    | with_reducible apply rdlClear_keeps
    | with_reducible apply State.setFld_keeps
    | with_reducible apply State.setRg_keeps
    | with_reducible apply event_keeps
    | simp only [Keeps.lit_iff]
    | split
    | dsimp only
    | intro _

theorem resetsEnd_keeps {σ : State} {s : State} (hk : Keeps σ s) :
    Keeps σ (resetsEnd s) := by
  unfold resetsEnd
  repeat' first
    | with_reducible assumption
    | with_reducible apply Keeps.foldl
    | with_reducible apply KeepsPair.foldl
    | with_reducible apply resetEnd_keeps
    | with_reducible apply State.setFld_keeps
    | with_reducible refine Keeps.ite ?_ ?_
    | split
    | dsimp only
    | intro _

end Sys2Proof.Machine
end

