-- ==== Sys2Proof/Laws/KeepsSelfTest.lean ====
section
/-!
SUPPORT. What the operations of Machine/SelfTest.lean keep (`Keeps`), one lemma each.
-/

namespace Sys2Proof.Machine

theorem readCorr_keeps {σ : State} {s : State} {peat crown inner : Nat} (hk : Keeps σ s) :
    Keeps σ (readCorr s peat crown inner) := by
  unfold readCorr
  repeat' first
    | with_reducible assumption
    | with_reducible apply State.countBy_keeps
    | split
    | dsimp only
    | intro _

theorem execPatrolWord_keeps {σ : State} {read : PatrolRead} {s : State} (hk : Keeps σ s) :
    KeepsOut σ (execPatrolWord read s) := by
  unfold execPatrolWord
  repeat' first
    | with_reducible assumption
    | with_reducible apply KeepsOut.next
    | with_reducible apply readCorr_keeps
    | with_reducible apply patrolNext_keeps
    | with_reducible apply memRelease_keeps
    | with_reducible apply State.count_keeps
    | with_reducible apply event0_keeps
    | with_reducible apply fault_keeps
    | with_reducible apply uncorr_keeps
    | with_reducible apply poisonAdd_keeps
    | refine KeepsOut.use ?_ (by with_reducible assumption)
    | with_reducible refine Keeps.ite ?_ ?_
    | split
    | dsimp only
    | intro _

theorem execPoisonAdd_keeps {σ : State} {frame : Nat} {s : State} (hk : Keeps σ s) :
    KeepsOut σ (execPoisonAdd frame s) := by
  unfold execPoisonAdd
  repeat' first
    | with_reducible assumption
    | with_reducible apply KeepsOut.next
    | with_reducible apply poisonAdd_keeps
    | refine KeepsOut.use ?_ (by with_reducible assumption)
    | with_reducible refine Keeps.ite ?_ ?_
    | split
    | dsimp only
    | intro _

theorem execPoisonDel_keeps {σ : State} {frame : Nat} {s : State} (hk : Keeps σ s) :
    KeepsOut σ (execPoisonDel frame s) := by
  unfold execPoisonDel
  repeat' first
    | with_reducible assumption
    | with_reducible apply KeepsOut.next
    | refine KeepsOut.use ?_ (by with_reducible assumption)
    | simp only [Keeps.lit_iff]
    | with_reducible refine Keeps.ite ?_ ?_
    | split
    | dsimp only
    | intro _

theorem tileReinit_keeps {σ : State} {s : State} {n : Nat} (hk : Keeps σ s) :
    Keeps σ (tileReinit s n) := by
  unfold tileReinit
  repeat' first
    | with_reducible assumption
    | with_reducible apply State.setTile_keeps
    | split
    | dsimp only
    | intro _

theorem lbEnd_keeps {σ : State} {s : State} {status cc : Nat} (hk : Keeps σ s) :
    Keeps σ (lbEnd s status cc) := by
  unfold lbEnd
  repeat' first
    | with_reducible assumption
    | with_reducible apply tileReinit_keeps
    | with_reducible apply State.setRg_keeps
    | split
    | dsimp only
    | intro _

theorem execLbistArm_keeps {σ : State} {tile : Nat} {s : State} (hk : Keeps σ s) :
    KeepsOut σ (execLbistArm tile s) := by
  unfold execLbistArm
  repeat' first
    | with_reducible assumption
    | with_reducible apply KeepsOut.next
    | with_reducible apply State.setRg_keeps
    | refine KeepsOut.use ?_ (by with_reducible assumption)
    | with_reducible refine Keeps.ite ?_ ?_
    | split
    | dsimp only
    | intro _

theorem execLbistAbort_keeps {σ : State} {s : State} (hk : Keeps σ s) :
    KeepsOut σ (execLbistAbort s) := by
  unfold execLbistAbort
  repeat' first
    | with_reducible assumption
    | with_reducible apply KeepsOut.next
    | with_reducible apply lbEnd_keeps
    | with_reducible apply State.setRg_keeps
    | refine KeepsOut.use ?_ (by with_reducible assumption)
    | with_reducible refine Keeps.ite ?_ ?_
    | split
    | dsimp only
    | intro _

theorem execLbistSliceEnd_keeps {σ : State} {misr : Nat} {s : State} (hk : Keeps σ s) :
    KeepsOut σ (execLbistSliceEnd misr s) := by
  unfold execLbistSliceEnd
  repeat' first
    | with_reducible assumption
    | with_reducible apply KeepsOut.next
    | with_reducible apply reachUp_keeps
    | with_reducible apply setWords_keeps
    | with_reducible apply lbEnd_keeps
    | with_reducible apply State.count_keeps
    | with_reducible apply event0_keeps
    | with_reducible apply State.setFld_keeps
    | with_reducible apply fault_keeps
    | with_reducible apply KeepsOpt.getD
    | with_reducible apply KeepsOpt.orElse
    | refine KeepsOpt.use ?_ (by with_reducible assumption)
    | refine KeepsOut.use ?_ (by with_reducible assumption)
    | with_reducible refine Keeps.ite ?_ ?_
    | split
    | dsimp only
    | intro _

theorem lbTurn_keeps {σ : State} {s : State} (hk : Keeps σ s) :
    Keeps σ (lbTurn s) := by
  unfold lbTurn
  repeat' first
    | with_reducible assumption
    | with_reducible apply lbEnd_keeps
    | with_reducible apply State.setFld_keeps
    | simp only [Keeps.lit_iff]
    | with_reducible refine Keeps.ite ?_ ?_
    | split
    | dsimp only
    | intro _

theorem mbStat_keeps {σ : State} {s : State} {status : Nat} (hk : Keeps σ s) :
    Keeps σ (mbStat s status) := by
  unfold mbStat
  repeat' first
    | with_reducible assumption
    | with_reducible apply State.setFld_keeps
    | split
    | dsimp only
    | intro _

theorem mbCommand_keeps {σ : State} {op kind : Nat} {s : State} (hk : Keeps σ s) :
    Keeps σ (mbCommand op kind s) := by
  unfold mbCommand
  repeat' first
    | with_reducible assumption
    | with_reducible apply mbStat_keeps
    | with_reducible apply State.setFld_keeps
    | simp only [Keeps.lit_iff]
    | with_reducible refine Keeps.ite ?_ ?_
    | split
    | dsimp only
    | intro _

theorem execMbistRun_keeps {σ : State} {kind : Nat} {s : State} (hk : Keeps σ s) :
    KeepsOut σ (execMbistRun kind s) := by
  unfold execMbistRun
  repeat' first
    | with_reducible assumption
    | with_reducible apply KeepsOut.next
    | with_reducible apply mbCommand_keeps
    | refine KeepsOut.use ?_ (by with_reducible assumption)
    | split
    | dsimp only
    | intro _

theorem execSoftRepair_keeps {σ : State} {kind : Nat} {s : State} (hk : Keeps σ s) :
    KeepsOut σ (execSoftRepair kind s) := by
  unfold execSoftRepair
  repeat' first
    | with_reducible assumption
    | with_reducible apply KeepsOut.next
    | with_reducible apply mbCommand_keeps
    | refine KeepsOut.use ?_ (by with_reducible assumption)
    | split
    | dsimp only
    | intro _

theorem execFuseRepair_keeps {σ : State} {kind : Nat} {s : State} (hk : Keeps σ s) :
    KeepsOut σ (execFuseRepair kind s) := by
  unfold execFuseRepair
  repeat' first
    | with_reducible assumption
    | with_reducible apply KeepsOut.next
    | with_reducible apply mbCommand_keeps
    | refine KeepsOut.use ?_ (by with_reducible assumption)
    | split
    | dsimp only
    | intro _

theorem mbRecord_keeps {σ : State} {s : State} {f : FailRec} (hk : Keeps σ s) :
    Keeps σ (mbRecord s f) := by
  unfold mbRecord
  repeat' first
    | with_reducible assumption
    | with_reducible apply State.setFld_keeps
    | with_reducible apply State.putBytes_keeps
    | with_reducible apply State.setRg_keeps
    | with_reducible refine Keeps.ite ?_ ?_
    | split
    | dsimp only
    | intro _

theorem mbWipe_keeps {σ : State} {s : State} {kind : Nat} (hk : Keeps σ s) :
    Keeps σ (mbWipe s kind) := by
  unfold mbWipe
  repeat' first
    | with_reducible assumption
    | with_reducible apply Keeps.foldl
    | with_reducible apply KeepsPair.foldl
    | with_reducible apply State.setTile_keeps
    | with_reducible apply State.setPort_keeps
    | simp only [Keeps.lit_iff]
    | with_reducible apply Keeps.litZero
    | with_reducible refine Keeps.ite ?_ ?_
    | split
    | dsimp only
    | intro _

theorem execMbistDone_keeps {σ : State} {fails : List FailRec} {worst : Option Nat} {exhausted : Bool} {s : State} (hk : Keeps σ
    s) :
    KeepsOut σ (execMbistDone fails worst exhausted s) := by
  unfold execMbistDone
  repeat' first
    | with_reducible assumption
    | with_reducible apply KeepsOut.next
    | with_reducible apply Keeps.foldl
    | with_reducible apply KeepsPair.foldl
    | with_reducible apply reachUp_keeps
    | with_reducible apply State.setFld_keeps
    | with_reducible apply event0_keeps
    | with_reducible apply mbStat_keeps
    | with_reducible apply mbWipe_keeps
    | with_reducible apply mbRecord_keeps
    | with_reducible apply fault_keeps
    | with_reducible apply KeepsOpt.getD
    | with_reducible apply KeepsOpt.orElse
    | refine KeepsOpt.use ?_ (by with_reducible assumption)
    | refine KeepsOut.use ?_ (by with_reducible assumption)
    | simp only [Keeps.lit_iff]
    | with_reducible refine Keeps.ite ?_ ?_
    | split
    | dsimp only
    | intro _

end Sys2Proof.Machine
end

