-- ==== Sys2Proof/Laws/KeepsLifecycle.lean ====
section
/-!
SUPPORT. What the operations of Machine/Lifecycle.lean keep (`Keeps`), one lemma each.
-/

namespace Sys2Proof.Machine

theorem bootPick_keeps {σ : State} {s : State} (hk : Keeps σ s) :
    KeepsPair σ (bootPick s) := by
  unfold bootPick
  repeat' first
    | with_reducible assumption
    | refine KeepsPair.use ?_ (by with_reducible assumption)
    | with_reducible apply KeepsPair.fst
    | simp only [KeepsPair.mk_iff]
    | simp only [Keeps.lit_iff]
    | with_reducible refine Keeps.ite ?_ ?_
    | split
    | dsimp only
    | intro _

theorem bootStart_keeps {σ : State} {s : State} (hk : Keeps σ s) :
    Keeps σ (bootStart s) := by
  unfold bootStart
  repeat' first
    | with_reducible assumption
    | with_reducible apply bootPick_keeps
    | with_reducible apply State.setRg_keeps
    | refine KeepsPair.use ?_ (by with_reducible assumption)
    | with_reducible apply KeepsPair.fst
    | simp only [KeepsPair.mk_iff]
    | simp only [Keeps.lit_iff]
    | with_reducible refine Keeps.ite ?_ ?_
    | split
    | dsimp only
    | intro _

theorem newChallenge_keeps {σ : State} {s : State} (hk : Keeps σ s) :
    Keeps σ (newChallenge s) := by
  unfold newChallenge
  repeat' first
    | with_reducible assumption
    | with_reducible apply Keeps.foldl
    | with_reducible apply KeepsPair.foldl
    | with_reducible apply State.setRg_keeps
    | with_reducible apply State.draw_keeps
    | split
    | dsimp only
    | intro _

theorem lcsStat_keeps {σ : State} {s : State} {status : Nat} (hk : Keeps σ s) :
    Keeps σ (lcsStat s status) := by
  unfold lcsStat
  repeat' first
    | with_reducible assumption
    | with_reducible apply State.setRg_keeps
    | split
    | dsimp only
    | intro _

theorem execCommitArb_keeps {σ : State} {s : State} (hk : Keeps σ s) :
    KeepsOut σ (execCommitArb s) := by
  unfold execCommitArb
  repeat' first
    | with_reducible assumption
    | with_reducible apply KeepsOut.next
    | with_reducible apply Keeps.foldl
    | with_reducible apply KeepsPair.foldl
    | with_reducible apply State.setFld_keeps
    | with_reducible apply event0_keeps
    | with_reducible apply lcsStat_keeps
    | refine KeepsOut.use ?_ (by with_reducible assumption)
    | with_reducible refine Keeps.ite ?_ ?_
    | split
    | dsimp only
    | intro _

theorem execSelectSlot_keeps {σ : State} {s : State} (hk : Keeps σ s) :
    KeepsOut σ (execSelectSlot s) := by
  unfold execSelectSlot
  repeat' first
    | with_reducible assumption
    | with_reducible apply KeepsOut.next
    | with_reducible apply lcsStat_keeps
    | refine KeepsOut.use ?_ (by with_reducible assumption)
    | simp only [Keeps.lit_iff]
    | split
    | dsimp only
    | intro _

theorem execRelock_keeps {σ : State} {s : State} (hk : Keeps σ s) :
    KeepsOut σ (execRelock s) := by
  unfold execRelock
  repeat' first
    | with_reducible assumption
    | with_reducible apply KeepsOut.next
    | with_reducible apply lcsStat_keeps
    | refine KeepsOut.use ?_ (by with_reducible assumption)
    | simp only [Keeps.lit_iff]
    | split
    | dsimp only
    | intro _

theorem reportAsk_keeps {σ : State} {s : State} {nonce : List Nat} {dest : Wants} (hk : Keeps σ s) :
    Keeps σ (reportAsk s nonce dest) := by
  unfold reportAsk
  repeat' first
    | with_reducible assumption
    | simp only [Keeps.lit_iff]
    | split
    | dsimp only
    | intro _

theorem attStat_keeps {σ : State} {s : State} {status : Nat} (hk : Keeps σ s) :
    Keeps σ (attStat s status) := by
  unfold attStat
  repeat' first
    | with_reducible assumption
    | with_reducible apply State.setFld_keeps
    | split
    | dsimp only
    | intro _

theorem attBusy_keeps {σ : State} {s : State} {b : Bool} (hk : Keeps σ s) :
    Keeps σ (attBusy s b) := by
  unfold attBusy
  repeat' first
    | with_reducible assumption
    | with_reducible apply State.setFld_keeps
    | split
    | dsimp only
    | intro _

theorem execNewchal_keeps {σ : State} {s : State} (hk : Keeps σ s) :
    KeepsOut σ (execNewchal s) := by
  unfold execNewchal
  repeat' first
    | with_reducible assumption
    | with_reducible apply KeepsOut.next
    | with_reducible apply attStat_keeps
    | with_reducible apply newChallenge_keeps
    | refine KeepsOut.use ?_ (by with_reducible assumption)
    | with_reducible refine Keeps.ite ?_ ?_
    | split
    | dsimp only
    | intro _

theorem execReport_keeps {σ : State} {s : State} (hk : Keeps σ s) :
    KeepsOut σ (execReport s) := by
  unfold execReport
  repeat' first
    | with_reducible assumption
    | with_reducible apply KeepsOut.next
    | with_reducible apply attStat_keeps
    | with_reducible apply attBusy_keeps
    | with_reducible apply reportAsk_keeps
    | refine KeepsOut.use ?_ (by with_reducible assumption)
    | with_reducible refine Keeps.ite ?_ ?_
    | split
    | dsimp only
    | intro _

theorem mgtAnswer_keeps {σ : State} {s : State} {id : Nat} {m : Spdm} (hk : Keeps σ s) :
    Keeps σ (mgtAnswer s id m) := by
  unfold mgtAnswer
  repeat' first
    | with_reducible assumption
    | simp only [Keeps.lit_iff]
    | with_reducible refine Keeps.ite ?_ ?_
    | split
    | dsimp only
    | intro _

theorem tokenTell_keeps {σ : State} {s : State} {w : Wants} {status : Nat} (hk : Keeps σ s) :
    Keeps σ (tokenTell s w status) := by
  unfold tokenTell
  repeat' first
    | with_reducible assumption
    | with_reducible apply attBusy_keeps
    | with_reducible apply attStat_keeps
    | with_reducible apply mgtAnswer_keeps
    | with_reducible refine Keeps.ite ?_ ?_
    | split
    | dsimp only
    | intro _

theorem tokenJudge_keeps {σ : State} {kind : Nat} {effect : List Nat → State → State} {s : State} (hk : Keeps σ s) (hf : ∀ n t,
    Keeps σ t → Keeps σ (effect n t)) :
    Keeps σ (tokenJudge kind effect s) := by
  unfold tokenJudge
  repeat' first
    | with_reducible assumption
    | with_reducible apply tokenTell_keeps
    | with_reducible apply newChallenge_keeps
    | with_reducible apply event0_keeps
    | with_reducible apply hf
    | simp only [Keeps.lit_iff]
    | with_reducible refine Keeps.ite ?_ ?_
    | split
    | dsimp only
    | intro _

theorem tokenSubmit_keeps {σ : State} {s : State} {b : List Nat} {w : Wants} (hk : Keeps σ s) :
    Keeps σ (tokenSubmit s b w) := by
  unfold tokenSubmit
  repeat' first
    | with_reducible assumption
    | with_reducible apply event0_keeps
    | with_reducible apply tokenTell_keeps
    | with_reducible apply newChallenge_keeps
    | simp only [Keeps.lit_iff]
    | with_reducible refine Keeps.ite ?_ ?_
    | split
    | dsimp only
    | intro _

theorem execAttToken_keeps {σ : State} {s : State} (hk : Keeps σ s) :
    KeepsOut σ (execAttToken s) := by
  unfold execAttToken
  repeat' first
    | with_reducible assumption
    | with_reducible apply KeepsOut.next
    | with_reducible apply attStat_keeps
    | with_reducible apply tokenSubmit_keeps
    | with_reducible apply attBusy_keeps
    | refine KeepsOut.use ?_ (by with_reducible assumption)
    | with_reducible refine Keeps.ite ?_ ?_
    | split
    | dsimp only
    | intro _

theorem setLife_keeps {σ : State} {s : State} {v : Nat} (hk : Keeps σ s) :
    Keeps σ (setLife s v) := by
  unfold setLife
  repeat' first
    | with_reducible assumption
    | with_reducible apply State.setFld_keeps
    | split
    | dsimp only
    | intro _

theorem execDebugUnlock_keeps {σ : State} {s : State} (hk : Keeps σ s) :
    KeepsOut σ (execDebugUnlock s) := by
  unfold execDebugUnlock
  repeat' first
    | with_reducible assumption
    | with_reducible apply KeepsOut.next
    | with_reducible apply tokenJudge_keeps
    | with_reducible apply event0_keeps
    | refine KeepsOut.use ?_ (by with_reducible assumption)
    | simp only [Keeps.lit_iff]
    | split
    | dsimp only
    | intro _

theorem execDeploy_keeps {σ : State} {s : State} (hk : Keeps σ s) :
    KeepsOut σ (execDeploy s) := by
  unfold execDeploy
  repeat' first
    | with_reducible assumption
    | with_reducible apply KeepsOut.next
    | with_reducible apply tokenJudge_keeps
    | with_reducible apply setLife_keeps
    | with_reducible apply setWords_keeps
    | refine KeepsOut.use ?_ (by with_reducible assumption)
    | split
    | dsimp only
    | intro _

theorem rmaClear_keeps {σ : State} {s : State} (hk : Keeps σ s) : Keeps σ (rmaClear s) := by
  unfold rmaClear
  have h1 := retireSlots_keeps (k := 0) (n := 8192)
    (show Keeps σ { s with itp := { s.itp with jobs := [] }, prt := { s.prt with retiring := [] } } from Keeps.lit hk)
  generalize retireSlots _ 0 8192 = u at h1 ⊢
  exact Keeps.lit (Keeps.litZero h1)

theorem execEnterRma_keeps {σ : State} {s : State} (hk : Keeps σ s) :
    KeepsOut σ (execEnterRma s) := by
  unfold execEnterRma
  repeat' first
    | with_reducible assumption
    | with_reducible apply KeepsOut.next
    | with_reducible apply tokenJudge_keeps
    | with_reducible apply setLife_keeps
    | with_reducible apply rmaClear_keeps
    | refine KeepsOut.use ?_ (by with_reducible assumption)
    | split
    | dsimp only
    | intro _

theorem execScrap_keeps {σ : State} {s : State} (hk : Keeps σ s) :
    KeepsOut σ (execScrap s) := by
  unfold execScrap
  repeat' first
    | with_reducible assumption
    | with_reducible apply KeepsOut.next
    | with_reducible apply tokenJudge_keeps
    | with_reducible apply setLife_keeps
    | refine KeepsOut.use ?_ (by with_reducible assumption)
    | split
    | dsimp only
    | intro _

theorem execProvision_keeps {σ : State} {s : State} (hk : Keeps σ s) :
    KeepsOut σ (execProvision s) := by
  unfold execProvision
  repeat' first
    | with_reducible assumption
    | with_reducible apply KeepsOut.next
    | with_reducible apply tokenJudge_keeps
    | with_reducible apply setLife_keeps
    | refine KeepsOut.use ?_ (by with_reducible assumption)
    | split
    | dsimp only
    | intro _

theorem execReportSigned_keeps {σ : State} {s : State} (hk : Keeps σ s) :
    KeepsOut σ (execReportSigned s) := by
  unfold execReportSigned
  repeat' first
    | with_reducible assumption
    | with_reducible apply KeepsOut.next
    | with_reducible apply event0_keeps
    | with_reducible apply attBusy_keeps
    | with_reducible apply attStat_keeps
    | with_reducible apply State.putBytes_keeps
    | with_reducible apply mgtAnswer_keeps
    | refine KeepsOut.use ?_ (by with_reducible assumption)
    | simp only [Keeps.lit_iff]
    | with_reducible refine Keeps.ite ?_ ?_
    | split
    | dsimp only
    | intro _

end Sys2Proof.Machine
end

