-- ==== Sys2Proof/Laws/KeepsStartup.lean ====
section
/-!
SUPPORT. What the operations of Machine/Startup.lean keep (`Keeps`), one lemma each.
-/

namespace Sys2Proof.Machine

theorem deviceReset_keeps {σ : State} {s : State} {cause : Nat} (hk : Keeps σ s) :
    Keeps σ (deviceReset s cause) := by
  unfold deviceReset
  repeat' first
    | with_reducible assumption
    | with_reducible apply Keeps.blank
    | with_reducible apply Keeps.foldl
    | with_reducible apply KeepsPair.foldl
    | with_reducible apply State.setRg_keeps
    | with_reducible apply State.setFld_keeps
    | with_reducible apply newChallenge_keeps
    | with_reducible apply Keeps.litFresh
    | split
    | dsimp only
    | intro _

theorem warmReset_keeps {σ : State} {s : State} {cause : Nat} (hk : Keeps σ s) :
    Keeps σ (warmReset s cause) := by
  unfold warmReset
  repeat' first
    | with_reducible assumption
    | with_reducible apply deviceReset_keeps
    | with_reducible apply bootStart_keeps
    | with_reducible refine Keeps.ite ?_ ?_
    | split
    | dsimp only
    | intro _

theorem pinReset_keeps {σ : State} {s : State} {cause : Nat} (hk : Keeps σ s) :
    Keeps σ (pinReset s cause) := by
  unfold pinReset
  repeat' first
    | with_reducible assumption
    | with_reducible apply deviceReset_keeps
    | simp only [Keeps.lit_iff]
    | split
    | dsimp only
    | intro _

theorem execDeviceReset_keeps {σ : State} {cause : Nat} {s : State} (hk : Keeps σ s) :
    KeepsOut σ (execDeviceReset cause s) := by
  unfold execDeviceReset
  repeat' first
    | with_reducible assumption
    | with_reducible apply KeepsOut.next
    | with_reducible apply warmReset_keeps
    | with_reducible apply reachUp_keeps
    | with_reducible apply KeepsOpt.getD
    | with_reducible apply KeepsOpt.orElse
    | refine KeepsOpt.use ?_ (by with_reducible assumption)
    | refine KeepsOut.use ?_ (by with_reducible assumption)
    | with_reducible refine Keeps.ite ?_ ?_
    | split
    | dsimp only
    | intro _

theorem execSysReset_keeps {σ : State} {value : Nat} {s : State} (hk : Keeps σ s) :
    KeepsOut σ (execSysReset value s) := by
  unfold execSysReset
  repeat' first
    | with_reducible assumption
    | with_reducible apply KeepsOut.next
    | refine KeepsOut.use ?_ (by with_reducible assumption)
    | simp only [Keeps.lit_iff]
    | with_reducible refine Keeps.ite ?_ ?_
    | split
    | dsimp only
    | intro _

theorem execPwrokFall_keeps {σ : State} {s : State} (hk : Keeps σ s) :
    KeepsOut σ (execPwrokFall s) := by
  unfold execPwrokFall
  repeat' first
    | with_reducible assumption
    | with_reducible apply KeepsOut.next
    | with_reducible apply pinReset_keeps
    | refine KeepsOut.use ?_ (by with_reducible assumption)
    | with_reducible refine Keeps.ite ?_ ?_
    | split
    | dsimp only
    | intro _

theorem execResetNFall_keeps {σ : State} {s : State} (hk : Keeps σ s) :
    KeepsOut σ (execResetNFall s) := by
  unfold execResetNFall
  repeat' first
    | with_reducible assumption
    | with_reducible apply KeepsOut.next
    | with_reducible apply pinReset_keeps
    | refine KeepsOut.use ?_ (by with_reducible assumption)
    | simp only [Keeps.lit_iff]
    | with_reducible refine Keeps.ite ?_ ?_
    | split
    | dsimp only
    | intro _

theorem execPinsQualified_keeps {σ : State} {s : State} (hk : Keeps σ s) :
    KeepsOut σ (execPinsQualified s) := by
  unfold execPinsQualified
  repeat' first
    | with_reducible assumption
    | with_reducible apply KeepsOut.next
    | with_reducible apply bootStart_keeps
    | refine KeepsOut.use ?_ (by with_reducible assumption)
    | simp only [Keeps.lit_iff]
    | with_reducible refine Keeps.ite ?_ ?_
    | split
    | dsimp only
    | intro _

theorem bootStepDone_keeps {σ : State} {s : State} {step : Nat} (hk : Keeps σ s) :
    Keeps σ (bootStepDone s step) := by
  unfold bootStepDone
  repeat' first
    | with_reducible assumption
    | with_reducible apply setWords_keeps
    | with_reducible apply State.setFld_keeps
    | with_reducible apply event0_keeps
    | with_reducible refine Keeps.ite ?_ ?_
    | split
    | dsimp only
    | intro _

theorem romLine_keeps {σ : State} {s : State} {step status us : Nat} (hk : Keeps σ s) :
    Keeps σ (romLine s step status us) := by
  unfold romLine
  repeat' first
    | with_reducible assumption
    | simp only [Keeps.lit_iff]
    | with_reducible refine Keeps.ite ?_ ?_
    | split
    | dsimp only
    | intro _

theorem execSysBootWrite_keeps {σ : State} {step status : Nat} {serving : Bool} {s : State} (hk : Keeps σ s) :
    KeepsOut σ (execSysBootWrite step status serving s) := by
  unfold execSysBootWrite
  repeat' first
    | with_reducible assumption
    | with_reducible apply KeepsOut.next
    | with_reducible apply State.setRg_keeps
    | with_reducible apply romLine_keeps
    | with_reducible apply event_keeps
    | with_reducible apply bootStepDone_keeps
    | refine KeepsOut.use ?_ (by with_reducible assumption)
    | simp only [Keeps.lit_iff]
    | with_reducible refine Keeps.ite ?_ ?_
    | split
    | dsimp only
    | intro _

theorem execSysWdogKick_keeps {σ : State} {value : Nat} {s : State} (hk : Keeps σ s) :
    KeepsOut σ (execSysWdogKick value s) := by
  unfold execSysWdogKick
  repeat' first
    | with_reducible assumption
    | with_reducible apply KeepsOut.next
    | refine KeepsOut.use ?_ (by with_reducible assumption)
    | simp only [Keeps.lit_iff]
    | with_reducible refine Keeps.ite ?_ ?_
    | split
    | dsimp only
    | intro _

theorem execMcxWatchdogBite_keeps {σ : State} {s : State} (hk : Keeps σ s) :
    KeepsOut σ (execMcxWatchdogBite s) := by
  unfold execMcxWatchdogBite
  repeat' first
    | with_reducible assumption
    | with_reducible apply KeepsOut.next
    | with_reducible apply reachUp_keeps
    | with_reducible apply warmReset_keeps
    | with_reducible apply KeepsOpt.getD
    | with_reducible apply KeepsOpt.orElse
    | refine KeepsOpt.use ?_ (by with_reducible assumption)
    | refine KeepsOut.use ?_ (by with_reducible assumption)
    | with_reducible refine Keeps.ite ?_ ?_
    | split
    | dsimp only
    | intro _

theorem clkFall_keeps {σ : State} {s : State} {bit evt : Nat} (hk : Keeps σ s) :
    Keeps σ (clkFall s bit evt) := by
  unfold clkFall
  repeat' first
    | with_reducible assumption
    | with_reducible apply event_keeps
    | with_reducible apply State.setFld_keeps
    | with_reducible apply State.count_keeps
    | with_reducible refine Keeps.ite ?_ ?_
    | split
    | dsimp only
    | intro _

theorem clkRise_keeps {σ : State} {s : State} {bit : Nat} (hk : Keeps σ s) :
    Keeps σ (clkRise s bit) := by
  unfold clkRise
  repeat' first
    | with_reducible assumption
    | with_reducible apply State.setFld_keeps
    | with_reducible refine Keeps.ite ?_ ?_
    | split
    | dsimp only
    | intro _

theorem clkKhz_keeps {σ : State} {s : State} {ref khz : Nat} (hk : Keeps σ s) :
    Keeps σ (clkKhz s ref khz) := by
  unfold clkKhz
  repeat' first
    | with_reducible assumption
    | with_reducible apply State.setRg_keeps
    | with_reducible refine Keeps.ite ?_ ?_
    | split
    | dsimp only
    | intro _

theorem execRefclkLoss_keeps {σ : State} {ref khz : Nat} {s : State} (hk : Keeps σ s) :
    KeepsOut σ (execRefclkLoss ref khz s) := by
  unfold execRefclkLoss
  repeat' first
    | with_reducible assumption
    | with_reducible apply KeepsOut.next
    | with_reducible apply clkFall_keeps
    | with_reducible apply clkKhz_keeps
    | with_reducible apply holdoverStart_keeps
    | refine KeepsOut.use ?_ (by with_reducible assumption)
    | with_reducible refine Keeps.ite ?_ ?_
    | split
    | dsimp only
    | intro _

theorem execRefclkReturn_keeps {σ : State} {ref khz : Nat} {s : State} (hk : Keeps σ s) :
    KeepsOut σ (execRefclkReturn ref khz s) := by
  unfold execRefclkReturn
  repeat' first
    | with_reducible assumption
    | with_reducible apply KeepsOut.next
    | with_reducible apply clkRise_keeps
    | with_reducible apply clkKhz_keeps
    | refine KeepsOut.use ?_ (by with_reducible assumption)
    | split
    | dsimp only
    | intro _

theorem execPllUnlock_keeps {σ : State} {pll : Nat} {s : State} (hk : Keeps σ s) :
    KeepsOut σ (execPllUnlock pll s) := by
  unfold execPllUnlock
  repeat' first
    | with_reducible assumption
    | with_reducible apply KeepsOut.next
    | with_reducible apply clkFall_keeps
    | refine KeepsOut.use ?_ (by with_reducible assumption)
    | split
    | dsimp only
    | intro _

theorem execPllLock_keeps {σ : State} {pll : Nat} {s : State} (hk : Keeps σ s) :
    KeepsOut σ (execPllLock pll s) := by
  unfold execPllLock
  repeat' first
    | with_reducible assumption
    | with_reducible apply KeepsOut.next
    | with_reducible apply clkRise_keeps
    | refine KeepsOut.use ?_ (by with_reducible assumption)
    | split
    | dsimp only
    | intro _

end Sys2Proof.Machine
end

