-- ==== Sys2Proof/Laws/KeepsPower.lean ====
section
/-!
SUPPORT. What the operations of Machine/Power.lean keep (`Keeps`), one lemma each.
-/

namespace Sys2Proof.Machine

theorem senseOne_keeps {σ : State} {s : State} {k w : Nat} (hk : Keeps σ s) :
    Keeps σ (senseOne s k w) := by
  unfold senseOne
  repeat' first
    | with_reducible assumption
    | with_reducible apply State.setRg_keeps
    | with_reducible apply event0_keeps
    | with_reducible apply fault_keeps
    | with_reducible refine Keeps.ite ?_ ?_
    | split
    | dsimp only
    | intro _

theorem execSensorSample_keeps {σ : State} {readings : List Nat} {s : State} (hk : Keeps σ s) :
    KeepsOut σ (execSensorSample readings s) := by
  unfold execSensorSample
  repeat' first
    | with_reducible assumption
    | with_reducible apply KeepsOut.next
    | with_reducible apply Keeps.foldl
    | with_reducible apply KeepsPair.foldl
    | with_reducible apply senseOne_keeps
    | with_reducible apply State.setRg_keeps
    | refine KeepsOut.use ?_ (by with_reducible assumption)
    | simp only [Keeps.lit_iff]
    | with_reducible refine Keeps.ite ?_ ?_
    | split
    | dsimp only
    | intro _

theorem execThermtripReset_keeps {σ : State} {s : State} (hk : Keeps σ s) :
    KeepsOut σ (execThermtripReset s) := by
  unfold execThermtripReset
  repeat' first
    | with_reducible assumption
    | with_reducible apply KeepsOut.next
    | with_reducible apply reachUp_keeps
    | with_reducible apply pinReset_keeps
    | with_reducible apply KeepsOpt.getD
    | with_reducible apply KeepsOpt.orElse
    | refine KeepsOpt.use ?_ (by with_reducible assumption)
    | refine KeepsOut.use ?_ (by with_reducible assumption)
    | simp only [Keeps.lit_iff]
    | split
    | dsimp only
    | intro _

theorem execAllowanceSample_keeps {σ : State} {s : State} (hk : Keeps σ s) :
    KeepsOut σ (execAllowanceSample s) := by
  unfold execAllowanceSample
  repeat' first
    | with_reducible assumption
    | with_reducible apply KeepsOut.next
    | with_reducible apply State.ccTo_keeps
    | with_reducible apply fault_keeps
    | with_reducible apply State.setRg_keeps
    | with_reducible apply event0_keeps
    | refine KeepsOut.use ?_ (by with_reducible assumption)
    | with_reducible refine Keeps.ite ?_ ?_
    | split
    | dsimp only
    | intro _

theorem railOne_keeps {σ : State} {s : State} {r mv : Nat} (hk : Keeps σ s) :
    Keeps σ (railOne s r mv) := by
  unfold railOne
  repeat' first
    | with_reducible assumption
    | with_reducible apply State.setFld_keeps
    | with_reducible apply fault_keeps
    | simp only [Keeps.lit_iff]
    | with_reducible refine Keeps.ite ?_ ?_
    | split
    | dsimp only
    | intro _

theorem execRailMonitorSample_keeps {σ : State} {mv : List Nat} {s : State} (hk : Keeps σ s) :
    KeepsOut σ (execRailMonitorSample mv s) := by
  unfold execRailMonitorSample
  repeat' first
    | with_reducible assumption
    | with_reducible apply KeepsOut.next
    | with_reducible apply Keeps.foldl
    | with_reducible apply KeepsPair.foldl
    | with_reducible apply railOne_keeps
    | refine KeepsOut.use ?_ (by with_reducible assumption)
    | simp only [Keeps.lit_iff]
    | split
    | dsimp only
    | intro _

theorem avsRefused_keeps {σ : State} {s : State} {code : Nat} (hk : Keeps σ s) :
    Keeps σ (avsRefused s code) := by
  unfold avsRefused
  repeat' first
    | with_reducible assumption
    | with_reducible apply event0_keeps
    | with_reducible apply fault_keeps
    | simp only [Keeps.lit_iff]
    | with_reducible refine Keeps.ite ?_ ?_
    | split
    | dsimp only
    | intro _

theorem execAvsStep_keeps {σ : State} {ok : Bool} {s : State} (hk : Keeps σ s) :
    KeepsOut σ (execAvsStep ok s) := by
  unfold execAvsStep
  repeat' first
    | with_reducible assumption
    | with_reducible apply KeepsOut.next
    | with_reducible apply State.setFld_keeps
    | with_reducible apply avsRefused_keeps
    | refine KeepsOut.use ?_ (by with_reducible assumption)
    | simp only [Keeps.lit_iff]
    | with_reducible refine Keeps.ite ?_ ?_
    | split
    | dsimp only
    | intro _

theorem avsFault_keeps {σ : State} {s : State} {status : Nat} (hk : Keeps σ s) :
    Keeps σ (avsFault s status) := by
  unfold avsFault
  repeat' first
    | with_reducible assumption
    | with_reducible apply event0_keeps
    | with_reducible apply fault_keeps
    | split
    | dsimp only
    | intro _

theorem execAvsPoll_keeps {σ : State} {ok : Bool} {status iout : Nat} {s : State} (hk : Keeps σ s) :
    KeepsOut σ (execAvsPoll ok status iout s) := by
  unfold execAvsPoll
  repeat' first
    | with_reducible assumption
    | with_reducible apply KeepsOut.next
    | with_reducible apply avsRefused_keeps
    | with_reducible apply State.setRg_keeps
    | with_reducible apply avsFault_keeps
    | with_reducible apply fault_keeps
    | refine KeepsOut.use ?_ (by with_reducible assumption)
    | simp only [Keeps.lit_iff]
    | with_reducible refine Keeps.ite ?_ ?_
    | split
    | dsimp only
    | intro _

theorem execPmbAlert_keeps {σ : State} {status : Nat} {s : State} (hk : Keeps σ s) :
    KeepsOut σ (execPmbAlert status s) := by
  unfold execPmbAlert
  repeat' first
    | with_reducible assumption
    | with_reducible apply KeepsOut.next
    | with_reducible apply avsFault_keeps
    | refine KeepsOut.use ?_ (by with_reducible assumption)
    | split
    | dsimp only
    | intro _

theorem execFaultNAsserted_keeps {σ : State} {s : State} (hk : Keeps σ s) :
    KeepsOut σ (execFaultNAsserted s) := by
  unfold execFaultNAsserted
  repeat' first
    | with_reducible assumption
    | with_reducible apply KeepsOut.next
    | with_reducible apply warmReset_keeps
    | with_reducible apply State.count_keeps
    | with_reducible apply State.setFld_keeps
    | with_reducible apply event0_keeps
    | with_reducible apply fault_keeps
    | refine KeepsOut.use ?_ (by with_reducible assumption)
    | simp only [Keeps.lit_iff]
    | with_reducible refine Keeps.ite ?_ ?_
    | split
    | dsimp only
    | intro _

theorem execFaultNReleased_keeps {σ : State} {s : State} (hk : Keeps σ s) :
    KeepsOut σ (execFaultNReleased s) := by
  unfold execFaultNReleased
  repeat' first
    | with_reducible assumption
    | with_reducible apply KeepsOut.next
    | with_reducible apply State.setFld_keeps
    | refine KeepsOut.use ?_ (by with_reducible assumption)
    | simp only [Keeps.lit_iff]
    | with_reducible refine Keeps.ite ?_ ?_
    | split
    | dsimp only
    | intro _

theorem execFaultnClear_keeps {σ : State} {s : State} (hk : Keeps σ s) :
    KeepsOut σ (execFaultnClear s) := by
  unfold execFaultnClear
  repeat' first
    | with_reducible assumption
    | with_reducible apply KeepsOut.next
    | with_reducible apply State.setFld_keeps
    | refine KeepsOut.use ?_ (by with_reducible assumption)
    | with_reducible refine Keeps.ite ?_ ?_
    | split
    | dsimp only
    | intro _

theorem faultnLetGo_keeps {σ : State} {before s : State} (hk : Keeps σ s) :
    Keeps σ (faultnLetGo before s) := by
  unfold faultnLetGo
  repeat' first
    | with_reducible assumption
    | simp only [Keeps.lit_iff]
    | with_reducible refine Keeps.ite ?_ ?_
    | split
    | dsimp only
    | intro _

end Sys2Proof.Machine
end

