-- ==== Sys2Proof/Laws/KeepsRegRead.lean ====
section
/-!
SUPPORT. What the operations of Machine/RegRead.lean keep (`Keeps`), one lemma each.
-/

namespace Sys2Proof.Machine

theorem clearRc_keeps {σ : State} {s : State} {a : Nat} (hk : Keeps σ s) :
    Keeps σ (clearRc s a) := by
  unfold clearRc
  repeat' first
    | with_reducible assumption
    | with_reducible apply Keeps.foldl
    | with_reducible apply KeepsPair.foldl
    | with_reducible apply State.setRg_keeps
    | with_reducible refine Keeps.ite ?_ ?_
    | split
    | dsimp only
    | intro _

theorem latchSec_keeps {σ : State} {s : State} {a : Nat} (hk : Keeps σ s) :
    Keeps σ (latchSec s a) := by
  unfold latchSec
  repeat' first
    | with_reducible assumption
    | with_reducible apply State.setRg_keeps
    | with_reducible refine Keeps.ite ?_ ?_
    | split
    | dsimp only
    | intro _

theorem readReg_keeps {σ : State} {s : State} {req a : Nat} (hk : Keeps σ s) :
    KeepsPair σ (readReg s req a) := by
  unfold readReg
  repeat' first
    | with_reducible assumption
    | with_reducible apply latchSec_keeps
    | with_reducible apply clearRc_keeps
    | refine KeepsPair.use ?_ (by with_reducible assumption)
    | with_reducible apply KeepsPair.fst
    | simp only [KeepsPair.mk_iff]
    | simp only [Keeps.lit_iff]
    | with_reducible refine Keeps.ite ?_ ?_
    | split
    | dsimp only
    | intro _

end Sys2Proof.Machine
end

