-- ==== Sys2Proof/Laws/KeepsRegWrite.lean ====
section
/-!
SUPPORT. What the operations of Machine/RegWrite.lean keep (`Keeps`), one lemma each.
-/

namespace Sys2Proof.Machine

theorem outState_keeps {σ s : State} {o : Host.Outcome State Fault Refusal} (h : Keeps σ s) (ho : KeepsOut σ o) :
    Keeps σ (outState s o) := by
  unfold outState
  split
  · exact ho _ rfl
  · exact h

theorem ethLinksDown_keeps {σ : State} {s : State} {n : Nat} (hk : Keeps σ s) :
    Keeps σ (ethLinksDown s n) := by
  unfold ethLinksDown
  repeat' first
    | with_reducible assumption
    | with_reducible apply Keeps.foldl
    | with_reducible apply KeepsPair.foldl
    | with_reducible apply outState_keeps
    | with_reducible apply execLinkChange_keeps
    | refine KeepsOut.use ?_ (by with_reducible assumption)
    | split
    | dsimp only
    | intro _

theorem pciLinksDown_keeps {σ : State} {s : State} {n : Nat} (hk : Keeps σ s) :
    Keeps σ (pciLinksDown s n) := by
  unfold pciLinksDown
  repeat' first
    | with_reducible assumption
    | with_reducible apply Keeps.foldl
    | with_reducible apply KeepsPair.foldl
    | with_reducible apply linkDown_keeps
    | with_reducible refine Keeps.ite ?_ ?_
    | split
    | dsimp only
    | intro _

theorem ethUp_keeps {σ : State} {s : State} {n : Nat} (hk : Keeps σ s) :
    Keeps σ (ethUp s n) := by
  unfold ethUp
  repeat' first
    | with_reducible assumption
    | with_reducible apply ethLinksDown_keeps
    | simp only [Keeps.lit_iff]
    | split
    | dsimp only
    | intro _

theorem enChange_keeps {σ : State} {s : State} {b : Blk} {n : Nat} (hk : Keeps σ s) :
    Keeps σ (enChange s b n) := by
  unfold enChange
  repeat' first
    | with_reducible assumption
    | with_reducible apply trwDisable_keeps
    | with_reducible apply synceTurn_keeps
    | with_reducible apply ethUp_keeps
    | with_reducible apply ethLinksDown_keeps
    | with_reducible apply pciLinksDown_keeps
    | with_reducible apply outState_keeps
    | with_reducible apply execLinkChange_keeps
    | with_reducible apply releaseHeld_keeps
    | with_reducible apply flipDismiss_keeps
    | with_reducible apply flipApply_keeps
    | with_reducible apply injectTurn_keeps
    | refine KeepsOut.use ?_ (by with_reducible assumption)
    | simp only [Keeps.lit_iff]
    | with_reducible refine Keeps.ite ?_ ?_
    | split
    | dsimp only
    | intro _

theorem tilesDisabled_keeps {σ : State} {s : State} (hk : Keeps σ s) :
    Keeps σ (tilesDisabled s) := by
  unfold tilesDisabled
  repeat' first
    | with_reducible assumption
    | with_reducible apply Keeps.foldl
    | with_reducible apply KeepsPair.foldl
    | with_reducible apply State.setTile_keeps
    | simp only [Keeps.lit_iff]
    | with_reducible refine Keeps.ite ?_ ?_
    | split
    | dsimp only
    | intro _

theorem rdlApply_keeps {σ : State} {s : State} (hk : Keeps σ s) :
    Keeps σ (rdlApply s) := by
  unfold rdlApply
  repeat' first
    | with_reducible assumption
    | with_reducible apply Keeps.foldl
    | with_reducible apply KeepsPair.foldl
    | with_reducible apply event0_keeps
    | with_reducible apply rwtPlain_keeps
    | simp only [Keeps.lit_iff]
    | with_reducible refine Keeps.ite ?_ ?_
    | split
    | dsimp only
    | intro _

theorem ctxForceApply_keeps {σ : State} {s : State} (hk : Keeps σ s) :
    Keeps σ (ctxForceApply s) := by
  unfold ctxForceApply
  repeat' first
    | with_reducible assumption
    | with_reducible apply rwtPlain_keeps
    | with_reducible apply State.setFld_keeps
    | with_reducible apply ctxForce_keeps
    | split
    | dsimp only
    | intro _

theorem grantApply_keeps {σ : State} {s : State} (hk : Keeps σ s) :
    Keeps σ (grantApply s) := by
  unfold grantApply
  repeat' first
    | with_reducible assumption
    | with_reducible apply frmGrant_keeps
    | with_reducible apply rwtPlain_keeps
    | with_reducible refine Keeps.ite ?_ ?_
    | split
    | dsimp only
    | intro _

theorem devresApply_keeps {σ : State} {s : State} (hk : Keeps σ s) :
    Keeps σ (devresApply s) := by
  unfold devresApply
  repeat' first
    | with_reducible assumption
    | with_reducible apply rwtPlain_keeps
    | with_reducible apply State.setFld_keeps
    | with_reducible apply devresRelease_keeps
    | with_reducible apply devresTake_keeps
    | with_reducible refine Keeps.ite ?_ ?_
    | split
    | dsimp only
    | intro _

theorem rwtAction_keeps {σ t : State} {a : Nat} {f : State → State} (h : Keeps σ t) (e : rwtAction a = some f) :
    Keeps σ (f t) := by
  unfold rwtAction at e
  repeat' split at e
  all_goals first
    | (cases e; first
        | exact h
        | exact ctxForceApply_keeps h
        | exact grantApply_keeps h
        | exact devresApply_keeps h
        | exact flipApply_keeps h
        | exact mcmdApply_keeps h)
    | cases e

theorem rwtNow_keeps {σ : State} {s : State} {b : Blk} {n off a : Nat} (hk : Keeps σ s) :
    Keeps σ (rwtNow s b n off a) := by
  unfold rwtNow
  repeat' first
    | with_reducible assumption
    | refine rwtAction_keeps ?_ (by with_reducible assumption)
    | with_reducible apply flipDismiss_keeps
    | with_reducible apply rwtPlain_keeps
    | with_reducible apply tilesDisabled_keeps
    | with_reducible apply enChange_keeps
    | with_reducible apply grantApply_keeps
    | with_reducible apply boundsMoved_keeps
    | with_reducible apply rdlApply_keeps
    | with_reducible apply gatesApply_keeps
    | with_reducible refine Keeps.ite ?_ ?_
    | split
    | dsimp only
    | intro _

theorem rwtFields_keeps {σ : State} {s : State} (hk : Keeps σ s) :
    Keeps σ (rwtFields s) := by
  unfold rwtFields
  repeat' first
    | with_reducible assumption
    | with_reducible apply Keeps.foldl
    | with_reducible apply KeepsPair.foldl
    | with_reducible apply enChange_keeps
    | with_reducible apply rwtPlain_keeps
    | split
    | dsimp only
    | intro _

theorem rwtActs_keeps {σ : State} {s : State} (hk : Keeps σ s) :
    Keeps σ (rwtActs s) := by
  unfold rwtActs
  repeat' first
    | with_reducible assumption
    | refine rwtAction_keeps ?_ (by with_reducible assumption)
    | with_reducible apply Keeps.foldl
    | with_reducible apply KeepsPair.foldl
    | with_reducible refine Keeps.ite ?_ ?_
    | split
    | dsimp only
    | intro _

theorem rwtBoundary_keeps {σ : State} {s : State} (hk : Keeps σ s) :
    Keeps σ (rwtBoundary s) := by
  unfold rwtBoundary
  repeat' first
    | with_reducible assumption
    | with_reducible apply Keeps.foldl
    | with_reducible apply KeepsPair.foldl
    | with_reducible apply rwtFields_keeps
    | with_reducible apply boundsApply_keeps
    | with_reducible apply rwtActs_keeps
    | with_reducible apply rdlApply_keeps
    | with_reducible apply event0_keeps
    | split
    | dsimp only
    | intro _

theorem tickLenWrite_keeps {σ : State} {s : State} {v : Nat} (hk : Keeps σ s) :
    Keeps σ (tickLenWrite s v) := by
  unfold tickLenWrite
  repeat' first
    | with_reducible assumption
    | with_reducible apply event0_keeps
    | with_reducible apply State.setRg_keeps
    | simp only [Keeps.lit_iff]
    | with_reducible refine Keeps.ite ?_ ?_
    | split
    | dsimp only
    | intro _

theorem sysEffect_keeps {σ : State} {s : State} {b : Blk} {off v : Nat} (hk : Keeps σ s) :
    KeepsOpt σ (sysEffect s b off v) := by
  unfold sysEffect
  repeat' first
    | with_reducible assumption
    | exact KeepsOpt.none
    | with_reducible apply KeepsOpt.some
    | with_reducible apply outState_keeps
    | with_reducible apply execSysReset_keeps
    | with_reducible apply execSysBootWrite_keeps
    | with_reducible apply wordWrite_keeps
    | with_reducible apply execSysWdogKick_keeps
    | with_reducible apply execCommitArb_keeps
    | with_reducible apply execSelectSlot_keeps
    | with_reducible apply execRelock_keeps
    | with_reducible apply execNewchal_keeps
    | with_reducible apply execReport_keeps
    | with_reducible apply execAttToken_keeps
    | with_reducible apply keyCmd_keeps
    | with_reducible apply execPrtResetStart_keeps
    | with_reducible apply execPrtResetCommit_keeps
    | with_reducible apply execLbistAbort_keeps
    | with_reducible apply execLbistArm_keeps
    | with_reducible apply mbCommand_keeps
    | with_reducible apply execPoisonAdd_keeps
    | with_reducible apply execPoisonDel_keeps
    | with_reducible apply KeepsOpt.getD
    | with_reducible apply KeepsOpt.orElse
    | refine KeepsOpt.use ?_ (by with_reducible assumption)
    | refine KeepsOut.use ?_ (by with_reducible assumption)
    | simp only [Keeps.lit_iff]
    | with_reducible refine Keeps.ite ?_ ?_
    | split
    | dsimp only
    | intro _

theorem coreEffect_keeps {σ : State} {s : State} {b : Blk} {n off v : Nat} (hk : Keeps σ s) :
    KeepsOpt σ (coreEffect s b n off v) := by
  unfold coreEffect
  repeat' first
    | with_reducible assumption
    | exact KeepsOpt.none
    | with_reducible apply KeepsOpt.some
    | with_reducible apply outState_keeps
    | with_reducible apply tickLenWrite_keeps
    | with_reducible apply labClear_keeps
    | with_reducible apply labDrop_keeps
    | with_reducible apply execRdlLookup_keeps
    | with_reducible apply rdlIssue_keeps
    | with_reducible apply execTrwAbort_keeps
    | with_reducible apply execTrwStart_keeps
    | with_reducible apply event0_keeps
    | with_reducible apply wordWrite_keeps
    | with_reducible apply State.setFld_keeps
    | with_reducible apply execTilStop_keeps
    | with_reducible apply execTilStart_keeps
    | with_reducible apply execConnOpen_keeps
    | with_reducible apply execConnClose_keeps
    | with_reducible apply execRegionValidate_keeps
    | with_reducible apply execRegionRevoke_keeps
    | with_reducible apply KeepsOpt.getD
    | with_reducible apply KeepsOpt.orElse
    | refine KeepsOpt.use ?_ (by with_reducible assumption)
    | refine KeepsOut.use ?_ (by with_reducible assumption)
    | with_reducible refine Keeps.ite ?_ ?_
    | split
    | dsimp only
    | intro _

theorem edgeEffect_keeps {σ : State} {s : State} {b : Blk} {n off v : Nat} (hk : Keeps σ s) :
    KeepsOpt σ (edgeEffect s b n off v) := by
  unfold edgeEffect
  repeat' first
    | with_reducible assumption
    | exact KeepsOpt.none
    | with_reducible apply KeepsOpt.some
    | with_reducible apply Keeps.foldl
    | with_reducible apply KeepsPair.foldl
    | with_reducible apply outState_keeps
    | with_reducible apply faultnLetGo_keeps
    | with_reducible apply wordWrite_keeps
    | with_reducible apply execFaultnClear_keeps
    | with_reducible apply execPtpCfgWrite_keeps
    | with_reducible apply execPtpFreqWrite_keeps
    | with_reducible apply execPtpSlewWrite_keeps
    | with_reducible apply slewBook_keeps
    | with_reducible apply execServoLockWrite_keeps
    | with_reducible apply linkDown_keeps
    | with_reducible apply execLinkChange_keeps
    | with_reducible apply execFabEpochNextWrite_keeps
    | with_reducible apply KeepsOpt.getD
    | with_reducible apply KeepsOpt.orElse
    | refine KeepsOpt.use ?_ (by with_reducible assumption)
    | refine KeepsOut.use ?_ (by with_reducible assumption)
    | simp only [Keeps.lit_iff]
    | with_reducible refine Keeps.ite ?_ ?_
    | split
    | dsimp only
    | intro _

theorem headEffect_keeps {σ : State} {s : State} {b : Blk} {n off v : Nat} (hk : Keeps σ s) :
    KeepsOpt σ (headEffect s b n off v) := by
  unfold headEffect
  repeat' first
    | with_reducible assumption
    | exact KeepsOpt.none
    | with_reducible apply KeepsOpt.some
    | with_reducible apply fltStays_keeps
    | with_reducible apply State.setRg_keeps
    | with_reducible apply faultnLetGo_keeps
    | with_reducible apply evtStays_keeps
    | with_reducible apply wordWrite_keeps
    | with_reducible apply KeepsOpt.getD
    | with_reducible apply KeepsOpt.orElse
    | refine KeepsOpt.use ?_ (by with_reducible assumption)
    | with_reducible refine Keeps.ite ?_ ?_
    | split
    | dsimp only
    | intro _

theorem oneWrite_keeps {σ : State} {s : State} {a v : Nat} (hk : Keeps σ s) :
    Keeps σ (oneWrite s a v) := by
  unfold oneWrite
  repeat' first
    | with_reducible assumption
    | with_reducible apply headEffect_keeps
    | with_reducible apply sysEffect_keeps
    | with_reducible apply coreEffect_keeps
    | with_reducible apply edgeEffect_keeps
    | with_reducible apply wordWrite_keeps
    | with_reducible apply rwtNow_keeps
    | with_reducible apply KeepsOpt.getD
    | with_reducible apply KeepsOpt.orElse
    | refine KeepsOpt.use ?_ (by with_reducible assumption)
    | with_reducible refine Keeps.ite ?_ ?_
    | split
    | dsimp only
    | intro _

theorem writeReg_keeps {σ : State} {s : State} {a v : Nat} (hk : Keeps σ s) :
    Keeps σ (writeReg s a v) := by
  unfold writeReg
  repeat' first
    | with_reducible assumption
    | with_reducible apply event0_keeps
    | with_reducible apply outState_keeps
    | with_reducible apply execPtpStepWrite_keeps
    | with_reducible apply oneWrite_keeps
    | with_reducible apply trwBlock_keeps
    | refine KeepsOut.use ?_ (by with_reducible assumption)
    | simp only [Keeps.lit_iff]
    | with_reducible refine Keeps.ite ?_ ?_
    | split
    | dsimp only
    | intro _

end Sys2Proof.Machine
end

