-- ==== Sys2Proof/Laws/KeepsViews.lean ====
section
/-!
SUPPORT. What the operations of Machine/Views.lean keep (`Keeps`), one lemma each.
-/

namespace Sys2Proof.Machine

theorem frameOfNat_keeps {σ : State} {s : State} {f x : Nat} (hk : Keeps σ s) :
    Keeps σ (frameOfNat s f x) := by
  unfold frameOfNat
  repeat' first
    | with_reducible assumption
    | with_reducible apply State.setLoc_keeps
    | with_reducible apply State.setFrame_keeps
    | with_reducible refine Keeps.ite ?_ ?_
    | split
    | dsimp only
    | intro _

theorem connOfNat_keeps {σ : State} {s : State} {i x : Nat} (hk : Keeps σ s) :
    Keeps σ (connOfNat s i x) := by
  unfold connOfNat
  repeat' first
    | with_reducible assumption
    | with_reducible apply State.setConn_keeps
    | with_reducible refine Keeps.ite ?_ ?_
    | split
    | dsimp only
    | intro _

theorem tableWrite_keeps {σ : State} {s : State} {t b v : Nat} (hk : Keeps σ s) :
    Keeps σ (tableWrite s t b v) := by
  unfold tableWrite
  repeat' first
    | with_reducible assumption
    | with_reducible apply State.setCtx_keeps
    | with_reducible apply State.setReq_keeps
    | with_reducible apply frameOfNat_keeps
    | with_reducible apply connOfNat_keeps
    | split
    | dsimp only
    | intro _

theorem viewRead_keeps {σ : State} {s : State} {v off : Nat} {bad : Bool} (hk : Keeps σ s) :
    KeepsPair σ (viewRead s v off bad) := by
  unfold viewRead
  repeat' first
    | with_reducible assumption
    | with_reducible apply State.count_keeps
    | with_reducible apply fault_keeps
    | with_reducible apply State.draw_keeps
    | refine KeepsPair.use ?_ (by with_reducible assumption)
    | with_reducible apply KeepsPair.fst
    | simp only [KeepsPair.mk_iff]
    | with_reducible refine Keeps.ite ?_ ?_
    | split
    | dsimp only
    | intro _

theorem viewWrite_keeps {σ : State} {s : State} {v off x : Nat} (hk : Keeps σ s) :
    Keeps σ (viewWrite s v off x) := by
  unfold viewWrite
  repeat' first
    | with_reducible assumption
    | with_reducible apply tableWrite_keeps
    | with_reducible refine Keeps.ite ?_ ?_
    | split
    | dsimp only
    | intro _

end Sys2Proof.Machine
end

