-- ==== Sys2Proof/Laws/KeepsAccess.lean ====
section
/-!
SUPPORT. What the operations of Machine/Access.lean keep (`Keeps`), one lemma each.
-/

namespace Sys2Proof.Machine

theorem accessFault_keeps {σ : State} {s : State} {req a : Nat} (hk : Keeps σ s) :
    Keeps σ (accessFault s req a) := by
  unfold accessFault
  repeat' first
    | with_reducible assumption
    | with_reducible apply fault_keeps
    | split
    | dsimp only
    | intro _

theorem memRead_keeps {σ : State} {s : State} {a src : Nat} {bad : Bool} (hk : Keeps σ s) :
    KeepsPair σ (memRead s a src bad) := by
  unfold memRead
  repeat' first
    | with_reducible assumption
    | with_reducible apply fenFault_keeps
    | with_reducible apply uncorr_keeps
    | refine KeepsPair.use ?_ (by with_reducible assumption)
    | with_reducible apply KeepsPair.fst
    | simp only [KeepsPair.mk_iff]
    | with_reducible refine Keeps.ite ?_ ?_
    | split
    | dsimp only
    | intro _

theorem memWrite_keeps {σ : State} {s : State} {a v : Nat} (hk : Keeps σ s) :
    Keeps σ (memWrite s a v) := by
  unfold memWrite
  repeat' first
    | with_reducible assumption
    | with_reducible apply pathWritten_keeps
    | with_reducible apply State.writeLE_keeps
    | split
    | dsimp only
    | intro _

theorem wordDo_keeps {σ : State} {s : State} {write : Bool} {a v : Nat} {bad : Bool} (hk : Keeps σ s) :
    KeepsPair σ (wordDo s write a v bad) := by
  unfold wordDo
  repeat' first
    | with_reducible assumption
    | with_reducible apply memWrite_keeps
    | with_reducible apply memRead_keeps
    | refine KeepsPair.use ?_ (by with_reducible assumption)
    | with_reducible apply KeepsPair.fst
    | simp only [KeepsPair.mk_iff]
    | with_reducible refine Keeps.ite ?_ ?_
    | split
    | dsimp only
    | intro _

/-- The state that a run of words hands on. -/
def KeepsWords (σ : State) (o : WordsOut) : Prop := Keeps σ o.s

theorem KeepsWords.mk {σ s : State} {st n : Nat} {r : List (Nat × Nat)} {l : Option (Nat × List Nat)} (h : Keeps σ s) :
    KeepsWords σ ⟨s, st, r, n, l⟩ := h
theorem KeepsWords.fst {σ : State} {o : WordsOut} (h : KeepsWords σ o) : Keeps σ o.s := h

theorem wordsRun_keeps {σ : State} {refuse : State → Nat → Nat} {who : Nat} {write : Bool} {bad : Option Nat} {s : State} {a : Nat}
    {read : List (Nat × Nat)} {n : Nat} {l : List Nat} (hk : Keeps σ s) :
    KeepsWords σ (wordsRun refuse who write bad s a read n l) := by
  induction l generalizing s a read n with
  | nil => exact hk
  | cons v vs ih =>
    unfold wordsRun
    dsimp only
    have h := wordDo_keeps (write := write) (a := a) (v := v) (bad := bad == some n) hk
    split
    · exact hk
    split
    · exact dpwHold_keeps hk
    split
    · exact h
    · exact ih h

theorem wordsResume_keeps {σ : State} {refuse : State → Nat → Nat} {who : Nat} {r : WordRun} {bad : Bool} {s : State}
    (hk : Keeps σ s) : KeepsWords σ (wordsResume refuse who r bad s) := by
  unfold wordsResume
  split
  · exact hk
  · next v vs _ =>
    dsimp only
    have h := wordDo_keeps (write := r.write) (a := r.addr) (v := v) (bad := bad || r.bad == some r.done) hk
    split
    · exact hk
    split
    · exact h
    · exact wordsRun_keeps h

theorem State.answer_keeps {σ : State} {s : State} {c v : Nat} (hk : Keeps σ s) :
    Keeps σ (State.answer s c v) := by
  unfold State.answer
  repeat' first
    | with_reducible assumption
    | simp only [Keeps.lit_iff]
    | split
    | dsimp only
    | intro _

theorem dpwFail_keeps {σ : State} {s : State} {c status : Nat} (hk : Keeps σ s) :
    Keeps σ (dpwFail s c status) := by
  unfold dpwFail
  repeat' first
    | with_reducible assumption
    | with_reducible apply State.setRg_keeps
    | split
    | dsimp only
    | intro _

theorem dpwPerform_keeps {σ : State} {s : State} {c a v : Nat} {write bad : Bool} (hk : Keeps σ s) :
    Keeps σ (dpwPerform s c a v write bad) := by
  unfold dpwPerform
  repeat' first
    | with_reducible assumption
    | with_reducible apply State.setRg64_keeps
    | with_reducible apply memWrite_keeps
    | with_reducible apply memRead_keeps
    | with_reducible apply dpwFail_keeps
    | with_reducible apply State.answer_keeps
    | refine KeepsPair.use ?_ (by with_reducible assumption)
    | with_reducible apply KeepsPair.fst
    | simp only [KeepsPair.mk_iff]
    | with_reducible refine Keeps.ite ?_ ?_
    | split
    | dsimp only
    | intro _

theorem dpwData_keeps {σ : State} {s : State} {c v : Nat} {write bad : Bool} (hk : Keeps σ s) :
    Keeps σ (dpwData s c v write bad) := by
  unfold dpwData
  repeat' first
    | with_reducible assumption
    | with_reducible apply dpwFail_keeps
    | with_reducible apply State.answer_keeps
    | with_reducible apply dpwHold_keeps
    | with_reducible apply dpwPerform_keeps
    | with_reducible refine Keeps.ite ?_ ?_
    | split
    | dsimp only
    | intro _

theorem dpwServed_keeps {σ : State} {s : State} {h : DpwHeld} {bad : Bool} (hk : Keeps σ s) :
    Keeps σ (dpwServed s h bad) := by
  unfold dpwServed
  repeat' first
    | with_reducible assumption
    | with_reducible apply dpwFail_keeps
    | with_reducible apply State.answer_keeps
    | with_reducible apply dpwPerform_keeps
    | with_reducible refine Keeps.ite ?_ ?_
    | split
    | dsimp only
    | intro _

theorem coreStore_keeps {σ : State} {s : State} {c a v : Nat} (hk : Keeps σ s) :
    Keeps σ (coreStore s c a v) := by
  unfold coreStore
  repeat' first
    | with_reducible assumption
    | with_reducible apply viewWrite_keeps
    | with_reducible apply dpwData_keeps
    | with_reducible apply writeReg_keeps
    | with_reducible refine Keeps.ite ?_ ?_
    | split
    | dsimp only
    | intro _

theorem coreLoad_keeps {σ : State} {s : State} {c a : Nat} {bad : Bool} (hk : Keeps σ s) :
    Keeps σ (coreLoad s c a bad) := by
  unfold coreLoad
  repeat' first
    | with_reducible assumption
    | with_reducible apply viewRead_keeps
    | with_reducible apply State.answer_keeps
    | with_reducible apply dpwData_keeps
    | with_reducible apply readReg_keeps
    | refine KeepsPair.use ?_ (by with_reducible assumption)
    | with_reducible apply KeepsPair.fst
    | simp only [KeepsPair.mk_iff]
    | with_reducible refine Keeps.ite ?_ ?_
    | split
    | dsimp only
    | intro _

theorem coreAccess_keeps {σ : State} {s : State} {c a width : Nat} {write : Bool} {v : Nat} {bad : Bool} (hk : Keeps σ s) :
    Keeps σ (coreAccess s c a width write v bad) := by
  unfold coreAccess
  repeat' first
    | with_reducible assumption
    | with_reducible apply accessFault_keeps
    | with_reducible apply State.answer_keeps
    | with_reducible apply coreStore_keeps
    | with_reducible apply coreLoad_keeps
    | with_reducible refine Keeps.ite ?_ ?_
    | split
    | dsimp only
    | intro _

theorem execRegisterWrite_keeps {σ : State} {core addr value width : Nat} {s : State} (hk : Keeps σ s) :
    KeepsOut σ (execRegisterWrite core addr value width s) := by
  unfold execRegisterWrite
  repeat' first
    | with_reducible assumption
    | with_reducible apply KeepsOut.next
    | with_reducible apply coreAccess_keeps
    | refine KeepsOut.use ?_ (by with_reducible assumption)
    | split
    | dsimp only
    | intro _

theorem execWideRegisterAccess_keeps {σ : State} {core addr : Nat} {write : Bool} {value : Nat} {s : State} (hk : Keeps σ s) :
    KeepsOut σ (execWideRegisterAccess core addr write value s) := by
  unfold execWideRegisterAccess
  repeat' first
    | with_reducible assumption
    | with_reducible apply KeepsOut.next
    | with_reducible apply coreAccess_keeps
    | refine KeepsOut.use ?_ (by with_reducible assumption)
    | with_reducible refine Keeps.ite ?_ ?_
    | split
    | dsimp only
    | intro _

theorem execCounterReadClear_keeps {σ : State} {core addr : Nat} {s : State} (hk : Keeps σ s) :
    KeepsOut σ (execCounterReadClear core addr s) := by
  unfold execCounterReadClear
  repeat' first
    | with_reducible assumption
    | with_reducible apply KeepsOut.next
    | with_reducible apply coreAccess_keeps
    | refine KeepsOut.use ?_ (by with_reducible assumption)
    | with_reducible refine Keeps.ite ?_ ?_
    | split
    | dsimp only
    | intro _

theorem execViewAccess_keeps {σ : State} {core view off : Nat} {write : Bool} {value : Nat} {bad : Bool} {s : State} (hk : Keeps
    σ s) :
    KeepsOut σ (execViewAccess core view off write value bad s) := by
  unfold execViewAccess
  repeat' first
    | with_reducible assumption
    | with_reducible apply KeepsOut.next
    | with_reducible apply coreAccess_keeps
    | refine KeepsOut.use ?_ (by with_reducible assumption)
    | split
    | dsimp only
    | intro _

theorem headWrite_keeps {σ : State} {s : State} {page off v : Nat} (hk : Keeps σ s) :
    Keeps σ (headWrite s page off v) := by
  unfold headWrite
  repeat' first
    | with_reducible assumption
    | with_reducible apply writeReg_keeps
    | split
    | dsimp only
    | intro _

theorem execBlkLockWrite_keeps {σ : State} {page value : Nat} {s : State} (hk : Keeps σ s) :
    KeepsOut σ (execBlkLockWrite page value s) := by
  unfold execBlkLockWrite
  repeat' first
    | with_reducible assumption
    | with_reducible apply KeepsOut.next
    | with_reducible apply headWrite_keeps
    | refine KeepsOut.use ?_ (by with_reducible assumption)
    | split
    | dsimp only
    | intro _

theorem execBlkEvtClear_keeps {σ : State} {page bits : Nat} {s : State} (hk : Keeps σ s) :
    KeepsOut σ (execBlkEvtClear page bits s) := by
  unfold execBlkEvtClear
  repeat' first
    | with_reducible assumption
    | with_reducible apply KeepsOut.next
    | with_reducible apply headWrite_keeps
    | refine KeepsOut.use ?_ (by with_reducible assumption)
    | split
    | dsimp only
    | intro _

theorem execBlkFltClear_keeps {σ : State} {page value : Nat} {s : State} (hk : Keeps σ s) :
    KeepsOut σ (execBlkFltClear page value s) := by
  unfold execBlkFltClear
  repeat' first
    | with_reducible assumption
    | with_reducible apply KeepsOut.next
    | with_reducible apply headWrite_keeps
    | refine KeepsOut.use ?_ (by with_reducible assumption)
    | split
    | dsimp only
    | intro _

theorem execDpwDataAccess_keeps {σ : State} {core : Nat} {write : Bool} {value : Nat} {bad : Bool} {s : State} (hk : Keeps σ s)
    :
    KeepsOut σ (execDpwDataAccess core write value bad s) := by
  unfold execDpwDataAccess
  repeat' first
    | with_reducible assumption
    | with_reducible apply KeepsOut.next
    | with_reducible apply dpwData_keeps
    | refine KeepsOut.use ?_ (by with_reducible assumption)
    | with_reducible refine Keeps.ite ?_ ?_
    | split
    | dsimp only
    | intro _

theorem execCtxForceClearStarved_keeps {σ : State} {slot gen : Nat} {s : State} (hk : Keeps σ s) :
    KeepsOut σ (execCtxForceClearStarved slot gen s) := by
  unfold execCtxForceClearStarved
  repeat' first
    | with_reducible assumption
    | with_reducible apply KeepsOut.next
    | with_reducible apply writeReg_keeps
    | refine KeepsOut.use ?_ (by with_reducible assumption)
    | split
    | dsimp only
    | intro _

theorem execCtxForceLost_keeps {σ : State} {slot gen : Nat} {s : State} (hk : Keeps σ s) :
    KeepsOut σ (execCtxForceLost slot gen s) := by
  unfold execCtxForceLost
  repeat' first
    | with_reducible assumption
    | with_reducible apply KeepsOut.next
    | with_reducible apply writeReg_keeps
    | refine KeepsOut.use ?_ (by with_reducible assumption)
    | split
    | dsimp only
    | intro _

theorem execCtxForceRelease_keeps {σ : State} {slot gen : Nat} {s : State} (hk : Keeps σ s) :
    KeepsOut σ (execCtxForceRelease slot gen s) := by
  unfold execCtxForceRelease
  repeat' first
    | with_reducible assumption
    | with_reducible apply KeepsOut.next
    | with_reducible apply writeReg_keeps
    | refine KeepsOut.use ?_ (by with_reducible assumption)
    | split
    | dsimp only
    | intro _

theorem execLabInvalidateSlot_keeps {σ : State} {slot : Nat} {s : State} (hk : Keeps σ s) :
    KeepsOut σ (execLabInvalidateSlot slot s) := by
  unfold execLabInvalidateSlot
  repeat' first
    | with_reducible assumption
    | with_reducible apply KeepsOut.next
    | with_reducible apply writeReg_keeps
    | refine KeepsOut.use ?_ (by with_reducible assumption)
    | split
    | dsimp only
    | intro _

theorem execLabInvalidateAll_keeps {σ : State} {s : State} (hk : Keeps σ s) :
    KeepsOut σ (execLabInvalidateAll s) := by
  unfold execLabInvalidateAll
  repeat' first
    | with_reducible assumption
    | with_reducible apply KeepsOut.next
    | with_reducible apply writeReg_keeps
    | refine KeepsOut.use ?_ (by with_reducible assumption)
    | split
    | dsimp only
    | intro _

theorem execFrmGrantToPartition_keeps {σ : State} {part tier count : Nat} {s : State} (hk : Keeps σ s) :
    KeepsOut σ (execFrmGrantToPartition part tier count s) := by
  unfold execFrmGrantToPartition
  repeat' first
    | with_reducible assumption
    | with_reducible apply KeepsOut.next
    | with_reducible apply writeReg_keeps
    | refine KeepsOut.use ?_ (by with_reducible assumption)
    | split
    | dsimp only
    | intro _

theorem execFrmGrantToPool_keeps {σ : State} {part tier count : Nat} {s : State} (hk : Keeps σ s) :
    KeepsOut σ (execFrmGrantToPool part tier count s) := by
  unfold execFrmGrantToPool
  repeat' first
    | with_reducible assumption
    | with_reducible apply KeepsOut.next
    | with_reducible apply writeReg_keeps
    | refine KeepsOut.use ?_ (by with_reducible assumption)
    | split
    | dsimp only
    | intro _

theorem execFrmDevresTake_keeps {σ : State} {frame : Nat} {s : State} (hk : Keeps σ s) :
    KeepsOut σ (execFrmDevresTake frame s) := by
  unfold execFrmDevresTake
  repeat' first
    | with_reducible assumption
    | with_reducible apply KeepsOut.next
    | with_reducible apply writeReg_keeps
    | refine KeepsOut.use ?_ (by with_reducible assumption)
    | split
    | dsimp only
    | intro _

theorem execFrmDevresRelease_keeps {σ : State} {frame : Nat} {s : State} (hk : Keeps σ s) :
    KeepsOut σ (execFrmDevresRelease frame s) := by
  unfold execFrmDevresRelease
  repeat' first
    | with_reducible assumption
    | with_reducible apply KeepsOut.next
    | with_reducible apply writeReg_keeps
    | refine KeepsOut.use ?_ (by with_reducible assumption)
    | split
    | dsimp only
    | intro _

theorem execDbrRawArm_keeps {σ : State} {stack words : Nat} {s : State} (hk : Keeps σ s) :
    KeepsOut σ (execDbrRawArm stack words s) := by
  unfold execDbrRawArm
  repeat' first
    | with_reducible assumption
    | with_reducible apply KeepsOut.next
    | with_reducible apply writeReg_keeps
    | refine KeepsOut.use ?_ (by with_reducible assumption)
    | split
    | dsimp only
    | intro _

theorem execTplTickLenWrite_keeps {σ : State} {value : Nat} {s : State} (hk : Keeps σ s) :
    KeepsOut σ (execTplTickLenWrite value s) := by
  unfold execTplTickLenWrite
  repeat' first
    | with_reducible assumption
    | with_reducible apply KeepsOut.next
    | with_reducible apply writeReg_keeps
    | refine KeepsOut.use ?_ (by with_reducible assumption)
    | split
    | dsimp only
    | intro _

end Sys2Proof.Machine
end

