-- ==== Sys2Proof/Laws/KeepsTick.lean ====
section
/-!
SUPPORT. What the operations of Machine/Tick.lean keep (`Keeps`), one lemma each.
-/

namespace Sys2Proof.Machine

theorem bookList_keeps {σ : State} {s : State} {n : Nat} (hk : Keeps σ s) :
    Keeps σ (bookList s n) := by
  unfold bookList
  repeat' first
    | with_reducible assumption
    | with_reducible apply State.writeBytes_keeps
    | with_reducible apply State.setRg_keeps
    | split
    | dsimp only
    | intro _

theorem walkLab_keeps {σ : State} {s : State} {slot : Nat} {pages : List (Nat × Nat)} (hk : Keeps σ s) :
    Keeps σ (walkLab s slot pages) := by
  unfold walkLab
  repeat' first
    | with_reducible assumption
    | with_reducible apply Keeps.foldl
    | with_reducible apply KeepsPair.foldl
    | with_reducible apply walkDir_keeps
    | split
    | dsimp only
    | intro _

theorem walkOut_keeps {σ : State} {s : State} {it : Item} {k : Nat} (hk : Keeps σ s) :
    Keeps σ (walkOut s it k) := by
  unfold walkOut
  repeat' first
    | with_reducible assumption
    | with_reducible apply State.writeBytes_keeps
    | split
    | dsimp only
    | intro _

theorem walkChains_keeps {σ : State} {s : State} (hk : Keeps σ s) :
    Keeps σ (walkChains s) := by
  unfold walkChains
  repeat' first
    | with_reducible assumption
    | with_reducible apply Keeps.foldl
    | with_reducible apply KeepsPair.foldl
    | with_reducible apply walkLab_keeps
    | split
    | dsimp only
    | intro _

theorem planEnd_keeps {σ : State} {s : State} (hk : Keeps σ s) :
    Keeps σ (planEnd s) := by
  unfold planEnd
  repeat' first
    | with_reducible assumption
    | with_reducible apply Keeps.foldl
    | with_reducible apply KeepsPair.foldl
    | with_reducible apply State.ccTo_keeps
    | with_reducible apply State.setRg_keeps
    | with_reducible apply admitted_keeps
    | with_reducible apply walkChains_keeps
    | with_reducible apply bookList_keeps
    | with_reducible apply movesGo_keeps
    | with_reducible apply fetchesBegin_keeps
    | with_reducible apply movesPlanStop_keeps
    | with_reducible apply forwardAll_keeps
    | simp only [Keeps.lit_iff]
    | with_reducible apply Keeps.litFresh
    | with_reducible refine Keeps.ite ?_ ?_
    | split
    | dsimp only
    | intro _

theorem execPlanWindowEnd_keeps {σ : State} {s : State} (hk : Keeps σ s) :
    KeepsOut σ (execPlanWindowEnd s) := by
  unfold execPlanWindowEnd
  repeat' first
    | with_reducible assumption
    | with_reducible apply KeepsOut.next
    | with_reducible apply planEnd_keeps
    | refine KeepsOut.use ?_ (by with_reducible assumption)
    | with_reducible refine Keeps.ite ?_ ?_
    | split
    | dsimp only
    | intro _

theorem setItem_keeps {σ : State} {s : State} {i : Nat} {st : ISt} (hk : Keeps σ s) :
    Keeps σ (setItem s i st) := by
  unfold setItem
  repeat' first
    | with_reducible assumption
    | simp only [Keeps.lit_iff]
    | with_reducible refine Keeps.ite ?_ ?_
    | split
    | dsimp only
    | intro _

theorem itemBegin_keeps {σ : State} {s : State} {it : Item} {k : Nat} (hk : Keeps σ s) :
    Keeps σ (itemBegin s it k) := by
  unfold itemBegin
  repeat' first
    | with_reducible assumption
    | with_reducible apply walkLab_keeps
    | with_reducible apply walkOut_keeps
    | with_reducible refine Keeps.ite ?_ ?_
    | split
    | dsimp only
    | intro _

theorem execBookedItemStart_keeps {σ : State} {i : Nat} {s : State} (hk : Keeps σ s) :
    KeepsOut σ (execBookedItemStart i s) := by
  unfold execBookedItemStart
  repeat' first
    | with_reducible assumption
    | with_reducible apply KeepsOut.next
    | with_reducible apply itemBegin_keeps
    | with_reducible apply setItem_keeps
    | with_reducible apply State.ccTo_keeps
    | refine KeepsOut.use ?_ (by with_reducible assumption)
    | with_reducible refine Keeps.ite ?_ ?_
    | split
    | dsimp only
    | intro _

theorem giveBack_keeps {σ : State} {s : State} {slot : Nat} (hk : Keeps σ s) :
    Keeps σ (giveBack s slot) := by
  unfold giveBack
  repeat' first
    | with_reducible assumption
    | with_reducible apply Keeps.foldl
    | with_reducible apply KeepsPair.foldl
    | with_reducible apply copyDstBack_keeps
    | with_reducible apply freeContextTables_keeps
    | with_reducible apply toScrub_keeps
    | simp only [Keeps.lit_iff]
    | with_reducible refine Keeps.ite ?_ ?_
    | split
    | dsimp only
    | intro _

theorem failAdmitted_keeps {σ : State} {s : State} {slot : Nat} (hk : Keeps σ s) :
    Keeps σ (failAdmitted s slot) := by
  unfold failAdmitted
  repeat' first
    | with_reducible assumption
    | with_reducible apply admitted_keeps
    | with_reducible apply failRequest_keeps
    | with_reducible apply giveBack_keeps
    | with_reducible refine Keeps.ite ?_ ?_
    | split
    | dsimp only
    | intro _

theorem itemBad_keeps {σ : State} {s : State} {it : Item} {addr : Nat} (hk : Keeps σ s) :
    Keeps σ (itemBad s it addr) := by
  unfold itemBad
  repeat' first
    | with_reducible assumption
    | with_reducible apply Keeps.foldl
    | with_reducible apply KeepsPair.foldl
    | with_reducible apply failAdmitted_keeps
    | with_reducible apply fenFault_keeps
    | with_reducible apply fault_keeps
    | with_reducible apply uncorr_keeps
    | with_reducible apply tileFault_keeps
    | with_reducible apply fenUncorr_keeps
    | simp only [Keeps.lit_iff]
    | with_reducible refine Keeps.ite ?_ ?_
    | split
    | dsimp only
    | intro _

theorem itemEnd_keeps {σ : State} {s : State} {it : Item} {i : Nat} (hk : Keeps σ s) :
    Keeps σ (itemEnd s it i) := by
  unfold itemEnd
  repeat' first
    | with_reducible assumption
    | with_reducible apply admitted_keeps
    | with_reducible apply settle_keeps
    | with_reducible apply appendCommit_keeps
    | with_reducible apply walkOut_keeps
    | refine KeepsPair.use ?_ (by with_reducible assumption)
    | with_reducible apply KeepsPair.fst
    | simp only [KeepsPair.mk_iff]
    | simp only [Keeps.lit_iff]
    | with_reducible refine Keeps.ite ?_ ?_
    | split
    | dsimp only
    | intro _

theorem execBookedItemComplete_keeps {σ : State} {i : Nat} {bad : Option Nat} {s : State} (hk : Keeps σ s) :
    KeepsOut σ (execBookedItemComplete i bad s) := by
  unfold execBookedItemComplete
  repeat' first
    | with_reducible assumption
    | with_reducible apply KeepsOut.next
    | with_reducible apply State.ccTo_keeps
    | with_reducible apply itemBad_keeps
    | with_reducible apply itemEnd_keeps
    | with_reducible apply setItem_keeps
    | refine KeepsOut.use ?_ (by with_reducible assumption)
    | with_reducible refine Keeps.ite ?_ ?_
    | split
    | dsimp only
    | intro _

theorem overrunReq_keeps {σ : State} {s : State} {slot : Nat} (hk : Keeps σ s) :
    Keeps σ (overrunReq s slot) := by
  unfold overrunReq
  repeat' first
    | with_reducible assumption
    | with_reducible apply admitted_keeps
    | with_reducible apply event0_keeps
    | with_reducible apply fault_keeps
    | with_reducible apply giveBack_keeps
    | with_reducible apply settle_keeps
    | with_reducible apply State.setReq_keeps
    | simp only [Keeps.lit_iff]
    | with_reducible refine Keeps.ite ?_ ?_
    | split
    | dsimp only
    | intro _

theorem sealOne_keeps {σ : State} {s : State} {slot : Nat} (hk : Keeps σ s) :
    Keeps σ (sealOne s slot) := by
  unfold sealOne
  repeat' first
    | with_reducible assumption
    | with_reducible apply admitted_keeps
    | with_reducible apply settle_keeps
    | with_reducible apply giveBack_keeps
    | with_reducible apply cloneApply_keeps
    | with_reducible apply releaseApply_keeps
    | with_reducible refine Keeps.ite ?_ ?_
    | split
    | dsimp only
    | intro _

theorem sealPoint_keeps {σ : State} {s : State} (hk : Keeps σ s) :
    Keeps σ (sealPoint s) := by
  unfold sealPoint
  repeat' first
    | with_reducible assumption
    | with_reducible apply Keeps.foldl
    | with_reducible apply KeepsPair.foldl
    | with_reducible apply planEnd_keeps
    | with_reducible apply State.ccTo_keeps
    | with_reducible apply overrunReq_keeps
    | with_reducible apply admitted_keeps
    | with_reducible apply cloneCount_keeps
    | with_reducible apply sealOne_keeps
    | with_reducible apply settle_keeps
    | with_reducible apply snapSeal_keeps
    | simp only [Keeps.lit_iff]
    | with_reducible refine Keeps.ite ?_ ?_
    | split
    | dsimp only
    | intro _

theorem execSealPoint_keeps {σ : State} {s : State} (hk : Keeps σ s) :
    KeepsOut σ (execSealPoint s) := by
  unfold execSealPoint
  repeat' first
    | with_reducible assumption
    | with_reducible apply KeepsOut.next
    | with_reducible apply sealPoint_keeps
    | refine KeepsOut.use ?_ (by with_reducible assumption)
    | with_reducible refine Keeps.ite ?_ ?_
    | split
    | dsimp only
    | intro _

theorem policersFill_keeps {σ : State} {s : State} (hk : Keeps σ s) :
    Keeps σ (policersFill s) := by
  unfold policersFill
  repeat' first
    | with_reducible assumption
    | with_reducible apply Keeps.foldl
    | with_reducible apply KeepsPair.foldl
    | with_reducible apply State.putLE_keeps
    | with_reducible refine Keeps.ite ?_ ?_
    | split
    | dsimp only
    | intro _

theorem gatesBoundary_keeps {σ : State} {old s : State} (hk : Keeps σ s) :
    Keeps σ (gatesBoundary old s) := by
  unfold gatesBoundary
  repeat' first
    | with_reducible assumption
    | with_reducible apply Keeps.foldl
    | with_reducible apply KeepsPair.foldl
    | with_reducible apply gatesApply_keeps
    | with_reducible apply overrun_keeps
    | split
    | dsimp only
    | intro _

theorem boundaryStart_keeps {σ : State} {s : State} (hk : Keeps σ s) :
    Keeps σ (boundaryStart s) := by
  unfold boundaryStart
  repeat' first
    | with_reducible assumption
    | with_reducible apply gatesBoundary_keeps
    | with_reducible apply rwtBoundary_keeps
    | with_reducible apply fabTick_keeps
    | with_reducible apply pathPorts_keeps
    | with_reducible apply policersFill_keeps
    | with_reducible apply refreshPeriods_keeps
    | simp only [Keeps.lit_iff]
    | split
    | dsimp only
    | intro _

theorem boundaryQueues_keeps {σ : State} {s : State} (hk : Keeps σ s) :
    Keeps σ (boundaryQueues s) := by
  unfold boundaryQueues
  repeat' first
    | with_reducible assumption
    | with_reducible apply flipDismiss_keeps
    | with_reducible apply dismissWhere_keeps
    | with_reducible apply carryRemoveAll_keeps
    | simp only [Keeps.lit_iff]
    | with_reducible refine Keeps.ite ?_ ?_
    | split
    | dsimp only
    | intro _

theorem tallyFor_keeps {σ : State} {s : State} {n : Nat} (hk : Keeps σ s) :
    Keeps σ (tallyFor s n) := by
  unfold tallyFor
  repeat' first
    | with_reducible assumption
    | simp only [Keeps.lit_iff]
    | with_reducible refine Keeps.ite ?_ ?_
    | split
    | dsimp only
    | intro _

theorem boundaryActs_keeps {σ : State} {s : State} {errs : List PlanErr} (hk : Keeps σ s) :
    Keeps σ (boundaryActs s errs) := by
  unfold boundaryActs
  repeat' first
    | with_reducible assumption
    | with_reducible apply tallyFor_keeps
    | with_reducible apply boundaryStart_keeps
    | with_reducible apply tilesDisabled_keeps
    | with_reducible apply lbTurn_keeps
    | with_reducible apply tilesTurn_keeps
    | with_reducible apply snapBoundary_keeps
    | with_reducible apply migMapAll_keeps
    | with_reducible apply fetchesApply_keeps
    | with_reducible apply cowRewriteAll_keeps
    | with_reducible apply movesApply_keeps
    | with_reducible apply resetsEnd_keeps
    | with_reducible apply commitApply_keeps
    | with_reducible apply boundaryQueues_keeps
    | with_reducible apply unpark_keeps
    | with_reducible apply starvedClearAll_keeps
    | with_reducible apply admissionPass_keeps
    | with_reducible apply planReset_keeps
    | with_reducible refine Keeps.ite ?_ ?_
    | split
    | dsimp only
    | intro _

theorem tickTurn_keeps {σ : State} {s : State} {errs : List PlanErr} (hk : Keeps σ s) :
    Keeps σ (tickTurn s errs) := by
  unfold tickTurn
  repeat' first
    | with_reducible assumption
    | with_reducible apply sealPoint_keeps
    | with_reducible apply State.ccTo_keeps
    | with_reducible apply tallyFor_keeps
    | with_reducible apply boundaryActs_keeps
    | simp only [Keeps.lit_iff]
    | split
    | dsimp only
    | intro _

theorem execTickBoundary_keeps {σ : State} {errs : List PlanErr} {s : State} (hk : Keeps σ s) :
    KeepsOut σ (execTickBoundary errs s) := by
  unfold execTickBoundary
  repeat' first
    | with_reducible assumption
    | with_reducible apply KeepsOut.next
    | with_reducible apply tickTurn_keeps
    | refine KeepsOut.use ?_ (by with_reducible assumption)
    | with_reducible refine Keeps.ite ?_ ?_
    | split
    | dsimp only
    | intro _

theorem execTickCounterStart_keeps {σ : State} {s : State} (hk : Keeps σ s) :
    KeepsOut σ (execTickCounterStart s) := by
  unfold execTickCounterStart
  repeat' first
    | with_reducible assumption
    | with_reducible apply KeepsOut.next
    | with_reducible apply State.ccPass_keeps
    | with_reducible apply boundaryActs_keeps
    | refine KeepsOut.use ?_ (by with_reducible assumption)
    | simp only [Keeps.lit_iff]
    | with_reducible refine Keeps.ite ?_ ?_
    | split
    | dsimp only
    | intro _

theorem execTickLenApply_keeps {σ : State} {s : State} (hk : Keeps σ s) :
    KeepsOut σ (execTickLenApply s) := by
  unfold execTickLenApply
  repeat' first
    | with_reducible assumption
    | with_reducible apply KeepsOut.next
    | with_reducible apply tickTurn_keeps
    | refine KeepsOut.use ?_ (by with_reducible assumption)
    | with_reducible refine Keeps.ite ?_ ?_
    | split
    | dsimp only
    | intro _

theorem execShareTallyBuild_keeps {σ : State} {s : State} (hk : Keeps σ s) :
    KeepsOut σ (execShareTallyBuild s) := by
  unfold execShareTallyBuild
  repeat' first
    | with_reducible assumption
    | with_reducible apply KeepsOut.next
    | with_reducible apply State.ccTo_keeps
    | with_reducible apply tallyFor_keeps
    | refine KeepsOut.use ?_ (by with_reducible assumption)
    | with_reducible refine Keeps.ite ?_ ?_
    | split
    | dsimp only
    | intro _

theorem execCarryRemoval_keeps {σ : State} {slot : Nat} {s : State} (hk : Keeps σ s) :
    KeepsOut σ (execCarryRemoval slot s) := by
  unfold execCarryRemoval
  repeat' first
    | with_reducible assumption
    | with_reducible apply KeepsOut.next
    | with_reducible apply carryRemove_keeps
    | refine KeepsOut.use ?_ (by with_reducible assumption)
    | with_reducible refine Keeps.ite ?_ ?_
    | split
    | dsimp only
    | intro _

theorem serviceBad_keeps {σ : State} {s : State} {f : Nat} (hk : Keeps σ s) :
    Keeps σ (serviceBad s f) := by
  unfold serviceBad
  repeat' first
    | with_reducible assumption
    | with_reducible apply fault_keeps
    | with_reducible apply memUncorr_keeps
    | split
    | dsimp only
    | intro _

theorem execCowCopyDone_keeps {σ : State} {slot lane : Nat} {bad : Bool} {s : State} (hk : Keeps σ s) :
    KeepsOut σ (execCowCopyDone slot lane bad s) := by
  unfold execCowCopyDone
  repeat' first
    | with_reducible assumption
    | with_reducible apply KeepsOut.next
    | with_reducible apply serviceBad_keeps
    | with_reducible apply cowCopy_keeps
    | refine KeepsOut.use ?_ (by with_reducible assumption)
    | with_reducible refine Keeps.ite ?_ ?_
    | split
    | dsimp only
    | intro _

theorem execScrubDone_keeps {σ : State} {frame : Nat} {bad : Bool} {s : State} (hk : Keeps σ s) :
    KeepsOut σ (execScrubDone frame bad s) := by
  unfold execScrubDone
  repeat' first
    | with_reducible assumption
    | with_reducible apply KeepsOut.next
    | with_reducible apply fault_keeps
    | with_reducible apply State.count_keeps
    | with_reducible apply State.setFrame_keeps
    | with_reducible apply scrubEnd_keeps
    | refine KeepsOut.use ?_ (by with_reducible assumption)
    | with_reducible refine Keeps.ite ?_ ?_
    | split
    | dsimp only
    | intro _

theorem execMigrateCopyDone_keeps {σ : State} {slot : Nat} {bad : Bool} {s : State} (hk : Keeps σ s) :
    KeepsOut σ (execMigrateCopyDone slot bad s) := by
  unfold execMigrateCopyDone
  repeat' first
    | with_reducible assumption
    | with_reducible apply KeepsOut.next
    | with_reducible apply failAdmitted_keeps
    | with_reducible apply fault_keeps
    | with_reducible apply uncorr_keeps
    | with_reducible apply migCopy_keeps
    | refine KeepsOut.use ?_ (by with_reducible assumption)
    | with_reducible refine Keeps.ite ?_ ?_
    | split
    | dsimp only
    | intro _

theorem stackRetire_keeps {σ : State} {s : State} {n : Nat} (hk : Keeps σ s) :
    Keeps σ (stackRetire s n) := by
  unfold stackRetire
  repeat' first
    | with_reducible assumption
    | with_reducible apply Keeps.foldl
    | with_reducible apply KeepsPair.foldl
    | with_reducible apply State.setFrame_keeps
    | simp only [Keeps.lit_iff]
    | split
    | dsimp only
    | intro _

theorem execFenTrainingDone_keeps {σ : State} {stack : Nat} {ok : Bool} {s : State} (hk : Keeps σ s) :
    KeepsOut σ (execFenTrainingDone stack ok s) := by
  unfold execFenTrainingDone
  repeat' first
    | with_reducible assumption
    | with_reducible apply KeepsOut.next
    | with_reducible apply stackRetire_keeps
    | with_reducible apply State.setFld_keeps
    | refine KeepsOut.use ?_ (by with_reducible assumption)
    | simp only [Keeps.lit_iff]
    | with_reducible refine Keeps.ite ?_ ?_
    | split
    | dsimp only
    | intro _

end Sys2Proof.Machine
end

