-- ==== Sys2Proof/Laws/KeepsMgmt.lean ====
section
/-!
SUPPORT. What the operations of Machine/Mgmt.lean keep (`Keeps`), one lemma each.
-/

namespace Sys2Proof.Machine

theorem mgtSend_keeps {σ : State} {s : State} {r : Resp} (hk : Keeps σ s) :
    Keeps σ (mgtSend s r) := by
  unfold mgtSend
  repeat' first
    | with_reducible assumption
    | simp only [Keeps.lit_iff]
    | split
    | dsimp only
    | intro _

theorem mgtDrop_keeps {σ : State} {s : State} {h : MgtHead} (hk : Keeps σ s) :
    Keeps σ (mgtDrop s h) := by
  unfold mgtDrop
  repeat' first
    | with_reducible assumption
    | with_reducible apply State.count_keeps
    | split
    | dsimp only
    | intro _

theorem openHeard_keeps {σ : State} {s : State} {x : OpenSrc} (hk : Keeps σ s) :
    Keeps σ (openHeard s x) := by
  unfold openHeard
  repeat' first
    | with_reducible assumption
    | simp only [Keeps.lit_iff]
    | split
    | dsimp only
    | intro _

theorem setSess_keeps {σ : State} {s : State} {x : Sess} (hk : Keeps σ s) :
    Keeps σ (setSess s x) := by
  unfold setSess
  repeat' first
    | with_reducible assumption
    | simp only [Keeps.lit_iff]
    | with_reducible refine Keeps.ite ?_ ?_
    | split
    | dsimp only
    | intro _

theorem resend_keeps {σ : State} {s : State} {r : Option Resp} (hk : Keeps σ s) :
    Keeps σ (resend s r) := by
  unfold resend
  repeat' first
    | with_reducible assumption
    | with_reducible apply mgtSend_keeps
    | split
    | dsimp only
    | intro _

/-- The state that a result of type MgtTake hands on. -/
def KeepsTake (σ : State) (v : MgtTake) : Prop :=
  match v with
  | .drop s => Keeps σ s
  | .run s _ => Keeps σ s

theorem KeepsTake.drop {σ s : State} (h : Keeps σ s) : KeepsTake σ (.drop s) := h
theorem KeepsTake.use_drop {σ s : State} {v : MgtTake} (h : KeepsTake σ v) (e : v = .drop s) : Keeps σ s := by subst e; exact h
theorem KeepsTake.run {σ s : State} {x : Option Nat} (h : Keeps σ s) : KeepsTake σ (.run s x) := h
theorem KeepsTake.use_run {σ s : State} {x : Option Nat} {v : MgtTake} (h : KeepsTake σ v) (e : v = .run s x) : Keeps σ s := by subst e; exact h

theorem mgtTake_keeps {σ : State} {s : State} {h : MgtHead} (hk : Keeps σ s) :
    KeepsTake σ (mgtTake s h) := by
  unfold mgtTake
  repeat' first
    | with_reducible assumption
    | with_reducible apply KeepsTake.drop
    | with_reducible apply KeepsTake.run
    | with_reducible apply mgtDrop_keeps
    | with_reducible apply openHeard_keeps
    | with_reducible apply resend_keeps
    | with_reducible apply setSess_keeps
    | refine KeepsTake.use_drop ?_ (by with_reducible assumption)
    | refine KeepsTake.use_run ?_ (by with_reducible assumption)
    | simp only [Keeps.lit_iff]
    | with_reducible refine Keeps.ite ?_ ?_
    | split
    | dsimp only
    | intro _

theorem mgtReply_keeps {σ : State} {s : State} {h : MgtHead} {r : Resp} (hk : Keeps σ s) :
    Keeps σ (mgtReply s h r) := by
  unfold mgtReply
  repeat' first
    | with_reducible assumption
    | with_reducible apply mgtSend_keeps
    | simp only [Keeps.lit_iff]
    | with_reducible refine Keeps.ite ?_ ?_
    | split
    | dsimp only
    | intro _

theorem mgtRead_keeps {σ : State} {s : State} {level a : Nat} (hk : Keeps σ s) :
    KeepsPair σ (mgtRead s level a) := by
  unfold mgtRead
  repeat' first
    | with_reducible assumption
    | with_reducible apply accessFault_keeps
    | with_reducible apply viewRead_keeps
    | with_reducible apply readReg_keeps
    | refine KeepsPair.use ?_ (by with_reducible assumption)
    | with_reducible apply KeepsPair.fst
    | simp only [KeepsPair.mk_iff]
    | with_reducible refine Keeps.ite ?_ ?_
    | split
    | dsimp only
    | intro _

theorem mgtWrite_keeps {σ : State} {s : State} {level a v : Nat} (hk : Keeps σ s) :
    KeepsPair σ (mgtWrite s level a v) := by
  unfold mgtWrite
  repeat' first
    | with_reducible assumption
    | with_reducible apply accessFault_keeps
    | with_reducible apply viewWrite_keeps
    | with_reducible apply writeReg_keeps
    | refine KeepsPair.use ?_ (by with_reducible assumption)
    | with_reducible apply KeepsPair.fst
    | simp only [KeepsPair.mk_iff]
    | with_reducible refine Keeps.ite ?_ ?_
    | split
    | dsimp only
    | intro _

theorem mgtReads_keeps {σ : State} {s : State} {level : Nat} {l : List Nat} (hk : Keeps σ s) :
    KeepsPair σ (mgtReads s level l) := by
  induction l generalizing s with
  | nil =>
    unfold mgtReads
    repeat' first
      | with_reducible assumption
      | with_reducible apply mgtRead_keeps
      | refine KeepsPair.use ?_ (by with_reducible assumption)
      | with_reducible apply KeepsPair.fst
      | simp only [KeepsPair.mk_iff]
      | with_reducible refine Keeps.ite ?_ ?_
      | split
      | dsimp only
      | intro _
  | cons x xs ih =>
    unfold mgtReads
    repeat' first
      | with_reducible assumption
      | with_reducible apply ih
      | with_reducible apply mgtRead_keeps
      | refine KeepsPair.use ?_ (by with_reducible assumption)
      | with_reducible apply KeepsPair.fst
      | simp only [KeepsPair.mk_iff]
      | with_reducible refine Keeps.ite ?_ ?_
      | split
      | dsimp only
      | intro _

theorem mgtWrites_keeps {σ : State} {s : State} {level n : Nat} {l : List (Nat × Nat)} (hk : Keeps σ s) :
    KeepsPair σ (mgtWrites s level n l) := by
  induction l generalizing s n with
  | nil =>
    unfold mgtWrites
    repeat' first
      | with_reducible assumption
      | with_reducible apply mgtWrite_keeps
      | refine KeepsPair.use ?_ (by with_reducible assumption)
      | with_reducible apply KeepsPair.fst
      | simp only [KeepsPair.mk_iff]
      | with_reducible refine Keeps.ite ?_ ?_
      | split
      | dsimp only
      | intro _
  | cons x xs ih =>
    unfold mgtWrites
    repeat' first
      | with_reducible assumption
      | with_reducible apply ih
      | with_reducible apply mgtWrite_keeps
      | refine KeepsPair.use ?_ (by with_reducible assumption)
      | with_reducible apply KeepsPair.fst
      | simp only [KeepsPair.mk_iff]
      | with_reducible refine Keeps.ite ?_ ?_
      | split
      | dsimp only
      | intro _

theorem mgtFrame_keeps {σ : State} {s : State} {h : MgtHead} {body : List Nat} {len : Nat} {legal : Bool} {act : State → Nat →
    State} (hk : Keeps σ s) (hf : ∀ t n, Keeps σ t → Keeps σ (act t n)) :
    Keeps σ (mgtFrame s h body len legal act) := by
  unfold mgtFrame
  repeat' first
    | with_reducible assumption
    | with_reducible apply mgtTake_keeps
    | with_reducible apply mgtReply_keeps
    | with_reducible apply hf
    | refine KeepsTake.use_drop ?_ (by with_reducible assumption)
    | refine KeepsTake.use_run ?_ (by with_reducible assumption)
    | with_reducible refine Keeps.ite ?_ ?_
    | split
    | dsimp only
    | intro _

theorem execRegRead_keeps {σ : State} {h : MgtHead} {body : List Nat} {s : State} (hk : Keeps σ s) :
    KeepsOut σ (execRegRead h body s) := by
  unfold execRegRead
  repeat' first
    | with_reducible assumption
    | with_reducible apply KeepsOut.next
    | with_reducible apply mgtFrame_keeps
    | with_reducible apply mgtReads_keeps
    | with_reducible apply mgtReply_keeps
    | refine KeepsPair.use ?_ (by with_reducible assumption)
    | refine KeepsOut.use ?_ (by with_reducible assumption)
    | with_reducible apply KeepsPair.fst
    | simp only [KeepsPair.mk_iff]
    | split
    | dsimp only
    | intro _

theorem execRegWrite_keeps {σ : State} {h : MgtHead} {body : List Nat} {s : State} (hk : Keeps σ s) :
    KeepsOut σ (execRegWrite h body s) := by
  unfold execRegWrite
  repeat' first
    | with_reducible assumption
    | with_reducible apply KeepsOut.next
    | with_reducible apply mgtFrame_keeps
    | with_reducible apply mgtWrites_keeps
    | with_reducible apply mgtReply_keeps
    | refine KeepsPair.use ?_ (by with_reducible assumption)
    | refine KeepsOut.use ?_ (by with_reducible assumption)
    | with_reducible apply KeepsPair.fst
    | simp only [KeepsPair.mk_iff]
    | split
    | dsimp only
    | intro _

theorem burstAfter_keeps {σ : State} {h : MgtHead} {level : Nat} {write : Bool} {bad : Option Nat} {o : WordsOut} (hk :
    KeepsWords σ o) :
    Keeps σ (burstAfter h level write bad o) := by
  unfold burstAfter
  repeat' first
    | with_reducible assumption
    | with_reducible apply mgtReply_keeps
    | with_reducible apply KeepsWords.fst
    | simp only [Keeps.lit_iff]
    | split
    | dsimp only
    | intro _

theorem burstStart_keeps {σ : State} {h : MgtHead} {write : Bool} {bad : Option Nat} {a : Nat} {vs : List Nat} {s : State}
    {level : Nat} (hk : Keeps σ s) :
    Keeps σ (burstStart h write bad a vs s level) := by
  unfold burstStart
  repeat' first
    | with_reducible assumption
    | with_reducible apply burstAfter_keeps
    | with_reducible apply wordsRun_keeps
    | refine KeepsWords.use ?_ (by with_reducible assumption)
    | split
    | dsimp only
    | intro _

theorem execBurstRead_keeps {σ : State} {h : MgtHead} {addr count : List Nat} {bad : Option Nat} {s : State} (hk : Keeps σ s) :
    KeepsOut σ (execBurstRead h addr count bad s) := by
  unfold execBurstRead
  repeat' first
    | with_reducible assumption
    | with_reducible apply KeepsOut.next
    | with_reducible apply mgtFrame_keeps
    | with_reducible apply burstStart_keeps
    | refine KeepsOut.use ?_ (by with_reducible assumption)
    | split
    | dsimp only
    | intro _

theorem execBurstWrite_keeps {σ : State} {h : MgtHead} {addr words : List Nat} {s : State} (hk : Keeps σ s) :
    KeepsOut σ (execBurstWrite h addr words s) := by
  unfold execBurstWrite
  repeat' first
    | with_reducible assumption
    | with_reducible apply KeepsOut.next
    | with_reducible apply mgtFrame_keeps
    | with_reducible apply burstStart_keeps
    | refine KeepsOut.use ?_ (by with_reducible assumption)
    | split
    | dsimp only
    | intro _

theorem burstServed_keeps {σ : State} {s : State} {bad : Bool} (hk : Keeps σ s) :
    Keeps σ (burstServed s bad) := by
  unfold burstServed
  repeat' first
    | with_reducible assumption
    | with_reducible apply burstAfter_keeps
    | with_reducible apply wordsResume_keeps
    | refine KeepsWords.use ?_ (by with_reducible assumption)
    | split
    | dsimp only
    | intro _

theorem spdmReply_keeps {σ : State} {s : State} {h : MgtHead} {m : Spdm} (hk : Keeps σ s) :
    Keeps σ (spdmReply s h m) := by
  unfold spdmReply
  repeat' first
    | with_reducible assumption
    | with_reducible apply mgtReply_keeps
    | split
    | dsimp only
    | intro _

theorem spdmRun_keeps {σ : State} {s : State} {h : MgtHead} {act : State → Option Nat → State} (hk : Keeps σ s) (hf : ∀ t n,
    Keeps σ t → Keeps σ (act t n)) :
    Keeps σ (spdmRun s h act) := by
  unfold spdmRun
  repeat' first
    | with_reducible assumption
    | with_reducible apply mgtTake_keeps
    | with_reducible apply hf
    | refine KeepsTake.use_drop ?_ (by with_reducible assumption)
    | refine KeepsTake.use_run ?_ (by with_reducible assumption)
    | split
    | dsimp only
    | intro _

theorem spdmAnswer_keeps {σ : State} {s : State} {h : MgtHead} {m : Spdm} (hk : Keeps σ s) :
    Keeps σ (spdmAnswer s h m) := by
  unfold spdmAnswer
  repeat' first
    | with_reducible assumption
    | with_reducible apply spdmRun_keeps
    | with_reducible apply spdmReply_keeps
    | split
    | dsimp only
    | intro _

theorem execGetVersion_keeps {σ : State} {h : MgtHead} {s : State} (hk : Keeps σ s) :
    KeepsOut σ (execGetVersion h s) := by
  unfold execGetVersion
  repeat' first
    | with_reducible assumption
    | with_reducible apply KeepsOut.next
    | with_reducible apply spdmAnswer_keeps
    | refine KeepsOut.use ?_ (by with_reducible assumption)
    | split
    | dsimp only
    | intro _

theorem execGetCapabilities_keeps {σ : State} {h : MgtHead} {s : State} (hk : Keeps σ s) :
    KeepsOut σ (execGetCapabilities h s) := by
  unfold execGetCapabilities
  repeat' first
    | with_reducible assumption
    | with_reducible apply KeepsOut.next
    | with_reducible apply spdmAnswer_keeps
    | refine KeepsOut.use ?_ (by with_reducible assumption)
    | split
    | dsimp only
    | intro _

theorem execNegotiateAlgorithms_keeps {σ : State} {h : MgtHead} {s : State} (hk : Keeps σ s) :
    KeepsOut σ (execNegotiateAlgorithms h s) := by
  unfold execNegotiateAlgorithms
  repeat' first
    | with_reducible assumption
    | with_reducible apply KeepsOut.next
    | with_reducible apply spdmAnswer_keeps
    | refine KeepsOut.use ?_ (by with_reducible assumption)
    | split
    | dsimp only
    | intro _

theorem execGetDigests_keeps {σ : State} {h : MgtHead} {s : State} (hk : Keeps σ s) :
    KeepsOut σ (execGetDigests h s) := by
  unfold execGetDigests
  repeat' first
    | with_reducible assumption
    | with_reducible apply KeepsOut.next
    | with_reducible apply spdmAnswer_keeps
    | refine KeepsOut.use ?_ (by with_reducible assumption)
    | split
    | dsimp only
    | intro _

theorem execGetCertificate_keeps {σ : State} {h : MgtHead} {slot : Nat} {s : State} (hk : Keeps σ s) :
    KeepsOut σ (execGetCertificate h slot s) := by
  unfold execGetCertificate
  repeat' first
    | with_reducible assumption
    | with_reducible apply KeepsOut.next
    | with_reducible apply spdmAnswer_keeps
    | refine KeepsOut.use ?_ (by with_reducible assumption)
    | with_reducible refine Keeps.ite ?_ ?_
    | split
    | dsimp only
    | intro _

theorem execChallenge_keeps {σ : State} {h : MgtHead} {s : State} (hk : Keeps σ s) :
    KeepsOut σ (execChallenge h s) := by
  unfold execChallenge
  repeat' first
    | with_reducible assumption
    | with_reducible apply KeepsOut.next
    | with_reducible apply spdmAnswer_keeps
    | refine KeepsOut.use ?_ (by with_reducible assumption)
    | split
    | dsimp only
    | intro _

theorem execGetMeasurements_keeps {σ : State} {h : MgtHead} {index : Nat} {s : State} (hk : Keeps σ s) :
    KeepsOut σ (execGetMeasurements h index s) := by
  unfold execGetMeasurements
  repeat' first
    | with_reducible assumption
    | with_reducible apply KeepsOut.next
    | with_reducible apply spdmRun_keeps
    | with_reducible apply spdmReply_keeps
    | refine KeepsOut.use ?_ (by with_reducible assumption)
    | split
    | dsimp only
    | intro _

theorem execKeyExchange_keeps {σ : State} {h : MgtHead} {reqSession : Nat} {authed : Bool} {secret : List Nat} {s : State} (hk :
    Keeps σ s) :
    KeepsOut σ (execKeyExchange h reqSession authed secret s) := by
  unfold execKeyExchange
  repeat' first
    | with_reducible assumption
    | with_reducible apply KeepsOut.next
    | with_reducible apply spdmRun_keeps
    | with_reducible apply spdmReply_keeps
    | with_reducible apply State.draw_keeps
    | refine KeepsOut.use ?_ (by with_reducible assumption)
    | simp only [Keeps.lit_iff]
    | with_reducible refine Keeps.ite ?_ ?_
    | split
    | dsimp only
    | intro _

theorem execFinish_keeps {σ : State} {h : MgtHead} {id : Nat} {verified : Bool} {digest : Nat} {s : State} (hk : Keeps σ s) :
    KeepsOut σ (execFinish h id verified digest s) := by
  unfold execFinish
  repeat' first
    | with_reducible assumption
    | with_reducible apply KeepsOut.next
    | with_reducible apply spdmRun_keeps
    | with_reducible apply spdmReply_keeps
    | with_reducible apply setSess_keeps
    | refine KeepsOut.use ?_ (by with_reducible assumption)
    | simp only [Keeps.lit_iff]
    | with_reducible refine Keeps.ite ?_ ?_
    | split
    | dsimp only
    | intro _

theorem execEndSession_keeps {σ : State} {h : MgtHead} {s : State} (hk : Keeps σ s) :
    KeepsOut σ (execEndSession h s) := by
  unfold execEndSession
  repeat' first
    | with_reducible assumption
    | with_reducible apply KeepsOut.next
    | with_reducible apply spdmRun_keeps
    | with_reducible apply spdmReply_keeps
    | refine KeepsOut.use ?_ (by with_reducible assumption)
    | simp only [Keeps.lit_iff]
    | with_reducible refine Keeps.ite ?_ ?_
    | split
    | dsimp only
    | intro _

theorem execChunkSend_keeps {σ : State} {h : MgtHead} {s : State} (hk : Keeps σ s) :
    KeepsOut σ (execChunkSend h s) := by
  unfold execChunkSend
  repeat' first
    | with_reducible assumption
    | with_reducible apply KeepsOut.next
    | with_reducible apply spdmAnswer_keeps
    | refine KeepsOut.use ?_ (by with_reducible assumption)
    | split
    | dsimp only
    | intro _

theorem execChunkGet_keeps {σ : State} {h : MgtHead} {s : State} (hk : Keeps σ s) :
    KeepsOut σ (execChunkGet h s) := by
  unfold execChunkGet
  repeat' first
    | with_reducible assumption
    | with_reducible apply KeepsOut.next
    | with_reducible apply spdmAnswer_keeps
    | refine KeepsOut.use ?_ (by with_reducible assumption)
    | split
    | dsimp only
    | intro _

theorem execUnsupportedSpdmRequest_keeps {σ : State} {h : MgtHead} {s : State} (hk : Keeps σ s) :
    KeepsOut σ (execUnsupportedSpdmRequest h s) := by
  unfold execUnsupportedSpdmRequest
  repeat' first
    | with_reducible assumption
    | with_reducible apply KeepsOut.next
    | with_reducible apply spdmAnswer_keeps
    | refine KeepsOut.use ?_ (by with_reducible assumption)
    | split
    | dsimp only
    | intro _

theorem execSessionTimeout_keeps {σ : State} {id : Nat} {s : State} (hk : Keeps σ s) :
    KeepsOut σ (execSessionTimeout id s) := by
  unfold execSessionTimeout
  repeat' first
    | with_reducible assumption
    | with_reducible apply KeepsOut.next
    | with_reducible apply reachUp_keeps
    | with_reducible apply KeepsOpt.getD
    | with_reducible apply KeepsOpt.orElse
    | refine KeepsOpt.use ?_ (by with_reducible assumption)
    | refine KeepsOut.use ?_ (by with_reducible assumption)
    | simp only [Keeps.lit_iff]
    | split
    | dsimp only
    | intro _

theorem vendorRun_keeps {σ : State} {s : State} {h : MgtHead} {may : State → Nat → Bool} {act : State → State} (hk : Keeps σ s)
    (hf : ∀ t, Keeps σ t → Keeps σ (act t)) :
    Keeps σ (vendorRun s h may act) := by
  unfold vendorRun
  repeat' first
    | with_reducible assumption
    | with_reducible apply spdmRun_keeps
    | with_reducible apply spdmReply_keeps
    | with_reducible apply hf
    | with_reducible refine Keeps.ite ?_ ?_
    | split
    | dsimp only
    | intro _

theorem execGetReport_keeps {σ : State} {h : MgtHead} {nonce : List Nat} {s : State} (hk : Keeps σ s) :
    KeepsOut σ (execGetReport h nonce s) := by
  unfold execGetReport
  repeat' first
    | with_reducible assumption
    | with_reducible apply KeepsOut.next
    | with_reducible apply vendorRun_keeps
    | with_reducible apply reportAsk_keeps
    | with_reducible apply spdmReply_keeps
    | refine KeepsOut.use ?_ (by with_reducible assumption)
    | with_reducible refine Keeps.ite ?_ ?_
    | split
    | dsimp only
    | intro _

theorem execImportJob_keeps {σ : State} {h : MgtHead} {part job : Nat} {iv wrapped : List Nat} {s : State} (hk : Keeps σ s) :
    KeepsOut σ (execImportJob h part job iv wrapped s) := by
  unfold execImportJob
  repeat' first
    | with_reducible assumption
    | with_reducible apply KeepsOut.next
    | with_reducible apply vendorRun_keeps
    | with_reducible apply spdmReply_keeps
    | with_reducible apply event_keeps
    | refine KeepsOut.use ?_ (by with_reducible assumption)
    | simp only [Keeps.lit_iff]
    | with_reducible refine Keeps.ite ?_ ?_
    | split
    | dsimp only
    | intro _

theorem execDropJob_keeps {σ : State} {h : MgtHead} {slot : Nat} {s : State} (hk : Keeps σ s) :
    KeepsOut σ (execDropJob h slot s) := by
  unfold execDropJob
  repeat' first
    | with_reducible assumption
    | with_reducible apply KeepsOut.next
    | with_reducible apply vendorRun_keeps
    | with_reducible apply spdmReply_keeps
    | refine KeepsOut.use ?_ (by with_reducible assumption)
    | simp only [Keeps.lit_iff]
    | with_reducible refine Keeps.ite ?_ ?_
    | split
    | dsimp only
    | intro _

theorem execGetChallenge_keeps {σ : State} {h : MgtHead} {s : State} (hk : Keeps σ s) :
    KeepsOut σ (execGetChallenge h s) := by
  unfold execGetChallenge
  repeat' first
    | with_reducible assumption
    | with_reducible apply KeepsOut.next
    | with_reducible apply vendorRun_keeps
    | with_reducible apply spdmReply_keeps
    | refine KeepsOut.use ?_ (by with_reducible assumption)
    | split
    | dsimp only
    | intro _

theorem execToken_keeps {σ : State} {h : MgtHead} {token : List Nat} {s : State} (hk : Keeps σ s) :
    KeepsOut σ (execToken h token s) := by
  unfold execToken
  repeat' first
    | with_reducible assumption
    | with_reducible apply KeepsOut.next
    | with_reducible apply vendorRun_keeps
    | with_reducible apply tokenSubmit_keeps
    | refine KeepsOut.use ?_ (by with_reducible assumption)
    | split
    | dsimp only
    | intro _

end Sys2Proof.Machine
end

