-- ==== Sys2Proof/Laws/KeepsSnius.lean ====
section
/-!
SUPPORT. What the operations of Machine/Snius.lean keep (`Keeps`), one lemma each.
-/

namespace Sys2Proof.Machine

theorem State.reply_keeps {σ : State} {s : State} {status : Nat} {out : List Nat} (hk : Keeps σ s) :
    Keeps σ (State.reply s status out) := by
  unfold State.reply
  repeat' first
    | with_reducible assumption
    | simp only [Keeps.lit_iff]
    | split
    | dsimp only
    | intro _

theorem sniusLine_keeps {σ : State} {line : SerialLine} {run : State → State} {s : State} (hk : Keeps σ s) (hf : ∀ t, Keeps σ t
    → Keeps σ (run t)) :
    Keeps σ (sniusLine line run s) := by
  unfold sniusLine
  repeat' first
    | with_reducible assumption
    | with_reducible apply State.count_keeps
    | with_reducible apply State.reply_keeps
    | with_reducible apply hf
    | with_reducible refine Keeps.ite ?_ ?_
    | split
    | dsimp only
    | intro _

theorem sniusWrote_keeps {σ : State} {s : State} (hk : Keeps σ s) :
    Keeps σ (sniusWrote s) := by
  unfold sniusWrote
  repeat' first
    | with_reducible assumption
    | with_reducible apply event0_keeps
    | with_reducible apply State.count_keeps
    | split
    | dsimp only
    | intro _

theorem sniusGet_keeps {σ : State} {s : State} {a : Nat} {bad : Bool} (hk : Keeps σ s) :
    KeepsPair σ (sniusGet s a bad) := by
  unfold sniusGet
  repeat' first
    | with_reducible assumption
    | with_reducible apply accessFault_keeps
    | with_reducible apply coreLoad_keeps
    | refine KeepsPair.use ?_ (by with_reducible assumption)
    | with_reducible apply KeepsPair.fst
    | simp only [KeepsPair.mk_iff]
    | with_reducible refine Keeps.ite ?_ ?_
    | split
    | dsimp only
    | intro _

theorem sniusPut_keeps {σ : State} {s : State} {a v : Nat} (hk : Keeps σ s) :
    KeepsPair σ (sniusPut s a v) := by
  unfold sniusPut
  repeat' first
    | with_reducible assumption
    | with_reducible apply accessFault_keeps
    | with_reducible apply coreStore_keeps
    | refine KeepsPair.use ?_ (by with_reducible assumption)
    | with_reducible apply KeepsPair.fst
    | simp only [KeepsPair.mk_iff]
    | with_reducible refine Keeps.ite ?_ ?_
    | split
    | dsimp only
    | intro _

theorem sniusGets_keeps {σ : State} {s : State} {a : Nat} {bad : Option Nat} {i l : Nat} (hk : Keeps σ s) :
    KeepsPair σ (sniusGets s a bad i l) := by
  induction l generalizing s a i with
  | zero =>
    unfold sniusGets
    repeat' first
      | with_reducible assumption
      | with_reducible apply sniusGet_keeps
      | refine KeepsPair.use ?_ (by with_reducible assumption)
      | with_reducible apply KeepsPair.fst
      | simp only [KeepsPair.mk_iff]
      | with_reducible refine Keeps.ite ?_ ?_
      | split
      | dsimp only
      | intro _
  | succ n ih =>
    unfold sniusGets
    repeat' first
      | with_reducible assumption
      | with_reducible apply ih
      | with_reducible apply sniusGet_keeps
      | refine KeepsPair.use ?_ (by with_reducible assumption)
      | with_reducible apply KeepsPair.fst
      | simp only [KeepsPair.mk_iff]
      | with_reducible refine Keeps.ite ?_ ?_
      | split
      | dsimp only
      | intro _

theorem sniusPuts_keeps {σ : State} {s : State} {a : Nat} {l : List Nat} (hk : Keeps σ s) :
    KeepsPair σ (sniusPuts s a l) := by
  induction l generalizing s a with
  | nil =>
    unfold sniusPuts
    repeat' first
      | with_reducible assumption
      | with_reducible apply sniusPut_keeps
      | refine KeepsPair.use ?_ (by with_reducible assumption)
      | with_reducible apply KeepsPair.fst
      | simp only [KeepsPair.mk_iff]
      | with_reducible refine Keeps.ite ?_ ?_
      | split
      | dsimp only
      | intro _
  | cons x xs ih =>
    unfold sniusPuts
    repeat' first
      | with_reducible assumption
      | with_reducible apply ih
      | with_reducible apply sniusPut_keeps
      | refine KeepsPair.use ?_ (by with_reducible assumption)
      | with_reducible apply KeepsPair.fst
      | simp only [KeepsPair.mk_iff]
      | with_reducible refine Keeps.ite ?_ ?_
      | split
      | dsimp only
      | intro _

theorem sniusAfter_keeps {σ : State} {write : Bool} {p : Shows} {bad : Option Nat} {o : WordsOut} (hk : KeepsWords σ o) :
    Keeps σ (sniusAfter write p bad o) := by
  unfold sniusAfter
  repeat' first
    | with_reducible assumption
    | with_reducible apply sniusWrote_keeps
    | with_reducible apply State.reply_keeps
    | with_reducible apply KeepsWords.fst
    | simp only [Keeps.lit_iff]
    | with_reducible refine Keeps.ite ?_ ?_
    | split
    | dsimp only
    | intro _

theorem sniusServed_keeps {σ : State} {s : State} {bad : Bool} (hk : Keeps σ s) :
    Keeps σ (sniusServed s bad) := by
  unfold sniusServed
  repeat' first
    | with_reducible assumption
    | with_reducible apply sniusAfter_keeps
    | with_reducible apply wordsResume_keeps
    | refine KeepsWords.use ?_ (by with_reducible assumption)
    | split
    | dsimp only
    | intro _

theorem execDpwHeldComplete_keeps {σ : State} {core : Nat} {bad : Bool} {s : State} (hk : Keeps σ s) :
    KeepsOut σ (execDpwHeldComplete core bad s) := by
  unfold execDpwHeldComplete
  repeat' first
    | with_reducible assumption
    | with_reducible apply KeepsOut.next
    | with_reducible apply burstServed_keeps
    | with_reducible apply sniusServed_keeps
    | with_reducible apply dpwServed_keeps
    | refine KeepsOut.use ?_ (by with_reducible assumption)
    | simp only [Keeps.lit_iff]
    | with_reducible refine Keeps.ite ?_ ?_
    | split
    | dsimp only
    | intro _

theorem sniusReads_keeps {σ : State} {a n : Nat} {bad : Option Nat} {p : Shows} {s : State} (hk : Keeps σ s) :
    Keeps σ (sniusReads a n bad p s) := by
  unfold sniusReads
  repeat' first
    | with_reducible assumption
    | with_reducible apply sniusGets_keeps
    | with_reducible apply State.reply_keeps
    | with_reducible apply sniusAfter_keeps
    | with_reducible apply wordsRun_keeps
    | refine KeepsPair.use ?_ (by with_reducible assumption)
    | refine KeepsWords.use ?_ (by with_reducible assumption)
    | with_reducible apply KeepsPair.fst
    | simp only [KeepsPair.mk_iff]
    | with_reducible refine Keeps.ite ?_ ?_
    | split
    | dsimp only
    | intro _

theorem sniusWrites_keeps {σ : State} {a : Nat} {vs : List Nat} {s : State} (hk : Keeps σ s) :
    Keeps σ (sniusWrites a vs s) := by
  unfold sniusWrites
  repeat' first
    | with_reducible assumption
    | with_reducible apply sniusPuts_keeps
    | with_reducible apply sniusWrote_keeps
    | with_reducible apply State.reply_keeps
    | with_reducible apply sniusAfter_keeps
    | with_reducible apply wordsRun_keeps
    | refine KeepsPair.use ?_ (by with_reducible assumption)
    | refine KeepsWords.use ?_ (by with_reducible assumption)
    | with_reducible apply KeepsPair.fst
    | simp only [KeepsPair.mk_iff]
    | with_reducible refine Keeps.ite ?_ ?_
    | split
    | dsimp only
    | intro _

theorem execPeek_keeps {σ : State} {line : SerialLine} {addr n : Nat} {bad : Option Nat} {s : State} (hk : Keeps σ s) :
    KeepsOut σ (execPeek line addr n bad s) := by
  unfold execPeek
  repeat' first
    | with_reducible assumption
    | with_reducible apply KeepsOut.next
    | with_reducible apply sniusLine_keeps
    | with_reducible apply State.reply_keeps
    | with_reducible apply sniusReads_keeps
    | refine KeepsOut.use ?_ (by with_reducible assumption)
    | with_reducible refine Keeps.ite ?_ ?_
    | split
    | dsimp only
    | intro _

theorem execPoke_keeps {σ : State} {line : SerialLine} {addr value : Nat} {s : State} (hk : Keeps σ s) :
    KeepsOut σ (execPoke line addr value s) := by
  unfold execPoke
  repeat' first
    | with_reducible assumption
    | with_reducible apply KeepsOut.next
    | with_reducible apply sniusLine_keeps
    | with_reducible apply State.reply_keeps
    | with_reducible apply sniusWrites_keeps
    | refine KeepsOut.use ?_ (by with_reducible assumption)
    | with_reducible refine Keeps.ite ?_ ?_
    | split
    | dsimp only
    | intro _

theorem execDump_keeps {σ : State} {line : SerialLine} {addr bytes : Nat} {bad : Option Nat} {s : State} (hk : Keeps σ s) :
    KeepsOut σ (execDump line addr bytes bad s) := by
  unfold execDump
  repeat' first
    | with_reducible assumption
    | with_reducible apply KeepsOut.next
    | with_reducible apply sniusLine_keeps
    | with_reducible apply State.reply_keeps
    | with_reducible apply sniusReads_keeps
    | refine KeepsOut.use ?_ (by with_reducible assumption)
    | with_reducible refine Keeps.ite ?_ ?_
    | split
    | dsimp only
    | intro _

theorem execFill_keeps {σ : State} {line : SerialLine} {addr bytes value : Nat} {s : State} (hk : Keeps σ s) :
    KeepsOut σ (execFill line addr bytes value s) := by
  unfold execFill
  repeat' first
    | with_reducible assumption
    | with_reducible apply KeepsOut.next
    | with_reducible apply sniusLine_keeps
    | with_reducible apply State.reply_keeps
    | with_reducible apply sniusWrites_keeps
    | refine KeepsOut.use ?_ (by with_reducible assumption)
    | with_reducible refine Keeps.ite ?_ ?_
    | split
    | dsimp only
    | intro _

theorem execLoad_keeps {σ : State} {line : SerialLine} {addr bytes : Nat} {data : List Nat} {crc : Nat} {s : State} (hk : Keeps
    σ s) :
    KeepsOut σ (execLoad line addr bytes data crc s) := by
  unfold execLoad
  repeat' first
    | with_reducible assumption
    | with_reducible apply KeepsOut.next
    | with_reducible apply sniusLine_keeps
    | with_reducible apply State.reply_keeps
    | with_reducible apply sniusWrites_keeps
    | refine KeepsOut.use ?_ (by with_reducible assumption)
    | with_reducible refine Keeps.ite ?_ ?_
    | split
    | dsimp only
    | intro _

theorem execEvents_keeps {σ : State} {line : SerialLine} {n : Nat} {s : State} (hk : Keeps σ s) :
    KeepsOut σ (execEvents line n s) := by
  unfold execEvents
  repeat' first
    | with_reducible assumption
    | with_reducible apply KeepsOut.next
    | with_reducible apply sniusLine_keeps
    | with_reducible apply State.reply_keeps
    | refine KeepsOut.use ?_ (by with_reducible assumption)
    | split
    | dsimp only
    | intro _

theorem execTiles_keeps {σ : State} {line : SerialLine} {s : State} (hk : Keeps σ s) :
    KeepsOut σ (execTiles line s) := by
  unfold execTiles
  repeat' first
    | with_reducible assumption
    | with_reducible apply KeepsOut.next
    | with_reducible apply sniusLine_keeps
    | with_reducible apply State.reply_keeps
    | refine KeepsOut.use ?_ (by with_reducible assumption)
    | split
    | dsimp only
    | intro _

theorem execLifecycle_keeps {σ : State} {line : SerialLine} {s : State} (hk : Keeps σ s) :
    KeepsOut σ (execLifecycle line s) := by
  unfold execLifecycle
  repeat' first
    | with_reducible assumption
    | with_reducible apply KeepsOut.next
    | with_reducible apply sniusLine_keeps
    | with_reducible apply State.reply_keeps
    | refine KeepsOut.use ?_ (by with_reducible assumption)
    | split
    | dsimp only
    | intro _

theorem execAttest_keeps {σ : State} {line : SerialLine} {nonce : List Nat} {s : State} (hk : Keeps σ s) :
    KeepsOut σ (execAttest line nonce s) := by
  unfold execAttest
  repeat' first
    | with_reducible assumption
    | with_reducible apply KeepsOut.next
    | with_reducible apply sniusLine_keeps
    | with_reducible apply State.reply_keeps
    | with_reducible apply reportAsk_keeps
    | refine KeepsOut.use ?_ (by with_reducible assumption)
    | with_reducible refine Keeps.ite ?_ ?_
    | split
    | dsimp only
    | intro _

theorem execUartBreak_keeps {σ : State} {us : Nat} {s : State} (hk : Keeps σ s) :
    KeepsOut σ (execUartBreak us s) := by
  unfold execUartBreak
  repeat' first
    | with_reducible assumption
    | with_reducible apply KeepsOut.next
    | with_reducible apply event0_keeps
    | with_reducible apply State.setFld_keeps
    | refine KeepsOut.use ?_ (by with_reducible assumption)
    | with_reducible refine Keeps.ite ?_ ?_
    | split
    | dsimp only
    | intro _

theorem execUartRxResume_keeps {σ : State} {s : State} (hk : Keeps σ s) :
    KeepsOut σ (execUartRxResume s) := by
  unfold execUartRxResume
  repeat' first
    | with_reducible assumption
    | with_reducible apply KeepsOut.next
    | with_reducible apply State.setFld_keeps
    | refine KeepsOut.use ?_ (by with_reducible assumption)
    | split
    | dsimp only
    | intro _

end Sys2Proof.Machine
end

