-- ==== Sys2Proof/Laws/Memory.lean ====
section
/-!
SUPPORT. Laws of the bytes of memory: what a read of a plain range gives, and what a run of bytes written there leaves.
-/

namespace Sys2Proof.Machine

theorem State.ok_setCell (s : State) (a v : Nat) (h : s.ok) : (s.setCell a v).ok := ⟨Memory.wf_set _ _ _ h.1, h.2⟩

theorem State.ok_setRg (s : State) (a v : Nat) (h : s.ok) : (s.setRg a v).ok := ⟨h.1, Regs.wf_set _ _ _ h.2⟩

theorem physOf_plain (s : State) (a n : Nat) (h : plainAt a n) (hn : 0 < n) : physOf s a = a := by
  have hf : ¬ (inFen a = true) := by
    intro hf
    have h2 : fenBase ≤ a := by
      simp only [inFen, Bool.and_eq_true, decide_eq_true_eq] at hf
      exact hf.1
    simp only [plainAt, fenBase, peatBase, ctxTableBase, crownBase, crownEnd] at *
    omega
  rw [physOf, if_neg hf]

theorem plainAt_tables (a n : Nat) (h : plainAt a n) (hn : 0 < n) :
    ¬ (ctxTableBase ≤ a ∧ a < reqTableBase) ∧ ¬ (reqTableBase ≤ a ∧ a < crownBase) := by
  simp only [plainAt, peatBase, ctxTableBase, crownBase, crownEnd, reqTableBase] at *
  omega

/-- In a plain range a byte reads as the byte stored. -/
theorem State.byte_plain (s : State) (a n : Nat) (h : plainAt a n) (hn : 0 < n) : s.byte a = s.cell a := by
  obtain ⟨h1, h2⟩ := plainAt_tables a n h hn
  rw [State.byte, if_neg h1, if_neg h2, physOf_plain s a n h hn]

/-- In a plain range a byte is simply stored. -/
theorem State.setByte_plain (s : State) (a n v : Nat) (h : plainAt a n) (hn : 0 < n) : s.setByte a v = s.setCell a v := by
  obtain ⟨h1, h2⟩ := plainAt_tables a n h hn
  rw [State.setByte, if_neg h1, if_neg h2, physOf_plain s a n h hn]

theorem plainAt_tail {a n : Nat} (h : plainAt a (n + 1)) : plainAt (a + 1) n := by
  simp only [plainAt] at *; omega

/-- A run of bytes written into a plain range: they are stored, every other byte and every other part of the state stays. -/
theorem State.writeBytes_plain (bs : List Nat) : ∀ (s : State) (a : Nat), s.ok → plainAt a bs.length →
    StoredAt s (s.writeBytes a bs) a bs ∧ { s.writeBytes a bs with mem := s.mem } = s ∧ (s.writeBytes a bs).ok := by
  induction bs with
  | nil => intro s a hok _; exact ⟨fun x => by rw [if_neg (by simp)]; rfl, rfl, hok⟩
  | cons b bs ih =>
    intro s a hok h
    have e : s.writeBytes a (b :: bs) = (s.setCell a b).writeBytes (a + 1) bs := by
      rw [State.writeBytes, State.setByte_plain s a (bs.length + 1) b h (by omega)]
    obtain ⟨h1, h2, h3⟩ := ih (s.setCell a b) (a + 1) (State.ok_setCell s a b hok) (plainAt_tail h)
    rw [e]
    refine ⟨fun x => ?_, ?_, h3⟩
    · rw [h1 x, State.cell_setCell _ _ _ _ hok]
      by_cases hx : x = a
      · subst hx; rw [if_neg (by omega), if_pos rfl, if_pos (by simp)]; simp
      · by_cases hy : a + 1 ≤ x ∧ x < a + 1 + bs.length
        · rw [if_pos hy, if_pos (by simp only [List.length_cons]; omega)]
          have : x - a = (x - (a + 1)) + 1 := by omega
          rw [this, List.getD_cons_succ]
        · rw [if_neg hy, if_neg hx, if_neg (by simp only [List.length_cons]; omega)]
    · have h2' : { (s.setCell a b).writeBytes (a + 1) bs with mem := (s.setCell a b).mem } = s.setCell a b := h2
      calc { (s.setCell a b).writeBytes (a + 1) bs with mem := s.mem }
          = { { (s.setCell a b).writeBytes (a + 1) bs with mem := (s.setCell a b).mem } with mem := s.mem } := rfl
        _ = { s.setCell a b with mem := s.mem } := by rw [h2']
        _ = s := rfl

end Sys2Proof.Machine
end

