-- ==== Sys2Proof/Laws/Regs.lean ====
section
/-!
SUPPORT. Laws of the register table: where a header register of a block instance stands, and which row defines it.
-/

namespace Sys2Proof.Machine

/-- What a write leaves in a field, by its access code (R7). -/
theorem Fld.putT_rwt (hi lo r old v : Nat) : Fld.putT ⟨hi, lo, .rwt, r⟩ old v = putBits old hi lo (bitsOf v hi lo) := by simp [Fld.putT]
theorem Fld.put_rw (l : Bool) (hi lo r old v : Nat) : Fld.put l ⟨hi, lo, .rw, r⟩ old v = putBits old hi lo (bitsOf v hi lo) := by simp [Fld.put]
theorem Fld.put_ro (l : Bool) (hi lo r old v : Nat) : Fld.put l ⟨hi, lo, .ro, r⟩ old v = old := by simp [Fld.put]
theorem Fld.put_wo (l : Bool) (hi lo r old v : Nat) : Fld.put l ⟨hi, lo, .wo, r⟩ old v = old := by simp [Fld.put]
theorem Fld.put_rc (l : Bool) (hi lo r old v : Nat) : Fld.put l ⟨hi, lo, .rc, r⟩ old v = old := by simp [Fld.put]
theorem Fld.put_rwt (l : Bool) (hi lo r old v : Nat) : Fld.put l ⟨hi, lo, .rwt, r⟩ old v = old := by simp [Fld.put]
theorem Fld.put_rwl (l : Bool) (hi lo r old v : Nat) :
    Fld.put l ⟨hi, lo, .rwl, r⟩ old v = if l then old else putBits old hi lo (bitsOf v hi lo) := by simp [Fld.put]

/-- The page of a block instance belongs to it. -/
theorem pageOwner_base (b : Blk) (n : Nat) (h : n < b.count) : pageOwner (b.page + n) = some (b, n) := by
  have : ∀ n, n < b.count → pageOwner (b.page + n) = some (b, n) := by cases b <;> decide
  exact this n h

theorem base_bound (b : Blk) (n : Nat) (h : n < b.count) : b.page + n < 0x400 := by
  have : ∀ n, n < b.count → b.page + n < 0x400 := by cases b <;> decide
  exact this n h

/-- A header word of a block instance is defined by the row of the common header at its offset. -/
theorem regRow_header (b : Blk) (n off : Nat) (h : n < b.count) (ho : off < 0x040) (h4 : off % 4 = 0) :
    regRow (b.base n + off) = ((headerRows b n).find? (·.hit off)).map fun r => (b, n, off, r) := by
  have hb := base_bound b n h
  have h1 : ¬ ((b.base n + off) % 4 ≠ 0 ∨ 0x400000 ≤ b.base n + off) := by simp only [Blk.base]; omega
  have h2 : (b.base n + off) / 0x1000 = b.page + n := by simp only [Blk.base]; omega
  have h3 : (b.base n + off) % 0x1000 = off := by simp only [Blk.base]; omega
  have h5 : onlyInstanceZero b off = false := by
    cases b <;> simp [onlyInstanceZero] <;> omega
  have h6 : (if b = .itp then b.base n + off - 0x60000 else (b.base n + off) % 0x1000) = off := by
    split
    · subst_vars; simp [Blk.count] at h; simp [h, Blk.base, Blk.page]
    · exact h3
  have h7 : (if b = .itp then 0 else n) = n := by
    split
    · subst_vars; simp [Blk.count] at h; simp [h]
    · rfl
  simp only [regRow, h1, if_false, h2, pageOwner_base b n h, h6, h7, h5]
  simp [ho]

/-- The row of a header word whose fields do not depend on the block. -/
theorem regRow_evt (b : Blk) (n : Nat) (h : n < b.count) :
    regRow (Reg.BLK_EVT b n) = some (b, n, 0x018, ⟨0x018, 4, 1, 4, 1, [⟨31, 0, .w1c, 0⟩]⟩) := by
  rw [Reg.BLK_EVT, regRow_header b n 0x018 h (by decide) (by decide)]; simp [headerRows, ctlRow, RegRow.hit]
theorem regRow_flt (b : Blk) (n : Nat) (h : n < b.count) :
    regRow (Reg.BLK_FLT b n) = some (b, n, 0x020, ⟨0x020, 4, 1, 4, 1, [⟨7, 0, .ro, 0⟩, ⟨8, 8, .w1c, 0⟩, ⟨9, 9, .ro, 0⟩, ⟨10, 10, .ro, 0⟩, ⟨21, 16, .ro, 0⟩]⟩) := by
  rw [Reg.BLK_FLT, regRow_header b n 0x020 h (by decide) (by decide)]; simp [headerRows, ctlRow, RegRow.hit]
theorem regRow_lock (b : Blk) (n : Nat) (h : n < b.count) :
    regRow (Reg.BLK_LOCK b n) = some (b, n, 0x030, ⟨0x030, 4, 1, 4, 1, [⟨0, 0, .ro, 0⟩, ⟨31, 16, .wo, 0⟩]⟩) := by
  rw [Reg.BLK_LOCK, regRow_header b n 0x030 h (by decide) (by decide)]; simp [headerRows, ctlRow, RegRow.hit]

theorem wide_header (b : Blk) (off : Nat) (ho : off < 0x040) :
    ((wideOffsets b).any fun (o, s, n) => decide (o ≤ off) && decide ((off - o) % s = 0) && decide ((off - o) / s < n)) = false := by
  cases b <;> simp [wideOffsets] <;> omega

theorem isWide_header (b : Blk) (n off : Nat) (h : n < b.count) (ho : off < 0x040) (h4 : off % 4 = 0) :
    isWideLo (b.base n + off) = false := by
  rw [isWideLo, regRow_header b n off h ho h4]
  cases (headerRows b n).find? (·.hit off) with
  | none => rfl
  | some r => exact wide_header b off ho

theorem isWideHi_header (b : Blk) (n off : Nat) (h : n < b.count) (ho : off < 0x040) (h4 : off % 4 = 0) (h0 : 4 ≤ off) :
    isWideHi (b.base n + off) = false := by
  have : b.base n + off - 4 = b.base n + (off - 4) := by omega
  rw [isWideHi, this, isWide_header b n (off - 4) h (by omega) (by omega)]; simp

end Sys2Proof.Machine
end

