-- ==== Sys2Proof/Laws/State.lean ====
section
/-!
SUPPORT. What each named update of the state leaves alone, field by field, and the frames of the shared operations.
-/

namespace Sys2Proof.Machine

/-! ### A register word, a byte, time -/

@[simp] theorem State.setRg_pending (s : State) (a v : Nat) : (s.setRg a v).pending = s.pending := rfl
@[simp] theorem State.setRg_mem (s : State) (a v : Nat) : (s.setRg a v).mem = s.mem := rfl
@[simp] theorem State.setRg_rwt (s : State) (a v : Nat) : (s.setRg a v).rwt = s.rwt := rfl
@[simp] theorem State.setRg_latch (s : State) (a v : Nat) : (s.setRg a v).latch = s.latch := rfl
@[simp] theorem State.setRg_stage (s : State) (a v : Nat) : (s.setRg a v).stage = s.stage := rfl
@[simp] theorem State.setRg_ringAux (s : State) (a v : Nat) : (s.setRg a v).ringAux = s.ringAux := rfl
@[simp] theorem State.setRg_seen (s : State) (a v : Nat) : (s.setRg a v).seen = s.seen := rfl
@[simp] theorem State.setRg_seenFlt (s : State) (a v : Nat) : (s.setRg a v).seenFlt = s.seenFlt := rfl
@[simp] theorem State.setRg_time (s : State) (a v : Nat) : (s.setRg a v).time = s.time := rfl
@[simp] theorem State.setRg_ctx (s : State) (a v : Nat) : (s.setRg a v).ctx = s.ctx := rfl
@[simp] theorem State.setRg_frm (s : State) (a v : Nat) : (s.setRg a v).frm = s.frm := rfl
@[simp] theorem State.setRg_tpl (s : State) (a v : Nat) : (s.setRg a v).tpl = s.tpl := rfl
@[simp] theorem State.setRg_chans (s : State) (a v : Nat) : (s.setRg a v).chans = s.chans := rfl
@[simp] theorem State.setRg_dbrs (s : State) (a v : Nat) : (s.setRg a v).dbrs = s.dbrs := rfl
@[simp] theorem State.setRg_portB (s : State) (a v : Nat) : (s.setRg a v).portB = s.portB := rfl
@[simp] theorem State.setRg_trw (s : State) (a v : Nat) : (s.setRg a v).trw = s.trw := rfl
@[simp] theorem State.setRg_feeds (s : State) (a v : Nat) : (s.setRg a v).feeds = s.feeds := rfl
@[simp] theorem State.setRg_tiles (s : State) (a v : Nat) : (s.setRg a v).tiles = s.tiles := rfl
@[simp] theorem State.setRg_direct (s : State) (a v : Nat) : (s.setRg a v).direct = s.direct := rfl
@[simp] theorem State.setRg_poison (s : State) (a v : Nat) : (s.setRg a v).poison = s.poison := rfl
@[simp] theorem State.setRg_itp (s : State) (a v : Nat) : (s.setRg a v).itp = s.itp := rfl
@[simp] theorem State.setRg_fab (s : State) (a v : Nat) : (s.setRg a v).fab = s.fab := rfl
@[simp] theorem State.setRg_prt (s : State) (a v : Nat) : (s.setRg a v).prt = s.prt := rfl
@[simp] theorem State.setRg_rdl (s : State) (a v : Nat) : (s.setRg a v).rdl = s.rdl := rfl
@[simp] theorem State.setRg_drive (s : State) (a v : Nat) : (s.setRg a v).drive = s.drive := rfl
@[simp] theorem State.setRg_training (s : State) (a v : Nat) : (s.setRg a v).training = s.training := rfl
@[simp] theorem State.setRg_bifurc (s : State) (a v : Nat) : (s.setRg a v).bifurc = s.bifurc := rfl
@[simp] theorem State.setRg_ports (s : State) (a v : Nat) : (s.setRg a v).ports = s.ports := rfl
@[simp] theorem State.setRg_punts (s : State) (a v : Nat) : (s.setRg a v).punts = s.punts := rfl
@[simp] theorem State.setRg_ptp (s : State) (a v : Nat) : (s.setRg a v).ptp = s.ptp := rfl
@[simp] theorem State.setRg_txGiven (s : State) (a v : Nat) : (s.setRg a v).txGiven = s.txGiven := rfl
@[simp] theorem State.setRg_txDone (s : State) (a v : Nat) : (s.setRg a v).txDone = s.txDone := rfl
@[simp] theorem State.setRg_ethMedia (s : State) (a v : Nat) : (s.setRg a v).ethMedia = s.ethMedia := rfl
@[simp] theorem State.setRg_ethMode (s : State) (a v : Nat) : (s.setRg a v).ethMode = s.ethMode := rfl
@[simp] theorem State.setRg_egBuf (s : State) (a v : Nat) : (s.setRg a v).egBuf = s.egBuf := rfl
@[simp] theorem State.setRg_egLeft (s : State) (a v : Nat) : (s.setRg a v).egLeft = s.egLeft := rfl
@[simp] theorem State.setRg_telAt (s : State) (a v : Nat) : (s.setRg a v).telAt = s.telAt := rfl
@[simp] theorem State.setRg_nv (s : State) (a v : Nat) : (s.setRg a v).nv = s.nv := rfl
@[simp] theorem State.setRg_lcs (s : State) (a v : Nat) : (s.setRg a v).lcs = s.lcs := rfl
@[simp] theorem State.setRg_bst (s : State) (a v : Nat) : (s.setRg a v).bst = s.bst := rfl
@[simp] theorem State.setRg_pwr (s : State) (a v : Nat) : (s.setRg a v).pwr = s.pwr := rfl
@[simp] theorem State.setRg_sys (s : State) (a v : Nat) : (s.setRg a v).sys = s.sys := rfl
@[simp] theorem State.setRg_mgt (s : State) (a v : Nat) : (s.setRg a v).mgt = s.mgt := rfl
@[simp] theorem State.setRg_uart (s : State) (a v : Nat) : (s.setRg a v).uart = s.uart := rfl
@[simp] theorem State.setRg_dpw (s : State) (a v : Nat) : (s.setRg a v).dpw = s.dpw := rfl
@[simp] theorem State.setRg_ret (s : State) (a v : Nat) : (s.setRg a v).ret = s.ret := rfl
@[simp] theorem State.setRg_boot (s : State) (a v : Nat) : (s.setRg a v).boot = s.boot := rfl
@[simp] theorem State.setRg_fresh (s : State) (a v : Nat) : (s.setRg a v).fresh = s.fresh := rfl
@[simp] theorem State.setFld_pending (s : State) (a hi lo v : Nat) : (s.setFld a hi lo v).pending = s.pending := rfl
@[simp] theorem State.setFld_mem (s : State) (a hi lo v : Nat) : (s.setFld a hi lo v).mem = s.mem := rfl
@[simp] theorem State.setFld_rwt (s : State) (a hi lo v : Nat) : (s.setFld a hi lo v).rwt = s.rwt := rfl
@[simp] theorem State.setFld_latch (s : State) (a hi lo v : Nat) : (s.setFld a hi lo v).latch = s.latch := rfl
@[simp] theorem State.setFld_stage (s : State) (a hi lo v : Nat) : (s.setFld a hi lo v).stage = s.stage := rfl
@[simp] theorem State.setFld_ringAux (s : State) (a hi lo v : Nat) : (s.setFld a hi lo v).ringAux = s.ringAux := rfl
@[simp] theorem State.setFld_seen (s : State) (a hi lo v : Nat) : (s.setFld a hi lo v).seen = s.seen := rfl
@[simp] theorem State.setFld_seenFlt (s : State) (a hi lo v : Nat) : (s.setFld a hi lo v).seenFlt = s.seenFlt := rfl
@[simp] theorem State.setFld_time (s : State) (a hi lo v : Nat) : (s.setFld a hi lo v).time = s.time := rfl
@[simp] theorem State.setFld_ctx (s : State) (a hi lo v : Nat) : (s.setFld a hi lo v).ctx = s.ctx := rfl
@[simp] theorem State.setFld_frm (s : State) (a hi lo v : Nat) : (s.setFld a hi lo v).frm = s.frm := rfl
@[simp] theorem State.setFld_tpl (s : State) (a hi lo v : Nat) : (s.setFld a hi lo v).tpl = s.tpl := rfl
@[simp] theorem State.setFld_chans (s : State) (a hi lo v : Nat) : (s.setFld a hi lo v).chans = s.chans := rfl
@[simp] theorem State.setFld_dbrs (s : State) (a hi lo v : Nat) : (s.setFld a hi lo v).dbrs = s.dbrs := rfl
@[simp] theorem State.setFld_portB (s : State) (a hi lo v : Nat) : (s.setFld a hi lo v).portB = s.portB := rfl
@[simp] theorem State.setFld_trw (s : State) (a hi lo v : Nat) : (s.setFld a hi lo v).trw = s.trw := rfl
@[simp] theorem State.setFld_feeds (s : State) (a hi lo v : Nat) : (s.setFld a hi lo v).feeds = s.feeds := rfl
@[simp] theorem State.setFld_tiles (s : State) (a hi lo v : Nat) : (s.setFld a hi lo v).tiles = s.tiles := rfl
@[simp] theorem State.setFld_direct (s : State) (a hi lo v : Nat) : (s.setFld a hi lo v).direct = s.direct := rfl
@[simp] theorem State.setFld_poison (s : State) (a hi lo v : Nat) : (s.setFld a hi lo v).poison = s.poison := rfl
@[simp] theorem State.setFld_itp (s : State) (a hi lo v : Nat) : (s.setFld a hi lo v).itp = s.itp := rfl
@[simp] theorem State.setFld_fab (s : State) (a hi lo v : Nat) : (s.setFld a hi lo v).fab = s.fab := rfl
@[simp] theorem State.setFld_prt (s : State) (a hi lo v : Nat) : (s.setFld a hi lo v).prt = s.prt := rfl
@[simp] theorem State.setFld_rdl (s : State) (a hi lo v : Nat) : (s.setFld a hi lo v).rdl = s.rdl := rfl
@[simp] theorem State.setFld_drive (s : State) (a hi lo v : Nat) : (s.setFld a hi lo v).drive = s.drive := rfl
@[simp] theorem State.setFld_training (s : State) (a hi lo v : Nat) : (s.setFld a hi lo v).training = s.training := rfl
@[simp] theorem State.setFld_bifurc (s : State) (a hi lo v : Nat) : (s.setFld a hi lo v).bifurc = s.bifurc := rfl
@[simp] theorem State.setFld_ports (s : State) (a hi lo v : Nat) : (s.setFld a hi lo v).ports = s.ports := rfl
@[simp] theorem State.setFld_punts (s : State) (a hi lo v : Nat) : (s.setFld a hi lo v).punts = s.punts := rfl
@[simp] theorem State.setFld_ptp (s : State) (a hi lo v : Nat) : (s.setFld a hi lo v).ptp = s.ptp := rfl
@[simp] theorem State.setFld_txGiven (s : State) (a hi lo v : Nat) : (s.setFld a hi lo v).txGiven = s.txGiven := rfl
@[simp] theorem State.setFld_txDone (s : State) (a hi lo v : Nat) : (s.setFld a hi lo v).txDone = s.txDone := rfl
@[simp] theorem State.setFld_ethMedia (s : State) (a hi lo v : Nat) : (s.setFld a hi lo v).ethMedia = s.ethMedia := rfl
@[simp] theorem State.setFld_ethMode (s : State) (a hi lo v : Nat) : (s.setFld a hi lo v).ethMode = s.ethMode := rfl
@[simp] theorem State.setFld_egBuf (s : State) (a hi lo v : Nat) : (s.setFld a hi lo v).egBuf = s.egBuf := rfl
@[simp] theorem State.setFld_egLeft (s : State) (a hi lo v : Nat) : (s.setFld a hi lo v).egLeft = s.egLeft := rfl
@[simp] theorem State.setFld_telAt (s : State) (a hi lo v : Nat) : (s.setFld a hi lo v).telAt = s.telAt := rfl
@[simp] theorem State.setFld_nv (s : State) (a hi lo v : Nat) : (s.setFld a hi lo v).nv = s.nv := rfl
@[simp] theorem State.setFld_lcs (s : State) (a hi lo v : Nat) : (s.setFld a hi lo v).lcs = s.lcs := rfl
@[simp] theorem State.setFld_bst (s : State) (a hi lo v : Nat) : (s.setFld a hi lo v).bst = s.bst := rfl
@[simp] theorem State.setFld_pwr (s : State) (a hi lo v : Nat) : (s.setFld a hi lo v).pwr = s.pwr := rfl
@[simp] theorem State.setFld_sys (s : State) (a hi lo v : Nat) : (s.setFld a hi lo v).sys = s.sys := rfl
@[simp] theorem State.setFld_mgt (s : State) (a hi lo v : Nat) : (s.setFld a hi lo v).mgt = s.mgt := rfl
@[simp] theorem State.setFld_uart (s : State) (a hi lo v : Nat) : (s.setFld a hi lo v).uart = s.uart := rfl
@[simp] theorem State.setFld_dpw (s : State) (a hi lo v : Nat) : (s.setFld a hi lo v).dpw = s.dpw := rfl
@[simp] theorem State.setFld_ret (s : State) (a hi lo v : Nat) : (s.setFld a hi lo v).ret = s.ret := rfl
@[simp] theorem State.setFld_boot (s : State) (a hi lo v : Nat) : (s.setFld a hi lo v).boot = s.boot := rfl
@[simp] theorem State.setFld_fresh (s : State) (a hi lo v : Nat) : (s.setFld a hi lo v).fresh = s.fresh := rfl
@[simp] theorem State.countBy_pending (s : State) (a n : Nat) : (s.countBy a n).pending = s.pending := rfl
@[simp] theorem State.countBy_mem (s : State) (a n : Nat) : (s.countBy a n).mem = s.mem := rfl
@[simp] theorem State.countBy_rwt (s : State) (a n : Nat) : (s.countBy a n).rwt = s.rwt := rfl
@[simp] theorem State.countBy_latch (s : State) (a n : Nat) : (s.countBy a n).latch = s.latch := rfl
@[simp] theorem State.countBy_stage (s : State) (a n : Nat) : (s.countBy a n).stage = s.stage := rfl
@[simp] theorem State.countBy_ringAux (s : State) (a n : Nat) : (s.countBy a n).ringAux = s.ringAux := rfl
@[simp] theorem State.countBy_seen (s : State) (a n : Nat) : (s.countBy a n).seen = s.seen := rfl
@[simp] theorem State.countBy_seenFlt (s : State) (a n : Nat) : (s.countBy a n).seenFlt = s.seenFlt := rfl
@[simp] theorem State.countBy_time (s : State) (a n : Nat) : (s.countBy a n).time = s.time := rfl
@[simp] theorem State.countBy_ctx (s : State) (a n : Nat) : (s.countBy a n).ctx = s.ctx := rfl
@[simp] theorem State.countBy_frm (s : State) (a n : Nat) : (s.countBy a n).frm = s.frm := rfl
@[simp] theorem State.countBy_tpl (s : State) (a n : Nat) : (s.countBy a n).tpl = s.tpl := rfl
@[simp] theorem State.countBy_chans (s : State) (a n : Nat) : (s.countBy a n).chans = s.chans := rfl
@[simp] theorem State.countBy_dbrs (s : State) (a n : Nat) : (s.countBy a n).dbrs = s.dbrs := rfl
@[simp] theorem State.countBy_portB (s : State) (a n : Nat) : (s.countBy a n).portB = s.portB := rfl
@[simp] theorem State.countBy_trw (s : State) (a n : Nat) : (s.countBy a n).trw = s.trw := rfl
@[simp] theorem State.countBy_feeds (s : State) (a n : Nat) : (s.countBy a n).feeds = s.feeds := rfl
@[simp] theorem State.countBy_tiles (s : State) (a n : Nat) : (s.countBy a n).tiles = s.tiles := rfl
@[simp] theorem State.countBy_direct (s : State) (a n : Nat) : (s.countBy a n).direct = s.direct := rfl
@[simp] theorem State.countBy_poison (s : State) (a n : Nat) : (s.countBy a n).poison = s.poison := rfl
@[simp] theorem State.countBy_itp (s : State) (a n : Nat) : (s.countBy a n).itp = s.itp := rfl
@[simp] theorem State.countBy_fab (s : State) (a n : Nat) : (s.countBy a n).fab = s.fab := rfl
@[simp] theorem State.countBy_prt (s : State) (a n : Nat) : (s.countBy a n).prt = s.prt := rfl
@[simp] theorem State.countBy_rdl (s : State) (a n : Nat) : (s.countBy a n).rdl = s.rdl := rfl
@[simp] theorem State.countBy_drive (s : State) (a n : Nat) : (s.countBy a n).drive = s.drive := rfl
@[simp] theorem State.countBy_training (s : State) (a n : Nat) : (s.countBy a n).training = s.training := rfl
@[simp] theorem State.countBy_bifurc (s : State) (a n : Nat) : (s.countBy a n).bifurc = s.bifurc := rfl
@[simp] theorem State.countBy_ports (s : State) (a n : Nat) : (s.countBy a n).ports = s.ports := rfl
@[simp] theorem State.countBy_punts (s : State) (a n : Nat) : (s.countBy a n).punts = s.punts := rfl
@[simp] theorem State.countBy_ptp (s : State) (a n : Nat) : (s.countBy a n).ptp = s.ptp := rfl
@[simp] theorem State.countBy_txGiven (s : State) (a n : Nat) : (s.countBy a n).txGiven = s.txGiven := rfl
@[simp] theorem State.countBy_txDone (s : State) (a n : Nat) : (s.countBy a n).txDone = s.txDone := rfl
@[simp] theorem State.countBy_ethMedia (s : State) (a n : Nat) : (s.countBy a n).ethMedia = s.ethMedia := rfl
@[simp] theorem State.countBy_ethMode (s : State) (a n : Nat) : (s.countBy a n).ethMode = s.ethMode := rfl
@[simp] theorem State.countBy_egBuf (s : State) (a n : Nat) : (s.countBy a n).egBuf = s.egBuf := rfl
@[simp] theorem State.countBy_egLeft (s : State) (a n : Nat) : (s.countBy a n).egLeft = s.egLeft := rfl
@[simp] theorem State.countBy_telAt (s : State) (a n : Nat) : (s.countBy a n).telAt = s.telAt := rfl
@[simp] theorem State.countBy_nv (s : State) (a n : Nat) : (s.countBy a n).nv = s.nv := rfl
@[simp] theorem State.countBy_lcs (s : State) (a n : Nat) : (s.countBy a n).lcs = s.lcs := rfl
@[simp] theorem State.countBy_bst (s : State) (a n : Nat) : (s.countBy a n).bst = s.bst := rfl
@[simp] theorem State.countBy_pwr (s : State) (a n : Nat) : (s.countBy a n).pwr = s.pwr := rfl
@[simp] theorem State.countBy_sys (s : State) (a n : Nat) : (s.countBy a n).sys = s.sys := rfl
@[simp] theorem State.countBy_mgt (s : State) (a n : Nat) : (s.countBy a n).mgt = s.mgt := rfl
@[simp] theorem State.countBy_uart (s : State) (a n : Nat) : (s.countBy a n).uart = s.uart := rfl
@[simp] theorem State.countBy_dpw (s : State) (a n : Nat) : (s.countBy a n).dpw = s.dpw := rfl
@[simp] theorem State.countBy_ret (s : State) (a n : Nat) : (s.countBy a n).ret = s.ret := rfl
@[simp] theorem State.countBy_boot (s : State) (a n : Nat) : (s.countBy a n).boot = s.boot := rfl
@[simp] theorem State.countBy_fresh (s : State) (a n : Nat) : (s.countBy a n).fresh = s.fresh := rfl
@[simp] theorem State.count_pending (s : State) (a : Nat) : (s.count a).pending = s.pending := rfl
@[simp] theorem State.count_mem (s : State) (a : Nat) : (s.count a).mem = s.mem := rfl
@[simp] theorem State.count_rwt (s : State) (a : Nat) : (s.count a).rwt = s.rwt := rfl
@[simp] theorem State.count_latch (s : State) (a : Nat) : (s.count a).latch = s.latch := rfl
@[simp] theorem State.count_stage (s : State) (a : Nat) : (s.count a).stage = s.stage := rfl
@[simp] theorem State.count_ringAux (s : State) (a : Nat) : (s.count a).ringAux = s.ringAux := rfl
@[simp] theorem State.count_seen (s : State) (a : Nat) : (s.count a).seen = s.seen := rfl
@[simp] theorem State.count_seenFlt (s : State) (a : Nat) : (s.count a).seenFlt = s.seenFlt := rfl
@[simp] theorem State.count_time (s : State) (a : Nat) : (s.count a).time = s.time := rfl
@[simp] theorem State.count_ctx (s : State) (a : Nat) : (s.count a).ctx = s.ctx := rfl
@[simp] theorem State.count_frm (s : State) (a : Nat) : (s.count a).frm = s.frm := rfl
@[simp] theorem State.count_tpl (s : State) (a : Nat) : (s.count a).tpl = s.tpl := rfl
@[simp] theorem State.count_chans (s : State) (a : Nat) : (s.count a).chans = s.chans := rfl
@[simp] theorem State.count_dbrs (s : State) (a : Nat) : (s.count a).dbrs = s.dbrs := rfl
@[simp] theorem State.count_portB (s : State) (a : Nat) : (s.count a).portB = s.portB := rfl
@[simp] theorem State.count_trw (s : State) (a : Nat) : (s.count a).trw = s.trw := rfl
@[simp] theorem State.count_feeds (s : State) (a : Nat) : (s.count a).feeds = s.feeds := rfl
@[simp] theorem State.count_tiles (s : State) (a : Nat) : (s.count a).tiles = s.tiles := rfl
@[simp] theorem State.count_direct (s : State) (a : Nat) : (s.count a).direct = s.direct := rfl
@[simp] theorem State.count_poison (s : State) (a : Nat) : (s.count a).poison = s.poison := rfl
@[simp] theorem State.count_itp (s : State) (a : Nat) : (s.count a).itp = s.itp := rfl
@[simp] theorem State.count_fab (s : State) (a : Nat) : (s.count a).fab = s.fab := rfl
@[simp] theorem State.count_prt (s : State) (a : Nat) : (s.count a).prt = s.prt := rfl
@[simp] theorem State.count_rdl (s : State) (a : Nat) : (s.count a).rdl = s.rdl := rfl
@[simp] theorem State.count_drive (s : State) (a : Nat) : (s.count a).drive = s.drive := rfl
@[simp] theorem State.count_training (s : State) (a : Nat) : (s.count a).training = s.training := rfl
@[simp] theorem State.count_bifurc (s : State) (a : Nat) : (s.count a).bifurc = s.bifurc := rfl
@[simp] theorem State.count_ports (s : State) (a : Nat) : (s.count a).ports = s.ports := rfl
@[simp] theorem State.count_punts (s : State) (a : Nat) : (s.count a).punts = s.punts := rfl
@[simp] theorem State.count_ptp (s : State) (a : Nat) : (s.count a).ptp = s.ptp := rfl
@[simp] theorem State.count_txGiven (s : State) (a : Nat) : (s.count a).txGiven = s.txGiven := rfl
@[simp] theorem State.count_txDone (s : State) (a : Nat) : (s.count a).txDone = s.txDone := rfl
@[simp] theorem State.count_ethMedia (s : State) (a : Nat) : (s.count a).ethMedia = s.ethMedia := rfl
@[simp] theorem State.count_ethMode (s : State) (a : Nat) : (s.count a).ethMode = s.ethMode := rfl
@[simp] theorem State.count_egBuf (s : State) (a : Nat) : (s.count a).egBuf = s.egBuf := rfl
@[simp] theorem State.count_egLeft (s : State) (a : Nat) : (s.count a).egLeft = s.egLeft := rfl
@[simp] theorem State.count_telAt (s : State) (a : Nat) : (s.count a).telAt = s.telAt := rfl
@[simp] theorem State.count_nv (s : State) (a : Nat) : (s.count a).nv = s.nv := rfl
@[simp] theorem State.count_lcs (s : State) (a : Nat) : (s.count a).lcs = s.lcs := rfl
@[simp] theorem State.count_bst (s : State) (a : Nat) : (s.count a).bst = s.bst := rfl
@[simp] theorem State.count_pwr (s : State) (a : Nat) : (s.count a).pwr = s.pwr := rfl
@[simp] theorem State.count_sys (s : State) (a : Nat) : (s.count a).sys = s.sys := rfl
@[simp] theorem State.count_mgt (s : State) (a : Nat) : (s.count a).mgt = s.mgt := rfl
@[simp] theorem State.count_uart (s : State) (a : Nat) : (s.count a).uart = s.uart := rfl
@[simp] theorem State.count_dpw (s : State) (a : Nat) : (s.count a).dpw = s.dpw := rfl
@[simp] theorem State.count_ret (s : State) (a : Nat) : (s.count a).ret = s.ret := rfl
@[simp] theorem State.count_boot (s : State) (a : Nat) : (s.count a).boot = s.boot := rfl
@[simp] theorem State.count_fresh (s : State) (a : Nat) : (s.count a).fresh = s.fresh := rfl
@[simp] theorem State.setCell_pending (s : State) (a v : Nat) : (s.setCell a v).pending = s.pending := rfl
@[simp] theorem State.setCell_regs (s : State) (a v : Nat) : (s.setCell a v).regs = s.regs := rfl
@[simp] theorem State.setCell_rwt (s : State) (a v : Nat) : (s.setCell a v).rwt = s.rwt := rfl
@[simp] theorem State.setCell_latch (s : State) (a v : Nat) : (s.setCell a v).latch = s.latch := rfl
@[simp] theorem State.setCell_stage (s : State) (a v : Nat) : (s.setCell a v).stage = s.stage := rfl
@[simp] theorem State.setCell_ringAux (s : State) (a v : Nat) : (s.setCell a v).ringAux = s.ringAux := rfl
@[simp] theorem State.setCell_seen (s : State) (a v : Nat) : (s.setCell a v).seen = s.seen := rfl
@[simp] theorem State.setCell_seenFlt (s : State) (a v : Nat) : (s.setCell a v).seenFlt = s.seenFlt := rfl
@[simp] theorem State.setCell_time (s : State) (a v : Nat) : (s.setCell a v).time = s.time := rfl
@[simp] theorem State.setCell_ctx (s : State) (a v : Nat) : (s.setCell a v).ctx = s.ctx := rfl
@[simp] theorem State.setCell_frm (s : State) (a v : Nat) : (s.setCell a v).frm = s.frm := rfl
@[simp] theorem State.setCell_tpl (s : State) (a v : Nat) : (s.setCell a v).tpl = s.tpl := rfl
@[simp] theorem State.setCell_chans (s : State) (a v : Nat) : (s.setCell a v).chans = s.chans := rfl
@[simp] theorem State.setCell_dbrs (s : State) (a v : Nat) : (s.setCell a v).dbrs = s.dbrs := rfl
@[simp] theorem State.setCell_portB (s : State) (a v : Nat) : (s.setCell a v).portB = s.portB := rfl
@[simp] theorem State.setCell_trw (s : State) (a v : Nat) : (s.setCell a v).trw = s.trw := rfl
@[simp] theorem State.setCell_feeds (s : State) (a v : Nat) : (s.setCell a v).feeds = s.feeds := rfl
@[simp] theorem State.setCell_tiles (s : State) (a v : Nat) : (s.setCell a v).tiles = s.tiles := rfl
@[simp] theorem State.setCell_direct (s : State) (a v : Nat) : (s.setCell a v).direct = s.direct := rfl
@[simp] theorem State.setCell_poison (s : State) (a v : Nat) : (s.setCell a v).poison = s.poison := rfl
@[simp] theorem State.setCell_itp (s : State) (a v : Nat) : (s.setCell a v).itp = s.itp := rfl
@[simp] theorem State.setCell_fab (s : State) (a v : Nat) : (s.setCell a v).fab = s.fab := rfl
@[simp] theorem State.setCell_prt (s : State) (a v : Nat) : (s.setCell a v).prt = s.prt := rfl
@[simp] theorem State.setCell_rdl (s : State) (a v : Nat) : (s.setCell a v).rdl = s.rdl := rfl
@[simp] theorem State.setCell_drive (s : State) (a v : Nat) : (s.setCell a v).drive = s.drive := rfl
@[simp] theorem State.setCell_training (s : State) (a v : Nat) : (s.setCell a v).training = s.training := rfl
@[simp] theorem State.setCell_bifurc (s : State) (a v : Nat) : (s.setCell a v).bifurc = s.bifurc := rfl
@[simp] theorem State.setCell_ports (s : State) (a v : Nat) : (s.setCell a v).ports = s.ports := rfl
@[simp] theorem State.setCell_punts (s : State) (a v : Nat) : (s.setCell a v).punts = s.punts := rfl
@[simp] theorem State.setCell_ptp (s : State) (a v : Nat) : (s.setCell a v).ptp = s.ptp := rfl
@[simp] theorem State.setCell_txGiven (s : State) (a v : Nat) : (s.setCell a v).txGiven = s.txGiven := rfl
@[simp] theorem State.setCell_txDone (s : State) (a v : Nat) : (s.setCell a v).txDone = s.txDone := rfl
@[simp] theorem State.setCell_ethMedia (s : State) (a v : Nat) : (s.setCell a v).ethMedia = s.ethMedia := rfl
@[simp] theorem State.setCell_ethMode (s : State) (a v : Nat) : (s.setCell a v).ethMode = s.ethMode := rfl
@[simp] theorem State.setCell_egBuf (s : State) (a v : Nat) : (s.setCell a v).egBuf = s.egBuf := rfl
@[simp] theorem State.setCell_egLeft (s : State) (a v : Nat) : (s.setCell a v).egLeft = s.egLeft := rfl
@[simp] theorem State.setCell_telAt (s : State) (a v : Nat) : (s.setCell a v).telAt = s.telAt := rfl
@[simp] theorem State.setCell_nv (s : State) (a v : Nat) : (s.setCell a v).nv = s.nv := rfl
@[simp] theorem State.setCell_lcs (s : State) (a v : Nat) : (s.setCell a v).lcs = s.lcs := rfl
@[simp] theorem State.setCell_bst (s : State) (a v : Nat) : (s.setCell a v).bst = s.bst := rfl
@[simp] theorem State.setCell_pwr (s : State) (a v : Nat) : (s.setCell a v).pwr = s.pwr := rfl
@[simp] theorem State.setCell_sys (s : State) (a v : Nat) : (s.setCell a v).sys = s.sys := rfl
@[simp] theorem State.setCell_mgt (s : State) (a v : Nat) : (s.setCell a v).mgt = s.mgt := rfl
@[simp] theorem State.setCell_uart (s : State) (a v : Nat) : (s.setCell a v).uart = s.uart := rfl
@[simp] theorem State.setCell_dpw (s : State) (a v : Nat) : (s.setCell a v).dpw = s.dpw := rfl
@[simp] theorem State.setCell_ret (s : State) (a v : Nat) : (s.setCell a v).ret = s.ret := rfl
@[simp] theorem State.setCell_boot (s : State) (a v : Nat) : (s.setCell a v).boot = s.boot := rfl
@[simp] theorem State.setCell_fresh (s : State) (a v : Nat) : (s.setCell a v).fresh = s.fresh := rfl
@[simp] theorem State.clock_pending (s : State) (n : Nat) : (s.clock n).pending = s.pending := rfl
@[simp] theorem State.clock_mem (s : State) (n : Nat) : (s.clock n).mem = s.mem := rfl
@[simp] theorem State.clock_regs (s : State) (n : Nat) : (s.clock n).regs = s.regs := rfl
@[simp] theorem State.clock_rwt (s : State) (n : Nat) : (s.clock n).rwt = s.rwt := rfl
@[simp] theorem State.clock_latch (s : State) (n : Nat) : (s.clock n).latch = s.latch := rfl
@[simp] theorem State.clock_stage (s : State) (n : Nat) : (s.clock n).stage = s.stage := rfl
@[simp] theorem State.clock_ringAux (s : State) (n : Nat) : (s.clock n).ringAux = s.ringAux := rfl
@[simp] theorem State.clock_seen (s : State) (n : Nat) : (s.clock n).seen = s.seen := rfl
@[simp] theorem State.clock_seenFlt (s : State) (n : Nat) : (s.clock n).seenFlt = s.seenFlt := rfl
@[simp] theorem State.clock_ctx (s : State) (n : Nat) : (s.clock n).ctx = s.ctx := rfl
@[simp] theorem State.clock_frm (s : State) (n : Nat) : (s.clock n).frm = s.frm := rfl
@[simp] theorem State.clock_tpl (s : State) (n : Nat) : (s.clock n).tpl = s.tpl := rfl
@[simp] theorem State.clock_chans (s : State) (n : Nat) : (s.clock n).chans = s.chans := rfl
@[simp] theorem State.clock_dbrs (s : State) (n : Nat) : (s.clock n).dbrs = s.dbrs := rfl
@[simp] theorem State.clock_portB (s : State) (n : Nat) : (s.clock n).portB = s.portB := rfl
@[simp] theorem State.clock_trw (s : State) (n : Nat) : (s.clock n).trw = s.trw := rfl
@[simp] theorem State.clock_feeds (s : State) (n : Nat) : (s.clock n).feeds = s.feeds := rfl
@[simp] theorem State.clock_tiles (s : State) (n : Nat) : (s.clock n).tiles = s.tiles := rfl
@[simp] theorem State.clock_direct (s : State) (n : Nat) : (s.clock n).direct = s.direct := rfl
@[simp] theorem State.clock_poison (s : State) (n : Nat) : (s.clock n).poison = s.poison := rfl
@[simp] theorem State.clock_itp (s : State) (n : Nat) : (s.clock n).itp = s.itp := rfl
@[simp] theorem State.clock_fab (s : State) (n : Nat) : (s.clock n).fab = s.fab := rfl
@[simp] theorem State.clock_prt (s : State) (n : Nat) : (s.clock n).prt = s.prt := rfl
@[simp] theorem State.clock_rdl (s : State) (n : Nat) : (s.clock n).rdl = s.rdl := rfl
@[simp] theorem State.clock_drive (s : State) (n : Nat) : (s.clock n).drive = s.drive := rfl
@[simp] theorem State.clock_training (s : State) (n : Nat) : (s.clock n).training = s.training := rfl
@[simp] theorem State.clock_bifurc (s : State) (n : Nat) : (s.clock n).bifurc = s.bifurc := rfl
@[simp] theorem State.clock_ports (s : State) (n : Nat) : (s.clock n).ports = s.ports := rfl
@[simp] theorem State.clock_punts (s : State) (n : Nat) : (s.clock n).punts = s.punts := rfl
@[simp] theorem State.clock_ptp (s : State) (n : Nat) : (s.clock n).ptp = s.ptp := rfl
@[simp] theorem State.clock_txGiven (s : State) (n : Nat) : (s.clock n).txGiven = s.txGiven := rfl
@[simp] theorem State.clock_txDone (s : State) (n : Nat) : (s.clock n).txDone = s.txDone := rfl
@[simp] theorem State.clock_ethMedia (s : State) (n : Nat) : (s.clock n).ethMedia = s.ethMedia := rfl
@[simp] theorem State.clock_ethMode (s : State) (n : Nat) : (s.clock n).ethMode = s.ethMode := rfl
@[simp] theorem State.clock_egBuf (s : State) (n : Nat) : (s.clock n).egBuf = s.egBuf := rfl
@[simp] theorem State.clock_egLeft (s : State) (n : Nat) : (s.clock n).egLeft = s.egLeft := rfl
@[simp] theorem State.clock_telAt (s : State) (n : Nat) : (s.clock n).telAt = s.telAt := rfl
@[simp] theorem State.clock_nv (s : State) (n : Nat) : (s.clock n).nv = s.nv := rfl
@[simp] theorem State.clock_lcs (s : State) (n : Nat) : (s.clock n).lcs = s.lcs := rfl
@[simp] theorem State.clock_bst (s : State) (n : Nat) : (s.clock n).bst = s.bst := rfl
@[simp] theorem State.clock_pwr (s : State) (n : Nat) : (s.clock n).pwr = s.pwr := rfl
@[simp] theorem State.clock_sys (s : State) (n : Nat) : (s.clock n).sys = s.sys := rfl
@[simp] theorem State.clock_mgt (s : State) (n : Nat) : (s.clock n).mgt = s.mgt := rfl
@[simp] theorem State.clock_uart (s : State) (n : Nat) : (s.clock n).uart = s.uart := rfl
@[simp] theorem State.clock_dpw (s : State) (n : Nat) : (s.clock n).dpw = s.dpw := rfl
@[simp] theorem State.clock_ret (s : State) (n : Nat) : (s.clock n).ret = s.ret := rfl
@[simp] theorem State.clock_boot (s : State) (n : Nat) : (s.clock n).boot = s.boot := rfl
@[simp] theorem State.clock_fresh (s : State) (n : Nat) : (s.clock n).fresh = s.fresh := rfl

/-! ### Entries of the tables of units -/

@[simp] theorem State.setDbr_pending (s : State) (n : Nat) (d : Dbr) : (s.setDbr n d).pending = s.pending := rfl
@[simp] theorem State.setDbr_mem (s : State) (n : Nat) (d : Dbr) : (s.setDbr n d).mem = s.mem := rfl
@[simp] theorem State.setDbr_regs (s : State) (n : Nat) (d : Dbr) : (s.setDbr n d).regs = s.regs := rfl
@[simp] theorem State.setDbr_rwt (s : State) (n : Nat) (d : Dbr) : (s.setDbr n d).rwt = s.rwt := rfl
@[simp] theorem State.setDbr_latch (s : State) (n : Nat) (d : Dbr) : (s.setDbr n d).latch = s.latch := rfl
@[simp] theorem State.setDbr_stage (s : State) (n : Nat) (d : Dbr) : (s.setDbr n d).stage = s.stage := rfl
@[simp] theorem State.setDbr_ringAux (s : State) (n : Nat) (d : Dbr) : (s.setDbr n d).ringAux = s.ringAux := rfl
@[simp] theorem State.setDbr_seen (s : State) (n : Nat) (d : Dbr) : (s.setDbr n d).seen = s.seen := rfl
@[simp] theorem State.setDbr_seenFlt (s : State) (n : Nat) (d : Dbr) : (s.setDbr n d).seenFlt = s.seenFlt := rfl
@[simp] theorem State.setDbr_time (s : State) (n : Nat) (d : Dbr) : (s.setDbr n d).time = s.time := rfl
@[simp] theorem State.setDbr_ctx (s : State) (n : Nat) (d : Dbr) : (s.setDbr n d).ctx = s.ctx := rfl
@[simp] theorem State.setDbr_frm (s : State) (n : Nat) (d : Dbr) : (s.setDbr n d).frm = s.frm := rfl
@[simp] theorem State.setDbr_tpl (s : State) (n : Nat) (d : Dbr) : (s.setDbr n d).tpl = s.tpl := rfl
@[simp] theorem State.setDbr_chans (s : State) (n : Nat) (d : Dbr) : (s.setDbr n d).chans = s.chans := rfl
@[simp] theorem State.setDbr_portB (s : State) (n : Nat) (d : Dbr) : (s.setDbr n d).portB = s.portB := rfl
@[simp] theorem State.setDbr_trw (s : State) (n : Nat) (d : Dbr) : (s.setDbr n d).trw = s.trw := rfl
@[simp] theorem State.setDbr_feeds (s : State) (n : Nat) (d : Dbr) : (s.setDbr n d).feeds = s.feeds := rfl
@[simp] theorem State.setDbr_tiles (s : State) (n : Nat) (d : Dbr) : (s.setDbr n d).tiles = s.tiles := rfl
@[simp] theorem State.setDbr_direct (s : State) (n : Nat) (d : Dbr) : (s.setDbr n d).direct = s.direct := rfl
@[simp] theorem State.setDbr_poison (s : State) (n : Nat) (d : Dbr) : (s.setDbr n d).poison = s.poison := rfl
@[simp] theorem State.setDbr_itp (s : State) (n : Nat) (d : Dbr) : (s.setDbr n d).itp = s.itp := rfl
@[simp] theorem State.setDbr_fab (s : State) (n : Nat) (d : Dbr) : (s.setDbr n d).fab = s.fab := rfl
@[simp] theorem State.setDbr_prt (s : State) (n : Nat) (d : Dbr) : (s.setDbr n d).prt = s.prt := rfl
@[simp] theorem State.setDbr_rdl (s : State) (n : Nat) (d : Dbr) : (s.setDbr n d).rdl = s.rdl := rfl
@[simp] theorem State.setDbr_drive (s : State) (n : Nat) (d : Dbr) : (s.setDbr n d).drive = s.drive := rfl
@[simp] theorem State.setDbr_training (s : State) (n : Nat) (d : Dbr) : (s.setDbr n d).training = s.training := rfl
@[simp] theorem State.setDbr_bifurc (s : State) (n : Nat) (d : Dbr) : (s.setDbr n d).bifurc = s.bifurc := rfl
@[simp] theorem State.setDbr_ports (s : State) (n : Nat) (d : Dbr) : (s.setDbr n d).ports = s.ports := rfl
@[simp] theorem State.setDbr_punts (s : State) (n : Nat) (d : Dbr) : (s.setDbr n d).punts = s.punts := rfl
@[simp] theorem State.setDbr_ptp (s : State) (n : Nat) (d : Dbr) : (s.setDbr n d).ptp = s.ptp := rfl
@[simp] theorem State.setDbr_txGiven (s : State) (n : Nat) (d : Dbr) : (s.setDbr n d).txGiven = s.txGiven := rfl
@[simp] theorem State.setDbr_txDone (s : State) (n : Nat) (d : Dbr) : (s.setDbr n d).txDone = s.txDone := rfl
@[simp] theorem State.setDbr_ethMedia (s : State) (n : Nat) (d : Dbr) : (s.setDbr n d).ethMedia = s.ethMedia := rfl
@[simp] theorem State.setDbr_ethMode (s : State) (n : Nat) (d : Dbr) : (s.setDbr n d).ethMode = s.ethMode := rfl
@[simp] theorem State.setDbr_egBuf (s : State) (n : Nat) (d : Dbr) : (s.setDbr n d).egBuf = s.egBuf := rfl
@[simp] theorem State.setDbr_egLeft (s : State) (n : Nat) (d : Dbr) : (s.setDbr n d).egLeft = s.egLeft := rfl
@[simp] theorem State.setDbr_telAt (s : State) (n : Nat) (d : Dbr) : (s.setDbr n d).telAt = s.telAt := rfl
@[simp] theorem State.setDbr_nv (s : State) (n : Nat) (d : Dbr) : (s.setDbr n d).nv = s.nv := rfl
@[simp] theorem State.setDbr_lcs (s : State) (n : Nat) (d : Dbr) : (s.setDbr n d).lcs = s.lcs := rfl
@[simp] theorem State.setDbr_bst (s : State) (n : Nat) (d : Dbr) : (s.setDbr n d).bst = s.bst := rfl
@[simp] theorem State.setDbr_pwr (s : State) (n : Nat) (d : Dbr) : (s.setDbr n d).pwr = s.pwr := rfl
@[simp] theorem State.setDbr_sys (s : State) (n : Nat) (d : Dbr) : (s.setDbr n d).sys = s.sys := rfl
@[simp] theorem State.setDbr_mgt (s : State) (n : Nat) (d : Dbr) : (s.setDbr n d).mgt = s.mgt := rfl
@[simp] theorem State.setDbr_uart (s : State) (n : Nat) (d : Dbr) : (s.setDbr n d).uart = s.uart := rfl
@[simp] theorem State.setDbr_dpw (s : State) (n : Nat) (d : Dbr) : (s.setDbr n d).dpw = s.dpw := rfl
@[simp] theorem State.setDbr_ret (s : State) (n : Nat) (d : Dbr) : (s.setDbr n d).ret = s.ret := rfl
@[simp] theorem State.setDbr_boot (s : State) (n : Nat) (d : Dbr) : (s.setDbr n d).boot = s.boot := rfl
@[simp] theorem State.setDbr_fresh (s : State) (n : Nat) (d : Dbr) : (s.setDbr n d).fresh = s.fresh := rfl
@[simp] theorem State.setChan_pending (s : State) (n p : Nat) (c : Chan) : (s.setChan n p c).pending = s.pending := rfl
@[simp] theorem State.setChan_mem (s : State) (n p : Nat) (c : Chan) : (s.setChan n p c).mem = s.mem := rfl
@[simp] theorem State.setChan_regs (s : State) (n p : Nat) (c : Chan) : (s.setChan n p c).regs = s.regs := rfl
@[simp] theorem State.setChan_rwt (s : State) (n p : Nat) (c : Chan) : (s.setChan n p c).rwt = s.rwt := rfl
@[simp] theorem State.setChan_latch (s : State) (n p : Nat) (c : Chan) : (s.setChan n p c).latch = s.latch := rfl
@[simp] theorem State.setChan_stage (s : State) (n p : Nat) (c : Chan) : (s.setChan n p c).stage = s.stage := rfl
@[simp] theorem State.setChan_ringAux (s : State) (n p : Nat) (c : Chan) : (s.setChan n p c).ringAux = s.ringAux := rfl
@[simp] theorem State.setChan_seen (s : State) (n p : Nat) (c : Chan) : (s.setChan n p c).seen = s.seen := rfl
@[simp] theorem State.setChan_seenFlt (s : State) (n p : Nat) (c : Chan) : (s.setChan n p c).seenFlt = s.seenFlt := rfl
@[simp] theorem State.setChan_time (s : State) (n p : Nat) (c : Chan) : (s.setChan n p c).time = s.time := rfl
@[simp] theorem State.setChan_ctx (s : State) (n p : Nat) (c : Chan) : (s.setChan n p c).ctx = s.ctx := rfl
@[simp] theorem State.setChan_frm (s : State) (n p : Nat) (c : Chan) : (s.setChan n p c).frm = s.frm := rfl
@[simp] theorem State.setChan_tpl (s : State) (n p : Nat) (c : Chan) : (s.setChan n p c).tpl = s.tpl := rfl
@[simp] theorem State.setChan_dbrs (s : State) (n p : Nat) (c : Chan) : (s.setChan n p c).dbrs = s.dbrs := rfl
@[simp] theorem State.setChan_portB (s : State) (n p : Nat) (c : Chan) : (s.setChan n p c).portB = s.portB := rfl
@[simp] theorem State.setChan_trw (s : State) (n p : Nat) (c : Chan) : (s.setChan n p c).trw = s.trw := rfl
@[simp] theorem State.setChan_feeds (s : State) (n p : Nat) (c : Chan) : (s.setChan n p c).feeds = s.feeds := rfl
@[simp] theorem State.setChan_tiles (s : State) (n p : Nat) (c : Chan) : (s.setChan n p c).tiles = s.tiles := rfl
@[simp] theorem State.setChan_direct (s : State) (n p : Nat) (c : Chan) : (s.setChan n p c).direct = s.direct := rfl
@[simp] theorem State.setChan_poison (s : State) (n p : Nat) (c : Chan) : (s.setChan n p c).poison = s.poison := rfl
@[simp] theorem State.setChan_itp (s : State) (n p : Nat) (c : Chan) : (s.setChan n p c).itp = s.itp := rfl
@[simp] theorem State.setChan_fab (s : State) (n p : Nat) (c : Chan) : (s.setChan n p c).fab = s.fab := rfl
@[simp] theorem State.setChan_prt (s : State) (n p : Nat) (c : Chan) : (s.setChan n p c).prt = s.prt := rfl
@[simp] theorem State.setChan_rdl (s : State) (n p : Nat) (c : Chan) : (s.setChan n p c).rdl = s.rdl := rfl
@[simp] theorem State.setChan_drive (s : State) (n p : Nat) (c : Chan) : (s.setChan n p c).drive = s.drive := rfl
@[simp] theorem State.setChan_training (s : State) (n p : Nat) (c : Chan) : (s.setChan n p c).training = s.training := rfl
@[simp] theorem State.setChan_bifurc (s : State) (n p : Nat) (c : Chan) : (s.setChan n p c).bifurc = s.bifurc := rfl
@[simp] theorem State.setChan_ports (s : State) (n p : Nat) (c : Chan) : (s.setChan n p c).ports = s.ports := rfl
@[simp] theorem State.setChan_punts (s : State) (n p : Nat) (c : Chan) : (s.setChan n p c).punts = s.punts := rfl
@[simp] theorem State.setChan_ptp (s : State) (n p : Nat) (c : Chan) : (s.setChan n p c).ptp = s.ptp := rfl
@[simp] theorem State.setChan_txGiven (s : State) (n p : Nat) (c : Chan) : (s.setChan n p c).txGiven = s.txGiven := rfl
@[simp] theorem State.setChan_txDone (s : State) (n p : Nat) (c : Chan) : (s.setChan n p c).txDone = s.txDone := rfl
@[simp] theorem State.setChan_ethMedia (s : State) (n p : Nat) (c : Chan) : (s.setChan n p c).ethMedia = s.ethMedia := rfl
@[simp] theorem State.setChan_ethMode (s : State) (n p : Nat) (c : Chan) : (s.setChan n p c).ethMode = s.ethMode := rfl
@[simp] theorem State.setChan_egBuf (s : State) (n p : Nat) (c : Chan) : (s.setChan n p c).egBuf = s.egBuf := rfl
@[simp] theorem State.setChan_egLeft (s : State) (n p : Nat) (c : Chan) : (s.setChan n p c).egLeft = s.egLeft := rfl
@[simp] theorem State.setChan_telAt (s : State) (n p : Nat) (c : Chan) : (s.setChan n p c).telAt = s.telAt := rfl
@[simp] theorem State.setChan_nv (s : State) (n p : Nat) (c : Chan) : (s.setChan n p c).nv = s.nv := rfl
@[simp] theorem State.setChan_lcs (s : State) (n p : Nat) (c : Chan) : (s.setChan n p c).lcs = s.lcs := rfl
@[simp] theorem State.setChan_bst (s : State) (n p : Nat) (c : Chan) : (s.setChan n p c).bst = s.bst := rfl
@[simp] theorem State.setChan_pwr (s : State) (n p : Nat) (c : Chan) : (s.setChan n p c).pwr = s.pwr := rfl
@[simp] theorem State.setChan_sys (s : State) (n p : Nat) (c : Chan) : (s.setChan n p c).sys = s.sys := rfl
@[simp] theorem State.setChan_mgt (s : State) (n p : Nat) (c : Chan) : (s.setChan n p c).mgt = s.mgt := rfl
@[simp] theorem State.setChan_uart (s : State) (n p : Nat) (c : Chan) : (s.setChan n p c).uart = s.uart := rfl
@[simp] theorem State.setChan_dpw (s : State) (n p : Nat) (c : Chan) : (s.setChan n p c).dpw = s.dpw := rfl
@[simp] theorem State.setChan_ret (s : State) (n p : Nat) (c : Chan) : (s.setChan n p c).ret = s.ret := rfl
@[simp] theorem State.setChan_boot (s : State) (n p : Nat) (c : Chan) : (s.setChan n p c).boot = s.boot := rfl
@[simp] theorem State.setChan_fresh (s : State) (n p : Nat) (c : Chan) : (s.setChan n p c).fresh = s.fresh := rfl
@[simp] theorem State.setPb_pending (s : State) (n : Nat) (b : PortB) : (s.setPb n b).pending = s.pending := rfl
@[simp] theorem State.setPb_mem (s : State) (n : Nat) (b : PortB) : (s.setPb n b).mem = s.mem := rfl
@[simp] theorem State.setPb_regs (s : State) (n : Nat) (b : PortB) : (s.setPb n b).regs = s.regs := rfl
@[simp] theorem State.setPb_rwt (s : State) (n : Nat) (b : PortB) : (s.setPb n b).rwt = s.rwt := rfl
@[simp] theorem State.setPb_latch (s : State) (n : Nat) (b : PortB) : (s.setPb n b).latch = s.latch := rfl
@[simp] theorem State.setPb_stage (s : State) (n : Nat) (b : PortB) : (s.setPb n b).stage = s.stage := rfl
@[simp] theorem State.setPb_ringAux (s : State) (n : Nat) (b : PortB) : (s.setPb n b).ringAux = s.ringAux := rfl
@[simp] theorem State.setPb_seen (s : State) (n : Nat) (b : PortB) : (s.setPb n b).seen = s.seen := rfl
@[simp] theorem State.setPb_seenFlt (s : State) (n : Nat) (b : PortB) : (s.setPb n b).seenFlt = s.seenFlt := rfl
@[simp] theorem State.setPb_time (s : State) (n : Nat) (b : PortB) : (s.setPb n b).time = s.time := rfl
@[simp] theorem State.setPb_ctx (s : State) (n : Nat) (b : PortB) : (s.setPb n b).ctx = s.ctx := rfl
@[simp] theorem State.setPb_frm (s : State) (n : Nat) (b : PortB) : (s.setPb n b).frm = s.frm := rfl
@[simp] theorem State.setPb_tpl (s : State) (n : Nat) (b : PortB) : (s.setPb n b).tpl = s.tpl := rfl
@[simp] theorem State.setPb_chans (s : State) (n : Nat) (b : PortB) : (s.setPb n b).chans = s.chans := rfl
@[simp] theorem State.setPb_dbrs (s : State) (n : Nat) (b : PortB) : (s.setPb n b).dbrs = s.dbrs := rfl
@[simp] theorem State.setPb_trw (s : State) (n : Nat) (b : PortB) : (s.setPb n b).trw = s.trw := rfl
@[simp] theorem State.setPb_feeds (s : State) (n : Nat) (b : PortB) : (s.setPb n b).feeds = s.feeds := rfl
@[simp] theorem State.setPb_tiles (s : State) (n : Nat) (b : PortB) : (s.setPb n b).tiles = s.tiles := rfl
@[simp] theorem State.setPb_direct (s : State) (n : Nat) (b : PortB) : (s.setPb n b).direct = s.direct := rfl
@[simp] theorem State.setPb_poison (s : State) (n : Nat) (b : PortB) : (s.setPb n b).poison = s.poison := rfl
@[simp] theorem State.setPb_itp (s : State) (n : Nat) (b : PortB) : (s.setPb n b).itp = s.itp := rfl
@[simp] theorem State.setPb_fab (s : State) (n : Nat) (b : PortB) : (s.setPb n b).fab = s.fab := rfl
@[simp] theorem State.setPb_prt (s : State) (n : Nat) (b : PortB) : (s.setPb n b).prt = s.prt := rfl
@[simp] theorem State.setPb_rdl (s : State) (n : Nat) (b : PortB) : (s.setPb n b).rdl = s.rdl := rfl
@[simp] theorem State.setPb_drive (s : State) (n : Nat) (b : PortB) : (s.setPb n b).drive = s.drive := rfl
@[simp] theorem State.setPb_training (s : State) (n : Nat) (b : PortB) : (s.setPb n b).training = s.training := rfl
@[simp] theorem State.setPb_bifurc (s : State) (n : Nat) (b : PortB) : (s.setPb n b).bifurc = s.bifurc := rfl
@[simp] theorem State.setPb_ports (s : State) (n : Nat) (b : PortB) : (s.setPb n b).ports = s.ports := rfl
@[simp] theorem State.setPb_punts (s : State) (n : Nat) (b : PortB) : (s.setPb n b).punts = s.punts := rfl
@[simp] theorem State.setPb_ptp (s : State) (n : Nat) (b : PortB) : (s.setPb n b).ptp = s.ptp := rfl
@[simp] theorem State.setPb_txGiven (s : State) (n : Nat) (b : PortB) : (s.setPb n b).txGiven = s.txGiven := rfl
@[simp] theorem State.setPb_txDone (s : State) (n : Nat) (b : PortB) : (s.setPb n b).txDone = s.txDone := rfl
@[simp] theorem State.setPb_ethMedia (s : State) (n : Nat) (b : PortB) : (s.setPb n b).ethMedia = s.ethMedia := rfl
@[simp] theorem State.setPb_ethMode (s : State) (n : Nat) (b : PortB) : (s.setPb n b).ethMode = s.ethMode := rfl
@[simp] theorem State.setPb_egBuf (s : State) (n : Nat) (b : PortB) : (s.setPb n b).egBuf = s.egBuf := rfl
@[simp] theorem State.setPb_egLeft (s : State) (n : Nat) (b : PortB) : (s.setPb n b).egLeft = s.egLeft := rfl
@[simp] theorem State.setPb_telAt (s : State) (n : Nat) (b : PortB) : (s.setPb n b).telAt = s.telAt := rfl
@[simp] theorem State.setPb_nv (s : State) (n : Nat) (b : PortB) : (s.setPb n b).nv = s.nv := rfl
@[simp] theorem State.setPb_lcs (s : State) (n : Nat) (b : PortB) : (s.setPb n b).lcs = s.lcs := rfl
@[simp] theorem State.setPb_bst (s : State) (n : Nat) (b : PortB) : (s.setPb n b).bst = s.bst := rfl
@[simp] theorem State.setPb_pwr (s : State) (n : Nat) (b : PortB) : (s.setPb n b).pwr = s.pwr := rfl
@[simp] theorem State.setPb_sys (s : State) (n : Nat) (b : PortB) : (s.setPb n b).sys = s.sys := rfl
@[simp] theorem State.setPb_mgt (s : State) (n : Nat) (b : PortB) : (s.setPb n b).mgt = s.mgt := rfl
@[simp] theorem State.setPb_uart (s : State) (n : Nat) (b : PortB) : (s.setPb n b).uart = s.uart := rfl
@[simp] theorem State.setPb_dpw (s : State) (n : Nat) (b : PortB) : (s.setPb n b).dpw = s.dpw := rfl
@[simp] theorem State.setPb_ret (s : State) (n : Nat) (b : PortB) : (s.setPb n b).ret = s.ret := rfl
@[simp] theorem State.setPb_boot (s : State) (n : Nat) (b : PortB) : (s.setPb n b).boot = s.boot := rfl
@[simp] theorem State.setPb_fresh (s : State) (n : Nat) (b : PortB) : (s.setPb n b).fresh = s.fresh := rfl
@[simp] theorem State.setTile_pending (s : State) (n : Nat) (x : Tile) : (s.setTile n x).pending = s.pending := rfl
@[simp] theorem State.setTile_mem (s : State) (n : Nat) (x : Tile) : (s.setTile n x).mem = s.mem := rfl
@[simp] theorem State.setTile_regs (s : State) (n : Nat) (x : Tile) : (s.setTile n x).regs = s.regs := rfl
@[simp] theorem State.setTile_rwt (s : State) (n : Nat) (x : Tile) : (s.setTile n x).rwt = s.rwt := rfl
@[simp] theorem State.setTile_latch (s : State) (n : Nat) (x : Tile) : (s.setTile n x).latch = s.latch := rfl
@[simp] theorem State.setTile_stage (s : State) (n : Nat) (x : Tile) : (s.setTile n x).stage = s.stage := rfl
@[simp] theorem State.setTile_ringAux (s : State) (n : Nat) (x : Tile) : (s.setTile n x).ringAux = s.ringAux := rfl
@[simp] theorem State.setTile_seen (s : State) (n : Nat) (x : Tile) : (s.setTile n x).seen = s.seen := rfl
@[simp] theorem State.setTile_seenFlt (s : State) (n : Nat) (x : Tile) : (s.setTile n x).seenFlt = s.seenFlt := rfl
@[simp] theorem State.setTile_time (s : State) (n : Nat) (x : Tile) : (s.setTile n x).time = s.time := rfl
@[simp] theorem State.setTile_ctx (s : State) (n : Nat) (x : Tile) : (s.setTile n x).ctx = s.ctx := rfl
@[simp] theorem State.setTile_frm (s : State) (n : Nat) (x : Tile) : (s.setTile n x).frm = s.frm := rfl
@[simp] theorem State.setTile_tpl (s : State) (n : Nat) (x : Tile) : (s.setTile n x).tpl = s.tpl := rfl
@[simp] theorem State.setTile_chans (s : State) (n : Nat) (x : Tile) : (s.setTile n x).chans = s.chans := rfl
@[simp] theorem State.setTile_dbrs (s : State) (n : Nat) (x : Tile) : (s.setTile n x).dbrs = s.dbrs := rfl
@[simp] theorem State.setTile_portB (s : State) (n : Nat) (x : Tile) : (s.setTile n x).portB = s.portB := rfl
@[simp] theorem State.setTile_trw (s : State) (n : Nat) (x : Tile) : (s.setTile n x).trw = s.trw := rfl
@[simp] theorem State.setTile_feeds (s : State) (n : Nat) (x : Tile) : (s.setTile n x).feeds = s.feeds := rfl
@[simp] theorem State.setTile_direct (s : State) (n : Nat) (x : Tile) : (s.setTile n x).direct = s.direct := rfl
@[simp] theorem State.setTile_poison (s : State) (n : Nat) (x : Tile) : (s.setTile n x).poison = s.poison := rfl
@[simp] theorem State.setTile_itp (s : State) (n : Nat) (x : Tile) : (s.setTile n x).itp = s.itp := rfl
@[simp] theorem State.setTile_fab (s : State) (n : Nat) (x : Tile) : (s.setTile n x).fab = s.fab := rfl
@[simp] theorem State.setTile_prt (s : State) (n : Nat) (x : Tile) : (s.setTile n x).prt = s.prt := rfl
@[simp] theorem State.setTile_rdl (s : State) (n : Nat) (x : Tile) : (s.setTile n x).rdl = s.rdl := rfl
@[simp] theorem State.setTile_drive (s : State) (n : Nat) (x : Tile) : (s.setTile n x).drive = s.drive := rfl
@[simp] theorem State.setTile_training (s : State) (n : Nat) (x : Tile) : (s.setTile n x).training = s.training := rfl
@[simp] theorem State.setTile_bifurc (s : State) (n : Nat) (x : Tile) : (s.setTile n x).bifurc = s.bifurc := rfl
@[simp] theorem State.setTile_ports (s : State) (n : Nat) (x : Tile) : (s.setTile n x).ports = s.ports := rfl
@[simp] theorem State.setTile_punts (s : State) (n : Nat) (x : Tile) : (s.setTile n x).punts = s.punts := rfl
@[simp] theorem State.setTile_ptp (s : State) (n : Nat) (x : Tile) : (s.setTile n x).ptp = s.ptp := rfl
@[simp] theorem State.setTile_txGiven (s : State) (n : Nat) (x : Tile) : (s.setTile n x).txGiven = s.txGiven := rfl
@[simp] theorem State.setTile_txDone (s : State) (n : Nat) (x : Tile) : (s.setTile n x).txDone = s.txDone := rfl
@[simp] theorem State.setTile_ethMedia (s : State) (n : Nat) (x : Tile) : (s.setTile n x).ethMedia = s.ethMedia := rfl
@[simp] theorem State.setTile_ethMode (s : State) (n : Nat) (x : Tile) : (s.setTile n x).ethMode = s.ethMode := rfl
@[simp] theorem State.setTile_egBuf (s : State) (n : Nat) (x : Tile) : (s.setTile n x).egBuf = s.egBuf := rfl
@[simp] theorem State.setTile_egLeft (s : State) (n : Nat) (x : Tile) : (s.setTile n x).egLeft = s.egLeft := rfl
@[simp] theorem State.setTile_telAt (s : State) (n : Nat) (x : Tile) : (s.setTile n x).telAt = s.telAt := rfl
@[simp] theorem State.setTile_nv (s : State) (n : Nat) (x : Tile) : (s.setTile n x).nv = s.nv := rfl
@[simp] theorem State.setTile_lcs (s : State) (n : Nat) (x : Tile) : (s.setTile n x).lcs = s.lcs := rfl
@[simp] theorem State.setTile_bst (s : State) (n : Nat) (x : Tile) : (s.setTile n x).bst = s.bst := rfl
@[simp] theorem State.setTile_pwr (s : State) (n : Nat) (x : Tile) : (s.setTile n x).pwr = s.pwr := rfl
@[simp] theorem State.setTile_sys (s : State) (n : Nat) (x : Tile) : (s.setTile n x).sys = s.sys := rfl
@[simp] theorem State.setTile_mgt (s : State) (n : Nat) (x : Tile) : (s.setTile n x).mgt = s.mgt := rfl
@[simp] theorem State.setTile_uart (s : State) (n : Nat) (x : Tile) : (s.setTile n x).uart = s.uart := rfl
@[simp] theorem State.setTile_dpw (s : State) (n : Nat) (x : Tile) : (s.setTile n x).dpw = s.dpw := rfl
@[simp] theorem State.setTile_ret (s : State) (n : Nat) (x : Tile) : (s.setTile n x).ret = s.ret := rfl
@[simp] theorem State.setTile_boot (s : State) (n : Nat) (x : Tile) : (s.setTile n x).boot = s.boot := rfl
@[simp] theorem State.setTile_fresh (s : State) (n : Nat) (x : Tile) : (s.setTile n x).fresh = s.fresh := rfl
@[simp] theorem State.setTrwCh_pending (s : State) (e c : Nat) (x : TrwCh) : (s.setTrwCh e c x).pending = s.pending := rfl
@[simp] theorem State.setTrwCh_mem (s : State) (e c : Nat) (x : TrwCh) : (s.setTrwCh e c x).mem = s.mem := rfl
@[simp] theorem State.setTrwCh_regs (s : State) (e c : Nat) (x : TrwCh) : (s.setTrwCh e c x).regs = s.regs := rfl
@[simp] theorem State.setTrwCh_rwt (s : State) (e c : Nat) (x : TrwCh) : (s.setTrwCh e c x).rwt = s.rwt := rfl
@[simp] theorem State.setTrwCh_latch (s : State) (e c : Nat) (x : TrwCh) : (s.setTrwCh e c x).latch = s.latch := rfl
@[simp] theorem State.setTrwCh_stage (s : State) (e c : Nat) (x : TrwCh) : (s.setTrwCh e c x).stage = s.stage := rfl
@[simp] theorem State.setTrwCh_ringAux (s : State) (e c : Nat) (x : TrwCh) : (s.setTrwCh e c x).ringAux = s.ringAux := rfl
@[simp] theorem State.setTrwCh_seen (s : State) (e c : Nat) (x : TrwCh) : (s.setTrwCh e c x).seen = s.seen := rfl
@[simp] theorem State.setTrwCh_seenFlt (s : State) (e c : Nat) (x : TrwCh) : (s.setTrwCh e c x).seenFlt = s.seenFlt := rfl
@[simp] theorem State.setTrwCh_time (s : State) (e c : Nat) (x : TrwCh) : (s.setTrwCh e c x).time = s.time := rfl
@[simp] theorem State.setTrwCh_ctx (s : State) (e c : Nat) (x : TrwCh) : (s.setTrwCh e c x).ctx = s.ctx := rfl
@[simp] theorem State.setTrwCh_frm (s : State) (e c : Nat) (x : TrwCh) : (s.setTrwCh e c x).frm = s.frm := rfl
@[simp] theorem State.setTrwCh_tpl (s : State) (e c : Nat) (x : TrwCh) : (s.setTrwCh e c x).tpl = s.tpl := rfl
@[simp] theorem State.setTrwCh_chans (s : State) (e c : Nat) (x : TrwCh) : (s.setTrwCh e c x).chans = s.chans := rfl
@[simp] theorem State.setTrwCh_dbrs (s : State) (e c : Nat) (x : TrwCh) : (s.setTrwCh e c x).dbrs = s.dbrs := rfl
@[simp] theorem State.setTrwCh_portB (s : State) (e c : Nat) (x : TrwCh) : (s.setTrwCh e c x).portB = s.portB := rfl
@[simp] theorem State.setTrwCh_feeds (s : State) (e c : Nat) (x : TrwCh) : (s.setTrwCh e c x).feeds = s.feeds := rfl
@[simp] theorem State.setTrwCh_tiles (s : State) (e c : Nat) (x : TrwCh) : (s.setTrwCh e c x).tiles = s.tiles := rfl
@[simp] theorem State.setTrwCh_direct (s : State) (e c : Nat) (x : TrwCh) : (s.setTrwCh e c x).direct = s.direct := rfl
@[simp] theorem State.setTrwCh_poison (s : State) (e c : Nat) (x : TrwCh) : (s.setTrwCh e c x).poison = s.poison := rfl
@[simp] theorem State.setTrwCh_itp (s : State) (e c : Nat) (x : TrwCh) : (s.setTrwCh e c x).itp = s.itp := rfl
@[simp] theorem State.setTrwCh_fab (s : State) (e c : Nat) (x : TrwCh) : (s.setTrwCh e c x).fab = s.fab := rfl
@[simp] theorem State.setTrwCh_prt (s : State) (e c : Nat) (x : TrwCh) : (s.setTrwCh e c x).prt = s.prt := rfl
@[simp] theorem State.setTrwCh_rdl (s : State) (e c : Nat) (x : TrwCh) : (s.setTrwCh e c x).rdl = s.rdl := rfl
@[simp] theorem State.setTrwCh_drive (s : State) (e c : Nat) (x : TrwCh) : (s.setTrwCh e c x).drive = s.drive := rfl
@[simp] theorem State.setTrwCh_training (s : State) (e c : Nat) (x : TrwCh) : (s.setTrwCh e c x).training = s.training := rfl
@[simp] theorem State.setTrwCh_bifurc (s : State) (e c : Nat) (x : TrwCh) : (s.setTrwCh e c x).bifurc = s.bifurc := rfl
@[simp] theorem State.setTrwCh_ports (s : State) (e c : Nat) (x : TrwCh) : (s.setTrwCh e c x).ports = s.ports := rfl
@[simp] theorem State.setTrwCh_punts (s : State) (e c : Nat) (x : TrwCh) : (s.setTrwCh e c x).punts = s.punts := rfl
@[simp] theorem State.setTrwCh_ptp (s : State) (e c : Nat) (x : TrwCh) : (s.setTrwCh e c x).ptp = s.ptp := rfl
@[simp] theorem State.setTrwCh_txGiven (s : State) (e c : Nat) (x : TrwCh) : (s.setTrwCh e c x).txGiven = s.txGiven := rfl
@[simp] theorem State.setTrwCh_txDone (s : State) (e c : Nat) (x : TrwCh) : (s.setTrwCh e c x).txDone = s.txDone := rfl
@[simp] theorem State.setTrwCh_ethMedia (s : State) (e c : Nat) (x : TrwCh) : (s.setTrwCh e c x).ethMedia = s.ethMedia := rfl
@[simp] theorem State.setTrwCh_ethMode (s : State) (e c : Nat) (x : TrwCh) : (s.setTrwCh e c x).ethMode = s.ethMode := rfl
@[simp] theorem State.setTrwCh_egBuf (s : State) (e c : Nat) (x : TrwCh) : (s.setTrwCh e c x).egBuf = s.egBuf := rfl
@[simp] theorem State.setTrwCh_egLeft (s : State) (e c : Nat) (x : TrwCh) : (s.setTrwCh e c x).egLeft = s.egLeft := rfl
@[simp] theorem State.setTrwCh_telAt (s : State) (e c : Nat) (x : TrwCh) : (s.setTrwCh e c x).telAt = s.telAt := rfl
@[simp] theorem State.setTrwCh_nv (s : State) (e c : Nat) (x : TrwCh) : (s.setTrwCh e c x).nv = s.nv := rfl
@[simp] theorem State.setTrwCh_lcs (s : State) (e c : Nat) (x : TrwCh) : (s.setTrwCh e c x).lcs = s.lcs := rfl
@[simp] theorem State.setTrwCh_bst (s : State) (e c : Nat) (x : TrwCh) : (s.setTrwCh e c x).bst = s.bst := rfl
@[simp] theorem State.setTrwCh_pwr (s : State) (e c : Nat) (x : TrwCh) : (s.setTrwCh e c x).pwr = s.pwr := rfl
@[simp] theorem State.setTrwCh_sys (s : State) (e c : Nat) (x : TrwCh) : (s.setTrwCh e c x).sys = s.sys := rfl
@[simp] theorem State.setTrwCh_mgt (s : State) (e c : Nat) (x : TrwCh) : (s.setTrwCh e c x).mgt = s.mgt := rfl
@[simp] theorem State.setTrwCh_uart (s : State) (e c : Nat) (x : TrwCh) : (s.setTrwCh e c x).uart = s.uart := rfl
@[simp] theorem State.setTrwCh_dpw (s : State) (e c : Nat) (x : TrwCh) : (s.setTrwCh e c x).dpw = s.dpw := rfl
@[simp] theorem State.setTrwCh_ret (s : State) (e c : Nat) (x : TrwCh) : (s.setTrwCh e c x).ret = s.ret := rfl
@[simp] theorem State.setTrwCh_boot (s : State) (e c : Nat) (x : TrwCh) : (s.setTrwCh e c x).boot = s.boot := rfl
@[simp] theorem State.setTrwCh_fresh (s : State) (e c : Nat) (x : TrwCh) : (s.setTrwCh e c x).fresh = s.fresh := rfl
@[simp] theorem State.setPort_pending (s : State) (p : Nat) (v : Port) : (s.setPort p v).pending = s.pending := rfl
@[simp] theorem State.setPort_mem (s : State) (p : Nat) (v : Port) : (s.setPort p v).mem = s.mem := rfl
@[simp] theorem State.setPort_regs (s : State) (p : Nat) (v : Port) : (s.setPort p v).regs = s.regs := rfl
@[simp] theorem State.setPort_rwt (s : State) (p : Nat) (v : Port) : (s.setPort p v).rwt = s.rwt := rfl
@[simp] theorem State.setPort_latch (s : State) (p : Nat) (v : Port) : (s.setPort p v).latch = s.latch := rfl
@[simp] theorem State.setPort_stage (s : State) (p : Nat) (v : Port) : (s.setPort p v).stage = s.stage := rfl
@[simp] theorem State.setPort_ringAux (s : State) (p : Nat) (v : Port) : (s.setPort p v).ringAux = s.ringAux := rfl
@[simp] theorem State.setPort_seen (s : State) (p : Nat) (v : Port) : (s.setPort p v).seen = s.seen := rfl
@[simp] theorem State.setPort_seenFlt (s : State) (p : Nat) (v : Port) : (s.setPort p v).seenFlt = s.seenFlt := rfl
@[simp] theorem State.setPort_time (s : State) (p : Nat) (v : Port) : (s.setPort p v).time = s.time := rfl
@[simp] theorem State.setPort_ctx (s : State) (p : Nat) (v : Port) : (s.setPort p v).ctx = s.ctx := rfl
@[simp] theorem State.setPort_frm (s : State) (p : Nat) (v : Port) : (s.setPort p v).frm = s.frm := rfl
@[simp] theorem State.setPort_tpl (s : State) (p : Nat) (v : Port) : (s.setPort p v).tpl = s.tpl := rfl
@[simp] theorem State.setPort_chans (s : State) (p : Nat) (v : Port) : (s.setPort p v).chans = s.chans := rfl
@[simp] theorem State.setPort_dbrs (s : State) (p : Nat) (v : Port) : (s.setPort p v).dbrs = s.dbrs := rfl
@[simp] theorem State.setPort_portB (s : State) (p : Nat) (v : Port) : (s.setPort p v).portB = s.portB := rfl
@[simp] theorem State.setPort_trw (s : State) (p : Nat) (v : Port) : (s.setPort p v).trw = s.trw := rfl
@[simp] theorem State.setPort_feeds (s : State) (p : Nat) (v : Port) : (s.setPort p v).feeds = s.feeds := rfl
@[simp] theorem State.setPort_tiles (s : State) (p : Nat) (v : Port) : (s.setPort p v).tiles = s.tiles := rfl
@[simp] theorem State.setPort_direct (s : State) (p : Nat) (v : Port) : (s.setPort p v).direct = s.direct := rfl
@[simp] theorem State.setPort_poison (s : State) (p : Nat) (v : Port) : (s.setPort p v).poison = s.poison := rfl
@[simp] theorem State.setPort_itp (s : State) (p : Nat) (v : Port) : (s.setPort p v).itp = s.itp := rfl
@[simp] theorem State.setPort_fab (s : State) (p : Nat) (v : Port) : (s.setPort p v).fab = s.fab := rfl
@[simp] theorem State.setPort_prt (s : State) (p : Nat) (v : Port) : (s.setPort p v).prt = s.prt := rfl
@[simp] theorem State.setPort_rdl (s : State) (p : Nat) (v : Port) : (s.setPort p v).rdl = s.rdl := rfl
@[simp] theorem State.setPort_drive (s : State) (p : Nat) (v : Port) : (s.setPort p v).drive = s.drive := rfl
@[simp] theorem State.setPort_training (s : State) (p : Nat) (v : Port) : (s.setPort p v).training = s.training := rfl
@[simp] theorem State.setPort_bifurc (s : State) (p : Nat) (v : Port) : (s.setPort p v).bifurc = s.bifurc := rfl
@[simp] theorem State.setPort_punts (s : State) (p : Nat) (v : Port) : (s.setPort p v).punts = s.punts := rfl
@[simp] theorem State.setPort_ptp (s : State) (p : Nat) (v : Port) : (s.setPort p v).ptp = s.ptp := rfl
@[simp] theorem State.setPort_txGiven (s : State) (p : Nat) (v : Port) : (s.setPort p v).txGiven = s.txGiven := rfl
@[simp] theorem State.setPort_txDone (s : State) (p : Nat) (v : Port) : (s.setPort p v).txDone = s.txDone := rfl
@[simp] theorem State.setPort_ethMedia (s : State) (p : Nat) (v : Port) : (s.setPort p v).ethMedia = s.ethMedia := rfl
@[simp] theorem State.setPort_ethMode (s : State) (p : Nat) (v : Port) : (s.setPort p v).ethMode = s.ethMode := rfl
@[simp] theorem State.setPort_egBuf (s : State) (p : Nat) (v : Port) : (s.setPort p v).egBuf = s.egBuf := rfl
@[simp] theorem State.setPort_egLeft (s : State) (p : Nat) (v : Port) : (s.setPort p v).egLeft = s.egLeft := rfl
@[simp] theorem State.setPort_telAt (s : State) (p : Nat) (v : Port) : (s.setPort p v).telAt = s.telAt := rfl
@[simp] theorem State.setPort_nv (s : State) (p : Nat) (v : Port) : (s.setPort p v).nv = s.nv := rfl
@[simp] theorem State.setPort_lcs (s : State) (p : Nat) (v : Port) : (s.setPort p v).lcs = s.lcs := rfl
@[simp] theorem State.setPort_bst (s : State) (p : Nat) (v : Port) : (s.setPort p v).bst = s.bst := rfl
@[simp] theorem State.setPort_pwr (s : State) (p : Nat) (v : Port) : (s.setPort p v).pwr = s.pwr := rfl
@[simp] theorem State.setPort_sys (s : State) (p : Nat) (v : Port) : (s.setPort p v).sys = s.sys := rfl
@[simp] theorem State.setPort_mgt (s : State) (p : Nat) (v : Port) : (s.setPort p v).mgt = s.mgt := rfl
@[simp] theorem State.setPort_uart (s : State) (p : Nat) (v : Port) : (s.setPort p v).uart = s.uart := rfl
@[simp] theorem State.setPort_dpw (s : State) (p : Nat) (v : Port) : (s.setPort p v).dpw = s.dpw := rfl
@[simp] theorem State.setPort_ret (s : State) (p : Nat) (v : Port) : (s.setPort p v).ret = s.ret := rfl
@[simp] theorem State.setPort_boot (s : State) (p : Nat) (v : Port) : (s.setPort p v).boot = s.boot := rfl
@[simp] theorem State.setPort_fresh (s : State) (p : Nat) (v : Port) : (s.setPort p v).fresh = s.fresh := rfl
@[simp] theorem State.setCtx_pending (s : State) (k : Nat) (c : Ctx) : (s.setCtx k c).pending = s.pending := rfl
@[simp] theorem State.setCtx_mem (s : State) (k : Nat) (c : Ctx) : (s.setCtx k c).mem = s.mem := rfl
@[simp] theorem State.setCtx_regs (s : State) (k : Nat) (c : Ctx) : (s.setCtx k c).regs = s.regs := rfl
@[simp] theorem State.setCtx_rwt (s : State) (k : Nat) (c : Ctx) : (s.setCtx k c).rwt = s.rwt := rfl
@[simp] theorem State.setCtx_latch (s : State) (k : Nat) (c : Ctx) : (s.setCtx k c).latch = s.latch := rfl
@[simp] theorem State.setCtx_stage (s : State) (k : Nat) (c : Ctx) : (s.setCtx k c).stage = s.stage := rfl
@[simp] theorem State.setCtx_ringAux (s : State) (k : Nat) (c : Ctx) : (s.setCtx k c).ringAux = s.ringAux := rfl
@[simp] theorem State.setCtx_seen (s : State) (k : Nat) (c : Ctx) : (s.setCtx k c).seen = s.seen := rfl
@[simp] theorem State.setCtx_seenFlt (s : State) (k : Nat) (c : Ctx) : (s.setCtx k c).seenFlt = s.seenFlt := rfl
@[simp] theorem State.setCtx_time (s : State) (k : Nat) (c : Ctx) : (s.setCtx k c).time = s.time := rfl
@[simp] theorem State.setCtx_frm (s : State) (k : Nat) (c : Ctx) : (s.setCtx k c).frm = s.frm := rfl
@[simp] theorem State.setCtx_tpl (s : State) (k : Nat) (c : Ctx) : (s.setCtx k c).tpl = s.tpl := rfl
@[simp] theorem State.setCtx_chans (s : State) (k : Nat) (c : Ctx) : (s.setCtx k c).chans = s.chans := rfl
@[simp] theorem State.setCtx_dbrs (s : State) (k : Nat) (c : Ctx) : (s.setCtx k c).dbrs = s.dbrs := rfl
@[simp] theorem State.setCtx_portB (s : State) (k : Nat) (c : Ctx) : (s.setCtx k c).portB = s.portB := rfl
@[simp] theorem State.setCtx_trw (s : State) (k : Nat) (c : Ctx) : (s.setCtx k c).trw = s.trw := rfl
@[simp] theorem State.setCtx_feeds (s : State) (k : Nat) (c : Ctx) : (s.setCtx k c).feeds = s.feeds := rfl
@[simp] theorem State.setCtx_tiles (s : State) (k : Nat) (c : Ctx) : (s.setCtx k c).tiles = s.tiles := rfl
@[simp] theorem State.setCtx_direct (s : State) (k : Nat) (c : Ctx) : (s.setCtx k c).direct = s.direct := rfl
@[simp] theorem State.setCtx_poison (s : State) (k : Nat) (c : Ctx) : (s.setCtx k c).poison = s.poison := rfl
@[simp] theorem State.setCtx_itp (s : State) (k : Nat) (c : Ctx) : (s.setCtx k c).itp = s.itp := rfl
@[simp] theorem State.setCtx_fab (s : State) (k : Nat) (c : Ctx) : (s.setCtx k c).fab = s.fab := rfl
@[simp] theorem State.setCtx_prt (s : State) (k : Nat) (c : Ctx) : (s.setCtx k c).prt = s.prt := rfl
@[simp] theorem State.setCtx_rdl (s : State) (k : Nat) (c : Ctx) : (s.setCtx k c).rdl = s.rdl := rfl
@[simp] theorem State.setCtx_drive (s : State) (k : Nat) (c : Ctx) : (s.setCtx k c).drive = s.drive := rfl
@[simp] theorem State.setCtx_training (s : State) (k : Nat) (c : Ctx) : (s.setCtx k c).training = s.training := rfl
@[simp] theorem State.setCtx_bifurc (s : State) (k : Nat) (c : Ctx) : (s.setCtx k c).bifurc = s.bifurc := rfl
@[simp] theorem State.setCtx_ports (s : State) (k : Nat) (c : Ctx) : (s.setCtx k c).ports = s.ports := rfl
@[simp] theorem State.setCtx_punts (s : State) (k : Nat) (c : Ctx) : (s.setCtx k c).punts = s.punts := rfl
@[simp] theorem State.setCtx_ptp (s : State) (k : Nat) (c : Ctx) : (s.setCtx k c).ptp = s.ptp := rfl
@[simp] theorem State.setCtx_txGiven (s : State) (k : Nat) (c : Ctx) : (s.setCtx k c).txGiven = s.txGiven := rfl
@[simp] theorem State.setCtx_txDone (s : State) (k : Nat) (c : Ctx) : (s.setCtx k c).txDone = s.txDone := rfl
@[simp] theorem State.setCtx_ethMedia (s : State) (k : Nat) (c : Ctx) : (s.setCtx k c).ethMedia = s.ethMedia := rfl
@[simp] theorem State.setCtx_ethMode (s : State) (k : Nat) (c : Ctx) : (s.setCtx k c).ethMode = s.ethMode := rfl
@[simp] theorem State.setCtx_egBuf (s : State) (k : Nat) (c : Ctx) : (s.setCtx k c).egBuf = s.egBuf := rfl
@[simp] theorem State.setCtx_egLeft (s : State) (k : Nat) (c : Ctx) : (s.setCtx k c).egLeft = s.egLeft := rfl
@[simp] theorem State.setCtx_telAt (s : State) (k : Nat) (c : Ctx) : (s.setCtx k c).telAt = s.telAt := rfl
@[simp] theorem State.setCtx_nv (s : State) (k : Nat) (c : Ctx) : (s.setCtx k c).nv = s.nv := rfl
@[simp] theorem State.setCtx_lcs (s : State) (k : Nat) (c : Ctx) : (s.setCtx k c).lcs = s.lcs := rfl
@[simp] theorem State.setCtx_bst (s : State) (k : Nat) (c : Ctx) : (s.setCtx k c).bst = s.bst := rfl
@[simp] theorem State.setCtx_pwr (s : State) (k : Nat) (c : Ctx) : (s.setCtx k c).pwr = s.pwr := rfl
@[simp] theorem State.setCtx_sys (s : State) (k : Nat) (c : Ctx) : (s.setCtx k c).sys = s.sys := rfl
@[simp] theorem State.setCtx_mgt (s : State) (k : Nat) (c : Ctx) : (s.setCtx k c).mgt = s.mgt := rfl
@[simp] theorem State.setCtx_uart (s : State) (k : Nat) (c : Ctx) : (s.setCtx k c).uart = s.uart := rfl
@[simp] theorem State.setCtx_dpw (s : State) (k : Nat) (c : Ctx) : (s.setCtx k c).dpw = s.dpw := rfl
@[simp] theorem State.setCtx_ret (s : State) (k : Nat) (c : Ctx) : (s.setCtx k c).ret = s.ret := rfl
@[simp] theorem State.setCtx_boot (s : State) (k : Nat) (c : Ctx) : (s.setCtx k c).boot = s.boot := rfl
@[simp] theorem State.setCtx_fresh (s : State) (k : Nat) (c : Ctx) : (s.setCtx k c).fresh = s.fresh := rfl
@[simp] theorem State.setReq_pending (s : State) (k : Nat) (r : Req) : (s.setReq k r).pending = s.pending := rfl
@[simp] theorem State.setReq_mem (s : State) (k : Nat) (r : Req) : (s.setReq k r).mem = s.mem := rfl
@[simp] theorem State.setReq_regs (s : State) (k : Nat) (r : Req) : (s.setReq k r).regs = s.regs := rfl
@[simp] theorem State.setReq_rwt (s : State) (k : Nat) (r : Req) : (s.setReq k r).rwt = s.rwt := rfl
@[simp] theorem State.setReq_latch (s : State) (k : Nat) (r : Req) : (s.setReq k r).latch = s.latch := rfl
@[simp] theorem State.setReq_stage (s : State) (k : Nat) (r : Req) : (s.setReq k r).stage = s.stage := rfl
@[simp] theorem State.setReq_ringAux (s : State) (k : Nat) (r : Req) : (s.setReq k r).ringAux = s.ringAux := rfl
@[simp] theorem State.setReq_seen (s : State) (k : Nat) (r : Req) : (s.setReq k r).seen = s.seen := rfl
@[simp] theorem State.setReq_seenFlt (s : State) (k : Nat) (r : Req) : (s.setReq k r).seenFlt = s.seenFlt := rfl
@[simp] theorem State.setReq_time (s : State) (k : Nat) (r : Req) : (s.setReq k r).time = s.time := rfl
@[simp] theorem State.setReq_frm (s : State) (k : Nat) (r : Req) : (s.setReq k r).frm = s.frm := rfl
@[simp] theorem State.setReq_tpl (s : State) (k : Nat) (r : Req) : (s.setReq k r).tpl = s.tpl := rfl
@[simp] theorem State.setReq_chans (s : State) (k : Nat) (r : Req) : (s.setReq k r).chans = s.chans := rfl
@[simp] theorem State.setReq_dbrs (s : State) (k : Nat) (r : Req) : (s.setReq k r).dbrs = s.dbrs := rfl
@[simp] theorem State.setReq_portB (s : State) (k : Nat) (r : Req) : (s.setReq k r).portB = s.portB := rfl
@[simp] theorem State.setReq_trw (s : State) (k : Nat) (r : Req) : (s.setReq k r).trw = s.trw := rfl
@[simp] theorem State.setReq_feeds (s : State) (k : Nat) (r : Req) : (s.setReq k r).feeds = s.feeds := rfl
@[simp] theorem State.setReq_tiles (s : State) (k : Nat) (r : Req) : (s.setReq k r).tiles = s.tiles := rfl
@[simp] theorem State.setReq_direct (s : State) (k : Nat) (r : Req) : (s.setReq k r).direct = s.direct := rfl
@[simp] theorem State.setReq_poison (s : State) (k : Nat) (r : Req) : (s.setReq k r).poison = s.poison := rfl
@[simp] theorem State.setReq_itp (s : State) (k : Nat) (r : Req) : (s.setReq k r).itp = s.itp := rfl
@[simp] theorem State.setReq_fab (s : State) (k : Nat) (r : Req) : (s.setReq k r).fab = s.fab := rfl
@[simp] theorem State.setReq_prt (s : State) (k : Nat) (r : Req) : (s.setReq k r).prt = s.prt := rfl
@[simp] theorem State.setReq_rdl (s : State) (k : Nat) (r : Req) : (s.setReq k r).rdl = s.rdl := rfl
@[simp] theorem State.setReq_drive (s : State) (k : Nat) (r : Req) : (s.setReq k r).drive = s.drive := rfl
@[simp] theorem State.setReq_training (s : State) (k : Nat) (r : Req) : (s.setReq k r).training = s.training := rfl
@[simp] theorem State.setReq_bifurc (s : State) (k : Nat) (r : Req) : (s.setReq k r).bifurc = s.bifurc := rfl
@[simp] theorem State.setReq_ports (s : State) (k : Nat) (r : Req) : (s.setReq k r).ports = s.ports := rfl
@[simp] theorem State.setReq_punts (s : State) (k : Nat) (r : Req) : (s.setReq k r).punts = s.punts := rfl
@[simp] theorem State.setReq_ptp (s : State) (k : Nat) (r : Req) : (s.setReq k r).ptp = s.ptp := rfl
@[simp] theorem State.setReq_txGiven (s : State) (k : Nat) (r : Req) : (s.setReq k r).txGiven = s.txGiven := rfl
@[simp] theorem State.setReq_txDone (s : State) (k : Nat) (r : Req) : (s.setReq k r).txDone = s.txDone := rfl
@[simp] theorem State.setReq_ethMedia (s : State) (k : Nat) (r : Req) : (s.setReq k r).ethMedia = s.ethMedia := rfl
@[simp] theorem State.setReq_ethMode (s : State) (k : Nat) (r : Req) : (s.setReq k r).ethMode = s.ethMode := rfl
@[simp] theorem State.setReq_egBuf (s : State) (k : Nat) (r : Req) : (s.setReq k r).egBuf = s.egBuf := rfl
@[simp] theorem State.setReq_egLeft (s : State) (k : Nat) (r : Req) : (s.setReq k r).egLeft = s.egLeft := rfl
@[simp] theorem State.setReq_telAt (s : State) (k : Nat) (r : Req) : (s.setReq k r).telAt = s.telAt := rfl
@[simp] theorem State.setReq_nv (s : State) (k : Nat) (r : Req) : (s.setReq k r).nv = s.nv := rfl
@[simp] theorem State.setReq_lcs (s : State) (k : Nat) (r : Req) : (s.setReq k r).lcs = s.lcs := rfl
@[simp] theorem State.setReq_bst (s : State) (k : Nat) (r : Req) : (s.setReq k r).bst = s.bst := rfl
@[simp] theorem State.setReq_pwr (s : State) (k : Nat) (r : Req) : (s.setReq k r).pwr = s.pwr := rfl
@[simp] theorem State.setReq_sys (s : State) (k : Nat) (r : Req) : (s.setReq k r).sys = s.sys := rfl
@[simp] theorem State.setReq_mgt (s : State) (k : Nat) (r : Req) : (s.setReq k r).mgt = s.mgt := rfl
@[simp] theorem State.setReq_uart (s : State) (k : Nat) (r : Req) : (s.setReq k r).uart = s.uart := rfl
@[simp] theorem State.setReq_dpw (s : State) (k : Nat) (r : Req) : (s.setReq k r).dpw = s.dpw := rfl
@[simp] theorem State.setReq_ret (s : State) (k : Nat) (r : Req) : (s.setReq k r).ret = s.ret := rfl
@[simp] theorem State.setReq_boot (s : State) (k : Nat) (r : Req) : (s.setReq k r).boot = s.boot := rfl
@[simp] theorem State.setReq_fresh (s : State) (k : Nat) (r : Req) : (s.setReq k r).fresh = s.fresh := rfl
@[simp] theorem State.setFrame_pending (s : State) (f : Nat) (d : Frame) : (s.setFrame f d).pending = s.pending := rfl
@[simp] theorem State.setFrame_mem (s : State) (f : Nat) (d : Frame) : (s.setFrame f d).mem = s.mem := rfl
@[simp] theorem State.setFrame_regs (s : State) (f : Nat) (d : Frame) : (s.setFrame f d).regs = s.regs := rfl
@[simp] theorem State.setFrame_rwt (s : State) (f : Nat) (d : Frame) : (s.setFrame f d).rwt = s.rwt := rfl
@[simp] theorem State.setFrame_latch (s : State) (f : Nat) (d : Frame) : (s.setFrame f d).latch = s.latch := rfl
@[simp] theorem State.setFrame_stage (s : State) (f : Nat) (d : Frame) : (s.setFrame f d).stage = s.stage := rfl
@[simp] theorem State.setFrame_ringAux (s : State) (f : Nat) (d : Frame) : (s.setFrame f d).ringAux = s.ringAux := rfl
@[simp] theorem State.setFrame_seen (s : State) (f : Nat) (d : Frame) : (s.setFrame f d).seen = s.seen := rfl
@[simp] theorem State.setFrame_seenFlt (s : State) (f : Nat) (d : Frame) : (s.setFrame f d).seenFlt = s.seenFlt := rfl
@[simp] theorem State.setFrame_time (s : State) (f : Nat) (d : Frame) : (s.setFrame f d).time = s.time := rfl
@[simp] theorem State.setFrame_ctx (s : State) (f : Nat) (d : Frame) : (s.setFrame f d).ctx = s.ctx := rfl
@[simp] theorem State.setFrame_tpl (s : State) (f : Nat) (d : Frame) : (s.setFrame f d).tpl = s.tpl := rfl
@[simp] theorem State.setFrame_chans (s : State) (f : Nat) (d : Frame) : (s.setFrame f d).chans = s.chans := rfl
@[simp] theorem State.setFrame_dbrs (s : State) (f : Nat) (d : Frame) : (s.setFrame f d).dbrs = s.dbrs := rfl
@[simp] theorem State.setFrame_portB (s : State) (f : Nat) (d : Frame) : (s.setFrame f d).portB = s.portB := rfl
@[simp] theorem State.setFrame_trw (s : State) (f : Nat) (d : Frame) : (s.setFrame f d).trw = s.trw := rfl
@[simp] theorem State.setFrame_feeds (s : State) (f : Nat) (d : Frame) : (s.setFrame f d).feeds = s.feeds := rfl
@[simp] theorem State.setFrame_tiles (s : State) (f : Nat) (d : Frame) : (s.setFrame f d).tiles = s.tiles := rfl
@[simp] theorem State.setFrame_direct (s : State) (f : Nat) (d : Frame) : (s.setFrame f d).direct = s.direct := rfl
@[simp] theorem State.setFrame_poison (s : State) (f : Nat) (d : Frame) : (s.setFrame f d).poison = s.poison := rfl
@[simp] theorem State.setFrame_itp (s : State) (f : Nat) (d : Frame) : (s.setFrame f d).itp = s.itp := rfl
@[simp] theorem State.setFrame_fab (s : State) (f : Nat) (d : Frame) : (s.setFrame f d).fab = s.fab := rfl
@[simp] theorem State.setFrame_prt (s : State) (f : Nat) (d : Frame) : (s.setFrame f d).prt = s.prt := rfl
@[simp] theorem State.setFrame_rdl (s : State) (f : Nat) (d : Frame) : (s.setFrame f d).rdl = s.rdl := rfl
@[simp] theorem State.setFrame_drive (s : State) (f : Nat) (d : Frame) : (s.setFrame f d).drive = s.drive := rfl
@[simp] theorem State.setFrame_training (s : State) (f : Nat) (d : Frame) : (s.setFrame f d).training = s.training := rfl
@[simp] theorem State.setFrame_bifurc (s : State) (f : Nat) (d : Frame) : (s.setFrame f d).bifurc = s.bifurc := rfl
@[simp] theorem State.setFrame_ports (s : State) (f : Nat) (d : Frame) : (s.setFrame f d).ports = s.ports := rfl
@[simp] theorem State.setFrame_punts (s : State) (f : Nat) (d : Frame) : (s.setFrame f d).punts = s.punts := rfl
@[simp] theorem State.setFrame_ptp (s : State) (f : Nat) (d : Frame) : (s.setFrame f d).ptp = s.ptp := rfl
@[simp] theorem State.setFrame_txGiven (s : State) (f : Nat) (d : Frame) : (s.setFrame f d).txGiven = s.txGiven := rfl
@[simp] theorem State.setFrame_txDone (s : State) (f : Nat) (d : Frame) : (s.setFrame f d).txDone = s.txDone := rfl
@[simp] theorem State.setFrame_ethMedia (s : State) (f : Nat) (d : Frame) : (s.setFrame f d).ethMedia = s.ethMedia := rfl
@[simp] theorem State.setFrame_ethMode (s : State) (f : Nat) (d : Frame) : (s.setFrame f d).ethMode = s.ethMode := rfl
@[simp] theorem State.setFrame_egBuf (s : State) (f : Nat) (d : Frame) : (s.setFrame f d).egBuf = s.egBuf := rfl
@[simp] theorem State.setFrame_egLeft (s : State) (f : Nat) (d : Frame) : (s.setFrame f d).egLeft = s.egLeft := rfl
@[simp] theorem State.setFrame_telAt (s : State) (f : Nat) (d : Frame) : (s.setFrame f d).telAt = s.telAt := rfl
@[simp] theorem State.setFrame_nv (s : State) (f : Nat) (d : Frame) : (s.setFrame f d).nv = s.nv := rfl
@[simp] theorem State.setFrame_lcs (s : State) (f : Nat) (d : Frame) : (s.setFrame f d).lcs = s.lcs := rfl
@[simp] theorem State.setFrame_bst (s : State) (f : Nat) (d : Frame) : (s.setFrame f d).bst = s.bst := rfl
@[simp] theorem State.setFrame_pwr (s : State) (f : Nat) (d : Frame) : (s.setFrame f d).pwr = s.pwr := rfl
@[simp] theorem State.setFrame_sys (s : State) (f : Nat) (d : Frame) : (s.setFrame f d).sys = s.sys := rfl
@[simp] theorem State.setFrame_mgt (s : State) (f : Nat) (d : Frame) : (s.setFrame f d).mgt = s.mgt := rfl
@[simp] theorem State.setFrame_uart (s : State) (f : Nat) (d : Frame) : (s.setFrame f d).uart = s.uart := rfl
@[simp] theorem State.setFrame_dpw (s : State) (f : Nat) (d : Frame) : (s.setFrame f d).dpw = s.dpw := rfl
@[simp] theorem State.setFrame_ret (s : State) (f : Nat) (d : Frame) : (s.setFrame f d).ret = s.ret := rfl
@[simp] theorem State.setFrame_boot (s : State) (f : Nat) (d : Frame) : (s.setFrame f d).boot = s.boot := rfl
@[simp] theorem State.setFrame_fresh (s : State) (f : Nat) (d : Frame) : (s.setFrame f d).fresh = s.fresh := rfl

/-! ### Bytes at internal addresses: memory or an entry of the context and request tables -/

theorem State.setByte_frame (s : State) (a v : Nat) : { s.setByte a v with mem := s.mem, ctx := s.ctx } = s := by
  simp only [State.setByte]; repeat' split
  all_goals rfl

@[simp] theorem State.setByte_pending (s : State) (a v : Nat) : (s.setByte a v).pending = s.pending := (congrArg State.pending (s.setByte_frame a v) :)
@[simp] theorem State.setByte_regs (s : State) (a v : Nat) : (s.setByte a v).regs = s.regs := (congrArg State.regs (s.setByte_frame a v) :)
@[simp] theorem State.setByte_rwt (s : State) (a v : Nat) : (s.setByte a v).rwt = s.rwt := (congrArg State.rwt (s.setByte_frame a v) :)
@[simp] theorem State.setByte_latch (s : State) (a v : Nat) : (s.setByte a v).latch = s.latch := (congrArg State.latch (s.setByte_frame a v) :)
@[simp] theorem State.setByte_stage (s : State) (a v : Nat) : (s.setByte a v).stage = s.stage := (congrArg State.stage (s.setByte_frame a v) :)
@[simp] theorem State.setByte_ringAux (s : State) (a v : Nat) : (s.setByte a v).ringAux = s.ringAux := (congrArg State.ringAux (s.setByte_frame a v) :)
@[simp] theorem State.setByte_seen (s : State) (a v : Nat) : (s.setByte a v).seen = s.seen := (congrArg State.seen (s.setByte_frame a v) :)
@[simp] theorem State.setByte_seenFlt (s : State) (a v : Nat) : (s.setByte a v).seenFlt = s.seenFlt := (congrArg State.seenFlt (s.setByte_frame a v) :)
@[simp] theorem State.setByte_time (s : State) (a v : Nat) : (s.setByte a v).time = s.time := (congrArg State.time (s.setByte_frame a v) :)
@[simp] theorem State.setByte_frm (s : State) (a v : Nat) : (s.setByte a v).frm = s.frm := (congrArg State.frm (s.setByte_frame a v) :)
@[simp] theorem State.setByte_tpl (s : State) (a v : Nat) : (s.setByte a v).tpl = s.tpl := (congrArg State.tpl (s.setByte_frame a v) :)
@[simp] theorem State.setByte_chans (s : State) (a v : Nat) : (s.setByte a v).chans = s.chans := (congrArg State.chans (s.setByte_frame a v) :)
@[simp] theorem State.setByte_dbrs (s : State) (a v : Nat) : (s.setByte a v).dbrs = s.dbrs := (congrArg State.dbrs (s.setByte_frame a v) :)
@[simp] theorem State.setByte_portB (s : State) (a v : Nat) : (s.setByte a v).portB = s.portB := (congrArg State.portB (s.setByte_frame a v) :)
@[simp] theorem State.setByte_trw (s : State) (a v : Nat) : (s.setByte a v).trw = s.trw := (congrArg State.trw (s.setByte_frame a v) :)
@[simp] theorem State.setByte_feeds (s : State) (a v : Nat) : (s.setByte a v).feeds = s.feeds := (congrArg State.feeds (s.setByte_frame a v) :)
@[simp] theorem State.setByte_tiles (s : State) (a v : Nat) : (s.setByte a v).tiles = s.tiles := (congrArg State.tiles (s.setByte_frame a v) :)
@[simp] theorem State.setByte_direct (s : State) (a v : Nat) : (s.setByte a v).direct = s.direct := (congrArg State.direct (s.setByte_frame a v) :)
@[simp] theorem State.setByte_poison (s : State) (a v : Nat) : (s.setByte a v).poison = s.poison := (congrArg State.poison (s.setByte_frame a v) :)
@[simp] theorem State.setByte_itp (s : State) (a v : Nat) : (s.setByte a v).itp = s.itp := (congrArg State.itp (s.setByte_frame a v) :)
@[simp] theorem State.setByte_fab (s : State) (a v : Nat) : (s.setByte a v).fab = s.fab := (congrArg State.fab (s.setByte_frame a v) :)
@[simp] theorem State.setByte_prt (s : State) (a v : Nat) : (s.setByte a v).prt = s.prt := (congrArg State.prt (s.setByte_frame a v) :)
@[simp] theorem State.setByte_rdl (s : State) (a v : Nat) : (s.setByte a v).rdl = s.rdl := (congrArg State.rdl (s.setByte_frame a v) :)
@[simp] theorem State.setByte_drive (s : State) (a v : Nat) : (s.setByte a v).drive = s.drive := (congrArg State.drive (s.setByte_frame a v) :)
@[simp] theorem State.setByte_training (s : State) (a v : Nat) : (s.setByte a v).training = s.training := (congrArg State.training (s.setByte_frame a v) :)
@[simp] theorem State.setByte_bifurc (s : State) (a v : Nat) : (s.setByte a v).bifurc = s.bifurc := (congrArg State.bifurc (s.setByte_frame a v) :)
@[simp] theorem State.setByte_ports (s : State) (a v : Nat) : (s.setByte a v).ports = s.ports := (congrArg State.ports (s.setByte_frame a v) :)
@[simp] theorem State.setByte_punts (s : State) (a v : Nat) : (s.setByte a v).punts = s.punts := (congrArg State.punts (s.setByte_frame a v) :)
@[simp] theorem State.setByte_ptp (s : State) (a v : Nat) : (s.setByte a v).ptp = s.ptp := (congrArg State.ptp (s.setByte_frame a v) :)
@[simp] theorem State.setByte_txGiven (s : State) (a v : Nat) : (s.setByte a v).txGiven = s.txGiven := (congrArg State.txGiven (s.setByte_frame a v) :)
@[simp] theorem State.setByte_txDone (s : State) (a v : Nat) : (s.setByte a v).txDone = s.txDone := (congrArg State.txDone (s.setByte_frame a v) :)
@[simp] theorem State.setByte_ethMedia (s : State) (a v : Nat) : (s.setByte a v).ethMedia = s.ethMedia := (congrArg State.ethMedia (s.setByte_frame a v) :)
@[simp] theorem State.setByte_ethMode (s : State) (a v : Nat) : (s.setByte a v).ethMode = s.ethMode := (congrArg State.ethMode (s.setByte_frame a v) :)
@[simp] theorem State.setByte_egBuf (s : State) (a v : Nat) : (s.setByte a v).egBuf = s.egBuf := (congrArg State.egBuf (s.setByte_frame a v) :)
@[simp] theorem State.setByte_egLeft (s : State) (a v : Nat) : (s.setByte a v).egLeft = s.egLeft := (congrArg State.egLeft (s.setByte_frame a v) :)
@[simp] theorem State.setByte_telAt (s : State) (a v : Nat) : (s.setByte a v).telAt = s.telAt := (congrArg State.telAt (s.setByte_frame a v) :)
@[simp] theorem State.setByte_nv (s : State) (a v : Nat) : (s.setByte a v).nv = s.nv := (congrArg State.nv (s.setByte_frame a v) :)
@[simp] theorem State.setByte_lcs (s : State) (a v : Nat) : (s.setByte a v).lcs = s.lcs := (congrArg State.lcs (s.setByte_frame a v) :)
@[simp] theorem State.setByte_bst (s : State) (a v : Nat) : (s.setByte a v).bst = s.bst := (congrArg State.bst (s.setByte_frame a v) :)
@[simp] theorem State.setByte_pwr (s : State) (a v : Nat) : (s.setByte a v).pwr = s.pwr := (congrArg State.pwr (s.setByte_frame a v) :)
@[simp] theorem State.setByte_sys (s : State) (a v : Nat) : (s.setByte a v).sys = s.sys := (congrArg State.sys (s.setByte_frame a v) :)
@[simp] theorem State.setByte_mgt (s : State) (a v : Nat) : (s.setByte a v).mgt = s.mgt := (congrArg State.mgt (s.setByte_frame a v) :)
@[simp] theorem State.setByte_uart (s : State) (a v : Nat) : (s.setByte a v).uart = s.uart := (congrArg State.uart (s.setByte_frame a v) :)
@[simp] theorem State.setByte_dpw (s : State) (a v : Nat) : (s.setByte a v).dpw = s.dpw := (congrArg State.dpw (s.setByte_frame a v) :)
@[simp] theorem State.setByte_ret (s : State) (a v : Nat) : (s.setByte a v).ret = s.ret := (congrArg State.ret (s.setByte_frame a v) :)
@[simp] theorem State.setByte_boot (s : State) (a v : Nat) : (s.setByte a v).boot = s.boot := (congrArg State.boot (s.setByte_frame a v) :)
@[simp] theorem State.setByte_fresh (s : State) (a v : Nat) : (s.setByte a v).fresh = s.fresh := (congrArg State.fresh (s.setByte_frame a v) :)

theorem State.writeBytes_frame (bs : List Nat) : ∀ (s : State) (a : Nat), { s.writeBytes a bs with mem := s.mem, ctx := s.ctx } = s := by
  induction bs with
  | nil => intro s a; rfl
  | cons b bs ih =>
    intro s a
    have h := ih (s.setByte a b) (a + 1)
    have k := s.setByte_frame a b
    calc { s.writeBytes a (b :: bs) with mem := s.mem, ctx := s.ctx }
        = { ({ (s.setByte a b).writeBytes (a + 1) bs with mem := (s.setByte a b).mem, ctx := (s.setByte a b).ctx } : State) with
            mem := s.mem, ctx := s.ctx } := rfl
      _ = { s.setByte a b with mem := s.mem, ctx := s.ctx } := by rw [h]
      _ = s := k

@[simp] theorem State.writeBytes_pending (s : State) (a : Nat) (bs : List Nat) : (s.writeBytes a bs).pending = s.pending := (congrArg State.pending (s.writeBytes_frame bs a) :)
@[simp] theorem State.writeBytes_regs (s : State) (a : Nat) (bs : List Nat) : (s.writeBytes a bs).regs = s.regs := (congrArg State.regs (s.writeBytes_frame bs a) :)
@[simp] theorem State.writeBytes_rwt (s : State) (a : Nat) (bs : List Nat) : (s.writeBytes a bs).rwt = s.rwt := (congrArg State.rwt (s.writeBytes_frame bs a) :)
@[simp] theorem State.writeBytes_latch (s : State) (a : Nat) (bs : List Nat) : (s.writeBytes a bs).latch = s.latch := (congrArg State.latch (s.writeBytes_frame bs a) :)
@[simp] theorem State.writeBytes_stage (s : State) (a : Nat) (bs : List Nat) : (s.writeBytes a bs).stage = s.stage := (congrArg State.stage (s.writeBytes_frame bs a) :)
@[simp] theorem State.writeBytes_ringAux (s : State) (a : Nat) (bs : List Nat) : (s.writeBytes a bs).ringAux = s.ringAux := (congrArg State.ringAux (s.writeBytes_frame bs a) :)
@[simp] theorem State.writeBytes_seen (s : State) (a : Nat) (bs : List Nat) : (s.writeBytes a bs).seen = s.seen := (congrArg State.seen (s.writeBytes_frame bs a) :)
@[simp] theorem State.writeBytes_seenFlt (s : State) (a : Nat) (bs : List Nat) : (s.writeBytes a bs).seenFlt = s.seenFlt := (congrArg State.seenFlt (s.writeBytes_frame bs a) :)
@[simp] theorem State.writeBytes_time (s : State) (a : Nat) (bs : List Nat) : (s.writeBytes a bs).time = s.time := (congrArg State.time (s.writeBytes_frame bs a) :)
@[simp] theorem State.writeBytes_frm (s : State) (a : Nat) (bs : List Nat) : (s.writeBytes a bs).frm = s.frm := (congrArg State.frm (s.writeBytes_frame bs a) :)
@[simp] theorem State.writeBytes_tpl (s : State) (a : Nat) (bs : List Nat) : (s.writeBytes a bs).tpl = s.tpl := (congrArg State.tpl (s.writeBytes_frame bs a) :)
@[simp] theorem State.writeBytes_chans (s : State) (a : Nat) (bs : List Nat) : (s.writeBytes a bs).chans = s.chans := (congrArg State.chans (s.writeBytes_frame bs a) :)
@[simp] theorem State.writeBytes_dbrs (s : State) (a : Nat) (bs : List Nat) : (s.writeBytes a bs).dbrs = s.dbrs := (congrArg State.dbrs (s.writeBytes_frame bs a) :)
@[simp] theorem State.writeBytes_portB (s : State) (a : Nat) (bs : List Nat) : (s.writeBytes a bs).portB = s.portB := (congrArg State.portB (s.writeBytes_frame bs a) :)
@[simp] theorem State.writeBytes_trw (s : State) (a : Nat) (bs : List Nat) : (s.writeBytes a bs).trw = s.trw := (congrArg State.trw (s.writeBytes_frame bs a) :)
@[simp] theorem State.writeBytes_feeds (s : State) (a : Nat) (bs : List Nat) : (s.writeBytes a bs).feeds = s.feeds := (congrArg State.feeds (s.writeBytes_frame bs a) :)
@[simp] theorem State.writeBytes_tiles (s : State) (a : Nat) (bs : List Nat) : (s.writeBytes a bs).tiles = s.tiles := (congrArg State.tiles (s.writeBytes_frame bs a) :)
@[simp] theorem State.writeBytes_direct (s : State) (a : Nat) (bs : List Nat) : (s.writeBytes a bs).direct = s.direct := (congrArg State.direct (s.writeBytes_frame bs a) :)
@[simp] theorem State.writeBytes_poison (s : State) (a : Nat) (bs : List Nat) : (s.writeBytes a bs).poison = s.poison := (congrArg State.poison (s.writeBytes_frame bs a) :)
@[simp] theorem State.writeBytes_itp (s : State) (a : Nat) (bs : List Nat) : (s.writeBytes a bs).itp = s.itp := (congrArg State.itp (s.writeBytes_frame bs a) :)
@[simp] theorem State.writeBytes_fab (s : State) (a : Nat) (bs : List Nat) : (s.writeBytes a bs).fab = s.fab := (congrArg State.fab (s.writeBytes_frame bs a) :)
@[simp] theorem State.writeBytes_prt (s : State) (a : Nat) (bs : List Nat) : (s.writeBytes a bs).prt = s.prt := (congrArg State.prt (s.writeBytes_frame bs a) :)
@[simp] theorem State.writeBytes_rdl (s : State) (a : Nat) (bs : List Nat) : (s.writeBytes a bs).rdl = s.rdl := (congrArg State.rdl (s.writeBytes_frame bs a) :)
@[simp] theorem State.writeBytes_drive (s : State) (a : Nat) (bs : List Nat) : (s.writeBytes a bs).drive = s.drive := (congrArg State.drive (s.writeBytes_frame bs a) :)
@[simp] theorem State.writeBytes_training (s : State) (a : Nat) (bs : List Nat) : (s.writeBytes a bs).training = s.training := (congrArg State.training (s.writeBytes_frame bs a) :)
@[simp] theorem State.writeBytes_bifurc (s : State) (a : Nat) (bs : List Nat) : (s.writeBytes a bs).bifurc = s.bifurc := (congrArg State.bifurc (s.writeBytes_frame bs a) :)
@[simp] theorem State.writeBytes_ports (s : State) (a : Nat) (bs : List Nat) : (s.writeBytes a bs).ports = s.ports := (congrArg State.ports (s.writeBytes_frame bs a) :)
@[simp] theorem State.writeBytes_punts (s : State) (a : Nat) (bs : List Nat) : (s.writeBytes a bs).punts = s.punts := (congrArg State.punts (s.writeBytes_frame bs a) :)
@[simp] theorem State.writeBytes_ptp (s : State) (a : Nat) (bs : List Nat) : (s.writeBytes a bs).ptp = s.ptp := (congrArg State.ptp (s.writeBytes_frame bs a) :)
@[simp] theorem State.writeBytes_txGiven (s : State) (a : Nat) (bs : List Nat) : (s.writeBytes a bs).txGiven = s.txGiven := (congrArg State.txGiven (s.writeBytes_frame bs a) :)
@[simp] theorem State.writeBytes_txDone (s : State) (a : Nat) (bs : List Nat) : (s.writeBytes a bs).txDone = s.txDone := (congrArg State.txDone (s.writeBytes_frame bs a) :)
@[simp] theorem State.writeBytes_ethMedia (s : State) (a : Nat) (bs : List Nat) : (s.writeBytes a bs).ethMedia = s.ethMedia := (congrArg State.ethMedia (s.writeBytes_frame bs a) :)
@[simp] theorem State.writeBytes_ethMode (s : State) (a : Nat) (bs : List Nat) : (s.writeBytes a bs).ethMode = s.ethMode := (congrArg State.ethMode (s.writeBytes_frame bs a) :)
@[simp] theorem State.writeBytes_egBuf (s : State) (a : Nat) (bs : List Nat) : (s.writeBytes a bs).egBuf = s.egBuf := (congrArg State.egBuf (s.writeBytes_frame bs a) :)
@[simp] theorem State.writeBytes_egLeft (s : State) (a : Nat) (bs : List Nat) : (s.writeBytes a bs).egLeft = s.egLeft := (congrArg State.egLeft (s.writeBytes_frame bs a) :)
@[simp] theorem State.writeBytes_telAt (s : State) (a : Nat) (bs : List Nat) : (s.writeBytes a bs).telAt = s.telAt := (congrArg State.telAt (s.writeBytes_frame bs a) :)
@[simp] theorem State.writeBytes_nv (s : State) (a : Nat) (bs : List Nat) : (s.writeBytes a bs).nv = s.nv := (congrArg State.nv (s.writeBytes_frame bs a) :)
@[simp] theorem State.writeBytes_lcs (s : State) (a : Nat) (bs : List Nat) : (s.writeBytes a bs).lcs = s.lcs := (congrArg State.lcs (s.writeBytes_frame bs a) :)
@[simp] theorem State.writeBytes_bst (s : State) (a : Nat) (bs : List Nat) : (s.writeBytes a bs).bst = s.bst := (congrArg State.bst (s.writeBytes_frame bs a) :)
@[simp] theorem State.writeBytes_pwr (s : State) (a : Nat) (bs : List Nat) : (s.writeBytes a bs).pwr = s.pwr := (congrArg State.pwr (s.writeBytes_frame bs a) :)
@[simp] theorem State.writeBytes_sys (s : State) (a : Nat) (bs : List Nat) : (s.writeBytes a bs).sys = s.sys := (congrArg State.sys (s.writeBytes_frame bs a) :)
@[simp] theorem State.writeBytes_mgt (s : State) (a : Nat) (bs : List Nat) : (s.writeBytes a bs).mgt = s.mgt := (congrArg State.mgt (s.writeBytes_frame bs a) :)
@[simp] theorem State.writeBytes_uart (s : State) (a : Nat) (bs : List Nat) : (s.writeBytes a bs).uart = s.uart := (congrArg State.uart (s.writeBytes_frame bs a) :)
@[simp] theorem State.writeBytes_dpw (s : State) (a : Nat) (bs : List Nat) : (s.writeBytes a bs).dpw = s.dpw := (congrArg State.dpw (s.writeBytes_frame bs a) :)
@[simp] theorem State.writeBytes_ret (s : State) (a : Nat) (bs : List Nat) : (s.writeBytes a bs).ret = s.ret := (congrArg State.ret (s.writeBytes_frame bs a) :)
@[simp] theorem State.writeBytes_boot (s : State) (a : Nat) (bs : List Nat) : (s.writeBytes a bs).boot = s.boot := (congrArg State.boot (s.writeBytes_frame bs a) :)
@[simp] theorem State.writeBytes_fresh (s : State) (a : Nat) (bs : List Nat) : (s.writeBytes a bs).fresh = s.fresh := (congrArg State.fresh (s.writeBytes_frame bs a) :)

/-- A refused range is left alone, any other is written. -/
theorem State.putBytes_frame (s : State) (a : Nat) (bs : List Nat) : { s.putBytes a bs with mem := s.mem, ctx := s.ctx } = s := by
  simp only [State.putBytes]; split
  · rfl
  · exact s.writeBytes_frame bs a

@[simp] theorem State.putBytes_pending (s : State) (a : Nat) (bs : List Nat) : (s.putBytes a bs).pending = s.pending := (congrArg State.pending (s.putBytes_frame a bs) :)
@[simp] theorem State.putBytes_regs (s : State) (a : Nat) (bs : List Nat) : (s.putBytes a bs).regs = s.regs := (congrArg State.regs (s.putBytes_frame a bs) :)
@[simp] theorem State.putBytes_rwt (s : State) (a : Nat) (bs : List Nat) : (s.putBytes a bs).rwt = s.rwt := (congrArg State.rwt (s.putBytes_frame a bs) :)
@[simp] theorem State.putBytes_latch (s : State) (a : Nat) (bs : List Nat) : (s.putBytes a bs).latch = s.latch := (congrArg State.latch (s.putBytes_frame a bs) :)
@[simp] theorem State.putBytes_stage (s : State) (a : Nat) (bs : List Nat) : (s.putBytes a bs).stage = s.stage := (congrArg State.stage (s.putBytes_frame a bs) :)
@[simp] theorem State.putBytes_ringAux (s : State) (a : Nat) (bs : List Nat) : (s.putBytes a bs).ringAux = s.ringAux := (congrArg State.ringAux (s.putBytes_frame a bs) :)
@[simp] theorem State.putBytes_seen (s : State) (a : Nat) (bs : List Nat) : (s.putBytes a bs).seen = s.seen := (congrArg State.seen (s.putBytes_frame a bs) :)
@[simp] theorem State.putBytes_seenFlt (s : State) (a : Nat) (bs : List Nat) : (s.putBytes a bs).seenFlt = s.seenFlt := (congrArg State.seenFlt (s.putBytes_frame a bs) :)
@[simp] theorem State.putBytes_time (s : State) (a : Nat) (bs : List Nat) : (s.putBytes a bs).time = s.time := (congrArg State.time (s.putBytes_frame a bs) :)
@[simp] theorem State.putBytes_frm (s : State) (a : Nat) (bs : List Nat) : (s.putBytes a bs).frm = s.frm := (congrArg State.frm (s.putBytes_frame a bs) :)
@[simp] theorem State.putBytes_tpl (s : State) (a : Nat) (bs : List Nat) : (s.putBytes a bs).tpl = s.tpl := (congrArg State.tpl (s.putBytes_frame a bs) :)
@[simp] theorem State.putBytes_chans (s : State) (a : Nat) (bs : List Nat) : (s.putBytes a bs).chans = s.chans := (congrArg State.chans (s.putBytes_frame a bs) :)
@[simp] theorem State.putBytes_dbrs (s : State) (a : Nat) (bs : List Nat) : (s.putBytes a bs).dbrs = s.dbrs := (congrArg State.dbrs (s.putBytes_frame a bs) :)
@[simp] theorem State.putBytes_portB (s : State) (a : Nat) (bs : List Nat) : (s.putBytes a bs).portB = s.portB := (congrArg State.portB (s.putBytes_frame a bs) :)
@[simp] theorem State.putBytes_trw (s : State) (a : Nat) (bs : List Nat) : (s.putBytes a bs).trw = s.trw := (congrArg State.trw (s.putBytes_frame a bs) :)
@[simp] theorem State.putBytes_feeds (s : State) (a : Nat) (bs : List Nat) : (s.putBytes a bs).feeds = s.feeds := (congrArg State.feeds (s.putBytes_frame a bs) :)
@[simp] theorem State.putBytes_tiles (s : State) (a : Nat) (bs : List Nat) : (s.putBytes a bs).tiles = s.tiles := (congrArg State.tiles (s.putBytes_frame a bs) :)
@[simp] theorem State.putBytes_direct (s : State) (a : Nat) (bs : List Nat) : (s.putBytes a bs).direct = s.direct := (congrArg State.direct (s.putBytes_frame a bs) :)
@[simp] theorem State.putBytes_poison (s : State) (a : Nat) (bs : List Nat) : (s.putBytes a bs).poison = s.poison := (congrArg State.poison (s.putBytes_frame a bs) :)
@[simp] theorem State.putBytes_itp (s : State) (a : Nat) (bs : List Nat) : (s.putBytes a bs).itp = s.itp := (congrArg State.itp (s.putBytes_frame a bs) :)
@[simp] theorem State.putBytes_fab (s : State) (a : Nat) (bs : List Nat) : (s.putBytes a bs).fab = s.fab := (congrArg State.fab (s.putBytes_frame a bs) :)
@[simp] theorem State.putBytes_prt (s : State) (a : Nat) (bs : List Nat) : (s.putBytes a bs).prt = s.prt := (congrArg State.prt (s.putBytes_frame a bs) :)
@[simp] theorem State.putBytes_rdl (s : State) (a : Nat) (bs : List Nat) : (s.putBytes a bs).rdl = s.rdl := (congrArg State.rdl (s.putBytes_frame a bs) :)
@[simp] theorem State.putBytes_drive (s : State) (a : Nat) (bs : List Nat) : (s.putBytes a bs).drive = s.drive := (congrArg State.drive (s.putBytes_frame a bs) :)
@[simp] theorem State.putBytes_training (s : State) (a : Nat) (bs : List Nat) : (s.putBytes a bs).training = s.training := (congrArg State.training (s.putBytes_frame a bs) :)
@[simp] theorem State.putBytes_bifurc (s : State) (a : Nat) (bs : List Nat) : (s.putBytes a bs).bifurc = s.bifurc := (congrArg State.bifurc (s.putBytes_frame a bs) :)
@[simp] theorem State.putBytes_ports (s : State) (a : Nat) (bs : List Nat) : (s.putBytes a bs).ports = s.ports := (congrArg State.ports (s.putBytes_frame a bs) :)
@[simp] theorem State.putBytes_punts (s : State) (a : Nat) (bs : List Nat) : (s.putBytes a bs).punts = s.punts := (congrArg State.punts (s.putBytes_frame a bs) :)
@[simp] theorem State.putBytes_ptp (s : State) (a : Nat) (bs : List Nat) : (s.putBytes a bs).ptp = s.ptp := (congrArg State.ptp (s.putBytes_frame a bs) :)
@[simp] theorem State.putBytes_txGiven (s : State) (a : Nat) (bs : List Nat) : (s.putBytes a bs).txGiven = s.txGiven := (congrArg State.txGiven (s.putBytes_frame a bs) :)
@[simp] theorem State.putBytes_txDone (s : State) (a : Nat) (bs : List Nat) : (s.putBytes a bs).txDone = s.txDone := (congrArg State.txDone (s.putBytes_frame a bs) :)
@[simp] theorem State.putBytes_ethMedia (s : State) (a : Nat) (bs : List Nat) : (s.putBytes a bs).ethMedia = s.ethMedia := (congrArg State.ethMedia (s.putBytes_frame a bs) :)
@[simp] theorem State.putBytes_ethMode (s : State) (a : Nat) (bs : List Nat) : (s.putBytes a bs).ethMode = s.ethMode := (congrArg State.ethMode (s.putBytes_frame a bs) :)
@[simp] theorem State.putBytes_egBuf (s : State) (a : Nat) (bs : List Nat) : (s.putBytes a bs).egBuf = s.egBuf := (congrArg State.egBuf (s.putBytes_frame a bs) :)
@[simp] theorem State.putBytes_egLeft (s : State) (a : Nat) (bs : List Nat) : (s.putBytes a bs).egLeft = s.egLeft := (congrArg State.egLeft (s.putBytes_frame a bs) :)
@[simp] theorem State.putBytes_telAt (s : State) (a : Nat) (bs : List Nat) : (s.putBytes a bs).telAt = s.telAt := (congrArg State.telAt (s.putBytes_frame a bs) :)
@[simp] theorem State.putBytes_nv (s : State) (a : Nat) (bs : List Nat) : (s.putBytes a bs).nv = s.nv := (congrArg State.nv (s.putBytes_frame a bs) :)
@[simp] theorem State.putBytes_lcs (s : State) (a : Nat) (bs : List Nat) : (s.putBytes a bs).lcs = s.lcs := (congrArg State.lcs (s.putBytes_frame a bs) :)
@[simp] theorem State.putBytes_bst (s : State) (a : Nat) (bs : List Nat) : (s.putBytes a bs).bst = s.bst := (congrArg State.bst (s.putBytes_frame a bs) :)
@[simp] theorem State.putBytes_pwr (s : State) (a : Nat) (bs : List Nat) : (s.putBytes a bs).pwr = s.pwr := (congrArg State.pwr (s.putBytes_frame a bs) :)
@[simp] theorem State.putBytes_sys (s : State) (a : Nat) (bs : List Nat) : (s.putBytes a bs).sys = s.sys := (congrArg State.sys (s.putBytes_frame a bs) :)
@[simp] theorem State.putBytes_mgt (s : State) (a : Nat) (bs : List Nat) : (s.putBytes a bs).mgt = s.mgt := (congrArg State.mgt (s.putBytes_frame a bs) :)
@[simp] theorem State.putBytes_uart (s : State) (a : Nat) (bs : List Nat) : (s.putBytes a bs).uart = s.uart := (congrArg State.uart (s.putBytes_frame a bs) :)
@[simp] theorem State.putBytes_dpw (s : State) (a : Nat) (bs : List Nat) : (s.putBytes a bs).dpw = s.dpw := (congrArg State.dpw (s.putBytes_frame a bs) :)
@[simp] theorem State.putBytes_ret (s : State) (a : Nat) (bs : List Nat) : (s.putBytes a bs).ret = s.ret := (congrArg State.ret (s.putBytes_frame a bs) :)
@[simp] theorem State.putBytes_boot (s : State) (a : Nat) (bs : List Nat) : (s.putBytes a bs).boot = s.boot := (congrArg State.boot (s.putBytes_frame a bs) :)
@[simp] theorem State.putBytes_fresh (s : State) (a : Nat) (bs : List Nat) : (s.putBytes a bs).fresh = s.fresh := (congrArg State.fresh (s.putBytes_frame a bs) :)

/-! ### Events and faults (R32 to R35, R52, R509) -/

/-- The parts that bytes written may change, taken from another state. -/
def State.bytesAs (s t : State) : State := { t with mem := s.mem, ctx := s.ctx }

theorem State.putBytes_bytesAs (s t : State) (a : Nat) (bs : List Nat) : s.bytesAs (t.putBytes a bs) = s.bytesAs t :=
  (congrArg s.bytesAs (t.putBytes_frame a bs) :)

theorem ringSort_bytesAs (s : State) (n : Nat) : ∀ (t : State) (addr k wr : Nat), s.bytesAs (ringSort t addr k wr n) = s.bytesAs t := by
  induction n with
  | zero => intro t addr k wr; rfl
  | succ n ih =>
    intro t addr k wr
    rw [ringSort]
    split
    · rw [ih, s.putBytes_bytesAs, s.putBytes_bytesAs]
    · rfl

theorem ringPost_frame (s : State) (r page bit : Nat) (e : EvInfo) :
    { ringPost s r page bit e with mem := s.mem, ctx := s.ctx, regs := s.regs, ringAux := s.ringAux } = s := by
  have h : ∀ (u : State) (x y : Nat) (q : SMap Nat), s.bytesAs u = s →
      { ({ u.setRg x y with ringAux := q } : State) with mem := s.mem, ctx := s.ctx, regs := s.regs, ringAux := s.ringAux } = s :=
    fun u x y q hu => (congrArg (fun t : State => ({ t with regs := s.regs, ringAux := s.ringAux } : State)) hu :)
  have w : ∀ (a : Nat) (l : List Nat), s.bytesAs (s.putBytes a l) = s := fun a l => s.putBytes_frame a l
  simp only [ringPost, State.count, State.countBy]
  split
  · exact h _ _ _ _ ((ringSort_bytesAs s _ _ _ _ _).trans (w _ _))
  · refine h _ _ _ _ ?_
    split
    · exact (ringSort_bytesAs s _ _ _ _ _).trans (w _ _)
    · rfl

theorem postRecord_frame (s : State) (page bit : Nat) (e : EvInfo) :
    { postRecord s page bit e with mem := s.mem, ctx := s.ctx, regs := s.regs, ringAux := s.ringAux } = s := by
  simp only [postRecord]; split
  · exact ringPost_frame s _ _ _ _
  · rename_i p _
    split
    · have h := ringPost_frame (ringPost s (1 + p) page bit e) 0 page bit e
      have k := ringPost_frame s (1 + p) page bit e
      exact (congrArg (fun t : State => ({ t with mem := s.mem, ctx := s.ctx, regs := s.regs, ringAux := s.ringAux } : State)) h :).trans k
    · exact ringPost_frame s _ _ _ _

/-- An event touches its bit, the events noted in its cc and the rings its record goes to, and nothing else. -/
theorem event_frame (s : State) (b : Blk) (n bit : Nat) (e : EvInfo) :
    { event s b n bit e with mem := s.mem, ctx := s.ctx, regs := s.regs, ringAux := s.ringAux, seen := s.seen } = s := by
  simp only [event]; split
  · rfl
  · split
    · rename_i s1 _
      exact (congrArg (fun t : State => ({ t with regs := s.regs, seen := s.seen } : State)) (postRecord_frame _ _ _ _) :)
    · rfl

@[simp] theorem event_pending (s : State) (b : Blk) (n bit : Nat) (e : EvInfo) : (event s b n bit e).pending = s.pending := (congrArg State.pending (event_frame s b n bit e) :)
@[simp] theorem event_rwt (s : State) (b : Blk) (n bit : Nat) (e : EvInfo) : (event s b n bit e).rwt = s.rwt := (congrArg State.rwt (event_frame s b n bit e) :)
@[simp] theorem event_latch (s : State) (b : Blk) (n bit : Nat) (e : EvInfo) : (event s b n bit e).latch = s.latch := (congrArg State.latch (event_frame s b n bit e) :)
@[simp] theorem event_stage (s : State) (b : Blk) (n bit : Nat) (e : EvInfo) : (event s b n bit e).stage = s.stage := (congrArg State.stage (event_frame s b n bit e) :)
@[simp] theorem event_seenFlt (s : State) (b : Blk) (n bit : Nat) (e : EvInfo) : (event s b n bit e).seenFlt = s.seenFlt := (congrArg State.seenFlt (event_frame s b n bit e) :)
@[simp] theorem event_time (s : State) (b : Blk) (n bit : Nat) (e : EvInfo) : (event s b n bit e).time = s.time := (congrArg State.time (event_frame s b n bit e) :)
@[simp] theorem event_frm (s : State) (b : Blk) (n bit : Nat) (e : EvInfo) : (event s b n bit e).frm = s.frm := (congrArg State.frm (event_frame s b n bit e) :)
@[simp] theorem event_tpl (s : State) (b : Blk) (n bit : Nat) (e : EvInfo) : (event s b n bit e).tpl = s.tpl := (congrArg State.tpl (event_frame s b n bit e) :)
@[simp] theorem event_chans (s : State) (b : Blk) (n bit : Nat) (e : EvInfo) : (event s b n bit e).chans = s.chans := (congrArg State.chans (event_frame s b n bit e) :)
@[simp] theorem event_dbrs (s : State) (b : Blk) (n bit : Nat) (e : EvInfo) : (event s b n bit e).dbrs = s.dbrs := (congrArg State.dbrs (event_frame s b n bit e) :)
@[simp] theorem event_portB (s : State) (b : Blk) (n bit : Nat) (e : EvInfo) : (event s b n bit e).portB = s.portB := (congrArg State.portB (event_frame s b n bit e) :)
@[simp] theorem event_trw (s : State) (b : Blk) (n bit : Nat) (e : EvInfo) : (event s b n bit e).trw = s.trw := (congrArg State.trw (event_frame s b n bit e) :)
@[simp] theorem event_feeds (s : State) (b : Blk) (n bit : Nat) (e : EvInfo) : (event s b n bit e).feeds = s.feeds := (congrArg State.feeds (event_frame s b n bit e) :)
@[simp] theorem event_tiles (s : State) (b : Blk) (n bit : Nat) (e : EvInfo) : (event s b n bit e).tiles = s.tiles := (congrArg State.tiles (event_frame s b n bit e) :)
@[simp] theorem event_direct (s : State) (b : Blk) (n bit : Nat) (e : EvInfo) : (event s b n bit e).direct = s.direct := (congrArg State.direct (event_frame s b n bit e) :)
@[simp] theorem event_poison (s : State) (b : Blk) (n bit : Nat) (e : EvInfo) : (event s b n bit e).poison = s.poison := (congrArg State.poison (event_frame s b n bit e) :)
@[simp] theorem event_itp (s : State) (b : Blk) (n bit : Nat) (e : EvInfo) : (event s b n bit e).itp = s.itp := (congrArg State.itp (event_frame s b n bit e) :)
@[simp] theorem event_fab (s : State) (b : Blk) (n bit : Nat) (e : EvInfo) : (event s b n bit e).fab = s.fab := (congrArg State.fab (event_frame s b n bit e) :)
@[simp] theorem event_prt (s : State) (b : Blk) (n bit : Nat) (e : EvInfo) : (event s b n bit e).prt = s.prt := (congrArg State.prt (event_frame s b n bit e) :)
@[simp] theorem event_rdl (s : State) (b : Blk) (n bit : Nat) (e : EvInfo) : (event s b n bit e).rdl = s.rdl := (congrArg State.rdl (event_frame s b n bit e) :)
@[simp] theorem event_drive (s : State) (b : Blk) (n bit : Nat) (e : EvInfo) : (event s b n bit e).drive = s.drive := (congrArg State.drive (event_frame s b n bit e) :)
@[simp] theorem event_training (s : State) (b : Blk) (n bit : Nat) (e : EvInfo) : (event s b n bit e).training = s.training := (congrArg State.training (event_frame s b n bit e) :)
@[simp] theorem event_bifurc (s : State) (b : Blk) (n bit : Nat) (e : EvInfo) : (event s b n bit e).bifurc = s.bifurc := (congrArg State.bifurc (event_frame s b n bit e) :)
@[simp] theorem event_ports (s : State) (b : Blk) (n bit : Nat) (e : EvInfo) : (event s b n bit e).ports = s.ports := (congrArg State.ports (event_frame s b n bit e) :)
@[simp] theorem event_punts (s : State) (b : Blk) (n bit : Nat) (e : EvInfo) : (event s b n bit e).punts = s.punts := (congrArg State.punts (event_frame s b n bit e) :)
@[simp] theorem event_ptp (s : State) (b : Blk) (n bit : Nat) (e : EvInfo) : (event s b n bit e).ptp = s.ptp := (congrArg State.ptp (event_frame s b n bit e) :)
@[simp] theorem event_txGiven (s : State) (b : Blk) (n bit : Nat) (e : EvInfo) : (event s b n bit e).txGiven = s.txGiven := (congrArg State.txGiven (event_frame s b n bit e) :)
@[simp] theorem event_txDone (s : State) (b : Blk) (n bit : Nat) (e : EvInfo) : (event s b n bit e).txDone = s.txDone := (congrArg State.txDone (event_frame s b n bit e) :)
@[simp] theorem event_ethMedia (s : State) (b : Blk) (n bit : Nat) (e : EvInfo) : (event s b n bit e).ethMedia = s.ethMedia := (congrArg State.ethMedia (event_frame s b n bit e) :)
@[simp] theorem event_ethMode (s : State) (b : Blk) (n bit : Nat) (e : EvInfo) : (event s b n bit e).ethMode = s.ethMode := (congrArg State.ethMode (event_frame s b n bit e) :)
@[simp] theorem event_egBuf (s : State) (b : Blk) (n bit : Nat) (e : EvInfo) : (event s b n bit e).egBuf = s.egBuf := (congrArg State.egBuf (event_frame s b n bit e) :)
@[simp] theorem event_egLeft (s : State) (b : Blk) (n bit : Nat) (e : EvInfo) : (event s b n bit e).egLeft = s.egLeft := (congrArg State.egLeft (event_frame s b n bit e) :)
@[simp] theorem event_telAt (s : State) (b : Blk) (n bit : Nat) (e : EvInfo) : (event s b n bit e).telAt = s.telAt := (congrArg State.telAt (event_frame s b n bit e) :)
@[simp] theorem event_nv (s : State) (b : Blk) (n bit : Nat) (e : EvInfo) : (event s b n bit e).nv = s.nv := (congrArg State.nv (event_frame s b n bit e) :)
@[simp] theorem event_lcs (s : State) (b : Blk) (n bit : Nat) (e : EvInfo) : (event s b n bit e).lcs = s.lcs := (congrArg State.lcs (event_frame s b n bit e) :)
@[simp] theorem event_bst (s : State) (b : Blk) (n bit : Nat) (e : EvInfo) : (event s b n bit e).bst = s.bst := (congrArg State.bst (event_frame s b n bit e) :)
@[simp] theorem event_pwr (s : State) (b : Blk) (n bit : Nat) (e : EvInfo) : (event s b n bit e).pwr = s.pwr := (congrArg State.pwr (event_frame s b n bit e) :)
@[simp] theorem event_sys (s : State) (b : Blk) (n bit : Nat) (e : EvInfo) : (event s b n bit e).sys = s.sys := (congrArg State.sys (event_frame s b n bit e) :)
@[simp] theorem event_mgt (s : State) (b : Blk) (n bit : Nat) (e : EvInfo) : (event s b n bit e).mgt = s.mgt := (congrArg State.mgt (event_frame s b n bit e) :)
@[simp] theorem event_uart (s : State) (b : Blk) (n bit : Nat) (e : EvInfo) : (event s b n bit e).uart = s.uart := (congrArg State.uart (event_frame s b n bit e) :)
@[simp] theorem event_dpw (s : State) (b : Blk) (n bit : Nat) (e : EvInfo) : (event s b n bit e).dpw = s.dpw := (congrArg State.dpw (event_frame s b n bit e) :)
@[simp] theorem event_ret (s : State) (b : Blk) (n bit : Nat) (e : EvInfo) : (event s b n bit e).ret = s.ret := (congrArg State.ret (event_frame s b n bit e) :)
@[simp] theorem event_boot (s : State) (b : Blk) (n bit : Nat) (e : EvInfo) : (event s b n bit e).boot = s.boot := (congrArg State.boot (event_frame s b n bit e) :)
@[simp] theorem event_fresh (s : State) (b : Blk) (n bit : Nat) (e : EvInfo) : (event s b n bit e).fresh = s.fresh := (congrArg State.fresh (event_frame s b n bit e) :)
@[simp] theorem event0_pending (s : State) (b : Blk) (n bit : Nat) : (event0 s b n bit).pending = s.pending := event_pending s b n bit _
@[simp] theorem event0_rwt (s : State) (b : Blk) (n bit : Nat) : (event0 s b n bit).rwt = s.rwt := event_rwt s b n bit _
@[simp] theorem event0_latch (s : State) (b : Blk) (n bit : Nat) : (event0 s b n bit).latch = s.latch := event_latch s b n bit _
@[simp] theorem event0_stage (s : State) (b : Blk) (n bit : Nat) : (event0 s b n bit).stage = s.stage := event_stage s b n bit _
@[simp] theorem event0_seenFlt (s : State) (b : Blk) (n bit : Nat) : (event0 s b n bit).seenFlt = s.seenFlt := event_seenFlt s b n bit _
@[simp] theorem event0_time (s : State) (b : Blk) (n bit : Nat) : (event0 s b n bit).time = s.time := event_time s b n bit _
@[simp] theorem event0_frm (s : State) (b : Blk) (n bit : Nat) : (event0 s b n bit).frm = s.frm := event_frm s b n bit _
@[simp] theorem event0_tpl (s : State) (b : Blk) (n bit : Nat) : (event0 s b n bit).tpl = s.tpl := event_tpl s b n bit _
@[simp] theorem event0_chans (s : State) (b : Blk) (n bit : Nat) : (event0 s b n bit).chans = s.chans := event_chans s b n bit _
@[simp] theorem event0_dbrs (s : State) (b : Blk) (n bit : Nat) : (event0 s b n bit).dbrs = s.dbrs := event_dbrs s b n bit _
@[simp] theorem event0_portB (s : State) (b : Blk) (n bit : Nat) : (event0 s b n bit).portB = s.portB := event_portB s b n bit _
@[simp] theorem event0_trw (s : State) (b : Blk) (n bit : Nat) : (event0 s b n bit).trw = s.trw := event_trw s b n bit _
@[simp] theorem event0_feeds (s : State) (b : Blk) (n bit : Nat) : (event0 s b n bit).feeds = s.feeds := event_feeds s b n bit _
@[simp] theorem event0_tiles (s : State) (b : Blk) (n bit : Nat) : (event0 s b n bit).tiles = s.tiles := event_tiles s b n bit _
@[simp] theorem event0_direct (s : State) (b : Blk) (n bit : Nat) : (event0 s b n bit).direct = s.direct := event_direct s b n bit _
@[simp] theorem event0_poison (s : State) (b : Blk) (n bit : Nat) : (event0 s b n bit).poison = s.poison := event_poison s b n bit _
@[simp] theorem event0_itp (s : State) (b : Blk) (n bit : Nat) : (event0 s b n bit).itp = s.itp := event_itp s b n bit _
@[simp] theorem event0_fab (s : State) (b : Blk) (n bit : Nat) : (event0 s b n bit).fab = s.fab := event_fab s b n bit _
@[simp] theorem event0_prt (s : State) (b : Blk) (n bit : Nat) : (event0 s b n bit).prt = s.prt := event_prt s b n bit _
@[simp] theorem event0_rdl (s : State) (b : Blk) (n bit : Nat) : (event0 s b n bit).rdl = s.rdl := event_rdl s b n bit _
@[simp] theorem event0_drive (s : State) (b : Blk) (n bit : Nat) : (event0 s b n bit).drive = s.drive := event_drive s b n bit _
@[simp] theorem event0_training (s : State) (b : Blk) (n bit : Nat) : (event0 s b n bit).training = s.training := event_training s b n bit _
@[simp] theorem event0_bifurc (s : State) (b : Blk) (n bit : Nat) : (event0 s b n bit).bifurc = s.bifurc := event_bifurc s b n bit _
@[simp] theorem event0_ports (s : State) (b : Blk) (n bit : Nat) : (event0 s b n bit).ports = s.ports := event_ports s b n bit _
@[simp] theorem event0_punts (s : State) (b : Blk) (n bit : Nat) : (event0 s b n bit).punts = s.punts := event_punts s b n bit _
@[simp] theorem event0_ptp (s : State) (b : Blk) (n bit : Nat) : (event0 s b n bit).ptp = s.ptp := event_ptp s b n bit _
@[simp] theorem event0_txGiven (s : State) (b : Blk) (n bit : Nat) : (event0 s b n bit).txGiven = s.txGiven := event_txGiven s b n bit _
@[simp] theorem event0_txDone (s : State) (b : Blk) (n bit : Nat) : (event0 s b n bit).txDone = s.txDone := event_txDone s b n bit _
@[simp] theorem event0_ethMedia (s : State) (b : Blk) (n bit : Nat) : (event0 s b n bit).ethMedia = s.ethMedia := event_ethMedia s b n bit _
@[simp] theorem event0_ethMode (s : State) (b : Blk) (n bit : Nat) : (event0 s b n bit).ethMode = s.ethMode := event_ethMode s b n bit _
@[simp] theorem event0_egBuf (s : State) (b : Blk) (n bit : Nat) : (event0 s b n bit).egBuf = s.egBuf := event_egBuf s b n bit _
@[simp] theorem event0_egLeft (s : State) (b : Blk) (n bit : Nat) : (event0 s b n bit).egLeft = s.egLeft := event_egLeft s b n bit _
@[simp] theorem event0_telAt (s : State) (b : Blk) (n bit : Nat) : (event0 s b n bit).telAt = s.telAt := event_telAt s b n bit _
@[simp] theorem event0_nv (s : State) (b : Blk) (n bit : Nat) : (event0 s b n bit).nv = s.nv := event_nv s b n bit _
@[simp] theorem event0_lcs (s : State) (b : Blk) (n bit : Nat) : (event0 s b n bit).lcs = s.lcs := event_lcs s b n bit _
@[simp] theorem event0_bst (s : State) (b : Blk) (n bit : Nat) : (event0 s b n bit).bst = s.bst := event_bst s b n bit _
@[simp] theorem event0_pwr (s : State) (b : Blk) (n bit : Nat) : (event0 s b n bit).pwr = s.pwr := event_pwr s b n bit _
@[simp] theorem event0_sys (s : State) (b : Blk) (n bit : Nat) : (event0 s b n bit).sys = s.sys := event_sys s b n bit _
@[simp] theorem event0_mgt (s : State) (b : Blk) (n bit : Nat) : (event0 s b n bit).mgt = s.mgt := event_mgt s b n bit _
@[simp] theorem event0_uart (s : State) (b : Blk) (n bit : Nat) : (event0 s b n bit).uart = s.uart := event_uart s b n bit _
@[simp] theorem event0_dpw (s : State) (b : Blk) (n bit : Nat) : (event0 s b n bit).dpw = s.dpw := event_dpw s b n bit _
@[simp] theorem event0_ret (s : State) (b : Blk) (n bit : Nat) : (event0 s b n bit).ret = s.ret := event_ret s b n bit _
@[simp] theorem event0_boot (s : State) (b : Blk) (n bit : Nat) : (event0 s b n bit).boot = s.boot := event_boot s b n bit _
@[simp] theorem event0_fresh (s : State) (b : Blk) (n bit : Nat) : (event0 s b n bit).fresh = s.fresh := event_fresh s b n bit _

/-- A fault touches its fault registers and what its event touches, and nothing else. -/
theorem fault_frame (s : State) (b : Blk) (n code : Nat) (part : Option Nat) (i0 i1 : Nat) :
    { fault s b n code part i0 i1 with
      mem := s.mem, ctx := s.ctx, regs := s.regs, ringAux := s.ringAux, seen := s.seen, seenFlt := s.seenFlt } = s := by
  have hp : ∀ (t : State), { faultPut t b n code part i0 i1 with regs := t.regs } = t := fun t => rfl
  simp only [fault]; split
  · split <;> rfl
  · exact (congrArg (fun t : State => ({ t with regs := s.regs, seenFlt := s.seenFlt } : State)) (event_frame _ _ _ _ _) :)

@[simp] theorem fault_pending (s : State) (b : Blk) (n code : Nat) (part : Option Nat) (i0 i1 : Nat) : (fault s b n code part i0 i1).pending = s.pending := (congrArg State.pending (fault_frame s b n code part i0 i1) :)
@[simp] theorem fault_rwt (s : State) (b : Blk) (n code : Nat) (part : Option Nat) (i0 i1 : Nat) : (fault s b n code part i0 i1).rwt = s.rwt := (congrArg State.rwt (fault_frame s b n code part i0 i1) :)
@[simp] theorem fault_latch (s : State) (b : Blk) (n code : Nat) (part : Option Nat) (i0 i1 : Nat) : (fault s b n code part i0 i1).latch = s.latch := (congrArg State.latch (fault_frame s b n code part i0 i1) :)
@[simp] theorem fault_stage (s : State) (b : Blk) (n code : Nat) (part : Option Nat) (i0 i1 : Nat) : (fault s b n code part i0 i1).stage = s.stage := (congrArg State.stage (fault_frame s b n code part i0 i1) :)
@[simp] theorem fault_time (s : State) (b : Blk) (n code : Nat) (part : Option Nat) (i0 i1 : Nat) : (fault s b n code part i0 i1).time = s.time := (congrArg State.time (fault_frame s b n code part i0 i1) :)
@[simp] theorem fault_frm (s : State) (b : Blk) (n code : Nat) (part : Option Nat) (i0 i1 : Nat) : (fault s b n code part i0 i1).frm = s.frm := (congrArg State.frm (fault_frame s b n code part i0 i1) :)
@[simp] theorem fault_tpl (s : State) (b : Blk) (n code : Nat) (part : Option Nat) (i0 i1 : Nat) : (fault s b n code part i0 i1).tpl = s.tpl := (congrArg State.tpl (fault_frame s b n code part i0 i1) :)
@[simp] theorem fault_chans (s : State) (b : Blk) (n code : Nat) (part : Option Nat) (i0 i1 : Nat) : (fault s b n code part i0 i1).chans = s.chans := (congrArg State.chans (fault_frame s b n code part i0 i1) :)
@[simp] theorem fault_dbrs (s : State) (b : Blk) (n code : Nat) (part : Option Nat) (i0 i1 : Nat) : (fault s b n code part i0 i1).dbrs = s.dbrs := (congrArg State.dbrs (fault_frame s b n code part i0 i1) :)
@[simp] theorem fault_portB (s : State) (b : Blk) (n code : Nat) (part : Option Nat) (i0 i1 : Nat) : (fault s b n code part i0 i1).portB = s.portB := (congrArg State.portB (fault_frame s b n code part i0 i1) :)
@[simp] theorem fault_trw (s : State) (b : Blk) (n code : Nat) (part : Option Nat) (i0 i1 : Nat) : (fault s b n code part i0 i1).trw = s.trw := (congrArg State.trw (fault_frame s b n code part i0 i1) :)
@[simp] theorem fault_feeds (s : State) (b : Blk) (n code : Nat) (part : Option Nat) (i0 i1 : Nat) : (fault s b n code part i0 i1).feeds = s.feeds := (congrArg State.feeds (fault_frame s b n code part i0 i1) :)
@[simp] theorem fault_tiles (s : State) (b : Blk) (n code : Nat) (part : Option Nat) (i0 i1 : Nat) : (fault s b n code part i0 i1).tiles = s.tiles := (congrArg State.tiles (fault_frame s b n code part i0 i1) :)
@[simp] theorem fault_direct (s : State) (b : Blk) (n code : Nat) (part : Option Nat) (i0 i1 : Nat) : (fault s b n code part i0 i1).direct = s.direct := (congrArg State.direct (fault_frame s b n code part i0 i1) :)
@[simp] theorem fault_poison (s : State) (b : Blk) (n code : Nat) (part : Option Nat) (i0 i1 : Nat) : (fault s b n code part i0 i1).poison = s.poison := (congrArg State.poison (fault_frame s b n code part i0 i1) :)
@[simp] theorem fault_itp (s : State) (b : Blk) (n code : Nat) (part : Option Nat) (i0 i1 : Nat) : (fault s b n code part i0 i1).itp = s.itp := (congrArg State.itp (fault_frame s b n code part i0 i1) :)
@[simp] theorem fault_fab (s : State) (b : Blk) (n code : Nat) (part : Option Nat) (i0 i1 : Nat) : (fault s b n code part i0 i1).fab = s.fab := (congrArg State.fab (fault_frame s b n code part i0 i1) :)
@[simp] theorem fault_prt (s : State) (b : Blk) (n code : Nat) (part : Option Nat) (i0 i1 : Nat) : (fault s b n code part i0 i1).prt = s.prt := (congrArg State.prt (fault_frame s b n code part i0 i1) :)
@[simp] theorem fault_rdl (s : State) (b : Blk) (n code : Nat) (part : Option Nat) (i0 i1 : Nat) : (fault s b n code part i0 i1).rdl = s.rdl := (congrArg State.rdl (fault_frame s b n code part i0 i1) :)
@[simp] theorem fault_drive (s : State) (b : Blk) (n code : Nat) (part : Option Nat) (i0 i1 : Nat) : (fault s b n code part i0 i1).drive = s.drive := (congrArg State.drive (fault_frame s b n code part i0 i1) :)
@[simp] theorem fault_training (s : State) (b : Blk) (n code : Nat) (part : Option Nat) (i0 i1 : Nat) : (fault s b n code part i0 i1).training = s.training := (congrArg State.training (fault_frame s b n code part i0 i1) :)
@[simp] theorem fault_bifurc (s : State) (b : Blk) (n code : Nat) (part : Option Nat) (i0 i1 : Nat) : (fault s b n code part i0 i1).bifurc = s.bifurc := (congrArg State.bifurc (fault_frame s b n code part i0 i1) :)
@[simp] theorem fault_ports (s : State) (b : Blk) (n code : Nat) (part : Option Nat) (i0 i1 : Nat) : (fault s b n code part i0 i1).ports = s.ports := (congrArg State.ports (fault_frame s b n code part i0 i1) :)
@[simp] theorem fault_punts (s : State) (b : Blk) (n code : Nat) (part : Option Nat) (i0 i1 : Nat) : (fault s b n code part i0 i1).punts = s.punts := (congrArg State.punts (fault_frame s b n code part i0 i1) :)
@[simp] theorem fault_ptp (s : State) (b : Blk) (n code : Nat) (part : Option Nat) (i0 i1 : Nat) : (fault s b n code part i0 i1).ptp = s.ptp := (congrArg State.ptp (fault_frame s b n code part i0 i1) :)
@[simp] theorem fault_txGiven (s : State) (b : Blk) (n code : Nat) (part : Option Nat) (i0 i1 : Nat) : (fault s b n code part i0 i1).txGiven = s.txGiven := (congrArg State.txGiven (fault_frame s b n code part i0 i1) :)
@[simp] theorem fault_txDone (s : State) (b : Blk) (n code : Nat) (part : Option Nat) (i0 i1 : Nat) : (fault s b n code part i0 i1).txDone = s.txDone := (congrArg State.txDone (fault_frame s b n code part i0 i1) :)
@[simp] theorem fault_ethMedia (s : State) (b : Blk) (n code : Nat) (part : Option Nat) (i0 i1 : Nat) : (fault s b n code part i0 i1).ethMedia = s.ethMedia := (congrArg State.ethMedia (fault_frame s b n code part i0 i1) :)
@[simp] theorem fault_ethMode (s : State) (b : Blk) (n code : Nat) (part : Option Nat) (i0 i1 : Nat) : (fault s b n code part i0 i1).ethMode = s.ethMode := (congrArg State.ethMode (fault_frame s b n code part i0 i1) :)
@[simp] theorem fault_egBuf (s : State) (b : Blk) (n code : Nat) (part : Option Nat) (i0 i1 : Nat) : (fault s b n code part i0 i1).egBuf = s.egBuf := (congrArg State.egBuf (fault_frame s b n code part i0 i1) :)
@[simp] theorem fault_egLeft (s : State) (b : Blk) (n code : Nat) (part : Option Nat) (i0 i1 : Nat) : (fault s b n code part i0 i1).egLeft = s.egLeft := (congrArg State.egLeft (fault_frame s b n code part i0 i1) :)
@[simp] theorem fault_telAt (s : State) (b : Blk) (n code : Nat) (part : Option Nat) (i0 i1 : Nat) : (fault s b n code part i0 i1).telAt = s.telAt := (congrArg State.telAt (fault_frame s b n code part i0 i1) :)
@[simp] theorem fault_nv (s : State) (b : Blk) (n code : Nat) (part : Option Nat) (i0 i1 : Nat) : (fault s b n code part i0 i1).nv = s.nv := (congrArg State.nv (fault_frame s b n code part i0 i1) :)
@[simp] theorem fault_lcs (s : State) (b : Blk) (n code : Nat) (part : Option Nat) (i0 i1 : Nat) : (fault s b n code part i0 i1).lcs = s.lcs := (congrArg State.lcs (fault_frame s b n code part i0 i1) :)
@[simp] theorem fault_bst (s : State) (b : Blk) (n code : Nat) (part : Option Nat) (i0 i1 : Nat) : (fault s b n code part i0 i1).bst = s.bst := (congrArg State.bst (fault_frame s b n code part i0 i1) :)
@[simp] theorem fault_pwr (s : State) (b : Blk) (n code : Nat) (part : Option Nat) (i0 i1 : Nat) : (fault s b n code part i0 i1).pwr = s.pwr := (congrArg State.pwr (fault_frame s b n code part i0 i1) :)
@[simp] theorem fault_sys (s : State) (b : Blk) (n code : Nat) (part : Option Nat) (i0 i1 : Nat) : (fault s b n code part i0 i1).sys = s.sys := (congrArg State.sys (fault_frame s b n code part i0 i1) :)
@[simp] theorem fault_mgt (s : State) (b : Blk) (n code : Nat) (part : Option Nat) (i0 i1 : Nat) : (fault s b n code part i0 i1).mgt = s.mgt := (congrArg State.mgt (fault_frame s b n code part i0 i1) :)
@[simp] theorem fault_uart (s : State) (b : Blk) (n code : Nat) (part : Option Nat) (i0 i1 : Nat) : (fault s b n code part i0 i1).uart = s.uart := (congrArg State.uart (fault_frame s b n code part i0 i1) :)
@[simp] theorem fault_dpw (s : State) (b : Blk) (n code : Nat) (part : Option Nat) (i0 i1 : Nat) : (fault s b n code part i0 i1).dpw = s.dpw := (congrArg State.dpw (fault_frame s b n code part i0 i1) :)
@[simp] theorem fault_ret (s : State) (b : Blk) (n code : Nat) (part : Option Nat) (i0 i1 : Nat) : (fault s b n code part i0 i1).ret = s.ret := (congrArg State.ret (fault_frame s b n code part i0 i1) :)
@[simp] theorem fault_boot (s : State) (b : Blk) (n code : Nat) (part : Option Nat) (i0 i1 : Nat) : (fault s b n code part i0 i1).boot = s.boot := (congrArg State.boot (fault_frame s b n code part i0 i1) :)
@[simp] theorem fault_fresh (s : State) (b : Blk) (n code : Nat) (part : Option Nat) (i0 i1 : Nat) : (fault s b n code part i0 i1).fresh = s.fresh := (congrArg State.fresh (fault_frame s b n code part i0 i1) :)

/-! ### Core cycles that pass (R484) -/

/-- The parts that core cycles and the retirements in them may change, taken from another state. -/
def State.asOf (s t : State) : State :=
  { t with time := s.time, prt := s.prt, itp := s.itp, mem := s.mem, ctx := s.ctx, regs := s.regs, ringAux := s.ringAux, seen := s.seen }

theorem keyRetire_asOf (s t : State) (k : Nat) : s.asOf (keyRetire t k) = s.asOf t := rfl

theorem retireSlots_asOf (s t : State) (k n : Nat) : s.asOf (retireSlots t k n) = s.asOf t := by
  have h : ∀ (l : List Nat) (t : State), s.asOf (l.foldl (fun s i => keyRetire s (k + i)) t) = s.asOf t := by
    intro l
    induction l with
    | nil => intro t; rfl
    | cons i l ih => intro t; exact (ih _).trans (keyRetire_asOf s t _)
  exact h _ t

theorem retireEnd_asOf (s t : State) (p : Nat) : s.asOf (retireEnd t p) = s.asOf t :=
  (congrArg s.asOf (event_frame (t.setFld (Reg.PRT_CTXR p) 30 28 2) .key 0 4 { i0 := p }) :)

theorem retireRun_asOf (s : State) (l : List Retire) : ∀ (n : Nat) (t : State), s.asOf (retireRun l n t) = s.asOf t := by
  induction l with
  | nil => intro n t; rfl
  | cons r rest ih =>
    intro n t
    simp only [retireRun]; split
    · exact retireSlots_asOf s t _ _
    · exact ((ih _ _).trans (retireEnd_asOf s _ _)).trans (retireSlots_asOf s t _ _)

/-- Core cycles that pass touch the times, retiring key slots and the state and event of their partition, and nothing else. -/
theorem State.ccPass_asOf (s : State) (n : Nat) : s.asOf (s.ccPass n) = s := by
  unfold State.ccPass; split
  · rfl
  · exact retireRun_asOf s _ n s

/-- With no retirement under way only the times change. -/
theorem State.ccPass_idle (s : State) (n : Nat) (h : s.prt.retiring = []) : s.ccPass n = s.clock n := by
  unfold State.ccPass; rw [h]

theorem retireSlots_time (s : State) (k n : Nat) : (retireSlots s k n).time = s.time := by
  have h : ∀ (l : List Nat) (s : State), (l.foldl (fun s i => keyRetire s (k + i)) s).time = s.time := by
    intro l
    induction l with
    | nil => intro s; rfl
    | cons i l ih => intro s; exact ih _
  exact h _ s

theorem retireEnd_time (s : State) (p : Nat) : (retireEnd s p).time = s.time :=
  (congrArg State.time (event_frame (s.setFld (Reg.PRT_CTXR p) 30 28 2) .key 0 4 { i0 := p }) :)

theorem retireRun_time (l : List Retire) : ∀ (n : Nat) (s : State), (retireRun l n s).time = (s.clock n).time := by
  induction l with
  | nil => intro n s; rfl
  | cons r rest ih =>
    intro n s
    simp only [retireRun]; split
    · simp only [State.clock, retireSlots_time]
    · rename_i h
      rw [ih]
      have e : ∀ m (x y : State), x.time = y.time → (x.clock m).time = (y.clock m).time := by
        intro m x y h; simp only [State.clock, h]
      rw [e _ _ _ (retireEnd_time _ _)]
      simp only [State.clock, retireSlots_time]
      cases s.time.running <;> simp <;> omega

/-- Core cycles that pass move the times on by their number. -/
theorem State.ccPass_time (s : State) (n : Nat) : (s.ccPass n).time = (s.clock n).time := by
  unfold State.ccPass; split
  · rfl
  · exact retireRun_time _ n s

theorem State.ccTo_time (s : State) (c : Nat) : (s.ccTo c).time =
    if s.time.running = true ∧ s.time.cc < c then { s.time with up := s.time.up + (c - s.time.cc), cc := c } else s.time := by
  unfold State.ccTo; split
  · rename_i h
    rw [State.ccPass_time]; simp only [State.clock, h.1, if_true]
    congr 1; omega
  · rfl

theorem State.ccTo_asOf (s : State) (c : Nat) : s.asOf (s.ccTo c) = s := by
  unfold State.ccTo; split
  · exact s.ccPass_asOf _
  · rfl

@[simp] theorem State.ccPass_pending (s : State) (n : Nat) : (s.ccPass n).pending = s.pending := (congrArg State.pending (s.ccPass_asOf n) :)
@[simp] theorem State.ccPass_rwt (s : State) (n : Nat) : (s.ccPass n).rwt = s.rwt := (congrArg State.rwt (s.ccPass_asOf n) :)
@[simp] theorem State.ccPass_latch (s : State) (n : Nat) : (s.ccPass n).latch = s.latch := (congrArg State.latch (s.ccPass_asOf n) :)
@[simp] theorem State.ccPass_stage (s : State) (n : Nat) : (s.ccPass n).stage = s.stage := (congrArg State.stage (s.ccPass_asOf n) :)
@[simp] theorem State.ccPass_seenFlt (s : State) (n : Nat) : (s.ccPass n).seenFlt = s.seenFlt := (congrArg State.seenFlt (s.ccPass_asOf n) :)
@[simp] theorem State.ccPass_frm (s : State) (n : Nat) : (s.ccPass n).frm = s.frm := (congrArg State.frm (s.ccPass_asOf n) :)
@[simp] theorem State.ccPass_tpl (s : State) (n : Nat) : (s.ccPass n).tpl = s.tpl := (congrArg State.tpl (s.ccPass_asOf n) :)
@[simp] theorem State.ccPass_chans (s : State) (n : Nat) : (s.ccPass n).chans = s.chans := (congrArg State.chans (s.ccPass_asOf n) :)
@[simp] theorem State.ccPass_dbrs (s : State) (n : Nat) : (s.ccPass n).dbrs = s.dbrs := (congrArg State.dbrs (s.ccPass_asOf n) :)
@[simp] theorem State.ccPass_portB (s : State) (n : Nat) : (s.ccPass n).portB = s.portB := (congrArg State.portB (s.ccPass_asOf n) :)
@[simp] theorem State.ccPass_trw (s : State) (n : Nat) : (s.ccPass n).trw = s.trw := (congrArg State.trw (s.ccPass_asOf n) :)
@[simp] theorem State.ccPass_feeds (s : State) (n : Nat) : (s.ccPass n).feeds = s.feeds := (congrArg State.feeds (s.ccPass_asOf n) :)
@[simp] theorem State.ccPass_tiles (s : State) (n : Nat) : (s.ccPass n).tiles = s.tiles := (congrArg State.tiles (s.ccPass_asOf n) :)
@[simp] theorem State.ccPass_direct (s : State) (n : Nat) : (s.ccPass n).direct = s.direct := (congrArg State.direct (s.ccPass_asOf n) :)
@[simp] theorem State.ccPass_poison (s : State) (n : Nat) : (s.ccPass n).poison = s.poison := (congrArg State.poison (s.ccPass_asOf n) :)
@[simp] theorem State.ccPass_fab (s : State) (n : Nat) : (s.ccPass n).fab = s.fab := (congrArg State.fab (s.ccPass_asOf n) :)
@[simp] theorem State.ccPass_rdl (s : State) (n : Nat) : (s.ccPass n).rdl = s.rdl := (congrArg State.rdl (s.ccPass_asOf n) :)
@[simp] theorem State.ccPass_drive (s : State) (n : Nat) : (s.ccPass n).drive = s.drive := (congrArg State.drive (s.ccPass_asOf n) :)
@[simp] theorem State.ccPass_training (s : State) (n : Nat) : (s.ccPass n).training = s.training := (congrArg State.training (s.ccPass_asOf n) :)
@[simp] theorem State.ccPass_bifurc (s : State) (n : Nat) : (s.ccPass n).bifurc = s.bifurc := (congrArg State.bifurc (s.ccPass_asOf n) :)
@[simp] theorem State.ccPass_ports (s : State) (n : Nat) : (s.ccPass n).ports = s.ports := (congrArg State.ports (s.ccPass_asOf n) :)
@[simp] theorem State.ccPass_punts (s : State) (n : Nat) : (s.ccPass n).punts = s.punts := (congrArg State.punts (s.ccPass_asOf n) :)
@[simp] theorem State.ccPass_ptp (s : State) (n : Nat) : (s.ccPass n).ptp = s.ptp := (congrArg State.ptp (s.ccPass_asOf n) :)
@[simp] theorem State.ccPass_txGiven (s : State) (n : Nat) : (s.ccPass n).txGiven = s.txGiven := (congrArg State.txGiven (s.ccPass_asOf n) :)
@[simp] theorem State.ccPass_txDone (s : State) (n : Nat) : (s.ccPass n).txDone = s.txDone := (congrArg State.txDone (s.ccPass_asOf n) :)
@[simp] theorem State.ccPass_ethMedia (s : State) (n : Nat) : (s.ccPass n).ethMedia = s.ethMedia := (congrArg State.ethMedia (s.ccPass_asOf n) :)
@[simp] theorem State.ccPass_ethMode (s : State) (n : Nat) : (s.ccPass n).ethMode = s.ethMode := (congrArg State.ethMode (s.ccPass_asOf n) :)
@[simp] theorem State.ccPass_egBuf (s : State) (n : Nat) : (s.ccPass n).egBuf = s.egBuf := (congrArg State.egBuf (s.ccPass_asOf n) :)
@[simp] theorem State.ccPass_egLeft (s : State) (n : Nat) : (s.ccPass n).egLeft = s.egLeft := (congrArg State.egLeft (s.ccPass_asOf n) :)
@[simp] theorem State.ccPass_telAt (s : State) (n : Nat) : (s.ccPass n).telAt = s.telAt := (congrArg State.telAt (s.ccPass_asOf n) :)
@[simp] theorem State.ccPass_nv (s : State) (n : Nat) : (s.ccPass n).nv = s.nv := (congrArg State.nv (s.ccPass_asOf n) :)
@[simp] theorem State.ccPass_lcs (s : State) (n : Nat) : (s.ccPass n).lcs = s.lcs := (congrArg State.lcs (s.ccPass_asOf n) :)
@[simp] theorem State.ccPass_bst (s : State) (n : Nat) : (s.ccPass n).bst = s.bst := (congrArg State.bst (s.ccPass_asOf n) :)
@[simp] theorem State.ccPass_pwr (s : State) (n : Nat) : (s.ccPass n).pwr = s.pwr := (congrArg State.pwr (s.ccPass_asOf n) :)
@[simp] theorem State.ccPass_sys (s : State) (n : Nat) : (s.ccPass n).sys = s.sys := (congrArg State.sys (s.ccPass_asOf n) :)
@[simp] theorem State.ccPass_mgt (s : State) (n : Nat) : (s.ccPass n).mgt = s.mgt := (congrArg State.mgt (s.ccPass_asOf n) :)
@[simp] theorem State.ccPass_uart (s : State) (n : Nat) : (s.ccPass n).uart = s.uart := (congrArg State.uart (s.ccPass_asOf n) :)
@[simp] theorem State.ccPass_dpw (s : State) (n : Nat) : (s.ccPass n).dpw = s.dpw := (congrArg State.dpw (s.ccPass_asOf n) :)
@[simp] theorem State.ccPass_ret (s : State) (n : Nat) : (s.ccPass n).ret = s.ret := (congrArg State.ret (s.ccPass_asOf n) :)
@[simp] theorem State.ccPass_boot (s : State) (n : Nat) : (s.ccPass n).boot = s.boot := (congrArg State.boot (s.ccPass_asOf n) :)
@[simp] theorem State.ccPass_fresh (s : State) (n : Nat) : (s.ccPass n).fresh = s.fresh := (congrArg State.fresh (s.ccPass_asOf n) :)
@[simp] theorem State.ccTo_pending (s : State) (c : Nat) : (s.ccTo c).pending = s.pending := (congrArg State.pending (s.ccTo_asOf c) :)
@[simp] theorem State.ccTo_rwt (s : State) (c : Nat) : (s.ccTo c).rwt = s.rwt := (congrArg State.rwt (s.ccTo_asOf c) :)
@[simp] theorem State.ccTo_latch (s : State) (c : Nat) : (s.ccTo c).latch = s.latch := (congrArg State.latch (s.ccTo_asOf c) :)
@[simp] theorem State.ccTo_stage (s : State) (c : Nat) : (s.ccTo c).stage = s.stage := (congrArg State.stage (s.ccTo_asOf c) :)
@[simp] theorem State.ccTo_seenFlt (s : State) (c : Nat) : (s.ccTo c).seenFlt = s.seenFlt := (congrArg State.seenFlt (s.ccTo_asOf c) :)
@[simp] theorem State.ccTo_frm (s : State) (c : Nat) : (s.ccTo c).frm = s.frm := (congrArg State.frm (s.ccTo_asOf c) :)
@[simp] theorem State.ccTo_tpl (s : State) (c : Nat) : (s.ccTo c).tpl = s.tpl := (congrArg State.tpl (s.ccTo_asOf c) :)
@[simp] theorem State.ccTo_chans (s : State) (c : Nat) : (s.ccTo c).chans = s.chans := (congrArg State.chans (s.ccTo_asOf c) :)
@[simp] theorem State.ccTo_dbrs (s : State) (c : Nat) : (s.ccTo c).dbrs = s.dbrs := (congrArg State.dbrs (s.ccTo_asOf c) :)
@[simp] theorem State.ccTo_portB (s : State) (c : Nat) : (s.ccTo c).portB = s.portB := (congrArg State.portB (s.ccTo_asOf c) :)
@[simp] theorem State.ccTo_trw (s : State) (c : Nat) : (s.ccTo c).trw = s.trw := (congrArg State.trw (s.ccTo_asOf c) :)
@[simp] theorem State.ccTo_feeds (s : State) (c : Nat) : (s.ccTo c).feeds = s.feeds := (congrArg State.feeds (s.ccTo_asOf c) :)
@[simp] theorem State.ccTo_tiles (s : State) (c : Nat) : (s.ccTo c).tiles = s.tiles := (congrArg State.tiles (s.ccTo_asOf c) :)
@[simp] theorem State.ccTo_direct (s : State) (c : Nat) : (s.ccTo c).direct = s.direct := (congrArg State.direct (s.ccTo_asOf c) :)
@[simp] theorem State.ccTo_poison (s : State) (c : Nat) : (s.ccTo c).poison = s.poison := (congrArg State.poison (s.ccTo_asOf c) :)
@[simp] theorem State.ccTo_fab (s : State) (c : Nat) : (s.ccTo c).fab = s.fab := (congrArg State.fab (s.ccTo_asOf c) :)
@[simp] theorem State.ccTo_rdl (s : State) (c : Nat) : (s.ccTo c).rdl = s.rdl := (congrArg State.rdl (s.ccTo_asOf c) :)
@[simp] theorem State.ccTo_drive (s : State) (c : Nat) : (s.ccTo c).drive = s.drive := (congrArg State.drive (s.ccTo_asOf c) :)
@[simp] theorem State.ccTo_training (s : State) (c : Nat) : (s.ccTo c).training = s.training := (congrArg State.training (s.ccTo_asOf c) :)
@[simp] theorem State.ccTo_bifurc (s : State) (c : Nat) : (s.ccTo c).bifurc = s.bifurc := (congrArg State.bifurc (s.ccTo_asOf c) :)
@[simp] theorem State.ccTo_ports (s : State) (c : Nat) : (s.ccTo c).ports = s.ports := (congrArg State.ports (s.ccTo_asOf c) :)
@[simp] theorem State.ccTo_punts (s : State) (c : Nat) : (s.ccTo c).punts = s.punts := (congrArg State.punts (s.ccTo_asOf c) :)
@[simp] theorem State.ccTo_ptp (s : State) (c : Nat) : (s.ccTo c).ptp = s.ptp := (congrArg State.ptp (s.ccTo_asOf c) :)
@[simp] theorem State.ccTo_txGiven (s : State) (c : Nat) : (s.ccTo c).txGiven = s.txGiven := (congrArg State.txGiven (s.ccTo_asOf c) :)
@[simp] theorem State.ccTo_txDone (s : State) (c : Nat) : (s.ccTo c).txDone = s.txDone := (congrArg State.txDone (s.ccTo_asOf c) :)
@[simp] theorem State.ccTo_ethMedia (s : State) (c : Nat) : (s.ccTo c).ethMedia = s.ethMedia := (congrArg State.ethMedia (s.ccTo_asOf c) :)
@[simp] theorem State.ccTo_ethMode (s : State) (c : Nat) : (s.ccTo c).ethMode = s.ethMode := (congrArg State.ethMode (s.ccTo_asOf c) :)
@[simp] theorem State.ccTo_egBuf (s : State) (c : Nat) : (s.ccTo c).egBuf = s.egBuf := (congrArg State.egBuf (s.ccTo_asOf c) :)
@[simp] theorem State.ccTo_egLeft (s : State) (c : Nat) : (s.ccTo c).egLeft = s.egLeft := (congrArg State.egLeft (s.ccTo_asOf c) :)
@[simp] theorem State.ccTo_telAt (s : State) (c : Nat) : (s.ccTo c).telAt = s.telAt := (congrArg State.telAt (s.ccTo_asOf c) :)
@[simp] theorem State.ccTo_nv (s : State) (c : Nat) : (s.ccTo c).nv = s.nv := (congrArg State.nv (s.ccTo_asOf c) :)
@[simp] theorem State.ccTo_lcs (s : State) (c : Nat) : (s.ccTo c).lcs = s.lcs := (congrArg State.lcs (s.ccTo_asOf c) :)
@[simp] theorem State.ccTo_bst (s : State) (c : Nat) : (s.ccTo c).bst = s.bst := (congrArg State.bst (s.ccTo_asOf c) :)
@[simp] theorem State.ccTo_pwr (s : State) (c : Nat) : (s.ccTo c).pwr = s.pwr := (congrArg State.pwr (s.ccTo_asOf c) :)
@[simp] theorem State.ccTo_sys (s : State) (c : Nat) : (s.ccTo c).sys = s.sys := (congrArg State.sys (s.ccTo_asOf c) :)
@[simp] theorem State.ccTo_mgt (s : State) (c : Nat) : (s.ccTo c).mgt = s.mgt := (congrArg State.mgt (s.ccTo_asOf c) :)
@[simp] theorem State.ccTo_uart (s : State) (c : Nat) : (s.ccTo c).uart = s.uart := (congrArg State.uart (s.ccTo_asOf c) :)
@[simp] theorem State.ccTo_dpw (s : State) (c : Nat) : (s.ccTo c).dpw = s.dpw := (congrArg State.dpw (s.ccTo_asOf c) :)
@[simp] theorem State.ccTo_ret (s : State) (c : Nat) : (s.ccTo c).ret = s.ret := (congrArg State.ret (s.ccTo_asOf c) :)
@[simp] theorem State.ccTo_boot (s : State) (c : Nat) : (s.ccTo c).boot = s.boot := (congrArg State.boot (s.ccTo_asOf c) :)
@[simp] theorem State.ccTo_fresh (s : State) (c : Nat) : (s.ccTo c).fresh = s.fresh := (congrArg State.fresh (s.ccTo_asOf c) :)

end Sys2Proof.Machine
end

