-- ==== Sys2Proof/Laws/Tiles.lean ====
section
/-!
SUPPORT. Laws of tiles: reading a tile or a register back, and what issuing an instruction comes to (R342).
-/

namespace Sys2Proof.Machine

theorem State.tile_setTile (s : State) (n : Nat) (h : SMap.rises s.tiles 0 = true) (x : Tile) : (s.setTile n x).tile n = x :=
  SMap.get_set_same s.tiles {} n x 0 h

theorem State.tile_setTile_ne (s : State) (n m : Nat) (h : SMap.rises s.tiles 0 = true) (x : Tile) (hm : m ≠ n) :
    (s.setTile n x).tile m = s.tile m := SMap.get_set_ne s.tiles {} {} n m x hm 0 h

theorem State.rises_setTile (s : State) (n : Nat) (h : SMap.rises s.tiles 0 = true) (x : Tile) :
    SMap.rises (s.setTile n x).tiles 0 = true := SMap.rises_set s.tiles {} n x 0 (Nat.zero_le n) h

theorem State.noted_tile (s : State) (n : Nat) (h : SMap.rises s.tiles 0 = true) :
    (s.noted n).tile n = { s.tile n with lastPc := (s.tile n).pc } := s.tile_setTile n h _

/-- A plain tile number carries no mark of an uncorrectable error. -/
theorem fetchBad_plain (n : Nat) (h : n < 128) : fetchBad n = false := by
  simp only [fetchBad, bitOf, Nat.div_eq_of_lt (show n < 2 ^ 7 from h)]; rfl

theorem readBad_plain (n : Nat) (h : n < 128) : readBad n = false := by
  simp only [readBad, bitOf, Nat.div_eq_of_lt (show n < 2 ^ 8 by omega)]; rfl

/-- An issue of the instruction at the pc runs it on the state with the pc noted (R342). -/
theorem issue_runs (s : State) (n w op : Nat) (f : Nat → State → State) (h : IssuesAt s n w) (ho : w % 256 = op) :
    issue s n op f = f w (s.noted n) := by
  subst ho
  obtain ⟨h0, h1, h2, h3, h4, h5⟩ := h
  simp only [issue, Nat.mod_eq_of_lt h0, fetchBad_plain n h0, h2, h3, h4, h5, State.noted]; simp

/-- A tile set after its pc was noted. -/
theorem TileRan.of_set (s : State) (n : Nat) (x y : Tile) (h : SMap.rises s.tiles 0 = true) (e : y = x) :
    TileRan s ((s.noted n).setTile n y) n x := by
  have h2 : SMap.rises (s.noted n).tiles 0 = true := s.rises_setTile n h _
  refine ⟨?_, fun m hm => ?_, rfl⟩
  · rw [State.tile_setTile _ _ h2, e]
  · rw [State.tile_setTile_ne _ _ _ h2 _ hm, State.noted, State.tile_setTile_ne _ _ _ h _ hm]

/-- A tile is no part of memory. -/
theorem State.byte_setTile (s : State) (n : Nat) (x : Tile) : (s.setTile n x).byte = s.byte := by
  funext a; unfold State.byte; rfl
theorem State.readLE_setTile (s : State) (n : Nat) (x : Tile) (a k : Nat) : (s.setTile n x).readLE a k = s.readLE a k := by
  unfold State.readLE; rw [byte_setTile]

theorem Tile.gr_lt (x : Tile) (k : Nat) : x.gr k < 2 ^ 64 := by
  unfold Tile.gr; split
  · decide
  · exact BitVec.isLt _

/-- A register holds its value modulo 2^64. -/
theorem Tile.setG_mod (x : Tile) (d v : Nat) : x.setG d (v % 2 ^ 64) = x.setG d v := by
  unfold Tile.setG; split
  · rfl
  · congr 2; apply BitVec.eq_of_toNat_eq; simp

theorem Tile.setG_step (x : Tile) (d v : Nat) :
    { ({ x with lastPc := x.pc } : Tile).setG d v with pc := pcAdd (({ x with lastPc := x.pc } : Tile).setG d v).pc 4 } = (x.setG d v).step := by
  unfold Tile.setG Tile.step; split <;> rfl

/-- The pc noted is no part of a register's value. -/
theorem Tile.gr_noted (x : Tile) (p k : Nat) : ({ x with lastPc := p } : Tile).gr k = x.gr k := rfl
theorem Tile.vr_noted (x : Tile) (p k : Nat) : ({ x with lastPc := p } : Tile).vr k = x.vr k := rfl

/-- What a scalar instruction leaves (R344). -/
theorem scalar_runs (s : State) (n w op : Nat) (f : Tile → Nat → Nat) (r : Nat) (x : Tile) (h : IssuesAt s n w) (hx : x = s.tile n)
    (ho : w % 256 = op) (hf : f { x with lastPc := x.pc } w % 2 ^ 64 = r % 2 ^ 64) :
    ∃ t, scalarOp n op f s = .next t ∧ TileRan s t n (x.setG (fD w) r).step := by
  have hn : n % 128 = n := Nat.mod_eq_of_lt h.1
  refine ⟨_, rfl, ?_⟩
  rw [hn, issue_runs s n w op _ h ho]
  refine TileRan.of_set s n _ _ h.2.1 ?_
  rw [State.noted_tile s n h.2.1, ← hx, ← Tile.setG_mod, hf, Tile.setG_mod]
  exact Tile.setG_step x _ _

end Sys2Proof.Machine
end

