-- ==== Sys2Proof/Laws/Commands.lean ====
section
/-!
SUPPORT. Lemmas about single operations that the statements about commands rest on: register writes by kind, booking lists, the
arbiter's winner, tile accesses, CSRs, resets and sensors.
-/

namespace Sys2Proof.Machine

/-- A register row lies below the views. -/
theorem regRow_lt {addr : Nat} {x : Blk × Nat × Nat × RegRow} (hr : regRow addr = some x) : addr < 0x400000 := by
    apply Classical.byContradiction; intro h
    have : regRow addr = none := by unfold regRow; rw [if_pos (Or.inr (by omega))]
    simp [this] at hr

/-- No view shows a register row. -/
theorem regRow_noView {addr : Nat} {x : Blk × Nat × Nat × RegRow} (hr : regRow addr = some x) : viewOf addr = none := by
  have := regRow_lt hr; unfold viewOf; rw [if_neg (by omega)]

/-- The address of a view access names its view and offset. -/
theorem viewOf_viewAddress (view off : Nat) (hv : view < 3) (ho : off < 2 ^ 24) (h4 : off % 4 = 0) :
    viewOf (0x1000000 * (view % 3 + 1) + off % 0x1000000) = some (view, off) ∧ (0x1000000 * (view % 3 + 1) + off % 0x1000000) % 4 = 0 := by
  have h1 : (0x1000000 * (view % 3 + 1) + off % 0x1000000) / 0x1000000 - 1 = view := by omega
  have h2 : (0x1000000 * (view % 3 + 1) + off % 0x1000000) % 0x1000000 = off := by omega
  have h3 : 0x1000000 ≤ 0x1000000 * (view % 3 + 1) + off % 0x1000000 ∧ 0x1000000 * (view % 3 + 1) + off % 0x1000000 < 0x4000000 := by omega
  refine ⟨?_, by omega⟩
  rw [viewOf, if_pos h3, h1, h2]

/-- A core's aligned access through a view. -/
theorem coreAccess_view (s : State) (core view off v t p : Nat) (w : Bool) (A : Nat) (hc : core < 4) (hst : coreStalled s core = false) (e : viewOf A = some (view, off)) (h5 : A % 4 = 0)
    (hp : viewPlace s view off = (t, p)) : coreAccess s (core % 4) A 32 w v false = if w then (if (tableShape t).1 * (tableShape t).2 ≤ p then s else tableWrite s t p (v % 2 ^ 32))
      else (viewRead s view off false).1.answer core (viewRead s view off false).2 := by
  cases w <;> simp [coreAccess, Nat.mod_eq_of_lt hc, hst, h5, coreLoad, coreStore, e, viewWrite, hp]

/-- A write of a header register with an effect of its own is that effect. -/
theorem writeReg_head (s : State) (b : Blk) (n off v : Nat) (r : RegRow) (x : State) (hn : n < b.count) (ho : off < 0x40) (h0 : 4 ≤ off) (h4 : off % 4 = 0)
    (hv : v < 2 ^ 32)
    (hr : regRow (b.base n + off) = some (b, n, off, r)) (hw : (r.flds.any fun f => decide (f.acc = .rwt)) = false)
    (hx : headEffect s b n off v = some x) : writeReg s (b.base n + off) v = x := by
  have hm : v % 4294967296 = v := Nat.mod_eq_of_lt hv
  simp [writeReg, hr, isWide_header b n off hn ho h4, isWideHi_header b n off hn ho h4 h0, oneWrite, hm, hx, hw]

theorem land_comp_bit (x v k : Nat) (hx : x < 2 ^ 32) (hv : v < 2 ^ 32) :
    bitOf (Nat.land x (2 ^ 32 - 1 - v)) k = (bitOf x k && !bitOf v k) := by
  have hb : ∀ y j, bitOf y j = y.testBit j := by
    intro y j; simp [bitOf, Nat.testBit, Nat.shiftRight_eq_div_pow, Nat.and_comm 1]
  have h : 2 ^ 32 - 1 - v = 2 ^ 32 - (v + 1) := by omega
  rw [hb, hb, hb, h]
  show (x &&& _).testBit k = _
  rw [Nat.testBit_and, Nat.testBit_two_pow_sub_succ hv]
  by_cases hk : k < 32
  · simp [hk]
  · have : x.testBit k = false := Nat.testBit_lt_two_pow (Nat.lt_of_lt_of_le hx (Nat.pow_le_pow_right (by decide) (by omega)))
    simp [this]

theorem setRg64_rg_ne (s : State) (a v j : Nat) (h : s.ok) (h1 : j ≠ a) (h2 : j ≠ a + 4) : (s.setRg64 a v).rg j = s.rg j := by
  rw [State.setRg64, State.rg_setRg _ _ _ _ (State.ok_setRg _ _ _ h), if_neg h2, State.rg_setRg _ _ _ _ h, if_neg h1]

theorem mgtReply_only (s : State) (h : MgtHead) (r : Resp) (m : MgtBlock) : { mgtReply s h r with mgt := m } = { s with mgt := m } := by
  unfold mgtReply mgtSend; by_cases hs : h.session = 0 <;> simp [hs]

/-- A write of a 32-bit register is one word's write. -/
theorem writeReg_one (s : State) (a v : Nat) (x : Blk × Nat × Nat × RegRow) (hr : regRow a = some x) (h1 : isWideHi a = false) (h2 : isWideLo a = false) :
    writeReg s a v = oneWrite s a (v % 2 ^ 32) := by
  obtain ⟨b, n, off, r⟩ := x
  simp [writeReg, hr, h1, h2]

theorem setByte_regs (s : State) (a v : Nat) : (s.setByte a v).regs = s.regs := by
  unfold State.setByte; dsimp only; split
  · rfl
  · split <;> rfl

theorem writeBytes_regs (bs : List Nat) : ∀ (s : State) (a : Nat), (s.writeBytes a bs).regs = s.regs := by
  induction bs with
  | nil => intros; rfl
  | cons b bs ih => intro s a; rw [State.writeBytes, ih, setByte_regs]

theorem writeBytes_high (bs : List Nat) : ∀ (s : State) (a : Nat), crownBase ≤ a → ∃ m, s.writeBytes a bs = { s with mem := m } := by
  induction bs with
  | nil => intro s a _; exact ⟨s.mem, rfl⟩
  | cons b bs ih =>
    intro s a h
    have e : s.setByte a b = s.setCell (physOf s a) b := by
      have h1 : ¬ (ctxTableBase ≤ a ∧ a < reqTableBase) := by simp only [crownBase, reqTableBase] at *; omega
      have h2 : ¬ (reqTableBase ≤ a ∧ a < crownBase) := by omega
      rw [State.setByte, if_neg h1, if_neg h2]
    obtain ⟨m, hm⟩ := ih (s.setByte a b) (a + 1) (by omega)
    refine ⟨m, ?_⟩
    rw [State.writeBytes, hm, e]; rfl

theorem bookList_eq (s : State) (n : Nat) : ∃ m k, bookList s n = { s with mem := m }.setRg (Reg.TIL_BOOKED n) k := by
  have h : crownBase ≤ privBase n + 0x20000 := by simp only [privBase]; omega
  unfold bookList
  obtain ⟨m1, h1⟩ := writeBytes_high (toLE 8 (s.time.tick % 2 ^ 48) ++ toLE 2 (bookEntries s n).length ++ List.replicate 54 0) s _ h
  dsimp only
  rw [h1]
  obtain ⟨m2, h2⟩ := writeBytes_high (bookEntries s n).flatten { s with mem := m1 } (privBase n + 0x20000 + 64) (by omega)
  rw [h2]
  exact ⟨m2, _, rfl⟩

/-- A state after booking lists have been written: memory and the TIL registers apart, everything is as before. -/
def BookOnly (s t : State) : Prop := t.ok ∧ { t with mem := s.mem, regs := s.regs } = s ∧ ∀ a, a < 0x80000 → t.rg a = s.rg a

/-- Writing booking lists touches memory and TIL_BOOKED only. -/
theorem bookLists_only (l : List Nat) : ∀ s : State, s.ok → BookOnly s (l.foldl bookList s) := by
  induction l with
  | nil => intro s h; exact ⟨h, rfl, fun _ _ => rfl⟩
  | cons n l ih =>
    intro s h
    have hk : (bookList s n).ok := (bookList_keeps (Keeps.refl s)).ok h
    obtain ⟨m, k, e⟩ := bookList_eq s n
    have hm : State.ok { s with mem := m } := by
      have := hk; rw [e] at this; exact ⟨this.1, h.2⟩
    obtain ⟨i1, i2, i3⟩ := ih (bookList s n) hk
    refine ⟨i1, ?_, fun a ha => ?_⟩
    · have : { (bookList s n) with mem := s.mem, regs := s.regs } = s := by rw [e]; rfl
      calc { (List.foldl bookList (bookList s n) l) with mem := s.mem, regs := s.regs }
          = { { (List.foldl bookList (bookList s n) l) with mem := (bookList s n).mem, regs := (bookList s n).regs } with mem := s.mem, regs := s.regs } := rfl
        _ = s := by rw [i2, this]
    · show (List.foldl bookList (bookList s n) l).rg a = _
      rw [i3 a ha, e, State.rg_setRg _ _ _ _ hm, if_neg]
      · rfl
      · simp only [Reg.TIL_BOOKED, Blk.base, Blk.page]; omega

/-- Six stores of the planner's registers, one after another, stand. -/
theorem tickRegs_set (X : State) (cok : X.ok) (v1 v2 v3 v4 v5 v6 : Nat) (t : State)
    (h : t = (((((X.setRg Reg.TPL_TICK_LO v1).setRg Reg.TPL_TICK_HI v2).setRg Reg.TPL_LAST_ADMIT v3).setRg Reg.TPL_LAST_LATE v4).setRg
      Reg.TPL_LAST_ENERGY v5).setRg Reg.TPL_TALLY v6) :
    t.rg Reg.TPL_TICK_LO = v1 % 2 ^ 32 ∧ t.rg Reg.TPL_TICK_HI = v2 % 2 ^ 32 ∧ t.rg Reg.TPL_LAST_ADMIT = v3 % 2 ^ 32 ∧ t.rg Reg.TPL_LAST_LATE = v4 % 2 ^ 32 := by
  subst h
  simp (maxDischargeDepth := 12) [State.rg_setRg, State.ok_setRg, cok, Reg.TPL_TICK_LO, Reg.TPL_TICK_HI, Reg.TPL_LAST_ADMIT, Reg.TPL_LAST_LATE, Reg.TPL_LAST_ENERGY, Reg.TPL_TALLY]

/-- While the counter runs, a write of a word of RWT fields is held (R39). -/
theorem writeReg_rwt (s : State) (a v : Nat) (b : Blk) (n off : Nat) (r : RegRow) (hok : s.ok) (hrs : SMap.rises s.rwt 0 = true) (hrun : s.time.running = true)
    (hv : v < 2 ^ 32) (hr : regRow a = some (b, n, off, r)) (h1 : isWideHi a = false) (h2 : isWideLo a = false)
    (e1 : headEffect s b n off v = none) (e2 : sysEffect s b off v = none) (e3 : coreEffect s b n off v = none) (e4 : edgeEffect s b n off v = none)
    (hall : ∀ f ∈ r.flds, f.acc = .rwt) (hne : r.flds ≠ []) :
    HeldIn s (writeReg s a v) ∧ (writeReg s a v).pendWord a = r.flds.foldl (fun old f => f.putT old v) (s.pendWord a) := by
  have hl : lockStops s a = false := by
    simp only [lockStops, hr, Bool.and_eq_false_iff, List.any_eq_false]
    right; intro f hf; simp [hall f hf]
  have hw : (r.flds.any fun f => decide (f.acc = .rwt)) = true := by
    obtain ⟨f, hf⟩ := List.exists_mem_of_ne_nil _ hne
    exact List.any_eq_true.mpr ⟨f, hf, by simp [hall f hf]⟩
  have hfold : ∀ (l : List Fld) x, (∀ f ∈ l, f.acc = .rwt) → l.foldl (fun old f => f.put (s.locked b n) old v) x = x := by
    intro l
    induction l with
    | nil => intro x _; rfl
    | cons f l ih =>
      intro x h
      have : f.put (s.locked b n) x v = x := by simp [Fld.put, h f (by simp)]
      rw [List.foldl_cons, this]; exact ih x fun g hg => h g (by simp [hg])
  have e : writeReg s a v = { s.setRg a (s.rg a) with rwt := SMap.set s.rwt 0 a (r.flds.foldl (fun old f => f.putT old v) (s.pendWord a) + 1) } := by
    simp only [writeReg, hr, h1, h2, oneWrite, Nat.mod_eq_of_lt hv, e1, e2, e3, e4, wordWrite, hl, hw, hfold _ _ hall]
    simp [hrun, State.setRg]
  rw [e]
  refine ⟨⟨fun x => ?_, rfl⟩, ?_⟩
  · show (s.setRg a (s.rg a)).rg x % 2 ^ 32 = _
    rw [State.rg_setRg _ _ _ _ hok]; split
    · subst_vars; rw [Nat.mod_mod]
    · rfl
  · have h := SMap.get_set_same s.rwt 0 a (r.flds.foldl (fun old f => f.putT old v) (s.pendWord a) + 1) 0 hrs
    generalize r.flds.foldl (fun old f => f.putT old v) (s.pendWord a) = X at h ⊢
    simp [State.pendWord, h]

theorem forceWord_bits (p v : Nat) : bitsOf (putBits (putBits (putBits p 17 0 (bitsOf v 17 0)) 25 18 (bitsOf v 25 18)) 27 26 (bitsOf v 27 26)) 17 0 = bitsOf v 17 0 ∧ bitsOf (putBits (putBits (putBits p 17 0 (bitsOf v 17 0)) 25 18 (bitsOf v 25 18)) 27 26 (bitsOf v 27 26)) 25 18 = bitsOf v 25 18 ∧ bitsOf (putBits (putBits (putBits p 17 0 (bitsOf v 17 0)) 25 18 (bitsOf v 25 18)) 27 26 (bitsOf v 27 26)) 27 26 = bitsOf v 27 26 := by
  simp only [putBits, bitsOf, Nat.reduceAdd, Nat.reduceSub, Nat.reducePow, Nat.div_one, Nat.mul_one]
  omega

theorem forceWord_fold (p v : Nat) : [⟨17, 0, .rwt, 0⟩, ⟨25, 18, .rwt, 0⟩, ⟨27, 26, .rwt, 0⟩].foldl (fun old (f : Fld) => f.putT old v) p = (putBits (putBits (putBits p 17 0 (bitsOf v 17 0)) 25 18 (bitsOf v 25 18)) 27 26 (bitsOf v 27 26)) := by
  rw [List.foldl_cons, List.foldl_cons, List.foldl_cons, List.foldl_nil, Fld.putT_rwt, Fld.putT_rwt, Fld.putT_rwt]

theorem forceWord_kept (p v : Nat) : bitsOf ([⟨17, 0, .rwt, 0⟩, ⟨25, 18, .rwt, 0⟩, ⟨27, 26, .rwt, 0⟩].foldl (fun old (f : Fld) => f.putT old v) p) 17 0 = bitsOf v 17 0 ∧ bitsOf ([⟨17, 0, .rwt, 0⟩, ⟨25, 18, .rwt, 0⟩, ⟨27, 26, .rwt, 0⟩].foldl (fun old (f : Fld) => f.putT old v) p) 25 18 = bitsOf v 25 18 ∧ bitsOf ([⟨17, 0, .rwt, 0⟩, ⟨25, 18, .rwt, 0⟩, ⟨27, 26, .rwt, 0⟩].foldl (fun old (f : Fld) => f.putT old v) p) 27 26 = bitsOf v 27 26 := by
  rw [forceWord_fold]; exact forceWord_bits p v

theorem grantWord_bits (p v : Nat) : bitsOf (putBits (putBits (putBits (putBits p 5 0 (bitsOf v 5 0)) 6 6 (bitsOf v 6 6)) 7 7 (bitsOf v 7 7)) 31 8 (bitsOf v 31 8)) 5 0 = bitsOf v 5 0 ∧ bitsOf (putBits (putBits (putBits (putBits p 5 0 (bitsOf v 5 0)) 6 6 (bitsOf v 6 6)) 7 7 (bitsOf v 7 7)) 31 8 (bitsOf v 31 8)) 6 6 = bitsOf v 6 6 ∧ bitsOf (putBits (putBits (putBits (putBits p 5 0 (bitsOf v 5 0)) 6 6 (bitsOf v 6 6)) 7 7 (bitsOf v 7 7)) 31 8 (bitsOf v 31 8)) 7 7 = bitsOf v 7 7 ∧ bitsOf (putBits (putBits (putBits (putBits p 5 0 (bitsOf v 5 0)) 6 6 (bitsOf v 6 6)) 7 7 (bitsOf v 7 7)) 31 8 (bitsOf v 31 8)) 31 8 = bitsOf v 31 8 := by
  simp only [putBits, bitsOf, Nat.reduceAdd, Nat.reduceSub, Nat.reducePow, Nat.div_one, Nat.mul_one]
  omega

theorem grantWord_fold (p v : Nat) : [⟨5, 0, .rwt, 0⟩, ⟨6, 6, .rwt, 0⟩, ⟨7, 7, .rwt, 0⟩, ⟨31, 8, .rwt, 0⟩].foldl (fun old (f : Fld) => f.putT old v) p = (putBits (putBits (putBits (putBits p 5 0 (bitsOf v 5 0)) 6 6 (bitsOf v 6 6)) 7 7 (bitsOf v 7 7)) 31 8 (bitsOf v 31 8)) := by
  rw [List.foldl_cons, List.foldl_cons, List.foldl_cons, List.foldl_cons, List.foldl_nil, Fld.putT_rwt, Fld.putT_rwt, Fld.putT_rwt, Fld.putT_rwt]

theorem grantWord_kept (p v : Nat) : bitsOf ([⟨5, 0, .rwt, 0⟩, ⟨6, 6, .rwt, 0⟩, ⟨7, 7, .rwt, 0⟩, ⟨31, 8, .rwt, 0⟩].foldl (fun old (f : Fld) => f.putT old v) p) 5 0 = bitsOf v 5 0 ∧ bitsOf ([⟨5, 0, .rwt, 0⟩, ⟨6, 6, .rwt, 0⟩, ⟨7, 7, .rwt, 0⟩, ⟨31, 8, .rwt, 0⟩].foldl (fun old (f : Fld) => f.putT old v) p) 6 6 = bitsOf v 6 6 ∧ bitsOf ([⟨5, 0, .rwt, 0⟩, ⟨6, 6, .rwt, 0⟩, ⟨7, 7, .rwt, 0⟩, ⟨31, 8, .rwt, 0⟩].foldl (fun old (f : Fld) => f.putT old v) p) 7 7 = bitsOf v 7 7 ∧ bitsOf ([⟨5, 0, .rwt, 0⟩, ⟨6, 6, .rwt, 0⟩, ⟨7, 7, .rwt, 0⟩, ⟨31, 8, .rwt, 0⟩].foldl (fun old (f : Fld) => f.putT old v) p) 31 8 = bitsOf v 31 8 := by
  rw [grantWord_fold]; exact grantWord_bits p v

theorem devresWord_bits (p v : Nat) : bitsOf (putBits (putBits (putBits p 24 0 (bitsOf v 24 0)) 30 30 (bitsOf v 30 30)) 31 31 (bitsOf v 31 31)) 24 0 = bitsOf v 24 0 ∧ bitsOf (putBits (putBits (putBits p 24 0 (bitsOf v 24 0)) 30 30 (bitsOf v 30 30)) 31 31 (bitsOf v 31 31)) 30 30 = bitsOf v 30 30 ∧ bitsOf (putBits (putBits (putBits p 24 0 (bitsOf v 24 0)) 30 30 (bitsOf v 30 30)) 31 31 (bitsOf v 31 31)) 31 31 = bitsOf v 31 31 := by
  simp only [putBits, bitsOf, Nat.reduceAdd, Nat.reduceSub, Nat.reducePow, Nat.div_one, Nat.mul_one]
  omega

theorem devresWord_fold (p v : Nat) : [⟨24, 0, .rwt, 0⟩, ⟨30, 30, .rwt, 0⟩, ⟨31, 31, .rwt, 0⟩].foldl (fun old (f : Fld) => f.putT old v) p = (putBits (putBits (putBits p 24 0 (bitsOf v 24 0)) 30 30 (bitsOf v 30 30)) 31 31 (bitsOf v 31 31)) := by
  rw [List.foldl_cons, List.foldl_cons, List.foldl_cons, List.foldl_nil, Fld.putT_rwt, Fld.putT_rwt, Fld.putT_rwt]

theorem devresWord_kept (p v : Nat) : bitsOf ([⟨24, 0, .rwt, 0⟩, ⟨30, 30, .rwt, 0⟩, ⟨31, 31, .rwt, 0⟩].foldl (fun old (f : Fld) => f.putT old v) p) 24 0 = bitsOf v 24 0 ∧ bitsOf ([⟨24, 0, .rwt, 0⟩, ⟨30, 30, .rwt, 0⟩, ⟨31, 31, .rwt, 0⟩].foldl (fun old (f : Fld) => f.putT old v) p) 30 30 = bitsOf v 30 30 ∧ bitsOf ([⟨24, 0, .rwt, 0⟩, ⟨30, 30, .rwt, 0⟩, ⟨31, 31, .rwt, 0⟩].foldl (fun old (f : Fld) => f.putT old v) p) 31 31 = bitsOf v 31 31 := by
  rw [devresWord_fold]; exact devresWord_bits p v

/-- What a write of PWK_LAB_INV does (R134). -/
theorem writeReg_labInv (s : State) (v : Nat) (hv : v < 2 ^ 32) : writeReg s Reg.PWK_LAB_INV v = if bitOf v 31 then labClear s else labDrop s (bitsOf v 17 0) := by
  obtain ⟨r, hr, hw⟩ : ∃ r, regRow Reg.PWK_LAB_INV = some (.pwk, 0, 0x040, r) ∧ (r.flds.any fun f => decide (f.acc = .rwt)) = false := ⟨_, rfl, by decide⟩
  simp only [writeReg, hr, show isWideHi Reg.PWK_LAB_INV = false by decide, show isWideLo Reg.PWK_LAB_INV = false by decide, oneWrite, Nat.mod_eq_of_lt hv, hw]
  simp [headEffect, sysEffect, coreEffect]

theorem linkDown_none (X : State) (g : State → DriveCmd → State) (p k : Nat) (h : X.drive = []) :
    (X.drive.filter fun d => d.port == p && d.link == k).foldl g { X with drive := X.drive.filter fun d => !(d.port == p && d.link == k) } = X := by
  rw [h, List.filter_nil, List.filter_nil, List.foldl_nil]
  cases X; cases h; rfl

theorem byPointer_mem (c : Chan) (rs : List ArbReq) (w : ArbReq) (h : byPointer c rs = some w) : w ∈ rs := by
  simp only [byPointer] at h
  obtain ⟨i, hi, h⟩ := List.exists_of_findSome?_eq_some h
  split at h
  · cases hr : rotWinner c.rot ((rs.filter (·.idx == i)).map fun r => ⟨r.src, r.raised⟩) with
    | none => simp [hr] at h
    | some x =>
      simp only [hr, Option.bind_some] at h
      exact (List.mem_filter.mp (List.mem_of_find?_eq_some h)).1
  · exact (List.mem_filter.mp (List.mem_of_mem_head? (by simpa using h))).1

theorem arbWinner_mem (c : Chan) (rs : List ArbReq) (w : ArbReq) (h : arbWinner c rs = some w) : w ∈ rs := by
  simp only [arbWinner] at h
  split at h
  · exact (List.mem_filter.mp (byPointer_mem _ _ _ h)).1
  · exact byPointer_mem _ _ _ h

theorem clock0 (s : State) : s.clock 0 = s := by
  have : ({ s.time with up := s.time.up + 0, cc := if s.time.running then s.time.cc + 0 else s.time.cc } : Time) = s.time := by
    cases s.time; simp
  calc s.clock 0 = { s with time := { s.time with up := s.time.up + 0, cc := if s.time.running then s.time.cc + 0 else s.time.cc } } := rfl
    _ = { s with time := s.time } := by rw [this]
    _ = s := rfl

theorem ccPass0 (s : State) : s.ccPass 0 = s := by
  unfold State.ccPass
  split
  · exact clock0 s
  · next h =>
    cases hl : s.prt.retiring with
    | nil => exact absurd hl h
    | cons r rest =>
      have e : retireSlots s r.first (8 * 0) = s := rfl
      simp only [retireRun, e, clock0, Nat.lt_of_lt_of_le Nat.zero_lt_one (Nat.le_max_left 1 _), if_true]
      show { s with prt := { s.prt with retiring := r :: rest } } = s
      rw [← hl]

theorem arbTurn_time (s : State) : (if s.time.running = true then s.ccTo (s.time.cc + 0) else s.ccPass 0) = s := by
  split
  · simp [State.ccTo]
  · exact ccPass0 s

theorem arbWinner_nil (c : Chan) : arbWinner c [] = none := by
  have hb : byPointer c [] = none := by
    simp only [byPointer, List.findSome?_eq_none_iff]
    intro i _; split <;> simp
  simp [arbWinner, hb]

theorem raw_row (n : Nat) (hn : n < 8) : ∃ r, regRow (Reg.DBR_RAW_CTL n) = some (.dbr, n, 0x68, r) ∧ r.flds = [⟨11, 0, .rw, 0⟩, ⟨16, 16, .rwt, 0⟩] := by
  have h : n = 0 ∨ n = 1 ∨ n = 2 ∨ n = 3 ∨ n = 4 ∨ n = 5 ∨ n = 6 ∨ n = 7 := by omega
  rcases h with rfl | rfl | rfl | rfl | rfl | rfl | rfl | rfl <;> exact ⟨_, rfl, rfl⟩

theorem raw_wide (n : Nat) (hn : n < 8) : isWideHi (Reg.DBR_RAW_CTL n) = false ∧ isWideLo (Reg.DBR_RAW_CTL n) = false := by
  have h : n = 0 ∨ n = 1 ∨ n = 2 ∨ n = 3 ∨ n = 4 ∨ n = 5 ∨ n = 6 ∨ n = 7 := by omega
  rcases h with rfl | rfl | rfl | rfl | rfl | rfl | rfl | rfl <;> decide

theorem raw_words (p v : Nat) : bitsOf (putBits p 11 0 (bitsOf v 11 0)) 11 0 = bitsOf v 11 0 ∧ bitsOf (putBits p 11 0 (bitsOf v 11 0) % 2 ^ 32) 11 0 = bitsOf v 11 0
    ∧ bitsOf (putBits p 11 0 (bitsOf v 11 0) % 2 ^ 32) 16 16 = bitsOf p 16 16 := by
  simp only [putBits, bitsOf, Nat.reduceAdd, Nat.reduceSub, Nat.reducePow, Nat.div_one, Nat.mul_one]
  omega

theorem raw_pend (p v : Nat) : bitsOf (putBits (Fld.putT ⟨11, 0, .rw, 0⟩ p v) 16 16 (bitsOf v 16 16)) 16 16 = bitsOf v 16 16 := by
  generalize Fld.putT _ _ _ = q
  simp only [putBits, bitsOf, Nat.reduceAdd, Nat.reduceSub, Nat.reducePow, Nat.div_one, Nat.mul_one]
  omega

theorem stat_clear (p : Nat) : bitsOf (putBits p 20 20 0 % 2 ^ 32) 20 20 = 0 := by
  simp only [putBits, bitsOf, Nat.reduceAdd, Nat.reduceSub, Nat.reducePow, Nat.div_one, Nat.mul_one]
  omega

theorem bitOf_bits (v i : Nat) : bitOf v i = decide (bitsOf v i i = 1) := by
  have e : i + 1 - i = 1 := by omega
  have : bitsOf v i i = v / 2 ^ i % 2 := by simp [bitsOf, e]
  rw [this, bitOf]
  rcases Nat.mod_two_eq_zero_or_one (v / 2 ^ i) with h | h <;> simp [h]

theorem raw_ne (n : Nat) : Reg.DBR_RAW_STAT n ≠ Reg.DBR_RAW_CTL n := by
  simp only [Reg.DBR_RAW_STAT, Reg.DBR_RAW_CTL]; omega

theorem raw_arm (n : Nat) (s : State) (hn : n < 8) (hok : s.ok) (hrs : SMap.rises s.rwt 0 = true) (hrun : s.time.running = true) (v : Nat) (hv : v % 2 ^ 32 = v)
    (hb : bitOf v 16 = true) (hb2 : bitsOf v 16 16 = 1) : ∃ t, writeReg s (Reg.DBR_RAW_CTL n) v = t
      ∧ t.fld (Reg.DBR_RAW_CTL n) 11 0 = bitsOf v 11 0 ∧ t.bit (Reg.DBR_RAW_CTL n) 16 = s.bit (Reg.DBR_RAW_CTL n) 16
      ∧ bitOf (t.pendWord (Reg.DBR_RAW_CTL n)) 16 = true ∧ t.bit (Reg.DBR_RAW_STAT n) 20 = false := by
  obtain ⟨r, hr, hf⟩ := raw_row n hn
  obtain ⟨w1, w2⟩ := raw_wide n hn
  have hl : lockStops s (Reg.DBR_RAW_CTL n) = false := by
    simp only [lockStops, hr, hf]; simp
  have e1 : ∀ v, headEffect s .dbr n 0x68 v = none := fun v => rfl
  have e2 : ∀ v, sysEffect s .dbr 0x68 v = none := fun v => rfl
  have e4 : ∀ v, bitOf v 16 = true → coreEffect s .dbr n 0x68 v = some ((wordWrite s (Reg.DBR_RAW_CTL n) v).setFld (Reg.DBR_RAW_STAT n) 20 20 0) := by
    intro v h; simp only [coreEffect, h, if_true]
  refine ⟨(wordWrite s (Reg.DBR_RAW_CTL n) v).setFld (Reg.DBR_RAW_STAT n) 20 20 0, ?_, ?_⟩
  · simp only [writeReg, hr, w1, w2, oneWrite, hv, e1, e2, e4 _ hb]
    simp [hrun]
  · have hww : wordWrite s (Reg.DBR_RAW_CTL n) v = { s.setRg (Reg.DBR_RAW_CTL n) (putBits (s.rg (Reg.DBR_RAW_CTL n)) 11 0 (bitsOf v 11 0)) with
        rwt := SMap.set s.rwt 0 (Reg.DBR_RAW_CTL n) (putBits (Fld.putT ⟨11, 0, .rw, 0⟩ (s.pendWord (Reg.DBR_RAW_CTL n)) v) 16 16 (bitsOf v 16 16) + 1) } := by
      simp only [wordWrite, hr, hl, hf, List.foldl_cons, List.foldl_nil, Fld.put_rw, Fld.put_rwt, Fld.putT_rwt]
      simp
    have hk : (s.setRg (Reg.DBR_RAW_CTL n) (putBits (s.rg (Reg.DBR_RAW_CTL n)) 11 0 (bitsOf v 11 0))).ok := State.ok_setRg _ _ _ hok
    have hk2 : (wordWrite s (Reg.DBR_RAW_CTL n) v).ok := by rw [hww]; exact hk
    have g1 : (wordWrite s (Reg.DBR_RAW_CTL n) v).rg (Reg.DBR_RAW_CTL n) = putBits (s.rg (Reg.DBR_RAW_CTL n)) 11 0 (bitsOf v 11 0) % 2 ^ 32 := by
      rw [hww]
      show (s.setRg _ _).rg _ = _
      rw [State.rg_setRg _ _ _ _ hok]; simp
    have g2 : ∀ x, ((wordWrite s (Reg.DBR_RAW_CTL n) v).setFld (Reg.DBR_RAW_STAT n) 20 20 x).rg (Reg.DBR_RAW_CTL n) = putBits (s.rg (Reg.DBR_RAW_CTL n)) 11 0 (bitsOf v 11 0) % 2 ^ 32 := by
      intro x
      rw [State.setFld, State.rg_setRg _ _ _ _ hk2, if_neg (raw_ne n).symm, g1]
    have hp : ((wordWrite s (Reg.DBR_RAW_CTL n) v).setFld (Reg.DBR_RAW_STAT n) 20 20 0).rwt = (wordWrite s (Reg.DBR_RAW_CTL n) v).rwt := State.setFld_rwt _ _ _ _ _
    refine ⟨?_, ?_, ?_, ?_⟩
    · rw [State.fld, g2, (raw_words _ _).2.1]
    · rw [State.bit, State.bit, g2, bitOf_bits, bitOf_bits, (raw_words _ _).2.2]
    · have h := SMap.get_set_same s.rwt 0 (Reg.DBR_RAW_CTL n) (putBits (Fld.putT ⟨11, 0, .rw, 0⟩ (s.pendWord (Reg.DBR_RAW_CTL n)) v) 16 16 (bitsOf v 16 16) + 1) 0 hrs
      have hq := raw_pend (s.pendWord (Reg.DBR_RAW_CTL n)) v
      generalize putBits (Fld.putT ⟨11, 0, .rw, 0⟩ (s.pendWord (Reg.DBR_RAW_CTL n)) v) 16 16 (bitsOf v 16 16) = X at h hww hq
      rw [State.pendWord, hp, hww]
      have k : (if X + 1 = 0 then (s.setRg (Reg.DBR_RAW_CTL n) (putBits (s.rg (Reg.DBR_RAW_CTL n)) 11 0 (bitsOf v 11 0))).rg (Reg.DBR_RAW_CTL n) else X + 1 - 1) = X := by simp
      simp only [h]
      rw [if_neg (Nat.succ_ne_zero X), bitOf_bits, Nat.add_sub_cancel, hq, hb2]; rfl
    · rw [State.bit, State.setFld, State.rg_setRg _ _ _ _ hk2, if_pos rfl, bitOf_bits, stat_clear]; rfl

theorem trwBlock_idle (e : Nat) (s : State) (h : ∀ k, (s.trwCh e k).st ≠ .run) : trwBlock s e = s := by
  unfold trwBlock
  induction List.range 8 with
  | nil => rfl
  | cons a l ih =>
    rw [List.foldl_cons]
    have : (if (s.trwCh e a).st = .run ∧ descBlocked s e (s.trwCh e a).d = true then trwStop s e a stPART_RESET else s) = s := if_neg fun x => h a x.1
    simp only [this]; exact ih

theorem mod64_sub (a b : Nat) (ha : a < 2 ^ 64) (hb : b < 2 ^ 64) : mod64 ((a : Int) - b) % 2 ^ 64 = (a + 2 ^ 64 - b) % 2 ^ 64 := by
  simp only [mod64, ofSigned]
  omega

theorem setV_step (x : Tile) (d : Nat) (v : List F32) :
    { ({ x with lastPc := x.pc } : Tile).setV d v with pc := pcAdd (({ x with lastPc := x.pc } : Tile).setV d v).pc 4 } = (x.setV d v).step := by
  unfold Tile.setV Tile.step; rfl

theorem readF32s_noted (s : State) (n a k : Nat) : readF32s (s.noted n) a k = readF32s s a k := by
  unfold readF32s State.noted; simp only [State.readLE_setTile]

/-- The pc noted is no part of who waits for port B, of memory, or of what leaving port B does. -/
theorem portWaits_noted (s : State) (n a len : Nat) : portWaits (s.noted n) n a len = portWaits s n a len := rfl
theorem portLeave_tiles (s : State) (n a len : Nat) : (portLeave s n a len).tiles = s.tiles := by
  simp only [portLeave, memRelease]; repeat' split
  all_goals rfl
theorem portLeave_same (s : State) (n a len : Nat) : { portLeave s n a len with portB := s.portB } = s := by
  simp only [portLeave, memRelease]; repeat' split
  all_goals rfl
theorem portLeave_time (s : State) (n a len : Nat) : (portLeave s n a len).time = s.time := by
  simp only [portLeave, memRelease]; repeat' split
  all_goals rfl
theorem portLeave_direct (s : State) (n a len : Nat) : (portLeave s n a len).direct = s.direct := by
  simp only [portLeave, memRelease]; repeat' split
  all_goals rfl
theorem portLeave_tpl (s : State) (n a len : Nat) : (portLeave s n a len).tpl = s.tpl := by
  simp only [portLeave, memRelease]; repeat' split
  all_goals rfl
theorem portLeave_byte (s : State) (n a len : Nat) : (portLeave s n a len).byte = s.byte := by
  funext y; simp only [portLeave, memRelease]; repeat' split
  all_goals first | rfl | (unfold State.byte; rfl)
theorem portLeave_readLE (s : State) (n a len b k : Nat) : (portLeave s n a len).readLE b k = s.readLE b k := by
  simp only [State.readLE, portLeave_byte]
theorem portLeave_readBytes (s : State) (n a len b k : Nat) : (portLeave s n a len).readBytes b k = s.readBytes b k := by
  simp only [State.readBytes, portLeave_byte]
theorem portLeave_noted (s : State) (n a len : Nat) (h : SMap.rises s.tiles 0 = true) : portLeave (s.noted n) n a len = (portLeave s n a len).noted n := by
  have hb : ((s.noted n).tile n).blocks = (s.tile n).blocks := by rw [State.noted_tile s n h]
  simp only [portLeave, hb, memRelease]; repeat' split
  all_goals first | rfl | simp_all [State.noted, State.pb, State.setPb]; try rfl

/-- A tile's noted pc does not isolate a router. -/
theorem routeBlocked_noted (s : State) (n a b : Nat) (h : SMap.rises s.tiles 0 = true) : routeBlocked (s.noted n) a b = routeBlocked s a b := by
  have e : isolated (s.noted n) = isolated s := by
    funext k
    simp only [isolated]
    by_cases hk : k = n
    · rw [hk, State.noted_tile s n h]
    · rw [State.noted, State.tile_setTile_ne _ _ _ h _ hk]
  simp only [routeBlocked, e]; rfl

/-- A tile's aligned access within its reach goes through, and lets port B of the partner's slice go. -/
theorem access_own (s : State) (n w len a : Nat) (wr : Bool) (f : Nat → State → State) (x : Tile) (hx : (s.tile n).gr (fA w) = x.gr (fA w))
    (ha : a = mod64 ((x.gr (fA w) : Int) + fImm14 w)) (h1 : a % len = 0) (h2 : (if wr then tileWrites n a len else tileReads n a len) = true)
    (h3 : portWaits s n a len = false) : access s n w len wr false f = f a (portLeave s n a len) := by
  simp only [access, hx, ← ha, h1, h2, h3]; simp

theorem setByte_setTile (u : State) (a n b : Nat) (y : Tile) : (u.setTile n y).setByte a b = (u.setByte a b).setTile n y := by
  unfold State.setByte
  repeat' split
  all_goals rfl

theorem writeBytes_setTile (n : Nat) (y : Tile) : ∀ (bs : List Nat) (u : State) (a : Nat), (u.setTile n y).writeBytes a bs = (u.writeBytes a bs).setTile n y
  | [], _, _ => rfl
  | b :: bs, u, a => by
    show ((u.setTile n y).setByte a b).writeBytes (a + 1) bs = ((u.setByte a b).writeBytes (a + 1) bs).setTile n y
    rw [setByte_setTile, writeBytes_setTile n y bs]

/-- A tile's store moves its bytes and the tile to the next word. -/
theorem store_runs (s : State) (n a : Nat) (bs : List Nat) (x : Tile) (h : SMap.rises s.tiles 0 = true) (hx : x = s.tile n)
    (ht : x.blocks.any (·.touches a bs.length) = false) :
    TileRan (s.writeBytes a bs) (advance (storeBytes (s.noted n) n a bs) n ((storeBytes (s.noted n) n a bs).tile n)) n x.step := by
  have hk : ((s.noted n).tile n).blocks.any (·.touches a bs.length) = false := by rw [State.noted_tile s n h, ← hx]; exact ht
  have hs : storeBytes (s.noted n) n a bs = (s.writeBytes a bs).noted n := by
    simp only [storeBytes, hk, Bool.false_eq_true, if_false]
    rw [State.noted, writeBytes_setTile, State.noted]
    have : (s.writeBytes a bs).tile n = s.tile n := by simp [State.tile]
    rw [this]
  have ht : (s.writeBytes a bs).tile n = s.tile n := by simp [State.tile]
  rw [hs, State.noted_tile _ _ (by simpa using h), ht]
  refine TileRan.of_set (s.writeBytes a bs) n _ _ (by simpa using h) ?_
  rw [hx]; rfl

theorem TileRan.of_set2 (s : State) (n : Nat) (x y z : Tile) (h : SMap.rises s.tiles 0 = true) (e : y = x) :
    TileRan s (((s.noted n).setTile n z).setTile n y) n x := by
  have h2 : SMap.rises (s.noted n).tiles 0 = true := s.rises_setTile n h _
  have h3 : SMap.rises ((s.noted n).setTile n z).tiles 0 = true := State.rises_setTile _ n h2 _
  refine ⟨?_, fun m hm => ?_, rfl⟩
  · rw [State.tile_setTile _ _ h3, e]
  · rw [State.tile_setTile_ne _ _ _ h3 _ hm, State.tile_setTile_ne _ _ _ h2 _ hm, State.noted, State.tile_setTile_ne _ _ _ h _ hm]

theorem TileRan.of_free (s : State) (n k : Nat) (x y : Tile) (h : SMap.rises s.tiles 0 = true) (e : y = x) :
    TileRan { s with fresh := s.fresh + k } ({ s.noted n with fresh := (s.noted n).fresh + k }.setTile n y) n x := by
  have h2 := TileRan.of_set s n x y h e
  exact ⟨h2.1, h2.2.1, rfl⟩

theorem readBytes_noted (s : State) (n a k : Nat) : (s.noted n).readBytes a k = s.readBytes a k := by
  unfold State.readBytes State.noted; rw [State.byte_setTile]

theorem unitsBusy_noted (x : Tile) (p : Nat) : unitsBusy { x with lastPc := p } = unitsBusy x := rfl

theorem setG_step2 (x : Tile) (bs : List BlockOp) (d v : Nat) :
    { ({ x with lastPc := x.pc, blocks := bs } : Tile).setG d v with pc := pcAdd (({ x with lastPc := x.pc, blocks := bs } : Tile).setG d v).pc 4 } = ({ x with blocks := bs }.setG d v).step := by
  unfold Tile.setG Tile.step; split <;> rfl

theorem portTake_tiles (s : State) (n : Nat) : (portTake s n).tiles = s.tiles := by
  simp only [portTake]; split <;> rfl
theorem portTake_set (s : State) (n : Nat) (y z : Tile) : portTake ((s.setTile n y).setTile n z) n = ((portTake s n).setTile n y).setTile n z := by
  simp only [portTake]
  have e : ((s.setTile n y).setTile n z).pb (Nat.xor n 1) = s.pb (Nat.xor n 1) := rfl
  rw [e]; split <;> rfl
theorem portTake_tile (s : State) (n m : Nat) : (portTake s n).tile m = s.tile m := by simp [State.tile, portTake_tiles]

/-- The request for its page that a PAGE on a fen page makes (R345). -/
def pageAsk (n op : Nat) (b : BlkDesc) (t : State) : State :=
  if op = 0x38 ∧ inFen b.aux then fenRequest t (addrStack b.aux) (addrPc b.aux) 0 n 65536 else t

/-- Issuing an operation with a legal descriptor on free units, with port B free where it needs the partner's slice (R322, R343). -/
theorem blockStart_runs (n w : Nat) (s : State) (x : Tile) (h : SMap.rises s.tiles 0 = true) (hx : x = s.tile n) (op : Nat) (bs : List Nat) (far : Bool)
    (hu : Nat.land (unitsBusy x) (opUnits op) = 0) (hok : blockOk n op (fB w) (blkDesc bs) = true)
    (hf : far = blockFar s n op (blkDesc bs)) (hp : far = true → portFree s n = true) :
    ∃ t, blockStart s (s.noted n) n w op bs = pageAsk n op (blkDesc bs) t
      ∧ TileRan (if far then portTake s n else s) t n (({ x with blocks := x.blocks ++ [⟨op, fD w, fB w, bs, false, far⟩] } : Tile).setG (fD w) stOK).step := by
  have hk : (s.noted n).tile n = { x with lastPc := x.pc } := by rw [State.noted_tile s n h, ← hx]
  have hf2 : blockFar (s.noted n) n op (blkDesc bs) = far := hf.symm
  have hp2 : (far && !portFree (s.noted n) n) = false := by
    cases far
    · rfl
    · have : portFree (s.noted n) n = portFree s n := rfl
      rw [this, hp rfl]; rfl
  have h2 : SMap.rises (s.noted n).tiles 0 = true := s.rises_setTile n h _
  have h3 : SMap.rises ((portTake s n).noted n).tiles 0 = true :=
    (portTake s n).rises_setTile n (by rw [portTake_tiles]; exact h) _
  have hu2 : ¬ Nat.land (unitsBusy x) (opUnits op) ≠ 0 := fun q => q hu
  clear hf hp
  cases far
  · simp only [Bool.false_eq_true, if_false]
    unfold blockStart
    simp only [hk, unitsBusy_noted, hf2, hp2]
    rw [if_neg hu2, hok, if_neg (by simp), if_neg (by simp)]
    refine ⟨_, rfl, ?_⟩
    simp only [Bool.false_eq_true, if_false]
    unfold issued advance
    rw [State.tile_setTile _ _ h2]
    exact TileRan.of_set2 s n _ _ _ h (setG_step2 _ _ _ _)
  · simp only [if_true]
    unfold blockStart
    simp only [hk, unitsBusy_noted, hf2, hp2]
    rw [if_neg hu2, hok, if_neg (by simp), if_neg (by simp)]
    refine ⟨_, rfl, ?_⟩
    simp only [if_true]
    unfold issued advance
    rw [State.noted, portTake_set, ← portTake_tile s n n, ← State.noted, State.tile_setTile _ _ h3]
    exact TileRan.of_set2 (portTake s n) n _ _ _ (by rw [portTake_tiles]; exact h) (setG_step2 _ _ _ _)

/-- The other ends of issuing an operation: it waits for its unit or for port B, or its descriptor is refused (R322, R343). -/
theorem blockStart_stays (n w : Nat) (s : State) (x : Tile) (h : SMap.rises s.tiles 0 = true) (hx : x = s.tile n) (op : Nat) (bs : List Nat) :
    (Nat.land (unitsBusy x) (opUnits op) ≠ 0 → blockStart s (s.noted n) n w op bs = s)
    ∧ (Nat.land (unitsBusy x) (opUnits op) = 0 →
      (blockOk n op (fB w) (blkDesc bs) = false → TileRan s (blockStart s (s.noted n) n w op bs) n (x.setG (fD w) stMALFORMED).step)
      ∧ (blockOk n op (fB w) (blkDesc bs) = true → blockFar s n op (blkDesc bs) = true → portFree s n = false →
        blockStart s (s.noted n) n w op bs = portAsk (s.noted n) n)) := by
  have hk : (s.noted n).tile n = { x with lastPc := x.pc } := by rw [State.noted_tile s n h, ← hx]
  refine ⟨fun hu => ?_, fun hu => ⟨fun hb => ?_, fun hb hf hp => ?_⟩⟩
  · unfold blockStart; simp only [hk, unitsBusy_noted]; rw [if_pos hu]
  · unfold blockStart; simp only [hk, unitsBusy_noted]
    rw [if_neg (fun q => q hu), hb, if_pos (by simp)]
    unfold issued advance
    rw [hk]
    exact TileRan.of_set s n _ _ h (Tile.setG_step _ _ _)
  · have hf2 : blockFar (s.noted n) n op (blkDesc bs) = true := hf
    have hp2 : portFree (s.noted n) n = false := hp
    unfold blockStart; simp only [hk, unitsBusy_noted]
    rw [if_neg (fun q => q hu), hb, if_neg (by simp), if_pos (by simp [hf2, hp2])]

/-- What issuing a block instruction does (R339, R349). -/
theorem block_issue (n w : Nat) (s : State) (x : Tile) (h : IssuesAt s n w) (hx : x = s.tile n) (op : Nat) (hw : w % 256 = op) (a : Nat) (bs : List Nat) (ha : a = x.gr (fA w))
   (hb : bs = s.readBytes a 64) :
      (a % 64 = 0 → privBase n + 0x40000 ≤ a → a + 64 ≤ privBase n + 0x180000 →
        blockIssue n op s = .next (blockStart s (s.noted n) n w op bs))
      ∧ (a % 64 ≠ 0 → ∃ t, blockIssue n op s = .next t ∧ TileRan s t n (x.setG (fD w) stMALFORMED).step) := by
  have hn : n % 128 = n := Nat.mod_eq_of_lt h.1
  have hk : (s.noted n).tile n = { x with lastPc := x.pc } := by rw [State.noted_tile s n h.2.1, ← hx]
  unfold blockIssue
  simp only [hn, issue_runs s n w _ _ h hw, hk, Tile.gr_noted, ← ha, readBytes_noted, ← hb, readBad_plain n h.1]
  refine ⟨fun h3 h4 h5 => ?_, fun h3 => ⟨_, rfl, ?_⟩⟩
  · simp [h3, h4, h5]
  · rw [if_pos (by simp [h3])]
    unfold issued advance
    rw [hk]
    exact TileRan.of_set s n _ _ h.2.1 (Tile.setG_step _ _ _)

theorem TileRan.noted_step (s t : State) (n : Nat) (x y : Tile) (hx : x = s.tile n) (hy : y.pc = x.pc) (h : TileRan s t n y.step) : TileRan s t n { y.step with lastPc := (s.tile n).pc } := by
  have : ({ y.step with lastPc := (s.tile n).pc } : Tile) = y.step := by rw [← hx, ← hy]; rfl
  rw [this]; exact h

theorem setG_pc (x : Tile) (d v : Nat) : (x.setG d v).pc = x.pc := by unfold Tile.setG; split <;> rfl

theorem csrRead_chWr (s : State) (n c : Nat) (h1 : 0x50 ≤ c) (h2 : c < 0x60) : csrRead s n c = some (SMap.get (s.tile n).chWr 0 (c - 0x50)) := by
  simp only [csrRead]
  repeat rw [if_neg (by omega)]
  rw [if_pos (by omega)]

theorem csrRead_chBase (s : State) (n c : Nat) (h1 : 0x20 ≤ c) (h2 : c < 0x30) : csrRead s n c = some (SMap.get (s.tile n).chBase 0 (c - 0x20)) := by
  simp only [csrRead]
  repeat rw [if_neg (by omega)]
  rw [if_pos (by omega)]

theorem csrRead_none (s : State) (n c : Nat) (h1 : 0x60 ≤ c) : csrRead s n c = none := by
  simp only [csrRead]
  repeat rw [if_neg (by omega)]

theorem csrWrite_chBase (t : Tile) (c v : Nat) (h1 : 0x20 ≤ c) (h2 : c < 0x30) : csrWrite t c v = { t with chBase := SMap.set t.chBase 0 (c - 0x20) v } := by
  simp only [csrWrite]; rw [if_pos (by omega)]

theorem csrWrite_readOnly (t : Tile) (c v : Nat) (h1 : c < 0x20) : csrWrite t c v = t := by
  simp only [csrWrite]; repeat rw [if_neg (by omega)]

/-- One work queue's part of a trigger. -/
def trigOne (s : State) (q : Nat) : State :=
  match wqHead s q with
  | none => s
  | some w => if w.wait ≠ 0xFFFF ∧ !wqeDormant s w then wqServe s q w else s

theorem triggerStart_eq (s : State) : exec .triggerStart s = .next ((List.range 16).foldl trigOne s) := rfl

theorem trigOne_none (s : State) (q : Nat) (h : wqHead s q = none) : trigOne s q = s := by simp [trigOne, h]

theorem pendWord_set (s : State) (h : SMap.rises s.rwt 0 = true) (a X : Nat) :
   ({ s with rwt := SMap.set s.rwt 0 a (X + 1) } : State).pendWord a = X := by
  have h := SMap.get_set_same s.rwt 0 a (X + 1) 0 h
  simp [State.pendWord, h]

theorem mcmdWrite_pending (s : State) (hr : s.time.running = true) (h : SMap.rises s.rwt 0 = true) (slot gen op : Nat) (h1 : slot < 2 ^ 18) (h2 : gen < 256) :
   (mcmdWrite slot gen op s).pendWord Reg.FAB_MCMD = slot + gen * 2 ^ 18 + op * 2 ^ 26 ∧ { mcmdWrite slot gen op s with rwt := s.rwt } = s := by
  simp only [mcmdWrite, hr, if_true]
  constructor
  · rw [pendWord_set s h, Nat.mod_eq_of_lt h1, Nat.mod_eq_of_lt h2]
  · trivial

/-- The fuse registers are carried across a reset. -/
theorem fuses_copied (s : State) : ∀ (l : List Nat) (u : State), u.ok →
    (l.foldl (fun t a => t.setRg a (s.rg a)) u).ok ∧ (∀ a, (l.foldl (fun t a => t.setRg a (s.rg a)) u).rg a = if a ∈ l then s.rg a % 2 ^ 32 else u.rg a)
    ∧ l.foldl (fun t a => t.setRg a (s.rg a)) u = { u with regs := (l.foldl (fun t a => t.setRg a (s.rg a)) u).regs } := by
  intro l
  induction l with
  | nil => intro u h; exact ⟨h, fun a => by simp, rfl⟩
  | cons b l ih =>
    intro u h
    have h2 : (u.setRg b (s.rg b)).ok := State.ok_setRg _ _ _ h
    obtain ⟨h3, h4, h5⟩ := ih (u.setRg b (s.rg b)) h2
    simp only [List.foldl_cons]
    refine ⟨h3, fun a => ?_, ?_⟩
    · rw [h4, State.rg_setRg _ _ _ _ h]
      by_cases h6 : a ∈ l
      · simp [h6]
      · by_cases h7 : a = b
        · subst h7; simp [h6]
        · simp [h6, h7]
    · rw [h5]; rfl

/-- Drawing a challenge touches its own registers and the count of free values only. -/
theorem challenge_drawn (l : List Nat) : ∀ u : State, u.ok →
    (l.foldl (fun s k => (s.setRg (Reg.ATT_CHAL k) (s.free 32)).draw) u).ok
    ∧ (∀ a, (∀ k ∈ l, a ≠ Reg.ATT_CHAL k) → (l.foldl (fun s k => (s.setRg (Reg.ATT_CHAL k) (s.free 32)).draw) u).rg a = u.rg a)
    ∧ ∃ f, l.foldl (fun s k => (s.setRg (Reg.ATT_CHAL k) (s.free 32)).draw) u
        = { u with regs := (l.foldl (fun s k => (s.setRg (Reg.ATT_CHAL k) (s.free 32)).draw) u).regs, fresh := f } := by
  induction l with
  | nil => intro u h; exact ⟨h, fun _ _ => rfl, u.fresh, rfl⟩
  | cons b l ih =>
    intro u h
    have h2 : ((u.setRg (Reg.ATT_CHAL b) (u.free 32)).draw).ok := State.ok_setRg u _ _ h
    obtain ⟨h3, h4, f, h5⟩ := ih _ h2
    simp only [List.foldl_cons]
    refine ⟨h3, fun a ha => ?_, f, ?_⟩
    · rw [h4 a fun k hk => ha k (by simp [hk])]
      exact (State.rg_setRg u _ _ _ h).trans (if_neg (ha b (by simp)))
    · rw [h5]; rfl

/-- What a sensor sample does once the readings are shown. -/
def sensorTail (s s1 : State) : State :=
  let s2 := match senseMax s1 with
    | some (k, w) => s1.setRg Reg.PWR_TEMP (w + k * 65536)
    | none => s1
  let hot := (List.range 28).filter fun k => !s2.bit (Reg.PWR_TSENS k) 31 && decide (920 ≤ tempOf (s2.fld (Reg.PWR_TSENS k) 11 0))
  let trip := hot.any s.pwr.hot.contains && s.pwr.trip.isNone
  { s2 with pwr := { s2.pwr with hot := hot, trip := if trip then some s2.time.up else s2.pwr.trip } }

theorem sensorSample_eq (rs : List Nat) (s : State) :
    exec (.sensorSample rs) s = .next (sensorTail s ((List.range 28).foldl (fun s k => senseOne s k (rs.getD k (s.fld (Reg.PWR_TSENS k) 11 0))) s)) := rfl

theorem thermtripReset_eq (s u : State) (x : Nat) (h : s.pwr.trip = some x) (h2 : reachUp s (x + 1600) = some u) :
    exec .thermtripReset s = .next { pinReset u 8 with pwr := { (pinReset u 8).pwr with hold := true } } := by
  simp only [exec, execThermtripReset, h, h2]

theorem pinReset_eq (u : State) (c : Nat) (d : State) (h : deviceReset u c = d) : pinReset u c = { d with lcs := { d.lcs with started := false } } := by
  unfold pinReset; rw [h]

/-- With a reading for each sensor, no old value is used. -/
theorem senseAll_eq (rs : List Nat) : ∀ (l : List Nat) (x : State), (∀ r ∈ l, r < rs.length) →
    l.foldl (fun s k => senseOne s k (rs.getD k (s.fld (Reg.PWR_TSENS k) 11 0))) x = l.foldl (fun s k => senseOne s k (rs.getD k 0)) x := by
  intro l
  induction l with
  | nil => intro x _; rw [List.foldl_nil, List.foldl_nil]
  | cons a l ih =>
    intro x hl2
    have ha : a < rs.length := hl2 a (by simp)
    have e : ∀ d, rs.getD a d = rs[a] := fun d => by simp [List.getD, List.getElem?_eq_getElem ha]
    rw [List.foldl_cons, List.foldl_cons, e, e]
    exact ih _ fun r hr => hl2 r (by simp [hr])

theorem hotSensors_mem (v : State) (k : Nat) :
    k ∈ ((List.range 28).filter fun k => !v.bit (Reg.PWR_TSENS k) 31 && decide (920 ≤ tempOf (v.fld (Reg.PWR_TSENS k) 11 0)))
    ↔ k < 28 ∧ v.bit (Reg.PWR_TSENS k) 31 = false ∧ 920 ≤ signedOf (v.fld (Reg.PWR_TSENS k) 11 0) 12 := by
  simp only [List.mem_filter, List.mem_range, Bool.and_eq_true, Bool.not_eq_true', decide_eq_true_iff]; rfl

end Sys2Proof.Machine
end

