-- ==== Sys2Proof/Laws/Runs.lean ====
section
/-!
SUPPORT. Every command runs: its meaning answers a next state whatever its operands and the state.
-/

namespace Sys2Proof.Machine

theorem blockIssue_runs {tile op : Nat} (s : State) : ∃ t, blockIssue tile op s = .next t := by
  unfold blockIssue; try dsimp only
  repeat' split
  all_goals exact ⟨_, rfl⟩
theorem scalarOp_runs {tile op : Nat} {f} (s : State) : ∃ t, scalarOp tile op f s = .next t := by
  unfold scalarOp; try dsimp only
  repeat' split
  all_goals exact ⟨_, rfl⟩
theorem loadOp_runs {tile op len bad} (s : State) : ∃ t, loadOp tile op len bad s = .next t := by
  unfold loadOp; try dsimp only
  repeat' split
  all_goals exact ⟨_, rfl⟩
theorem storeOp_runs {tile op len} (s : State) : ∃ t, storeOp tile op len s = .next t := by
  unfold storeOp; try dsimp only
  repeat' split
  all_goals exact ⟨_, rfl⟩
theorem branchOp_runs {tile op f} (s : State) : ∃ t, branchOp tile op f s = .next t := by
  unfold branchOp; try dsimp only
  repeat' split
  all_goals exact ⟨_, rfl⟩
theorem fenOp_runs {tile op w} (s : State) : ∃ t, fenOp tile op w s = .next t := by
  unfold fenOp; try dsimp only
  repeat' split
  all_goals exact ⟨_, rfl⟩
theorem execRegisterWrite_runs {core addr value width} (s : State) : ∃ t, execRegisterWrite core addr value width s = .next t := by
  unfold execRegisterWrite
  exact ⟨_, rfl⟩
theorem execWideRegisterAccess_runs {core addr write value} (s : State) :
    ∃ t, execWideRegisterAccess core addr write value s = .next t := by
  unfold execWideRegisterAccess; try dsimp only
  repeat' split
  all_goals exact ⟨_, rfl⟩
theorem execCounterReadClear_runs {core addr} (s : State) : ∃ t, execCounterReadClear core addr s = .next t := by
  unfold execCounterReadClear; try dsimp only
  repeat' split
  all_goals exact ⟨_, rfl⟩
theorem execViewAccess_runs {core view off write value bad} (s : State) :
    ∃ t, execViewAccess core view off write value bad s = .next t := by
  unfold execViewAccess
  exact ⟨_, rfl⟩
theorem execBlkLockWrite_runs {page value} (s : State) : ∃ t, execBlkLockWrite page value s = .next t := by
  unfold execBlkLockWrite
  exact ⟨_, rfl⟩
theorem execBlkEvtClear_runs {page bits} (s : State) : ∃ t, execBlkEvtClear page bits s = .next t := by
  unfold execBlkEvtClear
  exact ⟨_, rfl⟩
theorem execBlkFltClear_runs {page value} (s : State) : ∃ t, execBlkFltClear page value s = .next t := by
  unfold execBlkFltClear
  exact ⟨_, rfl⟩
theorem execDpwDataAccess_runs {core write value bad} (s : State) : ∃ t, execDpwDataAccess core write value bad s = .next t := by
  unfold execDpwDataAccess; try dsimp only
  repeat' split
  all_goals exact ⟨_, rfl⟩
theorem execDpwHeldComplete_runs {core bad} (s : State) : ∃ t, execDpwHeldComplete core bad s = .next t := by
  unfold execDpwHeldComplete; try dsimp only
  repeat' split
  all_goals exact ⟨_, rfl⟩
theorem execRegRead_runs {h body} (s : State) : ∃ t, execRegRead h body s = .next t := by
  unfold execRegRead; try dsimp only
  repeat' split
  all_goals exact ⟨_, rfl⟩
theorem execRegWrite_runs {h body} (s : State) : ∃ t, execRegWrite h body s = .next t := by
  unfold execRegWrite; try dsimp only
  repeat' split
  all_goals exact ⟨_, rfl⟩
theorem execBurstRead_runs {h addr count bad} (s : State) : ∃ t, execBurstRead h addr count bad s = .next t := by
  unfold execBurstRead; try dsimp only
  repeat' split
  all_goals exact ⟨_, rfl⟩
theorem execBurstWrite_runs {h addr words} (s : State) : ∃ t, execBurstWrite h addr words s = .next t := by
  unfold execBurstWrite; try dsimp only
  repeat' split
  all_goals exact ⟨_, rfl⟩
theorem execTickBoundary_runs {errs} (s : State) : ∃ t, execTickBoundary errs s = .next t := by
  unfold execTickBoundary; try dsimp only
  repeat' split
  all_goals exact ⟨_, rfl⟩
theorem execTickCounterStart_runs (s : State) : ∃ t, execTickCounterStart s = .next t := by
  unfold execTickCounterStart; try dsimp only
  repeat' split
  all_goals exact ⟨_, rfl⟩
theorem execTickLenApply_runs (s : State) : ∃ t, execTickLenApply s = .next t := by
  unfold execTickLenApply; try dsimp only
  repeat' split
  all_goals exact ⟨_, rfl⟩
theorem execTplTickLenWrite_runs {value} (s : State) : ∃ t, execTplTickLenWrite value s = .next t := by
  unfold execTplTickLenWrite
  exact ⟨_, rfl⟩
theorem execShareTallyBuild_runs (s : State) : ∃ t, execShareTallyBuild s = .next t := by
  unfold execShareTallyBuild; try dsimp only
  repeat' split
  all_goals exact ⟨_, rfl⟩
theorem execPlanWindowEnd_runs (s : State) : ∃ t, execPlanWindowEnd s = .next t := by
  unfold execPlanWindowEnd; try dsimp only
  repeat' split
  all_goals exact ⟨_, rfl⟩
theorem execBookedItemStart_runs {k} (s : State) : ∃ t, execBookedItemStart k s = .next t := by
  unfold execBookedItemStart; try dsimp only
  repeat' split
  all_goals exact ⟨_, rfl⟩
theorem execBookedItemComplete_runs {k bad} (s : State) : ∃ t, execBookedItemComplete k bad s = .next t := by
  unfold execBookedItemComplete; try dsimp only
  repeat' split
  all_goals exact ⟨_, rfl⟩
theorem execSealPoint_runs (s : State) : ∃ t, execSealPoint s = .next t := by
  unfold execSealPoint; try dsimp only
  repeat' split
  all_goals exact ⟨_, rfl⟩
theorem execCarryRemoval_runs {slot} (s : State) : ∃ t, execCarryRemoval slot s = .next t := by
  unfold execCarryRemoval; try dsimp only
  repeat' split
  all_goals exact ⟨_, rfl⟩
theorem execCtxForceClearStarved_runs {slot gen} (s : State) : ∃ t, execCtxForceClearStarved slot gen s = .next t := by
  unfold execCtxForceClearStarved
  exact ⟨_, rfl⟩
theorem execCtxForceLost_runs {slot gen} (s : State) : ∃ t, execCtxForceLost slot gen s = .next t := by
  unfold execCtxForceLost
  exact ⟨_, rfl⟩
theorem execCtxForceRelease_runs {slot gen} (s : State) : ∃ t, execCtxForceRelease slot gen s = .next t := by
  unfold execCtxForceRelease
  exact ⟨_, rfl⟩
theorem execCowCopyDone_runs {slot lane bad} (s : State) : ∃ t, execCowCopyDone slot lane bad s = .next t := by
  unfold execCowCopyDone; try dsimp only
  repeat' split
  all_goals exact ⟨_, rfl⟩
theorem execScrubDone_runs {frame bad} (s : State) : ∃ t, execScrubDone frame bad s = .next t := by
  unfold execScrubDone; try dsimp only
  repeat' split
  all_goals exact ⟨_, rfl⟩
theorem execLabInvalidateSlot_runs {slot} (s : State) : ∃ t, execLabInvalidateSlot slot s = .next t := by
  unfold execLabInvalidateSlot
  exact ⟨_, rfl⟩
theorem execLabInvalidateAll_runs (s : State) : ∃ t, execLabInvalidateAll s = .next t := by
  unfold execLabInvalidateAll
  exact ⟨_, rfl⟩
theorem execFrmGrantToPartition_runs {part tier count} (s : State) : ∃ t, execFrmGrantToPartition part tier count s = .next t := by
  unfold execFrmGrantToPartition
  exact ⟨_, rfl⟩
theorem execFrmGrantToPool_runs {part tier count} (s : State) : ∃ t, execFrmGrantToPool part tier count s = .next t := by
  unfold execFrmGrantToPool
  exact ⟨_, rfl⟩
theorem execFrmDevresTake_runs {frame} (s : State) : ∃ t, execFrmDevresTake frame s = .next t := by
  unfold execFrmDevresTake
  exact ⟨_, rfl⟩
theorem execFrmDevresRelease_runs {frame} (s : State) : ∃ t, execFrmDevresRelease frame s = .next t := by
  unfold execFrmDevresRelease
  exact ⟨_, rfl⟩
theorem execMove_runs (s : State) : ∃ t, execMove s = .next t := by
  unfold execMove; try dsimp only
  repeat' split
  all_goals exact ⟨_, rfl⟩
theorem execMoveLane_runs (s : State) : ∃ t, execMoveLane s = .next t := by
  unfold execMoveLane; try dsimp only
  repeat' split
  all_goals exact ⟨_, rfl⟩
theorem execSetHint_runs (s : State) : ∃ t, execSetHint s = .next t := by
  unfold execSetHint; try dsimp only
  repeat' split
  all_goals exact ⟨_, rfl⟩
theorem execMigrationCopyDone_runs {frame bad} (s : State) : ∃ t, execMigrationCopyDone frame bad s = .next t := by
  unfold execMigrationCopyDone; try dsimp only
  repeat' split
  all_goals exact ⟨_, rfl⟩
theorem execOffPackageConfirm_runs {frame} (s : State) : ∃ t, execOffPackageConfirm frame s = .next t := by
  unfold execOffPackageConfirm
  exact ⟨_, rfl⟩
theorem execFetchReadDone_runs {frame bad} (s : State) : ∃ t, execFetchReadDone frame bad s = .next t := by
  unfold execFetchReadDone; try dsimp only
  repeat' split
  all_goals exact ⟨_, rfl⟩
theorem execPciLinkUp_runs {port link speed width} (s : State) : ∃ t, execPciLinkUp port link speed width s = .next t := by
  unfold execPciLinkUp; try dsimp only
  repeat' split
  all_goals exact ⟨_, rfl⟩
theorem execPciLinkDown_runs {port link present} (s : State) : ∃ t, execPciLinkDown port link present s = .next t := by
  unfold execPciLinkDown; try dsimp only
  repeat' split
  all_goals exact ⟨_, rfl⟩
theorem execDriveCommandComplete_runs {k ok data} (s : State) : ∃ t, execDriveCommandComplete k ok data s = .next t := by
  unfold execDriveCommandComplete; try dsimp only
  repeat' split
  all_goals exact ⟨_, rfl⟩
theorem execSegOpen_runs {stack pc code d32 kvhLog t32 store} (s : State) :
    ∃ t, execSegOpen stack pc code d32 kvhLog t32 store s = .next t := by
  unfold execSegOpen; try dsimp only
  repeat' split
  all_goals exact ⟨_, rfl⟩
theorem execSigma_runs {stack sigma} (s : State) : ∃ t, execSigma stack sigma s = .next t := by
  unfold execSigma
  exact ⟨_, rfl⟩
theorem execLimit_runs {stack limit} (s : State) : ∃ t, execLimit stack limit s = .next t := by
  unfold execLimit
  exact ⟨_, rfl⟩
theorem execWindow_runs {stack window prefix_} (s : State) : ∃ t, execWindow stack window prefix_ s = .next t := by
  unfold execWindow
  exact ⟨_, rfl⟩
theorem execRow_runs {stack slot head pos} (s : State) : ∃ t, execRow stack slot head pos s = .next t := by
  unfold execRow
  exact ⟨_, rfl⟩
theorem execSegmentPage_runs {stack rowSet countM1 base bound} (s : State) :
    ∃ t, execSegmentPage stack rowSet countM1 base bound s = .next t := by
  unfold execSegmentPage; try dsimp only
  repeat' split
  all_goals exact ⟨_, rfl⟩
theorem execSegClose_runs {stack} (s : State) : ∃ t, execSegClose stack s = .next t := by
  unfold execSegClose; try dsimp only
  repeat' split
  all_goals exact ⟨_, rfl⟩
theorem execWait_runs {stack sc} (s : State) : ∃ t, execWait stack sc s = .next t := by
  unfold execWait
  exact ⟨_, rfl⟩
theorem execMark_runs {stack tag} (s : State) : ∃ t, execMark stack tag s = .next t := by
  unfold execMark; try dsimp only
  repeat' split
  all_goals exact ⟨_, rfl⟩
theorem execDest_runs {stack tile slot} (s : State) : ∃ t, execDest stack tile slot s = .next t := by
  unfold execDest
  exact ⟨_, rfl⟩
theorem execSegmentComplete_runs {stack pc met} (s : State) : ∃ t, execSegmentComplete stack pc met s = .next t := by
  unfold execSegmentComplete; try dsimp only
  repeat' split
  all_goals exact ⟨_, rfl⟩
theorem execChannelModeChange_runs {stack pc} (s : State) : ∃ t, execChannelModeChange stack pc s = .next t := by
  unfold execChannelModeChange; try dsimp only
  repeat' split
  all_goals exact ⟨_, rfl⟩
theorem execCrownQueueServe_runs {stack pc bad addr} (s : State) : ∃ t, execCrownQueueServe stack pc bad addr s = .next t := by
  unfold execCrownQueueServe; try dsimp only
  repeat' split
  all_goals exact ⟨_, rfl⟩
theorem execRefreshSlot_runs {stack group} (s : State) : ∃ t, execRefreshSlot stack group s = .next t := by
  unfold execRefreshSlot; try dsimp only
  repeat' split
  all_goals exact ⟨_, rfl⟩
theorem execTempFlagChange_runs {stack pc hot} (s : State) : ∃ t, execTempFlagChange stack pc hot s = .next t := by
  unfold execTempFlagChange; try dsimp only
  repeat' split
  all_goals exact ⟨_, rfl⟩
theorem execBookedIntervalGrant_runs {ch fix} (s : State) : ∃ t, execBookedIntervalGrant ch fix s = .next t := by
  unfold execBookedIntervalGrant; try dsimp only
  repeat' split
  all_goals exact ⟨_, rfl⟩
theorem execArbiterGrant_runs {ch fix} (s : State) : ∃ t, execArbiterGrant ch fix s = .next t := by
  unfold execArbiterGrant; try dsimp only
  repeat' split
  all_goals exact ⟨_, rfl⟩
theorem execFenWatchdogBite_runs {stack pc} (s : State) : ∃ t, execFenWatchdogBite stack pc s = .next t := by
  unfold execFenWatchdogBite; try dsimp only
  repeat' split
  all_goals exact ⟨_, rfl⟩
theorem execFenceClear_runs {stack pc bits} (s : State) : ∃ t, execFenceClear stack pc bits s = .next t := by
  unfold execFenceClear; try dsimp only
  repeat' split
  all_goals exact ⟨_, rfl⟩
theorem execFenTrainingDone_runs {stack ok} (s : State) : ∃ t, execFenTrainingDone stack ok s = .next t := by
  unfold execFenTrainingDone; try dsimp only
  repeat' split
  all_goals exact ⟨_, rfl⟩
theorem execDbrRawArm_runs {stack words} (s : State) : ∃ t, execDbrRawArm stack words s = .next t := by
  unfold execDbrRawArm
  exact ⟨_, rfl⟩
theorem execRawProgramStart_runs {stack} (s : State) : ∃ t, execRawProgramStart stack s = .next t := by
  unfold execRawProgramStart; try dsimp only
  repeat' split
  all_goals exact ⟨_, rfl⟩
theorem execRawProgramDone_runs {stack bad met} (s : State) : ∃ t, execRawProgramDone stack bad met s = .next t := by
  unfold execRawProgramDone; try dsimp only
  repeat' split
  all_goals exact ⟨_, rfl⟩
theorem execTrwStart_runs {engine ch} (s : State) : ∃ t, execTrwStart engine ch s = .next t := by
  unfold execTrwStart; try dsimp only
  repeat' split
  all_goals exact ⟨_, rfl⟩
theorem execTrwAbort_runs {engine ch} (s : State) : ∃ t, execTrwAbort engine ch s = .next t := by
  unfold execTrwAbort
  exact ⟨_, rfl⟩
theorem execDescriptorFetch_runs {engine ch bad} (s : State) : ∃ t, execDescriptorFetch engine ch bad s = .next t := by
  unfold execDescriptorFetch; try dsimp only
  repeat' split
  all_goals exact ⟨_, rfl⟩
theorem execTrwBurstReadDone_runs {engine at_ bad} (s : State) : ∃ t, execTrwBurstReadDone engine at_ bad s = .next t := by
  unfold execTrwBurstReadDone; try dsimp only
  repeat' split
  all_goals exact ⟨_, rfl⟩
theorem execTrwBurstWriteDone_runs {engine at_} (s : State) : ∃ t, execTrwBurstWriteDone engine at_ s = .next t := by
  unfold execTrwBurstWriteDone; try dsimp only
  repeat' split
  all_goals exact ⟨_, rfl⟩
theorem execFeedRecord_runs {rak} (s : State) : ∃ t, execFeedRecord rak s = .next t := by
  unfold execFeedRecord; try dsimp only
  repeat' split
  all_goals exact ⟨_, rfl⟩
theorem execTrwPblockWrite_runs {engine parts} (s : State) : ∃ t, execTrwPblockWrite engine parts s = .next t := by
  unfold execTrwPblockWrite; try dsimp only
  repeat' split
  all_goals exact ⟨_, rfl⟩
theorem execRdlLookup_runs {core len shared part bad} (s : State) : ∃ t, execRdlLookup core len shared part bad s = .next t := by
  unfold execRdlLookup; try dsimp only
  repeat' split
  all_goals exact ⟨_, rfl⟩
theorem execRdlLookupResult_runs {port} (s : State) : ∃ t, execRdlLookupResult port s = .next t := by
  unfold execRdlLookupResult; try dsimp only
  repeat' split
  all_goals exact ⟨_, rfl⟩
theorem execRdlInsert_runs {core len shared part} (s : State) : ∃ t, execRdlInsert core len shared part s = .next t := by
  unfold execRdlInsert
  exact ⟨_, rfl⟩
theorem execRdlDelete_runs {core len shared part} (s : State) : ∃ t, execRdlDelete core len shared part s = .next t := by
  unfold execRdlDelete
  exact ⟨_, rfl⟩
theorem execRdlCommandDone_runs (s : State) : ∃ t, execRdlCommandDone s = .next t := by
  unfold execRdlCommandDone; try dsimp only
  repeat' split
  all_goals exact ⟨_, rfl⟩
theorem execTilStart_runs {tile} (s : State) : ∃ t, execTilStart tile s = .next t := by
  unfold execTilStart; try dsimp only
  repeat' split
  all_goals exact ⟨_, rfl⟩
theorem execTilStop_runs {tile} (s : State) : ∃ t, execTilStop tile s = .next t := by
  unfold execTilStop; try dsimp only
  repeat' split
  all_goals exact ⟨_, rfl⟩
theorem execMeasureDone_runs {tile} (s : State) : ∃ t, execMeasureDone tile s = .next t := by
  unfold execMeasureDone; try dsimp only
  repeat' split
  all_goals exact ⟨_, rfl⟩
theorem execAdd_runs {tile} (s : State) : ∃ t, execAdd tile s = .next t := by
  unfold execAdd
  exact scalarOp_runs _
theorem execSub_runs {tile} (s : State) : ∃ t, execSub tile s = .next t := by
  unfold execSub
  exact scalarOp_runs _
theorem execAnd_runs {tile} (s : State) : ∃ t, execAnd tile s = .next t := by
  unfold execAnd
  exact scalarOp_runs _
theorem execOr_runs {tile} (s : State) : ∃ t, execOr tile s = .next t := by
  unfold execOr
  exact scalarOp_runs _
theorem execXor_runs {tile} (s : State) : ∃ t, execXor tile s = .next t := by
  unfold execXor
  exact scalarOp_runs _
theorem execShl_runs {tile} (s : State) : ∃ t, execShl tile s = .next t := by
  unfold execShl
  exact scalarOp_runs _
theorem execShr_runs {tile} (s : State) : ∃ t, execShr tile s = .next t := by
  unfold execShr
  exact scalarOp_runs _
theorem execMul_runs {tile} (s : State) : ∃ t, execMul tile s = .next t := by
  unfold execMul
  exact scalarOp_runs _
theorem execAddi_runs {tile} (s : State) : ∃ t, execAddi tile s = .next t := by
  unfold execAddi
  exact scalarOp_runs _
theorem execLi_runs {tile} (s : State) : ∃ t, execLi tile s = .next t := by
  unfold execLi
  exact scalarOp_runs _
theorem execLd_runs {tile bad} (s : State) : ∃ t, execLd tile bad s = .next t := by
  unfold execLd
  exact loadOp_runs _
theorem execLw_runs {tile bad} (s : State) : ∃ t, execLw tile bad s = .next t := by
  unfold execLw
  exact loadOp_runs _
theorem execSt_runs {tile} (s : State) : ∃ t, execSt tile s = .next t := by
  unfold execSt
  exact storeOp_runs _
theorem execSw_runs {tile} (s : State) : ∃ t, execSw tile s = .next t := by
  unfold execSw
  exact storeOp_runs _
theorem execVld_runs {tile bad} (s : State) : ∃ t, execVld tile bad s = .next t := by
  unfold execVld; try dsimp only
  repeat' split
  all_goals exact ⟨_, rfl⟩
theorem execVst_runs {tile} (s : State) : ∃ t, execVst tile s = .next t := by
  unfold execVst; try dsimp only
  repeat' split
  all_goals exact ⟨_, rfl⟩
theorem execBeq_runs {tile} (s : State) : ∃ t, execBeq tile s = .next t := by
  unfold execBeq
  exact branchOp_runs _
theorem execBne_runs {tile} (s : State) : ∃ t, execBne tile s = .next t := by
  unfold execBne
  exact branchOp_runs _
theorem execBlt_runs {tile} (s : State) : ∃ t, execBlt tile s = .next t := by
  unfold execBlt
  exact branchOp_runs _
theorem execJal_runs {tile} (s : State) : ∃ t, execJal tile s = .next t := by
  unfold execJal; try dsimp only
  repeat' split
  all_goals exact ⟨_, rfl⟩
theorem execJr_runs {tile} (s : State) : ∃ t, execJr tile s = .next t := by
  unfold execJr; try dsimp only
  repeat' split
  all_goals exact ⟨_, rfl⟩
theorem execWaitcc_runs {tile} (s : State) : ∃ t, execWaitcc tile s = .next t := by
  unfold execWaitcc; try dsimp only
  repeat' split
  all_goals exact ⟨_, rfl⟩
theorem execWaitRelease_runs {tile} (s : State) : ∃ t, execWaitRelease tile s = .next t := by
  unfold execWaitRelease; try dsimp only
  repeat' split
  all_goals exact ⟨_, rfl⟩
theorem execHalt_runs {tile} (s : State) : ∃ t, execHalt tile s = .next t := by
  unfold execHalt; try dsimp only
  repeat' split
  all_goals exact ⟨_, rfl⟩
theorem execVadd_runs {tile} (s : State) : ∃ t, execVadd tile s = .next t := by
  unfold execVadd; try dsimp only
  repeat' split
  all_goals exact ⟨_, rfl⟩
theorem execVmul_runs {tile} (s : State) : ∃ t, execVmul tile s = .next t := by
  unfold execVmul; try dsimp only
  repeat' split
  all_goals exact ⟨_, rfl⟩
theorem execVfma_runs {tile} (s : State) : ∃ t, execVfma tile s = .next t := by
  unfold execVfma; try dsimp only
  repeat' split
  all_goals exact ⟨_, rfl⟩
theorem execVmax_runs {tile} (s : State) : ∃ t, execVmax tile s = .next t := by
  unfold execVmax; try dsimp only
  repeat' split
  all_goals exact ⟨_, rfl⟩
theorem execVexp2_runs {tile} (s : State) : ∃ t, execVexp2 tile s = .next t := by
  unfold execVexp2; try dsimp only
  repeat' split
  all_goals exact ⟨_, rfl⟩
theorem execVbcast_runs {tile} (s : State) : ∃ t, execVbcast tile s = .next t := by
  unfold execVbcast; try dsimp only
  repeat' split
  all_goals exact ⟨_, rfl⟩
theorem execVcvt_runs {tile} (s : State) : ∃ t, execVcvt tile s = .next t := by
  unfold execVcvt; try dsimp only
  repeat' split
  all_goals exact ⟨_, rfl⟩
theorem execMmac_runs {tile} (s : State) : ∃ t, execMmac tile s = .next t := by
  unfold execMmac
  exact blockIssue_runs _
theorem execExpand_runs {tile} (s : State) : ∃ t, execExpand tile s = .next t := by
  unfold execExpand
  exact blockIssue_runs _
theorem execQuant_runs {tile} (s : State) : ∃ t, execQuant tile s = .next t := by
  unfold execQuant
  exact blockIssue_runs _
theorem execRot_runs {tile} (s : State) : ∃ t, execRot tile s = .next t := by
  unfold execRot
  exact blockIssue_runs _
theorem execSketch_runs {tile} (s : State) : ∃ t, execSketch tile s = .next t := by
  unfold execSketch
  exact blockIssue_runs _
theorem execScore_runs {tile} (s : State) : ∃ t, execScore tile s = .next t := by
  unfold execScore
  exact blockIssue_runs _
theorem execMerge_runs {tile} (s : State) : ∃ t, execMerge tile s = .next t := by
  unfold execMerge
  exact blockIssue_runs _
theorem execBound_runs {tile} (s : State) : ∃ t, execBound tile s = .next t := by
  unfold execBound
  exact blockIssue_runs _
theorem execPage_runs {tile} (s : State) : ∃ t, execPage tile s = .next t := by
  unfold execPage
  exact blockIssue_runs _
theorem execBlockOpComplete_runs {tile k bad} (s : State) : ∃ t, execBlockOpComplete tile k bad s = .next t := by
  unfold execBlockOpComplete; try dsimp only
  repeat' split
  all_goals exact ⟨_, rfl⟩
theorem execSend_runs {tile} (s : State) : ∃ t, execSend tile s = .next t := by
  unfold execSend; try dsimp only
  repeat' split
  all_goals exact ⟨_, rfl⟩
theorem execRecv_runs {tile} (s : State) : ∃ t, execRecv tile s = .next t := by
  unfold execRecv; try dsimp only
  repeat' split
  all_goals exact ⟨_, rfl⟩
theorem execPoll_runs {tile} (s : State) : ∃ t, execPoll tile s = .next t := by
  unfold execPoll; try dsimp only
  repeat' split
  all_goals exact ⟨_, rfl⟩
theorem execModeq_runs {tile} (s : State) : ∃ t, execModeq tile s = .next t := by
  unfold execModeq; try dsimp only
  repeat' split
  all_goals exact ⟨_, rfl⟩
theorem execFenrd_runs {tile} (s : State) : ∃ t, execFenrd tile s = .next t := by
  unfold execFenrd
  exact fenOp_runs _
theorem execFenwr_runs {tile} (s : State) : ∃ t, execFenwr tile s = .next t := by
  unfold execFenwr
  exact fenOp_runs _
theorem execFenAccessComplete_runs {tile k bad} (s : State) : ∃ t, execFenAccessComplete tile k bad s = .next t := by
  unfold execFenAccessComplete; try dsimp only
  repeat' split
  all_goals exact ⟨_, rfl⟩
theorem execHandoff_runs {tile} (s : State) : ∃ t, execHandoff tile s = .next t := by
  unfold execHandoff; try dsimp only
  repeat' split
  all_goals exact ⟨_, rfl⟩
theorem execCsrr_runs {tile} (s : State) : ∃ t, execCsrr tile s = .next t := by
  unfold execCsrr; try dsimp only
  repeat' split
  all_goals exact ⟨_, rfl⟩
theorem execCsrw_runs {tile} (s : State) : ∃ t, execCsrw tile s = .next t := by
  unfold execCsrw; try dsimp only
  repeat' split
  all_goals exact ⟨_, rfl⟩
theorem execFence_runs {tile} (s : State) : ∃ t, execFence tile s = .next t := by
  unfold execFence; try dsimp only
  repeat' split
  all_goals exact ⟨_, rfl⟩
theorem execBcopy_runs {tile} (s : State) : ∃ t, execBcopy tile s = .next t := by
  unfold execBcopy; try dsimp only
  repeat' split
  all_goals exact ⟨_, rfl⟩
theorem execMessageEject_runs {tile msg} (s : State) : ∃ t, execMessageEject tile msg s = .next t := by
  unfold execMessageEject; try dsimp only
  repeat' split
  all_goals exact ⟨_, rfl⟩
theorem execEjectionTimeout_runs {tile} (s : State) : ∃ t, execEjectionTimeout tile s = .next t := by
  unfold execEjectionTimeout; try dsimp only
  repeat' split
  all_goals exact ⟨_, rfl⟩
theorem execVc0DirectWrite_runs {src dst addr data seen} (s : State) : ∃ t, execVc0DirectWrite src dst addr data seen s = .next t := by
  unfold execVc0DirectWrite; try dsimp only
  repeat' split
  all_goals exact ⟨_, rfl⟩
theorem execRouterWatchdogBite_runs {router} (s : State) : ∃ t, execRouterWatchdogBite router s = .next t := by
  unfold execRouterWatchdogBite; try dsimp only
  repeat' split
  all_goals exact ⟨_, rfl⟩
theorem execFrameReceive_runs {port fcs frame} (s : State) : ∃ t, execFrameReceive port fcs frame s = .next t := by
  unfold execFrameReceive; try dsimp only
  repeat' split
  all_goals exact ⟨_, rfl⟩
theorem execTxRingWrite_runs {ring wr} (s : State) : ∃ t, execTxRingWrite ring wr s = .next t := by
  unfold execTxRingWrite
  exact ⟨_, rfl⟩
theorem execControlTxDone_runs {ring} (s : State) : ∃ t, execControlTxDone ring s = .next t := by
  unfold execControlTxDone; try dsimp only
  repeat' split
  all_goals exact ⟨_, rfl⟩
theorem execMgtFrameReceive_runs {port fcs bytes} (s : State) : ∃ t, execMgtFrameReceive port fcs bytes s = .next t := by
  unfold execMgtFrameReceive; try dsimp only
  repeat' split
  all_goals exact ⟨_, rfl⟩
theorem execLinkChange_runs {port up} (s : State) : ∃ t, execLinkChange port up s = .next t := by
  unfold execLinkChange; try dsimp only
  repeat' split
  all_goals exact ⟨_, rfl⟩
theorem execFecDegrade_runs {port} (s : State) : ∃ t, execFecDegrade port s = .next t := by
  unfold execFecDegrade; try dsimp only
  repeat' split
  all_goals exact ⟨_, rfl⟩
theorem execPtpCfgWrite_runs {value} (s : State) : ∃ t, execPtpCfgWrite value s = .next t := by
  unfold execPtpCfgWrite
  exact ⟨_, rfl⟩
theorem execPtpFreqWrite_runs {value} (s : State) : ∃ t, execPtpFreqWrite value s = .next t := by
  unfold execPtpFreqWrite; try dsimp only
  repeat' split
  all_goals exact ⟨_, rfl⟩
theorem execPtpSlewWrite_runs {value} (s : State) : ∃ t, execPtpSlewWrite value s = .next t := by
  unfold execPtpSlewWrite; try dsimp only
  repeat' split
  all_goals exact ⟨_, rfl⟩
theorem execPtpStepWrite_runs {value} (s : State) : ∃ t, execPtpStepWrite value s = .next t := by
  unfold execPtpStepWrite; try dsimp only
  repeat' split
  all_goals exact ⟨_, rfl⟩
theorem execServoLockWrite_runs {locked} (s : State) : ∃ t, execServoLockWrite locked s = .next t := by
  unfold execServoLockWrite; try dsimp only
  repeat' split
  all_goals exact ⟨_, rfl⟩
theorem execPtpLossTimeout_runs (s : State) : ∃ t, execPtpLossTimeout s = .next t := by
  unfold execPtpLossTimeout; try dsimp only
  repeat' split
  all_goals exact ⟨_, rfl⟩
theorem execPpsInEdge_runs (s : State) : ∃ t, execPpsInEdge s = .next t := by
  unfold execPpsInEdge; try dsimp only
  repeat' split
  all_goals exact ⟨_, rfl⟩
theorem execPpsStuckTimeout_runs (s : State) : ∃ t, execPpsStuckTimeout s = .next t := by
  unfold execPpsStuckTimeout; try dsimp only
  repeat' split
  all_goals exact ⟨_, rfl⟩
theorem execSyncWindowEnd_runs {edges} (s : State) : ∃ t, execSyncWindowEnd edges s = .next t := by
  unfold execSyncWindowEnd; try dsimp only
  repeat' split
  all_goals exact ⟨_, rfl⟩
theorem execPpsOutPulse_runs (s : State) : ∃ t, execPpsOutPulse s = .next t := by
  unfold execPpsOutPulse; try dsimp only
  repeat' split
  all_goals exact ⟨_, rfl⟩
theorem execPpsOutFall_runs (s : State) : ∃ t, execPpsOutFall s = .next t := by
  unfold execPpsOutFall; try dsimp only
  repeat' split
  all_goals exact ⟨_, rfl⟩
theorem execItpPacketReceive_runs {p} (s : State) : ∃ t, execItpPacketReceive p s = .next t := by
  unfold execItpPacketReceive
  exact ⟨_, rfl⟩
theorem execAck_runs {p} (s : State) : ∃ t, execAck p s = .next t := by
  unfold execAck
  exact ⟨_, rfl⟩
theorem execNak_runs {p} (s : State) : ∃ t, execNak p s = .next t := by
  unfold execNak
  exact ⟨_, rfl⟩
theorem execAckDelayTimeout_runs {k} (s : State) : ∃ t, execAckDelayTimeout k s = .next t := by
  unfold execAckDelayTimeout; try dsimp only
  repeat' split
  all_goals exact ⟨_, rfl⟩
theorem execRetransmitTimeout_runs {k psn} (s : State) : ∃ t, execRetransmitTimeout k psn s = .next t := by
  unfold execRetransmitTimeout; try dsimp only
  repeat' split
  all_goals exact ⟨_, rfl⟩
theorem execMessageTimeout_runs {k msn} (s : State) : ∃ t, execMessageTimeout k msn s = .next t := by
  unfold execMessageTimeout; try dsimp only
  repeat' split
  all_goals exact ⟨_, rfl⟩
theorem execCcPeriodEnd_runs {k} (s : State) : ∃ t, execCcPeriodEnd k s = .next t := by
  unfold execCcPeriodEnd; try dsimp only
  repeat' split
  all_goals exact ⟨_, rfl⟩
theorem execConnOpen_runs {k} (s : State) : ∃ t, execConnOpen k s = .next t := by
  unfold execConnOpen; try dsimp only
  repeat' split
  all_goals exact ⟨_, rfl⟩
theorem execConnClose_runs {k} (s : State) : ∃ t, execConnClose k s = .next t := by
  unfold execConnClose; try dsimp only
  repeat' split
  all_goals exact ⟨_, rfl⟩
theorem execRegionValidate_runs {k} (s : State) : ∃ t, execRegionValidate k s = .next t := by
  unfold execRegionValidate; try dsimp only
  repeat' split
  all_goals exact ⟨_, rfl⟩
theorem execRegionRevoke_runs {k} (s : State) : ∃ t, execRegionRevoke k s = .next t := by
  unfold execRegionRevoke; try dsimp only
  repeat' split
  all_goals exact ⟨_, rfl⟩
theorem execRevokeDone_runs {k} (s : State) : ∃ t, execRevokeDone k s = .next t := by
  unfold execRevokeDone; try dsimp only
  repeat' split
  all_goals exact ⟨_, rfl⟩
theorem execItpSend_runs {p} (s : State) : ∃ t, execItpSend p s = .next t := by
  unfold execItpSend
  exact ⟨_, rfl⟩
theorem execItpWrite_runs {p} (s : State) : ∃ t, execItpWrite p s = .next t := by
  unfold execItpWrite
  exact ⟨_, rfl⟩
theorem execReadReq_runs {p} (s : State) : ∃ t, execReadReq p s = .next t := by
  unfold execReadReq
  exact ⟨_, rfl⟩
theorem execReadResp_runs {p} (s : State) : ∃ t, execReadResp p s = .next t := by
  unfold execReadResp
  exact ⟨_, rfl⟩
theorem execTriggerStart_runs (s : State) : ∃ t, execTriggerStart s = .next t := by
  unfold execTriggerStart; try dsimp only
  repeat' split
  all_goals exact ⟨_, rfl⟩
theorem execWrSend_runs {q} (s : State) : ∃ t, execWrSend q s = .next t := by
  unfold execWrSend
  exact ⟨_, rfl⟩
theorem execWrWrite_runs {q} (s : State) : ∃ t, execWrWrite q s = .next t := by
  unfold execWrWrite
  exact ⟨_, rfl⟩
theorem execWrRead_runs {q} (s : State) : ∃ t, execWrRead q s = .next t := by
  unfold execWrRead
  exact ⟨_, rfl⟩
theorem execWrMsg_runs {q} (s : State) : ∃ t, execWrMsg q s = .next t := by
  unfold execWrMsg
  exact ⟨_, rfl⟩
theorem execAreq_runs {ecc} (s : State) : ∃ t, execAreq ecc s = .next t := by
  unfold execAreq; try dsimp only
  repeat' split
  all_goals exact ⟨_, rfl⟩
theorem execAppend_runs {ecc} (s : State) : ∃ t, execAppend ecc s = .next t := by
  unfold execAppend; try dsimp only
  repeat' split
  all_goals exact ⟨_, rfl⟩
theorem execClone_runs {ecc bad} (s : State) : ∃ t, execClone ecc bad s = .next t := by
  unfold execClone; try dsimp only
  repeat' split
  all_goals exact ⟨_, rfl⟩
theorem execRelease_runs {ecc} (s : State) : ∃ t, execRelease ecc s = .next t := by
  unfold execRelease; try dsimp only
  repeat' split
  all_goals exact ⟨_, rfl⟩
theorem execCancel_runs {ecc} (s : State) : ∃ t, execCancel ecc s = .next t := by
  unfold execCancel; try dsimp only
  repeat' split
  all_goals exact ⟨_, rfl⟩
theorem execMigrate_runs {ecc} (s : State) : ∃ t, execMigrate ecc s = .next t := by
  unfold execMigrate; try dsimp only
  repeat' split
  all_goals exact ⟨_, rfl⟩
theorem execMirrorAdone_runs (s : State) : ∃ t, execMirrorAdone s = .next t := by
  unfold execMirrorAdone; try dsimp only
  repeat' split
  all_goals exact ⟨_, rfl⟩
theorem execMirrorTimeout_runs {slot} (s : State) : ∃ t, execMirrorTimeout slot s = .next t := by
  unfold execMirrorTimeout; try dsimp only
  repeat' split
  all_goals exact ⟨_, rfl⟩
theorem execEgressEnqueue_runs {src} (s : State) : ∃ t, execEgressEnqueue src s = .next t := by
  unfold execEgressEnqueue; try dsimp only
  repeat' split
  all_goals exact ⟨_, rfl⟩
theorem execTransmitDecision_runs {port bad} (s : State) : ∃ t, execTransmitDecision port bad s = .next t := by
  unfold execTransmitDecision; try dsimp only
  repeat' split
  all_goals exact ⟨_, rfl⟩
theorem execFrameTxEnd_runs {port} (s : State) : ∃ t, execFrameTxEnd port s = .next t := by
  unfold execFrameTxEnd; try dsimp only
  repeat' split
  all_goals exact ⟨_, rfl⟩
theorem execGateEdge_runs {port} (s : State) : ∃ t, execGateEdge port s = .next t := by
  unfold execGateEdge; try dsimp only
  repeat' split
  all_goals exact ⟨_, rfl⟩
theorem execTelemetrySample_runs {n} (s : State) : ∃ t, execTelemetrySample n s = .next t := by
  unfold execTelemetrySample; try dsimp only
  repeat' split
  all_goals exact ⟨_, rfl⟩
theorem execHello_runs {p} (s : State) : ∃ t, execHello p s = .next t := by
  unfold execHello
  exact ⟨_, rfl⟩
theorem execHelloProbePeriod_runs (s : State) : ∃ t, execHelloProbePeriod s = .next t := by
  unfold execHelloProbePeriod; try dsimp only
  repeat' split
  all_goals exact ⟨_, rfl⟩
theorem execFabEpochNextWrite_runs {value} (s : State) : ∃ t, execFabEpochNextWrite value s = .next t := by
  unfold execFabEpochNextWrite; try dsimp only
  repeat' split
  all_goals exact ⟨_, rfl⟩
theorem execSnap_runs {slot gen} (s : State) : ∃ t, execSnap slot gen s = .next t := by
  unfold execSnap
  exact ⟨_, rfl⟩
theorem execSync_runs {slot gen} (s : State) : ∃ t, execSync slot gen s = .next t := by
  unfold execSync
  exact ⟨_, rfl⟩
theorem execBreak_runs {slot gen} (s : State) : ∃ t, execBreak slot gen s = .next t := by
  unfold execBreak
  exact ⟨_, rfl⟩
theorem execImport_runs {slot gen} (s : State) : ∃ t, execImport slot gen s = .next t := by
  unfold execImport
  exact ⟨_, rfl⟩
theorem execSnapshotCopyDone_runs {lane} (s : State) : ∃ t, execSnapshotCopyDone lane s = .next t := by
  unfold execSnapshotCopyDone; try dsimp only
  repeat' split
  all_goals exact ⟨_, rfl⟩
theorem execHoldoverServingStop_runs (s : State) : ∃ t, execHoldoverServingStop s = .next t := by
  unfold execHoldoverServingStop; try dsimp only
  repeat' split
  all_goals exact ⟨_, rfl⟩
theorem execGetVersion_runs {h} (s : State) : ∃ t, execGetVersion h s = .next t := by
  unfold execGetVersion
  exact ⟨_, rfl⟩
theorem execGetCapabilities_runs {h} (s : State) : ∃ t, execGetCapabilities h s = .next t := by
  unfold execGetCapabilities
  exact ⟨_, rfl⟩
theorem execNegotiateAlgorithms_runs {h} (s : State) : ∃ t, execNegotiateAlgorithms h s = .next t := by
  unfold execNegotiateAlgorithms
  exact ⟨_, rfl⟩
theorem execGetDigests_runs {h} (s : State) : ∃ t, execGetDigests h s = .next t := by
  unfold execGetDigests
  exact ⟨_, rfl⟩
theorem execGetCertificate_runs {h slot} (s : State) : ∃ t, execGetCertificate h slot s = .next t := by
  unfold execGetCertificate; try dsimp only
  repeat' split
  all_goals exact ⟨_, rfl⟩
theorem execChallenge_runs {h} (s : State) : ∃ t, execChallenge h s = .next t := by
  unfold execChallenge
  exact ⟨_, rfl⟩
theorem execGetMeasurements_runs {h index} (s : State) : ∃ t, execGetMeasurements h index s = .next t := by
  unfold execGetMeasurements; try dsimp only
  repeat' split
  all_goals exact ⟨_, rfl⟩
theorem execKeyExchange_runs {h reqSession authed secret} (s : State) : ∃ t, execKeyExchange h reqSession authed secret s = .next t := by
  unfold execKeyExchange; try dsimp only
  repeat' split
  all_goals exact ⟨_, rfl⟩
theorem execFinish_runs {h id verified digest} (s : State) : ∃ t, execFinish h id verified digest s = .next t := by
  unfold execFinish; try dsimp only
  repeat' split
  all_goals exact ⟨_, rfl⟩
theorem execEndSession_runs {h} (s : State) : ∃ t, execEndSession h s = .next t := by
  unfold execEndSession; try dsimp only
  repeat' split
  all_goals exact ⟨_, rfl⟩
theorem execChunkSend_runs {h} (s : State) : ∃ t, execChunkSend h s = .next t := by
  unfold execChunkSend
  exact ⟨_, rfl⟩
theorem execChunkGet_runs {h} (s : State) : ∃ t, execChunkGet h s = .next t := by
  unfold execChunkGet
  exact ⟨_, rfl⟩
theorem execUnsupportedSpdmRequest_runs {h} (s : State) : ∃ t, execUnsupportedSpdmRequest h s = .next t := by
  unfold execUnsupportedSpdmRequest
  exact ⟨_, rfl⟩
theorem execSessionTimeout_runs {id} (s : State) : ∃ t, execSessionTimeout id s = .next t := by
  unfold execSessionTimeout; try dsimp only
  repeat' split
  all_goals exact ⟨_, rfl⟩
theorem execGetReport_runs {h nonce} (s : State) : ∃ t, execGetReport h nonce s = .next t := by
  unfold execGetReport; try dsimp only
  repeat' split
  all_goals exact ⟨_, rfl⟩
theorem execImportJob_runs {h part job iv wrapped} (s : State) : ∃ t, execImportJob h part job iv wrapped s = .next t := by
  unfold execImportJob; try dsimp only
  repeat' split
  all_goals exact ⟨_, rfl⟩
theorem execDropJob_runs {h slot} (s : State) : ∃ t, execDropJob h slot s = .next t := by
  unfold execDropJob; try dsimp only
  repeat' split
  all_goals exact ⟨_, rfl⟩
theorem execGetChallenge_runs {h} (s : State) : ∃ t, execGetChallenge h s = .next t := by
  unfold execGetChallenge
  exact ⟨_, rfl⟩
theorem execToken_runs {h token} (s : State) : ∃ t, execToken h token s = .next t := by
  unfold execToken
  exact ⟨_, rfl⟩
theorem execInstallNext_runs {conn} (s : State) : ∃ t, execInstallNext conn s = .next t := by
  unfold execInstallNext
  exact ⟨_, rfl⟩
theorem execTxSwitch_runs {conn} (s : State) : ∃ t, execTxSwitch conn s = .next t := by
  unfold execTxSwitch
  exact ⟨_, rfl⟩
theorem execRetireOld_runs {conn} (s : State) : ∃ t, execRetireOld conn s = .next t := by
  unfold execRetireOld
  exact ⟨_, rfl⟩
theorem execRekeyJob_runs {slot} (s : State) : ∃ t, execRekeyJob slot s = .next t := by
  unfold execRekeyJob
  exact ⟨_, rfl⟩
theorem execKeyDerivationDone_runs (s : State) : ∃ t, execKeyDerivationDone s = .next t := by
  unfold execKeyDerivationDone; try dsimp only
  repeat' split
  all_goals exact ⟨_, rfl⟩
theorem execPrtResetStart_runs {part} (s : State) : ∃ t, execPrtResetStart part s = .next t := by
  unfold execPrtResetStart; try dsimp only
  repeat' split
  all_goals exact ⟨_, rfl⟩
theorem execPrtResetCommit_runs {part} (s : State) : ∃ t, execPrtResetCommit part s = .next t := by
  unfold execPrtResetCommit; try dsimp only
  repeat' split
  all_goals exact ⟨_, rfl⟩
theorem execCommitArb_runs (s : State) : ∃ t, execCommitArb s = .next t := by
  unfold execCommitArb; try dsimp only
  repeat' split
  all_goals exact ⟨_, rfl⟩
theorem execSelectSlot_runs (s : State) : ∃ t, execSelectSlot s = .next t := by
  unfold execSelectSlot
  exact ⟨_, rfl⟩
theorem execRelock_runs (s : State) : ∃ t, execRelock s = .next t := by
  unfold execRelock
  exact ⟨_, rfl⟩
theorem execNewchal_runs (s : State) : ∃ t, execNewchal s = .next t := by
  unfold execNewchal; try dsimp only
  repeat' split
  all_goals exact ⟨_, rfl⟩
theorem execReport_runs (s : State) : ∃ t, execReport s = .next t := by
  unfold execReport; try dsimp only
  repeat' split
  all_goals exact ⟨_, rfl⟩
theorem execAttToken_runs (s : State) : ∃ t, execAttToken s = .next t := by
  unfold execAttToken; try dsimp only
  repeat' split
  all_goals exact ⟨_, rfl⟩
theorem execReportSigned_runs (s : State) : ∃ t, execReportSigned s = .next t := by
  unfold execReportSigned; try dsimp only
  repeat' split
  all_goals exact ⟨_, rfl⟩
theorem execDebugUnlock_runs (s : State) : ∃ t, execDebugUnlock s = .next t := by
  unfold execDebugUnlock
  exact ⟨_, rfl⟩
theorem execDeploy_runs (s : State) : ∃ t, execDeploy s = .next t := by
  unfold execDeploy
  exact ⟨_, rfl⟩
theorem execEnterRma_runs (s : State) : ∃ t, execEnterRma s = .next t := by
  unfold execEnterRma
  exact ⟨_, rfl⟩
theorem execScrap_runs (s : State) : ∃ t, execScrap s = .next t := by
  unfold execScrap
  exact ⟨_, rfl⟩
theorem execProvision_runs (s : State) : ∃ t, execProvision s = .next t := by
  unfold execProvision
  exact ⟨_, rfl⟩
theorem execPatrolWord_runs {read} (s : State) : ∃ t, execPatrolWord read s = .next t := by
  unfold execPatrolWord; try dsimp only
  repeat' split
  all_goals exact ⟨_, rfl⟩
theorem execPoisonAdd_runs {frame} (s : State) : ∃ t, execPoisonAdd frame s = .next t := by
  unfold execPoisonAdd; try dsimp only
  repeat' split
  all_goals exact ⟨_, rfl⟩
theorem execPoisonDel_runs {frame} (s : State) : ∃ t, execPoisonDel frame s = .next t := by
  unfold execPoisonDel
  exact ⟨_, rfl⟩
theorem execPortBWatchdogBite_runs {slice} (s : State) : ∃ t, execPortBWatchdogBite slice s = .next t := by
  unfold execPortBWatchdogBite; try dsimp only
  repeat' split
  all_goals exact ⟨_, rfl⟩
theorem execLbistArm_runs {tile} (s : State) : ∃ t, execLbistArm tile s = .next t := by
  unfold execLbistArm; try dsimp only
  repeat' split
  all_goals exact ⟨_, rfl⟩
theorem execLbistAbort_runs (s : State) : ∃ t, execLbistAbort s = .next t := by
  unfold execLbistAbort; try dsimp only
  repeat' split
  all_goals exact ⟨_, rfl⟩
theorem execLbistSliceEnd_runs {misr} (s : State) : ∃ t, execLbistSliceEnd misr s = .next t := by
  unfold execLbistSliceEnd; try dsimp only
  repeat' split
  all_goals exact ⟨_, rfl⟩
theorem execMbistRun_runs {kind} (s : State) : ∃ t, execMbistRun kind s = .next t := by
  unfold execMbistRun
  exact ⟨_, rfl⟩
theorem execSoftRepair_runs {kind} (s : State) : ∃ t, execSoftRepair kind s = .next t := by
  unfold execSoftRepair
  exact ⟨_, rfl⟩
theorem execFuseRepair_runs {kind} (s : State) : ∃ t, execFuseRepair kind s = .next t := by
  unfold execFuseRepair
  exact ⟨_, rfl⟩
theorem execMbistDone_runs {fails worst exhausted} (s : State) : ∃ t, execMbistDone fails worst exhausted s = .next t := by
  unfold execMbistDone; try dsimp only
  repeat' split
  all_goals exact ⟨_, rfl⟩
theorem execPinsQualified_runs (s : State) : ∃ t, execPinsQualified s = .next t := by
  unfold execPinsQualified; try dsimp only
  repeat' split
  all_goals exact ⟨_, rfl⟩
theorem execSysBootWrite_runs {step status serving} (s : State) : ∃ t, execSysBootWrite step status serving s = .next t := by
  unfold execSysBootWrite; try dsimp only
  repeat' split
  all_goals exact ⟨_, rfl⟩
theorem execPwrokFall_runs (s : State) : ∃ t, execPwrokFall s = .next t := by
  unfold execPwrokFall
  exact ⟨_, rfl⟩
theorem execResetNFall_runs (s : State) : ∃ t, execResetNFall s = .next t := by
  unfold execResetNFall; try dsimp only
  repeat' split
  all_goals exact ⟨_, rfl⟩
theorem execSysReset_runs {value} (s : State) : ∃ t, execSysReset value s = .next t := by
  unfold execSysReset; try dsimp only
  repeat' split
  all_goals exact ⟨_, rfl⟩
theorem execDeviceReset_runs {cause} (s : State) : ∃ t, execDeviceReset cause s = .next t := by
  unfold execDeviceReset; try dsimp only
  repeat' split
  all_goals exact ⟨_, rfl⟩
theorem execSysWdogKick_runs {value} (s : State) : ∃ t, execSysWdogKick value s = .next t := by
  unfold execSysWdogKick; try dsimp only
  repeat' split
  all_goals exact ⟨_, rfl⟩
theorem execMcxWatchdogBite_runs (s : State) : ∃ t, execMcxWatchdogBite s = .next t := by
  unfold execMcxWatchdogBite; try dsimp only
  repeat' split
  all_goals exact ⟨_, rfl⟩
theorem execPeek_runs {line addr n bad} (s : State) : ∃ t, execPeek line addr n bad s = .next t := by
  unfold execPeek; try dsimp only
  repeat' split
  all_goals exact ⟨_, rfl⟩
theorem execPoke_runs {line addr value} (s : State) : ∃ t, execPoke line addr value s = .next t := by
  unfold execPoke; try dsimp only
  repeat' split
  all_goals exact ⟨_, rfl⟩
theorem execDump_runs {line addr bytes bad} (s : State) : ∃ t, execDump line addr bytes bad s = .next t := by
  unfold execDump; try dsimp only
  repeat' split
  all_goals exact ⟨_, rfl⟩
theorem execFill_runs {line addr bytes value} (s : State) : ∃ t, execFill line addr bytes value s = .next t := by
  unfold execFill; try dsimp only
  repeat' split
  all_goals exact ⟨_, rfl⟩
theorem execLoad_runs {line addr bytes data crc} (s : State) : ∃ t, execLoad line addr bytes data crc s = .next t := by
  unfold execLoad; try dsimp only
  repeat' split
  all_goals exact ⟨_, rfl⟩
theorem execEvents_runs {line n} (s : State) : ∃ t, execEvents line n s = .next t := by
  unfold execEvents; try dsimp only
  repeat' split
  all_goals exact ⟨_, rfl⟩
theorem execTiles_runs {line} (s : State) : ∃ t, execTiles line s = .next t := by
  unfold execTiles; try dsimp only
  repeat' split
  all_goals exact ⟨_, rfl⟩
theorem execLifecycle_runs {line} (s : State) : ∃ t, execLifecycle line s = .next t := by
  unfold execLifecycle
  exact ⟨_, rfl⟩
theorem execAttest_runs {line nonce} (s : State) : ∃ t, execAttest line nonce s = .next t := by
  unfold execAttest; try dsimp only
  repeat' split
  all_goals exact ⟨_, rfl⟩
theorem execUartBreak_runs {us} (s : State) : ∃ t, execUartBreak us s = .next t := by
  unfold execUartBreak; try dsimp only
  repeat' split
  all_goals exact ⟨_, rfl⟩
theorem execRefclkLoss_runs {ref khz} (s : State) : ∃ t, execRefclkLoss ref khz s = .next t := by
  unfold execRefclkLoss; try dsimp only
  repeat' split
  all_goals exact ⟨_, rfl⟩
theorem execPllUnlock_runs {pll} (s : State) : ∃ t, execPllUnlock pll s = .next t := by
  unfold execPllUnlock
  exact ⟨_, rfl⟩
theorem execAllowanceSample_runs (s : State) : ∃ t, execAllowanceSample s = .next t := by
  unfold execAllowanceSample; try dsimp only
  repeat' split
  all_goals exact ⟨_, rfl⟩
theorem execSensorSample_runs {readings} (s : State) : ∃ t, execSensorSample readings s = .next t := by
  unfold execSensorSample; try dsimp only
  repeat' split
  all_goals exact ⟨_, rfl⟩
theorem execThermtripReset_runs (s : State) : ∃ t, execThermtripReset s = .next t := by
  unfold execThermtripReset; try dsimp only
  repeat' split
  all_goals exact ⟨_, rfl⟩
theorem execRailMonitorSample_runs {mv} (s : State) : ∃ t, execRailMonitorSample mv s = .next t := by
  unfold execRailMonitorSample; try dsimp only
  repeat' split
  all_goals exact ⟨_, rfl⟩
theorem execAvsStep_runs {ok} (s : State) : ∃ t, execAvsStep ok s = .next t := by
  unfold execAvsStep; try dsimp only
  repeat' split
  all_goals exact ⟨_, rfl⟩
theorem execAvsPoll_runs {ok status iout} (s : State) : ∃ t, execAvsPoll ok status iout s = .next t := by
  unfold execAvsPoll; try dsimp only
  repeat' split
  all_goals exact ⟨_, rfl⟩
theorem execPmbAlert_runs {status} (s : State) : ∃ t, execPmbAlert status s = .next t := by
  unfold execPmbAlert
  exact ⟨_, rfl⟩
theorem execFaultNAsserted_runs (s : State) : ∃ t, execFaultNAsserted s = .next t := by
  unfold execFaultNAsserted; try dsimp only
  repeat' split
  all_goals exact ⟨_, rfl⟩
theorem execFaultnClear_runs (s : State) : ∃ t, execFaultnClear s = .next t := by
  unfold execFaultnClear; try dsimp only
  repeat' split
  all_goals exact ⟨_, rfl⟩
theorem execMigrateCopyDone_runs {slot bad} (s : State) : ∃ t, execMigrateCopyDone slot bad s = .next t := by
  unfold execMigrateCopyDone; try dsimp only
  repeat' split
  all_goals exact ⟨_, rfl⟩
theorem execSlewComplete_runs (s : State) : ∃ t, execSlewComplete s = .next t := by
  unfold execSlewComplete; try dsimp only
  repeat' split
  all_goals exact ⟨_, rfl⟩
theorem execFaultNReleased_runs (s : State) : ∃ t, execFaultNReleased s = .next t := by
  unfold execFaultNReleased; try dsimp only
  repeat' split
  all_goals exact ⟨_, rfl⟩
theorem execRefclkReturn_runs {ref khz} (s : State) : ∃ t, execRefclkReturn ref khz s = .next t := by
  unfold execRefclkReturn
  exact ⟨_, rfl⟩
theorem execPllLock_runs {pll} (s : State) : ∃ t, execPllLock pll s = .next t := by
  unfold execPllLock
  exact ⟨_, rfl⟩
theorem execUartRxResume_runs (s : State) : ∃ t, execUartRxResume s = .next t := by
  unfold execUartRxResume
  exact ⟨_, rfl⟩
theorem execPortBGrant_runs {slice} (s : State) : ∃ t, execPortBGrant slice s = .next t := by
  unfold execPortBGrant; try dsimp only
  repeat' split
  all_goals exact ⟨_, rfl⟩

end Sys2Proof.Machine
end

