-- ==== Sys2Proof/Tests/Slice0.lean ====
section
/-!
SUPPORT. Tests: an ill-formed command for each check of WellFormed, the spec's worked examples, and, for each statement of
Certificates/Slice0/Obligations.lean that has hypotheses, states and operands that meet them, with the values at which its clauses meet. Where a
hypothesis is the answer of an opaque function (whether a signature verifies), the statement has a clause for either answer, and no witness
can fix it.
-/

namespace Sys2Proof.Tests

/-! One declaration after another: the kernel's evaluations below would else each wait in a thread of its own. -/
set_option Elab.async false

open Sys2Proof Sys2Proof.Machine

/-! ### Ill-formed commands: one for each check, which the check refuses -/

/-- A well-formed management header of opcode `op`, and a well-formed packet. -/
def okHead (op : Nat) : MgtHead := ⟨0, 0, [0, op, 0, 0, 0, 0, 0, 0, 0, 0, 0, 0, 0, 0, 0, 0], true⟩
def okPacket : Packet := ⟨0, true, false, false, 0, []⟩

theorem test_wf_head : (okHead 1).wf 1 = true ∧ ∀ h ∈ [{ okHead 1 with port := 66 }, { okHead 1 with hdr := [0, 1] }, { okHead 1 with hdr := 256 :: (okHead 1).hdr.tail }, okHead 2],
    h.wf 1 = false := by decide +kernel

theorem test_wf_flit : flit (List.replicate 72 0) = true ∧ flit (List.replicate 71 0) = false ∧ flit (256 :: List.replicate 71 0) = false := by decide +kernel

theorem test_wf_1 : ∀ i ∈ ([
    .registerWrite 4 0 0 32, .registerWrite 0 (2 ^ 26) 0 32, .registerWrite 0 0 (2 ^ 32) 32, .registerWrite 0 0 0 24, .wideRegisterAccess 4 0 false 0,
    .wideRegisterAccess 0 (2 ^ 26) false 0, .wideRegisterAccess 0 0 false (2 ^ 32), .counterReadClear 4 0, .counterReadClear 0 (2 ^ 26),
    .viewAccess 4 0 0 false 0 false, .viewAccess 0 3 0 false 0 false, .viewAccess 0 0 (2 ^ 24) false 0 false, .viewAccess 0 0 0 false (2 ^ 32) false,
    .blkLockWrite (2 ^ 14) 0, .blkLockWrite 0 (2 ^ 32), .blkEvtClear (2 ^ 14) 0, .blkEvtClear 0 (2 ^ 32), .blkFltClear (2 ^ 14) 0, .blkFltClear 0 (2 ^ 32),
    .dpwDataAccess 4 false 0 false, .dpwDataAccess 0 false (2 ^ 32) false, .dpwHeldComplete 6 false, .regRead (okHead 2) [], .regRead (okHead 1) [256],
    .regWrite (okHead 3) [], .regWrite (okHead 2) [256], .burstRead (okHead 4) [] [] none, .burstRead (okHead 3) [256] [] none, .burstRead (okHead 3) [] [256] none, .burstWrite (okHead 5) [] [],
    .burstWrite (okHead 4) [256] [], .burstWrite (okHead 4) [] [256], .tplTickLenWrite (2 ^ 32), .carryRemoval (2 ^ 20), .ctxForceClearStarved (2 ^ 18) 0, .ctxForceClearStarved 0 (2 ^ 8),
    .ctxForceLost (2 ^ 18) 0, .ctxForceLost 0 (2 ^ 8), .ctxForceRelease (2 ^ 18) 0, .ctxForceRelease 0 (2 ^ 8), .cowCopyDone (2 ^ 18) 0 false,
    .scrubDone (2 ^ 25) false] : List Instr), i.wf = false := by decide +kernel

theorem test_wf_2 : ∀ i ∈ ([
    .labInvalidateSlot (2 ^ 18), .frmGrantToPartition (2 ^ 6) 0 0, .frmGrantToPartition 0 2 0, .frmGrantToPartition 0 0 (2 ^ 24),
    .frmGrantToPool (2 ^ 6) 0 0, .frmGrantToPool 0 2 0, .frmGrantToPool 0 0 (2 ^ 24), .frmDevresTake (2 ^ 25), .frmDevresRelease (2 ^ 25),
    .migrationCopyDone (2 ^ 25) false, .offPackageConfirm (2 ^ 25), .fetchReadDone (2 ^ 25) false, .pciLinkUp 2 0 0 0, .pciLinkUp 0 4 0 0,
    .pciLinkUp 0 0 8 0, .pciLinkUp 0 0 0 32, .pciLinkDown 2 0 false, .pciLinkDown 0 4 false, .driveCommandComplete 0 false ⟨[256], 0⟩, .segOpen 8 0 0 0 0 0 0,
    .segOpen 0 32 0 0 0 0 0, .segOpen 0 0 8 0 0 0 0, .segOpen 0 0 0 (2 ^ 5) 0 0 0, .segOpen 0 0 0 0 4 0 0, .segOpen 0 0 0 0 0 (2 ^ 5) 0,
    .segOpen 0 0 0 0 0 0 2, .sigma 8 0, .sigma 0 (2 ^ 32), .limit 8 0, .limit 0 (2 ^ 25), .window 8 0 0, .window 0 (2 ^ 25) 0, .window 0 0 (2 ^ 25),
    .row 8 0 0 0, .row 0 64 0 0, .row 0 0 8 0, .row 0 0 0 (2 ^ 24), .segmentPage 8 0 0 0 false, .segmentPage 0 (2 ^ 16) 0 0 false,
    .segmentPage 0 0 (2 ^ 10) 0 false] : List Instr), i.wf = false := by decide +kernel

theorem test_wf_3 : ∀ i ∈ ([
    .segmentPage 0 0 0 (2 ^ 24) false, .segClose 8, .wait 8 0, .wait 0 (2 ^ 16), .mark 8 0, .mark 0 (2 ^ 32), .dest 8 0 0, .dest 0 128 0,
    .dest 0 0 (2 ^ 20), .segmentComplete 8 0 ⟨none, 0⟩, .segmentComplete 0 32 ⟨none, 0⟩, .channelModeChange 8 0, .channelModeChange 0 32,
    .crownQueueServe 8 0 false 0, .crownQueueServe 0 32 false 0, .crownQueueServe 0 0 false (2 ^ 48), .refreshSlot 8 0, .refreshSlot 0 4,
    .tempFlagChange 8 0 false, .tempFlagChange 0 32 false, .bookedIntervalGrant ⟨8, 0⟩ ⟨0, 0⟩, .bookedIntervalGrant ⟨0, 32⟩ ⟨0, 0⟩, .arbiterGrant ⟨8, 0⟩ ⟨0, 0⟩,
    .arbiterGrant ⟨0, 32⟩ ⟨0, 0⟩, .fenWatchdogBite 8 0, .fenWatchdogBite 0 32, .fenceClear 8 0 0, .fenceClear 0 32 0, .fenceClear 0 0 (2 ^ 32),
    .fenTrainingDone 8 false, .dbrRawArm 8 0, .dbrRawArm 0 (2 ^ 12), .rawProgramStart 8, .rawProgramDone 8 [] ⟨0, 0⟩, .rawProgramDone 0 [] ⟨2 ^ 48, 0⟩,
    .trwStart 4 0, .trwStart 0 8, .trwAbort 4 0, .trwAbort 0 8, .descriptorFetch 4 0 false] : List Instr), i.wf = false := by decide +kernel

theorem test_wf_4 : ∀ i ∈ ([
    .descriptorFetch 0 8 false, .trwBurstReadDone 4 ⟨0, 0⟩ false, .trwBurstReadDone 0 ⟨8, 0⟩ false, .trwBurstReadDone 0 ⟨0, 2⟩ false, .trwBurstWriteDone 4 ⟨0, 0⟩,
    .trwBurstWriteDone 0 ⟨8, 0⟩, .trwBurstWriteDone 0 ⟨0, 2⟩, .feedRecord 8, .trwPblockWrite 4 0, .trwPblockWrite 0 (2 ^ 64), .rdlLookup 4 0 0 0 none,
    .rdlLookup 0 (2 ^ 7) 0 0 none, .rdlLookup 0 0 (2 ^ 1) 0 none, .rdlLookup 0 0 0 (2 ^ 6) none, .rdlLookupResult 5, .rdlInsert 4 0 0 0,
    .rdlInsert 0 (2 ^ 7) 0 0, .rdlInsert 0 0 (2 ^ 1) 0, .rdlInsert 0 0 0 (2 ^ 6), .rdlDelete 4 0 0 0, .rdlDelete 0 (2 ^ 7) 0 0, .rdlDelete 0 0 (2 ^ 1) 0,
    .rdlDelete 0 0 0 (2 ^ 6), .tilStart 128, .tilStop 128, .measureDone 128, .add 512, .sub 512, .and 512, .or 512, .xor 512, .shl 512, .shr 512, .mul 512,
    .addi 512, .li 512, .ld 512 false, .lw 512 false, .st 512, .sw 512] : List Instr), i.wf = false := by decide +kernel

theorem test_wf_5 : ∀ i ∈ ([
    .vld 512 false, .vst 512, .beq 512, .bne 512, .blt 512, .jal 512, .jr 512, .waitcc 512, .waitRelease 128, .halt 512, .vadd 512, .vmul 512, .vfma 512,
    .vmax 512, .vexp2 512, .vbcast 512, .vcvt 512, .mmac 512, .expand 512, .quant 512, .rot 512, .sketch 512, .score 512, .merge 512, .bound 512,
    .page 512, .blockOpComplete 128 0 0, .blockOpComplete 0 0 3, .send 512, .recv 512, .poll 512, .modeq 512, .fenrd 512, .fenwr 512,
    .fenAccessComplete 128 0 false, .handoff 512, .csrr 512, .csrw 512, .fence 512, .bcopy 512] : List Instr), i.wf = false := by decide +kernel

theorem test_wf_6 : ∀ i ∈ ([
    .messageEject 128 ⟨0, none⟩, .messageEject 0 ⟨0, some [0]⟩, .ejectionTimeout 128, .vc0DirectWrite 256 0 0 [] none, .vc0DirectWrite 0 256 0 [] none,
    .vc0DirectWrite 0 0 (2 ^ 48) [] none, .vc0DirectWrite 0 0 0 [256] none, .vc0DirectWrite 0 0 0 [] (some [0]), .routerWatchdogBite 128,
    .frameReceive 64 false ⟨[], 0, 0⟩, .frameReceive 0 false ⟨[256], 0, 0⟩, .txRingWrite 3 0, .txRingWrite 0 (2 ^ 32), .controlTxDone 3,
    .mgtFrameReceive 2 false [], .mgtFrameReceive 0 false [256], .linkChange 66 false, .fecDegrade 64, .ptpCfgWrite (2 ^ 32), .ptpFreqWrite (2 ^ 32),
    .ptpSlewWrite (2 ^ 32), .ptpStepWrite (2 ^ 32), .itpPacketReceive { okPacket with bytes := [256] }, .itpPacketReceive { okPacket with port := 64 },
    .itpPacketReceive { okPacket with src := 2 ^ 128 }, .ack { okPacket with bytes := [256] }, .ack { okPacket with port := 64 },
    .ack { okPacket with src := 2 ^ 128 }, .nak { okPacket with bytes := [256] }, .nak { okPacket with port := 64 }, .nak { okPacket with src := 2 ^ 128 },
    .ackDelayTimeout 4096, .retransmitTimeout 4096 0, .retransmitTimeout 0 (2 ^ 32), .messageTimeout 4096 0, .messageTimeout 0 (2 ^ 32), .ccPeriodEnd 4096,
    .connOpen 4096, .connClose 4096, .regionValidate (2 ^ 20)] : List Instr), i.wf = false := by decide +kernel

theorem test_wf_7 : ∀ i ∈ ([
    .regionRevoke (2 ^ 20), .revokeDone (2 ^ 20), .itpSend { okPacket with bytes := [256] }, .itpSend { okPacket with port := 64 },
    .itpSend { okPacket with src := 2 ^ 128 }, .itpWrite { okPacket with bytes := [256] }, .itpWrite { okPacket with port := 64 },
    .itpWrite { okPacket with src := 2 ^ 128 }, .readReq { okPacket with bytes := [256] }, .readReq { okPacket with port := 64 },
    .readReq { okPacket with src := 2 ^ 128 }, .readResp { okPacket with bytes := [256] }, .readResp { okPacket with port := 64 },
    .readResp { okPacket with src := 2 ^ 128 }, .areq 3, .append 3, .clone 3 none, .release 3, .cancel 3, .migrate 3, .mirrorTimeout (2 ^ 20),
    .egressEnqueue 4097, .transmitDecision 64 false, .frameTxEnd 64, .gateEdge 64, .telemetrySample 8, .hello { okPacket with bytes := [256] },
    .hello { okPacket with port := 64 }, .hello { okPacket with src := 2 ^ 128 }, .fabEpochNextWrite (2 ^ 32), .snap (2 ^ 18) 0, .snap 0 (2 ^ 8),
    .sync (2 ^ 18) 0, .sync 0 (2 ^ 8), .breakMsg (2 ^ 18) 0, .breakMsg 0 (2 ^ 8), .importMsg (2 ^ 18) 0, .importMsg 0 (2 ^ 8), .getVersion (okHead 1),
    .getCapabilities (okHead 1)] : List Instr), i.wf = false := by decide +kernel

theorem test_wf_8 : ∀ i ∈ ([
    .negotiateAlgorithms (okHead 1), .getDigests (okHead 1), .getCertificate (okHead 1) 0, .getCertificate (okHead 5) (2 ^ 8), .challenge (okHead 1),
    .getMeasurements (okHead 1) 0, .getMeasurements (okHead 5) (2 ^ 8), .keyExchange (okHead 1) 0 false [], .keyExchange (okHead 5) (2 ^ 16) false [],
    .keyExchange (okHead 5) 0 false [256], .finish (okHead 1) 0 false 0, .finish (okHead 5) (2 ^ 32) false 0, .finish (okHead 5) 0 false (2 ^ 384),
    .endSession (okHead 1), .chunkSend (okHead 1), .chunkGet (okHead 1), .unsupportedSpdmRequest (okHead 1), .sessionTimeout (2 ^ 32),
    .getReport (okHead 1) (List.replicate 32 0), .getReport (okHead 5) (List.replicate 31 0), .getReport (okHead 5) (256 :: List.replicate 31 0),
    .importJob (okHead 1) 0 0 (List.replicate 12 0) [], .importJob (okHead 5) (2 ^ 6) 0 (List.replicate 12 0) [],
    .importJob (okHead 5) 0 (2 ^ 32) (List.replicate 12 0) [], .importJob (okHead 5) 0 0 (List.replicate 11 0) [],
    .importJob (okHead 5) 0 0 (256 :: List.replicate 11 0) [], .importJob (okHead 5) 0 0 (List.replicate 12 0) [256], .dropJob (okHead 1) 0,
    .dropJob (okHead 5) (2 ^ 16), .getChallenge (okHead 1), .token (okHead 1) [], .token (okHead 5) [256], .installNext 4096, .txSwitch 4096,
    .retireOld 4096, .rekeyJob (2 ^ 16), .prtResetStart (2 ^ 6), .prtResetCommit (2 ^ 6), .patrolWord ⟨3, 0, 0, 0⟩, .poisonAdd (2 ^ 32)] : List Instr), i.wf = false := by decide +kernel

theorem test_wf_9 : ∀ i ∈ ([
    .poisonDel (2 ^ 32), .portBWatchdogBite 128, .lbistArm 128, .lbistSliceEnd (2 ^ 128), .mbistRun (2 ^ 4), .softRepair (2 ^ 4), .fuseRepair (2 ^ 4),
    .mbistDone [⟨2 ^ 64, 0, 0, 0⟩] none false, .mbistDone [⟨0, 2 ^ 16, 0, 0⟩] none false, .mbistDone [⟨0, 0, 256, 0⟩] none false,
    .mbistDone [⟨0, 0, 0, 256⟩] none false, .sysBootWrite (2 ^ 4) 0 false, .sysBootWrite 0 (2 ^ 8) false, .sysReset (2 ^ 32), .deviceReset (2 ^ 5),
    .sysWdogKick (2 ^ 32), .peek .clean (2 ^ 64) 0 none, .poke .clean (2 ^ 64) 0, .poke .clean 0 (2 ^ 32), .dump .clean (2 ^ 64) 0 none,
    .dump .clean 0 (2 ^ 32) none, .fill .clean (2 ^ 64) 0 0, .fill .clean 0 (2 ^ 32) 0, .fill .clean 0 0 (2 ^ 32), .load .clean (2 ^ 64) 0 [] 0,
    .load .clean 0 (2 ^ 32) [] 0, .load .clean 0 0 [256] 0, .load .clean 0 0 [] (2 ^ 32), .attest .clean [256], .refclkLoss 3 0, .refclkLoss 0 (2 ^ 20),
    .pllUnlock 4, .sensorSample (List.replicate 27 0), .sensorSample ((2 ^ 12) :: List.replicate 27 0), .railMonitorSample (List.replicate 20 0),
    .railMonitorSample ((2 ^ 16) :: List.replicate 20 0), .avsPoll false (2 ^ 16) 0, .avsPoll false 0 (2 ^ 16), .pmbAlert (2 ^ 16),
    .migrateCopyDone (2 ^ 20) false] : List Instr), i.wf = false := by decide +kernel

theorem test_wf_10 : ∀ i ∈ ([
    .refclkReturn 3 0, .refclkReturn 0 (2 ^ 20), .pllLock 4, .portBGrant 128] : List Instr), i.wf = false := by decide +kernel

/-! ### Small states -/

/-- The reset state with the tick counter running. -/
def running : State := { State.reset with time := { State.reset.time with running := true } }

/-- A state with some registers set. -/
def regsIn (s : State) (l : List (Nat × Nat)) : State := l.foldl (fun s x => s.setRg x.1 x.2) s

/-- An outcome's next state, or the reset state. -/
def after (o : Host.Outcome State Fault Refusal) : State := match o with
  | .next t => t
  | _ => State.reset

/-! ### The spec's worked examples -/

/-- spec/00: the handle 0x1C8A_3F07 names slot 147,207, generation 34, partition 7. -/
theorem test_handle : hSlot 0x1C8A3F07 = 147207 ∧ hGen 0x1C8A3F07 = 34 ∧ hPart 0x1C8A3F07 = 7 ∧ toLE 4 0x1C8A3F07 = [0x07, 0x3F, 0x8A, 0x1C] := by decide

/-- spec/04: S4 with d = 128 takes 272 bytes a token for kvh 2 and a page of 224 tokens; kvh 1 a page of 448. -/
theorem test_pages : bytesPerToken 4 128 2 = 272 ∧ pageLen 4 128 2 = 224 ∧ pageLen 4 128 1 = 448 := by decide

/-- spec/05: the S4 key group of dimensions 0 to 31: its scale byte, codes and two clamped elements. -/
theorem test_s4_group : quantGroup fmtE2M1 ([0x3ECCCCCD, 0xBFA00000, 0x40666666, 0xBD4CCCCD, 0x3EC00000, 0x40200000, 0xC039999A, 0x3F8CCCCD, 0x3F666666, 0xBF19999A, 0x3E000000, 0xBFD9999A, 0x3E4CCCCD, 0x3FCCCCCD, 0xBE99999A, 0x40066666,
    0xBF4CCCCD, 0x3F0CCCCD, 0xC0466666, 0x3F800000, 0x00000000, 0xBFB33333, 0x3F333333, 0xBE19999A, 0x3FF33333, 0xBF733333, 0x3EE66666, 0xC00CCCCD, 0x3D4CCCCD, 0x3FA66666, 0xBF000000, 0x3F59999A] : List F32)
    = (0x7E, [0x2, 0xC, 0x7, 0x0, 0x2, 0x6, 0xF, 0x4, 0x4, 0xA, 0x0, 0xD, 0x1, 0x5, 0x9, 0x6, 0xB, 0x2, 0xF, 0x4, 0x0, 0xD, 0x3, 0x9, 0x6, 0xC, 0x2, 0xE, 0x0, 0x5, 0xA, 0x3], 2) := by decide +kernel

/-- spec/05: seed 1 gives sign word 0x4082_2041. -/
theorem test_signs : signWords 1 1#64 = [0x40822041#64] := by decide +kernel

/-- spec/05: in a block whose largest magnitude is 37.8, k = 8, the exponent byte is 0x84, 37.8 is 76 steps and −0.3 is −1. -/
theorem test_wire_block : wireBlock 8 ([0x42173333, 0xBE99999A] : List F32) = [0x84, 76, 0xFF] := by decide +kernel

/-- spec/06: exp2(−1) is 0.5. -/
theorem test_exp2 : exp2Lane 0xBF800000#32 = 0x3F000000#32 := by decide +kernel

/-- spec/08: row set 0x1A2B of pseudo-channel 5 of stack 2 is frame 0x0046_1A2B at 0x0145_1A2B_0000. -/
theorem test_location : 65536 + 4528683 = 0x00461A2B ∧ locAddr 0x00461A2B = 0x01451A2B0000 ∧ addrStack 0x01451A2B0000 = 2 ∧ addrPc 0x01451A2B0000 = 5 := by decide

/-- spec/10: swap 2 writes 44 33 22 11 as 11 22 33 44. -/
theorem test_swap : swapBytes 2 [0x44, 0x33, 0x22, 0x11] = [0x11, 0x22, 0x33, 0x44] := by decide

/-- spec/15: on a port of 800 Gb/s a frame of 9,216 bytes takes 148 cc, one of 1,514 takes 25, one of 4,374 takes 71. -/
theorem test_wire_time : (∀ s : State, s.ethModeOf 1 = 1 → wireTime s 8 9216 = 148 ∧ wireTime s 8 1514 = 25 ∧ wireTime s 8 4374 = 71) := by
  intro s h; simp [wireTime, ceilDiv, h]

/-- spec/17: the key information of the example connection. -/
theorem test_key_info : keyInfo 0x3A11 0x0107 (0x2A7 + 5 * 4096) 0x2C01 (0x015 + 9 * 4096) 7
    = [0x00, 0x00, 0x3A, 0x11, 0x01, 0x07, 0x00, 0x00, 0x52, 0xA7, 0x2C, 0x01, 0x00, 0x00, 0x90, 0x15, 0x00, 0x07] := by decide +kernel

/-- spec/18: a slice of 1,024 patterns lasts 533,504 cc. -/
theorem test_slice : lbLength (State.reset.setRg Reg.BST_LB_PATTERNS 1024) = 533504 := by decide +kernel

/-- spec/20: at 99.5 °C with a soft limit of 95 °C the allowance is 96,800 µJ. -/
theorem test_allowance : allowance (regsIn State.reset [(Reg.PWR_TSOFT, 760), (Reg.PWR_MAX_UJ, 176000), (Reg.PWR_MIN_UJ, 17600), (Reg.PWR_TEMP, 796)]) = 96800 := by decide +kernel

/-- spec/05: the check value of the CRC. -/
theorem test_crc : crc32c [0x31, 0x32, 0x33, 0x34, 0x35, 0x36, 0x37, 0x38, 0x39] = 0xE3069283 := by decide +kernel

/-- The check value of the CRC-16 of R505. -/
theorem test_crc16 : crc16 [0x31, 0x32, 0x33, 0x34, 0x35, 0x36, 0x37, 0x38, 0x39] = 0x29B1 := by decide +kernel

/-- FIPS 180-4's digest of "abc", and case 2 of RFC 4231. -/
theorem test_sha384 : sha384Bytes [0x61, 0x62, 0x63] =
      [0xCB, 0x00, 0x75, 0x3F, 0x45, 0xA3, 0x5E, 0x8B, 0xB5, 0xA0, 0x3D, 0x69, 0x9A, 0xC6, 0x50, 0x07, 0x27, 0x2C, 0x32, 0xAB, 0x0E, 0xDE, 0xD1, 0x63] ++
      [0x1A, 0x8B, 0x60, 0x5A, 0x43, 0xFF, 0x5B, 0xED, 0x80, 0x86, 0x07, 0x2B, 0xA1, 0xE7, 0xCC, 0x23, 0x58, 0xBA, 0xEC, 0xA1, 0x34, 0xC8, 0x25, 0xA7]
    ∧ hmac384 [0x4A, 0x65, 0x66, 0x65] [0x77, 0x68, 0x61, 0x74, 0x20, 0x64, 0x6F, 0x20, 0x79, 0x61, 0x20, 0x77, 0x61, 0x6E, 0x74, 0x20, 0x66, 0x6F, 0x72, 0x20, 0x6E, 0x6F, 0x74, 0x68, 0x69, 0x6E, 0x67, 0x3F] =
      [0xAF, 0x45, 0xD2, 0xE3, 0x76, 0x48, 0x40, 0x31, 0x61, 0x7F, 0x78, 0xD2, 0xB5, 0x8A, 0x6B, 0x1B, 0x9C, 0x7E, 0xF4, 0x64, 0xF5, 0xA0, 0x1B, 0x47] ++
      [0xE4, 0x2E, 0xC3, 0x73, 0x63, 0x22, 0x44, 0x5E, 0x8E, 0x22, 0x40, 0xCA, 0x5E, 0x69, 0xE2, 0xC7, 0x8B, 0x32, 0x39, 0xEC, 0xFA, 0xB2, 0x16, 0x49] := by decide +kernel

/-- Entry 0x53 of the S-box (FIPS 197), and NIST's AES-256-GCM case of one block of zeros. -/
theorem test_gcm : aesSub 0x53 = 0xED ∧ gcmSeal (List.replicate 32 0) (List.replicate 12 0) [] (List.replicate 16 0) =
      [0xCE, 0xA7, 0x40, 0x3D, 0x4D, 0x60, 0x6B, 0x6E, 0x07, 0x4E, 0xC5, 0xD3, 0xBA, 0xF3, 0x9D, 0x18] ++
      [0xD0, 0xD1, 0xC8, 0xA7, 0x99, 0x99, 0x6B, 0xF0, 0x26, 0x5B, 0x98, 0xB5, 0xD4, 0x8A, 0xB9, 0x19] := by decide +kernel

/-! ### The hypotheses of the statements are met -/

/-! ### Witnesses: registers, views, the data port, management frames, the tick -/

theorem witness_StepRunsTheFrontCommand :
    ({ State.reset with pending := [.poisonAdd 5, .uartRxResume] } : State).pending = .poisonAdd 5 :: [.uartRxResume] ∧ State.reset.pending = [] := by decide

theorem witness_StepsKeepTheMachine : (State.reset.ok ∧ ∃ t, step State.reset = .next t)
    ∧ (({ State.reset with pending := [.poisonAdd 5] } : State).ok ∧ ∃ t, step { State.reset with pending := [.poisonAdd 5] } = .next t) :=
  ⟨⟨⟨rfl, rfl⟩, _, rfl⟩, ⟨rfl, rfl⟩, _, rfl⟩

/-- SYS_SCRATCH, RW fields only. -/
theorem witness_PlainStore : State.reset.ok ∧ coreStalled State.reset 3 = false ∧ Reg.SYS_SCRATCH % 4 = 0 ∧ dpwSet Reg.SYS_SCRATCH = none
    ∧ isWideLo Reg.SYS_SCRATCH = false ∧ isWideHi Reg.SYS_SCRATCH = false ∧ lockStops State.reset Reg.SYS_SCRATCH = false
    ∧ headEffect State.reset .sys 0 0x78 0xFFFFFFFF = none ∧ sysEffect State.reset .sys 0x78 0xFFFFFFFF = none
    ∧ coreEffect State.reset .sys 0 0x78 0xFFFFFFFF = none ∧ edgeEffect State.reset .sys 0 0x78 0xFFFFFFFF = none
    ∧ ∃ r, regRow Reg.SYS_SCRATCH = some (.sys, 0, 0x78, r) ∧ (r.flds.any fun f => decide (f.acc = .rwt)) = false :=
  ⟨⟨rfl, rfl⟩, by decide, by decide, by decide, by decide, by decide, by decide, rfl, rfl, rfl, rfl, _, rfl, by decide⟩

/-- BST_PATROL, RWT fields only, with the counter running and before it runs. -/
theorem witness_HeldStore : running.ok ∧ State.reset.ok ∧ SMap.rises running.rwt 0 = true ∧ coreStalled running 0 = false ∧ Reg.BST_PATROL % 4 = 0
    ∧ dpwSet Reg.BST_PATROL = none ∧ isWideLo Reg.BST_PATROL = false ∧ isWideHi Reg.BST_PATROL = false ∧ rwtAction Reg.BST_PATROL = none
    ∧ running.time.running = true ∧ State.reset.time.running = false ∧ SMap.get State.reset.rwt 0 Reg.BST_PATROL = 0
    ∧ headEffect running .bst 0 0x180 7 = none ∧ sysEffect running .bst 0x180 7 = none ∧ coreEffect running .bst 0 0x180 7 = none
    ∧ edgeEffect running .bst 0 0x180 7 = none ∧ headEffect State.reset .bst 0 0x180 7 = none ∧ sysEffect State.reset .bst 0x180 7 = none
    ∧ coreEffect State.reset .bst 0 0x180 7 = none ∧ edgeEffect State.reset .bst 0 0x180 7 = none
    ∧ ∃ r, regRow Reg.BST_PATROL = some (.bst, 0, 0x180, r) ∧ (∀ f ∈ r.flds, f.acc = .rwt) ∧ r.flds ≠ [] :=
  ⟨⟨rfl, rfl⟩, ⟨rfl, rfl⟩, rfl, rfl, by decide, by decide, by decide, by decide, rfl, rfl, rfl, rfl, rfl, rfl, rfl, rfl, rfl, rfl, rfl, rfl, _, rfl, by decide, by decide⟩

/-- A store of 8 bits, and one at an odd address. -/
theorem witness_MisshapenStore : coreStalled State.reset 0 = false ∧ (8 ≠ 32 ∨ 0x78 % 4 ≠ 0) ∧ (32 ≠ 32 ∨ 0x79 % 4 ≠ 0) := by decide

/-- The device ring's base: a latched high word to read, one staged, and the low word that commits it. -/
theorem witness_WideRegister :
    (isWideLo Reg.SYS_RING_BASE_LO = true ∧ isWideHi Reg.SYS_RING_BASE_LO = false ∧ dpwSet Reg.SYS_RING_BASE_LO = none
      ∧ ∃ b n off r, regRow Reg.SYS_RING_BASE_LO = some (b, n, off, r) ∧ (r.flds.any fun f => decide (f.acc = .rc)) = false ∧ b ≠ .trw)
    ∧ (isWideHi (Reg.SYS_RING_BASE_LO + 4) = true ∧ lockStops State.reset (Reg.SYS_RING_BASE_LO + 4) = false
      ∧ (regRow (Reg.SYS_RING_BASE_LO + 4)).isSome = true ∧ dpwSet (Reg.SYS_RING_BASE_LO + 4) = none)
    ∧ SMap.get (SMap.set State.reset.latch 0 (latchKey 1 (Reg.SYS_RING_BASE_LO + 4)) 1) 0 (latchKey 1 (Reg.SYS_RING_BASE_LO + 4)) = 0 + 1
    ∧ SMap.get (SMap.set State.reset.stage 0 (Reg.SYS_RING_BASE_LO + 4) 1) 0 (Reg.SYS_RING_BASE_LO + 4) = 0 + 1 :=
  ⟨⟨by decide, by decide, by decide, _, _, _, _, rfl, by decide, by decide⟩, by decide, by decide, by decide⟩

/-- BST_LB_COUNT counts and clears on a read. -/
theorem witness_ReadOfAnRcWord : isWideLo Reg.BST_LB_COUNT = false ∧ isWideHi Reg.BST_LB_COUNT = false ∧ dpwSet Reg.BST_LB_COUNT = none
    ∧ ∃ b n off r, regRow Reg.BST_LB_COUNT = some (b, n, off, r) ∧ (r.flds.any fun f => decide (f.acc = .rc)) = true :=
  ⟨by decide, by decide, by decide, _, _, _, _, rfl, by decide⟩

/-- View A at reset shows no table; with 7 selected its last window ends inside the key-slot table. -/
theorem witness_View : viewPlace State.reset 0 0 = (0, 0) ∧ (tableShape 0).1 * (tableShape 0).2 ≤ 0
    ∧ viewPlace (regsIn State.reset [(Reg.SYS_VIEWA_SEL, 7)]) 0 0xFFFFC = (7, 0xFFFFC) ∧ 0xFFFFC < (tableShape 7).1 * (tableShape 7).2
    ∧ viewPlace (regsIn State.reset [(Reg.SYS_VIEWA_SEL, 7)]) 0 0x100000 = (7, 0x100000) ∧ (tableShape 7).1 * (tableShape 7).2 ≤ 0x100000 := by decide

theorem witness_HeaderWrites : State.reset.ok ∧ 3 < Blk.count .rak ∧ 0xA5C30001 / 65536 = 0xA5C3 ∧ 1 / 65536 ≠ 0xA5C3
    ∧ (State.reset.seen.all fun x => x.up != State.reset.time.up || x.blk != Blk.base .rak 3) = true
    ∧ (State.reset.seenFlt.all fun x => x.up != State.reset.time.up || x.blk != Blk.base .rak 3) = true ∧ bitOf 0x100 8 = true ∧ bitOf 0xFF 8 = false :=
  ⟨⟨rfl, rfl⟩, by decide, by decide, by decide, by decide, by decide, by decide, by decide⟩

/-- Core 2 at the first word of peat, at the last word below the context table, and at a misaligned address. -/
theorem witness_DataPort :
    (regsIn State.reset [(Reg.DPW_ADDR_LO 2, peatBase % 2 ^ 32), (Reg.DPW_ADDR_LO 2 + 4, peatBase / 2 ^ 32)]).ok
    ∧ dpwAddr (regsIn State.reset [(Reg.DPW_ADDR_LO 2, peatBase % 2 ^ 32), (Reg.DPW_ADDR_LO 2 + 4, peatBase / 2 ^ 32)]) 2 = peatBase
    ∧ memRefused State.reset peatBase false = false ∧ inFen peatBase = false ∧ memRefused State.reset peatBase true = false
    ∧ memRefused State.reset (ctxTableBase - 4) true = false ∧ plainAt peatBase 4 ∧ plainAt (ctxTableBase - 4) 4
    ∧ State.reset.rg64 Reg.FAB_PEER_LO + 8388608 ≤ peatBase ∧ memRefused State.reset (peatBase + 1) true = true ∧ memRefused State.reset (peatBase + 1) false = true :=
  ⟨⟨by decide, by decide⟩, by decide, by decide, by decide, by decide, by decide, .inl (by decide), .inl (by decide), by decide, by decide, by decide⟩

/-- FEN0 enabled and its channel 0 in PIM mode. -/
def pimState : State := regsIn State.reset [(Reg.BLK_CTL .fen 0, 1), (Reg.DPW_ADDR_LO 1, fenBase % 2 ^ 32), (Reg.DPW_ADDR_LO 1 + 4, fenBase / 2 ^ 32), (Reg.FEN_CHSTAT 0 0, 64)]

/-- The same with `n` accesses in its crown queue, and with an access of core 1 held. -/
def fullState (n : Nat) : State := pimState.setChan 0 0 { pimState.chan 0 0 with crownQ := List.replicate n ⟨1, 5, 1, 0⟩ }
def heldBy (a : Nat) (asked : Bool) (s : State) : State := { s with dpw := [⟨1, true, a, 5, asked⟩] }

theorem witness_HeldAccess : dpwAddr pimState 1 = fenBase ∧ coreStalled pimState 1 = false ∧ memRefused pimState fenBase false = false ∧ memRefused pimState fenBase true = false
    ∧ inFen fenBase = true ∧ chanPim pimState (addrStack fenBase) (addrPc fenBase) = true ∧ crownFull pimState 0 0 = false
    ∧ crownFull (fullState 63) 0 0 = false ∧ crownFull (fullState 64) 0 0 = true ∧ dpwAddr (fullState 64) 1 = fenBase ∧ coreStalled (fullState 64) 1 = false
    ∧ memRefused (fullState 64) fenBase true = false
    ∧ (heldBy fenBase true pimState).dpw.find? (·.core == 1) = some ⟨1, true, fenBase, 5, true⟩ ∧ fenPending (heldBy fenBase true pimState) 0 0 (128 + 1) = false
    ∧ memRefused { heldBy fenBase true pimState with dpw := [] } fenBase true = false ∧ memRefused { heldBy fenBase true State.reset with dpw := [] } fenBase true = true
    ∧ fenPending (heldBy fenBase true State.reset) 0 0 (128 + 1) = false
    ∧ (heldBy fenBase false (fullState 64)).dpw.find? (·.core == 1) = some ⟨1, true, fenBase, 5, false⟩
    ∧ fenPending (fenRequest (heldBy fenBase true pimState) 0 0 1 (128 + 1) 4) 0 0 (128 + 1) = true := by decide +kernel

/-- A node with the management port up and an owner session. -/
def managed : State := { regsIn State.reset [(Reg.MGT_STAT 0, 1), (Reg.BLK_CTL .mgt 0, 1)] with
  mgt := { sessions := [⟨0x10001, some 0, 5, none, 0, []⟩, ⟨0x10002, none, 0, none, 0, []⟩] } }

/-- A header of version 1 with its fields in network order (R46). -/
def head (session seq length : Nat) (ok : Bool) : MgtHead := ⟨0, 7, [1, 1] ++ toBE 2 length ++ toBE 4 session ++ toBE 4 seq ++ [0, 0, 0, 0], ok⟩

/-- Whether a request is taken, and at which level. -/
def takenAt (s : State) (h : MgtHead) (l : Option Nat) : Bool := match mgtTake s h with
  | .run _ k => k == l
  | _ => false

theorem witness_ManagementRequests : mgtOn managed 0 = true ∧ (head 0x10001 5 8 true).version = 1 ∧ (head 0x10001 5 8 true).session = 0x10001
    ∧ managed.mgt.sessions.find? (fun y => y.id == 0x10001 && y.level.isSome) = some ⟨0x10001, some 0, 5, none, 0, []⟩
    ∧ 5 ≤ (head 0x10001 5 8 true).seq ∧ 5 = (head 0x10001 4 8 true).seq + 1 ∧ (head 0x10001 3 8 true).seq + 1 < 5 := by decide

/-- A body of `len` bytes with the count `n` at byte `o`, and a burst's body at address `a`. -/
def frameBody (n len : Nat) : List Nat := toBE 2 n ++ List.replicate (len - 2) 0
def burstBody (a n len : Nat) : List Nat := toBE 8 a ++ toBE 2 n ++ List.replicate (len - 10) 0

/-- A read of 1 entry and of 64, a write, a length that disagrees, bursts of one word and of the most, one too long, one that ends and one that waits for fen. -/
theorem witness_RegisterFrames : (∀ x ∈ [(8, frameBody 1 8), (260, frameBody 64 260), (12, frameBody 1 12), (12, burstBody peatBase 1 12), (4108, burstBody peatBase 1024 4108)],
      takenAt managed (head 0x10001 5 x.1 true) (some 0) = true ∧ (head 0x10001 5 x.1 true).length = x.2.length)
    ∧ beAt (frameBody 1 8) 0 2 = 1 ∧ 8 = 4 + 4 * 1 ∧ beAt (frameBody 64 260) 0 2 = 64 ∧ 260 = 4 + 4 * 64 ∧ beAt (frameBody 1 12) 0 2 = 1 ∧ 12 = 4 + 8 * 1
    ∧ (frameBody 1 12).length ≠ 4 + 4 * beAt (frameBody 1 12) 0 2
    ∧ beAt (burstBody peatBase 1 12) 8 2 = 1 ∧ beAt (burstBody peatBase 1024 4108) 8 2 = 1024 ∧ 4108 = 12 + 4 * 1024 ∧ 1024 ≤ burstMax managed
    ∧ burstMax (regsIn managed [(Reg.DPW_BURST, 2)]) < 3 ∧ takenAt (regsIn managed [(Reg.DPW_BURST, 2)]) (head 0x10001 5 24 true) (some 0) = true
    ∧ (burstBody 0 3 24).length = 12 + 4 * beAt (burstBody 0 3 24) 8 2 ∧ takenAt managed (head 0 0 8 true) none = true := by decide +kernel

/-- A burst that runs to its end in peat, and one that waits at a fen channel. -/
def burstAt (a : Nat) : WordsOut := wordsRun (burstRefused 0 false) 4 false none (regsIn managed [(Reg.BLK_CTL .fen 0, 1), (Reg.BLK_CTL .dpw 0, 1)]) a [] 0 [0]

theorem witness_Bursts : (burstAt peatBase).rest = none ∧ (burstAt peatBase).status = stOK ∧ (burstAt fenBase).rest = some (fenBase, [0])
    ∧ (wordsRun (burstRefused 0 true) 4 true none managed peatBase [] 0 [7]).rest = none := by decide +kernel

theorem witness_SpdmRequests : takenAt managed (head 0 0 0 true) none = true ∧ (measurement State.reset 4).isSome = true := by decide

/-- The open session with no session and with sixteen, a FINISH of the waiting session by the owner's key, and a session 600 s old. -/
theorem witness_SecuredSessions : takenAt managed (head 0 0 0 true) none = true ∧ managed.mgt.sessions.length < 16
    ∧ takenAt { managed with mgt := { sessions := List.replicate 16 ⟨1, none, 0, none, 0, []⟩ } } (head 0 0 0 true) none = true
    ∧ managed.mgt.sessions.find? (fun y => y.id == 0x10002 && y.level.isNone) = some ⟨0x10002, none, 0, none, 0, []⟩
    ∧ levelOf managed (ownerDigest managed) = some 0 ∧ takenAt managed (head 0x10001 5 0 true) (some 0) = true
    ∧ managed.mgt.sessions.find? (·.id == 0x10001) = some ⟨0x10001, some 0, 5, none, 0, []⟩ ∧ (reachUp managed (0 + 960000000000)).isSome = true := by decide +kernel

/-- An owner's import of a job for partition 63, wrapped under the session's secret and under another, a drop of job slot 3, and the open session. -/
theorem witness_VendorCommands : takenAt managed (head 0x10001 5 0 true) (some 0) = true ∧ takenAt managed (head 0 0 0 true) none = true
    ∧ importStatus (regsIn managed [(Reg.BLK_CTL .prt 0, 1), (Reg.PRT_JOBQ 63, 4)]) 63 9 (some []) = stOK
    ∧ (List.range 1024).find? (fun i => !(SMap.get managed.itp.jobs {} i).valid) = some 0
    ∧ (SMap.get (SMap.set managed.itp.jobs {} 3 ⟨true, 2, 9, []⟩) {} 3).valid = true ∧ jobNamed managed ⟨true, 2, 9, []⟩ = false := by decide +kernel

/-- A key wrapped as R478 has it unwraps again; with a changed tag it does not. -/
def wrapKey : List Nat := hkdfExpand [] (jmkLabel ++ [63, 0, 0, 0, 9]) 32
def wrappedJob : List Nat := gcmSeal wrapKey (List.replicate 12 0) [63, 0, 0, 0, 9] (List.range 32)

theorem witness_JobKeys : jobUnwrap [] 63 9 (List.replicate 12 0) wrappedJob = some (List.range 32)
    ∧ jobUnwrap [] 63 9 (List.replicate 12 0) (wrappedJob.take 47 ++ [(wrappedJob.getD 47 0 + 1) % 256]) = none := by decide +kernel

theorem witness_Boundary : running.time.running = true ∧ ((sealPoint running).ccTo running.lcc).time.lenNext = none := by decide +kernel

theorem witness_NewTickLength : ∃ s : State, s.time.running = true ∧ s.tpl.sealed = true ∧ s.time.lenNext = some 80000 ∧ 80000 ≠ 0
    ∧ (s.time.tick + 1) * s.time.len5 % 200000000 = 0 :=
  ⟨{ running with time := { running.time with tick := 4999, lenNext := some 80000 }, tpl := { running.tpl with sealed := true } }, by decide⟩

theorem witness_TickCounterStart : State.reset.time.running = false ∧ (regsIn State.reset [(Reg.BLK_CTL .tpl 0, 1)]).en .tpl 0 = true := by decide

/-- The shortest and the longest legal length, the ones beside them, and one that divides no second. -/
theorem witness_TickLength : State.reset.locked .tpl 0 = false ∧ State.reset.en .tpl 0 = false ∧ (regsIn State.reset [(Reg.BLK_CTL .tpl 0, 1)]).en .tpl 0 = true
    ∧ 25000 ≤ 5 * 5000 ∧ 1000000000 % (5 * 5000) = 0 ∧ 5 * 2000000 ≤ 10000000 ∧ 1000000000 % (5 * 2000000) = 0
    ∧ 5 * 4999 < 25000 ∧ 10000000 < 5 * 2000001 ∧ 1000000000 % (5 * 5001) ≠ 0 := by decide

theorem witness_PlanWindow : running.ok ∧ running.time.running = true ∧ running.tpl.planned = false := ⟨⟨rfl, rfl⟩, by decide⟩

/-- A completed plan with one item booked and one running, of the kinds that the statement tells apart. -/
def booked : State := { running with tpl := { running.tpl with planned := true, items :=
  [⟨[0], .walk, .frm, 4096, 10, 1, [], .booked⟩, ⟨[0], .walk, .frm, 4096, 10, 1, [], .running⟩, ⟨[0], .handoff, .frm, 4096, 10, 1, [], .running⟩] } }

theorem witness_BookedWork : running.tpl.tallied = false ∧ booked.tpl.planned = true ∧ booked.tpl.sealed = false
    ∧ booked.tpl.items[0]? = some ⟨[0], .walk, .frm, 4096, 10, 1, [], .booked⟩ ∧ booked.tpl.items[1]? = some ⟨[0], .walk, .frm, 4096, 10, 1, [], .running⟩
    ∧ booked.tpl.items[2]? = some ⟨[0], .handoff, .frm, 4096, 10, 1, [], .running⟩ ∧ unitRuns booked .frm = true
    ∧ itemLost booked ⟨[0], .walk, .frm, 4096, 10, 1, [], .booked⟩ = false ∧ (IKind.handoff ≠ .walk ∧ IKind.handoff ≠ .shared) ∧ (IKind.merge ≠ .handoff ∧ IKind.merge ≠ .walk ∧ IKind.merge ≠ .append 0)
    ∧ itemLost { booked with tpl := { booked.tpl with lost := [0] } } ⟨[0], .walk, .frm, 4096, 10, 1, [], .booked⟩ = true := by decide

/-- A tick not yet sealed with its plan complete, a sealed one, and a request whose carry has closed. -/
theorem witness_SealPoint : booked.tpl.sealed = false ∧ booked.tpl.planned = true ∧ booked.tpl.order = [] ∧ booked.tpl.sealing = []
    ∧ ({ booked with tpl := { booked.tpl with sealed := true } } : State).tpl.sealed = true
    ∧ ∃ s : State, s.time.running = true ∧ (queuedReqs s).contains 7 = true ∧ (s.reqAt 7).st = .queued ∧ (s.reqAt 7).target + s.fld Reg.TPL_MAX_CARRY 7 0 < s.time.tick :=
  ⟨by decide, by decide, by decide, by decide, by decide, { running with
    time := { running.time with tick := 300 }, ctx := { running.ctx with reqs := SMap.set [] {} 7 { ({} : Req) with st := .queued, target := 3 } }
    tpl := { running.tpl with queues := SMap.set [] [] 0 [⟨7, 3, 3, 0, 0, 0⟩] } }, by decide⟩

/-- The reset tick and seal distance, an odd one, and one on each side of the range. -/
theorem witness_SealDistance : 8192 ≤ State.reset.lcc ∧ 4096 ≤ State.reset.fld Reg.TPL_SEAL 23 0 ∧ State.reset.fld Reg.TPL_SEAL 23 0 ≤ State.reset.lcc - 4096
    ∧ State.reset.fld Reg.TPL_SEAL 23 0 % 2 = 0 ∧ (regsIn State.reset [(Reg.TPL_SEAL, 4097)]).fld Reg.TPL_SEAL 23 0 = 4097
    ∧ (regsIn State.reset [(Reg.TPL_SEAL, 4095)]).fld Reg.TPL_SEAL 23 0 < 4096
    ∧ State.reset.lcc - 4096 < (regsIn State.reset [(Reg.TPL_SEAL, 0xFFFFFF)]).fld Reg.TPL_SEAL 23 0 := by decide

theorem witness_MaintenanceCommands : running.ok ∧ SMap.rises running.rwt 0 = true ∧ running.time.running = true := ⟨⟨rfl, rfl⟩, rfl, rfl⟩

/-- FRM enabled with one copy, one frame in SCRUB and one MIGRATE at work. -/
def serving : State := { regsIn State.reset [(Reg.BLK_CTL .frm 0, 1)] with
  ctx := { State.reset.ctx with cows := [⟨5, 2, 9, 8, 3, false⟩] }
  frm := { State.reset.frm with frames := SMap.set [] {} 4 { ({} : Frame) with st := .scrub, owner := 3 } }
  fab := { State.reset.fab with imports := [⟨6, [10, 11], false⟩] } }

theorem witness_ServiceCopies : serving.en .frm 0 = true ∧ serving.ctx.cows.find? (fun w => w.slot == 5 && w.lane == 2 && !w.copied) = some ⟨5, 2, 9, 8, 3, false⟩
    ∧ (serving.frame 4).st = .scrub ∧ serving.fab.imports.find? (fun i => i.req == 6 && !i.copied) = some ⟨6, [10, 11], false⟩ := by decide

/-- A migrator ring of 16 orders in crown SRAM whose head is an order of the operation given, for context slot 3. -/
def ordered (op : Nat) : State :=
  (({ regsIn State.reset [(Reg.BLK_CTL .frm 0, 1), (Reg.FRM_MIG_CFG, 0x104), (Reg.FRM_MIG_RING_LO, crownBase % 2 ^ 32), (Reg.FRM_MIG_RING_LO + 4, crownBase / 2 ^ 32),
    (Reg.FRM_MIG_WR, 1)] with ctx := { State.reset.ctx with ctxs := SMap.set [] {} 3 { ({} : Ctx) with st := .active, layerCount := 1, groupCount := 1 } } }).writeBytes crownBase
      [3, 0, 0, 0, 0, 0, op, 1, 0, 0, 0, 0, 0, 0, 0, 0])

/-- MOVE, MOVE_LANE and SET_HINT orders, one that passes its checks and one that fails them, and no order. -/
theorem witness_MigratorOrders : (nextOrder (ordered 1)).map (·.op) = some 1 ∧ (nextOrder (ordered 2)).map (·.op) = some 2 ∧ (nextOrder (ordered 3)).map (·.op) = some 3
    ∧ (nextOrder (ordered 2)).map (orderCheck (ordered 2)) = some stOK ∧ (nextOrder (ordered 1)).map (orderCheck (ordered 1)) ≠ some stOK
    ∧ (nextOrder (ordered 2)).map (fun o => resetting (ordered 2) (hPart o.handle)) = some false
    ∧ (nextOrder (regsIn (ordered 2) [(Reg.PRT_CTXR 0, 2 * 2 ^ 28)])).map (fun o => resetting (regsIn (ordered 2) [(Reg.PRT_CTXR 0, 2 * 2 ^ 28)]) (hPart o.handle)) = some true
    ∧ nextOrder State.reset = none := by decide +kernel

/-- A move into fen and one off the package at stage 0, one at stage 2, and a fetch whose page has arrived with a good header. -/
def moving : State := { serving with frm := { serving.frm with
  moves := [⟨3, 0, 0, 0, 20, 21, 1, 0, 0, 0⟩, ⟨3, 0, 0, 1, 22, 0, 2, 0, 2, 0⟩, ⟨3, 0, 0, 2, 24, 0, 2, 0, 0, 0⟩]
  fetches := [⟨3, 0, 0, 2, 2, 0, 23, 0, none, some goodPage, false, []⟩] } }
where goodPage := [1] ++ List.replicate 23 0 ++ [96, 46, 180, 62]

theorem witness_MovesAndFetches : moving.frm.moves.find? (fun m => m.src == 20 && m.stage == 0) = some ⟨3, 0, 0, 0, 20, 21, 1, 0, 0, 0⟩ ∧ moving.en .frm 0 = true
    ∧ copyWaits moving ⟨3, 0, 0, 0, 20, 21, 1, 0, 0, 0⟩ = false
    ∧ moving.frm.moves.find? (fun m => m.src == 24 && m.stage == 0) = some ⟨3, 0, 0, 2, 24, 0, 2, 0, 0, 0⟩ ∧ copyWaits moving ⟨3, 0, 0, 2, 24, 0, 2, 0, 0, 0⟩ = false
    ∧ moving.frm.fetches.find? (fun f => f.frame == 23 && f.data.isSome && !f.ready) = some ⟨3, 0, 0, 2, 2, 0, 23, 0, none, some moving.goodPage, false, []⟩
    ∧ memWaiting moving (moving.frAddr 23) (1024 + 23) = 0
    ∧ pageCheck (frameReader ((zeroLoc moving (moving.loc 23)).writeBytes (moving.frAddr 23) moving.goodPage) 23) (moving.ctxAt 3).geo = 0 := by decide +kernel

/-- Link 3 of a port split in four, a link that is up, and a drive command. -/
theorem witness_LinksAndDrives : 3 < linkCount (SMap.get (SMap.set [] 0 1 2) 0 1)
    ∧ (regsIn State.reset [(Reg.BLK_CTL .pci 1, 1), (Reg.PCI_LINK_CTL 1, 0x80)]).up .pci 1 = true
    ∧ (regsIn State.reset [(Reg.BLK_CTL .pci 1, 1), (Reg.PCI_LINK_CTL 1, 0x80)]).bit (Reg.PCI_LINK_CTL 1) (4 + 3) = true
    ∧ (regsIn State.reset [(Reg.PCI_LINK_STAT 0 0, 1)]).bit (Reg.PCI_LINK_STAT 0 0) 0 = true ∧ State.reset.drive = []
    ∧ ({ State.reset with drive := [⟨0, 0, 1, 0, 1, true, true, [], .window 0 0 0⟩] } : State).drive[0]? = some ⟨0, 0, 1, 0, 1, true, true, [], .window 0 0 0⟩ := by decide +kernel

/-- A segment of one page and one row, complete but not closed. -/
def segOf : Seg := { pc := 2, code := 0, d32 := 1, kvh := 1, t := 1024, store := 0, sigma := some 0#32, limit := some 5, win := some (0, 0) }
def openSeg (g : Seg) : State := { State.reset with dbrs := SMap.set [] {} 1 { ({} : Dbr) with open_ := some g } }

/-- A segment before its rows, with rows and a destination, a raw one, a malformed second SIGMA, and no segment. -/
theorem witness_SegmentCommands : ((openSeg { segOf with sigma := none, limit := none, win := none }).dbr 1).open_ = some { segOf with sigma := none, limit := none, win := none }
    ∧ ((openSeg segOf).dbr 1).open_ = some segOf ∧ segOf.sigma ≠ none ∧ segOf.rows = [] ∧ segOf.ready = true ∧ segOf.pages = [] ∧ segOf.raw = false
    ∧ ({ segOf with rows := [⟨0, 0, 0, []⟩], dest := some (5, 6) } : Seg).rows ≠ [] ∧ ({ segOf with dest := some (5, 6) } : Seg).dest.isSome = true
    ∧ ({ segOf with raw := true } : Seg).raw = true ∧ ({ segOf with raw := true, rows := [⟨0, 0, 0, []⟩] } : Seg).rows ≠ [] ∧ (State.reset.dbr 1).open_ = none := by decide +kernel

/-- A segment in its channel's window, one without a window, and one that runs. -/
def segFull : Seg := { segOf with d32 := 4, t := 96, rows := [⟨0, 0, 0, []⟩], pages := [⟨1, 0, 0, false, 0, 0⟩], dest := some (5, 6) }
def inWindow : State := { regsIn running [(Reg.BLK_CTL .dbr 1, 1), (Reg.BLK_CTL .fen 1, 1), (Reg.FEN_CHSTAT 1 2, 64)] with
  time := { running.time with cc := 4000 }, tpl := { running.tpl with pims := [⟨1, 2, 1900, 4000, [], false⟩] }
  dbrs := SMap.set [] {} 1 { ({} : Dbr) with open_ := some segFull, runs := [] } }

theorem witness_SegmentsRun : (inWindow.dbr 1).open_ = some segFull
    ∧ (winsOf inWindow.tpl 1 2).find? (fun w => decide (w.lo ≤ ceilDiv inWindow.time.cc 2) && decide (ceilDiv inWindow.time.cc 2 < w.hi)) = some ⟨1, 2, 1900, 4000, [], false⟩
    ∧ inWindow.up .dbr 1 = true ∧ chanPim inWindow 1 2 = true ∧ segForm segFull = true ∧ segFits inWindow 1 segFull 2000 1900 4000 [] = true
    ∧ ((inWindow.dbr 1).runs ++ (inWindow.dbr 1).raw.getD []) = []
    ∧ winsOf State.reset.tpl 1 2 = [] ∧ segFull.raw = false ∧ segFull.dest = some (5, 6) ∧ inWindow.clocksStopped = false
    ∧ (({ ({} : Dbr) with runs := [⟨segFull, 2000, 0⟩] } : Dbr).runs.find? fun r => r.seg.pc == 2) = some ⟨segFull, 2000, 0⟩
    ∧ inWindow.time.cc ≤ 2 * (2000 + segLength segFull)
    ∧ max 0 (segReady ⟨segFull, 2000, 0⟩ (2 * (2000 + segLength segFull))) = 1 ∧ max 0 (segReady ⟨segFull, 2000, 0⟩ 4000) = 0 := by decide +kernel

/-- FEN1 with one transfer waiting on channel 2, one that cannot go, an interrupted one, one of the debug port, and booked intervals. -/
def waitingOn (r : ArbReq) : State := { regsIn running [(Reg.BLK_CTL .fen 1, 1)] with
  time := { running.time with cc := 2000 }, chans := SMap.set [] {} 34 { ({} : Chan) with waiting := [r] } }

/-- The same with a grant in force, or a booked transfer of the plan. -/
def granting (r : ArbReq) (g : Grant) : State := { waitingOn r with chans := SMap.set [] {} 34 { ({} : Chan) with waiting := [r], grant := some g } }
def bookedOn (write : Bool) : State := { waitingOn ⟨3, 256, 0, 8⟩ with tpl := { running.tpl with memBusy := SMap.set [] [] 34 [⟨2000, 2100, write⟩] } }

theorem witness_Arbiter : (waitingOn ⟨3, 256, 0, 8⟩).up .fen 1 = true ∧ (waitingOn ⟨3, 256, 0, 8⟩).time.running = true ∧ (waitingOn ⟨3, 256, 0, 8⟩).time.cc % 2 = 0
    ∧ debugTakes (waitingOn ⟨3, 256, 0, 8⟩) 1 2 = none ∧ bookedAt (waitingOn ⟨3, 256, 0, 8⟩) 1 2 2000 = none
    ∧ arbWinner ((waitingOn ⟨3, 256, 0, 8⟩).chan 1 2) (((waitingOn ⟨3, 256, 0, 8⟩).chan 1 2).waiting.filter (eligible (waitingOn ⟨3, 256, 0, 8⟩) 1 2 2000)) = some ⟨3, 256, 0, 8⟩
    ∧ (∀ w ∈ ((waitingOn ⟨2, 0, 0, 8⟩).chan 1 2).waiting, eligible (waitingOn ⟨2, 0, 0, 8⟩) 1 2 2000 w = false) ∧ debugTakes (waitingOn ⟨2, 0, 0, 8⟩) 1 2 = none
    ∧ (({ ({} : Chan) with resumed := some ⟨1, 0, 5, false⟩ } : Chan).resumed = some ⟨1, 0, 5, false⟩)
    ∧ debugTakes (waitingOn ⟨5, 4096, 0, 2⟩) 1 2 = some ⟨5, 4096, 0, 2⟩ ∧ debugTakes (granting ⟨5, 4096, 0, 2⟩ ⟨3, 0, 50, false⟩) 1 2 = some ⟨5, 4096, 0, 2⟩
    ∧ (⟨3, 0, 50, false⟩ : Grant).over 0 = false ∧ debugTakes (granting ⟨5, 4096, 0, 2⟩ ⟨4, 0, 50, true⟩) 1 2 = none
    ∧ bookedAt (bookedOn false) 1 2 2000 = some (0, 2100) ∧ bookedAt (bookedOn true) 1 2 2000 = some (1, 2100) ∧ modeTakes (bookedOn true) 1 2 1 = true
    ∧ (bookedOn true).bit (Reg.FEN_CHSTAT 1 2) 1 = false ∧ ((bookedOn true).setRg (Reg.FEN_CHSTAT 1 2) 2).bit (Reg.FEN_CHSTAT 1 2) 1 = true
    ∧ bookedAt ((bookedOn true).setRg (Reg.FEN_CHSTAT 1 2) 2) 1 2 2000 = some (1, 2100) ∧ modeTakes ((bookedOn true).setRg (Reg.FEN_CHSTAT 1 2) 2) 1 2 1 = true := by decide +kernel

/-- An access in the crown queue, a free channel, one held by a transfer, by one past its hold and by a window with more and less than a refresh left, and a
grant at and below the watchdog's limit. -/
theorem witness_ChannelsServe : ({ ({} : Chan) with crownQ := [⟨0, 1, 8, 0⟩] } : Chan).crownQ = ⟨0, 1, 8, 0⟩ :: [] ∧ chanPim State.reset 1 2 = false
    ∧ (State.reset.chan 1 2).grant = none ∧ (⟨3, 0, 50, false⟩ : Grant).over 99 = false ∧ 0 + 65536 ≤ 65536 ∧ 65535 < 0 + 65536
    ∧ (⟨2, 0, 1000, true⟩ : Grant).over 100 = false ∧ 328 < 1000 - (100 - 0) / 2 ∧ (waitingOn ⟨3, 256, 0, 8⟩).clocksStopped = false
    ∧ (waitingOn ⟨3, 256, 0, 8⟩).en .fen 1 = true ∧ (waitingOn ⟨3, 256, 0, 8⟩).up .fen 1 = true := by decide +kernel

/-- The channel of `inWindow` before its window, in it and at its end, and without one; a segment that runs; a stack in training. -/
def beforeWindow : State := { inWindow.setRg (Reg.FEN_CHSTAT 1 2) 0 with time := { inWindow.time with cc := 3800 } }
def windowEnd : State := { inWindow with time := { inWindow.time with cc := 8000 } }

theorem witness_ChannelModes : segRunning inWindow 1 2 = false ∧ (inWindow.chan 1 2).grant = none ∧ inWindow.up .fen 1 = true ∧ chanPim inWindow 1 2 = true
    ∧ (winsOf inWindow.tpl 1 2).find? (fun w => decide (2 * w.lo ≤ inWindow.time.cc) && decide (inWindow.time.cc ≤ 2 * w.hi)) = some ⟨1, 2, 1900, 4000, [], false⟩
    ∧ (winsOf windowEnd.tpl 1 2).find? (fun w => decide (2 * w.lo ≤ windowEnd.time.cc) && decide (windowEnd.time.cc ≤ 2 * w.hi)) = some ⟨1, 2, 1900, 4000, [], false⟩
    ∧ chanPim beforeWindow 1 2 = false ∧ nextWin beforeWindow 1 2 = some ⟨1, 2, 1900, 4000, [], false⟩ ∧ segRunning beforeWindow 1 2 = false ∧ (beforeWindow.chan 1 2).grant = none
    ∧ winsOf State.reset.tpl 1 2 = [] ∧ segRunning ({ inWindow with dbrs := SMap.set [] {} 1 { ({} : Dbr) with runs := [⟨segFull, 2000, 0⟩] } }) 1 2 = true
    ∧ State.reset.up .fen 1 = false ∧ ({ State.reset with training := [1] } : State).training.contains 1 = true := by decide +kernel

/-- A raw program of one segment with one row and one page in crown SRAM, armed in a reserved window of stack 1. -/
def rawIn (words : Nat) : State :=
  ({ regsIn inWindow [(Reg.DBR_RAW_CTL 1, 2 ^ 16 + words), (Reg.DBR_RAW_PROG_LO 1, crownBase % 2 ^ 32), (Reg.DBR_RAW_PROG_LO 1 + 4, crownBase / 2 ^ 32),
      (Reg.DBR_RAW_OUT_LO 1, crownBase % 2 ^ 32 + 4096), (Reg.DBR_RAW_OUT_LO 1 + 4, crownBase / 2 ^ 32)] with
    tpl := { running.tpl with pims := [⟨1, 2, 1900, 4000, [], true⟩] } }).writeBytes crownBase
    ((toLE 8 (1 + 2 * 256 + 4 * 65536 + 3 * 2 ^ 23) ++ toLE 8 2 ++ toLE 8 (3 + 5 * 256) ++ toLE 8 4 ++ toLE 8 5) ++ List.replicate 512 0 ++ toLE 8 (6 + 256) ++ toLE 8 7)

theorem witness_RawPrograms : (rawIn 71).time.running = true ∧ (running).time.running = true ∧ SMap.rises running.rwt 0 = true
    ∧ (rawIn 71).tpl.pims.find? (fun w => w.raw && w.stack == 1) = some ⟨1, 2, 1900, 4000, [], true⟩ ∧ (rawIn 71).bit (Reg.DBR_RAW_CTL 1) 16 = true
    ∧ ((rawIn 71).dbr 1).raw = none ∧ (rawIn 71).time.cc < 2 * 4000 ∧ (rawIn 71).fld (Reg.DBR_RAW_CTL 1) 11 0 = 71 ∧ (rawIn 71).rg64 (Reg.DBR_RAW_PROG_LO 1) = crownBase
    ∧ (rawParse (rawIn 71) 1 71 71 0 {}).bad = false ∧ (rawParse (rawIn 71) 1 71 71 0 {}).cur = none ∧ (rawParse (rawIn 71) 1 71 71 0 {}).segs.map (·.pc) = [2]
    ∧ (rawPlace (rawIn 71) 1 1900 4000 (rawParse (rawIn 71) 1 71 71 0 {}).segs 1900 []).2 = true ∧ crownBase % 8 = 0 ∧ inSram crownBase = true ∧ crownBase + 8 * 71 ≤ crownEnd
    ∧ (rawIn 71).rg64 (Reg.DBR_RAW_OUT_LO 1) = crownBase + 4096 ∧ (crownBase + 4096) % 32 = 0 ∧ inSram (crownBase + 4096) = true
    ∧ crownBase + 4096 + (rawPlace (rawIn 71) 1 1900 4000 (rawParse (rawIn 71) 1 71 71 0 {}).segs 1900 []).1.foldl (fun a r => a + rawBytes r.seg) 0 ≤ crownEnd
    ∧ (rawIn 0).fld (Reg.DBR_RAW_CTL 1) 11 0 = 0
    ∧ ((inWindow.setDbr 1 { ({} : Dbr) with raw := some [⟨segFull, 2000, 0⟩] }).dbr 1).raw = some [⟨segFull, 2000, 0⟩]
    ∧ chanPim (rawIn 71) 1 2 = true ∧ (rawIn 71).up .dbr 1 = true ∧ (rawIn 71).clocksStopped = false ∧ SMap.rises (rawIn 71).dbrs 0 = true :=  by decide +kernel

/-- A Trowel channel of engine 1 that is on, in one state, with a descriptor of 64 bytes from crown SRAM to crown SRAM at its head. -/
def trwIn (t : TrwCh) : State :=
  ({ regsIn State.reset [(Reg.BLK_CTL .trw 1, 1), (Reg.TRW_CH_HEAD_LO 1 2, crownBase % 2 ^ 32)] with trw := SMap.set [] {} 10 t }).writeBytes crownBase
    (toLE 8 (crownBase + 4096) ++ toLE 8 (crownBase + 8192) ++ toLE 4 64 ++ [0, 0, 0, 6, 0, 0])

/-- A running descriptor with a burst unread, and one read. -/
def burst (data : Option (List Nat)) : TrwCh :=
  { st := .run, addr := crownBase, d := { src := crownBase + 4096, dst := fenBase + 8192, len := 64, burst := 6 }, issued := 64, bursts := [⟨0, 64, data, 1⟩] }

theorem witness_TrowelStartsAndFetches : (trwIn {}).up .trw 1 = true ∧ ((trwIn {}).trwCh 1 2).st = .idle ∧ State.reset.up .trw 1 = false
    ∧ ((trwIn { st := .halted }).trwCh 1 2).st = .halted ∧ ((trwIn { st := .fetch, addr := 5 }).trwCh 1 2).st = .fetch ∧ 5 % 64 ≠ 0
    ∧ ((trwIn { st := .fetch, addr := crownBase }).trwCh 1 2).addr % 64 = 0 ∧ inSram crownBase = true
    ∧ descCheck (trwIn {}) 1 (descAt (trwIn {}) crownBase) = stOK ∧ descCheck State.reset 1 (descAt State.reset crownBase) ≠ stOK
    ∧ ((trwIn { st := .fetch, addr := crownBase, abort := true }).trwCh 1 2).abort = true ∧ ((trwIn { st := .run }).trwCh 1 2).st = .run
    ∧ ((trwIn { st := .run }).trwCh 1 2).d = {} := by decide +kernel

theorem witness_NoTrowelChannelRuns : ∀ k, (State.reset.trwCh 1 k).st ≠ .run := fun _ h => TrwSt.noConfusion (show TrwSt.idle = TrwSt.run from h)

theorem witness_TrowelBursts : (burst none).bursts.find? (fun b => b.slot == 1 && b.data.isNone) = some ⟨0, 64, none, 1⟩ ∧ inNvme ((burst none).d.srcAt 0) = false
    ∧ memWaiting (trwIn (burst none)) ((burst none).d.srcAt 0) (readSrc 1 2 1) = 0
    ∧ ((trwIn (burst none)).trwCh 1 2) = burst none ∧ (burst (some [7])).bursts.find? (fun b => b.slot == 1 && b.data.isSome) = some ⟨0, 64, some [7], 1⟩ ∧ inNvme ((burst none).d.dstAt 0) = false
    ∧ memWaiting (trwIn (burst (some [7]))) ((burst none).d.dstAt 0) (writeSrc 1 2 1) = 0 := by decide +kernel

/-- A feed record that a running feed descriptor of channel 2 of engine 1 takes, one that none takes, and one for which no burst slot is left. -/
def feeding (bursts : List Burst) : State :=
  { trwIn { st := .run, d := { ctl := 4, feed := 4, len := 64, dst := crownBase }, bursts := bursts } with feeds := SMap.set [] [] 3 [[1, 2, 3]] }

theorem witness_FeedRecords : SMap.get (feeding []).feeds [] 3 = [[1, 2, 3]] ∧ SMap.get (feeding []).feeds [] 7 = []
    ∧ feedChannel { feeding [] with feeds := [] } 4 = some (8 * 1 + 2) ∧ feedChannel { feeding [] with feeds := [] } 5 = none
    ∧ trwAllIssued ((feeding []).trwCh 1 2) = false ∧ ((feeding []).trwCh 1 2).bursts = []
    ∧ 2 ≤ ((feeding [⟨0, 16, none, 0⟩, ⟨16, 16, none, 1⟩]).trwCh 1 2).bursts.length := by decide +kernel

/-- A free RIDDLE port and a busy one, a lookup whose result is due and one not yet, with and without an entry, an INSERT and a DELETE in front whose time
has come and one whose time has not, and no command. The counter does not run in the states where the cycles pass, and is at a tick's end where they do not. -/
def insertCmd (core at_ : Nat) : RdlCmd := ⟨core, true, 1, 2, 3, false, 4, 5, 6, at_⟩
def deleteCmd : RdlCmd := ⟨0, false, 1, 2, 3, false, 4, 5, 6, 0⟩
def riddling (looks : List RdlLook) (cmds : List RdlCmd) (s : State) : State :=
  { s with rdl := { s.rdl with looks := looks, cmds := cmds, plan := if cmds.isEmpty then none else some ⟨stOK, false, 0, 0⟩ } }
def tickEnd : State := { running with time := { running.time with cc := running.lcc - 1 } }

theorem witness_Riddle : rdlBusy State.reset 3 = false ∧ rdlBusy (State.reset.setRg (Reg.RDL_RES 3) 256) 3 = true
    ∧ (riddling [⟨2, none, none, 0⟩] [] State.reset).rdl.looks.find? (·.port == 2) = some ⟨2, none, none, 0⟩
    ∧ (riddling [⟨2, some (5, {}), none, 0⟩] [] State.reset).rdl.looks.find? (·.port == 2) = some ⟨2, some (5, {}), none, 0⟩
    ∧ (reachUp (riddling [⟨2, none, none, 0⟩] [] State.reset) (0 + 24)).isSome = true ∧ reachUp (riddling [⟨2, none, none, 0⟩] [] tickEnd) (0 + 24) = none
    ∧ (riddling [] [insertCmd 0 0] State.reset).rdl.cmds = insertCmd 0 0 :: [] ∧ (riddling [] [deleteCmd] State.reset).rdl.cmds = deleteCmd :: []
    ∧ (riddling [] [insertCmd 0 0] State.reset).rdl.plan = some ⟨stOK, false, 0, 0⟩
    ∧ (reachUp (riddling [] [insertCmd 0 0] State.reset) (0 + rdlTime (insertCmd 0 0) ⟨stOK, false, 0, 0⟩)).isSome = true
    ∧ reachUp (riddling [] [insertCmd 0 0] tickEnd) (0 + rdlTime (insertCmd 0 0) ⟨stOK, false, 0, 0⟩) = none
    ∧ (∀ x ∈ [insertCmd 3 7], x.issued ≠ (insertCmd 0 8).issued) ∧ rdlQueue (insertCmd 0 7) [insertCmd 3 7] = [insertCmd 0 7, insertCmd 3 7]
    ∧ State.reset.rdl.cmds = [] ∧ (⟨stOK, false, 0, 0⟩ : RdlPlan).found = false := by decide +kernel

/-- Tile `n` running, at the first word of its code, which is `w`, with the mesh on. -/
def tileAt (n w : Nat) (x : Tile) : State :=
  ({ regsIn running [(Reg.BLK_CTL .msh 0, 1), (Reg.BLK_CTL .fen 3, 1)] with tiles := SMap.set [] {} n { x with st := .running } }).writeBytes (privBase n) (toLE 4 w)

/-- An instruction word of opcode `op` with D = 1, A = 2 and B = 3. -/
def wordOf (op : Nat) : Nat := op + 0x100 + 2 * 2 ^ 13 + 3 * 2 ^ 18

theorem witness_EveryOpcodeIssues : ∀ op ∈ [0x01, 0x02, 0x03, 0x04, 0x05, 0x06, 0x07, 0x08, 0x09, 0x0A, 0x18, 0x19, 0x1A, 0x1B, 0x1C, 0x1D, 0x1E, 0x20, 0x21, 0x22, 0x23, 0x24, 0x25,
      0x26, 0x30, 0x31, 0x32, 0x33, 0x34, 0x35, 0x36, 0x37, 0x38, 0x40, 0x41, 0x42, 0x43, 0x44, 0x45, 0x46, 0x48, 0x49, 0x4A, 0x4B],
    IssuesAt (tileAt 127 (wordOf op) {}) 127 (wordOf op) ∧ wordOf op % 256 = op := by unfold IssuesAt; decide +kernel

/-- A register file with one register set. -/
theorem witness_RegisterWrites : SMap.rises (SMap.set [] 0 4 7 : SMap DWord) 0 = true ∧ SMap.rises (SMap.set [] [] 4 [1#32] : SMap (List F32)) 0 = true := by decide +kernel

/-- A tile whose A register holds an address, given as words of registers 2 and 3. -/
def holding (a b : Nat) : Tile := (({} : Tile).setG 2 a).setG 3 b

/-- Aligned addresses at both ends of the tile's own memory, a misaligned one, and one in its code, which it may not store to. -/
theorem witness_LoadsAndStores : ∀ op ∈ [0x10, 0x11, 0x12, 0x13, 0x14, 0x15], ∀ a ∈ [privBase 127 + 0x40000, privBase 127 + 0x180000 - 256],
    IssuesAt (tileAt 127 (op + 2 * 2 ^ 13) (holding a 0)) 127 (op + 2 * 2 ^ 13) ∧ (op + 2 * 2 ^ 13) % 256 = op
    ∧ mod64 ((((tileAt 127 (op + 2 * 2 ^ 13) (holding a 0)).tile 127).gr (fA (op + 2 * 2 ^ 13)) : Int) + fImm14 (op + 2 * 2 ^ 13)) = a
    ∧ a % 256 = 0 ∧ tileReads 127 a 256 = true ∧ tileWrites 127 a 256 = true ∧ tileRange 127 a 256 ≠ some 3 ∧ tileReads 127 a 4 = true ∧ tileRange 127 a 4 ≠ some 3
    ∧ tileReads 127 a 8 = true ∧ tileWrites 127 a 8 = true ∧ tileWrites 127 a 4 = true := by unfold IssuesAt; decide +kernel

theorem witness_LoadsAndStoresThatStop : ((tileAt 3 0x10 {}).tile 3).gr 0 = 0 ∧ (privBase 3 + 1) % 8 ≠ 0 ∧ privBase 3 % 8 = 0 ∧ tileWrites 3 (privBase 3) 8 = false := by decide +kernel

/-- A tile whose instruction names its partner's slice, with port B free, with it held by itself, and with it held by Trowel. -/
def reaching (op : Nat) (holder : Option PortReq) : State :=
  (tileAt 6 (op + 2 * 2 ^ 13) (holding (sliceBase 7) 0)).setPb 7 { holder := holder }

theorem witness_PartnerSlice : ∀ op ∈ [0x10, 0x11, 0x12, 0x13, 0x14, 0x15], IssuesAt (reaching op none) 6 (op + 2 * 2 ^ 13) ∧ IssuesAt (reaching op (some ⟨300, 0⟩)) 6 (op + 2 * 2 ^ 13)
    ∧ ((reaching op none).tile 6).gr (fA (op + 2 * 2 ^ 13)) = sliceBase 7 ∧ fImm14 (op + 2 * 2 ^ 13) = 0 ∧ sliceBase 7 % 256 = 0 ∧ tileRange 6 (sliceBase 7) 256 = some 3
    ∧ tileReads 6 (sliceBase 7) 256 = true ∧ tileWrites 6 (sliceBase 7) 256 = true ∧ portWaits (reaching op none) 6 (sliceBase 7) 256 = false
    ∧ portWaits (reaching op (some ⟨6, 0⟩)) 6 (sliceBase 7) 256 = false ∧ portWaits (reaching op (some ⟨300, 0⟩)) 6 (sliceBase 7) 256 = true := by unfold IssuesAt; decide +kernel

/-- A store that touches an issued copy's source, and one that does not. -/
theorem witness_TornBytes : (⟨0x4B, 1, 3, toLE 8 (privBase 3 + 0x40000) ++ toLE 8 (privBase 3 + 0x50000) ++ toLE 8 128, false, false⟩ : BlockOp).touches (privBase 3 + 0x40000 + 120) 8 = true
    ∧ (⟨0x4B, 1, 3, toLE 8 (privBase 3 + 0x40000) ++ toLE 8 (privBase 3 + 0x50000) ++ toLE 8 128, false, false⟩ : BlockOp).touches (privBase 3 + 0x40000 + 128) 8 = false := by decide +kernel

/-- WAITCC at, before and after its cc, and RECV with and without a record, and FENCE with a block operation. -/
theorem witness_Waits : ((holding 0 0).gr 2 ≤ running.time.cc) ∧ running.time.cc < (holding 1 0).gr 2 ∧ fFn (wordOf 0x1D) % 2 = 0 ∧ fFn (wordOf 0x1D + 2 ^ 23) % 2 = 1
    ∧ SMap.get ({ holding 1 0 with recs := SMap.set [] [] 3 [9, 8] } : Tile).recs [] (fB (wordOf 0x41)) = 9 :: [8]
    ∧ SMap.get (holding 0 0).recs [] (fB (wordOf 0x41)) = [] ∧ (holding 0 0).blocks = [] ∧ (holding 0 0).fens = []
    ∧ ({ holding 0 0 with blocks := [⟨0x30, 1, 3, [], false, false⟩] } : Tile).blocks ≠ [] := by decide +kernel

/-- The vector units free and held, by MERGE and by PAGE. -/
theorem witness_VectorUnits : (∀ op ∈ [0x20, 0x21, 0x22, 0x23, 0x24, 0x25, 0x26], unitHeld {} op = false ∧ unitHeld { ({} : Tile) with blocks := [⟨0x38, 1, 3, [], false, false⟩] } op = true)
    ∧ unitHeld { ({} : Tile) with blocks := [⟨0x36, 1, 3, [], false, false⟩] } 0x20 = true ∧ unitHeld { ({} : Tile) with blocks := [⟨0x36, 1, 3, [], false, false⟩] } 0x24 = false := by decide +kernel

/-- A resting tile that is on and one that is off, an armed one, and images of no and of a legal length. -/
theorem witness_TilesStart : ({} : Tile).st = .stopped ∧ (State.reset.setRg (Reg.BLK_CTL .til 9) 1).up .til 9 = true ∧ State.reset.up .til 9 = false
    ∧ State.reset.halted .til 9 = false ∧ (State.reset.setTile 9 { st := .armed }).tile 9 = { st := .armed }
    ∧ (State.reset.setTile 9 { st := .halted }).tile 9 = { st := .halted } ∧ (State.reset.setTile 9 { st := .measure }).tile 9 = { st := .measure }
    ∧ State.reset.fld (Reg.TIL_IMG_LEN 9) 17 0 = 0 ∧ (State.reset.setRg (Reg.TIL_IMG_LEN 9) 131072).fld (Reg.TIL_IMG_LEN 9) 17 0 = 131072
    ∧ (State.reset.setRg (Reg.TIL_IMG_LEN 9) 128).fld (Reg.TIL_IMG_LEN 9) 17 0 = 128
    ∧ ((running.setTile 9 { st := .running, wait := some (.cc 0 false) }).tile 9).wait = some (.cc 0 false) ∧ 0 < (running.setTile 9 { st := .running }).lcc
    ∧ (running.setTile 9 { st := .running, wait := some (.cc 0 false) }).time.running = true := by decide +kernel

/-- A descriptor of 64 bytes that every block instruction takes: code 0, d = 64, kvh 1, T = 224, 32 rows, its addresses in the tile's own memory. -/
def blkBytes (n aux : Nat) : List Nat :=
  toLE 8 (privBase n + 0x60000) ++ toLE 8 (privBase n + 0x80000) ++ toLE 8 aux ++ [32, 0, 0, 2, 1, 0, 224, 0] ++ [0, 0, 0, 0, 1, 0, 0, 0] ++ List.replicate 16 0 ++ toLE 8 (privBase n + 0x60000)

/-- A tile at a block instruction whose descriptor is at `a`. -/
def blkTile (n op a aux : Nat) : State := (tileAt n (wordOf op) (holding a (privBase n + 0x60000))).writeBytes (privBase n + 0x50000) (blkBytes n aux)

theorem witness_BlockInstructions : ∀ op ∈ [0x30, 0x31, 0x32, 0x33, 0x34, 0x35, 0x36, 0x37, 0x38],
    IssuesAt (blkTile 2 op (privBase 2 + 0x50000) (privBase 2 + 0xA0000)) 2 (wordOf op) ∧ ((blkTile 2 op (privBase 2 + 0x50000) (privBase 2 + 0xA0000)).tile 2).gr (fA (wordOf op)) = privBase 2 + 0x50000
    ∧ Nat.land (unitsBusy ((blkTile 2 op (privBase 2 + 0x50000) (privBase 2 + 0xA0000)).tile 2)) (opUnits op) = 0 ∧ (privBase 2 + 0x50000) % 64 = 0
    ∧ blockOk 2 op (fB (wordOf op)) (blkDesc ((blkTile 2 op (privBase 2 + 0x50000) (privBase 2 + 0xA0000)).readBytes (privBase 2 + 0x50000) 64)) = true
    ∧ inFen (blkDesc ((blkTile 2 op (privBase 2 + 0x50000) (privBase 2 + 0xA0000)).readBytes (privBase 2 + 0x50000) 64)).aux = false := by unfold IssuesAt; decide +kernel

/-- A descriptor out of alignment, a busy unit, the copies BCOPY takes and refuses, and operations under way, whole and torn. -/
def working (op : Nat) (desc : List Nat) (torn : Bool) : State := running.setTile 2 { st := .running, blocks := [⟨op, 1, 3, desc, torn, false⟩] }

theorem witness_BlockInstructionsThatWait : (privBase 2 + 1) % 64 ≠ 0
    ∧ Nat.land (unitsBusy { ({} : Tile) with blocks := [⟨0x38, 1, 3, [], false, false⟩] }) (opUnits 0x30) ≠ 0
    ∧ Nat.land (unitsBusy { ({} : Tile) with blocks := [⟨0x4B, 1, 3, [], false, false⟩] }) (opUnits 0x4B) ≠ 0
    ∧ 128 * (fFn (wordOf 0x4B) + 1) = 128 ∧ blockOk 2 0x4B 3 (blkDesc (toLE 8 (privBase 2 + 0x50000) ++ toLE 8 (privBase 2 + 0x60000) ++ toLE 8 128)) = true
    ∧ blockOk 2 0x4B 3 (blkDesc (toLE 8 5 ++ toLE 8 (privBase 2 + 0x60000) ++ toLE 8 128)) = false ∧ blockOk 2 0x30 8 (blkDesc (blkBytes 2 0)) = false
    ∧ (∀ torn ∈ [false, true], ((working 0x4B (blkBytes 2 0) torn).tile 2).blocks[0]? = some ⟨0x4B, 1, 3, blkBytes 2 0, torn, false⟩ ∧ ((working 0x4B (blkBytes 2 0) torn).tile 2).st = .running)
    ∧ (working 0x4B (blkBytes 2 0) false).clocksStopped = false ∧ inFen (blkDesc (blkBytes 2 0)).aux = false
    ∧ inFen (blkDesc (blkBytes 2 fenBase)).aux = true ∧ fenPending (working 0x38 (blkBytes 2 fenBase) false) 0 0 2 = false := by decide +kernel

/-- A PAGE on a fen page, and a copy from the partner's slice with port B free and held. -/
def copying (holder : Option PortReq) : State := (tileAt 2 (wordOf 0x4B) (holding (sliceBase 3) (privBase 2 + 0x60000))).setPb 3 { holder := holder }

theorem witness_BlockReach : blockOk 2 0x38 3 (blkDesc (blkBytes 2 fenBase)) = true ∧ blockFar (blkTile 2 0x38 (privBase 2 + 0x50000) fenBase) 2 0x38 (blkDesc (blkBytes 2 fenBase)) = false
    ∧ IssuesAt (copying none) 2 (wordOf 0x4B) ∧ IssuesAt (copying (some ⟨300, 0⟩)) 2 (wordOf 0x4B)
    ∧ blockOk 2 0x4B 3 (blkDesc (toLE 8 (sliceBase 3) ++ toLE 8 (privBase 2 + 0x60000) ++ toLE 8 128)) = true
    ∧ (∀ h ∈ [none, some ⟨300, 0⟩], blockFar (copying h) 2 0x4B (blkDesc (toLE 8 (sliceBase 3) ++ toLE 8 (privBase 2 + 0x60000) ++ toLE 8 128)) = true)
    ∧ portFree (copying none) 2 = true ∧ portFree (copying (some ⟨300, 0⟩)) 2 = false := by unfold IssuesAt; decide +kernel

/-- A tile at POLL, MODEQ, CSRR and CSRW, with a record, with every channel's CSR, and at an address that is no CSR. -/
theorem witness_PollModeqCsr : SMap.get ({ holding 1 0 with recs := SMap.set [] [] 3 [9] } : Tile).recs [] (fB (wordOf 0x42)) = 9 :: []
    ∧ ((tileAt 6 (wordOf 0x43) (holding 3 0)).tile 6).gr (fA (wordOf 0x43)) % 8 = 3 ∧ routeBlocked (tileAt 6 (wordOf 0x43) (holding 3 0)) 6 (128 + 3) = false
    ∧ routeBlocked (tileAt 6 (wordOf 0x43) (holding 3 0)) (128 + 3) 6 = false ∧ routeBlocked ((tileAt 6 (wordOf 0x43) (holding 3 0)).setRg (Reg.BLK_CTL .msh 0) 0) 6 (128 + 3) = true
    ∧ fCsr (wordOf 0x48) = 0 ∧ fCsr (0x48 + 0x50 * 2 ^ 20) = 0x50 + 0 ∧ fCsr (0x48 + 0x5F * 2 ^ 20) = 0x50 + 15 ∧ 0x60 ≤ fCsr (0x48 + 0x60 * 2 ^ 20)
    ∧ fCsr (0x49 + 0x20 * 2 ^ 20) = 0x20 + 0 ∧ fCsr (0x49 + 0x2F * 2 ^ 20) = 0x20 + 15 ∧ fCsr (0x49 + 2 * 2 ^ 20) = 2
    ∧ IssuesAt (tileAt 6 (0x48 + 0x5F * 2 ^ 20) {}) 6 (0x48 + 0x5F * 2 ^ 20) ∧ IssuesAt (tileAt 6 (0x49 + 0x2F * 2 ^ 20) {}) 6 (0x49 + 0x2F * 2 ^ 20) := by unfold IssuesAt; decide +kernel

/-- A tile at a SEND of 1 flit to the last address, of 1,024 flits, of none and to no address, and of a booked SEND without a booking. -/
theorem witness_Sends : ∀ f ∈ [1, 1024], IssuesAt (tileAt 6 (wordOf 0x40) (holding (privBase 6 + 0x40000) (143 + f * 2 ^ 16))) 6 (wordOf 0x40)
    ∧ ((tileAt 6 (wordOf 0x40) (holding (privBase 6 + 0x40000) (143 + f * 2 ^ 16))).tile 6).gr (fB (wordOf 0x40)) = 143 + f * 2 ^ 16
    ∧ bitOf (143 + f * 2 ^ 16) 12 = false ∧ (143 + f * 2 ^ 16) % 256 < 144 ∧ bitsOf (143 + f * 2 ^ 16) 26 16 = f ∧ tileReads 6 (privBase 6 + 0x40000) (64 * f) = true
    ∧ 144 ≤ (144 + 2 ^ 16) % 256 ∧ bitsOf 143 26 16 = 0 ∧ 1024 < bitsOf (1025 * 2 ^ 16) 26 16 ∧ bitOf (2 ^ 12) 12 = true
    ∧ bookIs (tileAt 6 (wordOf 0x40) (holding 0 (2 ^ 12))) 6 (bitsOf (2 ^ 12) 43 32) 0x09 = false := by unfold IssuesAt; decide +kernel

/-- A tile at a SEND from its partner's slice, and one at a SEND booked to begin by cc 100, in time and late. -/
def sendAt (cc : Nat) : State :=
  ({ tileAt 6 (wordOf 0x40) (holding (privBase 6 + 0x40000) (2 ^ 12)) with time := { running.time with cc := cc } }).writeBytes (privBase 6 + 0x20000)
    (toLE 8 0 ++ toLE 8 1 ++ List.replicate 48 0 ++ (toLE 4 100 ++ toLE 4 0 ++ [9, 0, 1, 0] ++ toLE 4 5 ++ [9] ++ List.replicate 7 0 ++ toLE 8 (gatherBase 9)))

theorem witness_BookedSends : tileReads 6 (sliceBase 7) 64 = true ∧ portWaits ((tileAt 6 (wordOf 0x40) (holding (sliceBase 7) (143 + 2 ^ 16))).setPb 7 { holder := some ⟨300, 0⟩ }) 6 (sliceBase 7) 64 = true
    ∧ IssuesAt (sendAt 100) 6 (wordOf 0x40) ∧ IssuesAt (sendAt 101) 6 (wordOf 0x40) ∧ bitsOf (((sendAt 100).tile 6).gr (fB (wordOf 0x40))) 43 32 = 0 ∧ bitOf (((sendAt 100).tile 6).gr (fB (wordOf 0x40))) 12 = true
    ∧ bookIs (sendAt 100) 6 0 0x09 = true ∧ bookIs (sendAt 101) 6 0 0x09 = true ∧ (sendAt 100).readLE (bookEntry 6 0 + 10) 2 = 1 ∧ tileReads 6 (privBase 6 + 0x40000) (64 * 1) = true
    ∧ (sendAt 100).time.cc ≤ (sendAt 100).readLE (bookEntry 6 0) 4 ∧ (sendAt 101).readLE (bookEntry 6 0) 4 < (sendAt 101).time.cc ∧ (sendAt 100).up .msh 0 = true
    ∧ portWaits (sendAt 100) 6 (privBase 6 + 0x40000) 64 = false := by unfold IssuesAt; decide +kernel

/-- A tile at a HANDOFF of one row, booked to begin by cc 100, for request slot 0. -/
def handoffAt (cc : Nat) : State :=
  ({ tileAt 6 (wordOf 0x46) (holding (privBase 6 + 0x40000) 0) with time := { running.time with cc := cc } }).writeBytes (privBase 6 + 0x20000)
    (toLE 8 0 ++ toLE 8 1 ++ List.replicate 48 0 ++ (toLE 4 100 ++ toLE 4 0 ++ [7, 0, 1, 0] ++ List.replicate 20 0))

theorem witness_Handoffs : IssuesAt (handoffAt 100) 6 (wordOf 0x46) ∧ ((handoffAt 100).tile 6).gr (fB (wordOf 0x46)) = 0 ∧ ((handoffAt 100).tile 6).gr (fA (wordOf 0x46)) = privBase 6 + 0x40000
    ∧ bookIs (handoffAt 100) 6 0 0x07 = true ∧ bookIs (handoffAt 101) 6 0 0x07 = true ∧ IssuesAt (handoffAt 101) 6 (wordOf 0x46)
    ∧ entrySlot (handoffAt 100) 6 0 = 0 ∧ portWaits (handoffAt 100) 6 (privBase 6 + 0x40000) 2048 = false ∧ (handoffAt 100).readLE (bookEntry 6 0 + 10) 2 = 1
    ∧ tileReads 6 (privBase 6 + 0x40000) (1 * (4 * (32 * areqD32 ((handoffAt 100).reqAt (rSlot ((handoffAt 100).readLE (bookEntry 6 0 + 12) 4)))) + 16)) = true
    ∧ (handoffAt 100).time.cc ≤ (handoffAt 100).readLE (bookEntry 6 0) 4 ∧ (handoffAt 101).readLE (bookEntry 6 0) 4 < (handoffAt 101).time.cc
    ∧ bookIs (tileAt 6 (wordOf 0x46) {}) 6 0 0x07 = false := by unfold IssuesAt; decide +kernel

/-- A tile at FENRD and FENWR of the last 128 bytes of a frame of stack 3, and addresses out of alignment and range. -/
theorem witness_FenInstructions : ∀ op ∈ [0x44, 0x45], ∀ f ∈ [fenBase + 3 * 2 ^ 37, fenBase + 3 * 2 ^ 37 + 65536 - 128],
    IssuesAt (tileAt 6 (wordOf op) (holding f (privBase 6 + 0x40000))) 6 (wordOf op) ∧ ((tileAt 6 (wordOf op) (holding f (privBase 6 + 0x40000))).tile 6).gr (fA (wordOf op)) = f
    ∧ ((tileAt 6 (wordOf op) (holding f (privBase 6 + 0x40000))).tile 6).gr (fB (wordOf op)) = privBase 6 + 0x40000 ∧ 128 * (fFn (wordOf op) + 1) = 128
    ∧ f % 128 = 0 ∧ (privBase 6 + 0x40000) % 128 = 0 ∧ f % 65536 + 128 ≤ 65536 ∧ tileReads 6 (privBase 6 + 0x40000) 128 = true
    ∧ tileWrites 6 (privBase 6 + 0x40000) 128 = true ∧ inFen f = true ∧ inFen 5 = false
    ∧ routeBlocked (tileAt 6 (wordOf op) (holding f (privBase 6 + 0x40000))) 6 (128 + addrStack f) = false
    ∧ crownFull (tileAt 6 (wordOf op) (holding f (privBase 6 + 0x40000))) (addrStack f) (addrPc f) = false ∧ (fenBase + 5) % 128 ≠ 0
    ∧ portWaits (tileAt 6 (wordOf op) (holding f (privBase 6 + 0x40000))) 6 (privBase 6 + 0x40000) 128 = false := by unfold IssuesAt; decide +kernel

/-- A fen access of the mesh-on tile 6 to stack 3, served; the same still waiting in the crown queue; a full crown queue; and a FENWR whose bytes wait for port B. -/
def fenAt (write : Bool) (st : TileSt) : State :=
  (tileAt 6 0 {}).setTile 6 { st := st, fens := [{ write := write, fen := fenBase + 3 * 2 ^ 37, local_ := privBase 6 + 0x40000, bytes := 128 }] }
def fenWaits (n : Nat) (s : State) : State := s.setChan 3 0 { s.chan 3 0 with crownQ := List.replicate n ⟨0, 6, 2, 0⟩ }
def fenPartner (s : State) : State := (s.setPb 7 { waiting := [⟨6, 0⟩], holder := some ⟨300, 0⟩ }).setTile 6 { s.tile 6 with
  fens := [{ write := false, fen := fenBase + 3 * 2 ^ 37, local_ := sliceBase 7, bytes := 128 }] }

theorem witness_FenAccesses : (∀ write ∈ [false, true], ((fenAt write .running).tile 6).fens[0]? = some { write := write, fen := fenBase + 3 * 2 ^ 37, local_ := privBase 6 + 0x40000, bytes := 128 }
      ∧ fenServed (fenAt write .running) 6 0 { write := write, fen := fenBase + 3 * 2 ^ 37, local_ := privBase 6 + 0x40000, bytes := 128 } = true
      ∧ fenServed (fenWaits 1 (fenAt write .running)) 6 0 { write := write, fen := fenBase + 3 * 2 ^ 37, local_ := privBase 6 + 0x40000, bytes := 128 } = false)
    ∧ routeBlocked (fenAt true .running) (128 + 3) 6 = false ∧ (fenAt true .running).en .fen 3 = true ∧ ((fenAt true .running).setRg (Reg.BLK_CTL .fen 3) 0).en .fen 3 = false
    ∧ routeBlocked ((fenAt true .running).setTile 9 { st := .isolated }) (128 + 3) 6 = (routeRouters (128 + 3) 6 ⟨true, none⟩).contains 9
    ∧ routeBlocked (fenAt true .isolated) (128 + 3) 6 = true ∧ crownFull (fenWaits 64 (fenAt true .running)) 3 0 = true ∧ addrStack (fenBase + 3 * 2 ^ 37) = 3 ∧ addrPc (fenBase + 3 * 2 ^ 37) = 0
    ∧ portWaits (fenAt false .running) 6 (privBase 6 + 0x40000) 128 = false ∧ ((fenAt false .stopped).tile 6).st = .stopped ∧ routeBlocked (fenAt false .stopped) (128 + 3) 6 = false
    ∧ portWaits (fenPartner (fenAt false .running)) 6 (sliceBase 7) 128 = true ∧ ((fenPartner (fenAt false .running)).pb (Nat.xor 6 1)).waiting.any (·.src == 6) = true
    ∧ tileReads 6 (sliceBase 7) 128 = true := by decide +kernel

/-- Messages of two sources at an ejection port: one picked out of its source's turn, one that fits its ring, one for a full ring and one for no ring, one that
holds the port, and flits with a good and with a bad checksum. -/
def msgOf (src chan : Nat) : Msg := ⟨src, 4, chan, 9, List.replicate 64 5, 0⟩
def ejecting (x : Tile) : Tile := { x with st := .running, eject := [msgOf 1 0, msgOf 2 0, msgOf 1 0], chBase := SMap.set [] 0 0 (gatherBase 4), chSize := SMap.set [] 15 0 6 }
def ejectAt (x : Tile) : State := (regsIn running [(Reg.BLK_CTL .msh 0, 1)]).setTile 4 x

theorem witness_Ejections : (ejecting {}).eject[2]? = some (msgOf 1 0) ∧ ((ejecting {}).eject.take 2).any (·.src == 1) = true ∧ (ejecting {}).eject[1]? = some (msgOf 2 0)
    ∧ ((ejecting {}).eject.take 1).any (·.src == 2) = false ∧ ringOf 4 (ejecting {}) 0 = some 6 ∧ ringOf 4 (ejecting {}) 3 = none
    ∧ (SMap.get (ejecting {}).chWr 0 0 + 2 ^ 64 - SMap.get (ejecting {}).chRd 0 0) % 2 ^ 64 + flits 64 ≤ 2 ^ 6 ∧ (SMap.get (ejecting {}).recs [] 0).length < 64
    ∧ (SMap.get ({ ejecting {} with chWr := SMap.set [] 0 0 63 } : Tile).chWr 0 0 + 2 ^ 64 - 0) % 2 ^ 64 + flits 64 ≤ 2 ^ 6
    ∧ 2 ^ 6 < (SMap.get ({ ejecting {} with chWr := SMap.set [] 0 0 64 } : Tile).chWr 0 0 + 2 ^ 64 - 0) % 2 ^ 64 + flits 64
    ∧ ((ejectAt { ejecting {} with hold := some 0 }).tile 4).hold = some 0 ∧ (0 + 16384 ≤ 16384 ∧ 16383 < 0 + 16384) ∧ poisoned none = false
    ∧ poisoned (some (List.replicate 72 0)) = true ∧ (ejectAt (ejecting {})).up .msh 0 = true ∧ State.reset.up .msh 0 = false := by decide +kernel

/-- A transfer handed to VC0, one of the plan alone, a direct write at both ends of a gather buffer, and a message held 65,536 cc at a router. -/
def planXfer : Xfer := { start := 100, flits := 4, src := 4, dst := 9, links := [], slot := 5, legs := 0 }

theorem witness_Transfers : ({ State.reset with direct := [⟨4, 9, gatherBase 9, [1], 100, 5⟩] } : State).direct.find? (fun y => y.src == 4 && y.dst == 9) = some ⟨4, 9, gatherBase 9, [1], 100, 5⟩
    ∧ State.reset.direct.find? (fun y => y.src == 4 && y.dst == 9) = none
    ∧ nextXfer { running with tpl := { running.tpl with xfers := [planXfer, { planXfer with start := 200 }, { planXfer with start := 50, sent := true }] } } 4 9 = some planXfer
    ∧ flits 256 ≤ planXfer.flits ∧ gatherBase 9 + 0x180000 - 4 + [1, 2, 3, 4].length ≤ gatherBase 9 + 0x180000
    ∧ ({ State.reset with time := { State.reset.time with up := 65536 }, tiles := SMap.set [] {} 4 (ejecting {}) } : State).tiles.findSome? (fun kv => (kv.2.eject.find? fun m =>
      decide (m.since + 65536 ≤ 65536) && (routeRouters m.src m.dst ⟨true, none⟩).contains 4).map fun m => (kv.1, m)) = some (4, msgOf 1 0) := by decide +kernel

/-- ETH instance 2 on, in one port of 8 lanes, with its link up. -/
def portLit : State := regsIn running [(Reg.BLK_CTL .eth 2, 1), (Reg.ETH_PSTAT 2 0, 1), (Reg.ETH_PUNT_LIM 2, 100)]

/-- A broadcast frame of the length and Ethernet type given. -/
def frameOf (len et : Nat) : List Nat := List.replicate 6 255 ++ List.replicate 6 7 ++ toBE 2 et ++ List.replicate (len - 14) 0

theorem witness_FramesComeIn : 16 / 8 = 2 ∧ subPort portLit 16 = some 0 ∧ linkIsUp portLit 16 = true
    ∧ (∀ len ∈ [60, 61], ∀ et ∈ [0x0806, 0x8809], (∀ x ∈ frameOf len et, x < 256) ∧ (frameOf len et).length = len ∧ macAccepted (portMac portLit 2 0) (macOf (frameOf len et) 0) = true
      ∧ frameTag (frameOf len et) = some (none, et, (frameOf len et).drop 14)) ∧ portLit.bit (Reg.ETH_VLAN 2 0) 12 = false
    ∧ sortFrame (portLit.count (Reg.ETH_RX_FRAMES 2)) 0x0806 ((frameOf 60 0x0806).drop 14) = .punt 4
    ∧ sortFrame (portLit.count (Reg.ETH_RX_FRAMES 2)) 0x8809 ((frameOf 60 0x8809).drop 14) = .drop
    ∧ (frameOf 59 0).length < 60 ∧ 9212 < (frameOf 9213 0).length ∧ (frameOf 9212 0).length = 9212 := by decide +kernel

/-- An IPv4 UDP packet to the node's address and UDP port, with all of them 0. -/
def itpFrame : List Nat := List.replicate 6 255 ++ List.replicate 6 7 ++ [8, 0, 0x45, 0, 0, 0, 0, 0, 0, 0, 0, 17] ++ List.replicate 40 0

theorem witness_TransportFrames : ∃ et body, (∀ x ∈ itpFrame, x < 256) ∧ 60 ≤ itpFrame.length ∧ itpFrame.length ≤ 9212 ∧ macAccepted (portMac portLit 2 0) (macOf itpFrame 0) = true
    ∧ frameTag itpFrame = some (none, et, body) ∧ sortFrame ((regsIn portLit [(Reg.ITP_UDP, 0), (Reg.FAB_ADDR_CFG, 1)]).count (Reg.ETH_RX_FRAMES 2)) et body = .itp := ⟨0x0800, itpFrame.drop 14, by decide +kernel⟩

/-- A transmit ring with one slot handed over, of the length given, for port 63 + `ring`. -/
def txRing (ring len : Nat) : State :=
  ({ regsIn running [(Reg.BLK_CTL .mgt 0, 1), (Reg.MGT_STAT 0, 1), (fringBase ring 1 + 4, crownBase / 2 ^ 32), (fringBase ring 1 + 8, 0x104), (fringBase ring 1 + 0x0C, 1)] with
    txGiven := SMap.set [] 0 ring 1, txDone := SMap.set [] 0 0 6 }).writeBytes crownBase (toLE 2 len ++ [63 + ring])

theorem witness_TransmitRings : ∀ ring ∈ [0, 1], (((txRing ring 60).rg (fringBase ring 1 + 0x0C) + 2 ^ 32 - (txRing ring 60).rg (fringBase ring 1 + 0x10)) % 2 ^ 32 ≠ 0)
    ∧ fringOk (txRing ring 60) (fringBase ring 1) = true
    ∧ txSlotOk (txRing ring 59) ring (fringSlot (txRing ring 59) (fringBase ring 1) ((txRing ring 59).rg (fringBase ring 1 + 0x10))) = false
    ∧ txSlotOk (txRing 1 60) 1 (fringSlot (txRing 1 60) (fringBase 1 1) ((txRing 1 60).rg (fringBase 1 1 + 0x10))) = true
    ∧ txSlotOk ((txRing 0 2016).writeBytes (crownBase + 2) [8]) 0 (fringSlot (txRing 0 2016) (fringBase 0 1) ((txRing 0 2016).rg (fringBase 0 1 + 0x10))) = true
    ∧ (txRing 1 60).en .mgt 0 = true ∧ (txRing 1 60).bit (Reg.MGT_STAT 0) 0 = true ∧ (txRing 0 60).rg (fringBase 0 1 + 0x10) % 2 ^ 32 = 0 ∧ SMap.get (txRing 0 60).txDone 0 0 = 5 + 1 ∧ SMap.get (txRing 0 60).txGiven 0 0 ≠ 0 := by decide +kernel

/-- A management port that is on and up, and frames of 60 and 2,016 bytes to every station. -/
theorem witness_ManagementFrames : (txRing 1 60).en .mgt 0 = true ∧ (txRing 1 60).bit (Reg.MGT_STAT 0) 0 = true
    ∧ (∀ et ∈ [0x0806, 0x88CC], beAt (frameOf 60 et) 12 2 = et ∧ ipParts et ((frameOf 60 et).drop 14) = none ∧ macOf (frameOf 60 et) 0 = 0xFFFFFFFFFFFF ∧ ∀ x ∈ frameOf 60 et, x < 256)
    ∧ (frameOf 60 0).length = 60 ∧ (frameOf 2016 0).length = 2016 ∧ (frameOf 59 0).length < 60 ∧ 2016 < (frameOf 2017 0).length
    ∧ State.reset.bit (Reg.MGT_STAT 0) 0 = false ∧ (regsIn State.reset [(Reg.BLK_CTL .mgt 0, 1)]).en .mgt 0 = true
    ∧ (regsIn State.reset [(Reg.BLK_CTL .mgt 0, 1)]).bit (Reg.MGT_STAT 0) 0 = false := by decide +kernel

/-- A slew forward under way, with the frequency word given. -/
def slewing (freq : Nat) : State := { regsIn State.reset [(Reg.PTP_STAT, 2), (Reg.PTP_FREQ, freq), (Reg.PTP_CFG, 0xFFFFFFFF)] with ptp := { ({} : PtpBlock) with slewRem := 5 } }

/-- Locked and unlocked servo, holdover, slew under way, and the loss timeout before and at its time. -/
theorem witness_NodeTime : State.reset.bit Reg.PTP_SERVO 0 = false ∧ (State.reset.setRg Reg.PTP_SERVO 1).bit Reg.PTP_SERVO 0 = true ∧ State.reset.bit Reg.PTP_STAT 0 = false
    ∧ (State.reset.setRg Reg.PTP_STAT 1).bit Reg.PTP_STAT 0 = true ∧ State.reset.en .tpl 0 = false ∧ (State.reset.setRg (Reg.BLK_CTL .tpl 0) 1).en .tpl 0 = true
    ∧ (State.reset.setRg (Reg.BLK_CTL .ptp 0) 1).en .ptp 0 = true ∧ State.reset.ptp.lastMsg - 1 + 1600000 * (State.reset.setRg Reg.PTP_LOSS_TO 0).fld Reg.PTP_LOSS_TO 15 0 ≤ State.reset.time.up
    ∧ State.reset.time.up < State.reset.ptp.lastMsg - 1 + 1600000 * (State.reset.setRg Reg.PTP_LOSS_TO 1).fld Reg.PTP_LOSS_TO 15 0
    ∧ (State.reset.setRg Reg.PTP_STAT 2).bit Reg.PTP_STAT 1 = true ∧ State.reset.bit Reg.PTP_STAT 1 = false ∧ State.reset.time.running = false
    ∧ (reachUp (State.reset.setRg Reg.PTP_STAT 2) (State.reset.ptp.slewAt + ceilDiv State.reset.ptp.slewRem (5 * slewSpeed (State.reset.setRg Reg.PTP_STAT 2)))).isSome = true
    ∧ State.reset.ptp.slewRem = 0 ∧ slewSpeed (slewing 25600000) = 0 ∧ (slewing 25600000).bit Reg.PTP_STAT 1 = true ∧ (slewing 25600000).ptp.slewRem ≠ 0 ∧ slewSpeed (slewing 25599999) ≠ 0
    ∧ State.reset.ptp.stepAt ≠ State.reset.time.up + 1 := by decide +kernel

/-- The clock on, at a time `up` cc after start time. -/
def clockAt (up : Nat) (p : PtpBlock) (stat : Nat) : State :=
  { regsIn State.reset [(Reg.BLK_CTL .ptp 0, 1), (Reg.PTP_SERVO, 1), (Reg.PTP_STAT, stat)] with time := { State.reset.time with up := up }, ptp := p }

/-- Edges before and at 0.9 s, in and out of the window, a stuck input, windows at both limits and below, and the output pin in both states. -/
theorem witness_Pins : (clockAt 1440000000 { accepted := 2 } 0).time.up < 2 - 1 + 1440000000 ∧ 1 - 1 + 1440000000 ≤ (clockAt 1440000000 { accepted := 1 } 0).time.up
    ∧ (clockAt 0 {} 0).en .ptp 0 = true ∧ (clockAt 0 {} 0).bit Reg.PTP_SERVO 0 = true ∧ toSecond (clockAt 0 {} 0).stampTime = (0, 0)
    ∧ toSecond (clockAt 800000000 {} 0).stampTime = (4000000000, 1) ∧ (clockAt 800000000 { accepted := 1 } 0).ptp.accepted ≠ 0
    ∧ (clockAt 800000000 { accepted := 1 } 0).time.up < 1 - 1 + 1440000000 ∧ (clockAt 0 {} 4).bit Reg.PTP_STAT 2 = true ∧ (clockAt 0 {} 32).bit Reg.PTP_STAT 5 = true
    ∧ (clockAt 3999999999 { edge := 1 } 0).time.up < 1 - 1 + 4000000000
    ∧ (reachUp (clockAt 7 {} 0) (7 + ceilDiv (ceilDiv (clockAt 7 {} 0).nodeTime 8000000000 * 8000000000 - (clockAt 7 {} 0).nodeTime) 5)).isSome = true ∧ 8 * (clockAt 800000000 {} 0).fld Reg.PTP_PPS_WIN 15 0 < 4000000000
    ∧ 0 ≤ 8 * (clockAt 0 {} 0).fld Reg.PTP_PPS_WIN 15 0 ∧ (clockAt 4000000000 { edge := 1 } 0).ptp.edge - 1 + 4000000000 ≤ (clockAt 4000000000 { edge := 1 } 0).time.up
    ∧ (clockAt 0 {} 0).bit Reg.PTP_STAT 2 = false ∧ (clockAt 0 {} 0).bit Reg.PTP_STAT 5 = false
    ∧ 1000000 ≤ 999980 + 1000000 * 20 / 1000000 ∧ 1000020 ≤ 1000000 + 1000000 * 20 / 1000000 ∧ 999979 + 1000000 * 20 / 1000000 < 1000000
    ∧ ((clockAt 0 {} 0).setRg Reg.PTP_PPS_OUT (2 ^ 31)).bit Reg.PTP_PPS_OUT 31 = true ∧ (clockAt 0 {} 0).ptp.ppsOut = false ∧ (clockAt 0 { ppsOut := true } 0).ptp.ppsOut = true
    ∧ (reachUp (clockAt 7 { ppsOut := true, rise := 5 } 0) (5 + ceilDiv (8 * max 1 (min 999999999 5)) 5)).isSome = true := by decide +kernel

/-- The key of the example connection, and a transport packet of opcode `op` on it: connection 9, epoch 2, counter 5, from node 3, sealed under the key. -/
def pktKey : KeySlot := { st := .live, epoch := 2, rxHigh := 4, seen := 1, conn := 9, keys := List.range 72 }
def pktHead (op : Nat) : List Nat := [1, op, 0, 0] ++ toBE 4 9 ++ toBE 2 3 ++ toBE 2 2 ++ [0, 0] ++ toBE 6 5 ++ List.replicate (20 + (extLen op).getD 0) 0
def packetOf (op : Nat) (fcs tagOk : Bool) : Packet :=
  { port := 16, fcs := fcs, frag := false, ce := false, src := 77
    bytes := (pktHead op ++ gcmSeal pktKey.rxKey (pktNonce pktKey.rxSalt 5) (pktHead op) [8, 7]) ++ (if tagOk then [] else [0]) }

/-- Connection 9 in a state, with the highest counter its key has seen. -/
def connIn (c : Conn) (high : Nat) : State :=
  ({ regsIn running [(Reg.BLK_CTL .itp 0, 1), (Reg.KEY_CFG, 0)] with itp := { running.itp with conns := SMap.set [] (running.connDef 9) 9 c } }).setKeySlot 18
    { pktKey with rxHigh := high }

def openConn : Conn := { st := .open_, peerNode := 3, peerAddr := 77, txEpoch := 2 }

/-- What a packet of the example parses to. -/
def pkOf (op : Nat) (tagOk : Bool) : Pk := (parsePk (packetOf op true tagOk)).getD ⟨0, 0, 0, 0, 0, 0, 0, 0, 0, 0, 0, 0, 0, [], [], []⟩

/-- The connection above, open, with its packet policed: the allowance in crown SRAM is `room` bytes. -/
def policed (room : Nat) : State :=
  (regsIn (connIn openConn 4) [(Reg.BLK_CTL .rak 0, 1), (Reg.RAK_POL_CFG 0, 1), (Reg.RAK_POL_BASE_LO 0, crownBase % 2 ^ 32), (Reg.RAK_POL_BASE_LO 0 + 4, crownBase / 2 ^ 32)]).writeBytes
    (crownBase + 16 * 9) (toLE 4 1 ++ toLE 4 9 ++ toLE 4 room)

theorem witness_Packets : ∀ op ∈ [0x01, 0x02, 0x03, 0x04, 0x05, 0x06, 0x07], (parsePk (packetOf op true true)).isSome = true ∧ (pkOf op true).op = op ∧ (pkOf op true).conn % 4096 = 9
    ∧ (connIn openConn 4).up .itp 0 = true ∧ (connIn openConn 4).connOpen (pkOf op true).conn = true ∧ (pkOf op true).src = ((connIn openConn 4).conn 9).peerNode
    ∧ (packetOf op true true).src = ((connIn openConn 4).conn 9).peerAddr ∧ (police (connIn openConn 4) 9 (packetOf op true true).bytes.length).2 = true
    ∧ (connIn openConn 4).liveKey 9 (pkOf op true).epoch = some 18 ∧ (connIn openConn 4).liveKey 9 ((pkOf op true).epoch + 1) = none
    ∧ (antiReplay ((connIn openConn 4).keySlot 18) (pkOf op true).ctr).isSome = true ∧ antiReplay ((connIn openConn 5).keySlot 18) (pkOf op true).ctr = none
    ∧ (packetOf op true true).ce = false ∧ (connIn openConn 4).bit Reg.KEY_CFG 0 = false
    ∧ (running).connOpen (pkOf op true).conn = false ∧ (packetOf op false true).fcs = false := by decide +kernel

/-- The packet's tag verifies and gives its plaintext; one byte more and it does not; a packet beyond the policer's allowance and one at it. -/
theorem witness_SealedPackets : openPk ((connIn openConn 4).keySlot 18) (packetOf 0x01 true true) (pkOf 0x01 true) = some [8, 7]
    ∧ openPk ((connIn openConn 4).keySlot 18) (packetOf 0x01 true false) (pkOf 0x01 false) = none ∧ (parsePk (packetOf 0x01 true false)).isSome = true
    ∧ (police (policed 66) 9 66).2 = true ∧ (police (policed 65) 9 66).2 = false ∧ (packetOf 0x01 true true).bytes.length = 66 := by decide +kernel

/-- A delayed acknowledgement, a packet whose timeout comes, one sent as often as the limit lets it be and once more, messages younger and older than their
timeout, and connections with and without a congestion mark. -/
theorem witness_ConnectionTimers : ((connIn { openConn with ackSince := some 0 } 0).conn 9).ackSince = some 0 ∧ ((connIn openConn 0).conn 9).ackSince = none
    ∧ (reachUp (connIn { openConn with ackSince := some 0 } 0) (0 + (connIn openConn 0).fld Reg.ITP_ACK 31 16)).isSome = true
    ∧ ((connIn { openConn with pkts := [{ psn := 7, sends := 1, due := false }] } 0).conn 9).pkts.find? (·.psn == 7) = some { psn := 7, sends := 1, due := false }
    ∧ ((connIn openConn 0).conn 9).st = .open_ ∧ (connIn openConn 0).canSend 9 = true
    ∧ (reachUp ((connIn openConn 0).setRg Reg.ITP_RETX (2 ^ 16)) (0 + 1600 * max 1 (((connIn openConn 0).setRg Reg.ITP_RETX (2 ^ 16)).fld Reg.ITP_RETX 31 16))).isSome = true
    ∧ ((connIn openConn 0).setRg Reg.ITP_RETX 256).fld Reg.ITP_RETX 15 8 < 2 ∧ 1 ≤ ((connIn openConn 0).setRg Reg.ITP_RETX 256).fld Reg.ITP_RETX 15 8
    ∧ ((connIn { openConn with msgs := [⟨4, 0, 1, 0, [], 0, 1, 0, .none, 0, none, 0, none, none⟩] } 0).conn 9).msgs.find? (·.msn == 4) = some ⟨4, 0, 1, 0, [], 0, 1, 0, .none, 0, none, 0, none, none⟩
    ∧ (connIn openConn 0).time.tick < 0 + max 1 ((connIn openConn 0).fld Reg.ITP_MSG_TO 15 0)
    ∧ 0 + max 1 ((connIn openConn 0).fld Reg.ITP_MSG_TO 15 0) ≤ ({ connIn openConn 0 with time := { running.time with tick := 65536 } } : State).time.tick
    ∧ (reachUp (connIn openConn 0) (0 + 1024)).isSome = true ∧ ((connIn openConn 0).setRg Reg.ITP_CC_PERIOD 0).fld Reg.ITP_CC_PERIOD 19 0 = 0
    ∧ ((connIn { openConn with ceSeen := true } 0).conn 9).ceSeen = true ∧ ((connIn openConn 0).conn 9).ceSeen = false ∧ ((connIn {} 0).conn 9).st = .free := by decide +kernel

/-- A free connection of partition 0 at both limits of its segment size with a job, and ones that may not open. -/
def openable (c : Conn) : State :=
  { regsIn (connIn c 0) [(Reg.BLK_CTL .prt 0, 1), (Reg.PRT_CONN 0, 10 * 4096), (Reg.PRT_REGN 0, 4096)] with itp := { (connIn c 0).itp with jobs := SMap.set [] {} 2 ⟨true, 0, 11, []⟩ } }

theorem witness_ConnectionsOpen : (∀ seg ∈ [4, 128], ((openable { seg := seg, job := 11 }).conn 9).st = .free ∧ ((openable { seg := seg, job := 11 }).conn 9).opening = false
      ∧ (openable { seg := seg, job := 11 }).up .itp 0 = true ∧ ((openable { seg := seg, job := 11 }).conn 9).seg = seg ∧ ownsConn (openable { seg := seg, job := 11 }) 0 9 = true
      ∧ (jobOf (openable { seg := seg, job := 11 }) 0 11).isSome = true)
    ∧ ((openable { seg := 4, opening := true }).conn 9).opening = true ∧ jobOf (openable { seg := 4, job := 12 }) 0 12 = none ∧ ownsConn (openable { seg := 4 }) 1 9 = false
    ∧ ((openable { seg := 3 }).conn 9).seg < 4 ∧ 128 < ((openable { seg := 129 }).conn 9).seg ∧ ((openable openConn).conn 9).st ≠ .free := by decide +kernel

/-- The region table in crown SRAM, whose last region is in the state given with the accesses in flight given. -/
def region (st inflight : Nat) : State :=
  ((regsIn (openable {}) [(Reg.ITP_REG_CFG, 256), (Reg.ITP_REG_BASE_LO, crownBase % 2 ^ 32), (Reg.ITP_REG_BASE_LO + 4, crownBase / 2 ^ 32)]).writeBytes (crownBase + 32 * 255)
    (toLE 8 fenBase ++ toLE 8 4096 ++ toLE 4 (st * 2 ^ 28 + 255) ++ [0, 0, 0, 0] ++ toLE 4 inflight))

theorem witness_Regions : 255 < (region 3 0).fld Reg.ITP_REG_CFG 20 0 ∧ regionState (region 3 0) 255 = 3 ∧ regionState (region 0 0) 255 = 0
    ∧ rangeOk ((region 0 0).readLE (regionAddr (region 0 0) 255) 8) ((region 0 0).readLE (regionAddr (region 0 0) 255 + 8) 8) = true
    ∧ ownsRegion (region 0 0) ((region 0 0).byte (regionAddr (region 0 0) 255 + 20) % 64) 255 = true ∧ regionState (region 1 0) 255 = 1 ∧ regionState (region 2 0) 255 = 2
    ∧ rangeOk ((region 3 0).readLE (regionAddr (region 3 0) 255) 8) ((region 3 0).readLE (regionAddr (region 3 0) 255 + 8) 8) = true
    ∧ ownsRegion (region 3 0) ((region 3 0).byte (regionAddr (region 3 0) 255 + 20) % 64) 255 = true ∧ regionInflight (region 2 0) 255 = 0 ∧ regionInflight (region 2 1) 255 ≠ 0
    ∧ (region 3 0).fld Reg.ITP_REG_CFG 20 0 ≤ 256 := by decide +kernel

/-- Work queue 15 with one request at its head, in crown SRAM, on the open connection 9: its opcode, its length, the trigger it waits on. -/
def queued (op len wait : Nat) : State :=
  (regsIn (connIn openConn 0) [(Reg.ITP_WQ_BASE_LO 15, crownBase % 2 ^ 32), (Reg.ITP_WQ_BASE_LO 15 + 4, crownBase / 2 ^ 32), (Reg.ITP_WQ_BASE_LO 15 + 8, 0x100), (Reg.ITP_WQ_BASE_LO 15 + 12, 1)]).writeBytes
    crownBase ([op, 0, 0, 0] ++ toLE 4 9 ++ toLE 8 fenBase ++ toLE 4 len ++ toLE 4 0 ++ toLE 8 fenBase ++ toLE 2 wait ++ [0x10, 0] ++ toLE 4 1)

def wqeOf (op len wait : Nat) : Wqe := ⟨op, 0, 0, 9, fenBase, len, 0, fenBase, wait, 0x10, false, 1, 0⟩

theorem witness_WorkQueues : (∀ op ∈ [1, 2, 3, 4], wqHead (queued op 64 0xFFFF) 15 = some (wqeOf op 64 0xFFFF) ∧ wqeDormant (queued op 64 0xFFFF) (wqeOf op 64 0xFFFF) = false)
    ∧ wqHead (queued 1 64 3) 15 = some (wqeOf 1 64 3) ∧ wqeDormant (queued 1 64 3) (wqeOf 1 64 3) = true
    ∧ (wqeOf 1 64 0xFFFF).rec_ = false ∧ wqHead (queued 1 67108865 3) 15 = some (wqeOf 1 67108865 3) ∧ wqeStatus (queued 1 67108865 3) (wqeOf 1 67108865 3) ≠ stOK
    ∧ wqeDormant (queued 1 67108865 3) (wqeOf 1 67108865 3) = true ∧ (∀ op ∈ [0, 5], wqHead (queued op 64 3) 15 = some (wqeOf op 64 3) ∧ wqeStatus (queued op 64 3) (wqeOf op 64 3) ≠ stOK)
    ∧ wqeStatus (queued 1 67108865 0xFFFF) (wqeOf 1 67108865 0xFFFF) ≠ stOK := by decide +kernel

theorem witness_GoodWork : wqHead ((queued 1 64 0xFFFF).setConn 9 { openConn with seg := 16 }) 15 = some (wqeOf 1 64 0xFFFF)
    ∧ wqeStatus ((queued 1 64 0xFFFF).setConn 9 { openConn with seg := 16 }) (wqeOf 1 64 0xFFFF) = stOK
    ∧ wqeStatus ((queued 1 64 3).setConn 9 { openConn with seg := 16 }) (wqeOf 1 64 3) = stOK ∧ wqeDormant ((queued 1 64 3).setConn 9 { openConn with seg := 16 }) (wqeOf 1 64 3) = true := by decide +kernel

/-- A queue whose head waits on a trigger that has come, while no other queue has a head. -/
def triggered : State := (queued 1 64 3).setRg (Reg.ITP_TRIG 3) 1

theorem witness_Triggers : (∀ q, q < 16 → wqHead State.reset q = none) ∧ wqHead triggered 15 = some (wqeOf 1 64 3) ∧ (wqeOf 1 64 3).wait ≠ 0xFFFF ∧ wqeDormant triggered (wqeOf 1 64 3) = false
    ∧ (∀ k, k < 16 → k ≠ 15 → wqHead triggered k = none ∧ wqHead (wqServe triggered 15 (wqeOf 1 64 3)) k = none) := by decide +kernel

theorem witness_NoOtherHead : ∀ k, ¬ k < 16 → ∀ u, wqHead u k = none := fun k h u => by simp [wqHead, h]

/-- A delivered message of opcode `op`, whose extension begins as given. -/
def delivered (op : Nat) (ext : List Nat) : Delivered := ⟨9, 16, 0, 0, op, ext ++ List.replicate 40 0, 0, crownBase⟩

/-- The oldest message of each kind; a CLONE by key; a CANCEL that names a request and one that names none; an ADONE of a mirrored request. -/
theorem witness_Requests : (∀ op ∈ [0x10, 0x12, 0x13, 0x14, 0x15, 0x16, 0x17], (delivered op []).op = op) ∧ (delivered 0x10 []).op ≠ 0x12
    ∧ beAt (delivered 0x13 []).ext 4 4 ≠ 0xFFFFFFFE ∧ beAt (delivered 0x13 [0, 0, 0, 0, 255, 255, 255, 254]).ext 4 4 = 0xFFFFFFFE
    ∧ cancelTarget (stageFree { connIn openConn 0 with fab := { ({} : FabBlock) with pool := [(7, 0)] }, ctx := { ({} : CtxBlock) with reqs := SMap.set [] ((connIn openConn 0).reqAt 7) 7 { conn := 9 } } } crownBase) (delivered 0x15 []) = some 7
    ∧ cancelTarget (stageFree State.reset crownBase) (delivered 0x15 []) = none
    ∧ ((stageFree { State.reset with fab := { ({} : FabBlock) with fwds := [⟨0, 0, 3, none, none, 0, true, false⟩] } } crownBase).fab.fwds.find? fun f => f.slot == rSlot 0 && f.gen == rGen 0 && f.sent && f.far.isNone)
      = some ⟨0, 0, 3, none, none, 0, true, false⟩ ∧ (stageFree State.reset crownBase).fab.fwds = [] := by decide +kernel

/-- A mirrored request whose mirror is late, in the SYNC state and in another. -/
def mirrored (st tick : Nat) : State :=
  ({ (regsIn running [(Reg.FAB_MST_LO, 0), (Reg.FAB_MST_LO + 4, 1), (Reg.FAB_MIR_TO, 1)]) with
    time := { running.time with tick := tick }, fab := { ({} : FabBlock) with fwds := [⟨5, (running.reqAt 5).gen, 3, some (0, 1), none, 0, true, true⟩] } }).writeBytes (peatBase + 3) [st]

theorem witness_LateMirrors : ((mirrored 3 1).fab.fwds.find? fun f => f.slot == 5 && f.gen == ((mirrored 3 1).reqAt 5).gen && f.sent && f.far.isNone && f.own.isSome).map (·.ctx) = some 3
    ∧ mst (mirrored 3 1) 3 = mstSYNC ∧ 0 + max 1 ((mirrored 3 1).fld Reg.FAB_MIR_TO 7 0) ≤ (mirrored 3 1).time.tick ∧ mst (mirrored 2 1) 3 ≠ mstSYNC := by decide +kernel

/-- A connection with a control packet waiting, and one with a data packet that is due. -/
theorem witness_EgressQueues : ((connIn { openConn with ctl := [⟨5, [], none⟩] } 0).conn 9).ctl = ⟨5, [], none⟩ :: [] ∧ (connIn openConn 0).liveKey 9 2 = some 18 ∧ (connIn openConn 0).canSend 9 = true
    ∧ nextPkt (connIn openConn 0) { openConn with pkts := [{ psn := 4 }], out := [⟨1, 0, [], 8, 1, 4, 0, .bytes [], .none⟩] } = some ({ psn := 4 }, ⟨1, 0, [], 8, 1, 4, 0, .bytes [], .none⟩) := by decide +kernel

/-- A live port with one frame in queue 17 and a frame on its wire or none. -/
def frame17 (kind : EgKind) : EgFrame := ⟨64, 3, kind, 0, []⟩
def wire17 (kind : EgKind) : OnWire := ⟨17, 0, 9, 12, frame17 kind, false⟩
def sending (wire : Option OnWire) : State :=
  { regsIn portLit [(Reg.BLK_CTL .rak 2, 1)] with time := { running.time with up := 9 }, ports := SMap.set [] {} 16 { queues := SMap.set [] [] 17 [frame17 (.ring 5)], wire := wire } }

theorem witness_TransmitDecisions : subPort (sending none) 16 = some 0 ∧ ((sending none).port 16).wire = none ∧ (sending none).up .rak 2 = true ∧ linkIsUp (sending none) 16 = true
    ∧ (List.range 64).any (egEligible (sending none) 16 0 ((sending none).port 16)) = true
    ∧ (drr (sending none) 16 0 (drrOrder ((sending none).port 16).ptr) ((sending none).port 16)).2 = some 17
    ∧ ((sending (some (wire17 (.ring 5)))).port 16).wire = some (wire17 (.ring 5)) ∧ (wire17 (.ring 5)).frame.kind = .ring 5
    ∧ (reachUp (sending (some (wire17 (.ring 5)))) 12).isSome = true := by decide +kernel

theorem witness_OtherFrames : (reachUp (sending (some (wire17 (.ctl 9)))) 12).isSome = true ∧ ((sending (some (wire17 (.ctl 9)))).port 16).wire = some (wire17 (.ctl 9))
    ∧ ∀ slot, (wire17 (.ctl 9)).frame.kind ≠ .ring slot := ⟨by decide +kernel, by decide +kernel, fun _ h => EgKind.noConfusion h⟩

/-- A port with two gate entries, and a RAK with a telemetry period. -/
def gated : State := regsIn portLit [(Reg.BLK_CTL .slu 2, 1), (Reg.SLU_COUNT 2 0, 2), (Reg.SLU_GCL 2 0 1, 500 + 2 ^ 24), (Reg.BLK_CTL .rak 2, 1), (Reg.RAK_TEL_PERIOD 2, 1000)]

theorem witness_GatesAndSamples : subPort gated 16 = some 0 ∧ (gateList gated 16).find? (fun x => decide (gated.time.cc < x.1)) = some (500, 1) ∧ gated.time.running = true
    ∧ State.reset.fld (Reg.RAK_TEL_PERIOD 2) 23 0 = 0 ∧ gated.fld (Reg.RAK_TEL_PERIOD 2) 23 0 = 1000 ∧ gated.up .rak 2 = true ∧ SMap.get gated.telAt 0 2 ≠ gated.time.up + 1
    ∧ gated.time.cc % 1000 = 0 ∧ (0 / 1000 + 1) * 1000 < gated.lcc ∧ (∀ e, e < 8 → bitOf (gated.rg (Reg.RAK_TEL_SEL 2 e)) 15 = false)
    ∧ gated.lcc ≤ ({ gated with time := { gated.time with cc := 320000 } } : State).time.cc := by decide +kernel

/-- Telemetry entries of the RAK: one that is off, one that names port 16's queue 0, with a channel that serves the rack's feed and without. -/
def sampled : State := { regsIn gated [(Reg.RAK_TEL_SEL 2 1, 2 ^ 15)] with
  trw := SMap.set [] {} 10 { ({} : TrwCh) with st := .run, d := { ctl := 4, feed := 3 } } }

theorem witness_TelemetryEntries : bitOf (sampled.rg (Reg.RAK_TEL_SEL 2 0)) 15 = false ∧ bitOf (sampled.rg (Reg.RAK_TEL_SEL 2 1)) 15 = true
    ∧ (List.range 8).find? (fun l => subPort sampled (8 * 2 + l) == some (bitsOf (sampled.rg (Reg.RAK_TEL_SEL 2 1)) 2 0)) = some 0
    ∧ feedChannel sampled (2 + 1) = some 10 ∧ feedChannel gated (2 + 1) = none := by decide +kernel

/-- Epochs on both sides of the current one, the fabric on with a probe period past and not past, a snapshot's lane, and a node in holdover for as long as it may be. -/
theorem witness_Fabric : seqDiff 5 (State.reset.rg Reg.FAB_EPOCH) > 0 ∧ seqDiff 0 (State.reset.rg Reg.FAB_EPOCH) ≤ 0 ∧ running.time.running = true ∧ SMap.rises running.rwt 0 = true
    ∧ (regsIn running [(Reg.BLK_CTL .fab 0, 1), (Reg.FAB_HEALTH, 256)]).up .fab 0 = true ∧ max 1 ((regsIn running [(Reg.FAB_HEALTH, 256)]).fld Reg.FAB_HEALTH 23 8) ≤ 1
    ∧ running.fab.helloTicks < max 1 (running.fld Reg.FAB_HEALTH 23 8) ∧ (regsIn running [(Reg.BLK_CTL .frm 0, 1)]).en .frm 0 = true
    ∧ (⟨1, 0, 0, true, [⟨2, 20, 21, 4, false⟩]⟩ : Snap).lanes.find? (fun x => x.lane == 2 && !x.copied) = some ⟨2, 20, 21, 4, false⟩
    ∧ (running.setRg Reg.PTP_STAT 1).bit Reg.PTP_STAT 0 = true ∧ running.fab.notServing = false ∧ (running.setRg Reg.FAB_HOLD 4).fld Reg.FAB_HOLD 23 0 ≤ 4
    ∧ 3 < (running.setRg Reg.FAB_HOLD 4).fld Reg.FAB_HOLD 23 0 ∧ running.bit Reg.PTP_STAT 0 = false := by decide +kernel

/-- The key block idle, deriving and halted, with 63 and 64 commands waiting; a derivation that is due with one after it and without, and one not due in
the tick; a connection of another generation. -/
def deriveIn (r : List Derive) (s : State) : State := { s with itp := { s.itp with derives := ⟨9, 2, true, 1024⟩ :: r } }

theorem witness_KeyCommands : State.reset.bit Reg.KEY_CMD_STAT 8 = false ∧ (State.reset.setRg Reg.KEY_CMD_STAT 256).bit Reg.KEY_CMD_STAT 8 = true
    ∧ State.reset.halted .key 0 = false ∧ (regsIn State.reset [(Reg.BLK_CTL .key 0, 3), (Reg.BLK_FLT .key 0, 256)]).halted .key 0 = true
    ∧ (List.replicate 63 (1, 0)).length < 64 ∧ 64 ≤ (List.replicate 64 (1, 0)).length
    ∧ (deriveIn [⟨10, 1, true, 2048⟩] State.reset).itp.derives = ⟨9, 2, true, 1024⟩ :: [⟨10, 1, true, 2048⟩] ∧ [(⟨10, 1, true, 2048⟩ : Derive)] ≠ []
    ∧ (reachUp (deriveIn [] State.reset) 1024).isSome = true ∧ reachUp (deriveIn [] tickEnd) 1024 = none ∧ State.reset.itp.derives = []
    ∧ (deriveEnd ((connIn openConn 0).setConn 9 { openConn with gen := 1 }) ⟨9, 1, true, 0⟩).itp.keyCmds = []
    ∧ ((connIn openConn 0).setConn 9 { openConn with gen := 1 }).connCurrent 9 = false := by decide +kernel

/-- The last partition in service, resetting, committed, and retiring with 40 slots left, of which 4 cc retire 32, and with none. -/
def retiring (left : Nat) : State := { running with prt := { running.prt with retiring := [⟨63, 20, left⟩] } }

theorem witness_PartitionResets : resetting running 63 = false ∧ resetting (running.setRg (Reg.PRT_CTXR 63) (2 * 2 ^ 28)) 63 = true ∧ partState running 63 ≠ 2
    ∧ (boundsOf running.rg 63).conn = (0, 0) ∧ (retiring 40).prt.retiring.any (·.part == 63) = true ∧ (retiring 40).prt.retiring = [⟨63, 20, 40⟩]
    ∧ 4 < max 1 (ceilDiv 40 8) ∧ 5 = max 1 (ceilDiv 40 8) ∧ 1 = max 1 (ceilDiv 0 8)
    ∧ partState (running.setRg (Reg.PRT_CTXR 63) (2 * 2 ^ 28)) 63 = 2 ∧ running.prt.commits.contains 63 = false ∧ ({ running with prt := { running.prt with commits := [63] } } : State).prt.commits.contains 63 = true
    ∧ running.time.running = true := by decide +kernel

/-- The attestation block on and idle, busy, with its buffer in and out of place, and a report for memory and for a session. -/
def attOn (stat buf : Nat) : State := regsIn running [(Reg.BLK_CTL .att 0, 1), (Reg.ATT_STAT, stat), (Reg.ATT_BUF_LO, buf), (Reg.ATT_BUF_LO + 4, 2)]

theorem witness_Attestation : (∀ k, k < 3 → (State.reset.image (bootSlot State.reset) k).svn ≤ 64) ∧ attTakes (attOn 0 0) = true ∧ attTakes (attOn 256 0) = false ∧ attBufOk (attOn 0 64) = true ∧ attBufOk (attOn 0 4) = false
    ∧ 64 < (({ State.reset with nv := { State.reset.nv with images := SMap.set [] {} 2 { svn := 65 } } } : State).image (bootSlot State.reset) 2).svn
    ∧ ({ State.reset with lcs := { ({} : LcsBlock) with reports := [⟨[1], .mem crownBase⟩, ⟨[2], .session 3⟩] } } : State).lcs.reports = ⟨[1], .mem crownBase⟩ :: [⟨[2], .session 3⟩]
    ∧ ({ attOn 0 64 with lcs := { ({} : LcsBlock) with reports := [⟨[2], .serial⟩] } } : State).lcs.reports = ⟨[2], .serial⟩ :: [] ∧ attBufOk { attOn 0 64 with lcs := {} } = true := by decide +kernel

/-- A token of a kind, with the node's serial and challenge as of reset, 0. -/
def tokenOf (kind : Nat) : List Nat := [1, 0, kind, 7] ++ List.replicate 248 0

/-- Whether a token is accepted is the opaque signature check's answer: a token of kind 2 at life state 1 is accepted exactly where it verifies; one of no kind is never. -/
theorem witness_Tokens : (tokAccepted (regsIn State.reset [(Reg.LCS_STATE, 1)]) (tokenOf 2) = Config.ecdsaVerifies (((tokenOf 2).drop 60).take 96) ((tokenOf 2).take 156) (((tokenOf 2).drop 156).take 96))
    ∧ (∀ k ∈ [1, 2, 3, 4, 5], tokKind (tokenOf k) = k) ∧ tokKind (tokenOf 2) ≠ 3 ∧ ∀ k ∈ [1, 2, 3, 4, 5], tokAccepted State.reset ((tokenOf k).take 251) = false := by
  refine ⟨?_, by decide, by decide, by decide +kernel⟩
  have h1 : ((tokenOf 2).length == 252) = true := by decide +kernel
  have h2 : (tokNum (tokenOf 2) 0 2 == 1) = true := by decide +kernel
  have h3 : (tokNum (tokenOf 2) 4 16 == packLE ((List.range 4).map fun k => ((regsIn State.reset [(Reg.LCS_STATE, 1)]).rg (Reg.LCS_SERIAL k), 4))) = true := by decide +kernel
  have h4 : (tokNum (tokenOf 2) 20 32 == packLE ((List.range 8).map fun k => ((regsIn State.reset [(Reg.LCS_STATE, 1)]).rg (Reg.ATT_CHAL k), 4))) = true := by decide +kernel
  have h5 : tokKind (tokenOf 2) = 2 := by decide
  have h6 : lifeState (regsIn State.reset [(Reg.LCS_STATE, 1)]) = 1 := by decide +kernel
  generalize hb : tokenOf 2 = b at *
  generalize hs : regsIn State.reset [(Reg.LCS_STATE, 1)] = s at *
  simp [tokAccepted, tokSigner, h1, h2, h3, h4, h5, h6]

/-- The patrol due at position `pos`, after the words given, with slice 0's port held by it or not. -/
def patrolling (pos words : Nat) (held : Bool) : State :=
  { regsIn running [(Reg.BLK_CTL .bst 0, 1), (Reg.BST_PATROL, 65536)] with
    bst := { ({} : BstBlock) with pos := pos, words := words }
    portB := SMap.set [] {} 0 (if held then { holder := some ⟨patrolSrc, 0⟩ } else {}) }

theorem witness_Patrol : patrolDue (patrolling 0 127 true) = true ∧ inPeat (patrolAddr (patrolling 0 127 true)) = true ∧ ((patrolling 0 127 true).pb (sliceOf (patrolAddr (patrolling 0 127 true)))).holder.any (·.src == patrolSrc) = true
    ∧ patrolDue (patrolling 0 128 true) = false ∧ patrolDue (patrolling 587202559 0 true) = true ∧ inPeat (patrolAddr (patrolling 587202559 0 true)) = false ∧ lifeState (patrolling 0 127 true) ≠ 4
    ∧ ((patrolling 0 0 false).pb (sliceOf (patrolAddr (patrolling 0 0 false)))).holder.any (·.src == patrolSrc) = false := by decide +kernel

theorem witness_PoisonList : (5 ∉ ([4] : List Nat)) ∧ (5 ∈ ([4, 5] : List Nat)) ∧ (List.range 1023).length < 1024 ∧ 1024 ≤ (List.range 1024).length ∧ (2000 ∉ List.range 1024)
    ∧ lifeState State.reset ≠ 4 := by simp [lifeState]; decide

/-- A free slice with a partner's, Trowel's and the migrator's requests waiting, and with the patrol's next word; holders of each kind for 65,536 cc. -/
theorem witness_PortB : (State.reset.pb 127).holder = none ∧ portBooked State.reset 127 = false ∧ ([⟨300, 1⟩, ⟨126, 2⟩] : List PortReq).find? (·.src < 128) = some ⟨126, 2⟩
    ∧ ([⟨300, 1⟩, ⟨1050, 2⟩] : List PortReq).find? (·.src < 128) = none ∧ rotWinner 0 [⟨300, 1⟩, ⟨1050, 2⟩] = some ⟨300, 1⟩
    ∧ ((patrolling 0 0 false).pb 0).holder = none ∧ ((patrolling 0 0 false).pb 0).waiting.find? (·.src < 128) = none ∧ rotWinner ((patrolling 0 0 false).pb 0).rot ((patrolling 0 0 false).pb 0).waiting = none
    ∧ portBooked (patrolling 0 0 false) 0 = false ∧ sliceOf (patrolAddr (patrolling 0 0 false)) = 0
    ∧ (∀ src ∈ [8, 300, patrolSrc, 1044], ((clockAt 65536 {} 0).setPb 9 { holder := some ⟨src, 0⟩ }).pb 9 = { holder := some ⟨src, 0⟩ }) ∧ 0 + 65536 ≤ (clockAt 65536 {} 0).time.up
    ∧ (burst none).bursts.find? (fun x => x.slot == 277 % 2 && x.data.isSome == decide (320 ≤ 277)) = some ⟨0, 64, none, 1⟩ ∧ (277 - 256) % 64 / 16 = 1 ∧ 277 % 16 / 2 = 2
    ∧ (burst (some [7])).bursts.find? (fun x => x.slot == 341 % 2 && x.data.isSome == decide (320 ≤ 341)) = some ⟨0, 64, some [7], 1⟩ ∧ 341 < 384 := by decide +kernel

/-- BST on and idle, with an armed and with a running slice, whose signature matches 0 and differs from 1. -/
def selfTest (stat : Nat) : State := regsIn running [(Reg.BLK_CTL .bst 0, 1), (Reg.BST_LB_STAT, stat), (Reg.BST_LB_PATTERNS, 1)]

theorem witness_LogicSelfTest : (selfTest 0).up .bst 0 = true ∧ lbArmed (selfTest 0) = false ∧ lbRunning (selfTest 0) = false ∧ lbArmed (selfTest 65536) = true ∧ lbRunning (selfTest 65536) = false
    ∧ lbRunning (selfTest 131072) = true ∧ (reachUp (selfTest 131072) ((selfTest 131072).bst.lbAt + lbLength (selfTest 131072) + 256)).isSome = true
    ∧ (∀ k, k < 4 → 0 / 2 ^ (32 * k) % 2 ^ 32 = (selfTest 131072).rg (Reg.BST_LB_GOLDEN k)) ∧ 1 / 2 ^ (32 * 0) % 2 ^ 32 ≠ (selfTest 131072).rg (Reg.BST_LB_GOLDEN 0) := by decide +kernel

/-- Memory self-test idle and busy, in an open and a closed life state, with the TPL on and off. -/
theorem witness_MemorySelfTest : State.reset.bit Reg.BST_MB_STAT 8 = false ∧ (State.reset.setRg Reg.BST_MB_STAT 256).bit Reg.BST_MB_STAT 8 = true ∧ lifeOpen (State.reset.setRg Reg.LCS_STATE 0) = true
    ∧ lifeOpen (State.reset.setRg Reg.LCS_STATE 1) = false ∧ State.reset.en .tpl 0 = false ∧ (regsIn State.reset [(Reg.LCS_STATE, 3), (Reg.BLK_CTL .tpl 0, 1)]).en .tpl 0 = true
    ∧ lifeOpen (regsIn State.reset [(Reg.LCS_STATE, 3), (Reg.BLK_CTL .tpl 0, 1)]) = true ∧ ({} : BstBlock).mbOp = 0 ∧ ({ mbOp := 1 } : BstBlock).mbOp = 1 ∧ ({ mbOp := 2 } : BstBlock).mbOp = 2
    ∧ ({ mbOp := 3 } : BstBlock).mbOp = 3 ∧ (reachUp (State.reset.setRg Reg.BST_MB_STAT 256) (State.reset.setRg Reg.BST_MB_STAT 256).bst.mbDue).isSome = true := by decide +kernel

/-- Causes, the pins before and after start time, an asked reset, and an armed watchdog whose period passes. -/
theorem witness_Resets : 8 % 32 ≠ 4 ∧ ({ State.reset with sys := { ({} : SysBlock) with resetAt := some 3 } } : State).sys.resetAt.isSome = true ∧ State.reset.sys.resetAt = none
    ∧ State.reset.pwr.hold = false ∧ State.reset.pwr.trip = none ∧ (({ State.reset with pwr := { ({} : PwrBlock) with trip := some 0 } } : State).pwr.trip = some State.reset.time.up)
    ∧ (some 1 : Option Nat) ≠ some State.reset.time.up ∧ ({ hold := true } : PwrBlock).hold = true ∧ State.reset.lcs.started = false ∧ State.reset.bit Reg.SYS_WDOG 31 = false
    ∧ (State.reset.setRg Reg.SYS_WDOG (2 ^ 31)).bit Reg.SYS_WDOG 31 = true
    ∧ (reachUp (State.reset.setRg Reg.SYS_WDOG (2 ^ 31)) (State.reset.sys.kickAt + 1600000 * max 1 ((State.reset.setRg Reg.SYS_WDOG (2 ^ 31)).fld Reg.SYS_WDOG 23 0))).isSome = true
    ∧ Reg.PWR_TALLOW ∉ fuseRegs ∧ Reg.PWR_TALLOW ≠ Reg.PWR_VCORE ∧ Reg.PWR_TALLOW ≠ Reg.SYS_RESET_CAUSE ∧ (∀ k, k < 8 → Reg.PWR_TALLOW ≠ Reg.ATT_CHAL k)
    ∧ (reachUp { State.reset with sys := { ({} : SysBlock) with resetAt := some 3 } } (3 + 160000)).isSome = true ∧ 36 % 32 = 4
    ∧ State.reset.lcs.rom = false ∧ ({ rom := true } : LcsBlock).rom = true := by decide +kernel

/-- The clock block on with every reference and PLL good, and with none. -/
theorem witness_Clocks : (regsIn running [(Reg.BLK_CTL .clk 0, 1), (Reg.CLK_STAT, 0xF07)]).en .clk 0 = true ∧ (∀ r < 3, (regsIn running [(Reg.CLK_STAT, 0xF07)]).bit Reg.CLK_STAT r = true)
    ∧ (∀ p < 4, (regsIn running [(Reg.CLK_STAT, 0xF07)]).bit Reg.CLK_STAT (8 + p) = true ∧ (regsIn running [(Reg.CLK_STAT, 0)]).bit Reg.CLK_STAT (8 + p) = false)
    ∧ SMap.rises (regsIn running [(Reg.CLK_STAT, 0xF07)]).regs 0 = true := by decide +kernel

/-- A rail of 750 mV at both limits of its tolerance and one beyond; the regulator below, at and above its target; two refusals; the trip off. -/
theorem witness_Rails : railSpec State.reset 1 = (750, 3) ∧ 750 * (100 - 3) ≤ 100 * 728 ∧ 100 * 772 ≤ 750 * (100 + 3) ∧ 100 * 727 < 750 * (100 - 3) ∧ 750 * (100 + 3) < 100 * 773
    ∧ 700 ≤ (((State.reset.setRg Reg.PWR_VCORE (700 * 65536)).fld Reg.PWR_VCORE 25 16 : Nat) : Int) + signedOf (State.reset.fld Reg.PWR_VOFF 7 0) 8
    ∧ (((State.reset.setRg Reg.PWR_VCORE (700 * 65536)).fld Reg.PWR_VCORE 25 16 : Nat) : Int) + signedOf (State.reset.fld Reg.PWR_VOFF 7 0) 8 ≤ 780
    ∧ (State.reset.setRg Reg.PWR_AVS_CFG 256).bit Reg.PWR_AVS_CFG 8 = true ∧ State.reset.pwr.trip = none ∧ State.reset.pwr.avsAt = 0
    ∧ avsTarget (State.reset.setRg Reg.PWR_VCORE (740 * 65536)) = 740 ∧ ({ vcore := 1480 } : PwrBlock).vcore = 2 * 740 ∧ ({ vcore := 1479 } : PwrBlock).vcore ≠ 2 * 740
    ∧ ({ refused := 2 } : PwrBlock).refused = 2 ∧ ({} : PwrBlock).refused < 2 := by decide +kernel

/-- Readings at both ends of the valid range and beyond, a sample that trips, temperatures at the soft limit, between and at 105 °C, and the pin in each state. -/
theorem witness_Heat : tempValid 1200 = true ∧ tempValid (4096 - 320) = true ∧ tempValid 1201 = false ∧ tempValid (4096 - 321) = false
    ∧ (State.reset.setRg (Reg.PWR_TSENS 3) (2 ^ 31)).bit (Reg.PWR_TSENS 3) 31 = true ∧ (State.reset.setRg (Reg.PWR_TSENS 3) 0).bit (Reg.PWR_TSENS 3) 31 = false
    ∧ (List.replicate 28 920).length = 28 ∧ 920 ≤ signedOf 920 12 ∧ ¬ 920 ≤ signedOf 919 12 ∧ (reachUp { State.reset with pwr := { ({} : PwrBlock) with trip := some 0 } } (0 + 1600)).isSome = true
    ∧ State.reset.rg Reg.PWR_MIN_UJ ≤ State.reset.rg Reg.PWR_MAX_UJ ∧ signedOf (State.reset.fld Reg.PWR_TSOFT 11 0) 12 < 840 ∧ State.reset.pwr.low = false ∧ State.reset.bit Reg.PWR_FAULTN 2 = false
    ∧ senseBad State.reset = false ∧ senseBad (State.reset.setRg (Reg.PWR_TSENS 3) (2 ^ 31)) = true ∧ signedOf (State.reset.fld Reg.PWR_TEMP 11 0) 12 ≤ signedOf (State.reset.fld Reg.PWR_TSOFT 11 0) 12
    ∧ 840 ≤ signedOf ((State.reset.setRg Reg.PWR_TEMP 840).fld Reg.PWR_TEMP 11 0) 12 ∧ signedOf (State.reset.fld Reg.PWR_TSOFT 11 0) 12 < signedOf ((State.reset.setRg Reg.PWR_TEMP 839).fld Reg.PWR_TEMP 11 0) 12
    ∧ (running.setRg (Reg.BLK_CTL .pwr 0) 1).up .pwr 0 = true := by decide +kernel

theorem witness_FaultPin : faultnDrives State.reset = false ∧ faultnDrives { clockAt 16 {} 0 with pwr := { ({} : PwrBlock) with trip := some 0 } } = true ∧ (State.reset.setRg Reg.PWR_FAULTN 0).bit Reg.PWR_FAULTN 9 = false
    ∧ (State.reset.setRg Reg.PWR_FAULTN 512).bit Reg.PWR_FAULTN 9 = true ∧ (((List.replicate 7 0).filter fun x => decide (State.reset.nodeTime < x + 8000000000)) ++ [State.reset.nodeTime]).length ≤ 8
    ∧ 8 < (((List.replicate 8 0).filter fun x => decide (State.reset.nodeTime < x + 8000000000)) ++ [State.reset.nodeTime]).length ∧ ({ low := true } : PwrBlock).low = true
    ∧ 1 - 1 + 1600000 ≤ (clockAt 1600000 {} 0).time.up ∧ (clockAt 1599999 {} 0).time.up < 1 - 1 + 1600000 := by decide +kernel

/-- Snius running with its input on, in a life state whose scopes are open or closed, and off; lines of each kind; addresses and counts at their limits. -/
def typing (life : Nat) : State := regsIn running [(Reg.BLK_CTL .uar 0, 1), (Reg.BLK_CTL .dpw 0, 1), (Reg.UAR_CFG, 256), (Reg.SYS_BOOT, 8), (Reg.LCS_STATE, life)]

theorem witness_Snius : sniusHears (typing 1) = true ∧ sniusHears (typing 0) = true ∧ sniusHears State.reset = false ∧ sniusOpen (typing 0) = true ∧ sniusOpen (typing 1) = false
    ∧ memRefused (typing 0) (crownBase + 4) false = false ∧ memRefused (typing 0) (crownBase + 2) false = true ∧ memRefused (typing 0) (crownBase + 2) true = true
    ∧ memRefused (typing 0) peatBase true = false ∧ (2 : Nat) ^ 26 ≤ peatBase ∧ crc32c ((List.replicate 4 0).map (· % 256)) ≠ 0 ∧ (typing 0).up .uar 0 = true ∧ (typing 0).bit Reg.UAR_STAT 0 = false
    ∧ (List.replicate 4 0).length = 4 ∧ 65536 % 4 = 0 := by decide +kernel

/-- Snius at a word of fen: a word it may access, one it may not, and one it holds, asked for and served, asked for and not served, and not asked for. -/
def typingFen : State := (typing 0).setRg (Reg.BLK_CTL .fen 0) 1
def sniusWaits (asked : Bool) (s : State) : State :=
  { s with dpw := [⟨5, false, fenBase, 0, asked⟩], uart := { s.uart with job := some ({ write := false, addr := fenBase, todo := [0] }, .words) } }

theorem witness_SniusInFen : sniusHears typingFen = true ∧ sniusOpen typingFen = true ∧ inFen fenBase = true ∧ memRefused typingFen fenBase false = false ∧ memRefused typingFen fenBase true = false
    ∧ (sniusWaits true typingFen).dpw.find? (·.core == 5) = some ⟨5, false, fenBase, 0, true⟩ ∧ fenPending (sniusWaits true typingFen) 0 0 133 = false
    ∧ (sniusWaits true typingFen).uart.job = some ({ write := false, addr := fenBase, todo := [0] }, .words)
    ∧ (sniusWaits false typingFen).dpw.find? (·.core == 5) = some ⟨5, false, fenBase, 0, false⟩
    ∧ fenPending (fenRequest (sniusWaits true typingFen) 0 0 0 133 4) 0 0 133 = true ∧ sniusHears (sniusWaits true typingFen) = false := by decide +kernel

/-- States in which the clauses of CommandsLeaveTheirEffectToRead apply that no witness above has: a broadcast ARP frame at a port that takes untagged frames,
a link that may come up, a slice armed, a partition's reset, and the pins. -/
def portDown : State := regsIn portLit [(Reg.ETH_PSTAT 2 0, 0), (Reg.ETH_MODE 2, 256)]

theorem witness_EffectsToRead : (∀ s ∈ [running, portLit, txRing 1 60, portDown, selfTest 0, selfTest 65536, running.setRg (Reg.PRT_CTXR 63) (2 * 2 ^ 28), State.reset, clockAt 1600000 {} 0],
      Memory.wf s.mem = true ∧ Regs.wf s.regs = true)
    ∧ macOf (frameOf 60 0x0806) 0 = 0xFFFFFFFFFFFF ∧ beAt (frameOf 60 0x0806) 12 2 = 0x0806 ∧ (frameOf 60 0x0806).length = 60 ∧ (frameOf 9212 0x0806).length = 9212
    ∧ ((portLit.countBy (Reg.ETH_FEC_CORR 2) 0).countBy (Reg.ETH_FEC_UNCORR 2) 0).bit (Reg.ETH_VLAN 2 0) 12 = false
    ∧ fringOk (txRing 1 60) (fringBase 1 1) = true ∧ portDown.bit (Reg.ETH_PSTAT 2 0) 0 = false ∧ portDown.en .eth 2 = true ∧ portUsable portDown 16 = true ∧ subPort portDown 16 = some 0
    ∧ lifeState (selfTest 0) ≠ 4 ∧ (State.reset.setRg Reg.LCS_STATE 0).en .tpl 0 = false ∧ (running.setRg (Reg.PRT_CTXR 63) (2 * 2 ^ 28)).time.running = true
    ∧ (clockAt 1600000 {} 0).pwr.highAt - 1 + 1600000 ≤ 1600000
    ∧ faultnDrives (clockAt 1600000 {} 0) = false ∧ (clockAt 1600000 {} 0).pwr.low = false ∧ faultnDrives { State.reset with pwr := { ({} : PwrBlock) with low := true } } = false := by
  decide +kernel

end Sys2Proof.Tests
end

section
/-!
SUPPORT. The proofs of the statements of spec/00_scope.md: a step runs the command in front, every command answers a next state that
keeps what `Keeps` says, and a core's plain store and its read of an RC word act by the access codes of the word's fields (R7).
-/

namespace Sys2Proof.Machine

/-! ### A step -/

theorem step_cons {s : State} {c : Instr} {rest : List Instr} (h : s.pending = c :: rest) :
    step s = exec c { s with pending := rest } := by simp [step, h]

theorem step_nil {s : State} (h : s.pending = []) : step s = .next (s.ccPass 1) := by simp [step, h]

/-- Settles O1, by the two branches of `step`. -/
theorem stepRunsTheFrontCommand : Obligations.StepRunsTheFrontCommand :=
  fun _ => ⟨fun _ _ => step_cons, step_nil⟩

/-! ### Every command runs and keeps the machine -/

/-- An outcome that is a next state, and keeps what `Keeps` says whatever next state it is. -/
theorem next_keeping {s : State} {o : Host.Outcome State Fault Refusal} (h : ∃ t, o = .next t) (k : KeepsOut s o) :
    ∃ t, o = .next t ∧ Keeps s t := by
  obtain ⟨t, e⟩ := h
  exact ⟨t, e, k.use e⟩

/-- The arms of `exec`, each by its command's laws: the one of Laws/Runs.lean that says it runs, and the one that says what it
keeps. Two arms name their outcome, which Lean does not find from the goal. -/
theorem exec_next_keeping (c : Instr) (s : State) : ∃ t, exec c s = .next t ∧ Keeps s t := by
  cases c with
  | registerWrite => exact next_keeping (execRegisterWrite_runs s) (execRegisterWrite_keeps (.refl s))
  | wideRegisterAccess => exact next_keeping (execWideRegisterAccess_runs s) (execWideRegisterAccess_keeps (.refl s))
  | counterReadClear => exact next_keeping (execCounterReadClear_runs s) (execCounterReadClear_keeps (.refl s))
  | viewAccess => exact next_keeping (execViewAccess_runs s) (execViewAccess_keeps (.refl s))
  | blkLockWrite => exact next_keeping (execBlkLockWrite_runs s) (execBlkLockWrite_keeps (.refl s))
  | blkEvtClear => exact next_keeping (execBlkEvtClear_runs s) (execBlkEvtClear_keeps (.refl s))
  | blkFltClear => exact next_keeping (execBlkFltClear_runs s) (execBlkFltClear_keeps (.refl s))
  | dpwDataAccess => exact next_keeping (execDpwDataAccess_runs s) (execDpwDataAccess_keeps (.refl s))
  | dpwHeldComplete => exact next_keeping (execDpwHeldComplete_runs s) (execDpwHeldComplete_keeps (.refl s))
  | regRead => exact next_keeping (execRegRead_runs s) (execRegRead_keeps (.refl s))
  | regWrite => exact next_keeping (execRegWrite_runs s) (execRegWrite_keeps (.refl s))
  | burstRead => exact next_keeping (execBurstRead_runs s) (execBurstRead_keeps (.refl s))
  | burstWrite => exact next_keeping (execBurstWrite_runs s) (execBurstWrite_keeps (.refl s))
  | tickBoundary => exact next_keeping (execTickBoundary_runs s) (execTickBoundary_keeps (.refl s))
  | tickCounterStart => exact next_keeping (execTickCounterStart_runs s) (execTickCounterStart_keeps (.refl s))
  | tickLenApply => exact next_keeping (execTickLenApply_runs s) (execTickLenApply_keeps (.refl s))
  | tplTickLenWrite => exact next_keeping (execTplTickLenWrite_runs s) (execTplTickLenWrite_keeps (.refl s))
  | shareTallyBuild => exact next_keeping (execShareTallyBuild_runs s) (execShareTallyBuild_keeps (.refl s))
  | planWindowEnd => exact next_keeping (execPlanWindowEnd_runs s) (execPlanWindowEnd_keeps (.refl s))
  | bookedItemStart => exact next_keeping (execBookedItemStart_runs s) (execBookedItemStart_keeps (.refl s))
  | bookedItemComplete => exact next_keeping (execBookedItemComplete_runs s) (execBookedItemComplete_keeps (.refl s))
  | sealPoint => exact next_keeping (execSealPoint_runs s) (execSealPoint_keeps (.refl s))
  | carryRemoval => exact next_keeping (execCarryRemoval_runs s) (execCarryRemoval_keeps (.refl s))
  | ctxForceClearStarved => exact next_keeping (execCtxForceClearStarved_runs s) (execCtxForceClearStarved_keeps (.refl s))
  | ctxForceLost => exact next_keeping (execCtxForceLost_runs s) (execCtxForceLost_keeps (.refl s))
  | ctxForceRelease => exact next_keeping (execCtxForceRelease_runs s) (execCtxForceRelease_keeps (.refl s))
  | cowCopyDone => exact next_keeping (execCowCopyDone_runs s) (execCowCopyDone_keeps (.refl s))
  | scrubDone => exact next_keeping (execScrubDone_runs s) (execScrubDone_keeps (.refl s))
  | labInvalidateSlot => exact next_keeping (execLabInvalidateSlot_runs s) (execLabInvalidateSlot_keeps (.refl s))
  | labInvalidateAll => exact next_keeping (execLabInvalidateAll_runs s) (execLabInvalidateAll_keeps (.refl s))
  | frmGrantToPartition => exact next_keeping (execFrmGrantToPartition_runs s) (execFrmGrantToPartition_keeps (.refl s))
  | frmGrantToPool => exact next_keeping (execFrmGrantToPool_runs s) (execFrmGrantToPool_keeps (.refl s))
  | frmDevresTake => exact next_keeping (execFrmDevresTake_runs s) (execFrmDevresTake_keeps (.refl s))
  | frmDevresRelease => exact next_keeping (execFrmDevresRelease_runs s) (execFrmDevresRelease_keeps (.refl s))
  | move => exact next_keeping (execMove_runs s) (execMove_keeps (.refl s))
  | moveLane => exact next_keeping (execMoveLane_runs s) (execMoveLane_keeps (.refl s))
  | setHint => exact next_keeping (execSetHint_runs s) (execSetHint_keeps (.refl s))
  | migrationCopyDone => exact next_keeping (execMigrationCopyDone_runs s) (execMigrationCopyDone_keeps (.refl s))
  | offPackageConfirm => exact next_keeping (execOffPackageConfirm_runs s) (execOffPackageConfirm_keeps (.refl s))
  | fetchReadDone => exact next_keeping (execFetchReadDone_runs s) (execFetchReadDone_keeps (.refl s))
  | pciLinkUp => exact next_keeping (execPciLinkUp_runs s) (execPciLinkUp_keeps (.refl s))
  | pciLinkDown => exact next_keeping (execPciLinkDown_runs s) (execPciLinkDown_keeps (.refl s))
  | driveCommandComplete => exact next_keeping (execDriveCommandComplete_runs s) (execDriveCommandComplete_keeps (.refl s))
  | segOpen => exact next_keeping (execSegOpen_runs s) (execSegOpen_keeps (.refl s))
  | sigma => exact next_keeping (execSigma_runs s) (execSigma_keeps (.refl s))
  | limit => exact next_keeping (execLimit_runs s) (execLimit_keeps (.refl s))
  | window => exact next_keeping (execWindow_runs s) (execWindow_keeps (.refl s))
  | row => exact next_keeping (execRow_runs s) (execRow_keeps (.refl s))
  | segmentPage => exact next_keeping (execSegmentPage_runs s) (execSegmentPage_keeps (.refl s))
  | segClose => exact next_keeping (execSegClose_runs s) (execSegClose_keeps (.refl s))
  | wait => exact next_keeping (execWait_runs s) (execWait_keeps (.refl s))
  | mark => exact next_keeping (execMark_runs s) (execMark_keeps (.refl s))
  | dest => exact next_keeping (execDest_runs s) (execDest_keeps (.refl s))
  | segmentComplete => exact next_keeping (execSegmentComplete_runs s) (execSegmentComplete_keeps (.refl s))
  | channelModeChange => exact next_keeping (execChannelModeChange_runs s) (execChannelModeChange_keeps (.refl s))
  | crownQueueServe => exact next_keeping (execCrownQueueServe_runs s) (execCrownQueueServe_keeps (.refl s))
  | refreshSlot => exact next_keeping (execRefreshSlot_runs s) (execRefreshSlot_keeps (.refl s))
  | tempFlagChange => exact next_keeping (execTempFlagChange_runs s) (execTempFlagChange_keeps (.refl s))
  | bookedIntervalGrant => exact next_keeping (execBookedIntervalGrant_runs s) (execBookedIntervalGrant_keeps (.refl s))
  | arbiterGrant => exact next_keeping (execArbiterGrant_runs s) (execArbiterGrant_keeps (.refl s))
  | fenWatchdogBite => exact next_keeping (execFenWatchdogBite_runs s) (execFenWatchdogBite_keeps (.refl s))
  | fenceClear => exact next_keeping (execFenceClear_runs s) (execFenceClear_keeps (.refl s))
  | fenTrainingDone => exact next_keeping (execFenTrainingDone_runs s) (execFenTrainingDone_keeps (.refl s))
  | dbrRawArm => exact next_keeping (execDbrRawArm_runs s) (execDbrRawArm_keeps (.refl s))
  | rawProgramStart => exact next_keeping (execRawProgramStart_runs s) (execRawProgramStart_keeps (.refl s))
  | rawProgramDone => exact next_keeping (execRawProgramDone_runs s) (execRawProgramDone_keeps (.refl s))
  | trwStart => exact next_keeping (execTrwStart_runs s) (execTrwStart_keeps (.refl s))
  | trwAbort => exact next_keeping (execTrwAbort_runs s) (execTrwAbort_keeps (.refl s))
  | descriptorFetch => exact next_keeping (execDescriptorFetch_runs s) (execDescriptorFetch_keeps (.refl s))
  | trwBurstReadDone => exact next_keeping (execTrwBurstReadDone_runs s) (execTrwBurstReadDone_keeps (.refl s))
  | trwBurstWriteDone => exact next_keeping (execTrwBurstWriteDone_runs s) (execTrwBurstWriteDone_keeps (.refl s))
  | feedRecord => exact next_keeping (execFeedRecord_runs s) (execFeedRecord_keeps (.refl s))
  | trwPblockWrite => exact next_keeping (execTrwPblockWrite_runs s) (execTrwPblockWrite_keeps (.refl s))
  | rdlLookup => exact next_keeping (execRdlLookup_runs s) (execRdlLookup_keeps (.refl s))
  | rdlLookupResult => exact next_keeping (execRdlLookupResult_runs s) (execRdlLookupResult_keeps (.refl s))
  | rdlInsert => exact next_keeping (execRdlInsert_runs s) (execRdlInsert_keeps (.refl s))
  | rdlDelete => exact next_keeping (execRdlDelete_runs s) (execRdlDelete_keeps (.refl s))
  | rdlCommandDone => exact next_keeping (execRdlCommandDone_runs s) (execRdlCommandDone_keeps (.refl s))
  | tilStart => exact next_keeping (execTilStart_runs s) (execTilStart_keeps (.refl s))
  | tilStop => exact next_keeping (execTilStop_runs s) (execTilStop_keeps (.refl s))
  | measureDone => exact next_keeping (execMeasureDone_runs s) (execMeasureDone_keeps (.refl s))
  | add => exact next_keeping (execAdd_runs s) (execAdd_keeps (.refl s))
  | sub => exact next_keeping (execSub_runs s) (execSub_keeps (.refl s))
  | and => exact next_keeping (execAnd_runs s) (execAnd_keeps (.refl s))
  | or => exact next_keeping (execOr_runs s) (execOr_keeps (.refl s))
  | xor => exact next_keeping (execXor_runs s) (execXor_keeps (.refl s))
  | shl => exact next_keeping (execShl_runs s) (execShl_keeps (.refl s))
  | shr => exact next_keeping (execShr_runs s) (execShr_keeps (.refl s))
  | mul => exact next_keeping (execMul_runs s) (execMul_keeps (.refl s))
  | addi => exact next_keeping (execAddi_runs s) (execAddi_keeps (.refl s))
  | li => exact next_keeping (execLi_runs s) (execLi_keeps (.refl s))
  | ld => exact next_keeping (execLd_runs s) (execLd_keeps (.refl s))
  | lw => exact next_keeping (execLw_runs s) (execLw_keeps (.refl s))
  | st => exact next_keeping (execSt_runs s) (execSt_keeps (.refl s))
  | sw => exact next_keeping (execSw_runs s) (execSw_keeps (.refl s))
  | vld => exact next_keeping (execVld_runs s) (execVld_keeps (.refl s))
  | vst => exact next_keeping (execVst_runs s) (execVst_keeps (.refl s))
  | beq => exact next_keeping (execBeq_runs s) (execBeq_keeps (.refl s))
  | bne => exact next_keeping (execBne_runs s) (execBne_keeps (.refl s))
  | blt => exact next_keeping (execBlt_runs s) (execBlt_keeps (.refl s))
  | jal => exact next_keeping (execJal_runs s) (execJal_keeps (.refl s))
  | jr => exact next_keeping (execJr_runs s) (execJr_keeps (.refl s))
  | waitcc => exact next_keeping (execWaitcc_runs s) (execWaitcc_keeps (.refl s))
  | waitRelease => exact next_keeping (execWaitRelease_runs s) (execWaitRelease_keeps (.refl s))
  | halt => exact next_keeping (execHalt_runs s) (execHalt_keeps (.refl s))
  | vadd => exact next_keeping (execVadd_runs s) (execVadd_keeps (.refl s))
  | vmul => exact next_keeping (execVmul_runs s) (execVmul_keeps (.refl s))
  | vfma => exact next_keeping (execVfma_runs s) (execVfma_keeps (.refl s))
  | vmax => exact next_keeping (execVmax_runs s) (execVmax_keeps (.refl s))
  | vexp2 => exact next_keeping (execVexp2_runs s) (execVexp2_keeps (.refl s))
  | vbcast => exact next_keeping (execVbcast_runs s) (execVbcast_keeps (.refl s))
  | vcvt => exact next_keeping (execVcvt_runs s) (execVcvt_keeps (.refl s))
  | mmac => exact next_keeping (execMmac_runs s) (execMmac_keeps (.refl s))
  | expand => exact next_keeping (execExpand_runs s) (execExpand_keeps (.refl s))
  | quant => exact next_keeping (execQuant_runs s) (execQuant_keeps (.refl s))
  | rot => exact next_keeping (execRot_runs s) (execRot_keeps (.refl s))
  | sketch => exact next_keeping (execSketch_runs s) (execSketch_keeps (.refl s))
  | score => exact next_keeping (execScore_runs s) (execScore_keeps (.refl s))
  | merge => exact next_keeping (execMerge_runs s) (execMerge_keeps (.refl s))
  | bound => exact next_keeping (execBound_runs s) (execBound_keeps (.refl s))
  | page => exact next_keeping (execPage_runs s) (execPage_keeps (.refl s))
  | blockOpComplete => exact next_keeping (execBlockOpComplete_runs s) (execBlockOpComplete_keeps (.refl s))
  | send => exact next_keeping (execSend_runs s) (execSend_keeps (.refl s))
  | recv => exact next_keeping (execRecv_runs s) (execRecv_keeps (.refl s))
  | poll => exact next_keeping (execPoll_runs s) (execPoll_keeps (.refl s))
  | modeq => exact next_keeping (execModeq_runs s) (execModeq_keeps (.refl s))
  | fenrd => exact next_keeping (execFenrd_runs s) (execFenrd_keeps (.refl s))
  | fenwr => exact next_keeping (execFenwr_runs s) (execFenwr_keeps (.refl s))
  | fenAccessComplete => exact next_keeping (execFenAccessComplete_runs s) (execFenAccessComplete_keeps (.refl s))
  | handoff => exact next_keeping (execHandoff_runs s) (execHandoff_keeps (.refl s))
  | csrr => exact next_keeping (execCsrr_runs s) (execCsrr_keeps (.refl s))
  | csrw => exact next_keeping (execCsrw_runs s) (execCsrw_keeps (.refl s))
  | fence => exact next_keeping (execFence_runs s) (execFence_keeps (.refl s))
  | bcopy => exact next_keeping (execBcopy_runs s) (execBcopy_keeps (.refl s))
  | messageEject => exact next_keeping (execMessageEject_runs s) (execMessageEject_keeps (.refl s))
  | ejectionTimeout => exact next_keeping (execEjectionTimeout_runs s) (execEjectionTimeout_keeps (.refl s))
  | vc0DirectWrite => exact next_keeping (execVc0DirectWrite_runs s) (execVc0DirectWrite_keeps (.refl s))
  | routerWatchdogBite => exact next_keeping (execRouterWatchdogBite_runs s) (execRouterWatchdogBite_keeps (.refl s))
  | frameReceive => exact next_keeping (execFrameReceive_runs s) (execFrameReceive_keeps (.refl s))
  | txRingWrite => exact next_keeping (execTxRingWrite_runs s) (execTxRingWrite_keeps (.refl s))
  | controlTxDone => exact next_keeping (execControlTxDone_runs s) (execControlTxDone_keeps (.refl s))
  | mgtFrameReceive => exact next_keeping (execMgtFrameReceive_runs s) (execMgtFrameReceive_keeps (.refl s))
  | linkChange => exact next_keeping (execLinkChange_runs s) (execLinkChange_keeps (.refl s))
  | fecDegrade => exact next_keeping (execFecDegrade_runs s) (execFecDegrade_keeps (.refl s))
  | ptpCfgWrite => exact next_keeping (execPtpCfgWrite_runs s) (execPtpCfgWrite_keeps (.refl s))
  | ptpFreqWrite => exact next_keeping (execPtpFreqWrite_runs s) (execPtpFreqWrite_keeps (.refl s))
  | ptpSlewWrite => exact next_keeping (execPtpSlewWrite_runs s) (execPtpSlewWrite_keeps (.refl s))
  | ptpStepWrite => exact next_keeping (execPtpStepWrite_runs s) (execPtpStepWrite_keeps (.refl s))
  | servoLockWrite => exact next_keeping (execServoLockWrite_runs s) (execServoLockWrite_keeps (.refl s))
  | ptpLossTimeout => exact next_keeping (execPtpLossTimeout_runs s) (execPtpLossTimeout_keeps (.refl s))
  | ppsInEdge => exact next_keeping (execPpsInEdge_runs s) (execPpsInEdge_keeps (.refl s))
  | ppsStuckTimeout => exact next_keeping (execPpsStuckTimeout_runs s) (execPpsStuckTimeout_keeps (.refl s))
  | syncWindowEnd => exact next_keeping (execSyncWindowEnd_runs s) (execSyncWindowEnd_keeps (.refl s))
  | ppsOutPulse => exact next_keeping (execPpsOutPulse_runs s) (execPpsOutPulse_keeps (.refl s))
  | ppsOutFall => exact next_keeping (execPpsOutFall_runs s) (execPpsOutFall_keeps (.refl s))
  | itpPacketReceive => exact next_keeping (execItpPacketReceive_runs s) (execItpPacketReceive_keeps (.refl s))
  | ack => exact next_keeping (execAck_runs s) (execAck_keeps (.refl s))
  | nak => exact next_keeping (execNak_runs s) (execNak_keeps (.refl s))
  | ackDelayTimeout => exact next_keeping (execAckDelayTimeout_runs s) (execAckDelayTimeout_keeps (.refl s))
  | retransmitTimeout => exact next_keeping (execRetransmitTimeout_runs s) (execRetransmitTimeout_keeps (.refl s))
  | messageTimeout => exact next_keeping (execMessageTimeout_runs s) (execMessageTimeout_keeps (.refl s))
  | ccPeriodEnd => exact next_keeping (execCcPeriodEnd_runs s) (execCcPeriodEnd_keeps (.refl s))
  | connOpen => exact next_keeping (execConnOpen_runs s) (execConnOpen_keeps (.refl s))
  | connClose => exact next_keeping (execConnClose_runs s) (execConnClose_keeps (.refl s))
  | regionValidate => exact next_keeping (execRegionValidate_runs s) (execRegionValidate_keeps (.refl s))
  | regionRevoke => exact next_keeping (execRegionRevoke_runs s) (execRegionRevoke_keeps (.refl s))
  | revokeDone => exact next_keeping (execRevokeDone_runs s) (execRevokeDone_keeps (.refl s))
  | itpSend => exact next_keeping (execItpSend_runs s) (execItpSend_keeps (.refl s))
  | itpWrite => exact next_keeping (execItpWrite_runs s) (execItpWrite_keeps (.refl s))
  | readReq => exact next_keeping (execReadReq_runs s) (execReadReq_keeps (.refl s))
  | readResp => exact next_keeping (execReadResp_runs s) (execReadResp_keeps (.refl s))
  | triggerStart => exact next_keeping (execTriggerStart_runs s) (execTriggerStart_keeps (.refl s))
  | wrSend => exact next_keeping (execWrSend_runs s) (execWrSend_keeps (.refl s))
  | wrWrite => exact next_keeping (execWrWrite_runs s) (execWrWrite_keeps (.refl s))
  | wrRead => exact next_keeping (execWrRead_runs s) (execWrRead_keeps (.refl s))
  | wrMsg => exact next_keeping (execWrMsg_runs s) (execWrMsg_keeps (.refl s))
  | areq => exact next_keeping (execAreq_runs s) (execAreq_keeps (.refl s))
  | append => exact next_keeping (execAppend_runs s) (execAppend_keeps (.refl s))
  | clone => exact next_keeping (execClone_runs s) (execClone_keeps (.refl s))
  | release => exact next_keeping (execRelease_runs s) (execRelease_keeps (.refl s))
  | cancel => exact next_keeping (execCancel_runs s) (execCancel_keeps (.refl s))
  | migrate => exact next_keeping (execMigrate_runs s) (execMigrate_keeps (.refl s))
  | mirrorAdone => exact next_keeping (execMirrorAdone_runs s) (execMirrorAdone_keeps (.refl s))
  | mirrorTimeout => exact next_keeping (execMirrorTimeout_runs s) (execMirrorTimeout_keeps (.refl s))
  | egressEnqueue => exact next_keeping (execEgressEnqueue_runs s) (execEgressEnqueue_keeps (.refl s))
  | transmitDecision port bad =>
    exact next_keeping (o := execTransmitDecision port bad s) (execTransmitDecision_runs s) (execTransmitDecision_keeps (.refl s))
  | frameTxEnd => exact next_keeping (execFrameTxEnd_runs s) (execFrameTxEnd_keeps (.refl s))
  | gateEdge => exact next_keeping (execGateEdge_runs s) (execGateEdge_keeps (.refl s))
  | telemetrySample => exact next_keeping (execTelemetrySample_runs s) (execTelemetrySample_keeps (.refl s))
  | hello => exact next_keeping (execHello_runs s) (execHello_keeps (.refl s))
  | helloProbePeriod => exact next_keeping (execHelloProbePeriod_runs s) (execHelloProbePeriod_keeps (.refl s))
  | fabEpochNextWrite => exact next_keeping (execFabEpochNextWrite_runs s) (execFabEpochNextWrite_keeps (.refl s))
  | snap => exact next_keeping (execSnap_runs s) (execSnap_keeps (.refl s))
  | sync => exact next_keeping (execSync_runs s) (execSync_keeps (.refl s))
  | breakMsg => exact next_keeping (execBreak_runs s) (execBreak_keeps (.refl s))
  | importMsg => exact next_keeping (execImport_runs s) (execImport_keeps (.refl s))
  | snapshotCopyDone => exact next_keeping (execSnapshotCopyDone_runs s) (execSnapshotCopyDone_keeps (.refl s))
  | holdoverServingStop => exact next_keeping (execHoldoverServingStop_runs s) (execHoldoverServingStop_keeps (.refl s))
  | getVersion => exact next_keeping (execGetVersion_runs s) (execGetVersion_keeps (.refl s))
  | getCapabilities => exact next_keeping (execGetCapabilities_runs s) (execGetCapabilities_keeps (.refl s))
  | negotiateAlgorithms => exact next_keeping (execNegotiateAlgorithms_runs s) (execNegotiateAlgorithms_keeps (.refl s))
  | getDigests => exact next_keeping (execGetDigests_runs s) (execGetDigests_keeps (.refl s))
  | getCertificate => exact next_keeping (execGetCertificate_runs s) (execGetCertificate_keeps (.refl s))
  | challenge => exact next_keeping (execChallenge_runs s) (execChallenge_keeps (.refl s))
  | getMeasurements => exact next_keeping (execGetMeasurements_runs s) (execGetMeasurements_keeps (.refl s))
  | keyExchange => exact next_keeping (execKeyExchange_runs s) (execKeyExchange_keeps (.refl s))
  | finish => exact next_keeping (execFinish_runs s) (execFinish_keeps (.refl s))
  | endSession => exact next_keeping (execEndSession_runs s) (execEndSession_keeps (.refl s))
  | chunkSend => exact next_keeping (execChunkSend_runs s) (execChunkSend_keeps (.refl s))
  | chunkGet => exact next_keeping (execChunkGet_runs s) (execChunkGet_keeps (.refl s))
  | unsupportedSpdmRequest => exact next_keeping (execUnsupportedSpdmRequest_runs s) (execUnsupportedSpdmRequest_keeps (.refl s))
  | sessionTimeout => exact next_keeping (execSessionTimeout_runs s) (execSessionTimeout_keeps (.refl s))
  | getReport => exact next_keeping (execGetReport_runs s) (execGetReport_keeps (.refl s))
  | importJob h part job iv wrapped =>
    exact next_keeping (o := execImportJob h part job iv wrapped s) (execImportJob_runs s) (execImportJob_keeps (.refl s))
  | dropJob => exact next_keeping (execDropJob_runs s) (execDropJob_keeps (.refl s))
  | getChallenge => exact next_keeping (execGetChallenge_runs s) (execGetChallenge_keeps (.refl s))
  | token => exact next_keeping (execToken_runs s) (execToken_keeps (.refl s))
  | installNext => exact next_keeping (execInstallNext_runs s) (execInstallNext_keeps (.refl s))
  | txSwitch => exact next_keeping (execTxSwitch_runs s) (execTxSwitch_keeps (.refl s))
  | retireOld => exact next_keeping (execRetireOld_runs s) (execRetireOld_keeps (.refl s))
  | rekeyJob => exact next_keeping (execRekeyJob_runs s) (execRekeyJob_keeps (.refl s))
  | keyDerivationDone => exact next_keeping (execKeyDerivationDone_runs s) (execKeyDerivationDone_keeps (.refl s))
  | prtResetStart => exact next_keeping (execPrtResetStart_runs s) (execPrtResetStart_keeps (.refl s))
  | prtResetCommit => exact next_keeping (execPrtResetCommit_runs s) (execPrtResetCommit_keeps (.refl s))
  | commitArb => exact next_keeping (execCommitArb_runs s) (execCommitArb_keeps (.refl s))
  | selectSlot => exact next_keeping (execSelectSlot_runs s) (execSelectSlot_keeps (.refl s))
  | relock => exact next_keeping (execRelock_runs s) (execRelock_keeps (.refl s))
  | newchal => exact next_keeping (execNewchal_runs s) (execNewchal_keeps (.refl s))
  | report => exact next_keeping (execReport_runs s) (execReport_keeps (.refl s))
  | attToken => exact next_keeping (execAttToken_runs s) (execAttToken_keeps (.refl s))
  | reportSigned => exact next_keeping (execReportSigned_runs s) (execReportSigned_keeps (.refl s))
  | debugUnlock => exact next_keeping (execDebugUnlock_runs s) (execDebugUnlock_keeps (.refl s))
  | deploy => exact next_keeping (execDeploy_runs s) (execDeploy_keeps (.refl s))
  | enterRma => exact next_keeping (execEnterRma_runs s) (execEnterRma_keeps (.refl s))
  | scrap => exact next_keeping (execScrap_runs s) (execScrap_keeps (.refl s))
  | provision => exact next_keeping (execProvision_runs s) (execProvision_keeps (.refl s))
  | patrolWord => exact next_keeping (execPatrolWord_runs s) (execPatrolWord_keeps (.refl s))
  | poisonAdd => exact next_keeping (execPoisonAdd_runs s) (execPoisonAdd_keeps (.refl s))
  | poisonDel => exact next_keeping (execPoisonDel_runs s) (execPoisonDel_keeps (.refl s))
  | portBWatchdogBite => exact next_keeping (execPortBWatchdogBite_runs s) (execPortBWatchdogBite_keeps (.refl s))
  | lbistArm => exact next_keeping (execLbistArm_runs s) (execLbistArm_keeps (.refl s))
  | lbistAbort => exact next_keeping (execLbistAbort_runs s) (execLbistAbort_keeps (.refl s))
  | lbistSliceEnd => exact next_keeping (execLbistSliceEnd_runs s) (execLbistSliceEnd_keeps (.refl s))
  | mbistRun => exact next_keeping (execMbistRun_runs s) (execMbistRun_keeps (.refl s))
  | softRepair => exact next_keeping (execSoftRepair_runs s) (execSoftRepair_keeps (.refl s))
  | fuseRepair => exact next_keeping (execFuseRepair_runs s) (execFuseRepair_keeps (.refl s))
  | mbistDone => exact next_keeping (execMbistDone_runs s) (execMbistDone_keeps (.refl s))
  | pinsQualified => exact next_keeping (execPinsQualified_runs s) (execPinsQualified_keeps (.refl s))
  | sysBootWrite => exact next_keeping (execSysBootWrite_runs s) (execSysBootWrite_keeps (.refl s))
  | pwrokFall => exact next_keeping (execPwrokFall_runs s) (execPwrokFall_keeps (.refl s))
  | resetNFall => exact next_keeping (execResetNFall_runs s) (execResetNFall_keeps (.refl s))
  | sysReset => exact next_keeping (execSysReset_runs s) (execSysReset_keeps (.refl s))
  | deviceReset => exact next_keeping (execDeviceReset_runs s) (execDeviceReset_keeps (.refl s))
  | sysWdogKick => exact next_keeping (execSysWdogKick_runs s) (execSysWdogKick_keeps (.refl s))
  | mcxWatchdogBite => exact next_keeping (execMcxWatchdogBite_runs s) (execMcxWatchdogBite_keeps (.refl s))
  | peek => exact next_keeping (execPeek_runs s) (execPeek_keeps (.refl s))
  | poke => exact next_keeping (execPoke_runs s) (execPoke_keeps (.refl s))
  | dump => exact next_keeping (execDump_runs s) (execDump_keeps (.refl s))
  | fill => exact next_keeping (execFill_runs s) (execFill_keeps (.refl s))
  | load => exact next_keeping (execLoad_runs s) (execLoad_keeps (.refl s))
  | events => exact next_keeping (execEvents_runs s) (execEvents_keeps (.refl s))
  | tiles => exact next_keeping (execTiles_runs s) (execTiles_keeps (.refl s))
  | lifecycle => exact next_keeping (execLifecycle_runs s) (execLifecycle_keeps (.refl s))
  | attest => exact next_keeping (execAttest_runs s) (execAttest_keeps (.refl s))
  | uartBreak => exact next_keeping (execUartBreak_runs s) (execUartBreak_keeps (.refl s))
  | refclkLoss => exact next_keeping (execRefclkLoss_runs s) (execRefclkLoss_keeps (.refl s))
  | pllUnlock => exact next_keeping (execPllUnlock_runs s) (execPllUnlock_keeps (.refl s))
  | allowanceSample => exact next_keeping (execAllowanceSample_runs s) (execAllowanceSample_keeps (.refl s))
  | sensorSample => exact next_keeping (execSensorSample_runs s) (execSensorSample_keeps (.refl s))
  | thermtripReset => exact next_keeping (execThermtripReset_runs s) (execThermtripReset_keeps (.refl s))
  | railMonitorSample => exact next_keeping (execRailMonitorSample_runs s) (execRailMonitorSample_keeps (.refl s))
  | avsStep => exact next_keeping (execAvsStep_runs s) (execAvsStep_keeps (.refl s))
  | avsPoll => exact next_keeping (execAvsPoll_runs s) (execAvsPoll_keeps (.refl s))
  | pmbAlert => exact next_keeping (execPmbAlert_runs s) (execPmbAlert_keeps (.refl s))
  | faultNAsserted => exact next_keeping (execFaultNAsserted_runs s) (execFaultNAsserted_keeps (.refl s))
  | faultnClear => exact next_keeping (execFaultnClear_runs s) (execFaultnClear_keeps (.refl s))
  | migrateCopyDone => exact next_keeping (execMigrateCopyDone_runs s) (execMigrateCopyDone_keeps (.refl s))
  | slewComplete => exact next_keeping (execSlewComplete_runs s) (execSlewComplete_keeps (.refl s))
  | faultNReleased => exact next_keeping (execFaultNReleased_runs s) (execFaultNReleased_keeps (.refl s))
  | refclkReturn => exact next_keeping (execRefclkReturn_runs s) (execRefclkReturn_keeps (.refl s))
  | pllLock => exact next_keeping (execPllLock_runs s) (execPllLock_keeps (.refl s))
  | uartRxResume => exact next_keeping (execUartRxResume_runs s) (execUartRxResume_keeps (.refl s))
  | portBGrant => exact next_keeping (execPortBGrant_runs s) (execPortBGrant_keeps (.refl s))

/-- Settles O3, by the command's own laws. -/
theorem everyCommandAnswersANextState : Obligations.EveryCommandAnswersANextState := exec_next_keeping

/-- Whatever next state a command answers keeps what `Keeps` says. -/
theorem exec_keeps {c : Instr} {s t : State} (e : exec c s = .next t) : Keeps s t := by
  obtain ⟨u, eu, hk⟩ := exec_next_keeping c s
  obtain rfl : u = t := by rw [eu] at e; exact Host.Outcome.next.inj e
  exact hk

/-- What a step leaves is kept from the state without the command in front. -/
theorem step_keeps {s t : State} (e : step s = .next t) : Keeps { s with pending := s.pending.tail } t := by
  rcases hp : s.pending with _ | ⟨c, rest⟩
  · rw [step_nil hp] at e
    obtain rfl := Host.Outcome.next.inj e
    have hs : Keeps { s with pending := [] } s := ⟨hp, Nat.le_refl _, Nat.le_refl _, id⟩
    exact State.ccPass_keeps hs
  · rw [step_cons hp] at e
    exact exec_keeps e

/-- Settles O4, from what a step keeps: taking the front command off the queue touches neither memory nor registers. -/
theorem stepsKeepTheMachine : Obligations.StepsKeepTheMachine := by
  intro s t hs e
  obtain ⟨hpending, hfresh, hboot, hok⟩ := step_keeps e
  exact ⟨hok hs, hpending, hfresh, hboot⟩

/-! ### A core's access to a register word -/

/-- A core's aligned store to a register word outside the data port is a write of that word (R20). -/
theorem execRegisterWrite_reg {s : State} {core addr : Nat} {x : Blk × Nat × Nat × RegRow} (v : Nat) (hc : core < 4)
    (hst : coreStalled s core = false) (h4 : addr % 4 = 0) (hd : dpwSet addr = none) (hr : regRow addr = some x) :
    execRegisterWrite core addr v 32 s = .next (writeReg s addr v) := by
  simp [execRegisterWrite, coreAccess, coreStore, Nat.mod_eq_of_lt hc, hst, h4, hd, regRow_noView hr]

/-- A core's aligned load of a register word outside the data port is a read of that word (R20). -/
theorem coreAccess_load_reg {s : State} {core addr v : Nat} {bad : Bool} {x : Blk × Nat × Nat × RegRow}
    (hst : coreStalled s core = false) (h4 : addr % 4 = 0) (hd : dpwSet addr = none) (hr : regRow addr = some x) :
    coreAccess s core addr 32 false v bad = (readReg s core addr).1.answer core (readReg s core addr).2 := by
  simp [coreAccess, coreLoad, hst, h4, hd, regRow_noView hr]

/-! ### A plain store -/

/-- A write of a word that no block attaches an effect to, and that waits for no boundary, changes its fields alone. -/
theorem oneWrite_plain {s : State} {a v n off : Nat} {b : Blk} {r : RegRow} (hv : v < 2 ^ 32) (hr : regRow a = some (b, n, off, r))
    (hhead : headEffect s b n off v = none) (hsys : sysEffect s b off v = none) (hcore : coreEffect s b n off v = none)
    (hedge : edgeEffect s b n off v = none) (hrwt : (r.flds.any fun f => decide (f.acc = .rwt)) = false) :
    oneWrite s a v = wordWrite s a v := by
  simp only [oneWrite, Nat.mod_eq_of_lt hv, hr, hhead, hsys, hcore, hedge, hrwt]; simp

/-- A write of a word with no RWT field, which no lock stops, sets the word to what the access codes of its fields leave (R7). -/
theorem wordWrite_plain {s : State} {a n off : Nat} {b : Blk} {r : RegRow} (v : Nat) (hr : regRow a = some (b, n, off, r))
    (hl : lockStops s a = false) (hrwt : (r.flds.any fun f => decide (f.acc = .rwt)) = false) :
    wordWrite s a v = s.setRg a (r.flds.foldl (fun old f => f.put (s.locked b n) old v) (s.rg a)) := by
  simp only [wordWrite, hr, hl, hrwt]
  simp

/-- Settles O5: the store is one word's plain write, and a register word reads as written. -/
theorem plainStoreChangesFieldsByAccessCode : Obligations.PlainStoreChangesFieldsByAccessCode := by
  intro core addr v n off b r s hok hc hst h4 hd hr hlo hhi hl hhead hsys hcore hedge hrwt
  have hv : v % 2 ^ 32 < 2 ^ 32 := Nat.mod_lt _ (by decide)
  refine ⟨_, execRegisterWrite_reg v hc hst h4 hd hr, ?_⟩
  rw [writeReg_one s addr v _ hr hhi hlo, oneWrite_plain hv hr hhead hsys hcore hedge hrwt, wordWrite_plain _ hr hl hrwt]
  refine ⟨?_, fun a ha => ?_, rfl⟩
  · rw [State.rg_setRg _ _ _ _ hok, if_pos rfl]
  · rw [State.rg_setRg _ _ _ _ hok, if_neg ha]

/-! ### A read of an RC word -/

/-- A read of a 32-bit register answers its value and clears its RC fields, where it latches no PTP seconds (R7, R375). -/
theorem readReg_narrow {s : State} {a : Nat} (req : Nat) (hlo : isWideLo a = false) (hhi : isWideHi a = false)
    (hns : a ≠ Reg.PTP_TIME_NS) (hts : a ≠ Reg.PTP_PPS_TS_NS) : readReg s req a = (clearRc s a, readValue s a) := by
  simp [readReg, latchSec, hlo, hhi, hns, hts]

/-- A read of a word with an RC field leaves every RC field at zero (R7). -/
theorem clearRc_rc {s : State} {a n off : Nat} {b : Blk} {r : RegRow} (hr : regRow a = some (b, n, off, r))
    (hrc : (r.flds.any fun f => decide (f.acc = .rc)) = true) :
    clearRc s a = s.setRg a (r.flds.foldl (fun w f => if f.acc = .rc then putBits w f.hi f.lo 0 else w) (s.rg a)) := by
  simp only [clearRc, hr, hrc, if_true]

/-- COUNTER_READ_CLEAR of a word with an RC field is the core's load of that word. -/
theorem execCounterReadClear_rc {s : State} {core a n off : Nat} {b : Blk} {r : RegRow} (hc : core < 4)
    (hr : regRow a = some (b, n, off, r)) (hrc : (r.flds.any fun f => decide (f.acc = .rc)) = true) :
    execCounterReadClear core a s = .next (coreAccess s core a 32 false 0 false) := by
  simp only [execCounterReadClear, hr, hrc, if_true, Nat.mod_eq_of_lt hc]

/-- Settles O9: the command is the core's load of the word, and the load clears the word's RC fields. -/
theorem readOfAnRcWordClearsIt : Obligations.ReadOfAnRcWordClearsIt := by
  intro core addr n off b r s hc hst h4 hd hr hlo hhi hns hts hrc
  calc execCounterReadClear core addr s
      = .next (coreAccess s core addr 32 false 0 false) := execCounterReadClear_rc hc hr hrc
    _ = .next ((readReg s core addr).1.answer core (readReg s core addr).2) := by rw [coreAccess_load_reg hst h4 hd hr]
    _ = _ := by rw [readReg_narrow core hlo hhi hns hts, clearRc_rc hr hrc]

end Sys2Proof.Machine
end

section
/-!
SUPPORT. The proofs of the statements of spec/02_control_space.md about the control-space registers and views: a store of another shape
(R20), 64-bit registers (R21), views (R24, R25), the header's registers (R33 to R37), and words that wait for the boundary (R39 to R41).
-/

namespace Sys2Proof.Machine

/-! ### Loads and stores of a core (R20) -/

/-- Settles O7: an access that is not stalled and has another shape does nothing but record the fault. -/
theorem misshapenStoreIsAnAccessFault : Obligations.MisshapenStoreIsAnAccessFault := by
  intro core addr v width s hc hst hshape
  have hcore : core % 8 = core := Nat.mod_eq_of_lt (by omega)
  show Host.Outcome.next (coreAccess s (core % 4) addr width true v false) = _
  rw [Nat.mod_eq_of_lt hc]
  simp only [coreAccess, hst, if_pos hshape, accessFault, hcore]
  simp

/-- A core's aligned store to a register word outside the data port is a write of that word (R20). -/
theorem coreAccess_store_reg {s : State} {core addr v : Nat} {bad : Bool} {x : Blk × Nat × Nat × RegRow}
    (hst : coreStalled s core = false) (h4 : addr % 4 = 0) (hd : dpwSet addr = none) (hr : regRow addr = some x) :
    coreAccess s core addr 32 true v bad = writeReg s addr v := by
  simp [coreAccess, coreStore, hst, h4, hd, regRow_noView hr]

/-! ### 64-bit registers (R21) -/

/-- WIDE_REGISTER_ACCESS of a word of a 64-bit register is the core's access to that word. -/
theorem execWideRegisterAccess_wide {s : State} {core a : Nat} (w : Bool) (v : Nat) (hc : core < 4)
    (h : isWideLo a = true ∨ isWideHi a = true) :
    execWideRegisterAccess core a w v s = .next (coreAccess s core a 32 w v false) := by
  simp [execWideRegisterAccess, Nat.mod_eq_of_lt hc, h]

/-- A read of a low word answers it and latches the high word for the requester, where the word has no effect of its own (R21). -/
theorem readReg_low {s : State} {a n off : Nat} {b : Blk} {r : RegRow} (req : Nat) (hr : regRow a = some (b, n, off, r))
    (hlo : isWideLo a = true) (hhi : isWideHi a = false) (hrc : (r.flds.any fun f => decide (f.acc = .rc)) = false)
    (hns : a ≠ Reg.PTP_TIME_NS) (hts : a ≠ Reg.PTP_PPS_TS_NS) :
    readReg s req a =
      ({ s with latch := SMap.set s.latch 0 (latchKey req (a + 4)) (readValue s (a + 4) + 1) }, readValue s a) := by
  simp [readReg, latchSec, clearRc, hr, hrc, hlo, hhi, hns, hts]

/-- A read of a high word whose latch is filled answers the latch and empties it (R21). -/
theorem readReg_latched {s : State} {a req x : Nat} (hhi : isWideHi a = true) (hx : SMap.get s.latch 0 (latchKey req a) = x + 1) :
    readReg s req a = ({ s with latch := SMap.set s.latch 0 (latchKey req a) 0 }, x) := by
  simp [readReg, hhi, hx]

/-- A write of a high word is staged, where no lock stops it (R21). -/
theorem writeReg_high {s : State} {a : Nat} {x : Blk × Nat × Nat × RegRow} (v : Nat) (hr : regRow a = some x) (hhi : isWideHi a = true)
    (hl : lockStops s a = false) : writeReg s a v = { s with stage := SMap.set s.stage 0 a (v % 2 ^ 32 + 1) } := by
  simp [writeReg, hr, hhi, hl]

/-- A write of a low word whose high word is staged writes the staged word, then the low one (R21). -/
theorem writeReg_low {s : State} {a n off hi : Nat} {b : Blk} {r : RegRow} (v : Nat) (hr : regRow a = some (b, n, off, r))
    (hlo : isWideLo a = true) (hhi : isWideHi a = false) (hstep : a ≠ Reg.PTP_STEP_LO) (hb : b ≠ .trw)
    (hs : SMap.get s.stage 0 (a + 4) = hi + 1) :
    writeReg s a v = oneWrite (oneWrite { s with stage := SMap.set s.stage 0 (a + 4) 0 } (a + 4) hi) a (v % 2 ^ 32) := by
  simp [writeReg, hr, hlo, hhi, hstep, hb, hs]

/-- Settles O8: the command is the core's load or store, and each word of the pair reads and writes by R21. -/
theorem wideRegisterHalvesMoveTogether : Obligations.WideRegisterHalvesMoveTogether := by
  intro core addr n off b r s hc hst h4 hd hr
  have load (v : Nat) (h : isWideLo addr = true ∨ isWideHi addr = true) :
      execWideRegisterAccess core addr false v s = .next ((readReg s core addr).1.answer core (readReg s core addr).2) := by
    rw [execWideRegisterAccess_wide _ _ hc h, coreAccess_load_reg hst h4 hd hr]
  have store (v : Nat) (h : isWideLo addr = true ∨ isWideHi addr = true) :
      execWideRegisterAccess core addr true v s = .next (writeReg s addr v) := by
    rw [execWideRegisterAccess_wide _ _ hc h, coreAccess_store_reg hst h4 hd hr]
  refine ⟨fun hlo hhi hrc hns hts v => ?_, fun hhi x v hx => ?_, fun hhi hl v => ?_, fun hlo hhi hstep hb hi v hs => ?_⟩
  · exact (load v (.inl hlo)).trans (by rw [readReg_low core hr hlo hhi hrc hns hts])
  · exact (load v (.inr hhi)).trans (by rw [readReg_latched hhi hx])
  · exact (store v (.inr hhi)).trans (by rw [writeReg_high v hr hhi hl])
  · exact (store v (.inl hlo)).trans (by rw [writeReg_low v hr hlo hhi hstep hb hs])

/-! ### Views (R24, R25) -/

/-- A load of a view outside its table reads zero (R25). -/
theorem viewRead_outside {s : State} {view off t p : Nat} (bad : Bool) (hp : viewPlace s view off = (t, p))
    (hout : (tableShape t).1 * (tableShape t).2 ≤ p) : viewRead s view off bad = (s, 0) := by
  simp [viewRead, hp, hout]

/-- A load of a view inside its table, the look-aside buffer apart, reads the word of the entry (R25). -/
theorem viewRead_inside {s : State} {view off t p : Nat} (hp : viewPlace s view off = (t, p))
    (hin : p < (tableShape t).1 * (tableShape t).2) (ht : t ≠ 4) :
    viewRead s view off false = (s, unpackLE (tableEntry s t (p / (tableShape t).1)) (p % (tableShape t).1) 4) := by
  simp [viewRead, hp, Nat.not_le.mpr hin, ht]

/-- Settles O10: VIEW_ACCESS is the core's access at the view's address, inside its table or outside it. -/
theorem viewShowsItsTableWindow : Obligations.ViewShowsItsTableWindow := by
  intro core view off v t p s hc hv ho h4 hst hp
  obtain ⟨hview, halign⟩ := viewOf_viewAddress view off hv ho h4
  have access (w : Bool) : execViewAccess core view off w v false s = _ :=
    congrArg Host.Outcome.next (coreAccess_view s core view off v t p w _ hc hst hview halign hp)
  refine ⟨fun hout => ⟨?_, ?_⟩, fun hin ht => ⟨?_, ?_⟩⟩
  · exact (access false).trans (by simp [viewRead_outside false hp hout])
  · exact (access true).trans (by simp [hout])
  · exact (access false).trans (by simp [viewRead_inside hp hin ht])
  · exact (access true).trans (by simp [Nat.not_le.mpr hin])

/-! ### Header registers (R33 to R37) -/

/-- A write of BLK_LOCK takes bit 0 with the key above it, and is nothing without (R37). -/
theorem writeReg_blkLock {s : State} {b : Blk} {n v : Nat} (hn : n < b.count) (hv : v < 2 ^ 32) :
    writeReg s (Reg.BLK_LOCK b n) v = if v / 65536 = 0xA5C3 then s.setRg (Reg.BLK_LOCK b n) (v % 2) else s := by
  have hkey : v / 65536 % 65536 = v / 65536 := Nat.mod_eq_of_lt (by omega)
  refine writeReg_head s b n 0x030 v _ _ hn (by decide) (by decide) (by decide) hv (regRow_lock b n hn) rfl ?_
  simp [headEffect, hkey]

/-- A write of BLK_EVT is the word's write, after which events of the cc stand (R33, R34). -/
theorem writeReg_blkEvt {s : State} {b : Blk} {n v : Nat} (hn : n < b.count) (hv : v < 2 ^ 32) :
    writeReg s (Reg.BLK_EVT b n) v = evtStays (wordWrite s (Reg.BLK_EVT b n) v) b n v :=
  writeReg_head s b n 0x018 v _ _ hn (by decide) (by decide) (by decide) hv (regRow_evt b n hn) rfl (by simp [headEffect])

/-- A write of BLK_FLT with valid as one clears the word, after which faults of the cc are recorded (R35, R509); PWR's lets go of FAULT_N
too. -/
theorem writeReg_blkFlt {s : State} {b : Blk} {n v : Nat} (hn : n < b.count) (hv : v < 2 ^ 32) (hb : b ≠ .pwr) :
    writeReg s (Reg.BLK_FLT b n) v = if bitOf v 8 then fltStays (s.setRg (Reg.BLK_FLT b n) 0) b n else s :=
  writeReg_head s b n 0x020 v _ _ hn (by decide) (by decide) (by decide) hv (regRow_flt b n hn) rfl (by simp [headEffect, hb])

/-- A write of BLK_FLT with valid as zero does nothing (R35). -/
theorem writeReg_blkFlt_invalid {s : State} {b : Blk} {n v : Nat} (hn : n < b.count) (hv : v < 2 ^ 32) (h8 : bitOf v 8 = false) :
    writeReg s (Reg.BLK_FLT b n) v = s :=
  writeReg_head s b n 0x020 v _ _ hn (by decide) (by decide) (by decide) hv (regRow_flt b n hn) rfl (by simp [headEffect, h8])

/-- What was seen in another cc or of another block is not of this block and cc. -/
theorem not_now_of_other {u v i j : Nat} (h : (u != v || i != j) = true) : (u == v && i == j) = false := by
  simpa only [bne, ← Bool.not_and, Bool.not_eq_true'] using h

/-- Where the block has had no event in this cc, none stands after a W1C write (R34). -/
theorem evtStays_none {s : State} {b : Blk} {n : Nat} (v : Nat)
    (h : (s.seen.all fun x => x.up != s.time.up || x.blk != b.base n) = true) : evtStays s b n v = s := by
  have hmine : (s.seen.reverse.filter fun x => x.up == s.time.up && x.blk == b.base n && bitOf v x.bit) = [] := by
    simp only [List.filter_eq_nil_iff, List.mem_reverse]
    intro x hx
    simp [not_now_of_other (List.all_eq_true.mp h x hx)]
  simp only [evtStays, hmine, List.foldl_nil]

/-- Where the block has had no fault in this cc, none is recorded after a clear (R509). -/
theorem fltStays_none {s : State} {b : Blk} {n : Nat}
    (h : (s.seenFlt.all fun x => x.up != s.time.up || x.blk != b.base n) = true) : fltStays s b n = s := by
  have other (x) (hx : x ∈ s.seenFlt) : (x.up == s.time.up && x.blk == b.base n) = false :=
    not_now_of_other (List.all_eq_true.mp h x hx)
  have hmine : (s.seenFlt.reverse.filter fun x => x.up == s.time.up && x.blk == b.base n) = [] := by
    simp only [List.filter_eq_nil_iff, List.mem_reverse]
    intro x hx
    simp [other x hx]
  have hrest : (s.seenFlt.filter fun x => !(x.up == s.time.up && x.blk == b.base n)) = s.seenFlt :=
    List.filter_eq_self.mpr fun x hx => by simp [other x hx]
  simp only [fltStays, hmine, hrest, List.foldl_nil]

/-- The low 32 bits of a number are its own. -/
theorem bitOf_low {v k : Nat} (hk : k < 32) : bitOf (v % 2 ^ 32) k = bitOf v k := by
  have h (y : Nat) : bitOf y k = y.testBit k := by
    simp [bitOf, Nat.testBit, Nat.shiftRight_eq_div_pow, Nat.and_comm 1]
  rw [h, h, Nat.testBit_mod_two_pow]
  simp [hk]

/-- A word's write of BLK_EVT clears the bits written as one (R33). -/
theorem wordWrite_blkEvt {s : State} {b : Blk} {n : Nat} (v : Nat) (hn : n < b.count) :
    wordWrite s (Reg.BLK_EVT b n) v = s.setRg (Reg.BLK_EVT b n)
      (Fld.put (s.locked b n) ⟨31, 0, .w1c, 0⟩ (s.rg (Reg.BLK_EVT b n)) v) :=
  wordWrite_plain v (regRow_evt b n hn) (by simp [lockStops, regRow_evt b n hn]) rfl

/-- What a W1C field of a whole word holds after a write: the bits not written as one (R7). -/
theorem put_w1c_word {locked : Bool} {old v k : Nat} (hv : v < 2 ^ 32) (hk : k < 32) :
    bitOf (Fld.put locked ⟨31, 0, .w1c, 0⟩ old v % 2 ^ 32) k = (bitOf old k && !bitOf v k) := by
  have hw (x : Nat) : putBits old 31 0 x % 2 ^ 32 = x % 2 ^ 32 := by simp only [putBits, bitsOf]; omega
  have hbits (x : Nat) : bitsOf x 31 0 = x % 2 ^ 32 := by simp [bitsOf]
  have hlt : old % 2 ^ 32 < 2 ^ 32 := Nat.mod_lt _ (by decide)
  simp only [Fld.put, hw, hbits, Nat.mod_eq_of_lt hv]
  rw [bitOf_low hk]
  exact (land_comp_bit _ v k hlt hv).trans (by rw [bitOf_low hk])

/-- Settles O11, by what a write of each of the three header registers is. -/
theorem headerWritesLockAndAcknowledge : Obligations.HeaderWritesLockAndAcknowledge := by
  intro b n v s hok hn hv
  have lock : execBlkLockWrite (b.page + n) v s = _ := congrArg Host.Outcome.next (writeReg_blkLock hn hv)
  refine ⟨fun hkey => lock.trans (by rw [if_pos hkey]), fun hkey => lock.trans (by rw [if_neg hkey]), fun hseen => ?_,
    fun hb hseen h8 => ?_, fun h8 => congrArg Host.Outcome.next (writeReg_blkFlt_invalid hn hv h8)⟩
  · have hevt : writeReg s (Reg.BLK_EVT b n) v = s.setRg (Reg.BLK_EVT b n) _ :=
      (writeReg_blkEvt hn hv).trans (by rw [wordWrite_blkEvt v hn]; exact evtStays_none v hseen)
    refine ⟨_, congrArg Host.Outcome.next hevt, rfl, fun a ha => ?_, fun k hk => ?_⟩
    · rw [State.rg_setRg _ _ _ _ hok, if_neg ha]
    · rw [State.bit, State.rg_setRg _ _ _ _ hok, if_pos rfl, put_w1c_word hv hk, State.bit]
  · exact congrArg Host.Outcome.next ((writeReg_blkFlt hn hv hb).trans ((if_pos h8).trans (fltStays_none hseen)))

/-! ### Words that wait for the boundary (R39 to R41) -/

/-- The state with another table of pending values. -/
def State.withRwt (s : State) (m : SMap Nat) : State := { s with rwt := m }

theorem State.withRwt_rg (s : State) (m : SMap Nat) (a : Nat) : (s.withRwt m).rg a = s.rg a := rfl
theorem State.ok_withRwt {s : State} (m : SMap Nat) (h : s.ok) : (s.withRwt m).ok := h

/-- The pending value that a write of a word leaves (R39). -/
def heldValue (s : State) (a v : Nat) (r : RegRow) : Nat := r.flds.foldl (fun old f => f.putT old v) (s.pendWord a)

/-- A word of RWT fields has one. -/
theorem any_rwt {l : List Fld} (hall : ∀ f ∈ l, f.acc = .rwt) (hne : l ≠ []) : (l.any fun f => decide (f.acc = .rwt)) = true := by
  obtain ⟨f, hf⟩ := List.exists_mem_of_ne_nil l hne
  exact List.any_eq_true.mpr ⟨f, hf, by simp [hall f hf]⟩

/-- No lock stops a write of RWT fields (R38). -/
theorem lockStops_rwt {s : State} {a n off : Nat} {b : Blk} {r : RegRow} (hr : regRow a = some (b, n, off, r))
    (hall : ∀ f ∈ r.flds, f.acc = .rwt) : lockStops s a = false := by
  simp only [lockStops, hr, Bool.and_eq_false_iff, List.any_eq_false]
  exact .inr fun f hf => by simp [hall f hf]

/-- A write changes nothing of RWT fields at once (R39). -/
theorem foldl_put_rwt (locked : Bool) (v : Nat) (l : List Fld) (x : Nat) (hall : ∀ f ∈ l, f.acc = .rwt) :
    l.foldl (fun old f => f.put locked old v) x = x := by
  induction l generalizing x with
  | nil => rfl
  | cons f l ih =>
    have hf : f.put locked x v = x := by simp [Fld.put, hall f List.mem_cons_self]
    rw [List.foldl_cons, hf, ih x fun g hg => hall g (List.mem_cons_of_mem _ hg)]

/-- A word's write of RWT fields holds the value, and no stored word changes (R39). -/
theorem wordWrite_rwt {s : State} {a n off : Nat} {b : Blk} {r : RegRow} (v : Nat) (hr : regRow a = some (b, n, off, r))
    (hall : ∀ f ∈ r.flds, f.acc = .rwt) (hne : r.flds ≠ []) :
    wordWrite s a v = (s.setRg a (s.rg a)).withRwt (SMap.set s.rwt 0 a (heldValue s a v r + 1)) := by
  simp [wordWrite, hr, lockStops_rwt hr hall, any_rwt hall hne, foldl_put_rwt _ v _ _ hall, heldValue, State.withRwt]

/-- A pending value that comes into force leaves the pending values and stands in the word's RWT fields (R40). -/
theorem rwtPlain_held {s : State} {a n off p : Nat} {b : Blk} {r : RegRow} (hr : regRow a = some (b, n, off, r))
    (hp : SMap.get s.rwt 0 a = p + 1) :
    rwtPlain s a = (s.withRwt (SMap.set s.rwt 0 a 0)).setRg a (r.flds.foldl (fun old (f : Fld) => f.putT old p) (s.rg a)) := by
  simp [rwtPlain, hr, hp, State.withRwt]

/-- Before the counter runs, a word whose change moves nothing else comes into force alone (R41). -/
theorem rwtNow_plain {s : State} {b : Blk} {n off a : Nat} (hact : rwtAction a = none) (hoff : off ≠ 0x010) (hprt : b ≠ .prt)
    (hrdl : b ≠ .rdl) (hslu : b ≠ .slu) : rwtNow s b n off a = rwtPlain s a := by
  simp only [rwtNow, hact, if_neg hoff]

/-- Before the counter runs, a write of a word of RWT fields is held and comes into force at once (R41). -/
theorem oneWrite_rwt_now {s : State} {a v n off : Nat} {b : Blk} {r : RegRow} (hv : v < 2 ^ 32) (hrises : SMap.rises s.rwt 0 = true)
    (hrun : s.time.running = false) (hr : regRow a = some (b, n, off, r))
    (hhead : headEffect s b n off v = none) (hsys : sysEffect s b off v = none) (hcore : coreEffect s b n off v = none)
    (hedge : edgeEffect s b n off v = none) (hall : ∀ f ∈ r.flds, f.acc = .rwt) (hne : r.flds ≠ []) :
    oneWrite s a v = rwtNow (wordWrite s a v) b n off a := by
  have hheld : SMap.get (wordWrite s a v).rwt 0 a = heldValue s a v r + 1 := by
    rw [wordWrite_rwt v hr hall hne]
    exact SMap.get_set_same s.rwt 0 a _ 0 hrises
  simp only [oneWrite, Nat.mod_eq_of_lt hv, hr, hhead, hsys, hcore, hedge, any_rwt hall hne]
  simp [hrun, hheld]

/-- A write of plain RWT fields that is held and comes into force at once: nothing is left pending, and the fields hold what was held (R41). -/
theorem rwtPlain_wordWrite {s : State} {a n off : Nat} {b : Blk} {r : RegRow} (v : Nat) (hrises : SMap.rises s.rwt 0 = true)
    (hr : regRow a = some (b, n, off, r)) (hall : ∀ f ∈ r.flds, f.acc = .rwt) (hne : r.flds ≠ []) :
    rwtPlain (wordWrite s a v) a =
      ((s.setRg a (s.rg a)).withRwt (SMap.set (SMap.set s.rwt 0 a (heldValue s a v r + 1)) 0 a 0)).setRg a
        (r.flds.foldl (fun old (f : Fld) => f.putT old (heldValue s a v r)) ((s.setRg a (s.rg a)).rg a)) := by
  rw [wordWrite_rwt v hr hall hne]
  exact rwtPlain_held hr (SMap.get_set_same s.rwt 0 a _ 0 hrises)

/-- Settles O6: while the counter runs the write is held; before, what it holds comes into force at once. -/
theorem heldStoreWaitsForBoundary : Obligations.HeldStoreWaitsForBoundary := by
  intro core addr v n off b r s hok hrises hc hst h4 hd hr hlo hhi hhead hsys hcore hedge hall hne
  have hv : v % 2 ^ 32 < 2 ^ 32 := Nat.mod_lt _ (by decide)
  have hstore : execRegisterWrite core addr v 32 s = .next (oneWrite s addr (v % 2 ^ 32)) := by
    rw [execRegisterWrite_reg v hc hst h4 hd hr, writeReg_one s addr v _ hr hhi hlo]
  refine ⟨fun hrun => ?_, fun hrun hact hoff hprt hrdl hslu hnone => ⟨_, hstore, ?_⟩⟩
  · have hone : oneWrite s addr (v % 2 ^ 32) = writeReg s addr (v % 2 ^ 32) := by
      rw [writeReg_one s addr _ _ hr hhi hlo, Nat.mod_mod]
    obtain ⟨⟨hregs, hframe⟩, hpend⟩ :=
      writeReg_rwt s addr _ b n off r hok hrises hrun hv hr hhi hlo hhead hsys hcore hedge hall hne
    exact ⟨_, hstore.trans (congrArg _ hone), hregs, hpend, hframe⟩
  · have hok1 : (s.setRg addr (s.rg addr)).ok := State.ok_setRg s addr _ hok
    have hpend : s.pendWord addr = s.rg addr := by simp [State.pendWord, hnone]
    rw [oneWrite_rwt_now hv hrises hrun hr hhead hsys hcore hedge hall hne, rwtNow_plain hact hoff hprt hrdl hslu,
      rwtPlain_wordWrite _ hrises hr hall hne, heldValue, hpend]
    refine ⟨fun a ha => ?_, rfl, ?_, ?_⟩
    · rw [State.rg_setRg _ _ _ _ (State.ok_withRwt _ hok1), if_neg ha, State.withRwt_rg, State.rg_setRg _ _ _ _ hok, if_neg ha]
    · exact SMap.get_set_same _ 0 addr 0 0 (SMap.rises_set s.rwt 0 addr _ 0 (Nat.zero_le _) hrises)
    · rw [State.rg_setRg _ _ _ _ (State.ok_withRwt _ hok1), if_pos rfl, State.rg_setRg _ _ _ _ hok, if_pos rfl]

/-! ### Commands that wait for the boundary (R133, R136, R137) -/

section
variable {s : State} (hok : s.ok) (hrises : SMap.rises s.rwt 0 = true) (hrun : s.time.running = true)
include hok hrises hrun

/-- While the counter runs, a write of a word of RWT fields in CTX or FRM, its header apart, is held: these blocks attach no effect to a
write. -/
theorem writeReg_maintenance_held {a v off : Nat} {b : Blk} {r : RegRow} (hb : b = .ctx ∨ b = .frm) (hv : v < 2 ^ 32)
    (hr : regRow a = some (b, 0, off, r)) (hoff : 0x040 ≤ off) (hhi : isWideHi a = false) (hlo : isWideLo a = false)
    (hall : ∀ f ∈ r.flds, f.acc = .rwt) (hne : r.flds ≠ []) :
    HeldIn s (writeReg s a v) ∧ (writeReg s a v).pendWord a = r.flds.foldl (fun old f => f.putT old v) (s.pendWord a) := by
  have hhead : headEffect s b 0 off v = none := by
    have h : off ≠ 0x020 ∧ off ≠ 0x018 ∧ off ≠ 0x030 := by omega
    simp [headEffect, h]
  rcases hb with rfl | rfl
  all_goals exact writeReg_rwt s a v _ 0 off r hok hrises hrun hv hr hhi hlo hhead rfl rfl rfl hall hne

/-- A write of CTX_FORCE is held, with its slot, generation and op (R133). -/
theorem ctxForce_held {slot gen op v : Nat} (hslot : slot < 2 ^ 18) (hgen : gen < 256) (hop : op < 4)
    (hv : v = slot % 2 ^ 18 + gen % 256 * 2 ^ 18 + op * 2 ^ 26) :
    HeldIn s (writeReg s Reg.CTX_FORCE v) ∧ bitsOf ((writeReg s Reg.CTX_FORCE v).pendWord Reg.CTX_FORCE) 17 0 = slot
      ∧ bitsOf ((writeReg s Reg.CTX_FORCE v).pendWord Reg.CTX_FORCE) 25 18 = gen
      ∧ bitsOf ((writeReg s Reg.CTX_FORCE v).pendWord Reg.CTX_FORCE) 27 26 = op := by
  obtain ⟨r, hr, hf⟩ : ∃ r : RegRow, regRow Reg.CTX_FORCE = some (.ctx, 0, 0x060, r) ∧
    r.flds = [⟨17, 0, .rwt, 0⟩, ⟨25, 18, .rwt, 0⟩, ⟨27, 26, .rwt, 0⟩] := ⟨_, rfl, rfl⟩
  obtain ⟨hheld, hpend⟩ := writeReg_maintenance_held hok hrises hrun (v := v) (.inl rfl) (by omega) hr (by decide) (by decide)
    (by decide) (by simp [hf]) (by simp [hf])
  obtain ⟨h1, h2, h3⟩ := forceWord_kept (s.pendWord Reg.CTX_FORCE) v
  refine ⟨hheld, ?_⟩
  rw [hpend, hf, h1, h2, h3]
  simp only [bitsOf]
  omega

/-- A write of FRM_GRANT is held, with its partition, tier, direction and count (R136). -/
theorem frmGrant_held {part tier dir count v : Nat} (hpart : part < 64) (htier : tier < 2) (hdir : dir < 2) (hcount : count < 2 ^ 24)
    (hv : v = part % 64 + tier % 2 * 64 + dir * 128 + count % 2 ^ 24 * 256) :
    HeldIn s (writeReg s Reg.FRM_GRANT v) ∧ bitsOf ((writeReg s Reg.FRM_GRANT v).pendWord Reg.FRM_GRANT) 5 0 = part
      ∧ bitsOf ((writeReg s Reg.FRM_GRANT v).pendWord Reg.FRM_GRANT) 6 6 = tier
      ∧ bitsOf ((writeReg s Reg.FRM_GRANT v).pendWord Reg.FRM_GRANT) 7 7 = dir
      ∧ bitsOf ((writeReg s Reg.FRM_GRANT v).pendWord Reg.FRM_GRANT) 31 8 = count := by
  obtain ⟨r, hr, hf⟩ : ∃ r : RegRow, regRow Reg.FRM_GRANT = some (.frm, 0, 0x048, r) ∧
    r.flds = [⟨5, 0, .rwt, 0⟩, ⟨6, 6, .rwt, 0⟩, ⟨7, 7, .rwt, 0⟩, ⟨31, 8, .rwt, 0⟩] := ⟨_, rfl, rfl⟩
  obtain ⟨hheld, hpend⟩ := writeReg_maintenance_held hok hrises hrun (v := v) (.inr rfl) (by omega) hr (by decide) (by decide)
    (by decide) (by simp [hf]) (by simp [hf])
  obtain ⟨h1, h2, h3, h4⟩ := grantWord_kept (s.pendWord Reg.FRM_GRANT) v
  refine ⟨hheld, ?_⟩
  rw [hpend, hf, h1, h2, h3, h4]
  simp only [bitsOf]
  omega

/-- A write of FRM_DEVRES with go set is held, with its frame and release (R137). -/
theorem frmDevres_held {frame release v : Nat} (hframe : frame < 2 ^ 25) (hrel : release < 2)
    (hv : v = frame % 2 ^ 25 + release * 2 ^ 30 + 2 ^ 31) :
    HeldIn s (writeReg s Reg.FRM_DEVRES v) ∧ bitsOf ((writeReg s Reg.FRM_DEVRES v).pendWord Reg.FRM_DEVRES) 24 0 = frame
      ∧ bitsOf ((writeReg s Reg.FRM_DEVRES v).pendWord Reg.FRM_DEVRES) 30 30 = release
      ∧ bitsOf ((writeReg s Reg.FRM_DEVRES v).pendWord Reg.FRM_DEVRES) 31 31 = 1 := by
  obtain ⟨r, hr, hf⟩ : ∃ r : RegRow, regRow Reg.FRM_DEVRES = some (.frm, 0, 0x05C, r) ∧
    r.flds = [⟨24, 0, .rwt, 0⟩, ⟨30, 30, .rwt, 0⟩, ⟨31, 31, .rwt, 0⟩] := ⟨_, rfl, rfl⟩
  obtain ⟨hheld, hpend⟩ := writeReg_maintenance_held hok hrises hrun (v := v) (.inr rfl) (by omega) hr (by decide) (by decide)
    (by decide) (by simp [hf]) (by simp [hf])
  obtain ⟨h1, h2, h3⟩ := devresWord_kept (s.pendWord Reg.FRM_DEVRES) v
  refine ⟨hheld, ?_⟩
  rw [hpend, hf, h1, h2, h3]
  simp only [bitsOf]
  omega

end

/-- Settles O27: each command is a write of its register, which is held. -/
theorem maintenanceCommandsWaitForTheBoundary : Obligations.MaintenanceCommandsWaitForTheBoundary := by
  intro s hok hrises hrun
  refine ⟨fun slot gen hslot hgen c hc => ?_, fun part tier count hpart htier hcount c hc => ?_, fun frame hframe c hc => ?_⟩
  · simp only [List.mem_cons, List.not_mem_nil, or_false] at hc
    rcases hc with rfl | rfl | rfl
    all_goals exact ⟨_, rfl, ctxForce_held hok hrises hrun hslot hgen (by omega) (by omega)⟩
  · simp only [List.mem_cons, List.not_mem_nil, or_false] at hc
    rcases hc with rfl | rfl
    all_goals exact ⟨_, rfl, frmGrant_held hok hrises hrun hpart htier (by omega) hcount (by omega)⟩
  · simp only [List.mem_cons, List.not_mem_nil, or_false] at hc
    rcases hc with rfl | rfl
    all_goals exact ⟨_, rfl, frmDevres_held hok hrises hrun hframe (by omega) (by omega)⟩

end Sys2Proof.Machine
end

section
/-!
SUPPORT. The proofs of the statements of spec/02_control_space.md about the data port (R43 to R45): an access that is refused, done at
once, or held for its fen channel.
-/

namespace Sys2Proof.Machine

/-! ### Core `c` reads or writes DPW_DATA -/

/-- DPW_DATA_ACCESS of a core that does not wait is its access at its own address. -/
theorem execDpwDataAccess_free {s : State} {core v : Nat} (w bad : Bool) (hc : core < 4) (hv : v < 2 ^ 32)
    (hst : coreStalled s core = false) : execDpwDataAccess core w v bad s = .next (dpwData s core v w bad) := by
  simp only [execDpwDataAccess, Nat.mod_eq_of_lt hc, Nat.mod_eq_of_lt hv, hst]
  simp

/-- An address that the port refuses records MALFORMED, and a read returns zero (R44). -/
theorem dpwData_refused {s : State} {c : Nat} (v : Nat) {w : Bool} (bad : Bool) (h : memRefused s (dpwAddr s c) w = true) :
    dpwData s c v w bad =
      if w then s.setRg (Reg.DPW_STAT c) stMALFORMED else (s.setRg (Reg.DPW_STAT c) stMALFORMED).answer c 0 := by
  simp [dpwData, h, dpwFail]

/-- An access outside fen takes place at once (R44). -/
theorem dpwData_now {s : State} {c : Nat} (v : Nat) {w : Bool} (bad : Bool) (h : memRefused s (dpwAddr s c) w = false)
    (hf : inFen (dpwAddr s c) = false) : dpwData s c v w bad = dpwPerform s c (dpwAddr s c) v w bad := by
  simp [dpwData, h, hf]

/-- An access to fen is held (R45). -/
theorem dpwData_fen {s : State} {c : Nat} (v : Nat) {w : Bool} (bad : Bool) (h : memRefused s (dpwAddr s c) w = false)
    (hf : inFen (dpwAddr s c) = true) : dpwData s c v w bad = dpwHold s c w (dpwAddr s c) v := by
  simp [dpwData, h, hf]

/-! ### A word moves at once (R43, R44) -/

/-- A word that reads well is answered as it stands once the address has advanced (R44). -/
theorem dpwPerform_read (s : State) (c a v : Nat) :
    dpwPerform s c a v false false =
      (s.setRg64 (Reg.DPW_ADDR_LO c) ((a + 4) % 2 ^ 64)).answer c ((s.setRg64 (Reg.DPW_ADDR_LO c) ((a + 4) % 2 ^ 64)).readLE a 4) := by
  simp [dpwPerform, memRead]

/-- A write takes place once the address has advanced (R44). -/
theorem dpwPerform_write (s : State) (c a v : Nat) (bad : Bool) :
    dpwPerform s c a v true bad = memWrite (s.setRg64 (Reg.DPW_ADDR_LO c) ((a + 4) % 2 ^ 64)) a v := by
  simp [dpwPerform]

/-- A plain range lies outside fen. -/
theorem inFen_plain {a n : Nat} (h : plainAt a n) (hn : 0 < n) : inFen a = false := by
  rw [Bool.eq_false_iff]
  intro hf
  have hbase : fenBase ≤ a := by
    simp only [inFen, Bool.and_eq_true, decide_eq_true_eq] at hf
    exact hf.1
  simp only [plainAt, fenBase, peatBase, ctxTableBase, crownBase, crownEnd] at *
  omega

/-- A write outside the fabric's peer table heals no path (R442). -/
theorem pathWritten_outside {s : State} {a : Nat} (old : Nat) (h : a < s.rg64 Reg.FAB_PEER_LO ∨ s.rg64 Reg.FAB_PEER_LO + 8388608 ≤ a) :
    pathWritten s a old = s := by
  rw [pathWritten, if_neg (by omega)]

/-- The peer table's base is none of the data port's registers. -/
theorem setDpwAddr_peer {s : State} (c x : Nat) (hok : s.ok) :
    (s.setRg64 (Reg.DPW_ADDR_LO c) x).rg64 Reg.FAB_PEER_LO = s.rg64 Reg.FAB_PEER_LO := by
  have hne (k : Nat) (hk : k < 0x200040) : (s.setRg64 (Reg.DPW_ADDR_LO c) x).rg k = s.rg k := by
    apply setRg64_rg_ne _ _ _ _ hok
    all_goals simp only [Reg.DPW_ADDR_LO]; omega
  simp only [State.rg64, hne _ (show Reg.FAB_PEER_LO < 0x200040 by decide), hne _ (show Reg.FAB_PEER_LO + 4 < 0x200040 by decide)]

/-- A write to a plain range outside the peer table stores the bytes of the value, and changes nothing else (R44). -/
theorem memWrite_plain {s : State} {a v : Nat} (hok : s.ok) (hv : v < 2 ^ 32) (hp : plainAt a 4)
    (hpeer : a < s.rg64 Reg.FAB_PEER_LO ∨ s.rg64 Reg.FAB_PEER_LO + 8388608 ≤ a) :
    StoredAt s (memWrite s a v) a (toLE 4 v) ∧ { memWrite s a v with mem := s.mem } = s := by
  have hregs : (s.writeLE a 4 v).rg64 Reg.FAB_PEER_LO = s.rg64 Reg.FAB_PEER_LO := by
    simp [State.rg64, State.rg, State.writeLE]
  have hw : memWrite s a v = s.writeBytes a (toLE 4 v) := by
    rw [memWrite, Nat.mod_eq_of_lt hv, pathWritten_outside _ (by rw [hregs]; exact hpeer), State.writeLE]
  obtain ⟨hstored, hframe, -⟩ := State.writeBytes_plain (toLE 4 v) s a hok (by simpa [toLE] using hp)
  rw [hw]
  exact ⟨hstored, hframe⟩

/-- What is stored depends on the memory before alone. -/
theorem StoredAt.of_mem {s s1 t : State} {a : Nat} {bs : List Nat} (hmem : s1.mem = s.mem) (h : StoredAt s1 t a bs) : StoredAt s t a bs := by
  intro x
  rw [h x, State.cell, State.cell, hmem]

/-- Settles O12, by what becomes of a core's access: refused, read or written at once. -/
theorem dataPortMovesOneWord : Obligations.DataPortMovesOneWord := by
  intro core v a s hok hc hv hst ha
  subst ha
  have access (w : Bool) : execDpwDataAccess core w v false s = .next (dpwData s core v w false) :=
    execDpwDataAccess_free w false hc hv hst
  refine ⟨fun href hfen => ?_, fun href hplain hpeer => ⟨_, access true, ?_⟩, fun w href => ?_⟩
  · exact (access false).trans (by rw [dpwData_now v false href hfen, dpwPerform_read])
  · have hok1 : (s.setRg64 (Reg.DPW_ADDR_LO core) ((dpwAddr s core + 4) % 2 ^ 64)).ok :=
      State.ok_setRg _ _ _ (State.ok_setRg _ _ _ hok)
    rw [dpwData_now v false href (inFen_plain hplain (by decide)), dpwPerform_write]
    have hmem : (s.setRg64 (Reg.DPW_ADDR_LO core) ((dpwAddr s core + 4) % 2 ^ 64)).mem = s.mem := rfl
    obtain ⟨hstored, hframe⟩ := memWrite_plain hok1 hv hplain (by rw [setDpwAddr_peer core _ hok]; exact hpeer)
    exact ⟨hstored.of_mem hmem, hmem ▸ hframe⟩
  · exact (access w).trans (by rw [dpwData_refused v false href])

/-! ### A word waits for its channel (R45, R237) -/

/-- A request at a channel adds to no list of held accesses. -/
theorem fenRequest_dpw (s : State) (n p q src bytes : Nat) : (fenRequest s n p q src bytes).dpw = s.dpw := by
  simp only [fenRequest]
  split <;> rfl

/-- An access to fen asks its channel where the crown queue has room, and is held (R45). -/
theorem dpwHold_asks {s : State} {a : Nat} (who : Nat) (w : Bool) (v : Nat) (h : crownFull s (addrStack a) (addrPc a) = false) :
    dpwHold s who w a v =
      { fenRequest s (addrStack a) (addrPc a) (b2n w) (128 + who) 4 with dpw := s.dpw ++ [⟨who, w, a, v, true⟩] } := by
  simp [dpwHold, h, fenRequest_dpw]

/-- While the channel's crown queue is full an access is held and asks nothing (R237). -/
theorem dpwHold_full {s : State} {a : Nat} (who : Nat) (w : Bool) (v : Nat) (h : crownFull s (addrStack a) (addrPc a) = true) :
    dpwHold s who w a v = { s with dpw := s.dpw ++ [⟨who, w, a, v, false⟩] } := by
  simp [dpwHold, h]

/-- A core's held access that its channel has served leaves the list and takes place or fails (R45). -/
theorem execDpwHeldComplete_served {s : State} {core : Nat} {h : DpwHeld} (bad : Bool) (hc : core < 4)
    (hfind : s.dpw.find? (·.core == core) = some h) (hasked : h.asked = true)
    (hserved : fenPending s (addrStack h.addr) (addrPc h.addr) (128 + core) = false) :
    execDpwHeldComplete core bad s = .next (dpwServed { s with dpw := s.dpw.filter (·.core != core) } h bad) := by
  have h6 : core % 6 = core := Nat.mod_eq_of_lt (by omega)
  simp [execDpwHeldComplete, h6, hfind, hasked, hserved, show core ≠ 4 by omega, show core ≠ 5 by omega]

/-- A held access that has not asked, or that its channel still has to serve, stays (R45). -/
theorem execDpwHeldComplete_waits {s : State} {core : Nat} {h : DpwHeld} (bad : Bool) (hc : core < 4)
    (hfind : s.dpw.find? (·.core == core) = some h)
    (hwait : h.asked = false ∨ fenPending s (addrStack h.addr) (addrPc h.addr) (128 + core) = true) :
    execDpwHeldComplete core bad s = .next s := by
  have h6 : core % 6 = core := Nat.mod_eq_of_lt (by omega)
  have hw : (!h.asked || fenPending s (addrStack h.addr) (addrPc h.addr) (128 + core)) = true := by
    rcases hwait with hw | hw <;> simp [hw]
  simp only [execDpwHeldComplete, h6, hfind, hw, if_true]

/-- A held access that the port does not refuse takes place at its own address (R45). -/
theorem dpwServed_performs {s : State} {h : DpwHeld} (bad : Bool) (href : memRefused s h.addr h.write = false) :
    dpwServed s h bad = dpwPerform s h.core h.addr h.value h.write bad := by
  simp [dpwServed, href]

/-- A held write that the port refuses by then records MALFORMED (R44). -/
theorem dpwServed_refused {s : State} {h : DpwHeld} (bad : Bool) (href : memRefused s h.addr h.write = true) (hw : h.write = true) :
    dpwServed s h bad = s.setRg (Reg.DPW_STAT h.core) stMALFORMED := by
  simp [dpwServed, hw ▸ href, hw, dpwFail]

/-- Settles O13: the access is held when it comes, and what is held goes on only when its channel has served it. -/
theorem heldAccessCompletesInTheMemWindow : Obligations.HeldAccessCompletesInTheMemWindow := by
  intro core v a w bad s hc hv
  refine ⟨fun hst ha href hfen => ?_, fun h u hfind hu => ⟨fun hasked hserved => ?_, fun hwait => ?_⟩⟩
  · subst ha
    have access : execDpwDataAccess core w v bad s = .next (dpwHold s core w (dpwAddr s core) v) := by
      rw [execDpwDataAccess_free w bad hc hv hst, dpwData_fen v bad href hfen]
    exact ⟨fun hroom => access.trans (by rw [dpwHold_asks core w v hroom]), fun hfull => access.trans (by rw [dpwHold_full core w v hfull])⟩
  · have hcore : h.core = core := by simpa using List.find?_some hfind
    have served : execDpwHeldComplete core bad s = .next (dpwServed u h bad) :=
      hu ▸ execDpwHeldComplete_served bad hc hfind hasked hserved
    refine ⟨fun href => served.trans ?_, fun href hw => served.trans ?_⟩
    · rw [dpwServed_performs bad href, hcore]
    · rw [dpwServed_refused bad href hw, hcore]
  · exact execDpwHeldComplete_waits bad hc hfind hwait

end Sys2Proof.Machine
end

section
/-!
SUPPORT. The proof of the statement of spec/02_control_space.md about secured management requests (R47): new, repeated and dropped ones.
-/

namespace Sys2Proof.Machine

/-- A frame whose tag does not verify is dropped and counted (R46). -/
theorem mgtTake_badTag {s : State} {h : MgtHead} (hon : mgtOn s h.port = true) (htag : h.tagOk = false) :
    mgtTake s h = .drop (mgtDrop s h) := by
  simp [mgtTake, hon, htag]

section
variable {s : State} {h : MgtHead} {x : Sess} (hon : mgtOn s h.port = true) (hver : h.version = 1) (hsess : h.session ≠ 0)
  (hfind : s.mgt.sessions.find? (fun y => y.id == h.session && y.level.isSome) = some x) (htag : h.tagOk = true)
include hon hver hsess hfind htag

/-- A request with a new seq runs at the session's level, with its seq recorded and no response stored (R47). -/
theorem mgtTake_new (hseq : x.seq ≤ h.seq) :
    mgtTake s h = .run (setSess s { x with heard := s.time.up, seq := h.seq + 1, resp := none }) x.level := by
  simp [mgtTake, hon, hver, hsess, hfind, htag, hseq]

/-- A request with the seq last accepted is answered with the stored response (R47). -/
theorem mgtTake_repeat (hseq : x.seq = h.seq + 1) : mgtTake s h = .drop (resend (setSess s { x with heard := s.time.up }) x.resp) := by
  simp [mgtTake, hon, hver, hsess, hfind, htag, hseq]

/-- A request with an older seq is dropped and counted (R47). -/
theorem mgtTake_old (hseq : h.seq + 1 < x.seq) : mgtTake s h = .drop (mgtDrop (setSess s { x with heard := s.time.up }) h) := by
  simp [mgtTake, hon, hver, hsess, hfind, htag, show ¬ x.seq ≤ h.seq by omega, show x.seq ≠ h.seq + 1 by omega]

end

/-- A register or burst frame that is not run leaves what its taking left (R47). -/
theorem mgtFrame_drop {s t : State} {h : MgtHead} (body : List Nat) (len : Nat) (legal : Bool) (act : State → Nat → State)
    (hd : mgtTake s h = .drop t) : mgtFrame s h body len legal act = t := by
  simp only [mgtFrame, hd]

/-- The four register and burst frames, when they are not run. -/
theorem exec_frame_drop {s t : State} {h : MgtHead} {body rest : List Nat} {bad : Option Nat} {c : Instr}
    (hc : c ∈ [Instr.regRead h body, .regWrite h body, .burstRead h body rest bad, .burstWrite h body rest])
    (hd : mgtTake s h = .drop t) : exec c s = .next t := by
  simp only [List.mem_cons, List.not_mem_nil, or_false] at hc
  rcases hc with rfl | rfl | rfl | rfl
  all_goals exact congrArg Host.Outcome.next (mgtFrame_drop _ _ _ _ hd)

/-- Settles O14, by what the taking of a request on a completed session answers. -/
theorem managementRequestsInSequenceRunOnce : Obligations.ManagementRequestsInSequenceRunOnce := by
  intro h x l s hon hver hsess hfind hlevel
  refine ⟨fun htag hseq => ?_, fun body rest bad c hc => ⟨fun htag hseq => ?_, fun htag hseq => ?_, fun htag => ?_⟩⟩
  · rw [mgtTake_new hon hver hsess hfind htag hseq, hlevel]
  · exact exec_frame_drop hc (mgtTake_repeat hon hver hsess hfind htag hseq)
  · exact exec_frame_drop hc (mgtTake_old hon hver hsess hfind htag hseq)
  · exact exec_frame_drop hc (mgtTake_badTag hon htag)

end Sys2Proof.Machine
end

section
/-!
SUPPORT. The proofs of the statements of spec/03_ticks_and_admission.md: the tick length (R60, R61), the seal distance and the seal point
(R66, R68), booked items (R67, R205, R212), the boundary (R59, R533), and the removal of requests whose carry has closed (R75).
-/

namespace Sys2Proof.Machine

/-! ### The tick length (R60, R61) -/

/-- A length that R60 allows, in units of 5 ns: from 25,000 to 10,000,000 ns, dividing a second. -/
def LegalTickLen (v : Nat) : Prop := 25000 ≤ 5 * v ∧ 5 * v ≤ 10000000 ∧ 1000000000 % (5 * v) = 0

/-- A write of TPL_TICK_LEN is the write of the tick length, which the word's fields leave to it. -/
theorem writeReg_tickLen (s : State) {w : Nat} (hw : w < 2 ^ 32) : writeReg s Reg.TPL_TICK_LEN w = tickLenWrite s w := by
  obtain ⟨r, hr, hrwt⟩ : ∃ r, regRow Reg.TPL_TICK_LEN = some (.tpl, 0, 0x040, r) ∧ (r.flds.any fun f => decide (f.acc = .rwt)) = false :=
    ⟨_, rfl, by decide⟩
  rw [writeReg_one s _ w _ hr (by decide) (by decide), Nat.mod_eq_of_lt hw]
  simp only [oneWrite, hr, hrwt, Nat.mod_eq_of_lt hw]
  simp [headEffect, sysEffect, coreEffect]

theorem exec_tplTickLenWrite (s : State) {w : Nat} (hw : w < 2 ^ 32) : exec (.tplTickLenWrite w) s = .next (tickLenWrite s w) :=
  congrArg Host.Outcome.next (writeReg_tickLen s hw)

/-- A legal length is taken while the TPL is disabled: at once before the counter runs, and else left waiting (R61). -/
theorem tickLenWrite_legal {s : State} {w : Nat} (hlock : s.locked .tpl 0 = false) (hen : s.en .tpl 0 = false)
    (hlegal : LegalTickLen (w % 2 ^ 21)) :
    tickLenWrite s w = if s.time.running
      then { s.setRg Reg.TPL_TICK_LEN (w % 2 ^ 21) with time := { s.time with lenNext := some (w % 2 ^ 21) } }
      else { s.setRg Reg.TPL_TICK_LEN (w % 2 ^ 21) with time := { s.time with len5 := w % 2 ^ 21, lenNext := none } } := by
  obtain ⟨hmin, hmax, hdiv⟩ := hlegal
  simp only [tickLenWrite, hlock, hen, hmin, hmax, hdiv]
  simp

/-- While the TPL is enabled, and for a length that is not legal, the write posts len_refused alone (R61). -/
theorem tickLenWrite_refused {s : State} {w : Nat} (hlock : s.locked .tpl 0 = false)
    (h : s.en .tpl 0 = true ∨ ¬ LegalTickLen (w % 2 ^ 21)) : tickLenWrite s w = event0 s .tpl 0 4 := by
  simp only [tickLenWrite, hlock]
  refine (if_neg (by decide)).trans (if_pos ?_)
  simp only [Bool.or_eq_true, Bool.not_eq_true', ← Bool.decide_and, decide_eq_false_iff_not, and_assoc]
  exact h

/-- A length that divides a second divides every whole second (R60). -/
theorem seconds_mod_of_second {d : Nat} (h : 1000000000 % d = 0) (sec : Nat) : sec * 1000000000 % d = 0 :=
  Nat.mod_eq_zero_of_dvd (Nat.dvd_mul_left_of_dvd (Nat.dvd_of_mod_eq_zero h) sec)

/-- Settles O22: the command is the write of the tick length, and a legal length is a multiple of 5 ns that divides a second. -/
theorem tickLengthIsWrittenOnlyWhileDisabled : Obligations.TickLengthIsWrittenOnlyWhileDisabled := by
  rintro w v s hw rfl hlock
  refine ⟨fun hen hmin hmax hdiv => ?_, fun h => ?_, ?_, seconds_mod_of_second⟩
  · rw [exec_tplTickLenWrite s hw, tickLenWrite_legal hlock hen ⟨hmin, hmax, hdiv⟩]
  · rw [exec_tplTickLenWrite s hw, tickLenWrite_refused hlock (h.imp_right fun hbad hlegal => ?_)]
    obtain ⟨hmin, hmax, hdiv⟩ := hlegal
    omega
  · simp only [State.lcc]
    omega

/-! ### The seal distance and the seal point (R66, R68) -/

/-- Settles O26: a tick is a multiple of 8 cc, so that rounding up to even stays within the limits. -/
theorem sealDistanceIsEvenAndInRange : Obligations.SealDistanceIsEvenAndInRange := by
  rintro s v rfl hl
  have heven : (s.lcc - 4096) % 2 = 0 := by simp only [State.lcc]; omega
  simp only [State.sealS]
  refine ⟨?_, ?_, ?_, ?_, ?_, ?_, ?_⟩ <;> omega

/-- A tick is sealed once (R68). -/
@[simp] theorem sealPoint_sealed {s : State} (h : s.tpl.sealed = true) : sealPoint s = s := by simp [sealPoint, h]

/-- A plan is completed once (R91). -/
@[simp] theorem planEnd_planned {s : State} (h : s.tpl.planned = true) : planEnd s = s := by simp [planEnd, h]

/-- The plan with the tick sealed: no item, no admitted request and no completion is left (R68, R121, R131). -/
def TplBlock.closed (p : TplBlock) : TplBlock := { p with sealed := true, order := [], items := [], sealing := [] }

/-- The seal point closes the plan before a waiting snapshot takes its frames; a complete plan with nothing admitted and no completion
waiting has only its time to pass (R68). -/
theorem sealPoint_open {s : State} (h : s.tpl.sealed = false) :
    ∃ u, sealPoint s = snapSeal { u with tpl := u.tpl.closed }
      ∧ (s.tpl.planned = true → s.tpl.order = [] → s.tpl.sealing = [] → u = s.ccTo s.sealCC) := by
  refine ⟨_, by rw [sealPoint, h]; rfl, fun hplan horder hsealing => ?_⟩
  simp [hplan, horder, hsealing]

theorem exec_sealPoint_running {s : State} (h : s.time.running = true) : exec .sealPoint s = .next (sealPoint s) :=
  congrArg Host.Outcome.next (if_pos h)

/-- A queued request whose carry has closed is dismissed with LATE (R75). -/
theorem carryRemove_closed {s : State} {slot : Nat} (hst : (s.reqAt slot).st = .queued)
    (hlate : (s.reqAt slot).target + s.fld Reg.TPL_MAX_CARRY 7 0 < s.time.tick) : carryRemove s slot = dismiss s slot stLATE :=
  if_pos ⟨hst, hlate⟩

/-- Settles O25, by what the seal point of an open tick and of a sealed one leaves. -/
theorem sealPointEndsTheTicksWork : Obligations.SealPointEndsTheTicksWork := by
  refine ⟨fun s hrun => ⟨fun hsealed => ?_, fun hopen => ?_⟩, fun s slot hrun hqueued hst hlate => ?_⟩
  · rw [exec_sealPoint_running hrun, sealPoint_sealed hsealed]
  · obtain ⟨u, hseal, hempty⟩ := sealPoint_open hopen
    refine ⟨_, (exec_sealPoint_running hrun).trans (congrArg _ hseal), rfl, rfl, rfl, rfl, fun hplan horder hsealing => ?_⟩
    rw [hempty hplan horder hsealing]
    simp [TplBlock.closed, horder, hsealing]
  · have hexec : exec (.carryRemoval slot) s = .next (carryRemove s slot) :=
      congrArg Host.Outcome.next (if_pos (by simp only [hrun, hqueued, Bool.and_self]))
    rw [hexec, carryRemove_closed hst hlate]

/-! ### Booked items (R67, R205, R212) -/

/-- The share tally of a tick, where none is built yet (R205). -/
theorem tallyFor_untallied {s : State} (n : Nat) (h : s.tpl.tallied = false) :
    tallyFor s n = { s with tpl := { s.tpl with tally := (tallyBuild s n).1, tallyOver := (tallyBuild s n).2, tallied := true } } := by
  simp [tallyFor, h]

/-- Setting item `i` to a state changes that item's state and no other item. -/
theorem setItem_getElem? (s : State) (i : Nat) (st : ISt) (j : Nat) :
    (setItem s i st).tpl.items[j]? = s.tpl.items[j]?.map fun x => if j = i then { x with st := st } else x := by
  simp only [setItem, List.getElem?_map, List.getElem?_zipIdx, Option.map_map]
  simp [Function.comp_def]

theorem setItem_length (s : State) (i : Nat) (st : ISt) : (setItem s i st).tpl.items.length = s.tpl.items.length := by
  simp [setItem]

/-- The start of an item that walks no pages brings nothing more (R212). -/
theorem itemBegin_noWalk {s : State} {it : Item} (k : Nat) (hwalk : it.kind ≠ .walk) (hshared : it.kind ≠ .shared) : itemBegin s it k = s := by
  cases hkind : it.kind with
  | walk => exact absurd hkind hwalk
  | shared => exact absurd hkind hshared
  | _ => simp [itemBegin, hkind]

/-- The end of an item that hands nothing off, walks no pages and appends nothing brings nothing more (R67). -/
theorem itemEnd_plain {s : State} {it : Item} (i : Nat) (hhand : it.kind ≠ .handoff) (hwalk : it.kind ≠ .walk)
    (happ : ∀ l, it.kind ≠ .append l) : itemEnd s it i = s := by
  cases hkind : it.kind with
  | handoff => exact absurd hkind hhand
  | walk => exact absurd hkind hwalk
  | append l => exact absurd hkind (happ l)
  | _ => simp [itemEnd, hkind]

/-- SHARE_TALLY_BUILD builds the tally of the tick that follows, 4,096 cc before the boundary (R205). -/
theorem exec_shareTallyBuild_running {s : State} (h : s.time.running = true) :
    exec .shareTallyBuild s = .next (tallyFor (s.ccTo (s.lcc - 4096)) (nextTick (s.ccTo (s.lcc - 4096)).time).1.tick) :=
  congrArg Host.Outcome.next (if_pos h)

section
variable {s : State} {i : Nat} {it : Item} (hitem : s.tpl.items[i]? = some it) (hopen : s.tpl.sealed = false)
  (hunit : unitRuns s it.unit = true) (hlost : itemLost s it = false)
include hitem hopen hunit hlost

/-- A booked item of a completed plan starts at its booked cc (R212). -/
theorem exec_bookedItemStart_booked (hst : it.st = .booked) (hplan : s.tpl.planned = true) :
    exec (.bookedItemStart i) s = .next (itemBegin (setItem (s.ccTo it.start) i .running) it i) := by
  change execBookedItemStart i s = _
  simp only [execBookedItemStart, hitem]
  simp [hst, hplan, hopen, hunit, hlost]

/-- A running item ends its ledger cost after its booked start, well or at an uncorrectable error (R67). -/
theorem exec_bookedItemComplete_running (hst : it.st = .running) (bad : Option Nat) :
    exec (.bookedItemComplete i bad) s = .next (match bad with
      | some a => itemBad (s.ccTo (it.start + it.len)) it a
      | none => itemEnd (setItem (s.ccTo (it.start + it.len)) i .done) it i) := by
  change execBookedItemComplete i bad s = _
  simp only [execBookedItemComplete, hitem]
  cases bad <;> simp [hst, hopen, hunit, hlost]

end

/-- Settles O24, by what the tally's building and an item's start and end bring, and by what the setting of an item's state changes. -/
theorem bookedWorkRunsFromItsStartToItsLedgerCost : Obligations.BookedWorkRunsFromItsStartToItsLedgerCost := by
  refine ⟨fun s hrun htally => ?_, fun i it s hitem hopen hunit hlost => ⟨fun hst hplan => ?_, fun hst => ?_⟩, fun i it s st hitem => ?_⟩
  · rw [exec_shareTallyBuild_running hrun, tallyFor_untallied _ (by rw [State.ccTo_tpl, htally]), State.ccTo_tpl]
  · have hstart := exec_bookedItemStart_booked hitem hopen hunit hlost hst hplan
    exact ⟨hstart, fun hwalk hshared => by rw [hstart, itemBegin_noWalk i hwalk hshared]⟩
  · have hend := exec_bookedItemComplete_running hitem hopen hunit hlost hst
    exact ⟨hend none, fun a => hend (some a), fun hhand hwalk happ => (hend none).trans (congrArg _ (itemEnd_plain i hhand hwalk happ))⟩
  · refine ⟨?_, setItem_length s i st, fun j hj => ?_⟩
    · rw [setItem_getElem?, hitem, Option.map_some, if_pos rfl]
    · simp only [setItem_getElem?, if_neg hj, Option.map_id']

/-! ### The boundary (R59, R61, R533) -/

/-- With no new length waiting the tick that follows has the next number and the same length (R59). -/
theorem nextTick_sameLen {t : Time} (h : t.lenNext = none) :
    nextTick t = ({ t with tick := (t.tick + 1) % 2 ^ 48, cc := 0, up := t.up + (8 * t.len5 - t.cc) }, false) := by
  simp only [nextTick, h]

/-- At a whole second the tick that follows is numbered by the length that waits, and has it (R61, R62). -/
theorem nextTick_newLen {t : Time} {v : Nat} (h : t.lenNext = some v) (hv : v ≠ 0) (hsec : (t.tick + 1) * t.len5 % 200000000 = 0) :
    nextTick t = ({ t with tick := (t.tick + 1) * t.len5 / v % 2 ^ 48, cc := 0, up := t.up + (8 * t.len5 - t.cc), len5 := v, lenNext := none },
      true) := by
  simp only [nextTick, h]
  exact if_pos ⟨hsec, hv⟩

/-- The tick that closes passes its seal point and its last cc; the actions of R533 run in the one that opens (R59, R68). -/
theorem tickTurn_eq {s p : State} {t : Time} {new : Bool} (errs : List PlanErr) (hp : (sealPoint s).ccTo s.lcc = p)
    (hnext : nextTick p.time = (t, new)) :
    tickTurn s errs = boundaryActs { tallyFor p t.tick with
      time := t, tpl := { (tallyFor p t.tick).tpl with renumber := (tallyFor p t.tick).tpl.renumber || new } } errs := by
  simp only [tickTurn, hp, hnext]

/-- Settles O19: the turn of the tick, into one with no new length. -/
theorem boundaryOpensTheNextTick : Obligations.BoundaryOpensTheNextTick := by
  intro errs s p hrun hp hlen
  have hexec : exec (.tickBoundary errs) s = .next (tickTurn s errs) := congrArg Host.Outcome.next (if_pos hrun)
  rw [hexec, tickTurn_eq errs hp (nextTick_sameLen hlen), Bool.or_false]
  rfl

/-- The rest of the tick passes with its number and lengths as they are. -/
theorem ccTo_tickAndLengths (s : State) (c : Nat) :
    (s.ccTo c).time.tick = s.time.tick ∧ (s.ccTo c).time.len5 = s.time.len5 ∧ (s.ccTo c).time.lenNext = s.time.lenNext := by
  rw [State.ccTo_time]
  split <;> exact ⟨rfl, rfl, rfl⟩

/-- Settles O20: the turn of the tick, into one with the length that waits. -/
theorem newTickLengthAppliesAtAWholeSecond : Obligations.NewTickLengthAppliesAtAWholeSecond := by
  rintro s p v n hrun hsealed hlen hv hsec rfl rfl
  obtain ⟨htick, hlen5, hnext⟩ := ccTo_tickAndLengths s s.lcc
  have hexec : exec .tickLenApply s = .next (tickTurn s []) :=
    congrArg Host.Outcome.next (if_pos (by simp only [hrun, nextTick_newLen hlen hv hsec, Bool.and_self]))
  have hturn := nextTick_newLen (hnext.trans hlen) hv (by rw [htick, hlen5, hsec])
  rw [htick, hlen5] at hturn
  rw [hexec, tickTurn_eq [] (by rw [sealPoint_sealed hsealed]) hturn, Bool.or_true]
  rfl

end Sys2Proof.Machine
end

section
/-!
SUPPORT. The proofs of the statements of spec/04_contexts_lanes_pages.md: the look-aside buffer (R134) and service work that ends
(R112, R122, R410).
-/

namespace Sys2Proof.Machine

/-! ### The look-aside buffer (R134) -/

/-- LAB_INVALIDATE_SLOT writes PWK_LAB_INV with its slot and all clear, which drops the slot's entries (R134). -/
theorem exec_labInvalidateSlot (s : State) {slot : Nat} (hslot : slot < 2 ^ 18) :
    exec (.labInvalidateSlot slot) s = .next (labDrop s slot) := by
  have hall : bitOf slot 31 = false := by
    simp only [bitOf, Nat.div_eq_of_lt (show slot < 2 ^ 31 by omega)]
    rfl
  have hfld : bitsOf slot 17 0 = slot := by
    simp only [bitsOf]
    omega
  have hwrite : exec (.labInvalidateSlot slot) s = .next (writeReg s Reg.PWK_LAB_INV slot) :=
    congrArg (fun v => Host.Outcome.next (writeReg s Reg.PWK_LAB_INV v)) (Nat.mod_eq_of_lt hslot)
  rw [hwrite, writeReg_labInv s slot (by omega), hall, hfld]
  rfl

/-- LAB_INVALIDATE_ALL writes PWK_LAB_INV with all set, which drops every entry (R134). -/
theorem exec_labInvalidateAll (s : State) : exec .labInvalidateAll s = .next (labClear s) :=
  congrArg Host.Outcome.next ((writeReg_labInv s (2 ^ 31) (by decide)).trans (if_pos (by decide)))

/-- The sets that are left after a slot's entries are dropped: each old set without the slot's entries, where any is left (R134). -/
theorem mem_labDrop {s : State} {slot k : Nat} {es : List LabEnt} :
    (k, es) ∈ (labDrop s slot).ctx.lab ↔ es ≠ [] ∧ ∃ old, (k, old) ∈ s.ctx.lab ∧ (old.filter fun e => e.slot != slot) = es := by
  simp only [labDrop, List.mem_filter, List.mem_map, Prod.mk.injEq, Prod.exists, Bool.not_eq_true', List.isEmpty_eq_false_iff]
  constructor
  · rintro ⟨⟨j, old, hold, rfl, hes⟩, hne⟩
    exact ⟨hne, old, hold, hes⟩
  · rintro ⟨hne, old, hold, hes⟩
    exact ⟨⟨k, old, hold, rfl, hes⟩, hne⟩

/-- Settles O28, by the sets that a slot's drop leaves. -/
theorem lookAsideEntriesAreDropped : Obligations.LookAsideEntriesAreDropped := by
  refine fun s => ⟨fun slot hslot => ⟨_, exec_labInvalidateSlot s hslot, fun k es hes => ?_, fun k old e hold he hne => ?_, rfl⟩,
    exec_labInvalidateAll s⟩
  · obtain ⟨hne, old, hold, rfl⟩ := mem_labDrop.mp hes
    refine ⟨hne, fun e he => ?_, old, hold, fun e => ?_⟩
    · simpa using (List.mem_filter.mp he).2
    · simp [List.mem_filter]
  · have hkept : e ∈ old.filter fun e => e.slot != slot := List.mem_filter.mpr ⟨he, by simpa using hne⟩
    exact ⟨_, mem_labDrop.mpr ⟨List.ne_nil_of_mem hkept, old, hold, rfl⟩, hkept⟩

/-! ### Service work that ends (R112, R122, R410) -/

section
variable {s : State} (hen : s.en .frm 0 = true)
include hen

theorem exec_cowCopyDone_good (slot lane : Nat) : exec (.cowCopyDone slot lane false) s = .next (cowCopy s slot lane) := by
  simp [exec, execCowCopyDone, hen]

/-- A copy that meets an uncorrectable error is recorded at the frame it copies from (R122, assumption 73). -/
theorem exec_cowCopyDone_bad {slot lane : Nat} {w : Cow}
    (hw : s.ctx.cows.find? (fun w => w.slot == slot && w.lane == lane && !w.copied) = some w) :
    exec (.cowCopyDone slot lane true) s = .next (serviceBad s w.src) := by
  simp [exec, execCowCopyDone, hen, hw]

theorem exec_scrubDone_good {frame : Nat} (hst : (s.frame frame).st = .scrub) :
    exec (.scrubDone frame false) s = .next (scrubEnd s frame) := by
  simp [exec, execScrubDone, hen, hst]

/-- A frame in SCRUB whose descriptor cannot be read is recorded and RETIRED (R506). -/
theorem exec_scrubDone_bad {frame : Nat} (hst : (s.frame frame).st = .scrub) :
    exec (.scrubDone frame true) s = .next ((fault (s.count Reg.BST_INT_UNCORR) .frm 0 0x20 none frame 0).setFrame frame
      { st := .retired, owner := (s.frame frame).owner }) := by
  simp [exec, execScrubDone, hen, hst]

theorem exec_migrateCopyDone_good (slot : Nat) : exec (.migrateCopyDone slot false) s = .next (migCopy s slot) := by
  simp [exec, execMigrateCopyDone, hen]

end

/-- The copy of a lane's last page: its used slots are copied, and the copy is marked (R122). -/
theorem cowCopy_found {s : State} {slot lane : Nat} {w : Cow}
    (hw : s.ctx.cows.find? (fun w => w.slot == slot && w.lane == lane && !w.copied) = some w) :
    cowCopy s slot lane =
      { copyPagePart s (s.ctxAt slot).geo w.src w.dst w.slots with ctx := { (copyPagePart s (s.ctxAt slot).geo w.src w.dst w.slots).ctx with
        cows := (copyPagePart s (s.ctxAt slot).geo w.src w.dst w.slots).ctx.cows.map fun x => if x = w then { x with copied := true } else x } } := by
  simp only [cowCopy, hw]

/-- One page of a MIGRATE with geometry `g`, copied from its place in staging into its frame (R410). -/
def migPageCopy (g : Geo) (payload : Nat) (u : State) (page : Nat × Nat) : State :=
  (zeroLoc u (u.loc page.1)).writeBytes (u.frAddr page.1) (u.readBytes (payload + pageWireBytes g * page.2) (pageWireBytes g))

/-- The copy of a MIGRATE: its pages are copied one after the other, and the copy is marked (R410). -/
theorem migCopy_found {s m : State} {slot : Nat} {im : Import} (him : s.fab.imports.find? (fun i => i.req == slot && !i.copied) = some im)
    (hm : m = im.frames.zipIdx.foldl (migPageCopy (s.ctxAt (hSlot (s.reqAt slot).handle)).geo (s.reqAt slot).payload) s) :
    migCopy s slot = { m with fab := { m.fab with imports := m.fab.imports.map fun x => if x.req = slot then { x with copied := true } else x } } := by
  subst hm
  simp only [migCopy, him]
  rfl

/-- Settles O29, by what each of the three commands leaves of its work. -/
theorem serviceCopiesEnd : Obligations.ServiceCopiesEnd := by
  refine fun s hen => ⟨fun slot lane w hw => ⟨?_, exec_cowCopyDone_bad hen hw⟩,
    fun frame hst => ⟨exec_scrubDone_good hen hst, exec_scrubDone_bad hen hst⟩, fun slot im him => ⟨_, ?_, rfl⟩⟩
  · rw [exec_cowCopyDone_good hen, cowCopy_found hw]
  · rw [exec_migrateCopyDone_good hen, migCopy_found him rfl]
    rfl

end Sys2Proof.Machine
end

section
/-!
SUPPORT. The proof of the statement about what commands of the look-aside buffer, ports, self-test, partitions and resets leave to be
read (R134, R356 to R373, R484 to R517, R531 to R561), by part: registers, then one part per block.
-/

namespace Sys2Proof.Machine

/-! ### A register that has been written, read back -/

/-- The bits put into a word are the bits read from it. -/
theorem bitsOf_putBits (v hi lo x : Nat) : bitsOf (putBits v hi lo x) hi lo = x % 2 ^ (hi + 1 - lo) := by
  simp only [putBits, bitsOf]
  generalize 2 ^ (hi + 1 - lo) = m
  have hd : 0 < 2 ^ lo := Nat.two_pow_pos lo
  generalize 2 ^ lo = d at hd
  have hq : (v - v / d % m * d) / d = m * (v / d / m) := by
    rw [Nat.mul_comm _ d, Nat.sub_mul_div]
    have := Nat.div_add_mod (v / d) m
    omega
  rw [Nat.add_mul_div_right _ _ hd, hq, Nat.mul_add_mod, Nat.mod_mod]

section
variable {s : State} (hok : s.ok)
include hok

theorem State.fld_setRg (a v hi lo : Nat) : (s.setRg a v).fld a hi lo = bitsOf (v % 2 ^ 32) hi lo := by
  rw [State.fld, State.rg_setRg s a v a hok, if_pos rfl]

theorem State.bit_setRg (a v : Nat) {k : Nat} (hk : k < 32) : (s.setRg a v).bit a k = bitOf v k := by
  rw [State.bit, State.rg_setRg s a v a hok, if_pos rfl, bitOf_low hk]

theorem State.bit_setFld (a x : Nat) {k : Nat} (hk : k < 32) : (s.setFld a k k x).bit a k = decide (x % 2 = 1) := by
  rw [State.setFld, State.bit_setRg hok a _ hk, bitOf_bits, bitsOf_putBits, Nat.add_sub_cancel_left, Nat.pow_one]

end

/-! ### The look-aside buffer (R134) -/

/-- No entry of the slot is left in any set (R134). -/
theorem labDrop_noSlot (s : State) (slot : Nat) : ∀ kv ∈ (labDrop s slot).ctx.lab, ∀ e ∈ kv.2, e.slot ≠ slot := by
  rintro ⟨k, es⟩ hes e he
  obtain ⟨-, old, -, rfl⟩ := mem_labDrop.mp hes
  simpa using (List.mem_filter.mp he).2

/-! ### Transmit rings (R361, R362) -/

theorem exec_txRingWrite (s : State) {ring : Nat} (wr : Nat) (hring : ring < 3) :
    exec (.txRingWrite ring wr) s = .next (s.setRg (fringBase ring 1 + 0x0C) wr) := by
  simp only [exec, execTxRingWrite, Nat.mod_eq_of_lt hring]

/-- A management port that has its link sends the frame of a legal slot at once (R373). -/
theorem exec_controlTxDone_mgt {s : State} {ring : Nat} (h1 : 1 ≤ ring) (h3 : ring < 3)
    (hfilled : (s.rg (fringBase ring 1 + 0x0C) + 2 ^ 32 - s.rg (fringBase ring 1 + 0x10)) % 2 ^ 32 ≠ 0)
    (hring : fringOk s (fringBase ring 1) = true)
    (hslot : txSlotOk s ring (fringSlot s (fringBase ring 1) (s.rg (fringBase ring 1 + 0x10))) = true)
    (hen : s.en .mgt (ring - 1) = true) (hlink : s.bit (Reg.MGT_STAT (ring - 1)) 0 = true) :
    exec (.controlTxDone ring) s = .next (txWriteBack s ring stOK 0) := by
  have h0 : ring ≠ 0 := by omega
  simp only [exec, execControlTxDone, Nat.mod_eq_of_lt h3, hfilled, hring, hslot, hen, hlink, h0]
  simp

/-- A slot's write-back moves the ring's read index on by one (R362). -/
theorem txWriteBack_rd {s : State} (hok : s.ok) (k status t : Nat) :
    (txWriteBack s k status t).rg (fringBase k 1 + 0x10) = (s.rg (fringBase k 1 + 0x10) + 1) % 2 ^ 32 := by
  simp only [txWriteBack]
  rw [State.rg_setRg, if_pos rfl]
  have hs1 {a b v w : Nat} : Keeps s ((s.putLE a 2 v).putByte b w) := State.putByte_keeps (State.putLE_keeps (.refl s))
  refine Keeps.ok (s := s) (Keeps.ite ?_ hs1) hok
  exact State.putLE_keeps (State.putLE_keeps (State.putLE_keeps hs1))

/-! ### Frames that are punted (R359, R361, R373) -/

/-- Bytes are as they are taken from the wire. -/
theorem map_byte {f : List Nat} (hf : ∀ x ∈ f, x < 256) : f.map (· % 256) = f :=
  (List.map_congr_left fun x hx => Nat.mod_eq_of_lt (hf x hx)).trans (List.map_id f)

/-- An untagged frame carries its EtherType behind its addresses (R359). -/
theorem frameTag_untagged {f : List Nat} (h1 : beAt f 12 2 ≠ 0x88A8) (h2 : beAt f 12 2 ≠ 0x8100) :
    frameTag f = some (none, beAt f 12 2, f.drop 14) := by
  simp [frameTag, h1, h2]

/-- An ARP frame is no IP packet. -/
theorem ipParts_arp (b : List Nat) : ipParts 0x0806 b = none := by simp [ipParts]

/-- An ARP frame is punted as kind 4 (R359). -/
theorem sortFrame_arp (s : State) (b : List Nat) : sortFrame s 0x0806 b = .punt 4 := by
  simp [sortFrame, ptpMessage, ipParts_arp]

/-- A broadcast frame is accepted whatever the port's own address (R359). -/
theorem macAccepted_broadcast (own : Nat) : macAccepted own 0xFFFFFFFFFFFF = true := by simp [macAccepted]

/-- An untagged broadcast ARP frame at a data port is counted and punted (R359, R361). -/
theorem exec_frameReceive_arp {s u : State} {port k : Nat} {f : List Nat} (hport : subPort s port = some k) (hlink : linkIsUp s port = true)
    (hf : ∀ x ∈ f, x < 256) (hmin : 60 ≤ f.length) (hmax : f.length ≤ 9212) (hmac : macOf f 0 = 0xFFFFFFFFFFFF) (het : beAt f 12 2 = 0x0806)
    (hu : u = (s.countBy (Reg.ETH_FEC_CORR (port / 8)) 0).countBy (Reg.ETH_FEC_UNCORR (port / 8)) 0)
    (hvlan : u.bit (Reg.ETH_VLAN (port / 8) k) 12 = false) :
    exec (.frameReceive port true ⟨f, 0, 0⟩) s =
      .next (puntFrame (u.count (Reg.ETH_RX_FRAMES (port / 8))) (port / 8) port 4 0 0x0806 f (f.drop 14)) := by
  have htag : frameTag f = some (none, 0x0806, f.drop 14) := by
    rw [frameTag_untagged (by simp [het]) (by simp [het]), het]
  have hlen : ¬ (f.length < 60 ∨ 9212 < f.length) := by omega
  simp only [exec, execFrameReceive, hport, hlink, map_byte hf, ← hu, hlen, hmac, macAccepted_broadcast, hvlan, htag, sortFrame_arp]
  simp

/-- A broadcast ARP frame at a management port is counted and written to the port's receive ring (R373). -/
theorem exec_mgtFrameReceive_arp {s : State} {n : Nat} {f : List Nat} (hn : n < 2) (hen : s.en .mgt n = true)
    (hlink : s.bit (Reg.MGT_STAT n) 0 = true) (hf : ∀ x ∈ f, x < 256) (hmin : 60 ≤ f.length) (hmax : f.length ≤ 2016)
    (hmac : macOf f 0 = 0xFFFFFFFFFFFF) (het : beAt f 12 2 = 0x0806) :
    exec (.mgtFrameReceive n true f) s = .next (puntWrite (s.count (Reg.MGT_RX_FRAMES n)) (n + 1) (64 + n) 4 0 none f) := by
  simp only [exec, execMgtFrameReceive, Nat.mod_eq_of_lt hn, map_byte hf, hen, hlink, hmac, het, ipParts_arp]
  simp [Nat.not_lt.mpr hmin, Nat.not_lt.mpr hmax]

/-! ### Links (R356, R358) -/

/-- The status word of a data port whose link comes up: up, its FEC locked, and auto-negotiated unless it is a module interface (R356). -/
def linkUpWord (s : State) (n : Nat) : Nat := 1 + 4 + (if SMap.get s.ethMedia false n then 0 else 2)

theorem linkUpWord_bits (s : State) (n : Nat) : bitOf (linkUpWord s n) 0 = true ∧ bitOf (linkUpWord s n) 2 = true := by
  simp only [linkUpWord]
  split <;> decide

theorem exec_linkChange_up {s : State} {port k : Nat} (hport : port < 64) (hsub : subPort s port = some k)
    (hdown : s.bit (Reg.ETH_PSTAT (port / 8) k) 0 = false) (hen : s.en .eth (port / 8) = true) (huse : portUsable s port = true) :
    exec (.linkChange port true) s = .next (synceTurn
      (event (s.setRg (Reg.ETH_PSTAT (port / 8) k) (linkUpWord s (port / 8))) .eth (port / 8) 3 { i0 := port })) := by
  simp only [exec, execLinkChange, if_neg (Nat.not_le.mpr hport), hsub, hdown, hen, huse]
  rfl

theorem exec_fecDegrade_up {s : State} {port k : Nat} (hport : port < 64) (hsub : subPort s port = some k) (hlink : linkIsUp s port = true) :
    exec (.fecDegrade port) s = .next (event (s.setFld (Reg.ETH_PSTAT (port / 8) k) 3 3 1) .eth (port / 8) 6 { i0 := port }) := by
  simp only [exec, execFecDegrade, Nat.mod_eq_of_lt (show port / 8 < 8 by omega), hsub, hlink, if_true]

/-! ### Self-test (R513, R515, R517) -/

/-- The status word of an armed slice. -/
theorem lbArmed_word {x n : Nat} (hx : x < 256) (hn : n < 128) :
    bitOf (x + n * 256 + 65536) 16 = true ∧ bitsOf ((x + n * 256 + 65536) % 2 ^ 32) 14 8 = n := by
  simp only [bitOf, bitsOf, beq_iff_eq]
  omega

/-- The status word of a slice that has ended. -/
theorem lbEnded_word {x n : Nat} (hx : x < 256) (hn : n < 128) :
    bitOf (x + n * 256) 16 = false ∧ bitsOf ((x + n * 256) % 2 ^ 32) 7 0 = x ∧ bitsOf ((x + n * 256) % 2 ^ 32) 14 8 = n := by
  simp only [bitOf, bitsOf, beq_eq_false_iff_ne]
  omega

/-- A field fits in its bits. -/
theorem bitsOf_lt (v hi lo : Nat) : bitsOf v hi lo < 2 ^ (hi + 1 - lo) := Nat.mod_lt _ (Nat.two_pow_pos _)

theorem exec_lbistArm_taken {s : State} {n : Nat} (hn : n < 128) (hup : s.up .bst 0 = true) (hlife : lifeState s ≠ 4)
    (harmed : lbArmed s = false) (hrun : lbRunning s = false) :
    exec (.lbistArm n) s = .next (s.setRg Reg.BST_LB_STAT (s.fld Reg.BST_LB_STAT 7 0 + n * 256 + 65536)) := by
  simp only [exec, execLbistArm, hup, hlife, harmed, hrun, Nat.mod_eq_of_lt hn]
  simp

theorem exec_lbistAbort_armed {s : State} (hrun : lbRunning s = false) (harmed : lbArmed s = true) :
    exec .lbistAbort s = .next (s.setRg Reg.BST_LB_STAT (stCANCELLED + lbTile s * 256)) := by
  simp only [exec, execLbistAbort, hrun, harmed]
  simp

/-- An operation that the lifecycle allows, on a kind that exists, is taken while none is busy and the TPL is disabled (R517). -/
theorem mbCommand_taken {s : State} {kind : Nat} (op : Nat) (h1 : 1 ≤ kind) (h4 : kind ≤ 4) (hidle : s.bit Reg.BST_MB_STAT 8 = false)
    (hlife : lifeOpen s = true) (htpl : s.en .tpl 0 = false) :
    mbCommand op kind s = { s.setFld Reg.BST_MB_STAT 8 8 1 with
      bst := { s.bst with mbOp := op, mbKind := kind, mbDue := s.time.up + mbLength s op kind } } := by
  simp only [mbCommand, hidle, hlife, htpl]
  simp [Nat.not_lt.mpr h1, Nat.not_lt.mpr h4]

/-- A taken operation reads as busy, with its operation and kind (R517). -/
theorem mbCommand_busy {s : State} (hok : s.ok) {kind : Nat} (op : Nat) (h1 : 1 ≤ kind) (h4 : kind ≤ 4)
    (hidle : s.bit Reg.BST_MB_STAT 8 = false) (hlife : lifeOpen s = true) (htpl : s.en .tpl 0 = false) :
    (mbCommand op kind s).bit Reg.BST_MB_STAT 8 = true ∧ (mbCommand op kind s).bst.mbOp = op ∧ (mbCommand op kind s).bst.mbKind = kind := by
  rw [mbCommand_taken op h1 h4 hidle hlife htpl]
  exact ⟨State.bit_setFld hok Reg.BST_MB_STAT 1 (by decide), rfl, rfl⟩

/-! ### The poison list (R508) -/

theorem mem_poisonAdd {s : State} (f : Nat) (hroom : s.poison.length < 1024) : f ∈ (poisonAdd s f).poison := by
  unfold poisonAdd
  split
  · next h => exact List.contains_iff_mem.mp h
  · rw [if_neg (Nat.not_le.mpr hroom)]
    exact List.mem_append_right _ List.mem_cons_self

theorem exec_poisonAdd_life {s : State} {f : Nat} (hf : f < 2 ^ 32) (hlife : lifeState s ≠ 4) :
    exec (.poisonAdd f) s = .next (poisonAdd s f) := by
  simp only [exec, execPoisonAdd, if_neg hlife, Nat.mod_eq_of_lt hf]

theorem exec_poisonDel_life {s : State} {f : Nat} (hf : f < 2 ^ 32) (hlife : lifeState s ≠ 4) :
    exec (.poisonDel f) s = .next { s with poison := s.poison.filter (· != f) } := by
  simp only [exec, execPoisonDel, if_neg hlife, Nat.mod_eq_of_lt hf]

/-! ### Partition reset (R484, R485) -/

/-- The status of a PRT_RESET command reads with its partition. -/
theorem rstStat_reads {s : State} (hok : s.ok) {status p : Nat} (hst : status < 256) (hp : p < 64) :
    (rstStat s status p).fld Reg.PRT_RST_STAT 7 0 = status ∧ (rstStat s status p).fld Reg.PRT_RST_STAT 13 8 = p := by
  simp only [rstStat, State.fld_setRg hok, bitsOf]
  omega

/-- The state in which a partition's reset has started: its key slots retire, and nothing of it is kept yet (R484). -/
def resetBegun (s : State) (p : Nat) : State :=
  { retirePart s p with prt := { (retirePart s p).prt with kept := SMap.set (retirePart s p).prt.kept 0 p 0 } }

theorem exec_prtResetStart_begun {s : State} {p : Nat} (hp : p < 64) (hidle : resetting s p = false) :
    exec (.prtResetStart p) s = .next (rstStat (resetBegun s p) stOK p) := by
  simp only [exec, execPrtResetStart, Nat.mod_eq_of_lt hp, hidle]
  rfl

/-- A partition whose reset has started is in reset (R472, R484). -/
theorem resetting_begun (s : State) (p status : Nat) : resetting (rstStat (resetBegun s p) status p) p = true := by
  simp [resetting, rstStat, resetBegun, retirePart]

/-- A COMMIT of a RETIRED partition, taken while the counter runs, waits for the boundary (R485). -/
theorem exec_prtResetCommit_waits {s : State} {p : Nat} (hp : p < 64) (hret : partState s p = 2) (hnew : s.prt.commits.contains p = false)
    (hrun : s.time.running = true) :
    exec (.prtResetCommit p) s = .next (rstStat { s with prt := { s.prt with commits := s.prt.commits ++ [p] } } stOK p) := by
  have htaken : ¬ (partState s p ≠ 2 ∨ s.prt.commits.contains p = true) := by
    rw [hnew]
    simp [hret]
  simp only [exec, execPrtResetCommit, Nat.mod_eq_of_lt hp, if_neg htaken]
  exact congrArg Host.Outcome.next (if_pos hrun)

/-! ### Device reset (R531, R532, R541, R555, R559) -/

/-- The state that a device reset builds its registers on: nothing but the queue, the fuses' contents and the model's counters is left. -/
def resetBlank (s : State) : State :=
  { pending := s.pending, nv := s.nv, boot := s.boot + 1, fresh := s.fresh, lcs := { started := s.lcs.started } }

theorem resetBlank_ok (s : State) : (resetBlank s).ok := ⟨Memory.wf_nil, Regs.wf_nil⟩

/-- A new challenge changes registers and draws free values, and nothing else (R503). -/
theorem newChallenge_only {u : State} (hok : u.ok) :
    newChallenge u = { u with regs := (newChallenge u).regs, fresh := (newChallenge u).fresh } := by
  obtain ⟨-, -, f, h⟩ := challenge_drawn (List.range 8) u hok
  have hfresh : (newChallenge u).fresh = f := congrArg State.fresh h
  rw [hfresh]
  exact h

/-- The reset state with its registers set, before the challenge is drawn (R531). -/
def resetRegs (s : State) (cause : Nat) : State :=
  ((fuseRegs.foldl (fun t a => t.setRg a (s.rg a)) (resetBlank s)).setFld Reg.PWR_VCORE 25 16 (s.fld Reg.PWR_VCORE 25 16)).setRg
    Reg.SYS_RESET_CAUSE (Nat.lor (s.rg Reg.SYS_RESET_CAUSE) (cause % 32))

/-- A device reset ends by drawing a challenge (R503, R531). -/
theorem deviceReset_eq_newChallenge (s : State) (cause : Nat) : deviceReset s cause = newChallenge (resetRegs s cause) := rfl

/-- Setting the registers touches nothing else of the blank state (R531). -/
theorem resetRegs_only (s : State) (cause : Nat) :
    (resetRegs s cause).ok ∧ resetRegs s cause = { resetBlank s with regs := (resetRegs s cause).regs } := by
  obtain ⟨hok, -, hfuses⟩ := fuses_copied s fuseRegs (resetBlank s) (resetBlank_ok s)
  unfold resetRegs
  generalize fuseRegs.foldl (fun t a => t.setRg a (s.rg a)) (resetBlank s) = u at hok hfuses ⊢
  refine ⟨State.ok_setRg _ _ _ (State.ok_setRg _ _ _ hok), ?_⟩
  rw [hfuses]
  rfl

/-- A device reset leaves the blank state, its registers and the draws of the new challenge apart (R531). -/
theorem deviceReset_blank (s : State) (cause : Nat) :
    deviceReset s cause = { resetBlank s with regs := (deviceReset s cause).regs, fresh := (deviceReset s cause).fresh } := by
  rw [deviceReset_eq_newChallenge]
  obtain ⟨hok, honly⟩ := resetRegs_only s cause
  have hchal := newChallenge_only hok
  generalize newChallenge (resetRegs s cause) = t at hchal ⊢
  rw [honly] at hchal
  exact hchal

/-- What a device reset empties: memory, tiles, the planner's queue and bookings, and connections (R531). -/
def State.Emptied (t : State) : Prop := t.mem = [] ∧ t.tiles = [] ∧ t.tpl = {} ∧ t.itp = {}

/-- Registers and the count of free values are no part of what is empty. -/
theorem State.Emptied.of_regs {t u : State} {regs : SMap Nat} {fresh : Nat} (h : t = { u with regs := regs, fresh := fresh })
    (hu : u.Emptied) : t.Emptied := by
  subst h
  exact hu

theorem deviceReset_emptied (s : State) (cause : Nat) : (deviceReset s cause).Emptied :=
  .of_regs (deviceReset_blank s cause) ⟨rfl, rfl, rfl, rfl⟩

/-- Neither are the boot and lifecycle parts of the state. -/
theorem State.Emptied.of_lcs {t d : State} {lcs : LcsBlock} (h : t = { d with lcs := lcs }) (hd : d.Emptied) : t.Emptied := by
  subst h
  exact hd

/-- A reset that a pin brings is a device reset after which t0 is still to come (R555). -/
theorem pinReset_emptied (s : State) (cause : Nat) : (pinReset s cause).lcs.started = false ∧ (pinReset s cause).Emptied :=
  ⟨congrArg (fun t : State => t.lcs.started) (pinReset_eq s cause _ rfl), .of_lcs (pinReset_eq s cause _ rfl) (deviceReset_emptied s cause)⟩

/-- Before start-up a direct cause resets the device and nothing more (R531). -/
theorem exec_deviceReset_unstarted {s : State} {cause : Nat} (hc : cause % 32 ≠ 4) (hstart : s.lcs.started = false) :
    exec (.deviceReset cause) s = .next (deviceReset s cause) := by
  simp only [exec, execDeviceReset, if_pos hc, warmReset, hstart]
  rfl

/-- Outside a trip and its hold a fall of RESET_N resets the device (R555). -/
theorem exec_resetNFall_free {s : State} (hhold : s.pwr.hold = false) (htrip : s.pwr.trip = none) :
    exec .resetNFall s = .next (pinReset s 2) := by
  simp only [exec, execResetNFall, hhold, htrip]
  rfl

/-- The first write of the reset word starts the reset's delay (R532). -/
theorem exec_sysReset_asked {s : State} (h : s.sys.resetAt = none) :
    exec (.sysReset 0xA5C30001) s = .next { s with sys := { s.sys with resetAt := some s.time.up } } := by
  simp only [exec, execSysReset, h]
  rfl

/-! ### FAULT_N (R560, R561) -/

theorem exec_faultnClear_high {s : State} (hlow : s.pwr.low = false) (hdrive : faultnDrives s = false)
    (hhigh : s.pwr.highAt - 1 + 1600000 ≤ s.time.up) : exec .faultnClear s = .next (s.setFld Reg.PWR_FAULTN 2 2 0) := by
  simp only [exec, execFaultnClear, hlow, hdrive, hhigh]
  rfl

theorem exec_faultNReleased_low {s : State} (hdrive : faultnDrives s = false) (hlow : s.pwr.low = true) :
    exec .faultNReleased s =
      .next { s.setFld Reg.PWR_FAULTN 0 0 1 with pwr := { s.pwr with low := false, highAt := s.time.up + 1 } } := by
  simp only [exec, execFaultNReleased, hdrive, hlow]
  rfl

/-! ### The statement -/

/-- Settles O60, clause by clause from what each command leaves. -/
theorem commandsLeaveTheirEffectToRead : Obligations.CommandsLeaveTheirEffectToRead := by
  refine fun s hok => ⟨?labSlot, ⟨_, exec_labInvalidateAll s, rfl⟩, ?txRing, ?txDone, ?arp, ?mgtArp, ?link, ?arm, ?abort, ?memTest, ?poison,
    ?resetStart, ?resetCommit, ⟨_, rfl, pinReset_emptied s _⟩, ?resetN, ?direct, fun h => ⟨_, exec_sysReset_asked h, rfl⟩, ⟨_, rfl, rfl⟩,
    ?therm, ?clear, ?released⟩
  case labSlot => exact fun slot hslot => ⟨_, exec_labInvalidateSlot s hslot, labDrop_noSlot s slot⟩
  case txRing =>
    refine fun ring wr hring => ⟨_, exec_txRingWrite s wr hring, ?_, fun a ha => ?_⟩
    · rw [State.rg_setRg s _ wr _ hok, if_pos rfl]
    · rw [State.rg_setRg s _ wr a hok, if_neg ha]
  case txDone =>
    rintro ring _ h1 h3 rfl hfilled hring hslot hen hlink
    exact ⟨_, exec_controlTxDone_mgt h1 h3 hfilled hring hslot hen hlink, txWriteBack_rd hok ring stOK 0⟩
  case arp =>
    rintro port _ k f rfl hport hlink hf hmin hmax hmac het u hu hvlan
    exact exec_frameReceive_arp hport hlink hf hmin hmax hmac het hu hvlan
  case mgtArp => exact fun n f hn hen hlink hf hmin hmax hmac het => exec_mgtFrameReceive_arp hn hen hlink hf hmin hmax hmac het
  case link =>
    rintro port _ k rfl hn hsub
    have hport : port < 64 := by omega
    refine ⟨fun hdown hen huse => ⟨_, _, rfl, exec_linkChange_up hport hsub hdown hen huse, ?_, ?_⟩,
      fun hlink => ⟨_, _, rfl, exec_fecDegrade_up hport hsub hlink, State.bit_setFld hok _ 1 (by decide)⟩⟩
    · rw [State.bit_setRg hok _ _ (by decide)]
      exact (linkUpWord_bits s _).1
    · rw [State.bit_setRg hok _ _ (by decide)]
      exact (linkUpWord_bits s _).2
  case arm =>
    intro n hn hup hlife harmed hrun
    obtain ⟨harm, htile⟩ := lbArmed_word (bitsOf_lt (s.rg Reg.BST_LB_STAT) 7 0) hn
    refine ⟨_, exec_lbistArm_taken hn hup hlife harmed hrun, ?_, ?_⟩
    · exact (State.bit_setRg hok _ _ (by decide)).trans harm
    · exact (State.fld_setRg hok _ _ _ _).trans htile
  case abort =>
    intro hrun harmed
    obtain ⟨harm, hstat, htile⟩ := lbEnded_word (x := stCANCELLED) (by decide) (bitsOf_lt (s.rg Reg.BST_LB_STAT) 14 8)
    refine ⟨_, exec_lbistAbort_armed hrun harmed, ?_, ?_, ?_⟩
    · exact (State.bit_setRg hok _ _ (by decide)).trans harm
    · exact (State.fld_setRg hok _ _ _ _).trans hstat
    · exact (State.fld_setRg hok _ _ _ _).trans htile
  case memTest =>
    intro k h1 h4 hidle hlife htpl c hc
    simp only [List.mem_cons, List.not_mem_nil, or_false] at hc
    rcases hc with rfl | rfl | rfl
    all_goals exact ⟨_, rfl, mbCommand_busy hok _ h1 h4 hidle hlife htpl⟩
  case poison =>
    refine fun f hf hlife => ⟨fun hroom => ⟨_, exec_poisonAdd_life hf hlife, mem_poisonAdd f hroom⟩,
      _, exec_poisonDel_life hf hlife, ?_⟩
    simp [List.mem_filter]
  case resetStart =>
    exact fun p hp hidle => ⟨_, exec_prtResetStart_begun hp hidle, resetting_begun s p stOK,
      rstStat_reads (s := resetBegun s p) hok (by decide) hp⟩
  case resetCommit =>
    exact fun p hp hret hnew hrun => ⟨_, exec_prtResetCommit_waits hp hret hnew hrun, List.mem_append_right _ List.mem_cons_self,
      (rstStat_reads (s := { s with prt := { s.prt with commits := s.prt.commits ++ [p] } }) hok (by decide) hp).1⟩
  case resetN => exact fun hhold htrip => ⟨_, exec_resetNFall_free hhold htrip, pinReset_emptied s 2⟩
  case direct => exact fun c hc hstart => ⟨_, exec_deviceReset_unstarted hc hstart, deviceReset_emptied s c⟩
  case therm => exact fun u x htrip hu => ⟨_, thermtripReset_eq s u x htrip hu, rfl, rfl⟩
  case clear => exact fun hlow hdrive hhigh => ⟨_, exec_faultnClear_high hlow hdrive hhigh, State.bit_setFld hok _ 0 (by decide)⟩
  case released =>
    exact fun hdrive hlow => ⟨_, exec_faultNReleased_low hdrive hlow, rfl, State.bit_setFld hok _ 1 (by decide)⟩

end Sys2Proof.Machine
end

section
/-!
SUPPORT. The proofs of the statements of spec/08_fen_stacks_near_bank.md about the near-bank sequencers: the commands that build a segment,
its check, its run and its end (R226 to R234, R247, R248), and raw programs (R249, R250, R253).
-/

namespace Sys2Proof.Machine

/-! ### Commands that build a segment (R226, R232) -/

theorem withSeg_open {s : State} {n : Nat} {g : Seg} (f : Seg → Seg) (hopen : (s.dbr n).open_ = some g) :
    withSeg s n f = s.setDbr n { s.dbr n with open_ := some (f g) } := by simp [withSeg, hopen]

theorem withSeg_closed {s : State} {n : Nat} (f : Seg → Seg) (hopen : (s.dbr n).open_ = none) : withSeg s n f = s := by
  simp [withSeg, hopen]

section
variable {n : Nat} (s : State) (hn : n < 8)
include hn

theorem exec_segOpen {pc code d32 kl t32 store : Nat} (hpc : pc < 32) (hcode : code < 8) (hd : d32 < 32) (hkl : kl < 4) (ht : t32 < 32)
    (hstore : store < 2) : exec (.segOpen n pc code d32 kl t32 store) s = .next (s.setDbr n { s.dbr n with
      open_ := some { pc := pc, code := code, d32 := d32, kvh := 2 ^ kl, t := 32 * t32, store := store, bad := (s.dbr n).open_.isSome } }) := by
  simp only [exec, execSegOpen, segOpen, Nat.mod_eq_of_lt hn, Nat.mod_eq_of_lt hpc, Nat.mod_eq_of_lt hcode, Nat.mod_eq_of_lt hd,
    Nat.mod_eq_of_lt hkl, Nat.mod_eq_of_lt ht, Nat.mod_eq_of_lt hstore]

theorem exec_sigma (v : Nat) : exec (.sigma n v) s = .next (withSeg s n (Seg.putSigma (BitVec.ofNat 32 v))) := by
  simp only [exec, execSigma, Nat.mod_eq_of_lt hn]

theorem exec_limit (l : Nat) : exec (.limit n l) s = .next (withSeg s n (Seg.putLimit (l % 2 ^ 25))) := by
  simp only [exec, execLimit, Nat.mod_eq_of_lt hn]

theorem exec_window (w p : Nat) : exec (.window n w p) s = .next (withSeg s n (Seg.putWin (w % 2 ^ 25) (p % 2 ^ 25))) := by
  simp only [exec, execWindow, Nat.mod_eq_of_lt hn]

theorem exec_row (slot head pos : Nat) :
    exec (.row n slot head pos) s = .next (withSeg s n (Seg.putRow ⟨slot % 64, head % 8, pos % 2 ^ 24, []⟩)) := by
  simp only [exec, execRow, Nat.mod_eq_of_lt hn]

theorem exec_dest (tile slot : Nat) : exec (.dest n tile slot) s = .next (withSeg s n (Seg.putDest (tile % 128) (slot % 2 ^ 20))) := by
  simp only [exec, execDest, Nat.mod_eq_of_lt hn]

theorem exec_segmentPage (rowSet m base : Nat) (bound : Bool) : exec (.segmentPage n rowSet m base bound) s =
    .next (withSeg s n fun g => Seg.putPage ⟨rowSet % 65536, m % 1024, base % 2 ^ 24, bound, g.wait, (s.dbr n).tag⟩ g) := by
  simp only [exec, execSegmentPage, Nat.mod_eq_of_lt hn]

theorem exec_wait (sc : Nat) : exec (.wait n sc) s = .next (withSeg s n (Seg.putWait (sc % 65536))) := by
  simp only [exec, execWait, Nat.mod_eq_of_lt hn]

theorem exec_mark (tag : Nat) : exec (.mark n tag) s =
    .next (s.setDbr n { s.dbr n with tag := tag % 2 ^ 32, open_ := (s.dbr n).open_.map Seg.putMark }) := by
  simp only [exec, execMark, Nat.mod_eq_of_lt hn]

end

section
variable {g : Seg}

theorem Seg.putSigma_first (v : F32) (hrows : g.rows = []) (hfree : g.sigma = none) : g.putSigma v = { g with sigma := some v } := by
  simp [Seg.putSigma, hrows, hfree]

theorem Seg.putSigma_again (v : F32) (hset : g.sigma ≠ none) : g.putSigma v = { g with bad := true } :=
  if_pos (.inl (Option.isSome_iff_ne_none.mpr hset))

theorem Seg.putLimit_first (l : Nat) (hrows : g.rows = []) (hfree : g.limit = none) : g.putLimit l = { g with limit := some l } := by
  simp [Seg.putLimit, hrows, hfree]

theorem Seg.putWin_first (w p : Nat) (hrows : g.rows = []) (hfree : g.win = none) : g.putWin w p = { g with win := some (w, p) } := by
  simp [Seg.putWin, hrows, hfree]

theorem Seg.putRow_ready (r : SegRow) (hready : g.ready = true) (hpages : g.pages = []) : g.putRow r = { g with rows := g.rows ++ [r] } := by
  simp [Seg.putRow, hready, hpages]

theorem Seg.putDest_meshFed (tile slot : Nat) (hraw : g.raw = false) (hpages : g.pages = []) :
    g.putDest tile slot = { g with dest := some (tile, slot) } := by
  simp [Seg.putDest, hraw, hpages]

theorem Seg.putPage_dest (p : SegPage) (hrows : g.rows ≠ []) (hdest : g.dest.isSome = true) :
    g.putPage p = { g with pages := g.pages ++ [p], wait := 0, hang := false } := by
  simp [Seg.putPage, hrows, Option.isSome_iff_ne_none.mp hdest]

theorem Seg.putWait_meshFed (w : Nat) (hraw : g.raw = false) : g.putWait w = { g with bad := true } := by
  simp [Seg.putWait, hraw]

theorem Seg.putWait_raw (w : Nat) (hraw : g.raw = true) (hrows : g.rows ≠ []) : g.putWait w = { g with wait := g.wait + w, hang := true } := by
  simp [Seg.putWait, hraw, hrows]

theorem Seg.putMark_eq (g : Seg) : g.putMark = if g.rows = [] then { g with bad := true } else { g with hang := true } := by
  simp [Seg.putMark]

end

/-! ### A closed segment runs or is refused (R231, R234) -/

section
variable {n : Nat} {s : State} {g : Seg} (hn : n < 8) (hopen : (s.dbr n).open_ = some g)
include hn hopen

/-- A segment that passes its checks is active from the current sc on. -/
theorem exec_segClose_runs {w : PimWin}
    (hwin : (winsOf s.tpl n g.pc).find? (fun w => decide (w.lo ≤ ceilDiv s.time.cc 2) && decide (ceilDiv s.time.cc 2 < w.hi)) = some w)
    (hup : s.up .dbr n = true) (hpim : chanPim s n g.pc = true) (hform : segForm g = true)
    (hfits : segFits s n g (ceilDiv s.time.cc 2) w.lo w.hi ((s.dbr n).runs ++ (s.dbr n).raw.getD []) = true) :
    exec (.segClose n) s = .next ((s.setDbr n { s.dbr n with open_ := none }).setDbr n
      { s.dbr n with open_ := none, runs := (s.dbr n).runs ++ [⟨g, ceilDiv s.time.cc 2, 0⟩] }) := by
  simp only [exec, execSegClose, Nat.mod_eq_of_lt hn, hopen, hwin, hup, hpim, hform, hfits]
  rfl

/-- A segment on a channel without windows is refused. -/
theorem exec_segClose_noWindow (hwins : winsOf s.tpl n g.pc = []) :
    exec (.segClose n) s = .next (segRefuse (s.setDbr n { s.dbr n with open_ := none }) n g) := by
  simp only [exec, execSegClose, Nat.mod_eq_of_lt hn, hopen, hwins]
  rfl

end

/-- A refused segment of a raw program, or one without a destination, is counted and posted (R234). -/
theorem segRefuse_counted {s : State} {n : Nat} {g : Seg} (h : g.raw = true ∨ g.dest = none) :
    segRefuse s n g = event0 (s.count (Reg.DBR_REFUSED n)) .dbr n 3 := by
  cases hdest : g.dest with
  | none => simp only [segRefuse, hdest]
  | some d =>
    have hraw : g.raw = true := h.resolve_right (by simp [hdest])
    simp only [segRefuse, hdest, hraw, if_true]

/-- A refused mesh-fed segment also records a fault and fails its request (R234). -/
theorem segRefuse_meshFed {s : State} {n : Nat} {g : Seg} {tile slot : Nat} (hraw : g.raw = false) (hdest : g.dest = some (tile, slot)) :
    segRefuse s n g = failRequest (fault (event0 (s.count (Reg.DBR_REFUSED n)) .dbr n 3) .dbr n 0x30 none
      (mkReqId (s.reqAt slot).gen slot) g.pc) slot stMALFORMED := by
  simp only [segRefuse, hdest, hraw, Bool.false_eq_true, if_false]

/-! ### A segment ends (R228, R230, R247, R248) -/

/-- A segment whose records come by their booked time and without a failed chain state. -/
theorem exec_segmentComplete_good {n p fin : Nat} {s : State} {r : SegRun} (c : Nat) (hn : n < 8) (hp : p < 32)
    (hclk : s.clocksStopped = false) (hrun : (s.dbr n).runs.find? (fun r => r.seg.pc == p) = some r)
    (hfin : fin = 2 * (r.start + segLength r.seg)) (hle : s.time.cc ≤ fin) :
    exec (.segmentComplete n p ⟨none, c⟩) s = .next (fenCorr (((segDrain (s.ccTo fin) n r).setDbr n
      { (segDrain (s.ccTo fin) n r).dbr n with
        runs := ((segDrain (s.ccTo fin) n r).dbr n).runs.filter (·.seg.pc != p) }).count (Reg.DBR_SEGS n)) n 0 c) := by
  subst hfin
  simp only [exec, execSegmentComplete, Nat.mod_eq_of_lt hn, Nat.mod_eq_of_lt hp, hclk, hrun, if_neg (Nat.not_lt.mpr hle)]
  rfl

/-- The records that the pages `r.out` up to `k` of a run leave in the exit buffer of its channel. -/
theorem segDrain_ready {s : State} {n k tile slot : Nat} {r : SegRun} (hdest : r.seg.dest = some (tile, slot))
    (hk : k = max r.out (segReady r s.time.cc)) (hne : k ≠ r.out) :
    segDrain s n r = s.setDbr n { s.dbr n with
      runs := (s.dbr n).runs.map fun x => if x == r then { x with out := k } else x
      exits := SMap.set (s.dbr n).exits [] r.seg.pc (SMap.get (s.dbr n).exits [] r.seg.pc
        ++ ((r.seg.pages.take k).drop r.out).map fun p => (tile, slot, p.rowSet, exitBytes p (r.seg.rows.map (exitOf s n r.seg p)))) } := by
  subst hk
  simp only [segDrain, if_neg hne, hdest]
  rfl

/-! ### The statement about segments -/

/-- Settles O31: each command by the field that it fills of the open segment; SEG_CLOSE and the end of a segment by their checks. -/
theorem segmentsFillRunAndComplete : Obligations.SegmentsFillRunAndComplete := by
  refine ⟨fun n s hn => ⟨?opens, ?fills, ?closed⟩, fun n s hn => ⟨?runs, ?refused, ?completes, ?drains⟩⟩
  case opens => exact fun pc code d32 kl t32 store => exec_segOpen s hn
  case fills =>
    intro g put hopen hput
    refine ⟨fun hrows => ⟨?_, ?_, ?_, ?_⟩, ?_, ?_, ?_, ?_, ?_, ?_⟩
    · intro v hfree
      rw [exec_sigma s hn, withSeg_open _ hopen, Seg.putSigma_first _ hrows hfree, hput]
    · intro v hset
      rw [exec_sigma s hn, withSeg_open _ hopen, Seg.putSigma_again _ hset, hput]
    · intro l hl hfree
      rw [exec_limit s hn, withSeg_open _ hopen, Nat.mod_eq_of_lt hl, Seg.putLimit_first _ hrows hfree, hput]
    · intro w p hw hp hfree
      rw [exec_window s hn, withSeg_open _ hopen, Nat.mod_eq_of_lt hw, Nat.mod_eq_of_lt hp, Seg.putWin_first _ _ hrows hfree, hput]
    · intro slot head pos hslot hhead hpos hready hpages
      rw [exec_row s hn, withSeg_open _ hopen, Nat.mod_eq_of_lt hslot, Nat.mod_eq_of_lt hhead, Nat.mod_eq_of_lt hpos,
        Seg.putRow_ready _ hready hpages, hput]
    · intro tile slot htile hslot hraw hpages
      rw [exec_dest s hn, withSeg_open _ hopen, Nat.mod_eq_of_lt htile, Nat.mod_eq_of_lt hslot, Seg.putDest_meshFed _ _ hraw hpages, hput]
    · intro rowSet m base bound hrow hm hbase hrows hdest
      rw [exec_segmentPage s hn, withSeg_open _ hopen, Nat.mod_eq_of_lt hrow, Nat.mod_eq_of_lt hm, Nat.mod_eq_of_lt hbase,
        Seg.putPage_dest _ hrows hdest, hput]
    · intro sc hraw
      rw [exec_wait s hn, withSeg_open _ hopen, Seg.putWait_meshFed _ hraw, hput]
    · intro sc hsc hraw hrows
      rw [exec_wait s hn, withSeg_open _ hopen, Nat.mod_eq_of_lt hsc, Seg.putWait_raw _ hraw hrows, hput]
    · intro tag htag
      rw [exec_mark s hn, Nat.mod_eq_of_lt htag, hopen, Option.map_some, Seg.putMark_eq]
  case closed =>
    intro hclosed a b c d
    simp only [exec_sigma s hn, exec_limit s hn, exec_window s hn, exec_row s hn, exec_segmentPage s hn, exec_wait s hn, exec_dest s hn,
      withSeg_closed _ hclosed, and_self]
  case runs => exact fun g w hopen hwin hup hpim hform hfits => ⟨_, rfl, exec_segClose_runs hn hopen hwin hup hpim hform hfits⟩
  case refused =>
    rintro g hopen hwins _ rfl
    refine ⟨fun h => ?_, fun tile slot hraw hdest => ?_⟩
    · rw [exec_segClose_noWindow hn hopen hwins, segRefuse_counted h]
    · rw [exec_segClose_noWindow hn hopen hwins, segRefuse_meshFed hraw hdest]
      rfl
  case completes =>
    rintro p r c fin _ hp hclk hrun hfin hle rfl
    exact exec_segmentComplete_good c hn hp hclk hrun hfin hle
  case drains =>
    rintro r k tile slot hdest hk hne _ rfl
    exact segDrain_ready hdest hk hne

/-! ### Raw programs (R249, R250, R253) -/

section
variable {n : Nat} {s : State} {w : PimWin} (hn : n < 8) (hwin : s.tpl.pims.find? (fun w => w.raw && w.stack == n) = some w)
  (harmed : s.bit (Reg.DBR_RAW_CTL n) 16 = true) (hidle : (s.dbr n).raw = none) (hopen : s.time.cc < 2 * w.hi)
  (hpim : chanPim s n w.pc = true) (hup : s.up .dbr n = true)
include hn hwin harmed hidle hopen hpim hup

/-- An armed program in its window whose words, segments and output region pass their checks runs (R249). -/
theorem exec_rawProgramStart_runs {words base out : Nat} {x : RawParse} {runs : List SegRun}
    (hwords : words = s.fld (Reg.DBR_RAW_CTL n) 11 0) (hbase : base = s.rg64 (Reg.DBR_RAW_PROG_LO n))
    (hout : out = s.rg64 (Reg.DBR_RAW_OUT_LO n)) (hx : x = rawParse s n words words 0 {})
    (hplace : rawPlace s n w.lo w.hi x.segs (max w.lo (ceilDiv (s.ccTo (2 * w.lo)).time.cc 2)) [] = (runs, true))
    (h1 : 1 ≤ words) (h8 : base % 8 = 0) (hsram : inSram base = true) (hend : base + 8 * words ≤ crownEnd) (hgood : x.bad = false)
    (hcur : x.cur = none) (hpc : ∀ g ∈ x.segs, g.pc = w.pc) (h32 : out % 32 = 0) (hosram : inSram out = true)
    (hoend : out + runs.foldl (fun a r => a + rawBytes r.seg) 0 ≤ crownEnd) :
    exec (.rawProgramStart n) s = .next ((s.ccTo (2 * w.lo)).setDbr n { s.dbr n with raw := some runs, rawDone := x.done }) := by
  have hhere : (x.segs.all fun g => decide (g.pc = w.pc)) = true := by simpa using hpc
  simp only [exec, execRawProgramStart, Nat.mod_eq_of_lt hn, hwin, harmed, hidle, hpim, hup, Nat.not_le.mpr hopen, ← hwords, ← hbase,
    ← hout, ← hx, hplace, h8, hsram, hend, h1, hgood, hcur, hhere, h32, hosram, hoend]
  rfl

/-- An armed program of no words ends as MALFORMED (R253). -/
theorem exec_rawProgramStart_empty (hwords : s.fld (Reg.DBR_RAW_CTL n) 11 0 = 0) :
    exec (.rawProgramStart n) s =
      .next (rawEnd (event0 ((s.ccTo (2 * w.lo)).count (Reg.DBR_REFUSED n)) .dbr n 3) n stMALFORMED 0) := by
  simp only [exec, execRawProgramStart, Nat.mod_eq_of_lt hn, hwin, harmed, hidle, hpim, hup, Nat.not_le.mpr hopen, hwords,
    (show ¬ 1 ≤ 0 by decide), decide_false, Bool.and_false, Bool.false_and]
  rfl

end

/-- The records of a raw program whose chain states are all good, in exit order (R250). -/
def rawRecords (s : State) (n : Nat) (runs : List SegRun) : List Nat :=
  (runs.flatMap fun r => segExits s n r.seg).zipIdx.flatMap fun x => x.1.2.flatMap (rawRecord s x.1.1 false)

/-- A running program ends with its last segment, its records written and its segments counted (R250). -/
theorem exec_rawProgramDone_good {n : Nat} {s : State} {runs : List SegRun} (addr c : Nat) (hn : n < 8) (hruns : (s.dbr n).raw = some runs)
    (hclk : s.clocksStopped = false) :
    exec (.rawProgramDone n [] ⟨addr, c⟩) s = .next (rawEnd
      (((fenCorr (s.ccTo (2 * runs.foldl (fun a r => max a (r.start + segLength r.seg)) 0)) n 0 c).putBytes
        (s.rg64 (Reg.DBR_RAW_OUT_LO n)) (rawRecords s n runs)).countBy (Reg.DBR_SEGS n) runs.length) n stOK (s.dbr n).rawDone) := by
  simp only [exec, execRawProgramDone, Nat.mod_eq_of_lt hn, hruns, hclk, List.any_nil, List.contains_nil, Bool.false_eq_true, if_false]
  rfl

/-- A program that ends leaves its stack without one. -/
theorem rawEnd_dbr {s : State} (n status done : Nat) (hrises : SMap.rises s.dbrs 0 = true) :
    (rawEnd s n status done).dbr n = { s.dbr n with raw := none, rawDone := 0 } := by
  simp only [State.dbr, rawEnd, event0_dbrs, State.setFld_dbrs, State.setRg_dbrs]
  exact SMap.get_set_same s.dbrs {} n _ 0 hrises

/-- The word that arms a program of `words` words: the length and the arm bit (R253). -/
theorem armWord_bits {words : Nat} (hw : words < 4096) :
    (words + 2 ^ 16) % 2 ^ 32 = words + 2 ^ 16 ∧ bitsOf (words + 2 ^ 16) 11 0 = words ∧ bitsOf (words + 2 ^ 16) 16 16 = 1
      ∧ bitOf (words + 2 ^ 16) 16 = true := by
  simp only [bitOf, bitsOf, beq_iff_eq]
  omega

/-! ### The statement about raw programs -/

/-- Settles O34: arming by the write of the control word, the start by its checks, the end by what it writes. -/
theorem rawProgramsArmRunAndEnd : Obligations.RawProgramsArmRunAndEnd := by
  refine fun n s hn => ⟨?arms, ?starts, ?ends, fun hrises status done => rawEnd_dbr n status done hrises⟩
  case arms =>
    intro hok hrises hrun words hw
    obtain ⟨hmod, hlen, harm, hbit⟩ := armWord_bits hw
    obtain ⟨t, ht, hfld, hkept, hpend, hstat⟩ := raw_arm n s hn hok hrises hrun (words + 2 ^ 16) hmod hbit harm
    refine ⟨t, ?_, hfld.trans hlen, hkept, hpend, hstat⟩
    simp only [exec, execDbrRawArm, Nat.mod_eq_of_lt hn, Nat.mod_eq_of_lt hw, ht]
  case starts =>
    intro w hwin harmed hidle hopen hpim hup
    exact ⟨fun words base out x runs hwords hbase hout hx hplace h1 h8 hsram hend hgood hcur hpc h32 hosram hoend =>
      exec_rawProgramStart_runs hn hwin harmed hidle hopen hpim hup hwords hbase hout hx hplace h1 h8 hsram hend hgood hcur hpc h32 hosram hoend,
      exec_rawProgramStart_empty hn hwin harmed hidle hopen hpim hup⟩
  case ends => exact fun runs addr c hruns hclk => ⟨_, _, exec_rawProgramDone_good addr c hn hruns hclk, rfl, rfl⟩

end Sys2Proof.Machine
end

section
/-!
SUPPORT. The proofs of the statements of spec/08_fen_stacks_near_bank.md about the channels of a fen stack: the crown queue, refresh, flags,
the watchdog and changes of mode (R235 to R245, R252, R526), and the arbiter (R2, R242 to R245, R247).
-/

namespace Sys2Proof.Machine

/-! ### What is left of an interrupted grant (R244) -/

section
variable {g : Grant} {up sc : Nat} (hover : g.over up = false)
include hover

/-- A transfer keeps its whole rest. -/
theorem Grant.rest_transfer (h2 : g.idx ≠ 2) : g.rest up sc = some { g with hold := g.hold - (up - g.start) / 2 } := by
  simp only [Grant.rest, hover, h2, Bool.false_eq_true, if_false]

/-- A window's grant still ends with its window. -/
theorem Grant.rest_window (h2 : g.idx = 2) (hlong : sc < g.hold - (up - g.start) / 2) :
    g.rest up sc = some { g with hold := g.hold - (up - g.start) / 2 - sc } := by
  simp only [Grant.rest, hover, h2, Nat.not_le.mpr hlong, Bool.false_eq_true, if_false, if_true]

end

/-! ### The crown queue (R237, R248) -/

theorem exec_crownQueueServe_oldest {n p : Nat} {s : State} {x : CrownReq} {r : List CrownReq} (hn : n < 8) (hp : p < 32)
    (hq : (s.chan n p).crownQ = x :: r) (hpim : chanPim s n p = false) (hup : s.up .fen n = true) :
    exec (.crownQueueServe n p false 0) s =
      .next ((s.setChan n p { s.chan n p with crownQ := r, waiting := (s.chan n p).waiting ++ [⟨x.q, x.src, x.raised, x.hold⟩] }).setFld
        (Reg.FEN_CHSTAT n p) 22 16 (min 64 r.length)) := by
  simp only [exec, execCrownQueueServe, Nat.mod_eq_of_lt hn, Nat.mod_eq_of_lt hp, hq, hpim, hup]
  rfl

/-! ### Refresh (R240, R244) -/

theorem exec_refreshSlot_enabled {n group : Nat} {s : State} (hn : n < 8) (hgroup : group < 4) (hen : s.en .fen n = true)
    (hclk : s.clocksStopped = false) : exec (.refreshSlot n group) s = .next (((List.range 8).map (8 * group + ·)).foldl (refreshChan n)
      (s.ccTo (2 * nextRefresh s n (8 * group) (ceilDiv s.time.cc 2)))) := by
  simp only [exec, execRefreshSlot, Nat.mod_eq_of_lt hn, Nat.mod_eq_of_lt hgroup, hen, hclk]
  rfl

theorem refreshChan_free {n p : Nat} {s : State} (hgrant : (s.chan n p).grant = none) :
    refreshChan n s p = s.setChan n p { s.chan n p with grant := some ⟨4, s.time.up, 328, true⟩, resumed := (s.chan n p).resumed } := by
  simp only [refreshChan, hgrant]

/-- A transfer with time left is interrupted, and resumes with its rest. -/
theorem refreshChan_interrupts {n p : Nat} {s : State} {g rest : Grant} (hgrant : (s.chan n p).grant = some g) (h4 : g.idx ≠ 4)
    (hrest : g.rest s.time.up 328 = some rest) :
    refreshChan n s p = s.setChan n p { s.chan n p with grant := some ⟨4, s.time.up, 328, true⟩, resumed := some rest } := by
  simp only [refreshChan, hgrant, if_pos h4, hrest, Option.orElse_some]

/-! ### The watchdog (R245) -/

section
variable {n p : Nat} {s : State} {g : Grant} (hn : n < 8) (hp : p < 32) (hgrant : (s.chan n p).grant = some g)
include hn hp hgrant

theorem exec_fenWatchdogBite_old (h4 : g.idx ≠ 4) (hold : g.start + 65536 ≤ s.time.up) : exec (.fenWatchdogBite n p) s =
    .next (event0 (fault (((s.setChan n p { s.chan n p with grant := none }).setFld (Reg.FEN_CHSTAT n p) g.idx g.idx 1).count (Reg.FEN_WD_BITES n))
      .fen n 0x28 none (p + g.idx * 256) s.time.cc) .fen n 4) := by
  have hbites : ¬ (g.idx = 4 ∨ s.time.up < g.start + 65536) := by omega
  simp only [exec, execFenWatchdogBite, Nat.mod_eq_of_lt hn, Nat.mod_eq_of_lt hp, hgrant, if_neg hbites]

theorem exec_fenWatchdogBite_young (hyoung : s.time.up < g.start + 65536) : exec (.fenWatchdogBite n p) s = .next s := by
  simp only [exec, execFenWatchdogBite, Nat.mod_eq_of_lt hn, Nat.mod_eq_of_lt hp, hgrant, hyoung, or_true, if_true]

end

/-! ### Changes of mode (R235, R236) -/

theorem nextWin_none {s : State} {n p : Nat} (hwins : winsOf s.tpl n p = []) : nextWin s n p = none := by
  simp only [nextWin, hwins, List.filter_nil, List.foldl_nil]

section
variable {n p : Nat} {s : State} (hn : n < 8) (hp : p < 32)
include hn hp

/-- A channel that a segment runs on, or of a stack that is off, stays as it is. -/
theorem exec_channelModeChange_held (h : segRunning s n p = true ∨ s.up .fen n = false) : exec (.channelModeChange n p) s = .next s := by
  simp only [exec, execChannelModeChange, Nat.mod_eq_of_lt hn, Nat.mod_eq_of_lt hp]
  rcases h with h | h <;> simp [h]

variable (hseg : segRunning s n p = false) (hgrant : (s.chan n p).grant = none) (hup : s.up .fen n = true)
include hseg hgrant hup

theorem exec_channelModeChange_enters {w : PimWin} (hpim : chanPim s n p = false) (hnext : nextWin s n p = some w) :
    exec (.channelModeChange n p) s = .next (setPim (s.ccTo (2 * w.lo)) n p true) := by
  simp only [exec, execChannelModeChange, Nat.mod_eq_of_lt hn, Nat.mod_eq_of_lt hp, hseg, hgrant, hup, hpim, hnext]
  rfl

theorem exec_channelModeChange_noWindow (hpim : chanPim s n p = false) (hwins : winsOf s.tpl n p = []) :
    exec (.channelModeChange n p) s = .next s := by
  simp only [exec, execChannelModeChange, Nat.mod_eq_of_lt hn, Nat.mod_eq_of_lt hp, hseg, hgrant, hup, hpim, nextWin_none hwins]
  rfl

theorem exec_channelModeChange_leaves {w : PimWin} (hpim : chanPim s n p = true)
    (hwin : (winsOf s.tpl n p).find? (fun w => decide (2 * w.lo ≤ s.time.cc) && decide (s.time.cc ≤ 2 * w.hi)) = some w) :
    exec (.channelModeChange n p) s = .next (setPim (s.ccTo (2 * w.hi)) n p false) := by
  simp only [exec, execChannelModeChange, Nat.mod_eq_of_lt hn, Nat.mod_eq_of_lt hp, hseg, hgrant, hup, hpim, hwin]
  rfl

end

/-! ### Training (R526) -/

section
variable {n : Nat} {s : State} (hn : n < 8) (htrains : s.training.contains n = true)
include hn htrains

theorem exec_fenTrainingDone_good : exec (.fenTrainingDone n true) s = .next { s with training := s.training.filter (· != n) } := by
  simp only [exec, execFenTrainingDone, Nat.mod_eq_of_lt hn, htrains, Bool.not_true, Bool.false_eq_true, if_false, if_true]

theorem exec_fenTrainingDone_failed : exec (.fenTrainingDone n false) s =
    .next ((stackRetire ({ s with training := s.training.filter (· != n) }.setFld (Reg.BLK_CTL .fen n) 0 0 0) n).setFld Reg.SYS_BOOT 15 8 stCRC) := by
  simp only [exec, execFenTrainingDone, Nat.mod_eq_of_lt hn, htrains, Bool.not_true, Bool.false_eq_true, if_false]

end

/-! ### The statement about channels -/

/-- Settles O33, each clause by the rule of its command. -/
theorem channelsServeRefreshFenceAndChangeMode : Obligations.ChannelsServeRefreshFenceAndChangeMode := by
  refine ⟨fun n p s hn hp => ⟨?serves, ?slot, refreshChan_free, ?interrupts, ?window, ?hot, ?watchdog, ?clear⟩,
    fun n p s hn hp => ⟨?changes, exec_channelModeChange_held hn hp, ?trained⟩⟩
  case serves => exact fun x r hq hpim hup => exec_crownQueueServe_oldest hn hp hq hpim hup
  case slot => exact fun group hgroup hen hclk => exec_refreshSlot_enabled hn hgroup hen hclk
  case interrupts => exact fun g hgrant h4 h2 hover => refreshChan_interrupts hgrant h4 (Grant.rest_transfer hover h2)
  case window =>
    exact fun g hgrant h2 hover hlong => refreshChan_interrupts hgrant (by omega) (Grant.rest_window hover h2 hlong)
  case hot =>
    intro hot
    simp only [exec, execTempFlagChange, Nat.mod_eq_of_lt hn, Nat.mod_eq_of_lt hp]
  case watchdog =>
    exact fun g hgrant h4 => ⟨exec_fenWatchdogBite_old hn hp hgrant h4, exec_fenWatchdogBite_young hn hp hgrant⟩
  case clear =>
    intro bits hbits
    simp only [exec, execFenceClear, Nat.mod_eq_of_lt hn, Nat.mod_eq_of_lt hp, Nat.mod_eq_of_lt hbits]
  case changes =>
    exact fun hseg hgrant hup => ⟨fun w => exec_channelModeChange_enters hn hp hseg hgrant hup,
      exec_channelModeChange_noWindow hn hp hseg hgrant hup, fun w => exec_channelModeChange_leaves hn hp hseg hgrant hup⟩
  case trained => exact fun htrains => ⟨exec_fenTrainingDone_good hn htrains, exec_fenTrainingDone_failed hn htrains⟩

/-! ### A decision of the arbiter (R242 to R244) -/

/-- On an even cc of a running counter an edge of the stack clock begins now (R2). -/
theorem State.scEdge_even {s : State} (hrun : s.time.running = true) (heven : s.time.cc % 2 = 0) : s.scEdge 0 = s := by
  simp [State.scEdge, State.ccTo, hrun, heven]

theorem fenCorr_none (s : State) (n : Nat) : fenCorr s n 0 0 = s := by simp [fenCorr]

/-- A winner is a waiting transfer, and eligible. -/
theorem arbWinner_eligible {u : State} {c : Chan} {n p x : Nat} {w : ArbReq}
    (hwin : arbWinner c (c.waiting.filter (eligible u n p x)) = some w) : w ∈ c.waiting ∧ eligible u n p x w = true :=
  List.mem_filter.mp (arbWinner_mem _ _ _ hwin)

/-- Channel `c` once transfer `w` has won it at `up` (R242, R243). -/
def Chan.granted (c : Chan) (w : ArbReq) (up : Nat) : Chan :=
  { c with waiting := c.waiting.erase w, rot := if w.idx = 3 then sharer w.src else c.rot, ptr := (w.idx + 1) % 6, cnt := (c.cnt + 1) % 8
           grant := some ⟨w.idx, up, w.hold, false⟩ }

/-- Channel `c` once the debug port has taken it at `up` for transfer `w` (R244). -/
def Chan.debugged (c : Chan) (w : ArbReq) (up : Nat) : Chan :=
  { c with waiting := c.waiting.erase w, grant := some ⟨5, up, w.hold, false⟩
           resumed := (c.grant.bind fun g => g.rest up w.hold).orElse fun _ => c.resumed }

theorem Chan.debugged_resumed_free {c : Chan} (w : ArbReq) (up : Nat) (hgrant : c.grant = none) : (c.debugged w up).resumed = c.resumed := by
  simp only [Chan.debugged, hgrant, Option.bind_none, Option.orElse_none]

theorem Chan.debugged_resumed_transfer {c : Chan} {g : Grant} {up : Nat} (w : ArbReq) (hgrant : c.grant = some g) (h2 : g.idx ≠ 2)
    (hover : g.over up = false) : (c.debugged w up).resumed = some { g with hold := g.hold - (up - g.start) / 2 } := by
  simp only [Chan.debugged, hgrant, Option.bind_some, Grant.rest_transfer hover h2, Option.orElse_some]

section
variable {n p i j : Nat} {s : State} (hn : n < 8) (hp : p < 32) (hup : s.up .fen n = true)
include hn hp hup

theorem exec_arbiterGrant_debug {w : ArbReq} (hdebug : debugTakes (s.scEdge 0) n p = some w) : exec (.arbiterGrant ⟨n, p⟩ ⟨i, j⟩) s =
    .next (fenCorr ((s.scEdge 0).setChan n p ((s.chan n p).debugged w (s.scEdge 0).time.up)) n i j) := by
  simp only [exec, execArbiterGrant, Nat.mod_eq_of_lt hn, Nat.mod_eq_of_lt hp, hup, hdebug]
  rfl

section
variable (hgrant : (s.chan n p).grant = none) (hdebug : debugTakes (s.scEdge 0) n p = none)
include hgrant hdebug

/-- An interrupted transfer goes first. -/
theorem exec_arbiterGrant_resumes {g : Grant} (hres : (s.chan n p).resumed = some g) : exec (.arbiterGrant ⟨n, p⟩ ⟨i, j⟩) s =
    .next ((s.scEdge 0).setChan n p { s.chan n p with grant := some { g with start := (s.scEdge 0).time.up }, resumed := none }) := by
  simp only [exec, execArbiterGrant, Nat.mod_eq_of_lt hn, Nat.mod_eq_of_lt hp, hup, hgrant, hdebug, hres]
  rfl

variable (hres : (s.chan n p).resumed = none) (hbook : bookedAt (s.scEdge 0) n p (s.scEdge 0).time.cc = none)
include hres hbook

theorem exec_arbiterGrant_wins {w : ArbReq}
    (hwin : arbWinner (s.chan n p) ((s.chan n p).waiting.filter (eligible (s.scEdge 0) n p (s.scEdge 0).time.cc)) = some w) :
    exec (.arbiterGrant ⟨n, p⟩ ⟨i, j⟩) s =
      .next (fenCorr (dpwEnter ((s.scEdge 0).setChan n p ((s.chan n p).granted w (s.scEdge 0).time.up)) n p) n i j) := by
  simp only [exec, execArbiterGrant, Nat.mod_eq_of_lt hn, Nat.mod_eq_of_lt hp, hup, hgrant, hdebug, hres, hbook, hwin, Chan.granted]
  rfl

theorem exec_arbiterGrant_idle (hidle : ∀ w ∈ (s.chan n p).waiting, eligible (s.scEdge 0) n p (s.scEdge 0).time.cc w = false) :
    exec (.arbiterGrant ⟨n, p⟩ ⟨i, j⟩) s = .next s := by
  have hnone : (s.chan n p).waiting.filter (eligible (s.scEdge 0) n p (s.scEdge 0).time.cc) = [] :=
    List.filter_eq_nil_iff.mpr fun w hw => by simp [hidle w hw]
  simp only [exec, execArbiterGrant, Nat.mod_eq_of_lt hn, Nat.mod_eq_of_lt hp, hup, hgrant, hdebug, hres, hbook, hnone, arbWinner_nil]
  rfl

end

/-! ### Booked intervals (R235, R242) -/

section
variable {idx fin : Nat} (hbook : bookedAt (s.scEdge 0) n p (s.scEdge 0).time.cc = some (idx, fin))
include hbook

theorem exec_bookedIntervalGrant_owner (hmode : modeTakes s n p idx = true) (hfence : s.bit (Reg.FEN_CHSTAT n p) idx = false) :
    exec (.bookedIntervalGrant ⟨n, p⟩ ⟨i, j⟩) s = .next (fenCorr ((s.scEdge 0).setChan n p { s.chan n p with
      grant := some ⟨idx, (s.scEdge 0).time.up, (fin - (s.scEdge 0).time.cc) / 2, true⟩ }) n i j) := by
  simp only [exec, execBookedIntervalGrant, Nat.mod_eq_of_lt hn, Nat.mod_eq_of_lt hp, hup, hbook, hmode, hfence]
  rfl

theorem exec_bookedIntervalGrant_fenced (hfence : s.bit (Reg.FEN_CHSTAT n p) idx = true) :
    exec (.bookedIntervalGrant ⟨n, p⟩ ⟨i, j⟩) s = .next s := by
  simp only [exec, execBookedIntervalGrant, Nat.mod_eq_of_lt hn, Nat.mod_eq_of_lt hp, hup, hbook, hfence, Bool.or_true, if_true]
  rfl

end

theorem exec_bookedIntervalGrant_none (hbook : bookedAt (s.scEdge 0) n p (s.scEdge 0).time.cc = none) :
    exec (.bookedIntervalGrant ⟨n, p⟩ ⟨i, j⟩) s = .next s := by
  simp only [exec, execBookedIntervalGrant, Nat.mod_eq_of_lt hn, Nat.mod_eq_of_lt hp, hup, hbook]
  rfl

end

/-! ### The statement about the arbiter -/

/-- Settles O32: a free channel goes to the resumed transfer, else to the winner; the debug port and a booked owner take theirs. -/
theorem arbiterGrantsAWaitingTransferThatFits : Obligations.ArbiterGrantsAWaitingTransferThatFits := by
  rintro n p i j s u hn hp hup rfl
  refine ⟨fun hgrant hdebug => ⟨fun hres hbook => ⟨fun w hwin => ?wins, exec_arbiterGrant_idle hn hp hup hgrant hdebug hres hbook⟩, ?resumes⟩,
    ?debug, ?booked, exec_bookedIntervalGrant_none hn hp hup, State.scEdge_even, fenCorr_none _ n⟩
  case wins =>
    obtain ⟨hwait, helig⟩ := arbWinner_eligible hwin
    exact ⟨hwait, helig, (s.chan n p).granted w (s.scEdge 0).time.up, exec_arbiterGrant_wins hn hp hup hgrant hdebug hres hbook hwin,
      rfl, rfl, rfl, rfl, hres⟩
  case resumes => exact fun g hres => ⟨_, exec_arbiterGrant_resumes hn hp hup hgrant hdebug hres, rfl, rfl, rfl⟩
  case debug =>
    exact fun w hdebug => ⟨_, exec_arbiterGrant_debug hn hp hup hdebug, rfl, rfl, Chan.debugged_resumed_free w _,
      fun g hgrant h2 hover => Chan.debugged_resumed_transfer w hgrant h2 hover⟩
  case booked =>
    exact fun idx fin hbook hmode => ⟨exec_bookedIntervalGrant_owner hn hp hup hbook hmode, exec_bookedIntervalGrant_fenced hn hp hup hbook⟩

end Sys2Proof.Machine
end

section
/-!
SUPPORT. The proofs of the statements of spec/08_fen_stacks_near_bank.md and spec/12_tile_grid.md about the fen accesses of tiles (R248, R322,
R335, R337) and the messages and booked transfers of the mesh (R327, R331, R333, R334, R355).
-/

namespace Sys2Proof.Machine

/-! ### A tile issues a fen access (R322, R335, R337) -/

theorem IssuesAt.tile_lt {s : State} {n w : Nat} (h : IssuesAt s n w) : n < 128 := h.1

theorem IssuesAt.rises {s : State} {n w : Nat} (h : IssuesAt s n w) : SMap.rises s.tiles 0 = true := h.2.1

/-- The ranges of a fen access are aligned, inside one frame of fen, and in the tile's reach (R337). -/
def FenOpFits (wr : Bool) (n f l len : Nat) : Prop :=
  inFen f = true ∧ f % 128 = 0 ∧ l % 128 = 0 ∧ f % 65536 + len ≤ 65536 ∧ (if wr then tileReads n l len else tileWrites n l len) = true

/-- The access that a fen instruction of tile `n` asks for. -/
def fenOpOf (wr : Bool) (f l len : Nat) (data : List Nat) : FenOp := { write := wr, fen := f, local_ := l, bytes := len, data := data }

/-- Tile `n` notes access `o`, goes on with its next word, and asks the channel of the access. -/
def fenAsk (n w : Nat) (o : FenOp) (u : State) : State :=
  fenRequest (issued (u.setTile n { u.tile n with fens := (u.tile n).fens ++ [o] }) n w stOK) (addrStack o.fen) (addrPc o.fen)
    (if o.write then 1 else 0) n o.bytes

/-- What asking leaves, with the tile's state before it written out. -/
theorem fenAsk_eq {u : State} {n : Nat} {y : Tile} (w : Nat) (o : FenOp) (hu : u.tile n = y) :
    fenAsk n w o u = fenRequest (issued (u.setTile n { y with fens := y.fens ++ [o] }) n w stOK) (addrStack o.fen) (addrPc o.fen)
      (if o.write then 1 else 0) n o.bytes := by
  subst hu
  rfl

theorem srcRead_waits {s : State} {n a len : Nat} (bad : Bool) (f : List Nat → State → State) (hport : portWaits s n a len = true) :
    srcRead s n a len bad f = portAsk s n := by simp only [srcRead, hport, if_true]

theorem srcRead_good {s : State} {n a len : Nat} (f : List Nat → State → State) (hport : portWaits s n a len = false) :
    srcRead s n a len false f = f (s.readBytes a len) (portLeave s n a len) := by
  simp only [srcRead, hport, Bool.false_eq_true, if_false]

theorem portLeave_tile (s : State) (n a len m : Nat) : (portLeave s n a len).tile m = s.tile m := by
  simp only [State.tile, portLeave_tiles]

theorem crownFull_noted (s : State) (n k p : Nat) : crownFull (s.noted n) k p = crownFull s k p := rfl

section
variable {n w op f l len : Nat} {s : State} {x : Tile} (h : IssuesAt s n w) (hx : x = s.tile n) (hop : w % 256 = op)
  (hf : f = x.gr (fA w)) (hl : l = x.gr (fB w)) (hlen : len = 128 * (fFn w + 1))
include h hx hop hf hl hlen

/-- An access out of alignment or of fen is refused. -/
theorem fenOp_malformed (wr : Bool) (hout : inFen f = false ∨ f % 128 ≠ 0 ∨ l % 128 ≠ 0 ∨ 65536 < f % 65536 + len) :
    fenOp n op wr s = .next (issued (s.noted n) n w stMALFORMED) := by
  have hok : (inFen f && decide (f % 128 = 0) && decide (l % 128 = 0) && decide (f % 65536 + len ≤ 65536)
      && (if wr then tileReads n l len else tileWrites n l len)) = false := by
    rcases hout with hout | hout | hout | hout
    · simp [hout]
    · simp [hout]
    · simp [hout]
    · simp [Nat.not_le.mpr hout]
  simp only [fenOp, Nat.mod_eq_of_lt h.tile_lt, issue_runs s n w op _ h hop, State.noted_tile s n h.rises, ← hx, Tile.gr_noted, ← hf, ← hl, ← hlen,
    hok, Bool.not_false, if_true]

section
variable {wr : Bool} (hfits : FenOpFits wr n f l len)
include hfits

/-- A fitting access that a router or a full crown queue bars is issued again. -/
theorem fenOp_stalls (hstall : routeBlocked s n (128 + addrStack f) = true ∨ crownFull s (addrStack f) (addrPc f) = true) :
    fenOp n op wr s = .next s := by
  obtain ⟨hfen, hf128, hl128, hend, hreach⟩ := hfits
  have hbar : (routeBlocked s n (128 + addrStack f) || crownFull s (addrStack f) (addrPc f)) = true := Bool.or_eq_true_iff.mpr hstall
  simp only [fenOp, Nat.mod_eq_of_lt h.tile_lt, issue_runs s n w op _ h hop, State.noted_tile s n h.rises, ← hx, Tile.gr_noted, ← hf, ← hl, ← hlen,
    hfen, hf128, hl128, hend, hreach, routeBlocked_noted s n _ _ h.rises, crownFull_noted, hbar]
  rfl

variable (hroute : routeBlocked s n (128 + addrStack f) = false) (hroom : crownFull s (addrStack f) (addrPc f) = false)
include hroute hroom

/-- A fitting access that nothing bars asks its channel, a write once it has read its source. -/
theorem fenOp_unbarred : fenOp n op wr s = .next (
    if wr then srcRead (s.noted n) n l len false fun data => fenAsk n w (fenOpOf wr f l len data)
    else fenAsk n w (fenOpOf wr f l len []) (s.noted n)) := by
  obtain ⟨hfen, hf128, hl128, hend, hreach⟩ := hfits
  simp only [fenOp, Nat.mod_eq_of_lt h.tile_lt, issue_runs s n w op _ h hop, State.noted_tile s n h.rises, ← hx, Tile.gr_noted, ← hf, ← hl, ← hlen,
    hfen, hf128, hl128, hend, hreach, routeBlocked_noted s n _ _ h.rises, crownFull_noted, hroute, hroom, readBad_plain n h.tile_lt,
    fenAsk_eq _ _ (State.noted_tile s n h.rises)]
  rfl

end
end

section
variable {n w op f l len : Nat} {s : State} {x : Tile} (h : IssuesAt s n w) (hx : x = s.tile n) (hop : w % 256 = op)
  (hf : f = x.gr (fA w)) (hl : l = x.gr (fB w)) (hlen : len = 128 * (fFn w + 1))
include h hx hop hf hl hlen

/-- A write whose bytes lie in a busy partner's slice waits for port B. -/
theorem fenOp_waitsForPort (hfits : FenOpFits true n f l len) (hroute : routeBlocked s n (128 + addrStack f) = false)
    (hroom : crownFull s (addrStack f) (addrPc f) = false) (hport : portWaits s n l len = true) :
    fenOp n op true s = .next (portAsk (s.noted n) n) := by
  rw [fenOp_unbarred h hx hop hf hl hlen hfits hroute hroom, if_pos rfl, srcRead_waits _ _ ((portWaits_noted s n l len).trans hport)]

theorem fenOp_asks {wr : Bool} (hfits : FenOpFits wr n f l len) (hroute : routeBlocked s n (128 + addrStack f) = false)
    (hroom : crownFull s (addrStack f) (addrPc f) = false) (hport : wr = true → portWaits s n l len = false) :
    fenOp n op wr s = .next (fenAsk n w (fenOpOf wr f l len (if wr then s.readBytes l len else []))
      (if wr then portLeave (s.noted n) n l len else s.noted n)) := by
  rw [fenOp_unbarred h hx hop hf hl hlen hfits hroute hroom]
  cases wr with
  | false => simp only [Bool.false_eq_true, if_false]
  | true =>
    have hfree : portWaits (s.noted n) n l len = false := (portWaits_noted s n l len).trans (hport rfl)
    simp only [if_true, srcRead_good _ hfree, readBytes_noted]

end

/-- The tile's state before it asks: its pc noted, whether or not it has let port B go. -/
theorem noted_tile_asking {s : State} {n : Nat} {x : Tile} (hrises : SMap.rises s.tiles 0 = true) (hx : x = s.tile n) (wr : Bool) (l len : Nat) :
    (if wr then portLeave (s.noted n) n l len else s.noted n).tile n = { x with lastPc := x.pc } := by
  subst hx
  cases wr with
  | false => rw [if_neg Bool.false_ne_true, s.noted_tile n hrises]
  | true => rw [if_pos rfl, portLeave_tile, s.noted_tile n hrises]

/-! ### A tile's fen access ends (R248, R335, R337) -/

/-- Access `i` of tile `n` has left its list with status `st`. -/
def State.fenEnded (s : State) (n i st : Nat) : State :=
  s.setTile n { s.tile n with fens := (s.tile n).fens.eraseIdx i, fenStat := st }

section
variable {n i : Nat} {s : State} {o : FenOp} (hn : n < 128) (ho : (s.tile n).fens[i]? = some o) (hdir : o.direct = false)
include hn ho hdir

/-- A reply waits behind an isolated router. -/
theorem exec_fenAccessComplete_barred (bad : Bool) (hroute : routeBlocked s (128 + addrStack o.fen) n = true) :
    exec (.fenAccessComplete n i bad) s = .next s := by
  simp only [exec, execFenAccessComplete, Nat.mod_eq_of_lt hn, ho, hdir, hroute]
  rfl

variable (hroute : routeBlocked s (128 + addrStack o.fen) n = false)
include hroute

theorem exec_fenAccessComplete_disabled (bad : Bool) (hen : s.en .fen (addrStack o.fen) = false) :
    exec (.fenAccessComplete n i bad) s = .next (s.fenEnded n i stMALFORMED) := by
  simp only [exec, execFenAccessComplete, Nat.mod_eq_of_lt hn, ho, hdir, hroute, hen]
  rfl

variable (hen : s.en .fen (addrStack o.fen) = true)
include hen

theorem exec_fenAccessComplete_unserved (bad : Bool) (hserved : fenServed s n i o = false) :
    exec (.fenAccessComplete n i bad) s = .next s := by
  simp only [exec, execFenAccessComplete, Nat.mod_eq_of_lt hn, ho, hdir, hroute, hen, hserved]
  rfl

variable (hserved : fenServed s n i o = true)
include hserved

/-- A read whose tile already asks for port B of its partner's slice waits on. -/
theorem exec_fenAccessComplete_portWait (bad : Bool) (hread : o.write = false) (hport : portWaits s n o.local_ o.bytes = true)
    (hasked : (s.pb (Nat.xor n 1)).waiting.any (·.src == n) = true) : exec (.fenAccessComplete n i bad) s = .next s := by
  simp only [exec, execFenAccessComplete, Nat.mod_eq_of_lt hn, ho, hdir, hroute, hen, hserved, hread, hport, hasked]
  rfl

variable (hfail : o.failed = false)
include hfail

theorem exec_fenAccessComplete_written (bad : Bool) (hwrite : o.write = true) :
    exec (.fenAccessComplete n i bad) s = .next ((s.fenEnded n i stOK).writeBytes o.fen o.data) := by
  simp only [exec, execFenAccessComplete, Nat.mod_eq_of_lt hn, ho, hdir, hroute, hen, hserved, hwrite, hfail, Bool.not_true, Bool.and_false,
    Bool.false_and]
  rfl

variable (hread : o.write = false) (hport : portWaits s n o.local_ o.bytes = false)
include hread hport

theorem exec_fenAccessComplete_read (hst : (s.tile n).st = .running) : exec (.fenAccessComplete n i false) s =
    .next (portLeave ((s.fenEnded n i stOK).writeBytes o.local_ ((s.fenEnded n i stOK).readBytes o.fen o.bytes)) n o.local_ o.bytes) := by
  have hon : ¬ ((s.tile n).st = .isolated ∨ (s.tile n).st = .stopped ∨ (s.tile n).st = .faulted) := by simp [hst]
  simp only [exec, execFenAccessComplete, Nat.mod_eq_of_lt hn, ho, hdir, hroute, hen, hserved, hread, hport, hfail, if_neg hon]
  rfl

/-- Data for a tile that no longer runs is discarded. -/
theorem exec_fenAccessComplete_discarded (hst : (s.tile n).st = .isolated ∨ (s.tile n).st = .stopped ∨ (s.tile n).st = .faulted) :
    exec (.fenAccessComplete n i false) s = .next (mshDiscard (s.fenEnded n i stOK)) := by
  simp only [exec, execFenAccessComplete, Nat.mod_eq_of_lt hn, ho, hdir, hroute, hen, hserved, hread, hport, hfail, if_pos hst]
  rfl

/-- Uncorrectable data is recorded and stored nowhere. -/
theorem exec_fenAccessComplete_uncorrectable : exec (.fenAccessComplete n i true) s =
    .next ((fenFault s (addrStack o.fen) o.fen 0).setTile n { s.tile n with fens := (s.tile n).fens.eraseIdx i, fenStat := stCRC }) := by
  simp only [exec, execFenAccessComplete, Nat.mod_eq_of_lt hn, ho, hdir, hroute, hen, hserved, hread, hport, hfail]
  rfl

end

/-! ### The ejection port of a tile (R327, R331, R333) -/

section
variable {n pick k : Nat} {s : State} {x : Tile} {m : Msg} (seen : Option (List Nat)) (hn : n < 128) (hx : x = s.tile n)
  (hk : k = if x.hold.isSome then 0 else pick) (hm : x.eject[k]? = some m)
include hn hx hk hm

theorem exec_messageEject_stays (h : x.st = .isolated ∨ (x.eject.take k).any (·.src == m.src) = true) :
    exec (.messageEject n ⟨pick, seen⟩) s = .next s := by
  simp only [exec, execMessageEject, Nat.mod_eq_of_lt hn, ← hx, ← hk, hm, if_pos h]

variable (hst : x.st ≠ .isolated) (hfirst : (x.eject.take k).any (·.src == m.src) = false)
include hst hfirst

/-- A message with a bad flit is discarded. -/
theorem exec_messageEject_poisoned (hbad : poisoned seen = true) : exec (.messageEject n ⟨pick, seen⟩) s =
    .next (crcDiscard (s.setTile n { x with eject := x.eject.eraseIdx k, hold := none }) m.src n n) := by
  simp only [exec, execMessageEject, Nat.mod_eq_of_lt hn, ← hx, ← hk, hm, hst, hfirst, hbad, Bool.false_eq_true, or_self, if_false, if_true]

variable (hgood : poisoned seen = false)
include hgood

theorem exec_messageEject_noRing (hring : ringOf n x m.chan = none) : exec (.messageEject n ⟨pick, seen⟩) s =
    .next (rxDrop (s.setTile n { x with eject := x.eject.eraseIdx k, hold := none }) n) := by
  simp only [exec, execMessageEject, Nat.mod_eq_of_lt hn, ← hx, ← hk, hm, hst, hfirst, hgood, hring, Bool.false_eq_true, or_self, if_false]

variable {z wr rd : Nat} {rs : List Nat} (hring : ringOf n x m.chan = some z) (hwr : wr = SMap.get x.chWr 0 m.chan)
  (hrd : rd = SMap.get x.chRd 0 m.chan) (hrs : rs = SMap.get x.recs [] m.chan)
include hring hwr hrd hrs

/-- A message that ring and records have room for goes into the ring with its record. -/
theorem exec_messageEject_stored (hroom : (wr + 2 ^ 64 - rd) % 2 ^ 64 + flits m.data.length ≤ 2 ^ z) (hrecs : rs.length < 64) :
    exec (.messageEject n ⟨pick, seen⟩) s =
      .next ((ringWrite (s.setTile n { x with eject := x.eject.eraseIdx k, hold := none }) (SMap.get x.chBase 0 m.chan) z wr m.data).setTile n
        { x with eject := x.eject.eraseIdx k, hold := none, chWr := SMap.set x.chWr 0 m.chan ((wr + flits m.data.length) % 2 ^ 64)
                 recs := SMap.set x.recs [] m.chan (rs ++ [recWord (64 * (wr % 2 ^ z)) (flits m.data.length) m.src m.tag]) }) := by
  have hfits : ¬ (2 ^ z < (wr + 2 ^ 64 - rd) % 2 ^ 64 + flits m.data.length ∨ 64 ≤ rs.length) := by omega
  simp only [exec, execMessageEject, Nat.mod_eq_of_lt hn, ← hx, ← hk, hm, hst, hfirst, hgood, hring, ← hwr, ← hrd, ← hrs, if_neg hfits,
    Bool.false_eq_true, or_self, if_false]

/-- A message without room stays, first at the port, which it holds. -/
theorem exec_messageEject_holds (hfull : 2 ^ z < (wr + 2 ^ 64 - rd) % 2 ^ 64 + flits m.data.length ∨ 64 ≤ rs.length) :
    exec (.messageEject n ⟨pick, seen⟩) s =
      .next (s.setTile n { x with eject := m :: x.eject.eraseIdx k, hold := some (x.hold.getD s.time.up) }) := by
  simp only [exec, execMessageEject, Nat.mod_eq_of_lt hn, ← hx, ← hk, hm, hst, hfirst, hgood, hring, ← hwr, ← hrd, ← hrs, if_pos hfull,
    Bool.false_eq_true, or_self, if_false]

end

section
variable {n : Nat} {s : State} (hn : n < 128)
include hn

theorem exec_ejectionTimeout_dropped {h : Nat} (hhold : (s.tile n).hold = some h) (hold : h + 16384 ≤ s.time.up) :
    exec (.ejectionTimeout n) s = .next (rxDrop (s.setTile n { s.tile n with eject := (s.tile n).eject.tail, hold := none }) n) := by
  simp only [exec, execEjectionTimeout, Nat.mod_eq_of_lt hn, hhold, if_neg (Nat.not_lt.mpr hold)]

theorem exec_ejectionTimeout_young {h : Nat} (hhold : (s.tile n).hold = some h) (hyoung : s.time.up < h + 16384) :
    exec (.ejectionTimeout n) s = .next s := by
  simp only [exec, execEjectionTimeout, Nat.mod_eq_of_lt hn, hhold, if_pos hyoung]

theorem exec_ejectionTimeout_free (hhold : (s.tile n).hold = none) : exec (.ejectionTimeout n) s = .next s := by
  simp only [exec, execEjectionTimeout, Nat.mod_eq_of_lt hn, hhold]

end

/-! ### Booked transfers on VC0 (R331, R334) -/

section
variable {src dst addr : Nat} {data : List Nat} {seen : Option (List Nat)} {s : State}

theorem exec_vc0DirectWrite_off (hup : s.up .msh 0 = false) : exec (.vc0DirectWrite src dst addr data seen) s = .next s := by
  simp only [exec, execVc0DirectWrite, hup]
  rfl

variable (hup : s.up .msh 0 = true)
include hup

/-- A transfer that a program has handed over comes first. -/
theorem exec_vc0DirectWrite_handed {y : Direct} (hy : s.direct.find? (fun y' => y'.src == src && y'.dst == dst) = some y) :
    exec (.vc0DirectWrite src dst addr data seen) s = .next (xferArrive { s with direct := s.direct.erase y } y false (poisoned seen)) := by
  simp only [exec, execVc0DirectWrite, hup, hy]
  rfl

/-- Else the plan's next transfer between the two ends is sent. -/
theorem exec_vc0DirectWrite_planned {x : Xfer} (hnone : s.direct.find? (fun y' => y'.src == src && y'.dst == dst) = none)
    (hnext : nextXfer s src dst = some x) (hsrc : src < 136) (hfits : flits data.length ≤ x.flits) {u : State}
    (hu : u = s.ccTo (x.start + costMesh x.links.length (64 * x.flits))) :
    exec (.vc0DirectWrite src dst addr data seen) s = .next (xferArrive (xferSent u x)
      ⟨src, dst, if dst < 128 then xferAddr u x else addr, data.map (· % 256), x.start, x.slot⟩ true (poisoned seen)) := by
  simp only [exec, execVc0DirectWrite, hup, hnone, hnext, ← hu, if_neg (Nat.not_le.mpr hsrc), if_pos hfits]
  rfl

end

/-- A direct write inside a tile's gather buffer stores its bytes. -/
theorem xferArrive_gather {s : State} {y : Direct} (v : Bool) (hdst : y.dst < 128) (hlo : gatherBase y.dst ≤ y.addr)
    (hhi : y.addr + y.data.length ≤ gatherBase y.dst + 0x180000) : xferArrive s y v false = s.writeBytes y.addr y.data := by
  simp only [xferArrive, directWrite, if_pos hdst, if_pos (And.intro hlo hhi), Bool.false_eq_true, if_false]

/-! ### A router's watchdog (R355) -/

theorem exec_routerWatchdogBite_stuck {s : State} {r n : Nat} {m : Msg} (hr : r < 128)
    (hstuck : s.tiles.findSome? (fun kv => (kv.2.eject.find? fun m => decide (m.since + 65536 ≤ s.time.up)
      && (routeRouters m.src m.dst ⟨true, none⟩).contains r).map fun m => (kv.1, m)) = some (n, m)) :
    exec (.routerWatchdogBite r) s = .next (event0 (fault ((s.setTile n { s.tile n with
      eject := (s.tile n).eject.erase m, hold := if (s.tile n).eject.head? = some m then none else (s.tile n).hold }).count Reg.MSH_WD_BITES)
      .msh 0 0x52 none (m.src % 256 + m.dst % 256 * 256) r) .msh 0 5) := by
  simp only [exec, execRouterWatchdogBite, Nat.mod_eq_of_lt hr, hstuck]

/-! ### The statement -/

/-- Settles O44: the issue and the end of a fen access, the ejection port, VC0 and the router watchdog, each by the cases of its command. -/
theorem tileFenAccessesAndMeshMessages : Obligations.TileFenAccessesAndMeshMessages := by
  refine ⟨⟨?issue, ?complete⟩, ?eject, ?vc0, fun s r n m hr => exec_routerWatchdogBite_stuck hr⟩
  case issue =>
    intro n w s x h hx f l len hf hl hlen
    refine ⟨fun wr hop hfen hf128 hl128 hend hreach => ?_, fun hop => fenOp_malformed h hx hop hf hl hlen false,
      fun hop => fenOp_malformed h hx hop hf hl hlen true⟩
    have hfits : FenOpFits wr n f l len := ⟨hfen, hf128, hl128, hend, hreach⟩
    have hcmd : exec (if wr then .fenwr n else .fenrd n) s = fenOp n (if wr then 0x45 else 0x44) wr s := by cases wr <;> rfl
    refine ⟨fun hstall => hcmd.trans (fenOp_stalls h hx hop hf hl hlen hfits hstall), fun hroute hroom => ?_⟩
    refine ⟨fun hwr hport => ?_, fun hport => ⟨_, _, rfl, rfl, ?_⟩⟩
    · subst hwr
      exact hcmd.trans (fenOp_waitsForPort h hx hop hf hl hlen hfits hroute hroom hport)
    · rw [hcmd, fenOp_asks h hx hop hf hl hlen hfits hroute hroom hport, fenAsk_eq w _ (noted_tile_asking h.rises hx wr l len)]
      rfl
  case complete =>
    intro n i s o done hn ho hfail hdir hdone
    refine ⟨fun bad => exec_fenAccessComplete_barred hn ho hdir bad, fun hroute => ⟨fun bad hen => ?_, fun hen =>
      ⟨fun bad => exec_fenAccessComplete_unserved hn ho hdir hroute hen bad, fun hserved => ⟨fun bad hwrite => ?_,
        fun bad hread hport => exec_fenAccessComplete_portWait hn ho hdir hroute hen hserved bad hread hport, fun hread hport => ⟨fun hst => ?_,
          fun hst => ?_, _, exec_fenAccessComplete_uncorrectable hn ho hdir hroute hen hserved hfail hread hport, rfl⟩⟩⟩⟩⟩
    · rw [exec_fenAccessComplete_disabled hn ho hdir hroute bad hen, hdone]
      rfl
    · rw [exec_fenAccessComplete_written hn ho hdir hroute hen hserved hfail bad hwrite, hdone]
      rfl
    · rw [exec_fenAccessComplete_read hn ho hdir hroute hen hserved hfail hread hport hst, hdone]
      rfl
    · rw [exec_fenAccessComplete_discarded hn ho hdir hroute hen hserved hfail hread hport hst, hdone]
      rfl
  case eject =>
    rintro n s x hn hx
    refine ⟨?_, fun h hhold => ?_, fun hhold => exec_ejectionTimeout_free hn (hx ▸ hhold)⟩
    · rintro pick seen k m _ hk hm rfl
      refine ⟨exec_messageEject_stays seen hn hx hk hm, ?_⟩
      rintro hst hfirst _ rfl
      exact ⟨exec_messageEject_poisoned seen hn hx hk hm hst hfirst, exec_messageEject_noRing seen hn hx hk hm hst hfirst,
        fun hgood z wr rd rs hring hwr hrd hrs => ⟨exec_messageEject_stored seen hn hx hk hm hst hfirst hgood hring hwr hrd hrs,
          exec_messageEject_holds seen hn hx hk hm hst hfirst hgood hring hwr hrd hrs⟩⟩
    · subst hx
      exact ⟨exec_ejectionTimeout_dropped hn hhold, exec_ejectionTimeout_young hn hhold⟩
  case vc0 =>
    intro s src dst addr data seen
    exact ⟨exec_vc0DirectWrite_off, fun hup => ⟨fun y => exec_vc0DirectWrite_handed hup,
      fun hnone x hnext hsrc hfits u hu => exec_vc0DirectWrite_planned hup hnone hnext hsrc hfits hu⟩, fun y v => rfl,
      fun y v => xferArrive_gather v⟩

end Sys2Proof.Machine
end

section
/-!
SUPPORT. The proof of the statement of spec/09_memory_tiers.md about the migrator's orders, moves and fetches, and the PCIe links and
drives (R258 to R263, R267 to R273, R279).
-/

namespace Sys2Proof.Machine

/-! ### Orders (R258 to R260) -/

section
variable {s : State} {o : Order} (ho : nextOrder s = some o)
include ho

/-- An order whose op is MOVE, or none of the legal ones, is MOVE's alone (R258). -/
theorem exec_order_move (h2 : o.op ≠ 2) (h3 : o.op ≠ 3) :
    exec .move s = .next (orderTake s o) ∧ exec .moveLane s = .next s ∧ exec .setHint s = .next s := by
  simp [exec, execMove, execMoveLane, execSetHint, ho, h2, h3]

theorem exec_order_moveLane (h2 : o.op = 2) :
    exec .moveLane s = .next (orderTake s o) ∧ exec .move s = .next s ∧ exec .setHint s = .next s := by
  simp [exec, execMove, execMoveLane, execSetHint, ho, h2]

theorem exec_order_setHint (h3 : o.op = 3) :
    exec .setHint s = .next (orderTake s o) ∧ exec .move s = .next s ∧ exec .moveLane s = .next s := by
  simp [exec, execMove, execMoveLane, execSetHint, ho, h3]

end

theorem exec_order_none {s : State} (ho : nextOrder s = none) :
    exec .move s = .next s ∧ exec .moveLane s = .next s ∧ exec .setHint s = .next s := by
  simp [exec, execMove, execMoveLane, execSetHint, ho]

section
variable {s : State} {o : Order}

/-- An order that passes its checks starts with the list of its pages (R259). -/
theorem orderTake_starts (hreset : resetting s (hPart o.handle) = false) (hok : orderCheck s o = stOK) :
    orderTake s o = movesGo { s with frm := { s.frm with order := some { o with todo := orderPages s (s.ctxAt (hSlot o.handle)) o } } } := by
  simp [orderTake, hreset, hok]

/-- An order that fails a check ends with that check's status (R259). -/
theorem orderTake_refused (hreset : resetting s (hPart o.handle) = false) (hbad : orderCheck s o ≠ stOK) :
    orderTake s o = orderEnd { s with frm := { s.frm with order := some o } } (orderCheck s o) := by
  simp [orderTake, hreset, hbad]

/-- An order of a partition in reset ends at once, whatever its checks say (R259). -/
theorem orderTake_partReset (hreset : resetting s (hPart o.handle) = true) :
    orderTake s o = orderEnd { s with frm := { s.frm with order := some o } } stPART_RESET := by
  have hst : stPART_RESET ≠ stOK := by decide
  simp [orderTake, hreset, hst]

end

/-- Once an order has ended none is in progress (R260). -/
theorem orderEnd_order (s : State) (status : Nat) : (orderEnd s status).frm.order = none := by
  cases ho : s.frm.order with
  | none => simp [orderEnd, ho]
  | some o => simp [orderEnd, ho]

/-! ### Moves (R261 to R263, R267, R271) -/

section
variable {s : State} {m : Move} {frame : Nat} (hm : s.frm.moves.find? (fun m => m.src == frame && m.stage == 0) = some m)
  (hen : s.en .frm 0 = true) (hfree : copyWaits s m = false)
include hm hen hfree

/-- A copy into peat or fen moves the whole frame, and waits for the boundary (R261). -/
theorem exec_migrationCopyDone_copied {u : State} (hin : m.target ≤ 1)
    (hu : u = memRelease (memRelease s (s.frAddr m.src) (1024 + frame)) (s.frAddr m.dst) (1024 + frame)) :
    exec (.migrationCopyDone frame false) s = .next (moveStage (copyLoc u (u.loc frame) (u.loc m.dst)) frame 0 1) := by
  subst hu
  have hnot : ¬ 2 ≤ m.target := by omega
  simp [exec, execMigrationCopyDone, hm, hen, hfree, hnot]

/-- A page that leaves the package has been read, and is sent (R261, R267, R271). -/
theorem exec_migrationCopyDone_sent (hout : 2 ≤ m.target) :
    exec (.migrationCopyDone frame false) s = .next (moveSend (memRelease s (s.frAddr m.src) (1024 + frame)) m) := by
  simp [exec, execMigrationCopyDone, hm, hen, hfree, hout]

/-- An uncorrectable error stops the move (R263, R511). -/
theorem exec_migrationCopyDone_bad : exec (.migrationCopyDone frame true) s =
    .next (moveFail (fault (memUncorr s (s.frAddr frame) 3) .frm 0 0x21 none frame (s.frAddr frame % 2 ^ 32)) m stCRC) := by
  simp [exec, execMigrationCopyDone, hm, hen, hfree]

end

/-! ### Fetches (R273) -/

section
variable {s : State} {f : Fetch} {bs : List Nat} {frame : Nat}
  (hf : s.frm.fetches.find? (fun f => f.frame == frame && f.data.isSome && !f.ready) = some f) (hen : s.en .frm 0 = true)
  (hserved : memWaiting s (s.frAddr frame) (1024 + frame) = 0)
include hf hen hserved

/-- A page that has arrived stands in its zeroed frame and, with a good header, is ready for the boundary (R273). -/
theorem exec_fetchReadDone_ready {v u : State} (hdata : f.data = some bs) (hv : v = memRelease s (s.frAddr frame) (1024 + frame))
    (hu : u = (zeroLoc v (v.loc frame)).writeBytes (v.frAddr frame) bs) (hgood : pageCheck (frameReader u frame) (u.ctxAt f.slot).geo = 0) :
    exec (.fetchReadDone frame false) s = .next { u with frm := { u.frm with
      fetches := u.frm.fetches.map fun x => if x = f then { x with data := none, ready := true } else x } } := by
  subst hu hv
  simp only [exec, execFetchReadDone, hf, hen, hserved, hdata, Option.getD_some, hgood]
  rfl

theorem exec_fetchReadDone_bad : exec (.fetchReadDone frame true) s = .next (fetchesBegin (fetchFail s f stCRC)) := by
  simp [exec, execFetchReadDone, hf, hen, hserved]

end

/-! ### Links (R267, R269) -/

/-- A link of a port that is on, given by its bifurcation and enabled, shows its speed, its width and its drive (R269). -/
theorem exec_pciLinkUp_shown {s : State} {port link speed width : Nat} (hport : port < 2) (hspeed : speed < 8) (hwidth : width < 32)
    (hlink : link < linkCount (SMap.get s.bifurc 0 port)) (hup : s.up .pci port = true) (hen : s.bit (Reg.PCI_LINK_CTL port) (4 + link) = true) :
    exec (.pciLinkUp port link speed width) s =
      .next (event0 (s.setRg (Reg.PCI_LINK_STAT port link) (1 + speed * 2 + width * 16 + 512)) .pci port 3) := by
  simp [exec, execPciLinkUp, Nat.mod_eq_of_lt hport, Nat.mod_eq_of_lt hspeed, Nat.mod_eq_of_lt hwidth, hlink, hup, hen]

theorem exec_pciLinkDown_fell {s : State} {port link : Nat} (present : Bool) (hport : port < 2) (hlink : link < 4)
    (hup : s.bit (Reg.PCI_LINK_STAT port link) 0 = true) : exec (.pciLinkDown port link present) s = .next (linkDown s port link present) := by
  simp [exec, execPciLinkDown, Nat.mod_eq_of_lt hport, Nat.mod_eq_of_lt hlink, hup]

/-- With no drive command in flight a link that falls fails none (R269). -/
theorem linkDown_idle {s : State} (port link : Nat) (present : Bool) (hdrive : s.drive = []) : linkDown s port link present =
    event0 (s.setRg (Reg.PCI_LINK_STAT port link) (if present then 512 else 0)) .pci port 5 :=
  linkDown_none _ (fun s d => driveEnd (s.count (Reg.PCI_ERR_UNCORR port)) d false []) port link (by simpa using hdrive)

/-! ### Drive commands (R267, R269, R279) -/

section
variable {s u : State} {k : DriveCmd} {i n : Nat} {data : List Nat} (hk : s.drive[i]? = some k) (hdata : ∀ x ∈ data, x < 256)
  (hu : u = { s with drive := s.drive.eraseIdx i }.countBy (Reg.PCI_ERR_CORR k.port) n)
include hk hdata hu

theorem exec_driveCommandComplete_good : exec (.driveCommandComplete i true ⟨data, n⟩) s = .next (driveEnd u k true data) := by
  simp only [exec, execDriveCommandComplete, hk, map_byte hdata, hu, if_true]

/-- A failed command is counted and raises event 4 (R269). -/
theorem exec_driveCommandComplete_failed : exec (.driveCommandComplete i false ⟨data, n⟩) s =
    .next (driveEnd (event0 (u.count (Reg.PCI_ERR_UNCORR k.port)) .pci k.port 4) k false data) := by
  simp only [exec, execDriveCommandComplete, hk, map_byte hdata, hu, Bool.false_eq_true, if_false]

end

/-! ### The statement -/

/-- Settles O30: the taking and ending of orders, the ends of copies and fetches, and the links and drives, each by the rule of its command. -/
theorem migratorAndDrivesMoveAndReport : Obligations.MigratorAndDrivesMoveAndReport := by
  refine ⟨⟨fun s o ho => ⟨exec_order_move ho, exec_order_moveLane ho, exec_order_setHint ho, orderTake_starts, orderTake_refused,
    orderTake_partReset⟩, fun s => exec_order_none, orderEnd_order⟩, fun s frame => ⟨?moves, rfl, ?fetches⟩, fun s => ⟨?linkUp, ?linkDown, ?drives⟩⟩
  case moves =>
    exact fun m hm hen hfree => ⟨fun hin u => exec_migrationCopyDone_copied hm hen hfree hin, exec_migrationCopyDone_sent hm hen hfree,
      exec_migrationCopyDone_bad hm hen hfree⟩
  case fetches =>
    exact fun f bs hf hen hdata hserved => ⟨fun v u => exec_fetchReadDone_ready hf hen hserved hdata, exec_fetchReadDone_bad hf hen hserved⟩
  case linkUp =>
    exact fun port link speed width hport hlink hspeed hwidth => exec_pciLinkUp_shown hport hspeed hwidth hlink
  case linkDown =>
    exact fun port link present hport hlink hup => ⟨exec_pciLinkDown_fell present hport hlink hup, linkDown_idle port link present⟩
  case drives =>
    exact fun i k data n u hk hdata hu => ⟨exec_driveCommandComplete_good hk hdata hu, exec_driveCommandComplete_failed hk hdata hu⟩

end Sys2Proof.Machine
end

section
/-!
SUPPORT. The proof of the statement of spec/10_trowel_dma.md about the Trowel channels: starts, fetches, aborts, blocked partitions, bursts
and feeds (R284, R287, R289, R291 to R293, R296).
-/

namespace Sys2Proof.Machine

/-! ### Starts, aborts and blocked partitions (R289, R291, R292) -/

/-- A channel that does not run has no burst boundary to stop at (R291). -/
theorem trwStop_notRunning {s : State} {e c : Nat} (status : Nat) (hst : (s.trwCh e c).st ≠ .run) : trwStop s e c status = s := by
  simp only [trwStop, ne_eq, hst, not_false_eq_true, if_true]

section
variable {e c : Nat} {s : State} (he : e < 4)
include he

theorem exec_trwStart_off (hup : s.up .trw e = false) : exec (.trwStart e c) s = .next s := by
  simp only [exec, execTrwStart, Nat.mod_eq_of_lt he, hup, Bool.not_false, if_true]

theorem exec_trwPblockWrite (parts : Nat) :
    exec (.trwPblockWrite e parts) s = .next (trwBlock (s.setRg64 (Reg.TRW_PBLOCK_LO e) parts) e) := by
  simp only [exec, execTrwPblockWrite, Nat.mod_eq_of_lt he]

theorem exec_trwPblockWrite_idle (parts : Nat) (hidle : ∀ k, (s.trwCh e k).st ≠ .run) :
    exec (.trwPblockWrite e parts) s = .next (s.setRg64 (Reg.TRW_PBLOCK_LO e) parts) := by
  rw [exec_trwPblockWrite he, trwBlock_idle e (s.setRg64 _ parts) hidle]

variable (hc : c < 8)
include hc

theorem exec_trwStart_resting (hup : s.up .trw e = true) (hst : (s.trwCh e c).st = .idle ∨ (s.trwCh e c).st = .halted) :
    exec (.trwStart e c) s = .next (trwBegin s e c) := by
  simp only [exec, execTrwStart, Nat.mod_eq_of_lt he, Nat.mod_eq_of_lt hc, hup]
  rcases hst with hst | hst <;> simp [hst]

theorem exec_trwStart_busy (hup : s.up .trw e = true) (hst : (s.trwCh e c).st = .fetch ∨ (s.trwCh e c).st = .run) :
    exec (.trwStart e c) s = .next (s.setTrwCh e c { s.trwCh e c with startAt := s.time.up + 1 }) := by
  simp only [exec, execTrwStart, Nat.mod_eq_of_lt he, Nat.mod_eq_of_lt hc, hup]
  rcases hst with hst | hst <;> simp [hst]

theorem exec_trwAbort_fetching (hst : (s.trwCh e c).st = .fetch) :
    exec (.trwAbort e c) s = .next (s.setTrwCh e c { s.trwCh e c with abort := true }) := by
  simp only [exec, execTrwAbort, trwAbort, Nat.mod_eq_of_lt he, Nat.mod_eq_of_lt hc, hst, if_true]

theorem exec_trwAbort_notFetching (hst : (s.trwCh e c).st ≠ .fetch) :
    exec (.trwAbort e c) s = .next (trwStop s e c stCANCELLED) := by
  simp only [exec, execTrwAbort, trwAbort, Nat.mod_eq_of_lt he, Nat.mod_eq_of_lt hc, if_neg hst]

/-! ### The end of a descriptor's fetch (R284, R289) -/

theorem exec_descriptorFetch_notFetching (bad : Bool) (hst : (s.trwCh e c).st ≠ .fetch) : exec (.descriptorFetch e c bad) s = .next s := by
  simp only [exec, execDescriptorFetch, Nat.mod_eq_of_lt he, Nat.mod_eq_of_lt hc, ne_eq, hst, not_false_eq_true, if_true]

/-- A resting channel has nothing to abort and fetches nothing (R289, R291). -/
theorem resting_unmoved (hst : (s.trwCh e c).st = .idle ∨ (s.trwCh e c).st = .halted) :
    exec (.trwAbort e c) s = .next s ∧ ∀ bad, exec (.descriptorFetch e c bad) s = .next s := by
  have hfetch : (s.trwCh e c).st ≠ .fetch := by rcases hst with hst | hst <;> simp [hst]
  have hrun : (s.trwCh e c).st ≠ .run := by rcases hst with hst | hst <;> simp [hst]
  exact ⟨by rw [exec_trwAbort_notFetching he hc hfetch, trwStop_notRunning _ hrun],
    fun bad => exec_descriptorFetch_notFetching he hc bad hfetch⟩

section
variable (hst : (s.trwCh e c).st = .fetch)
include hst

/-- Check 1: the descriptor's address (R284). -/
theorem exec_descriptorFetch_misplaced (hplace : (s.trwCh e c).addr % 64 ≠ 0 ∨ inSram (s.trwCh e c).addr = false) (bad : Bool) :
    exec (.descriptorFetch e c bad) s = .next (trwHalt (s.setFld (Reg.TRW_CH_STAT e c) 15 8 stMALFORMED) e c stMALFORMED) := by
  have hbad : (s.trwCh e c).addr % 64 ≠ 0 ∨ ¬ inSram (s.trwCh e c).addr = true := by simpa using hplace
  simp only [exec, execDescriptorFetch, Nat.mod_eq_of_lt he, Nat.mod_eq_of_lt hc, hst, ne_eq, not_true_eq_false, if_false, if_pos hbad]

variable (halign : (s.trwCh e c).addr % 64 = 0) (hsram : inSram (s.trwCh e c).addr = true)
include halign hsram

/-- Check 1: the descriptor's read (R284). -/
theorem exec_descriptorFetch_uncorrectable : exec (.descriptorFetch e c true) s =
    .next (trwHalt ((uncorr s (s.trwCh e c).addr).setFld (Reg.TRW_CH_STAT e c) 15 8 stCRC) e c stCRC) := by
  simp [exec, execDescriptorFetch, Nat.mod_eq_of_lt he, Nat.mod_eq_of_lt hc, hst, halign, hsram]

variable {d : Desc} (hd : d = descAt s (s.trwCh e c).addr)
include hd

theorem exec_descriptorFetch_refused (hcheck : descCheck s e d ≠ stOK) : exec (.descriptorFetch e c false) s =
    .next (trwWriteBack (trwPut s e c { s.trwCh e c with d := d }) e c (descCheck s e d)) := by
  simp [exec, execDescriptorFetch, Nat.mod_eq_of_lt he, Nat.mod_eq_of_lt hc, hst, halign, hsram, ← hd, hcheck]

variable (hcheck : descCheck s e d = stOK)
include hcheck

/-- An abort that came during the fetch has waited for its end (R291). -/
theorem exec_descriptorFetch_aborted (habort : (s.trwCh e c).abort = true) : exec (.descriptorFetch e c false) s =
    .next (trwWriteBack (trwPut s e c { s.trwCh e c with d := d }) e c stCANCELLED) := by
  simp [exec, execDescriptorFetch, Nat.mod_eq_of_lt he, Nat.mod_eq_of_lt hc, hst, halign, hsram, ← hd, hcheck, habort]

theorem exec_descriptorFetch_runs (habort : (s.trwCh e c).abort = false) : exec (.descriptorFetch e c false) s =
    .next (trwSettle (trwIssue (trwPut (trwPut s e c { s.trwCh e c with d := d }) e c { s.trwCh e c with d := d, st := .run }) e c 2) e c) := by
  simp [exec, execDescriptorFetch, Nat.mod_eq_of_lt he, Nat.mod_eq_of_lt hc, hst, halign, hsram, ← hd, hcheck, habort]

end

/-! ### Bursts (R293, R296, R321) -/

section
variable {k a : Nat} {b : Burst} (hrun : (s.trwCh e c).st = .run) (hnvme : inNvme a = false)
include hrun hnvme

section
variable (ha : a = (s.trwCh e c).d.srcAt b.off)
  (hfind : (s.trwCh e c).bursts.find? (fun b => b.slot == k && b.data.isNone) = some b) (hserved : memWaiting s a (readSrc e c k) = 0)
include ha hfind hserved

theorem exec_trwBurstReadDone_good : exec (.trwBurstReadDone e ⟨c, k⟩ false) s =
    .next (trwShow (burstArrive (memRelease s a (readSrc e c k)) e c b.off ((memRelease s a (readSrc e c k)).readBytes a b.len)) e c) := by
  simp [exec, execTrwBurstReadDone, Nat.mod_eq_of_lt he, Nat.mod_eq_of_lt hc, hfind, ← ha, hrun, hnvme, hserved]

theorem exec_trwBurstReadDone_bad : exec (.trwBurstReadDone e ⟨c, k⟩ true) s =
    .next (burstEnd (fault (memUncorr (memRelease s a (readSrc e c k)) a 3) .trw e 0x38 none ((s.trwCh e c).addr % 2 ^ 32) c) e c b.off
      (some stCRC)) := by
  simp [exec, execTrwBurstReadDone, Nat.mod_eq_of_lt he, Nat.mod_eq_of_lt hc, hfind, ← ha, hrun, hnvme, hserved]

end

theorem exec_trwBurstWriteDone_stores {bs : List Nat} (ha : a = (s.trwCh e c).d.dstAt b.off)
    (hfind : (s.trwCh e c).bursts.find? (fun b => b.slot == k && b.data.isSome) = some b) (hdata : b.data = some bs)
    (hserved : memWaiting s a (writeSrc e c k) = 0) : exec (.trwBurstWriteDone e ⟨c, k⟩) s =
      .next (burstEnd (pathsWritten (memRelease s a (writeSrc e c k))
        (bs.zipIdx.foldl (fun u x => u.putByte ((s.trwCh e c).d.dstAt (b.off + x.2)) x.1) (memRelease s a (writeSrc e c k))) a bs.length)
        e c b.off none) := by
  simp [exec, execTrwBurstWriteDone, Nat.mod_eq_of_lt he, Nat.mod_eq_of_lt hc, hfind, hdata, ← ha, hrun, hnvme, hserved]

end

end

/-! ### Feeds (R287) -/

/-- The engine and the channel that a key of the channels' map names. -/
theorem channelKey_split {e c : Nat} (hc : c < 8) : (8 * e + c) / 8 = e ∧ (8 * e + c) % 8 = c := by omega

section
variable {r : Nat} {s u : State} {record : List Nat} {rest : List (List Nat)}

theorem feedTake_oldest (hfeed : SMap.get s.feeds [] r = record :: rest) (hu : u = { s with feeds := SMap.set s.feeds [] r rest }) :
    feedTake s r = some (record, u) := by
  simp only [feedTake, hfeed, hu]

variable (hr : r < 8)
include hr

theorem exec_feedRecord_empty (hfeed : SMap.get s.feeds [] r = []) : exec (.feedRecord r) s = .next s := by
  simp only [exec, execFeedRecord, feedTake, Nat.mod_eq_of_lt hr, hfeed]

variable (htake : feedTake s r = some (record, u))
include htake

theorem exec_feedRecord_unbound (hbound : feedChannel u (r + 1) = none) : exec (.feedRecord r) s = .next u := by
  simp only [exec, execFeedRecord, Nat.mod_eq_of_lt hr, htake, hbound]

section
variable {e c : Nat} (hc : c < 8) (hbound : feedChannel u (r + 1) = some (8 * e + c)) (hopen : trwAllIssued (u.trwCh e c) = false)
include hc hbound hopen

/-- Two bursts fill the channel's staging buffer (R296). -/
theorem exec_feedRecord_full (hfull : 2 ≤ (u.trwCh e c).bursts.length) :
    exec (.feedRecord r) s = .next (event0 (u.count (Reg.TRW_FEEDDROP e)) .trw e 5) := by
  obtain ⟨hdiv, hmod⟩ := channelKey_split (e := e) hc
  simp only [exec, execFeedRecord, Nat.mod_eq_of_lt hr, htake, hbound, hdiv, hmod, hopen, Bool.false_eq_true,
    if_false, if_pos hfull]

theorem exec_feedRecord_staged {n : Nat} (hfree : (u.trwCh e c).bursts.length < 2)
    (hlen : n = if (u.trwCh e c).d.len = 0 then 16 else min 16 ((u.trwCh e c).d.len - (u.trwCh e c).issued)) : exec (.feedRecord r) s =
      .next (burstArrive (u.setTrwCh e c { u.trwCh e c with
        issued := (u.trwCh e c).issued + n
        bursts := (u.trwCh e c).bursts ++ [⟨(u.trwCh e c).issued, n, none, (u.trwCh e c).freeSlot⟩] }) e c (u.trwCh e c).issued (record.take n)) := by
  obtain ⟨hdiv, hmod⟩ := channelKey_split (e := e) hc
  simp only [exec, execFeedRecord, Nat.mod_eq_of_lt hr, htake, hbound, hdiv, hmod, hopen, Bool.false_eq_true,
    if_false, if_neg (Nat.not_le.mpr hfree), ← hlen]

end

end

/-! ### The statement -/

/-- Settles O35: what a start, an abort and a fetch do by the channel's state, a burst by its slot, and a feed's record by the channel it is
bound to. -/
theorem trowelChannelsRunTheirDescriptors : Obligations.TrowelChannelsRunTheirDescriptors := by
  refine ⟨?channels, ?bursts, ?feeds⟩
  case channels =>
    rintro e c s t he hc rfl
    refine ⟨exec_trwStart_resting he hc, exec_trwStart_busy he hc, exec_trwStart_off he, fun hst => ⟨?misplaced, ?placed, ?aborted⟩,
      resting_unmoved he hc, fun hst => exec_trwAbort_notFetching he hc (by simp [hst]), exec_trwPblockWrite_idle he, exec_trwPblockWrite he⟩
    case misplaced => exact exec_descriptorFetch_misplaced he hc hst
    case placed =>
      exact fun halign hsram => ⟨exec_descriptorFetch_uncorrectable he hc hst halign hsram, fun d hd =>
        ⟨exec_descriptorFetch_refused he hc hst halign hsram hd, exec_descriptorFetch_aborted he hc hst halign hsram hd,
          exec_descriptorFetch_runs he hc hst halign hsram hd⟩⟩
    case aborted => exact exec_trwAbort_fetching he hc hst
  case bursts =>
    rintro e c k s t b he hc rfl hrun
    refine ⟨fun a ha hfind hnvme hserved => ⟨?good, ?bad⟩, fun a bs ha hfind hdata hnvme hserved => ?written⟩
    case good => exact exec_trwBurstReadDone_good he hc hrun hnvme ha hfind hserved
    case bad => exact exec_trwBurstReadDone_bad he hc hrun hnvme ha hfind hserved
    case written => exact exec_trwBurstWriteDone_stores he hc hrun hnvme ha hfind hdata hserved
  case feeds =>
    refine fun r s hr => ⟨exec_feedRecord_empty hr, fun record rest u hfeed hu => ?taken⟩
    have htake := feedTake_oldest hfeed hu
    refine ⟨exec_feedRecord_unbound hr htake, ?_⟩
    rintro e c t he hc hbound rfl hopen
    exact ⟨exec_feedRecord_full hr htake hc hbound hopen, fun n => exec_feedRecord_staged hr htake hc hbound hopen⟩

end Sys2Proof.Machine
end

section
/-!
SUPPORT. The proof of the statement of spec/11_prefix_index.md: what RIDDLE's command ports take, and how a lookup and a table change end
(R305 to R309, R312).
-/

namespace Sys2Proof.Machine

/-! ### Issues on a command port (R305, R307) -/

section
variable {s : State} {c len shared part : Nat}

/-- Operands as wide as their fields of RDL_OP_c are stored as they are (R316). -/
theorem rdlOpFields_inRange (s : State) (c : Nat) (hlen : len < 128) (hshared : shared < 2) (hpart : part < 64) :
    rdlOpFields s c len shared part = s.setRg (Reg.RDL_OP c) (len + shared * 128 + part * 256) := by
  rw [rdlOpFields, Nat.mod_eq_of_lt hlen, Nat.mod_eq_of_lt hshared, Nat.mod_eq_of_lt hpart]

theorem exec_rdlLookup_busy (hc : c < 4) (hbusy : rdlBusy s c = true) :
    exec (.rdlLookup c len shared part none) s = .next (rdlOpFields s c len shared part) := by
  simp only [exec, execRdlLookup, rdlBad, Nat.mod_eq_of_lt hc, hbusy, if_true]

theorem exec_rdlLookup_free {v : State} (hc : c < 4) (hpart : part < 64) (hfree : rdlBusy s c = false)
    (hv : v = ((rdlOpFields s c len shared part).count Reg.RDL_LOOKUPS).setFld (Reg.RDL_RES c) 8 8 1) :
    exec (.rdlLookup c len shared part none) s =
      .next { v with rdl := { v.rdl with looks := v.rdl.looks ++ [⟨c, rdlFind v (rdlKey v c) part, none, s.time.up⟩] } } := by
  simp only [exec, execRdlLookup, rdlBad, Nat.mod_eq_of_lt hc, Nat.mod_eq_of_lt hpart, hfree, Bool.false_eq_true, if_false, ← hv]

theorem exec_rdlInsert (s : State) (hc : c < 4) :
    exec (.rdlInsert c len shared part) s = .next (rdlIssue s c true len shared part) := by
  simp only [exec, execRdlInsert, Nat.mod_eq_of_lt hc]

theorem exec_rdlDelete (s : State) (hc : c < 4) :
    exec (.rdlDelete c len shared part) s = .next (rdlIssue s c false len shared part) := by
  simp only [exec, execRdlDelete, Nat.mod_eq_of_lt hc]

/-- INSERT and DELETE are one issue, apart from the kind of the command that joins the queue. -/
theorem exec_rdlChange (s : State) (hc : c < 4) (ins : Bool) :
    exec (if ins then .rdlInsert c len shared part else .rdlDelete c len shared part) s =
      .next (rdlIssue s c ins len shared part) := by
  cases ins with
  | true => exact exec_rdlInsert s hc
  | false => exact exec_rdlDelete s hc

theorem rdlIssue_busy (ins : Bool) (hbusy : rdlBusy s c = true) :
    rdlIssue s c ins len shared part = rdlOpFields s c len shared part := by
  simp only [rdlIssue, hbusy, if_true]

theorem rdlIssue_free {ins : Bool} {k : RdlCmd} {v w : State} (hlen : len < 128) (hshared : shared < 2) (hpart : part < 64)
    (hfree : rdlBusy s c = false) (hv : v = (rdlOpFields s c len shared part).setFld (Reg.RDL_RES c) 8 8 1)
    (hk : k = ⟨c, ins, part, rdlKey s c, len, shared == 1, s.rg (Reg.RDL_HANDLE c), s.fld (Reg.RDL_N c) 24 0,
      s.rg (Reg.RDL_CHECK c), s.time.up⟩)
    (hw : w = { v with rdl := { v.rdl with cmds := rdlQueue k v.rdl.cmds } }) :
    rdlIssue s c ins len shared part = if (rdlQueue k v.rdl.cmds).head? = some k then rdlBegin w s.time.up else w := by
  simp only [rdlIssue, hfree, Bool.false_eq_true, if_false, Nat.mod_eq_of_lt hlen, Nat.mod_eq_of_lt hshared,
    Nat.mod_eq_of_lt hpart, ← hk, ← hv, ← hw]

end

/-- Only a command of the same cc lets another in before it (R307). -/
theorem rdlQueue_append (k : RdlCmd) (q : List RdlCmd) (hq : ∀ x ∈ q, x.issued ≠ k.issued) : rdlQueue k q = q ++ [k] := by
  induction q with
  | nil => rfl
  | cons x r ih =>
    obtain ⟨hx, hr⟩ := List.forall_mem_cons.mp hq
    simp only [rdlQueue, hx, false_and, if_false, ih hr, List.cons_append]

/-! ### The end of a lookup (R305) -/

section
variable {s : State} {p : Nat} {l : RdlLook} (hlook : s.rdl.looks.find? (·.port == p) = some l)
include hlook

theorem exec_rdlLookupResult_due {u : State} (hclone : l.clone = none) (hdue : reachUp s (l.issued + 24) = some u) :
    exec (.rdlLookupResult p) s = .next (rdlLookEnd { u with rdl := { u.rdl with looks := u.rdl.looks.erase l } } l) := by
  simp only [exec, execRdlLookupResult, hlook, hdue, hclone]

theorem exec_rdlLookupResult_early (hearly : reachUp s (l.issued + 24) = none) : exec (.rdlLookupResult p) s = .next s := by
  simp only [exec, execRdlLookupResult, hlook, hearly]

end

theorem rdlLookEnd_miss (s : State) {l : RdlLook} (hmiss : l.found = none) :
    rdlLookEnd s l = rdlResult s l.port stOK false false 0 := by
  simp only [rdlLookEnd, hmiss]

/-! ### The end of a table change (R307, R309, R312) -/

section
variable {s : State} {k : RdlCmd} {r : List RdlCmd} {p : RdlPlan} {fin : Nat} (hcmds : s.rdl.cmds = k :: r) (hplan : s.rdl.plan = some p)
  (hfin : fin = s.rdl.start + rdlTime k p)
include hcmds hplan hfin

theorem exec_rdlCommandDone_due {u v : State} (hdue : reachUp s fin = some u)
    (hv : v = { u with rdl := { u.rdl with cmds := r, plan := none } }) :
    exec .rdlCommandDone s = .next (rdlBegin (if k.insert then rdlInsertEnd v k p else rdlDeleteEnd v k p) fin) := by
  simp only [exec, execRdlCommandDone, hcmds, hplan, ← hfin, hdue, ← hv]

theorem exec_rdlCommandDone_early (hearly : reachUp s fin = none) : exec .rdlCommandDone s = .next s := by
  simp only [exec, execRdlCommandDone, hcmds, hplan, ← hfin, hearly]

end

theorem exec_rdlCommandDone_idle {s : State} (hcmds : s.rdl.cmds = []) : exec .rdlCommandDone s = .next s := by
  simp only [exec, execRdlCommandDone, hcmds]

@[simp] theorem rdlResult_rdl (s : State) (c status : Nat) (hit replaced : Bool) (pos : Nat) :
    (rdlResult s c status hit replaced pos).rdl = s.rdl := rfl

theorem rdlDeleteEnd_absent_ents (s : State) (k : RdlCmd) {p : RdlPlan} (habsent : p.found = false) :
    (rdlDeleteEnd s k p).rdl.ents = s.rdl.ents := by
  simp only [rdlDeleteEnd, habsent, Bool.false_eq_true, not_false_eq_true, or_true, if_true, rdlResult_rdl]

/-! ### The statement -/

/-- Settles O36: an issue by whether its port is busy, the queue by the cc of its commands, and a lookup's and a table change's end by
whether its time has come. -/
theorem riddleTakesOneCommandPerPort : Obligations.RiddleTakesOneCommandPerPort := by
  intro s
  refine ⟨?issues, rdlQueue_append, ?lookups, ?changes, exec_rdlCommandDone_idle, fun k p => rdlDeleteEnd_absent_ents s k⟩
  case issues =>
    rintro c len shared part hc hlen hshared hpart u rfl
    rw [← rdlOpFields_inRange s c hlen hshared hpart]
    refine ⟨fun hbusy => ⟨exec_rdlLookup_busy hc hbusy, ?insertIgnored, ?deleteIgnored⟩,
      fun hfree => ⟨fun v => exec_rdlLookup_free hc hpart hfree, fun ins k v w hv hk hw => ?joins⟩⟩
    case insertIgnored => rw [exec_rdlInsert s hc, rdlIssue_busy true hbusy]
    case deleteIgnored => rw [exec_rdlDelete s hc, rdlIssue_busy false hbusy]
    case joins => rw [exec_rdlChange s hc, rdlIssue_free hlen hshared hpart hfree hv hk hw]
  case lookups =>
    exact fun p l hlook hclone => ⟨fun u => exec_rdlLookupResult_due hlook hclone, exec_rdlLookupResult_early hlook,
      fun hmiss u => rdlLookEnd_miss u hmiss⟩
  case changes =>
    exact fun k r p fin hcmds hplan hfin => ⟨fun u v => exec_rdlCommandDone_due hcmds hplan hfin,
      exec_rdlCommandDone_early hcmds hplan hfin⟩

end Sys2Proof.Machine
end

section
/-!
SUPPORT. The proofs of the statements of spec/12_tile_grid.md about the instructions that change one tile: scalar instructions (R342, R344),
branches, jumps and waits (R333, R342, R346), and vector instructions (R342, R343).
-/

namespace Sys2Proof.Machine

/-! ### Reading a register after a write (R339) -/

@[simp] theorem Tile.gr_step (x : Tile) (k : Nat) : x.step.gr k = x.gr k := rfl
@[simp] theorem Tile.vr_step (x : Tile) (k : Nat) : x.step.vr k = x.vr k := rfl
@[simp] theorem Tile.gr_setV (x : Tile) (d k : Nat) (v : List F32) : (x.setV d v).gr k = x.gr k := rfl

theorem Tile.gr_setG_same {x : Tile} (h : SMap.rises x.g 0 = true) (d v : Nat) :
    (x.setG d v).gr d = if d = 0 then 0 else v % 2 ^ 64 := by
  by_cases hd : d = 0
  · simp only [Tile.gr, hd, if_true]
  · simp only [Tile.gr, Tile.setG, if_neg hd, SMap.get_set_same x.g _ d _ 0 h, BitVec.toNat_ofNat]

theorem Tile.gr_setG_ne {x : Tile} (h : SMap.rises x.g 0 = true) {d e : Nat} (v : Nat) (he : e ≠ d) : (x.setG d v).gr e = x.gr e := by
  by_cases hd : d = 0
  · simp only [Tile.setG, hd, if_true]
  · simp only [Tile.gr, Tile.setG, if_neg hd, SMap.get_set_ne x.g _ _ d e _ he 0 h]

theorem Tile.vr_setV_same {x : Tile} (h : SMap.rises x.v 0 = true) (d : Nat) (v : List F32) : (x.setV d v).vr d = v :=
  SMap.get_set_same x.v zeroV d v 0 h

theorem Tile.vr_setV_ne {x : Tile} (h : SMap.rises x.v 0 = true) {d e : Nat} (v : List F32) (he : e ≠ d) : (x.setV d v).vr e = x.vr e :=
  SMap.get_set_ne x.v zeroV zeroV d e v he 0 h

/-! ### Scalar instructions (R342, R344) -/

/-- A scalar instruction whose result is written as the model computes it. -/
theorem scalarOp_gives {s : State} {n w op r : Nat} {x : Tile} {f : Tile → Nat → Nat} (h : IssuesAt s n w) (hx : x = s.tile n)
    (hop : w % 256 = op) (hf : f { x with lastPc := x.pc } w = r) :
    ∃ t, scalarOp n op f s = .next t ∧ TileRan s t n (x.setG (fD w) r).step :=
  scalar_runs s n w op f r x h hx hop (by rw [hf])

/-- SUB's result is written as a difference of integers, which is the spec's modulo 2^64. -/
theorem sub_runs {s : State} {n w : Nat} {x : Tile} (h : IssuesAt s n w) (hx : x = s.tile n) (hop : w % 256 = 0x02) :
    ∃ t, exec (.sub n) s = .next t ∧ TileRan s t n (x.setG (fD w) (x.gr (fA w) + 2 ^ 64 - x.gr (fB w))).step := by
  refine scalar_runs s n w 0x02 (fun t w => mod64 ((t.gr (fA w) : Int) - t.gr (fB w))) _ x h hx hop ?_
  simp only [Tile.gr_noted]
  exact mod64_sub _ _ (x.gr_lt _) (x.gr_lt _)

/-- Settles O37: each instruction is `scalarOp` of its result. -/
theorem scalarInstructionsWriteTheirResult : Obligations.ScalarInstructionsWriteTheirResult := by
  refine ⟨?issue, fun x d v hrises => ⟨?same, fun e he => ?other⟩⟩
  case issue =>
    intro n w s x h hx op hmem hop
    simp only [List.mem_cons, List.not_mem_nil, or_false] at hmem
    rcases hmem with rfl | rfl | rfl | rfl | rfl | rfl | rfl | rfl | rfl | rfl
    case inr.inl => exact sub_runs h hx hop
    all_goals
      simp only [exec, execAdd, execAnd, execOr, execXor, execShl, execShr, execMul, execAddi, execLi]
      exact scalarOp_gives h hx hop rfl
  case same => rw [Tile.gr_step, Tile.gr_setG_same hrises]
  case other => rw [Tile.gr_step, Tile.gr_setG_ne hrises v he]

/-! ### Instructions that leave their tile as one changed tile -/

section
variable {n w : Nat} {s : State} {x : Tile} (h : IssuesAt s n w) (hx : x = s.tile n)
include h hx

/-- The tile as its instruction finds it: its pc noted. -/
theorem IssuesAt.tile_noted : (s.noted n).tile n = { x with lastPc := x.pc } := by rw [State.noted_tile s n h.rises, hx]

/-- A command that issues a change of its tile at the tile's pc runs to the changed tile. -/
theorem RunsTo.of_setTile {op : Nat} {c : Instr} {f : Nat → State → State} {y : Tile} (hop : w % 256 = op)
    (hexec : exec c s = .next (issue s n op f)) (hf : f w (s.noted n) = (s.noted n).setTile n { y with lastPc := x.pc }) : RunsTo s n c y := by
  subst hx
  refine ⟨_, hexec.trans (congrArg Host.Outcome.next (issue_runs s n w op f h hop)), ?_⟩
  rw [hf]
  exact TileRan.of_set s n _ _ h.rises rfl

/-! ### Branches, jumps and HALT (R342) -/

/-- The branches, by the condition on the two registers. -/
theorem branchOp_runsTo {op : Nat} (c : Nat → Nat → Bool) {i : Instr} (hop : w % 256 = op) (hexec : exec i s = branchOp n op c s) :
    RunsTo s n i { x with pc := pcAdd x.pc (if c (x.gr (fD w)) (x.gr (fA w)) then 4 * fImm14 w else 4) } := by
  rw [branchOp, Nat.mod_eq_of_lt h.tile_lt] at hexec
  refine .of_setTile h hx hop hexec ?_
  rw [h.tile_noted hx]
  rfl

theorem beq_runs (hop : w % 256 = 0x18) :
    RunsTo s n (.beq n) { x with pc := pcAdd x.pc (if x.gr (fD w) = x.gr (fA w) then 4 * fImm14 w else 4) } := by
  have hrun := branchOp_runsTo h hx (fun y z => y == z) hop (i := .beq n) rfl
  simpa only [beq_iff_eq] using hrun

theorem bne_runs (hop : w % 256 = 0x19) :
    RunsTo s n (.bne n) { x with pc := pcAdd x.pc (if x.gr (fD w) = x.gr (fA w) then 4 else 4 * fImm14 w) } := by
  have hrun := branchOp_runsTo h hx (fun y z => y != z) hop (i := .bne n) rfl
  simpa only [bne_iff_ne, ite_not] using hrun

theorem blt_runs (hop : w % 256 = 0x1A) : RunsTo s n (.blt n)
    { x with pc := pcAdd x.pc (if signedOf (x.gr (fD w)) 64 < signedOf (x.gr (fA w)) 64 then 4 * fImm14 w else 4) } := by
  have hrun := branchOp_runsTo h hx (fun y z => decide (signedOf y 64 < signedOf z 64)) hop (i := .blt n) rfl
  simpa only [decide_eq_true_eq] using hrun

theorem jal_runs (hop : w % 256 = 0x1B) :
    RunsTo s n (.jal n) { x.setG (fD w) (pcAdd x.pc 4) with pc := pcAdd x.pc (4 * fImm19 w) } := by
  refine .of_setTile h hx hop rfl ?_
  simp only [Nat.mod_eq_of_lt h.tile_lt, h.tile_noted hx, Tile.setG]
  split <;> rfl

theorem jr_runs (hop : w % 256 = 0x1C) : RunsTo s n (.jr n) { x with pc := x.gr (fA w) % 2 ^ 17 } := by
  refine .of_setTile h hx hop rfl ?_
  simp only [Nat.mod_eq_of_lt h.tile_lt, h.tile_noted hx, Tile.gr_noted]

theorem halt_runs (hop : w % 256 = 0x1E) :
    ∃ u, exec (.halt n) s = .next (event0 u .til n 3) ∧ TileRan s u n { x with lastPc := x.pc, st := .halted } := by
  refine ⟨(s.noted n).setTile n { x with lastPc := x.pc, st := .halted }, ?_, TileRan.of_set s n _ _ h.rises rfl⟩
  simp only [exec, execHalt, Nat.mod_eq_of_lt h.tile_lt, issue_runs s n w _ _ h hop, h.tile_noted hx]

end

/-! ### What ends a wait (R319, R342) -/

section
variable {s : State} {n : Nat}

theorem waitDone_cc_over {v : Nat} (hwait : (s.tile n).wait = some (.cc v false)) (hcc : v ≤ s.time.cc) :
    waitDone s n = advance s n { s.tile n with wait := none } := by
  simp only [waitDone, hwait, hcc]
  rfl

theorem waitDone_cc_waits {v : Nat} {boundary : Bool} (hwait : (s.tile n).wait = some (.cc v boundary)) (h : boundary = true ∨ s.time.cc < v) :
    waitDone s n = s := by
  have hnot : ¬ ((!boundary) = true ∧ v ≤ s.time.cc) := by
    rcases h with rfl | h
    · simp
    · simp [Nat.not_le.mpr h]
  simp only [waitDone, hwait, if_neg hnot]

theorem takeRec_oldest {t : Tile} {c r : Nat} {rest : List Nat} (hrecs : SMap.get t.recs [] c = r :: rest) :
    takeRec t c = some (r, { t with recs := SMap.set t.recs [] c rest }) := by
  simp only [takeRec, hrecs]

theorem takeRec_none {t : Tile} {c : Nat} (hrecs : SMap.get t.recs [] c = []) : takeRec t c = none := by
  simp only [takeRec, hrecs]

section
variable {d c v : Nat} (hwait : (s.tile n).wait = some (.recv d c v))
include hwait

theorem waitDone_recv_taken {r : Nat} {t : Tile} (htake : takeRec (s.tile n) c = some (r, t)) :
    waitDone s n = advance s n { t.setG d r with wait := none } := by
  simp only [waitDone, hwait, htake]

theorem waitDone_recv_deadline (htake : takeRec (s.tile n) c = none) (hcc : v ≤ s.time.cc) :
    waitDone s n = advance s n { (s.tile n).setG d 0 with wait := none } := by
  simp only [waitDone, hwait, htake, if_pos hcc]

theorem waitDone_recv_waits (htake : takeRec (s.tile n) c = none) (hcc : s.time.cc < v) : waitDone s n = s := by
  simp only [waitDone, hwait, htake, if_neg (Nat.not_le.mpr hcc)]

end

theorem waitDone_fence_over (hwait : (s.tile n).wait = some .fence) (hblocks : (s.tile n).blocks = []) (hfens : (s.tile n).fens = []) :
    waitDone s n = advance s n { s.tile n with wait := none } := by
  simp only [waitDone, hwait, hblocks, hfens]
  rfl

theorem waitDone_fence_waits (hwait : (s.tile n).wait = some .fence) (hblocks : (s.tile n).blocks ≠ []) : waitDone s n = s := by
  simp only [waitDone, hwait, List.isEmpty_eq_false_iff.mpr hblocks, Bool.false_and, Bool.false_eq_true, if_false]

end

/-! ### Instructions that wait (R333, R342, R346) -/

/-- Tile `n` of the state after its pc is noted, as `x` was, with a wait begun. -/
def State.waiting (s : State) (n : Nat) (x : Tile) (q : Wait) : State := (s.noted n).setTile n { x with lastPc := x.pc, wait := some q }

theorem IssuesAt.waiting_tile {s : State} {n w : Nat} (h : IssuesAt s n w) (x : Tile) (q : Wait) :
    (s.waiting n x q).tile n = { x with lastPc := x.pc, wait := some q } :=
  State.tile_setTile _ n (s.rises_setTile n h.rises _) _

section
variable {n w : Nat} {s : State} {x : Tile} (h : IssuesAt s n w) (hx : x = s.tile n)
include h hx

/-- A tile that issues does not wait. -/
theorem IssuesAt.wait_none : x.wait = none := by
  obtain ⟨-, -, hcan, -⟩ := h
  simp only [canIssue, Bool.and_eq_true, Option.isNone_iff_eq_none] at hcan
  obtain ⟨⟨-, hwait⟩, -⟩ := hcan
  rw [hx, hwait]

section
variable {op : Nat} {c : Instr} {q : Wait} {f : Nat → State → State} (hop : w % 256 = op) (hexec : exec c s = .next (issue s n op f))
  (hf : f w (s.noted n) = waitDone (s.waiting n x q) n)
include hop hexec hf

/-- An instruction whose wait is not over leaves the tile waiting. -/
theorem wait_begins (hstays : waitDone (s.waiting n x q) n = s.waiting n x q) : RunsTo s n c { x with wait := some q } := by
  exact .of_setTile h hx hop hexec (hf.trans hstays)

/-- An instruction whose wait is over at once goes on as tile `y`. -/
theorem wait_over {y : Tile} (hgoes : waitDone (s.waiting n x q) n = advance (s.waiting n x q) n { y with lastPc := x.pc }) :
    RunsTo s n c y.step := by
  subst hx
  refine ⟨_, hexec.trans (congrArg Host.Outcome.next (issue_runs s n w op f h hop)), ?_⟩
  rw [hf, hgoes]
  exact TileRan.of_set2 s n _ _ _ h.rises rfl

end

theorem exec_waitcc_issue : ∃ f, exec (.waitcc n) s = .next (issue s n 0x1D f)
    ∧ f w (s.noted n) = waitDone (s.waiting n x (.cc (x.gr (fA w)) (decide (fFn w % 2 = 1)))) n := by
  refine ⟨_, rfl, ?_⟩
  simp only [Nat.mod_eq_of_lt h.tile_lt, h.tile_noted hx, Tile.gr_noted]
  rfl

theorem exec_recv_issue : ∃ f, exec (.recv n) s = .next (issue s n 0x41 f)
    ∧ f w (s.noted n) = waitDone (s.waiting n x (.recv (fD w) (fB w) (x.gr (fA w)))) n := by
  refine ⟨_, rfl, ?_⟩
  simp only [Nat.mod_eq_of_lt h.tile_lt, h.tile_noted hx, Tile.gr_noted]
  rfl

theorem exec_fence_issue : ∃ f, exec (.fence n) s = .next (issue s n 0x4A f) ∧ f w (s.noted n) = waitDone (s.waiting n x .fence) n := by
  refine ⟨_, rfl, ?_⟩
  simp only [Nat.mod_eq_of_lt h.tile_lt, h.tile_noted hx]
  rfl

/-- Leaving a wait that had not begun when the instruction issued: the tile's register is written and its pc noted. -/
theorem IssuesAt.setG_unwaiting (m : SMap (List Nat)) (q : Option Wait) (d v : Nat) :
    ({ ({ x with lastPc := x.pc, wait := q, recs := m } : Tile).setG d v with wait := none } : Tile)
      = { ({ x with recs := m } : Tile).setG d v with lastPc := x.pc } := by
  have hwait := h.wait_none hx
  simp only [Tile.setG]
  split <;> simp only [hwait]

theorem IssuesAt.unwaiting : ({ x with lastPc := x.pc, wait := none } : Tile) = { x with lastPc := x.pc } := by
  rw [← h.wait_none hx]

theorem waitcc_over (hop : w % 256 = 0x1D) (hfn : fFn w % 2 = 0) (hcc : x.gr (fA w) ≤ s.time.cc) : RunsTo s n (.waitcc n) x.step := by
  obtain ⟨f, hexec, hf⟩ := exec_waitcc_issue h hx
  have htile := h.waiting_tile x (.cc (x.gr (fA w)) (decide (fFn w % 2 = 1)))
  have hplain : decide (fFn w % 2 = 1) = false := by simp [hfn]
  rw [hplain] at hf htile
  refine wait_over h hx hop hexec hf ?_
  rw [waitDone_cc_over (congrArg Tile.wait htile) hcc, htile, h.unwaiting hx]

theorem waitcc_waits (hop : w % 256 = 0x1D) (hopen : fFn w % 2 = 1 ∨ s.time.cc < x.gr (fA w)) :
    RunsTo s n (.waitcc n) { x with wait := some (.cc (x.gr (fA w)) (decide (fFn w % 2 = 1))) } := by
  obtain ⟨f, hexec, hf⟩ := exec_waitcc_issue h hx
  refine wait_begins h hx hop hexec hf (waitDone_cc_waits (congrArg Tile.wait (h.waiting_tile x _)) ?_)
  exact hopen.imp_left decide_eq_true

theorem recv_taken (hop : w % 256 = 0x41) {r : Nat} {rest : List Nat} (hrecs : SMap.get x.recs [] (fB w) = r :: rest) :
    RunsTo s n (.recv n) (({ x with recs := SMap.set x.recs [] (fB w) rest } : Tile).setG (fD w) r).step := by
  obtain ⟨f, hexec, hf⟩ := exec_recv_issue h hx
  have htile := h.waiting_tile x (.recv (fD w) (fB w) (x.gr (fA w)))
  refine wait_over h hx hop hexec hf ?_
  rw [waitDone_recv_taken (congrArg Tile.wait htile) (takeRec_oldest (by rw [htile]; exact hrecs)), htile]
  exact congrArg _ (h.setG_unwaiting hx _ _ _ _)

theorem recv_deadline (hop : w % 256 = 0x41) (hrecs : SMap.get x.recs [] (fB w) = []) (hcc : x.gr (fA w) ≤ s.time.cc) :
    RunsTo s n (.recv n) (x.setG (fD w) 0).step := by
  obtain ⟨f, hexec, hf⟩ := exec_recv_issue h hx
  have htile := h.waiting_tile x (.recv (fD w) (fB w) (x.gr (fA w)))
  refine wait_over h hx hop hexec hf ?_
  rw [waitDone_recv_deadline (congrArg Tile.wait htile) (takeRec_none (by rw [htile]; exact hrecs)) hcc, htile]
  exact congrArg _ (h.setG_unwaiting hx x.recs _ _ _)

theorem recv_waits (hop : w % 256 = 0x41) (hrecs : SMap.get x.recs [] (fB w) = []) (hcc : s.time.cc < x.gr (fA w)) :
    RunsTo s n (.recv n) { x with wait := some (.recv (fD w) (fB w) (x.gr (fA w))) } := by
  obtain ⟨f, hexec, hf⟩ := exec_recv_issue h hx
  have htile := h.waiting_tile x (.recv (fD w) (fB w) (x.gr (fA w)))
  exact wait_begins h hx hop hexec hf
    (waitDone_recv_waits (congrArg Tile.wait htile) (takeRec_none (by rw [htile]; exact hrecs)) hcc)

theorem fence_over (hop : w % 256 = 0x4A) (hblocks : x.blocks = []) (hfens : x.fens = []) : RunsTo s n (.fence n) x.step := by
  obtain ⟨f, hexec, hf⟩ := exec_fence_issue h hx
  have htile := h.waiting_tile x .fence
  refine wait_over h hx hop hexec hf ?_
  rw [waitDone_fence_over (congrArg Tile.wait htile) (by rw [htile]; exact hblocks) (by rw [htile]; exact hfens), htile, h.unwaiting hx]

theorem fence_waits (hop : w % 256 = 0x4A) (hblocks : x.blocks ≠ []) : RunsTo s n (.fence n) { x with wait := some .fence } := by
  obtain ⟨f, hexec, hf⟩ := exec_fence_issue h hx
  have htile := h.waiting_tile x .fence
  exact wait_begins h hx hop hexec hf (waitDone_fence_waits (congrArg Tile.wait htile) (by rw [htile]; exact hblocks))

end

/-- Settles O39: a branch by its condition, a jump by its target, a wait by whether it is over when it begins. -/
theorem branchesJumpsAndWaitsSetThePc : Obligations.BranchesJumpsAndWaitsSetThePc := by
  intro n w s x h hx
  refine ⟨beq_runs h hx, bne_runs h hx, blt_runs h hx, jal_runs h hx, jr_runs h hx, fun hop => ⟨?ccOver, ?ccWaits, ?boundary⟩,
    fun hop => ⟨?taken, ?deadline, ?recvWaits⟩, fun hop => ⟨fence_over h hx hop, fence_waits h hx hop⟩, halt_runs h hx⟩
  case ccOver => exact waitcc_over h hx hop
  case ccWaits => exact fun hcc => waitcc_waits h hx hop (.inr hcc)
  case boundary =>
    intro hfn
    have hrun := waitcc_waits h hx hop (.inl hfn)
    rwa [decide_eq_true hfn] at hrun
  case taken => exact fun r rest hrecs => recv_taken h hx hop hrecs
  case deadline => exact fun hrecs hcc => recv_deadline h hx hop hrecs hcc
  case recvWaits => exact fun hrecs hcc => recv_waits h hx hop hrecs hcc

/-! ### Vector instructions (R342, R343) -/

section
variable {n w op : Nat} {s : State} {x : Tile} (h : IssuesAt s n w) (hx : x = s.tile n) (hop : w % 256 = op) (f : Nat → State → State)
include h hx

/-- A vector instruction whose unit a block operation holds stays at its pc (R343). -/
theorem issueV_held (hheld : unitHeld x op = true) : issueV s n op f = s := by
  simp only [issueV, Nat.mod_eq_of_lt h.tile_lt, ← hx, hheld, if_true]

include hop

theorem issueV_free (hfree : unitHeld x op = false) : issueV s n op f = f w (s.noted n) := by
  simp only [issueV, Nat.mod_eq_of_lt h.tile_lt, ← hx, hfree, Bool.false_eq_true, if_false, issue_runs s n w op f h hop]

variable {c : Instr} (hexec : exec c s = .next (issueV s n op f)) (hfree : unitHeld x op = false)
include hexec hfree

/-- A vector instruction on a free unit that writes register `d`. -/
theorem vector_runs {d : Nat} {v : List F32} (hf : f w (s.noted n) = advance (s.noted n) n (((s.noted n).tile n).setV d v)) :
    RunsTo s n c (x.setV d v).step := by
  refine ⟨_, hexec.trans (congrArg Host.Outcome.next (issueV_free h hx hop f hfree)), ?_⟩
  rw [hf, h.tile_noted hx]
  refine TileRan.of_set s n _ _ h.rises ?_
  subst hx
  exact setV_step _ _ _

/-- The same, where its lanes may draw free values. -/
theorem vector_draws {d : Nat} {v : List F32}
    (hf : f w (s.noted n) = advance { s.noted n with fresh := (s.noted n).fresh + 64 } n (((s.noted n).tile n).setV d v)) :
    ∃ t, exec c s = .next t ∧ TileRan { s with fresh := s.fresh + 64 } t n (x.setV d v).step := by
  refine ⟨_, hexec.trans (congrArg Host.Outcome.next (issueV_free h hx hop f hfree)), ?_⟩
  rw [hf, h.tile_noted hx]
  exact TileRan.of_free s n 64 _ _ h.rises (setV_step _ _ _)

end

/-- Settles O40: each instruction by whether its unit is held; those whose lanes may be no number, and VCVT, draw free values. -/
theorem vectorInstructionsActLaneByLane : Obligations.VectorInstructionsActLaneByLane := by
  refine ⟨?issue, fun x d v hrises => ⟨?same, fun e he => ?other, fun k => ?scalar⟩⟩
  case same => rw [Tile.vr_step, Tile.vr_setV_same hrises]
  case other => rw [Tile.vr_step, Tile.vr_setV_ne hrises v he]
  case scalar => rw [Tile.gr_step, Tile.gr_setV]
  rintro n w s x _ h hx rfl
  have hn := Nat.mod_eq_of_lt h.tile_lt
  have htile := h.tile_noted hx
  refine ⟨?draws, fun hop hfree => ?vmax, fun hop hfree => ?vexp2, fun hop hfree => ?vbcast, ?held⟩
  case draws =>
    intro op hmem hop hfree
    simp only [List.mem_cons, List.not_mem_nil, or_false] at hmem
    rcases hmem with rfl | rfl | rfl | rfl
    all_goals
      refine vector_draws h hx hop _ rfl hfree ?_
      simp only [putV, hn, htile]
      rfl
  case vmax => exact vector_runs h hx hop _ rfl hfree (by simp only [hn, htile, Tile.vr_noted])
  case vexp2 => exact vector_runs h hx hop _ rfl hfree (by simp only [hn, htile, Tile.vr_noted])
  case vbcast => exact vector_runs h hx hop _ rfl hfree (by simp only [hn, htile, Tile.gr_noted])
  case held =>
    intro op hmem hheld
    simp only [List.mem_cons, List.not_mem_nil, or_false] at hmem
    rcases hmem with rfl | rfl | rfl | rfl | rfl | rfl | rfl
    all_goals exact congrArg Host.Outcome.next (issueV_held h hx _ hheld)

end Sys2Proof.Machine
end

section
/-!
SUPPORT. The proofs of the statements of spec/12_tile_grid.md about block operations (R322, R323, R342, R343, R352) and about starting, measuring
and stopping a tile (R333, R347, R348).
-/

namespace Sys2Proof.Machine

/-! ### Issue of block instructions (R342, R343) -/

/-- The block instructions of tile `n` with their opcodes, BCOPY apart. -/
def blockInstrs (n : Nat) : List (Nat × Instr) :=
  [(0x30, .mmac n), (0x31, .expand n), (0x32, .quant n), (0x33, .rot n), (0x34, .sketch n), (0x35, .score n), (0x36, .merge n), (0x37, .bound n),
    (0x38, .page n)]

/-- Each is `blockIssue` of its opcode. -/
theorem exec_blockInstr {n : Nat} {op : Nat × Instr} (hmem : op ∈ blockInstrs n) (s : State) :
    exec op.2 s = blockIssue n op.1 s ∧ op.1 ≠ 0x4B := by
  simp only [blockInstrs, List.mem_cons, List.not_mem_nil, or_false] at hmem
  rcases hmem with rfl | rfl | rfl | rfl | rfl | rfl | rfl | rfl | rfl
  all_goals exact ⟨rfl, Nat.ne_of_beq_eq_false rfl⟩

/-- Where a block operation takes its descriptor from: BCOPY from its registers, the others from an address that the tile may keep one at. -/
def DescFrom (s : State) (n w op a : Nat) (x : Tile) (bs : List Nat) : Prop :=
  if op = 0x4B then bs = toLE 8 a ++ toLE 8 (x.gr (fB w)) ++ toLE 8 (128 * (fFn w + 1))
  else bs = s.readBytes a 64 ∧ a % 64 = 0 ∧ privBase n + 0x40000 ≤ a ∧ a + 64 ≤ privBase n + 0x180000

section
variable {n w : Nat} {s : State} {x : Tile} (h : IssuesAt s n w) (hx : x = s.tile n)
include h hx

theorem exec_bcopy (hop : w % 256 = 0x4B) : exec (.bcopy n) s =
    .next (blockStart s (s.noted n) n w 0x4B (toLE 8 (x.gr (fA w)) ++ toLE 8 (x.gr (fB w)) ++ toLE 8 (128 * (fFn w + 1)))) := by
  simp only [exec, execBcopy, Nat.mod_eq_of_lt h.tile_lt, issue_runs s n w _ _ h hop, h.tile_noted hx, Tile.gr_noted]

/-- Every block operation with a descriptor comes to `blockStart`. -/
theorem exec_blockStart {op : Nat × Instr} (hmem : op ∈ blockInstrs n ++ [(0x4B, .bcopy n)]) (hop : w % 256 = op.1) {bs : List Nat}
    (hbs : DescFrom s n w op.1 (x.gr (fA w)) x bs) : exec op.2 s = .next (blockStart s (s.noted n) n w op.1 bs) := by
  rcases List.mem_append.mp hmem with hmem | hmem
  · obtain ⟨hexec, hcopy⟩ := exec_blockInstr hmem s
    rw [DescFrom, if_neg hcopy] at hbs
    obtain ⟨hread, halign, hlo, hhi⟩ := hbs
    exact hexec.trans ((block_issue n w s x h hx op.1 hop _ bs rfl hread).1 halign hlo hhi)
  · obtain rfl := List.mem_singleton.mp hmem
    rw [DescFrom, if_pos rfl] at hbs
    rw [exec_bcopy h hx hop, hbs]

/-- A descriptor that is misaligned is refused. -/
theorem blockInstr_misaligned {op : Nat × Instr} (hmem : op ∈ blockInstrs n) (hop : w % 256 = op.1) (halign : x.gr (fA w) % 64 ≠ 0) :
    RunsTo s n op.2 (x.setG (fD w) stMALFORMED).step := by
  obtain ⟨t, hissue, hran⟩ := (block_issue n w s x h hx op.1 hop _ _ rfl rfl).2 halign
  exact ⟨t, (exec_blockInstr hmem s).1.trans hissue, hran.noted_step s t n x _ hx (setG_pc _ _ _)⟩

end

/-! ### The end of a block operation (R323, R343, R352) -/

section
variable {n i : Nat} {s : State} {o : BlockOp} (hn : n < 128) (ho : (s.tile n).blocks[i]? = some o)
  (hst : (s.tile n).st = .running ∨ (s.tile n).st = .halted) (hclocks : s.clocksStopped = false)
  (hserved : o.op = 0x38 → inFen (blkDesc o.desc).aux = true →
    fenPending s (addrStack (blkDesc o.desc).aux) (addrPc (blkDesc o.desc).aux) n = false)
include hn ho hst hclocks hserved

/-- The end of an operation that waits for nothing, by the error that came with it. -/
theorem exec_blockOpComplete_ends (bad : Nat) : exec (.blockOpComplete n i bad) s = .next (
    if bad = 1 ∧ o.op = 0x38 ∧ inFen (blkDesc o.desc).aux = true then fenFault (blockLeave s n i) (addrStack (blkDesc o.desc).aux) (blkDesc o.desc).aux 0
    else if bad = 1 then tileFault s n 0x44 (blkDesc o.desc).src
    else if bad = 2 then tileFault s n 0x45 (opUnits o.op)
    else if o.torn then blockTorn (blockLeave s n i) n o
    else blockRun (blockLeave s n i) n o) := by
  have hgo : ¬ ((o.op == 0x38 && inFen (blkDesc o.desc).aux
      && fenPending s (addrStack (blkDesc o.desc).aux) (addrPc (blkDesc o.desc).aux) n) = true ∨ s.clocksStopped = true
      ∨ ¬ ((s.tile n).st = .running ∨ (s.tile n).st = .halted)) := by
    simpa [hclocks, hst] using hserved
  simp only [exec, execBlockOpComplete, Nat.mod_eq_of_lt hn, ho, if_neg hgo, apply_ite Host.Outcome.next]

end

/-- A completed copy's effect is its bytes at the destination. -/
theorem blockRun_copy (u : State) (n : Nat) {o : BlockOp} (hop : o.op = 0x4B) :
    blockRun u n o = u.writeBytes (blkDesc o.desc).dst (u.readBytes (blkDesc o.desc).src (blkDesc o.desc).aux) := by
  simp [blockRun, hop]

/-- An operation that does not hold port B only leaves its tile's queue. -/
theorem blockLeave_own {s : State} {n i : Nat} {o : BlockOp} (ho : (s.tile n).blocks[i]? = some o) (hport : o.port = false) :
    blockLeave s n i = s.setTile n { s.tile n with blocks := (s.tile n).blocks.eraseIdx i } := by
  simp only [blockLeave, ho, Option.any_some, hport, Bool.false_eq_true, if_false]

/-- Settles O42: an issue comes to `blockStart`, whose ends Laws/Commands.lean gives; a completion goes by the error that came with it. -/
theorem blockInstructionsJoinTheirQueue : Obligations.BlockInstructionsJoinTheirQueue := by
  refine ⟨fun n w s x h hx => ⟨?issue, fun op hmem => blockInstr_misaligned h hx hmem⟩, ?complete⟩
  case issue =>
    rintro op hmem hop a bs b rfl rfl hbs
    have hexec := exec_blockStart h hx (op := op) hmem hop hbs
    obtain ⟨hbusy, hfree⟩ := blockStart_stays n w s x h.rises hx op.1 bs
    refine ⟨fun hunits => ⟨fun far hfar hport hok => ?joins, fun hok hfar hport => ?asks, fun hbad => ?refused⟩,
      fun hunits => hexec.trans (congrArg _ (hbusy hunits))⟩
    case joins =>
      obtain ⟨t, hstart, hran⟩ := blockStart_runs n w s x h.rises hx op.1 bs far hunits hok hfar hport
      exact ⟨t, hexec.trans (congrArg _ hstart), hran⟩
    case asks => exact hexec.trans (congrArg _ ((hfree hunits).2 hok hfar hport))
    case refused => exact ⟨_, hexec, ((hfree hunits).1 hbad).noted_step s _ n x _ hx (setG_pc _ _ _)⟩
  case complete =>
    rintro n i s o _ hn ho hst hclocks rfl hserved u rfl
    have hends := exec_blockOpComplete_ends hn ho hst hclocks hserved
    refine ⟨fun htorn => ?_, fun htorn => ?_, fun hown => ?_, fun hpage hfen => ?_, ?_, fun hcopy => blockRun_copy _ n hcopy,
      fun hport => blockLeave_own ho hport⟩
    · simpa [htorn] using hends 0
    · simpa [htorn] using hends 0
    · have hnot : ¬ (o.op = 0x38 ∧ inFen (blkDesc o.desc).aux = true) := by
        rcases hown with hown | hown <;> simp [hown]
      simpa [hnot] using hends 1
    · simpa [hpage, hfen] using hends 1
    · simpa using hends 2

/-! ### Starting, stopping and measuring a tile (R347, R348) -/

section
variable {n : Nat} {s : State} {x : Tile} (hn : n < 128) (hx : x = s.tile n)
include hn hx

section
variable (hst : x.st = .stopped ∨ x.st = .halted ∨ x.st = .faulted) (hhalt : s.halted .til n = false)
include hst hhalt

/-- A resting tile that is switched on begins to be measured. -/
theorem exec_tilStart_measures (hup : s.up .til n = true) : exec (.tilStart n) s =
    .next (s.setTile n { x with st := .measure, mode := s.fld (Reg.TIL_MODE n) 1 0, stopReq := false }) := by
  simp only [exec, execTilStart, Nat.mod_eq_of_lt hn, ← hx, hhalt, hup]
  rcases hst with hst | hst | hst <;> simp [hst]

theorem exec_tilStart_off (hup : s.up .til n = false) : exec (.tilStart n) s =
    .next (event (s.setTile n { x with status := stMALFORMED }) .til n 7 { status := stMALFORMED }) := by
  simp only [exec, execTilStart, Nat.mod_eq_of_lt hn, ← hx, hhalt, hup]
  rcases hst with hst | hst | hst <;> simp [hst]

end

/-- A start of a tile that is armed or runs does nothing. -/
theorem exec_tilStart_active (hst : x.st = .armed ∨ x.st = .running) : exec (.tilStart n) s = .next s := by
  simp only [exec, execTilStart, Nat.mod_eq_of_lt hn, ← hx]
  rcases hst with hst | hst <;> simp [hst]

theorem exec_tilStop_active (hst : x.st = .armed ∨ x.st = .running) :
    exec (.tilStop n) s = .next (s.setTile n { x with stopReq := true }) := by
  simp only [exec, execTilStop, Nat.mod_eq_of_lt hn, ← hx, if_pos hst]

theorem exec_tilStop_resting (hst : x.st = .stopped ∨ x.st = .halted) : exec (.tilStop n) s = .next s := by
  have hnot : ¬ (x.st = .armed ∨ x.st = .running) := by rcases hst with hst | hst <;> simp [hst]
  simp only [exec, execTilStop, Nat.mod_eq_of_lt hn, ← hx, if_neg hnot]

section
variable {len : Nat} (hst : x.st = .measure) (hlen : len = s.fld (Reg.TIL_IMG_LEN n) 17 0)
include hst hlen

theorem exec_measureDone_badLength (hbad : len % 128 ≠ 0 ∨ len < 128 ∨ 131072 < len) : exec (.measureDone n) s =
    .next (event (s.setTile n { x with st := .stopped, status := stMALFORMED }) .til n 7 { status := stMALFORMED }) := by
  have hrefused : len % 128 ≠ 0 ∨ len < 128 ∨ 131072 < len ∨ x.mode = 3 := hbad.imp_right (Or.imp_right Or.inl)
  simp only [exec, execMeasureDone, Nat.mod_eq_of_lt hn, ← hx, hst, ← hlen, if_neg (not_not_intro rfl), if_pos hrefused]

variable (h128 : len % 128 = 0) (hmin : 128 ≤ len) (hmax : len ≤ 131072) (hmode : x.mode ≠ 3) {dig : List Nat} {u : State}
  (hdig : dig = imageDigest (zeroCode s n len) n len) (hu : u = setWords (zeroCode s n len) (Reg.TIL_DIGEST n) dig)
include h128 hmin hmax hmode hdig hu

/-- A legal image is measured; a service image's digest must be the one expected (R348). -/
theorem exec_measureDone_measured : exec (.measureDone n) s = .next (
    if x.mode = 0 ∧ dig ≠ (List.range 12).map (fun k => s.rg (Reg.MSH_SVC_DIGEST k))
    then event (u.setTile n { u.tile n with st := .stopped, status := stAUTH }) .til n 7 { status := stAUTH }
    else event0 (u.setTile n { x with st := .armed, status := stOK }) .til n 6) := by
  have hlegal : ¬ (len % 128 ≠ 0 ∨ len < 128 ∨ 131072 < len ∨ x.mode = 3) := by omega
  simp only [exec, execMeasureDone, Nat.mod_eq_of_lt hn, ← hx, hst, ← hlen, ← hdig, ← hu, if_neg (not_not_intro rfl), if_neg hlegal,
    apply_ite Host.Outcome.next]

end

/-- A wait for a cc of this tick ends when time reaches it (R333). -/
theorem exec_waitRelease_cc {v : Nat} (hst : x.st = .running) (hwait : x.wait = some (.cc v false)) (hv : v < s.lcc)
    (hrun : s.time.running = true) :
    exec (.waitRelease n) s = .next ((s.ccTo v).setTile n { x with wait := none, pc := pcAdd x.pc 4 }) := by
  have hwaits : x.st = .running ∧ (some (Wait.cc v false)).isSome = true := ⟨hst, rfl⟩
  have htile : (s.ccTo v).tile n = x := by rw [hx, State.tile, State.ccTo_tiles]; rfl
  have hcc : v ≤ (s.ccTo v).time.cc := by
    rw [State.ccTo_time]
    split
    · exact Nat.le_refl v
    · next hnot => exact Nat.le_of_not_lt fun hlt => hnot ⟨hrun, hlt⟩
  simp only [exec, execWaitRelease, Nat.mod_eq_of_lt hn, ← hx, hwait, if_pos hwaits, if_pos hv]
  rw [waitDone_cc_over (by rw [htile, hwait]) hcc, htile]
  rfl

end

/-- Settles O41: a start, a stop and a measure's end by the tile's state, and a wait's end by its cc. -/
theorem tilesStartMeasureArmAndStop : Obligations.TilesStartMeasureArmAndStop := by
  intro n s x hn hx
  refine ⟨fun hst hhalt => ⟨exec_tilStart_measures hn hx hst hhalt, exec_tilStart_off hn hx hst hhalt⟩,
    fun hst => ⟨exec_tilStop_active hn hx hst, exec_tilStart_active hn hx hst⟩, exec_tilStop_resting hn hx,
    fun len hst hlen => ⟨exec_measureDone_badLength hn hx hst hlen, ?measured⟩,
    fun v hst hwait hv hrun => exec_waitRelease_cc hn hx hst hwait hv hrun⟩
  case measured =>
    intro h128 hmin hmax hmode u dig hdig hu
    have hdone := exec_measureDone_measured hn hx hst hlen h128 hmin hmax hmode hdig hu
    refine ⟨fun hmatch => ?_, fun hservice hdiffers => ?_⟩
    · rw [hdone, if_neg fun hno => hmatch.elim (fun hm => hm hno.1) hno.2]
    · rw [hdone, if_pos ⟨hservice, hdiffers⟩]

end Sys2Proof.Machine
end

section
/-!
SUPPORT. The proof of the statement of spec/18_self_test_and_faults.md about self-test, with port B of spec/12_tile_grid.md: the patrol (R507), the
poison list (R508), port B of a slice (R322, R512), logic self-test (R513, R515), and memory self-test and repair (R517 to R520).
-/

namespace Sys2Proof.Machine

/-! ### The patrol (R504, R507) -/

@[simp] theorem memRelease_bst (s : State) (a src : Nat) : (memRelease s a src).bst = s.bst := by
  simp only [memRelease]
  repeat' split
  all_goals rfl

/-- What an uncorrectable word leaves before its frame is poisoned: its fault and its event (R507). -/
def patrolUncorr (s : State) (a : Nat) : State :=
  event0 (fault (uncorr s a) .bst 0 0xB2 none (a % 2 ^ 32) (a / 2 ^ 32 % 256)) .bst 0 6

section
variable {s0 s : State} {a peat crown inner : Nat} (hs : s = readCorr s0 peat crown inner) (ha : a = patrolAddr s)
include hs ha

/-- A word that is not due, or whose slice the patrol does not hold, only counts what other reads had corrected. -/
theorem exec_patrolWord_idle (outcome : Nat)
    (h : patrolDue s = false ∨ (inPeat a = true ∧ (s.pb (sliceOf a)).holder.any (·.src == patrolSrc) = false)) :
    exec (.patrolWord ⟨outcome, peat, crown, inner⟩) s0 = .next s := by
  have hnot : (!patrolDue s || !(!inPeat a || (s.pb (sliceOf a)).holder.any (·.src == patrolSrc)) || lifeState s == 4) = true := by
    rcases h with h | ⟨hpeat, hheld⟩
    · simp [h]
    · simp [hpeat, hheld]
  simp only [exec, execPatrolWord, ← hs, ← ha, hnot, if_true]

variable (hdue : patrolDue s = true) (hheld : inPeat a = true → (s.pb (sliceOf a)).holder.any (·.src == patrolSrc) = true)
  (hlife : lifeState s ≠ 4)
include hdue hheld hlife

variable {u : State} (hu : u = patrolNext (memRelease s a patrolSrc))
include hu

/-- A due word, by what its read met. -/
theorem exec_patrolWord_due (outcome : Nat) : exec (.patrolWord ⟨outcome, peat, crown, inner⟩) s0 = .next (
    if outcome = 1 then u.count (if inPeat a then Reg.BST_PEAT_CORR else Reg.BST_CROWN_CORR)
    else if outcome = 2 then
      if inPeat a then poisonAdd (patrolUncorr u a) (frameAt (patrolUncorr u a) ((a - peatBase) / 65536)) else patrolUncorr u a
    else u) := by
  have hgo : (!patrolDue s || !(!inPeat a || (s.pb (sliceOf a)).holder.any (·.src == patrolSrc)) || lifeState s == 4) = false := by
    cases hpeat : inPeat a with
    | false => simp [hdue, hlife]
    | true => simp [hdue, hlife, hheld hpeat]
  simp only [exec, execPatrolWord, ← hs, ← ha, ← hu, hgo, Bool.false_eq_true, if_false, patrolUncorr, apply_ite Host.Outcome.next]

end

/-! ### The poison list (R508, R521) -/

section
variable {s : State} {f : Nat}

theorem poisonAdd_listed (h : f ∈ s.poison) : poisonAdd s f = s := by
  rw [poisonAdd, if_pos (List.contains_iff_mem.mpr h)]

theorem poisonAdd_new (h : f ∉ s.poison) (hroom : s.poison.length < 1024) : poisonAdd s f = { s with poison := s.poison ++ [f] } := by
  rw [poisonAdd, if_neg fun hc => h (List.contains_iff_mem.mp hc), if_neg (Nat.not_le.mpr hroom)]

theorem poisonAdd_full (h : f ∉ s.poison) (hfull : 1024 ≤ s.poison.length) :
    poisonAdd s f = event0 (s.setFld Reg.BST_POISON_CNT 31 31 1) .bst 0 7 := by
  rw [poisonAdd, if_neg fun hc => h (List.contains_iff_mem.mp hc), if_pos hfull]

/-- In SCRAPPED the list no longer changes (R521). -/
theorem exec_poison_scrapped (hlife : lifeState s = 4) : exec (.poisonAdd f) s = .next s ∧ exec (.poisonDel f) s = .next s := by
  simp only [exec, execPoisonAdd, execPoisonDel, if_pos hlife, and_self]

end

/-! ### Port B of a slice (R322, R512) -/

section
variable {n : Nat} {s : State} (hn : n < 128)
include hn

section
variable (hfree : (s.pb n).holder = none) (hunbooked : portBooked s n = false)
include hfree hunbooked

/-- A waiting partner comes first, then the rotation's winner. -/
theorem exec_portBGrant_waiter {r : PortReq} (hwin : (s.pb n).waiting.find? (·.src < 128) = some r
      ∨ ((s.pb n).waiting.find? (·.src < 128) = none ∧ rotWinner (s.pb n).rot (s.pb n).waiting = some r)) :
    exec (.portBGrant n) s = .next (s.setPb n {
      waiting := (s.pb n).waiting.erase r
      rot := if r.src < 128 then (s.pb n).rot else sharer r.src
      holder := some { r with raised := s.time.up } }) := by
  simp only [exec, execPortBGrant, Nat.mod_eq_of_lt hn, hfree, hunbooked]
  rcases hwin with hfirst | ⟨hnone, hturn⟩
  · simp only [hfirst]
    rfl
  · simp only [hnone, hturn]
    rfl

/-- A slice that nobody waits for goes to the patrol, where its next word lies there. -/
theorem exec_portBGrant_patrol (hnone : (s.pb n).waiting.find? (·.src < 128) = none) (hturn : rotWinner (s.pb n).rot (s.pb n).waiting = none)
    (hdue : patrolDue s = true) (hpeat : inPeat (patrolAddr s) = true) (hslice : sliceOf (patrolAddr s) = n) :
    exec (.portBGrant n) s = .next (s.setPb n { s.pb n with holder := some ⟨patrolSrc, s.time.up⟩ }) := by
  simp only [exec, execPortBGrant, Nat.mod_eq_of_lt hn, hfree, hunbooked, hnone, hturn, hdue, hpeat, hslice]
  simp

end

section
variable {h : PortReq} {u : State} {c : Nat} (hholder : (s.pb n).holder = some h) (hlong : h.raised + 65536 ≤ s.time.up)
  (hu : u = fault (s.setPb n { s.pb n with holder := none }) .til n 0x46 none c s.time.cc)
include hholder hlong hu

theorem exec_portBWatchdogBite_partner (hsrc : h.src < 128) (hc : c = 0) :
    exec (.portBWatchdogBite n) s = .next (tileDown u h.src) := by
  subst hc
  simp only [exec, execPortBWatchdogBite, Nat.mod_eq_of_lt hn, hholder, if_neg (Nat.not_lt.mpr hlong), if_pos hsrc, ← hu, if_true]

theorem exec_portBWatchdogBite_patrol (hsrc : h.src = patrolSrc) (hc : c = 3) :
    exec (.portBWatchdogBite n) s = .next (patrolNext u) := by
  have hnot : ¬ h.src < 128 := by rw [hsrc, patrolSrc]; omega
  subst hc
  simp only [exec, execPortBWatchdogBite, Nat.mod_eq_of_lt hn, hholder, if_neg (Nat.not_lt.mpr hlong), if_neg hnot, if_pos hsrc, ← hu]
  rfl

theorem exec_portBWatchdogBite_migrator (hsrc : 1024 ≤ h.src) (hc : c = 2) :
    exec (.portBWatchdogBite n) s = .next (fetchLost (moveLost u (h.src - 1024) stCRC) (h.src - 1024) stCRC) := by
  have hnot : ¬ h.src < 128 := by omega
  have hother : h.src ≠ patrolSrc := by rw [patrolSrc]; omega
  subst hc
  simp only [exec, execPortBWatchdogBite, Nat.mod_eq_of_lt hn, hholder, if_neg (Nat.not_lt.mpr hlong), if_neg hnot, if_neg hother, if_pos hsrc, ← hu]
  rfl

theorem exec_portBWatchdogBite_trowel {x : Burst} {e k : Nat} (hlo : 256 ≤ h.src) (hhi : h.src < 384) (hc : c = 1)
    (he : e = (h.src - 256) % 64 / 16) (hk : k = h.src % 16 / 2)
    (hburst : (u.trwCh e k).bursts.find? (fun x => x.slot == h.src % 2 && x.data.isSome == decide (320 ≤ h.src)) = some x) :
    exec (.portBWatchdogBite n) s = .next (burstEnd u e k x.off (some stCRC)) := by
  have hnot : ¬ h.src < 128 := by omega
  have hother : h.src ≠ patrolSrc := by rw [patrolSrc]; omega
  have hlow : ¬ 1024 ≤ h.src := by omega
  subst hc
  simp only [exec, execPortBWatchdogBite, Nat.mod_eq_of_lt hn, hholder, if_neg (Nat.not_lt.mpr hlong), if_neg hnot, if_neg hother, if_neg hlow,
    ← hu, ← he, ← hk, hburst]
  rfl

end

end

/-! ### Logic self-test (R513, R515) -/

section
variable {s : State}

theorem exec_lbistArm_held {n : Nat} (h : lbArmed s = true ∨ lbRunning s = true) : exec (.lbistArm n) s = .next s := by
  simp only [exec, execLbistArm]
  rcases h with h | h <;> simp [h]

theorem exec_lbistAbort_running (hrun : lbRunning s = true) :
    exec .lbistAbort s = .next (lbEnd s stCANCELLED (s.time.up - s.bst.lbAt + 256)) := by
  simp only [exec, execLbistAbort, hrun, if_true]

/-- The four words of a signature. -/
def misrWords (misr : Nat) : List Nat := (List.range 4).map fun k => misr / 2 ^ (32 * k) % 2 ^ 32

/-- A signature is the expected one where its four words are. -/
theorem misrWords_eq_golden {misr : Nat} : misrWords misr = (List.range 4).map (fun k => s.rg (Reg.BST_LB_GOLDEN k))
    ↔ ∀ k, k < 4 → misr / 2 ^ (32 * k) % 2 ^ 32 = s.rg (Reg.BST_LB_GOLDEN k) := by
  simp only [misrWords, List.map_inj_left, List.mem_range]

section
variable {misr : Nat} {u : State} (hrun : lbRunning s = true) (hend : reachUp s (s.bst.lbAt + lbLength s + 256) = some u)
include hrun hend

theorem exec_lbistSliceEnd_matches (hgolden : ∀ k, k < 4 → misr / 2 ^ (32 * k) % 2 ^ 32 = s.rg (Reg.BST_LB_GOLDEN k)) :
    exec (.lbistSliceEnd misr) s = .next (event0 (((lbEnd (setWords u Reg.BST_LB_MISR (misrWords misr)) stOK (lbLength s + 256)).count
      Reg.BST_LB_COUNT).setFld (Reg.BST_QUAR (lbTile s / 32)) (lbTile s % 32) (lbTile s % 32) 0) .bst 0 3) := by
  simp only [exec, execLbistSliceEnd, hrun, hend]
  exact if_pos (misrWords_eq_golden.mpr hgolden)

theorem exec_lbistSliceEnd_differs (hdiffers : ∃ k, k < 4 ∧ misr / 2 ^ (32 * k) % 2 ^ 32 ≠ s.rg (Reg.BST_LB_GOLDEN k)) :
    exec (.lbistSliceEnd misr) s = .next (event0 ((fault (lbEnd (setWords u Reg.BST_LB_MISR (misrWords misr)) stCRC (lbLength s + 256)) .bst 0
      0xB0 none (lbTile s) (misr % 2 ^ 32)).setFld (Reg.BST_QUAR (lbTile s / 32)) (lbTile s % 32) (lbTile s % 32) 1) .bst 0 4) := by
  obtain ⟨k, hk, hne⟩ := hdiffers
  have hfirst : (misrWords misr).getD 0 0 = misr % 2 ^ 32 := by
    show misr / 2 ^ (32 * 0) % 2 ^ 32 = _
    rw [Nat.mul_zero, Nat.pow_zero, Nat.div_one]
  simp only [exec, execLbistSliceEnd, hrun, hend]
  rw [← hfirst]
  exact if_neg fun heq => hne (misrWords_eq_golden.mp heq k hk)

end

/-! ### Memory self-test and repair (R517 to R520) -/

/-- A command that is written while one runs is ignored. -/
theorem mbCommand_ignored {op kind : Nat} (hbusy : s.bit Reg.BST_MB_STAT 8 = true) : mbCommand op kind s = s := by
  simp only [mbCommand, hbusy, if_true]

theorem mbCommand_closed {op kind : Nat} (hidle : s.bit Reg.BST_MB_STAT 8 = false) (hlife : lifeOpen s = false) :
    mbCommand op kind s = s.setFld Reg.BST_MB_STAT 7 0 stAUTH := by
  simp only [mbCommand, hidle, hlife]
  rfl

theorem mbCommand_malformed {op kind : Nat} (hidle : s.bit Reg.BST_MB_STAT 8 = false) (hlife : lifeOpen s = true)
    (h : s.en .tpl 0 = true ∨ kind < 1 ∨ 4 < kind) : mbCommand op kind s = s.setFld Reg.BST_MB_STAT 7 0 stMALFORMED := by
  simp only [mbCommand, hidle, hlife, if_pos h]
  rfl

/-- The three commands of BST_MB_CMD are one, apart from their operation. -/
theorem exec_mbCommand {kind : Nat} {c : Nat × Instr} (hmem : c ∈ [(1, Instr.mbistRun kind), (2, .softRepair kind), (3, .fuseRepair kind)])
    (s : State) : exec c.2 s = .next (mbCommand c.1 kind s) := by
  simp only [List.mem_cons, List.not_mem_nil, or_false] at hmem
  rcases hmem with rfl | rfl | rfl
  all_goals rfl

end

/-- What a run leaves before its unrepairable word is recorded: the memory wiped, its fail records logged, and the words a spare can mend (R518). -/
def mbRan (s u : State) (fails : List FailRec) : State :=
  let v := fails.foldl mbRecord ((mbWipe u s.bst.mbKind).setFld Reg.BST_MB_STAT 31 16 0)
  { v with bst := { v.bst with repairable := (fails.filter fun f => bitOf f.flags 0 && s.bst.mbKind != 4).map fun f => (s.bst.mbKind, f.address) } }

/-- A memory command ends with a status and its event. -/
def mbFinish (s : State) (status : Nat) : State := event0 (s.setFld Reg.BST_MB_STAT 7 0 status) .bst 0 5

section
variable {fails : List FailRec} {worst : Option Nat} {exhausted : Bool} {s0 s u : State} (hbusy : s0.bit Reg.BST_MB_STAT 8 = true)
  (hend : reachUp s0 s0.bst.mbDue = some s) (hu : u = s.setFld Reg.BST_MB_STAT 8 8 0)
include hbusy hend hu

theorem exec_mbistDone_run_mended (hop : s.bst.mbOp = 1) (hworst : worst = none) :
    exec (.mbistDone fails worst exhausted) s0 = .next (mbFinish (mbRan s u fails) stOK) := by
  subst hworst
  simp only [exec, execMbistDone, hbusy, hend, hop, ← hu]
  rfl

theorem exec_mbistDone_run_worst (hop : s.bst.mbOp = 1) {a : Nat} (hworst : worst = some a) : exec (.mbistDone fails worst exhausted) s0 =
    .next (mbFinish (fault (mbRan s u fails) .bst 0 0xB1 none s.bst.mbKind (a % 2 ^ 32)) stOK) := by
  subst hworst
  simp only [exec, execMbistDone, hbusy, hend, hop, ← hu]
  rfl

theorem exec_mbistDone_soft (hop : s.bst.mbOp = 2) : exec (.mbistDone fails worst exhausted) s0 =
    .next (mbFinish { u with bst := { u.bst with soft := u.bst.soft ++ u.bst.repairable } } stOK) := by
  simp only [exec, execMbistDone, hbusy, hend, hop, ← hu]
  rfl

theorem exec_mbistDone_exhausted (hop : s.bst.mbOp = 3) (hfull : exhausted = true) :
    exec (.mbistDone fails worst exhausted) s0 = .next (mbFinish u stQUOTA) := by
  simp [exec, execMbistDone, hbusy, hend, hop, ← hu, hfull, mbFinish, mbStat]

theorem exec_mbistDone_fuse (hop : s.bst.mbOp = 3) (hroom : exhausted = false) : exec (.mbistDone fails worst exhausted) s0 =
    .next (mbFinish { u with nv := { u.nv with repairs := u.nv.repairs ++ u.bst.repairable } } stOK) := by
  simp [exec, execMbistDone, hbusy, hend, hop, ← hu, hroom, mbFinish, mbStat]

end

/-! ### The statement -/

/-- Settles O55, clause by clause from what each command does. -/
theorem selfTestPatrolPoisonAndPortB : Obligations.SelfTestPatrolPoisonAndPortB := by
  refine ⟨⟨?patrol, ?poison, fun s f hlife => exec_poison_scrapped hlife, ?grant, ?bite⟩, ?arm, fun s => exec_lbistAbort_armed,
    fun s => exec_lbistAbort_running, ?slice, ?command, ?done⟩
  case patrol =>
    intro s0 s a peat crown inner hs ha
    refine ⟨fun hidle o => exec_patrolWord_idle hs ha o hidle, fun hdue hheld hlife u hu => ?_⟩
    have hnext : u = patrolNext (memRelease s a patrolSrc) := by rw [hu, patrolNext, memRelease_bst]
    have hword := exec_patrolWord_due hs ha hdue hheld hlife hnext
    refine ⟨hword 0, hword 1, ?_⟩
    rintro v rfl
    exact hword 2
  case poison =>
    refine fun s f hf hlife => ⟨fun hnew hroom => ?_, fun hlisted => ?_, fun hnew hfull => ?_, _, exec_poisonDel_life hf hlife, fun x => ?_, rfl⟩
    · rw [exec_poisonAdd_life hf hlife, poisonAdd_new hnew hroom]
    · rw [exec_poisonAdd_life hf hlife, poisonAdd_listed hlisted]
    · rw [exec_poisonAdd_life hf hlife, poisonAdd_full hnew hfull]
    · simp [List.mem_filter]
  case grant =>
    rintro n s _ hn rfl hfree hunbooked
    exact ⟨fun r hwin => exec_portBGrant_waiter hn hfree hunbooked hwin, exec_portBGrant_patrol hn hfree hunbooked⟩
  case bite =>
    intro n s u h hn hholder hlong c hu
    exact ⟨exec_portBWatchdogBite_partner hn hholder hlong hu, exec_portBWatchdogBite_patrol hn hholder hlong hu,
      exec_portBWatchdogBite_migrator hn hholder hlong hu, fun x e k => exec_portBWatchdogBite_trowel hn hholder hlong hu⟩
  case arm => exact fun n s hn hup hlife => ⟨exec_lbistArm_taken hn hup hlife, exec_lbistArm_held⟩
  case slice =>
    rintro misr _ s u _ hrun rfl hend rfl
    exact ⟨exec_lbistSliceEnd_matches hrun hend, exec_lbistSliceEnd_differs hrun hend⟩
  case command =>
    intro k s c hmem
    rw [exec_mbCommand (kind := k) hmem]
    refine ⟨fun hbusy => ?_, fun hidle hlife => ?_, fun hidle hlife h => ?_, fun hidle hlife htpl h1 h4 => ⟨_, rfl, ?_⟩⟩
    · rw [mbCommand_ignored hbusy]
    · rw [mbCommand_closed hidle hlife]
    · rw [mbCommand_malformed hidle hlife h]
    · exact mbCommand_taken c.1 h1 h4 hidle hlife htpl
  case done =>
    intro fails worst ex s0 s u hbusy hend hu
    refine ⟨?_, exec_mbistDone_soft hbusy hend hu, exec_mbistDone_exhausted hbusy hend hu, exec_mbistDone_fuse hbusy hend hu⟩
    rintro _ _ hop rfl rfl
    exact ⟨exec_mbistDone_run_mended hbusy hend hu hop, fun a => exec_mbistDone_run_worst hbusy hend hu hop⟩

end Sys2Proof.Machine
end

section
/-!
SUPPORT. The proof of the statement of spec/13_ports_and_time.md about node time: its frequency, slew, steps and holdover (R363 to R366, R375), and
its pins PPS_IN, SYNC_IN and PPS_OUT (R370 to R372).
-/

namespace Sys2Proof.Machine

/-! ### Steps and slews (R363, R365) -/

section
variable {s : State}

/-- While the tick plan is on a step is refused (R365). -/
theorem exec_ptpStepWrite_refused (htpl : s.en .tpl 0 = true) (v : Nat) : exec (.ptpStepWrite v) s = .next (event0 s .ptp 0 6) := by
  simp only [exec, execPtpStepWrite, htpl, if_true]

/-- A step while no tick counter runs moves the base of node time, and keeps the old base for this cc's stamps (R365, R371). -/
theorem exec_ptpStepWrite_stopped (htpl : s.en .tpl 0 = false) (hstop : s.time.running = false) (v : Nat) :
    exec (.ptpStepWrite v) s = .next { s.setRg64 Reg.PTP_STEP_LO v with ptp := { s.ptp with
      base := s.ptp.base + 8 * signedOf v 64, stepAt := s.time.up + 1, stepBase := if s.ptp.stepAt = s.time.up + 1 then s.ptp.stepBase else s.ptp.base } } := by
  have hstop' : (s.setRg64 Reg.PTP_STEP_LO v).time.running = false := hstop
  simp only [exec, execPtpStepWrite, htpl, stepTime, hstop', Bool.false_eq_true, if_false]
  rfl

theorem exec_ptpSlewWrite (v : Nat) : exec (.ptpSlewWrite v) s =
    .next (({ s with ptp := { s.ptp with slewNeg := decide (signedOf v 32 < 0), slewRem := (signedOf v 32).natAbs * 2048000000000, slewAt := s.time.up } }.setRg
      Reg.PTP_SLEW (v % 2 ^ 32)).setFld Reg.PTP_STAT 1 1 (if signedOf v 32 = 0 then 0 else 1)) := by
  have hstat : b2n (decide (signedOf v 32 ≠ 0)) = if signedOf v 32 = 0 then 0 else 1 := by
    by_cases h : signedOf v 32 = 0 <;> simp [b2n, h]
  simp only [exec, execPtpSlewWrite, hstat]

theorem exec_slewComplete_none (hslew : s.bit Reg.PTP_STAT 1 = false) : exec .slewComplete s = .next s := by
  simp [exec, execSlewComplete, hslew]

/-- A slew that the limit on the total leaves no speed does not end (R363). -/
theorem exec_slewComplete_held (hspeed : slewSpeed s = 0) (hrem : s.ptp.slewRem ≠ 0) : exec .slewComplete s = .next s := by
  simp [exec, execSlewComplete, hspeed, hrem]

/-- A slew that moves, or that has nothing left to move, is used up when its end comes (R365). -/
theorem exec_slewComplete_done {u : State} (hslew : s.bit Reg.PTP_STAT 1 = true) (hmoves : slewSpeed s ≠ 0 ∨ s.ptp.slewRem = 0)
    (hend : reachUp s (s.ptp.slewAt + ceilDiv s.ptp.slewRem (5 * slewSpeed s)) = some u) : exec .slewComplete s =
      .next (({ u with ptp := { u.ptp with slewRem := 0, slewAt := u.time.up, slewNeg := false } }.setRg Reg.PTP_SLEW 0).setFld Reg.PTP_STAT 1 1 0) := by
  have hnot : ¬ (slewSpeed s = 0 ∧ s.ptp.slewRem ≠ 0) := fun ⟨h0, hrem⟩ => hmoves.elim (· h0) hrem
  simp only [exec, execSlewComplete, hslew, hnot, hend, Bool.not_true, Bool.false_eq_true, or_self, if_false]

/-! ### Holdover (R366) -/

theorem holdoverStart_already (hhold : s.bit Reg.PTP_STAT 0 = true) : holdoverStart s = s := if_pos hhold

theorem holdoverStart_begins (hhold : s.bit Reg.PTP_STAT 0 = false) :
    holdoverStart s = event0 (s.setFld Reg.PTP_STAT 0 0 1) .ptp 0 4 := by
  simp only [holdoverStart, hhold, Bool.false_eq_true, if_false]

/-- With the lock held, its loss begins the holdover with event 3, and its write again only ends the holdover (R366). -/
theorem exec_servoLockWrite_held (hlock : s.bit Reg.PTP_SERVO 0 = true) :
    exec (.servoLockWrite false) s = .next (holdoverStart (event0 (s.setRg Reg.PTP_SERVO 0) .ptp 0 3))
      ∧ exec (.servoLockWrite true) s = .next ((s.setRg Reg.PTP_SERVO 1).setFld Reg.PTP_STAT 0 0 0) := by
  simp [exec, execServoLockWrite, hlock, b2n]

/-- With no lock held, a lock gained ends the holdover with event 3, and none written starts none (R366). -/
theorem exec_servoLockWrite_unheld (hlock : s.bit Reg.PTP_SERVO 0 = false) :
    exec (.servoLockWrite true) s = .next ((event0 (s.setRg Reg.PTP_SERVO 1) .ptp 0 3).setFld Reg.PTP_STAT 0 0 0)
      ∧ exec (.servoLockWrite false) s = .next (s.setRg Reg.PTP_SERVO 0) := by
  simp [exec, execServoLockWrite, hlock, b2n]

section
variable (hen : s.en .ptp 0 = true)
include hen

theorem exec_ptpLossTimeout_lost (hlate : s.ptp.lastMsg - 1 + 1600000 * s.fld Reg.PTP_LOSS_TO 15 0 ≤ s.time.up) :
    exec .ptpLossTimeout s = .next (holdoverStart s) := by
  simp [exec, execPtpLossTimeout, hen, hlate]

theorem exec_ptpLossTimeout_early (hearly : s.time.up < s.ptp.lastMsg - 1 + 1600000 * s.fld Reg.PTP_LOSS_TO 15 0) :
    exec .ptpLossTimeout s = .next s := by
  simp [exec, execPtpLossTimeout, hen, Nat.not_le.mpr hearly]

/-! ### PPS_IN (R370, R371) -/

section
variable {dist sec : Nat} (hsec : toSecond s.stampTime = (dist, sec)) {chatter oow : Bool}
  (hchatter : chatter = (s.ptp.accepted != 0 && decide (s.time.up < s.ptp.accepted - 1 + 1440000000)))
  (hoow : oow = (s.bit Reg.PTP_SERVO 0 && decide (8 * s.fld Reg.PTP_PPS_WIN 15 0 < dist)))
include hsec hchatter hoow

/-- An edge too soon after the accepted one, or outside the window, is bad (R370). -/
theorem exec_ppsInEdge_bad (hbad : chatter = true ∨ oow = true) : exec .ppsInEdge s = .next (ppsBad s chatter oow) := by
  have hor : (chatter || oow) = true := by simpa using hbad
  simp only [exec, execPpsInEdge, hen, hsec, ← hchatter, ← hoow, hor, Bool.not_true, Bool.false_eq_true, if_false, if_true]

/-- A good edge is accepted and stamped; the fourth of successive seconds qualifies the input (R370, R371). -/
theorem exec_ppsInEdge_good (hsoon : chatter = false) (hnear : oow = false) {good : Nat} {u : State}
    (hgood : good = if s.ptp.ppsGood ≠ 0 ∧ sec = s.ptp.ppsSec + 1 then s.ptp.ppsGood + 1 else 1)
    (hu : u = { s with ptp := { s.ptp with
      accepted := s.time.up + 1, edge := s.time.up + 1, ppsGood := good, ppsSec := sec, edgeSec := timeSec s.stampTime } }.setRg
        Reg.PTP_PPS_TS_NS (timeNs s.stampTime)) :
    exec .ppsInEdge s = .next (if 4 ≤ good then (u.setFld Reg.PTP_STAT 2 2 1).setFld Reg.PTP_STAT 4 3 0 else u) := by
  have hor : (chatter || oow) = false := by rw [hsoon, hnear]; rfl
  simp only [exec, execPpsInEdge, hen, hsec, ← hchatter, ← hoow, hor, ← hgood, ← hu, Bool.not_true, Bool.false_eq_true, if_false]
  exact (apply_ite _ _ _ _).symm

end

/-- With no edge for 2.5 s the input is stuck and unqualified, at the level that the pin shows: a free bit (R370). -/
theorem exec_ppsStuckTimeout_stuck (hlate : s.ptp.edge - 1 + 4000000000 ≤ s.time.up) {v : State}
    (hv : v = { (s.draw.setFld Reg.PTP_STAT 2 2 0).setFld Reg.PTP_STAT 3 3 1 with ptp := { s.ptp with ppsGood := 0, stuckHigh := bitOf (s.free 1) 0 } }) :
    exec .ppsStuckTimeout s = .next (if s.bit Reg.PTP_STAT 2 then disqualify v 0 1 else v) := by
  simp only [exec, execPpsStuckTimeout, hen, hlate, ← hv, decide_true, Bool.and_self, if_true]

theorem exec_ppsStuckTimeout_early (hearly : s.time.up < s.ptp.edge - 1 + 4000000000) : exec .ppsStuckTimeout s = .next s := by
  simp [exec, execPpsStuckTimeout, hen, Nat.not_le.mpr hearly]

/-! ### SYNC_IN (R370) -/

section
variable {edges nom : Nat} (hnom : nom = if s.bit Reg.PTP_SYNC_NOM 0 then 2500000 else 1000000)
include hnom

/-- A window within the tolerance is good, and the third in a row qualifies the input (R370). -/
theorem exec_syncWindowEnd_good (hlow : nom ≤ edges + nom * 20 / 1000000) (hhigh : edges ≤ nom + nom * 20 / 1000000) {u : State}
    (hu : u = { s with ptp := { s.ptp with syncGood := min 3 (s.ptp.syncGood + 1) } }) : exec (.syncWindowEnd edges) s =
      .next (if 2 ≤ s.ptp.syncGood then (u.setFld Reg.PTP_STAT 5 5 1).setFld Reg.PTP_STAT 7 6 0 else u) := by
  have hthird : 3 ≤ s.ptp.syncGood + 1 ↔ 2 ≤ s.ptp.syncGood := by omega
  simp only [exec, execSyncWindowEnd, hen, ← hnom, hlow, hhigh, hthird, ← hu, and_self, Bool.not_true, Bool.false_eq_true, if_false, if_true]
  exact (apply_ite _ _ _ _).symm

/-- Another makes the input unqualified: stuck where it has no edge, off its frequency otherwise (R370). -/
theorem exec_syncWindowEnd_bad (hbad : edges + nom * 20 / 1000000 < nom ∨ nom + nom * 20 / 1000000 < edges) {v : State}
    (hv : v = { (s.setFld Reg.PTP_STAT 5 5 0).setFld Reg.PTP_STAT 7 6 (if edges = 0 then 1 else 2) with ptp := { s.ptp with syncGood := 0 } }) :
    exec (.syncWindowEnd edges) s = .next (if s.bit Reg.PTP_STAT 5 then disqualify v 1 (if edges = 0 then 1 else 8) else v) := by
  have hnot : ¬ (nom ≤ edges + nom * 20 / 1000000 ∧ edges ≤ nom + nom * 20 / 1000000) := by omega
  simp only [exec, execSyncWindowEnd, hen, ← hnom, hnot, decide_eq_true_eq, ← hv, Bool.not_true, Bool.false_eq_true, if_false]

end

/-! ### PPS_OUT (R372) -/

/-- The output rises at the next whole second, where the tick has not ended (R372). -/
theorem exec_ppsOutPulse_rises (hon : s.bit Reg.PTP_PPS_OUT 31 = true) (hlow : s.ptp.ppsOut = false) {u : State}
    (hu : reachUp s (s.time.up + ceilDiv (ceilDiv s.nodeTime 8000000000 * 8000000000 - s.nodeTime) 5) = some u) :
    exec .ppsOutPulse s = .next { u with ptp := { u.ptp with ppsOut := true, rise := u.time.up } } := by
  simp only [exec, execPpsOutPulse, hen, hon, hlow, hu, Bool.and_self, Bool.not_true, Bool.or_self, Bool.false_eq_true, if_false]

end

theorem exec_ppsOutFall_falls (hhigh : s.ptp.ppsOut = true) {u : State}
    (hu : reachUp s (s.ptp.rise + ceilDiv (8 * max 1 (min 999999999 (s.fld Reg.PTP_PPS_OUT 29 0))) 5) = some u) :
    exec .ppsOutFall s = .next { u with ptp := { u.ptp with ppsOut := false } } := by
  simp only [exec, execPpsOutFall, hhigh, hu, Bool.not_true, Bool.false_eq_true, if_false]

theorem exec_ppsOutFall_low (hlow : s.ptp.ppsOut = false) : exec .ppsOutFall s = .next s := by
  simp [exec, execPpsOutFall, hlow]

end

/-! ### The statement -/

/-- Settles O46: the writes of node time's registers, the holdover's causes and the pins' edges, each by the rule of its command. -/
theorem nodeTimeFollowsItsSourcesAndPins : Obligations.NodeTimeFollowsItsSourcesAndPins := by
  refine ⟨fun s => ⟨fun _ => rfl, exec_ptpSlewWrite, fun v htpl => exec_ptpStepWrite_refused htpl v,
      fun v htpl hstop => exec_ptpStepWrite_stopped htpl hstop v, fun _ => rfl, exec_servoLockWrite_held, exec_servoLockWrite_unheld,
      holdoverStart_already, holdoverStart_begins, fun hen => ⟨exec_ptpLossTimeout_lost hen, exec_ptpLossTimeout_early hen⟩,
      fun _ => exec_slewComplete_held, fun _ => exec_slewComplete_done, exec_slewComplete_none⟩,
    fun s hen => ⟨?edge, ?bad, ⟨bitOf (s.free 1) 0, ?stuck⟩, ?sync,
      fun hon hlow _ => exec_ppsOutPulse_rises hen hon hlow, fun hhigh _ => exec_ppsOutFall_falls hhigh, exec_ppsOutFall_low⟩⟩
  case edge =>
    exact fun dist sec chatter oow hsec hchatter hoow => ⟨exec_ppsInEdge_bad hen hsec hchatter hoow,
      fun hsoon hnear good u => exec_ppsInEdge_good hen hsec hchatter hoow hsoon hnear⟩
  case bad =>
    intro chatter oow v hv
    refine ⟨fun hwas => ?_, fun hwas => ?_⟩
    all_goals simp only [ppsBad, hwas, ← hv, Bool.false_eq_true, if_false, if_true]
  case stuck =>
    intro v hv
    refine ⟨fun hlate => ⟨fun hwas => ?_, fun hwas => ?_⟩, exec_ppsStuckTimeout_early hen⟩
    all_goals simp only [exec_ppsStuckTimeout_stuck hen hlate hv, hwas, Bool.false_eq_true, if_false, if_true]
  case sync =>
    intro edges nom hnom
    refine ⟨fun hlow hhigh u => exec_syncWindowEnd_good hen hnom hlow hhigh, fun hbad v hv => ⟨fun hwas => ?_, fun hwas => ?_⟩⟩
    all_goals simp only [exec_syncWindowEnd_bad hen hnom hbad hv, hwas, Bool.false_eq_true, if_false, if_true]

end Sys2Proof.Machine
end

section
/-!
SUPPORT. The proof of the statement of spec/14_isgan_transport.md about arriving packets (R381 to R387) and a connection's timers (R390 to R396).
-/

namespace Sys2Proof.Machine

/-! ### The checks of an arriving packet (R387) -/

/-- What a packet that has passed the checks does, by its opcode: `k.body` is its plaintext (R387 to R390, R440). -/
def opcodeAct (s : State) (i port : Nat) (k : Pk) : State :=
  if k.op = 0x05 then rxAck s i k.ext
  else if k.op = 0x06 then rxNak s i k.ext
  else if k.op = 0x07 then rxHello s i k.ext
  else rxSeq s i port k

theorem opcodeAct_ack {k : Pk} (hop : k.op = 0x05) (s : State) (i port : Nat) : opcodeAct s i port k = rxAck s i k.ext := by
  simp [opcodeAct, hop]

theorem opcodeAct_nak {k : Pk} (hop : k.op = 0x06) (s : State) (i port : Nat) : opcodeAct s i port k = rxNak s i k.ext := by
  simp [opcodeAct, hop]

theorem opcodeAct_hello {k : Pk} (hop : k.op = 0x07) (s : State) (i port : Nat) : opcodeAct s i port k = rxHello s i k.ext := by
  simp [opcodeAct, hop]

/-- Every opcode but the three that are not sequenced goes to the sequence checks (R379). -/
theorem opcodeAct_seq {k : Pk} (hseq : isSeq k.op = true) (s : State) (i port : Nat) : opcodeAct s i port k = rxSeq s i port k := by
  have hne : k.op ≠ 0x05 ∧ k.op ≠ 0x06 ∧ k.op ≠ 0x07 := by
    simp only [isSeq, Bool.or_eq_true, decide_eq_true_eq] at hseq
    omega
  simp only [opcodeAct, hne, if_false]

theorem receive_badFcs {p : Packet} (hfcs : p.fcs = false) (only : Nat → Bool) (s : State) : receive only p s = s := by
  simp [receive, hfcs]

section
variable {only : Nat → Bool} {p : Packet} {k : Pk} {s s1 : State} {i slot : Nat} (hfcs : p.fcs = true) (hk : parsePk p = some k)
include hfcs hk

theorem receive_otherOpcode {op : Nat} (hne : k.op ≠ op) : receive (· == op) p s = s := by
  simp [receive, hfcs, hk, hne]

variable (hmine : only k.op = true) (hi : i = k.conn % 4096)
include hmine hi

/-- A packet off any open connection of its peer is counted as dropped (R382). -/
theorem receive_offConn
    (hoff : s.up .itp 0 = false ∨ s.connOpen k.conn = false ∨ k.src ≠ (s.conn i).peerNode ∨ p.src ≠ (s.conn i).peerAddr) :
    receive only p s = s.count Reg.ITP_DROP_CONN := by
  have hdrop : (!s.up .itp 0 || !s.connOpen k.conn || k.src != (s.conn i).peerNode || p.src != (s.conn i).peerAddr) = true := by
    simpa [or_assoc] using hoff
  simp only [receive, hfcs, hk, hmine, ← hi, hdrop, Bool.not_true, Bool.false_eq_true, if_false, if_true]

variable (hup : s.up .itp 0 = true) (hopen : s.connOpen k.conn = true) (hnode : k.src = (s.conn i).peerNode) (haddr : p.src = (s.conn i).peerAddr)
include hup hopen hnode haddr

/-- A packet beyond policing is only counted (R434). -/
theorem receive_beyondPolicing (hpol : police s i p.bytes.length = (s1, false)) : receive only p s = s1 := by
  simp [receive, hfcs, hk, hmine, hup, hopen, ← hi, hnode, haddr, hpol]

section
variable (hpol : police s i p.bytes.length = (s1, true))
include hpol

/-- A packet of an epoch without a key is answered with a NAK (R383). -/
theorem receive_noKey (hkey : s1.liveKey i k.epoch = none) : receive only p s = keyEpochDrop s1 i := by
  simp [receive, hfcs, hk, hmine, hup, hopen, ← hi, hnode, haddr, hpol, hkey]

variable (hkey : s1.liveKey i k.epoch = some slot)
include hkey

/-- A packet whose tag does not verify is only counted (R381). -/
theorem receive_badTag (htag : openPk (s1.keySlot slot) p k = none) : receive only p s = s1.count Reg.ITP_DROP_AUTH := by
  simp [receive, hfcs, hk, hmine, hup, hopen, ← hi, hnode, haddr, hpol, hkey, htag]

variable {plain : List Nat} (htag : openPk (s1.keySlot slot) p k = some plain)
include htag

/-- A replayed packet is only counted (R384). -/
theorem receive_replayed (hreplay : antiReplay (s1.keySlot slot) k.ctr = none) :
    receive only p s = (s1.count Reg.ITP_RX_PKTS).count Reg.ITP_REPLAY := by
  simp [receive, hfcs, hk, hmine, hup, hopen, ← hi, hnode, haddr, hpol, hkey, htag, hreplay]

/-- A packet that passes is counted and its counter recorded; a congestion mark is counted, the next epoch's first packet moves sending to
it, and the opcode's action runs (R381, R384, R387, R390, R482). -/
theorem receive_taken {v : KeySlot} {u u2 u3 : State} (hreplay : antiReplay (s1.keySlot slot) k.ctr = some v)
    (hu2 : u2 = (s1.count Reg.ITP_RX_PKTS).setKeySlot slot v)
    (hu3 : u3 = if p.ce then (u2.count Reg.ITP_CE).setConn i { u2.conn i with ce := (u2.conn i).ce + 1 } else u2)
    (hu : u = if s.bit Reg.KEY_CFG 0 ∧ k.epoch = ((s.conn i).txEpoch + 1) % 65536 then txSwitch u3 i else u3) :
    receive only p s = opcodeAct u i p.port { k with body := plain } := by
  have hon : (!s.up .itp 0 || !s.connOpen k.conn || k.src != (s.conn i).peerNode || p.src != (s.conn i).peerAddr) = false := by
    simp [hup, hopen, hnode, haddr]
  simp only [receive, hfcs, hk, hmine, ← hi, hon, hpol, hkey, htag, hreplay, ← hu2, ← hu3, ← hu, Bool.not_true, Bool.false_eq_true, if_false]
  rfl

end
end

/-! ### Timers of a connection (R390, R391, R393, R396) -/

section
variable {i psn : Nat} {s u : State} {c : Conn}

section
variable {p : TxPkt} (hc : c = s.conn i) (hp : c.pkts.find? (·.psn == psn) = some p) (hdue : p.due = false) (hqueued : p.queued = false)
  (hsent : p.sends ≠ 0)
include hc hp hdue hqueued hsent

/-- A packet sent as often as the limit allows makes its connection fail (R391). -/
theorem retransmit_limit (hlimit : s.fld Reg.ITP_RETX 15 8 < p.sends) : retransmit s i psn = connError s i := by
  simp [retransmit, ← hc, hp, hdue, hqueued, hsent, Nat.succ_le_of_lt hlimit]

/-- Below the limit the packet is due again, and its path takes a strike (R391, R443). -/
theorem retransmit_due (hroom : p.sends ≤ s.fld Reg.ITP_RETX 15 8) : retransmit s i psn =
    chargeStrike (s.setConn i { c with pkts := c.pkts.map fun q => if q.psn = psn then { q with due := true } else q }) c.peerNode p.path := by
  have hnot : ¬ s.fld Reg.ITP_RETX 15 8 + 1 ≤ p.sends := by omega
  simp [retransmit, ← hc, hp, hdue, hqueued, hsent, hnot]

end

variable (hlt : i < 4096) (hc : c = s.conn i)
include hlt hc

theorem exec_ackDelayTimeout_due {t : Nat} (hsince : c.ackSince = some t) (hu : reachUp s (t + s.fld Reg.ITP_ACK 31 16) = some u) :
    exec (.ackDelayTimeout i) s = .next (ackNow u i) := by
  simp only [exec, execAckDelayTimeout, Nat.mod_eq_of_lt hlt, ← hc, hsince, hu]

theorem exec_ackDelayTimeout_none (hsince : c.ackSince = none) : exec (.ackDelayTimeout i) s = .next s := by
  simp only [exec, execAckDelayTimeout, Nat.mod_eq_of_lt hlt, ← hc, hsince]

theorem exec_retransmitTimeout_due {p : TxPkt} (hp : c.pkts.find? (·.psn == psn) = some p) (hdue : p.due = false) (hqueued : p.queued = false)
    (hsent : p.sends ≠ 0) (hst : c.st = .open_) (hen : s.en .itp 0 = true) (hsend : s.canSend i = true)
    (hu : reachUp s (p.at_ + 1600 * max 1 (s.fld Reg.ITP_RETX 31 16)) = some u) :
    exec (.retransmitTimeout i psn) s = .next (retransmit u i psn) := by
  simp [exec, execRetransmitTimeout, Nat.mod_eq_of_lt hlt, ← hc, hp, hdue, hqueued, hsent, hst, hen, hsend, hu]

section
variable {msn : Nat} {m : RxMsg} (hm : c.msgs.find? (·.msn == msn) = some m)
include hm

/-- A message older than its timeout makes its connection fail (R393). -/
theorem exec_messageTimeout_old (hold : m.since + max 1 (s.fld Reg.ITP_MSG_TO 15 0) ≤ s.time.tick) :
    exec (.messageTimeout i msn) s = .next (connError s i) := by
  simp only [exec, execMessageTimeout, Nat.mod_eq_of_lt hlt, ← hc, hm, hold, if_true]

theorem exec_messageTimeout_young (hyoung : s.time.tick < m.since + max 1 (s.fld Reg.ITP_MSG_TO 15 0)) :
    exec (.messageTimeout i msn) s = .next s := by
  simp only [exec, execMessageTimeout, Nat.mod_eq_of_lt hlt, ← hc, hm, Nat.not_le.mpr hyoung, if_false]

end

/-- At the end of its period an open connection takes the rate of `ccRate` (R396). -/
theorem exec_ccPeriodEnd_open (hst : c.st = .open_) (hu : reachUp s (c.ccAt + ccPeriod s) = some u) :
    exec (.ccPeriodEnd i) s = .next (u.setConn i { c with rate := ccRate s c, ceSeen := false, ccAt := u.time.up }) := by
  simp [exec, execCcPeriodEnd, Nat.mod_eq_of_lt hlt, ← hc, hst, hu]

theorem exec_ccPeriodEnd_free (hst : c.st = .free) : exec (.ccPeriodEnd i) s = .next s := by
  simp [exec, execCcPeriodEnd, Nat.mod_eq_of_lt hlt, ← hc, hst]

end

/-- Congestion marked: the rate is cut by its share, within its limits (R396). -/
theorem ccRate_cut {s : State} {c : Conn} (hce : c.ceSeen = true) : ccRate s c =
    min (portRate s (pathPort s c.peerNode 0)) (max (s.fld Reg.ITP_CC_MIN 23 0) (c.rate - c.rate / 2 ^ max 1 (s.fld Reg.ITP_CC 3 0))) := by
  simp only [ccRate, hce, if_true]

/-- No congestion marked: the rate is raised by its step, within its limits (R396). -/
theorem ccRate_raised {s : State} {c : Conn} (hce : c.ceSeen = false) : ccRate s c =
    min (portRate s (pathPort s c.peerNode 0)) (max (s.fld Reg.ITP_CC_MIN 23 0) (c.rate + s.fld Reg.ITP_CC 31 8)) := by
  simp only [ccRate, hce, Bool.false_eq_true, if_false]

/-! ### The statement -/

/-- Settles O47: each command of arriving packets is `receive` for its opcodes, and each timer goes by its own limit. -/
theorem packetsAreCheckedAndTimersAct : Obligations.PacketsAreCheckedAndTimersAct := by
  refine ⟨fun p k s s1 i slot hfcs hk hi => ⟨fun hup hopen hnode haddr => ⟨fun hpol => ?police, fun hpol hkey => ?noKey,
    fun hpol hkey => ⟨?taken, fun htag => ?tag, fun plain htag hreplay => ?replay⟩⟩, fun hoff => ?offConn, ?others, ?badFcs⟩, ?timers⟩
  case police => exact congrArg _ (receive_beyondPolicing hfcs hk rfl hi hup hopen hnode haddr hpol)
  case noKey => exact congrArg _ (receive_noKey hfcs hk rfl hi hup hopen hnode haddr hpol hkey)
  case tag => exact congrArg _ (receive_badTag hfcs hk rfl hi hup hopen hnode haddr hpol hkey htag)
  case replay => exact congrArg _ (receive_replayed hfcs hk rfl hi hup hopen hnode haddr hpol hkey htag hreplay)
  case offConn => exact congrArg _ (receive_offConn hfcs hk rfl hi hoff)
  case taken =>
    intro plain v u u2 u3 htag hreplay hu2 hu3 hu
    have act (only : Nat → Bool) (hmine : only k.op = true) : receive only p s = opcodeAct u i p.port { k with body := plain } :=
      receive_taken hfcs hk hmine hi hup hopen hnode haddr hpol hkey htag hreplay hu2 hu3 hu
    have own (op : Nat) (hop : k.op = op) : receive (· == op) p s = opcodeAct u i p.port { k with body := plain } :=
      act (· == op) (beq_iff_eq.mpr hop)
    have seq (op : Nat) (hop : k.op = op) (hseq : isSeq op = true) : receive (· == op) p s = rxSeq u i p.port { k with body := plain } :=
      (own op hop).trans (opcodeAct_seq (hop ▸ hseq) u i p.port)
    refine ⟨fun hop => ⟨congrArg _ ((own 0x05 hop).trans ?ack), congrArg _ ((act _ rfl).trans ?ack)⟩,
      fun hop => ⟨congrArg _ ((own 0x06 hop).trans ?nak), congrArg _ ((act _ rfl).trans ?nak)⟩,
      fun hop => congrArg _ ((own 0x07 hop).trans ?hello), fun hop => congrArg _ (seq 0x01 hop rfl),
      fun hop => congrArg _ (seq 0x02 hop rfl), fun hop => congrArg _ (seq 0x03 hop rfl), fun hop => congrArg _ (seq 0x04 hop rfl)⟩
    case ack => exact opcodeAct_ack (k := { k with body := plain }) hop u i p.port
    case nak => exact opcodeAct_nak (k := { k with body := plain }) hop u i p.port
    case hello => exact opcodeAct_hello (k := { k with body := plain }) hop u i p.port
  case others =>
    intro c hmem hne
    simp only [List.mem_cons, List.not_mem_nil, or_false] at hmem
    rcases hmem with rfl | rfl | rfl | rfl | rfl | rfl | rfl
    all_goals exact congrArg _ (receive_otherOpcode hfcs hk hne)
  case badFcs =>
    intro q hq c hmem
    simp only [List.mem_cons, List.not_mem_nil, or_false] at hmem
    rcases hmem with rfl | rfl | rfl | rfl | rfl | rfl | rfl | rfl
    all_goals exact congrArg _ (receive_badFcs hq _ s)
  case timers =>
    intro i s c hlt hc
    refine ⟨fun t u => exec_ackDelayTimeout_due hlt hc, exec_ackDelayTimeout_none hlt hc, fun psn p u => exec_retransmitTimeout_due hlt hc,
      fun psn p hp hdue hqueued hsent => ⟨retransmit_limit hc hp hdue hqueued hsent, retransmit_due hc hp hdue hqueued hsent⟩,
      fun msn m hm => ⟨exec_messageTimeout_old hlt hc hm, exec_messageTimeout_young hlt hc hm⟩, ?period, exec_ccPeriodEnd_free hlt hc⟩
    case period =>
      rintro hst _ _ u rfl rfl hu
      have hend := exec_ccPeriodEnd_open hlt hc hst hu
      exact ⟨fun hce => by rw [hend, ccRate_cut hce], fun hce => by rw [hend, ccRate_raised hce]⟩

end Sys2Proof.Machine
end

section
/-!
SUPPORT. The proof of the statement of spec/13_ports_and_time.md about the Ethernet ports and the management ports: the frames they receive (R356,
R359), their links (R358), the transmit rings (R361, R362, R368) and the management ports (R373).
-/

namespace Sys2Proof.Machine

/-! ### Frames at a data port (R356, R359) -/

/-- Where a frame of the port's own VLAN goes (R359): on to the transport, to the receive ring, or nowhere. -/
def frameGoes (s : State) (n port : Nat) (f : List Nat) (vid : Option Nat) (et : Nat) (body : List Nat) : FrameWay → State
  | .itp => s
  | .punt kind => puntFrame s n port kind (vid.getD 0) et f body
  | .drop => rxDropFrame s n

section
variable {port n k fc fu : Nat} {s v : State} {f : List Nat} (hn : n = port / 8) (hsub : subPort s port = some k) (hlink : linkIsUp s port = true)
  (hbytes : ∀ x ∈ f, x < 256) (hv : v = (s.countBy (Reg.ETH_FEC_CORR n) fc).countBy (Reg.ETH_FEC_UNCORR n) fu)
include hn hsub hlink hbytes hv

/-- A frame of no legal length, or for another address, is dropped, whatever its checksum (R359). -/
theorem exec_frameReceive_notMine (hbad : f.length < 60 ∨ 9212 < f.length ∨ macAccepted (portMac v n k) (macOf f 0) = false) (fcs : Bool) :
    exec (.frameReceive port fcs ⟨f, fc, fu⟩) s = .next (rxDropFrame v n) := by
  by_cases hlen : f.length < 60 ∨ 9212 < f.length
  · simp only [exec, execFrameReceive, hsub, hlink, ← hn, map_byte hbytes, ← hv, hlen, Bool.not_true, Bool.false_eq_true, if_false, if_true]
  · have hmac : macAccepted (portMac v n k) (macOf f 0) = false :=
      (hbad.resolve_left fun h => hlen (.inl h)).resolve_left fun h => hlen (.inr h)
    simp only [exec, execFrameReceive, hsub, hlink, ← hn, map_byte hbytes, ← hv, hlen, hmac, Bool.not_true, Bool.not_false, Bool.false_eq_true,
      if_false, if_true]

variable (hlen : ¬ (f.length < 60 ∨ 9212 < f.length)) (hmac : macAccepted (portMac v n k) (macOf f 0) = true)
include hlen hmac

/-- An accepted frame with a bad checksum is counted as received and as bad (R360). -/
theorem exec_frameReceive_badFcs : exec (.frameReceive port false ⟨f, fc, fu⟩) s =
    .next ((v.count (Reg.ETH_RX_FRAMES n)).count (Reg.ETH_FCS_ERR n)) := by
  simp only [exec, execFrameReceive, hsub, hlink, ← hn, map_byte hbytes, ← hv, hlen, hmac, Bool.not_true, Bool.not_false, Bool.false_eq_true,
    if_false, if_true]

/-- A frame with a service tag, or tagged twice, is dropped (R359). -/
theorem exec_frameReceive_badTag (htag : frameTag f = none) : exec (.frameReceive port true ⟨f, fc, fu⟩) s =
    .next (rxDropFrame (v.count (Reg.ETH_RX_FRAMES n)) n) := by
  simp only [exec, execFrameReceive, hsub, hlink, ← hn, map_byte hbytes, ← hv, hlen, hmac, htag, Bool.not_true, Bool.false_eq_true, if_false]

variable {vid : Option Nat} {et : Nat} {body : List Nat} (htag : frameTag f = some (vid, et, body))
include htag

theorem exec_frameReceive_otherVlan
    (hvlan : (if v.bit (Reg.ETH_VLAN n k) 12 then vid == some (v.fld (Reg.ETH_VLAN n k) 11 0) else vid.getD 0 == 0) = false) :
    exec (.frameReceive port true ⟨f, fc, fu⟩) s = .next (rxDropFrame (v.count (Reg.ETH_RX_FRAMES n)) n) := by
  simp only [exec, execFrameReceive, hsub, hlink, ← hn, map_byte hbytes, ← hv, hlen, hmac, htag, hvlan, Bool.not_true, Bool.not_false,
    Bool.false_eq_true, if_false, if_true]

/-- A frame of the port's VLAN goes the way that `sortFrame` finds (R359). -/
theorem exec_frameReceive_ownVlan
    (hvlan : (if v.bit (Reg.ETH_VLAN n k) 12 then vid == some (v.fld (Reg.ETH_VLAN n k) 11 0) else vid.getD 0 == 0) = true)
    {way : FrameWay} (hway : sortFrame (v.count (Reg.ETH_RX_FRAMES n)) et body = way) :
    exec (.frameReceive port true ⟨f, fc, fu⟩) s = .next (frameGoes (v.count (Reg.ETH_RX_FRAMES n)) n port f vid et body way) := by
  simp only [exec, execFrameReceive, hsub, hlink, ← hn, map_byte hbytes, ← hv, hlen, hmac, htag, hvlan, hway, Bool.not_true,
    Bool.false_eq_true, if_false]
  cases way <;> rfl

end

/-! ### Links of a data port (R358) -/

theorem subPort_lt {s : State} {port k : Nat} (hsub : subPort s port = some k) : port < 64 := by
  simp only [subPort, Option.ite_none_right_eq_some] at hsub
  obtain ⟨⟨hlt, -⟩, -⟩ := hsub
  exact hlt

section
variable {port n k : Nat} {s : State} (hn : n = port / 8) (hsub : subPort s port = some k) (hlink : linkIsUp s port = true)
include hn hsub hlink

theorem linkIsUp_stat : s.bit (Reg.ETH_PSTAT n k) 0 = true := by
  simp only [linkIsUp, hsub, ← hn, Bool.and_eq_true] at hlink
  exact hlink.2

theorem exec_linkChange_stays : exec (.linkChange port true) s = .next s := by
  simp [exec, execLinkChange, Nat.not_le.mpr (subPort_lt hsub), hsub, ← hn, linkIsUp_stat hn hsub hlink]

theorem exec_linkChange_falls : exec (.linkChange port false) s =
    .next (synceTurn (event (s.setRg (Reg.ETH_PSTAT n k) 0) .eth n 3 { i0 := port })) := by
  simp [exec, execLinkChange, Nat.not_le.mpr (subPort_lt hsub), hsub, ← hn, linkIsUp_stat hn hsub hlink]

end

/-! ### Transmit rings (R361, R362, R368) -/

section
variable {ring a slot : Nat} {s : State} (hring : ring < 3) (ha : a = fringBase ring 1) (hslot : slot = fringSlot s a (s.rg (a + 0x10)))
  (hfilled : (s.rg (a + 0x0C) + 2 ^ 32 - s.rg (a + 0x10)) % 2 ^ 32 ≠ 0) (hused : fringOk s a = true)
include hring ha hslot hfilled hused

/-- A slot of no legal length or port is written back unsent (R362). -/
theorem exec_controlTxDone_malformed (hbad : txSlotOk s ring slot = false) : exec (.controlTxDone ring) s =
    .next (txWriteBack { s with txGiven := SMap.set s.txGiven 0 ring (SMap.get s.txGiven 0 ring - 1) } ring stMALFORMED 0) := by
  simp only [exec, execControlTxDone, Nat.mod_eq_of_lt hring, ← ha, hfilled, hused, ← hslot, hbad, not_true, or_self, Bool.not_false, if_false,
    if_true]

/-- A frame of the data ports that has left is written back with the time at which it started (R368). -/
theorem exec_controlTxDone_sent {rd ts : Nat} (hlegal : txSlotOk s ring slot = true) (heth : ring = 0) (hrd : rd = s.rg (a + 0x10) % 2 ^ 32)
    (hts : SMap.get s.txDone 0 rd = ts + 1) (hgiven : SMap.get s.txGiven 0 0 ≠ 0) : exec (.controlTxDone ring) s = .next (txWriteBack { s with
      txGiven := SMap.set s.txGiven 0 0 (SMap.get s.txGiven 0 0 - 1), txDone := SMap.set s.txDone 0 rd 0 } 0 stOK ts) := by
  subst heth
  simp only [exec, execControlTxDone, Nat.zero_mod, ← ha, hfilled, hused, ← hslot, hlegal, ← hrd, hts, hgiven, not_true, or_self, Bool.not_true,
    Bool.false_eq_true, ne_eq, Nat.add_one_ne_zero, not_false_eq_true, and_self, Nat.add_sub_cancel, if_false, if_true]

end

/-! ### The management ports (R358, R359, R361) -/

section
variable {n : Nat} {s : State} {f : List Nat} (hn : n < 2) (hbytes : ∀ x ∈ f, x < 256)

section
variable (hdown : s.bit (Reg.MGT_STAT n) 0 = false)
include hn hdown

theorem exec_mgtFrameReceive_down (fcs : Bool) : exec (.mgtFrameReceive n fcs f) s = .next s := by
  simp [exec, execMgtFrameReceive, Nat.mod_eq_of_lt hn, hdown]

theorem exec_linkChange_mgtRises (hen : s.en .mgt n = true) :
    exec (.linkChange (64 + n) true) s = .next (event (s.setRg (Reg.MGT_STAT n) 1) .mgt n 3 { i0 := 64 + n }) := by
  have hmod : (64 + n) % 2 = n := by omega
  simp [exec, execLinkChange, hmod, hdown, hen, b2n]

end

variable (hup : s.bit (Reg.MGT_STAT n) 0 = true)
include hn hup

theorem exec_linkChange_mgtFalls :
    exec (.linkChange (64 + n) false) s = .next (event (s.setRg (Reg.MGT_STAT n) 0) .mgt n 3 { i0 := 64 + n }) := by
  have hmod : (64 + n) % 2 = n := by omega
  simp [exec, execLinkChange, hmod, hup, b2n]

variable (hen : s.en .mgt n = true)
include hen

theorem exec_mgtFrameReceive_badFcs : exec (.mgtFrameReceive n false f) s = .next (s.count (Reg.MGT_RX_DROP n)) := by
  simp [exec, execMgtFrameReceive, Nat.mod_eq_of_lt hn, hup, hen]

theorem exec_mgtFrameReceive_badLength (hlen : f.length < 60 ∨ 2016 < f.length) (fcs : Bool) :
    exec (.mgtFrameReceive n fcs f) s = .next (s.count (Reg.MGT_RX_DROP n)) := by
  rcases hlen with hshort | hlong
  · simp [exec, execMgtFrameReceive, Nat.mod_eq_of_lt hn, hup, hen, hshort]
  · simp [exec, execMgtFrameReceive, Nat.mod_eq_of_lt hn, hup, hen, hlong]

include hbytes

/-- An address resolution or discovery message to the port or to all is counted and punted with its kind (R359, R361). -/
theorem exec_mgtFrameReceive_punted {et kind : Nat} (hkind : (et, kind) ∈ [(0x0806, 4), (0x88CC, 3)]) (hmin : 60 ≤ f.length) (hmax : f.length ≤ 2016)
    (het : beAt f 12 2 = et) (hip : ipParts et (f.drop 14) = none)
    (hmac : macOf f 0 = s.rg (Reg.MGT_MAC_LO n) + s.fld (Reg.MGT_MAC_HI n) 15 0 * 2 ^ 32 ∨ macOf f 0 = 0xFFFFFFFFFFFF) :
    exec (.mgtFrameReceive n true f) s = .next (puntWrite (s.count (Reg.MGT_RX_FRAMES n)) (n + 1) (64 + n) kind 0 none f) := by
  have hsorted : (if et = 0x0806 then 4 else if et = 0x88CC then 3 else 0) = kind ∧ kind ≠ 0 := by
    simp only [List.mem_cons, List.not_mem_nil, or_false, Prod.mk.injEq] at hkind
    rcases hkind with ⟨rfl, rfl⟩ | ⟨rfl, rfl⟩ <;> decide
  have hmine : (macOf f 0 == s.rg (Reg.MGT_MAC_LO n) + s.fld (Reg.MGT_MAC_HI n) 15 0 * 2 ^ 32 || macOf f 0 == 0xFFFFFFFFFFFF) = true := by
    simpa using hmac
  simp only [exec, execMgtFrameReceive, Nat.mod_eq_of_lt hn, map_byte hbytes, het, hip, hsorted, hmine, hen, hup, Nat.not_lt.mpr hmin,
    Nat.not_lt.mpr hmax, beq_eq_false_iff_ne.mpr hsorted.2, decide_false, Bool.and_self, Bool.not_true, Bool.true_or, Bool.or_self, Bool.false_eq_true,
    if_false]

end

/-! ### The statement -/

/-- Settles O45: a frame by the first check that it fails, a link by whether it changes, a transmit slot by its length, port and sending. -/
theorem portsTakeAndSendTheirFrames : Obligations.PortsTakeAndSendTheirFrames := by
  refine ⟨⟨?data, fun ring wr s hring => exec_txRingWrite s wr hring, ?rings⟩, ?mgt⟩
  case data =>
    intro port n k fc fu s v f hn hsub hlink hbytes hv
    refine ⟨fun hmin hmax hmac => ?accepted, exec_frameReceive_notMine hn hsub hlink hbytes hv,
      fun _ => ⟨hn ▸ exec_fecDegrade_up (subPort_lt hsub) hsub hlink, exec_linkChange_stays hn hsub hlink, exec_linkChange_falls hn hsub hlink⟩⟩
    case accepted =>
      have hlen : ¬ (f.length < 60 ∨ 9212 < f.length) := by omega
      refine ⟨exec_frameReceive_badFcs hn hsub hlink hbytes hv hlen hmac, exec_frameReceive_badTag hn hsub hlink hbytes hv hlen hmac,
        fun vid et body htag => ⟨exec_frameReceive_otherVlan hn hsub hlink hbytes hv hlen hmac htag, fun hvlan => ?own⟩⟩
      case own =>
        have goes {way : FrameWay} := exec_frameReceive_ownVlan hn hsub hlink hbytes hv hlen hmac htag hvlan (way := way)
        exact ⟨goes, fun kind => goes, goes⟩
  case rings =>
    rintro ring _ _ s hring rfl rfl hfilled hused
    exact ⟨exec_controlTxDone_malformed hring rfl rfl hfilled hused,
      fun hlegal hmgt => exec_controlTxDone_mgt hmgt hring hfilled hused hlegal, fun rd ts => exec_controlTxDone_sent hring rfl rfl hfilled hused⟩
  case mgt =>
    exact fun n s f hn hbytes => ⟨fun hen hup => ⟨fun et kind => exec_mgtFrameReceive_punted hn hbytes hup hen,
      exec_mgtFrameReceive_badFcs hn hup hen, exec_mgtFrameReceive_badLength hn hup hen, exec_linkChange_mgtFalls hn hup⟩,
      fun hdown => ⟨exec_mgtFrameReceive_down hn hdown, exec_linkChange_mgtRises hn hdown⟩⟩

end Sys2Proof.Machine
end

section
/-!
SUPPORT. The proof of the statement of spec/14_isgan_transport.md about opening and closing connections (R386) and about validating and revoking
registered regions (R398, R401).
-/

namespace Sys2Proof.Machine

/-! ### Connections (R386) -/

section
variable {i : Nat} {s : State} {c : Conn} (hi : i < 4096) (hc : c = s.conn i)
include hi hc

/-- An open that passes every check marks the connection as opening and asks for the key of its transmit epoch (R386, R480). -/
theorem exec_connOpen_asks (hfree : c.st = .free) (hidle : c.opening = false) (hup : s.up .itp 0 = true) (hmin : 4 ≤ c.seg) (hmax : c.seg ≤ 128)
    (howns : ownsConn s c.part i = true) (hjob : (jobOf s c.part c.job).isSome = true) :
    exec (.connOpen i) s = .next (deriveAsk (s.setConn i { c with opening := true }) i c.txEpoch true) := by
  have hnone : ¬ (jobOf s c.part c.job).isNone = true :=
    fun h => Option.isSome_iff_ne_none.mp hjob (Option.isNone_iff_eq_none.mp h)
  simp only [exec, execConnOpen, Nat.mod_eq_of_lt hi, ← hc, hfree, hidle, hup, howns, Nat.not_lt.mpr hmin, Nat.not_lt.mpr hmax, hnone, ne_eq,
    not_true, Bool.not_true, Bool.false_eq_true, or_self, if_false]

/-- An open that fails one check changes nothing but the status. -/
theorem exec_connOpen_refused (hbad : c.st ≠ .free ∨ c.opening = true ∨ c.seg < 4 ∨ 128 < c.seg ∨ s.up .itp 0 = false ∨ ownsConn s c.part i = false
      ∨ jobOf s c.part c.job = none) : exec (.connOpen i) s = .next (cmdStat s stMALFORMED) := by
  simp only [exec, execConnOpen, Nat.mod_eq_of_lt hi, ← hc]
  refine if_pos (hbad.imp_right (Or.imp_right fun hlate => ?_))
  simp only [Bool.not_eq_true', Option.isNone_iff_eq_none]
  rcases hlate with hshort | hlong | hdown | hpart
  · exact .inr (.inl hshort)
  · exact .inr (.inr (.inl hlong))
  · exact .inl hdown
  · exact .inr (.inr (.inr hpart))

theorem exec_connClose_free (hfree : c.st = .free) : exec (.connClose i) s = .next (cmdStat s stMALFORMED) := by
  simp only [exec, execConnClose, Nat.mod_eq_of_lt hi, ← hc, hfree, if_true]

theorem exec_connClose_used (hused : c.st ≠ .free) : exec (.connClose i) s = .next (cmdStat (connClose s i) stOK) := by
  simp only [exec, execConnClose, Nat.mod_eq_of_lt hi, ← hc, hused, if_false]

end

/-! ### Registered regions (R398, R401) -/

/-- What VALIDATE asks of a region of the table besides its state (R398): a range in memory, owned by the partition that its entry names. -/
def regionSound (s : State) (i : Nat) : Prop :=
  rangeOk (s.readLE (regionAddr s i) 8) (s.readLE (regionAddr s i + 8) 8) = true ∧ ownsRegion s (s.byte (regionAddr s i + 20) % 64) i = true

section
variable {i : Nat} {s : State} (hi : i < 2 ^ 20)
include hi

section
variable (hin : i < s.fld Reg.ITP_REG_CFG 20 0)
include hin

/-- VALIDATE of a sound region that is free or revoked; one that was free starts from the generation that the last device reset drew (R526). -/
theorem exec_regionValidate_taken (hst : regionState s i = 0 ∨ regionState s i = 3) (hsound : regionSound s i) :
    exec (.regionValidate i) s =
      .next (cmdStat (setRegionId s i (regionGen s i + if regionState s i = 0 then initGen s.boot 3 i else 0) 1) stOK) := by
  simp only [exec, execRegionValidate, Nat.mod_eq_of_lt hi]
  exact if_pos ⟨hin, hst, hsound⟩

theorem exec_regionRevoke_valid (hst : regionState s i = 1) :
    exec (.regionRevoke i) s = .next (cmdStat (setRegionId s i (regionGen s i + 1) 2) stOK) := by
  simp only [exec, execRegionRevoke, revokeRegion, Nat.mod_eq_of_lt hi, hin, hst, and_self, if_true]

theorem exec_revokeDone_idle (hst : regionState s i = 2) (hidle : regionInflight s i = 0) :
    exec (.revokeDone i) s = .next (event (setRegionId s i (regionGen s i) 3) .itp 0 3 { i0 := i, i1 := regionGen s i }) := by
  simp only [exec, execRevokeDone, Nat.mod_eq_of_lt hi, hin, hst, hidle, and_self, if_true]

end

/-- VALIDATE of a region outside the table, valid or revoking, or not sound, changes nothing but the status. -/
theorem exec_regionValidate_refused (hbad : s.fld Reg.ITP_REG_CFG 20 0 ≤ i ∨ regionState s i = 1 ∨ regionState s i = 2 ∨ ¬ regionSound s i) :
    exec (.regionValidate i) s = .next (cmdStat s stMALFORMED) := by
  simp only [exec, execRegionValidate, Nat.mod_eq_of_lt hi]
  refine if_neg fun ⟨hin, hst, hsound⟩ => ?_
  rcases hbad with hout | hvalid | hrevoking | hnot
  · omega
  · omega
  · omega
  · exact hnot hsound

theorem exec_regionRevoke_refused (hbad : s.fld Reg.ITP_REG_CFG 20 0 ≤ i ∨ regionState s i ≠ 1) :
    exec (.regionRevoke i) s = .next (cmdStat s stMALFORMED) := by
  simp only [exec, execRegionRevoke, Nat.mod_eq_of_lt hi]
  exact if_neg fun ⟨hin, hst⟩ => hbad.elim (Nat.not_le.mpr hin) (· hst)

theorem exec_revokeDone_waits (hnot : s.fld Reg.ITP_REG_CFG 20 0 ≤ i ∨ regionState s i ≠ 2 ∨ regionInflight s i ≠ 0) :
    exec (.revokeDone i) s = .next s := by
  simp only [exec, execRevokeDone, Nat.mod_eq_of_lt hi]
  refine if_neg fun ⟨hin, hst, hidle⟩ => ?_
  rcases hnot with hout | hother | hbusy
  · omega
  · exact hother hst
  · exact hbusy hidle

end

/-! ### The status of a transport command -/

theorem cmdStat_rg {s : State} (hok : s.ok) {st : Nat} (hst : st < 256) : (cmdStat s st).rg Reg.ITP_CMD_STAT = st := by
  rw [cmdStat, State.rg_setRg s _ _ _ hok, if_pos rfl]
  omega

/-! ### The statement -/

/-- Settles O48: an open or a close by the connection's checks, a region's command by its place in the table, its state and its range. -/
theorem connectionsAndRegionsOpenAndClose : Obligations.ConnectionsAndRegionsOpenAndClose := by
  refine ⟨fun i s c hi hc => ⟨exec_connOpen_asks hi hc, exec_connOpen_refused hi hc, exec_connClose_free hi hc, exec_connClose_used hi hc⟩,
    fun i s hi => ⟨fun hin => ?inTable, fun hout => ?outside⟩, fun s st hok => cmdStat_rg hok⟩
  case inTable =>
    refine ⟨fun hst hrange howns => ?revoked, fun hst hrange howns => ?free, fun hbad => exec_regionValidate_refused hi (.inr (hbad.imp_right (Or.imp_right ?unsound))),
      exec_regionRevoke_valid hi hin, fun hst => exec_regionRevoke_refused hi (.inr hst), exec_revokeDone_idle hi hin,
      fun hnot => exec_revokeDone_waits hi (.inr hnot)⟩
    case revoked =>
      rw [exec_regionValidate_taken hi hin (.inr hst) ⟨hrange, howns⟩, hst, if_neg (by decide), Nat.add_zero]
    case free =>
      rw [exec_regionValidate_taken hi hin (.inl hst) ⟨hrange, howns⟩, if_pos hst]
    case unsound =>
      refine fun hbad ⟨hrange', howns'⟩ => ?_
      rcases hbad with hrange | howns
      · exact Bool.false_ne_true (hrange.symm.trans hrange')
      · exact Bool.false_ne_true (howns.symm.trans howns')
  case outside =>
    exact ⟨exec_regionValidate_refused hi (.inl hout), exec_regionRevoke_refused hi (.inl hout), exec_revokeDone_waits hi (.inl hout)⟩

end Sys2Proof.Machine
end

section
/-!
SUPPORT. The proof of the statement of spec/15_egress_scheduling.md about egress queues (R421), transmit decisions (R429), gate edges (R423) and queue
telemetry (R432).
-/

namespace Sys2Proof.Machine

/-! ### What a source offers (R421) -/

section
variable {i slot : Nat} {s : State} {c : Conn} (hi : i < 4096) (hc : c = s.conn i) (hkey : s.liveKey i c.txEpoch = some slot) (hopen : c.st = .open_)
  (hup : s.up .itp 0 = true) (hsend : s.canSend i = true)
include hi hc hkey hopen hup hsend

theorem exec_egressEnqueue_ctl {x : Ctl} {r : List Ctl} (hctl : c.ctl = x :: r) : exec (.egressEnqueue i) s = .next (offerCtl s i slot x) := by
  simp only [exec, execEgressEnqueue, Nat.not_le.mpr hi, ← hc, hkey, hopen, hup, hsend, hctl, ne_eq, not_true, Bool.not_true, Bool.false_eq_true,
    or_self, if_false]

theorem exec_egressEnqueue_pkt {p : TxPkt} {m : TxMsg} (hctl : c.ctl = []) (hnext : nextPkt s c = some (p, m)) :
    exec (.egressEnqueue i) s = .next (offerPkt s i slot p m) := by
  simp only [exec, execEgressEnqueue, Nat.not_le.mpr hi, ← hc, hkey, hopen, hup, hsend, hctl, hnext, ne_eq, not_true, Bool.not_true,
    Bool.false_eq_true, or_self, if_false]

end

theorem exec_egressEnqueue_ring {src : Nat} (hsrc : 4096 ≤ src) (s : State) : exec (.egressEnqueue src) s = .next (offerRing s) := by
  simp only [exec, execEgressEnqueue, hsrc, if_true]

/-! ### What a port starts to send (R429, R506) -/

section
variable {port n k : Nat} {s : State} (hn : n = port / 8) (hsub : subPort s port = some k)
include hsub

theorem exec_transmitDecision_busy (hbusy : (s.port port).wire.isSome = true) (bad : Bool) : exec (.transmitDecision port bad) s = .next s := by
  simp only [exec, execTransmitDecision, hsub, hbusy, true_or, if_true]

include hn

/-- A free port starts the frame of the queue that its round-robin picks; one read with an uncorrectable error goes out spoiled (R429, R506). -/
theorem exec_transmitDecision_starts {p1 : Port} {q : Nat} (hidle : (s.port port).wire = none) (hup : s.up .rak n = true) (hlink : linkIsUp s port = true)
    (hready : (List.range 64).any (egEligible s port k (s.port port)) = true)
    (hpick : drr s port k (drrOrder (s.port port).ptr) (s.port port) = (p1, some q)) (bad : Bool) :
    exec (.transmitDecision port bad) s = .next (if bad then
      (fault (spoilFcs (startFrame s port q p1) port) .rak n 0x68 none port q).count Reg.BST_INT_UNCORR else startFrame s port q p1) := by
  simp only [exec, execTransmitDecision, hsub, hidle, ← hn, hup, hlink, hready, hpick, Option.isSome_none, Bool.not_true, Bool.false_eq_true, or_self,
    if_false]

end

/-! ### The end of a frame (R421, R368) -/

/-- A frame of RAKn has left: its bytes leave the buffer, which offers see from the next cc on, and it is counted (R421). -/
def frameLeft (v : State) (n bytes : Nat) : State :=
  { v with
    egBuf := SMap.set v.egBuf 0 n (SMap.get v.egBuf 0 n - bytes)
    egLeft := SMap.set v.egLeft (0, 0) n (v.time.up + 1,
      (if (SMap.get v.egLeft (0, 0) n).1 = v.time.up + 1 then (SMap.get v.egLeft (0, 0) n).2 else 0) + bytes) }.count (Reg.ETH_TX_FRAMES n)

section
variable {port : Nat} {s u w : State} {x : OnWire} (hwire : (s.port port).wire = some x) (hu : reachUp s x.fin = some u)
  (hw : w = frameLeft (u.setPort port { u.port port with wire := none }) (port / 8) x.frame.bytes)
include hwire hu hw

/-- The start time of a control frame is kept for its slot's write-back (R368). -/
theorem exec_frameTxEnd_ring {slot : Nat} (hkind : x.frame.kind = .ring slot) :
    exec (.frameTxEnd port) s = .next { w with txDone := SMap.set w.txDone 0 slot (x.ts + 1) } := by
  subst hw
  simp only [exec, execFrameTxEnd, hwire, hu, hkind]
  rfl

theorem exec_frameTxEnd_packet (hkind : ∀ slot, x.frame.kind ≠ .ring slot) : exec (.frameTxEnd port) s = .next w := by
  subst hw
  simp only [exec, execFrameTxEnd, hwire, hu]
  cases hx : x.frame.kind with
  | ring slot => exact absurd hx (hkind slot)
  | ctl _ => rfl
  | pkt _ _ => rfl

end

theorem exec_frameTxEnd_idle {port : Nat} {s : State} (hwire : (s.port port).wire = none) : exec (.frameTxEnd port) s = .next s := by
  simp only [exec, execFrameTxEnd, hwire]

/-! ### Gate edges (R423) -/

theorem exec_gateEdge_next {port k o m : Nat} {s : State} (hsub : subPort s port = some k)
    (hedge : (gateList s port).find? (fun x => decide (s.time.cc < x.1)) = some (o, m)) (hrun : s.time.running = true) :
    exec (.gateEdge port) s = .next (overrun (s.ccTo o) port (gateMask (gateList s port) s.time.cc) m) := by
  simp only [exec, execGateEdge, hsub, hedge, hrun, if_true]

/-! ### Telemetry (R432) -/

section
variable {n : Nat} {s : State} (hn : n < 8)
include hn

theorem exec_telemetrySample_off (hper : s.fld (Reg.RAK_TEL_PERIOD n) 23 0 = 0) : exec (.telemetrySample n) s = .next s := by
  simp only [exec, execTelemetrySample, Nat.mod_eq_of_lt hn, hper, true_or, if_true]

variable {per at_ : Nat} (hper : per = s.fld (Reg.RAK_TEL_PERIOD n) 23 0)
  (hat : at_ = (if s.time.cc % per = 0 ∧ SMap.get s.telAt 0 n ≠ s.time.up + 1 then s.time.cc else (s.time.cc / per + 1) * per))
include hper hat

/-- An instant that the tick does not reach is not sampled. -/
theorem exec_telemetrySample_past (hpast : s.lcc ≤ at_) : exec (.telemetrySample n) s = .next s := by
  simp only [exec, execTelemetrySample, Nat.mod_eq_of_lt hn, ← hper, ← hat, hpast, if_true, ite_self]

theorem exec_telemetrySample_taken (hpos : per ≠ 0) (hup : s.up .rak n = true) (hrun : s.time.running = true) (hin : at_ < s.lcc) :
    exec (.telemetrySample n) s = .next ((List.range 8).foldl (telEntry n)
      { s.ccTo at_ with telAt := SMap.set (s.ccTo at_).telAt 0 n ((s.ccTo at_).time.up + 1) }) := by
  simp only [exec, execTelemetrySample, Nat.mod_eq_of_lt hn, ← hper, ← hat, hpos, hup, hrun, Nat.not_le.mpr hin, Bool.not_true, Bool.false_eq_true,
    or_self, if_false]

end

/-- The first sampling instant lies at the current cc or behind it (R432). -/
theorem cc_le_telemetryInstant {cc per : Nat} (hper : per ≠ 0) (here : Prop) [Decidable here] : cc ≤ if here then cc else (cc / per + 1) * per := by
  split
  · exact Nat.le_refl cc
  · rw [Nat.add_one_mul]
    have := Nat.div_add_mod' cc per
    have := Nat.mod_lt cc (Nat.pos_of_ne_zero hper)
    omega

section
variable {n e l w : Nat} {s : State} (hw : w = s.rg (Reg.RAK_TEL_SEL n e))
include hw

theorem telEntry_off (hoff : bitOf w 15 = false) : telEntry n s e = s := by
  simp only [telEntry, ← hw, hoff, Bool.not_false, if_true]
  split <;> rfl

variable (hon : bitOf w 15 = true) (hport : (List.range 8).find? (fun l => subPort s (8 * n + l) == some (bitsOf w 2 0)) = some l)
include hon hport

theorem telEntry_fed {ch : Nat} (hch : feedChannel s (n + 1) = some ch) : telEntry n s e =
    { s with feeds := SMap.set s.feeds [] n (SMap.get s.feeds [] n ++ [feedRecord s (8 * n + l) (8 * bitsOf w 5 3 + bitsOf w 8 6)]) } := by
  simp only [telEntry, ← hw, hon, hport, hch, Bool.not_true, Bool.false_eq_true, Option.isSome_some, if_false, if_true]

theorem telEntry_lost (hch : feedChannel s (n + 1) = none) : telEntry n s e = event0 (s.count (Reg.RAK_TEL_LOST n)) .rak n 3 := by
  simp only [telEntry, ← hw, hon, hport, hch, Bool.not_true, Bool.false_eq_true, Option.isSome_none, if_false]

end

/-! ### The statement -/

/-- Settles O50: an offer by its source, a decision by the state of the port, a frame's end by the frame's kind, a sample by its instant. -/
theorem egressQueuesSendAndSample : Obligations.EgressQueuesSendAndSample := by
  refine ⟨fun i slot s c hi hc hkey hopen hup hsend => ⟨fun x r => exec_egressEnqueue_ctl hi hc hkey hopen hup hsend,
      fun p m => exec_egressEnqueue_pkt hi hc hkey hopen hup hsend⟩,
    fun src s hsrc => exec_egressEnqueue_ring hsrc s,
    fun port n k s hn hsub => ⟨exec_transmitDecision_busy hsub, fun p1 q hidle hup hlink hready hpick => ?starts⟩,
    ?ends, fun port s => exec_frameTxEnd_idle, fun port k o m s => exec_gateEdge_next, ?untaken, ?taken,
    fun n e l w s hw => ⟨telEntry_off hw, fun hon hport => ⟨fun ch => telEntry_fed hw hon hport, telEntry_lost hw hon hport⟩⟩⟩
  case starts =>
    have starts := exec_transmitDecision_starts hn hsub hidle hup hlink hready hpick
    exact ⟨starts false, starts true⟩
  case ends =>
    rintro port s u v w x hwire hu rfl hw
    exact ⟨fun slot => exec_frameTxEnd_ring hwire hu hw, exec_frameTxEnd_packet hwire hu hw⟩
  case untaken =>
    intro n s hn hoff
    by_cases hper : s.fld (Reg.RAK_TEL_PERIOD n) 23 0 = 0
    · exact exec_telemetrySample_off hn hper
    · exact exec_telemetrySample_past hn rfl rfl (Nat.le_trans (hoff.resolve_left hper) (cc_le_telemetryInstant hper _))
  case taken =>
    rintro n per at_ s u hn hper hpos hup hrun hat hin rfl
    exact exec_telemetrySample_taken hn hper hat hpos hup hrun hin

end Sys2Proof.Machine
end

section
/-!
SUPPORT. The proof of the statement of spec/16_fabric_membership.md about the next epoch (R447), mirror commands (R453), probes (R444), copies of a
snapshot (R459) and holdover (R464).
-/

namespace Sys2Proof.Machine

/-! ### The next epoch (R447) -/

section
variable {s : State} {v : Nat} (hv : v < 2 ^ 32)
include hv

theorem exec_fabEpochNextWrite_past (hpast : seqDiff v (s.rg Reg.FAB_EPOCH) ≤ 0) :
    exec (.fabEpochNextWrite v) s = .next (event0 (s.count Reg.FAB_SKEW) .fab 0 3) := by
  simp only [exec, execFabEpochNextWrite, Nat.mod_eq_of_lt hv, hpast, if_true]

theorem exec_fabEpochNextWrite_waits (hahead : 0 < seqDiff v (s.rg Reg.FAB_EPOCH)) (hrun : s.time.running = true) :
    exec (.fabEpochNextWrite v) s = .next { s with rwt := SMap.set s.rwt 0 Reg.FAB_EPOCH_NEXT (v + 1) } := by
  simp only [exec, execFabEpochNextWrite, Nat.mod_eq_of_lt hv, Int.not_le.mpr hahead, hrun, if_false, if_true]

end

/-! ### Mirror commands (R453) -/

/-- The commands that write FAB_MCMD, each with its operation. -/
def mirrorCommands (slot gen : Nat) : List (Nat × Instr) :=
  [(1, .snap slot gen), (2, .sync slot gen), (3, .breakMsg slot gen), (4, .importMsg slot gen)]

theorem exec_mirrorCommand {slot gen : Nat} {c : Nat × Instr} (hmem : c ∈ mirrorCommands slot gen) (s : State) :
    exec c.2 s = .next (mcmdWrite slot gen c.1 s) := by
  simp only [mirrorCommands, List.mem_cons, List.not_mem_nil, or_false] at hmem
  rcases hmem with rfl | rfl | rfl | rfl
  all_goals rfl

/-! ### Probes (R444) -/

theorem exec_helloProbePeriod_due {s : State} (hup : s.up .fab 0 = true) (hdue : max 1 (s.fld Reg.FAB_HEALTH 23 8) ≤ s.fab.helloTicks) :
    exec .helloProbePeriod s = .next { (validPeers s).foldl probePeer s with
      fab := { ((validPeers s).foldl probePeer s).fab with helloTicks := 0, rot := ((validPeers s).foldl probePeer s).fab.rot + 1 } } := by
  simp only [exec, execHelloProbePeriod, hup, Nat.not_lt.mpr hdue, Bool.not_true, Bool.false_eq_true, or_self, if_false]

theorem exec_helloProbePeriod_early {s : State} (hearly : s.up .fab 0 = false ∨ s.fab.helloTicks < max 1 (s.fld Reg.FAB_HEALTH 23 8)) :
    exec .helloProbePeriod s = .next s :=
  if_pos (hearly.imp_left fun hoff => by rw [hoff, Bool.not_false])

/-! ### The copies of a snapshot (R459) -/

theorem exec_snapshotCopyDone_copied {s : State} {n : Snap} {x : SnapLane} {lane : Nat} (hsnap : s.fab.snap = some n)
    (hx : n.lanes.find? (fun x => x.lane == lane && !x.copied) = some x) (hen : s.en .frm 0 = true) {u : State}
    (hu : u = copyLoc s (s.loc x.src) (s.loc x.dst)) : exec (.snapshotCopyDone lane) s = .next { u with
      fab := { u.fab with snap := some { n with lanes := n.lanes.map fun y => if y = x then { y with copied := true } else y } } } := by
  simp only [exec, execSnapshotCopyDone, hsnap, hx, hen, ← hu, Bool.not_true, Bool.false_eq_true, if_false]

/-! ### Holdover (R464) -/

theorem exec_holdoverServingStop_stops {s : State} (hhold : s.bit Reg.PTP_STAT 0 = true) (hserving : s.fab.notServing = false)
    (hlong : s.fld Reg.FAB_HOLD 23 0 ≤ s.fab.holdTicks) : exec .holdoverServingStop s = .next (suspect
      (event { s with fab := { s.fab with notServing := true } } .fab 0 9 { i0 := s.fld Reg.FAB_HOLD 23 0 }) (s.fld Reg.FAB_NODE_ID 15 0) 4 0) :=
  if_pos ⟨hhold, hserving, hlong⟩

theorem exec_holdoverServingStop_serves {s : State}
    (hnot : s.bit Reg.PTP_STAT 0 = false ∨ s.fab.notServing = true ∨ s.fab.holdTicks < s.fld Reg.FAB_HOLD 23 0) :
    exec .holdoverServingStop s = .next s := by
  refine if_neg fun ⟨hhold, hserving, hlong⟩ => ?_
  rcases hnot with hlocked | hstopped | hshort
  · exact Bool.false_ne_true (hlocked.symm.trans hhold)
  · exact Bool.false_ne_true (hserving.symm.trans hstopped)
  · exact Nat.not_le.mpr hshort hlong

/-! ### The statement -/

/-- Settles O51: each command by whether it waits for the boundary, is due, or finds what it names. -/
theorem fabricCommandsWaitOrRunAtOnce : Obligations.FabricCommandsWaitOrRunAtOnce := by
  refine fun s => ⟨fun v hv => ⟨exec_fabEpochNextWrite_past hv, exec_fabEpochNextWrite_waits hv⟩, ?mirror,
    fun hup hdue => ⟨_, exec_helloProbePeriod_due hup hdue, rfl⟩, exec_helloProbePeriod_early,
    fun n x lane hsnap hx hen u hu => exec_snapshotCopyDone_copied hsnap hx hen hu, exec_holdoverServingStop_stops, exec_holdoverServingStop_serves⟩
  case mirror =>
    intro hrun hrises slot gen hslot hgen c hmem
    obtain ⟨hpend, honly⟩ := mcmdWrite_pending s hrun hrises slot gen c.1 hslot hgen
    exact ⟨_, exec_mirrorCommand hmem s, hpend, honly⟩

end Sys2Proof.Machine
end

section
/-!
SUPPORT. The proofs of the statements of spec/17_partitions_keys_attestation.md about SPDM requests (R475, R499), secured sessions (R475, R476) and
Weaholt's vendor commands (R477, R478).
-/

namespace Sys2Proof.Machine

/-! ### A request that is taken -/

section
variable {s s1 : State} {h : MgtHead}

theorem spdmRun_taken {l : Option Nat} (htake : mgtTake s h = .run s1 l) (act : State → Option Nat → State) : spdmRun s h act = act s1 l := by
  simp only [spdmRun, htake]

theorem spdmAnswer_taken {l : Option Nat} (htake : mgtTake s h = .run s1 l) (m : Spdm) : spdmAnswer s h m = spdmReply s1 h m :=
  spdmRun_taken htake _

/-- The requests of SPDM with one answer each, whatever the level (R475, R499). -/
def spdmAnswers (h : MgtHead) : List (Instr × Spdm) :=
  [(.getVersion h, .version), (.getCapabilities h, .capabilities), (.negotiateAlgorithms h, .algorithms), (.getDigests h, .digests),
    (.getCertificate h 0, .certificate), (.challenge h, .challengeAuth), (.chunkSend h, .chunkSendAck), (.chunkGet h, .chunkResponse),
    (.unsupportedSpdmRequest h, .unsupportedRequest)]

theorem exec_spdmAnswer {c : Instr × Spdm} (hmem : c ∈ spdmAnswers h) (s : State) : exec c.1 s = .next (spdmAnswer s h c.2) := by
  simp only [spdmAnswers, List.mem_cons, List.not_mem_nil, or_false] at hmem
  rcases hmem with rfl | rfl | rfl | rfl | rfl | rfl | rfl | rfl | rfl
  all_goals rfl

theorem exec_getMeasurements_some {l : Option Nat} (htake : mgtTake s h = .run s1 l) {i : Nat} {v : List Nat} (hv : measurement s1 i = some v) :
    exec (.getMeasurements h i) s = .next (spdmReply s1 h (.measurements i v)) := by
  simp only [exec, execGetMeasurements, spdmRun_taken htake, hv]

end

/-- Settles O16: a request that is taken gets the answer of its kind. -/
theorem spdmRequestsAreAnswered : Obligations.SpdmRequestsAreAnswered := by
  intro h s s1 l htake
  have answer (c : Instr × Spdm) (hmem : c ∈ spdmAnswers h) : exec c.1 s = .next (spdmReply s1 h c.2) :=
    (exec_spdmAnswer hmem s).trans (congrArg _ (spdmAnswer_taken htake c.2))
  simp only [spdmAnswers, List.forall_mem_cons] at answer
  obtain ⟨version, capabilities, algorithms, digests, certificate, challenge, chunkSend, chunkGet, unsupported, -⟩ := answer
  exact ⟨version, capabilities, algorithms, digests, certificate, challenge, chunkSend, chunkGet, unsupported,
    fun i v => exec_getMeasurements_some htake⟩

/-! ### Secured sessions (R475, R476) -/

section
variable {s s1 : State} {h : MgtHead}

section
variable (htake : mgtTake s h = .run s1 none) (rq : Nat) (secret : List Nat)
include htake

theorem exec_keyExchange_adds (hroom : s1.mgt.sessions.length < 16) : exec (.keyExchange h rq true secret) s =
    .next (spdmReply { s1.draw with mgt := { s1.mgt with sessions := s1.mgt.sessions ++
      [⟨rq % 65536 * 65536 + rspPick s1, none, 0, none, s1.time.up, secret⟩] } } h (.keyExchangeRsp (rspPick s1))) := by
  simp only [exec, execKeyExchange, spdmRun_taken htake, Option.isSome_none, Bool.not_true, Bool.false_eq_true, or_self, Nat.not_le.mpr hroom, if_false]

theorem exec_keyExchange_full (hfull : 16 ≤ s1.mgt.sessions.length) :
    exec (.keyExchange h rq true secret) s = .next (spdmReply s1 h .sessionLimitExceeded) := by
  simp only [exec, execKeyExchange, spdmRun_taken htake, Option.isSome_none, Bool.not_true, Bool.false_eq_true, or_self, hfull, if_false, if_true]

theorem exec_keyExchange_unauthenticated : exec (.keyExchange h rq false secret) s = .next (spdmReply s1 h .error) := by
  simp only [exec, execKeyExchange, spdmRun_taken htake, Bool.not_false, or_true, if_true]

end

theorem exec_finish_verified {l : Option Nat} (htake : mgtTake s h = .run s1 l) {id digest k : Nat} {x : Sess}
    (hx : s1.mgt.sessions.find? (fun y => y.id == id && y.level.isNone) = some x) (hlevel : levelOf s1 digest = some k) :
    exec (.finish h id true digest) s = .next (spdmReply (setSess s1 { x with level := some k, heard := s1.time.up }) h .finishRsp) := by
  simp only [exec, execFinish, spdmRun_taken htake, hx, hlevel, if_true]

/-- The state without the sessions of an id. -/
def dropSess (s : State) (id : Nat) : State := { s with mgt := { s.mgt with sessions := s.mgt.sessions.filter (·.id != id) } }

theorem dropSess_gone (s : State) (id : Nat) : ∀ y ∈ (dropSess s id).mgt.sessions, y.id ≠ id := fun _ hy => by
  simpa using (List.mem_filter.mp hy).2

/-- The acknowledgement goes out before the session ends (R475). -/
theorem exec_endSession_taken {k : Nat} (htake : mgtTake s h = .run s1 (some k)) :
    exec (.endSession h) s = .next (dropSess (spdmReply s1 h .endSessionAck) h.session) := by
  simp only [exec, execEndSession, spdmRun_taken htake, Option.isNone_some, Bool.false_eq_true, if_false]
  rfl

theorem exec_sessionTimeout_due {id : Nat} {x : Sess} (hx : s.mgt.sessions.find? (·.id == id) = some x)
    (hu : reachUp s (x.heard + 960000000000) = some s1) : exec (.sessionTimeout id) s = .next (dropSess s1 id) := by
  simp only [exec, execSessionTimeout, hx, hu]
  rfl

end

/-- Settles O17: a KEY_EXCHANGE by the room for a session, FINISH by the requester's key, and the ends of a session as its removal. -/
theorem securedSessionsBeginAndEnd : Obligations.SecuredSessionsBeginAndEnd := by
  refine ⟨fun h s s1 rq secret htake => ⟨exec_keyExchange_adds htake rq secret, exec_keyExchange_full htake rq secret,
      exec_keyExchange_unauthenticated htake rq secret⟩, fun h s s1 l id digest k x htake => exec_finish_verified htake, ?ended,
    fun id s s1 x => exec_sessionTimeout_due⟩
  case ended =>
    intro h s s1 k htake
    exact ⟨_, exec_endSession_taken htake, dropSess_gone _ _, mgtReply_only s1 h _ s1.mgt, rfl⟩

/-! ### Vendor commands (R477, R478) -/

/-- A job of a partition is imported by the owner and by the partition's supervisor (R473, R478). -/
theorem importJob_may {part l : Nat} (hpart : part < 64) (hlevel : l = 0 ∨ l = 1 + part) :
    (decide (part < 64) && (l == 0 || l == 1 + part)) = true := by
  simp only [hpart, decide_true, Bool.true_and, Bool.or_eq_true, beq_iff_eq, hlevel]

section
variable {s s1 : State} {h : MgtHead}

theorem vendorRun_open (htake : mgtTake s h = .run s1 none) (may : State → Nat → Bool) (act : State → State) :
    vendorRun s h may act = spdmReply s1 h (.vendor [stAUTH]) := spdmRun_taken htake _

variable {l : Nat} (htake : mgtTake s h = .run s1 (some l))
include htake

theorem vendorRun_taken (may : State → Nat → Bool) (act : State → State) :
    vendorRun s h may act = if may s1 l then act s1 else spdmReply s1 h (.vendor [stAUTH]) := spdmRun_taken htake _

theorem exec_getReport_asks {nonce : List Nat} (hlen : nonce.length = 32) :
    exec (.getReport h nonce) s = .next (reportAsk s1 nonce (.session h.session)) := by
  simp only [exec, execGetReport, vendorRun_taken htake, hlen, if_true]

theorem exec_getChallenge_answers : exec (.getChallenge h) s = .next (spdmReply s1 h (.vendor (regBytes s1 Reg.ATT_CHAL 8))) := by
  simp only [exec, execGetChallenge, vendorRun_taken htake, if_true]

theorem exec_token_submits (token : List Nat) : exec (.token h token) s = .next (tokenSubmit s1 token (.session h.session)) := by
  simp only [exec, execToken, vendorRun_taken htake, if_true]

section
variable {part i : Nat} (hpart : part < 64) (hlevel : l = 0 ∨ l = 1 + part) (job : Nat) (iv wrapped : List Nat)
  (hfree : (List.range 1024).find? (fun i => !(SMap.get s1.itp.jobs {} i).valid) = some i)
include hpart hlevel hfree

/-- A job whose checks hold goes into the lowest free slot, with the key that its wrapping holds (R478). -/
theorem exec_importJob_imports (hst : importStatus s1 part job (some []) = stOK) {k : List Nat}
    (hkey : jobUnwrap (((s1.mgt.sessions.find? (·.id == h.session)).map (·.secret)).getD []) part job iv wrapped = some k) :
    exec (.importJob h part job iv wrapped) s =
      .next (spdmReply { s1 with itp := { s1.itp with jobs := SMap.set s1.itp.jobs {} i ⟨true, part, job % 2 ^ 32, k⟩ } } h
        (.vendor ([stOK, 0] ++ toLE 2 i))) := by
  have hstk : importStatus s1 part job (some k) = stOK := hst
  simp only [exec, execImportJob, vendorRun_taken htake, importJob_may hpart hlevel, hfree, hkey, hstk, if_true]

/-- A wrapping whose tag does not verify imports nothing (R478). -/
theorem exec_importJob_refused
    (hkey : jobUnwrap (((s1.mgt.sessions.find? (·.id == h.session)).map (·.secret)).getD []) part job iv wrapped = none) :
    exec (.importJob h part job iv wrapped) s =
      .next (spdmReply (event s1 .key 0 3 { status := stAUTH, part := some part }) h (.vendor [stAUTH, 0, 0, 0])) := by
  have hstk : importStatus s1 part job none = stAUTH := rfl
  simp only [exec, execImportJob, vendorRun_taken htake, importJob_may hpart hlevel, hfree, hkey, hstk, if_true]

end

theorem exec_dropJob_drops {slot : Nat} (hvalid : (SMap.get s1.itp.jobs {} slot).valid = true)
    (hunnamed : jobNamed s1 (SMap.get s1.itp.jobs {} slot) = false) (hlevel : l = 0 ∨ l = 1 + (SMap.get s1.itp.jobs {} slot).part) :
    exec (.dropJob h slot) s =
      .next (spdmReply { s1 with itp := { s1.itp with jobs := SMap.set s1.itp.jobs {} slot {} } } h (.vendor [stOK])) := by
  have hmay : (l == 0 || l == 1 + (SMap.get s1.itp.jobs {} slot).part) = true := by simp [hlevel]
  simp only [exec, execDropJob, vendorRun_taken htake, hvalid, hunnamed, Bool.true_and, hmay, Bool.not_true, Bool.or_self, Bool.false_eq_true,
    if_false, if_true]

end

/-- Settles O18: at a level that may, each command acts; on the open session each answers AUTH. -/
theorem vendorCommandsActAtTheirLevel : Obligations.VendorCommandsActAtTheirLevel := by
  refine ⟨fun h s s1 l htake => ⟨fun nonce => exec_getReport_asks htake, exec_getChallenge_answers htake, exec_token_submits htake, ?job,
    fun slot => exec_dropJob_drops htake⟩, fun h s s1 htake nonce part job slot iv wrapped token => ?opened⟩
  case job =>
    rintro part job i iv wrapped _ hpart hlevel hst hfree rfl
    exact ⟨fun k => exec_importJob_imports htake hpart hlevel job iv wrapped hfree hst, exec_importJob_refused htake hpart hlevel job iv wrapped hfree⟩
  case opened =>
    have auth (may : State → Nat → Bool) (act : State → State) : (.next (vendorRun s h may act) : Host.Outcome State Fault Refusal) =
        .next (spdmReply s1 h (.vendor [stAUTH])) :=
      congrArg _ (vendorRun_open htake may act)
    exact ⟨auth _ _, auth _ _, auth _ _, auth _ _, auth _ _⟩

end Sys2Proof.Machine
end

section
/-!
SUPPORT. The proofs of the statements of spec/17_partitions_keys_attestation.md about key commands and derivations (R480, R481) and about the two
commands of a partition's reset (R484, R485).
-/

namespace Sys2Proof.Machine

/-! ### Key commands (R29, R481, R501) -/

section
variable {s : State} (op k : Nat)

theorem keyCmd_halted (hhalt : s.halted .key 0 = true) : keyCmd op k s = s := by
  simp only [keyCmd, hhalt, if_true]

variable (hrun : s.halted .key 0 = false)
include hrun

theorem keyCmd_lost (hbusy : s.bit Reg.KEY_CMD_STAT 8 = true) (hfull : 64 ≤ s.itp.keyCmds.length) : keyCmd op k s = s := by
  simp only [keyCmd, hrun, hbusy, Nat.not_lt.mpr hfull, Bool.false_eq_true, if_false, if_true]

variable {k} (hk : k < 4096)
include hk

theorem keyCmd_idle (hidle : s.bit Reg.KEY_CMD_STAT 8 = false) : keyCmd op k s = keyDo s op k := by
  simp only [keyCmd, Nat.mod_eq_of_lt hk, hrun, hidle, Bool.false_eq_true, if_false]

theorem keyCmd_waits (hbusy : s.bit Reg.KEY_CMD_STAT 8 = true) (hroom : s.itp.keyCmds.length < 64) :
    keyCmd op k s = { s with itp := { s.itp with keyCmds := s.itp.keyCmds ++ [(op, k)] } } := by
  simp only [keyCmd, Nat.mod_eq_of_lt hk, hrun, hbusy, hroom, Bool.false_eq_true, if_false, if_true]

end

/-- The commands that write KEY_CMD, each with its operation. -/
def keyCommands (k : Nat) : List (Nat × Instr) := [(1, .installNext k), (2, .txSwitch k), (3, .retireOld k), (4, .rekeyJob k)]

theorem exec_keyCommand {k : Nat} {c : Nat × Instr} (hmem : c ∈ keyCommands k) (s : State) : exec c.2 s = .next (keyCmd c.1 k s) := by
  simp only [keyCommands, List.mem_cons, List.not_mem_nil, or_false] at hmem
  rcases hmem with rfl | rfl | rfl | rfl
  all_goals rfl

/-! ### The end of a derivation (R480) -/

theorem keyServe_none {s : State} (n : Nat) (hnone : s.itp.keyCmds = []) : keyServe (n + 1) s = s := by
  simp only [keyServe, hnone]

theorem exec_keyDerivationDone_none {s : State} (hnone : s.itp.derives = []) : exec .keyDerivationDone s = .next s := by
  simp only [exec, execKeyDerivationDone, hnone]

section
variable {s v u : State} {d : Derive} {r : List Derive} (hd : s.itp.derives = d :: r)
include hd

theorem exec_keyDerivationDone_early (hearly : reachUp s d.due = none) : exec .keyDerivationDone s = .next s := by
  simp only [exec, execKeyDerivationDone, hd, hearly]

variable (hv : reachUp s d.due = some v) (hu : u = deriveEnd { v with itp := { v.itp with derives := r } } d)
include hv hu

theorem exec_keyDerivationDone_more (hmore : r ≠ []) : exec .keyDerivationDone s = .next u := by
  simp only [exec, execKeyDerivationDone, hd, hv, ← hu, List.isEmpty_iff, hmore, if_false]

theorem exec_keyDerivationDone_last (hlast : r = []) : exec .keyDerivationDone s =
    .next (keyServe (u.itp.keyCmds.length + 1) (u.setFld Reg.KEY_CMD_STAT 8 8 0)) := by
  simp only [exec, execKeyDerivationDone, hd, hv, ← hu]
  exact if_pos (List.isEmpty_iff.mpr hlast)

end

theorem deriveEnd_stale {s : State} {d : Derive} (hstale : s.connCurrent d.conn = false) : deriveEnd s d = s := by
  simp only [deriveEnd, hstale, Bool.not_false, if_true]

/-- Settles O52: a key command by whether the block halts or derives, a derivation by whether its time has come and whether it is the last. -/
theorem keyCommandsRunInOrderOrWait : Obligations.KeyCommandsRunInOrderOrWait := by
  refine ⟨fun s k hk c hmem => ?commands,
    fun s v u d r hd hv hu => ⟨exec_keyDerivationDone_more hd hv hu, exec_keyDerivationDone_last hd hv hu, ?idle⟩,
    fun s => exec_keyDerivationDone_none, fun s d r => exec_keyDerivationDone_early, fun s d => deriveEnd_stale⟩
  case commands =>
    rw [exec_keyCommand hmem s]
    exact ⟨fun hhalt => congrArg _ (keyCmd_halted c.1 k hhalt), fun hrun hidle => congrArg _ (keyCmd_idle c.1 hrun hk hidle),
      fun hrun hbusy hroom => congrArg _ (keyCmd_waits c.1 hrun hk hbusy hroom), fun hrun hbusy hfull => congrArg _ (keyCmd_lost c.1 k hrun hbusy hfull)⟩
  case idle =>
    intro hlast hnone
    have hserved : (u.setFld Reg.KEY_CMD_STAT 8 8 0).itp.keyCmds = [] := hnone
    rw [exec_keyDerivationDone_last hd hv hu hlast, keyServe_none _ hserved]

/-! ### The start of a partition's reset (R484) -/

theorem exec_prtResetStart_again {s : State} {p : Nat} (hp : p < 64) (hreset : resetting s p = true) :
    exec (.prtResetStart p) s = .next (rstStat s stMALFORMED p) := by
  simp only [exec, execPrtResetStart, Nat.mod_eq_of_lt hp, hreset, if_true]

/-- A reset that begins zeroes the partition's jobs and lists its key slots, two of each connection, to retire (R480, R484). -/
theorem resetBegun_eq {s : State} {p a b : Nat} (hconn : (boundsOf s.rg p).conn = (a, b)) : resetBegun s p = { s with
    itp := { s.itp with jobs := s.itp.jobs.filter fun kv => kv.2.part != p },
    prt := { s.prt with retiring := s.prt.retiring ++ [⟨p, 2 * a, 2 * b⟩], kept := SMap.set s.prt.kept 0 p 0 } } := by
  simp only [resetBegun, retirePart, hconn]

theorem resetting_retiring {s : State} {p : Nat} (hret : s.prt.retiring.any (·.part == p) = true) : resetting s p = true := by
  rw [resetting, hret, Bool.or_true]

/-! ### Key slots retire as time passes (R484) -/

section
variable {s : State} {r : Retire} (hr : s.prt.retiring = [r]) {n : Nat}
include hr

theorem ccPass_retires (hn : n < max 1 (ceilDiv r.left 8)) : s.ccPass n = { (retireSlots s r.first (8 * n)).clock n with
    prt := { ((retireSlots s r.first (8 * n)).clock n).prt with retiring := [{ r with first := r.first + 8 * n, left := r.left - 8 * n }] } } := by
  simp only [State.ccPass, hr, retireRun, hn, if_true]

/-- With the last of its slots the partition is RETIRED (R484). -/
theorem ccPass_retired (hn : n = max 1 (ceilDiv r.left 8)) : s.ccPass n =
    { (retireEnd ((retireSlots s r.first r.left).clock n) r.part).clock 0 with
      prt := { ((retireEnd ((retireSlots s r.first r.left).clock n) r.part).clock 0).prt with retiring := [] } } := by
  simp only [State.ccPass, hr, retireRun, ← hn, Nat.lt_irrefl, Nat.sub_self, if_false]
  rfl

end

/-! ### The commit of a partition's reset (R485) -/

theorem exec_prtResetCommit_refused {s : State} {p : Nat} (hp : p < 64) (hbad : partState s p ≠ 2 ∨ s.prt.commits.contains p = true) :
    exec (.prtResetCommit p) s = .next (rstStat s stMALFORMED p) := by
  simp only [exec, execPrtResetCommit, Nat.mod_eq_of_lt hp, hbad, if_true]

/-- Settles O53: a start by whether the partition resets already, the slots by the cycles that pass, a commit by the partition's state. -/
theorem partitionsResetInTwoCommands : Obligations.PartitionsResetInTwoCommands := by
  refine fun p s hp => ⟨exec_prtResetStart_again hp, fun hidle a b hconn => ⟨_, exec_prtResetStart_begun hp hidle, resetBegun_eq hconn⟩,
    resetting_retiring, fun r hr => ⟨fun n hn => ⟨_, rfl, ccPass_retires hr hn⟩, fun n hn => ⟨_, rfl, ccPass_retired hr hn⟩⟩,
    fun hstate => exec_prtResetCommit_refused hp (.inl hstate), fun hret hrun => ⟨fun hnew => exec_prtResetCommit_waits hp hret hnew hrun,
      fun htwice => exec_prtResetCommit_refused hp (.inr htwice)⟩, fun hok st hst => rstStat_reads hok hst hp⟩

end Sys2Proof.Machine
end

section
/-!
SUPPORT. The proof of the statement of spec/17_partitions_keys_attestation.md and spec/19_startup_and_monitor.md about anti-rollback and boot slots
(R492, R494, R525), the commands of the attestation block (R503), signed reports (R499) and tokens (R495 to R497).
-/

namespace Sys2Proof.Machine

/-! ### Anti-rollback (R492) -/

/-- The anti-rollback counters raised to the versions of the boot slot's images, at most 64 (R492). -/
def arbRaised (s : State) : State :=
  (List.range 3).foldl (fun t k => t.setFld Reg.LCS_ARB (8 * k + 6) (8 * k) (max (arbOf t k) (min 64 (t.image (bootSlot s) k).svn))) s

theorem exec_commitArb_fits {s : State} (hfit : ∀ k < 3, (s.image (bootSlot s) k).svn ≤ 64) :
    exec .commitArb s = .next (event0 (lcsStat (arbRaised s) stOK) .lcs 0 5) := by
  have hbig : ((List.range 3).any fun k => decide (64 < (s.image (bootSlot s) k).svn)) = false := by
    simpa only [List.any_eq_false, List.mem_range, decide_eq_true_eq, Nat.not_lt] using hfit
  simp only [exec, execCommitArb, hbig, Bool.false_eq_true, if_false]
  rfl

theorem exec_commitArb_larger {s : State} (hlarge : ∃ k, k < 3 ∧ 64 < (s.image (bootSlot s) k).svn) :
    exec .commitArb s = .next (event0 (lcsStat (arbRaised s) stMALFORMED) .lcs 0 5) := by
  have hbig : ((List.range 3).any fun k => decide (64 < (s.image (bootSlot s) k).svn)) = true := by
    simpa only [List.any_eq_true, List.mem_range, decide_eq_true_eq] using hlarge
  simp only [exec, execCommitArb, hbig, if_true]
  rfl

/-! ### The attestation block (R503) -/

section
variable {s : State}

section
variable (hbusy : attTakes s = false)
include hbusy

theorem exec_newchal_busy : exec .newchal s = .next s := by
  simp only [exec, execNewchal, hbusy, Bool.false_eq_true, if_false]

theorem exec_report_busy : exec .report s = .next s := by
  simp only [exec, execReport, hbusy, Bool.not_false, if_true]

theorem exec_attToken_busy : exec .attToken s = .next s := by
  simp only [exec, execAttToken, hbusy, Bool.not_false, if_true]

end

variable (htakes : attTakes s = true)
include htakes

theorem exec_newchal_draws : exec .newchal s = .next (attStat (newChallenge s) stOK) := by
  simp only [exec, execNewchal, htakes, if_true]

theorem exec_report_asks (hbuf : attBufOk s = true) :
    exec .report s = .next (attBusy (reportAsk s (regBytes s Reg.ATT_NONCE 8) (.mem (attBuf s))) true) := by
  simp only [exec, execReport, htakes, hbuf, Bool.not_true, Bool.false_eq_true, if_false]

theorem exec_report_malformed (hbuf : attBufOk s = false) : exec .report s = .next (attStat s stMALFORMED) := by
  simp only [exec, execReport, htakes, hbuf, Bool.not_true, Bool.not_false, Bool.false_eq_true, if_false, if_true]

theorem exec_attToken_submits (hbuf : attBufOk s = true) :
    exec .attToken s = .next (tokenSubmit (attBusy s true) (s.readBytes (attBuf s) 252) (.mem (attBuf s))) := by
  simp only [exec, execAttToken, htakes, hbuf, Bool.not_true, Bool.false_eq_true, if_false]

theorem exec_attToken_malformed (hbuf : attBufOk s = false) : exec .attToken s = .next (attStat s stMALFORMED) := by
  simp only [exec, execAttToken, htakes, hbuf, Bool.not_true, Bool.not_false, Bool.false_eq_true, if_false, if_true]

end

/-! ### Signed reports (R499) -/

section
variable {s u : State} {r : ReportJob} {rest : List ReportJob} (hr : s.lcs.reports = r :: rest) (hu : u = { s with lcs := { s.lcs with reports := rest } })
include hr hu

theorem exec_reportSigned_buffer {a : Nat} (hdest : r.dest = .mem a) : exec .reportSigned s =
    .next (event0 (attBusy (attStat (u.putBytes a (signReport s r.bytes)) stOK) false) .att 0 3) := by
  simp only [exec, execReportSigned, hr, hdest, ← hu]

theorem exec_reportSigned_session {id : Nat} (hdest : r.dest = .session id) :
    exec .reportSigned s = .next (mgtAnswer u id (.vendor (signReport s r.bytes))) := by
  simp only [exec, execReportSigned, hr, hdest, ← hu]

/-- A report for the serial console is printed, and stands in the buffer too where that lies in memory (R498, R503). -/
theorem exec_reportSigned_serial (hdest : r.dest = .serial) (hbuf : attBufOk u = true) {v : State}
    (hv : v = u.putBytes (attBuf u) (signReport s r.bytes)) :
    exec .reportSigned s = .next (event0 { v with uart := { status := stOK, out := signReport s r.bytes } } .att 0 3) := by
  simp only [exec, execReportSigned, hr, hdest, ← hu, hbuf, if_true, ← hv]

end

/-! ### Tokens (R495 to R497) -/

section
variable {s u : State} {t : Submitted} {rest : List Submitted} (ht : s.lcs.tokens = t :: rest) {kind : Nat} (effect : List Nat → State → State)
include ht

theorem tokenJudge_other (hkind : tokKind t.bytes ≠ kind) : tokenJudge kind effect s = s := by
  simp only [tokenJudge, ht, hkind, ne_eq, not_false_eq_true, if_true]

variable (hu : u = { s with lcs := { s.lcs with tokens := rest } }) (hkind : tokKind t.bytes = kind)
include hu hkind

theorem tokenJudge_accepted (hgood : tokAccepted s t.bytes = true) :
    tokenJudge kind effect s = tokenTell (newChallenge (effect t.bytes u)) t.from_ stOK := by
  simp only [tokenJudge, ht, hkind, hgood, ← hu, ne_eq, not_true, if_false, if_true]

theorem tokenJudge_refused (hbad : tokAccepted s t.bytes = false) :
    tokenJudge kind effect s = event0 (tokenTell (newChallenge u) t.from_ stAUTH) .att 0 4 := by
  simp only [tokenJudge, ht, hkind, hbad, ← hu, ne_eq, not_true, Bool.false_eq_true, if_false]

end

/-- The commands that judge a token: the kind that each takes, and what an accepted token with these bytes does (R496, R497). -/
def tokenCommands (b : List Nat) : List (Nat × Instr × (State → State)) :=
  [(1, .debugUnlock, fun v => event0 { v with lcs := { v.lcs with unlock := Nat.lor v.lcs.unlock (tokScope b % 8) } } .lcs 0 3),
    (2, .deploy, fun v => setLife (setWords v Reg.LCS_OWNER ((List.range 12).map fun k => tokKeyDigest b / 2 ^ (32 * k) % 2 ^ 32)) 2),
    (3, .enterRma, fun v => setLife (rmaClear v) 3), (4, .scrap, fun v => setLife v 4), (5, .provision, fun v => setLife v 1)]

/-- Each command of a token is its judgement as the command's kind, with an effect that on the token in front is the command's own. -/
theorem exec_tokenCommand {b : List Nat} {c : Nat × Instr × (State → State)} (hmem : c ∈ tokenCommands b) (s : State) :
    ∃ effect, exec c.2.1 s = .next (tokenJudge c.1 effect s) ∧ effect b = c.2.2 := by
  simp only [tokenCommands, List.mem_cons, List.not_mem_nil, or_false] at hmem
  rcases hmem with rfl | rfl | rfl | rfl | rfl
  all_goals exact ⟨_, rfl, rfl⟩

/-! ### The statement -/

/-- Settles O54: a command of the attestation block by whether it is taken and its buffer, a report by its destination, a token by its kind and
acceptance. -/
theorem lifecycleCommandsAnswer : Obligations.LifecycleCommandsAnswer := by
  refine fun s => ⟨?arb, rfl, rfl,
    fun htakes => ⟨exec_newchal_draws htakes, fun hbuf => ⟨exec_report_asks htakes hbuf, exec_attToken_submits htakes hbuf⟩,
      fun hbuf => ⟨exec_report_malformed htakes hbuf, exec_attToken_malformed htakes hbuf⟩⟩,
    fun hbusy => ⟨exec_newchal_busy hbusy, exec_report_busy hbusy, exec_attToken_busy hbusy⟩,
    fun r rest u hr hu => ⟨fun a => exec_reportSigned_buffer hr hu, fun id => exec_reportSigned_session hr hu,
      fun hdest hbuf v => exec_reportSigned_serial hr hu hdest hbuf⟩,
    fun t rest u ht hu c hmem => ?token⟩
  case arb =>
    rintro _ rfl
    exact ⟨exec_commitArb_fits, exec_commitArb_larger⟩
  case token =>
    obtain ⟨effect, hexec, heffect⟩ := exec_tokenCommand hmem s
    rw [hexec, ← heffect]
    exact ⟨fun hkind hgood => congrArg _ (tokenJudge_accepted ht effect hu hkind hgood),
      fun hkind hbad => congrArg _ (tokenJudge_refused ht effect hu hkind hbad), fun hkind => congrArg _ (tokenJudge_other ht effect hkind)⟩

end Sys2Proof.Machine
end

section
/-!
SUPPORT. The proofs of the statements of spec/19_startup_and_monitor.md and spec/20_package_power_cooling.md about the state after reset (R531), the
start of the tick counter (R528), device resets (R531, R532, R541, R555, R562) and the record of start-up (R523, R524).
-/

namespace Sys2Proof.Machine

/-! ### The state after reset and the start of the tick counter (R528, R531) -/

/-- Settles O2: the reset state lists no register and no byte, and what is not listed reads as reset. -/
theorem resetStateIsWellKept : Obligations.ResetStateIsWellKept :=
  ⟨⟨Memory.wf_nil, Regs.wf_nil⟩, rfl, rfl, rfl, fun _ => rfl, fun _ => rfl, fun _ => rfl, rfl⟩

/-- Settles O21: enabled and stopped, the counter waits for the next whole second and opens its tick there. -/
theorem tickCounterStartsAtAWholeSecond : Obligations.TickCounterStartsAtAWholeSecond := by
  rintro s _ _ hstop hen rfl rfl
  simp only [exec, execTickCounterStart, hstop, hen, Bool.not_true, Bool.false_eq_true, or_self, if_false]

/-! ### What a device reset leaves (R503, R531) -/

theorem fuseRegs_apart : ∀ a ∈ fuseRegs, a ≠ Reg.PWR_VCORE ∧ a ≠ Reg.SYS_RESET_CAUSE ∧ ∀ k < 8, a ≠ Reg.ATT_CHAL k := by decide

theorem resetCause_apart : Reg.SYS_RESET_CAUSE ∉ fuseRegs ∧ Reg.SYS_RESET_CAUSE ≠ Reg.PWR_VCORE
    ∧ ∀ k < 8, Reg.SYS_RESET_CAUSE ≠ Reg.ATT_CHAL k := by
  decide

/-- The registers of a device reset before the challenge is drawn: the causes so far with the new one, the fuses, and reset values (R531). -/
theorem resetRegs_rg (s : State) (cause : Nat) {a : Nat} (hcore : a ≠ Reg.PWR_VCORE) : (resetRegs s cause).rg a =
    if a = Reg.SYS_RESET_CAUSE then Nat.lor (s.rg Reg.SYS_RESET_CAUSE) (cause % 32) % 2 ^ 32
    else if a ∈ fuseRegs then s.rg a % 2 ^ 32 else regReset a := by
  obtain ⟨hok, hfuses, -⟩ := fuses_copied s fuseRegs (resetBlank s) (resetBlank_ok s)
  rw [resetRegs, State.setFld, State.rg_setRg _ _ _ _ (State.ok_setRg _ _ _ hok), State.rg_setRg _ _ _ _ hok, if_neg hcore, hfuses]
  rfl

theorem deviceReset_rg (s : State) (cause : Nat) {a : Nat} (hchal : ∀ k < 8, a ≠ Reg.ATT_CHAL k) :
    (deviceReset s cause).rg a = (resetRegs s cause).rg a := by
  obtain ⟨-, hdrawn, -⟩ := challenge_drawn (List.range 8) (resetRegs s cause) (resetRegs_only s cause).1
  exact hdrawn a fun k hk => hchal k (List.mem_range.mp hk)

theorem deviceReset_fuse (s : State) (cause : Nat) : ∀ a ∈ fuseRegs, (deviceReset s cause).rg a = s.rg a % 2 ^ 32 := by
  intro a ha
  obtain ⟨hcore, hcause, hchal⟩ := fuseRegs_apart a ha
  rw [deviceReset_rg s cause hchal, resetRegs_rg s cause hcore, if_neg hcause, if_pos ha]

theorem deviceReset_cause (s : State) (cause : Nat) :
    (deviceReset s cause).rg Reg.SYS_RESET_CAUSE = Nat.lor (s.rg Reg.SYS_RESET_CAUSE) (cause % 32) % 2 ^ 32 := by
  obtain ⟨-, hcore, hchal⟩ := resetCause_apart
  rw [deviceReset_rg s cause hchal, resetRegs_rg s cause hcore, if_pos rfl]

theorem deviceReset_other (s : State) (cause a : Nat) (hfuse : a ∉ fuseRegs) (hcore : a ≠ Reg.PWR_VCORE) (hcause : a ≠ Reg.SYS_RESET_CAUSE)
    (hchal : ∀ k, k < 8 → a ≠ Reg.ATT_CHAL k) : (deviceReset s cause).rg a = regReset a := by
  rw [deviceReset_rg s cause hchal, resetRegs_rg s cause hcore, if_neg hcause, if_neg hfuse]

/-- The queue, the QSPI contents and what a device reset empties are those of the state that it builds on (R531). -/
theorem of_resetBlank {s t : State} {regs : SMap Nat} {fresh : Nat} (h : t = { resetBlank s with regs := regs, fresh := fresh }) :
    t.pending = s.pending ∧ t.nv = s.nv ∧ t.mem = [] ∧ t.ctx = {} ∧ t.frm = {} ∧ t.tpl = {} ∧ t.tiles = [] ∧ t.itp = {} ∧ t.rdl = {}
      ∧ t.poison = [] ∧ t.ports = [] ∧ t.time = {} ∧ t.rwt = [] := by
  subst h
  exact ⟨rfl, rfl, rfl, rfl, rfl, rfl, rfl, rfl, rfl, rfl, rfl, rfl, rfl⟩

/-! ### What brings a device reset (R531, R532, R541) -/

section
variable {s u : State} {cause : Nat}

theorem exec_deviceReset_direct (hcause : cause % 32 ≠ 4) : exec (.deviceReset cause) s = .next (warmReset s cause) := if_pos hcause

variable (hcause : cause % 32 = 4)
include hcause

theorem exec_deviceReset_unasked (hnone : s.sys.resetAt = none) : exec (.deviceReset cause) s = .next s := by
  simp only [exec, execDeviceReset, hcause, hnone, ne_eq, not_true, if_false]

theorem exec_deviceReset_due {a : Nat} (ha : s.sys.resetAt = some a) (hu : reachUp s (a + 160000) = some u) :
    exec (.deviceReset cause) s = .next (warmReset u cause) := by
  simp only [exec, execDeviceReset, hcause, ha, hu, ne_eq, not_true, if_false]

end

section
variable {s : State}

theorem exec_sysReset_other {v : Nat} (hv : v ≠ 0xA5C30001) : exec (.sysReset v) s = .next s := if_neg fun h => hv h.1

theorem exec_sysWdogKick_other {v : Nat} (hv : v ≠ 0x5A5A) : exec (.sysWdogKick v) s = .next s := if_neg hv

theorem exec_mcxWatchdogBite_unarmed (harm : s.bit Reg.SYS_WDOG 31 = false) : exec .mcxWatchdogBite s = .next s := by
  simp only [exec, execMcxWatchdogBite, harm, Bool.not_false, if_true]

theorem exec_mcxWatchdogBite_due {u : State} (harm : s.bit Reg.SYS_WDOG 31 = true)
    (hu : reachUp s (s.sys.kickAt + 1600000 * max 1 (s.fld Reg.SYS_WDOG 23 0)) = some u) : exec .mcxWatchdogBite s = .next (warmReset u 16) := by
  simp only [exec, execMcxWatchdogBite, harm, hu, Bool.not_true, Bool.false_eq_true, if_false]

/-! ### The pins (R555, R562) -/

/-- A reset that a pin or a trip brings and that holds the node (R559, R562). -/
def pinResetHeld (s : State) (cause : Nat) : State := { pinReset s cause with pwr := { (pinReset s cause).pwr with hold := true } }

theorem pinResetHeld_eq {s d : State} {cause : Nat} (hd : d = deviceReset s cause) :
    pinResetHeld s cause = { d with lcs := { d.lcs with started := false }, pwr := { d.pwr with hold := true } } := by
  rw [pinResetHeld, pinReset_eq s cause d hd.symm]

theorem exec_pwrokFall_alone (htrip : s.pwr.trip ≠ some s.time.up) : exec .pwrokFall s = .next (pinReset s 1) := by
  simp only [exec, execPwrokFall, htrip, if_false]

theorem exec_pwrokFall_withTrip (htrip : s.pwr.trip = some s.time.up) : exec .pwrokFall s = .next (pinReset s 9) := by
  simp only [exec, execPwrokFall, htrip, if_true]

theorem exec_resetNFall_held (hhold : s.pwr.hold = true) : exec .resetNFall s = .next s := if_pos hhold

theorem exec_resetNFall_withTrip (hhold : s.pwr.hold = false) (htrip : s.pwr.trip = some s.time.up) :
    exec .resetNFall s = .next (pinResetHeld s 10) := by
  simp only [exec, execResetNFall, hhold, htrip, Bool.false_eq_true, reduceCtorEq, if_false, if_true]
  rfl

theorem exec_resetNFall_tripped {a : Nat} (htrip : s.pwr.trip = some a) (ha : a ≠ s.time.up) : exec .resetNFall s = .next s := by
  simp only [exec, execResetNFall, htrip, Option.some.injEq, ha, reduceCtorEq, if_false, ite_self]

theorem exec_pinsQualified_starts (hstart : s.lcs.started = false) (hhold : s.pwr.hold = false) :
    exec .pinsQualified s = .next (bootStart { s with time := {} }) := by
  simp only [exec, execPinsQualified, hstart, hhold, Bool.false_eq_true, or_self, if_false]

/-! ### The record of start-up (R523, R524, R536) -/

theorem romLine_printed {k st us : Nat} (hrom : s.lcs.rom = true ∨ k < 4) :
    romLine s k st us = { s with uart := { s.uart with status := stOK, out := [k, st, us] } } := if_pos hrom

theorem romLine_silent {k st us : Nat} (hrom : s.lcs.rom = false) (hk : 4 ≤ k) : romLine s k st us = s :=
  if_neg fun h => h.elim (fun hin => Bool.false_ne_true (hrom.symm.trans hin)) (Nat.not_lt.mpr hk)

variable {k st : Nat} {sv : Bool}

/-- A node that ROM holds takes no step from 3 on (R524). -/
theorem exec_sysBootWrite_held (hrom : s.lcs.rom = true) (h3 : 3 ≤ k) (h16 : k < 16) : exec (.sysBootWrite k st sv) s = .next s := by
  simp only [exec, execSysBootWrite, Nat.mod_eq_of_lt h16, hrom, h3, and_self, if_true]

theorem exec_sysBootWrite_taken (h1 : 1 ≤ k) (h8 : k ≤ 8) (hst : st < 256) (hgo : s.lcs.rom = false ∨ k < 3) {u v : State}
    (hu : u = (s.setRg Reg.SYS_BOOT (k + st * 256 + b2n sv * 2 ^ 31)).setRg (Reg.SYS_STEPT (k - 1)) (s.uptimeUs % 2 ^ 32))
    (hv : v = if k ≤ 2 ∧ st ≠ 0 then { u with lcs := { u.lcs with rom := true } } else u) : exec (.sysBootWrite k st sv) s =
      .next (romLine (event (bootStepDone v k) .sys 0 3 { i0 := k, i1 := s.uptimeUs % 2 ^ 32 }) k st (s.uptimeUs % 2 ^ 32)) := by
  have hfree : ¬ (s.lcs.rom = true ∧ 3 ≤ k) := fun ⟨hin, h3⟩ =>
    hgo.elim (fun hout => Bool.false_ne_true (hout.symm.trans hin)) (Nat.not_lt.mpr h3)
  have h16 : k < 16 := by omega
  simp only [exec, execSysBootWrite, Nat.mod_eq_of_lt h16, Nat.mod_eq_of_lt hst, hfree, h1, h8, and_self, if_false, if_true, ← hu, ← hv]

end

/-! ### The statement -/

/-- Settles O56: what a device reset leaves, then each command by whether it brings one, and the record of a step. -/
theorem aDeviceResetClearsTheNode : Obligations.ADeviceResetClearsTheNode := by
  refine ⟨?leaves, fun s c => ⟨exec_deviceReset_direct, exec_deviceReset_unasked, fun a u hc => exec_deviceReset_due hc⟩, fun s => ?brings,
    fun s u => exec_mcxWatchdogBite_due, fun s u k st sv h1 h8 hst hgo hu v => exec_sysBootWrite_taken h1 h8 hst hgo hu,
    fun s k st us => ⟨romLine_printed, romLine_silent⟩, fun s k st sv => exec_sysBootWrite_held⟩
  case leaves =>
    rintro s _ c - rfl
    obtain ⟨hpending, hnv, hmem, hctx, hfrm, htpl, htiles, hitp, hrdl, hpoison, hports, htime, hrwt⟩ := of_resetBlank (deviceReset_blank s c)
    exact ⟨hpending, hnv, hmem, hctx, hfrm, htpl, htiles, hitp, hrdl, hpoison, hports, htime, hrwt,
      deviceReset_fuse s c, deviceReset_cause s c, deviceReset_other s c⟩
  case brings =>
    refine ⟨exec_pwrokFall_alone, exec_pwrokFall_withTrip, exec_resetNFall_free, ?tripCc, fun a => exec_resetNFall_tripped, exec_resetNFall_held,
      exec_pinsQualified_starts, exec_sysReset_asked, fun v => exec_sysReset_other, rfl, fun v => exec_sysWdogKick_other, exec_mcxWatchdogBite_unarmed⟩
    case tripCc =>
      intro u hhold htrip hu
      rw [exec_resetNFall_withTrip hhold htrip, pinResetHeld_eq hu]

end Sys2Proof.Machine
end

section
/-!
SUPPORT. The proof of the statement of spec/19_startup_and_monitor.md and spec/20_package_power_cooling.md about clocks (R542), rails (R551, R552) and
the core regulator (R553).
-/

namespace Sys2Proof.Machine

/-! ### Clocks (R366, R542) -/

/-- A bit of another register reads as before. -/
theorem State.bit_setRg_ne {s : State} (hok : s.ok) {a b : Nat} (v k : Nat) (hne : b ≠ a) : (s.setRg a v).bit b k = s.bit b k := by
  rw [State.bit, State.rg_setRg s a v b hok, if_neg hne, State.bit]

theorem clkFall_good {s : State} {bit : Nat} (evt : Nat) (hen : s.en .clk 0 = true) (hgood : s.bit Reg.CLK_STAT bit = true) :
    clkFall s bit evt = event ((s.setFld Reg.CLK_STAT bit bit 0).count Reg.CLK_LOSS) .clk 0 evt { i0 := bit } :=
  if_pos ⟨hen, hgood⟩

theorem clkFall_lost {s : State} {bit : Nat} (evt : Nat) (hlost : s.bit Reg.CLK_STAT bit = false) : clkFall s bit evt = s :=
  if_neg fun h => Bool.false_ne_true (hlost.symm.trans h.2)

theorem clkRise_on {s : State} (bit : Nat) (hen : s.en .clk 0 = true) : clkRise s bit = s.setFld Reg.CLK_STAT bit bit 1 := if_pos hen

theorem clkKhz_other {s : State} {r : Nat} (khz : Nat) (hr : 0 < r) : clkKhz s r khz = s := if_neg fun h => Nat.ne_of_gt hr h.2

theorem clkKhz_sys {s : State} (khz : Nat) (hen : s.en .clk 0 = true) : clkKhz s 0 khz = s.setRg Reg.CLK_SYS_KHZ (khz % 2 ^ 20) := if_pos ⟨hen, rfl⟩

section
variable {s : State} (hen : s.en .clk 0 = true) (khz : Nat)
include hen

section
variable {r : Nat} (hr : 0 < r) (h3 : r < 3)
include hr h3

theorem exec_refclkLoss_other (hgood : s.bit Reg.CLK_STAT r = true) : exec (.refclkLoss r khz) s =
    .next (event ((s.setFld Reg.CLK_STAT r r 0).count Reg.CLK_LOSS) .clk 0 3 { i0 := r }) := by
  simp only [exec, execRefclkLoss, Nat.mod_eq_of_lt h3, clkKhz_other khz hr, clkFall_good 3 hen hgood, Nat.ne_of_gt hr, false_and, and_false, if_false]

theorem exec_refclkReturn_other : exec (.refclkReturn r khz) s = .next (s.setFld Reg.CLK_STAT r r 1) := by
  simp only [exec, execRefclkReturn, Nat.mod_eq_of_lt h3, clkKhz_other khz hr, clkRise_on r hen]

end

section
variable (hok : s.ok) {u : State} (hu : u = s.setRg Reg.CLK_SYS_KHZ (khz % 2 ^ 20))
include hok hu

/-- The loss of REFCLK_SYS begins the holdover where it is the frequency source (R366, R542). -/
theorem exec_refclkLoss_sys (hgood : s.bit Reg.CLK_STAT 0 = true) {v : State}
    (hv : v = event ((u.setFld Reg.CLK_STAT 0 0 0).count Reg.CLK_LOSS) .clk 0 3 { i0 := 0 }) :
    exec (.refclkLoss 0 khz) s = .next (if freqSrc s = 0 then holdoverStart v else v) := by
  have huen : u.en .clk 0 = true := hu ▸ (State.bit_setRg_ne hok _ 0 (by decide)).trans hen
  have hugood : u.bit Reg.CLK_STAT 0 = true := hu ▸ (State.bit_setRg_ne hok _ 0 (by decide)).trans hgood
  simp only [exec, execRefclkLoss, Nat.zero_mod, clkKhz_sys khz hen, ← hu, clkFall_good 3 huen hugood, ← hv, hen, hgood, true_and]

theorem exec_refclkReturn_sys : exec (.refclkReturn 0 khz) s = .next (u.setFld Reg.CLK_STAT 0 0 1) := by
  have huen : u.en .clk 0 = true := hu ▸ (State.bit_setRg_ne hok _ 0 (by decide)).trans hen
  simp only [exec, execRefclkReturn, Nat.zero_mod, clkKhz_sys khz hen, ← hu, clkRise_on 0 huen]

end

end

theorem exec_pllUnlock {p : Nat} (h4 : p < 4) (s : State) : exec (.pllUnlock p) s = .next (clkFall s (8 + p) 4) := by
  simp only [exec, execPllUnlock, Nat.mod_eq_of_lt h4]

theorem exec_pllLock {p : Nat} (h4 : p < 4) (s : State) : exec (.pllLock p) s = .next (clkRise s (8 + p)) := by
  simp only [exec, execPllLock, Nat.mod_eq_of_lt h4]

/-! ### Rails (R551, R552) -/

/-- A voltage is within a tolerance in percent where it lies between the two bounds. -/
theorem railOff_le_iff {nom tol mv : Nat} (htol : tol ≤ 100) : 100 * (if nom ≤ mv then mv - nom else nom - mv) ≤ tol * nom ↔
    nom * (100 - tol) ≤ 100 * mv ∧ 100 * mv ≤ nom * (100 + tol) := by
  have hle : tol * nom ≤ 100 * nom := Nat.mul_le_mul_right nom htol
  rw [Nat.mul_comm nom (100 - tol), Nat.sub_mul, Nat.mul_comm nom (100 + tol), Nat.add_mul]
  split <;> omega

section
variable {s : State} {r mv nom tol : Nat} (hspec : (nom, tol) = railSpec s r) (htol : tol ≤ 100)
include hspec htol

theorem railOne_within (hlow : nom * (100 - tol) ≤ 100 * mv) (hhigh : 100 * mv ≤ nom * (100 + tol)) : railOne s r mv =
    { s.setFld Reg.PWR_RAILS r r 1 with pwr := { s.pwr with rails := SMap.set s.pwr.rails 0 r 0 } } := by
  simp only [railOne, ← hspec]
  exact if_pos ((railOff_le_iff htol).mpr ⟨hlow, hhigh⟩)

variable (hout : 100 * mv < nom * (100 - tol) ∨ nom * (100 + tol) < 100 * mv) {n : Nat} (hn : n = SMap.get s.pwr.rails 0 r)
include hout hn

/-- A failing sample is counted up to ten; the tenth in a row clears the rail's bit and is recorded (R552). -/
theorem railOne_outside : railOne s r mv =
    if n + 1 = 10 then fault { s.setFld Reg.PWR_RAILS r r 0 with pwr := { s.pwr with rails := SMap.set s.pwr.rails 0 r (n + 1) } } .pwr 0 0xC6 none r mv
    else { s with pwr := { s.pwr with rails := SMap.set s.pwr.rails 0 r (min (n + 1) 10) } } := by
  simp only [railOne, ← hspec, ← hn]
  refine if_neg fun hin => ?_
  obtain ⟨hlow, hhigh⟩ := (railOff_le_iff htol).mp hin
  omega

end

/-- With a voltage for each rail, each rail is sampled (R552). -/
theorem railFold_eq (mv : List Nat) : ∀ (l : List Nat) (s : State), (∀ r ∈ l, r < mv.length) →
    l.foldl (fun s r => match mv[r]? with | some v => railOne s r v | none => s) s = l.foldl (fun s r => railOne s r (mv.getD r 0)) s := by
  intro l
  induction l with
  | nil => exact fun s _ => rfl
  | cons r l ih =>
    intro s hl
    have hr : mv[r]? = some (mv.getD r 0) := by
      rw [List.getD_eq_getElem?_getD, List.getElem?_eq_getElem (hl r List.mem_cons_self), Option.getD_some]
    rw [List.foldl_cons, List.foldl_cons, hr]
    exact ih _ fun r hr => hl r (List.mem_cons_of_mem _ hr)

theorem exec_railMonitorSample_all {mv : List Nat} (hlen : mv.length = 21) (s : State) :
    exec (.railMonitorSample mv) s = .next ((List.range 21).foldl (fun s r => railOne s r (mv.getD r 0)) s) :=
  congrArg _ (railFold_eq mv (List.range 21) s fun _ hr => hlen ▸ List.mem_range.mp hr)

/-! ### The core regulator (R553) -/

theorem avsTarget_bounds (s : State) : 700 ≤ avsTarget s ∧ avsTarget s ≤ 780 := by
  simp only [avsTarget]
  omega

theorem avsTarget_inRange {s : State} {x : Int} (hx : x = (s.fld Reg.PWR_VCORE 25 16 : Int) + signedOf (s.fld Reg.PWR_VOFF 7 0) 8)
    (hmin : 700 ≤ x) (hmax : x ≤ 780) : (avsTarget s : Int) = x := by
  simp only [avsTarget, ← hx]
  omega

/-- The voltage that the regulator is sent toward a goal, at most 2.5 mV away (R553). -/
def avsNext (v goal : Nat) : Nat := if v < goal then min goal (v + 5) else max goal (v - 5)

section
variable {s u : State} {g : Nat} (hon : s.bit Reg.PWR_AVS_CFG 8 = true) (htrip : s.pwr.trip = none)
  (hdue : ¬ (s.pwr.avsAt ≠ 0 ∧ s.time.up < s.pwr.avsAt - 1 + 16000)) (hg : g = 2 * avsTarget s) (hu : u = s.setFld Reg.PWR_VCORE 9 0 (avsTarget s))
include hon htrip hdue hg hu

theorem exec_avsStep_atGoal (hat : s.pwr.vcore = g) (ok : Bool) : exec (.avsStep ok) s = .next u := by
  simp only [exec, execAvsStep, hon, htrip, hdue, ← hg, ← hu, hat, Option.isSome_none, Bool.not_true, Bool.false_eq_true, or_self, if_false, if_true]

variable (hoff : s.pwr.vcore ≠ g)
include hoff

theorem exec_avsStep_moves : exec (.avsStep true) s =
    .next { u with pwr := { s.pwr with avsAt := s.time.up + 1, vcore := avsNext s.pwr.vcore g, refused := 0 } } := by
  have hpwr : u.pwr = s.pwr := hu ▸ State.setFld_pwr s _ _ _ _
  simp only [exec, execAvsStep, hon, htrip, hdue, ← hg, ← hu, hpwr, hoff, avsNext, Option.isSome_none, Bool.not_true, Bool.false_eq_true, or_self,
    if_false]

theorem exec_avsStep_refused : exec (.avsStep false) s =
    .next (avsRefused { u with pwr := { s.pwr with avsAt := s.time.up + 1 } } 0x21) := by
  have hpwr : u.pwr = s.pwr := hu ▸ State.setFld_pwr s _ _ _ _
  simp only [exec, execAvsStep, hon, htrip, hdue, ← hg, ← hu, hpwr, hoff, pmbVoutCommand, Option.isSome_none, Bool.not_true, Bool.not_false,
    Bool.false_eq_true, or_self, if_false, if_true]

end

theorem avsRefused_few {s : State} (code : Nat) (hfew : s.pwr.refused < 2) :
    avsRefused s code = { s with pwr := { s.pwr with refused := s.pwr.refused + 1 } } := by
  have hn : s.pwr.refused + 1 ≠ 3 := by omega
  simp only [avsRefused, hn, if_false]

theorem avsRefused_third {s : State} (code : Nat) (hthird : s.pwr.refused = 2) : avsRefused s code =
    event0 (fault { s with pwr := { s.pwr with refused := 0 } } .pwr 0 0xC4 none (s.fld Reg.PWR_AVS_CFG 6 0) code) .pwr 0 5 := by
  simp only [avsRefused, hthird, if_true]

theorem avsFault_word (s : State) {st : Nat} (hst : st < 65536) :
    avsFault s st = event0 (fault s .pwr 0 0xC5 none (s.fld Reg.PWR_AVS_CFG 6 0) st) .pwr 0 5 := by
  simp only [avsFault, Nat.mod_eq_of_lt hst]

section
variable {s : State} {st i : Nat} (hon : s.bit Reg.PWR_AVS_CFG 8 = true)
include hon

theorem exec_avsPoll_refused : exec (.avsPoll false st i) s = .next (avsRefused s 0x79) := by
  simp only [exec, execAvsPoll, hon, Bool.not_true, Bool.not_false, Bool.false_eq_true, if_false, if_true]
  rfl

theorem exec_avsPoll_answered (hi : i < 65536) (hst : st < 65536) {u v : State}
    (hu : u = { s.setRg Reg.PWR_IOUT i with pwr := { s.pwr with refused := 0 } })
    (hv : v = if st = 0 then u else event0 (fault u .pwr 0 0xC5 none (u.fld Reg.PWR_AVS_CFG 6 0) st) .pwr 0 5) : exec (.avsPoll true st i) s =
      .next (if s.fld Reg.PWR_IPEAK 15 0 < i then fault v .pwr 0 0xC7 none i (s.fld Reg.PWR_IPEAK 15 0) else v) := by
  simp only [exec, execAvsPoll, hon, Nat.mod_eq_of_lt hi, Nat.mod_eq_of_lt hst, avsFault_word _ hst, ← hu, Bool.not_true, Bool.false_eq_true, if_false,
    ne_eq, ite_not, ← hv]

end

theorem exec_pmbAlert (s : State) {st : Nat} (hst : st < 65536) :
    exec (.pmbAlert st) s = .next (event0 (fault s .pwr 0 0xC5 none (s.fld Reg.PWR_AVS_CFG 6 0) st) .pwr 0 5) :=
  congrArg _ (avsFault_word s hst)

/-! ### The statement -/

/-- Settles O57: a clock by whether it was good, a rail by its tolerance and its row of failures, a transaction by the regulator's answer. -/
theorem clocksRailsAndRegulatorAct : Obligations.ClocksRailsAndRegulatorAct := by
  refine ⟨fun r khz s _ hen hr h3 => ⟨exec_refclkLoss_other hen khz hr h3, exec_refclkReturn_other hen khz hr h3⟩,
    fun khz s u v hok hen hu hv => ⟨fun hgood => exec_refclkLoss_sys hen khz hok hu hgood hv, exec_refclkReturn_sys hen khz hok hu⟩,
    fun p s hen h4 => ⟨fun hgood => (exec_pllUnlock h4 s).trans (congrArg _ (clkFall_good 4 hen hgood)),
      fun hlost => (exec_pllUnlock h4 s).trans (congrArg _ (clkFall_lost 4 hlost)), (exec_pllLock h4 s).trans (congrArg _ (clkRise_on (8 + p) hen))⟩,
    fun mv s hlen => exec_railMonitorSample_all hlen s, fun r mv nom tol n s hspec hn => ⟨fun hlow hhigh htol => railOne_within hspec htol hlow hhigh,
      fun hout htol => ?fails⟩,
    fun s => ⟨(avsTarget_bounds s).1, (avsTarget_bounds s).2, avsTarget_inRange rfl⟩, fun s u g hon htrip hdue hg hu => ?step,
    fun s c => ⟨avsRefused_few c, avsRefused_third c⟩, fun st i s u v hon hi hst hu hv => ⟨exec_avsPoll_answered hon hi hst hu hv,
      exec_avsPoll_refused hon, exec_pmbAlert s hst⟩⟩
  case fails =>
    have hfails := railOne_outside hspec htol hout hn
    refine ⟨fun hfew => ?_, fun hnine => ?_, fun hmany => ?_⟩
    · rw [hfails, if_neg (by omega), Nat.min_eq_left (by omega)]
    · rw [hfails, if_pos (by omega), hnine]
    · rw [hfails, if_neg (by omega), Nat.min_eq_right (by omega)]
  case step =>
    have hnow : ¬ (s.pwr.avsAt ≠ 0 ∧ s.time.up < s.pwr.avsAt - 1 + 16000) := by omega
    exact ⟨exec_avsStep_atGoal hon htrip hnow hg hu, fun hoff => ⟨avsNext s.pwr.vcore g, exec_avsStep_moves hon htrip hnow hg hu hoff,
      fun hlow => if_pos hlow, fun hhigh => if_neg (Nat.lt_asymm hhigh)⟩, exec_avsStep_refused hon htrip hnow hg hu⟩

end Sys2Proof.Machine
end

section
/-!
SUPPORT. The proof of the statement of spec/20_package_power_cooling.md about temperature sensors (R557, R559), the thermal allowance (R558) and the
FAULT_N pin (R560, R561).
-/

namespace Sys2Proof.Machine

/-! ### One sensor (R557) -/

theorem tempValid_iff (w : Nat) : tempValid w = true ↔ -320 ≤ signedOf w 12 ∧ signedOf w 12 ≤ 1200 := by
  rw [tempValid, Bool.and_eq_true, decide_eq_true_iff, decide_eq_true_iff, tempOf]

section
variable {s : State} {w : Nat} (hw : w < 4096) (k : Nat)
include hw

theorem senseOne_valid (hvalid : tempValid w = true) : senseOne s k w = s.setRg (Reg.PWR_TSENS k) w := by
  simp only [senseOne, Nat.mod_eq_of_lt hw, hvalid, true_or, if_true]
  rfl

theorem senseOne_stillInvalid (hbad : tempValid w = false) (hwas : s.bit (Reg.PWR_TSENS k) 31 = true) :
    senseOne s k w = s.setRg (Reg.PWR_TSENS k) (w + 2 ^ 31) := by
  simp only [senseOne, Nat.mod_eq_of_lt hw, hbad, hwas, or_true, if_true]
  rfl

/-- A sensor that becomes invalid is recorded (R557). -/
theorem senseOne_becomesInvalid (hbad : tempValid w = false) (hwas : s.bit (Reg.PWR_TSENS k) 31 = false) :
    senseOne s k w = event0 (fault (s.setRg (Reg.PWR_TSENS k) (w + 2 ^ 31)) .pwr 0 0xC1 none k w) .pwr 0 6 := by
  simp only [senseOne, Nat.mod_eq_of_lt hw, hbad, hwas, Bool.false_eq_true, or_self, if_false]
  rfl

end

/-! ### A sample of all sensors, and the trip (R557, R559) -/

/-- The sample with its hottest valid sensor shown in PWR_TEMP (R557). -/
def hottestShown (u : State) : State :=
  match senseMax u with
  | some (k, w) => u.setRg Reg.PWR_TEMP (w + k * 65536)
  | none => u

/-- The valid sensors at or above 115 °C (R559). -/
def hotSensors (v : State) : List Nat :=
  (List.range 28).filter fun k => !v.bit (Reg.PWR_TSENS k) 31 && decide (920 ≤ tempOf (v.fld (Reg.PWR_TSENS k) 11 0))

/-- The power block after a sample: the hot sensors are kept, and one that was hot before and is hot again trips the node (R559). -/
def hotPwr (before v : State) : PwrBlock :=
  { v.pwr with
    hot := hotSensors v
    trip := if (hotSensors v).any before.pwr.hot.contains && before.pwr.trip.isNone then some v.time.up else v.pwr.trip }

theorem hottestShown_unique {u v : State} (hsome : ∀ k w, senseMax u = some (k, w) → v = u.setRg Reg.PWR_TEMP (w + k * 65536))
    (hnone : senseMax u = none → v = u) : v = hottestShown u := by
  unfold hottestShown
  cases hmax : senseMax u with
  | none => exact hnone hmax
  | some x => exact hsome x.1 x.2 hmax

theorem exec_sensorSample_all {rs : List Nat} {s u : State} (hlen : rs.length = 28)
    (hu : u = (List.range 28).foldl (fun s k => senseOne s k (rs.getD k 0)) s) :
    exec (.sensorSample rs) s = .next { hottestShown u with pwr := hotPwr s (hottestShown u) } := by
  rw [sensorSample_eq, senseAll_eq rs (List.range 28) s fun r hr => hlen ▸ List.mem_range.mp hr, ← hu]
  rfl

section
variable {s v : State}

/-- A trip is found where a sensor is hot in two samples in a row (R559). -/
theorem hotAgain_iff : (hotSensors v).any s.pwr.hot.contains = true ↔ ∃ k, k ∈ hotSensors v ∧ k ∈ s.pwr.hot := by
  simp only [List.any_eq_true, List.contains_iff_mem]

theorem hotPwr_trips (hfree : s.pwr.trip = none) (hagain : ∃ k, k ∈ hotSensors v ∧ k ∈ s.pwr.hot) : (hotPwr s v).trip = some v.time.up := by
  simp only [hotPwr, hotAgain_iff.mpr hagain, hfree, Option.isNone_none, Bool.and_self, if_true]

theorem hotPwr_cool (hcool : ∀ k, k ∈ hotSensors v → k ∉ s.pwr.hot) : (hotPwr s v).trip = v.pwr.trip := by
  have hnone : (hotSensors v).any s.pwr.hot.contains = false :=
    Bool.eq_false_iff.mpr fun h => Exists.elim (hotAgain_iff.mp h) fun k hk => hcool k hk.1 hk.2
  simp only [hotPwr, hnone, Bool.false_and, Bool.false_eq_true, if_false]

theorem hotPwr_tripped {x : Nat} (htrip : s.pwr.trip = some x) : (hotPwr s v).trip = v.pwr.trip := by
  simp only [hotPwr, htrip, Option.isNone_some, Bool.and_false, Bool.false_eq_true, if_false]

end

theorem exec_thermtripReset_held {s u : State} {x : Nat} (htrip : s.pwr.trip = some x) (hu : reachUp s (x + 1600) = some u) : exec .thermtripReset s =
    .next { deviceReset u 8 with lcs := { (deviceReset u 8).lcs with started := false }, pwr := { (deviceReset u 8).pwr with hold := true } } :=
  (thermtripReset_eq s u x htrip hu).trans (congrArg _ (pinResetHeld_eq rfl))

theorem exec_thermtripReset_cool {s : State} (hcool : s.pwr.trip = none) : exec .thermtripReset s = .next s := by
  simp only [exec, execThermtripReset, hcool]

/-! ### The allowance (R558) -/

/-- The allowance that temperature alone gives (R558). -/
def heatAllowance (t soft : Int) (mx mn : Nat) : Nat :=
  if t ≤ soft then mx else if 840 ≤ t then mn else max mn (mx * (840 - t).toNat / (840 - soft).toNat)

section
variable {s : State} {mx mn : Nat} (hmx : mx = s.rg Reg.PWR_MAX_UJ) (hmn : mn = s.rg Reg.PWR_MIN_UJ) (hle : mn ≤ mx)
  {t soft : Int} (ht : t = signedOf (s.fld Reg.PWR_TEMP 11 0) 12) (hsoft : soft = signedOf (s.fld Reg.PWR_TSOFT 11 0) 12) (hbelow : soft < 840)
include hmx hmn hle ht hsoft hbelow

/-- The pin takes the allowance of the temperature to 0, and an invalid sensor takes what is left to the minimum (R557, R558, R560). -/
theorem allowance_eq : allowance s =
    if senseBad s then min (if s.pwr.low ∨ s.bit Reg.PWR_FAULTN 2 then 0 else heatAllowance t soft mx mn) mn
    else if s.pwr.low ∨ s.bit Reg.PWR_FAULTN 2 then 0 else heatAllowance t soft mx mn := by
  simp only [allowance, tempOf, ← hmx, ← hmn, ← ht, ← hsoft, Nat.min_eq_left hle, Int.not_le.mpr hbelow, if_false, heatAllowance]

theorem allowance_faulted (hpin : s.pwr.low = true ∨ s.bit Reg.PWR_FAULTN 2 = true) : allowance s = 0 := by
  rw [allowance_eq hmx hmn hle ht hsoft hbelow, if_pos hpin, Nat.zero_min, ite_self]

theorem allowance_invalid (hbad : senseBad s = true) : allowance s ≤ mn := by
  rw [allowance_eq hmx hmn hle ht hsoft hbelow, if_pos hbad]
  exact Nat.min_le_right _ _

theorem allowance_heat (hlow : s.pwr.low = false) (hstuck : s.bit Reg.PWR_FAULTN 2 = false) (hgood : senseBad s = false) :
    allowance s = heatAllowance t soft mx mn := by
  simp only [allowance_eq hmx hmn hle ht hsoft hbelow, hlow, hstuck, hgood, Bool.false_eq_true, or_self, if_false]

end

theorem exec_allowanceSample_samples {s u v : State} (hrun : s.time.running = true) (hup : s.up .pwr 0 = true) (hu : u = s.ccTo (s.lcc - 4096))
    (hv : v = if 840 ≤ signedOf (u.fld Reg.PWR_TEMP 11 0) 12 then fault u .pwr 0 0xC0 none (u.fld Reg.PWR_TEMP 20 16) (u.fld Reg.PWR_TEMP 11 0) else u) :
    exec .allowanceSample s = .next (if s.rg Reg.PWR_TALLOW = s.rg Reg.PWR_MAX_UJ ∧ allowance v < s.rg Reg.PWR_MAX_UJ then
      event0 (v.setRg Reg.PWR_TALLOW (allowance v)) .pwr 0 3 else v.setRg Reg.PWR_TALLOW (allowance v)) := by
  simp only [exec, execAllowanceSample, hrun, hup, tempOf, ← hu, ← hv, Bool.not_true, Bool.false_eq_true, or_self, if_false]

/-! ### FAULT_N (R560, R561) -/

section
variable {s : State} (hdrive : faultnDrives s = false) (hlow : s.pwr.low = false)
include hdrive hlow

theorem exec_faultNAsserted_resets (hext : s.bit Reg.PWR_FAULTN 9 = true) : exec .faultNAsserted s = .next (warmReset s 0) := by
  simp only [exec, execFaultNAsserted, hdrive, hlow, hext, Bool.false_eq_true, or_self, if_false, if_true]

/-- A low from outside is counted and recorded; the ninth fall of a second makes the pin stuck (R560, R561). -/
theorem exec_faultNAsserted_falls (hext : s.bit Reg.PWR_FAULTN 9 = false) {f : List Nat} {u : State}
    (hf : f = (s.pwr.falls.filter fun x => decide (s.nodeTime < x + 8000000000)) ++ [s.nodeTime])
    (hu : u = event0 (fault { (s.count Reg.PWR_FAULTN_CNT).setFld Reg.PWR_FAULTN 0 0 0 with pwr := { s.pwr with low := true, falls := f } }
      .pwr 0 0xC2 none 0 s.time.cc) .pwr 0 4) :
    exec .faultNAsserted s =
      .next (if 8 < f.length then (fault u .pwr 0 0xC3 none f.length 0).setFld Reg.PWR_FAULTN 2 2 1 else u) := by
  simp only [exec, execFaultNAsserted, hdrive, hlow, hext, ← hf, ← hu, Bool.false_eq_true, or_self, if_false]

end

theorem exec_faultnClear_kept {s : State} (hbad : s.pwr.low = true ∨ faultnDrives s = true ∨ s.time.up < s.pwr.highAt - 1 + 1600000) :
    exec .faultnClear s = .next s := by
  refine if_neg fun hclear => ?_
  simp only [Bool.and_eq_true, Bool.not_eq_true', decide_eq_true_eq] at hclear
  obtain ⟨⟨hlow, hdrive⟩, hhigh⟩ := hclear
  rcases hbad with hlow' | hdrive' | hshort
  · exact Bool.false_ne_true (hlow.symm.trans hlow')
  · exact Bool.false_ne_true (hdrive.symm.trans hdrive')
  · exact Nat.not_lt.mpr hhigh hshort

/-! ### The statement -/

/-- Settles O58: a reading by its validity, a sample by its hot sensors, the allowance by temperature, pin and sensors, the pin by its falls. -/
theorem heatAndFaultPinLimitTheNode : Obligations.HeatAndFaultPinLimitTheNode := by
  refine ⟨fun k w s hw => ⟨senseOne_valid hw k, senseOne_stillInvalid hw k, senseOne_becomesInvalid hw k, tempValid_iff w⟩, ?sample,
    fun s u x htrip hu => exec_thermtripReset_held htrip hu, fun s => exec_thermtripReset_cool, ?allowance, fun s u v => exec_allowanceSample_samples,
    fun s u f hdrive hlow hext hf hu => ?falls, fun s => exec_faultNAsserted_resets,
    fun s => ⟨exec_faultNReleased_low, exec_faultnClear_high, exec_faultnClear_kept⟩⟩
  case sample =>
    intro rs s u v hlen hu hsome hnone
    have hv : v = hottestShown u := hottestShown_unique hsome hnone
    subst hv
    exact ⟨_, exec_sensorSample_all hlen hu, rfl, hotSensors_mem (hottestShown u), hotPwr_trips, fun _ => hotPwr_cool, fun x => hotPwr_tripped⟩
  case allowance =>
    rintro s _ _ mx mn rfl rfl hmx hmn hle hbelow
    refine ⟨allowance_faulted hmx hmn hle rfl rfl hbelow, fun hlow hstuck hgood => ?_, allowance_invalid hmx hmn hle rfl rfl hbelow⟩
    rw [allowance_heat hmx hmn hle rfl rfl hbelow hlow hstuck hgood]
    refine ⟨fun hcool => if_pos hcool, fun hhot => ?_, fun hwarm hmild => ?_⟩
    · rw [heatAllowance, if_neg (by omega), if_pos hhot]
    · rw [heatAllowance, if_neg (by omega), if_neg (by omega)]
  case falls =>
    have hfalls := exec_faultNAsserted_falls hdrive hlow hext hf hu
    exact ⟨fun hfew => by rw [hfalls, if_neg (Nat.not_lt.mpr hfew)], fun hmany => by rw [hfalls, if_pos hmany]⟩

end Sys2Proof.Machine
end

section
/-!
SUPPORT. The proof of the statement of spec/19_startup_and_monitor.md about Snius: its command lines (R537 to R539), words of memory (R45, R538) and
breaks (R539).
-/

namespace Sys2Proof.Machine

/-! ### A command line (R538, R539) -/

/-- Each command of Snius runs on its line. -/
theorem exec_sniusCommand {l : SerialLine} {a n v : Nat} {bad : Option Nat} {d : List Nat} {crc : Nat} {c : Instr}
    (hmem : c ∈ [Instr.peek l a n bad, .poke l a v, .dump l a n bad, .fill l a n v, .load l a n d crc, .events l n, .tiles l, .lifecycle l,
      .attest l d])
    (s : State) : ∃ run, exec c s = .next (sniusLine l run s) := by
  simp only [List.mem_cons, List.not_mem_nil, or_false] at hmem
  rcases hmem with rfl | rfl | rfl | rfl | rfl | rfl | rfl | rfl | rfl
  all_goals exact ⟨_, rfl⟩

section
variable {s : State} (run : State → State)

theorem sniusLine_deaf (hdeaf : sniusHears s = false) (l : SerialLine) : sniusLine l run s = s := by
  simp only [sniusLine, hdeaf, Bool.not_false, if_true]

variable (hhears : sniusHears s = true)
include hhears

theorem sniusLine_garbled : sniusLine .garbled run s = (s.count Reg.UAR_ERR).reply stCRC [] := by
  simp only [sniusLine, hhears, Bool.not_true, Bool.false_eq_true, if_false]

theorem sniusLine_tooLong : sniusLine .tooLong run s = s.reply stMALFORMED [] := by
  simp only [sniusLine, hhears, Bool.not_true, Bool.false_eq_true, if_false]

theorem sniusLine_clean : sniusLine .clean run s = run s := by
  simp only [sniusLine, hhears, Bool.not_true, Bool.false_eq_true, if_false]

end

/-! ### Reads and writes of words (R537, R538) -/

section
variable {s : State} {a : Nat}

section
variable (hctl : a < 2 ^ 26)
include hctl

theorem sniusReads_control {n : Nat} {bad : Option Nat} (p : Shows) {t : State} {st : Nat} {xs : List (Nat × Nat)}
    (hgets : sniusGets s a bad 0 n = (t, st, xs)) : sniusReads a n bad p s = t.reply st (p.print xs) := by
  simp only [sniusReads, inControl, hctl, hgets, decide_true, if_true]

theorem sniusWrites_control {vs : List Nat} {t : State} {st : Nat} (hputs : sniusPuts s a vs = (t, st)) :
    sniusWrites a vs s = (sniusWrote t).reply st [] := by
  simp only [sniusWrites, inControl, hctl, hputs, decide_true, if_true]

end

theorem sniusPuts_one {v st : Nat} {t : State} (hput : sniusPut s a v = (t, st)) : sniusPuts s a [v] = (t, st) := by
  simp only [sniusPuts, hput]
  split
  · rfl
  · next hok => rw [Decidable.not_not.mp hok]

variable (hmem : 2 ^ 26 ≤ a)
include hmem

theorem sniusReads_closed (n : Nat) (bad : Option Nat) (p : Shows) (hclosed : sniusOpen s = false) : sniusReads a n bad p s = s.reply stAUTH [] := by
  simp only [sniusReads, inControl, Nat.not_lt.mpr hmem, hclosed, decide_false, Bool.not_false, Bool.false_eq_true, if_false, if_true]

theorem sniusReads_memory (n : Nat) (bad : Option Nat) (p : Shows) (hopen : sniusOpen s = true) : sniusReads a n bad p s =
    sniusAfter false p bad (wordsRun (sniusRefused false) 5 false bad s a [] 0 (List.replicate n 0)) := by
  simp only [sniusReads, inControl, Nat.not_lt.mpr hmem, hopen, decide_false, Bool.not_true, Bool.false_eq_true, if_false]

theorem sniusWrites_memory (vs : List Nat) :
    sniusWrites a vs s = sniusAfter true .words none (wordsRun (sniusRefused true) 5 true none s a [] 0 vs) := by
  simp only [sniusWrites, inControl, Nat.not_lt.mpr hmem, decide_false, Bool.false_eq_true, if_false]

end

/-! ### The commands on a clean line (R537, R538) -/

theorem sniusRange_eq_false {n : Nat} (hbad : n < 4 ∨ 65536 < n ∨ n % 4 ≠ 0) : sniusRange n = false := by
  simp only [sniusRange, Bool.and_eq_false_iff, decide_eq_false_iff_not]
  omega

theorem sniusRange_eq_true {n : Nat} (hmin : 4 ≤ n) (hmax : n ≤ 65536) (hwhole : n % 4 = 0) : sniusRange n = true := by
  simp only [sniusRange, hmin, hmax, hwhole, decide_true, Bool.and_self]

section
variable {s : State} (hhears : sniusHears s = true) (a n v : Nat) (bad : Option Nat) (d : List Nat) (crc : Nat)
include hhears

theorem exec_peek_badCount (hn : n = 0 ∨ 16 < n) : exec (.peek .clean a n bad) s = .next (s.reply stMALFORMED []) := by
  simp only [exec, execPeek, sniusLine_clean _ hhears, hn, if_true]

theorem exec_peek_reads (h1 : 1 ≤ n) (h16 : n ≤ 16) : exec (.peek .clean a n bad) s = .next (sniusReads a n bad .words s) := by
  have hn : ¬ (n = 0 ∨ 16 < n) := by omega
  simp only [exec, execPeek, sniusLine_clean _ hhears, hn, if_false]

theorem exec_poke_closed (hclosed : sniusOpen s = false) : exec (.poke .clean a v) s = .next (s.reply stAUTH []) := by
  simp only [exec, execPoke, sniusLine_clean _ hhears, hclosed, Bool.not_false, if_true]

theorem exec_poke_writes (hopen : sniusOpen s = true) : exec (.poke .clean a v) s = .next (sniusWrites a [v % 2 ^ 32] s) := by
  simp only [exec, execPoke, sniusLine_clean _ hhears, hopen, Bool.not_true, Bool.false_eq_true, if_false]

section
variable (hbad : sniusRange n = false)
include hbad

theorem exec_dump_badRange : exec (.dump .clean a n bad) s = .next (s.reply stMALFORMED []) := by
  simp only [exec, execDump, sniusLine_clean _ hhears, hbad, Bool.not_false, if_true]

theorem exec_fill_badRange : exec (.fill .clean a n v) s = .next (s.reply stMALFORMED []) := by
  simp only [exec, execFill, sniusLine_clean _ hhears, hbad, Bool.not_false, if_true]

theorem exec_load_badRange : exec (.load .clean a n d crc) s = .next (s.reply stMALFORMED []) := by
  simp only [exec, execLoad, sniusLine_clean _ hhears, hbad, Bool.not_false, if_true]

end

section
variable (hrange : sniusRange n = true)
include hrange

theorem exec_dump_reads : exec (.dump .clean a n bad) s = .next (sniusReads a (n / 4) bad .bytes s) := by
  simp only [exec, execDump, sniusLine_clean _ hhears, hrange, Bool.not_true, Bool.false_eq_true, if_false]

section
variable (hclosed : sniusOpen s = false)
include hclosed

theorem exec_fill_closed : exec (.fill .clean a n v) s = .next (s.reply stAUTH []) := by
  simp only [exec, execFill, sniusLine_clean _ hhears, hrange, hclosed, Bool.not_true, Bool.not_false, Bool.false_eq_true, if_false, if_true]

theorem exec_load_closed : exec (.load .clean a n d crc) s = .next (s.reply stAUTH []) := by
  simp only [exec, execLoad, sniusLine_clean _ hhears, hrange, hclosed, Bool.not_true, Bool.not_false, Bool.false_eq_true, if_false, if_true]

end

variable (hopen : sniusOpen s = true)
include hopen

theorem exec_fill_writes : exec (.fill .clean a n v) s = .next (sniusWrites a (List.replicate (n / 4) (v % 2 ^ 32)) s) := by
  simp only [exec, execFill, sniusLine_clean _ hhears, hrange, hopen, Bool.not_true, Bool.false_eq_true, if_false]

variable {d crc} (hlen : d.length = n)
include hlen

theorem exec_load_badCrc (hcrc : crc32c (d.map (· % 256)) ≠ crc % 2 ^ 32) : exec (.load .clean a n d crc) s = .next (s.reply stCRC []) := by
  simp only [exec, execLoad, sniusLine_clean _ hhears, hrange, hopen, hlen, hcrc, Bool.not_true, Bool.false_eq_true, ne_eq, not_true, not_false_eq_true,
    if_false, if_true]

theorem exec_load_writes (hcrc : crc32c (d.map (· % 256)) = crc % 2 ^ 32) :
    exec (.load .clean a n d crc) s = .next (sniusWrites a (wordsOf d (n / 4)) s) := by
  simp only [exec, execLoad, sniusLine_clean _ hhears, hrange, hopen, hlen, hcrc, Bool.not_true, Bool.false_eq_true, ne_eq, not_true, if_false]

end

theorem exec_events_prints {wr k : Nat} (hwr : wr = s.rg Reg.SYS_RING_WR) (hk : k = min n (min wr (2 ^ ringLog2 s 0))) :
    exec (.events .clean n) s = .next (s.reply stOK ((List.range k).flatMap fun i =>
      s.readBytes (s.rg64 Reg.SYS_RING_BASE_LO + 32 * ((wr - k + i) % 2 ^ ringLog2 s 0)) 32)) := by
  simp only [exec, execEvents, sniusLine_clean _ hhears, ← hwr, ← hk]

theorem exec_tiles_prints : exec (.tiles .clean) s = .next (s.reply stOK ((List.range 128).flatMap fun n =>
    [n, readValue s (Reg.TIL_MODE n) % 4, bitsOf (readValue s (Reg.TIL_STATE n)) 2 0, bitsOf (readValue s (Reg.TIL_STATE n)) 15 8,
      readValue s (Reg.TIL_PC n)])) := by
  simp only [exec, execTiles, sniusLine_clean _ hhears]

theorem exec_lifecycle_prints : exec (.lifecycle .clean) s = .next (s.reply stOK
    [lifeState s, openScopes s, bootSlot s, s.fld Reg.LCS_BOOT 1 1, arbOf s 0, arbOf s 1, arbOf s 2]) := by
  simp only [exec, execLifecycle, sniusLine_clean _ hhears]
  rfl

theorem exec_attest_asks (hlen : d.length = 32) : exec (.attest .clean d) s = .next (reportAsk s d .serial) := by
  simp only [exec, execAttest, sniusLine_clean _ hhears, hlen, ne_eq, not_true, if_false]

theorem exec_attest_badNonce (hlen : d.length ≠ 32) : exec (.attest .clean d) s = .next (s.reply stMALFORMED []) := by
  simp only [exec, execAttest, sniusLine_clean _ hhears, hlen, ne_eq, not_false_eq_true, if_true]

end

/-! ### One word of memory (R44, R45, R539) -/

theorem sniusRefused_malformed {s : State} {a : Nat} {w : Bool} (href : memRefused s a w = true) : sniusRefused w s a = stMALFORMED := if_pos href

theorem sniusRefused_ok {s : State} {a : Nat} {w : Bool} (href : memRefused s a w = false) : sniusRefused w s a = stOK :=
  if_neg (Bool.eq_false_iff.mp href)

section
variable {s : State} {a : Nat} (w : Bool) (bad : Option Nat) (v : Nat)

/-- A word that the port refuses ends the run (R44). -/
theorem wordsRun_refused (href : memRefused s a w = true) :
    wordsRun (sniusRefused w) 5 w bad s a [] 0 [v] = ⟨s, stMALFORMED, [], 0, none⟩ := by
  have hst : stMALFORMED ≠ stOK := by decide
  simp only [wordsRun, sniusRefused_malformed href, hst, ne_eq, not_false_eq_true, if_true]

variable (href : memRefused s a w = false)
include href

/-- A word of fen memory is held until its channel grants it (R45). -/
theorem wordsRun_held (hfen : inFen a = true) :
    wordsRun (sniusRefused w) 5 w bad s a [] 0 [v] = ⟨dpwHold s 5 w a v, stOK, [], 0, some (a, [v])⟩ := by
  simp only [wordsRun, sniusRefused_ok href, hfen, ne_eq, not_true, if_false, if_true]

/-- A word of other memory moves at once (R44). -/
theorem wordsRun_now (hfen : inFen a = false) {t : State} {x st : Nat} (hdo : wordDo s w a v (bad == some 0) = (t, x, st)) :
    wordsRun (sniusRefused w) 5 w bad s a [] 0 [v] =
      if st ≠ stOK then ⟨t, st, [], 0, none⟩ else ⟨t, stOK, if w then [] else [(a, x)], 1, none⟩ := by
  simp only [wordsRun, sniusRefused_ok href, hfen, hdo, ne_eq, not_true, Bool.false_eq_true, if_false, List.nil_append, Nat.zero_add]

end

/-- A word of memory that cannot be corrected is counted and read as CRC (R506). -/
theorem wordDo_read_uncorr (s : State) {a : Nat} (hfen : inFen a = false) (v : Nat) : wordDo s false a v true = (uncorr s a, 0, stCRC) := by
  simp only [wordDo, memRead, hfen, Bool.false_eq_true, if_false, if_true]

section
variable {s : State} {a : Nat} (hhears : sniusHears s = true) (hopen : sniusOpen s = true) (hmem : 2 ^ 26 ≤ a) {bad : Option Nat}
include hhears hopen hmem

theorem exec_peek_memory {o : WordsOut} (ho : wordsRun (sniusRefused false) 5 false bad s a [] 0 [0] = o) :
    exec (.peek .clean a 1 bad) s = .next (sniusAfter false .words bad o) := by
  rw [exec_peek_reads hhears a 1 bad (by decide) (by decide), sniusReads_memory hmem 1 bad .words hopen, ← ho]
  rfl

theorem exec_poke_memory {v : Nat} {o : WordsOut} (ho : wordsRun (sniusRefused true) 5 true none s a [] 0 [v % 2 ^ 32] = o) :
    exec (.poke .clean a v) s = .next (sniusAfter true .words none o) := by
  rw [exec_poke_writes hhears a v hopen, sniusWrites_memory hmem, ho]

theorem exec_peek_refused (href : memRefused s a false = true) : exec (.peek .clean a 1 bad) s = .next (s.reply stMALFORMED []) :=
  exec_peek_memory hhears hopen hmem (wordsRun_refused false bad 0 href)

theorem exec_poke_refused (v : Nat) (href : memRefused s a true = true) :
    exec (.poke .clean a v) s = .next ((event0 (s.count Reg.UAR_WRITES) .uar 0 3).reply stMALFORMED []) :=
  exec_poke_memory hhears hopen hmem (wordsRun_refused true none _ href)

section
variable (hfen : inFen a = false)
include hfen

theorem exec_peek_word (href : memRefused s a false = false) : exec (.peek .clean a 1 none) s = .next (s.reply stOK [a, s.readLE a 4]) :=
  exec_peek_memory hhears hopen hmem (wordsRun_now false none 0 href hfen rfl)

theorem exec_peek_uncorr (href : memRefused s a false = false) : exec (.peek .clean a 1 (some 0)) s = .next ((uncorr s a).reply stCRC []) :=
  exec_peek_memory hhears hopen hmem (wordsRun_now false (some 0) 0 href hfen (wordDo_read_uncorr s hfen 0))

theorem exec_poke_word (v : Nat) (href : memRefused s a true = false) {u : State}
    (hu : u = pathWritten (s.writeLE a 4 (v % 2 ^ 32)) a (s.readLE a 4)) :
    exec (.poke .clean a v) s = .next ((event0 (u.count Reg.UAR_WRITES) .uar 0 3).reply stOK []) := by
  have hdo : wordDo s true a (v % 2 ^ 32) (none == some 0) = (u, 0, stOK) := by
    rw [hu, wordDo, if_pos rfl, memWrite, Nat.mod_mod]
  exact exec_poke_memory hhears hopen hmem (wordsRun_now true none _ href hfen hdo)

end

variable (hfen : inFen a = true) {u : State}
include hfen

theorem exec_peek_fen (href : memRefused s a false = false) (hu : u = dpwHold s 5 false a 0) : exec (.peek .clean a 1 bad) s =
    .next { u with uart := { u.uart with job := some ({ write := false, addr := a, todo := [0], bad := bad }, .words) } } :=
  hu ▸ exec_peek_memory hhears hopen hmem (wordsRun_held false bad 0 href hfen)

theorem exec_poke_fen (v : Nat) (href : memRefused s a true = false) (hu : u = dpwHold s 5 true a (v % 2 ^ 32)) : exec (.poke .clean a v) s =
    .next { u with uart := { u.uart with job := some ({ write := true, addr := a, todo := [v % 2 ^ 32] }, .words) } } :=
  hu ▸ exec_poke_memory hhears hopen hmem (wordsRun_held true none _ href hfen)

end

/-! ### A held word goes on (R45) -/

section
variable {s : State} {h : DpwHeld} (bad : Bool) (hfind : s.dpw.find? (·.core == 5) = some h)
include hfind

theorem exec_dpwHeldComplete_sniusWaits (hwait : h.asked = false ∨ fenPending s (addrStack h.addr) (addrPc h.addr) 133 = true) :
    exec (.dpwHeldComplete 5 bad) s = .next s := by
  have hheld : (!h.asked || fenPending s (addrStack h.addr) (addrPc h.addr) 133) = true := by
    rcases hwait with hwait | hwait <;> simp [hwait]
  simp only [exec, execDpwHeldComplete, Nat.reduceMod, Nat.reduceAdd, hfind, hheld, if_true]

theorem exec_dpwHeldComplete_snius (hasked : h.asked = true) (hserved : fenPending s (addrStack h.addr) (addrPc h.addr) 133 = false) {u : State}
    {r : WordRun} {p : Shows} (hu : u = { s with dpw := s.dpw.filter (·.core != 5) }) (hjob : s.uart.job = some (r, p)) :
    exec (.dpwHeldComplete 5 bad) s = .next (sniusAfter r.write p r.bad (wordsResume (sniusRefused r.write) 5 r bad u)) := by
  simp only [exec, execDpwHeldComplete, Nat.reduceMod, Nat.reduceAdd, hfind, hasked, hserved, ← hu, sniusServed, hjob, Bool.not_true, Bool.or_self,
    Bool.false_eq_true, Nat.reduceEqDiff, if_false, if_true]

end

/-! ### Breaks (R539) -/

theorem exec_uartBreak_long {us : Nat} {s : State} (hlong : 1000000 < us) (hup : s.up .uar 0 = true) (hfree : s.bit Reg.UAR_STAT 0 = false) :
    exec (.uartBreak us) s = .next (event0 (s.setFld Reg.UAR_STAT 0 0 1) .uar 0 4) := by
  simp only [exec, execUartBreak, Nat.not_le.mpr hlong, hup, hfree, decide_false, Bool.not_true, Bool.or_self, Bool.false_eq_true, if_false]

theorem exec_uartBreak_short {us : Nat} {s : State} (hshort : us ≤ 1000000) : exec (.uartBreak us) s = .next s := by
  simp only [exec, execUartBreak, hshort, decide_true, Bool.true_or, if_true]

/-! ### The statement -/

/-- Settles O59: a line by how it came, a command by its limits, the write scope and where its words lie, a held word by its grant. -/
theorem sniusAnswersItsCommandLines : Obligations.SniusAnswersItsCommandLines := by
  refine ⟨?lines, ?clean, fun s a v bad hhears hopen hmem => ⟨exec_peek_refused hhears hopen hmem, exec_poke_refused hhears hopen hmem v,
      fun hfen => ⟨fun href => ⟨exec_peek_word hhears hopen hmem hfen href, exec_peek_uncorr hhears hopen hmem hfen href⟩,
        fun href u => exec_poke_word hhears hopen hmem hfen v href⟩,
      fun hfen => ⟨fun href u => exec_peek_fen hhears hopen hmem hfen href, fun href u => exec_poke_fen hhears hopen hmem hfen v href⟩⟩,
    fun s h bad hfind => ⟨exec_dpwHeldComplete_sniusWaits bad hfind, fun hasked hserved u r p => exec_dpwHeldComplete_snius bad hfind hasked hserved⟩,
    fun s us => ⟨exec_uartBreak_long, exec_uartBreak_short, rfl⟩⟩
  case lines =>
    intro s l a n v bad d crc c hmem
    obtain ⟨run, hrun⟩ := exec_sniusCommand hmem s
    rw [hrun]
    refine ⟨fun hdeaf => congrArg _ (sniusLine_deaf run hdeaf l), ?_, ?_⟩
    · rintro hhears rfl
      exact congrArg _ (sniusLine_garbled run hhears)
    · rintro hhears rfl
      exact congrArg _ (sniusLine_tooLong run hhears)
  case clean =>
    intro s hhears a n v bad d crc
    refine ⟨exec_peek_badCount hhears a n bad, fun hbad => ?badRange, fun h1 h16 hmem hclosed => ?peekClosed,
      fun h1 h16 hctl t st xs hgets => ?peekControl,
      fun hmin hmax hwhole => ?range, exec_poke_closed hhears a v, fun hopen hctl t st hput => ?pokeControl,
      fun wr k => exec_events_prints hhears n, exec_tiles_prints hhears, exec_lifecycle_prints hhears, exec_attest_asks hhears d,
      exec_attest_badNonce hhears d⟩
    case badRange =>
      have hrange := sniusRange_eq_false hbad
      exact ⟨exec_dump_badRange hhears a n bad hrange, exec_fill_badRange hhears a n v hrange, exec_load_badRange hhears a n d crc hrange⟩
    case peekClosed => rw [exec_peek_reads hhears a n bad h1 h16, sniusReads_closed hmem n bad .words hclosed]
    case peekControl => exact (exec_peek_reads hhears a n bad h1 h16).trans (congrArg _ (sniusReads_control hctl .words hgets))
    case pokeControl => exact (exec_poke_writes hhears a v hopen).trans (congrArg _ (sniusWrites_control hctl (sniusPuts_one hput)))
    case range =>
      have hrange := sniusRange_eq_true hmin hmax hwhole
      have dump := exec_dump_reads hhears a n bad hrange
      refine ⟨fun hclosed => ⟨fun hmem => ?_, exec_fill_closed hhears a n v hrange hclosed, exec_load_closed hhears a n d crc hrange hclosed⟩,
        fun hctl t st xs hgets => dump.trans (congrArg _ (sniusReads_control hctl .bytes hgets)), fun hmem hopen => ?_, fun hopen vs hvs => ?fill,
        fun hopen hlen hcrc vs hvs => ?load, exec_load_badCrc hhears a n hrange⟩
      · rw [dump, sniusReads_closed hmem (n / 4) bad .bytes hclosed]
      · rw [dump, sniusReads_memory hmem (n / 4) bad .bytes hopen]
      case fill =>
        subst hvs
        rw [exec_fill_writes hhears a n v hrange hopen]
        exact ⟨fun hctl t st hputs => congrArg _ (sniusWrites_control hctl hputs), fun hmem => congrArg _ (sniusWrites_memory hmem _)⟩
      case load =>
        subst hvs
        rw [exec_load_writes hhears a n hrange hopen hlen hcrc]
        exact ⟨fun hctl t st hputs => congrArg _ (sniusWrites_control hctl hputs), fun hmem => congrArg _ (sniusWrites_memory hmem _)⟩

end Sys2Proof.Machine
end
